-- ==== Sys2Proof/Word.lean ====
section
/-! DEFINITION. The words of Serfin: the bit-vector types of the manual's registers and memory units. -/

namespace Sys2Proof

/-- A byte of memory (R3). -/
abbrev Byte := BitVec 8
/-- A half of a bundle: one instruction word (R33). -/
abbrev Word32 := BitVec 32
/-- A scalar register, a system register, an address while it is computed (R188, R52). -/
abbrev Word := BitVec 64
/-- A vector register (R190). -/
abbrev VWord := BitVec 1024
/-- A mask register, one bit for each byte lane (R191). -/
abbrev KWord := BitVec 128

/-- Number of a scalar register s0 to s31 (R7). -/
abbrev SReg := BitVec 5
/-- Number of a vector register v0 to v31 (R7). -/
abbrev VReg := BitVec 5
/-- Number of a predicate p0 to p7 (R7). -/
abbrev PReg := BitVec 3
/-- Number of a mask register k0 to k7 (R7). -/
abbrev KReg := BitVec 3
/-- Number of a queue register q0 to q15 (R7). -/
abbrev QReg := BitVec 4

end Sys2Proof
end

