-- ==== Sys2Proof/Syntax.lean ====
section
/-! DEFINITION. The instructions of Serfin and the operations and events of the Kreantus K6: one constructor for each row of the
opcode table. A slot instruction carries the fields of its encoding (R38, R39); an event carries what arrives with it. -/

namespace Sys2Proof

/-- The operand formats of R232, in the order of their identifiers 0 to 23. -/
inductive Fmt where
  | f32 | bf16 | f16 | e4m3 | e5m2 | x43 | x52 | e3m2 | e2m3 | e2m1 | i32 | i16 | i8 | i4 | n8 | n4
  | b16 | b8 | b4 | t5 | t5s | pm1 | e3m4 | i2
  deriving DecidableEq, Repr

/-- A format field of `fmt`: none is the value 31, "not given" (R45). -/
abbrev FmtId := Option Fmt

/-- The offset of a memory operand: the scaled 11-bit field, or the 32-bit literal byte offset (R37, R175). -/
inductive MemOff where
  | short (o : BitVec 11)
  | lit (o : BitVec 32)
  deriving DecidableEq, Repr

/-- Operand b of a CR instruction: a register, or the literal word (R37). -/
inductive RegLit where
  | reg (b : SReg)
  | lit (x : BitVec 32)
  deriving DecidableEq, Repr

/-- The immediate of a CQ instruction with a literal form (R37). -/
inductive QImm where
  | short (i : BitVec 12)
  | lit (x : BitVec 32)
  deriving DecidableEq, Repr

/-- Type of an atomic (R329). -/
inductive AType where
  | w | d | f32 | q
  deriving DecidableEq, Repr

/-- Size of an SC operation (R334). -/
inductive ScSize where
  | w | d
  deriving DecidableEq, Repr

/-- Scope of an SC operation: device, or domain with the suffix `.dom` (R334). -/
inductive ScScope where
  | device | domain
  deriving DecidableEq, Repr

/-- The three forms of a rope command (R113): plain, inbox (`.i`), returning (`.w`). -/
inductive RopeForm where
  | plain | inbox | returning
  deriving DecidableEq, Repr

/-- The codes of a scalar compare (R209). -/
inductive Cc where
  | eq | ne | lt | ge | ltu | geu
  deriving DecidableEq, Repr

/-- The codes of a floating-point compare (R260). -/
inductive FCc where
  | eq | ne | lt | le | uo
  deriving DecidableEq, Repr

/-- Element sizes of a vector instruction (R255). -/
inductive ESize where
  | b | h | w | d
  deriving DecidableEq, Repr

/-- Floating-point types of opcodes 0x11 to 0x13 (R257). -/
inductive FType where
  | f32 | bf16 | f16
  deriving DecidableEq, Repr

/-- Half types of the widening multiply-adds (R259). -/
inductive HType where
  | bf16 | f16
  deriving DecidableEq, Repr

/-- What a vector compare compares (R260). -/
inductive VCmp where
  | int (c : Cc) (s : ESize)
  | fp (c : FCc) (t : FType)
  deriving DecidableEq, Repr

/-- Element types of `vtunpack` (R274). -/
inductive TType where
  | i8 | i2 | e4m3 | e5m2 | e3m4 | e3m2 | e2m3 | e2m1 | bf16 | f16 | f32
  deriving DecidableEq, Repr

/-- Element types of `vtpack` (R275). -/
inductive TPack where
  | i8 | i2
  deriving DecidableEq, Repr

/-- The system registers of R197, in the order of their numbers 0 to 20. -/
inductive SysReg where
  | tsr | epc | cause | faddr | time | wsp | lsb | tid | tstamp | unit | launch | core | slot | wcnt | world | pfx
  | lap | lbm | xtag | sbind | lpc
  deriving DecidableEq, Repr

/-- A place of a unit: K-die, cluster, core and slot (R197, register CORE and SLOT). -/
structure Loc where
  die : Nat
  cluster : Nat
  core : Nat
  slot : Nat
  deriving DecidableEq, Repr

/-- Kinds of an access (R60). -/
inductive Acc where
  | read | write | atomic | fetch
  deriving DecidableEq, Repr

/-- The part that makes a request (R78, field SRC). -/
inductive Source where
  | worker | copy | wain | rope | slice | cp
  deriving DecidableEq, Repr

/-- A translation request that reaches a shared-cache slice (R69, R71). -/
structure XlReq where
  src : Source
  loc : Loc
  job : Nat
  supervisor : Bool
  secure : Bool
  acc : Acc
  va : Word
  size : Nat
  value : Nat
  deriving DecidableEq, Repr

/-- Types of a fabric packet (R422). -/
inductive PktType where
  | read | data | write | lock | ack | perform | unlock | atomic | sc | refuse | send | beacon
  deriving DecidableEq, Repr

/-- A packet of the Trelior fabric (R422): the header fields and the data bytes. -/
structure Packet where
  dst : Nat
  src : Nat
  sdie : Nat
  lseq : Nat
  exp : Nat
  addr : Nat
  data : List Byte
  deriving DecidableEq, Repr

/-- The fields of a fabric flit (R420), with the outcome of the comparison of its CRC. -/
structure Flit where
  crcGood : Bool
  seq : Nat
  ack : Nat
  nak : Bool
  vl : Nat
  sop : Bool
  eop : Bool
  nul : Bool
  stop : BitVec 8
  pay : List Byte
  deriving DecidableEq, Repr

/-- The fields of a die flit (R429), with the outcome of the comparison of its CRC. -/
structure DieFlit where
  crcGood : Bool
  seq : Nat
  ack : Nat
  nak : Bool
  stop : BitVec 6
  slots : List Byte
  deriving DecidableEq, Repr

/-- A die message (R429): the header fields and the data bytes; CLASS and TYPE are the event's own. -/
structure DieMsg where
  sdie : Nat
  ddie : Nat
  addr : Nat
  tag : Nat
  exp : Nat
  data : List Byte
  deriving DecidableEq, Repr

/-- What the host reads: an offset in the hub register window, BAR0, or in device memory, BAR2 (R415). -/
inductive HostAddr where
  | bar0 (off : BitVec 32)
  | bar2 (off : BitVec 36)
  deriving DecidableEq, Repr

/-- What a die declares in DISCOVER (R430, R431). -/
structure Discover where
  kind : Nat
  die : Nat
  port : Nat
  nport : Nat
  range : BitVec 46
  deriving DecidableEq, Repr

/-- Completion status of a PCIe AtomicOp (R355): successful, or UR or CA. -/
inductive PcieStatus where
  | sc | ur | ca
  deriving DecidableEq, Repr

/-- A block that carries a world (R433). -/
inductive Block where
  | cluster (die c : Nat)
  | wain (die stack group : Nat)
  | rope (die : Nat)
  | command (hub : Nat)
  | hostLink (hub : Nat)
  | lpddrCopy (package : Nat)
  deriving DecidableEq, Repr

/-- Every row of the opcode table: the slot instructions, then the operations and events. -/
inductive Instr where
  /-- nop (R48). -/
  | nop
  /-- fmt (R46). -/
  | fmtC (fa : FmtId) (fb : FmtId) (fc : FmtId)
  /-- fmt (R46). -/
  | fmtA (fa : FmtId) (fb : FmtId) (fc : FmtId)
  /-- ld.b (R176). -/
  | ldB (la : BitVec 4) (d : SReg) (b : SReg) (o : MemOff)
  /-- ld.h (R176). -/
  | ldH (la : BitVec 4) (d : SReg) (b : SReg) (o : MemOff)
  /-- ld.w (R176). -/
  | ldW (la : BitVec 4) (d : SReg) (b : SReg) (o : MemOff)
  /-- ld.d (R176). -/
  | ldD (la : BitVec 4) (d : SReg) (b : SReg) (o : MemOff)
  /-- ld.bs (R176). -/
  | ldBs (la : BitVec 4) (d : SReg) (b : SReg) (o : MemOff)
  /-- ld.hs (R176). -/
  | ldHs (la : BitVec 4) (d : SReg) (b : SReg) (o : MemOff)
  /-- ld.ws (R176). -/
  | ldWs (la : BitVec 4) (d : SReg) (b : SReg) (o : MemOff)
  /-- vld (R176). -/
  | vld (la : BitVec 4) (d : VReg) (b : SReg) (o : MemOff)
  /-- vld.tag (R176). -/
  | vldTag (la : BitVec 4) (d : VReg) (b : SReg) (o : MemOff)
  /-- st.b (R177). -/
  | stB (d : SReg) (b : SReg) (o : MemOff)
  /-- st.h (R177). -/
  | stH (d : SReg) (b : SReg) (o : MemOff)
  /-- st.w (R177). -/
  | stW (d : SReg) (b : SReg) (o : MemOff)
  /-- st.d (R177). -/
  | stD (d : SReg) (b : SReg) (o : MemOff)
  /-- vst (R177). -/
  | vst (d : VReg) (b : SReg) (o : MemOff)
  /-- vst.tag (R177). -/
  | vstTag (d : VReg) (b : SReg) (o : MemOff)
  /-- adr (R214). -/
  | adr (d : SReg) (b : SReg) (o : MemOff)
  /-- cpf (R181). -/
  | cpf (a : SReg) (b : SReg)
  /-- cinv (R181). -/
  | cinv (a : SReg) (b : SReg)
  /-- lbank (R182). -/
  | lbank (d : SReg) (a : SReg) (b : SReg)
  /-- lrng (R183). -/
  | lrng (a : SReg) (b : SReg)
  /-- lstat (R183). -/
  | lstat (d : SReg) (a : SReg)
  /-- sbind (R184). -/
  | sbind (a : SReg)
  /-- ltag (R185). -/
  | ltag (d : SReg) (a : SReg)
  /-- aswap (R330). -/
  | aswap (la : BitVec 4) (d : SReg) (a : SReg) (b : RegLit) (t : AType)
  /-- acas (R330). -/
  | acas (la : BitVec 4) (d : SReg) (a : SReg) (b : RegLit) (t : AType)
  /-- aadd (R330). -/
  | aadd (la : BitVec 4) (d : SReg) (a : SReg) (b : RegLit) (t : AType)
  /-- aand (R330). -/
  | aand (la : BitVec 4) (d : SReg) (a : SReg) (b : RegLit) (t : AType)
  /-- aor (R330). -/
  | aor (la : BitVec 4) (d : SReg) (a : SReg) (b : RegLit) (t : AType)
  /-- axor (R330). -/
  | axor (la : BitVec 4) (d : SReg) (a : SReg) (b : RegLit) (t : AType)
  /-- amax (R330). -/
  | amax (la : BitVec 4) (d : SReg) (a : SReg) (b : RegLit) (t : AType)
  /-- amin (R330). -/
  | amin (la : BitVec 4) (d : SReg) (a : SReg) (b : RegLit) (t : AType)
  /-- amaxu (R330). -/
  | amaxu (la : BitVec 4) (d : SReg) (a : SReg) (b : RegLit) (t : AType)
  /-- aminu (R330). -/
  | aminu (la : BitVec 4) (d : SReg) (a : SReg) (b : RegLit) (t : AType)
  /-- aadd.n (R333). -/
  | aaddN (a : SReg) (b : RegLit) (t : AType)
  /-- aand.n (R333). -/
  | aandN (a : SReg) (b : RegLit) (t : AType)
  /-- aor.n (R333). -/
  | aorN (a : SReg) (b : RegLit) (t : AType)
  /-- axor.n (R333). -/
  | axorN (a : SReg) (b : RegLit) (t : AType)
  /-- amax.n (R333). -/
  | amaxN (a : SReg) (b : RegLit) (t : AType)
  /-- amin.n (R333). -/
  | aminN (a : SReg) (b : RegLit) (t : AType)
  /-- amaxu.n (R333). -/
  | amaxuN (a : SReg) (b : RegLit) (t : AType)
  /-- aminu.n (R333). -/
  | aminuN (a : SReg) (b : RegLit) (t : AType)
  /-- fence (R337). -/
  | fence
  /-- fence.e (R337). -/
  | fenceE
  /-- fence.i (R337). -/
  | fenceI
  /-- fence.ei (R337). -/
  | fenceEi
  /-- bar (R338). -/
  | bar (a : SReg) (b : SReg)
  /-- sc.ld (R335). -/
  | scLd (la : BitVec 4) (d : SReg) (a : SReg) (m : ScScope) (z : ScSize)
  /-- sc.st (R335). -/
  | scSt (a : SReg) (b : RegLit) (m : ScScope) (z : ScSize)
  /-- sc.swap (R335). -/
  | scSwap (la : BitVec 4) (d : SReg) (a : SReg) (b : RegLit) (m : ScScope) (z : ScSize)
  /-- sc.cas (R335). -/
  | scCas (la : BitVec 4) (d : SReg) (a : SReg) (b : RegLit) (m : ScScope) (z : ScSize)
  /-- sc.add (R335). -/
  | scAdd (la : BitVec 4) (d : SReg) (a : SReg) (b : RegLit) (m : ScScope) (z : ScSize)
  /-- br (R215). -/
  | br (p : PReg) (disp : BitVec 22)
  /-- brf (R215). -/
  | brf (p : PReg) (disp : BitVec 22)
  /-- call (R216). -/
  | call (p : PReg) (disp : BitVec 22)
  /-- jr (R217). -/
  | jr (a : SReg)
  /-- callr (R217). -/
  | callr (a : SReg)
  /-- ret (R218). -/
  | ret
  /-- wflush (R219). -/
  | wflush
  /-- wdepth (R219). -/
  | wdepth (d : SReg)
  /-- at (R220). -/
  | atTime (a : SReg)
  /-- at.c (R220). -/
  | atTimeC (a : SReg)
  /-- gang (R222). -/
  | gang (a : SReg)
  /-- split (R223). -/
  | split
  /-- tbegin (R227). -/
  | tbegin (a : SReg) (b : SReg)
  /-- tcommit (R227). -/
  | tcommit
  /-- tend (R231). -/
  | tend
  /-- tspawn (R228). -/
  | tspawn (d : SReg) (a : SReg) (b : SReg)
  /-- tstamp (R229). -/
  | tstamp (d : SReg)
  /-- tabort (R230). -/
  | tabort
  /-- tabort.o (R230). -/
  | tabortO
  /-- exit (R231). -/
  | exit (a : SReg)
  /-- div (R211). -/
  | div (la : BitVec 4) (d : SReg) (a : SReg) (b : RegLit)
  /-- divu (R211). -/
  | divu (la : BitVec 4) (d : SReg) (a : SReg) (b : RegLit)
  /-- rem (R211). -/
  | rem (la : BitVec 4) (d : SReg) (a : SReg) (b : RegLit)
  /-- remu (R211). -/
  | remu (la : BitVec 4) (d : SReg) (a : SReg) (b : RegLit)
  /-- divw (R211). -/
  | divw (la : BitVec 4) (d : SReg) (a : SReg) (b : RegLit)
  /-- divuw (R211). -/
  | divuw (la : BitVec 4) (d : SReg) (a : SReg) (b : RegLit)
  /-- remw (R211). -/
  | remw (la : BitVec 4) (d : SReg) (a : SReg) (b : RegLit)
  /-- remuw (R211). -/
  | remuw (la : BitVec 4) (d : SReg) (a : SReg) (b : RegLit)
  /-- mul2 (R211). -/
  | mul2 (la : BitVec 4) (d : SReg) (a : SReg) (b : RegLit)
  /-- mul2u (R211). -/
  | mul2u (la : BitVec 4) (d : SReg) (a : SReg) (b : RegLit)
  /-- mfsr (R199). -/
  | mfsr (d : SReg) (r : SysReg)
  /-- mtsr (R199). -/
  | mtsr (a : SReg) (r : SysReg)
  /-- lhz.m (R81). -/
  | lhzM (d : SReg) (a : SReg)
  /-- lhz.d (R81). -/
  | lhzD (d : SReg) (a : SReg)
  /-- lwait (R82). -/
  | lwait (a : SReg)
  /-- ptw (R83). -/
  | ptw (d : SReg) (a : SReg) (b : SReg)
  /-- frep (R84). -/
  | frep (d : SReg) (a : SReg) (b : SReg)
  /-- trap (R401). -/
  | trap (i : BitVec 16)
  /-- brk (R401). -/
  | brk (i : BitVec 16)
  /-- rte (R401). -/
  | rte
  /-- tkill (R401). -/
  | tkill (i : BitVec 16)
  /-- crd (R390). -/
  | crd (d : SReg) (a : SReg)
  /-- cwait (R390). -/
  | cwait (d : SReg) (a : SReg) (b : SReg)
  /-- csig (R390). -/
  | csig (a : SReg) (b : SReg)
  /-- lcancel (R390). -/
  | lcancel (a : SReg)
  /-- cset (R390). -/
  | cset (a : SReg) (b : SReg)
  /-- qpop (R196). -/
  | qpop (la : BitVec 4) (d : SReg) (q : QReg)
  /-- qpush (R196). -/
  | qpush (d : SReg) (q : QReg) (i : QImm)
  /-- vqpop (R196). -/
  | vqpop (la : BitVec 4) (d : VReg) (q : QReg)
  /-- vqpush (R196). -/
  | vqpush (d : VReg) (q : QReg)
  /-- cpy (R141). -/
  | cpy (d : SReg) (tag : BitVec 6)
  /-- cpy.try (R141). -/
  | cpyTry (la : BitVec 4) (d : SReg) (tag : BitVec 6)
  /-- mcmd (R286). -/
  | mcmd (d : SReg) (c : QImm)
  /-- rcat (R119). -/
  | rcat (la : BitVec 4) (d : SReg) (tag : BitVec 6) (form : RopeForm)
  /-- rsplit (R119). -/
  | rsplit (la : BitVec 4) (d : SReg) (tag : BitVec 6) (form : RopeForm)
  /-- rsplice (R119). -/
  | rsplice (la : BitVec 4) (d : SReg) (tag : BitVec 6) (form : RopeForm)
  /-- rindex (R120). -/
  | rindex (la : BitVec 4) (d : SReg) (tag : BitVec 6) (form : RopeForm)
  /-- rsum (R121). -/
  | rsum (la : BitVec 4) (d : SReg) (tag : BitVec 6) (form : RopeForm)
  /-- rwalk (R122). -/
  | rwalk (la : BitVec 4) (d : SReg) (tag : BitVec 6) (form : RopeForm)
  /-- rhold (R123). -/
  | rhold (la : BitVec 4) (d : SReg) (tag : BitVec 6) (form : RopeForm)
  /-- rdrop (R123). -/
  | rdrop (la : BitVec 4) (d : SReg) (tag : BitVec 6) (form : RopeForm)
  /-- rpiece (R124). -/
  | rpiece (la : BitVec 4) (d : SReg) (tag : BitVec 6) (form : RopeForm)
  /-- rresum (R125). -/
  | rresum (la : BitVec 4) (d : SReg) (tag : BitVec 6) (form : RopeForm)
  /-- trim (R119). -/
  | trim (la : BitVec 4) (d : SReg) (tag : BitVec 6) (form : RopeForm)
  /-- rtier (R126). -/
  | rtier (la : BitVec 4) (d : SReg) (tag : BitVec 6) (form : RopeForm)
  /-- hblk (R130). -/
  | hblk (la : BitVec 4) (d : SReg) (v : VReg)
  /-- pfx.look (R133). -/
  | pfxLook (la : BitVec 4) (d : SReg)
  /-- pfx.add (R134). -/
  | pfxAdd (la : BitVec 4) (d : SReg)
  /-- pfx.pin (R135). -/
  | pfxPin (la : BitVec 4) (d : SReg)
  /-- pfx.unpin (R135). -/
  | pfxUnpin (la : BitVec 4) (d : SReg)
  /-- tget (R296). -/
  | tget (d : VReg) (a : SReg) (y : BitVec 2)
  /-- tput (R296). -/
  | tput (d : VReg) (a : SReg) (y : BitVec 2)
  /-- qwait (R339). -/
  | qwait (la : BitVec 4) (d : SReg) (q : QReg)
  /-- wcwait (R339). -/
  | wcwait (la : BitVec 4) (d : SReg) (c : BitVec 8)
  /-- add (R204). -/
  | add (d : SReg) (a : SReg) (b : SReg) (p : PReg)
  /-- sub (R204). -/
  | sub (d : SReg) (a : SReg) (b : SReg) (p : PReg)
  /-- addw (R204). -/
  | addw (d : SReg) (a : SReg) (b : SReg) (p : PReg)
  /-- subw (R204). -/
  | subw (d : SReg) (a : SReg) (b : SReg) (p : PReg)
  /-- adds (R204). -/
  | adds (d : SReg) (a : SReg) (b : SReg) (p : PReg)
  /-- subs (R204). -/
  | subs (d : SReg) (a : SReg) (b : SReg) (p : PReg)
  /-- addus (R204). -/
  | addus (d : SReg) (a : SReg) (b : SReg) (p : PReg)
  /-- subus (R204). -/
  | subus (d : SReg) (a : SReg) (b : SReg) (p : PReg)
  /-- and (R204). -/
  | and (d : SReg) (a : SReg) (b : SReg) (p : PReg)
  /-- or (R204). -/
  | or (d : SReg) (a : SReg) (b : SReg) (p : PReg)
  /-- xor (R204). -/
  | xor (d : SReg) (a : SReg) (b : SReg) (p : PReg)
  /-- andn (R204). -/
  | andn (d : SReg) (a : SReg) (b : SReg) (p : PReg)
  /-- orn (R204). -/
  | orn (d : SReg) (a : SReg) (b : SReg) (p : PReg)
  /-- xnor (R204). -/
  | xnor (d : SReg) (a : SReg) (b : SReg) (p : PReg)
  /-- min (R204). -/
  | min (d : SReg) (a : SReg) (b : SReg) (p : PReg)
  /-- max (R204). -/
  | max (d : SReg) (a : SReg) (b : SReg) (p : PReg)
  /-- minu (R204). -/
  | minu (d : SReg) (a : SReg) (b : SReg) (p : PReg)
  /-- maxu (R204). -/
  | maxu (d : SReg) (a : SReg) (b : SReg) (p : PReg)
  /-- abs (R204). -/
  | abs (d : SReg) (a : SReg) (p : PReg)
  /-- sll (R206). -/
  | sll (d : SReg) (a : SReg) (b : SReg) (p : PReg)
  /-- srl (R206). -/
  | srl (d : SReg) (a : SReg) (b : SReg) (p : PReg)
  /-- sra (R206). -/
  | sra (d : SReg) (a : SReg) (b : SReg) (p : PReg)
  /-- rol (R206). -/
  | rol (d : SReg) (a : SReg) (b : SReg) (p : PReg)
  /-- ror (R206). -/
  | ror (d : SReg) (a : SReg) (b : SReg) (p : PReg)
  /-- sllw (R206). -/
  | sllw (d : SReg) (a : SReg) (b : SReg) (p : PReg)
  /-- srlw (R206). -/
  | srlw (d : SReg) (a : SReg) (b : SReg) (p : PReg)
  /-- sraw (R206). -/
  | sraw (d : SReg) (a : SReg) (b : SReg) (p : PReg)
  /-- sll (R206). -/
  | sllImm (d : SReg) (a : SReg) (n : BitVec 6)
  /-- srl (R206). -/
  | srlImm (d : SReg) (a : SReg) (n : BitVec 6)
  /-- sra (R206). -/
  | sraImm (d : SReg) (a : SReg) (n : BitVec 6)
  /-- rol (R206). -/
  | rolImm (d : SReg) (a : SReg) (n : BitVec 6)
  /-- ror (R206). -/
  | rorImm (d : SReg) (a : SReg) (n : BitVec 6)
  /-- sllw (R206). -/
  | sllwImm (d : SReg) (a : SReg) (n : BitVec 5)
  /-- srlw (R206). -/
  | srlwImm (d : SReg) (a : SReg) (n : BitVec 5)
  /-- sraw (R206). -/
  | srawImm (d : SReg) (a : SReg) (n : BitVec 5)
  /-- mul (R207). -/
  | mul (d : SReg) (a : SReg) (b : SReg) (p : PReg)
  /-- mulh (R207). -/
  | mulh (d : SReg) (a : SReg) (b : SReg) (p : PReg)
  /-- mulhu (R207). -/
  | mulhu (d : SReg) (a : SReg) (b : SReg) (p : PReg)
  /-- mulhsu (R207). -/
  | mulhsu (d : SReg) (a : SReg) (b : SReg) (p : PReg)
  /-- mulw (R207). -/
  | mulw (d : SReg) (a : SReg) (b : SReg) (p : PReg)
  /-- clz (R208). -/
  | clz (d : SReg) (a : SReg) (p : PReg)
  /-- ctz (R208). -/
  | ctz (d : SReg) (a : SReg) (p : PReg)
  /-- popc (R208). -/
  | popc (d : SReg) (a : SReg) (p : PReg)
  /-- brev (R208). -/
  | brev (d : SReg) (a : SReg) (p : PReg)
  /-- bswap (R208). -/
  | bswap (d : SReg) (a : SReg) (p : PReg)
  /-- sext.b (R208). -/
  | sextB (d : SReg) (a : SReg) (p : PReg)
  /-- sext.h (R208). -/
  | sextH (d : SReg) (a : SReg) (p : PReg)
  /-- sext.w (R208). -/
  | sextW (d : SReg) (a : SReg) (p : PReg)
  /-- zext.b (R208). -/
  | zextB (d : SReg) (a : SReg) (p : PReg)
  /-- zext.h (R208). -/
  | zextH (d : SReg) (a : SReg) (p : PReg)
  /-- zext.w (R208). -/
  | zextW (d : SReg) (a : SReg) (p : PReg)
  /-- bclr (R208). -/
  | bclr (d : SReg) (a : SReg) (b : SReg) (p : PReg)
  /-- bset (R208). -/
  | bset (d : SReg) (a : SReg) (b : SReg) (p : PReg)
  /-- binv (R208). -/
  | binv (d : SReg) (a : SReg) (b : SReg) (p : PReg)
  /-- bext (R208). -/
  | bext (d : SReg) (a : SReg) (b : SReg) (p : PReg)
  /-- cmp.cc (R209). -/
  | cmp (d : PReg) (a : SReg) (b : SReg) (p : PReg) (c : Cc)
  /-- cmp.cc (R209). -/
  | cmpImm (d : PReg) (a : SReg) (c : Cc) (i : BitVec 13)
  /-- sel (R210). -/
  | sel (d : SReg) (a : SReg) (b : SReg) (p : PReg) (q : PReg)
  /-- mov (R210). -/
  | mov (d : SReg) (a : SReg) (p : PReg)
  /-- pand (R210). -/
  | pand (d : PReg) (a : PReg) (b : PReg) (p : PReg)
  /-- por (R210). -/
  | por (d : PReg) (a : PReg) (b : PReg) (p : PReg)
  /-- pxor (R210). -/
  | pxor (d : PReg) (a : PReg) (b : PReg) (p : PReg)
  /-- pandn (R210). -/
  | pandn (d : PReg) (a : PReg) (b : PReg) (p : PReg)
  /-- pnot (R210). -/
  | pnot (d : PReg) (a : PReg) (p : PReg)
  /-- pmov (R210). -/
  | pmov (d : SReg) (a : PReg) (p : PReg)
  /-- ptest (R210). -/
  | ptest (d : PReg) (a : SReg) (p : PReg)
  /-- add (R205). -/
  | addImm (d : SReg) (a : SReg) (i : BitVec 16)
  /-- and (R205). -/
  | andImm (d : SReg) (a : SReg) (i : BitVec 16)
  /-- or (R205). -/
  | orImm (d : SReg) (a : SReg) (i : BitVec 16)
  /-- xor (R205). -/
  | xorImm (d : SReg) (a : SReg) (i : BitVec 16)
  /-- li (R205). -/
  | li (d : SReg) (i : BitVec 16)
  /-- lih (R205). -/
  | lih (d : SReg) (a : SReg) (i : BitVec 16)
  /-- vadd (R256). -/
  | vadd (d : VReg) (a : VReg) (b : VReg) (k : KReg) (s : ESize)
  /-- vsub (R256). -/
  | vsub (d : VReg) (a : VReg) (b : VReg) (k : KReg) (s : ESize)
  /-- vadds (R256). -/
  | vadds (d : VReg) (a : VReg) (b : VReg) (k : KReg) (s : ESize)
  /-- vsubs (R256). -/
  | vsubs (d : VReg) (a : VReg) (b : VReg) (k : KReg) (s : ESize)
  /-- vaddus (R256). -/
  | vaddus (d : VReg) (a : VReg) (b : VReg) (k : KReg) (s : ESize)
  /-- vsubus (R256). -/
  | vsubus (d : VReg) (a : VReg) (b : VReg) (k : KReg) (s : ESize)
  /-- vmul (R256). -/
  | vmul (d : VReg) (a : VReg) (b : VReg) (k : KReg) (s : ESize)
  /-- vmulh (R256). -/
  | vmulh (d : VReg) (a : VReg) (b : VReg) (k : KReg) (s : ESize)
  /-- vmulhu (R256). -/
  | vmulhu (d : VReg) (a : VReg) (b : VReg) (k : KReg) (s : ESize)
  /-- vand (R256). -/
  | vand (d : VReg) (a : VReg) (b : VReg) (k : KReg) (s : ESize)
  /-- vor (R256). -/
  | vor (d : VReg) (a : VReg) (b : VReg) (k : KReg) (s : ESize)
  /-- vxor (R256). -/
  | vxor (d : VReg) (a : VReg) (b : VReg) (k : KReg) (s : ESize)
  /-- vandn (R256). -/
  | vandn (d : VReg) (a : VReg) (b : VReg) (k : KReg) (s : ESize)
  /-- vmin (R256). -/
  | vmin (d : VReg) (a : VReg) (b : VReg) (k : KReg) (s : ESize)
  /-- vmax (R256). -/
  | vmax (d : VReg) (a : VReg) (b : VReg) (k : KReg) (s : ESize)
  /-- vminu (R256). -/
  | vminu (d : VReg) (a : VReg) (b : VReg) (k : KReg) (s : ESize)
  /-- vmaxu (R256). -/
  | vmaxu (d : VReg) (a : VReg) (b : VReg) (k : KReg) (s : ESize)
  /-- vabs (R256). -/
  | vabs (d : VReg) (a : VReg) (k : KReg) (s : ESize)
  /-- vsll (R256). -/
  | vsll (d : VReg) (a : VReg) (b : VReg) (k : KReg) (s : ESize)
  /-- vsrl (R256). -/
  | vsrl (d : VReg) (a : VReg) (b : VReg) (k : KReg) (s : ESize)
  /-- vsra (R256). -/
  | vsra (d : VReg) (a : VReg) (b : VReg) (k : KReg) (s : ESize)
  /-- vavgu (R256). -/
  | vavgu (d : VReg) (a : VReg) (b : VReg) (k : KReg) (s : ESize)
  /-- vadd.t (R257). -/
  | vaddF (d : VReg) (a : VReg) (b : VReg) (k : KReg) (t : FType)
  /-- vsub.t (R257). -/
  | vsubF (d : VReg) (a : VReg) (b : VReg) (k : KReg) (t : FType)
  /-- vmul.t (R257). -/
  | vmulF (d : VReg) (a : VReg) (b : VReg) (k : KReg) (t : FType)
  /-- vmin.t (R258). -/
  | vminF (d : VReg) (a : VReg) (b : VReg) (k : KReg) (t : FType)
  /-- vmax.t (R258). -/
  | vmaxF (d : VReg) (a : VReg) (b : VReg) (k : KReg) (t : FType)
  /-- vabs.t (R258). -/
  | vabsF (d : VReg) (a : VReg) (k : KReg) (t : FType)
  /-- vneg.t (R258). -/
  | vnegF (d : VReg) (a : VReg) (k : KReg) (t : FType)
  /-- vcpsgn.t (R258). -/
  | vcpsgnF (d : VReg) (a : VReg) (b : VReg) (k : KReg) (t : FType)
  /-- vfma.t (R259). -/
  | vfma (d : VReg) (a : VReg) (b : VReg) (k : KReg) (t : FType)
  /-- vfms.t (R259). -/
  | vfms (d : VReg) (a : VReg) (b : VReg) (k : KReg) (t : FType)
  /-- vfnma.t (R259). -/
  | vfnma (d : VReg) (a : VReg) (b : VReg) (k : KReg) (t : FType)
  /-- vfnms.t (R259). -/
  | vfnms (d : VReg) (a : VReg) (b : VReg) (k : KReg) (t : FType)
  /-- vfmaw.lo.t (R259). -/
  | vfmawLo (d : VReg) (a : VReg) (b : VReg) (k : KReg) (t : HType)
  /-- vfmaw.hi.t (R259). -/
  | vfmawHi (d : VReg) (a : VReg) (b : VReg) (k : KReg) (t : HType)
  /-- vcmp.cc (R260). -/
  | vcmp (d : KReg) (a : VReg) (b : VReg) (k : KReg) (c : VCmp)
  /-- vcvt (R263). -/
  | vcvt (d : VReg) (a : VReg) (k : KReg) (x : BitVec 3) (y : BitVec 3)
  /-- vrcp.a (R266). -/
  | vrcpA (d : VReg) (a : VReg) (k : KReg)
  /-- vrsq.a (R266). -/
  | vrsqA (d : VReg) (a : VReg) (k : KReg)
  /-- vrcp.s (R267). -/
  | vrcpS (d : VReg) (a : VReg) (b : VReg) (k : KReg)
  /-- vrsq.s (R267). -/
  | vrsqS (d : VReg) (a : VReg) (b : VReg) (k : KReg)
  /-- vrcp (R268). -/
  | vrcp (d : VReg) (a : VReg) (k : KReg)
  /-- vrsq (R268). -/
  | vrsq (d : VReg) (a : VReg) (k : KReg)
  /-- vsqrt (R268). -/
  | vsqrt (d : VReg) (a : VReg) (k : KReg)
  /-- vdiv (R268). -/
  | vdiv (d : VReg) (a : VReg) (b : VReg) (k : KReg)
  /-- vexp2 (R268). -/
  | vexp2 (d : VReg) (a : VReg) (k : KReg)
  /-- vlog2 (R268). -/
  | vlog2 (d : VReg) (a : VReg) (k : KReg)
  /-- vradd.f32 (R270). -/
  | vraddF32 (d : VReg) (a : VReg) (k : KReg)
  /-- vrmax.f32 (R269). -/
  | vrmaxF32 (d : VReg) (a : VReg) (k : KReg)
  /-- vrmin.f32 (R269). -/
  | vrminF32 (d : VReg) (a : VReg) (k : KReg)
  /-- vradd (R269). -/
  | vradd (d : VReg) (a : VReg) (k : KReg) (s : ESize)
  /-- vrmax (R269). -/
  | vrmax (d : VReg) (a : VReg) (k : KReg) (s : ESize)
  /-- vrmin (R269). -/
  | vrmin (d : VReg) (a : VReg) (k : KReg) (s : ESize)
  /-- vrmaxu (R269). -/
  | vrmaxu (d : VReg) (a : VReg) (k : KReg) (s : ESize)
  /-- vrminu (R269). -/
  | vrminu (d : VReg) (a : VReg) (k : KReg) (s : ESize)
  /-- vrand (R269). -/
  | vrand (d : VReg) (a : VReg) (k : KReg) (s : ESize)
  /-- vror (R269). -/
  | vror (d : VReg) (a : VReg) (k : KReg) (s : ESize)
  /-- vrxor (R269). -/
  | vrxor (d : VReg) (a : VReg) (k : KReg) (s : ESize)
  /-- vraddw (R269). -/
  | vraddw (d : VReg) (a : VReg) (k : KReg) (s : ESize)
  /-- vperm (R271). -/
  | vperm (d : VReg) (a : VReg) (b : VReg) (k : KReg) (s : ESize)
  /-- vperm2 (R271). -/
  | vperm2 (d : VReg) (a : VReg) (b : VReg) (k : KReg) (s : ESize)
  /-- vzipl (R271). -/
  | vzipl (d : VReg) (a : VReg) (b : VReg) (k : KReg) (s : ESize)
  /-- vziph (R271). -/
  | vziph (d : VReg) (a : VReg) (b : VReg) (k : KReg) (s : ESize)
  /-- vuzpe (R271). -/
  | vuzpe (d : VReg) (a : VReg) (b : VReg) (k : KReg) (s : ESize)
  /-- vuzpo (R271). -/
  | vuzpo (d : VReg) (a : VReg) (b : VReg) (k : KReg) (s : ESize)
  /-- vrev (R271). -/
  | vrev (d : VReg) (a : VReg) (k : KReg) (s : ESize)
  /-- vsld (R271). -/
  | vsld (d : VReg) (a : VReg) (b : VReg) (k : KReg) (s : ESize) (c : BitVec 5)
  /-- kand (R272). -/
  | kand (d : KReg) (a : KReg) (b : KReg)
  /-- kor (R272). -/
  | kor (d : KReg) (a : KReg) (b : KReg)
  /-- kxor (R272). -/
  | kxor (d : KReg) (a : KReg) (b : KReg)
  /-- kandn (R272). -/
  | kandn (d : KReg) (a : KReg) (b : KReg)
  /-- knot (R272). -/
  | knot (d : KReg) (a : KReg)
  /-- kmov (R272). -/
  | kmov (d : KReg) (a : KReg)
  /-- vmerge (R272). -/
  | vmerge (d : VReg) (a : VReg) (b : VReg) (k : KReg) (s : ESize)
  /-- vtunpack.t (R274). -/
  | vtunpack (d : VReg) (a : VReg) (p : BitVec 5) (f : TType)
  /-- vtpack (R275). -/
  | vtpack (d : VReg) (a : VReg) (p : BitVec 5) (t : TPack)
  /-- vpadd (R262). -/
  | vpadd (d : VReg) (a : VReg) (b : VReg) (k : KReg)
  /-- vpsub (R262). -/
  | vpsub (d : VReg) (a : VReg) (b : VReg) (k : KReg)
  /-- vpmul (R262). -/
  | vpmul (d : VReg) (a : VReg) (b : VReg) (k : KReg)
  /-- vpmin (R262). -/
  | vpmin (d : VReg) (a : VReg) (b : VReg) (k : KReg)
  /-- vpmax (R262). -/
  | vpmax (d : VReg) (a : VReg) (b : VReg) (k : KReg)
  /-- vpfma (R262). -/
  | vpfma (d : VReg) (a : VReg) (b : VReg) (k : KReg)
  /-- vbcast (R273). -/
  | vbcast (d : VReg) (a : SReg) (k : KReg) (s : ESize)
  /-- vext (R273). -/
  | vext (d : SReg) (a : VReg) (b : SReg) (s : ESize)
  /-- vexts (R273). -/
  | vexts (d : SReg) (a : VReg) (b : SReg) (s : ESize)
  /-- vins (R273). -/
  | vins (d : VReg) (a : SReg) (b : SReg) (s : ESize)
  /-- ktos (R273). -/
  | ktos (d : SReg) (a : KReg) (h : BitVec 1)
  /-- stok (R273). -/
  | stok (d : KReg) (a : SReg) (h : BitVec 1)
  /-- kpop (R273). -/
  | kpop (d : SReg) (a : KReg)
  /-- vmov (R273). -/
  | vmov (d : VReg) (a : VReg) (k : KReg) (s : ESize)
  /-- vsm.upd (R308). -/
  | vsmUpd (d : VReg) (a : VReg) (b : VReg) (k : KReg)
  /-- vsm.rescale (R309). -/
  | vsmRescale (d : VReg) (a : VReg) (b : VReg) (k : KReg)
  /-- vloop (R278). -/
  | vloop (a : SReg) (n : BitVec 4)
  /-- vlidx (R278). -/
  | vlidx (d : SReg)
  /-- LOOKAHEAD_COMPLETE (R41). -/
  | lookaheadComplete
  /-- LATE_TRAP (R42). -/
  | lateTrap
  /-- MATRIX_DATA (R299). -/
  | matrixData
  /-- EAGER_SPILL (R189). -/
  | eagerSpill
  /-- COMMIT_VISIBLE (R319). -/
  | commitVisible
  /-- TASK_ABORT (R324). -/
  | taskAbort
  /-- NONSPEC_RUN (R328). -/
  | nonspecRun
  /-- LOWTS_EXCHANGE (R322). -/
  | lowtsExchange
  /-- LWAIT_EXPIRE (R82). -/
  | lwaitExpire
  /-- AT_EXPIRE (R220). -/
  | atExpire
  /-- SLICE_TRANSLATE (R71). -/
  | sliceTranslate (r : XlReq)
  /-- PAGE_WALK_COMPLETE (R72). -/
  | pageWalkComplete
  /-- HOME_ACCEPT (R73). -/
  | homeAccept
  /-- SKEW_CHECK (R76). -/
  | skewCheck (die slice : Nat) (within : Bool)
  /-- COPY_START (R148). -/
  | copyStart (die cluster : Nat)
  /-- COPY_TIMED_START (R139). -/
  | copyTimedStart (die cluster : Nat)
  /-- COPY_CHUNK (R149). -/
  | copyChunk (die cluster : Nat)
  /-- COPY_COMPLETE (R153). -/
  | copyComplete (die cluster : Nat)
  /-- ROPE_COMMAND_TAKE (R127). -/
  | ropeCommandTake (die : Nat)
  /-- ROPE_COMMAND_DONE (R127). -/
  | ropeCommandDone (die : Nat)
  /-- RWALK_DESCRIPTOR_PUSH (R122). -/
  | rwalkDescriptorPush (die : Nat)
  /-- BLOCK_DRAIN_EXPIRE (R107). -/
  | blockDrainExpire (die index : Nat)
  /-- ARRAY_GRANT (R289). -/
  | arrayGrant (die cluster : Nat) (product : Bool)
  /-- FLAIL_ROW (R292). -/
  | flailRow (die cluster : Nat)
  /-- PRODUCT_ROW (R293). -/
  | productRow (die cluster : Nat)
  /-- Q3_PUSH (R288). -/
  | q3Push (die cluster : Nat) (product : Bool)
  /-- MATRIX_COMPLETE (R298). -/
  | matrixComplete (die cluster : Nat) (product : Bool)
  /-- TILE_MOVE_PERFORM (R296). -/
  | tileMovePerform (die cluster core : Nat) (y : BitVec 2)
  /-- LBANK_ZERO_DONE (R182). -/
  | lbankZeroDone (die cluster bank : Nat)
  /-- SUBMIT (R374). -/
  | submit (hub : Nat) (q : BitVec 6) (arg : BitVec 32)
  /-- UNFREEZE (R382). -/
  | unfreeze (hub : Nat) (q : BitVec 6)
  /-- CANCEL (R383). -/
  | cancel (hub : Nat) (q : BitVec 6)
  /-- ENDJOB (R369). -/
  | endjob (hub : Nat) (arg : BitVec 32)
  /-- TO_DEVICE (R356). -/
  | toDevice (hub : Nat) (arg : BitVec 32)
  /-- TO_SHARED (R356). -/
  | toShared (hub : Nat) (arg : BitVec 32)
  /-- TO_HOST (R356). -/
  | toHost (hub : Nat) (arg : BitVec 32)
  /-- RING_RECORD_READ (R374). -/
  | ringRecordRead (q : Nat)
  /-- Q11_RECORD (R375). -/
  | q11Record (l : Loc)
  /-- RECORD_SERVE (R376). -/
  | recordServe (hub : Nat)
  /-- PRIORITY_AGING (R376). -/
  | priorityAging (q : Nat)
  /-- UNIT_PLACE (R377). -/
  | unitPlace
  /-- SLOT_STOP (R406). -/
  | slotStop (l : Loc)
  /-- PREEMPT_DRAIN (R407). -/
  | preemptDrain (die cluster core : Nat)
  /-- RESUME (R410). -/
  | resume (l : Loc)
  /-- LAUNCH_COMPLETE (R353). -/
  | launchComplete (launch : BitVec 32)
  /-- GRAPH_REPLAY (R387). -/
  | graphReplay (hub : Nat)
  /-- PHASE_RECORD (R375). -/
  | phaseRecord (hub : Nat)
  /-- NODE_LAUNCH (R385). -/
  | nodeLaunch (replay node : Nat)
  /-- NODE_COPY (R385). -/
  | nodeCopy (replay node : Nat)
  /-- NODE_WAIT (R385). -/
  | nodeWait (replay node : Nat)
  /-- NODE_SIGNAL (R385). -/
  | nodeSignal (replay node : Nat)
  /-- NODE_COND (R385). -/
  | nodeCond (replay node : Nat)
  /-- NODE_LOOP (R386). -/
  | nodeLoop (replay node : Nat)
  /-- NODE_PATCH (R385). -/
  | nodePatch (replay node : Nat)
  /-- WATCHDOG (R404). -/
  | watchdog (launch : BitVec 32)
  /-- UNIT_CANCEL_RETIRE (R383). -/
  | unitCancelRetire
  /-- REGISTER_WRITE (R416). -/
  | registerWrite (hub : Nat) (off : BitVec 32) (value : Word)
  /-- HOST_READ (R415): through BAR0, the hub register window, or through BAR2. -/
  | hostRead (hub : Nat) (off : HostAddr) (size : Nat)
  /-- HOST_WRITE (R415). -/
  | hostWrite (hub : Nat) (off : BitVec 36) (data : List Byte)
  /-- HOST_FETCH_ADD (R415). -/
  | hostFetchAdd (hub : Nat) (off : BitVec 36) (z : ScSize) (value : Word)
  /-- HOST_SWAP (R415). -/
  | hostSwap (hub : Nat) (off : BitVec 36) (z : ScSize) (value : Word)
  /-- HOST_CAS (R415). -/
  | hostCas (hub : Nat) (off : BitVec 36) (size : Nat) (compare value : BitVec 128)
  /-- HUB_HOST_ATOMIC (R354). -/
  | hubHostAtomic (hub : Nat) (status : PcieStatus)
  /-- GET_MEASUREMENTS (R441). -/
  | getMeasurements (hub : Nat)
  /-- CHALLENGE (R441). -/
  | challenge (hub : Nat) (nonce : BitVec 256)
  /-- PERST_RELEASE (R438). -/
  | perstRelease
  /-- K_DIE_RELEASE (R438). -/
  | kDieRelease
  /-- ROLLBACK_FUSE_BLOW (R440). -/
  | rollbackFuseBlow (hub kind : Nat)
  /-- DISCOVER_SEND (R431). -/
  | discoverSend (die : Nat)
  /-- DISCOVER_TIMEOUT (R431). -/
  | discoverTimeout (die port : Nat)
  /-- FLIT_RECEIVE (R420). -/
  | flitReceive (port : Nat) (raw : List Byte)
  /-- FABRIC_READ (R422). -/
  | fabricRead (k : Packet)
  /-- FABRIC_DATA (R422). -/
  | fabricData (k : Packet)
  /-- FABRIC_WRITE (R422). -/
  | fabricWrite (k : Packet)
  /-- FABRIC_LOCK (R422). -/
  | fabricLock (k : Packet)
  /-- FABRIC_ACK (R422). -/
  | fabricAck (k : Packet)
  /-- FABRIC_PERFORM (R422). -/
  | fabricPerform (k : Packet)
  /-- FABRIC_UNLOCK (R422). -/
  | fabricUnlock (k : Packet)
  /-- FABRIC_ATOMIC (R422). -/
  | fabricAtomic (k : Packet)
  /-- FABRIC_SC (R422). -/
  | fabricSc (k : Packet)
  /-- FABRIC_REFUSE (R352). -/
  | fabricRefuse (k : Packet)
  /-- FABRIC_SEND (R425). -/
  | fabricSend (k : Packet)
  /-- FABRIC_BEACON (R427). -/
  | fabricBeacon (port : Nat) (k : Packet)
  /-- SEND_TIMED_EGRESS (R425). -/
  | sendTimedEgress (die : Nat)
  /-- BEACON_SEND (R427). -/
  | beaconSend
  /-- BEACON_LOST (R427). -/
  | beaconLost
  /-- DIE_FLIT_RECEIVE (R429). -/
  | dieFlitReceive (die port : Nat) (raw : List Byte)
  /-- DIE_REQ_READ (R429). -/
  | dieReqRead (m : DieMsg)
  /-- DIE_REQ_LOCK (R429). -/
  | dieReqLock (m : DieMsg)
  /-- DIE_REQ_ATOMIC (R429). -/
  | dieReqAtomic (m : DieMsg)
  /-- DIE_REQ_SC (R429). -/
  | dieReqSc (m : DieMsg)
  /-- DIE_RSP_DATA (R429). -/
  | dieRspData (m : DieMsg)
  /-- DIE_RSP_ACK (R429). -/
  | dieRspAck (m : DieMsg)
  /-- DIE_RSP_REFUSE (R429). -/
  | dieRspRefuse (m : DieMsg)
  /-- DIE_RSP_INVACK (R430). -/
  | dieRspInvack (m : DieMsg)
  /-- DIE_WR_PERFORM (R429). -/
  | dieWrPerform (m : DieMsg)
  /-- DIE_WR_WRITE (R429). -/
  | dieWrWrite (m : DieMsg)
  /-- DIE_WR_UNLOCK (R429). -/
  | dieWrUnlock (m : DieMsg)
  /-- DIE_WR_INV (R430). -/
  | dieWrInv (m : DieMsg)
  /-- DIE_ARB_SIG (R168). -/
  | dieArbSig (m : DieMsg)
  /-- DIE_ARB_LOWTS (R322). -/
  | dieArbLowts (m : DieMsg)
  /-- DIE_ARB_MARK (R324). -/
  | dieArbMark (m : DieMsg)
  /-- DIE_ARB_SCANN (R335). -/
  | dieArbScann (m : DieMsg)
  /-- DIE_ENG_CMD (R429). -/
  | dieEngCmd (m : DieMsg)
  /-- DIE_ENG_DONE (R429). -/
  | dieEngDone (m : DieMsg)
  /-- DIE_MGMT_DISCOVER (R431). -/
  | dieMgmtDiscover (die port : Nat) (x : Discover)
  /-- DIE_MGMT_BEACON (R427). -/
  | dieMgmtBeacon (m : DieMsg)
  /-- SC_PERFORM (R335). -/
  | scPerform
  /-- REGION_TABLE_WRITE (R437). -/
  | regionTableWrite (entry : BitVec 8) (w0 w1 : Word)
  /-- BLOCK_WORLD_SET (R434). -/
  | blockWorldSet (b : Block) (job : BitVec 12)
  /-- POWER_LIMIT (R442). -/
  | powerLimit
  /-- THERMAL_STOP (R442). -/
  | thermalStop
  /-- SINGLE_BIT_ERROR (R443). -/
  | singleBitError (die : Nat) (block : Nat)
  /-- DOUBLE_BIT_ERROR (R443). -/
  | doubleBitError (die : Nat) (block : Nat) (reader : Option (BitVec 32))
  /-- DEBUGGER_STOP (R392). -/
  | debuggerStop (l : Loc)
  /-- POWER_BELOW_LIMIT (R442). -/
  | powerBelowLimit
  /-- ILLEGAL_ENCODING (R51). -/
  | illegalEncoding (aslot : Bool)
  /-- KICK_REFUSED (R418). -/
  | kickRefused (hub : Nat) (word : Word)
  deriving DecidableEq, Repr

end Sys2Proof
end

