-- ==== Sys2Proof/Decode.lean ====
section
/-! DEFINITION. Decoding of instruction words (R33 to R51) and the encoder. Decoding is total: a word is an instruction, an
illegal encoding or an illegal operand. The decoder is a set of tables, one for each opcode, read as the manual prints them.
Lean's code generator builds no value of a constructor past number 243 that has fields, so what builds one is marked
noncomputable; the kernel evaluates it as it evaluates everything here. -/

namespace Sys2Proof

/-! ### The formats of R38 and R39 -/

/-- CM: memory (R38). -/
structure CM where
  l : BitVec 1
  op : BitVec 6
  la : BitVec 4
  d : BitVec 5
  b : BitVec 5
  o : BitVec 11
  deriving DecidableEq, Repr

/-- CR: register (R38). -/
structure CR where
  l : BitVec 1
  op : BitVec 6
  la : BitVec 4
  d : BitVec 5
  a : BitVec 5
  b : BitVec 5
  f : BitVec 6
  deriving DecidableEq, Repr

/-- CB: branch (R38). -/
structure CB where
  l : BitVec 1
  op : BitVec 6
  p : BitVec 3
  disp : BitVec 22
  deriving DecidableEq, Repr

/-- CQ: queue and engine (R38). -/
structure CQ where
  l : BitVec 1
  op : BitVec 6
  la : BitVec 4
  d : BitVec 5
  q : BitVec 4
  i : BitVec 12
  deriving DecidableEq, Repr

/-- CS of opcode 0x2B: system (R38). -/
structure CS where
  l : BitVec 1
  op : BitVec 6
  f : BitVec 6
  r : BitVec 3
  i : BitVec 16
  deriving DecidableEq, Repr

/-- CS of opcode 0x01: `fmt` in the C-slot (R45). -/
structure CF where
  l : BitVec 1
  op : BitVec 6
  fa : BitVec 5
  fb : BitVec 5
  fc : BitVec 5
  r : BitVec 10
  deriving DecidableEq, Repr

/-- AR: register (R39). -/
structure AR where
  op : BitVec 6
  d : BitVec 5
  a : BitVec 5
  b : BitVec 5
  p : BitVec 3
  f : BitVec 8
  deriving DecidableEq, Repr

/-- AI: immediate (R39). -/
structure AI where
  op : BitVec 6
  d : BitVec 5
  a : BitVec 5
  i : BitVec 16
  deriving DecidableEq, Repr

/-- AV: vector (R39). -/
structure AV where
  op : BitVec 6
  d : BitVec 5
  a : BitVec 5
  b : BitVec 5
  k : BitVec 3
  s : BitVec 2
  f : BitVec 6
  deriving DecidableEq, Repr

/-- `fmt` in the A-slot (R45). -/
structure AF where
  op : BitVec 6
  fa : BitVec 5
  fb : BitVec 5
  fc : BitVec 5
  r : BitVec 11
  deriving DecidableEq, Repr

def CM.ofWord (w : Word32) : CM :=
  ⟨w.extractLsb' 31 1, w.extractLsb' 25 6, w.extractLsb' 21 4, w.extractLsb' 16 5, w.extractLsb' 11 5, w.extractLsb' 0 11⟩
def CM.toWord (x : CM) : Word32 := x.l ++ x.op ++ x.la ++ x.d ++ x.b ++ x.o

def CR.ofWord (w : Word32) : CR :=
  ⟨w.extractLsb' 31 1, w.extractLsb' 25 6, w.extractLsb' 21 4, w.extractLsb' 16 5, w.extractLsb' 11 5, w.extractLsb' 6 5,
    w.extractLsb' 0 6⟩
def CR.toWord (x : CR) : Word32 := x.l ++ x.op ++ x.la ++ x.d ++ x.a ++ x.b ++ x.f

def CB.ofWord (w : Word32) : CB :=
  ⟨w.extractLsb' 31 1, w.extractLsb' 25 6, w.extractLsb' 22 3, w.extractLsb' 0 22⟩
def CB.toWord (x : CB) : Word32 := x.l ++ x.op ++ x.p ++ x.disp

def CQ.ofWord (w : Word32) : CQ :=
  ⟨w.extractLsb' 31 1, w.extractLsb' 25 6, w.extractLsb' 21 4, w.extractLsb' 16 5, w.extractLsb' 12 4, w.extractLsb' 0 12⟩
def CQ.toWord (x : CQ) : Word32 := x.l ++ x.op ++ x.la ++ x.d ++ x.q ++ x.i

def CS.ofWord (w : Word32) : CS :=
  ⟨w.extractLsb' 31 1, w.extractLsb' 25 6, w.extractLsb' 19 6, w.extractLsb' 16 3, w.extractLsb' 0 16⟩
def CS.toWord (x : CS) : Word32 := x.l ++ x.op ++ x.f ++ x.r ++ x.i

def CF.ofWord (w : Word32) : CF :=
  ⟨w.extractLsb' 31 1, w.extractLsb' 25 6, w.extractLsb' 20 5, w.extractLsb' 15 5, w.extractLsb' 10 5, w.extractLsb' 0 10⟩
def CF.toWord (x : CF) : Word32 := x.l ++ x.op ++ x.fa ++ x.fb ++ x.fc ++ x.r

def AR.ofWord (w : Word32) : AR :=
  ⟨w.extractLsb' 26 6, w.extractLsb' 21 5, w.extractLsb' 16 5, w.extractLsb' 11 5, w.extractLsb' 8 3, w.extractLsb' 0 8⟩
def AR.toWord (x : AR) : Word32 := x.op ++ x.d ++ x.a ++ x.b ++ x.p ++ x.f

def AI.ofWord (w : Word32) : AI :=
  ⟨w.extractLsb' 26 6, w.extractLsb' 21 5, w.extractLsb' 16 5, w.extractLsb' 0 16⟩
def AI.toWord (x : AI) : Word32 := x.op ++ x.d ++ x.a ++ x.i

def AV.ofWord (w : Word32) : AV :=
  ⟨w.extractLsb' 26 6, w.extractLsb' 21 5, w.extractLsb' 16 5, w.extractLsb' 11 5, w.extractLsb' 8 3, w.extractLsb' 6 2,
    w.extractLsb' 0 6⟩
def AV.toWord (x : AV) : Word32 := x.op ++ x.d ++ x.a ++ x.b ++ x.k ++ x.s ++ x.f

def AF.ofWord (w : Word32) : AF :=
  ⟨w.extractLsb' 26 6, w.extractLsb' 21 5, w.extractLsb' 16 5, w.extractLsb' 11 5, w.extractLsb' 0 11⟩
def AF.toWord (x : AF) : Word32 := x.op ++ x.fa ++ x.fb ++ x.fc ++ x.r

/-! ### What a word decodes to -/

/-- What a word is (R51). An illegal operand carries whether the opcode takes formats: a pending prefix that reaches an
instruction that takes none is reported first (R394). -/
inductive Decoded where
  | instr (i : Instr)
  | illegalEncoding
  | illegalOperand (takesFormats : Bool)
  deriving DecidableEq, Repr

/-- The value, where a field that the form does not use is zero; else an illegal encoding (R51). -/
def whenZero {n : Nat} (f : BitVec n) (x : Decoded) : Decoded := if f = 0 then x else .illegalEncoding

/-- An optional reading; none is an illegal encoding. -/
def ofOption {α : Type} (o : Option α) (f : α → Decoded) : Decoded :=
  match o with
  | some x => f x
  | none => .illegalEncoding

/-- Row `n` of a table of functions; a function that is not listed is an illegal encoding (R51). -/
def pick {α : Type} (rows : List (Nat × (α → Decoded))) (n : Nat) (x : α) : Decoded :=
  match rows.lookup n with
  | some f => f x
  | none => .illegalEncoding

/-! ### Small fields -/

/-- The formats in the order of their identifiers (R232). -/
def Fmt.all : List Fmt :=
  [.f32, .bf16, .f16, .e4m3, .e5m2, .x43, .x52, .e3m2, .e2m3, .e2m1, .i32, .i16, .i8, .i4, .n8, .n4, .b16, .b8, .b4, .t5,
    .t5s, .pm1, .e3m4, .i2]

/-- Identifier of a format (R232). -/
def Fmt.id : Fmt → BitVec 5
  | .f32 => 0 | .bf16 => 1 | .f16 => 2 | .e4m3 => 3 | .e5m2 => 4 | .x43 => 5 | .x52 => 6 | .e3m2 => 7 | .e2m3 => 8
  | .e2m1 => 9 | .i32 => 10 | .i16 => 11 | .i8 => 12 | .i4 => 13 | .n8 => 14 | .n4 => 15 | .b16 => 16 | .b8 => 17
  | .b4 => 18 | .t5 => 19 | .t5s => 20 | .pm1 => 21 | .e3m4 => 22 | .i2 => 23

/-- A field of `fmt`: an identifier, or 31 for "not given". -/
def FmtId.bits : FmtId → BitVec 5
  | none => 31
  | some f => f.id

/-- Values 24 to 30 are no format (R45). -/
def FmtId.ofBits (x : BitVec 5) : Option FmtId :=
  if x = 31 then some none else (Fmt.all[x.toNat]?).map some

def ESize.bits : ESize → BitVec 2
  | .b => 0 | .h => 1 | .w => 2 | .d => 3
def ESize.ofBits (x : BitVec 2) : ESize :=
  if x = 0 then .b else if x = 1 then .h else if x = 2 then .w else .d

/-- The condition codes of R209. -/
def Cc.bits : Cc → BitVec 3
  | .eq => 0 | .ne => 1 | .lt => 2 | .ge => 3 | .ltu => 4 | .geu => 5
def Cc.ofBits (x : BitVec 3) : Option Cc :=
  [Cc.eq, .ne, .lt, .ge, .ltu, .geu][x.toNat]?

/-- The type field and element size of opcodes 0x11 to 0x13 (R257). -/
def FType.size : FType → BitVec 2
  | .f32 => 2 | .bf16 => 1 | .f16 => 1
def FType.bit : FType → BitVec 1
  | .f32 => 0 | .bf16 => 0 | .f16 => 1
def FType.ofBits (s : BitVec 2) (t : BitVec 1) : Option FType :=
  if s = 2 then (if t = 0 then some .f32 else none)
  else if s = 1 then (if t = 0 then some .bf16 else some .f16)
  else none

def HType.bit : HType → BitVec 1
  | .bf16 => 0 | .f16 => 1
def HType.ofBit (t : BitVec 1) : HType := if t = 0 then .bf16 else .f16

/-- The types of an atomic (R329). -/
def AType.bits : AType → BitVec 2
  | .w => 0 | .d => 1 | .f32 => 2 | .q => 3
def AType.ofBits (x : BitVec 2) : AType :=
  if x = 0 then .w else if x = 1 then .d else if x = 2 then .f32 else .q

def ScSize.bits : ScSize → BitVec 2
  | .w => 0 | .d => 1
def ScSize.ofBits (x : BitVec 2) : Option ScSize :=
  if x = 0 then some .w else if x = 1 then some .d else none
def ScScope.bit : ScScope → BitVec 1
  | .device => 0 | .domain => 1
def ScScope.ofBit (x : BitVec 1) : ScScope := if x = 0 then .device else .domain

/-- Bits I and W of a rope command (R113); both together are no form. -/
def RopeForm.bits : RopeForm → BitVec 2
  | .plain => 0 | .returning => 1 | .inbox => 2
def RopeForm.ofBits (x : BitVec 2) : Option RopeForm :=
  if x = 0 then some .plain else if x = 1 then some .returning else if x = 2 then some .inbox else none

/-- The system registers in the order of their numbers (R197). -/
def SysReg.all : List SysReg :=
  [.tsr, .epc, .cause, .faddr, .time, .wsp, .lsb, .tid, .tstamp, .unit, .launch, .core, .slot, .wcnt, .world, .pfx, .lap,
    .lbm, .xtag, .sbind, .lpc]
def SysReg.number : SysReg → BitVec 6
  | .tsr => 0 | .epc => 1 | .cause => 2 | .faddr => 3 | .time => 4 | .wsp => 5 | .lsb => 6 | .tid => 7 | .tstamp => 8
  | .unit => 9 | .launch => 10 | .core => 11 | .slot => 12 | .wcnt => 13 | .world => 14 | .pfx => 15 | .lap => 16
  | .lbm => 17 | .xtag => 18 | .sbind => 19 | .lpc => 20
def SysReg.ofNumber (x : BitVec 6) : Option SysReg := SysReg.all[x.toNat]?

/-- The size field of `vtunpack` by its type (R274). -/
def TType.size : TType → BitVec 2
  | .bf16 => 1 | .f16 => 1 | .f32 => 2
  | .i8 => 0 | .i2 => 0 | .e4m3 => 0 | .e5m2 => 0 | .e3m4 => 0 | .e3m2 => 0 | .e2m3 => 0 | .e2m1 => 0
def TType.func : TType → BitVec 6
  | .i8 => 0 | .i2 => 1 | .e4m3 => 2 | .e5m2 => 3 | .e3m4 => 4 | .e3m2 => 5 | .e2m3 => 6 | .e2m1 => 7 | .bf16 => 8
  | .f16 => 9 | .f32 => 10
def TType.all : List TType :=
  [.i8, .i2, .e4m3, .e5m2, .e3m4, .e3m2, .e2m3, .e2m1, .bf16, .f16, .f32]
def TPack.bit : TPack → BitVec 1
  | .i8 => 0 | .i2 => 1

/-- What a vector compare compares: function and element size (R260). -/
def VCmp.ofBits (s : BitVec 2) (f : BitVec 6) : Option VCmp :=
  let code := f.extractLsb' 0 5
  let t := f.extractLsb' 5 1
  if code = 8 then (FType.ofBits s t).map (.fp .eq)
  else if code = 9 then (FType.ofBits s t).map (.fp .ne)
  else if code = 10 then (FType.ofBits s t).map (.fp .lt)
  else if code = 11 then (FType.ofBits s t).map (.fp .le)
  else if code = 12 then (FType.ofBits s t).map (.fp .uo)
  else if t = 0 ∧ code.extractLsb' 3 2 = 0 then (Cc.ofBits (code.extractLsb' 0 3)).map (.int · (ESize.ofBits s))
  else none
def FCc.bits : FCc → BitVec 5
  | .eq => 8 | .ne => 9 | .lt => 10 | .le => 11 | .uo => 12
def VCmp.size : VCmp → BitVec 2
  | .int _ s => s.bits
  | .fp _ t => t.size
def VCmp.func : VCmp → BitVec 6
  | .int c _ => (0 : BitVec 3) ++ c.bits
  | .fp c t => t.bit ++ c.bits

/-! ### The literal word (R37) -/

/-- The offset of a CM word: with L = 1 the field is zero and the literal is a byte offset. -/
def CM.offset (x : CM) (w1 : Word32) : Option MemOff :=
  if x.l = 0 then some (.short x.o) else if x.o = 0 then some (.lit w1) else none

/-- Operand b of a CR word with a literal form. -/
def CR.operand (x : CR) (w1 : Word32) : Option RegLit :=
  if x.l = 0 then some (.reg x.b) else if x.b = 0 then some (.lit w1) else none

/-- The immediate of a CQ word with a literal form. -/
def CQ.immediate (x : CQ) (w1 : Word32) : Option QImm :=
  if x.l = 0 then some (.short x.i) else if x.i = 0 then some (.lit w1) else none

/-! ### The C-slot -/

/-- Loads and `vld` (R174, opcodes 0x04 to 0x0D): lookahead allowed. -/
def decodeLoad (mk : BitVec 4 → BitVec 5 → SReg → MemOff → Instr) (x : CM) (w1 : Word32) : Decoded :=
  ofOption (x.offset w1) fun o => .instr (mk x.la x.d x.b o)

/-- Stores and `adr` (opcodes 0x10 to 0x18): la is zero. -/
def decodeStore (mk : BitVec 5 → SReg → MemOff → Instr) (x : CM) (w1 : Word32) : Decoded :=
  whenZero x.la (ofOption (x.offset w1) fun o => .instr (mk x.d x.b o))

/-- Opcode 0x19, cache and Loft control (R180). -/
def cacheRows : List (Nat × (CR → Decoded)) :=
  [(0, fun x => whenZero x.d (.instr (.cpf x.a x.b))),
   (1, fun x => whenZero x.d (.instr (.cinv x.a x.b))),
   (2, fun x => .instr (.lbank x.d x.a x.b)),
   (3, fun x => whenZero x.d (.instr (.lrng x.a x.b))),
   (4, fun x => whenZero x.b (.instr (.lstat x.d x.a))),
   (5, fun x => whenZero x.d (whenZero x.b (.instr (.sbind x.a)))),
   (6, fun x => whenZero x.b (.instr (.ltag x.d x.a)))]

/-- The atomic of an operation code of R329. -/
def atomicRows : List (Nat × (BitVec 4 → SReg → SReg → RegLit → AType → Instr)) :=
  [(0, .aswap), (1, .acas), (2, .aadd), (3, .aand), (4, .aor), (5, .axor), (6, .amax), (7, .amin), (8, .amaxu), (9, .aminu)]

/-- The reduction of an operation code of R332. -/
def reduceRows : List (Nat × (SReg → RegLit → AType → Instr)) :=
  [(2, .aaddN), (3, .aandN), (4, .aorN), (5, .axorN), (6, .amaxN), (7, .aminN), (8, .amaxuN), (9, .aminuN)]

/-- The types that R329 lists for an operation code. -/
def atomicType (op : Nat) (t : AType) : Bool :=
  match t with
  | .w => true
  | .d => true
  | .f32 => op == 2 || op == 6 || op == 7
  | .q => op == 1

/-- Opcode 0x1C, returning atomics (R329). -/
def decodeAtomic (x : CR) (w1 : Word32) : Decoded :=
  let op := (x.f.extractLsb' 2 4).toNat
  let t := AType.ofBits (x.f.extractLsb' 0 2)
  if atomicType op t && !(t == .q && x.l == 1) then
    ofOption (x.operand w1) fun b => ofOption (atomicRows.lookup op) fun mk => .instr (mk x.la x.d x.a b t)
  else .illegalEncoding

/-- Opcode 0x1D, reductions without a result (R332). -/
def decodeReduce (x : CR) (w1 : Word32) : Decoded :=
  let t := AType.ofBits (x.f.extractLsb' 0 2)
  if atomicType x.la.toNat t && t != .q then
    whenZero x.d (whenZero (x.f.extractLsb' 2 4)
      (ofOption (x.operand w1) fun b => ofOption (reduceRows.lookup x.la.toNat) fun mk => .instr (mk x.a b t)))
  else .illegalEncoding

/-- Opcode 0x1E, fences and barriers (R336). -/
def fenceRows : List (Nat × (CR → Decoded)) :=
  [(0, fun x => whenZero x.d (whenZero x.a (whenZero x.b
      (if x.f = 0 then .instr .fence else if x.f = 1 then .instr .fenceE else if x.f = 2 then .instr .fenceI
       else if x.f = 3 then .instr .fenceEi else .illegalEncoding)))),
   (1, fun x => whenZero x.d (whenZero x.f (.instr (.bar x.a x.b))))]

/-- Opcode 0x1F, sequentially consistent operations (R334). -/
def decodeSc (x : CR) (w1 : Word32) : Decoded :=
  let m := ScScope.ofBit (x.f.extractLsb' 5 1)
  let op := x.f.extractLsb' 2 3
  ofOption (ScSize.ofBits (x.f.extractLsb' 0 2)) fun z =>
    if op = 0 then whenZero x.l (whenZero x.b (.instr (.scLd x.la x.d x.a m z)))
    else if op = 1 then whenZero x.la (whenZero x.d (ofOption (x.operand w1) fun b => .instr (.scSt x.a b m z)))
    else if op = 2 then ofOption (x.operand w1) fun b => .instr (.scSwap x.la x.d x.a b m z)
    else if op = 3 then ofOption (x.operand w1) fun b => .instr (.scCas x.la x.d x.a b m z)
    else if op = 4 then ofOption (x.operand w1) fun b => .instr (.scAdd x.la x.d x.a b m z)
    else .illegalEncoding

/-- Opcode 0x23, register jumps and return (R217). -/
def jumpRows : List (Nat × (CR → Decoded)) :=
  [(0, fun x => whenZero x.d (whenZero x.b (.instr (.jr x.a)))),
   (1, fun x => whenZero x.d (whenZero x.b (.instr (.callr x.a)))),
   (2, fun x => whenZero x.d (whenZero x.a (whenZero x.b (.instr .ret))))]

/-- Opcode 0x24, window control (R219). -/
def windowRows : List (Nat × (CR → Decoded)) :=
  [(0, fun x => whenZero x.d (whenZero x.a (whenZero x.b (.instr .wflush)))),
   (1, fun x => whenZero x.a (whenZero x.b (.instr (.wdepth x.d))))]

/-- Opcode 0x25, timed issue (R220). -/
def timedRows : List (Nat × (CR → Decoded)) :=
  [(0, fun x => whenZero x.d (whenZero x.b (.instr (.atTime x.a)))),
   (1, fun x => whenZero x.d (whenZero x.b (.instr (.atTimeC x.a))))]

/-- Opcode 0x26, gangs (R222). -/
def gangRows : List (Nat × (CR → Decoded)) :=
  [(0, fun x => whenZero x.d (whenZero x.b (.instr (.gang x.a)))),
   (1, fun x => whenZero x.d (whenZero x.a (whenZero x.b (.instr .split))))]

/-- Opcode 0x27, task control and `exit` (R226). -/
def taskRows : List (Nat × (CR → Decoded)) :=
  [(0, fun x => whenZero x.d (.instr (.tbegin x.a x.b))),
   (1, fun x => whenZero x.d (whenZero x.a (whenZero x.b (.instr .tcommit)))),
   (2, fun x => whenZero x.d (whenZero x.a (whenZero x.b (.instr .tend)))),
   (3, fun x => .instr (.tspawn x.d x.a x.b)),
   (4, fun x => whenZero x.a (whenZero x.b (.instr (.tstamp x.d)))),
   (5, fun x => whenZero x.d (whenZero x.a (whenZero x.b (.instr .tabort)))),
   (6, fun x => whenZero x.d (whenZero x.a (whenZero x.b (.instr .tabortO)))),
   (7, fun x => whenZero x.d (whenZero x.b (.instr (.exit x.a))))]

/-- Opcode 0x28, long-latency integer (R211). -/
def divideRows : List (Nat × (BitVec 4 → SReg → SReg → RegLit → Instr)) :=
  [(0, .div), (1, .divu), (2, .rem), (3, .remu), (4, .divw), (5, .divuw), (6, .remw), (7, .remuw), (8, .mul2), (9, .mul2u)]

/-- Opcode 0x29, system registers (R199). -/
def systemRows : List (Nat × (CR → Decoded)) :=
  [(0, fun x => whenZero x.a (whenZero x.b (ofOption (SysReg.ofNumber x.f) fun r => .instr (.mfsr x.d r)))),
   (1, fun x => whenZero x.d (whenZero x.b (ofOption (SysReg.ofNumber x.f) fun r => .instr (.mtsr x.a r))))]

/-- Opcode 0x2A, horizons and paging (R80). -/
def pagingRows : List (Nat × (CR → Decoded)) :=
  [(0, fun x => whenZero x.b (.instr (.lhzM x.d x.a))),
   (1, fun x => whenZero x.b (.instr (.lhzD x.d x.a))),
   (2, fun x => whenZero x.d (whenZero x.b (.instr (.lwait x.a)))),
   (3, fun x => .instr (.ptw x.d x.a x.b)),
   (4, fun x => .instr (.frep x.d x.a x.b))]

/-- Opcode 0x2B, traps and system (R400). `rte` and `tkill` demand a lone issue. -/
def decodeTrap (x : CS) (w1 : Word32) : Decoded :=
  whenZero x.l (whenZero x.r
    (if x.f = 0 then .instr (.trap x.i)
     else if x.f = 1 then .instr (.brk x.i)
     else if x.f = 2 then whenZero x.i (whenZero w1 (.instr .rte))
     else if x.f = 3 then whenZero w1 (.instr (.tkill x.i))
     else .illegalEncoding))

/-- Opcode 0x2C, launch and completion counters (R389). -/
def counterRows : List (Nat × (CR → Decoded)) :=
  [(0, fun x => whenZero x.b (.instr (.crd x.d x.a))),
   (1, fun x => .instr (.cwait x.d x.a x.b)),
   (2, fun x => whenZero x.d (.instr (.csig x.a x.b))),
   (3, fun x => whenZero x.d (whenZero x.b (.instr (.lcancel x.a)))),
   (4, fun x => whenZero x.d (.instr (.cset x.a x.b)))]

/-- The value, where the queue field is the one that the opcode requires; else an illegal operand (R51). -/
def whenQueue (q n : BitVec 4) (fmts : Bool) (x : Decoded) : Decoded :=
  if x = .illegalEncoding then x else if q = n then x else .illegalOperand fmts

/-- Opcode 0x34, copies (R140). -/
def decodeCopy (x : CQ) : Decoded :=
  let tag := x.i.extractLsb' 6 6
  whenQueue x.q 4 false (whenZero x.l (whenZero (x.i.extractLsb' 1 5)
    (if x.i.extractLsb' 0 1 = 0 then whenZero x.la (.instr (.cpy x.d tag)) else .instr (.cpyTry x.la x.d tag))))

/-- The rope command of a function code (R113). -/
def ropeRows : List (Nat × (BitVec 4 → SReg → BitVec 6 → RopeForm → Instr)) :=
  [(0, .rcat), (1, .rsplit), (2, .rsplice), (3, .rindex), (4, .rsum), (5, .rwalk), (6, .rhold), (7, .rdrop), (8, .rpiece),
    (9, .rresum), (10, .trim), (11, .rtier)]

/-- Opcode 0x36, rope commands (R113). -/
def decodeRope (x : CQ) : Decoded :=
  whenQueue x.q 5 false (whenZero x.l
    (ofOption (ropeRows.lookup (x.i.extractLsb' 0 4).toNat) fun mk =>
     ofOption (RopeForm.ofBits (x.i.extractLsb' 4 2)) fun form =>
       if form ≠ .returning ∧ x.la ≠ 0 then .illegalEncoding else .instr (mk x.la x.d (x.i.extractLsb' 6 6) form)))

/-- Opcode 0x37, block hash and prefix table (R129). -/
def decodePrefix (x : CQ) : Decoded :=
  let fn := x.i.extractLsb' 0 4
  whenQueue x.q 0 false (whenZero x.l
    (if fn = 0 then whenZero (x.i.extractLsb' 9 3) (.instr (.hblk x.la x.d (x.i.extractLsb' 4 5)))
     else whenZero (x.i.extractLsb' 4 8)
      (if fn = 1 then .instr (.pfxLook x.la x.d)
       else if fn = 2 then .instr (.pfxAdd x.la x.d)
       else if fn = 3 then .instr (.pfxPin x.la x.d)
       else if fn = 4 then .instr (.pfxUnpin x.la x.d)
       else .illegalEncoding)))

/-- Opcode 0x38, tile moves (R296). -/
def tileRows : List (Nat × (CR → Decoded)) :=
  [(0, fun x => whenZero (x.b.extractLsb' 2 3) (.instr (.tget x.d x.a (x.b.extractLsb' 0 2)))),
   (1, fun x => whenZero (x.b.extractLsb' 2 3) (.instr (.tput x.d x.a (x.b.extractLsb' 0 2))))]

/-- Opcode 0x39, waits (R339). -/
def decodeWait (x : CQ) : Decoded :=
  let arg := x.i.extractLsb' 4 8
  whenZero x.l
    (if x.i.extractLsb' 0 4 = 0 then whenZero arg (.instr (.qwait x.la x.d x.q))
     else if x.i.extractLsb' 0 4 = 1 then
      (if arg.toNat ≤ 16 then whenQueue x.q 0 false (.instr (.wcwait x.la x.d arg)) else .illegalEncoding)
     else .illegalEncoding)

/-- A CR word without a literal form: L and, where the table says so, func6 are zero; func4 is the function (R49). -/
def decodeFunc4 (rows : List (Nat × (CR → Decoded))) (x : CR) : Decoded :=
  whenZero x.l (whenZero x.f (pick rows x.la.toNat x))

/-- `fmt` (R45). -/
def decodeFmtC (x : CF) : Decoded :=
  whenZero x.l (whenZero x.r (ofOption (FmtId.ofBits x.fa) fun a => ofOption (FmtId.ofBits x.fb) fun b =>
    ofOption (FmtId.ofBits x.fc) fun c => .instr (.fmtC a b c)))

/-- The C-slot opcode map (R49): `w0` is the word of the C-slot and `w1` the other word of its bundle. -/
def cslotRows (w0 w1 : Word32) : List (Nat × (Unit → Decoded)) :=
  [(0x00, fun _ => if w0 = 0 then .instr .nop else .illegalEncoding),
   (0x01, fun _ => decodeFmtC (CF.ofWord w0)),
   (0x04, fun _ => decodeLoad .ldB (CM.ofWord w0) w1),
   (0x05, fun _ => decodeLoad .ldH (CM.ofWord w0) w1),
   (0x06, fun _ => decodeLoad .ldW (CM.ofWord w0) w1),
   (0x07, fun _ => decodeLoad .ldD (CM.ofWord w0) w1),
   (0x08, fun _ => decodeLoad .ldBs (CM.ofWord w0) w1),
   (0x09, fun _ => decodeLoad .ldHs (CM.ofWord w0) w1),
   (0x0A, fun _ => decodeLoad .ldWs (CM.ofWord w0) w1),
   (0x0C, fun _ => decodeLoad .vld (CM.ofWord w0) w1),
   (0x0D, fun _ => decodeLoad .vldTag (CM.ofWord w0) w1),
   (0x10, fun _ => decodeStore .stB (CM.ofWord w0) w1),
   (0x11, fun _ => decodeStore .stH (CM.ofWord w0) w1),
   (0x12, fun _ => decodeStore .stW (CM.ofWord w0) w1),
   (0x13, fun _ => decodeStore .stD (CM.ofWord w0) w1),
   (0x14, fun _ => decodeStore .vst (CM.ofWord w0) w1),
   (0x15, fun _ => decodeStore .vstTag (CM.ofWord w0) w1),
   (0x18, fun _ => decodeStore .adr (CM.ofWord w0) w1),
   (0x19, fun _ => decodeFunc4 cacheRows (CR.ofWord w0)),
   (0x1C, fun _ => decodeAtomic (CR.ofWord w0) w1),
   (0x1D, fun _ => decodeReduce (CR.ofWord w0) w1),
   (0x1E, fun _ => whenZero (CR.ofWord w0).l (pick fenceRows (CR.ofWord w0).la.toNat (CR.ofWord w0))),
   (0x1F, fun _ => decodeSc (CR.ofWord w0) w1),
   (0x20, fun _ => whenZero (CB.ofWord w0).l (.instr (.br (CB.ofWord w0).p (CB.ofWord w0).disp))),
   (0x21, fun _ => whenZero (CB.ofWord w0).l (.instr (.brf (CB.ofWord w0).p (CB.ofWord w0).disp))),
   (0x22, fun _ => whenZero (CB.ofWord w0).l (.instr (.call (CB.ofWord w0).p (CB.ofWord w0).disp))),
   (0x23, fun _ => decodeFunc4 jumpRows (CR.ofWord w0)),
   (0x24, fun _ => decodeFunc4 windowRows (CR.ofWord w0)),
   (0x25, fun _ => decodeFunc4 timedRows (CR.ofWord w0)),
   (0x26, fun _ => decodeFunc4 gangRows (CR.ofWord w0)),
   (0x27, fun _ => decodeFunc4 taskRows (CR.ofWord w0)),
   (0x28, fun _ => ofOption (CR.operand (CR.ofWord w0) w1) fun b =>
      ofOption (divideRows.lookup (CR.ofWord w0).f.toNat) fun mk =>
        .instr (mk (CR.ofWord w0).la (CR.ofWord w0).d (CR.ofWord w0).a b)),
   (0x29, fun _ => whenZero (CR.ofWord w0).l (pick systemRows (CR.ofWord w0).la.toNat (CR.ofWord w0))),
   (0x2A, fun _ => decodeFunc4 pagingRows (CR.ofWord w0)),
   (0x2B, fun _ => decodeTrap (CS.ofWord w0) w1),
   (0x2C, fun _ => decodeFunc4 counterRows (CR.ofWord w0)),
   (0x30, fun _ => whenZero (CQ.ofWord w0).l (whenZero (CQ.ofWord w0).i
      (.instr (.qpop (CQ.ofWord w0).la (CQ.ofWord w0).d (CQ.ofWord w0).q)))),
   (0x31, fun _ => whenZero (CQ.ofWord w0).la (ofOption (CQ.immediate (CQ.ofWord w0) w1) fun i =>
      .instr (.qpush (CQ.ofWord w0).d (CQ.ofWord w0).q i))),
   (0x32, fun _ => whenZero (CQ.ofWord w0).l (whenZero (CQ.ofWord w0).i
      (.instr (.vqpop (CQ.ofWord w0).la (CQ.ofWord w0).d (CQ.ofWord w0).q)))),
   (0x33, fun _ => whenZero (CQ.ofWord w0).l (whenZero (CQ.ofWord w0).la (whenZero (CQ.ofWord w0).i
      (.instr (.vqpush (CQ.ofWord w0).d (CQ.ofWord w0).q))))),
   (0x34, fun _ => decodeCopy (CQ.ofWord w0)),
   (0x35, fun _ => whenQueue (CQ.ofWord w0).q 1 true (whenZero (CQ.ofWord w0).la
      (ofOption (CQ.immediate (CQ.ofWord w0) w1) fun c => .instr (.mcmd (CQ.ofWord w0).d c)))),
   (0x36, fun _ => decodeRope (CQ.ofWord w0)),
   (0x37, fun _ => decodePrefix (CQ.ofWord w0)),
   (0x38, fun _ => decodeFunc4 tileRows (CR.ofWord w0)),
   (0x39, fun _ => decodeWait (CQ.ofWord w0))]

/-- The instruction of the C-slot of the bundle `w0`, `w1`. -/
def decodeC (w0 w1 : Word32) : Decoded := pick (cslotRows w0 w1) (w0.extractLsb' 25 6).toNat ()

/-- Whether the C-slot instruction issues alone, with word 1 as its literal (R37). -/
def lone (w0 : Word32) : Bool := w0.getLsbD 31

/-! ### The A-slot -/

/-- Opcode 0x02, integer arithmetic and logic (R204). -/
def arithRows : List (Nat × (AR → Decoded)) :=
  [(0x00, fun x => .instr (.add x.d x.a x.b x.p)), (0x01, fun x => .instr (.sub x.d x.a x.b x.p)),
   (0x02, fun x => .instr (.addw x.d x.a x.b x.p)), (0x03, fun x => .instr (.subw x.d x.a x.b x.p)),
   (0x04, fun x => .instr (.adds x.d x.a x.b x.p)), (0x05, fun x => .instr (.subs x.d x.a x.b x.p)),
   (0x06, fun x => .instr (.addus x.d x.a x.b x.p)), (0x07, fun x => .instr (.subus x.d x.a x.b x.p)),
   (0x08, fun x => .instr (.and x.d x.a x.b x.p)), (0x09, fun x => .instr (.or x.d x.a x.b x.p)),
   (0x0A, fun x => .instr (.xor x.d x.a x.b x.p)), (0x0B, fun x => .instr (.andn x.d x.a x.b x.p)),
   (0x0C, fun x => .instr (.orn x.d x.a x.b x.p)), (0x0D, fun x => .instr (.xnor x.d x.a x.b x.p)),
   (0x10, fun x => .instr (.min x.d x.a x.b x.p)), (0x11, fun x => .instr (.max x.d x.a x.b x.p)),
   (0x12, fun x => .instr (.minu x.d x.a x.b x.p)), (0x13, fun x => .instr (.maxu x.d x.a x.b x.p)),
   (0x14, fun x => whenZero x.b (.instr (.abs x.d x.a x.p)))]

/-- Opcode 0x03, shifts and rotates (R206). -/
def shiftRows : List (Nat × (AR → Decoded)) :=
  [(0, fun x => .instr (.sll x.d x.a x.b x.p)), (1, fun x => .instr (.srl x.d x.a x.b x.p)),
   (2, fun x => .instr (.sra x.d x.a x.b x.p)), (3, fun x => .instr (.rol x.d x.a x.b x.p)),
   (4, fun x => .instr (.ror x.d x.a x.b x.p)), (5, fun x => .instr (.sllw x.d x.a x.b x.p)),
   (6, fun x => .instr (.srlw x.d x.a x.b x.p)), (7, fun x => .instr (.sraw x.d x.a x.b x.p))]

/-- Opcode 0x04, multiply (R207). -/
def multiplyRows : List (Nat × (AR → Decoded)) :=
  [(0, fun x => .instr (.mul x.d x.a x.b x.p)), (1, fun x => .instr (.mulh x.d x.a x.b x.p)),
   (2, fun x => .instr (.mulhu x.d x.a x.b x.p)), (3, fun x => .instr (.mulhsu x.d x.a x.b x.p)),
   (4, fun x => .instr (.mulw x.d x.a x.b x.p))]

/-- Opcode 0x05, bit operations (R208). -/
def bitRows : List (Nat × (AR → Decoded)) :=
  [(0x0, fun x => whenZero x.b (.instr (.clz x.d x.a x.p))), (0x1, fun x => whenZero x.b (.instr (.ctz x.d x.a x.p))),
   (0x2, fun x => whenZero x.b (.instr (.popc x.d x.a x.p))), (0x3, fun x => whenZero x.b (.instr (.brev x.d x.a x.p))),
   (0x4, fun x => whenZero x.b (.instr (.bswap x.d x.a x.p))), (0x5, fun x => whenZero x.b (.instr (.sextB x.d x.a x.p))),
   (0x6, fun x => whenZero x.b (.instr (.sextH x.d x.a x.p))), (0x7, fun x => whenZero x.b (.instr (.sextW x.d x.a x.p))),
   (0x8, fun x => whenZero x.b (.instr (.zextB x.d x.a x.p))), (0x9, fun x => whenZero x.b (.instr (.zextH x.d x.a x.p))),
   (0xA, fun x => whenZero x.b (.instr (.zextW x.d x.a x.p))),
   (0xB, fun x => .instr (.bclr x.d x.a x.b x.p)), (0xC, fun x => .instr (.bset x.d x.a x.b x.p)),
   (0xD, fun x => .instr (.binv x.d x.a x.b x.p)), (0xE, fun x => .instr (.bext x.d x.a x.b x.p))]

/-- A field of five bits that names a predicate or a mask: bits [4:3] are reserved (R210, R254). -/
def narrow (f : BitVec 5) (k : BitVec 3 → Decoded) : Decoded := whenZero (f.extractLsb' 3 2) (k (f.extractLsb' 0 3))

/-- Opcode 0x06, compare to predicate (R209). -/
def decodeCompare (x : AR) : Decoded :=
  narrow x.d fun d => whenZero (x.f.extractLsb' 3 5)
    (ofOption (Cc.ofBits (x.f.extractLsb' 0 3)) fun c => .instr (.cmp d x.a x.b x.p c))

/-- Opcode 0x0E, compare with immediate (R209). -/
def decodeCompareImm (x : AI) : Decoded :=
  narrow x.d fun d => ofOption (Cc.ofBits (x.i.extractLsb' 13 3)) fun c => .instr (.cmpImm d x.a c (x.i.extractLsb' 0 13))

/-- Opcode 0x07, select, move and predicate logic (R210): function [4:0], with the selector field zero but for `sel`. -/
def selectRows : List (Nat × (AR → Decoded)) :=
  [(1, fun x => whenZero x.b (.instr (.mov x.d x.a x.p))),
   (2, fun x => narrow x.d fun d => narrow x.a fun a => narrow x.b fun b => .instr (.pand d a b x.p)),
   (3, fun x => narrow x.d fun d => narrow x.a fun a => narrow x.b fun b => .instr (.por d a b x.p)),
   (4, fun x => narrow x.d fun d => narrow x.a fun a => narrow x.b fun b => .instr (.pxor d a b x.p)),
   (5, fun x => narrow x.d fun d => narrow x.a fun a => narrow x.b fun b => .instr (.pandn d a b x.p)),
   (6, fun x => whenZero x.b (narrow x.d fun d => narrow x.a fun a => .instr (.pnot d a x.p))),
   (7, fun x => whenZero x.b (narrow x.a fun a => .instr (.pmov x.d a x.p))),
   (8, fun x => whenZero x.b (narrow x.d fun d => .instr (.ptest d x.a x.p)))]

def decodeSelect (x : AR) : Decoded :=
  let fn := x.f.extractLsb' 0 5
  let q := x.f.extractLsb' 5 3
  if fn = 0 then .instr (.sel x.d x.a x.b x.p q) else whenZero q (pick selectRows fn.toNat x)

/-- Opcode 0x0F, shifts by immediate (R206). -/
def shiftImmRows : List (Nat × (AI → Decoded)) :=
  [(0, fun x => .instr (.sllImm x.d x.a (x.i.extractLsb' 0 6))), (1, fun x => .instr (.srlImm x.d x.a (x.i.extractLsb' 0 6))),
   (2, fun x => .instr (.sraImm x.d x.a (x.i.extractLsb' 0 6))), (3, fun x => .instr (.rolImm x.d x.a (x.i.extractLsb' 0 6))),
   (4, fun x => .instr (.rorImm x.d x.a (x.i.extractLsb' 0 6))),
   (5, fun x => whenZero (x.i.extractLsb' 5 1) (.instr (.sllwImm x.d x.a (x.i.extractLsb' 0 5)))),
   (6, fun x => whenZero (x.i.extractLsb' 5 1) (.instr (.srlwImm x.d x.a (x.i.extractLsb' 0 5)))),
   (7, fun x => whenZero (x.i.extractLsb' 5 1) (.instr (.srawImm x.d x.a (x.i.extractLsb' 0 5))))]

def decodeShiftImm (x : AI) : Decoded :=
  whenZero (x.i.extractLsb' 6 2) (pick shiftImmRows (x.i.extractLsb' 8 8).toNat x)

/-- Opcode 0x10, vector integer arithmetic (R256): every element size. -/
def vintRows : List (Nat × (AV → Decoded)) :=
  let r (mk : VReg → VReg → VReg → KReg → ESize → Instr) : AV → Decoded := fun x =>
    .instr (mk x.d x.a x.b x.k (ESize.ofBits x.s))
  [(0x00, r .vadd), (0x01, r .vsub), (0x02, r .vadds), (0x03, r .vsubs), (0x04, r .vaddus), (0x05, r .vsubus),
   (0x06, r .vmul), (0x07, r .vmulh), (0x08, r .vmulhu), (0x09, r .vand), (0x0A, r .vor), (0x0B, r .vxor),
   (0x0C, r .vandn), (0x0D, r .vmin), (0x0E, r .vmax), (0x0F, r .vminu), (0x10, r .vmaxu),
   (0x11, fun x => whenZero x.b (.instr (.vabs x.d x.a x.k (ESize.ofBits x.s)))),
   (0x12, r .vsll), (0x13, r .vsrl), (0x14, r .vsra), (0x15, r .vavgu)]

/-- The type of opcodes 0x11 and 0x12, from the element size and func[5] (R257). -/
def AV.ftype (x : AV) (k : FType → Decoded) : Decoded := ofOption (FType.ofBits x.s (x.f.extractLsb' 5 1)) k

/-- Opcode 0x11, vector floating-point arithmetic (R257), by func[4:0]. -/
def vfloatRows : List (Nat × (AV → Decoded)) :=
  let r (mk : VReg → VReg → VReg → KReg → FType → Instr) : AV → Decoded := fun x =>
    x.ftype fun t => .instr (mk x.d x.a x.b x.k t)
  let u (mk : VReg → VReg → KReg → FType → Instr) : AV → Decoded := fun x =>
    whenZero x.b (x.ftype fun t => .instr (mk x.d x.a x.k t))
  [(0, r .vaddF), (1, r .vsubF), (2, r .vmulF), (3, r .vminF), (4, r .vmaxF), (5, u .vabsF), (6, u .vnegF), (7, r .vcpsgnF)]

/-- Opcode 0x12, fused multiply-add (R259), by func[4:0]. -/
def vfmaRows : List (Nat × (AV → Decoded)) :=
  let r (mk : VReg → VReg → VReg → KReg → FType → Instr) : AV → Decoded := fun x =>
    x.ftype fun t => .instr (mk x.d x.a x.b x.k t)
  let w (mk : VReg → VReg → VReg → KReg → HType → Instr) : AV → Decoded := fun x =>
    if x.s = 2 then .instr (mk x.d x.a x.b x.k (HType.ofBit (x.f.extractLsb' 5 1))) else .illegalEncoding
  [(0, r .vfma), (1, r .vfms), (2, r .vfnma), (3, r .vfnms), (4, w .vfmawLo), (5, w .vfmawHi)]

/-- The value, where the element size is the one given (R51). -/
def whenSize (s n : BitVec 2) (x : Decoded) : Decoded := if s = n then x else .illegalEncoding

/-- Opcode 0x15, special functions (R265): f32 only. -/
noncomputable def vspecialRows : List (Nat × (AV → Decoded)) :=
  let u (mk : VReg → VReg → KReg → Instr) : AV → Decoded := fun x => whenZero x.b (.instr (mk x.d x.a x.k))
  let r (mk : VReg → VReg → VReg → KReg → Instr) : AV → Decoded := fun x => .instr (mk x.d x.a x.b x.k)
  [(0, u .vrcpA), (1, u .vrsqA), (2, r .vrcpS), (3, r .vrsqS), (4, u .vrcp), (5, u .vrsq), (6, u .vsqrt), (7, r .vdiv),
   (8, u .vexp2), (9, u .vlog2)]

/-- Opcode 0x16, reductions (R269). -/
noncomputable def vreduceRows : List (Nat × (AV → Decoded)) :=
  let f (mk : VReg → VReg → KReg → Instr) : AV → Decoded := fun x => whenSize x.s 2 (.instr (mk x.d x.a x.k))
  let i (mk : VReg → VReg → KReg → ESize → Instr) : AV → Decoded := fun x => .instr (mk x.d x.a x.k (ESize.ofBits x.s))
  [(0, f .vraddF32), (1, f .vrmaxF32), (2, f .vrminF32), (8, i .vradd), (9, i .vrmax), (10, i .vrmin), (11, i .vrmaxu),
   (12, i .vrminu), (13, i .vrand), (14, i .vror), (15, i .vrxor),
   (16, fun x => if x.s = 3 then .illegalEncoding else .instr (.vraddw x.d x.a x.k (ESize.ofBits x.s)))]

/-- Opcode 0x17, permutes (R271), but for `vsld`. -/
noncomputable def vpermRows : List (Nat × (AV → Decoded)) :=
  let r (mk : VReg → VReg → VReg → KReg → ESize → Instr) : AV → Decoded := fun x =>
    .instr (mk x.d x.a x.b x.k (ESize.ofBits x.s))
  [(0, r .vperm), (1, r .vperm2), (2, r .vzipl), (3, r .vziph), (4, r .vuzpe), (5, r .vuzpo),
   (6, fun x => whenZero x.b (.instr (.vrev x.d x.a x.k (ESize.ofBits x.s))))]

noncomputable def decodePerm (x : AV) : Decoded :=
  if x.f.extractLsb' 5 1 = 1 then .instr (.vsld x.d x.a x.b x.k (ESize.ofBits x.s) (x.f.extractLsb' 0 5))
  else pick vpermRows x.f.toNat x

/-- Opcode 0x18, mask operations and `vmerge` (R272). -/
noncomputable def maskRows : List (Nat × (AV → Decoded)) :=
  let r (mk : KReg → KReg → KReg → Instr) : AV → Decoded := fun x =>
    whenZero x.k (whenZero x.s (narrow x.d fun d => narrow x.a fun a => narrow x.b fun b => .instr (mk d a b)))
  let u (mk : KReg → KReg → Instr) : AV → Decoded := fun x =>
    whenZero x.k (whenZero x.s (whenZero x.b (narrow x.d fun d => narrow x.a fun a => .instr (mk d a))))
  [(0, r .kand), (1, r .kor), (2, r .kxor), (3, r .kandn), (4, u .knot), (5, u .kmov),
   (8, fun x => .instr (.vmerge x.d x.a x.b x.k (ESize.ofBits x.s)))]

/-- Opcode 0x19, ternary pack and unpack (R274, R275). -/
noncomputable def decodeTernary (x : AV) : Decoded :=
  whenZero x.k
    (if x.f = 16 then whenZero x.s (.instr (.vtpack x.d x.a x.b .i8))
     else if x.f = 17 then whenZero x.s (.instr (.vtpack x.d x.a x.b .i2))
     else ofOption TType.all[x.f.toNat]? fun t => whenSize x.s t.size (.instr (.vtunpack x.d x.a x.b t)))

/-- The value, where the mask field is k0; another mask is an illegal operand (R273). -/
def whenK0 (k : BitVec 3) (x : Decoded) : Decoded :=
  if x = .illegalEncoding then x else if k = 0 then x else .illegalOperand false

/-- The half h of `ktos` and `stok`; a value above 1 is an illegal operand (R273). -/
def half (b : BitVec 5) (k : BitVec 1 → Decoded) : Decoded :=
  if b.extractLsb' 1 4 = 0 then k (b.extractLsb' 0 1)
  else if k 0 = .illegalEncoding then .illegalEncoding else .illegalOperand false

/-- Opcode 0x1B, moves between vectors and scalars (R273). -/
noncomputable def moveRows : List (Nat × (AV → Decoded)) :=
  [(0, fun x => whenZero x.b (.instr (.vbcast x.d x.a x.k (ESize.ofBits x.s)))),
   (1, fun x => whenK0 x.k (.instr (.vext x.d x.a x.b (ESize.ofBits x.s)))),
   (2, fun x => whenK0 x.k (.instr (.vexts x.d x.a x.b (ESize.ofBits x.s)))),
   (3, fun x => whenK0 x.k (.instr (.vins x.d x.a x.b (ESize.ofBits x.s)))),
   (4, fun x => whenK0 x.k (half x.b fun h => whenZero x.s (narrow x.a fun a => .instr (.ktos x.d a h)))),
   (5, fun x => whenK0 x.k (half x.b fun h => whenZero x.s (narrow x.d fun d => .instr (.stok d x.a h)))),
   (6, fun x => whenK0 x.k (whenZero x.b (whenZero x.s (narrow x.a fun a => .instr (.kpop x.d a))))),
   (7, fun x => whenZero x.b (.instr (.vmov x.d x.a x.k (ESize.ofBits x.s))))]

/-- Opcode 0x1A, packed narrow arithmetic (R261). -/
noncomputable def packedRows : List (Nat × (AV → Decoded)) :=
  let r (mk : VReg → VReg → VReg → KReg → Instr) : AV → Decoded := fun x => .instr (mk x.d x.a x.b x.k)
  [(0, r .vpadd), (1, r .vpsub), (2, r .vpmul), (3, r .vpmin), (4, r .vpmax), (5, r .vpfma)]

/-- Opcode 0x1C, the soft-maximum pair (R307). -/
noncomputable def softmaxRows : List (Nat × (AV → Decoded)) :=
  [(0, fun x => .instr (.vsmUpd x.d x.a x.b x.k)), (1, fun x => .instr (.vsmRescale x.d x.a x.b x.k))]

/-- Opcode 0x1D, the vector sequencer (R276). -/
noncomputable def sequencerRows : List (Nat × (AV → Decoded)) :=
  [(0, fun x => whenZero x.d (whenZero (x.b.extractLsb' 4 1) (.instr (.vloop x.a (x.b.extractLsb' 0 4))))),
   (1, fun x => whenZero x.a (whenZero x.b (.instr (.vlidx x.d))))]

/-- `fmt` in the A-slot (R45). -/
def decodeFmtA (x : AF) : Decoded :=
  whenZero x.r (ofOption (FmtId.ofBits x.fa) fun a => ofOption (FmtId.ofBits x.fb) fun b =>
    ofOption (FmtId.ofBits x.fc) fun c => .instr (.fmtA a b c))

/-- The A-slot opcode map (R50). -/
noncomputable def aslotRows (w : Word32) : List (Nat × (Unit → Decoded)) :=
  [(0x00, fun _ => if w = 0 then .instr .nop else .illegalEncoding),
   (0x01, fun _ => decodeFmtA (AF.ofWord w)),
   (0x02, fun _ => pick arithRows (AR.ofWord w).f.toNat (AR.ofWord w)),
   (0x03, fun _ => pick shiftRows (AR.ofWord w).f.toNat (AR.ofWord w)),
   (0x04, fun _ => pick multiplyRows (AR.ofWord w).f.toNat (AR.ofWord w)),
   (0x05, fun _ => pick bitRows (AR.ofWord w).f.toNat (AR.ofWord w)),
   (0x06, fun _ => decodeCompare (AR.ofWord w)),
   (0x07, fun _ => decodeSelect (AR.ofWord w)),
   (0x08, fun _ => .instr (.addImm (AI.ofWord w).d (AI.ofWord w).a (AI.ofWord w).i)),
   (0x09, fun _ => .instr (.andImm (AI.ofWord w).d (AI.ofWord w).a (AI.ofWord w).i)),
   (0x0A, fun _ => .instr (.orImm (AI.ofWord w).d (AI.ofWord w).a (AI.ofWord w).i)),
   (0x0B, fun _ => .instr (.xorImm (AI.ofWord w).d (AI.ofWord w).a (AI.ofWord w).i)),
   (0x0C, fun _ => whenZero (AI.ofWord w).a (.instr (.li (AI.ofWord w).d (AI.ofWord w).i))),
   (0x0D, fun _ => .instr (.lih (AI.ofWord w).d (AI.ofWord w).a (AI.ofWord w).i)),
   (0x0E, fun _ => decodeCompareImm (AI.ofWord w)),
   (0x0F, fun _ => decodeShiftImm (AI.ofWord w)),
   (0x10, fun _ => pick vintRows (AV.ofWord w).f.toNat (AV.ofWord w)),
   (0x11, fun _ => pick vfloatRows ((AV.ofWord w).f.extractLsb' 0 5).toNat (AV.ofWord w)),
   (0x12, fun _ => pick vfmaRows ((AV.ofWord w).f.extractLsb' 0 5).toNat (AV.ofWord w)),
   (0x13, fun _ => narrow (AV.ofWord w).d fun d => ofOption (VCmp.ofBits (AV.ofWord w).s (AV.ofWord w).f) fun c =>
      .instr (.vcmp d (AV.ofWord w).a (AV.ofWord w).b (AV.ofWord w).k c)),
   (0x14, fun _ => whenSize (AV.ofWord w).s 2 (whenZero (AV.ofWord w).b (.instr (.vcvt (AV.ofWord w).d (AV.ofWord w).a
      (AV.ofWord w).k ((AV.ofWord w).f.extractLsb' 3 3) ((AV.ofWord w).f.extractLsb' 0 3))))),
   (0x15, fun _ => whenSize (AV.ofWord w).s 2 (pick vspecialRows (AV.ofWord w).f.toNat (AV.ofWord w))),
   (0x16, fun _ => whenZero (AV.ofWord w).b (pick vreduceRows (AV.ofWord w).f.toNat (AV.ofWord w))),
   (0x17, fun _ => decodePerm (AV.ofWord w)),
   (0x18, fun _ => pick maskRows (AV.ofWord w).f.toNat (AV.ofWord w)),
   (0x19, fun _ => decodeTernary (AV.ofWord w)),
   (0x1A, fun _ => whenZero (AV.ofWord w).s (pick packedRows (AV.ofWord w).f.toNat (AV.ofWord w))),
   (0x1B, fun _ => pick moveRows (AV.ofWord w).f.toNat (AV.ofWord w)),
   (0x1C, fun _ => whenSize (AV.ofWord w).s 2 (pick softmaxRows (AV.ofWord w).f.toNat (AV.ofWord w))),
   (0x1D, fun _ => whenZero (AV.ofWord w).k (whenZero (AV.ofWord w).s
      (pick sequencerRows (AV.ofWord w).f.toNat (AV.ofWord w))))]

/-- The instruction of the A-slot. -/
noncomputable def decodeA (w : Word32) : Decoded := pick (aslotRows w) (w.extractLsb' 26 6).toNat ()

/-! ### The encoder -/

/-- The word of an instruction with the slot it stands in: a C-slot word has the literal, or the A-slot word that it
demands, beside it. -/
inductive Code where
  | cslot (w0 : Word32) (w1 : Option Word32)
  | aslot (w : Word32)
  deriving DecidableEq, Repr

/-- A CM word: the short offset, or L = 1 with the literal (R37). -/
def encodeMem (op : BitVec 6) (la : BitVec 4) (d : BitVec 5) (b : SReg) : MemOff → Code
  | .short o => .cslot (CM.toWord ⟨0, op, la, d, b, o⟩) none
  | .lit x => .cslot (CM.toWord ⟨1, op, la, d, b, 0⟩) (some x)

/-- A CR word with operand b a register or the literal. -/
def encodeReg (op : BitVec 6) (la : BitVec 4) (d : BitVec 5) (a : SReg) (b : RegLit) (f : BitVec 6) : Code :=
  match b with
  | .reg r => .cslot (CR.toWord ⟨0, op, la, d, a, r, f⟩) none
  | .lit x => .cslot (CR.toWord ⟨1, op, la, d, a, 0, f⟩) (some x)

/-- A CQ word with the immediate short or the literal. -/
def encodeQ (op : BitVec 6) (d : BitVec 5) (q : QReg) : QImm → Code
  | .short i => .cslot (CQ.toWord ⟨0, op, 0, d, q, i⟩) none
  | .lit x => .cslot (CQ.toWord ⟨1, op, 0, d, q, 0⟩) (some x)

/-- A predicate or mask number in a field of five bits. -/
def wide (x : BitVec 3) : BitVec 5 := (0 : BitVec 2) ++ x

/-- The word of a slot instruction, from the encoding tables; an event has none. `nop` is the zero word of either slot. -/
def encode (i : Instr) : Option Code :=
  match i with
  | .nop => some (.cslot 0 none)
  | .fmtC fa fb fc => some (.cslot (CF.toWord ⟨0, 0x01, fa.bits, fb.bits, fc.bits, 0⟩) none)
  | .fmtA fa fb fc => some (.aslot (AF.toWord ⟨0x01, fa.bits, fb.bits, fc.bits, 0⟩))
  | .ldB la d b o => some (encodeMem 0x04 la d b o)
  | .ldH la d b o => some (encodeMem 0x05 la d b o)
  | .ldW la d b o => some (encodeMem 0x06 la d b o)
  | .ldD la d b o => some (encodeMem 0x07 la d b o)
  | .ldBs la d b o => some (encodeMem 0x08 la d b o)
  | .ldHs la d b o => some (encodeMem 0x09 la d b o)
  | .ldWs la d b o => some (encodeMem 0x0A la d b o)
  | .vld la d b o => some (encodeMem 0x0C la d b o)
  | .vldTag la d b o => some (encodeMem 0x0D la d b o)
  | .stB d b o => some (encodeMem 0x10 0 d b o)
  | .stH d b o => some (encodeMem 0x11 0 d b o)
  | .stW d b o => some (encodeMem 0x12 0 d b o)
  | .stD d b o => some (encodeMem 0x13 0 d b o)
  | .vst d b o => some (encodeMem 0x14 0 d b o)
  | .vstTag d b o => some (encodeMem 0x15 0 d b o)
  | .adr d b o => some (encodeMem 0x18 0 d b o)
  | .cpf a b => some (.cslot (CR.toWord ⟨0, 0x19, 0, 0, a, b, 0⟩) none)
  | .cinv a b => some (.cslot (CR.toWord ⟨0, 0x19, 1, 0, a, b, 0⟩) none)
  | .lbank d a b => some (.cslot (CR.toWord ⟨0, 0x19, 2, d, a, b, 0⟩) none)
  | .lrng a b => some (.cslot (CR.toWord ⟨0, 0x19, 3, 0, a, b, 0⟩) none)
  | .lstat d a => some (.cslot (CR.toWord ⟨0, 0x19, 4, d, a, 0, 0⟩) none)
  | .sbind a => some (.cslot (CR.toWord ⟨0, 0x19, 5, 0, a, 0, 0⟩) none)
  | .ltag d a => some (.cslot (CR.toWord ⟨0, 0x19, 6, d, a, 0, 0⟩) none)
  | .aswap la d a b t => some (encodeReg 0x1C la d a b ((0 : BitVec 4) ++ t.bits))
  | .acas la d a b t => some (encodeReg 0x1C la d a b ((1 : BitVec 4) ++ t.bits))
  | .aadd la d a b t => some (encodeReg 0x1C la d a b ((2 : BitVec 4) ++ t.bits))
  | .aand la d a b t => some (encodeReg 0x1C la d a b ((3 : BitVec 4) ++ t.bits))
  | .aor la d a b t => some (encodeReg 0x1C la d a b ((4 : BitVec 4) ++ t.bits))
  | .axor la d a b t => some (encodeReg 0x1C la d a b ((5 : BitVec 4) ++ t.bits))
  | .amax la d a b t => some (encodeReg 0x1C la d a b ((6 : BitVec 4) ++ t.bits))
  | .amin la d a b t => some (encodeReg 0x1C la d a b ((7 : BitVec 4) ++ t.bits))
  | .amaxu la d a b t => some (encodeReg 0x1C la d a b ((8 : BitVec 4) ++ t.bits))
  | .aminu la d a b t => some (encodeReg 0x1C la d a b ((9 : BitVec 4) ++ t.bits))
  | .aaddN a b t => some (encodeReg 0x1D 2 0 a b ((0 : BitVec 4) ++ t.bits))
  | .aandN a b t => some (encodeReg 0x1D 3 0 a b ((0 : BitVec 4) ++ t.bits))
  | .aorN a b t => some (encodeReg 0x1D 4 0 a b ((0 : BitVec 4) ++ t.bits))
  | .axorN a b t => some (encodeReg 0x1D 5 0 a b ((0 : BitVec 4) ++ t.bits))
  | .amaxN a b t => some (encodeReg 0x1D 6 0 a b ((0 : BitVec 4) ++ t.bits))
  | .aminN a b t => some (encodeReg 0x1D 7 0 a b ((0 : BitVec 4) ++ t.bits))
  | .amaxuN a b t => some (encodeReg 0x1D 8 0 a b ((0 : BitVec 4) ++ t.bits))
  | .aminuN a b t => some (encodeReg 0x1D 9 0 a b ((0 : BitVec 4) ++ t.bits))
  | .fence => some (.cslot (CR.toWord ⟨0, 0x1E, 0, 0, 0, 0, 0⟩) none)
  | .fenceE => some (.cslot (CR.toWord ⟨0, 0x1E, 0, 0, 0, 0, 1⟩) none)
  | .fenceI => some (.cslot (CR.toWord ⟨0, 0x1E, 0, 0, 0, 0, 2⟩) none)
  | .fenceEi => some (.cslot (CR.toWord ⟨0, 0x1E, 0, 0, 0, 0, 3⟩) none)
  | .bar a b => some (.cslot (CR.toWord ⟨0, 0x1E, 1, 0, a, b, 0⟩) none)
  | .scLd la d a m z => some (.cslot (CR.toWord ⟨0, 0x1F, la, d, a, 0, (m.bit ++ (0 : BitVec 3) ++ z.bits)⟩) none)
  | .scSt a b m z => some (encodeReg 0x1F 0 0 a b (m.bit ++ (1 : BitVec 3) ++ z.bits))
  | .scSwap la d a b m z => some (encodeReg 0x1F la d a b (m.bit ++ (2 : BitVec 3) ++ z.bits))
  | .scCas la d a b m z => some (encodeReg 0x1F la d a b (m.bit ++ (3 : BitVec 3) ++ z.bits))
  | .scAdd la d a b m z => some (encodeReg 0x1F la d a b (m.bit ++ (4 : BitVec 3) ++ z.bits))
  | .br p disp => some (.cslot (CB.toWord ⟨0, 0x20, p, disp⟩) none)
  | .brf p disp => some (.cslot (CB.toWord ⟨0, 0x21, p, disp⟩) none)
  | .call p disp => some (.cslot (CB.toWord ⟨0, 0x22, p, disp⟩) none)
  | .jr a => some (.cslot (CR.toWord ⟨0, 0x23, 0, 0, a, 0, 0⟩) none)
  | .callr a => some (.cslot (CR.toWord ⟨0, 0x23, 1, 0, a, 0, 0⟩) none)
  | .ret => some (.cslot (CR.toWord ⟨0, 0x23, 2, 0, 0, 0, 0⟩) none)
  | .wflush => some (.cslot (CR.toWord ⟨0, 0x24, 0, 0, 0, 0, 0⟩) none)
  | .wdepth d => some (.cslot (CR.toWord ⟨0, 0x24, 1, d, 0, 0, 0⟩) none)
  | .atTime a => some (.cslot (CR.toWord ⟨0, 0x25, 0, 0, a, 0, 0⟩) none)
  | .atTimeC a => some (.cslot (CR.toWord ⟨0, 0x25, 1, 0, a, 0, 0⟩) none)
  | .gang a => some (.cslot (CR.toWord ⟨0, 0x26, 0, 0, a, 0, 0⟩) none)
  | .split => some (.cslot (CR.toWord ⟨0, 0x26, 1, 0, 0, 0, 0⟩) none)
  | .tbegin a b => some (.cslot (CR.toWord ⟨0, 0x27, 0, 0, a, b, 0⟩) none)
  | .tcommit => some (.cslot (CR.toWord ⟨0, 0x27, 1, 0, 0, 0, 0⟩) none)
  | .tend => some (.cslot (CR.toWord ⟨0, 0x27, 2, 0, 0, 0, 0⟩) none)
  | .tspawn d a b => some (.cslot (CR.toWord ⟨0, 0x27, 3, d, a, b, 0⟩) none)
  | .tstamp d => some (.cslot (CR.toWord ⟨0, 0x27, 4, d, 0, 0, 0⟩) none)
  | .tabort => some (.cslot (CR.toWord ⟨0, 0x27, 5, 0, 0, 0, 0⟩) none)
  | .tabortO => some (.cslot (CR.toWord ⟨0, 0x27, 6, 0, 0, 0, 0⟩) none)
  | .exit a => some (.cslot (CR.toWord ⟨0, 0x27, 7, 0, a, 0, 0⟩) none)
  | .div la d a b => some (encodeReg 0x28 la d a b 0)
  | .divu la d a b => some (encodeReg 0x28 la d a b 1)
  | .rem la d a b => some (encodeReg 0x28 la d a b 2)
  | .remu la d a b => some (encodeReg 0x28 la d a b 3)
  | .divw la d a b => some (encodeReg 0x28 la d a b 4)
  | .divuw la d a b => some (encodeReg 0x28 la d a b 5)
  | .remw la d a b => some (encodeReg 0x28 la d a b 6)
  | .remuw la d a b => some (encodeReg 0x28 la d a b 7)
  | .mul2 la d a b => some (encodeReg 0x28 la d a b 8)
  | .mul2u la d a b => some (encodeReg 0x28 la d a b 9)
  | .mfsr d r => some (.cslot (CR.toWord ⟨0, 0x29, 0, d, 0, 0, r.number⟩) none)
  | .mtsr a r => some (.cslot (CR.toWord ⟨0, 0x29, 1, 0, a, 0, r.number⟩) none)
  | .lhzM d a => some (.cslot (CR.toWord ⟨0, 0x2A, 0, d, a, 0, 0⟩) none)
  | .lhzD d a => some (.cslot (CR.toWord ⟨0, 0x2A, 1, d, a, 0, 0⟩) none)
  | .lwait a => some (.cslot (CR.toWord ⟨0, 0x2A, 2, 0, a, 0, 0⟩) none)
  | .ptw d a b => some (.cslot (CR.toWord ⟨0, 0x2A, 3, d, a, b, 0⟩) none)
  | .frep d a b => some (.cslot (CR.toWord ⟨0, 0x2A, 4, d, a, b, 0⟩) none)
  | .trap i => some (.cslot (CS.toWord ⟨0, 0x2B, 0, 0, i⟩) none)
  | .brk i => some (.cslot (CS.toWord ⟨0, 0x2B, 1, 0, i⟩) none)
  | .rte => some (.cslot (CS.toWord ⟨0, 0x2B, 2, 0, 0⟩) (some 0))
  | .tkill i => some (.cslot (CS.toWord ⟨0, 0x2B, 3, 0, i⟩) (some 0))
  | .crd d a => some (.cslot (CR.toWord ⟨0, 0x2C, 0, d, a, 0, 0⟩) none)
  | .cwait d a b => some (.cslot (CR.toWord ⟨0, 0x2C, 1, d, a, b, 0⟩) none)
  | .csig a b => some (.cslot (CR.toWord ⟨0, 0x2C, 2, 0, a, b, 0⟩) none)
  | .lcancel a => some (.cslot (CR.toWord ⟨0, 0x2C, 3, 0, a, 0, 0⟩) none)
  | .cset a b => some (.cslot (CR.toWord ⟨0, 0x2C, 4, 0, a, b, 0⟩) none)
  | .qpop la d q => some (.cslot (CQ.toWord ⟨0, 0x30, la, d, q, 0⟩) none)
  | .qpush d q i => some (encodeQ 0x31 d q i)
  | .vqpop la d q => some (.cslot (CQ.toWord ⟨0, 0x32, la, d, q, 0⟩) none)
  | .vqpush d q => some (.cslot (CQ.toWord ⟨0, 0x33, 0, d, q, 0⟩) none)
  | .cpy d tag => some (.cslot (CQ.toWord ⟨0, 0x34, 0, d, 4, tag ++ (0 : BitVec 6)⟩) none)
  | .cpyTry la d tag => some (.cslot (CQ.toWord ⟨0, 0x34, la, d, 4, tag ++ (1 : BitVec 6)⟩) none)
  | .mcmd d c => some (encodeQ 0x35 d 1 c)
  | .rcat la d tag form => some (.cslot (CQ.toWord ⟨0, 0x36, la, d, 5, tag ++ form.bits ++ (0 : BitVec 4)⟩) none)
  | .rsplit la d tag form => some (.cslot (CQ.toWord ⟨0, 0x36, la, d, 5, tag ++ form.bits ++ (1 : BitVec 4)⟩) none)
  | .rsplice la d tag form => some (.cslot (CQ.toWord ⟨0, 0x36, la, d, 5, tag ++ form.bits ++ (2 : BitVec 4)⟩) none)
  | .rindex la d tag form => some (.cslot (CQ.toWord ⟨0, 0x36, la, d, 5, tag ++ form.bits ++ (3 : BitVec 4)⟩) none)
  | .rsum la d tag form => some (.cslot (CQ.toWord ⟨0, 0x36, la, d, 5, tag ++ form.bits ++ (4 : BitVec 4)⟩) none)
  | .rwalk la d tag form => some (.cslot (CQ.toWord ⟨0, 0x36, la, d, 5, tag ++ form.bits ++ (5 : BitVec 4)⟩) none)
  | .rhold la d tag form => some (.cslot (CQ.toWord ⟨0, 0x36, la, d, 5, tag ++ form.bits ++ (6 : BitVec 4)⟩) none)
  | .rdrop la d tag form => some (.cslot (CQ.toWord ⟨0, 0x36, la, d, 5, tag ++ form.bits ++ (7 : BitVec 4)⟩) none)
  | .rpiece la d tag form => some (.cslot (CQ.toWord ⟨0, 0x36, la, d, 5, tag ++ form.bits ++ (8 : BitVec 4)⟩) none)
  | .rresum la d tag form => some (.cslot (CQ.toWord ⟨0, 0x36, la, d, 5, tag ++ form.bits ++ (9 : BitVec 4)⟩) none)
  | .trim la d tag form => some (.cslot (CQ.toWord ⟨0, 0x36, la, d, 5, tag ++ form.bits ++ (10 : BitVec 4)⟩) none)
  | .rtier la d tag form => some (.cslot (CQ.toWord ⟨0, 0x36, la, d, 5, tag ++ form.bits ++ (11 : BitVec 4)⟩) none)
  | .hblk la d v => some (.cslot (CQ.toWord ⟨0, 0x37, la, d, 0, (0 : BitVec 3) ++ v ++ (0 : BitVec 4)⟩) none)
  | .pfxLook la d => some (.cslot (CQ.toWord ⟨0, 0x37, la, d, 0, 1⟩) none)
  | .pfxAdd la d => some (.cslot (CQ.toWord ⟨0, 0x37, la, d, 0, 2⟩) none)
  | .pfxPin la d => some (.cslot (CQ.toWord ⟨0, 0x37, la, d, 0, 3⟩) none)
  | .pfxUnpin la d => some (.cslot (CQ.toWord ⟨0, 0x37, la, d, 0, 4⟩) none)
  | .tget d a y => some (.cslot (CR.toWord ⟨0, 0x38, 0, d, a, ((0 : BitVec 3) ++ y), 0⟩) none)
  | .tput d a y => some (.cslot (CR.toWord ⟨0, 0x38, 1, d, a, ((0 : BitVec 3) ++ y), 0⟩) none)
  | .qwait la d q => some (.cslot (CQ.toWord ⟨0, 0x39, la, d, q, 0⟩) none)
  | .wcwait la d c => some (.cslot (CQ.toWord ⟨0, 0x39, la, d, 0, c ++ (1 : BitVec 4)⟩) none)
  | .add d a b p => some (.aslot (AR.toWord ⟨0x02, d, a, b, p, 0x00⟩))
  | .sub d a b p => some (.aslot (AR.toWord ⟨0x02, d, a, b, p, 0x01⟩))
  | .addw d a b p => some (.aslot (AR.toWord ⟨0x02, d, a, b, p, 0x02⟩))
  | .subw d a b p => some (.aslot (AR.toWord ⟨0x02, d, a, b, p, 0x03⟩))
  | .adds d a b p => some (.aslot (AR.toWord ⟨0x02, d, a, b, p, 0x04⟩))
  | .subs d a b p => some (.aslot (AR.toWord ⟨0x02, d, a, b, p, 0x05⟩))
  | .addus d a b p => some (.aslot (AR.toWord ⟨0x02, d, a, b, p, 0x06⟩))
  | .subus d a b p => some (.aslot (AR.toWord ⟨0x02, d, a, b, p, 0x07⟩))
  | .and d a b p => some (.aslot (AR.toWord ⟨0x02, d, a, b, p, 0x08⟩))
  | .or d a b p => some (.aslot (AR.toWord ⟨0x02, d, a, b, p, 0x09⟩))
  | .xor d a b p => some (.aslot (AR.toWord ⟨0x02, d, a, b, p, 0x0A⟩))
  | .andn d a b p => some (.aslot (AR.toWord ⟨0x02, d, a, b, p, 0x0B⟩))
  | .orn d a b p => some (.aslot (AR.toWord ⟨0x02, d, a, b, p, 0x0C⟩))
  | .xnor d a b p => some (.aslot (AR.toWord ⟨0x02, d, a, b, p, 0x0D⟩))
  | .min d a b p => some (.aslot (AR.toWord ⟨0x02, d, a, b, p, 0x10⟩))
  | .max d a b p => some (.aslot (AR.toWord ⟨0x02, d, a, b, p, 0x11⟩))
  | .minu d a b p => some (.aslot (AR.toWord ⟨0x02, d, a, b, p, 0x12⟩))
  | .maxu d a b p => some (.aslot (AR.toWord ⟨0x02, d, a, b, p, 0x13⟩))
  | .abs d a p => some (.aslot (AR.toWord ⟨0x02, d, a, 0, p, 0x14⟩))
  | .sll d a b p => some (.aslot (AR.toWord ⟨0x03, d, a, b, p, 0x00⟩))
  | .srl d a b p => some (.aslot (AR.toWord ⟨0x03, d, a, b, p, 0x01⟩))
  | .sra d a b p => some (.aslot (AR.toWord ⟨0x03, d, a, b, p, 0x02⟩))
  | .rol d a b p => some (.aslot (AR.toWord ⟨0x03, d, a, b, p, 0x03⟩))
  | .ror d a b p => some (.aslot (AR.toWord ⟨0x03, d, a, b, p, 0x04⟩))
  | .sllw d a b p => some (.aslot (AR.toWord ⟨0x03, d, a, b, p, 0x05⟩))
  | .srlw d a b p => some (.aslot (AR.toWord ⟨0x03, d, a, b, p, 0x06⟩))
  | .sraw d a b p => some (.aslot (AR.toWord ⟨0x03, d, a, b, p, 0x07⟩))
  | .sllImm d a n => some (.aslot (AI.toWord ⟨0x0F, d, a, ((0 : BitVec 8) ++ (0 : BitVec 2) ++ n)⟩))
  | .srlImm d a n => some (.aslot (AI.toWord ⟨0x0F, d, a, ((1 : BitVec 8) ++ (0 : BitVec 2) ++ n)⟩))
  | .sraImm d a n => some (.aslot (AI.toWord ⟨0x0F, d, a, ((2 : BitVec 8) ++ (0 : BitVec 2) ++ n)⟩))
  | .rolImm d a n => some (.aslot (AI.toWord ⟨0x0F, d, a, ((3 : BitVec 8) ++ (0 : BitVec 2) ++ n)⟩))
  | .rorImm d a n => some (.aslot (AI.toWord ⟨0x0F, d, a, ((4 : BitVec 8) ++ (0 : BitVec 2) ++ n)⟩))
  | .sllwImm d a n => some (.aslot (AI.toWord ⟨0x0F, d, a, ((5 : BitVec 8) ++ (0 : BitVec 3) ++ n)⟩))
  | .srlwImm d a n => some (.aslot (AI.toWord ⟨0x0F, d, a, ((6 : BitVec 8) ++ (0 : BitVec 3) ++ n)⟩))
  | .srawImm d a n => some (.aslot (AI.toWord ⟨0x0F, d, a, ((7 : BitVec 8) ++ (0 : BitVec 3) ++ n)⟩))
  | .mul d a b p => some (.aslot (AR.toWord ⟨0x04, d, a, b, p, 0x00⟩))
  | .mulh d a b p => some (.aslot (AR.toWord ⟨0x04, d, a, b, p, 0x01⟩))
  | .mulhu d a b p => some (.aslot (AR.toWord ⟨0x04, d, a, b, p, 0x02⟩))
  | .mulhsu d a b p => some (.aslot (AR.toWord ⟨0x04, d, a, b, p, 0x03⟩))
  | .mulw d a b p => some (.aslot (AR.toWord ⟨0x04, d, a, b, p, 0x04⟩))
  | .clz d a p => some (.aslot (AR.toWord ⟨0x05, d, a, 0, p, 0x00⟩))
  | .ctz d a p => some (.aslot (AR.toWord ⟨0x05, d, a, 0, p, 0x01⟩))
  | .popc d a p => some (.aslot (AR.toWord ⟨0x05, d, a, 0, p, 0x02⟩))
  | .brev d a p => some (.aslot (AR.toWord ⟨0x05, d, a, 0, p, 0x03⟩))
  | .bswap d a p => some (.aslot (AR.toWord ⟨0x05, d, a, 0, p, 0x04⟩))
  | .sextB d a p => some (.aslot (AR.toWord ⟨0x05, d, a, 0, p, 0x05⟩))
  | .sextH d a p => some (.aslot (AR.toWord ⟨0x05, d, a, 0, p, 0x06⟩))
  | .sextW d a p => some (.aslot (AR.toWord ⟨0x05, d, a, 0, p, 0x07⟩))
  | .zextB d a p => some (.aslot (AR.toWord ⟨0x05, d, a, 0, p, 0x08⟩))
  | .zextH d a p => some (.aslot (AR.toWord ⟨0x05, d, a, 0, p, 0x09⟩))
  | .zextW d a p => some (.aslot (AR.toWord ⟨0x05, d, a, 0, p, 0x0A⟩))
  | .bclr d a b p => some (.aslot (AR.toWord ⟨0x05, d, a, b, p, 0x0B⟩))
  | .bset d a b p => some (.aslot (AR.toWord ⟨0x05, d, a, b, p, 0x0C⟩))
  | .binv d a b p => some (.aslot (AR.toWord ⟨0x05, d, a, b, p, 0x0D⟩))
  | .bext d a b p => some (.aslot (AR.toWord ⟨0x05, d, a, b, p, 0x0E⟩))
  | .cmp d a b p c => some (.aslot (AR.toWord ⟨0x06, (wide d), a, b, p, ((0 : BitVec 5) ++ c.bits)⟩))
  | .cmpImm d a c i => some (.aslot (AI.toWord ⟨0x0E, (wide d), a, (c.bits ++ i)⟩))
  | .sel d a b p q => some (.aslot (AR.toWord ⟨0x07, d, a, b, p, (q ++ (0 : BitVec 5))⟩))
  | .mov d a p => some (.aslot (AR.toWord ⟨0x07, d, a, 0, p, 0x01⟩))
  | .pand d a b p => some (.aslot (AR.toWord ⟨0x07, (wide d), (wide a), (wide b), p, 0x02⟩))
  | .por d a b p => some (.aslot (AR.toWord ⟨0x07, (wide d), (wide a), (wide b), p, 0x03⟩))
  | .pxor d a b p => some (.aslot (AR.toWord ⟨0x07, (wide d), (wide a), (wide b), p, 0x04⟩))
  | .pandn d a b p => some (.aslot (AR.toWord ⟨0x07, (wide d), (wide a), (wide b), p, 0x05⟩))
  | .pnot d a p => some (.aslot (AR.toWord ⟨0x07, (wide d), (wide a), 0, p, 0x06⟩))
  | .pmov d a p => some (.aslot (AR.toWord ⟨0x07, d, (wide a), 0, p, 0x07⟩))
  | .ptest d a p => some (.aslot (AR.toWord ⟨0x07, (wide d), a, 0, p, 0x08⟩))
  | .addImm d a i => some (.aslot (AI.toWord ⟨0x08, d, a, i⟩))
  | .andImm d a i => some (.aslot (AI.toWord ⟨0x09, d, a, i⟩))
  | .orImm d a i => some (.aslot (AI.toWord ⟨0x0A, d, a, i⟩))
  | .xorImm d a i => some (.aslot (AI.toWord ⟨0x0B, d, a, i⟩))
  | .li d i => some (.aslot (AI.toWord ⟨0x0C, d, 0, i⟩))
  | .lih d a i => some (.aslot (AI.toWord ⟨0x0D, d, a, i⟩))
  | .vadd d a b k s => some (.aslot (AV.toWord ⟨0x10, d, a, b, k, s.bits, 0x00⟩))
  | .vsub d a b k s => some (.aslot (AV.toWord ⟨0x10, d, a, b, k, s.bits, 0x01⟩))
  | .vadds d a b k s => some (.aslot (AV.toWord ⟨0x10, d, a, b, k, s.bits, 0x02⟩))
  | .vsubs d a b k s => some (.aslot (AV.toWord ⟨0x10, d, a, b, k, s.bits, 0x03⟩))
  | .vaddus d a b k s => some (.aslot (AV.toWord ⟨0x10, d, a, b, k, s.bits, 0x04⟩))
  | .vsubus d a b k s => some (.aslot (AV.toWord ⟨0x10, d, a, b, k, s.bits, 0x05⟩))
  | .vmul d a b k s => some (.aslot (AV.toWord ⟨0x10, d, a, b, k, s.bits, 0x06⟩))
  | .vmulh d a b k s => some (.aslot (AV.toWord ⟨0x10, d, a, b, k, s.bits, 0x07⟩))
  | .vmulhu d a b k s => some (.aslot (AV.toWord ⟨0x10, d, a, b, k, s.bits, 0x08⟩))
  | .vand d a b k s => some (.aslot (AV.toWord ⟨0x10, d, a, b, k, s.bits, 0x09⟩))
  | .vor d a b k s => some (.aslot (AV.toWord ⟨0x10, d, a, b, k, s.bits, 0x0A⟩))
  | .vxor d a b k s => some (.aslot (AV.toWord ⟨0x10, d, a, b, k, s.bits, 0x0B⟩))
  | .vandn d a b k s => some (.aslot (AV.toWord ⟨0x10, d, a, b, k, s.bits, 0x0C⟩))
  | .vmin d a b k s => some (.aslot (AV.toWord ⟨0x10, d, a, b, k, s.bits, 0x0D⟩))
  | .vmax d a b k s => some (.aslot (AV.toWord ⟨0x10, d, a, b, k, s.bits, 0x0E⟩))
  | .vminu d a b k s => some (.aslot (AV.toWord ⟨0x10, d, a, b, k, s.bits, 0x0F⟩))
  | .vmaxu d a b k s => some (.aslot (AV.toWord ⟨0x10, d, a, b, k, s.bits, 0x10⟩))
  | .vabs d a k s => some (.aslot (AV.toWord ⟨0x10, d, a, 0, k, s.bits, 0x11⟩))
  | .vsll d a b k s => some (.aslot (AV.toWord ⟨0x10, d, a, b, k, s.bits, 0x12⟩))
  | .vsrl d a b k s => some (.aslot (AV.toWord ⟨0x10, d, a, b, k, s.bits, 0x13⟩))
  | .vsra d a b k s => some (.aslot (AV.toWord ⟨0x10, d, a, b, k, s.bits, 0x14⟩))
  | .vavgu d a b k s => some (.aslot (AV.toWord ⟨0x10, d, a, b, k, s.bits, 0x15⟩))
  | .vaddF d a b k t => some (.aslot (AV.toWord ⟨0x11, d, a, b, k, t.size, (t.bit ++ (0 : BitVec 5))⟩))
  | .vsubF d a b k t => some (.aslot (AV.toWord ⟨0x11, d, a, b, k, t.size, (t.bit ++ (1 : BitVec 5))⟩))
  | .vmulF d a b k t => some (.aslot (AV.toWord ⟨0x11, d, a, b, k, t.size, (t.bit ++ (2 : BitVec 5))⟩))
  | .vminF d a b k t => some (.aslot (AV.toWord ⟨0x11, d, a, b, k, t.size, (t.bit ++ (3 : BitVec 5))⟩))
  | .vmaxF d a b k t => some (.aslot (AV.toWord ⟨0x11, d, a, b, k, t.size, (t.bit ++ (4 : BitVec 5))⟩))
  | .vabsF d a k t => some (.aslot (AV.toWord ⟨0x11, d, a, 0, k, t.size, (t.bit ++ (5 : BitVec 5))⟩))
  | .vnegF d a k t => some (.aslot (AV.toWord ⟨0x11, d, a, 0, k, t.size, (t.bit ++ (6 : BitVec 5))⟩))
  | .vcpsgnF d a b k t => some (.aslot (AV.toWord ⟨0x11, d, a, b, k, t.size, (t.bit ++ (7 : BitVec 5))⟩))
  | .vfma d a b k t => some (.aslot (AV.toWord ⟨0x12, d, a, b, k, t.size, (t.bit ++ (0 : BitVec 5))⟩))
  | .vfms d a b k t => some (.aslot (AV.toWord ⟨0x12, d, a, b, k, t.size, (t.bit ++ (1 : BitVec 5))⟩))
  | .vfnma d a b k t => some (.aslot (AV.toWord ⟨0x12, d, a, b, k, t.size, (t.bit ++ (2 : BitVec 5))⟩))
  | .vfnms d a b k t => some (.aslot (AV.toWord ⟨0x12, d, a, b, k, t.size, (t.bit ++ (3 : BitVec 5))⟩))
  | .vfmawLo d a b k t => some (.aslot (AV.toWord ⟨0x12, d, a, b, k, 2, (t.bit ++ (4 : BitVec 5))⟩))
  | .vfmawHi d a b k t => some (.aslot (AV.toWord ⟨0x12, d, a, b, k, 2, (t.bit ++ (5 : BitVec 5))⟩))
  | .vcmp d a b k c => some (.aslot (AV.toWord ⟨0x13, (wide d), a, b, k, c.size, c.func⟩))
  | .vcvt d a k x y => some (.aslot (AV.toWord ⟨0x14, d, a, 0, k, 2, (x ++ y)⟩))
  | .vrcpA d a k => some (.aslot (AV.toWord ⟨0x15, d, a, 0, k, 2, 0x00⟩))
  | .vrsqA d a k => some (.aslot (AV.toWord ⟨0x15, d, a, 0, k, 2, 0x01⟩))
  | .vrcpS d a b k => some (.aslot (AV.toWord ⟨0x15, d, a, b, k, 2, 0x02⟩))
  | .vrsqS d a b k => some (.aslot (AV.toWord ⟨0x15, d, a, b, k, 2, 0x03⟩))
  | .vrcp d a k => some (.aslot (AV.toWord ⟨0x15, d, a, 0, k, 2, 0x04⟩))
  | .vrsq d a k => some (.aslot (AV.toWord ⟨0x15, d, a, 0, k, 2, 0x05⟩))
  | .vsqrt d a k => some (.aslot (AV.toWord ⟨0x15, d, a, 0, k, 2, 0x06⟩))
  | .vdiv d a b k => some (.aslot (AV.toWord ⟨0x15, d, a, b, k, 2, 0x07⟩))
  | .vexp2 d a k => some (.aslot (AV.toWord ⟨0x15, d, a, 0, k, 2, 0x08⟩))
  | .vlog2 d a k => some (.aslot (AV.toWord ⟨0x15, d, a, 0, k, 2, 0x09⟩))
  | .vraddF32 d a k => some (.aslot (AV.toWord ⟨0x16, d, a, 0, k, 2, 0x00⟩))
  | .vrmaxF32 d a k => some (.aslot (AV.toWord ⟨0x16, d, a, 0, k, 2, 0x01⟩))
  | .vrminF32 d a k => some (.aslot (AV.toWord ⟨0x16, d, a, 0, k, 2, 0x02⟩))
  | .vradd d a k s => some (.aslot (AV.toWord ⟨0x16, d, a, 0, k, s.bits, 0x08⟩))
  | .vrmax d a k s => some (.aslot (AV.toWord ⟨0x16, d, a, 0, k, s.bits, 0x09⟩))
  | .vrmin d a k s => some (.aslot (AV.toWord ⟨0x16, d, a, 0, k, s.bits, 0x0A⟩))
  | .vrmaxu d a k s => some (.aslot (AV.toWord ⟨0x16, d, a, 0, k, s.bits, 0x0B⟩))
  | .vrminu d a k s => some (.aslot (AV.toWord ⟨0x16, d, a, 0, k, s.bits, 0x0C⟩))
  | .vrand d a k s => some (.aslot (AV.toWord ⟨0x16, d, a, 0, k, s.bits, 0x0D⟩))
  | .vror d a k s => some (.aslot (AV.toWord ⟨0x16, d, a, 0, k, s.bits, 0x0E⟩))
  | .vrxor d a k s => some (.aslot (AV.toWord ⟨0x16, d, a, 0, k, s.bits, 0x0F⟩))
  | .vraddw d a k s => some (.aslot (AV.toWord ⟨0x16, d, a, 0, k, s.bits, 0x10⟩))
  | .vperm d a b k s => some (.aslot (AV.toWord ⟨0x17, d, a, b, k, s.bits, 0x00⟩))
  | .vperm2 d a b k s => some (.aslot (AV.toWord ⟨0x17, d, a, b, k, s.bits, 0x01⟩))
  | .vzipl d a b k s => some (.aslot (AV.toWord ⟨0x17, d, a, b, k, s.bits, 0x02⟩))
  | .vziph d a b k s => some (.aslot (AV.toWord ⟨0x17, d, a, b, k, s.bits, 0x03⟩))
  | .vuzpe d a b k s => some (.aslot (AV.toWord ⟨0x17, d, a, b, k, s.bits, 0x04⟩))
  | .vuzpo d a b k s => some (.aslot (AV.toWord ⟨0x17, d, a, b, k, s.bits, 0x05⟩))
  | .vrev d a k s => some (.aslot (AV.toWord ⟨0x17, d, a, 0, k, s.bits, 0x06⟩))
  | .vsld d a b k s c => some (.aslot (AV.toWord ⟨0x17, d, a, b, k, s.bits, ((1 : BitVec 1) ++ c)⟩))
  | .kand d a b => some (.aslot (AV.toWord ⟨0x18, (wide d), (wide a), (wide b), 0, 0, 0x00⟩))
  | .kor d a b => some (.aslot (AV.toWord ⟨0x18, (wide d), (wide a), (wide b), 0, 0, 0x01⟩))
  | .kxor d a b => some (.aslot (AV.toWord ⟨0x18, (wide d), (wide a), (wide b), 0, 0, 0x02⟩))
  | .kandn d a b => some (.aslot (AV.toWord ⟨0x18, (wide d), (wide a), (wide b), 0, 0, 0x03⟩))
  | .knot d a => some (.aslot (AV.toWord ⟨0x18, (wide d), (wide a), 0, 0, 0, 0x04⟩))
  | .kmov d a => some (.aslot (AV.toWord ⟨0x18, (wide d), (wide a), 0, 0, 0, 0x05⟩))
  | .vmerge d a b k s => some (.aslot (AV.toWord ⟨0x18, d, a, b, k, s.bits, 0x08⟩))
  | .vtunpack d a p f => some (.aslot (AV.toWord ⟨0x19, d, a, p, 0, f.size, f.func⟩))
  | .vtpack d a p t => some (.aslot (AV.toWord ⟨0x19, d, a, p, 0, 0, ((8 : BitVec 5) ++ t.bit)⟩))
  | .vpadd d a b k => some (.aslot (AV.toWord ⟨0x1A, d, a, b, k, 0, 0x00⟩))
  | .vpsub d a b k => some (.aslot (AV.toWord ⟨0x1A, d, a, b, k, 0, 0x01⟩))
  | .vpmul d a b k => some (.aslot (AV.toWord ⟨0x1A, d, a, b, k, 0, 0x02⟩))
  | .vpmin d a b k => some (.aslot (AV.toWord ⟨0x1A, d, a, b, k, 0, 0x03⟩))
  | .vpmax d a b k => some (.aslot (AV.toWord ⟨0x1A, d, a, b, k, 0, 0x04⟩))
  | .vpfma d a b k => some (.aslot (AV.toWord ⟨0x1A, d, a, b, k, 0, 0x05⟩))
  | .vbcast d a k s => some (.aslot (AV.toWord ⟨0x1B, d, a, 0, k, s.bits, 0x00⟩))
  | .vext d a b s => some (.aslot (AV.toWord ⟨0x1B, d, a, b, 0, s.bits, 0x01⟩))
  | .vexts d a b s => some (.aslot (AV.toWord ⟨0x1B, d, a, b, 0, s.bits, 0x02⟩))
  | .vins d a b s => some (.aslot (AV.toWord ⟨0x1B, d, a, b, 0, s.bits, 0x03⟩))
  | .ktos d a h => some (.aslot (AV.toWord ⟨0x1B, d, (wide a), ((0 : BitVec 4) ++ h), 0, 0, 0x04⟩))
  | .stok d a h => some (.aslot (AV.toWord ⟨0x1B, (wide d), a, ((0 : BitVec 4) ++ h), 0, 0, 0x05⟩))
  | .kpop d a => some (.aslot (AV.toWord ⟨0x1B, d, (wide a), 0, 0, 0, 0x06⟩))
  | .vmov d a k s => some (.aslot (AV.toWord ⟨0x1B, d, a, 0, k, s.bits, 0x07⟩))
  | .vsmUpd d a b k => some (.aslot (AV.toWord ⟨0x1C, d, a, b, k, 2, 0x00⟩))
  | .vsmRescale d a b k => some (.aslot (AV.toWord ⟨0x1C, d, a, b, k, 2, 0x01⟩))
  | .vloop a n => some (.aslot (AV.toWord ⟨0x1D, 0, a, ((0 : BitVec 1) ++ n), 0, 0, 0x00⟩))
  | .vlidx d => some (.aslot (AV.toWord ⟨0x1D, d, 0, 0, 0, 0, 0x01⟩))
  | .lookaheadComplete => none
  | .lateTrap => none
  | .matrixData => none
  | .eagerSpill => none
  | .commitVisible => none
  | .taskAbort => none
  | .nonspecRun => none
  | .lowtsExchange => none
  | .lwaitExpire => none
  | .atExpire => none
  | .sliceTranslate _ => none
  | .pageWalkComplete => none
  | .homeAccept => none
  | .skewCheck _ _ _ => none
  | .copyStart _ _ => none
  | .copyTimedStart _ _ => none
  | .copyChunk _ _ => none
  | .copyComplete _ _ => none
  | .ropeCommandTake _ => none
  | .ropeCommandDone _ => none
  | .rwalkDescriptorPush _ => none
  | .blockDrainExpire _ _ => none
  | .arrayGrant _ _ _ => none
  | .flailRow _ _ => none
  | .productRow _ _ => none
  | .q3Push _ _ _ => none
  | .matrixComplete _ _ _ => none
  | .tileMovePerform _ _ _ _ => none
  | .lbankZeroDone _ _ _ => none
  | .submit _ _ _ => none
  | .unfreeze _ _ => none
  | .cancel _ _ => none
  | .endjob _ _ => none
  | .toDevice _ _ => none
  | .toShared _ _ => none
  | .toHost _ _ => none
  | .ringRecordRead _ => none
  | .q11Record _ => none
  | .recordServe _ => none
  | .priorityAging _ => none
  | .unitPlace => none
  | .slotStop _ => none
  | .preemptDrain _ _ _ => none
  | .resume _ => none
  | .launchComplete _ => none
  | .graphReplay _ => none
  | .phaseRecord _ => none
  | .nodeLaunch _ _ => none
  | .nodeCopy _ _ => none
  | .nodeWait _ _ => none
  | .nodeSignal _ _ => none
  | .nodeCond _ _ => none
  | .nodeLoop _ _ => none
  | .nodePatch _ _ => none
  | .watchdog _ => none
  | .unitCancelRetire => none
  | .registerWrite _ _ _ => none
  | .hostRead _ _ _ => none
  | .hostWrite _ _ _ => none
  | .hostFetchAdd _ _ _ _ => none
  | .hostSwap _ _ _ _ => none
  | .hostCas _ _ _ _ _ => none
  | .hubHostAtomic _ _ => none
  | .getMeasurements _ => none
  | .challenge _ _ => none
  | .perstRelease => none
  | .kDieRelease => none
  | .rollbackFuseBlow _ _ => none
  | .discoverSend _ => none
  | .discoverTimeout _ _ => none
  | .flitReceive _ _ => none
  | .fabricRead _ => none
  | .fabricData _ => none
  | .fabricWrite _ => none
  | .fabricLock _ => none
  | .fabricAck _ => none
  | .fabricPerform _ => none
  | .fabricUnlock _ => none
  | .fabricAtomic _ => none
  | .fabricSc _ => none
  | .fabricRefuse _ => none
  | .fabricSend _ => none
  | .fabricBeacon _ _ => none
  | .sendTimedEgress _ => none
  | .beaconSend => none
  | .beaconLost => none
  | .dieFlitReceive _ _ _ => none
  | .dieReqRead _ => none
  | .dieReqLock _ => none
  | .dieReqAtomic _ => none
  | .dieReqSc _ => none
  | .dieRspData _ => none
  | .dieRspAck _ => none
  | .dieRspRefuse _ => none
  | .dieRspInvack _ => none
  | .dieWrPerform _ => none
  | .dieWrWrite _ => none
  | .dieWrUnlock _ => none
  | .dieWrInv _ => none
  | .dieArbSig _ => none
  | .dieArbLowts _ => none
  | .dieArbMark _ => none
  | .dieArbScann _ => none
  | .dieEngCmd _ => none
  | .dieEngDone _ => none
  | .dieMgmtDiscover _ _ _ => none
  | .dieMgmtBeacon _ => none
  | .scPerform => none
  | .regionTableWrite _ _ _ => none
  | .blockWorldSet _ _ => none
  | .powerLimit => none
  | .thermalStop => none
  | .singleBitError _ _ => none
  | .doubleBitError _ _ _ => none
  | .debuggerStop _ => none
  | .powerBelowLimit => none
  | .illegalEncoding _ => none
  | .kickRefused _ _ => none

/-- The instruction that a code decodes to, beside a zero word where the code says nothing of the other word. -/
noncomputable def Code.decode : Code → Decoded
  | .cslot w0 w1 => decodeC w0 (w1.getD 0)
  | .aslot w => decodeA w

/-- The instruction that a decoded word is, if it is one. -/
def Decoded.instr? : Decoded → Option Instr
  | .instr i => some i
  | .illegalEncoding => none
  | .illegalOperand _ => none

/-- The bits of a C-slot word that its opcode and function fields fix (R38, R49). -/
def fixedC (w : Word32) : Word32 :=
  let op := (w.extractLsb' 25 6).toNat
  if op = 0x01 then 0xFE0003FF
  else if op ≤ 0x0D then 0x7E000000
  else if op ≤ 0x18 then 0x7FE00000
  else if op = 0x1C then 0x7E00003C
  else if op = 0x1D then 0x7FFF003C
  else if op = 0x1F then 0x7E00001E
  else if op = 0x20 ∨ op = 0x21 ∨ op = 0x22 then 0xFE000000
  else if op = 0x28 then 0x7E00003F
  else if op = 0x29 then 0xFFE007C0
  else if op = 0x2B then 0xFFFF0000
  else if op ≤ 0x2C ∨ op = 0x38 then 0xFFE0003F
  else if op = 0x30 ∨ op = 0x32 then 0xFE000FFF
  else if op = 0x31 ∨ op = 0x33 then 0x7FE00000
  else 0xFE00F00F

/-- The bits of an A-slot word that its opcode and function fields fix (R39, R50). -/
def fixedA (w : Word32) : Word32 :=
  let op := (w.extractLsb' 26 6).toNat
  if op = 0x01 then 0xFC0007FF
  else if op ≤ 0x07 then 0xFC0000FF
  else if op ≤ 0x0E then 0xFC000000
  else if op = 0x0F then 0xFC00FFC0
  else if op = 0x11 then 0xFC00001F
  else if op = 0x15 ∨ op = 0x1A ∨ op = 0x1C then 0xFC0000FF
  else 0xFC00003F

/-- How many bits of a word its instruction leaves to operands. -/
def operandBits (fixed w : Word32) : Nat := ((List.range 32).filter fun i => (w &&& ~~~fixed).getLsbD i).length

/-- Whether a row's word is read as a word of the A-slot. The C-slot and the A-slot have opcode maps of their own that
overlap, and the opcode table does not name a row's slot: a word that is an instruction of both slots is read as the one whose
operand fields hold fewer bits, and as the A-slot's where they hold as many. -/
noncomputable def readsAsA (w : Word32) : Bool :=
  (decodeA w).instr?.isSome &&
    ((decodeC w 0).instr?.isNone || decide (operandBits (fixedA w) w ≤ operandBits (fixedC w) w))

/-- The instruction of a row of the opcode table: the bits of the first word, and of the literal above them. -/
noncomputable def decodeTableWord (nbits w : Nat) : Option Instr :=
  let w0 := BitVec.ofNat 32 (w % 2 ^ nbits)
  let w1 := BitVec.ofNat 32 (w % 2 ^ nbits / 2 ^ 32)
  if readsAsA w0 then (decodeA w0).instr? else (decodeC w0 w1).instr?

end Sys2Proof
end

