-- ==== Sys2Proof/Machine/Bits.lean ====
section
/-! DEFINITION. Bit fields, sign extension, byte order and counting: the plain helpers of the meanings. -/

namespace Sys2Proof.Machine

/-- The unsigned value of bits [hi:lo] (R3). -/
def bits {n : Nat} (x : BitVec n) (hi lo : Nat) : Nat := x.toNat / 2 ^ lo % 2 ^ (hi + 1 - lo)

/-- `x` with bits [hi:lo] replaced by `v`. -/
def setBits {n : Nat} (x : BitVec n) (hi lo v : Nat) : BitVec n :=
  BitVec.ofNat n (x.toNat - bits x hi lo * 2 ^ lo + v % 2 ^ (hi + 1 - lo) * 2 ^ lo)

/-- A 64-bit word of a number, modulo 2^64. -/
def word (n : Nat) : Word := BitVec.ofNat 64 n
/-- A 64-bit word of an integer, modulo 2^64. -/
def wordI (n : Int) : Word := BitVec.ofInt 64 n

/-- sext(x, n) of R5 as a 64-bit word: the low n bits of x, sign-extended. -/
def sext (x : Word) (n : Nat) : Word := (BitVec.ofNat n x.toNat).signExtend 64
/-- zext(x, n) of R5 as a 64-bit word. -/
def zext (x : Word) (n : Nat) : Word := word (x.toNat % 2 ^ n)

/-- The low n bytes of a number, least significant first (R3). -/
def bytesOf : Nat → Nat → List Byte
  | 0, _ => []
  | n + 1, x => BitVec.ofNat 8 x :: bytesOf n (x / 256)

/-- The number that bytes hold, least significant first (R3). -/
def ofBytes : List Byte → Nat
  | [] => 0
  | b :: r => b.toNat + 256 * ofBytes r

/-- A list's chunks of n elements, by fuel. -/
def chunksOf {α : Type} (n : Nat) : Nat → List α → List (List α)
  | 0, _ => []
  | f + 1, l => if l.isEmpty then [] else l.take n :: chunksOf n f (l.drop n)

/-- The words of a list of bytes, 8 bytes each. -/
def wordsOf (l : List Byte) : List Word := (chunksOf 8 l.length l).map fun c => word (ofBytes c)

/-- The bytes of a list of words. -/
def bytesOfWords (l : List Word) : List Byte := l.flatMap fun w => bytesOf 8 w.toNat

/-- Number of one bits among the lowest `n` bits. -/
def popCount : Nat → Nat → Nat
  | 0, _ => 0
  | n + 1, x => x % 2 + popCount n (x / 2)

/-- Number of zero bits below the lowest one bit, `n` for zero. -/
def trailingZeros : Nat → Nat → Nat
  | 0, _ => 0
  | n + 1, x => if x % 2 = 1 then 0 else 1 + trailingZeros n (x / 2)

/-- The lowest `n` bits in reverse order. -/
def reverseBits : Nat → Nat → Nat
  | 0, _ => 0
  | n + 1, x => x % 2 * 2 ^ n + reverseBits n (x / 2)

/-- Bits that the binary form of `x` takes: 0 for 0. -/
def bitLength (x : Nat) : Nat := if x = 0 then 0 else Nat.log2 x + 1

/-- Number of zero bits above the highest one bit of an `n`-bit value. -/
def leadingZeros (n x : Nat) : Nat := n - bitLength x

/-- The value clamped to lo … hi. -/
def clamp (lo hi x : Int) : Int := if x < lo then lo else if hi < x then hi else x

/-- Quotient truncated toward zero. -/
def quotT (a b : Int) : Int := Int.tdiv a b
/-- Remainder with the sign of the dividend. -/
def remT (a b : Int) : Int := Int.tmod a b

/-- The list `0, 1, …, n - 1`. -/
def upTo (n : Nat) : List Nat := List.range n

/-- The address rounded down to a multiple of `n`. -/
def alignDown (a n : Nat) : Nat := a / n * n

/-- The pieces (first address, length) of a span cut at every multiple of `n`, by fuel. -/
def cutAt (n : Nat) : Nat → Nat → Nat → List (Nat × Nat)
  | 0, _, _ => []
  | f + 1, a, len =>
    if len = 0 then []
    else
      let m := min len (n - a % n)
      (a, m) :: cutAt n f (a + m) (len - m)

/-- The pieces of a span of at most 128 bytes and a little more, cut at 256-byte boundaries (R69, R176). -/
def pieces256 (a len : Nat) : List (Nat × Nat) := cutAt 256 (len / 256 + 2) a len

/-- The list without its first entry equal to `k`. -/
def dropFirst {α : Type} [DecidableEq α] (k : α) : List α → List α
  | [] => []
  | x :: r => if x = k then r else x :: dropFirst k r

end Sys2Proof.Machine
end

