-- ==== Sys2Proof/Config.lean ====
section
/-! DEFINITION. What the specification leaves open (free values, as constants without a body) and what one Kreantus K6
fixes. Nothing in Lean can evaluate a constant of the first part. -/

namespace Sys2Proof.Config

/-- A value the manual calls undefined, by the number of the draw (R188: the callee's s16 to s31). Log 2. -/
opaque freeWord : Nat → Word
/-- How many ns beyond the least one pass between two steps (timing is out of scope, log 3). -/
opaque elapsed : Nat → Nat
/-- The two signatures Renrak puts into a signed answer of a hub: RSA-3072 (384 bytes) and SLH-DSA-SHA2-192s (16,224 bytes) (R439, R441). The
algorithms are named, the keys are not. Log 40. -/
opaque rsaSignature : Nat → List Byte → BitVec 3072
opaque slhSignature : Nat → List Byte → BitVec 129792
/-- SHA-384, and the verification of the two signatures under a public key: key, message, signature (R438, R439). Log 40. -/
opaque sha384 : List Byte → BitVec 384
opaque rsaVerifies : List Byte → List Byte → List Byte → Bool
opaque slhVerifies : List Byte → List Byte → List Byte → Bool

/-- An image of the module flash (R439): the fields of its 256-byte header, whether that asks for the rollback counter to be raised (R440),
its bytes with the signature fields zero, the body and the two signatures. -/
structure Image where
  kind : BitVec 8
  svn : BitVec 6
  len : Nat
  asks : Bool
  header : List Byte
  body : List Byte
  rsa : List Byte
  slh : List Byte
  deriving DecidableEq, Repr

/-- The images of slots A (0) and B (1) of the module flash, the two public keys that it holds, and their hashes in the fuses of a hub: RSA (0)
and SLH-DSA (1) (R438, R439): none is given. Log 40. -/
opaque flash : Nat → List Image
opaque flashKey : Nat → List Byte
opaque keyHash : Nat → Nat → BitVec 384
/-- The number that boot firmware writes to MODID (R62, R438), modulo 900: no rule gives it. Log 69. -/
opaque moduleNumber : Nat
/-- The pool granule the rope engine allocates first (R91 leaves the choice open). Log 21. -/
opaque poolChoice : Nat → Nat

/-- The number of the aperture that the command processor gives a launch (R161 leaves LAP open within 16 MiB steps). Log 22. -/
opaque apertureNumber : Nat → Nat

/-- Ports of a hub die (R432 gives only those of a K-die). Log 26. -/
opaque hubPorts : Nat → BitVec 4
/-- Half of the round trip that an echo on the UP link measures, in ns (R427): cables are not given. Log 27. -/
opaque linkDelay : Nat → BitVec 16

/-- The module that a fabric port leads to: the cabling, which no rule gives. Log 48. -/
opaque portModule : Nat → BitVec 10

/-- K-dies of a module (R8). -/
def dies : Nat := 6
/-- Clusters of a K-die (R11). -/
def clustersPerDie : Nat := 20
/-- Worker cores of a cluster (R11). -/
def coresPerCluster : Nat := 8
/-- Thread slots of a worker core (R11). -/
def slotsPerCore : Nat := 8
/-- Windows a slot keeps resident (R189). -/
def residentWindows : Nat := 4
/-- ε within a module, in ns (R67). -/
def epsModule : Nat := 2
/-- ε across the scale-up domain, in ns (R67). -/
def epsDomain : Nat := 32
/-- D_F, the fabric drain bound, in ns (R73). -/
def fabricDrain : Nat := 16000
/-- The block horizon of R108, in ns. -/
def blockHorizon : Nat := 4210368
/-- Distinct 4-byte words a task may buffer (R326). -/
def bufferWords : Nat := 8192
/-- Held pushes a task may hold (R326). -/
def heldPushes : Nat := 64
/-- Modules of a load-store domain (R11). -/
def modules : Nat := 900
/-- Entries of a die's block directory (R124). -/
def directoryEntries : Nat := 1048576

end Sys2Proof.Config
end

