-- ==== Sys2Proof/Machine/Sparse.lean ====
section
/-! DEFINITION. Sparse tables: a list of key and value pairs in one canonical form (keys strictly rising, no entry equal to
what an unlisted key reads as). Memory, tiles, tags and register tables are kept so. -/

namespace Sys2Proof.Sparse

variable {α : Type}

/-- What key `a` reads as, `d` where it is not listed. -/
def get (d : α) : List (Nat × α) → Nat → α
  | [], _ => d
  | (k, x) :: r, a => if a = k then x else if a < k then d else get d r a

/-- The table with `a` reading as `v`; writing the default removes the entry. -/
def set [DecidableEq α] (d : α) : List (Nat × α) → Nat → α → List (Nat × α)
  | [], a, v => if v = d then [] else [(a, v)]
  | (k, x) :: r, a, v =>
    if a = k then (if v = d then r else (a, v) :: r)
    else if a < k then (if v = d then (k, x) :: r else (a, v) :: (k, x) :: r)
    else (k, x) :: set d r a v

/-- Every key of the list is above `lo`, strictly rising, and no value is the default. -/
def wfFrom [DecidableEq α] (d : α) (lo : Nat) : List (Nat × α) → Bool
  | [] => true
  | (k, x) :: r => decide (lo ≤ k) && decide (x ≠ d) && wfFrom d (k + 1) r

/-- The canonical form. -/
def wf [DecidableEq α] (d : α) (l : List (Nat × α)) : Bool := wfFrom d 0 l

/-- First entry under `a` in a plain association list. -/
def find? : List (Nat × α) → Nat → Option α
  | [], _ => none
  | (k, x) :: r, a => if a = k then some x else find? r a

/-- The association list with `a` bound to `v`. -/
def put : List (Nat × α) → Nat → α → List (Nat × α)
  | [], a, v => [(a, v)]
  | (k, x) :: r, a, v => if a = k then (a, v) :: r else (k, x) :: put r a v

end Sys2Proof.Sparse
end

