-- ==== Sys2Proof/Machine/State.lean ====
section
/-! DEFINITION. The state of one Kreantus K6 module, as plain data: the unit that acts, the other units, the cores,
clusters and dies with their engines, the memory, the hubs, the fabric and die links, and the boot and security state.
Notes on every field, with its reset value, stand in INVENTORY.md under "State". -/

namespace Sys2Proof.Machine

/-- Trap codes 1 to 20 of R394. -/
inductive Trap where
  | illegalEncoding | privilege | danglingPrefix | illegalOperand | lookaheadViolation | addressRange | misaligned
  | loftAccess | liveIn | schedule | selfDeadlock | windowOverflow | windowUnderflow | capacity | hostAtomic
  | memoryFault | matrixData | syscall | brk | gang
  deriving DecidableEq, Repr

/-- What a trap entry records (R393, R394, R395). -/
structure TrapInfo where
  trap : Trap
  faddr : Word
  sub : BitVec 8 := 0
  mem : BitVec 3 := 0
  td : Bool := false
  late : Bool := false
  lpc : Word := 0
  /-- It ends an instruction whose task has committed: a discard of the present task does not drop it (R324). -/
  beyond : Bool := false
  deriving DecidableEq, Repr

/-- CAUSE of a posted fault message, 1 to 10 (R78, R403). -/
inductive Cause where
  | notPresent | format | permission | moving | world | staleHome | clockSkew | bankMode | hostAtomic | handover
  deriving DecidableEq, Repr

/-- Operations of the atomics (R329), in the order of their codes. -/
inductive AtomOp where
  | swap | cas | add | and | or | xor | max | min | maxu | minu
  deriving DecidableEq, Repr

/-- Operations of opcode 0x1F (R334). -/
inductive ScOp where
  | ld | st | swap | cas | add
  deriving DecidableEq, Repr

/-- The prefix-table instructions (R129). -/
inductive PfxFn where
  | look | add | pin | unpin
  deriving DecidableEq, Repr

/-- What the rope engine performs: the functions of the rope commands (R113), in the order of FN, and the prefix-table
instructions, which it performs in order with them (R132). -/
inductive RopeFn where
  | rcat | rsplit | rsplice | rindex | rsum | rwalk | rhold | rdrop | rpiece | rresum | trim | rtier
  | pfx (f : PfxFn)
  deriving DecidableEq, Repr

/-- Who issued a command: the place, job, launch, privilege and world its accesses carry (R78, R433). -/
structure Issuer where
  loc : Loc
  job : Nat
  launch : BitVec 32
  supervisor : Bool
  secure : Bool
  deriving DecidableEq, Repr

/-- A copy request (R138) with its tag, issuer, release time (R139) and, for a COPY node, the replay and node (R385). -/
structure CopyReq where
  w0 : Word
  w1 : Word
  w2 : Word
  w3 : Word
  tag : BitVec 6
  by' : Issuer
  released : Word
  node : Option (Nat × Nat)
  /-- A COPY node's request that was cancelled before it was taken: it ends with CANCELLED in its turn (R148, R383). -/
  cancelled : Bool := false
  deriving DecidableEq, Repr

/-- A rope command (R113): the captured operand registers, tag, form and issuer. -/
structure RopeCmd where
  fn : RopeFn
  form : RopeForm
  tag : BitVec 6
  a : Word
  b : Word
  c : Word
  d : Word
  by' : Issuer
  /-- The incomplete instruction that a returning form answers (R116). -/
  pend : Nat := 0
  /-- It was cancelled before the engine took it: it ends with CANCELLED in its turn (R383). -/
  cancelled : Bool := false
  /-- The order in which its commit became visible (R105, log 12). -/
  order : Nat := 0
  deriving DecidableEq, Repr

/-- A matrix command (R283, R284, R286) and how far it has come (R289, R299, R407). -/
structure MatCmd where
  creg : Word
  cw : BitVec 14
  fa : Fmt
  fb : Fmt
  by' : Issuer
  weight : Nat
  id : Nat
  seg : Nat := 0
  row : Nat := 0
  granted : Bool := false
  scales : Option (List (BitVec 32)) := none
  /-- Of a command that has ended: entries of the row at which it reads that are still to be discarded (R299). -/
  left : Nat := 0
  /-- The weight blocks that its granted steps have loaded, by segment, and the row segments (segment, row, bytes) that have
  accumulated and still have to drain into the tile (R289, R295). -/
  weights : List (Nat × List Byte) := []
  acc : List (Nat × Nat × List Byte) := []
  flags : BitVec 5 := 0
  drained : Nat := 0
  err : Option Word := none
  cancelled : Bool := false
  ended : Bool := false
  /-- Rows pushed to q3, entries of the next one pushed, and whether no more pushes are to come (R288, R195). -/
  outRow : Nat := 0
  outCol : Nat := 0
  outDone : Bool := false
  deriving DecidableEq, Repr

/-- The record a `tspawn` holds (R228). -/
structure SpawnRec where
  entry : Word
  ts : BitVec 32
  mask : Word
  lo : List Word
  out : List Word
  deriving DecidableEq, Repr

/-- A buffered store, held reduction or held tag write of a task, in program order (R177, R333). -/
inductive TaskOp where
  | store (va : Word) (bytes : List Byte)
  | reduce (va : Word) (op : AtomOp) (t : AType) (y : Word)
  | tag (va : Word) (t : BitVec 16)
  deriving DecidableEq, Repr

/-- What a commit performs at a home, in program order: bytes, a held reduction or a tag write (R319). -/
inductive Perform where
  | bytes (pa : Nat) (va : Word) (b : List Byte)
  | reduce (pa : Nat) (va : Word) (op : AtomOp) (t : AType) (y : Word)
  | tag (cluster bank granule : Nat) (t : BitVec 16)
  deriving DecidableEq, Repr

/-- An item that a task holds for release at commit, in program order (R194, R326). -/
inductive Held where
  | word (q : QReg) (stream : Nat) (x : Word)
  | row (q : QReg) (stream : Nat) (bytes : List Byte)
  | matrix (c : MatCmd)
  | copy (r : CopyReq)
  | rope (c : RopeCmd)
  | spawn (r : SpawnRec)
  | signal (c : Nat) (n : Word)
  deriving DecidableEq, Repr

/-- An element of a queue a unit pops (q0, q3, q6, q7, q10), as bytes, with how many of its 8-byte words are gone. -/
structure Elem where
  bytes : List Byte
  taken : Nat := 0
  deriving DecidableEq, Repr

/-- What an instruction that commits does once its commit has ended (R224, R316). -/
inductive Cont where
  | tcommit
  | tbegin (ts : BitVec 32) (mask : Word)
  | ret
  | atC (t : Word)
  | atomic (op : AtomOp) (t : AType) (la : BitVec 4) (d : SReg) (ea : Word) (y cmp : BitVec 128)
  | sc (op : ScOp) (m : ScScope) (z : ScSize) (la : BitVec 4) (d : SReg) (ea : Word) (y cmp : Word)
  | lhz (domain : Bool) (d : SReg) (lt : Nat)
  | lbank (d : SReg) (bank : Nat) (w : Word)
  | lrng (g : Nat) (w : Word)
  | rope (la : BitVec 4) (d : SReg) (c : RopeCmd)
  | fence (e i : Bool)
  | bar (b count : Nat)
  | lcancel (level unit : Nat)
  | gang (w : Nat)
  | exit (code : BitVec 16)
  deriving DecidableEq, Repr

/-- Why a unit issues nothing at its turn (R186), other than by re-executing a bundle that must wait. -/
inductive Wait where
  | run
  | lwait (t : Word)
  | atTime (t : Word)
  | lbank (d : SReg) (bank : Nat) (w : Option Word)
  | fenceE (i : Bool)
  | bar (b gen : Nat)
  | gang (w : Nat)
  | retire (code : BitVec 16) (trapped : Bool)
  | nonspec
  | stopped
  deriving DecidableEq, Repr

/-- A register that an open lookahead window or a tile move leaves pending: the physical scalar register (16 × depth + i
for s8 to s31, so that a callee's s8 is its caller's s24) or a vector register (R41, R297). -/
inductive RegKey where
  | s (n : Nat)
  | v (n : Nat)
  deriving DecidableEq, Repr

/-- What an incomplete instruction still waits for (R41, R42, R194, R339): its bytes (with the task it issued in and how many
of that task's stores precede it), an element (of q7 from the stream it named, R184), WCNT, or an answer from outside the core. -/
inductive Act where
  | load (ea : Word) (size : Nat) (signed vector : Bool) (tid : Word) (seen : Nat)
  | pop (q : QReg) (vector : Bool) (stream : Nat)
  | qwait (q : QReg) (stream : Nat)
  | wcwait (n : Nat)
  | atomic (op : AtomOp) (t : AType) (ea : Word) (y cmp : BitVec 128)
  | sc (op : ScOp) (m : ScScope) (z : ScSize) (ea : Word) (y cmp : Word) (ta : Word)
  /-- A returning rope instruction that waits behind earlier accesses of its unit (R346), and one whose record is to come (R116). -/
  | rope (c : RopeCmd)
  | record
  /-- An atomic at a hub or another module, or an announced SC operation: `n` bytes at `ea` (R335, R354). -/
  | far (ea : Word) (n : Nat)
  | answer
  deriving DecidableEq, Repr

/-- An incomplete C-slot instruction (R41, R42): its destinations, the values that it will write once they are known, the
bundles its window still covers, and the bundle that holds it. `hold` marks a lookahead of 0 whose answer is still to come;
`failed` is the late trap it ends with. -/
structure Pend where
  id : Nat
  dests : List RegKey
  values : Option (List VWord)
  act : Act
  left : Nat
  hold : Bool
  pc : Word
  failed : Option TrapInfo := none
  /-- A divide by zero: its completion sets TSR.DZ (R213). -/
  dz : Bool := false
  deriving DecidableEq, Repr

/-- How the unit's last turn went: the model's own note, which the lock-step of a gang reads (R200). -/
inductive Turn where
  | ran
  | waited
  | trapped (t : TrapInfo)
  deriving DecidableEq, Repr

/-- The vector sequencer of a slot (R276 to R278). -/
structure Seq where
  active : Bool := false
  held : Bool := false
  start : Word := 0
  len : Nat := 0
  idx : Nat := 0
  trips : Nat := 0
  /-- The captured bundles, by their place in the body. -/
  body : List (Nat × Word32 × Word32) := []
  deriving DecidableEq, Repr

/-- The task a unit is inside (R201, R224, R323, R326 to R328). -/
structure Task where
  tstamp : BitVec 32 := 0
  mask : Word := 0xFFFE
  restartPc : Word := 0
  restartA : Bool := false
  startDepth : Nat := 1
  startWsp : Word := 0
  flags : BitVec 8 := 0
  ops : List TaskOp := []
  held : List Held := []
  popped : List (QReg × Nat × Elem) := []
  rsig : BitVec 1024 := 0
  wsig : BitVec 1024 := 0
  words : List Nat := []
  locked : List Nat := []
  nonspec : Bool := false
  deriving DecidableEq, Repr

/-- A unit and the slot it lives in: registers (R188 to R191, R197), queues of the slot (R193), its task and its state. -/
structure Unit where
  /-- The slot holds this unit. -/
  placed : Bool := false
  loc : Loc := ⟨0, 0, 0, 0⟩
  job : Nat := 0
  /-- Program counter (R33), the A-slot flag of the position within the bundle, and the bundle that issues next. -/
  pc : Word := 0
  aslot : Bool := false
  npc : Word := 8
  /-- The two words of the bundle that issues, once they have been fetched. -/
  fetched : Option (Word32 × Word32) := none
  /-- s0 to s31 of the current window; s0 is read through `getS`, which gives zero. -/
  regs : Vector Word 32 := Vector.replicate 32 0
  /-- s8 to s23 of the older resident windows, newest first (R189). -/
  saved : List (Vector Word 16) := []
  depth : Nat := 1
  v : Vector VWord 32 := Vector.replicate 32 0
  k : Vector KWord 8 := Vector.replicate 8 0
  p : Vector Bool 8 := Vector.replicate 8 false
  tsr : Word := 0
  epc : Word := 0
  cause : Word := 0
  faddr : Word := 0
  lpc : Word := 0
  wsp : Word := 0
  lsb : Word := 0
  tid : Word := 0
  unit : Word := 0
  launch : BitVec 32 := 0
  wcnt : Nat := 0
  secure : Bool := false
  pfx : Word := 0
  lap : Word := 0
  lbm : Word := 0
  xtag : Word := 0
  sbind : Word := 0
  /-- The unit runs on a wain core (R155, R156). -/
  wain : Bool := false
  /-- Width of the unit's gang (R200). -/
  gang : Nat := 1
  seq : Seq := {}
  task : Task := {}
  pend : List Pend := []
  turn : Turn := .ran
  wait : Wait := .run
  /-- Tokens of the faults the unit waits for (R79). -/
  mail : List Nat := []
  /-- A commit that has not ended, with what follows it and whether its instruction issued alone (R316, R37); whether its
  visible phase has begun. -/
  commit : Option (Cont × Bool) := none
  visible : Bool := false
  /-- The model's own order of the commits that have become visible (R105, log 12). -/
  visibleAt : Nat := 0
  /-- What a commit that takes its locks will perform, translated (R317), and the first expiry among its translations. -/
  prepared : Option (List Perform × Nat) := none
  /-- A return left the window in which the task began: the commit step falls at the end of the bundle (R218). -/
  retCommit : Bool := false
  /-- s16 to s31 of the windows that the unit has left and that its task began in or above, by their depth (R218, R230). -/
  left : List (Nat × Vector Word 16) := []
  /-- The bundle of that return, which EPC names where its commit traps (R395). -/
  retPc : Word := 0
  marked : Bool := false
  owed : List TrapInfo := []
  owedMatrix : List Word := []
  /-- The task was aborted by a conflict while a MATRIX_DATA trap was owed (R324). -/
  owedTd : Bool := false
  cancelled : Bool := false
  /-- Conflict aborts in a row (R327). -/
  aborts : Nat := 0
  /-- When the unit began to wait to run non-speculatively (R328). -/
  nonspecSince : Word := 0
  /-- The bundle whose `split` leaves the gang once its A-slot has executed (R223). -/
  splitAt : Option Word := none
  /-- The bundle that issues, or has just issued, holds an `at.c` whose commit stands (R221). -/
  atc : Bool := false
  /-- The trap that the unit enters once its incomplete instructions and tile moves have completed (R43, R297). -/
  raising : Option TrapInfo := none
  /-- The window in which the unit waits again to run non-speculatively when a MATRIX_DATA handler has returned (R299, R328). -/
  nonspecBack : Option Nat := none
  /-- Pre-emption has chosen the slot; it has stopped and left the core (R405 to R410). -/
  taken : Bool := false
  away : Bool := false
  /-- The debugger has stopped the unit (R392). -/
  debug : Bool := false
  /-- A barrier that the unit has arrived at when it stopped: its number and generation (R338). -/
  keptBar : Option (Nat × Nat) := none
  /-- The model's own order of placements and departures, which R410 compares (log 12). -/
  placedAt : Nat := 0
  awayAt : Nat := 0
  /-- The partly popped element of q0, q3, q6, q7 or q10 (R111, R172), by queue number. -/
  part : List (Nat × Elem) := []
  partStart : List (Nat × Elem) := []
  q6 : List Elem := []
  q10 : List Elem := []
  /-- Released words of a launch record (R375) and of a send element (R424), and of a FIFO entry (R172). -/
  q11 : List Word := []
  q9 : List Word := []
  q8 : List Byte := []
  q8Stream : Nat := 0
  /-- Released copy requests that no engine has taken (R141). -/
  copies : List CopyReq := []
  /-- Commands released whose completion has not been sent: copies, rope commands by form, matrix commands (R195). -/
  outCopies : Nat := 0
  outRopes : Nat := 0
  outRopesI : Nat := 0
  outMats : Nat := 0
  outMatsC : Nat := 0
  outMatsOut : Nat := 0
  outSends : Nat := 0
  deriving DecidableEq, Repr

/-- A unit of a launch that waits for a slot (R377). -/
structure PendUnit where
  launch : BitVec 32
  unit : Nat
  spawn : Option SpawnRec
  deriving DecidableEq, Repr

/-- One of a launch's sixteen barriers (R338). -/
structure Barrier where
  gen : Nat := 0
  count : Nat := 0
  arrived : Nat := 0
  deriving DecidableEq, Repr

/-- A launch (R367, R372, R380, R382, R404). -/
structure Launch where
  num : BitVec 32
  job : Nat
  kind : Nat
  entry : Word
  nu : Nat
  gang : Nat
  weight : Nat
  sealed' : Bool
  counter : Nat
  p8 : Word
  p9 : Word
  p10 : Word
  word5 : Word
  dies : BitVec 6
  clusters : BitVec 20
  queue : Option Nat
  node : Option (Nat × Nat)
  prio : Nat
  supervisor : Bool := false
  spawned : Nat := 0
  retired : Nat := 0
  /-- REASON, CODE and UNIT of the failure that STAT will name (R382). -/
  failure : Option (Nat × BitVec 16 × Nat) := none
  cancelling : Bool := false
  progress : Word := 0
  barriers : List (Nat × Barrier) := []
  /-- Sends released and not yet accepted or refused (R353). -/
  sends : Nat := 0
  /-- The cores on which its units have been placed, which a sealed launch keeps to itself (R379). -/
  cores : List Nat := []
  deriving DecidableEq, Repr

/-- A cached translation of a slice (R70). -/
structure Tlb where
  slice : Nat
  base : Nat
  size : Nat
  job : Option Nat
  pbase : Nat
  leaf : Word
  expiry : Nat
  deriving DecidableEq, Repr

/-- A line of the cluster cache (R166): its valid 4-byte words, by index. -/
structure Line where
  way : Nat
  set : Nat
  vtag : Nat
  job : Option Nat
  pline : Nat
  expiry : Nat
  keep : Bool
  words : List (Nat × Word32)
  deriving DecidableEq, Repr

/-- A range register (R169) with its owner and its count of misses (R170). -/
structure Range where
  word : Word := 0
  job : Nat := 0
  misses : Nat := 0
  /-- The order in which the commit that wrote it became visible (R183, log 12). -/
  order : Nat := 0
  deriving DecidableEq, Repr

/-- A copy that holds a run place (R148): checked records, the start time while it is ahead (0 once it has passed), next point, times of its
first access and last write. -/
structure CopyRun where
  req : CopyReq
  f : List Word
  s : List Word
  start : Nat
  next : Nat := 0
  began : Option Word := none
  last : Word := 0
  status : Option (Nat × Word × Word) := none
  cancelled : Bool := false
  /-- First point of the last chunk; the bytes of a FIFO stream that are still to be pushed or used, and whether such a push is
  still under way (R147). -/
  first : Nat := 0
  buf : List Byte := []
  pushing : Bool := false
  /-- The stream's bytes as they were before the last chunk, which runs again where one of its writes is refused as stale (R149), also in a
  cancelled run; and whether it is to. -/
  kept : List Byte := []
  again : Bool := false
  deriving DecidableEq, Repr

/-- One of a cluster's two arrays (R289, R290, R442). -/
structure Array' where
  cur : Nat := 0
  count : Nat := 0
  granted : Option Nat := none
  deriving DecidableEq, Repr

/-- An element that a pre-empted slot's spill ring holds (R408): the slot, the queue and the element. -/
structure SpillElem where
  loc : Loc
  launch : BitVec 32
  q : Nat
  elem : Elem
  deriving DecidableEq, Repr

/-- A cluster (R11, R159 to R173, R148). -/
structure Cluster where
  /-- Configuration words of banks 0 to 13 (R160); unlisted banks are 0, CACHE. -/
  config : List (Nat × Word) := []
  /-- Banks being zeroed (R182), and the launch that holds each granted bank (R372, R378). -/
  zeroing : List Nat := []
  granted : List (Nat × BitVec 32) := []
  tags : List (Nat × BitVec 16) := []
  fifos : List (Nat × List Elem) := []
  reserved : List (Nat × Nat) := []
  ranges : List (Nat × Range) := []
  lines : List Line := []
  clears : List Nat := []
  /-- The units whose `lbank` is performed or waits, in the order of their commits (R182). -/
  lbanks : List Loc := []
  gleaner0 : List (List Word) := []
  gleaner1 : List (List Word) := []
  running : List CopyRun := []
  nodeCopies : List CopyReq := []
  /-- Released requests that were cancelled before they started and are still to report, in release order (R148, R151). -/
  ending : List CopyReq := []
  rotation : Nat := 0
  flail : Array' := {}
  product : Array' := {}
  spill : List SpillElem := []
  secure : Bool := false
  deriving DecidableEq, Repr

/-- A tile move in the queue of a tile (R296): the slot that issued it, and what it writes. -/
structure TileMove where
  loc : Loc
  get : Bool
  row : Nat
  seg : Nat
  vreg : VReg
  value : VWord
  deriving DecidableEq, Repr

/-- An entry of a tile's queue (R295): a move, or a matrix command by its number. -/
inductive TileOp where
  | move (m : TileMove)
  | cmd (id : Nat)
  deriving DecidableEq, Repr

/-- What a pre-emption drain has saved of a core for the units of one launch: tiles, q2 and q3 entries and unfinished commands
(R407, R409). -/
structure SavedCore where
  launch : BitVec 32
  tiles : List (Nat × BitVec 32)
  q2 : List (Nat × List Byte)
  q3 : List (Nat × Elem)
  cmds : List MatCmd
  discard : List MatCmd
  deriving DecidableEq, Repr

/-- A worker core (R192, R193): tiles, tile queues and the queues its slots share. -/
structure Core where
  /-- The slot whose turn comes next in the core's rotation (R186). -/
  rotation : Nat := 0
  tiles : List (Nat × BitVec 32) := []
  tileQ : List (Nat × List TileOp) := []
  q0 : List (Nat × Elem) := []
  q1 : List MatCmd := []
  q2 : List (Nat × List Byte) := []
  q3 : List (Nat × Elem) := []
  /-- Commands that have ended and reported, whose remaining q2 entries are still to be consumed (R299). -/
  discard : List MatCmd := []
  /-- What pre-emption drains have saved (R407, R409). -/
  saved : List SavedCore := []
  deriving DecidableEq, Repr

/-- An entry of the prefix table (R131). -/
structure PfxEntry where
  hash : Word := 0
  block : BitVec 32 := 0
  rank : Nat := 0
  deriving DecidableEq, Repr

/-- A rope command the engine runs (R127): how it ended, once it has (its STATUS, NODES and words 1 to 3, or the two result
registers of a prefix instruction), and for `rwalk` the descriptors pushed, the elements they cover, and the bytes of an entry
not yet full (R122). -/
structure RopeRun where
  cmd : RopeCmd
  ended : Option (Nat × Nat × List Word) := none
  pushed : Nat := 0
  walked : Nat := 0
  buf : List Byte := []
  deriving DecidableEq, Repr

/-- What a slice is asked for an access of a unit or an engine (R71). -/
structure XlAsk where
  job : Nat
  va : Nat
  acc : Acc
  supervisor : Bool
  secure : Bool
  deriving DecidableEq, Repr

/-- The result of a walk that an access has waited for and that the slice does not cache (R72): its fault, or physical address, entry and
expiry. -/
structure XlOnce where
  ask : XlAsk
  cause : Option Cause
  pa : Nat
  entry : Word
  expiry : Nat
  deriving DecidableEq, Repr

/-- A K-die (R11): its slices, its rope engine and what it knows of the other dies. -/
structure Die where
  tlb : List Tlb := []
  /-- Slices in skew mode, with how many good checks they have met in a row (R76). -/
  skew : List (Nat × Nat) := []
  /-- Skew messages, slice and cause, that wait for room in their inbox (R76). -/
  skewMail : List (Nat × Nat) := []
  /-- Results of walks for accesses that waited for them and are still to use them (R72). -/
  once : List XlOnce := []
  q5 : List RopeCmd := []
  rope : Option RopeRun := none
  prefixes : List (Nat × PfxEntry) := []
  /-- The node cache of the rope engine, most recent first: key of a granule, its physical place, and expiry (R110). -/
  nodeCache : List (Nat × Nat × Nat) := []
  /-- The world of the rope engine as a block. Its accesses for a command carry the world of the unit that issued it (R433), so it
  decides no access. -/
  ropeSecure : Bool := false
  /-- The lowest uncommitted timestamp last received, by die and launch (R322). -/
  lowTs : List (Nat × BitVec 32 × BitVec 32) := []
  /-- Timed sends that wait at the egress (R425). -/
  egress : List (List Byte × Issuer) := []
  /-- The die's wafer test passed discovery; partners recorded by port (R431). -/
  released : Bool := false
  deriving DecidableEq, Repr

/-- A node pool of a job (R91, R104): granules in use with their length, and freed ones with their horizon. -/
structure Pool where
  used : List (Nat × Nat) := []
  waiting : List (Nat × Nat × Nat) := []
  gens : List (Nat × BitVec 16) := []
  deriving DecidableEq, Repr

/-- An outstanding translation fault (R78). -/
structure Fault' where
  token : Nat
  src : Source
  loc : Loc
  job : Nat
  cause : Cause
  acc : Acc
  va : Word
  entry : Word
  committing : Bool
  /-- The incomplete lookahead instruction that met the fault, 0 where there is none. -/
  pend : Nat
  launch : BitVec 32 := 0
  /-- What a command-processor read was for (R444), or one more than the LSEQ of a refused perform (R352). -/
  item : Nat := 0
  /-- The access of a slice that met the fault, which a RETRY translates again (R84). -/
  req : Option XlReq := none
  deriving DecidableEq, Repr

/-- A fill of the words of one piece that `cpf` asks for (R181): for whom, their address and their bytes. -/
structure Prefetch where
  loc : Loc
  job : Nat
  supervisor : Bool
  secure : Bool
  va : Nat
  size : Nat
  deriving DecidableEq, Repr

/-- A page walk under way in a slice, with every access that waits for it (R72): those that SLICE_TRANSLATE brought, and what units and
engines have asked for meanwhile. -/
structure Walk where
  slice : Nat
  die : Nat
  reqs : List XlReq
  joined : List XlAsk := []
  deriving DecidableEq, Repr

/-- An access on its way to its home, carrying its expiry (R73), and the stale refusals it has met (R74). -/
structure Flight where
  req : XlReq
  pa : Nat
  expiry : Nat
  refusals : Nat
  deriving DecidableEq, Repr

/-- Who waits for the answer of an announced SC operation: a unit of this module, another module, or another die; or no one yet, where
another module has announced an operation whose request is still to come. -/
inductive ScFrom where
  | unit
  | packet (k : Packet)
  | die (m : DieMsg)
  | announced
  deriving DecidableEq, Repr

/-- An announced SC operation (R335). -/
structure ScAnn where
  window : Nat
  scope : ScScope
  module : Nat
  loc : Loc
  op : ScOp
  z : ScSize
  pa : Nat
  y : Word
  cmp : Word
  ready : Nat
  pend : Nat
  ea : Word
  /-- Its home is here and its address is known: one whose translation is still to come, or whose request another die is still to send,
  holds back those that follow it in sco. -/
  known : Bool := true
  /-- The module of its home, once its address has been translated. -/
  home : Option Nat := none
  asker : ScFrom := .unit
  deriving DecidableEq, Repr

/-- A completion counter (R368). -/
structure Counter where
  word : Word := 0
  stat : Word := 0
  owner : Nat := 0
  deriving DecidableEq, Repr

/-- What the command processor keeps of a replay or phase record that it has captured (R387, R445): the graphs (header VA and
counter, REENT) and the patch entries (node, word, value). -/
structure Captured where
  graphs : List (Word × Nat × Bool)
  patches : List (Nat × Nat × Word)
  deriving DecidableEq, Repr

/-- A record that device code has pushed (R375): the ring index that it follows, its words, what has been captured of it (R387), the number
under which its reads are made, the counter of its graph header once that has been read, and whether it has been cancelled, so that only that
header is still to be read (R383). -/
structure Pushed where
  mark : Nat
  words : List Word
  captured : Option Captured := none
  id : Nat := 0
  graph : Option Nat := none
  cancelled : Bool := false
  deriving DecidableEq, Repr

/-- A launch queue's descriptor (R374) and what the command processor keeps of it (R376, R382). -/
structure Queue where
  base : Word := 0
  size : Nat := 0
  head : Word := 0
  tail : Word := 0
  /-- TAIL as the last SUBMIT gave it: only records that a KICK covers are read (R374). -/
  kicked : Word := 0
  state : Nat := 0
  pri : Nat := 0
  qw : Nat := 0
  job : Nat := 0
  fcause : Nat := 0
  fva : Word := 0
  /-- The record at the head, once it has reached the command processor. -/
  record : Option (List Word) := none
  /-- Records pushed by device code. -/
  pushed : List Pushed := []
  /-- Ring records before this index belong to a job that has been cancelled: they end as cancelled when they are read (R383). -/
  cancelTo : Word := 0
  /-- The head record was read from the ring. -/
  ringRecord : Bool := false
  /-- The head record is a replay or phase record that has been captured and checked (R387, R445). -/
  captured : Option Captured := none
  /-- The counter of the graph header that has been read for the head record (R444). -/
  graph : Option Nat := none
  /-- Since when the head has been eligible without starting, and the full ms of that wait (R376). -/
  since : Option Word := none
  aged : Nat := 0
  /-- The record of the queue that started last: its kind (1 launch, 2 replay, 3 phase) and number (R374). -/
  last : Option (Nat × Nat) := none
  /-- Top-level items of the queue still running: launches, replays and phases. -/
  running : List (BitVec 32) := []
  replays : List Nat := []
  phases : List Nat := []
  /-- Pre-empted launches whose units could resume, with the time since when, and those that have been served (R376, R410). -/
  resumeSince : List (BitVec 32 × Word) := []
  resuming : List (BitVec 32) := []
  deriving DecidableEq, Repr

/-- How far a node of a replay has come (R385, R386, R388). -/
inductive NodeState where
  | waiting | running | done | skipped | cancelled | failed
  deriving DecidableEq, Repr

/-- A node of a replay's own copy of its graph (R384, R387). -/
structure Node where
  words : List Word
  state : NodeState := .waiting
  preds : Nat := 0
  /-- Edges that arrived as skips, and whether an error token has come. -/
  skips : Nat := 0
  token : Bool := false
  iters : Nat := 0
  /-- FIRST of a loop body in the current iteration, and a LOOP node to which LAST has returned (R386). -/
  armed : Bool := false
  back : Bool := false
  /-- The TYPE with which it began to run, which a PATCH of its words does not change. -/
  ran : Nat := 0
  deriving DecidableEq, Repr

/-- A running replay of a graph (R387). -/
structure Replay where
  id : Nat
  hub : Nat
  queue : Nat
  job : Nat
  graph : Word
  counter : Nat
  reent : Bool
  nodes : List Node
  phase : Option Nat := none
  failure : Option Word := none
  cancelling : Bool := false
  deriving DecidableEq, Repr

/-- A running phase (R375): the graphs still to run. -/
structure Phase where
  id : Nat
  queue : Nat
  job : Nat
  counter : Nat
  /-- The graphs after the running one: header VA, counter and REENT. -/
  rest : List (Word × Nat × Bool)
  failure : Option Word := none
  cancelling : Bool := false
  deriving DecidableEq, Repr

/-- A graph that waits to be replayed (R387): the VA of its header, the captured patch entries, the phase it belongs to. -/
structure GraphRec where
  /-- The number that its replay will have. -/
  id : Nat
  counter : Nat
  reent : Bool
  queue : Nat
  job : Nat
  graph : Word
  patches : List (Nat × Nat × Word)
  phase : Option Nat := none
  cancelled : Bool := false
  deriving DecidableEq, Repr

/-- A handover region (R356, R418). -/
structure Region where
  base : Word := 0
  state : Nat := 0
  cstat : Nat := 0
  size : Nat := 0
  deriving DecidableEq, Repr

/-- A device atomic that waits at a hub for the host link (R354). -/
structure HostAtomic where
  loc : Loc
  op : AtomOp
  t : AType
  ea : Word
  pa : Nat
  y : BitVec 128
  cmp : BitVec 128
  pend : Nat
  /-- A held reduction or a store that a visible phase performs (R319, R355). -/
  commit : Bool := false
  /-- The bytes of such a store, which stands behind an earlier access to one of its words (R344, R345). -/
  store : Option (List Byte) := none
  /-- Who asked: a part of this module, a packet of another module, or another die (R354). -/
  asker : ScFrom := .unit
  deriving DecidableEq, Repr

/-- A hub die (R416). -/
structure Hub where
  hacap : Word := 0
  tbctl : Word := 0
  kerr : Word := 0
  hapb : Word := 0
  regions : List (Nat × Region) := []
  routes : List (Nat × Word) := []
  atomics : List HostAtomic := []
  graphs : List GraphRec := []
  /-- By priority, the queue whose turn it is and the records of that turn (R376). -/
  turns : List (Nat × Nat × Nat) := []
  secure : Bool := false
  /-- The last value the host read through BAR2 (R415). -/
  hostReply : List Byte := []
  /-- Signed answers of Renrak with their RSA-3072 and SLH-DSA signatures (R441), newest first. -/
  spdm : List (List Byte × BitVec 3072 × BitVec 129792) := []
  fuses : List (Nat × Nat) := []
  log : List (Nat × Nat) := []
  deriving DecidableEq, Repr

/-- A fabric port (R420, R421). -/
structure Port where
  next : Nat := 0
  /-- SEQ of the next new flit to send. -/
  sent : Nat := 0
  acked : Nat := 0
  sendNak : Bool := false
  replays : Nat := 0
  retrains : Nat := 0
  unacked : List Flit := []
  stopped : BitVec 8 := 0
  partials : List (Nat × List Byte) := []
  packets : List (Nat × List Byte) := []
  delay : Nat := 0
  /-- The lanes that the receiver stops: from 256 flits on, until fewer than 128 are left (R421). -/
  stopping : BitVec 8 := 0
  /-- Packets of an unlisted TYPE or a SIZE above 128 that have been dropped (R422). -/
  linkErrors : Nat := 0
  /-- The port retrains and is not live until a good flit comes (R420, R423). -/
  down : Bool := false
  deriving DecidableEq, Repr

/-- A word that a cluster's prefetch has asked another module for (R181): what a fill of it needs. -/
structure Fill where
  cluster : Nat
  job : Nat
  pline : Nat
  expiry : Nat
  global : Bool
  deriving DecidableEq, Repr

/-- A request that this module has sent over the fabric, by source die, destination and LSEQ, with its answer once it has
come: the type of the answer, the reason of a refusal and the data (R351, R352, R422). -/
structure Remote where
  sdie : Nat
  dst : Nat
  lseq : Nat
  typ : PktType
  loc : Loc
  pa : Nat
  size : Nat
  data : List Byte
  refusals : Nat := 0
  answer : Option (PktType × Nat × List Byte) := none
  /-- The virtual address of the access. -/
  va : Nat := 0
  /-- A perform of a commit (R319), or a send, with its launch (R353). -/
  commit : Bool := false
  launch : BitVec 32 := 0
  /-- The fault of a refused perform has been posted (R78). -/
  posted : Bool := false
  /-- Nobody waits for the answer any more: a refused request is withdrawn, and a lock given back (R352). -/
  dropped : Bool := false
  /-- The words of a prefetch that the answer fills (R181). -/
  fill : Option Fill := none
  /-- The world that the request carries (R433). -/
  secure : Bool := false
  deriving DecidableEq, Repr

/-- The place of a refused request at the head of its lane, which only the same access fills again (R352). -/
structure Hole where
  sdie : Nat
  dst : Nat
  lseq : Nat
  typ : PktType
  loc : Loc
  va : Nat
  size : Nat
  deriving DecidableEq, Repr

/-- An ordering lane at the module's ingress, of one source die (R351, R352): the next LSEQ, a refused request that
waits at the head with those behind it, and the places of admitted requests that their home has refused since. -/
structure Lane where
  next : Nat := 0
  waiting : List (PktType × Packet) := []
  again : List Nat := []
  deriving DecidableEq, Repr

/-- A die port (R429, R431). -/
structure DiePort where
  next : Nat := 0
  acked : Nat := 0
  sendNak : Bool := false
  unacked : List DieFlit := []
  stopped : BitVec 6 := 0
  slots : List Byte := []
  sent : Nat := 0
  replays : Nat := 0
  retrains : Nat := 0
  down : Bool := false
  peer : Option (Nat × Nat) := none
  closed : Bool := false
  deriving DecidableEq, Repr

/-- Steps of the reset sequence (R438). -/
inductive Boot where
  | held | verified | discovering | running | stopped
  deriving DecidableEq, Repr

/-- What the machine takes next from outside the acting unit: an event, or the turn of the unit at a place. -/
inductive Agenda where
  | event (i : Instr)
  | turn (l : Loc)
  deriving DecidableEq, Repr

/-- An answer of a HOME die that waits for the INVACKs of its write (R430): class, TYPE and message of the answer, the TAG of the INVs, and the
K-dies that have not acknowledged yet. -/
structure HomeAck where
  answer : Nat × Nat × DieMsg
  tag : Nat
  left : List Nat
  deriving DecidableEq, Repr

/-- One Kreantus K6 module. -/
structure State where
  /-- TIME (R67): one for every die and hub of the module, whose readings then never differ. DESIGN CHOICE (log 61). -/
  time : Word := 0
  /-- The model's own count of the free values drawn (log 2). -/
  draws : Nat := 0
  /-- The model's own counts for fault tokens and for pending instructions (log 12). -/
  tokens : Nat := 1
  ids : Nat := 1
  /-- The unit that acts, and every other unit of the module. -/
  cur : Unit := {}
  others : List Unit := []
  waiting : List PendUnit := []
  launches : List Launch := []
  nextLaunch : BitVec 32 := 1
  /-- Memory of the module by physical address (R62). -/
  mem : List Host.Cell := []
  /-- Words locked by a commit or written through by a non-speculative task (R318, R328). -/
  locks : List Nat := []
  token : Option Loc := none
  cores : List (Nat × Core) := []
  clusters : List (Nat × Cluster) := []
  dies : List (Nat × Die) := []
  hubs : List (Nat × Hub) := []
  pools : List (Nat × Pool) := []
  faults : List Fault' := []
  walks : List Walk := []
  /-- Fills that `cpf` has asked for and that a lock or a walk holds up (R181). -/
  prefetches : List Prefetch := []
  /-- Faults of accesses of slices whose message waits for room (R78). -/
  faultMail : List (XlReq × Cause × Word) := []
  flights : List Flight := []
  /-- Requests sent over the fabric that have not been used up, oldest first. -/
  remotes : List Remote := []
  announced : List ScAnn := []
  counters : List (Nat × Counter) := []
  queues : List (Nat × Queue) := []
  replays : List Replay := []
  phases : List Phase := []
  nextReplay : Nat := 0
  /-- Completion messages of COPY nodes on their way to the command processor: replay, node and STATUS (R385). -/
  nodeMsgs : List (Nat × Nat × Nat) := []
  /-- Reads of the command processor that ended in FAIL, by item: CAUSE and VA (R444). -/
  cpFails : List (Nat × Nat × Word) := []
  /-- Jobs that ENDJOB has named, and the failures noted of jobs (R369, R382). -/
  ended : List Nat := []
  jobFails : List (Nat × Word) := []
  /-- Hub registers that both hubs hold (R416). -/
  jobtab : Word := 0
  tvec : Word := 0
  wdt : Word := 100000
  ctx : List (Nat × Word) := []
  modid : Word := 0
  /-- MODID has been written: until then the fabric ports forward and accept no packet (R62). -/
  numbered : Bool := false
  topo : List (Nat × Word × Word) := []
  mismatch : Bool := false
  ports : List (Nat × Port) := []
  lanes : List (Nat × Lane) := []
  outbox : List (Nat × PktType × Packet) := []
  laneOut : List (Nat × Nat) := []
  /-- Places of refused requests at the heads of lanes (R352). -/
  laneHoles : List Hole := []
  /-- Requests of other modules that have passed the port check and that a lock holds at their home, with TIME of the check (R73, R318). -/
  held : List (PktType × Packet × Word) := []
  /-- Refused sends whose message waits for room in its inbox: sender, destination word and reason (R193, R426). -/
  refusals : List (Issuer × Word × Nat) := []
  /-- Stale-home refusals in a row of an access to another module, by the place of its issuer and its address (R74). -/
  stale : List (Loc × Nat × Nat) := []
  remoteLocks : List (Nat × Nat × Nat) := []
  diePorts : List (Nat × DiePort) := []
  /-- Die messages, by class and type: still to be sent, sent requests without a response, and received (R429). -/
  dieOut : List (Nat × Nat × DieMsg) := []
  /-- Messages on their way through a die that is not their destination, by that die (R10). -/
  dieFwd : List (Nat × Nat × Nat × DieMsg) := []
  dieAsked : List (Nat × Nat × DieMsg) := []
  dieIn : List (Nat × Nat × DieMsg) := []
  homeAcks : List HomeAck := []
  /-- The region table of the homes (R435), and wain and copy-unit worlds (R433). -/
  secureRegions : List (Nat × Word × Word) := []
  secureBlocks : List Block := []
  boot : Boot := .held
  /-- TIME at the release of the K-dies (R431, R438). -/
  releasedAt : Word := 0
  /-- The part is a bare K-die of an integrator, whose four UCIe modules are exposed (R10). DESIGN CHOICE: at reset it is a module (log 70). -/
  bare : Bool := false
  powerHold : Bool := false
  stopped : Bool := false
  softErrors : Nat := 0
  /-- TIME of the last good beacon, good beacons in a row, and the hop count of the last (R427). -/
  beaconAt : Word := 0
  beacons : Nat := 0
  hops : Nat := 0
  /-- KICK words that a hub has received and not yet acted on (R374, R418), by hub. -/
  kicks : List (Nat × Word) := []
  agenda : List Agenda := []
  deriving DecidableEq, Repr

/-- Why the machine stops with a fault. -/
inductive Fault where
  /-- Raised by `step` when a die junction above 115 °C has stopped the module (R442): the module does nothing until the
  next reset. Safe: the manual gives the same stop. -/
  | thermalStop
  deriving DecidableEq, Repr

/-- Why the model gives an instruction no meaning. -/
inductive Refusal where
  /-- Raised by an arm of `exec` whose instruction the model does not reach. Safe: nothing is proved of it. -/
  | notModelled (mnemonic : String)
  deriving DecidableEq, Repr

/-- The machine right after reset (R438): no unit is placed, every bank is in CACHE mode with contents zero (R159), WDT is
100,000 (R404), MODID is 0 (R62), every prefix entry is empty (R131), no region is secure (R435), memory lists nothing. -/
def State.reset : State := {}

end Sys2Proof.Machine
end

