-- ==== Sys2Proof/Machine/Flags.lean ====
section
/-! DEFINITION. TSR (R198): privilege, rounding mode, saturation, the pending prefix, and the sticky flags that
instructions set and only `mtsr` clears. -/

namespace Sys2Proof.Machine

/-- The exception flags of one operation (R252). -/
structure Flags where
  nv : Bool := false
  dz : Bool := false
  of : Bool := false
  uf : Bool := false
  nx : Bool := false
  deriving DecidableEq, Repr

/-- The OR of two sets of flags (R254). -/
def Flags.or (a b : Flags) : Flags := ⟨a.nv || b.nv, a.dz || b.dz, a.of || b.of, a.uf || b.uf, a.nx || b.nx⟩

/-- The flags at their places in TSR: [8] NV, [7] DZ, [6] OF, [5] UF, [4] NX (R198). -/
def Flags.mask (f : Flags) : Word :=
  (if f.nv then 0x100 else 0) ||| (if f.dz then 0x80 else 0) ||| (if f.of then 0x40 else 0) ||| (if f.uf then 0x20 else 0)
    ||| (if f.nx then 0x10 else 0)

/-- Rounding modes of TSR[2:1] (R198, R237). -/
inductive RM where
  | rne | rz | ru | rd
  deriving DecidableEq, Repr

def tsrRm (t : Word) : RM :=
  if bits t 2 1 = 0 then .rne else if bits t 2 1 = 1 then .rz else if bits t 2 1 = 2 then .ru else .rd
def tsrSat (t : Word) : Bool := t.getLsbD 3
/-- A prefix is pending (R46). -/
def tsrPp (t : Word) : Bool := t.getLsbD 0
def tsrSetPp (t : Word) (b : Bool) : Word := setBits t 0 0 b.toNat
/-- Supervisor privilege: PL is 1 (R198). -/
def tsrSup (t : Word) : Bool := bits t 11 10 == 1
def tsrPl (t : Word) : Nat := bits t 11 10
def tsrSetPl (t : Word) (pl : Nat) : Word := setBits t 11 10 pl
/-- TSR[8:1], which a task saves when it begins (R198). -/
def tsrSaved (t : Word) : BitVec 8 := BitVec.ofNat 8 (bits t 8 1)
/-- TSR with its bits [8:1] put back and no prefix pending, as a discard leaves it (R47, R198). -/
def tsrRestore (t : Word) (f : BitVec 8) : Word := tsrSetPp (setBits t 8 1 f.toNat) false

/-- The unit with the flags of an operation set; they are sticky (R198). -/
def Unit.raiseFlags (u : Unit) (f : Flags) : Unit := { u with tsr := u.tsr ||| f.mask }

end Sys2Proof.Machine
end

