-- ==== Sys2Proof/Machine/Operands.lean ====
section
/-! DEFINITION. The operands of the instructions: scalar registers and their windows (R188, R189), vector, mask and
predicate registers (R190, R191), the offset and literal forms (R37, R175), and the register keys of a lookahead (R41). -/

namespace Sys2Proof.Machine

/-- s0 reads as zero (R188). -/
def Unit.getS (u : Unit) (r : SReg) : Word := if r = 0 then 0 else u.regs[r.toNat]
/-- A write to s0 is discarded (R188). -/
def Unit.setS (u : Unit) (r : SReg) (x : Word) : Unit :=
  if r = 0 then u else { u with regs := u.regs.set r.toNat x }

def Unit.getV (u : Unit) (r : VReg) : VWord := u.v[r.toNat]
def Unit.setV (u : Unit) (r : VReg) (x : VWord) : Unit := { u with v := u.v.set r.toNat x }

/-- k0 reads as all ones (R191). -/
def Unit.getK (u : Unit) (r : KReg) : KWord := if r = 0 then BitVec.allOnes 128 else u.k[r.toNat]
/-- A write to k0 is discarded (R191). -/
def Unit.setK (u : Unit) (r : KReg) (x : KWord) : Unit :=
  if r = 0 then u else { u with k := u.k.set r.toNat x }

/-- p0 reads as true (R191). -/
def Unit.getP (u : Unit) (r : PReg) : Bool := if r = 0 then true else u.p[r.toNat]
/-- A write to p0 is discarded (R191). -/
def Unit.setP (u : Unit) (r : PReg) (x : Bool) : Unit :=
  if r = 0 then u else { u with p := u.p.set r.toNat x }

/-- The byte offset of a CM instruction whose accesses are `size` bytes (R37, R175). -/
def offsetOf (o : MemOff) (size : Nat) : Word :=
  match o with
  | .short x => x.signExtend 64 * word size
  | .lit x => x.signExtend 64

def memLit : MemOff → Bool
  | .short _ => false
  | .lit _ => true

/-- Operand b of a CR instruction: the register, or sext(literal, 32) (R37). -/
def Unit.operand (u : Unit) : RegLit → Word
  | .reg r => u.getS r
  | .lit x => x.signExtend 64

def regLit : RegLit → Bool
  | .reg _ => false
  | .lit _ => true

/-- The immediate of `qpush`: sext(imm, 12) or sext(literal, 32) (R196). -/
def qimm : QImm → Word
  | .short x => x.signExtend 64
  | .lit x => x.signExtend 64

def qLit : QImm → Bool
  | .short _ => false
  | .lit _ => true

/-! ### Windows -/

/-- s8 to s23 of the current window: what a spill writes (R189). -/
def Unit.window (u : Unit) : Vector Word 16 := Vector.ofFn fun i => u.regs[i.val + 8]

/-- s16 to s31 of the current window. -/
def Unit.upper (u : Unit) : Vector Word 16 := Vector.ofFn fun i => u.regs[i.val + 16]

/-- The window slid by 16 (R188): the callee's s8 to s15 are the caller's s24 to s31, and its s16 to s31 are undefined, so
they take free values from draw `n` on (log 2). The window that a return has left stays for its commit (R218); another one that
was left gives its registers to the new window. -/
def Unit.slideIn (u : Unit) (n : Nat) : Unit :=
  { u with
    saved := u.window :: u.saved
    depth := u.depth + 1
    left := if u.retCommit then u.left else u.left.filter fun w => w.1 ≠ u.depth + 1
    regs := Vector.ofFn fun i =>
      if i.val < 8 then u.regs[i] else if h : i.val < 16 then u.regs[i.val + 16] else Config.freeWord (n + i.val) }

/-- The free values that one slide draws. -/
def slideDraws : Nat := 32

/-- The window slid back by 16 into the window `w` (R188). What only the left window named is kept where the task may restart in
it (R218, R230). -/
def Unit.slideBack (u : Unit) (w : Vector Word 16) (older : List (Vector Word 16)) : Unit :=
  { u with
    saved := older
    depth := u.depth - 1
    left := if u.depth ≤ u.task.startDepth ∧ (Sparse.find? u.left u.depth).isNone then Sparse.put u.left u.depth u.upper else u.left
    regs := Vector.ofFn fun i =>
      if i.val < 8 then u.regs[i]
      else if h : i.val < 24 then w[i.val - 8]
      else u.regs[i.val - 16] }

/-! ### Register keys -/

/-- The physical scalar register of s_i at the current depth (R188); global registers have the keys 0 to 7. -/
def Unit.keyS (u : Unit) (r : SReg) : RegKey := .s (if r.toNat < 8 then r.toNat else 16 * u.depth + r.toNat)

/-- The key of a destination, none for s0, whose writes are discarded. -/
def Unit.destS (u : Unit) (r : SReg) : List RegKey := if r = 0 then [] else [u.keyS r]

/-- The value written to a register by its key: a scalar of the current window, of an older resident window, or of a window that the
unit has left; a window that nothing keeps has no registers (R188). -/
def Unit.setKey (u : Unit) (k : RegKey) (x : VWord) : Unit :=
  match k with
  | .v n => u.setV (BitVec.ofNat 5 n) x
  | .s n =>
    if n < 8 then u.setS (BitVec.ofNat 5 n) (word x.toNat)
    else if n < 16 * u.depth + 8 then
      let back := u.depth - (n - 8) / 16
      match u.saved[back - 1]? with
      | some w =>
        let i := (n - 8) % 16
        { u with saved := u.saved.set (back - 1) (w.setIfInBounds i (word x.toNat)) }
      | none => u
    else if n < 16 * u.depth + 32 then u.setS (BitVec.ofNat 5 (n - 16 * u.depth)) (word x.toNat)
    else
      match Sparse.find? u.left (n / 16 - 1) with
      | some w => { u with left := Sparse.put u.left (n / 16 - 1) (w.setIfInBounds (n % 16) (word x.toNat)) }
      | none => u

/-- The values written to their registers, in order. -/
def Unit.setKeys (u : Unit) : List RegKey → List VWord → Unit
  | k :: ks, x :: xs => Unit.setKeys (u.setKey k x) ks xs
  | _, _ => u

/-- Scalar value as a register value. -/
def sval (x : Word) : VWord := x.zeroExtend 1024

/-- The pending destinations of every incomplete instruction and tile move (R41, R297); s0, whose writes are discarded, is none. -/
def Unit.pendingKeys (u : Unit) : List RegKey := (u.pend.flatMap fun p => p.dests).filter (· ≠ .s 0)

/-- An instruction that names these registers touches a pending destination (R41). -/
def Unit.touches (u : Unit) (ks : List RegKey) : Bool := ks.any fun k => u.pendingKeys.contains k

/-! ### The live-in mask (R224, R225) -/

/-- Whether the mask names physical scalar register `n`: bit i names s_i of the window current when the task began. -/
def Unit.namedS (u : Unit) (r : SReg) : Bool :=
  let n := if r.toNat < 8 then r.toNat else 16 * u.depth + r.toNat
  let i := if n < 8 then n else n - 16 * u.task.startDepth
  if r = 0 then false
  else if n < 8 then u.task.mask.getLsbD n
  else decide (16 * u.task.startDepth + 8 ≤ n) && decide (i < 32) && u.task.mask.getLsbD i

def Unit.namedP (u : Unit) (r : PReg) : Bool := decide (r ≠ 0) && u.task.mask.getLsbD (31 + r.toNat)
def Unit.namedK (u : Unit) (r : KReg) : Bool := decide (r ≠ 0) && u.task.mask.getLsbD (38 + r.toNat)
def Unit.namedV (u : Unit) (r : VReg) : Bool := u.task.mask.getLsbD (46 + r.toNat / 2)

end Sys2Proof.Machine
end

