-- ==== Sys2Proof/Machine/Memory.lean ====
section
/-! DEFINITION. Physical memory of the module: the local map (R62, R63), reads and writes by physical address, the world
check of a home (R435, R436), and the banks of a Loft (R159 to R164). Memory is one sparse table keyed by the local offset
PA[45:0]; an unlisted byte reads as 0 (log 4). -/

namespace Sys2Proof.Machine

/-! ### Parts of the module -/

/-- Number of a cluster: 20 × die + cluster. The wain cores of a stack, or of eight packages of a hub die, stand in clusters
20 and 21 of their die, with numbers from 120 on (log 15). -/
def clusterId (die cluster : Nat) : Nat :=
  if cluster < Config.clustersPerDie then die * Config.clustersPerDie + cluster else 120 + 2 * die + (cluster - Config.clustersPerDie)
/-- Key of a core: 16 × cluster number + core, gleaners included (log 7). -/
def coreId (l : Loc) : Nat := clusterId l.die l.cluster * 16 + l.core

/-- The K-die whose slices serve a die's parts: its own, or that nearest to a hub die (R156, R444). -/
def sliceDie (die : Nat) : Nat := if die = 6 then 0 else if die = 7 then 2 else die

def State.cluster (s : State) (c : Nat) : Cluster := (Sparse.find? s.clusters c).getD {}
def State.setCluster (s : State) (c : Nat) (x : Cluster) : State := { s with clusters := Sparse.put s.clusters c x }
def State.core (s : State) (c : Nat) : Core := (Sparse.find? s.cores c).getD {}
def State.setCore (s : State) (c : Nat) (x : Core) : State := { s with cores := Sparse.put s.cores c x }
def State.die (s : State) (d : Nat) : Die := (Sparse.find? s.dies d).getD {}
def State.setDie (s : State) (d : Nat) (x : Die) : State := { s with dies := Sparse.put s.dies d x }
def State.hub (s : State) (h : Nat) : Hub := (Sparse.find? s.hubs h).getD {}
def State.setHub (s : State) (h : Nat) (x : Hub) : State := { s with hubs := Sparse.put s.hubs h x }
def State.setCur (s : State) (u : Unit) : State := { s with cur := u }
def State.modCur (s : State) (f : Unit → Unit) : State := { s with cur := f s.cur }

/-! ### The local physical map (R62) -/

/-- What a local offset belongs to. -/
inductive Region' where
  | hbm (stack offset : Nat)
  | lpddr (package : Nat)
  | granary (die offset : Nat)
  | loft (die cluster bank offset : Nat)
  | hub (hub offset : Nat)
  | host (hub : Nat)
  | reserved
  deriving DecidableEq, Repr

def loftBase : Nat := 0x310_0000_0000
def hubBase : Nat := 0x320_0000_0000
def hostBase : Nat := 0x800_0000_0000
/-- First stack offset that pages may not map (R63). -/
def stackLimit : Nat := 0xE_E400_0000

/-- The map of PA[45:0] (R62). -/
def regionOf (o : Nat) : Region' :=
  if o < 0xC0_0000_0000 then .hbm (o / 0x10_0000_0000) (o % 0x10_0000_0000)
  else if 0x100_0000_0000 ≤ o ∧ o < 0x280_0000_0000 then .lpddr ((o - 0x100_0000_0000) / 0x10_0000_0000)
  else if 0x300_0000_0000 ≤ o ∧ o < 0x306_0000_0000 then
    .granary ((o - 0x300_0000_0000) / 0x1_0000_0000) (o % 0x1_0000_0000)
  else if loftBase ≤ o ∧ o < 0x310_6000_0000 then
    let w := (o - loftBase) / 0x80_0000
    if w % 32 < 20 then .loft (w / 32) (w % 32) (o % 0x80_0000 / 0x8_0000) (o % 0x8_0000) else .reserved
  else if hubBase ≤ o ∧ o < 0x322_0000_0000 then .hub ((o - hubBase) / 0x1_0000_0000) (o % 0x1_0000_0000)
  else if hostBase ≤ o ∧ o < 0x1000_0000_0000 then .host ((o - hostBase) / 0x400_0000_0000)
  else .reserved

/-- The die that is the home of a local offset (R8, R65); none for a reserved one. -/
def homeDie (o : Nat) : Option Nat :=
  match regionOf o with
  | .hbm s _ => some (s / 2)
  | .lpddr j => some (6 + j / 12)
  | .granary d _ => some d
  | .loft d _ _ _ => some d
  | .hub h _ => some (6 + h)
  | .host h => some (6 + h)
  | .reserved => none

/-- Base of the Loft scratch window of a cluster (R62). -/
def loftWindow (die cluster : Nat) : Nat := loftBase + (32 * die + cluster) * 0x80_0000

/-- The module that a physical address names, PA[55:46] (R62). -/
def moduleOf (pa : Nat) : Nat := pa / 2 ^ 46
/-- The local offset of a physical address, PA[45:0]. -/
def localOf (pa : Nat) : Nat := pa % 2 ^ 46
/-- The address names this module: its MODID (R62). -/
def State.isLocal (s : State) (pa : Nat) : Bool := moduleOf pa == s.modid.toNat

/-- The physical address of a local offset: this module's number above it (R62). -/
def State.paOf (s : State) (o : Nat) : Nat := s.modid.toNat * 2 ^ 46 + o

/-- The channel group that serves an offset of a stack window, and beside which wain core of the same number sits (R66). -/
def channelGroup (o : Nat) : Nat := (bits (word o) 14 12) ^^^ (bits (word o) 22 20)

/-- Whether a page of `size` bytes at `o` lies wholly inside one region that a page may map (R57, R63). -/
def mappable (o size : Nat) : Bool :=
  let last := o + size - 1
  match regionOf o, regionOf last with
  | .hbm a x, .hbm b y => a == b && decide (x < stackLimit) && decide (y < stackLimit)
  | .lpddr a, .lpddr b => a == b
  | .granary a _, .granary b y => a == b && decide (y < 0xF000_0000)
  | .loft a _ _ _, .loft b _ _ _ => a == b
  | .hub a _, .hub b _ => a == b
  | .host a, .host b => a == b
  | _, _ => false

/-- A table node lies in HBM or in the LPDDR tier (R53, R57). -/
def nodeMappable (o : Nat) : Bool :=
  match regionOf o with
  | .hbm _ _ => true
  | .lpddr _ => true
  | _ => false

/-! ### Bytes -/

/-- The byte at a local offset; an unlisted byte reads as 0 (log 4). -/
def State.byte (s : State) (a : Nat) : Byte := Sparse.get 0 s.mem a

/-- `n` bytes from a local offset. -/
def State.bytes (s : State) (a n : Nat) : List Byte := (upTo n).map fun i => s.byte (a + i)

/-- The number that `n` bytes from a local offset hold. -/
def State.num (s : State) (a n : Nat) : Nat := ofBytes (s.bytes a n)
/-- The 64-bit word at a local offset. -/
def State.word64 (s : State) (a : Nat) : Word := word (s.num a 8)

/-- One byte written; the table keeps its canonical form. -/
def State.setByte (s : State) (a : Nat) (b : Byte) : State := { s with mem := Sparse.set 0 s.mem a b }

/-- Bytes written from a local offset on. -/
def State.setBytes (s : State) (a : Nat) : List Byte → State
  | [] => s
  | b :: r => State.setBytes (s.setByte a b) (a + 1) r

def State.setWord64 (s : State) (a : Nat) (x : Word) : State := s.setBytes a (bytesOf 8 x.toNat)

/-- Every byte of `n` from `a` becomes zero: the entries of the range leave the table. -/
def State.zeroBytes (s : State) (a n : Nat) : State :=
  { s with mem := s.mem.filter fun c => decide (c.1 < a) || decide (a + n ≤ c.1) }

/-- The form of the memory: keys strictly rising, no zero entry. -/
def Memory.wf (m : List Host.Cell) : Bool := Sparse.wf (0 : Byte) m

/-! ### Locks and ways -/

/-- The 4-byte words of a physical span. -/
def spanWords (pa n : Nat) : List Nat := (upTo ((pa + n + 3) / 4 - pa / 4)).map fun i => 4 * (pa / 4 + i)

/-- A word of the span is locked against the acting unit: by a non-speculative task of another unit (R318, R328) or by a
commit of another module. -/
def State.lockedAgainst (s : State) (pa n : Nat) : Bool :=
  (spanWords pa n).any fun w =>
    (s.locks.contains w && !s.cur.task.locked.contains w) || s.remoteLocks.any fun r => r.1 == w

/-! ### Clearing the ways (R168, R350) -/

/-- The cluster without the cached words whose physical address satisfies `p`. -/
def Cluster.clearWords (c : Cluster) (p : Nat → Bool) : Cluster :=
  { c with lines := c.lines.map fun l => { l with words := l.words.filter fun w => !p (l.pline + 4 * w.1) } }

/-- The words of a physical span leave the ways of every cluster of the module. -/
def State.clearSpan (s : State) (pa n : Nat) : State :=
  { s with clusters := s.clusters.map fun c =>
      (c.1, c.2.clearWords fun w => decide (alignDown pa 4 ≤ w) && decide (w < pa + n)) }

/-! ### The world check of a home (R435, R436) -/

/-- Whether an address belongs to the secure world: the lowest valid entry that covers it decides. -/
def secureAt : List (Nat × Word × Word) → Nat → Bool
  | [], _ => false
  | (_, w0, w1) :: r, o =>
    let base := bits w0 45 16 * 65536
    if w0.getLsbD 63 ∧ base ≤ o ∧ o < base + bits w1 31 0 * 65536 then w0.getLsbD 62 else secureAt r o

/-- A secure requester may access either world, a non-secure one only non-secure regions (R436). -/
def State.worldOk (s : State) (secure : Bool) (o : Nat) : Bool := secure || !secureAt s.secureRegions o

/-! ### Loft banks (R159 to R164) -/

/-- Modes of a bank (R160). -/
inductive Mode where
  | cache | scratch | fifo | refused
  deriving DecidableEq, Repr

def modeOf (w : Word) : Mode :=
  if bits w 1 0 = 0 then .cache else if bits w 1 0 = 1 then .scratch else if bits w 1 0 = 2 then .fifo else .refused

/-- The configuration word of a bank; banks 14 and 15 hold the local stores and stay in SCRATCH mode (R12, R162). -/
def Cluster.configOf (c : Cluster) (b : Nat) : Word := if b < 14 then Sparse.get 0 c.config b else 1
/-- Entry size of a FIFO bank: 8 × 2^EK bytes (R160). -/
def entrySize (w : Word) : Nat := 8 * 2 ^ bits w 6 4
/-- Entries of a stage (R171). -/
def stageCapacity (w : Word) : Nat := 524288 / ((bits w 15 8 + 1) * entrySize w)

/-- A configuration word as a bank takes it: what is written to reserved bits is ignored (R4). -/
def configClean (w : Word) : Word := w &&& 0xFF73

/-- A configuration word that R160 refuses. -/
def configRefused (w : Word) : Bool :=
  modeOf w == .refused || (modeOf w == .fifo && decide (bits w 6 4 > 4)) || (modeOf w != .fifo && decide (bits w 15 4 ≠ 0))

/-- The stage that a stream name names, or none where R171 refuses it: [3:0] bank, [11:4] stage. -/
def Cluster.stage (c : Cluster) (name : Nat) : Option (Nat × Nat) :=
  let b := name % 16
  let st := name / 16 % 256
  let w := c.configOf b
  if b < 14 ∧ modeOf w = .fifo ∧ st ≤ bits w 15 8 then some (b, st) else none

/-- Ways of the cluster: its banks in CACHE mode that are not being zeroed (R166, R182). -/
def Cluster.ways (c : Cluster) : List Nat := (upTo 14).filter fun b => modeOf (c.configOf b) == .cache && !c.zeroing.contains b

/-- A window access reaches a bank: only a bank in SCRATCH mode that is not being zeroed answers; banks 14 and 15 hold the
local stores (R64, R164, R182). -/
def State.windowOk (s : State) (die cluster bank : Nat) : Bool :=
  let c := s.cluster (clusterId die cluster)
  decide (bank ≥ 14) || (modeOf (c.configOf bank) == .scratch && !c.zeroing.contains bank)

/-! ### The aperture (R161 to R163) -/

/-- An address of the aperture LAP to LAP + 0x7F_FFFF. -/
def Unit.inAperture (u : Unit) (ea : Word) : Bool := decide (u.lap.toNat ≤ ea.toNat) && decide (ea.toNat ≤ u.lap.toNat + 0x7F_FFFF)

/-- Local offset of an aperture address: the same byte of the Loft scratch window (R163). -/
def Unit.loftAddr (u : Unit) (ea : Word) : Nat := loftWindow u.loc.die u.loc.cluster + (ea.toNat - u.lap.toNat)

def Unit.apertureBank (u : Unit) (ea : Word) : Nat := (ea.toNat - u.lap.toNat) / 0x8_0000

/-- The access check of R163 and R175 for `n` bytes at `ea`: true where LOFT_ACCESS is raised. -/
def State.loftRefused (s : State) (ea : Word) (n : Nat) : Bool :=
  let u := s.cur
  let last := ea.toNat + n - 1
  if u.inAperture ea then
    let b := u.apertureBank ea
    let off := ea.toNat - u.lap.toNat
    if last > u.lap.toNat + 0x7F_FFFF ∨ (last - u.lap.toNat) / 0x8_0000 ≠ b then true
    else if b < 14 then
      modeOf ((s.cluster (clusterId u.loc.die u.loc.cluster)).configOf b) != .scratch || !u.lbm.getLsbD b
    else
      decide (ea.toNat < u.lsb.toNat) || decide (last > u.lsb.toNat + 8191) || decide (off < 0x70_0000)
  else decide (ea.toNat < u.lap.toNat) && decide (u.lap.toNat ≤ last)

/-- Whether an aperture access to a bank waits for the zeroing of the bank (R182). -/
def State.apertureWaits (s : State) (ea : Word) : Bool :=
  s.cur.inAperture ea &&
    (s.cluster (clusterId s.cur.loc.die s.cur.loc.cluster)).zeroing.contains (s.cur.apertureBank ea)

end Sys2Proof.Machine
end

