-- ==== Sys2Proof/Machine/Remote.lean ====
section
/-! DEFINITION. Requests to other modules over the Trelior fabric, as the requester sees them (R62, R351, R352, R422, R423):
a request is sent once, in its lane's order, and its issuer re-executes until the answer has come. -/

namespace Sys2Proof.Machine

/-- The hub that serves a source die (R423). -/
def hubOfDie (d : Nat) : Nat := if d = 0 ∨ d = 1 ∨ d = 3 ∨ d = 6 then 0 else 1

/-- The TBCTL bit LOST (R427): while it is set the module sends no request and refuses every remote one. -/
def State.lost (s : State) : Bool := (s.hub 0).tbctl.getLsbD 15

/-- A route toward a module, through the hub of the source die: a valid entry that allows some port (R423). -/
def State.routed (s : State) (sdie dst : Nat) : Bool :=
  let e := Sparse.get 0 (s.hub (hubOfDie sdie)).routes dst
  e.getLsbD 63 && decide (bits e 8 0 ≠ 0)

/-- The next LSEQ of the lane from a die to a module (R422). -/
def State.nextLseq (s : State) (sdie dst : Nat) : Nat := Sparse.get 0 s.laneOut (sdie * 1024 + dst)

/-- A packet put on the fabric with a place in its lane. -/
def State.sendAt (s : State) (lseq : Nat) (typ : PktType) (sdie dst addr expiry : Nat) (data : List Byte) : State :=
  let p : Packet := { dst, src := s.modid.toNat, sdie, lseq, exp := expiry % 2 ^ 24, addr, data }
  { s with outbox := s.outbox ++ [(hubOfDie sdie, typ, p)] }

/-- A packet put on the fabric at the next place of its lane. -/
def State.send (s : State) (typ : PktType) (sdie dst addr expiry : Nat) (data : List Byte) : State :=
  let q := s.nextLseq sdie dst
  { s.sendAt q typ sdie dst addr expiry data with laneOut := Sparse.set 0 s.laneOut (sdie * 1024 + dst) ((q + 1) % 4096) }

/-- The data of a READ packet: how many bytes it asks for (log 13). -/
def readData (n : Nat) : List Byte := [BitVec.ofNat 8 n]

/-- A refused request leaves the head of its lane (R352): an UNLOCK of no word, at an address that is no multiple of 4, takes its place (log
13). -/
def State.withdraw (s : State) (sdie dst lseq : Nat) : State := s.sendAt lseq .unlock sdie dst 1 0 []

/-- The refused requests of a part that `p` names leave their lanes (R352). -/
def State.withdrawHoles (s : State) (p : Hole → Bool) : State :=
  (s.laneHoles.filter p).foldl (fun (t : State) h => t.withdraw h.sdie h.dst h.lseq)
    { s with laneHoles := s.laneHoles.filter fun h => !p h }

/-- Number of an operation in R329. -/
def AtomOp.code : AtomOp → Nat
  | .swap => 0 | .cas => 1 | .add => 2 | .and => 3 | .or => 4 | .xor => 5 | .max => 6 | .min => 7 | .maxu => 8 | .minu => 9
/-- Number of a type in R329. -/
def atypeCode : AType → Nat
  | .w => 0 | .d => 1 | .f32 => 2 | .q => 3

def atomOpOf (n : Nat) : AtomOp :=
  if n = 0 then .swap else if n = 1 then .cas else if n = 2 then .add else if n = 3 then .and else if n = 4 then .or
  else if n = 5 then .xor else if n = 6 then .max else if n = 7 then .min else if n = 8 then .maxu else .minu
def atypeOf (n : Nat) : AType := if n = 0 then .w else if n = 1 then .d else if n = 2 then .f32 else .q

/-- The data of a fabric ATOMIC packet: operation, type, whether it is a held reduction, y and the compare value (log 13). -/
def atomicData (op : AtomOp) (t : AType) (held : Bool) (y cmp : BitVec 128) : List Byte :=
  [BitVec.ofNat 8 op.code, BitVec.ofNat 8 (atypeCode t), if held then 1 else 0] ++ bytesOf 16 y.toNat ++ bytesOf 16 cmp.toNat

/-- The core number that a rope engine's remote requests carry (log 16). -/
def ropeCore : Nat := 16

/-- The expected and the new value of a count that a rope engine changes by compare-and-swap at another module (R103); none for another
request. -/
def Remote.claim (r : Remote) : Option (Nat × Nat) :=
  if r.typ = .atomic ∧ r.loc.core = ropeCore ∧ r.data.head? = some (BitVec.ofNat 8 AtomOp.cas.code) then
    some (ofBytes ((r.data.drop 19).take 4), ofBytes ((r.data.drop 3).take 4))
  else none

/-- A change of a count that its command does not need after all is taken back by an atomic add (R103, log 59). -/
def State.undoClaim (s : State) (r : Remote) (old new : Nat) : State :=
  let q := s.nextLseq r.sdie r.dst
  let data := atomicData .add .w false (BitVec.ofNat 128 ((old + 2 ^ 32 - new) % 2 ^ 32)) 0
  { s.send .atomic r.sdie r.dst (localOf r.pa) (s.time.toNat + 2 ^ 22) data with
    remotes := s.remotes ++ [{ r with lseq := q, data, answer := none, dropped := true }] }

/-- What becomes of a request whose answer nobody takes: a refused one is withdrawn, a lock that was granted goes back (R352), and a
count that was changed is changed back. -/
def State.settleDropped (s : State) (r : Remote) (t : PktType) (d : List Byte) : State :=
  if t = .refuse then s.withdraw r.sdie r.dst r.lseq
  else if r.typ = .lock then s.send .unlock r.sdie r.dst (localOf r.pa) 0 []
  else
    match r.claim with
    | some (old, new) => if ofBytes (d.take 4) = old then s.undoClaim r old new else s
    | none => s

/-- A request that nobody waits for any more. -/
def State.dropRemote (s : State) (r : Remote) : State :=
  match r.answer with
  | none => { s with remotes := s.remotes.map fun x => if x = r then { x with dropped := true, launch := 0 } else x }
  | some (t, _, d) => ({ s with remotes := s.remotes.filter (· ≠ r) } : State).settleDropped r t d

/-- The requests that `p` names are dropped. -/
def State.dropAsked (s : State) (p : Remote → Bool) : State :=
  (s.remotes.filter fun r => !r.dropped && p r).foldl State.dropRemote s

/-- The answer of a request that has come back, or none while the issuer must wait. -/
inductive Asked where
  | wait
  | answer (typ : PktType) (reason : Nat) (data : List Byte)
  deriving DecidableEq, Repr

/-- The request is the one of an access: its kind, the part that makes it, and its span. -/
def Remote.same (r : Remote) (typ : PktType) (loc : Loc) (va size : Nat) : Bool :=
  !r.dropped && r.fill.isNone && r.typ == typ && r.loc == loc && r.va == va && r.size == size
/-- A request of the same access; an atomic, also with the same operands. -/
def Remote.asks (r : Remote) (typ : PktType) (loc : Loc) (va size : Nat) (data : List Byte) : Bool :=
  r.same typ loc va size && (typ != .atomic || r.data == data)
def Hole.same (h : Hole) (typ : PktType) (loc : Loc) (va size : Nat) : Bool :=
  h.typ == typ && h.loc == loc && h.va == va && h.size == size

/-- The first request of a list that matches, and the list without it. -/
def takeRemote (p : Remote → Bool) : List Remote → Option (Remote × List Remote)
  | [] => none
  | r :: rs => if p r then some (r, rs) else (takeRemote p rs).map fun (x, l) => (x, r :: l)

/-- One more stale-home refusal of an access: whether it is the eighth in a row (R74). -/
def State.staleOnce (s : State) (loc : Loc) (va : Nat) : State × Bool :=
  let mine (x : Loc × Nat × Nat) : Bool := x.1 == loc && x.2.1 == va
  let n := ((s.stale.find? mine).map fun x => x.2.2).getD 0 + 1
  let rest := s.stale.filter fun x => !mine x
  if n < 8 then ({ s with stale := rest ++ [(loc, va, n)] }, false) else ({ s with stale := rest }, true)

/-- An access is not refused as stale any more. -/
def State.freshOnce (s : State) (loc : Loc) (va : Nat) : State :=
  { s with stale := s.stale.filter fun x => !(x.1 == loc && x.2.1 == va) }

/-- A request sent: into the place that a refusal left for the same access, or, where its translation now names another module, at the
tail of that module's lane, while the old place is withdrawn (R352). -/
def State.request (s : State) (r : Remote) (expiry : Nat) : State :=
  match s.laneHoles.find? fun h => h.same r.typ r.loc r.va r.size with
  | some h =>
    if h.dst = r.dst ∧ h.sdie = r.sdie then
      { s.sendAt h.lseq r.typ r.sdie r.dst (localOf r.pa) expiry r.data with
        laneHoles := s.laneHoles.filter (· ≠ h), remotes := s.remotes ++ [{ r with lseq := h.lseq }] }
    else
      let t := s.withdrawHoles (· == h)
      let q := t.nextLseq r.sdie r.dst
      { t.send r.typ r.sdie r.dst (localOf r.pa) expiry r.data with remotes := t.remotes ++ [{ r with lseq := q }] }
  | none =>
    let q := s.nextLseq r.sdie r.dst
    { s.send r.typ r.sdie r.dst (localOf r.pa) expiry r.data with remotes := s.remotes ++ [{ r with lseq := q }] }

/-- The place of a refused request of a part, for the word at `va`. -/
def Hole.at (h : Hole) (typ : PktType) (loc : Loc) (va : Nat) : Bool := h.typ == typ && h.loc == loc && alignDown h.va 4 == alignDown va 4

/-- An access whose translation names this module now leaves the lane in which it was refused (R352). -/
def State.leavePlace (s : State) (typ : PktType) (loc : Loc) (va : Nat) : State :=
  if s.laneHoles.any fun h => h.at typ loc va then s.withdrawHoles fun h => h.at typ loc va else s

/-- A lock that was asked for at another address of the same span, under an older translation, is given up (R317, R342). -/
def State.dropOldLock (s : State) (typ : PktType) (loc : Loc) (va pa : Nat) : State :=
  if typ = .lock then s.dropAsked fun r => r.same .lock loc va 4 && r.pa != pa else s

/-- The place of a refused request kept for its access (R352). -/
def State.keepPlace (s : State) (r : Remote) : State :=
  { s with laneHoles := s.laneHoles ++
      [{ sdie := r.sdie, dst := r.dst, lseq := r.lseq, typ := r.typ, loc := r.loc, va := r.va, size := r.size }] }

/-- A request of a world by the part at `loc` for `size` bytes at the remote address `pa`, which its virtual address `va` names: sent if it has not
been, used up once its answer has come (R351). After a stale-home refusal the issuer translates again, up to the eighth in a row (R74).
Without a route, or while TBCTL.LOST is set, nothing is sent (R423, R427). -/
def State.ask (s : State) (typ : PktType) (loc : Loc) (va pa size expiry : Nat) (data : List Byte) (secure : Bool) : State × Asked :=
  let s := s.dropOldLock typ loc va pa
  match takeRemote (fun r => r.asks typ loc va size data) s.remotes with
  | some (r, rest) =>
    match r.answer with
    | some (t, reason, d) =>
      let s := { s with remotes := rest }
      if t = .refuse then
        let s := s.keepPlace r
        if reason = 6 then
          match s.staleOnce loc va with
          | (s, true) => (s, .answer t reason d)
          | (s, false) => (s, .wait)
        else (s.freshOnce loc va, .answer t reason d)
      else (s.freshOnce loc va, .answer t reason d)
    | none => (s, .wait)
  | none =>
    if s.lost ∨ !s.routed loc.die (moduleOf pa) then (s, .wait)
    else (s.request { sdie := loc.die, dst := moduleOf pa, lseq := 0, typ, loc, pa, size, data, va, secure } expiry, .wait)

/-- The causes that a REFUSE packet carries (R78, R352). -/
def causeOfReason (n : Nat) : Cause :=
  if n = 1 then .notPresent else if n = 2 then .format else if n = 3 then .permission else if n = 4 then .moving
  else if n = 5 then .world else if n = 6 then .staleHome else if n = 7 then .clockSkew else if n = 8 then .bankMode
  else if n = 9 then .hostAtomic else .handover

/-- The number of a cause (R78, R403). -/
def Cause.number : Cause → Nat
  | .notPresent => 1 | .format => 2 | .permission => 3 | .moving => 4 | .world => 5 | .staleHome => 6 | .clockSkew => 7
  | .bankMode => 8 | .hostAtomic => 9 | .handover => 10

end Sys2Proof.Machine
end

