-- ==== Sys2Proof/Machine/HubRegs.lean ====
section
/-! DEFINITION. The hub register window (R416): JOBTAB, TVEC, WDT, CTX, HACAP, MODID, TBCTL, KERR, HAPB, the queue
descriptors (R374), the handover regions (R418), the topology and route tables and the completion counters (R368). Reserved
offsets read as zero and ignore writes (log 6); the word at 0x48 holds HACAP and CTX5, whose bits do not meet (log 45). A word written to KICK waits in `kicks` until the hub acts on it. -/

namespace Sys2Proof.Machine

def State.counter (s : State) (c : Nat) : Counter := (Sparse.find? s.counters c).getD {}
def State.setCounter (s : State) (c : Nat) (x : Counter) : State := { s with counters := Sparse.put s.counters c x }
def State.queue (s : State) (q : Nat) : Queue := (Sparse.find? s.queues q).getD {}
def State.setQueue (s : State) (q : Nat) (x : Queue) : State := { s with queues := Sparse.put s.queues q x }
def Hub.region (h : Hub) (r : Nat) : Region := (Sparse.find? h.regions r).getD {}

/-- Word `w` of the record of job `j` (R370). -/
def State.jobWord (s : State) (j w : Nat) : Word := s.word64 (localOf s.jobtab.toNat + 64 * j + 8 * w)
/-- The highest priority that a job's queues may take (R370). -/
def State.jobPmax (s : State) (j : Nat) : Nat := bits (s.jobWord j 3) 61 59
/-- The job exists (R370). -/
def State.jobValid (s : State) (j : Nat) : Bool := (s.jobWord j 3).getLsbD 63

/-- Word `w` of a queue descriptor as it reads (R374). -/
def Queue.read (q : Queue) (w : Nat) : Word :=
  if w = 0 then q.base
  else if w = 1 then word (q.size * 2 ^ 32)
  else if w = 2 then q.head
  else if w = 3 then q.tail
  else if w = 4 then word (q.state * 2 ^ 62 + q.pri * 2 ^ 59 + q.qw * 2 ^ 55 + q.job)
  else if w = 5 then word (q.fcause * 2 ^ 56 + q.fva.toNat % 2 ^ 56)
  else 0

/-- A write to word `w` of a queue descriptor; HEAD, STATE, FCAUSE and FVA are read-only and PRI is limited to PMAX of the
job (R374). -/
def Queue.write (q : Queue) (w : Nat) (x : Word) (pmax : Nat) : Queue :=
  if w = 0 then { q with base := word (bits x 55 0) }
  else if w = 1 then { q with size := bits x 63 32 }
  else if w = 3 then { q with tail := x }
  else if w = 4 then { q with pri := min (bits x 61 59) pmax, qw := bits x 58 55, job := bits x 11 0 }
  else q

/-- The handover region that covers a host-window address: the lower-numbered one of two (R418). -/
def regionAt (o : Nat) : List (Nat × Region) → Option (Nat × Region)
  | [] => none
  | (n, r) :: rest =>
    let base := localOf r.base.toNat
    let here := decide (r.size ≠ 0) && decide (base ≤ o) && decide (o < base + r.size * 65536)
    match regionAt o rest with
    | some (m, t) => if here && decide (n < m) then some (n, r) else some (m, t)
    | none => if here then some (n, r) else none

/-- The state of the handover region of a host-window address, 2 (SHARED-ATOMIC) where no region covers it (R356). -/
def State.handover (s : State) (o : Nat) : Nat :=
  match regionAt o (s.hub ((o - hostBase) / 0x400_0000_0000)).regions with
  | some (_, r) => r.state
  | none => 2

/-- Field of the topology table at byte offset `o` (R432). -/
def State.topoWord (s : State) (o : Nat) : Word :=
  match Sparse.find? s.topo (o / 16) with
  | some (a, b) => if o % 16 < 8 then a else b
  | none => 0

/-- The hub register at offset `o` of hub `h`, as it reads (R416). -/
def State.hubRead (s : State) (h o : Nat) : Word :=
  let k := s.hub h
  if o = 0x08 then s.jobtab
  else if o = 0x10 then s.tvec
  else if o = 0x18 then s.wdt
  else if 0x20 ≤ o ∧ o < 0x48 then Sparse.get 0 s.ctx ((o - 0x20) / 8)
  else if o = 0x48 then k.hacap ||| Sparse.get 0 s.ctx 5
  else if o = 0x50 then s.modid
  else if o = 0x58 then k.tbctl
  else if o = 0x60 then k.kerr
  else if o = 0x68 then k.hapb
  else if 0x1000 ≤ o ∧ o < 0x1800 then (s.queue (32 * h + (o - 0x1000) / 64)).read (o % 64 / 8)
  else if 0x2000 ≤ o ∧ o < 0x2400 then
    let r := k.region ((o - 0x2000) / 16)
    if o % 16 < 8 then r.base else word (r.state * 2 ^ 62 + r.cstat * 2 ^ 60 + r.size)
  else if 0x4000 ≤ o ∧ o < 0x4100 then s.topoWord (o - 0x4000)
  else if 0x8000 ≤ o ∧ o < 0xA000 then Sparse.get 0 k.routes ((o - 0x8000) / 8)
  else if 0x10_0000 ≤ o ∧ o < 0x10_8000 then
    let c := s.counter (2048 * h + (o - 0x10_0000) / 16)
    if o % 16 < 8 then c.word else c.stat
  else 0

/-- A 64-bit write to the hub register at offset `o` of hub `h`: reserved bits are ignored (R4), read-only registers keep
their values, and the registers marked "both" are written in both hubs (R416). -/
def State.hubWrite (s : State) (h o : Nat) (x : Word) : State :=
  let k := s.hub h
  if o = 0 then { s with kicks := s.kicks ++ [(h, x)] }
  else if o = 0x08 then { s with jobtab := word (bits x 55 18 * 2 ^ 18) }
  else if o = 0x10 then { s with tvec := word (bits x 55 3 * 8) }
  else if o = 0x18 then { s with wdt := word (bits x 31 0) }
  else if 0x20 ≤ o ∧ o < 0x48 then
    { s with ctx := Sparse.set 0 s.ctx ((o - 0x20) / 8) (word (bits x 55 20 * 2 ^ 20)) }
  else if o = 0x48 then
    { s.setHub h { k with hacap := word (bits x 6 0) } with ctx := Sparse.set 0 s.ctx 5 (word (bits x 55 20 * 2 ^ 20)) }
  else if o = 0x50 then { s with modid := word (bits x 9 0), numbered := true }
  else if o = 0x58 then s.setHub h { k with tbctl := word (bits x 8 4 * 16 + bits x 0 0 + bits k.tbctl 15 15 * 2 ^ 15) }
  else if o = 0x68 then s.setHub h { k with hapb := word (bits x 55 36 * 2 ^ 36) }
  else if 0x1000 ≤ o ∧ o < 0x1800 then
    let q := 32 * h + (o - 0x1000) / 64
    s.setQueue q ((s.queue q).write (o % 64 / 8) x (s.jobPmax (bits x 11 0)))
  else if 0x2000 ≤ o ∧ o < 0x2400 then
    let n := (o - 0x2000) / 16
    let r := k.region n
    if r.state ≠ 0 then s
    else
      let r' := if o % 16 < 8 then { r with base := word (bits x 55 16 * 65536) } else { r with size := bits x 31 0 }
      s.setHub h { k with regions := Sparse.put k.regions n r' }
  else if 0x8000 ≤ o ∧ o < 0xA000 then
    s.setHub h { k with routes := Sparse.set 0 k.routes ((o - 0x8000) / 8) (word (bits x 8 0 + bits x 63 63 * 2 ^ 63)) }
  else if 0x10_0000 ≤ o ∧ o < 0x10_8000 then
    let n := 2048 * h + (o - 0x10_0000) / 16
    let c := s.counter n
    s.setCounter n (if o % 16 < 8 then { c with word := x } else { c with stat := word (bits x 63 40 * 2 ^ 40 + bits x 31 0) })
  else s

/-- Bytes of the hub register window as a list, from the 64-bit registers that hold them. -/
def State.hubBytes (s : State) (h o n : Nat) : List Byte :=
  (upTo n).map fun i => BitVec.ofNat 8 ((s.hubRead h (alignDown (o + i) 8)).toNat / 2 ^ (8 * ((o + i) % 8)))

/-- A write of bytes to the hub register window: each register touched takes the new bytes and keeps its others. -/
def State.hubStore (s : State) (h o : Nat) (l : List Byte) : State :=
  (cutAt 8 (l.length + 1) o l.length).foldl (fun (t : State) (p : Nat × Nat) =>
    let r := alignDown p.1 8
    let old := bytesOf 8 (t.hubRead h r).toNat
    let part := (l.drop (p.1 - o)).take p.2
    t.hubWrite h r (word (ofBytes (old.take (p.1 - r) ++ part ++ old.drop (p.1 - r + p.2))))) s

end Sys2Proof.Machine
end

