-- ==== Sys2Proof/Machine/Translate.lean ====
section
/-! DEFINITION. Translation under lease: the walk (R52 to R60), the cached translations of a slice (R69 to R72, R76), and
the fault messages that a walk or a home posts to a gleaner core (R78, R79). -/

namespace Sys2Proof.Machine

/-! ### The walk -/

/-- The slice of a virtual address (R69). -/
def sliceOf (va : Nat) : Nat :=
  (va / 2 ^ 8 % 32) ^^^ (va / 2 ^ 13 % 32) ^^^ (va / 2 ^ 18 % 32) ^^^ (va / 2 ^ 23 % 32) ^^^ (va / 2 ^ 28 % 32)

/-- lease(LT) in ns; 512 for LT = 0 (R68). -/
def leaseOf (lt : Nat) : Nat := if lt = 0 then 512 else 2 ^ lt * 128

/-- Fields of a page table entry (R55, R56). -/
def pteValid (e : Word) : Bool := e.getLsbD 0
def pteW (e : Word) : Bool := e.getLsbD 1
def pteX (e : Word) : Bool := e.getLsbD 2
def pteU (e : Word) : Bool := e.getLsbD 3
def pteG (e : Word) : Bool := e.getLsbD 4
def pteNc (e : Word) : Bool := e.getLsbD 5
def pteRc (e : Word) : Bool := e.getLsbD 6
def pteD (e : Word) : Bool := e.getLsbD 8
def pteMv (e : Word) : Bool := e.getLsbD 9
def pteSw (e : Word) : Bool := e.getLsbD 10
def pteLt (e : Word) : Nat := bits e 14 11
def pteSize (e : Word) : Nat := bits e 59 56
/-- Physical address of the frame of an entry. -/
def pteFrame (e : Word) : Nat := bits e 55 16 * 65536

/-- Bits of offset of a leaf at a level (R54, R60). -/
def levelBits (level : Nat) : Nat := 16 + 10 * (4 - level)

/-- Whether R57 refuses a valid entry at a level. -/
def State.pteRefused (s : State) (level : Nat) (e : Word) : Bool :=
  let size := pteSize e
  if size = 0 then
    let node := pteFrame e + bits e 13 11 * 8192
    decide (level = 4) || decide (bits e 63 60 ≠ 0) || decide (bits e 15 14 ≠ 0) || decide (bits e 10 1 ≠ 0) ||
      !(s.isLocal node && nodeMappable (localOf node))
  else
    let n := 2 ^ levelBits level
    decide (bits e 63 60 ≠ 0) || e.getLsbD 15 || decide (size > 3) || decide (size + level ≠ 5) ||
      decide (pteFrame e % n ≠ 0) || (pteRc e && pteW e) || decide (moduleOf (pteFrame e) ≥ Config.modules) ||
      !mappable (localOf (pteFrame e)) n ||
      (match regionOf (localOf (pteFrame e)) with
       | .hub _ _ => !pteNc e
       | _ => false)

/-- allowed() of R60. -/
def allowed (e : Word) (acc : Acc) (sup : Bool) : Bool :=
  (sup || pteU e) &&
    (match acc with
     | .read => true
     | .write => pteW e
     | .atomic => pteW e
     | .fetch => pteX e)

/-- What a walk ends with: a fault with the entry that decided it, the leaf with its address and level, or a wait for an entry that a lock
holds: the walk sees entries only as committed tasks have left them (R60, R318). -/
inductive WalkEnd where
  | fault (c : Cause) (e : Word)
  | leaf (e : Word) (ea : Nat) (level : Nat)
  | wait
  deriving DecidableEq, Repr

/-- The levels of the walk from a node down, without the permission checks (R60). A span that begins below 2^56 and runs past it is walked
at the index modulo 2^56, since R52 checks the address only. DESIGN CHOICE (log 63). -/
def State.descend (s : State) (va : Nat) : List Nat → Nat → WalkEnd
  | [], _ => .fault .format 0
  | level :: rest, node =>
    let ea := localOf node + 8 * (va / 2 ^ (levelBits level) % 1024)
    let e := s.word64 ea
    if s.lockedAgainst (s.paOf ea) 8 then .wait
    else if !pteValid e then .fault .notPresent e
    else if s.pteRefused level e then .fault .format e
    else if pteSize e = 0 then s.descend va rest (pteFrame e + bits e 13 11 * 8192)
    else .leaf e ea level

/-- The leaf of `va` in the tables of a job (R53, R60). A ROOT that names another module, lies outside HBM and LPDDR, or is not 8 KiB aligned
is read at its local offset unchecked: R53 gives no fault for it. DESIGN CHOICE (log 64). -/
def State.walkLeaf (s : State) (job va : Nat) : WalkEnd := s.descend va [1, 2, 3, 4] (bits (s.jobWord job 0) 55 0)

/-- A translation that succeeded, the fault it ends with (R71), or a walk that must wait (R60). -/
inductive Xlated where
  | wait
  | fault (c : Cause) (e : Word)
  | ok (pa : Nat) (e : Word) (expiry : Nat)
  deriving DecidableEq, Repr

/-- An access acc writes memory. -/
def accWrites : Acc → Bool
  | .read => false
  | .write => true
  | .atomic => true
  | .fetch => false

/-- The physical address of `va` in the page of a leaf with `n` offset bits (R60). -/
def leafPa (e : Word) (n va : Nat) : Nat := pteFrame e / 2 ^ n * 2 ^ n + va % 2 ^ n

/-- walk() of R60 with its checks: A is set, and D on a write or atomic. The model's walk is one access, so its
compare-and-swap never fails (log 5). An access that the world check of R59 refuses leaves A and D as they were. DESIGN CHOICE (log 65). -/
def State.walkTo (s : State) (x : WalkEnd) (va : Nat) (acc : Acc) (sup secure : Bool) : State × Xlated :=
  match x with
  | .fault c e => (s, .fault c e)
  | .wait => (s, .wait)
  | .leaf e ea level =>
    if !allowed e acc sup then (s, .fault .permission e)
    else if pteMv e && accWrites acc then (s, .fault .moving e)
    else if pteSw e && !secure then (s, .fault .world e)
    else
      let want := e ||| 0x80 ||| (if accWrites acc then 0x100 else 0)
      let t := if want = e then s else (s.setWord64 ea want).clearSpan (s.paOf ea) 8
      let lt := if pteLt e = 0 || pteMv e then 0 else pteLt e
      (t, .ok (leafPa e (levelBits level) va) want (s.time.toNat + leaseOf lt))

/-! ### Slices (R69 to R72, R76) -/

def Tlb.covers (c : Tlb) (slice job va : Nat) : Bool :=
  c.slice == slice && decide (c.base ≤ va) && decide (va < c.base + c.size) &&
    (match c.job with
     | none => true
     | some j => j == job)

/-- At most 512 translations of a slice stay, the least recently used leaving first (R70). -/
def trimTlb (slice : Nat) : Nat → List Tlb → List Tlb
  | _, [] => []
  | n, c :: r => if c.slice = slice then (if n = 0 then trimTlb slice 0 r else c :: trimTlb slice (n - 1) r) else c :: trimTlb slice n r

/-- The slice of a die is in skew mode (R76). -/
def Die.skewed (d : Die) (slice : Nat) : Bool := (Sparse.find? d.skew slice).isSome

/-- The result of a walk for an access in a slice, for which an old translation of the page leaves it (R71, R72): its translation is cached
under the lease of its leaf; LT = 0 and MV = 1 are used once, and in skew mode nothing is cached (R76). -/
def State.walkIn (s : State) (die : Nat) (x : WalkEnd) (q : XlAsk) : State × Xlated :=
  let d := s.die die
  let slice := sliceOf q.va
  if d.skewed slice then
    match s.walkTo x q.va q.acc q.supervisor q.secure with
    | (t, .ok pa e _) => (t, .ok pa e (s.time.toNat + 512))
    | r => r
  else
    match (s.setDie die { d with tlb := d.tlb.filter fun c => !c.covers slice q.job q.va }).walkTo x q.va q.acc q.supervisor q.secure with
    | (t, .ok pa e expiry) =>
      if pteLt e = 0 || pteMv e then (t, .ok pa e expiry)
      else
        let size := 2 ^ (levelBits (5 - pteSize e))
        let c : Tlb := { slice, base := alignDown q.va size, size, job := if pteG e then none else some q.job, pbase := pa - q.va % size,
                         leaf := e, expiry }
        let keep := d.tlb.filter fun c => !c.covers slice q.job q.va
        (t.setDie die { t.die die with tlb := trimTlb slice 512 (c :: keep) }, .ok pa e expiry)
    | r => r

/-- The cached translation that serves an access (R71). -/
def State.cachedFor (s : State) (die : Nat) (q : XlAsk) : Option Tlb :=
  let d := s.die die
  let slice := sliceOf q.va
  if d.skewed slice then none
  else
    match d.tlb.find? fun c => c.covers slice q.job q.va with
    | some c =>
      if s.time.toNat + 256 ≤ c.expiry && allowed c.leaf q.acc q.supervisor && !(accWrites q.acc && !pteD c.leaf) &&
        !(pteSw c.leaf && !q.secure) then some c else none
    | none => none

/-- The page that an access names: its base, or its 4 KiB frame where the walk meets a fault or waits. -/
def State.pageOf (s : State) (job va : Nat) : Nat × Nat :=
  match s.walkLeaf job va with
  | .leaf _ _ level => (2 ^ levelBits level, alignDown va (2 ^ levelBits level))
  | .fault _ _ => (4096, alignDown va 4096)
  | .wait => (4096, alignDown va 4096)

/-- A walk under way is one for the page of an access, in its slice (R72). -/
def State.walkFor (s : State) (die job va : Nat) (w : Walk) : Bool :=
  w.die == die && w.slice == sliceOf va &&
    (match w.reqs with
     | x :: _ => x.job == job && s.pageOf x.job x.va.toNat == s.pageOf job va
     | [] => false)

/-- translate() of R71 by the slice of `va` on a die. An access that misses while a walk for its page is under way waits for it and then uses
its result (R72). -/
def State.translate (s : State) (die job va : Nat) (acc : Acc) (sup secure : Bool) : State × Xlated :=
  let q : XlAsk := { job, va, acc, supervisor := sup, secure }
  let d := s.die die
  match d.once.find? fun x => x.ask == q && decide (s.time.toNat < x.expiry) with
  | some x =>
    (s.setDie die { d with once := d.once.filter (· ≠ x) }, match x.cause with
      | some c => .fault c x.entry
      | none => .ok x.pa x.entry x.expiry)
  | none =>
    match s.cachedFor die q with
    | some c => (s.setDie die { d with tlb := c :: d.tlb.filter (· ≠ c) }, .ok (c.pbase + (va - c.base)) c.leaf c.expiry)
    | none =>
      if s.walks.any (s.walkFor die job va) then
        ({ s with walks := s.walks.map fun w =>
            if s.walkFor die job va w && !w.joined.contains q then { w with joined := w.joined ++ [q] } else w }, .wait)
      else s.walkIn die (s.walkLeaf job va) q

/-- An access that a slice is to walk for: it joins a walk for its page, or begins one (R72). -/
def State.joinWalk (s : State) (r : XlReq) : State :=
  let die := sliceDie r.loc.die
  let same := s.walkFor die r.job r.va.toNat
  if s.walks.any same then
    { s with walks := s.walks.map fun w => if same w then { w with reqs := w.reqs ++ [r] } else w }
  else { s with walks := s.walks ++ [{ slice := sliceOf r.va.toNat, die, reqs := [r] }] }

/-- The translation of a page leaves the slice of an address, which then walks again (R77). -/
def State.dropTlb (s : State) (die job va : Nat) : State :=
  let d := s.die die
  s.setDie die { d with tlb := d.tlb.filter fun x => !x.covers (sliceOf va) job va }

/-! ### Fault messages (R78) -/

def accCode : Acc → Nat
  | .read => 0 | .write => 1 | .atomic => 2 | .fetch => 3
def sourceCode : Source → Nat
  | .worker => 0 | .copy => 1 | .wain => 2 | .rope => 3 | .slice => 4 | .cp => 5

/-- The gleaner that a fault of a part goes to: (cluster number, gleaner 0 or 1) (R78). -/
def gleanerOf (src : Source) (l : Loc) : Nat × Nat :=
  match src with
  | .worker => (clusterId l.die l.cluster, l.core % 2)
  | .cp => (near, 1)
  | .copy => (near, 1)
  | .wain => (near, 1)
  | .rope => (near, 1)
  | .slice => (near, l.core % 2)
where
  /-- The issuer's own cluster; for a wain core, cluster 0 of the K-die whose slices it uses (log 15). -/
  near : Nat := if l.cluster < Config.clustersPerDie ∧ l.die < 6 then clusterId l.die l.cluster else clusterId (sliceDie l.die) 0

def Cluster.inbox (c : Cluster) (g : Nat) : List (List Word) := if g = 0 then c.gleaner0 else c.gleaner1
def Cluster.setInbox (c : Cluster) (g : Nat) (l : List (List Word)) : Cluster :=
  if g = 0 then { c with gleaner0 := l } else { c with gleaner1 := l }

/-- The four words of a translation-fault message (R78). -/
def faultMessage (f : Fault') (time : Word) : List Word :=
  [word (0x10 * 2 ^ 56 + f.cause.number * 2 ^ 48 + f.token % 65536 * 2 ^ 32 + f.job % 4096 * 2 ^ 20 + f.loc.die % 8 * 2 ^ 17 +
      f.loc.cluster % 32 * 2 ^ 12 + sourceCode f.src * 2 ^ 8 + (if f.src = .worker then f.loc.core % 8 * 2 ^ 5 + f.loc.slot % 8 * 4 else 0) +
      accCode f.acc),
   word (f.va.toNat % 2 ^ 56), f.entry, time]

/-- A token that no outstanding fault has, from a number on, by fuel (R78). -/
def freeToken (used : List Nat) : Nat → Nat → Nat
  | 0, n => n
  | f + 1, n => if used.contains n then freeToken used f (if n = 65535 then 1 else n + 1) else n

/-- A fault posted to its gleaner with a fresh token (log 12), and kept as outstanding; none while the inbox of 64 messages
is full, when the part waits for room (R78). -/
def State.post (s : State) (f : Fault') : Option State :=
  let (c, g) := gleanerOf f.src f.loc
  let k := s.cluster c
  if (k.inbox g).length ≥ 64 then none
  else
    let n := freeToken (s.faults.map fun x => x.token) (s.faults.length + 1) s.tokens
    let f := { f with token := n }
    some { (s.setCluster c (k.setInbox g (k.inbox g ++ [faultMessage f s.time]))) with
      faults := s.faults ++ [f]
      tokens := if n = 65535 then 1 else n + 1 }

/-- The token of the fault posted last, for the mailbox of its unit (R79). -/
def State.lastToken (s : State) : List Nat := (s.faults.getLast?.map fun f => f.token).toList

end Sys2Proof.Machine
end

