-- ==== Sys2Proof/Machine/Queues.lean ====
section
/-! DEFINITION. The queue registers (R193 to R196, R111, R112, R172): which elements a slot can pop, how an element is popped
word by word or whole, which space a push reserves, and self-deadlock (R195). -/

namespace Sys2Proof.Machine

/-- The units of the module that hold a slot: the acting one first. -/
def State.units (s : State) : List Unit := (s.cur :: s.others).filter fun u => u.placed

/-- The unit runs on a gleaner core: core numbers 8 and 9 of a cluster stand for gleaners 0 and 1 (log 7). -/
def Unit.gleaner (u : Unit) : Bool := decide (u.loc.core ≥ 8)

def Unit.clusterId (u : Unit) : Nat := Sys2Proof.Machine.clusterId u.loc.die u.loc.cluster
def Unit.coreId (u : Unit) : Nat := Sys2Proof.Machine.coreId u.loc
def State.curCluster (s : State) : Cluster := s.cluster s.cur.clusterId
def State.curCore (s : State) : Core := s.core s.cur.coreId
def State.setCurCluster (s : State) (c : Cluster) : State := s.setCluster s.cur.clusterId c
def State.setCurCore (s : State) (c : Core) : State := s.setCore s.cur.coreId c

/-- The units of the acting unit's core, itself included. -/
def State.coreUnits (s : State) : List Unit := s.units.filter fun u => u.coreId == s.cur.coreId

/-! ### Streams (R171, R184) -/

/-- The cluster that a bound stream names: its own, or on a wain core the one that SBIND names (R158). -/
def Unit.streamCluster (u : Unit) (out : Bool) : Nat :=
  if u.wain then
    let f := if out then bits u.sbind 47 40 else bits u.sbind 39 32
    Sys2Proof.Machine.clusterId (f / 32) (f % 32)
  else u.clusterId

/-- The bound input stream: its cluster, bank and stage; none where IE is 0 or the name is refused (R184). -/
def State.streamIn (s : State) (u : Unit) : Option (Nat × Nat × Nat) :=
  if u.sbind.getLsbD 15 then
    let c := u.streamCluster false
    ((s.cluster c).stage (bits u.sbind 11 0)).map fun (b, st) => (c, b, st)
  else none

/-- The bound output stream (R184). -/
def State.streamOut (s : State) (u : Unit) : Option (Nat × Nat × Nat) :=
  if u.sbind.getLsbD 31 then
    let c := u.streamCluster true
    ((s.cluster c).stage (bits u.sbind 27 16)).map fun (b, st) => (c, b, st)
  else none

/-- Key of a stage in a cluster's FIFO table. -/
def stageKey (bank stage : Nat) : Nat := bank * 256 + stage
def Cluster.fifo (c : Cluster) (key : Nat) : List Elem := (Sparse.find? c.fifos key).getD []
def Cluster.setFifo (c : Cluster) (key : Nat) (l : List Elem) : Cluster := { c with fifos := Sparse.put c.fifos key l }

/-- A stream as one number: cluster, bank and stage. -/
def streamNo (t : Nat × Nat × Nat) : Nat := t.1 * 4096 + stageKey t.2.1 t.2.2

def State.streamElems (s : State) (n : Nat) : List Elem := (s.cluster (n / 4096)).fifo (n % 4096)
def State.setStreamElems (s : State) (n : Nat) (l : List Elem) : State :=
  s.setCluster (n / 4096) ((s.cluster (n / 4096)).setFifo (n % 4096) l)

/-! ### What a slot can pop -/

/-- Entries of a shared queue that name a slot. -/
def ofSlot (slot : Nat) (l : List (Nat × Elem)) : List Elem := (l.filter fun e => e.1 == slot).map fun e => e.2

/-- The elements of q0, q3, q6, q7 or q10 that the acting slot could pop, oldest first (R193); those of q7 are of a stream. -/
def State.elemsAt (s : State) (q : QReg) (stream : Nat) : List Elem :=
  let u := s.cur
  if q = 0 then
    if u.gleaner then (s.curCluster.inbox (u.loc.core % 2)).map fun w => { bytes := bytesOfWords w }
    else ofSlot u.loc.slot s.curCore.q0
  else if q = 3 then ofSlot u.loc.slot s.curCore.q3
  else if q = 6 then u.q6
  else if q = 10 then u.q10
  else if q = 7 then s.streamElems stream
  else []

/-- The stream number of a pop of q7 as it issues, 0 for the other queues. -/
def State.popStream (s : State) (q : QReg) : Nat :=
  if q = 7 then
    match s.streamIn s.cur with
    | some t => streamNo t
    | none => 0
  else 0

/-- The elements that a pop issued now would find. -/
def State.elems (s : State) (q : QReg) : List Elem := s.elemsAt q (s.popStream q)

/-- The list without the first entry of a slot. -/
def dropSlot (slot : Nat) : List (Nat × Elem) → List (Nat × Elem)
  | [] => []
  | e :: r => if e.1 = slot then r else e :: dropSlot slot r

/-- The head element of a queue leaves the view of every popper (R194). -/
def State.dropHead (s : State) (q : QReg) (stream : Nat) : State :=
  let u := s.cur
  if q = 0 then
    if u.gleaner then
      let g := u.loc.core % 2
      s.setCurCluster (s.curCluster.setInbox g ((s.curCluster.inbox g).drop 1))
    else s.setCurCore { s.curCore with q0 := dropSlot u.loc.slot s.curCore.q0 }
  else if q = 3 then s.setCurCore { s.curCore with q3 := dropSlot u.loc.slot s.curCore.q3 }
  else if q = 6 then s.setCur { u with q6 := u.q6.drop 1 }
  else if q = 10 then s.setCur { u with q10 := u.q10.drop 1 }
  else if q = 7 then s.setStreamElems stream ((s.streamElems stream).drop 1)
  else s

/-- An element that a discarded task had popped returns to the head of its queue (R194); `stream` is its stream for q7. -/
def State.undoPop (s : State) (q : QReg) (stream : Nat) (e : Elem) : State :=
  let u := s.cur
  if q = 0 then
    if u.gleaner then
      let g := u.loc.core % 2
      s.setCurCluster (s.curCluster.setInbox g (wordsOf e.bytes :: s.curCluster.inbox g))
    else s.setCurCore { s.curCore with q0 := (u.loc.slot, e) :: s.curCore.q0 }
  else if q = 3 then s.setCurCore { s.curCore with q3 := (u.loc.slot, e) :: s.curCore.q3 }
  else if q = 6 then s.setCur { u with q6 := e :: u.q6 }
  else if q = 10 then s.setCur { u with q10 := e :: u.q10 }
  else if q = 7 then s.setStreamElems stream (e :: s.streamElems stream)
  else s

/-- The pending clears of a cluster's ways take effect: what the pop of word 0 waits for (R112, R154, R168). -/
def Cluster.applyClears (c : Cluster) : Cluster :=
  { c with
    clears := []
    lines := c.lines.map fun l => { l with words := l.words.filter fun w => !c.clears.contains (l.pline + 4 * w.1) } }

/-- Key of a partly popped element: q7 elements by stream, the others by queue number. -/
def partKey (q : QReg) (stream : Nat) : Nat := if q = 7 then 16 + stream else q.toNat

/-- What the slot would pop from next: the element it has partly popped, or the head of the queue taken whole. -/
def State.frontAt (s : State) (q : QReg) (st : Nat) : Option (Elem × State) :=
  let key := partKey q st
  match Sparse.find? s.cur.part key with
  | some e => some (e, s.setCur { s.cur with part := s.cur.part.filter fun x => x.1 != key })
  | none =>
    match s.elemsAt q st with
    | e :: _ =>
      let t := s.dropHead q st
      let t := t.setCurCluster t.curCluster.applyClears
      some (e, t.setCur { t.cur with task := { t.cur.task with popped := t.cur.task.popped ++ [(q, st, e)] } })
    | [] => none

/-- The same for a pop that issues now. -/
def State.front (s : State) (q : QReg) : Option (Elem × State) := s.frontAt q (s.popStream q)

/-- `qpop`: the next 8-byte word of the queue (R196, R111, R172). -/
def State.popWord (s : State) (q : QReg) (st : Nat) : Option (Word × State) :=
  match s.frontAt q st with
  | none => none
  | some (e, t) =>
    let x := word (ofBytes ((e.bytes.drop (8 * e.taken)).take 8))
    let e' := { e with taken := e.taken + 1 }
    let key := partKey q st
    some (x, if 8 * e'.taken < e.bytes.length then t.setCur { t.cur with part := t.cur.part ++ [(key, e')] } else t)

/-- `vqpop`: one whole element, or the remaining words of a partly popped one, each at its own place (R111, R172, R196). -/
def State.popWhole (s : State) (q : QReg) (st : Nat) : Option (VWord × State) :=
  match s.frontAt q st with
  | none => none
  | some (e, t) => some (BitVec.ofNat 1024 (ofBytes (e.bytes.drop (8 * e.taken)) * 2 ^ (64 * e.taken)), t)

/-- One pop of either form; a pop keeps the stream that it named (R184). -/
def State.popFor (s : State) (q : QReg) (vector : Bool) (st : Nat) : Option (VWord × State) :=
  if vector then s.popWhole q st else (s.popWord q st).map fun (x, t) => (sval x, t)

/-! ### Space -/

/-- Held words of a queue, in order, and for q8 of a stream. -/
def heldWords (q : QReg) (stream : Nat) : List Held → List Word
  | [] => []
  | .word k st x :: r => if k = q ∧ (k ≠ 8 ∨ st = stream) then x :: heldWords q stream r else heldWords q stream r
  | _ :: r => heldWords q stream r

/-- Held whole rows of a queue, and for q8 of a stream. -/
def heldRows (q : QReg) (stream : Nat) : List Held → Nat
  | [] => 0
  | .row k st _ :: r => (if k = q ∧ (k ≠ 8 ∨ st = stream) then 1 else 0) + heldRows q stream r
  | _ :: r => heldRows q stream r

def heldMatrix : List Held → Nat
  | [] => 0
  | .matrix _ :: r => 1 + heldMatrix r
  | _ :: r => heldMatrix r
def heldCopies : List Held → Nat
  | [] => 0
  | .copy _ :: r => 1 + heldCopies r
  | _ :: r => heldCopies r
/-- Held rope commands of the plain form, or of the inbox form. -/
def heldRopes (plain : Bool) : List Held → Nat
  | [] => 0
  | .rope c :: r => (if (c.form == .plain) = plain then 1 else 0) + heldRopes plain r
  | _ :: r => heldRopes plain r
/-- Held matrix commands that satisfy a test of their control word. -/
def heldMatrixIf (p : BitVec 14 → Bool) : List Held → Nat
  | [] => 0
  | .matrix c :: r => (if p c.cw then 1 else 0) + heldMatrixIf p r
  | _ :: r => heldMatrixIf p r

/-- Entries of a FIFO stage that a unit's task and partial entry hold or have begun (R172). -/
def State.stageHeld (s : State) (stream : Nat) (u : Unit) : Nat :=
  let esz := entrySize ((s.cluster (stream / 4096)).configOf (stream % 4096 / 256))
  let bytes := 8 * (heldWords 8 stream u.task.held).length + (if u.q8Stream = stream then u.q8.length else 0)
  heldRows 8 stream u.task.held + (bytes + esz - 1) / esz

/-- Elements of a queue, for q7 of a stream, that a unit's task has popped and could give back (R194). -/
def Unit.tentative (u : Unit) (q stream : Nat) : Nat := (u.task.popped.filter fun p => p.1.toNat == q && (q ≠ 7 || p.2.1 == stream)).length

/-- Free places of a FIFO stage: its capacity less what it holds, what pops could give back, what is reserved and what engines reserve
(R171, R194). -/
def State.stageFree (s : State) (stream : Nat) : Nat :=
  let c := s.cluster (stream / 4096)
  let cap := stageCapacity (c.configOf (stream % 4096 / 256))
  let held := (s.units.map fun u => s.stageHeld stream u).sum
  let popped := (s.units.map fun u => u.tentative 7 stream).sum
  cap - ((c.fifo (stream % 4096)).length + popped + held + Sparse.get 0 c.reserved (stream % 4096))

/-- Rows that units of the core hold for q2, and rows already there. -/
def State.q2Used (s : State) : Nat := s.curCore.q2.length + (s.coreUnits.map fun u => heldRows 2 0 u.task.held).sum
/-- Matrix commands that units of the core hold, and released ones that no array has taken (R286). -/
def State.q1Used (s : State) : Nat := (s.curCore.q1.filter fun c => !c.granted).length + (s.coreUnits.map fun u => heldMatrix u.task.held).sum

/-- Copy entries that are taken (R141). -/
def Unit.copyEntries (u : Unit) : Nat := u.copies.length + heldCopies u.task.held

/-- Result places of the slot that are taken (R115): held and released plain commands, and records not wholly popped. -/
def Unit.ropePlaces (u : Unit) : Nat :=
  heldRopes true u.task.held + u.outRopes + u.q6.length +
    (u.task.popped.filter fun p => p.1 == 6).length + (u.partStart.filter fun p => p.1 == 6).length

/-- Send elements that the slot holds or whose send waits at the egress (R193, R424). -/
def State.sendsHeld (s : State) (u : Unit) : Nat :=
  heldRows 9 0 u.task.held + ((heldWords 9 0 u.task.held).length + u.q9.length + 15) / 16 +
    ((s.die u.loc.die).egress.filter fun e => e.2.loc == u.loc).length

/-! ### Self-deadlock (R195) -/

/-- A held item would produce an element for q0, q3 or q6; of the words of q9 only a send of 16 does (R424). -/
def Unit.heldProducer (u : Unit) (q : QReg) : Bool :=
  let h := u.task.held
  if q = 0 then
    decide (heldCopies h > 0) || decide (heldRopes false h > 0) || decide (heldMatrixIf (fun w => w.getLsbD 7) h > 0) ||
      decide (heldRows 9 0 h + ((heldWords 9 0 h).length + u.q9.length) / 16 > 0)
  else if q = 3 then decide (heldMatrixIf (fun w => w.getLsbD 6) h > 0)
  else if q = 6 then decide (heldRopes true h > 0)
  else false

/-- A producer of the slot's queue remains outside its task: a released command whose element is still to come. -/
def Unit.releasedProducer (u : Unit) (q : QReg) : Bool :=
  if q = 0 then decide (u.outCopies + u.outRopesI + u.outMatsC + u.outSends > 0)
  else if q = 3 then decide (u.outMatsOut > 0)
  else if q = 6 then decide (u.outRopes > 0)
  else false

/-- A blocking pop on an empty queue that only the unit's own task could fill (R195). -/
def Unit.popDeadlock (u : Unit) (q : QReg) : Bool := u.heldProducer q && !u.releasedProducer q

end Sys2Proof.Machine
end

