-- ==== Sys2Proof/Machine/Ops.lean ====
section
/-! DEFINITION. The shared operations of the meanings: moving past an instruction (R33 to R37, R278), waiting a turn (R186),
register windows (R189), completing lookahead instructions (R41 to R43), discarding a task (R230), TAKING AN EXCEPTION (R397)
and returning from one (R401), and the checks that every instruction makes when it issues (R46, R394). -/

namespace Sys2Proof.Machine

/-- What a meaning answers. -/
abbrev Out := Host.Outcome State Fault Refusal

/-! ### Moving on -/

/-- The bundle of a `split` has ended: the unit has left its gang (R223). -/
def Unit.leaveGang (u : Unit) : Unit := if u.splitAt = some u.pc then { u with gang := 1, splitAt := none } else u

/-- The position of the next bundle; the last body bundle of a running loop leads back to the first, or past the body when
the last iteration has ended (R278). -/
def Unit.nextBundle (u : Unit) : Unit :=
  let u := u.leaveGang
  let q := u.seq
  if q.active && !q.held && u.pc == q.start + word (8 * (q.len - 1)) then
    if q.idx + 1 < q.trips then
      { u with pc := q.start, npc := q.start + 8, aslot := false, fetched := none, seq := { q with idx := q.idx + 1 } }
    else
      let t := q.start + word (8 * q.len)
      { u with pc := t, npc := t + 8, aslot := false, fetched := none, seq := {} }
  else { u with pc := u.npc, npc := u.npc + 8, aslot := false, fetched := none }

/-- Past a C-slot instruction: to the A-slot of its bundle, or to the next bundle where it issued alone (R37). -/
def Unit.pastC (u : Unit) (lone : Bool) : Unit :=
  if lone then { u.nextBundle with turn := .ran, atc := false } else { u with aslot := true, turn := .ran, atc := false }

/-- Past an A-slot instruction: to the next bundle. -/
def Unit.pastA (u : Unit) : Unit := { u.nextBundle with turn := .ran }

/-- The C-slot instruction is done. -/
def State.doneC (s : State) (lone : Bool := false) : Out := .next (s.modCur fun u => u.pastC lone)
/-- The A-slot instruction is done. -/
def State.doneA (s : State) : Out := .next (s.modCur Unit.pastA)

/-- The next state changed. -/
def onNext (o : Out) (f : State → State) : Out :=
  match o with
  | .next s => .next (f s)
  | .fault r => .fault r
  | .refused r => .refused r

/-- The windows of the incomplete instructions numbered below `ids` cover one bundle less (R41). -/
def Unit.age (ids : Nat) (u : Unit) : Unit :=
  { u with pend := u.pend.map fun p => if p.id < ids then { p with left := p.left - 1 } else p }

/-- A bundle of the acting unit has issued, if it has (R41). -/
def State.aged (ids : Nat) (t : State) : State := if t.cur.turn == .ran then t.modCur (Unit.age ids) else t

/-- The instruction of either slot is done (R48). -/
def State.doneHere (s : State) : Out := if s.cur.aslot then s.doneA else s.doneC

/-- The turn goes unused: the same instruction issues again on a later turn (R186). -/
def State.waitTurn (s : State) : State := s.modCur fun u => { u with turn := .waited }
def State.wait (s : State) : Out := .next s.waitTurn

/-- The bundle address with the slot bit: what EPC and FADDR hold for a precise trap (R36, R51). -/
def Unit.here (u : Unit) : Word := if u.aslot then u.pc ||| 1 else u.pc

/-- A restart point (R36): address and slot bit. -/
def Unit.goto (u : Unit) (pc : Word) (a : Bool) : Unit :=
  { u with pc := pc, npc := pc + 8, aslot := a, fetched := none, atc := false, raising := none }

/-- The commit of a return is due: its bundle has ended, and the unit stands in the window that it returned to (R218). -/
def Unit.retDue (u : Unit) : Bool := u.retCommit && !u.aslot && decide (u.depth < u.task.startDepth)

/-! ### Windows (R189) -/

/-- A list of 16 words as a window. -/
def vec16 (l : List Word) : Vector Word 16 := Vector.ofFn fun i => l.getD i.val 0

/-- Stack address of the window of depth `idx`, once it has been spilled (R162, R189). -/
def Unit.stackPlace (u : Unit) (idx : Nat) : Nat := u.loftAddr u.lsb + 16384 - 128 * idx

/-- The physical scalar register with number `n` (R188): global, of a window that the unit has left, of the current window, of a
resident one, or of its spilled copy. -/
def State.phys (s : State) (n : Nat) : Word :=
  let u := s.cur
  if n < 8 then u.regs.toList.getD n 0
  else
    match Sparse.find? u.left (n / 16 - 1) with
    | some w => w.toList.getD (n % 16) 0
    | none =>
      if 16 * u.depth + 8 ≤ n then u.regs.toList.getD (n - 16 * u.depth) 0
      else
        match u.saved[u.depth - 1 - (n - 8) / 16]? with
        | some w => w.toList.getD ((n - 8) % 16) 0
        | none => word (ofBytes (s.bytes (u.stackPlace ((n - 8) / 16) + 8 * ((n - 8) % 16)) 8))

/-- s8 to s23 of the window of depth `idx`. -/
def State.windowAt (s : State) (idx : Nat) : Vector Word 16 := Vector.ofFn fun i => s.phys (16 * idx + 8 + i.val)

/-- The oldest resident window is written to WSP − 128; none where WSP would fall below LSB + 8192 (R162, R189). -/
def State.spillOldest (s : State) : Option State :=
  let u := s.cur
  if u.wsp.toNat < u.lsb.toNat + 8192 + 128 then none
  else
    match u.saved.getLast? with
    | none => none
    | some w =>
      let t := s.setBytes (u.loftAddr (u.wsp - 128)) (bytesOfWords w.toList)
      some (t.setCur { u with wsp := u.wsp - 128, saved := u.saved.dropLast })

/-- The window below the current one is read back at WSP (R189). -/
def State.fillWindow (s : State) : State :=
  let u := s.cur
  s.setCur { u with saved := [vec16 (wordsOf (s.bytes (u.loftAddr u.wsp) 128))], wsp := u.wsp + 128 }

/-- The keys of the registers that a spill of the oldest resident window stores (R41). -/
def Unit.oldestKeys (u : Unit) : List RegKey :=
  (upTo 16).map fun i => .s (16 * (u.depth - u.saved.length) + 8 + i)

/-- The window slid by 16 for a call or a trap, with fresh undefined registers (R188). -/
def State.slide (s : State) : State :=
  { s with cur := s.cur.slideIn s.draws, draws := s.draws + slideDraws }

/-! ### Completing lookahead instructions (R41 to R43) -/

def Pend.ready (p : Pend) : Bool := p.values.isSome || p.failed.isSome

/-- An access that R346 keeps in program order among its like. -/
def Act.ordered : Act → Bool
  | .load _ _ _ _ _ _ => false
  | .pop _ _ _ => false
  | .qwait _ _ => false
  | .wcwait _ => false
  | .atomic _ _ _ _ _ => true
  | .sc _ _ _ _ _ _ _ => true
  | .rope _ => true
  | .record => true
  | .far _ _ => true
  | .answer => true

/-- A complete instruction writes its pending destinations; one that failed writes none and owes a late trap (R42). -/
def Unit.complete (u : Unit) (p : Pend) : Unit :=
  match p.failed with
  | some t => { u with owed := u.owed ++ [{ t with beyond := Act.ordered p.act }] }
  | none => (if p.dz then u.raiseFlags { dz := true } else u).setKeys p.dests (p.values.getD [])

/-- Every instruction that is ready completes, in issue order. -/
def Unit.completeReady (u : Unit) : Unit :=
  { u.pend.foldl (fun v p => if p.ready then v.complete p else v) u with pend := u.pend.filter fun p => !p.ready }

def Unit.allReady (u : Unit) : Bool := u.pend.all Pend.ready

/-- Tile moves of a slot that have not been performed (R296). -/
def State.tileMoves (s : State) : List TileMove :=
  let u := s.cur
  (s.curCore.tileQ.flatMap fun e => e.2).filterMap fun o =>
    match o with
    | .move m => if m.loc == u.loc then some m else none
    | .cmd _ => none

/-- The registers that an instruction may not touch: destinations of open windows and of outstanding `tget`s (R41, R297). -/
def State.touches (s : State) (ks : List RegKey) : Bool :=
  s.cur.touches ks || s.tileMoves.any fun m => m.get && ks.contains (.v m.vreg.toNat)

/-- Nothing of the slot is incomplete that a trap entry must wait for (R43, R297). -/
def State.settled (s : State) : Bool := s.cur.allReady && s.tileMoves.isEmpty

/-! ### Tasks: beginning and discarding (R201, R224, R230) -/

/-- The unit with a new task, which restarts at `pc`, `a` (R224). -/
def Unit.beginTask (u : Unit) (ts : BitVec 32) (mask : Word) (pc : Word) (a : Bool) : Unit :=
  { u with
    task := { tstamp := ts, mask, restartPc := pc, restartA := a, startDepth := u.depth, startWsp := u.wsp, flags := tsrSaved u.tsr }
    partStart := u.part
    left := []
    marked := false
    commit := none
    visible := false
    prepared := none
    atc := false }

/-- The windows of a unit as they stood when its task began (R230): those made deeper are dropped, the current one is that of
the start depth, and the resident ones those between the spilled ones of the start and it. -/
def State.rewind (s : State) : Unit :=
  let u := s.cur
  let d := u.task.startDepth
  let kept := (u.lsb.toNat + 16384 - u.task.startWsp.toNat) / 128
  { u with
    saved := (upTo (d - 1 - kept)).map fun j => s.windowAt (d - 1 - j)
    depth := d
    wsp := u.task.startWsp
    regs := Vector.ofFn fun i => if i.val < 8 then u.regs[i] else s.phys (16 * d + i.val) }

/-- The token of non-speculative runs is held by the acting unit (R328). -/
def State.holdsToken (s : State) : Bool := s.token == some s.cur.loc

/-- The current task is discarded (R230): its held items are dropped, its pops return to the heads of their queues, TSR[8:1],
DEPTH and WSP are restored, PP is cleared, its faults are withdrawn (R79) and the sequencer is idle (R278). The unit does not
resume yet. A late trap that ends an access beyond a commit stays owed (R324). A load, pop or wait still incomplete is dropped with
its task; an access whose commit has ended keeps its destinations, and the unit waits for it before its next bundle (log 9). -/
def State.discard (s : State) : State :=
  let s := s.setCur s.cur.completeReady
  let t := s.cur.task.popped.reverse.foldl (fun (t : State) (p : QReg × Nat × Elem) => t.undoPop p.1 p.2.1 p.2.2) s
  let u := t.rewind
  let far := u.task.locked.filter fun w => !t.isLocal w
  let t := far.foldl (fun t w => t.send .unlock u.loc.die (moduleOf w) (localOf w) 0 []) t
  let mine (l : Loc) (typ : PktType) : Bool := l == u.loc && (typ == .read || typ == .lock)
  let t := (t.dropAsked fun r => mine r.loc r.typ && r.fill.isNone).withdrawHoles fun h => mine h.loc h.typ
  { t with
    faults := t.faults.filter fun f => !((f.src == .worker || f.src == .wain) && f.loc == u.loc)
    locks := t.locks.filter fun w => !u.task.locked.contains w
    token := if t.holdsToken then none else t.token
    cur := { u with
      part := u.partStart
      mail := []
      pend := (u.pend.filter fun p => Act.ordered p.act).map fun p => { p with left := 0 }
      commit := none
      visible := false
      prepared := none
      retCommit := false
      left := []
      wait := .run
      seq := {}
      marked := false
      splitAt := none
      raising := none
      owed := u.owed.filter fun t => t.beyond
      tsr := tsrRestore u.tsr u.task.flags
      task := { u.task with
        ops := [], held := [], popped := [], rsig := 0, wsig := 0, words := [], locked := [], nonspec := false } } }

/-- The discarded task resumes at its restart point (R230). -/
def State.restart (s : State) : State := s.modCur fun u => { u.goto u.task.restartPc u.task.restartA with turn := .ran }

/-! ### Taking an exception (R393 to R399) -/

/-- Code of a trap (R394). -/
def Trap.code : Trap → Nat
  | .illegalEncoding => 1 | .privilege => 2 | .danglingPrefix => 3 | .illegalOperand => 4 | .lookaheadViolation => 5
  | .addressRange => 6 | .misaligned => 7 | .loftAccess => 8 | .liveIn => 9 | .schedule => 10 | .selfDeadlock => 11
  | .windowOverflow => 12 | .windowUnderflow => 13 | .capacity => 14 | .hostAtomic => 15 | .memoryFault => 16
  | .matrixData => 17 | .syscall => 18 | .brk => 19 | .gang => 20

/-- A trap whose FADDR is the bundle (R394). -/
def State.bundleTrap (s : State) (t : Trap) : TrapInfo := { trap := t, faddr := s.cur.here }
/-- A trap whose FADDR is an address (R394). -/
def addressTrap (t : Trap) (ea : Word) : TrapInfo := { trap := t, faddr := ea }
/-- HOST_ATOMIC at an address (R355). -/
def hostTrap (ea : Word) : TrapInfo := addressTrap .hostAtomic ea

/-- CAUSE at a trap entry (R393). -/
def causeWord (tsr : Word) (t : TrapInfo) : Word :=
  word (tsrPl tsr * 2 ^ 62 + t.td.toNat * 2 ^ 61 + t.late.toNat * 2 ^ 60 + (tsrPp tsr).toNat * 2 ^ 59 + t.sub.toNat * 2 ^ 48 +
    t.mem.toNat * 2 ^ 40 + t.trap.code)

/-- The precise or deferred trap `t` is entered (R397): incomplete instructions have completed, the task is discarded where
the rule says so, EPC (R395), FADDR, CAUSE and LPC are written, PP is cleared, the mode becomes supervisor, the window slides,
and the unit continues at TVEC. Where the slide needs a spill below LSB + 8192 the unit retires with code 0xFFFE instead. -/
def State.enterTrap (s : State) (t : TrapInfo) : State :=
  let here := if t.late ∨ t.trap = .illegalEncoding ∨ (t.trap = .matrixData ∧ !t.td) then s.cur.pc
    else if s.cur.retDue then s.cur.retPc
    else if t.trap = .syscall ∨ t.trap = .brk then s.cur.pc ||| 1 else s.cur.here
  let s := if t.td then s.discard else s.setCur s.cur.completeReady
  let tsr := s.cur.tsr
  let room := if s.cur.saved.length + 1 < Config.residentWindows then some s else s.spillOldest
  match room with
  | none => let s := s.discard; s.modCur fun u => { u with wait := .retire 0xFFFE true, turn := .trapped t }
  | some s =>
    let s := s.slide
    s.modCur fun u =>
      { u.goto s.tvec false with
        epc := here
        faddr := t.faddr
        cause := causeWord tsr t
        lpc := if t.late then t.lpc else u.lpc
        tsr := tsrSetPl (tsrSetPp u.tsr false) 1
        seq := { u.seq with held := u.seq.active }
        turn := .trapped t }

/-- A trap raised by an instruction: the entry waits until every incomplete instruction and tile move of the slot has
completed, and the trap stands meanwhile (R43, R297). -/
def State.raise (s : State) (t : TrapInfo) : Out :=
  if s.settled then .next (s.enterTrap t) else (s.modCur fun u => { u with raising := some t }).wait

/-- SELF_DEADLOCK of a wait for tile moves that only the unit's own task could let go on (R297): the entry does not wait for those
moves, which stay outstanding (log 53). -/
def State.raiseStuck (s : State) : Out :=
  if s.cur.allReady then .next (s.enterTrap (s.bundleTrap .selfDeadlock)) else s.wait

/-- The return of R401 once the window below is resident: the window slides back, PL and PP come from CAUSE, and the unit goes
to the restart point (TD), to the A-slot at EPC (EPC[0]), or to the bundle at EPC. -/
def State.leaveTrap (s : State) : State :=
  let u := s.cur
  match u.saved with
  | [] => s
  | w :: older =>
    let v := u.slideBack w older
    let tsr := tsrSetPp (tsrSetPl u.tsr (bits u.cause 63 62)) (u.cause.getLsbD 59)
    let at' := word (u.epc.toNat / 8 * 8)
    let x := if u.cause.getLsbD 61 then v.goto u.task.restartPc u.task.restartA else v.goto at' (u.epc.getLsbD 0)
    let q := u.seq
    let inBody := decide (q.start ≤ x.pc) && decide (x.pc.toNat < q.start.toNat + 8 * q.len)
    let seq : Seq := if q.held then (if inBody then { q with held := false } else {}) else q
    let back := decide (v.nonspecBack = some v.depth)
    s.setCur { x with tsr := tsr, seq := seq, turn := .ran, wait := if back then .nonspec else x.wait,
                      nonspecBack := if back then none else x.nonspecBack }

/-! ### The checks at issue -/

/-- A field of the pending prefix: none where no prefix is pending or the field is 31 (R46). -/
def Unit.fmtField (u : Unit) (lo : Nat) : FmtId :=
  if tsrPp u.tsr then (FmtId.ofBits (BitVec.ofNat 5 (bits u.pfx (lo + 4) lo))).getD none else none
def Unit.fa (u : Unit) : FmtId := u.fmtField 0
def Unit.fb (u : Unit) : FmtId := u.fmtField 5
def Unit.fc (u : Unit) : FmtId := u.fmtField 10

/-- What an instruction asks of the checks at issue. -/
structure Need where
  /-- Supervisor privilege (code 2). -/
  sup : Bool := false
  /-- The instruction takes formats; a prefix reaching one that does not is dangling (code 3). -/
  fmts : Bool := false
  /-- The operands are legal (code 4). -/
  ok : Bool := true
  /-- The registers it reads or writes (code 5). -/
  touch : List RegKey := []
  /-- The checks of its address, in order (codes 6 to 8). -/
  addr : List (Option TrapInfo) := []
  /-- A destination is named in the live-in mask (code 9). -/
  live : Bool := false

/-- The trap that an instruction raises when it issues, if any: where its entry leaves the order open the lower code is
raised (R394). -/
def State.trapOf (s : State) (n : Need) : Option TrapInfo :=
  if n.sup && !tsrSup s.cur.tsr then some (s.bundleTrap .privilege)
  else if tsrPp s.cur.tsr && !n.fmts then some (s.bundleTrap .danglingPrefix)
  else if !n.ok then some (s.bundleTrap .illegalOperand)
  else if s.touches n.touch then some (s.bundleTrap .lookaheadViolation)
  else
    match n.addr.findSome? id with
    | some t => some t
    | none => if n.live then some (s.bundleTrap .liveIn) else none

/-- The consumer has taken the prefix (R46). -/
def State.consume (s : State) : State := s.modCur fun u => { u with tsr := tsrSetPp u.tsr false }

/-- An instruction issues: the trap of its checks, or its effect with the prefix consumed. -/
def State.issue (s : State) (n : Need) (k : State → Out) : Out :=
  match s.trapOf n with
  | some t => s.raise t
  | none => k s.consume

/-- A word that raises ILLEGAL_ENCODING (R35, R51). -/
def State.illegalWord (s : State) : Out := s.raise (s.bundleTrap .illegalEncoding)

/-- A word that raises ILLEGAL_OPERAND by its encoding (R51); a prefix that reaches it is dangling first unless its opcode
takes formats. -/
def State.illegalOperandWord (s : State) (fmts : Bool) : Out := s.issue { fmts, ok := false } fun t => t.wait

/-- A pending destination is opened: the values are known, or are still to come as `act` says (R41). With a lookahead of 0
and known values the destinations are written at once; without, the unit waits before its next slot. -/
def State.openWindow (s : State) (la : BitVec 4) (dests : List RegKey) (values : Option (List VWord)) (act : Act)
    (dz : Bool := false) : State :=
  match values with
  | some xs =>
    if la = 0 then s.setCur ((if dz then s.cur.raiseFlags { dz := true } else s.cur).setKeys dests xs)
    else
      { s with
        ids := s.ids + 1
        cur := { s.cur with pend := s.cur.pend ++
          [{ id := s.ids, dests, values := some xs, act, left := la.toNat, hold := false, pc := s.cur.pc, dz }] } }
  | none =>
    { s with
      ids := s.ids + 1
      cur := { s.cur with pend := s.cur.pend ++
        [{ id := s.ids, dests, values := none, act, left := la.toNat, hold := la == 0, pc := s.cur.pc }] } }

end Sys2Proof.Machine
end

