-- ==== Sys2Proof/Machine/Alu.lean ====
section
/-! DEFINITION. The scalar instructions of the A-slot (R203 to R210). -/

namespace Sys2Proof.Machine

/-! ### Shared forms (R40, R203) -/

/-- An AR instruction under its guard: where the guard is false only the prefix check is made (R40). -/
def State.guarded (s : State) (p : PReg) (n : Need) (k : State → Out) : Out :=
  if s.cur.getP p then s.issue n k else s.issue {} State.doneA

/-- A write of a scalar register by an A-slot instruction that reads `srcs`. -/
def State.writeS (s : State) (p : PReg) (d : SReg) (srcs : List SReg) (x : Word) : Out :=
  s.guarded p { touch := (d :: srcs).map s.cur.keyS, live := s.cur.namedS d } fun t => (t.modCur fun u => u.setS d x).doneA

/-- A write of a predicate by an A-slot instruction that reads `srcs`. -/
def State.writeP (s : State) (p : PReg) (d : PReg) (srcs : List SReg) (x : Bool) : Out :=
  s.guarded p { touch := srcs.map s.cur.keyS, live := s.cur.namedP d } fun t => (t.modCur fun u => u.setP d x).doneA

/-- `op sd, sa, sb`. -/
def State.alu2 (s : State) (f : Word → Word → Word) (d a b : SReg) (p : PReg) : Out :=
  s.writeS p d [a, b] (f (s.cur.getS a) (s.cur.getS b))
/-- `op sd, sa`. -/
def State.alu1 (s : State) (f : Word → Word) (d a : SReg) (p : PReg) : Out := s.writeS p d [a] (f (s.cur.getS a))
/-- `op sd, sa, imm`: AI forms have no guard (R39). -/
def State.aluI (s : State) (f : Word → Word) (d a : SReg) : Out := s.writeS 0 d [a] (f (s.cur.getS a))

/-- A function on bits [31:0] whose 32-bit result is sign-extended (R203). -/
def onLow (f : Word32 → Word32 → Word32) (x y : Word) : Word := (f (x.truncate 32) (y.truncate 32)).signExtend 64

/-- The signed sum or difference clamped to 64 bits (R204). -/
def clampS (i : Int) : Word := wordI (clamp (-(2 ^ 63)) (2 ^ 63 - 1) i)

/-- The compare codes of R209. -/
def compare (c : Cc) (x y : Word) : Bool :=
  match c with
  | .eq => x == y
  | .ne => x != y
  | .lt => x.slt y
  | .ge => !x.slt y
  | .ltu => x.ult y
  | .geu => !x.ult y

/-- The immediate of a compare: signed for codes 0 to 3, unsigned for `ltu` and `geu` (R209). -/
def compareImm (c : Cc) (i : BitVec 13) : Word :=
  match c with
  | .eq => i.signExtend 64
  | .ne => i.signExtend 64
  | .lt => i.signExtend 64
  | .ge => i.signExtend 64
  | .ltu => i.zeroExtend 64
  | .geu => i.zeroExtend 64

/-- Count of a shift, s[b][5:0], or s[b][4:0] for the w forms (R206). -/
def count (y : Word) : Nat := bits y 5 0
def countW (y : Word32) : Nat := bits y 4 0

/-- A single bit at s[b][5:0] (R208). -/
def bitAt (y : Word) : Word := 1 <<< count y

/-- Bytes of a word in reverse order (R208). -/
def byteSwap (x : Word) : Word := word (ofBytes (bytesOf 8 x.toNat).reverse)

/-! ### Integer arithmetic and logic (R204) -/

/-- `add` (R204). -/
def execAdd (d a b : SReg) (p : PReg) (s : State) : Out := s.alu2 (fun x y => x + y) d a b p
/-- `sub` (R204). -/
def execSub (d a b : SReg) (p : PReg) (s : State) : Out := s.alu2 (fun x y => x - y) d a b p
/-- `addw` (R204). -/
def execAddw (d a b : SReg) (p : PReg) (s : State) : Out := s.alu2 (fun x y => onLow (· + ·) x y) d a b p
/-- `subw` (R204). -/
def execSubw (d a b : SReg) (p : PReg) (s : State) : Out := s.alu2 (fun x y => onLow (· - ·) x y) d a b p
/-- `adds` (R204). -/
def execAdds (d a b : SReg) (p : PReg) (s : State) : Out := s.alu2 (fun x y => clampS (x.toInt + y.toInt)) d a b p
/-- `subs` (R204). -/
def execSubs (d a b : SReg) (p : PReg) (s : State) : Out := s.alu2 (fun x y => clampS (x.toInt - y.toInt)) d a b p
/-- `addus` (R204). -/
def execAddus (d a b : SReg) (p : PReg) (s : State) : Out := s.alu2 (fun x y => word (min (2 ^ 64 - 1) (x.toNat + y.toNat))) d a b p
/-- `subus` (R204). -/
def execSubus (d a b : SReg) (p : PReg) (s : State) : Out := s.alu2 (fun x y => word (x.toNat - y.toNat)) d a b p
/-- `and` (R204). -/
def execAnd (d a b : SReg) (p : PReg) (s : State) : Out := s.alu2 (fun x y => x &&& y) d a b p
/-- `or` (R204). -/
def execOr (d a b : SReg) (p : PReg) (s : State) : Out := s.alu2 (fun x y => x ||| y) d a b p
/-- `xor` (R204). -/
def execXor (d a b : SReg) (p : PReg) (s : State) : Out := s.alu2 (fun x y => x ^^^ y) d a b p
/-- `andn` (R204). -/
def execAndn (d a b : SReg) (p : PReg) (s : State) : Out := s.alu2 (fun x y => x &&& ~~~y) d a b p
/-- `orn` (R204). -/
def execOrn (d a b : SReg) (p : PReg) (s : State) : Out := s.alu2 (fun x y => x ||| ~~~y) d a b p
/-- `xnor` (R204). -/
def execXnor (d a b : SReg) (p : PReg) (s : State) : Out := s.alu2 (fun x y => ~~~(x ^^^ y)) d a b p
/-- `min` (R204). -/
def execMin (d a b : SReg) (p : PReg) (s : State) : Out := s.alu2 (fun x y => if y.slt x then y else x) d a b p
/-- `max` (R204). -/
def execMax (d a b : SReg) (p : PReg) (s : State) : Out := s.alu2 (fun x y => if x.slt y then y else x) d a b p
/-- `minu` (R204). -/
def execMinu (d a b : SReg) (p : PReg) (s : State) : Out := s.alu2 (fun x y => if y.ult x then y else x) d a b p
/-- `maxu` (R204). -/
def execMaxu (d a b : SReg) (p : PReg) (s : State) : Out := s.alu2 (fun x y => if x.ult y then y else x) d a b p
/-- `abs` (R204): −2^63 gives −2^63. -/
def execAbs (d a : SReg) (p : PReg) (s : State) : Out := s.alu1 (fun x => if x.msb then -x else x) d a p
/-! ### Shifts (R206) -/

/-- `sll` by register (R206). -/
def execSll (d a b : SReg) (p : PReg) (s : State) : Out := s.alu2 (fun x y => x <<< count y) d a b p
/-- `srl` by register (R206). -/
def execSrl (d a b : SReg) (p : PReg) (s : State) : Out := s.alu2 (fun x y => x >>> count y) d a b p
/-- `sra` by register (R206). -/
def execSra (d a b : SReg) (p : PReg) (s : State) : Out := s.alu2 (fun x y => x.sshiftRight (count y)) d a b p
/-- `rol` by register (R206). -/
def execRol (d a b : SReg) (p : PReg) (s : State) : Out := s.alu2 (fun x y => x.rotateLeft (count y)) d a b p
/-- `ror` by register (R206). -/
def execRor (d a b : SReg) (p : PReg) (s : State) : Out := s.alu2 (fun x y => x.rotateRight (count y)) d a b p
/-- `sllw` by register (R206). -/
def execSllw (d a b : SReg) (p : PReg) (s : State) : Out := s.alu2 (fun x y => onLow (fun a b => a <<< countW b) x y) d a b p
/-- `srlw` by register (R206). -/
def execSrlw (d a b : SReg) (p : PReg) (s : State) : Out := s.alu2 (fun x y => onLow (fun a b => a >>> countW b) x y) d a b p
/-- `sraw` by register (R206). -/
def execSraw (d a b : SReg) (p : PReg) (s : State) : Out := s.alu2 (fun x y => onLow (fun a b => a.sshiftRight (countW b)) x y) d a b p
/-- `sll` by immediate (R206). -/
def execSllImm (d a : SReg) (n : BitVec 6) (s : State) : Out := s.aluI (fun x => x <<< n.toNat) d a
/-- `srl` by immediate (R206). -/
def execSrlImm (d a : SReg) (n : BitVec 6) (s : State) : Out := s.aluI (fun x => x >>> n.toNat) d a
/-- `sra` by immediate (R206). -/
def execSraImm (d a : SReg) (n : BitVec 6) (s : State) : Out := s.aluI (fun x => x.sshiftRight n.toNat) d a
/-- `rol` by immediate (R206). -/
def execRolImm (d a : SReg) (n : BitVec 6) (s : State) : Out := s.aluI (fun x => x.rotateLeft n.toNat) d a
/-- `ror` by immediate (R206). -/
def execRorImm (d a : SReg) (n : BitVec 6) (s : State) : Out := s.aluI (fun x => x.rotateRight n.toNat) d a
/-- `sllw` by immediate (R206). -/
def execSllwImm (d a : SReg) (n : BitVec 5) (s : State) : Out := s.aluI (fun x => onLow (fun a _ => a <<< n.toNat) x 0) d a
/-- `srlw` by immediate (R206). -/
def execSrlwImm (d a : SReg) (n : BitVec 5) (s : State) : Out := s.aluI (fun x => onLow (fun a _ => a >>> n.toNat) x 0) d a
/-- `sraw` by immediate (R206). -/
def execSrawImm (d a : SReg) (n : BitVec 5) (s : State) : Out := s.aluI (fun x => onLow (fun a _ => a.sshiftRight n.toNat) x 0) d a
/-! ### Multiplies (R207) -/

/-- `mul` (R207). -/
def execMul (d a b : SReg) (p : PReg) (s : State) : Out := s.alu2 (fun x y => x * y) d a b p
/-- `mulh` (R207). -/
def execMulh (d a b : SReg) (p : PReg) (s : State) : Out := s.alu2 (fun x y => wordI (x.toInt * y.toInt / 2 ^ 64)) d a b p
/-- `mulhu` (R207). -/
def execMulhu (d a b : SReg) (p : PReg) (s : State) : Out := s.alu2 (fun x y => word (x.toNat * y.toNat / 2 ^ 64)) d a b p
/-- `mulhsu` (R207). -/
def execMulhsu (d a b : SReg) (p : PReg) (s : State) : Out := s.alu2 (fun x y => wordI (x.toInt * (y.toNat : Int) / 2 ^ 64)) d a b p
/-- `mulw` (R207). -/
def execMulw (d a b : SReg) (p : PReg) (s : State) : Out := s.alu2 (fun x y => onLow (· * ·) x y) d a b p
/-! ### Bit operations (R208) -/

/-- `clz` (R208). -/
def execClz (d a : SReg) (p : PReg) (s : State) : Out := s.alu1 (fun x => word (leadingZeros 64 x.toNat)) d a p
/-- `ctz` (R208). -/
def execCtz (d a : SReg) (p : PReg) (s : State) : Out := s.alu1 (fun x => word (trailingZeros 64 x.toNat)) d a p
/-- `popc` (R208). -/
def execPopc (d a : SReg) (p : PReg) (s : State) : Out := s.alu1 (fun x => word (popCount 64 x.toNat)) d a p
/-- `brev` (R208). -/
def execBrev (d a : SReg) (p : PReg) (s : State) : Out := s.alu1 (fun x => word (reverseBits 64 x.toNat)) d a p
/-- `bswap` (R208). -/
def execBswap (d a : SReg) (p : PReg) (s : State) : Out := s.alu1 (fun x => byteSwap x) d a p
/-- `sext.b` (R208). -/
def execSextB (d a : SReg) (p : PReg) (s : State) : Out := s.alu1 (fun x => sext x 8) d a p
/-- `sext.h` (R208). -/
def execSextH (d a : SReg) (p : PReg) (s : State) : Out := s.alu1 (fun x => sext x 16) d a p
/-- `sext.w` (R208). -/
def execSextW (d a : SReg) (p : PReg) (s : State) : Out := s.alu1 (fun x => sext x 32) d a p
/-- `zext.b` (R208). -/
def execZextB (d a : SReg) (p : PReg) (s : State) : Out := s.alu1 (fun x => zext x 8) d a p
/-- `zext.h` (R208). -/
def execZextH (d a : SReg) (p : PReg) (s : State) : Out := s.alu1 (fun x => zext x 16) d a p
/-- `zext.w` (R208). -/
def execZextW (d a : SReg) (p : PReg) (s : State) : Out := s.alu1 (fun x => zext x 32) d a p
/-- `bclr` (R208). -/
def execBclr (d a b : SReg) (p : PReg) (s : State) : Out := s.alu2 (fun x y => x &&& ~~~bitAt y) d a b p
/-- `bset` (R208). -/
def execBset (d a b : SReg) (p : PReg) (s : State) : Out := s.alu2 (fun x y => x ||| bitAt y) d a b p
/-- `binv` (R208). -/
def execBinv (d a b : SReg) (p : PReg) (s : State) : Out := s.alu2 (fun x y => x ^^^ bitAt y) d a b p
/-- `bext` (R208). -/
def execBext (d a b : SReg) (p : PReg) (s : State) : Out := s.alu2 (fun x y => (x >>> count y) &&& 1) d a b p
/-! ### Compares and predicates (R209, R210) -/

/-- `cmp.cc pd, sa, sb` (R209). -/
def execCmp (d : PReg) (a b : SReg) (p : PReg) (c : Cc) (s : State) : Out :=
  s.writeP p d [a, b] (compare c (s.cur.getS a) (s.cur.getS b))
/-- `cmp.cc pd, sa, imm` (R209). -/
def execCmpImm (d : PReg) (a : SReg) (c : Cc) (i : BitVec 13) (s : State) : Out :=
  s.writeP 0 d [a] (compare c (s.cur.getS a) (compareImm c i))
/-- `sel sd, pq, sa, sb` (R210). -/
def execSel (d a b : SReg) (p q : PReg) (s : State) : Out :=
  s.writeS p d [a, b] (if s.cur.getP q then s.cur.getS a else s.cur.getS b)
/-- `mov sd, sa` (R210). -/
def execMov (d a : SReg) (p : PReg) (s : State) : Out := s.alu1 id d a p
/-- `pand pd, pa, pb` (R210). -/
def execPand (d a b p : PReg) (s : State) : Out := s.writeP p d [] (s.cur.getP a && s.cur.getP b)
/-- `por pd, pa, pb` (R210). -/
def execPor (d a b p : PReg) (s : State) : Out := s.writeP p d [] (s.cur.getP a || s.cur.getP b)
/-- `pxor pd, pa, pb` (R210). -/
def execPxor (d a b p : PReg) (s : State) : Out := s.writeP p d [] (s.cur.getP a != s.cur.getP b)
/-- `pandn pd, pa, pb` (R210). -/
def execPandn (d a b p : PReg) (s : State) : Out := s.writeP p d [] (s.cur.getP a && !s.cur.getP b)
/-- `pnot pd, pa` (R210). -/
def execPnot (d a p : PReg) (s : State) : Out := s.writeP p d [] (!s.cur.getP a)
/-- `pmov sd, pa` (R210). -/
def execPmov (d : SReg) (a p : PReg) (s : State) : Out := s.writeS p d [] (if s.cur.getP a then 1 else 0)
/-- `ptest pd, sa` (R210). -/
def execPtest (d : PReg) (a : SReg) (p : PReg) (s : State) : Out := s.writeP p d [a] (s.cur.getS a != 0)

/-! ### Immediate forms (R205) -/

/-- `add sd, sa, imm` (R205). -/
def execAddImm (d a : SReg) (i : BitVec 16) (s : State) : Out := s.aluI (fun x => x + i.signExtend 64) d a
/-- `and sd, sa, imm` (R205). -/
def execAndImm (d a : SReg) (i : BitVec 16) (s : State) : Out := s.aluI (fun x => x &&& i.zeroExtend 64) d a
/-- `or sd, sa, imm` (R205). -/
def execOrImm (d a : SReg) (i : BitVec 16) (s : State) : Out := s.aluI (fun x => x ||| i.zeroExtend 64) d a
/-- `xor sd, sa, imm` (R205). -/
def execXorImm (d a : SReg) (i : BitVec 16) (s : State) : Out := s.aluI (fun x => x ^^^ i.zeroExtend 64) d a
/-- `lih sd, sa, imm` (R205). -/
def execLih (d a : SReg) (i : BitVec 16) (s : State) : Out := s.aluI (fun x => (x <<< 16) ||| i.zeroExtend 64) d a
/-- `li sd, imm` (R205). -/
def execLi (d : SReg) (i : BitVec 16) (s : State) : Out := s.writeS 0 d [] (i.signExtend 64)

end Sys2Proof.Machine
end

