-- ==== Sys2Proof/Machine/Layout.lean ====
section
/-! DEFINITION. The fields of a copy request and of its layout records (R138, R142, R147), and the span of its dense side. -/

namespace Sys2Proof.Machine

/-! ### The request (R138) -/

def CopyReq.frec (r : CopyReq) : Nat := bits r.w0 55 0
def CopyReq.srec (r : CopyReq) : Nat := bits r.w1 55 0
def CopyReq.ts (r : CopyReq) : Bool := r.w2.getLsbD 63
/-- DIR: dense side to tensor side. -/
def CopyReq.stores (r : CopyReq) : Bool := r.w2.getLsbD 62
def CopyReq.tg (r : CopyReq) : Bool := r.w2.getLsbD 61
def CopyReq.zp (r : CopyReq) : Bool := r.w2.getLsbD 60
def CopyReq.fs (r : CopyReq) : Bool := r.w2.getLsbD 59
def CopyReq.dense (r : CopyReq) : Nat := bits r.w2 55 0
def CopyReq.seq (r : CopyReq) : Nat := bits r.w3 63 48
def CopyReq.startField (r : CopyReq) : Nat := bits r.w3 47 0

/-! ### Layout records (R142, R143) -/

/-- Word `i` of a record. -/
def recW (l : List Word) (i : Nat) : Word := l.getD i 0
/-- Extent `k`. -/
def recExtent (l : List Word) (k : Nat) : Nat := bits (recW l 1) (16 * k + 15) (16 * k)
/-- Signed byte stride `k`. -/
def recStride (l : List Word) (k : Nat) : Int :=
  let w := recW l (2 + k / 2)
  (BitVec.ofNat 32 (if k % 2 = 0 then bits w 31 0 else bits w 63 32)).toInt
def recKind (l : List Word) : Nat := bits (recW l 0) 63 60
def recBase (l : List Word) : Nat := bits (recW l 0) 55 0
/-- ESZ of a tensor record. -/
def recEsz (l : List Word) : Nat := 2 ^ bits (recW l 0) 59 57
/-- ZF of a tensor record. -/
def recZf (l : List Word) : Bool := (recW l 0).getLsbD 56
def recPitch (l : List Word) : Nat := bits (recW l 4) 31 0
/-- A 4-bit or 16-bit field of word 5. -/
def recWin (l : List Word) (hi lo : Nat) : Nat := bits (recW l 5) hi lo

/-- Points of the index space. -/
def recPoints (f : List Word) : Nat := recExtent f 0 * recExtent f 1 * recExtent f 2 * recExtent f 3
/-- Bytes of the data of a dense row, and the pitch of rows (R147). -/
def rowBytes (f s : List Word) : Nat := recExtent f 0 * recExtent f 1 * recExtent f 2 * recEsz s
def pitchBytes (f s : List Word) : Nat := if recPitch f = 0 then rowBytes f s else recPitch f

/-- End of the dense side: the last byte that the copy touches there (R147). -/
def denseLast (r : CopyReq) (f s : List Word) : Nat :=
  r.dense + (recExtent f 3 - 1) * pitchBytes f s + (if r.zp then pitchBytes f s else rowBytes f s) - 1

/-! ### A run -/

/-- A run ends with a STATUS; the bytes of an entry that is not yet full are still to be pushed, padded (R147, R151). -/
def CopyRun.fail (r : CopyRun) (status : Nat) (w2 w3 : Word) : CopyRun :=
  { r with status := some (status, w2, w3), pushing := r.req.fs && !r.req.stores && !r.buf.isEmpty }

/-- The last chunk is to be performed again from its first point (R74, R149): with it goes a BOUNDS end that followed it. -/
def CopyRun.rerun (r : CopyRun) : CopyRun :=
  match r.status with
  | none => { r with next := r.first, buf := r.kept, pushing := false, again := true }
  | some (n, _, _) => if n = 15 then { r with next := r.first, buf := r.kept, pushing := false, again := true, status := none } else r

end Sys2Proof.Machine
end

