-- ==== Sys2Proof/Machine/Access.lean ====
section
/-! DEFINITION. What a task reads and buffers (R5, R166 to R170, R176, R177, R323, R326): the cache ways of the cluster, the
slices and homes behind them, the task's own buffered bytes, and the read and write signatures. -/

namespace Sys2Proof.Machine

/-! ### Signatures (R323) -/

/-- The two bits of the word at a physical address. -/
def sigBits (pa : Nat) : BitVec 1024 :=
  let g := (word (pa % 2 ^ 56 / 4) * 0x9E3779B97F4A7C15).toNat
  (1 <<< (g / 2 ^ 54 % 1024)) ||| (1 <<< (g / 2 ^ 44 % 1024))

/-- The signature of a physical span. -/
def sigSpan (pa n : Nat) : BitVec 1024 := (spanWords pa n).foldl (fun g w => g ||| sigBits w) 0

/-- The word at the start of a 4 KiB scratch granule, which stands for its tag (R323). -/
def granuleWord (o : Nat) : Nat := alignDown o 4096

/-! ### What an access ends with -/

/-- An access has its bytes, must wait, or raises a trap. -/
inductive Got where
  | ok (s : State) (bytes : List Byte)
  | wait (s : State)
  | trap (s : State) (t : TrapInfo)
  deriving DecidableEq, Repr

/-- A fault of the acting unit: a message to its gleaner, and the unit waits on its mailbox (R78, R79); on a gleaner core it
is a precise trap. -/
def State.faultCur (s : State) (acc : Acc) (va : Nat) (c : Cause) (e : Word) (committing : Bool) (pend : Nat) : Got :=
  let u := s.cur
  if u.gleaner then .trap s { trap := .memoryFault, faddr := word va, sub := BitVec.ofNat 8 c.number, td := committing }
  else
    match s.post { token := 0, src := if u.wain then .wain else .worker, loc := u.loc, job := u.job, cause := c, acc, va := word va,
                   entry := e, committing, pend, launch := u.launch } with
    | none => .wait s
    | some t => .wait (t.modCur fun u => { u with mail := u.mail ++ t.lastToken })

/-! ### The cache ways (R166 to R170) -/

def Line.holds (l : Line) (job va : Nat) : Bool :=
  l.set == va / 256 % 2048 && l.vtag == va / 2 ^ 19 &&
    (match l.job with
     | none => true
     | some j => j == job)

/-- The word of a line by its index. -/
def Line.word? (l : Line) (i : Nat) : Option Word32 := Sparse.find? l.words i

/-- The bytes of a span within one line, where every word of it is valid. -/
def Line.read (l : Line) (va n : Nat) : Option (List Byte) :=
  let first := va % 256 / 4
  let ws := (upTo ((va % 256 + n + 3) / 4 - first)).map fun i => l.word? (first + i)
  if ws.all Option.isSome then
    some (((ws.flatMap fun w => bytesOf 4 (w.getD 0).toNat).drop (va % 4)).take n)
  else none

/-- A line that is present holds every valid word of a span, and 256 ns of its lease remain (R166). -/
def Cluster.hit (c : Cluster) (now job va n : Nat) : Option (List Byte × Line) :=
  match c.lines.find? fun l => l.holds job va && c.ways.contains l.way with
  | some l => if now + 256 ≤ l.expiry then (l.read va n).map fun b => (b, l) else none
  | none => none

/-- A load of the acting unit hits (R166). -/
def State.wayHit (s : State) (va n : Nat) : Option (List Byte × Line) := s.curCluster.hit s.time.toNat s.cur.job va n

/-- A range register matches an access of the job that wrote it, within its region (R169). -/
def Range.covers (r : Range) (job va : Nat) : Bool :=
  r.word.getLsbD 63 && r.job == job && decide (va / 2 ^ bits r.word 5 0 = bits r.word 55 16 * 65536 / 2 ^ bits r.word 5 0)

/-- The lowest-numbered register that matches a miss (R169). -/
def Cluster.rangeOf (c : Cluster) (job va : Nat) : Option (Nat × Range) :=
  ((upTo 8).filterMap fun g =>
    match Sparse.find? c.ranges g with
    | some r => if r.covers job va then some (g, r) else none
    | none => none).head?

/-- Last line of a set that satisfies a test, in order of recency. -/
def victim (p : Line → Bool) (l : List Line) : Option Line := (l.filter p).getLast?

/-- The line put at the most recent or the least recent place of its set (R170). -/
def insertLine (stream : Bool) (l : Line) (ls : List Line) : List Line := if stream then ls ++ [l] else l :: ls

/-- The register that decides a miss counts it (R170). -/
def Cluster.countMiss (c : Cluster) (job va : Nat) : Cluster :=
  match c.rangeOf job va with
  | some (g, r) => { c with ranges := Sparse.put c.ranges g { r with misses := r.misses + 1 } }
  | none => c

/-- A miss that the cluster's ways may not hold is counted too (R170); a wain core has no ways (R155). -/
def State.countMiss (s : State) (va : Nat) : State :=
  if s.cur.wain then s else s.setCurCluster (s.curCluster.countMiss s.cur.job va)

/-- A miss fills its words: into the line that is present, or into a line allocated under the range rules (R167, R170).
`words` are the words that the access names; `o` is the local offset or physical address of the span. -/
def Cluster.fill (c : Cluster) (job va pline expiry : Nat) (global : Bool) (words : List (Nat × Word32)) : Cluster :=
  let rg := c.rangeOf job va
  let cls := match rg with
    | some (_, r) => bits r.word 62 61
    | none => 0
  let takes := match rg with
    | some (_, r) => r.misses % 2 ^ bits r.word 60 58 == 0
    | none => true
  let c := c.countMiss job va
  let tag : Option Nat := if global then none else some job
  match c.lines.find? fun l => l.holds job va && c.ways.contains l.way with
  | some l =>
    let old := if l.pline = pline then l.words else []
    let l' := { l with pline, expiry, job := tag, words := words.foldl (fun w x => Sparse.put w x.1 x.2) old }
    { c with lines := l' :: c.lines.filter (· ≠ l) }
  | none =>
    if cls = 3 || !takes then c
    else
      let set := va / 256 % 2048
      let here := c.lines.filter fun l => l.set == set
      let free := c.ways.filter fun w => !here.any fun l => l.way == w
      let new (w : Nat) : Line := { way := w, set, vtag := va / 2 ^ 19, job := tag, pline, expiry, keep := cls == 2, words }
      match free with
      | w :: _ => { c with lines := insertLine (cls == 1) (new w) c.lines }
      | [] =>
        let v := match victim (fun l => !l.keep) here with
          | some l => some l
          | none => victim (fun _ => true) here
        match v with
        | none => c
        | some l => { c with lines := insertLine (cls == 1) (new l.way) (c.lines.filter (· ≠ l)) }

/-! ### Homes -/

/-- What a home answers to a read by physical address: the bytes, a fault, or that the access must wait (R73, R163, R164,
R318, R357, R436). -/
inductive Answer where
  | bytes (l : List Byte)
  | fault (c : Cause)
  | wait
  deriving DecidableEq, Repr

/-- A read at a home of this module by a requester of a world. -/
def State.homeRead (s : State) (secure : Bool) (pa n : Nat) : Answer :=
  let o := localOf pa
  if !s.worldOk secure o then .fault .world
  else if s.lockedAgainst pa n then .wait
  else
    match regionOf o with
    | .loft d c b _ => if s.windowOk d c b then .bytes (s.bytes o n) else .fault .bankMode
    | .hub h x => .bytes (s.hubBytes h x n)
    | .host _ => if s.handover o = 0 then .fault .handover else .bytes (s.bytes o n)
    | .hbm _ _ => .bytes (s.bytes o n)
    | .lpddr _ => .bytes (s.bytes o n)
    | .granary _ _ => .bytes (s.bytes o n)
    | .reserved => .fault .format

/-- A home whose words may be held in the ways (R167, R357); a wain core has none (R155). A host window is one only in this module and in
the DEVICE state: that of another module's region is not known here. -/
def State.cachedAt (s : State) (wain : Bool) (pa : Nat) (e : Word) : Bool :=
  !wain && !pteNc e && (s.isLocal pa || pteRc e) &&
    (match regionOf (localOf pa) with
     | .hbm _ _ => true
     | .lpddr _ => true
     | .host _ => s.isLocal pa && s.handover (localOf pa) == 1
     | _ => false)
def State.cacheable (s : State) (pa : Nat) (e : Word) : Bool := s.cachedAt s.cur.wain pa e

/-- The words that a span names, from the bytes of the whole words that hold it. -/
def wordsIn (va : Nat) (bytes : List Byte) : List (Nat × Word32) :=
  (chunksOf 4 bytes.length bytes).mapIdx fun i c => (va % 256 / 4 + i, BitVec.ofNat 32 (ofBytes c))

/-- The read signature takes the words of a physical span (R323). -/
def State.readSig (s : State) (pa n : Nat) : State :=
  s.modCur fun u => { u with task := { u.task with rsig := u.task.rsig ||| sigSpan pa n } }

/-- A committed read of one piece, which crosses no 256-byte boundary, by the acting unit: from a way, or through a slice
from the home, which the piece may then fill (R166, R167, R176). A word of another module enters the read signature as soon as it is
asked for, so that a commit in the meantime marks the task (R343). Where the home refuses, word 2 of the fault message is the leaf. DEDUCED (log 24). -/
def State.readPiece (s : State) (va n pend : Nat) : Got :=
  let u := s.cur
  match s.wayHit va n with
  | some (b, l) =>
    let c := s.curCluster
    .ok ((s.setCurCluster { c with lines := l :: c.lines.filter (· ≠ l) }).readSig (l.pline + va % 256) n) b
  | none =>
    match s.translate (sliceDie u.loc.die) u.job va .read (tsrSup u.tsr) u.secure with
    | (t, .fault c e) => t.faultCur .read va c e false pend
    | (t, .wait) => .wait t
    | (t, .ok pa e expiry) =>
      if t.isLocal pa then
        let t := t.leavePlace .read u.loc va
        let a := alignDown pa 4
        let m := (pa + n + 3) / 4 * 4 - a
        if t.cacheable pa e then
          match t.homeRead u.secure a m with
          | .fault c => t.faultCur .read va c e false pend
          | .wait => .wait t
          | .bytes l =>
            let k := t.curCluster.fill u.job va (alignDown pa 256) expiry (pteG e) (wordsIn va l)
            .ok ((t.setCurCluster k).readSig pa n) ((l.drop (pa - a)).take n)
        else
          match t.homeRead u.secure pa n with
          | .fault c => t.faultCur .read va c e false pend
          | .wait => .wait t
          | .bytes l => .ok ((t.countMiss va).readSig pa n) l
      else
        let a := alignDown pa 4
        let m := if t.cacheable pa e then (pa + n + 3) / 4 * 4 - a else n
        let p := if t.cacheable pa e then a else pa
        match t.ask .read u.loc (va - (pa - p)) p m expiry (readData m) u.secure with
        | (t, .wait) => .wait (t.readSig pa n)
        | (t, .answer .data _ l) =>
          let t := if t.cacheable pa e then
            t.setCurCluster (t.curCluster.fill u.job va (alignDown pa 256) expiry (pteG e) (wordsIn va l)) else t.countMiss va
          .ok (t.readSig pa n) ((l.drop (pa - p)).take n)
        | (t, .answer _ reason _) => t.faultCur .read va (causeOfReason reason) e false pend

/-- A piece before one that waits is read again with it, and counts as one miss when all have been read (R170, R176). -/
def State.unfilled (s t : State) : State :=
  t.setCurCluster { t.curCluster with ranges := s.curCluster.ranges, lines := s.curCluster.lines }

/-- Committed bytes of a span: aperture bytes at the bank, which a lock holds too (R318), others piece by piece (R163, R176). -/
def State.readSpan (s : State) (ea : Word) (n pend : Nat) : Got :=
  if s.cur.inAperture ea then
    let o := s.cur.loftAddr ea
    if s.apertureWaits ea || s.lockedAgainst (s.paOf o) n then .wait s
    else
      let t := if s.cur.apertureBank ea < 14 then s.readSig (s.paOf o) n else s
      .ok t (s.bytes o n)
  else go s (pieces256 ea.toNat n)
where
  /-- The pieces in order. -/
  go (s : State) : List (Nat × Nat) → Got
    | [] => .ok s []
    | (a, m) :: rest =>
      match s.readPiece a m pend with
      | .ok t b =>
        match go t rest with
        | .ok t' b' => .ok t' (b ++ b')
        | .wait t' => .wait (s.unfilled t')
        | .trap t' i => .trap t' i
      | r => r

/-- The task's own buffered bytes laid over committed ones (R5, R167): the last store of each byte counts. -/
def overlay (ops : List TaskOp) (a : Nat) (bytes : List Byte) : List Byte :=
  ops.foldl (fun l op =>
    match op with
    | .store va b =>
      if va.toNat + b.length ≤ a ∨ a + l.length ≤ va.toNat then l
      else l.mapIdx fun i x =>
        if va.toNat ≤ a + i ∧ a + i < va.toNat + b.length then b.getD (a + i - va.toNat) x else x
    | .reduce _ _ _ _ => l
    | .tag _ _ => l) bytes

/-- read(a, n) of R5: what the current task sees. -/
def State.readTask (s : State) (ea : Word) (n pend : Nat) : Got :=
  match s.readSpan ea n pend with
  | .ok t b => .ok t (overlay t.cur.task.ops ea.toNat b)
  | r => r

/-! ### Buffering (R177, R326) -/

/-- The 4-byte words of a virtual span. -/
def vaWords (ea : Word) (n : Nat) : List Nat := spanWords ea.toNat n

/-- The words that a task would buffer with a further span. -/
def Unit.wordsWith (u : Unit) (ws : List Nat) : List Nat := ws.foldl (fun l w => if l.contains w then l else l ++ [w]) u.task.words

/-- A capacity event (R326): the task is discarded, and its unit waits until it may run non-speculatively (R328). -/
def State.capacityEvent (s : State) : State :=
  let now := s.time
  (s.discard.restart).modCur fun u => { u with wait := .nonspec, nonspecSince := now }

/-- Room for one more held item among the 64 of a task (R326): the instruction that would exceed it takes no effect; a
speculative task takes a capacity event, a non-speculative one the CAPACITY trap (R328). -/
def State.holdRoom (s : State) (k : State → Out) : Out :=
  if s.cur.task.held.length < Config.heldPushes then k s
  else if s.cur.task.nonspec then s.raise (s.bundleTrap .capacity)
  else .next s.capacityEvent

/-- An item held by the task for release at commit (R194). -/
def State.hold (s : State) (h : Held) : State :=
  s.modCur fun u => { u with task := { u.task with held := u.task.held ++ [h] } }

end Sys2Proof.Machine
end

