-- ==== Sys2Proof/Machine/Numeric.lean ====
section
/-! DEFINITION. Number formats and rounding (R232 to R253): values read from their bits, exact results, and the one rounding
that delivers them. An exact result is a sign, a natural mantissa and a power of two; an irrational one is given by its
leading bits followed by a one bit below them, which stands for the rest. -/

namespace Sys2Proof.Machine

/-! ### Floating-point formats (R234, R235) -/

/-- How a floating-point format ends at the top (R235). -/
inductive Top where
  | ieee | nanOnly | finite
  deriving DecidableEq, Repr

/-- Exponent bits, mantissa bits, bias and special values of a format (R234, R235). -/
structure Fp where
  e : Nat
  p : Nat
  bias : Nat
  top : Top
  deriving DecidableEq, Repr

def fpF32 : Fp := ⟨8, 23, 127, .ieee⟩
def fpBf16 : Fp := ⟨8, 7, 127, .ieee⟩
def fpF16 : Fp := ⟨5, 10, 15, .ieee⟩
def fpE5m2 : Fp := ⟨5, 2, 15, .ieee⟩
def fpE4m3 : Fp := ⟨4, 3, 7, .nanOnly⟩
def fpE3m4 : Fp := ⟨3, 4, 3, .nanOnly⟩
def fpE3m2 : Fp := ⟨3, 2, 3, .finite⟩
def fpE2m3 : Fp := ⟨2, 3, 1, .finite⟩
def fpE2m1 : Fp := ⟨2, 1, 1, .finite⟩

/-- Width of an element. -/
def Fp.width (f : Fp) : Nat := 1 + f.e + f.p
/-- Encoding of the largest finite value, without sign (R235). -/
def Fp.maxEnc (f : Fp) : Nat :=
  match f.top with
  | .ieee => (2 ^ f.e - 1) * 2 ^ f.p - 1
  | .nanOnly => 2 ^ (f.e + f.p) - 2
  | .finite => 2 ^ (f.e + f.p) - 1
/-- Encoding of infinity, without sign, in a format that has one. -/
def Fp.infEnc (f : Fp) : Nat := (2 ^ f.e - 1) * 2 ^ f.p
/-- The canonical NaN (R235, R236); formats without NaN have none, and +0 stands in its place (R240). -/
def Fp.nanEnc (f : Fp) : Nat :=
  match f.top with
  | .ieee => (2 ^ f.e - 1) * 2 ^ f.p + 2 ^ (f.p - 1)
  | .nanOnly => 2 ^ (f.e + f.p) - 1
  | .finite => 0
def Fp.signBit (f : Fp) (neg : Bool) : Nat := if neg then 2 ^ (f.e + f.p) else 0

/-- The floating-point format of an identifier. -/
def fpOf : Fmt → Option Fp
  | .f32 => some fpF32 | .bf16 => some fpBf16 | .f16 => some fpF16 | .e4m3 => some fpE4m3 | .e5m2 => some fpE5m2
  | .e3m2 => some fpE3m2 | .e2m3 => some fpE2m3 | .e2m1 => some fpE2m1 | .e3m4 => some fpE3m4
  | .x43 => none | .x52 => none | .i32 => none | .i16 => none | .i8 => none | .i4 => none | .n8 => none | .n4 => none
  | .b16 => none | .b8 => none | .b4 => none | .t5 => none | .t5s => none | .pm1 => none | .i2 => none

/-- Integer formats: width and signedness (R241). -/
def intOf : Fmt → Option (Nat × Bool)
  | .i32 => some (32, true) | .i16 => some (16, true) | .i8 => some (8, true) | .i4 => some (4, true)
  | .i2 => some (2, true) | .n8 => some (8, false) | .n4 => some (4, false)
  | .f32 => none | .bf16 => none | .f16 => none | .e4m3 => none | .e5m2 => none | .x43 => none | .x52 => none
  | .e3m2 => none | .e2m3 => none | .e2m1 => none | .b16 => none | .b8 => none | .b4 => none | .t5 => none
  | .t5s => none | .pm1 => none | .e3m4 => none

/-- Block fixed-point formats: bits of an element (R242). -/
def blockOf : Fmt → Option Nat
  | .b16 => some 16 | .b8 => some 8 | .b4 => some 4
  | .f32 => none | .bf16 => none | .f16 => none | .e4m3 => none | .e5m2 => none | .x43 => none | .x52 => none
  | .e3m2 => none | .e2m3 => none | .e2m1 => none | .i32 => none | .i16 => none | .i8 => none | .i4 => none
  | .n8 => none | .n4 => none | .t5 => none | .t5s => none | .pm1 => none | .e3m4 => none | .i2 => none

/-! ### Values -/

/-- A value: a NaN, an infinity, or (−1)^neg × m × 2^e. -/
inductive Num where
  | nan (signalling : Bool)
  | inf (neg : Bool)
  | fin (neg : Bool) (m : Nat) (e : Int)
  deriving DecidableEq, Repr

/-- The value of an encoding (R234, R235). -/
def Fp.read (f : Fp) (x : Nat) : Num :=
  let m := x % 2 ^ f.p
  let ex := x / 2 ^ f.p % 2 ^ f.e
  let neg := x / 2 ^ (f.e + f.p) % 2 == 1
  let low : Int := 1 - (f.bias : Int) - f.p
  let finite := if ex = 0 then Num.fin neg m low else Num.fin neg (2 ^ f.p + m) (low + (ex : Int) - 1)
  match f.top with
  | .ieee => if ex = 2 ^ f.e - 1 then (if m = 0 then .inf neg else .nan (m < 2 ^ (f.p - 1))) else finite
  | .nanOnly => if x % 2 ^ (f.e + f.p) = 2 ^ (f.e + f.p) - 1 then .nan false else finite
  | .finite => finite

/-- The integer of a `w`-bit element (R241). -/
def intValue (w : Nat) (signed : Bool) (x : Nat) : Int :=
  let y := x % 2 ^ w
  if signed && decide (2 ^ (w - 1) ≤ y) then (y : Int) - 2 ^ w else y

def Num.ofInt (i : Int) : Num := .fin (i < 0) i.natAbs 0

def Num.isNan : Num → Bool
  | .nan _ => true
  | .inf _ => false
  | .fin _ _ _ => false
def Num.isSignalling : Num → Bool
  | .nan s => s
  | .inf _ => false
  | .fin _ _ _ => false
def Num.neg : Num → Num
  | .nan s => .nan s
  | .inf n => .inf !n
  | .fin n m e => .fin (!n) m e
def Num.isZero : Num → Bool
  | .nan _ => false
  | .inf _ => false
  | .fin _ m _ => m == 0

/-! ### The rounding (R237 to R240) -/

/-- Whether a magnitude moves up to its upper neighbour: `r` the lower one, `rem` of `unit` above it. -/
def roundsUp (rm : RM) (neg : Bool) (r rem unit : Nat) : Bool :=
  match rm with
  | .rne => decide (unit < 2 * rem) || (decide (2 * rem = unit) && r % 2 == 1)
  | .rz => false
  | .ru => decide (rem ≠ 0) && !neg
  | .rd => decide (rem ≠ 0) && neg

/-- The overflow result of R238. -/
def Fp.overflow (f : Fp) (rm : RM) (sat neg : Bool) : Nat :=
  let away := !sat &&
    (match rm with
     | .rne => true
     | .rz => false
     | .ru => !neg
     | .rd => neg)
  match f.top with
  | .ieee => f.signBit neg + (if away then f.infEnc else f.maxEnc)
  | .nanOnly => if away then f.nanEnc else f.signBit neg + f.maxEnc
  | .finite => f.signBit neg + f.maxEnc

/-- round(x, f, rm) for a finite x = (−1)^neg × m × 2^e, with the flags OF, UF and NX (R237, R238, R240). -/
def Fp.round (f : Fp) (rm : RM) (sat neg : Bool) (m : Nat) (e : Int) : Nat × Flags :=
  if m = 0 then (f.signBit neg, {})
  else
    let low : Int := 1 - (f.bias : Int) - f.p
    let lead : Int := e + bitLength m - 1
    let q : Int := max (lead - f.p) low
    let sh := q - e
    let unit := 2 ^ sh.toNat
    let r := if sh ≤ 0 then m * 2 ^ (-sh).toNat else m / unit
    let rem := if sh ≤ 0 then 0 else m % unit
    let r := if roundsUp rm neg r rem unit then r + 1 else r
    let enc := (q - low).toNat * 2 ^ f.p + r
    if f.maxEnc < enc then (f.overflow rm sat neg, { of := true, nx := true })
    else (f.signBit neg + enc, { nx := decide (rem ≠ 0), uf := decide (rem ≠ 0) && decide (enc < 2 ^ f.p) })

/-- An exact result with the flags that its operation raises itself (NV, DZ). -/
structure Exact where
  x : Num
  flags : Flags := {}
  deriving DecidableEq, Repr

/-- The result delivered in a format (R236 to R240). -/
def Fp.deliver (f : Fp) (rm : RM) (sat : Bool) (r : Exact) : Nat × Flags :=
  match r.x with
  | .nan _ =>
    match f.top with
    | .finite => (0, { r.flags with nv := true })
    | .ieee => (f.nanEnc, r.flags)
    | .nanOnly => (f.nanEnc, r.flags)
  | .inf neg =>
    match f.top with
    | .ieee => (f.signBit neg + f.infEnc, r.flags)
    | .nanOnly => (if sat then f.signBit neg + f.maxEnc else f.nanEnc, { r.flags with of := true, nx := true })
    | .finite => (f.signBit neg + f.maxEnc, { r.flags with of := true, nx := true })
  | .fin neg m e => let (x, g) := f.round rm sat neg m e; (x, r.flags.or g)

/-- A NaN operand: the canonical NaN, NV where an operand is signalling (R236). -/
def Exact.nanOf (ops : List Num) : Exact := { x := .nan false, flags := { nv := ops.any Num.isSignalling } }
/-- An invalid operation: NV and the canonical NaN (R236). -/
def Exact.invalid : Exact := { x := .nan false, flags := { nv := true } }

/-! ### Exact arithmetic -/

/-- The integer that a finite value is in units of 2^u, for u at most its exponent. -/
def inUnits (neg : Bool) (m : Nat) (e u : Int) : Int :=
  let v : Int := (m * 2 ^ (e - u).toNat : Nat)
  if neg then -v else v

/-- Exact sum of two finite values; an exact zero of opposite signs is +0, or −0 under RD (R237). -/
def sumFin (rm : RM) (na : Bool) (ma : Nat) (ea : Int) (nb : Bool) (mb : Nat) (eb : Int) : Num :=
  let u := min ea eb
  let t := inUnits na ma ea u + inUnits nb mb eb u
  if t = 0 then .fin (if na = nb then na else rm == .rd) 0 0 else .fin (t < 0) t.natAbs u

/-- a + b (R257). -/
def addExact (rm : RM) (a b : Num) : Exact :=
  match a, b with
  | .nan s, _ => .nanOf [.nan s, b]
  | _, .nan s => .nanOf [a, .nan s]
  | .inf na, .inf nb => if na = nb then { x := .inf na } else .invalid
  | .inf na, .fin _ _ _ => { x := .inf na }
  | .fin _ _ _, .inf nb => { x := .inf nb }
  | .fin na ma ea, .fin nb mb eb => { x := sumFin rm na ma ea nb mb eb }

/-- a × b (R257). -/
def mulExact (a b : Num) : Exact :=
  match a, b with
  | .nan s, _ => .nanOf [.nan s, b]
  | _, .nan s => .nanOf [a, .nan s]
  | .inf na, .inf nb => { x := .inf (na != nb) }
  | .inf na, .fin nb m _ => if m = 0 then .invalid else { x := .inf (na != nb) }
  | .fin na m _, .inf nb => if m = 0 then .invalid else { x := .inf (na != nb) }
  | .fin na ma ea, .fin nb mb eb => { x := .fin (na != nb) (ma * mb) (ea + eb) }

/-- a × b + c with one rounding (R259): 0 × ∞ is invalid even when c is a quiet NaN. -/
def fmaExact (rm : RM) (a b c : Num) : Exact :=
  let p := mulExact a b
  if p.x.isNan then { p with flags := { nv := p.flags.nv || c.isSignalling } }
  else addExact rm p.x c

/-- The order of R258 as a key: −∞ < negative < −0 < +0 < positive < +∞; compared in units of 2^u. -/
def orderLess (a b : Num) : Bool :=
  match a, b with
  | .inf na, .inf nb => na && !nb
  | .inf na, _ => na
  | _, .inf nb => !nb
  | .fin na ma ea, .fin nb mb eb =>
    let u := min ea eb
    let x := inUnits na ma ea u
    let y := inUnits nb mb eb u
    if x = y then ma == 0 && na && !nb else x < y
  | .nan _, _ => false
  | _, .nan _ => false

/-- Numeric comparison, zeros equal (R260): less, and equal. -/
def numLess (a b : Num) : Bool := orderLess a b && !(a.isZero && b.isZero)
def numEq (a b : Num) : Bool := !a.isNan && !b.isNan && !numLess a b && !numLess b a

/-- Smaller and larger in the order of R258; a NaN operand gives the canonical NaN. -/
def minExact (a b : Num) : Exact :=
  if a.isNan || b.isNan then .nanOf [a, b] else { x := if orderLess b a then b else a }
def maxExact (a b : Num) : Exact :=
  if a.isNan || b.isNan then .nanOf [a, b] else { x := if orderLess a b then b else a }

/-! ### Quotients, roots and the transcendental pair (R265 to R268) -/

/-- A truncated value with a one bit below it where something was cut off. -/
def sticky (q rem : Nat) : Nat := 2 * q + (if rem = 0 then 0 else 1)

/-- |a / b| of two finite nonzero values, to 160 bits. -/
def divFin (neg : Bool) (ma : Nat) (ea : Int) (mb : Nat) (eb : Int) : Num :=
  let k := 160 + bitLength mb
  .fin neg (sticky (ma * 2 ^ k / mb) (ma * 2 ^ k % mb)) (ea - eb - k - 1)

/-- a / b, correctly rounded when delivered (R268). -/
def divExact (a b : Num) : Exact :=
  match a, b with
  | .nan s, _ => .nanOf [.nan s, b]
  | _, .nan s => .nanOf [a, .nan s]
  | .inf _, .inf _ => .invalid
  | .inf na, .fin nb _ _ => { x := .inf (na != nb) }
  | .fin na _ _, .inf nb => { x := .fin (na != nb) 0 0 }
  | .fin na ma ea, .fin nb mb eb =>
    if mb = 0 then (if ma = 0 then .invalid else { x := .inf (na != nb), flags := { dz := true } })
    else if ma = 0 then { x := .fin (na != nb) 0 0 }
    else { x := divFin (na != nb) ma ea mb eb }

/-- Integer square root, bit by bit: `f` bits are still to be tried. -/
def isqrtGo : Nat → Nat → Nat → Nat
  | 0, _, r => r
  | f + 1, n, r => let t := r + 2 ^ f; isqrtGo f n (if t * t ≤ n then t else r)

/-- ⌊√n⌋. -/
def isqrt (n : Nat) : Nat := isqrtGo (bitLength n / 2 + 1) n 0

/-- √(m × 2^e) of a positive value, to at least 160 bits. -/
def sqrtFin (m : Nat) (e : Int) : Num :=
  let k : Nat := if e % 2 = 0 then 320 else 321
  let n := m * 2 ^ k
  let r := isqrt n
  .fin false (sticky r (n - r * r)) ((e - k) / 2 - 1)

def sqrtExact (a : Num) : Exact :=
  match a with
  | .nan s => .nanOf [.nan s]
  | .inf n => if n then .invalid else { x := .inf false }
  | .fin n m e => if m = 0 then { x := .fin n 0 0 } else if n then .invalid else { x := sqrtFin m e }

/-- 1 / a (R268). -/
def rcpExact (a : Num) : Exact := divExact (.fin false 1 0) a

/-- 1 / √a (R268): the root of 2^k / m, to at least 150 bits. -/
def rsqExact (a : Num) : Exact :=
  match a with
  | .nan s => .nanOf [.nan s]
  | .inf n => if n then .invalid else { x := .fin false 0 0 }
  | .fin n m e =>
    if m = 0 then { x := .inf n, flags := { dz := true } }
    else if n then .invalid
    else
      let k : Nat := if e % 2 = 0 then 400 else 401
      let q := 2 ^ k / m
      let r := isqrt q
      { x := .fin false (sticky r (2 ^ k - r * r * m)) ((-e - k) / 2 - 1) }

/-- Fraction bits of the fixed-point evaluations below. -/
def fixP : Nat := 300
/-- ln 2 × 2^300, rounded down. -/
def ln2Fix : Nat := 1411965743695424507508857192728570223734551239724995589061361292466257174357546532574725854

/-- The series of exp: the terms y^k / k! from k on, in fixed point. -/
def expSeries : Nat → Nat → Nat → Nat → Nat
  | 0, _, _, _ => 0
  | f + 1, k, t, y => t + expSeries f (k + 1) (t * y / 2 ^ fixP / (k + 1)) y

/-- 2^f × 2^300 for a fraction f given in units of 2^-300. -/
def exp2Frac (f : Nat) : Nat := expSeries 90 0 (2 ^ fixP) (f * ln2Fix / 2 ^ fixP)

/-- 2^a (R268). Where the power is irrational its leading bits are followed by a one bit; values far outside the range of
every format stand for the ones beyond. -/
def exp2Exact (a : Num) : Exact :=
  match a with
  | .nan s => .nanOf [.nan s]
  | .inf n => if n then { x := .fin false 0 0 } else { x := .inf false }
  | .fin n m e =>
    if m = 0 then { x := .fin false 1 0 }
    else if 12 ≤ e + bitLength m then { x := .fin false 1 (if n then -4000 else 4000) }
    else
      let fix : Int := if 0 ≤ e then (m * 2 ^ e.toNat * 2 ^ fixP : Nat) else (m * 2 ^ fixP / 2 ^ (-e).toNat : Nat)
      let v : Int := if n then -fix else fix
      let whole := v / (2 ^ fixP : Nat)
      let frac := (v % (2 ^ fixP : Nat)).toNat
      if frac = 0 then { x := .fin false 1 whole }
      else { x := .fin false (2 * exp2Frac frac + 1) (whole - fixP - 1) }

/-- The series of atanh: the terms z^(2k+1) / (2k+1) from k on, in fixed point. -/
def atanhSeries : Nat → Nat → Nat → Nat → Nat
  | 0, _, _, _ => 0
  | f + 1, k, t, z2 => t / (2 * k + 1) + atanhSeries f (k + 1) (t * z2 / 2 ^ fixP) z2

/-- log₂ t × 2^300 for t = m / 2^l in [1, 2). -/
def log2Frac (m l : Nat) : Nat :=
  let z := (m - 2 ^ l) * 2 ^ fixP / (m + 2 ^ l)
  2 * atanhSeries 100 0 z (z * z / 2 ^ fixP) * 2 ^ fixP / ln2Fix

/-- log₂ a (R268). -/
def log2Exact (a : Num) : Exact :=
  match a with
  | .nan s => .nanOf [.nan s]
  | .inf n => if n then .invalid else { x := .inf false }
  | .fin n m e =>
    if m = 0 then { x := .inf true, flags := { dz := true } }
    else if n then .invalid
    else
      let l := bitLength m - 1
      let whole : Int := e + l
      if m = 2 ^ l then { x := if whole = 0 then .fin false 0 0 else .ofInt whole }
      else
        let v : Int := whole * (2 ^ fixP : Nat) + (log2Frac m l : Nat)
        { x := .fin (v < 0) (2 * v.natAbs + 1) (-(fixP : Int) - 1) }

/-- The 12-bit approximations of R266: RNE to 12 significant bits, or to the f32 subnormal spacing where that is coarser. -/
def approx12 (r : Exact) : Nat × Flags :=
  match r.x with
  | .fin neg m e =>
    if m = 0 then (fpF32.signBit neg, r.flags)
    else
      let lead : Int := e + bitLength m - 1
      let q : Int := max (lead - 11) (-149)
      let sh := q - e
      let unit := 2 ^ sh.toNat
      let v := if sh ≤ 0 then m * 2 ^ (-sh).toNat else m / unit
      let rem := if sh ≤ 0 then 0 else m % unit
      let v := if roundsUp .rne neg v rem unit then v + 1 else v
      let (x, g) := fpF32.round .rne false neg v q
      (x, r.flags.or { g with
        nx := g.nx || decide (rem ≠ 0), uf := decide (rem ≠ 0) && decide (x % 2 ^ 31 < 2 ^ 23) })
  | .nan _ => (fpF32.nanEnc, r.flags)
  | .inf neg => (fpF32.signBit neg + fpF32.infEnc, r.flags)

/-! ### Integers (R241) -/

/-- A finite value rounded to an integer, and whether that was inexact. -/
def roundInt (rm : RM) (neg : Bool) (m : Nat) (e : Int) : Int × Bool :=
  if 0 ≤ e then (inUnits neg m e 0, false)
  else
    let unit := 2 ^ (-e).toNat
    let r := m / unit
    let rem := m % unit
    let r := if roundsUp rm neg r rem unit then r + 1 else r
    ((if neg then -(r : Int) else r), decide (rem ≠ 0))

/-- Extremes of an integer format. -/
def intMin (w : Nat) (signed : Bool) : Int := if signed then -(2 ^ (w - 1)) else 0
def intMax (w : Nat) (signed : Bool) : Int := if signed then 2 ^ (w - 1) - 1 else 2 ^ w - 1
/-- Low `w` bits of an integer. -/
def lowBits (w : Nat) (i : Int) : Nat := (i % 2 ^ w).toNat

/-- Floating point to integer (R240, R241): a clamp sets NV and not NX. -/
def toIntFmt (w : Nat) (signed : Bool) (rm : RM) (a : Num) : Nat × Flags :=
  match a with
  | .nan _ => (0, { nv := true })
  | .inf n => (lowBits w (if n then intMin w signed else intMax w signed), { nv := true })
  | .fin n m e =>
    let (i, nx) := roundInt rm n m e
    if i < intMin w signed ∨ intMax w signed < i then
      (lowBits w (clamp (intMin w signed) (intMax w signed) i), { nv := true })
    else (lowBits w i, { nx })

/-- Integer to integer: a narrowing clamps with OF under SAT, else keeps the low bits (R241). So does a negative value whose wider target is
unsigned, which R241 leaves open. DEDUCED (log 39). -/
def narrowInt (w : Nat) (signed sat : Bool) (i : Int) : Nat × Flags :=
  if intMin w signed ≤ i ∧ i ≤ intMax w signed then (lowBits w i, {})
  else if sat then (lowBits w (clamp (intMin w signed) (intMax w signed) i), { of := true })
  else (lowBits w i, {})

/-! ### f32 at a home (R331) -/

/-- The operations of an `.f32` atomic: RNE, SAT = 0, no flag. -/
def f32Add (x y : Nat) : Nat := (fpF32.deliver .rne false (addExact .rne (fpF32.read x) (fpF32.read y))).1
def f32Max (x y : Nat) : Nat := (fpF32.deliver .rne false (maxExact (fpF32.read x) (fpF32.read y))).1
def f32Min (x y : Nat) : Nat := (fpF32.deliver .rne false (minExact (fpF32.read x) (fpF32.read y))).1

end Sys2Proof.Machine
end

