-- ==== Sys2Proof/Machine/Homes.lean ====
section
/-! DEFINITION. What a home of this module performs (R64, R150, R165, R168, R318, R329 to R331, R350, R354, R355): writes,
indivisible accesses, the clearing of the ways, and the marking of the tasks that have read a written word (R324). -/

namespace Sys2Proof.Machine

/-! ### Clearing by signature (R168) -/

/-- An address falls in a signature (R323). -/
def inSig (g : BitVec 1024) (pa : Nat) : Bool := sigBits pa &&& g == sigBits pa

/-- Every cached word whose address falls in a write signature leaves the ways of every cluster (R168). -/
def State.clearSig (s : State) (g : BitVec 1024) : State :=
  { s with clusters := s.clusters.map fun c => (c.1, c.2.clearWords (inSig g)) }

/-- A cluster holds a word in its ways. -/
def Cluster.cachedWord (c : Cluster) (w : Nat) : Bool :=
  c.lines.any fun l => l.pline == alignDown w 256 && (l.word? (w % 256 / 4)).isSome

/-- The words of an engine's write are to be cleared in the ways of the module's clusters (R168): they wait in `clears`
until the end of the step, or until a pop of word 0 in the same step acquires them, and no later. -/
def State.clearLater (s : State) (pa n : Nat) : State :=
  let ws := spanWords pa n
  let later (c : Cluster) : Cluster := { c with clears := c.clears ++ ws.filter c.cachedWord }
  { s with clusters := s.clusters.map fun c => (c.1, later c.2) }

/-! ### Writes -/

/-- Bytes written at a home of this module: memory, or the hub registers that live there (R62,
R416). No access but a wain unit's to its own local store reaches a reserved offset (log 15). -/
def State.homeSet (s : State) (pa : Nat) (b : List Byte) : State :=
  match regionOf (localOf pa) with
  | .hub h x => s.hubStore h x b
  | .hbm _ _ => s.setBytes (localOf pa) b
  | .lpddr _ => s.setBytes (localOf pa) b
  | .granary _ _ => s.setBytes (localOf pa) b
  | .loft _ _ _ _ => s.setBytes (localOf pa) b
  | .host _ => s.setBytes (localOf pa) b
  | .reserved => s.setBytes (localOf pa) b

/-- Bytes read at a home of this module, without a check. -/
def State.homeGet (s : State) (pa n : Nat) : List Byte :=
  match regionOf (localOf pa) with
  | .hub h x => s.hubBytes h x n
  | .hbm _ _ => s.bytes (localOf pa) n
  | .lpddr _ => s.bytes (localOf pa) n
  | .granary _ _ => s.bytes (localOf pa) n
  | .loft _ _ _ _ => s.bytes (localOf pa) n
  | .host _ => s.bytes (localOf pa) n
  | .reserved => s.bytes (localOf pa) n

/-- A write performed at a home: the word leaves every cluster's ways before it is acknowledged (R350). -/
def State.homeWrite (s : State) (pa : Nat) (b : List Byte) : State := (s.homeSet pa b).clearSpan pa b.length

/-- A write that an engine performs at a local home (R150, R168). -/
def State.engineSet (s : State) (pa : Nat) (b : List Byte) : State := (s.homeSet pa b).clearLater pa b.length

/-- Why a home refuses a write or atomic of a requester, before any lock is taken: the world check (R436), a Granary window
that stores may not write (R165), a bank mode (R164) or a handover region in the HOST state (R357). -/
def State.writeRefused (s : State) (secure engine : Bool) (pa : Nat) : Option Cause :=
  let o := localOf pa
  if !s.worldOk secure o then some .world
  else
    match regionOf o with
    | .granary _ _ => if engine then none else some .permission
    | .loft d c b _ => if s.windowOk d c b then none else some .bankMode
    | .host _ => if s.handover o = 0 then some .handover else none
    | .reserved => some .format
    | .hbm _ _ => none
    | .lpddr _ => none
    | .hub _ _ => none

/-! ### Marking (R324, R325) -/

/-- A unit's task is marked by a write whose signature is `g`: it has read one of its words; non-speculative tasks and commits in
their visible phase are not marked (R324, R328). -/
def Unit.markBy (g : BitVec 1024) (u : Unit) : Unit :=
  if u.placed && !u.task.nonspec && !u.visible && u.task.rsig &&& g != 0 then { u with marked := true } else u

/-- The tasks of the other units that `p` admits and whose read signature meets `g` are marked (R324). -/
def State.mark (s : State) (g : BitVec 1024) (p : Unit → Bool) : State :=
  { s with others := s.others.map fun u => if p u then u.markBy g else u }

/-- No unit acts: an event is not a unit's own access, so it may mark the task of every unit. -/
def State.unfocus (s : State) : State := if s.cur.placed then { s with cur := {}, others := s.cur :: s.others } else s

/-- A part of the state's work done while no unit acts: a slice that walks for an engine or for the command processor meets the locks of
every unit (R60, R318). -/
def State.apart {α : Type} (s : State) (f : State → State × α) : State × α :=
  let (t, x) := f s.unfocus
  (if s.cur.placed then { t with cur := t.others.headD s.cur, others := t.others.tail } else t, x)

/-! ### Atomics (R329, R331) -/

/-- Bytes of an atomic's type. -/
def typeBytes : AType → Nat
  | .w => 4 | .d => 8 | .f32 => 4 | .q => 16

/-- The new memory value of an operation, none where nothing is written (R329). -/
def AtomOp.apply (op : AtomOp) (t : AType) (old y cmp : Nat) : Option Nat :=
  let w := 8 * typeBytes t
  let m := 2 ^ w
  let f := t == .f32
  match op with
  | .swap => some (y % m)
  | .cas => if old = cmp % m then some (y % m) else none
  | .add => some (if f then f32Add old (y % m) else (old + y) % m)
  | .and => some (Nat.land old (y % m))
  | .or => some (Nat.lor old (y % m))
  | .xor => some (Nat.xor old (y % m))
  | .max => some (if f then f32Max old (y % m) else if intValue w true old < intValue w true y then y % m else old)
  | .min => some (if f then f32Min old (y % m) else if intValue w true y < intValue w true old then y % m else old)
  | .maxu => some (Nat.max old (y % m))
  | .minu => some (Nat.min old (y % m))

/-- One indivisible access at a home of this module: the old value, and the new one written where there is one; every task
whose read signature holds a written word is marked (R330): also one that the atomic's own unit has begun since. -/
def State.homeAtomic (s : State) (pa n : Nat) (f : Nat → Option Nat) : State × Nat :=
  let old := ofBytes (s.homeGet pa n)
  match f old with
  | none => (s, old)
  | some x => (((s.homeWrite pa (bytesOf n x)).mark (sigSpan pa n) (fun _ => true)).modCur (Unit.markBy (sigSpan pa n)), old)

/-! ### Host atomics (R354, R355, R417) -/

/-- Bit of HACAP that an operation on the host window needs: FetchAdd, Swap or CAS at its width, or the CAS of its loop (R354). -/
def hacapBit (op : AtomOp) (t : AType) : Nat :=
  let cas := match t with
    | .w => 4 | .d => 5 | .f32 => 4 | .q => 6
  match op with
  | .add => match t with
    | .w => 0 | .d => 1 | .f32 => cas | .q => cas
  | .swap => match t with
    | .w => 2 | .d => 3 | .f32 => cas | .q => cas
  | .cas => cas | .and => cas | .or => cas | .xor => cas | .max => cas | .min => cas | .maxu => cas | .minu => cas

/-- The host link completes the PCIe AtomicOp of an operation, as HACAP shows (R354, R355). -/
def State.hostCompletes (s : State) (o : Nat) (op : AtomOp) (t : AType) : Bool :=
  (s.hub ((o - hostBase) / 0x400_0000_0000)).hacap.getLsbD (hacapBit op t)

end Sys2Proof.Machine
end

