-- ==== Sys2Proof/Machine/Formats.lean ====
section
/-! DEFINITION. Packed elements and the formats that are more than one element wide: the bit strings of R233, block fixed point
(R242, R243), ternary bytes (R244), entropy-coded blocks (R246 to R249), and the direct conversions (R250). -/

namespace Sys2Proof.Machine

/-! ### Strings of elements (R233) -/

/-- Element `j` of `w` bits of a string. -/
def elemAt (x w j : Nat) : Nat := x / 2 ^ (w * j) % 2 ^ w
/-- The string of elements of `w` bits. -/
def packElems (w : Nat) : List Nat → Nat
  | [] => 0
  | x :: r => x % 2 ^ w + 2 ^ w * packElems w r
/-- The bits of bytes, lowest first. -/
def bitsOf (l : List Byte) : List Bool := l.flatMap fun b => (upTo 8).map fun i => b.getLsbD i
/-- The number that bits hold, lowest first. -/
def ofBits : List Bool → Nat
  | [] => 0
  | b :: r => b.toNat + 2 * ofBits r
/-- The low `n` bits of a number, lowest first. -/
def lowBitList (n x : Nat) : List Bool := (upTo n).map fun i => x / 2 ^ i % 2 == 1

/-- Bits of an element of a fixed-width format (R232). -/
def fmtWidth (f : Fmt) : Nat :=
  match fpOf f with
  | some p => p.width
  | none =>
    match intOf f with
    | some (w, _) => w
    | none => (blockOf f).getD 1

/-! ### Values of elements -/

/-- What an element holds: a floating-point value, a block value included, or an integer. -/
inductive Val where
  | fp (x : Num)
  | int (i : Int)
  deriving DecidableEq, Repr

/-- The value of an element of a floating-point, integer or sign format (R234, R241). -/
def valueOf (f : Fmt) (x : Nat) : Val :=
  match fpOf f with
  | some p => .fp (p.read x)
  | none =>
    match intOf f with
    | some (w, sg) => .int (intValue w sg x)
    | none => .int (if x % 2 = 1 then -1 else 1)

def Val.num : Val → Num
  | .fp x => x
  | .int i => Num.ofInt i

/-- One direct conversion to an element of a floating-point, integer or sign format (R240, R241). -/
def convertTo (f : Fmt) (rm : RM) (sat : Bool) (v : Val) : Nat × Flags :=
  match fpOf f with
  | some p => p.deliver rm sat { x := v.num, flags := { nv := v.num.isSignalling } }
  | none =>
    match intOf f with
    | some (w, sg) =>
      match v with
      | .fp x => toIntFmt w sg rm x
      | .int i => narrowInt w sg sat i
    | none =>
      match v.num with
      | .nan _ => (0, { nv := true })
      | .inf n => (n.toNat, {})
      | .fin n m _ => ((n && m != 0).toNat, {})

/-! ### Block fixed point (R242, R243) -/

/-- The 32 values of a block of `w`-bit elements (R242). -/
def blockValues (w : Nat) (b : List Byte) : List Num :=
  let x : Int := ofBytes (b.take 1)
  let s := ofBytes ((b.drop 1).take (4 * w))
  (upTo 32).map fun j =>
    let m := intValue w true (elemAt s w j)
    .fin (m < 0) m.natAbs (x - 126 - w)

/-- ⌊log₂ |x|⌋ of a finite nonzero value. -/
def floorLog (x : Num) : Option Int :=
  match x with
  | .fin _ m e => if m = 0 then none else some (e + bitLength m - 1)
  | .inf _ => none
  | .nan _ => none

/-- One element of a block under the shared exponent `x`; `high` says that the exponent has reached 255, `low` that it was held at 0. -/
def blockElem (w : Nat) (rm : RM) (x : Int) (high low : Bool) (v : Num) : Nat × Flags :=
  let top : Int := 2 ^ (w - 1) - 1
  match v with
  | .nan _ => (0, { nv := true })
  | .inf n => (lowBits w (if n then -top - 1 else top), { of := true, nx := true })
  | .fin n m e =>
    let (i, nx) := roundInt rm n m (e + 126 + w - x)
    let out := decide (top < i ∨ i < -top - 1)
    (lowBits w (clamp (-top - 1) top i), { of := out && high, nx := nx || out, uf := nx && low })

/-- A conversion into a block forms all 32 elements at once (R243). A clamp sets OF where X is 255 and NX alone below that; X is held at 0
where its value before the clamp is below 0. DEDUCED (log 39). -/
def blockOfValues (w : Nat) (rm : RM) (l : List Num) : List Byte × Flags :=
  let logs := l.filterMap floorLog
  let raw : Option Int := logs.foldl (fun (a : Option Int) x => some (match a with | none => x | some y => max x y)) none
  let x0 : Int := match raw with | none => 0 | some y => y + 128
  let x := clamp 0 255 x0
  let es := l.map (blockElem w rm x (decide (255 ≤ x0)) (decide (x0 < 0)))
  (bytesOf 1 x.toNat ++ bytesOf (4 * w) (packElems w (es.map fun e => e.1)), es.foldl (fun f e => f.or e.2) {})

/-! ### Ternary bytes (R244) -/

/-- The five trits of a byte, none for the illegal values 243 to 255. -/
def tritsOf (b : Nat) : Option (List Int) :=
  if 243 ≤ b then none
  else some ((upTo 5).map fun i => if b / 3 ^ i % 3 = 2 then -1 else (b / 3 ^ i % 3 : Nat))

/-- The byte of five trits. -/
def byteOfTrits : List Int → Nat
  | [] => 0
  | t :: r => (if t = -1 then 2 else t.toNat) + 3 * byteOfTrits r

/-! ### Entropy-coded blocks (R246 to R249) -/

/-- The element format inside an entropy-coded block. -/
def xOf : Fmt → Option Fp
  | .x43 => some fpE4m3 | .x52 => some fpE5m2
  | .f32 => none | .bf16 => none | .f16 => none | .e4m3 => none | .e5m2 => none | .e3m2 => none | .e2m3 => none
  | .e2m1 => none | .i32 => none | .i16 => none | .i8 => none | .i4 => none | .n8 => none | .n4 => none | .b16 => none
  | .b8 => none | .b4 => none | .t5 => none | .t5s => none | .pm1 => none | .e3m4 => none | .i2 => none

/-- The codes of a table with the δ they stand for, none for ESC (R247); first bit first. Table 3 has one empty code, ESC. -/
def xCodes (tsel : Nat) : List (List Bool × Option Int) :=
  if tsel = 0 then
    [([false], some 0), ([true, false], some (-1)), ([true, true, false], some 1), ([true, true, true], none)]
  else if tsel = 1 then
    [([false, false], some 0), ([false, true], some (-1)), ([true, false, false], some (-2)), ([true, false, true], some 1),
     ([true, true, false], some (-3)), ([true, true, true], none)]
  else if tsel = 2 then
    [([false, false, false], some 0), ([false, false, true], some (-1)), ([false, true, false], some (-2)),
     ([false, true, true], some (-3)), ([true, false, false], some (-4)), ([true, false, true], some 1),
     ([true, true, false], some (-5)), ([true, true, true], none)]
  else [([], none)]

/-- The tokens of `n` elements: their exponent fields and the bits left, none where one is illegal or bits run out. -/
def xTokens (tsel ref : Nat) (f : Fp) : Nat → List Bool → Option (List Nat × List Bool)
  | 0, l => some ([], l)
  | n + 1, l => do
    let c ← (xCodes tsel).find? fun c => c.1.isPrefixOf l
    let r := l.drop c.1.length
    let (e, r) ← match c.2 with
      | some d => some ((ref : Int) + d, r)
      | none => if r.length < f.e then none else some ((ofBits (r.take f.e) : Int), r.drop f.e)
    if e < 0 ∨ 2 ^ f.e ≤ e then none
    else
      let (es, rest) ← xTokens tsel ref f n r
      pure (e.toNat :: es, rest)

/-- An element from its sign and mantissa field and its exponent field (R246). -/
def xElem (f : Fp) (sm e : Nat) : Nat := f.signBit (sm / 2 ^ f.p % 2 == 1) + e * 2 ^ f.p + sm % 2 ^ f.p

/-- The 32 elements of a legal block and its length, from the bytes at its start; none for an illegal block (R246, R248). -/
def xDecode (f : Fp) (l : List Byte) : Option (List Nat × Nat) :=
  let h := ofBytes (l.take 2)
  let tsel := h / 2 ^ 14 % 4
  let ref := h / 2 ^ 9 % 32
  let len := h % 64
  let sm := 4 * (1 + f.p)
  let s := ofBytes ((l.drop 2).take sm)
  if 2 ^ f.e ≤ ref ∨ h / 64 % 8 ≠ 0 ∨ l.length < len ∨ len < 2 + sm then none
  else
    match xTokens tsel ref f 32 (bitsOf ((l.take len).drop (2 + sm))) with
    | none => none
    | some (es, rest) =>
      if rest.length < 8 && rest.all (fun b => !b) then
        some ((upTo 32).map fun j => xElem f (elemAt s (1 + f.p) j) (es.getD j 0), len)
      else none

/-- The tokens of exponent fields under a table. -/
def xTokenBits (tsel ref : Nat) (f : Fp) (es : List Nat) : List Bool :=
  es.flatMap fun (e : Nat) =>
    match (xCodes tsel).find? fun c => c.2 == some ((e : Int) - ref) with
    | some c => c.1
    | none => ((xCodes tsel).filter fun c => c.2.isNone).flatMap fun c => c.1 ++ lowBitList f.e e

/-- The canonical block of 32 elements (R249). -/
def xEncode (f : Fp) (els : List Nat) : List Byte :=
  let es := els.map fun x => x / 2 ^ f.p % 2 ^ f.e
  let ref := es.foldl max 0
  let sm := els.map fun x => x / 2 ^ (f.e + f.p) % 2 * 2 ^ f.p + x % 2 ^ f.p
  let toks := (upTo 4).map fun t => (t, xTokenBits t ref f es)
  let best := toks.foldl (fun (a : Nat × List Bool) t => if (t.2.length + 7) / 8 < (a.2.length + 7) / 8 then t else a)
    (0, xTokenBits 0 ref f es)
  let n := (best.2.length + 7) / 8
  let len := 2 + 4 * (1 + f.p) + n
  bytesOf 2 (best.1 * 2 ^ 14 + ref * 2 ^ 9 + len) ++ bytesOf (4 * (1 + f.p)) (packElems (1 + f.p) sm) ++ bytesOf n (ofBits best.2)

/-! ### Which conversions exist (R250) -/

/-- Kinds of a format (R232). -/
inductive Kind where
  | fp | int | sign | block | coded | ternary
  deriving DecidableEq, Repr

def kindOf (f : Fmt) : Kind :=
  if (fpOf f).isSome then .fp
  else if (intOf f).isSome then .int
  else if (blockOf f).isSome then .block
  else if (xOf f).isSome then .coded
  else if f == .pm1 then .sign else .ternary

/-- The direct conversions of `vcvt` (R250, R263): the ternary ones belong to other instructions. -/
def convertible (a b : Fmt) : Bool :=
  let plain := kindOf b == .fp || kindOf b == .int
  match kindOf a with
  | .fp => plain || kindOf b == .sign || kindOf b == .block || (a == .e4m3 && b == .x43) || (a == .e5m2 && b == .x52)
  | .int => plain || kindOf b == .sign || kindOf b == .block
  | .coded => plain || kindOf b == .sign || kindOf b == .block || a == b
  | .block => plain
  | .sign => plain
  | .ternary => false

/-- Parts that a register holds of 32 elements of a format (R263). -/
def partsOf (f : Fmt) : Nat :=
  match kindOf f with
  | .fp => min 8 (1024 / (32 * fmtWidth f))
  | .int => min 8 (1024 / (32 * fmtWidth f))
  | .sign => 8
  | .block => 128 / (1 + 4 * fmtWidth f)
  | .coded => 1
  | .ternary => 0

/-- First bit of a part and its bits (R263). -/
def partAt (f : Fmt) (p : Nat) : Nat × Nat :=
  match kindOf f with
  | .block => (8 * (1 + 4 * fmtWidth f) * p, 8 * (1 + 4 * fmtWidth f))
  | .coded => (0, 1024)
  | .fp => (32 * fmtWidth f * p, 32 * fmtWidth f)
  | .int => (32 * fmtWidth f * p, 32 * fmtWidth f)
  | .sign => (32 * fmtWidth f * p, 32 * fmtWidth f)
  | .ternary => (0, 0)

end Sys2Proof.Machine
end

