-- ==== Sys2Proof/Machine/MatCmd.lean ====
section
/-! DEFINITION. A matrix command: the fields of its command register and control word (R283, R284), its formats (R285), its
weights in the Granary (R281, R282), the q2 entries that it reads (R287), and the entries of an ended command that are consumed
and discarded (R299). -/

namespace Sys2Proof.Machine

/-- Bytes of a column slot (R282); 0 for a format that the array refuses. -/
def columnSlot (product : Bool) (fb : Fmt) (ns : Nat) : Nat :=
  if product then
    match fb with
    | .bf16 => 256 | .f16 => 256 | .i16 => 256
    | .e4m3 => 128 | .e5m2 => 128 | .e3m4 => 128 | .i8 => 128 | .n8 => 128 | .e3m2 => 128 | .e2m3 => 128
    | .e2m1 => 64 | .i4 => 64 | .n4 => 64 | .i2 => 64 | .pm1 => 64 | .t5 => 64
    | .b16 => 320 | .b8 => 192 | .b4 => 128 | .x43 => 192 | .x52 => 192
    | .f32 => 0 | .i32 => 0 | .t5s => 0
  else if fb = .t5 then 128
  else if fb = .t5s then (if ns = 1 then 128 else if ns = 2 then 192 else 320)
  else 0

/-- The formats of R285. -/
def activationOk (product : Bool) (f : Fmt) : Bool :=
  f != .t5 && f != .t5s && (!product || (f != .f32 && f != .i32))
def weightOk (product : Bool) (f : Fmt) : Bool :=
  if product then f != .f32 && f != .i32 && f != .t5s else f == .t5 || f == .t5s

/-- Fields of the command register (R284). -/
def crTr (c : Word) : Nat := bits c 52 48
def crNs (c : Word) : Nat := bits c 47 46
def crKs (c : Word) : Nat := bits c 45 40 + 1
def crM (c : Word) : Nat := bits c 36 32 + 1
def crWb (c : Word) : Nat := bits c 21 0

/-- Fields of the control word (R283). -/
def cwY (w : BitVec 14) : Nat := bits w 1 0
def cwProduct (w : BitVec 14) : Bool := w.getLsbD 2
def cwAcc (w : BitVec 14) : Bool := w.getLsbD 3
def cwH (w : BitVec 14) : Bool := w.getLsbD 4
def cwRs (w : BitVec 14) : Bool := w.getLsbD 5
def cwOut (w : BitVec 14) : Bool := w.getLsbD 6
def cwC (w : BitVec 14) : Bool := w.getLsbD 7
def cwTag (w : BitVec 14) : Nat := bits w 13 8

/-- Words of 64 bytes of one block (R286). -/
def blockWords (product : Bool) (fb : Fmt) (ns : Nat) : Nat := (if product then 4 else 8) * columnSlot product fb ns

/-- Entries of a row segment (R287), the least where the format's blocks vary in length. -/
def rowEntries (product : Bool) (fa : Fmt) : Nat :=
  match fa with
  | .f32 => 16 | .i32 => 16
  | .bf16 => if product then 2 else 8
  | .f16 => if product then 2 else 8
  | .i16 => if product then 2 else 8
  | .e4m3 => if product then 1 else 4
  | .e5m2 => if product then 1 else 4
  | .e3m4 => if product then 1 else 4
  | .i8 => if product then 1 else 4
  | .n8 => if product then 1 else 4
  | .e3m2 => if product then 1 else 3
  | .e2m3 => if product then 1 else 3
  | .e2m1 => if product then 1 else 2
  | .i4 => if product then 1 else 2
  | .n4 => if product then 1 else 2
  | .i2 => 1 | .pm1 => 1
  | .b16 => if product then 3 else 9
  | .b8 => if product then 2 else 5
  | .b4 => if product then 1 else 3
  | .x43 => if product then 1 else 3
  | .x52 => if product then 1 else 3
  | .t5 => 1 | .t5s => 1

/-! ### Entries of q2 (R287) -/

/-- Length of an entropy-coded block as the array takes it: an illegal LEN counts as the least legal one (R287). -/
def blockLen (f : Fmt) (b : Byte) : Nat :=
  let least := if f = .x43 then 22 else 18
  let len := b.toNat % 64
  if least ≤ len ∧ len ≤ 46 then len else least

/-- Where the blocks of a segment begin, and where the last one ends; none where the bytes are not all there. -/
def blockStarts (f : Fmt) : Nat → Nat → List Byte → Option (List Nat × Nat)
  | 0, p, _ => some ([], p)
  | n + 1, p, l =>
    match l[p]? with
    | none => none
    | some b => (blockStarts f n (p + blockLen f b) l).map fun r => (p :: r.1, r.2)

/-- Elements of a row segment (R287). -/
def segmentSize (product : Bool) : Nat := if product then 128 else 512

/-- Entries of the first row segment of a list of entries; none where that shows only with later entries. -/
def segmentEntries (product : Bool) (fa : Fmt) (l : List (List Byte)) : Option Nat :=
  if (xOf fa).isSome then (blockStarts fa (segmentSize product / 32) 0 l.flatten).map fun r => (r.2 + 127) / 128
  else some (rowEntries product fa)

/-- Entries of the first `n` row segments. -/
def segmentsEntries (product : Bool) (fa : Fmt) : Nat → List (List Byte) → Option Nat
  | 0, _ => some 0
  | n + 1, l =>
    match segmentEntries product fa l with
    | none => none
    | some k => (segmentsEntries product fa n (l.drop k)).map (· + k)

/-- The command still reads its row-scale entry. -/
def MatCmd.wantsScales (c : MatCmd) : Bool := cwRs c.cw && c.scales.isNone
/-- Row segments that the command has not read. -/
def MatCmd.segmentsLeft (c : MatCmd) : Nat := (crKs c.creg - c.seg) * crM c.creg - c.row
/-- Entries that the command has still to read, from the entries that begin with its next one. -/
def MatCmd.entries (c : MatCmd) (l : List (List Byte)) : Option Nat :=
  let k := if c.wantsScales then 1 else 0
  (segmentsEntries (cwProduct c.cw) c.fa c.segmentsLeft (l.drop (c.left + k))).map (· + c.left + k)
/-- Nothing is left that the command reads. -/
def MatCmd.readAll (c : MatCmd) : Bool := c.left == 0 && c.segmentsLeft == 0 && !c.wantsScales

def MatCmd.slot (c : MatCmd) : Nat := c.by'.loc.slot

/-- A command put among others in the order of their release. -/
def insertCmd (c : MatCmd) : List MatCmd → List MatCmd
  | [] => [c]
  | x :: r => if c.id < x.id then c :: x :: r else x :: insertCmd c r

/-- The q2 entries of a slot, in push order. -/
def Core.rowsOf (k : Core) (slot : Nat) : List (List Byte) := (k.q2.filter fun e => e.1 == slot).map fun e => e.2

/-- Where the entries of a command begin among those of its slot: behind what earlier commands of the slot have still to read,
the ended ones as `discard` keeps them (R287, R299); none where that does not show yet. -/
def Core.startOf (k : Core) (c : MatCmd) : Option Nat :=
  let before := (((k.q1.filter fun x => !x.ended) ++ k.discard).filter fun x => x.slot == c.slot && decide (x.id < c.id)).foldr insertCmd []
  let rows := k.rowsOf c.slot
  before.foldl (fun (n : Option Nat) x =>
    match n with
    | none => none
    | some n => (x.entries (rows.drop n)).map (· + n)) (some 0)

/-- The list without the entries `n` to `n + m − 1` of a slot. -/
def dropRows (slot : Nat) : Nat → Nat → List (Nat × List Byte) → List (Nat × List Byte)
  | _, _, [] => []
  | n, m, e :: r =>
    if e.1 ≠ slot then e :: dropRows slot n m r
    else if n = 0 then (if m = 0 then e :: r else dropRows slot 0 (m - 1) r)
    else e :: dropRows slot (n - 1) m r

/-- How many entries the next thing that a command reads takes, from the entries that begin with it, and the command past it; none where that
does not show yet, or nothing is left (R287). -/
def MatCmd.next (c : MatCmd) (rows : List (List Byte)) : Option (Nat × MatCmd) :=
  if c.wantsScales then
    rows.head?.map fun e => (1, { c with scales := some ((upTo 32).map fun i => BitVec.ofNat 32 (ofBytes ((e.drop (4 * i)).take 4))) })
  else if c.segmentsLeft = 0 then none
  else
    (segmentEntries (cwProduct c.cw) c.fa rows).map fun m =>
      (m, if c.row + 1 < crM c.creg then { c with row := c.row + 1 } else { c with row := 0, seg := c.seg + 1 })

/-- The next thing that a command reads, where all its entries are in q2: the first entry's place, the bytes, and the command
past them (R287). -/
def Core.nextRead (k : Core) (c : MatCmd) : Option (Nat × Nat × List Byte × MatCmd) :=
  match k.startOf c with
  | none => none
  | some n =>
    let rows := (k.rowsOf c.slot).drop n
    match c.next rows with
    | none => none
    | some (m, c') => if rows.length < m then none else some (n, m, (rows.take m).flatten, c')

/-- The entries of an ended command consumed and discarded one by one as they come (R299), by fuel. -/
def Core.eat : Nat → Core → MatCmd → Core × MatCmd
  | 0, k, c => (k, c)
  | f + 1, k, c =>
    match k.startOf c with
    | none => (k, c)
    | some n =>
      let rows := (k.rowsOf c.slot).drop n
      if rows.isEmpty then (k, c)
      else
        let drop (x : MatCmd) : Core × MatCmd :=
          let x := { x with left := x.left - 1 }
          Core.eat f ({ k with q2 := dropRows c.slot n 1 k.q2, discard := k.discard.map fun y => if y.id = c.id then x else y } : Core) x
        if c.left ≠ 0 then drop c
        else
          match c.next rows with
          | none => (k, c)
          | some (m, c') => drop { c' with left := m }

/-- Everything that the ended commands of a core may consume now (R299). -/
def Core.settle (k : Core) : Core :=
  k.discard.foldl (fun (k : Core) c =>
    let (k, c') := Core.eat (k.q2.length + 1) k c
    { k with discard :=
        if c'.readAll then k.discard.filter fun x => x.id ≠ c.id
        else k.discard.map fun x => if x.id = c.id then c' else x }) k

/-- A command of the core replaced. -/
def Core.modCmd (k : Core) (c : MatCmd) : Core := { k with q1 := k.q1.map fun x => if x.id = c.id then c else x }

/-- A command ends where it stands: what it has not read is consumed and discarded as it arrives (R299). -/
def Core.endCmd (k : Core) (c : MatCmd) : Core :=
  let k := k.modCmd { c with ended := true, drained := c.seg }
  ({ k with discard := if c.readAll then k.discard else insertCmd c k.discard } : Core).settle

end Sys2Proof.Machine
end

