-- ==== Sys2Proof/Machine/Release.lean ====
section
/-! DEFINITION. What the end of a commit releases (R194, R319): words and rows into queues and FIFO stages (R172), matrix
commands into their tile queue (R295), copies (R141), rope commands (R114), spawns (R228) and signals (R390); and the delivery
of messages to a slot (R193, R408), the completion counters (R368) and the launches they belong to. -/

namespace Sys2Proof.Machine

/-! ### Launches and units by name -/

def State.launch? (s : State) (n : BitVec 32) : Option Launch := s.launches.find? fun l => l.num == n
def State.modLaunch (s : State) (n : BitVec 32) (f : Launch → Launch) : State :=
  { s with launches := s.launches.map fun l => if l.num = n then f l else l }
def State.curLaunch (s : State) : Option Launch := s.launch? s.cur.launch

/-- The launch makes progress (R404): its watchdog counts from 0 again. -/
def State.progress (s : State) (n : BitVec 32) : State := s.modLaunch n fun l => { l with progress := s.time }

/-- A unit lives at a place, for one launch. -/
def Unit.is (u : Unit) (l : Loc) (launch : BitVec 32) : Bool := u.placed && u.loc == l && u.launch == launch

/-- Every unit that satisfies a test, changed. -/
def State.modUnits (s : State) (p : Unit → Bool) (f : Unit → Unit) : State :=
  { s with
    cur := if p s.cur then f s.cur else s.cur
    others := s.others.map fun u => if p u then f u else u }

/-- The unit that a slot holds now: a pre-empted one that has left its core does not hold it. -/
def State.unitAt (s : State) (l : Loc) : Option Unit := s.units.find? fun u => u.loc == l && !u.away

/-- The issuer of the acting unit's commands (R78, R433). -/
def State.issuer (s : State) : Issuer :=
  { loc := s.cur.loc, job := s.cur.job, launch := s.cur.launch, supervisor := tsrSup s.cur.tsr, secure := s.cur.secure }

/-! ### Delivery to a slot (R193, R408) -/

/-- Element `e` put into queue `q` of a unit's slot. -/
def State.putElem (s : State) (u : Unit) (q : Nat) (e : Elem) : State :=
  let k := coreId u.loc
  if q = 0 then s.setCore k { s.core k with q0 := (s.core k).q0 ++ [(u.loc.slot, e)] }
  else if q = 3 then s.setCore k { s.core k with q3 := (s.core k).q3 ++ [(u.loc.slot, e)] }
  else if q = 6 then s.modUnits (fun v => v.is u.loc u.launch) fun v => { v with q6 := v.q6 ++ [e] }
  else s.modUnits (fun v => v.is u.loc u.launch) fun v => { v with q10 := v.q10 ++ [e] }

/-- What is addressed to a unit goes to its cluster's spill ring: the unit has left its core, or one of the slots taken with it has stopped
(R408). -/
def State.spills (s : State) (u : Unit) : Bool :=
  u.away || (u.taken && s.units.any fun v => v.taken && v.wait == .stopped && v.launch == u.launch && v.clusterId == u.clusterId)

/-- Local base of the save area of a die (R409). -/
def State.saveBase (s : State) (die : Nat) : Nat := localOf (Sparse.get 0 s.ctx die).toNat

/-- Bytes of a cluster's spill ring, and of the overflow area behind it (R11, R408, R409). -/
def ringBytes : Nat := 0x1_0000
def overflowBytes : Nat := 0x10_0000

/-- Bytes of the elements that a cluster's spill ring holds. -/
def Cluster.spilled (c : Cluster) : Nat := (c.spill.map fun e => e.elem.bytes.length).sum

/-- An element appended to the spill ring of its slot's cluster; one that the full ring does not take stands in the cluster's overflow area,
behind those before it (R408, R409). -/
def State.spill (s : State) (e : SpillElem) : State :=
  let cl := clusterId e.loc.die e.loc.cluster
  let c := s.cluster cl
  let used := c.spilled
  let t := s.setCluster cl { c with spill := c.spill ++ [e] }
  if used + e.elem.bytes.length ≤ ringBytes ∨ Config.clustersPerDie ≤ e.loc.cluster then t
  else t.setBytes (s.saveBase e.loc.die + 0x500_0000 + e.loc.cluster * overflowBytes + (used - ringBytes)) e.elem.bytes

/-- An element addressed to a unit: into its queue, into its cluster's spill ring from the first stop on (R408), or
nowhere once the unit has retired (R231). -/
def State.deliver (s : State) (l : Loc) (launch : BitVec 32) (q : Nat) (e : Elem) : State :=
  match s.units.find? fun u => u.is l launch with
  | none => s
  | some u =>
    if s.spills u then s.spill { loc := l, launch, q, elem := e }
    else s.putElem u q e

/-- The spill ring of a cluster, or its overflow area, takes one more element of `n` bytes (R408). -/
def Cluster.spillRoom (c : Cluster) (n : Nat) : Bool := decide (c.spilled + n ≤ ringBytes + overflowBytes)

/-- Elements of a queue that the units of a core could give back (R194). -/
def State.coreTentative (s : State) (core q : Nat) : Nat := ((s.units.filter fun u => u.coreId == core).map fun u => u.tentative q 0).sum

/-- A queue of the slot has room for one more element from outside: 64 messages and 64 rows of a core, 16 records and 16
receives of a slot, with those that a discarded task would give back (R193, R194). -/
def State.roomFor (s : State) (l : Loc) (launch : BitVec 32) (q : Nat) : Bool :=
  match s.units.find? fun u => u.is l launch with
  | none => true
  | some u =>
    if s.spills u then (s.cluster (clusterId l.die l.cluster)).spillRoom (if q = 3 ∨ q = 10 then 128 else 32)
    else if q = 0 then decide ((s.core (coreId l)).q0.length + s.coreTentative (coreId l) 0 < 64)
    else if q = 3 then decide ((s.core (coreId l)).q3.length + s.coreTentative (coreId l) 3 < 64)
    else if q = 6 then decide (u.q6.length + u.tentative 6 0 < 16)
    else decide (u.q10.length + u.tentative 10 0 < 16)

/-- A message of four words to the inbox of an issuer's core (R111). -/
def State.message (s : State) (i : Issuer) (ws : List Word) : State := s.deliver i.loc i.launch 0 { bytes := bytesOfWords ws }

/-- Where a message names its slot: [39:37] core, [36:34] slot (R153, R298, R426). -/
def slotField (l : Loc) : Nat := l.core % 8 * 2 ^ 37 + l.slot % 8 * 2 ^ 34

/-! ### Counters (R368, R369) -/

/-- A counter's COUNT with an increment, modulo 2^63; ERR stands (R368, R390). -/
def Counter.add (c : Counter) (n : Nat) : Counter :=
  { c with word := BitVec.ofNat 64 ((c.word.toNat % 2 ^ 63 + n) % 2 ^ 63 + bits c.word 63 63 * 2 ^ 63) }

/-- How an item ended that counts at a counter: well, or with the STAT fields of its failure. -/
def statWord (code : BitVec 16) (reason : Nat) (launch : BitVec 32) : Word :=
  word (code.toNat * 2 ^ 48 + reason * 2 ^ 40 + launch.toNat)

/-- A counter advances by 1; an error sets ERR, and STAT where ERR was 0 (R368, R369, R382). -/
def State.advance (s : State) (c : Nat) (err : Option Word) : State :=
  let k := (s.counter c).add 1
  match err with
  | none => s.setCounter c k
  | some st => s.setCounter c (if k.word.getLsbD 63 then k else { k with word := k.word ||| 0x8000_0000_0000_0000, stat := st })

/-- A counter's ERR set, and STAT where ERR was 0 (R368, R388). -/
def State.setErr (s : State) (c : Nat) (st : Word) : State :=
  let k := s.counter c
  if k.word.getLsbD 63 then s else s.setCounter c { k with word := k.word ||| 0x8000_0000_0000_0000, stat := st }

/-! ### Sends (R424 to R426) -/

/-- The value T that START stands for, near a time (R139). -/
def startTime (start : Nat) (now : Nat) : Nat :=
  let m := 2 ^ 48
  let t := now / m * m + start
  if now + 2 ^ 47 ≤ t then t - m else if t + 2 ^ 47 < now then t + m else t

/-- The element check of R425. -/
def sendOk (w0 w1 : Word) : Bool :=
  bits w0 31 0 == 0 && decide (bits w0 63 54 < Config.modules) && decide (bits w0 53 51 ≤ 5) && decide (bits w0 50 46 ≤ 19) &&
    bits w1 62 48 == 0 && (w1.getLsbD 63 || bits w1 47 0 == 0)

/-- A refused send: a message to the sender with the reason, once its inbox has room, and the launch has one send less outstanding
(R193, R353, R426). -/
def State.refuseSend (s : State) (i : Issuer) (dest : Word) (reason : Nat) : State :=
  if !s.roomFor i.loc i.launch 0 then { s with refusals := s.refusals ++ [(i, dest, reason)] }
  else
    let s := s.message i [word (0x50 * 2 ^ 56 + reason * 2 ^ 48 + slotField i.loc), dest, 0, 0]
    (s.modLaunch i.launch fun l => { l with sends := l.sends - 1 }).modUnits (fun u => u.is i.loc i.launch)
      fun u => { u with outSends := u.outSends - 1 }

/-- The refused sends that have waited for room try again, in order. -/
def State.retryRefusals (s : State) : State :=
  s.refusals.foldl (fun (t : State) r => t.refuseSend r.1 r.2.1 r.2.2) { s with refusals := [] }

/-- The ADDR field of a SEND packet (R422). -/
def sendAddr (w0 : Word) : Nat :=
  bits w0 53 51 * 2 ^ 43 + bits w0 50 46 * 2 ^ 38 + bits w0 45 43 * 2 ^ 35 + bits w0 42 40 * 2 ^ 32 + bits w0 39 32 * 2 ^ 24

/-- A send leaves the egress of its die (R425): it takes the next LSEQ of its lane, and its 112 payload bytes travel. -/
def State.emitSend (s : State) (i : Issuer) (b : List Byte) : State :=
  let w0 := word (ofBytes (b.take 8))
  let dst := bits w0 63 54
  let q := s.nextLseq i.loc.die dst
  let s := s.send .send i.loc.die dst (sendAddr w0) 0 (b.drop 16)
  { s with remotes := s.remotes ++
      [{ sdie := i.loc.die, dst, lseq := q, typ := .send, loc := i.loc, pa := sendAddr w0, size := 128, data := b, launch := i.launch, secure := i.secure }] }

/-- A released send element (R425): refused where its check fails, held at the egress while its start time is to come. -/
def State.releaseSend (s : State) (i : Issuer) (b : List Byte) : State :=
  let w0 := word (ofBytes (b.take 8))
  let w1 := word (ofBytes ((b.drop 8).take 8))
  let s := (s.modLaunch i.launch fun l => { l with sends := l.sends + 1 }).modUnits (fun u => u.is i.loc i.launch)
    fun u => { u with outSends := u.outSends + 1 }
  if !sendOk w0 w1 then s.refuseSend i w0 9
  else if w1.getLsbD 63 && decide (s.time.toNat < startTime (bits w1 47 0) s.time.toNat) then
    let d := s.die i.loc.die
    s.setDie i.loc.die { d with egress := d.egress ++ [(b, i)] }
  else s.emitSend i b

/-! ### Release (R194, R319) -/

/-- A whole entry appended to a FIFO stage (R172). -/
def State.appendEntry (s : State) (stream : Nat) (b : List Byte) : State :=
  s.setStreamElems stream (s.streamElems stream ++ [{ bytes := b }])

/-- Bytes of a FIFO entry of a stream. -/
def State.streamEntry (s : State) (stream : Nat) : Nat :=
  entrySize ((s.cluster (stream / 4096)).configOf (stream % 4096 / 256))

/-- A word of q8, q9 or q11 joins the entry, element or record that the slot builds (R172, R375, R424). -/
def State.releaseWord (s : State) (q : QReg) (stream : Nat) (x : Word) : State :=
  let u := s.cur
  if q = 8 then
    let b := (if u.q8Stream = stream then u.q8 else []) ++ bytesOf 8 x.toNat
    if s.streamEntry stream ≤ b.length then (s.setCur { u with q8 := [] }).appendEntry stream b
    else s.setCur { u with q8 := b, q8Stream := stream }
  else if q = 9 then
    let l := u.q9 ++ [x]
    if l.length = 16 then (s.setCur { u with q9 := [] }).releaseSend s.issuer (bytesOfWords l) else s.setCur { u with q9 := l }
  else if q = 11 then s.setCur { u with q11 := u.q11 ++ [x] }
  else s

/-- A whole row of q2, q8 or q9. -/
def State.releaseRow (s : State) (q : QReg) (stream : Nat) (b : List Byte) : State :=
  if q = 2 then s.setCurCore ({ s.curCore with q2 := s.curCore.q2 ++ [(s.cur.loc.slot, b)] } : Core).settle
  else if q = 8 then s.appendEntry stream b
  else if q = 9 then s.releaseSend s.issuer b
  else s

/-- An entry added to the queue of a tile (R295). -/
def Core.pushTile (c : Core) (y : Nat) (o : TileOp) : Core :=
  { c with tileQ := Sparse.put c.tileQ y ((Sparse.find? c.tileQ y).getD [] ++ [o]) }

/-- A matrix command enters its core's order and the queue of its tile (R289, R295). -/
def State.releaseMatrix (s : State) (c : MatCmd) : State :=
  let c := { c with id := s.ids, cancelled := s.cur.cancelled }
  let k := ({ s.curCore with q1 := s.curCore.q1 ++ [c] } : Core).pushTile (bits c.cw 1 0) (.cmd c.id)
  let s := { s.setCurCore (if c.cancelled then k.endCmd c else k) with ids := s.ids + 1 }
  s.modCur fun u =>
    { u with
      outMats := u.outMats + 1
      outMatsC := u.outMatsC + (if c.cw.getLsbD 7 then 1 else 0)
      outMatsOut := u.outMatsOut + (if c.cw.getLsbD 6 then 1 else 0) }

/-- A rope command put among others in the order in which their commits became visible, behind those of its own commit (R105). -/
def insertRope (c : RopeCmd) : List RopeCmd → List RopeCmd
  | [] => [c]
  | x :: r => if c.order < x.order then c :: x :: r else x :: insertRope c r

/-- A rope command enters its engine's queue (R105, R114). -/
def State.releaseRope (s : State) (c : RopeCmd) : State :=
  let d := s.die s.cur.loc.die
  let s := s.setDie s.cur.loc.die { d with q5 := insertRope c d.q5 }
  s.modCur fun u =>
    { u with
      outRopes := u.outRopes + (if c.form = .plain then 1 else 0)
      outRopesI := u.outRopesI + (if c.form = .inbox then 1 else 0) }

/-- The key under which a die keeps what the command processor sends it for the unplaced units of a launch (R322). -/
def cpDie : Nat := 8

/-- A die that begins to hold a unit of a launch, or the command processor that begins to hold a child, counts at its timestamp for
the others: what they have received is never too high (R322). -/
def State.lowerTs (s : State) (die : Nat) (launch ts : BitVec 32) : State :=
  let lower (e : Nat × BitVec 32 × BitVec 32) : Nat × BitVec 32 × BitVec 32 :=
    if e.1 = die ∧ e.2.1 = launch ∧ ts.toNat < e.2.2.toNat then (e.1, e.2.1, ts) else e
  { s with dies := s.dies.map fun (d : Nat × Die) => (d.1, { d.2 with lowTs := d.2.lowTs.map lower }) }

/-- A spawn becomes the launch's next unit (R228, R322, R377). -/
def State.releaseSpawn (s : State) (r : SpawnRec) : State :=
  match s.curLaunch with
  | none => s
  | some l =>
    ({ s.modLaunch l.num (fun l => { l with spawned := l.spawned + 1 }) with
      waiting := s.waiting ++ [{ launch := l.num, unit := l.nu + l.spawned, spawn := some r }] } : State).lowerTs cpDie l.num r.ts

/-- A released copy that has not started ends with CANCELLED, in its slot's order (R148, R151). -/
def State.endCopy (s : State) (r : CopyReq) : State :=
  let c := clusterId r.by'.loc.die r.by'.loc.cluster
  s.setCluster c { s.cluster c with ending := (s.cluster c).ending ++ [r] }

/-- A copy enters its slot's queue; that of a unit cancelled meanwhile ends (R141, R151, R383). -/
def State.releaseCopy (s : State) (r : CopyReq) : State :=
  let r := { r with released := s.time }
  let s := s.modCur fun u => { u with outCopies := u.outCopies + 1 }
  if s.cur.cancelled then s.endCopy r else s.modCur fun u => { u with copies := u.copies ++ [r] }

/-- One held item released into its reserved place (R319, step 4); a command whose unit was cancelled meanwhile ends with CANCELLED (R383). -/
def State.release (s : State) : Held → State
  | .word q st x => s.releaseWord q st x
  | .row q st b => s.releaseRow q st b
  | .matrix c => s.releaseMatrix c
  | .copy r => s.releaseCopy r
  | .rope c => s.releaseRope { c with order := s.cur.visibleAt, cancelled := s.cur.cancelled }
  | .spawn r => s.releaseSpawn r
  | .signal c n => s.setCounter c ((s.counter c).add n.toNat)

end Sys2Proof.Machine
end

