-- ==== Sys2Proof/Machine/Tasks.lean ====
section
/-! DEFINITION. The commit of a task (R224, R316 to R324, R328): its prepare phase (translation, timestamp rule, locks), its
visible phase, and what begins after it. A commit that must wait keeps its continuation in the unit; the unit's next turn
tries again. -/

namespace Sys2Proof.Machine

/-! ### Locks given back (R317, R328, R352) -/

/-- The commit gives back every lock it holds, here and at other modules (R328, R352). -/
def State.unlockAll (s : State) : State :=
  let mine := s.cur.task.locked
  let s := { s with locks := s.locks.filter fun w => !mine.contains w }
  let s := (mine.filter fun w => !s.isLocal w).foldl
    (fun t w => t.send .unlock t.cur.loc.die (moduleOf w) (localOf w) 0 []) s
  s.modCur fun u => { u with task := { u.task with locked := [] } }

/-- A commit that gives its locks back prepares again, and a lock refused at the head of a lane is withdrawn; a non-speculative task keeps
what it has written through locked (R328, R352). -/
def State.relock (s : State) : State :=
  ((if s.cur.task.nonspec then s else s.unlockAll).withdrawHoles fun h => h.typ == .lock && h.loc == s.cur.loc).modCur
    fun u => { u with prepared := none }

/-! ### Prepare: translation (R317, step 1) -/

/-- How a prepare phase stands: what the commit will perform, and the first expiry of its translations. -/
inductive Prep where
  | ok (s : State) (l : List Perform) (expiry : Nat)
  | wait (s : State)
  | trap (s : State) (t : TrapInfo)
  deriving DecidableEq, Repr

/-- An expiry after every TIME: that of an aperture access, which no slice translates (R161). -/
def noExpiry : Nat := 2 ^ 64

/-- A fault of the prepare phase: the task stays commit-pending on its mailbox (R79, R316). It never waits there with a lock held: one that
translates again after a stale refusal gives its locks back first (R317). -/
def State.prepFault (s : State) (acc : Acc) (va : Nat) (c : Cause) (e : Word) : Prep :=
  match (if s.cur.task.locked.isEmpty then s else s.relock).faultCur acc va c e true 0 with
  | .trap t i => .trap t i
  | .wait t => .wait t
  | .ok t _ => .wait t

/-- One span of the task translated for a write or an atomic; what its home will refuse is found here (R164, R165, R317,
R355, R357, R436). -/
def State.prepSpan (s : State) (va : Nat) (acc : Acc) (red : Option (AtomOp × AType)) (k : Nat → Perform) : Prep :=
  let u := s.cur
  match s.translate (sliceDie u.loc.die) u.job va acc (tsrSup u.tsr) u.secure with
  | (t, .fault c e) => t.prepFault acc va c e
  | (t, .wait) => .wait t
  | (t, .ok pa e x) =>
    if !t.isLocal pa then .ok t [k pa] x
    else
      match t.writeRefused u.secure false pa with
      | some c => t.prepFault acc va c e
      | none =>
        match red, regionOf (localOf pa) with
        | some (op, ty), .host _ =>
          if t.hostCompletes (localOf pa) op ty then .ok t [k pa] x
          else .trap t { trap := .hostAtomic, faddr := word va, td := true }
        | _, _ => .ok t [k pa] x

/-- What follows a preparation that has succeeded. -/
def Prep.andThen (p : Prep) (f : State → Prep) : Prep :=
  match p with
  | .ok t l x =>
    match f t with
    | .ok t' l' y => .ok t' (l ++ l') (min x y)
    | .wait t' => .wait t'
    | .trap t' i => .trap t' i
  | .wait t => .wait t
  | .trap t i => .trap t i

/-- Pieces of a store, cut at 256-byte boundaries (R69). -/
def State.prepPieces (s : State) (va : Nat) (b : List Byte) : List (Nat × Nat) → Prep
  | [] => .ok s [] noExpiry
  | (a, n) :: rest =>
    (s.prepSpan a .write none fun pa => .bytes pa (word a) ((b.drop (a - va)).take n)).andThen fun t => State.prepPieces t va b rest

/-- An aperture access is at home in its bank, and waits while that bank is being zeroed (R163, R182). -/
def State.prepAperture (s : State) (va : Word) (p : Perform) : Prep := if s.apertureWaits va then .wait s else .ok s [p] noExpiry

/-- One operation of the task: aperture bytes are at home in the bank, others are translated (R163, R317). -/
def State.prepOp (s : State) : TaskOp → Prep
  | .store va b =>
    if s.cur.inAperture va then s.prepAperture va (.bytes (s.paOf (s.cur.loftAddr va)) va b)
    else s.prepPieces va.toNat b (pieces256 va.toNat b.length)
  | .reduce va op t y =>
    if s.cur.inAperture va then s.prepAperture va (.reduce (s.paOf (s.cur.loftAddr va)) va op t y)
    else s.prepSpan va.toNat .atomic (some (op, t)) (fun pa => .reduce pa va op t y)
  | .tag va t =>
    s.prepAperture va (.tag s.cur.clusterId (s.cur.apertureBank va) ((va.toNat - s.cur.lap.toNat) % 0x8_0000 / 4096) t)

/-- Every span of the task, in program order. -/
def State.prepare (s : State) : List TaskOp → Prep
  | [] => .ok s [] noExpiry
  | op :: rest => (s.prepOp op).andThen fun t => State.prepare t rest

/-! ### Prepare: the timestamp rule (R317 step 2, R321, R322) -/

/-- The lowest uncommitted timestamp of a launch on one die, none where the launch has no unit there. -/
def State.dieLow (s : State) (d : Nat) (launch : BitVec 32) : Option Nat :=
  (s.units.filterMap fun u => if u.loc.die = d ∧ u.launch = launch then some u.task.tstamp.toNat else none).min?

/-- The lowest timestamp of the launch's units that wait for placement: 0 for a unit of the record, its own for a child. -/
def State.cpLow (s : State) (launch : BitVec 32) : Option Nat :=
  (s.waiting.filterMap fun p =>
    if p.launch = launch then
      some (match p.spawn with
        | some r => r.ts.toNat
        | none => 0)
    else none).min?

/-- The value that die `d` last received from a part for a launch, which holds until the next one comes; 0 where the part has units of the
launch and none has come. -/
def Die.received (d : Die) (from' : Nat) (launch : BitVec 32) (has : Bool) : Option Nat :=
  match d.lowTs.find? fun e => e.1 == from' && e.2.1 == launch with
  | some e => some e.2.2.toNat
  | none => if has then some 0 else none

/-- The lowest uncommitted timestamp of a launch as a die knows it: its own exact value, and the last one received from every
other die, and from the command processor (R322, R229). -/
def State.lowest (s : State) (die : Nat) (launch : BitVec 32) : Nat :=
  let d := s.die die
  let far := (upTo 8).filterMap fun o => if o = die then none else d.received o launch (s.dieLow o launch).isSome
  let cp := (d.received cpDie launch (s.cpLow launch).isSome).toList
  let own := match s.dieLow die launch with
    | some x => [x]
    | none => []
  (own ++ far ++ cp).min?.getD 0

/-- No task of the launch with a timestamp below the acting unit's is still uncommitted, as its die knows it (R321). -/
def State.timestampOk (s : State) : Bool := decide (s.cur.task.tstamp.toNat ≤ s.lowest s.cur.loc.die s.cur.launch)

/-! ### Prepare: locks (R317 step 3, R318, R320, R328) -/

/-- A store to the host window takes no lock (R318). -/
def isHost (pa : Nat) : Bool :=
  match regionOf (localOf pa) with
  | .host _ => true
  | .hbm _ _ => false
  | .lpddr _ => false
  | .granary _ _ => false
  | .loft _ _ _ _ => false
  | .hub _ _ => false
  | .reserved => false

/-- A word that a commit asks its home for: its physical address, its virtual one, and what a LOCK packet says of it. -/
abbrev LockAsk := Nat × Nat × List Byte

/-- The words of a span with their virtual addresses. -/
def askWords (pa va n : Nat) : List LockAsk := (spanWords pa n).mapIdx fun i w => (w, alignDown va 4 + 4 * i, [])

/-- What a commit asks the homes of its write set for. The host window takes no lock (R318); where it is another module's, a held
reduction on it is announced to its hub, which refuses it in the prepare phase (R355, log 13). -/
def Perform.asks (s : State) : Perform → List LockAsk
  | .bytes pa va b => if isHost pa then [] else askWords pa va.toNat b.length
  | .reduce pa va op t _ =>
    if !isHost pa then askWords pa va.toNat (typeBytes t)
    else if s.isLocal pa then []
    else [(pa, va.toNat, [BitVec.ofNat 8 op.code, BitVec.ofNat 8 (atypeCode t)])]
  | .tag _ _ _ _ => []

/-- Ascending by (module, physical address), each word once. -/
def insertWord (w : LockAsk) : List LockAsk → List LockAsk
  | [] => [w]
  | x :: r => if w.1 = x.1 then x :: r else if w.1 < x.1 then w :: x :: r else x :: insertWord w r

/-- The locks of a write set, in the order in which they are taken. -/
def State.lockOrder (s : State) (l : List Perform) : List LockAsk := (l.flatMap (Perform.asks s)).foldr insertWord []

/-- The write signature of the performs (R323); a tag write stands for the first word of its granule in the window. -/
def Perform.sig (s : State) : Perform → BitVec 1024
  | .bytes pa _ b => sigSpan pa b.length
  | .reduce pa _ _ t _ => sigSpan pa (typeBytes t)
  | .tag c b g _ => sigBits (s.paOf (loftWindow (c / 20) (c % 20) + b * 0x8_0000 + g * 4096))

/-- The write signature of a commit: what it performs, and what a non-speculative task has written through (R323, R328). -/
def writeSig (s : State) (l : List Perform) : BitVec 1024 := l.foldl (fun g p => g ||| p.sig s) s.cur.task.wsig

/-- The performs all lie in the unit's own cluster's scratch or local stores (R320). -/
def State.scratchOnly (s : State) (l : List Perform) : Bool :=
  s.cur.task.wsig == 0 && l.all fun p =>
    match p with
    | .bytes pa _ _ => s.isLocal pa && decide (loftWindow s.cur.loc.die s.cur.loc.cluster ≤ localOf pa) &&
        decide (localOf pa < loftWindow s.cur.loc.die s.cur.loc.cluster + 0x80_0000)
    | .reduce pa _ _ _ _ => s.isLocal pa && decide (loftWindow s.cur.loc.die s.cur.loc.cluster ≤ localOf pa) &&
        decide (localOf pa < loftWindow s.cur.loc.die s.cur.loc.cluster + 0x80_0000)
    | .tag _ _ _ _ => true

/-- A word is locked by another unit's non-speculative task (R328). -/
def State.nonspecLock (s : State) (w : Nat) : Bool := s.others.any fun u => u.placed && u.task.nonspec && u.task.locked.contains w

/-- How the lock step stands: `stale` where the span of a lock is to be translated again (R317). -/
inductive Locking where
  | held
  | wait
  | stale
  | refused (va reason : Nat)
  deriving DecidableEq, Repr

/-- A word joins the locks of the acting unit's commit. -/
def Unit.lock (u : Unit) (w : Nat) : Unit := { u with task := { u.task with locked := u.task.locked ++ [w] } }

/-- The locks taken in order (R317, R318): a home that would refuse the write now gives none, and the span is prepared again (R436, R437). One
that meets a non-speculative task's lock gives back all of them (R328). -/
def State.takeLocks (s : State) (expiry : Nat) : List LockAsk → State × Locking
  | [] => (s, .held)
  | (w, va, data) :: rest =>
    if s.cur.task.locked.contains w then State.takeLocks s expiry rest
    else if s.isLocal w then
      let s := s.leavePlace .lock s.cur.loc va
      if !s.cur.inAperture (word va) && (s.writeRefused s.cur.secure false w).isSome then (s, .stale)
      else if s.lockedAgainst w 4 then (if s.nonspecLock w && !s.cur.task.nonspec then s.unlockAll else s, .wait)
      else State.takeLocks { s with locks := s.locks ++ [w], cur := s.cur.lock w } expiry rest
    else
      match s.ask .lock s.cur.loc va w 4 expiry data s.cur.secure with
      | (t, .wait) => (t, if t.laneHoles.any fun h => h.at .lock s.cur.loc va then .stale else .wait)
      | (t, .answer .refuse reason _) => (t, .refused va reason)
      | (t, .answer _ _ _) => State.takeLocks (t.modCur (·.lock w)) expiry rest

/-- Another unit's non-speculative task has read a word that this commit writes (R328). -/
def State.nonspecReads (s : State) (g : BitVec 1024) (p : Unit → Bool) : Bool :=
  s.others.any fun u => u.placed && p u && u.task.nonspec && u.task.rsig &&& g != 0

/-! ### The visible phase (R319) -/

/-- One perform at a home of this module. -/
def State.performLocal (s : State) : Perform → State
  | .bytes pa _ b => s.homeSet pa b
  | .reduce pa _ op t y =>
    let n := typeBytes t
    match op.apply t (ofBytes (s.homeGet pa n)) y.toNat 0 with
    | some x => s.homeSet pa (bytesOf n x)
    | none => s
  | .tag c b g t => s.setCluster c { s.cluster c with tags := Sparse.set 0 (s.cluster c).tags (b * 128 + g) t }

/-- One perform sent to another module. -/
def State.performFar (s : State) (pa va expiry : Nat) (typ : PktType) (data : List Byte) : State :=
  s.request { sdie := s.cur.loc.die, dst := moduleOf pa, lseq := 0, typ, loc := s.cur.loc, pa, va, size := data.length, data, commit := true, secure := s.cur.secure,
              launch := s.cur.launch } expiry

/-- An access that a hub is still to perform names a word of a span (R344, R345). -/
def Hub.queued (h : Hub) (pa n : Nat) : Bool :=
  h.atomics.any fun a => (spanWords a.pa ((a.store.map List.length).getD (typeBytes a.t))).any fun w => (spanWords pa n).contains w

/-- A store to this module's host window: performed at once, or at the hub behind an earlier access to one of its words (R344, R345). -/
def State.hostStore (s : State) (h pa : Nat) (va : Word) (b : List Byte) : State :=
  let k := s.hub h
  if k.queued pa b.length then
    s.setHub h { k with atomics := k.atomics ++
      [{ loc := s.cur.loc, op := .swap, t := .w, ea := va, pa, y := 0, cmp := 0, pend := 0, commit := true, store := some b }] }
  else s.homeSet pa b

/-- One perform, sent to its module or done here; a reduction on this module's host window goes to its hub, which performs it with
PCIe AtomicOps (R354). A store to another module's host window has taken no lock, so it carries its lease (R73). -/
def State.perform (s : State) (expiry : Nat) (p : Perform) : State :=
  match p with
  | .bytes pa va b =>
    if s.isLocal pa then
      match regionOf (localOf pa) with
      | .host h => s.hostStore h pa va b
      | .hbm _ _ => s.performLocal p
      | .lpddr _ => s.performLocal p
      | .granary _ _ => s.performLocal p
      | .loft _ _ _ _ => s.performLocal p
      | .hub _ _ => s.performLocal p
      | .reserved => s.performLocal p
    else if isHost pa then s.performFar pa va.toNat expiry .write b
    else s.performFar pa va.toNat 0 .perform b
  | .reduce pa va op t y =>
    if !s.isLocal pa then s.performFar pa va.toNat 0 .atomic (atomicData op t true (y.zeroExtend 128) 0)
    else
      match regionOf (localOf pa) with
      | .host h =>
        let k := s.hub h
        s.setHub h { k with atomics := k.atomics ++
          [{ loc := s.cur.loc, op, t, ea := va, pa, y := y.zeroExtend 128, cmp := 0, pend := 0, commit := true }] }
      | .hbm _ _ => s.performLocal p
      | .lpddr _ => s.performLocal p
      | .granary _ _ => s.performLocal p
      | .loft _ _ _ _ => s.performLocal p
      | .hub _ _ => s.performLocal p
      | .reserved => s.performLocal p
  | .tag _ _ _ _ => s.performLocal p

def Perform.host : Perform → Bool
  | .bytes pa _ _ => isHost pa
  | .reduce pa _ _ _ _ => isHost pa
  | .tag _ _ _ _ => false

def Perform.isTag : Perform → Bool
  | .bytes _ _ _ => false
  | .reduce _ _ _ _ _ => false
  | .tag _ _ _ _ => true

/-- Data first, then tags (R177), then the stores to the host window (R318). -/
def performOrder (l : List Perform) : List Perform :=
  (l.filter fun p => !p.host && !p.isTag) ++ (l.filter Perform.isTag) ++ (l.filter Perform.host)

/-- What takes its place in the order of the commits as they become visible: an `lbank` among those of its cluster (R182). -/
def State.visibleCont (s : State) : Cont → State
  | .lbank _ _ _ =>
    let k := s.curCluster
    if k.lbanks.contains s.cur.loc then s else s.setCurCluster { k with lbanks := k.lbanks ++ [s.cur.loc] }
  | .tcommit => s
  | .tbegin _ _ => s
  | .ret => s
  | .atC _ => s
  | .atomic _ _ _ _ _ _ _ => s
  | .sc _ _ _ _ _ _ _ _ => s
  | .lhz _ _ _ => s
  | .lrng _ _ => s
  | .rope _ _ _ => s
  | .fence _ _ => s
  | .bar _ _ => s
  | .lcancel _ _ => s
  | .gang _ => s
  | .exit _ => s

/-- Marks, performs in program order, locks of this module released, ways cleared (R319, steps 1 to 3). -/
def State.makeVisible (s : State) (expiry : Nat) (l : List Perform) (p : Unit → Bool) : State :=
  let g := writeSig s l
  let s := s.mark g p
  let s := (performOrder l).foldl (fun t x => t.perform expiry x) s
  let s := { s with locks := s.locks.filter fun w => !s.cur.task.locked.contains w }
  { s.clearSig g with ids := s.ids + 1 }.modCur fun u =>
    { u with visible := true, visibleAt := s.ids, task := { u.task with wsig := g, locked := u.task.locked.filter fun w => !s.isLocal w } }

/-- A perform of the acting unit's commit has not been acknowledged at its home. -/
def State.performsOut (s : State) : Bool :=
  (s.remotes.any fun r => r.commit && r.loc == s.cur.loc && (r.answer.all fun a => a.1 == .refuse)) ||
    s.hubs.any fun (h : Nat × Hub) => h.2.atomics.any fun a => a.commit && a.asker == .unit && a.loc == s.cur.loc

/-- A perform that another module has refused (R352): it is translated again where the refusal was stale, up to the eighth in a row
(R74), and otherwise its fault is posted and a RETRY sends it again. It keeps its place in its lane. A reduction that its host has not
completed leaves the lane, and the unit takes HOST_ATOMIC once its commit has ended (R355, log 57). -/
def State.retryPerform (s : State) (r : Remote) : State :=
  let u := s.cur
  let s : State := { s with remotes := s.remotes.filter (· ≠ r) }
  let reason := (r.answer.map fun a => a.2.1).getD 6
  if reason = 9 then
    (s.withdraw r.sdie r.dst r.lseq).modCur fun u => { u with owed := u.owed ++ [{ hostTrap (word r.va) with beyond := true }] }
  else
  let fault (t : State) (c : Cause) (e : Word) : State :=
    let f : Fault' := { token := 0, src := if u.wain then .wain else .worker, loc := u.loc, job := u.job, cause := c, acc := .write, va := word r.va,
                        entry := e, committing := false, pend := 0, launch := u.launch, item := r.lseq + 1 }
    match t.post f with
    | none => { t with remotes := t.remotes ++ [r] }
    | some t =>
      { t with
        remotes := t.remotes ++ [{ r with posted := true }]
        cur := { t.cur with mail := t.cur.mail ++ t.lastToken } }
  if !r.posted && reason ≠ 6 then fault s (causeOfReason reason) 0
  else if !r.posted && 7 ≤ r.refusals then fault s .staleHome 0
  else
    let n := if r.posted then 0 else r.refusals + 1
    match (if r.typ = .write then s.translate (sliceDie u.loc.die) u.job r.va .write (tsrSup u.tsr) u.secure else (s, .ok r.pa 0 0)) with
    | (t, .fault c e) => fault t c e
    | (t, .wait) => { t with remotes := t.remotes ++ [r] }
    | (t, .ok pa _ x) => (t.keepPlace r).request { r with pa, dst := moduleOf pa, answer := none, refusals := n, posted := false } x

/-- The refused performs of the acting unit's commit are sent again; a cancelled unit withdraws those whose fault was posted (R84, R352). -/
def State.retryPerforms (s : State) : State :=
  (s.remotes.filter fun r => r.commit && r.loc == s.cur.loc && (r.answer.any fun a => a.1 == .refuse)).foldl
    (fun (t : State) r => if t.cur.cancelled && r.posted then t.dropRemote r else t.retryPerform r) s

/-! ### The commit step (R224) -/

/-- Where the next task restarts: past the committing instruction. A waiting `gang` is issued again (R222, log 14), and a
return's next task begins where the unit stands (R218). -/
def Unit.nextRestart (u : Unit) (c : Cont) (lone : Bool) : Word × Bool :=
  let after (u : Unit) : Word × Bool := let v := u.pastC lone; (v.pc, v.aslot)
  match c with
  | .ret => (u.pc, u.aslot)
  | .gang _ => (u.pc, u.aslot)
  | .tcommit => after u
  | .tbegin _ _ => after u
  | .atC _ => after u
  | .atomic _ _ _ _ _ _ _ => after u
  | .sc _ _ _ _ _ _ _ _ => after u
  | .lhz _ _ _ => after u
  | .lbank _ _ _ => after u
  | .lrng _ _ => after u
  | .rope _ _ _ => after u
  | .fence _ _ => after u
  | .bar _ _ => after u
  | .lcancel _ _ => after u
  | .exit _ => after u

/-- The timestamp and live-in mask of the next task: kept, set by `tbegin` (R227), or without the window's registers after a
return (R218). -/
def Unit.nextTask (u : Unit) (c : Cont) : BitVec 32 × Word :=
  match c with
  | .tbegin ts m => (ts, m)
  | .ret => (u.task.tstamp, u.task.mask &&& 0xFFFF_FFFF_0000_00FF)
  | .tcommit => (u.task.tstamp, u.task.mask)
  | .atC _ => (u.task.tstamp, u.task.mask)
  | .atomic _ _ _ _ _ _ _ => (u.task.tstamp, u.task.mask)
  | .sc _ _ _ _ _ _ _ _ => (u.task.tstamp, u.task.mask)
  | .lhz _ _ _ => (u.task.tstamp, u.task.mask)
  | .lbank _ _ _ => (u.task.tstamp, u.task.mask)
  | .lrng _ _ => (u.task.tstamp, u.task.mask)
  | .rope _ _ _ => (u.task.tstamp, u.task.mask)
  | .fence _ _ => (u.task.tstamp, u.task.mask)
  | .bar _ _ => (u.task.tstamp, u.task.mask)
  | .lcancel _ _ => (u.task.tstamp, u.task.mask)
  | .gang _ => (u.task.tstamp, u.task.mask)
  | .exit _ => (u.task.tstamp, u.task.mask)

/-- The end of a commit (R319 steps 4 and 5, R224): locks at other modules go back, held items are released in program order,
pops are final, TID counts the task, and the next task begins. -/
def State.endCommit (s : State) (c : Cont) (lone : Bool) : State :=
  let s := { s with remotes := s.remotes.filter fun r => !(r.commit && r.loc == s.cur.loc) }
  let s := s.unlockAll
  let held := s.cur.task.held
  let s := held.foldl State.release s
  let s := { s with token := if s.holdsToken then none else s.token }
  let u := s.cur
  let (pc, a) := u.nextRestart c lone
  let (ts, m) := u.nextTask c
  (s.setCur ({ u with tid := u.tid + 1, aborts := 0, retCommit := u.retCommit && decide (c ≠ Cont.ret) }.beginTask ts m pc a)).progress u.launch

/-- The unit's commit waits; its next turn tries again. -/
def State.commitWaits (s : State) (c : Cont) (lone : Bool) : Out :=
  (s.modCur fun u => { u with commit := some (c, lone) }).wait

/-- `at.c` takes its locks only once TIME has reached T (R220). -/
def Cont.notYet (c : Cont) (now : Word) : Bool :=
  match c with
  | .atC t => decide (now.toNat < t.toNat)
  | .tcommit => false
  | .tbegin _ _ => false
  | .ret => false
  | .atomic _ _ _ _ _ _ _ => false
  | .sc _ _ _ _ _ _ _ _ => false
  | .lhz _ _ _ => false
  | .lbank _ _ _ => false
  | .lrng _ _ => false
  | .rope _ _ _ => false
  | .fence _ _ => false
  | .bar _ _ => false
  | .lcancel _ _ => false
  | .gang _ => false
  | .exit _ => false

/-- An access of the unit that is still to be performed comes before the commit: a load of its own task (R343), and an earlier access to a
word that the task writes (R345, R346). -/
def Unit.accessBefore (u : Unit) : Bool :=
  let writes (ea : Word) (n : Nat) : Bool := (vaWords ea n).any fun w => u.task.words.contains w
  u.pend.any fun p => !p.ready &&
    (match p.act with
     | .load _ _ _ _ tid _ => tid == u.tid
     | .pop _ _ _ => false
     | .qwait _ _ => false
     | .wcwait _ => false
     | .atomic _ t ea _ _ => writes ea (typeBytes t)
     | .sc _ _ z ea _ _ _ => writes ea (match z with
        | .w => 4
        | .d => 8)
     | .rope _ => false
     | .record => false
     | .far ea n => writes ea n
     | .answer => false)

/-- How far a turn brings a commit: it has ended, or it waits or raises a trap. -/
inductive CommitRes where
  | ended (s : State)
  | still (out : Out)

/-- A home of this module would not take a perform now that no lock of its words has made it accept: its state, its world or its bank has
changed since the translation (R182, R357, R436, R437). -/
def State.homeChanged (s : State) (locked : Bool) : Perform → Bool
  | .bytes pa va _ =>
    if s.cur.inAperture va then s.apertureWaits va
    else s.isLocal pa && (!locked || isHost pa) && (s.writeRefused s.cur.secure false pa).isSome
  | .reduce pa va _ _ _ =>
    if s.cur.inAperture va then s.apertureWaits va
    else s.isLocal pa && (!locked || isHost pa) && (s.writeRefused s.cur.secure false pa).isSome
  | .tag c b _ _ => (s.cluster c).zeroing.contains b

/-- The locks that a commit holds are the first ones of its order, as it prepares them now. -/
def Unit.locksKept (u : Unit) (order : List LockAsk) : Bool :=
  u.task.nonspec || u.task.locked == (order.map fun w => w.1).take u.task.locked.length

/-- The lock step and the visible phase of a commit that is translated (R317, R319). A lock refused as stale is translated again, and one
refused for another cause waits for the reply to its fault: both keep their places and the locks taken before them (R352). One that the
host could not complete discards the task (R355). -/
def State.lockStep (s : State) (c : Cont) (lone : Bool) (l : List Perform) (expiry : Nat) : CommitRes :=
  let scratch := s.scratchOnly l && s.cur.task.held.isEmpty
  let near (u : Unit) : Bool := !scratch || u.clusterId == s.cur.clusterId
  let order := s.lockOrder l
  let again (t : State) : State := t.modCur fun u => { u with prepared := none }
  let trap (t : State) (i : TrapInfo) : CommitRes := .still ((t.modCur fun u => { u with commit := none }).raise i)
  if expiry ≤ s.time.toNat || !s.cur.locksKept order then .still (s.relock.commitWaits c lone)
  else if scratch && order.any (fun w => s.lockedAgainst w.1 4) then .still (s.commitWaits c lone)
  else
    match if scratch then (s, .held) else s.takeLocks expiry order with
    | (t, .wait) => .still (t.commitWaits c lone)
    | (t, .stale) => .still ((again t).commitWaits c lone)
    | (t, .refused va reason) =>
      if reason = 9 then trap t.relock { trap := .hostAtomic, faddr := word va, td := true }
      else
        match (again t).faultCur .write va (causeOfReason reason) 0 true 0 with
        | .ok t _ => .still (t.commitWaits c lone)
        | .wait t => .still (t.commitWaits c lone)
        | .trap t i => trap t.relock i
    | (t, .held) =>
      if t.nonspecReads (writeSig t l) near || l.any (t.homeChanged !scratch) then .still (t.relock.commitWaits c lone)
      else
        let t := (t.makeVisible expiry l near).visibleCont c
        if t.performsOut then .still (t.commitWaits c lone) else .ended (t.endCommit c lone)

/-- A turn of the commit of the current task (R316). Its spans are translated once, and again only where a translation has run out before
the visible phase (R317). A trap of the prepare phase discards the task and is taken at the committing instruction. -/
def State.commitStep (s : State) (c : Cont) (lone : Bool) : CommitRes :=
  if s.cur.visible then
    let s := s.retryPerforms
    if s.performsOut then .still (s.commitWaits c lone) else .ended (s.endCommit c lone)
  else
    match s.cur.prepared with
    | some (l, x) => s.lockStep c lone l x
    | none =>
      match s.prepare s.cur.task.ops with
      | .wait t => .still (t.commitWaits c lone)
      | .trap t i => .still ((t.modCur fun u => { u with commit := none }).raise i)
      | .ok t l x =>
        if !t.timestampOk || c.notYet t.time || t.cur.accessBefore then .still (t.commitWaits c lone)
        else (t.modCur fun u => { u with prepared := some (l, x) }).lockStep c lone l x

/-- The commit of the current task, and what follows it (R224, R316). -/
def State.withCommit (s : State) (c : Cont) (lone : Bool) (k : State → Out) : Out :=
  match s.commitStep c lone with
  | .ended t => k t
  | .still out => out

end Sys2Proof.Machine
end

