-- ==== Sys2Proof/Machine/Mem.lean ====
section
/-! DEFINITION. Loads and stores (R174 to R179), address formation (R214), and the cache and Loft control instructions of
opcode 0x19 (R180 to R185). -/

namespace Sys2Proof.Machine

/-! ### Addresses (R175) -/

/-- The address checks of R175 for an access of `n` bytes with an alignment: codes 6, 7 and 8. -/
def State.addrChecks (s : State) (ea : Word) (n align : Nat) : List (Option TrapInfo) :=
  [if bits ea 63 56 ≠ 0 then some (addressTrap .addressRange ea) else none,
   if ea.toNat % align ≠ 0 then some (addressTrap .misaligned ea) else none,
   if s.loftRefused ea n then some (addressTrap .loftAccess ea) else none]

/-- A `.tag` form names a granule of banks 0 to 13 (R175). -/
def State.tagCheck (s : State) (ea : Word) : Option TrapInfo :=
  if s.cur.inAperture ea && decide (s.cur.apertureBank ea ≤ 13) then none else some (addressTrap .loftAccess ea)

/-- The granule of an aperture address (R173). -/
def Unit.granule (u : Unit) (ea : Word) : Nat := (ea.toNat - u.lap.toNat) % 0x8_0000 / 4096

/-- The sequence tag of the granule of an aperture address (R173). -/
def State.tagAt (s : State) (ea : Word) : BitVec 16 :=
  Sparse.get 0 s.curCluster.tags (s.cur.apertureBank ea * 128 + s.cur.granule ea)

/-- The read signature takes the word that stands for the granule's tag (R323). -/
def State.tagSig (s : State) (ea : Word) : State := s.readSig (s.paOf (granuleWord (s.cur.loftAddr ea))) 4

/-! ### Loads (R174 to R176) -/

/-- The words of an access that an incomplete instruction has still to perform. -/
def Act.words : Act → List Nat
  | .load ea n _ _ _ _ => vaWords ea n
  | .atomic _ t ea _ _ => vaWords ea (typeBytes t)
  | .sc _ _ z ea _ _ _ => vaWords ea (match z with
      | .w => 4
      | .d => 8)
  | .far ea n => vaWords ea n
  | .pop _ _ _ => []
  | .qwait _ _ => []
  | .wcwait _ => []
  | .rope _ => []
  | .record => []
  | .answer => []

/-- An earlier access of the unit that has not been performed names a word of the span (R345, R346). -/
def Unit.wordBefore (u : Unit) (id : Nat) (ea : Word) (n : Nat) : Bool :=
  u.pend.any fun p => decide (p.id < id) && !p.ready && (vaWords ea n).any fun w => (Act.words p.act).contains w

/-- The value that a load writes (R174). -/
def loadValue (vector signed : Bool) (size : Nat) (b : List Byte) : VWord :=
  if vector then BitVec.ofNat 1024 (ofBytes b)
  else sval (if signed then sext (word (ofBytes b)) (8 * size) else word (ofBytes b))

/-- The state after a load of the task `tid`: a load whose task has committed adds nothing to the read signature of the task that runs
now (R323). -/
def State.readBy (s t : State) (tid : Word) : State :=
  if s.cur.tid = tid then t else t.modCur fun u => { u with task := { u.task with rsig := s.cur.task.rsig } }

/-- What load `id` of the unit, in task `tid`, reads once it is performed, after the earlier accesses to its words (R346): committed bytes
under the task's own stores that precede it (R5, R176). -/
def State.loadBytes (s : State) (ea : Word) (size id pend : Nat) (tid : Word) (seen : Nat) : Got :=
  if s.cur.wordBefore id ea size then .wait s
  else
    match s.readSpan ea size pend with
    | .ok t b => .ok (s.readBy t tid) (if t.cur.tid = tid then overlay (t.cur.task.ops.take seen) ea.toNat b else b)
    | .wait t => .wait (s.readBy t tid)
    | .trap t i => .trap (s.readBy t tid) i

/-- A load with its checks made: its value is known now, or it stays pending (R41, R176). -/
def State.load (s : State) (la : BitVec 4) (dests : List RegKey) (ea : Word) (size : Nat) (signed vector lone : Bool) : Out :=
  let tid := s.cur.tid
  let seen := s.cur.task.ops.length
  let act : Act := .load ea size signed vector tid seen
  match s.loadBytes ea size s.ids (if la = 0 then 0 else s.ids) tid seen with
  | .ok t b => (t.openWindow la dests (some [loadValue vector signed size b]) act).doneC lone
  | .wait t => if la = 0 then t.wait else (t.openWindow la dests none act).doneC lone
  | .trap t i => t.raise i

/-- A scalar load (R176). -/
def State.loadS (s : State) (la : BitVec 4) (d b : SReg) (o : MemOff) (size : Nat) (signed : Bool) : Out :=
  let ea := s.cur.getS b + offsetOf o size
  s.issue { touch := [s.cur.keyS d, s.cur.keyS b], addr := s.addrChecks ea size size, live := s.cur.namedS d } fun t =>
    t.load la (t.cur.destS d) ea size signed false (memLit o)

def execLdB (la : BitVec 4) (d b : SReg) (o : MemOff) (s : State) : Out := s.loadS la d b o 1 false
def execLdH (la : BitVec 4) (d b : SReg) (o : MemOff) (s : State) : Out := s.loadS la d b o 2 false
def execLdW (la : BitVec 4) (d b : SReg) (o : MemOff) (s : State) : Out := s.loadS la d b o 4 false
def execLdD (la : BitVec 4) (d b : SReg) (o : MemOff) (s : State) : Out := s.loadS la d b o 8 false
def execLdBs (la : BitVec 4) (d b : SReg) (o : MemOff) (s : State) : Out := s.loadS la d b o 1 true
def execLdHs (la : BitVec 4) (d b : SReg) (o : MemOff) (s : State) : Out := s.loadS la d b o 2 true
def execLdWs (la : BitVec 4) (d b : SReg) (o : MemOff) (s : State) : Out := s.loadS la d b o 4 true

/-- `vld`: 128 bytes at any multiple of 4 (R174). -/
def execVld (la : BitVec 4) (d : VReg) (b : SReg) (o : MemOff) (s : State) : Out :=
  let ea := s.cur.getS b + offsetOf o 128
  s.issue { touch := [.v d.toNat, s.cur.keyS b], addr := s.addrChecks ea 128 4, live := s.cur.namedV d } fun t =>
    t.load la [.v d.toNat] ea 128 false true (memLit o)

/-- A granule's tag and data, which are read together, cannot be read yet: their bank is being zeroed, a commit holds the word that stands for
the tag or a word of the data, or an earlier access of the unit to the data is still to be performed (R176, R182, R318, R346). -/
def State.tagWaits (s : State) (ea : Word) : Bool :=
  s.apertureWaits ea || s.lockedAgainst (s.paOf (s.cur.loftAddr ea)) 128 || s.lockedAgainst (s.paOf (granuleWord (s.cur.loftAddr ea))) 4 || s.cur.wordBefore s.ids ea 128

/-- `vld.tag`: SCHEDULE where the tag is not XTAG, before the data are read (R176). -/
def execVldTag (la : BitVec 4) (d : VReg) (b : SReg) (o : MemOff) (s : State) : Out :=
  let ea := s.cur.getS b + offsetOf o 128
  s.issue { touch := [.v d.toNat, s.cur.keyS b], addr := s.addrChecks ea 128 128 ++ [s.tagCheck ea], live := s.cur.namedV d } fun t =>
    if t.tagWaits ea then s.wait
    else if t.tagAt ea ≠ BitVec.ofNat 16 t.cur.xtag.toNat then s.raise (addressTrap .schedule ea)
    else (t.tagSig ea).load la [.v d.toNat] ea 128 false true (memLit o)

/-! ### Stores (R177, R326, R328) -/

/-- Faults of a store that goes through are its own, not those of a commit (R328). -/
def State.ownFaults (s : State) : State :=
  { s with faults := s.faults.map fun f => if s.cur.mail.contains f.token then { f with committing := false } else f }

/-- A store of a non-speculative task past its buffer, cut into what is held, the bytes of words that the task holds already, and what goes
through to its home (R328). -/
def TaskOp.parts (u : Unit) : TaskOp → List TaskOp × List TaskOp
  | .store va b =>
    let held (a : Nat) : Bool := u.task.words.contains (alignDown a 4)
    let cut := cutAt 4 (b.length / 4 + 2) va.toNat b.length
    if cut.all fun p => !held p.1 then ([], [.store va b])
    else
      let part (p : Nat × Nat) : TaskOp := .store (word p.1) ((b.drop (p.1 - va.toNat)).take p.2)
      ((cut.filter fun p => held p.1).map part, (cut.filter fun p => !held p.1).map part)
  | .reduce va op t y => ([.reduce va op t y], [])
  | .tag va t => ([.tag va t], [])

/-- The words of the operations that a task holds. -/
def heldWordsOf (u : Unit) (ops : List TaskOp) : List Nat :=
  u.wordsWith (ops.flatMap fun o => match o with
    | .store va b => vaWords va b.length
    | .reduce va _ t _ => vaWords va (typeBytes t)
    | .tag _ _ => [])

/-- A store past the buffer of a non-speculative task, performed at its home when it issues, after the earlier loads of its words; they leave
the ways, and stay locked until the commit, which does not perform it again (R328). Bytes of words that the task holds already, reductions
and tags stay held (log 54). -/
def State.writeThrough (s : State) (ea : Word) (n : Nat) (ops : List TaskOp) (k : State → Out) : Out :=
  let held := ops.flatMap fun o => (o.parts s.cur).1
  match s.prepare (ops.flatMap fun o => (o.parts s.cur).2) with
  | .wait t => t.ownFaults.wait
  | .trap t i => t.raise { i with td := false }
  | .ok t l x =>
    if t.cur.wordBefore t.ids ea n then t.wait
    else if l.any (fun p => match p with
        | .bytes pa _ _ => !t.isLocal pa
        | .reduce _ _ _ _ _ => false
        | .tag _ _ _ _ => false) then s.raise (s.bundleTrap .capacity)
    else
      match t.takeLocks x (t.lockOrder l) with
      | (t, .wait) => t.wait
      | (t, .stale) => t.wait
      | (t, .refused _ _) => t.wait
      | (t, .held) =>
        let g := l.foldl (fun g p => g ||| p.sig t) (0 : BitVec 1024)
        k (((l.foldl (fun (t : State) p => t.perform x p) t).clearSig g).modCur fun u =>
          { u with task := { u.task with ops := u.task.ops ++ held, words := heldWordsOf u held, wsig := u.task.wsig ||| g } })

/-- A store or reduction of `n` bytes at `ea` held by the task (R177, R333): the instruction that would pass 8192 words takes
a capacity event (R326), or goes through to its home in a non-speculative task (R328). -/
def State.bufferOps (s : State) (ea : Word) (n : Nat) (extra : List Nat) (ops : List TaskOp) (k : State → Out) : Out :=
  let new := vaWords ea n ++ extra
  let ws := s.cur.wordsWith new
  if ws.length ≤ Config.bufferWords || (s.cur.task.nonspec && new.all fun w => s.cur.task.words.contains w) then
    k (s.modCur fun u => { u with task := { u.task with ops := u.task.ops ++ ops, words := ws } })
  else if s.cur.task.nonspec then s.writeThrough ea n ops k
  else .next s.capacityEvent

/-- A scalar store (R177): s0 stores zero. -/
def State.storeS (s : State) (d b : SReg) (o : MemOff) (size : Nat) : Out :=
  let ea := s.cur.getS b + offsetOf o size
  s.issue { touch := [s.cur.keyS d, s.cur.keyS b], addr := s.addrChecks ea size size } fun t =>
    t.bufferOps ea size [] [.store ea (bytesOf size (t.cur.getS d).toNat)] fun t => t.doneC (memLit o)

def execStB (d b : SReg) (o : MemOff) (s : State) : Out := s.storeS d b o 1
def execStH (d b : SReg) (o : MemOff) (s : State) : Out := s.storeS d b o 2
def execStW (d b : SReg) (o : MemOff) (s : State) : Out := s.storeS d b o 4
def execStD (d b : SReg) (o : MemOff) (s : State) : Out := s.storeS d b o 8

/-- `vst` (R177). -/
def execVst (d : VReg) (b : SReg) (o : MemOff) (s : State) : Out :=
  let ea := s.cur.getS b + offsetOf o 128
  s.issue { touch := [.v d.toNat, s.cur.keyS b], addr := s.addrChecks ea 128 4 } fun t =>
    t.bufferOps ea 128 [] [.store ea (bytesOf 128 (t.cur.getV d).toNat)] fun t => t.doneC (memLit o)

/-- The number under which a granule's tag counts among the buffered words (R326). -/
def tagWord (bank granule : Nat) : Nat := 2 ^ 60 + bank * 128 + granule

/-- The held operations without an earlier tag write to the granule of `ea` (R177). -/
def dropTag (u : Unit) (ea : Word) (l : List TaskOp) : List TaskOp :=
  l.filter fun o =>
    match o with
    | .store _ _ => true
    | .reduce _ _ _ _ => true
    | .tag va _ => !(u.apertureBank va == u.apertureBank ea && u.granule va == u.granule ea)

/-- `vst.tag`: a store and a held tag write of XTAG[15:0] (R177). -/
def execVstTag (d : VReg) (b : SReg) (o : MemOff) (s : State) : Out :=
  let ea := s.cur.getS b + offsetOf o 128
  s.issue { touch := [.v d.toNat, s.cur.keyS b], addr := s.addrChecks ea 128 128 ++ [s.tagCheck ea] } fun t =>
    let u := t.cur
    let t' := t.setCur { u with task := { u.task with ops := dropTag u ea u.task.ops } }
    t'.bufferOps ea 128 [tagWord (u.apertureBank ea) (u.granule ea)]
      [.store ea (bytesOf 128 (u.getV d).toNat), .tag ea (BitVec.ofNat 16 u.xtag.toNat)] fun t => t.doneC (memLit o)

/-- `adr` (R214): base 0 is the bundle's own address, and nothing is checked. -/
def execAdr (d b : SReg) (o : MemOff) (s : State) : Out :=
  let base := if b = 0 then s.cur.pc else s.cur.getS b
  s.issue { touch := [s.cur.keyS d, s.cur.keyS b], live := s.cur.namedS d } fun t =>
    (t.modCur fun u => u.setS d (base + offsetOf o 1)).doneC (memLit o)

/-! ### cpf and cinv (R181) -/

/-- The operands that `cpf` and `cinv` accept. -/
def spanOk (a n : Word) : Bool :=
  decide (1 ≤ n.toNat) && decide (n.toNat ≤ 65536) && a.toNat % 4 == 0 && bits a 63 56 == 0

/-- A fill of the words of one piece, which crosses no 256-byte boundary (R167, R170): nothing where its translation faults, or where its
home refuses it or may not be cached; a miss that the ways may not hold is counted, so that `cpf` counts one miss a piece. DESIGN CHOICE
(log 8). None where a lock or a walk holds it up, or it cannot be sent. Words of another module are asked for, and fill the ways when they
come. -/
def State.fillFor (s : State) (q : Prefetch) : Option State :=
  let cl := clusterId q.loc.die q.loc.cluster
  match (s.cluster cl).hit s.time.toNat q.job q.va q.size with
  | some _ => some s
  | none =>
    match s.translate (sliceDie q.loc.die) q.job q.va .read q.supervisor q.secure with
    | (t, .fault _ _) => some t
    | (_, .wait) => none
    | (t, .ok pa e expiry) =>
      if !t.cachedAt (decide (Config.clustersPerDie ≤ q.loc.cluster)) pa e then some (t.setCluster cl ((t.cluster cl).countMiss q.job q.va))
      else if t.isLocal pa then
        match t.homeRead q.secure pa q.size with
        | .bytes l =>
          some (t.setCluster cl ((t.cluster cl).fill q.job q.va (alignDown pa 256) expiry (pteG e) (wordsIn q.va l)))
        | .fault _ => some t
        | .wait => none
      else if t.lost ∨ !t.routed q.loc.die (moduleOf pa) then none
      else
        some (t.request { sdie := q.loc.die, dst := moduleOf pa, lseq := 0, typ := .read, loc := q.loc, pa, va := q.va, size := q.size,
                          data := readData q.size, secure := q.secure,
                          fill := some { cluster := cl, job := q.job, pline := alignDown pa 256, expiry, global := pteG e } } expiry)

/-- A fill tried, outside any task; one that must wait stays (R181). -/
def State.prefetch (s : State) (q : Prefetch) : State :=
  (s.apart fun s => ((s.fillFor q).getD { s with prefetches := s.prefetches ++ [q] }, ())).1

/-- The fills that wait, tried at every step in their order. -/
def State.retryPrefetches (s : State) : State := s.prefetches.foldl State.prefetch { s with prefetches := [] }

def execCpf (a b : SReg) (s : State) : Out :=
  let x := s.cur.getS a
  let n := s.cur.getS b
  s.issue { ok := spanOk x n, touch := [s.cur.keyS a, s.cur.keyS b] } fun t =>
    ((pieces256 x.toNat n.toNat).foldl (fun (t : State) p =>
      if t.cur.inAperture (word p.1) then t
      else t.prefetch { loc := t.cur.loc, job := t.cur.job, supervisor := tsrSup t.cur.tsr, secure := t.cur.secure, va := p.1,
                        size := (p.2 + 3) / 4 * 4 }) t).doneC

/-- The cached words of a virtual span cleared in every way of the cluster (R181); words of the aperture are ignored. -/
def Cluster.invalidate (c : Cluster) (u : Unit) (a n : Nat) : Cluster :=
  { c with lines := c.lines.map fun l =>
      let base := l.vtag * 2 ^ 19 + l.set * 256
      let mine := match l.job with
        | none => true
        | some j => j == u.job
      if mine then
        { l with words := l.words.filter fun w =>
            !(decide (a ≤ base + 4 * w.1 + 3) && decide (base + 4 * w.1 < a + n) && !u.inAperture (word (base + 4 * w.1))) }
      else l }

def execCinv (a b : SReg) (s : State) : Out :=
  let x := s.cur.getS a
  let n := s.cur.getS b
  s.issue { ok := spanOk x n, touch := [s.cur.keyS a, s.cur.keyS b] } fun t =>
    (t.setCurCluster (t.curCluster.invalidate t.cur x.toNat n.toNat)).doneC

/-! ### Loft control (R182 to R185) -/

/-- Bytes at a virtual address of a job, as its tables stand now; none where they do not map it to this module. -/
def State.peek (s : State) (job va n : Nat) : Option (List Byte) :=
  match s.walkLeaf job va with
  | .fault _ _ => none
  | .wait => none
  | .leaf e _ level =>
    let pa := leafPa e (levelBits level) va
    if s.isLocal pa then some (s.bytes (localOf pa) n) else none

/-- The bank of a Loft window that a virtual address of a job names. -/
def State.bankAt (s : State) (job va : Nat) : Option (Nat × Nat) :=
  match s.walkLeaf job va with
  | .fault _ _ => none
  | .wait => none
  | .leaf e _ level =>
    match regionOf (localOf (leafPa e (levelBits level) va)) with
    | .loft d c b _ => some (clusterId d c, b)
    | .hbm _ _ => none
    | .lpddr _ => none
    | .granary _ _ => none
    | .hub _ _ => none
    | .host _ => none
    | .reserved => none

/-- The dense side of a copy names a bank: by its stream, or by some 64 KiB of the span that its layout records give (R138, R182). -/
def State.denseNames (s : State) (r : CopyReq) (bank : Nat × Nat) : Bool :=
  if r.fs then bank == (clusterId (bits r.w2 19 17) (bits r.w2 16 12), bits r.w2 3 0)
  else
    let last := match s.peek r.by'.job r.frec 64, s.peek r.by'.job r.srec 64 with
      | some f, some g => max r.dense (denseLast r (wordsOf f) (wordsOf g))
      | _, _ => r.dense
    (upTo (last / 65536 - r.dense / 65536 + 1)).any fun i => s.bankAt r.by'.job (max r.dense ((r.dense / 65536 + i) * 65536)) == some bank

/-- A bank is busy (R182): a stage holds an entry, a pop of it is tentative, or a released request names it on its dense side. -/
def State.bankBusy (s : State) (cluster bank : Nat) : Bool :=
  let c := s.cluster cluster
  let here (r : CopyReq) : Bool := s.denseNames r (cluster, bank)
  (c.fifos.any fun f => f.1 / 256 == bank && !f.2.isEmpty) ||
    (s.units.any fun u => u.task.popped.any fun p => p.1 == 7 && p.2.1 / 4096 == cluster && p.2.1 % 4096 / 256 == bank) ||
    (s.units.any fun u => u.copies.any here) ||
    (s.clusters.any fun k => k.2.running.any fun r => here r.req) ||
    (s.clusters.any fun k => k.2.nodeCopies.any here) ||
    (s.dies.any fun d => (d.2.q5 ++ (match d.2.rope with
        | some r => [r.cmd]
        | none => [])).any fun r =>
      r.fn == .rwalk && clusterId r.by'.loc.die r.by'.loc.cluster == cluster && decide (bits r.d 3 0 = bank))

/-- A bank takes a new configuration: its lines are dropped, and its bytes and tags are zero while it is being zeroed (R182). -/
def State.configure (s : State) (cluster bank : Nat) (w : Word) : State :=
  let c := s.cluster cluster
  let s := s.setCluster cluster { c with
    lines := c.lines.filter fun l => l.way ≠ bank
    config := Sparse.set 0 c.config bank w
    tags := c.tags.filter fun t => t.1 / 128 ≠ bank
    fifos := c.fifos.filter fun f => f.1 / 256 ≠ bank
    zeroing := if c.zeroing.contains bank then c.zeroing else c.zeroing ++ [bank] }
  s.zeroBytes (loftWindow (cluster / 20) (cluster % 20) + bank * 0x8_0000) 0x8_0000

/-- The unit leaves the order of its cluster's `lbank`s (R182). -/
def State.leaveLbanks (s : State) : State :=
  s.setCurCluster { s.curCluster with lbanks := s.curCluster.lbanks.filter (· ≠ s.cur.loc) }

/-- `lbank` ends with its status in s[d] (R182). -/
def State.lbankEnd (s : State) (d : SReg) (status : Nat) : Out :=
  (s.leaveLbanks.modCur fun u => { u.setS d (word status) with wait := .run }).doneC

/-- What `lbank` does once its commit has ended, in its turn among the cluster's, which is that of their commits (R182). -/
def State.lbankAct (s : State) (d : SReg) (bank : Nat) (w : Word) : Out :=
  let c := s.cur.clusterId
  let k := s.curCluster
  let s := if k.lbanks.contains s.cur.loc then s else s.setCurCluster { k with lbanks := k.lbanks ++ [s.cur.loc] }
  if s.curCluster.lbanks.head? ≠ some s.cur.loc then (s.modCur fun u => { u with wait := .lbank d bank (some w) }).wait
  else if s.curCluster.configOf bank = w then s.lbankEnd d 2
  else if s.bankBusy c bank then s.lbankEnd d 1
  else ((s.configure c bank w).modCur fun u => { u with wait := .lbank d bank none }).wait

/-- `lbank` (R182). -/
def execLbank (d a b : SReg) (s : State) : Out :=
  let x := s.cur.getS a
  let w := configClean (s.cur.getS b)
  s.issue { ok := decide (x.toNat ≤ 13) && s.cur.lbm.getLsbD x.toNat && !configRefused w,
            touch := [s.cur.keyS d, s.cur.keyS a, s.cur.keyS b], live := s.cur.namedS d } fun t =>
    t.withCommit (.lbank d x.toNat w) false fun t => t.lbankAct d x.toNat w

/-- The range words that `lrng` takes (R183). -/
def rangeOk (w : Word) : Bool :=
  bits w 57 56 == 0 && bits w 15 6 == 0 &&
    (!w.getLsbD 63 || (decide (16 ≤ bits w 5 0) && decide (bits w 5 0 ≤ 56) && bits w 55 16 * 65536 % 2 ^ bits w 5 0 == 0))

/-- The range register written in commit order, in which the commit that became visible last decides (R183): the count of misses restarts
at 0 (R170). -/
def State.lrngAct (s : State) (g : Nat) (w : Word) : Out :=
  let c := s.curCluster
  let later := ((Sparse.find? c.ranges g).map fun r => r.order).getD 0
  (if s.cur.visibleAt < later then s
   else s.setCurCluster { c with ranges := Sparse.put c.ranges g { word := w, job := s.cur.job, misses := 0, order := s.cur.visibleAt } }).doneC

/-- `lrng` (R183). -/
def execLrng (a b : SReg) (s : State) : Out :=
  let g := s.cur.getS a
  let w := s.cur.getS b
  s.issue { ok := decide (g.toNat ≤ 7) && rangeOk w, touch := [s.cur.keyS a, s.cur.keyS b] } fun t =>
    t.withCommit (.lrng g.toNat w) false fun t => t.lrngAct g.toNat w

/-- What `lstat` reads (R183). -/
def Cluster.lstat (c : Cluster) (x : Nat) : Word :=
  if x < 16 then c.configOf x
  else if x < 24 then
    match Sparse.find? c.ranges (x - 16) with
    | some r => r.word
    | none => 0
  else Sys2Proof.Machine.word ((upTo 14).filter fun b => modeOf (c.configOf b) == .cache).length

/-- `lstat` (R183). -/
def execLstat (d a : SReg) (s : State) : Out :=
  let x := s.cur.getS a
  s.issue { ok := decide (x.toNat ≤ 24), touch := [s.cur.keyS d, s.cur.keyS a], live := s.cur.namedS d } fun t =>
    (t.modCur fun u => u.setS d (t.curCluster.lstat x.toNat)).doneC

/-- Streams for which the task holds words of q8. -/
def heldStreams (l : List Held) : List Nat :=
  l.filterMap fun h => match h with
    | .word q st _ => if q = 8 then some st else none
    | _ => none

/-- The slot holds a partial entry, for the stream whose words it has pushed, whichever is bound now (R172). -/
def State.partialOut (s : State) : Bool :=
  let u := s.cur
  (u.q8Stream :: heldStreams u.task.held).any fun n =>
    ((if u.q8Stream = n then u.q8.length else 0) + 8 * (heldWords 8 n u.task.held).length) % max 8 (s.streamEntry n) != 0

/-- The cluster and die fields of a wain unit's binding name its own die, or any K-die from a hub die (R158). -/
def Unit.placeOk (u : Unit) (f : Nat) : Bool :=
  decide (f % 32 < 20) && decide (f / 32 < 6) && (decide (u.loc.die ≥ 6) || decide (f / 32 = u.loc.die))

/-- The bindings that `sbind` takes (R158, R184); the fields of a stream that is not enabled are not checked. DEDUCED (log 38). -/
def State.bindOk (s : State) (u : Unit) (w : Word) : Bool :=
  let v := { u with sbind := w }
  bits w 30 28 == 0 && bits w 14 12 == 0 && bits w 63 48 == 0 && (u.wain || bits w 47 32 == 0) &&
    (!w.getLsbD 15 || ((s.streamIn v).isSome && (!u.wain || u.placeOk (bits w 39 32)))) &&
    (!w.getLsbD 31 || ((s.streamOut v).isSome && (!u.wain || u.placeOk (bits w 47 40))))

/-- The output names of two bindings differ; OE is no part of a name. -/
def outputChanges (x y : Word) : Bool := bits x 27 16 != bits y 27 16 || bits x 47 40 != bits y 47 40

/-- `sbind` (R184); a partial entry pins the output name (R172). -/
def execSbind (a : SReg) (s : State) : Out :=
  let w := s.cur.getS a
  s.issue { ok := s.bindOk s.cur w && !(s.partialOut && outputChanges s.cur.sbind w), touch := [s.cur.keyS a] } fun t =>
    (t.modCur fun u => { u with sbind := w }).doneC

/-- `ltag` (R185): the checks of `vld.tag`, never SCHEDULE. -/
def execLtag (d a : SReg) (s : State) : Out :=
  let ea := s.cur.getS a
  s.issue { touch := [s.cur.keyS d, s.cur.keyS a], addr := s.addrChecks ea 128 128 ++ [s.tagCheck ea], live := s.cur.namedS d } fun t =>
    if t.tagWaits ea then s.wait
    else ((t.tagSig ea).modCur fun u => u.setS d ((t.tagAt ea).zeroExtend 64)).doneC

end Sys2Proof.Machine
end

