-- ==== Sys2Proof/Machine/Units.lean ====
section
/-! DEFINITION. Units as a whole: which one acts, and how a unit retires (R231, R372, R382, R404). -/

namespace Sys2Proof.Machine

/-- The first unit of a list that lives at a place and has not left it, and the list without it. -/
def takeUnit (l : Loc) : List Unit → Option (Unit × List Unit)
  | [] => none
  | u :: r => if u.placed && u.loc == l && !u.away then some (u, r) else (takeUnit l r).map fun (x, k) => (x, u :: k)

/-- The unit at a place becomes the one that acts. -/
def State.focus (s : State) (l : Loc) : State :=
  if s.cur.placed && s.cur.loc == l && !s.cur.away then s
  else
    match takeUnit l s.others with
    | none => s
    | some (u, r) => { s with cur := u, others := if s.cur.placed then s.cur :: r else r }

/-- Every command that the unit has released has sent its message or record (R231, R337). -/
def Unit.reported (u : Unit) : Bool := u.outCopies + u.outRopes + u.outRopesI + u.outMats == 0

/-- A launch's failure with one more (R382): a nonzero exit code counts for the lowest UNIT, any other reason where none
stands yet. -/
def Launch.fail (l : Launch) (reason : Nat) (code : BitVec 16) (unit : Nat) : Launch :=
  match l.failure with
  | none => { l with failure := some (reason, code, unit) }
  | some (r, _, v) => if r = 1 ∧ reason = 1 ∧ unit < v then { l with failure := some (reason, code, unit) } else l

/-- The banks that a launch holds in a cluster are zeroed and return to CACHE mode (R372). -/
def State.freeBanks (s : State) (cluster : Nat) (launch : BitVec 32) : State :=
  let c := s.cluster cluster
  let mine := c.granted.filter fun g => g.2 == launch
  let s := s.setCluster cluster { c with granted := c.granted.filter fun g => g.2 ≠ launch }
  mine.foldl (fun (t : State) (g : Nat × BitVec 32) => t.configure cluster g.1 0) s

/-- Entries of a shared queue that do not name a slot. -/
def notSlot {α : Type} (slot : Nat) (l : List (Nat × α)) : List (Nat × α) := l.filter fun e => e.1 ≠ slot

/-- The acting unit retires (R231, R382): its messages, records and partial entries are dropped, a cancelled command of it
that still waits for entries ends, its code is reported, and the slot is free. -/
def State.retire (s : State) (reason : Nat) (code : BitVec 16) : State :=
  let u := s.cur
  let s := if u.gleaner then s
    else s.setCurCore { s.curCore with
      q0 := notSlot u.loc.slot s.curCore.q0, q2 := notSlot u.loc.slot s.curCore.q2, q3 := notSlot u.loc.slot s.curCore.q3,
      discard := s.curCore.discard.filter fun c => c.slot ≠ u.loc.slot
      q1 := s.curCore.q1.map fun c => if c.slot = u.loc.slot ∧ c.cancelled ∧ !c.ended then { c with ended := true, drained := c.seg } else c }
  let s := s.modLaunch u.launch fun l =>
    let l := if reason = 0 then l else l.fail reason code u.unit.toNat
    { l with retired := l.retired + 1, progress := s.time }
  let s := s.leaveLbanks
  let s := { s with
    token := if s.holdsToken then none else s.token
    cur := {} }
  if s.units.any fun v => v.launch == u.launch && v.clusterId == u.clusterId then s else s.freeBanks u.clusterId u.launch

/-- REASON of an exit code (R382). -/
def exitReason (code : BitVec 16) (trapped : Bool) : Nat :=
  if trapped then 3 else if code = 0 then 0 else 1

end Sys2Proof.Machine
end

