-- ==== Sys2Proof/Machine/Queue.lean ====
section
/-! DEFINITION. The queue instructions (R193 to R196), copies (R138 to R141), `mcmd` (R283 to R286), the tile moves (R296,
R297) and the waits (R339). -/

namespace Sys2Proof.Machine

/-! ### Pops (R194 to R196) -/

/-- A queue that a pop form may name (R193, R156): q7 only while a stream is bound (R184). -/
def State.popOk (s : State) (q : QReg) (vector : Bool) : Bool :=
  if q = 7 then (s.streamIn s.cur).isSome
  else q = 0 || (!s.cur.wain && (q = 6 || q = 10 || (vector && q = 3)))

/-- A pop with its checks made: the element is here, or the pop waits, or only the unit's own task could fill the queue
(R195). -/
def State.pop (s : State) (la : BitVec 4) (dests : List RegKey) (q : QReg) (vector : Bool) : Out :=
  let st := s.popStream q
  match s.popFor q vector st with
  | some (x, t) => (t.openWindow la dests (some [x]) (.pop q vector st)).doneC
  | none =>
    if s.cur.popDeadlock q then s.raise (s.bundleTrap .selfDeadlock)
    else if la = 0 then s.wait
    else (s.openWindow la dests none (.pop q vector st)).doneC

/-- `qpop` (R196). -/
def execQpop (la : BitVec 4) (d : SReg) (q : QReg) (s : State) : Out :=
  s.issue { ok := s.popOk q false, touch := [s.cur.keyS d], live := s.cur.namedS d } fun t => t.pop la (t.cur.destS d) q false
/-- `vqpop` (R196). -/
def execVqpop (la : BitVec 4) (d : VReg) (q : QReg) (s : State) : Out :=
  s.issue { ok := s.popOk q true, touch := [.v d.toNat], live := s.cur.namedV d } fun t => t.pop la [.v d.toNat] q true

/-! ### Pushes -/

/-- A queue that a push form may name (R193, R156): q8 only while a stream is bound (R184). -/
def State.pushOk (s : State) (q : QReg) (vector : Bool) : Bool :=
  if q = 8 then (s.streamOut s.cur).isSome
  else !s.cur.wain && (q = 9 || (if vector then q = 2 else q = 11))

/-- The stream number of a push, 0 for the other queues. -/
def State.pushStream (s : State) (q : QReg) : Nat :=
  if q = 8 then
    match s.streamOut s.cur with
    | some t => streamNo t
    | none => 0
  else 0

/-- Whether a push finds room: yes, not yet, or never before its own task commits (R194, R195, R375). -/
inductive Room where
  | yes | wait | deadlock
  deriving DecidableEq, Repr

/-- Room for one word: q8 and q9 need a place when a word begins an entry or element (R172, R424), q11 has 32 words (R375). -/
def State.wordRoom (s : State) (q : QReg) : Room :=
  let u := s.cur
  if q = 8 then
    let st := s.pushStream 8
    let part := ((if u.q8Stream = st then u.q8.length else 0) + 8 * (heldWords 8 st u.task.held).length) % s.streamEntry st
    if part ≠ 0 ∨ 0 < s.stageFree st then .yes else .wait
  else if q = 9 then
    if (u.q9.length + (heldWords 9 0 u.task.held).length) % 16 ≠ 0 ∨ s.sendsHeld u < 16 then .yes else .wait
  else if u.q11.length + (heldWords 11 0 u.task.held).length < 32 then .yes
  else if u.q11.length < 8 then .deadlock
  else .wait

/-- Room for one whole row of q2, q8 or q9. -/
def State.rowRoom (s : State) (q : QReg) : Room :=
  let u := s.cur
  if q = 2 then (if s.q2Used < 64 then .yes else if heldRows 2 0 u.task.held = 64 then .deadlock else .wait)
  else if q = 8 then (if 0 < s.stageFree (s.pushStream 8) then .yes else .wait)
  else if s.sendsHeld u < 16 then .yes else .wait

/-- A push into room that is there, that is still to come, or that its own task keeps (R195). -/
def State.push (s : State) (r : Room) (h : Held) (lone : Bool) : Out :=
  match r with
  | .deadlock => s.raise (s.bundleTrap .selfDeadlock)
  | .wait => s.wait
  | .yes => s.holdRoom fun t => (t.hold h).doneC lone

/-- `qpush` (R196). -/
def execQpush (d : SReg) (q : QReg) (i : QImm) (s : State) : Out :=
  s.issue { ok := s.pushOk q false, touch := [s.cur.keyS d] } fun t =>
    t.push (t.wordRoom q) (.word q (t.pushStream q) (t.cur.getS d + qimm i)) (qLit i)

/-- `vqpush` (R196): the low bytes that the element takes. -/
def execVqpush (d : VReg) (q : QReg) (s : State) : Out :=
  s.issue { ok := s.pushOk q true, touch := [.v d.toNat] } fun t =>
    let n := if q = 8 then t.streamEntry (t.pushStream 8) else 128
    t.push (t.rowRoom q) (.row q (t.pushStream q) (bytesOf n (t.cur.getV d).toNat)) false

/-! ### Copies (R140, R141) -/

/-- The registers s[d] to s[d + n − 1]. -/
def regsFrom (d : SReg) (n : Nat) : List SReg := (upTo n).map fun i => d + BitVec.ofNat 5 i

/-- The request captured from s[d] to s[d + 3] (R138). -/
def State.copyReq (s : State) (d : SReg) (tag : BitVec 6) : CopyReq :=
  let u := s.cur
  { w0 := u.getS d, w1 := u.getS (d + 1), w2 := u.getS (d + 2), w3 := u.getS (d + 3), tag, by' := s.issuer, released := 0, node := none }

/-- `cpy` (R141). -/
def execCpy (d : SReg) (tag : BitVec 6) (s : State) : Out :=
  s.issue { ok := decide (d.toNat ≤ 28), touch := (regsFrom d 4).map s.cur.keyS } fun t =>
    let r : Room := if t.cur.copyEntries < 8 then .yes else if heldCopies t.cur.task.held = 8 then .deadlock else .wait
    t.push r (.copy (t.copyReq d tag)) false

/-- `cpy.try` (R141): s[d] is 1 where no entry is free, 0 where the request is held. -/
def execCpyTry (la : BitVec 4) (d : SReg) (tag : BitVec 6) (s : State) : Out :=
  s.issue { ok := decide (d.toNat ≤ 28), touch := (regsFrom d 4).map s.cur.keyS, live := s.cur.namedS d } fun t =>
    if t.cur.copyEntries < 8 then
      t.holdRoom fun t => ((t.hold (.copy (t.copyReq d tag))).openWindow la (t.cur.destS d) (some [0]) .answer).doneC
    else (t.openWindow la (t.cur.destS d) (some [1]) .answer).doneC

/-! ### mcmd (R283 to R286) -/

/-- The checks of `mcmd` (R286). -/
def mcmdOk (c : Word) (w : BitVec 32) (fa fb : Fmt) (fc : FmtId) : Bool :=
  let cw : BitVec 14 := w.truncate 14
  let p := cwProduct cw
  bits w 31 14 == 0 && bits c 63 53 == 0 && bits c 39 37 == 0 && bits c 31 22 == 0 &&
    activationOk p fa && weightOk p fb && (fc == none || fc == some .f32) &&
    decide (crTr c + (crM c - 1) ≤ 31) && (decide (crNs c ≠ 0) == (fb == .t5s)) && !(!p && cwH cw) && !(p && cwRs cw) &&
    decide (crWb c + crKs c * blockWords p fb (crNs c) - 1 ≤ 3145727)

/-- `mcmd` (R286). -/
def execMcmd (d : SReg) (c : QImm) (s : State) : Out :=
  let w : BitVec 32 := match c with
    | .short x => x.zeroExtend 32
    | .lit x => x
  let cw : BitVec 14 := w.truncate 14
  let creg := s.cur.getS d
  let fa := s.cur.fa.getD .bf16
  let fb := s.cur.fb.getD (if cwProduct cw then .bf16 else .t5)
  let weight := match s.curLaunch with
    | some l => l.weight
    | none => 1
  s.issue { fmts := true, ok := mcmdOk creg w fa fb s.cur.fc, touch := [s.cur.keyS d] } fun t =>
    let r : Room := if t.q1Used < 8 then .yes else if heldMatrix t.cur.task.held = 8 then .deadlock else .wait
    match r with
    | .wait => s.wait
    | .deadlock => s.raise (s.bundleTrap .selfDeadlock)
    | .yes => s.holdRoom fun x => (x.consume.hold (.matrix { creg, cw, fa, fb, by' := t.issuer, weight, id := 0 })).doneC (qLit c)

/-! ### Tile moves and WCNT (R296, R297, R339) -/

/-- The rows that a task holds for q2, in push order. -/
def heldQ2 (l : List Held) : List (List Byte) :=
  l.filterMap fun h => match h with
    | .row q _ b => if q = 2 then some b else none
    | _ => none

/-- Some q2 entry of a command is missing and stands among rows that a task of its slot holds: in the order of the slot's entries, behind
those of its earlier commands (R287, R297). -/
def Core.starvedBy (k : Core) (c : MatCmd) (held : List (List Byte)) : Bool :=
  let k' := { k with q2 := k.q2 ++ held.map fun b => (c.slot, b) }
  let here := (k.rowsOf c.slot).length
  let all := here + held.length
  match k'.startOf c with
  | none => false
  | some n =>
    let stop := match c.entries ((k'.rowsOf c.slot).drop n) with
      | some m => min (n + m) all
      | none => all
    decide (max n here < stop)

/-- A move of the slot waits in a tile queue behind a command of the slot whose missing q2 entries its own task holds
(R297). -/
def State.moveDeadlock (s : State) : Bool :=
  let u := s.cur
  let k := s.curCore
  let held := heldQ2 u.task.held
  let mine (o : TileOp) : Bool := match o with
    | .move m => m.loc == u.loc
    | .cmd _ => false
  let bad (o : TileOp) : Bool := match o with
    | .move _ => false
    | .cmd id => k.q1.any fun c => c.id == id && c.by'.loc == u.loc && !c.ended && k.starvedBy c held
  !held.isEmpty && k.tileQ.any fun q => (q.2.dropWhile fun o => !bad o).any mine

/-- A tile move enters the queue of its tile (R295, R296). -/
def State.tileMove (s : State) (y : BitVec 2) (m : TileMove) : Out :=
  if s.cur.wcnt ≥ 16 then (if s.moveDeadlock then s.raiseStuck else s.wait)
  else
    ((s.setCurCore (s.curCore.pushTile y.toNat (.move m))).modCur fun u => { u with wcnt := u.wcnt + 1 }).doneC

/-- The move that an index register names (R296). -/
def State.moveOf (s : State) (get : Bool) (x : Word) (d : VReg) : TileMove :=
  { loc := s.cur.loc, get, row := bits x 4 0, seg := bits x 8 5, vreg := d, value := if get then 0 else s.cur.getV d }

/-- `tget` (R296): v[d] is pending until the move is performed. -/
def execTget (d : VReg) (a : SReg) (y : BitVec 2) (s : State) : Out :=
  let x := s.cur.getS a
  s.issue { ok := bits x 63 9 == 0, touch := [.v d.toNat, s.cur.keyS a], live := s.cur.namedV d } fun t =>
    t.tileMove y (t.moveOf true x d)
/-- `tput` (R296). -/
def execTput (d : VReg) (a : SReg) (y : BitVec 2) (s : State) : Out :=
  let x := s.cur.getS a
  s.issue { ok := bits x 63 9 == 0, touch := [.v d.toNat, s.cur.keyS a] } fun t => t.tileMove y (t.moveOf false x d)

/-- A queue that `qwait` names (R339). -/
def State.qwaitOk (s : State) (q : QReg) : Bool :=
  if q = 7 then (s.streamIn s.cur).isSome else q = 0 || (!s.cur.wain && (q = 3 || q = 6 || q = 10))

/-- `qwait` (R339): it pops nothing. -/
def execQwait (la : BitVec 4) (d : SReg) (q : QReg) (s : State) : Out :=
  s.issue { ok := s.qwaitOk q, touch := [s.cur.keyS d], live := s.cur.namedS d } fun t =>
    let n := (t.elems q).length
    let act : Act := .qwait q (t.popStream q)
    if 0 < n then (t.openWindow la (t.cur.destS d) (some [sval (word (min n 4095))]) act).doneC
    else if t.cur.popDeadlock q then s.raise (s.bundleTrap .selfDeadlock)
    else if la = 0 then s.wait
    else (t.openWindow la (t.cur.destS d) none act).doneC

/-- `wcwait` (R339). -/
def execWcwait (la : BitVec 4) (d : SReg) (c : BitVec 8) (s : State) : Out :=
  s.issue { touch := [s.cur.keyS d], live := s.cur.namedS d } fun t =>
    if t.cur.wcnt ≤ c.toNat then (t.openWindow la (t.cur.destS d) (some [sval (word t.cur.wcnt)]) (.wcwait c.toNat)).doneC
    else if t.moveDeadlock then s.raiseStuck
    else if la = 0 then s.wait
    else (t.openWindow la (t.cur.destS d) none (.wcwait c.toNat)).doneC

end Sys2Proof.Machine
end

