-- ==== Sys2Proof/Machine/Control.lean ====
section
/-! DEFINITION. Branches, calls and windows (R215 to R219), timed issue (R220), gangs (R222, R223), task control (R224 to
R231) and the long-latency integer instructions (R211 to R213). -/

namespace Sys2Proof.Machine

/-! ### Branches (R215) -/

/-- The target of a displacement (R215). -/
def Unit.target (u : Unit) (disp : BitVec 22) : Word := u.pc + disp.signExtend 64 * 8

/-- ADDRESS_RANGE of a branch target (R215). -/
def rangeCheck (t : Word) : Option TrapInfo := if bits t 63 56 ≠ 0 then some (addressTrap .addressRange t) else none

/-- The bundle that issues next (R34): the A-slot of this one executes first. -/
def Unit.jump (u : Unit) (t : Word) : Unit := { u with npc := t }

def State.branch (s : State) (taken : Bool) (disp : BitVec 22) : Out :=
  let t := s.cur.target disp
  if taken then s.issue { addr := [rangeCheck t] } fun s => (s.modCur fun u => u.jump t).doneC
  else s.issue {} fun s => s.doneC

/-- `br` (R215). -/
def execBr (p : PReg) (disp : BitVec 22) (s : State) : Out := s.branch (s.cur.getP p) disp
/-- `brf` (R215). -/
def execBrf (p : PReg) (disp : BitVec 22) (s : State) : Out := s.branch (!s.cur.getP p) disp

/-! ### Calls and returns (R188, R189, R216 to R218) -/

/-- The registers that a call makes the callee's s8 to s15, one of which takes the link (R41, R216). -/
def Unit.outKeys (u : Unit) : List RegKey := [24, 25, 26, 27, 28, 29, 30, 31].map fun r => u.keyS r

/-- The registers onto which a call slides the window: those, and the callee's s16 to s31, which an instruction of a window that the
unit has left may still have pending (R41, R188). -/
def Unit.slideKeys (u : Unit) : List RegKey := u.outKeys ++ (upTo 16).map fun i => .s (16 * u.depth + 32 + i)

/-- A call to `t` (R216): with four windows resident the oldest is spilled in this turn and the call issues in a later one. -/
def State.callTo (s : State) (t : Word) : Out :=
  if s.cur.saved.length + 1 < Config.residentWindows then
    let link := s.cur.pc + 8
    (s.slide.modCur fun u => (u.setS 15 link).jump t).doneC
  else if s.touches s.cur.oldestKeys then s.raise (s.bundleTrap .lookaheadViolation)
  else
    match s.spillOldest with
    | none => s.raise (s.bundleTrap .windowOverflow)
    | some s => s.wait

/-- `call` (R216). -/
def execCall (p : PReg) (disp : BitVec 22) (s : State) : Out :=
  let t := s.cur.target disp
  if s.cur.getP p then s.issue { touch := s.cur.slideKeys, addr := [rangeCheck t] } fun s => s.callTo t
  else s.issue {} fun s => s.doneC

/-- The checks of a register target, the lower code first (R217, R394). -/
def targetChecks (t : Word) : List (Option TrapInfo) :=
  [rangeCheck t, if bits t 2 0 ≠ 0 then some (addressTrap .misaligned t) else none]

/-- `jr` (R217). -/
def execJr (a : SReg) (s : State) : Out :=
  let t := s.cur.getS a
  s.issue { touch := [s.cur.keyS a], addr := targetChecks t } fun s => (s.modCur fun u => u.jump t).doneC

/-- `callr` (R217). -/
def execCallr (a : SReg) (s : State) : Out :=
  let t := s.cur.getS a
  s.issue { touch := s.cur.keyS a :: s.cur.slideKeys, addr := targetChecks t } fun s => s.callTo t

/-- A return to `t` (R218): the window below is filled in a turn of its own where it is not resident. A return below the
depth at which the task began leaves the commit to the end of the bundle. -/
def State.returnTo (s : State) (t : Word) : Out :=
  let u := s.cur
  match u.saved with
  | [] => s.fillWindow.wait
  | w :: older =>
    let below := decide (u.depth - 1 < u.task.startDepth)
    let v := u.slideBack w older
    (s.setCur ({ v with retCommit := u.retCommit || below, retPc := if below then u.pc else u.retPc }.jump t)).doneC

/-- `ret` (R218). -/
def execRet (s : State) : Out :=
  let t := s.cur.getS 15
  let under := if s.cur.depth = 1 then some (s.bundleTrap .windowUnderflow) else none
  s.issue { touch := [s.cur.keyS 15], addr := under :: targetChecks t } fun s => s.returnTo t

/-- `wflush` (R219): one spill a turn, oldest first. -/
def execWflush (s : State) : Out :=
  s.issue {} fun s =>
    if s.cur.saved.isEmpty then s.doneC
    else if s.touches s.cur.oldestKeys then s.raise (s.bundleTrap .lookaheadViolation)
    else
      match s.spillOldest with
      | none => s.raise (s.bundleTrap .windowOverflow)
      | some s => s.wait

/-- A scalar destination written before the next turn by a C-slot instruction. -/
def State.resultC (s : State) (d : SReg) (srcs : List SReg) (x : State → Word) : Out :=
  s.issue { touch := (d :: srcs).map s.cur.keyS, live := s.cur.namedS d } fun t => (t.modCur fun u => u.setS d (x t)).doneC

/-- `wdepth` (R219). -/
def execWdepth (d : SReg) (s : State) : Out := s.resultC d [] fun t => word t.cur.depth

/-! ### Timed issue (R220) -/

/-- `at` (R220): it completes on the first turn at TIME ≥ T. -/
def execAtTime (a : SReg) (s : State) : Out :=
  let t := s.cur.getS a
  s.issue { touch := [s.cur.keyS a] } fun s =>
    if t.toNat ≤ s.time.toNat then s.doneC else (s.modCur fun u => { u with wait := .atTime t }).wait

/-- AT_EXPIRE: the unit's `at` completes once TIME has reached T (R220). -/
def execAtExpire (s : State) : Out :=
  match s.cur.wait with
  | .atTime t =>
    if t.toNat ≤ s.time.toNat then onNext ((s.modCur fun u => { u with wait := .run }).doneC) (State.aged s.ids) else s.wait
  | .run => .next s
  | .lwait _ => .next s
  | .lbank _ _ _ => .next s
  | .fenceE _ => .next s
  | .bar _ _ => .next s
  | .gang _ => .next s
  | .retire _ _ => .next s
  | .nonspec => .next s
  | .stopped => .next s

/-- `at.c` is done: its commit stands (R221). -/
def State.atcDone (s : State) : Out := .next (s.modCur fun u => { u.pastC false with atc := true })

/-- `at.c` (R220): the spans are translated and the timestamp rule is met before T, the locks are taken from T on. -/
def execAtTimeC (a : SReg) (s : State) : Out :=
  let t := s.cur.getS a
  s.issue { touch := [s.cur.keyS a] } fun s => s.withCommit (.atC t) false fun s => s.atcDone

/-! ### Gangs (R222, R223) -/

/-- The task's restart point moved to where the unit now stands, past its C-slot instruction. -/
def Unit.restartHere (u : Unit) : Unit :=
  { u with task := { u.task with restartPc := u.pc, restartA := u.aslot } }

/-- The units in slot k of the group of `w` cores that holds the acting unit's core, of any launch, and pre-empted ones too (R222). -/
def State.gangGroup (s : State) (w : Nat) : List Unit :=
  s.units.filter fun u => u.placed && u.loc.die == s.cur.loc.die && u.loc.cluster == s.cur.loc.cluster &&
    u.loc.slot == s.cur.loc.slot && u.loc.core / w == s.cur.loc.core / w

def Unit.gangWait (u : Unit) : Option Nat :=
  match u.wait with
  | .gang w => some w
  | .run => none
  | .lwait _ => none
  | .atTime _ => none
  | .lbank _ _ _ => none
  | .fenceE _ => none
  | .bar _ _ => none
  | .retire _ _ => none
  | .nonspec => none
  | .stopped => none

/-- A waiting `gang` (R222): once every slot of the group has issued `gang`, the group fuses, or, where a slot holds a unit of another launch
or one issued another width, every waiting member takes ILLEGAL_OPERAND. A pre-empted member issues `gang` again when it resumes, and the
others wait for it. Every member finishes its own bundle, whose windows it has left behind (R41), and continues at the leader's next one;
the next task restarts at the A-slot of the `gang` (R224, log 14). -/
def State.gangPoll (s : State) (w : Nat) : Out :=
  let g := s.gangGroup w
  let issued := (upTo w).all fun i => g.any fun u => u.loc.core == s.cur.loc.core / w * w + i
  let waiting (u : Unit) : Bool := g.any fun v => v.loc == u.loc && v.launch == u.launch && u.gangWait.isSome
  if !issued || g.any (fun u => u.gangWait.isNone) then s.wait
  else if g.any fun u => u.launch != s.cur.launch || u.gangWait != some w then
    let trap (u : Unit) : Unit := { u with wait := .run, owed := u.owed ++ [{ trap := .illegalOperand, faddr := u.here }] }
    let s := { s with others := s.others.map fun u => if waiting u then trap u else u }
    (s.modCur fun u => { u with wait := .run }).raise (s.bundleTrap .illegalOperand)
  else
    let lead := g.foldl (fun (l : Unit) u => if u.loc.core < l.loc.core then u else l) s.cur
    let next := lead.npc
    let fuse (u : Unit) : Unit :=
      { (u.jump next).age s.ids with
        wait := .run, gang := w, aslot := true, turn := .ran
        task := { u.task with restartPc := u.pc, restartA := true } }
    .next ((s.modUnits waiting fuse).focus lead.loc)

/-- What `gang` does once its commit has ended (R222). -/
def State.gangAct (s : State) (w : Nat) : Out :=
  if w = 1 then .next (s.modCur fun u => (u.pastC false).restartHere)
  else (s.modCur fun u => { u with wait := .gang w }).wait

/-- `gang` (R222). -/
def execGang (a : SReg) (s : State) : Out :=
  let w := (s.cur.getS a).toNat
  s.issue { ok := (w == 1 || w == 2 || w == 4 || w == 8) && s.cur.gang == 1, touch := [s.cur.keyS a] } fun s =>
    s.withCommit (.gang w) false fun s => s.gangAct w

/-- `split` (R223): each member leaves the gang once the A-slot of the bundle has executed in lock-step. -/
def execSplit (s : State) : Out :=
  s.issue {} fun s => (s.modCur fun u => { u with splitAt := if u.gang = 1 then none else some u.pc }).doneC

/-! ### Tasks (R227 to R231) -/

/-- A live-in mask without reserved bits (R224, R227). -/
def maskOk (m : Word) : Bool := !m.getLsbD 0 && bits m 63 62 == 0
/-- A timestamp that fits and does not fall (R227, R228). -/
def Unit.stampOk (u : Unit) (x : Word) : Bool := bits x 63 32 == 0 && decide (u.task.tstamp.toNat ≤ x.toNat)

/-- `tbegin` (R227). -/
def execTbegin (a b : SReg) (s : State) : Out :=
  let ts := s.cur.getS a
  let m := s.cur.getS b
  s.issue { ok := s.cur.stampOk ts && maskOk m, touch := [s.cur.keyS a, s.cur.keyS b] } fun s =>
    s.withCommit (.tbegin (ts.truncate 32) m) false fun s => s.doneC

/-- `tcommit` (R227). -/
def execTcommit (s : State) : Out := s.issue {} fun s => s.withCommit .tcommit false fun s => s.doneC

/-- What an exit does once its commit has ended (R231): the unit waits until every released command has reported. -/
def State.exitAct (s : State) (code : BitVec 16) : Out := (s.modCur fun u => { u with wait := .retire code false }).wait

/-- The commit of an exit, after every incomplete lookahead instruction has completed (R231). -/
def State.exitWith (s : State) (srcs : List SReg) (code : BitVec 16) : Out :=
  s.issue { touch := srcs.map s.cur.keyS } fun t =>
    if !t.cur.allReady then s.wait
    else (t.setCur t.cur.completeReady).withCommit (.exit code) false fun t => t.exitAct code

/-- `exit` (R231). -/
def execExit (a : SReg) (s : State) : Out := s.exitWith [a] ((s.cur.getS a).truncate 16)
/-- `tend` (R231). -/
def execTend (s : State) : Out := s.exitWith [] 0

/-- `tspawn` (R228). -/
def execTspawn (d a b : SReg) (s : State) : Out :=
  let u := s.cur
  let e := u.getS a
  let r : SpawnRec := { entry := e, ts := (u.getS b).truncate 32, mask := u.getS d,
                        lo := [1, 2, 3, 4, 5, 6, 7].map fun r => u.getS r,
                        out := [24, 25, 26, 27, 28, 29, 30, 31].map fun r => u.getS r }
  s.issue { ok := u.stampOk (u.getS b) && maskOk (u.getS d),
            touch := u.keyS d :: u.keyS a :: u.keyS b :: u.outKeys ++ [1, 2, 3, 4, 5, 6, 7].map (fun r => u.keyS r),
            addr := [if bits e 2 0 ≠ 0 then some (addressTrap .misaligned e) else none, rangeCheck e] } fun s =>
    s.holdRoom fun s => (s.hold (.spawn r)).doneC

/-- `tstamp` (R229). -/
def execTstamp (d : SReg) (s : State) : Out := s.resultC d [] fun t => word (t.lowest t.cur.loc.die t.cur.launch)

/-- `tabort` (R230): not in a non-speculative task (R328). -/
def execTabort (s : State) : Out := s.issue { ok := !s.cur.task.nonspec } fun s => .next (s.discard.restart)

/-- `tabort.o` (R230): the rerun is non-speculative (R327, R328). -/
def execTabortO (s : State) : Out := s.issue { ok := !s.cur.task.nonspec } fun s => .next s.capacityEvent

/-! ### Divides and wide multiplies (R211 to R213) -/

/-- Quotient or remainder of R212 at 64 bits: the result, and whether y is zero. -/
def divide (signed rem : Bool) (x y : Word) : Word :=
  if y = 0 then (if rem then x else BitVec.allOnes 64)
  else if signed then (if rem then wordI (remT x.toInt y.toInt) else wordI (quotT x.toInt y.toInt))
  else if rem then word (x.toNat % y.toNat) else word (x.toNat / y.toNat)

/-- The same at 32 bits, sign-extended (R212). -/
def divideW (signed rem : Bool) (x y : Word32) : Word :=
  let z : Word32 :=
    if y = 0 then (if rem then x else BitVec.allOnes 32)
    else if signed then BitVec.ofInt 32 (if rem then remT x.toInt y.toInt else quotT x.toInt y.toInt)
    else BitVec.ofNat 32 (if rem then x.toNat % y.toNat else x.toNat / y.toNat)
  z.signExtend 64

/-- The registers that an operand b reads. -/
def Unit.operandKeys (u : Unit) : RegLit → List RegKey
  | .reg r => [u.keyS r]
  | .lit _ => []

/-- A divide (R211): the result is known at issue and written when the instruction completes. -/
def State.divideOp (s : State) (la : BitVec 4) (d a : SReg) (b : RegLit) (f : Word → Word → Word) (zero : Word → Bool) : Out :=
  let x := s.cur.getS a
  let y := s.cur.operand b
  s.issue { touch := s.cur.keyS d :: s.cur.keyS a :: s.cur.operandKeys b, live := s.cur.namedS d } fun t =>
    (t.openWindow la (t.cur.destS d) (some [sval (f x y)]) .answer (zero y)).doneC (regLit b)

def execDiv (la : BitVec 4) (d a : SReg) (b : RegLit) (s : State) : Out := s.divideOp la d a b (divide true false) (· == 0)
def execDivu (la : BitVec 4) (d a : SReg) (b : RegLit) (s : State) : Out := s.divideOp la d a b (divide false false) (· == 0)
def execRem (la : BitVec 4) (d a : SReg) (b : RegLit) (s : State) : Out := s.divideOp la d a b (divide true true) (· == 0)
def execRemu (la : BitVec 4) (d a : SReg) (b : RegLit) (s : State) : Out := s.divideOp la d a b (divide false true) (· == 0)

/-- The w forms divide bits [31:0] (R211). -/
def onLowDiv (signed rem : Bool) (x y : Word) : Word := divideW signed rem (x.truncate 32) (y.truncate 32)
def lowZero (y : Word) : Bool := y.truncate 32 == (0 : Word32)

def execDivw (la : BitVec 4) (d a : SReg) (b : RegLit) (s : State) : Out := s.divideOp la d a b (onLowDiv true false) lowZero
def execDivuw (la : BitVec 4) (d a : SReg) (b : RegLit) (s : State) : Out := s.divideOp la d a b (onLowDiv false false) lowZero
def execRemw (la : BitVec 4) (d a : SReg) (b : RegLit) (s : State) : Out := s.divideOp la d a b (onLowDiv true true) lowZero
def execRemuw (la : BitVec 4) (d a : SReg) (b : RegLit) (s : State) : Out := s.divideOp la d a b (onLowDiv false true) lowZero

/-- A 128-bit product into s[d] and s[d + 1] (R211). -/
def State.mulWide (s : State) (la : BitVec 4) (d a : SReg) (b : RegLit) (f : Word → Word → Nat) : Out :=
  let p := f (s.cur.getS a) (s.cur.operand b)
  let ks := [s.cur.keyS d, s.cur.keyS (d + 1)]
  s.issue { ok := d != 0 && d != 31, touch := ks ++ s.cur.keyS a :: s.cur.operandKeys b,
            live := s.cur.namedS d || s.cur.namedS (d + 1) } fun t =>
    (t.openWindow la ks (some [sval (word p), sval (word (p / 2 ^ 64))]) .answer).doneC (regLit b)

/-- `mul2` (R211). -/
def execMul2 (la : BitVec 4) (d a : SReg) (b : RegLit) (s : State) : Out :=
  s.mulWide la d a b fun x y => ((x.toInt * y.toInt) % 2 ^ 128).toNat
/-- `mul2u` (R211). -/
def execMul2u (la : BitVec 4) (d a : SReg) (b : RegLit) (s : State) : Out := s.mulWide la d a b fun x y => x.toNat * y.toNat

end Sys2Proof.Machine
end

