-- ==== Sys2Proof/Machine/Sync.lean ====
section
/-! DEFINITION. Returning atomics (R329 to R331, R354, R355), no-return reductions (R332, R333), sequentially consistent
operations (R334, R335), fences and barriers (R336 to R338). -/

namespace Sys2Proof.Machine

/-! ### What is still to be answered -/

/-- An answer reaches the incomplete instruction with a number, whichever unit holds it. -/
def State.answerPend (s : State) (id : Nat) (f : Pend → Pend) : State :=
  s.modUnits (fun u => u.pend.any fun p => p.id == id) fun u => { u with pend := u.pend.map fun p => if p.id = id then f p else p }

/-- An earlier atomic, SC operation or rope instruction of the unit has not been performed (R346). -/
def Unit.orderedBefore (u : Unit) (id : Nat) : Bool := u.pend.any fun p => decide (p.id < id) && !p.ready && Act.ordered p.act

/-- The trap of an incomplete instruction (R42): precise with a lookahead of 0, late otherwise. -/
def Pend.trap (p : Pend) (t : TrapInfo) : TrapInfo :=
  if p.hold then t else { t with late := true, lpc := p.pc }

/-- A fault of an access that a home or hub performs for an incomplete instruction: posted to the gleaner of its unit, which
waits on its mailbox (R78, R79); none while that gleaner's inbox is full. -/
def State.faultPend (s : State) (id : Nat) (acc : Acc) (ea : Word) (c : Cause) : Option State :=
  match s.units.find? fun u => u.pend.any fun p => p.id == id with
  | none => some s
  | some u =>
    let f : Fault' := { token := 0, src := if u.wain then .wain else .worker, loc := u.loc, job := u.job, cause := c, acc, va := ea,
                        entry := 0, committing := false, pend := id, launch := u.launch }
    (s.post f).map fun t => t.modUnits (fun v => v.is u.loc u.launch) fun v => { v with mail := v.mail ++ t.lastToken }

/-! ### Returning atomics (R330) -/

/-- The values that an atomic writes: zext(old, 32) for `.w` and `.f32`, two words for `.q` (R330). -/
def atomicValues (t : AType) (old : Nat) : List VWord :=
  match t with
  | .w => [sval (word old)]
  | .d => [sval (word old)]
  | .f32 => [sval (word old)]
  | .q => [sval (word old), sval (word (old / 2 ^ 64))]

/-- An indivisible access has its old value, waits, is at the hub, or ends in a trap. -/
inductive Accessed where
  | ok (s : State) (old : Nat)
  | wait (s : State)
  | atHub (s : State)
  | trap (s : State) (t : TrapInfo)
  deriving DecidableEq, Repr

def Accessed.ofGot : Got → Accessed
  | .ok s _ => .wait s
  | .wait s => .wait s
  | .trap s t => .trap s t

/-- The access of a returning atomic by the incomplete instruction `id` (R330): at the bank for an aperture address, else at
the home that its translation names. -/
def State.access (s : State) (id : Nat) (op : AtomOp) (t : AType) (ea : Word) (y cmp : BitVec 128) : Accessed :=
  let u := s.cur
  let n := typeBytes t
  let f (old : Nat) : Option Nat := op.apply t old y.toNat cmp.toNat
  let here (s : State) (pa : Nat) : Accessed :=
    if s.lockedAgainst pa n then .wait s else let (s, old) := s.homeAtomic pa n f; .ok s old
  if u.orderedBefore id || u.wordBefore id ea n then .wait s
  else if u.inAperture ea then (if s.apertureWaits ea then .wait s else here s (s.paOf (u.loftAddr ea)))
  else
    match s.translate (sliceDie u.loc.die) u.job ea.toNat .atomic (tsrSup u.tsr) u.secure with
    | (s, .fault c e) => .ofGot (s.faultCur .atomic ea.toNat c e false id)
    | (s, .wait) => .wait s
    | (s, .ok pa e expiry) =>
      if s.isLocal pa then
        let s := s.leavePlace .atomic u.loc ea.toNat
        match s.writeRefused u.secure false pa with
        | some c => .ofGot (s.faultCur .atomic ea.toNat c e false id)
        | none =>
          match regionOf (localOf pa) with
          | .host h =>
            if s.hostCompletes (localOf pa) op t then
              let k := s.hub h
              .atHub (s.setHub h { k with atomics := k.atomics ++ [{ loc := u.loc, op, t, ea, pa, y, cmp, pend := id }] })
            else .trap s (hostTrap ea)
          | .hbm _ _ => here s pa
          | .lpddr _ => here s pa
          | .granary _ _ => here s pa
          | .loft _ _ _ _ => here s pa
          | .hub _ _ => here s pa
          | .reserved => here s pa
      else
        match s.ask .atomic u.loc ea.toNat pa n expiry (atomicData op t false y cmp) u.secure with
        | (s, .wait) => .wait s
        | (s, .answer .refuse reason _) =>
          if reason = 9 then .trap s (hostTrap ea)
          else .ofGot (s.faultCur .atomic ea.toNat (causeOfReason reason) e false id)
        | (s, .answer _ _ l) => .ok s (ofBytes (l.take n))

/-- The destinations of an atomic: s[d], and s[d + 1] for `.q` (R330). -/
def Unit.atomicDests (u : Unit) (t : AType) (d : SReg) : List RegKey :=
  match t with
  | .w => u.destS d
  | .d => u.destS d
  | .f32 => u.destS d
  | .q => [u.keyS d, u.keyS (d + 1)]

/-- The access of an atomic once its commit has ended (R330). -/
def State.atomicAct (s : State) (op : AtomOp) (t : AType) (la : BitVec 4) (d : SReg) (ea : Word) (y cmp : BitVec 128) (lone : Bool) : Out :=
  let dests := s.cur.atomicDests t d
  let act : Act := .atomic op t ea y cmp
  match s.access s.ids op t ea y cmp with
  | .ok s old => (s.openWindow la dests (some (atomicValues t old)) act).doneC lone
  | .wait s => (s.openWindow la dests none act).doneC lone
  | .atHub s => (s.openWindow la dests none (.far ea (typeBytes t))).doneC lone
  | .trap s i =>
    if la = 0 then s.raise i
    else ((s.modCur fun u => { u with owed := u.owed ++ [{ i with late := true, lpc := u.pc, beyond := true }] })).doneC lone

/-- The address checks of R330. -/
def State.atomicChecks (s : State) (ea : Word) (t : AType) : List (Option TrapInfo) := s.addrChecks ea (typeBytes t) (typeBytes t)

/-- A register pair as a 128-bit value, or one register. -/
def Unit.pair (u : Unit) (t : AType) (r : SReg) : BitVec 128 :=
  match t with
  | .w => (u.getS r).zeroExtend 128
  | .d => (u.getS r).zeroExtend 128
  | .f32 => (u.getS r).zeroExtend 128
  | .q => u.getS (r + 1) ++ u.getS r

/-- The operand y of an atomic (R329). -/
def Unit.atomicY (u : Unit) (t : AType) : RegLit → BitVec 128
  | .reg b => u.pair t b
  | .lit x => ((x.signExtend 64 : Word)).zeroExtend 128

/-- `acas.q` names even pairs below 31 (R329). -/
def pairsOk (t : AType) (d : SReg) : RegLit → Bool
  | .reg b => t != .q || (d.toNat % 2 == 0 && b.toNat % 2 == 0 && decide (d.toNat < 31) && decide (b.toNat < 31))
  | .lit _ => true

/-- A returning atomic (R330). -/
def State.atomic (s : State) (op : AtomOp) (la : BitVec 4) (d a : SReg) (b : RegLit) (t : AType) : Out :=
  let u := s.cur
  let ea := u.getS a
  let two := t == .q
  let more := if two then u.keyS (d + 1) :: (match b with
      | .reg r => [u.keyS (r + 1)]
      | .lit _ => []) else []
  let y := u.atomicY t b
  let cmp := u.pair t d
  s.issue { ok := pairsOk t d b, touch := u.keyS d :: u.keyS a :: u.operandKeys b ++ more, addr := s.atomicChecks ea t,
            live := u.namedS d || (two && u.namedS (d + 1)) } fun s =>
    s.withCommit (.atomic op t la d ea y cmp) (regLit b) fun s => s.atomicAct op t la d ea y cmp (regLit b)

def execAswap (la : BitVec 4) (d a : SReg) (b : RegLit) (t : AType) (s : State) : Out := s.atomic .swap la d a b t
def execAcas (la : BitVec 4) (d a : SReg) (b : RegLit) (t : AType) (s : State) : Out := s.atomic .cas la d a b t
def execAadd (la : BitVec 4) (d a : SReg) (b : RegLit) (t : AType) (s : State) : Out := s.atomic .add la d a b t
def execAand (la : BitVec 4) (d a : SReg) (b : RegLit) (t : AType) (s : State) : Out := s.atomic .and la d a b t
def execAor (la : BitVec 4) (d a : SReg) (b : RegLit) (t : AType) (s : State) : Out := s.atomic .or la d a b t
def execAxor (la : BitVec 4) (d a : SReg) (b : RegLit) (t : AType) (s : State) : Out := s.atomic .xor la d a b t
def execAmax (la : BitVec 4) (d a : SReg) (b : RegLit) (t : AType) (s : State) : Out := s.atomic .max la d a b t
def execAmin (la : BitVec 4) (d a : SReg) (b : RegLit) (t : AType) (s : State) : Out := s.atomic .min la d a b t
def execAmaxu (la : BitVec 4) (d a : SReg) (b : RegLit) (t : AType) (s : State) : Out := s.atomic .maxu la d a b t
def execAminu (la : BitVec 4) (d a : SReg) (b : RegLit) (t : AType) (s : State) : Out := s.atomic .minu la d a b t

/-! ### No-return reductions (R332, R333) -/

/-- A held reduction: y is captured, nothing commits. -/
def State.reduction (s : State) (op : AtomOp) (a : SReg) (b : RegLit) (t : AType) : Out :=
  let ea := s.cur.getS a
  let y := s.cur.operand b
  let n := typeBytes t
  s.issue { touch := s.cur.keyS a :: s.cur.operandKeys b, addr := s.atomicChecks ea t } fun s =>
    s.bufferOps ea n [] [.reduce ea op t y] fun s => s.doneC (regLit b)

def execAaddN (a : SReg) (b : RegLit) (t : AType) (s : State) : Out := s.reduction .add a b t
def execAandN (a : SReg) (b : RegLit) (t : AType) (s : State) : Out := s.reduction .and a b t
def execAorN (a : SReg) (b : RegLit) (t : AType) (s : State) : Out := s.reduction .or a b t
def execAxorN (a : SReg) (b : RegLit) (t : AType) (s : State) : Out := s.reduction .xor a b t
def execAmaxN (a : SReg) (b : RegLit) (t : AType) (s : State) : Out := s.reduction .max a b t
def execAminN (a : SReg) (b : RegLit) (t : AType) (s : State) : Out := s.reduction .min a b t
def execAmaxuN (a : SReg) (b : RegLit) (t : AType) (s : State) : Out := s.reduction .maxu a b t
def execAminuN (a : SReg) (b : RegLit) (t : AType) (s : State) : Out := s.reduction .minu a b t

/-! ### Sequentially consistent operations (R334, R335) -/

def scBytes : ScSize → Nat
  | .w => 4 | .d => 8
def scType : ScSize → AType
  | .w => .w | .d => .d

/-- The new value at the home, none where nothing is written (R334). -/
def ScOp.apply (op : ScOp) (z : ScSize) (old y cmp : Nat) : Option Nat :=
  let m := 2 ^ (8 * scBytes z)
  match op with
  | .ld => none
  | .st => some (y % m)
  | .swap => some (y % m)
  | .cas => if old = cmp % m then some (y % m) else none
  | .add => some ((old + y) % m)

/-- The atomic that the host link needs for an SC operation (R354): none for `sc.ld` and `sc.st`. -/
def ScOp.atomOp : ScOp → Option AtomOp
  | .ld => none | .st => none | .swap => some .swap | .cas => some .cas | .add => some .add

/-- Length of a window of TIME, and how long after its end an operation may be performed (R335). -/
def scWindow : ScScope → Nat
  | .device => 64 | .domain => 256
def scDelay : ScScope → Nat
  | .device => 48 | .domain => 1000

/-- Data of a fabric SC packet: operation, size, y and the compare value, then the announcement: TIME, scope, place and the number that
its unit's instructions carry (log 13). -/
def scData (op : ScOp) (m : ScScope) (z : ScSize) (y cmp ta : Word) (l : Loc) (id : Nat) : List Byte :=
  let o := match op with
    | .ld => 0 | .st => 1 | .swap => 2 | .cas => 3 | .add => 4
  [BitVec.ofNat 8 o, if z = .w then 0 else 1] ++ bytesOf 8 y.toNat ++ bytesOf 8 cmp.toNat ++ bytesOf 8 ta.toNat ++
    [if m = .device then 0 else 1, BitVec.ofNat 8 l.cluster, BitVec.ofNat 8 l.core, BitVec.ofNat 8 l.slot] ++ bytesOf 8 id

/-- What a module tells the others of a domain-scope operation (R335): that it is announced, which module its home is, and that it has
ended without its access. -/
inductive ScNews where
  | announced
  | home (m : Nat)
  | ended
  deriving DecidableEq, Repr

/-- Data of an announcement, which begins with a byte that no operation has (log 13): the news, the home, the window, the place and the
number of the operation. -/
def newsData (n : ScNews) (a : ScAnn) : List Byte :=
  let (c, h) : Nat × Nat := match n with
    | .announced => (0, 0) | .home m => (1, m) | .ended => (2, 0)
  [0xFF, BitVec.ofNat 8 c] ++ bytesOf 8 h ++ bytesOf 8 a.window ++
    [BitVec.ofNat 8 a.loc.cluster, BitVec.ofNat 8 a.loc.core, BitVec.ofNat 8 a.loc.slot] ++ bytesOf 8 a.pend

/-- A packet is an announcement of an SC operation, and not a request. -/
def Packet.announces (t : PktType) (k : Packet) : Bool := t == .sc && k.data.getD 0 0 == 0xFF

/-- News of a domain-scope operation goes to every module that the route table leads to (R335, R423). -/
def State.tellSc (s : State) (n : ScNews) (a : ScAnn) : State :=
  if a.scope = .device then s
  else
    let h := hubOfDie a.loc.die
    let to' := ((s.hub h).routes.filter fun e => e.2.getLsbD 63 && e.1 != s.modid.toNat).map Prod.fst
    { s with outbox := s.outbox ++ to'.map fun dst =>
        (h, PktType.sc, { dst, src := s.modid.toNat, sdie := a.loc.die, lseq := 0, exp := 0, addr := 0, data := newsData n a }) }

/-- The place in sco of an operation announced at TIME ta (R335), its home still unknown. -/
def scAnnOf (s : State) (id : Nat) (op : ScOp) (m : ScScope) (z : ScSize) (ea y cmp ta : Word) (l : Loc) : ScAnn :=
  let w := ta.toNat / scWindow m
  { window := w, scope := m, module := s.modid.toNat, loc := l, op, z, pa := 0, y, cmp, ready := (w + 1) * scWindow m + scDelay m, pend := id, ea,
    known := false }

/-- An operation announced, unless it has been. -/
def State.scPut (s : State) (a : ScAnn) : State :=
  if s.announced.any fun x => x.asker == .unit && x.pend == a.pend then s
  else ({ s with announced := s.announced ++ [a] } : State).tellSc .announced a

/-- A unit's announced operation changed, or gone. -/
def State.scMod (s : State) (id : Nat) (f : ScAnn → ScAnn) : State :=
  { s with announced := s.announced.map fun x => if x.asker = .unit ∧ x.pend = id then f x else x }
def State.scGone (s : State) (id : Nat) : State := { s with announced := s.announced.filter fun x => !(x.asker == .unit && x.pend == id) }

/-- The home of a unit's announced operation is known, or is another module than before, which the other modules are told. -/
def State.scHome (s : State) (id home : Nat) : State :=
  match s.announced.find? fun x => x.asker == .unit && x.pend == id with
  | some a =>
    if a.home = some home then s else (s.scMod id fun a => { a with home := some home, known := false }).tellSc (.home home) a
  | none => s

/-- A unit's announced operation has ended without its access. -/
def State.scEnded (s : State) (id : Nat) : State :=
  match s.announced.find? fun x => x.asker == .unit && x.pend == id with
  | some a => (s.scGone id).tellSc .ended a
  | none => s

/-- Why a home refuses an SC operation of a requester: as a load for `sc.ld`, else as an atomic (R164, R165, R357, R436). -/
def State.scRefused (s : State) (secure : Bool) (op : ScOp) (pa n : Nat) : Option Cause :=
  if op = .ld then
    match ({ s with locks := [], remoteLocks := [] } : State).homeRead secure pa n with
    | .fault c => some c
    | .bytes _ => none
    | .wait => none
  else s.writeRefused secure false pa

/-- An SC operation, announced at TIME ta, on its way (R335): its address is translated as an atomic's is (R330), and where its home is here the
announcement is completed; another module is sent it, after the earlier accesses of its unit, and performs it in its place of sco. -/
def State.announce (s : State) (id : Nat) (op : ScOp) (m : ScScope) (z : ScSize) (ea y cmp ta : Word) : Accessed :=
  let u := s.cur
  let n := scBytes z
  let s := s.scPut (scAnnOf s id op m z ea y cmp ta u.loc)
  let known (s : State) (pa : Nat) : Accessed :=
    .atHub ((s.scHome id s.modid.toNat).scMod id fun a => { a with pa, known := true })
  if u.inAperture ea then (if s.apertureWaits ea then .wait s else known s (s.paOf (u.loftAddr ea)))
  else
    match s.translate (sliceDie u.loc.die) u.job ea.toNat .atomic (tsrSup u.tsr) u.secure with
    | (s, .fault c e) => .ofGot (s.faultCur .atomic ea.toNat c e false id)
    | (s, .wait) => .wait s
    | (s, .ok pa e x) =>
      if s.isLocal pa then
        let s := s.leavePlace .sc u.loc ea.toNat
        match s.scRefused u.secure op pa n with
        | some c => .ofGot (s.faultCur .atomic ea.toNat c e false id)
        | none =>
          match op.atomOp, regionOf (localOf pa) with
          | some a, .host _ => if s.hostCompletes (localOf pa) a (scType z) then known s pa else .trap (s.scEnded id) (hostTrap ea)
          | _, _ => known s pa
      else
        let s := s.scHome id (moduleOf pa)
        if u.orderedBefore id || u.wordBefore id ea n then .wait s
        else
          match s.ask .sc u.loc ea.toNat pa n x (scData op m z y cmp ta u.loc id) u.secure with
          | (s, .wait) => .wait s
          | (s, .answer .refuse reason _) =>
            if reason = 9 then .trap (s.scEnded id) (hostTrap ea) else .ofGot (s.faultCur .atomic ea.toNat (causeOfReason reason) e false id)
          | (s, .answer _ _ l) => .ok (s.scGone id) (ofBytes (l.take n))

/-- What an SC operation writes once its old value is known (R334). -/
def scValues (dests : List RegKey) (old : Nat) : List VWord := if dests.isEmpty then [] else [sval (word old)]

/-- What an SC operation does once its commit has ended, at TIME ta (R335). -/
def State.scAct (s : State) (op : ScOp) (m : ScScope) (z : ScSize) (la : BitVec 4) (d : SReg) (ea y cmp : Word) (lone : Bool) : Out :=
  let dests := if op = .st then [] else s.cur.destS d
  let act : Act := .sc op m z ea y cmp s.time
  match s.announce s.ids op m z ea y cmp s.time with
  | .ok s old => (s.openWindow la dests (some (scValues dests old)) act).doneC lone
  | .atHub s => (s.openWindow la dests none (.far ea (scBytes z))).doneC lone
  | .wait s => (s.openWindow la dests none act).doneC lone
  | .trap s i =>
    if la = 0 then s.raise i
    else ((s.modCur fun u => { u with owed := u.owed ++ [{ i with late := true, lpc := u.pc, beyond := true }] })).doneC lone

/-- An SC operation (R335). -/
def State.scOp (s : State) (op : ScOp) (la : BitVec 4) (d a : SReg) (b : RegLit) (m : ScScope) (z : ScSize) : Out :=
  let u := s.cur
  let ea := u.getS a
  let y := u.operand b
  let cmp := u.getS d
  s.issue { touch := u.keyS d :: u.keyS a :: u.operandKeys b, addr := s.addrChecks ea (scBytes z) (scBytes z), live := u.namedS d } fun s =>
    s.withCommit (.sc op m z la d ea y cmp) (regLit b) fun s => s.scAct op m z la d ea y cmp (regLit b)

def execScLd (la : BitVec 4) (d a : SReg) (m : ScScope) (z : ScSize) (s : State) : Out := s.scOp .ld la d a (.reg 0) m z
def execScSt (a : SReg) (b : RegLit) (m : ScScope) (z : ScSize) (s : State) : Out := s.scOp .st 0 0 a b m z
def execScSwap (la : BitVec 4) (d a : SReg) (b : RegLit) (m : ScScope) (z : ScSize) (s : State) : Out := s.scOp .swap la d a b m z
def execScCas (la : BitVec 4) (d a : SReg) (b : RegLit) (m : ScScope) (z : ScSize) (s : State) : Out := s.scOp .cas la d a b m z
def execScAdd (la : BitVec 4) (d a : SReg) (b : RegLit) (m : ScScope) (z : ScSize) (s : State) : Out := s.scOp .add la d a b m z

/-- The order sco among announced operations (R335): by the end of the window, device before domain, then by module and place. -/
def scBefore (a b : ScAnn) : Bool :=
  let key (x : ScAnn) : List Nat :=
    [(x.window + 1) * scWindow x.scope, (if x.scope = .device then 0 else 1), x.module, x.loc.die, x.loc.cluster, x.loc.core, x.loc.slot]
  let rec less : List Nat → List Nat → Bool
    | x :: xs, y :: ys => if x = y then less xs ys else decide (x < y)
    | _, _ => false
  less (key a) (key b)

/-- The first of a list in sco. -/
def scFirst : List ScAnn → Option ScAnn
  | [] => none
  | x :: r => match scFirst r with
    | none => some x
    | some y => if scBefore y x then some y else some x

/-- The earliest announced operation of a unit of this module, where it precedes `a` in program order. -/
def scEarliest (a : ScAnn) (l : List ScAnn) : ScAnn :=
  if a.asker = .unit then l.foldl (fun b x => if x.loc = a.loc ∧ x.asker = .unit ∧ x.pend < b.pend then x else b) a else a

/-- The home of an operation may be this module: it is, or it is not known yet. -/
def ScAnn.mayBeHere (a : ScAnn) (modid : Nat) : Bool := a.home.all (· = modid)

/-- The operation that is performed next: the first in sco, or one of its unit that stands before it in program order (R346). -/
def State.scNext (s : State) : Option ScAnn :=
  let l := s.announced.filter fun a => a.mayBeHere s.modid.toNat
  (scFirst l).map fun a => scEarliest a l

/-- The operation belongs to a unit that an earlier access of its own holds back (R346). -/
def State.scBlocked (s : State) (a : ScAnn) : Bool :=
  a.asker == .unit && s.units.any fun u => u.pend.any (fun p => p.id == a.pend) && (u.orderedBefore a.pend || u.wordBefore a.pend a.ea (scBytes a.z))

/-- The old value of an SC operation reaches its unit. -/
def State.scAnswer (s : State) (a : ScAnn) (old : Nat) : State :=
  (s.scGone a.pend).answerPend a.pend fun p => { p with values := some (scValues p.dests old) }

/-! ### Fences (R337) -/

/-- Words whose home lies on another module or in the host window leave the ways (R337). -/
def State.clearForeign (s : State) : State :=
  s.setCurCluster (s.curCluster.clearWords fun w => !s.isLocal w || isHost w)

/-- The end of a fence. -/
def State.fenceEnd (s : State) (i : Bool) : Out :=
  let s := if i then s.clearForeign else s
  (s.modCur fun u => { u with wait := .run }).doneC

/-- A fence with E waits for the unit's released commands, and then the engines' writes leave the cluster's ways (R337). -/
def State.fencePoll (s : State) (i : Bool) : Out :=
  if s.cur.reported then (s.setCurCluster s.curCluster.applyClears).fenceEnd i
  else (s.modCur fun u => { u with wait := .fenceE i }).wait

/-- What a fence does once its commit has ended. -/
def State.fenceAct (s : State) (e i : Bool) : Out := if e then s.fencePoll i else s.fenceEnd i

def State.fence (s : State) (e i : Bool) : Out := s.issue {} fun s => s.withCommit (.fence e i) false fun s => s.fenceAct e i

def execFence (s : State) : Out := s.fence false false
def execFenceE (s : State) : Out := s.fence true false
def execFenceI (s : State) : Out := s.fence false true
def execFenceEi (s : State) : Out := s.fence true true

/-! ### Barriers (R338) -/

def Launch.barrier (l : Launch) (b : Nat) : Barrier := (Sparse.find? l.barriers b).getD {}

/-- An arrival at a barrier once the commit has ended (R338): a count other than the first arrival's traps; the last arrival
opens the next generation. -/
def State.barAct (s : State) (b count : Nat) : Out :=
  match s.curLaunch with
  | none => s.doneC
  | some l =>
    let x := l.barrier b
    if x.arrived > 0 ∧ x.count ≠ count then s.raise (s.bundleTrap .illegalOperand)
    else
      let put (y : Barrier) (s : State) : State := s.modLaunch l.num fun l => { l with barriers := Sparse.put l.barriers b y }
      if x.arrived + 1 = count then (put { gen := x.gen + 1 } s).doneC
      else ((put { x with count, arrived := x.arrived + 1 } s).modCur fun u => { u with wait := .bar b x.gen }).wait

/-- A party waits until its generation has opened (R338). -/
def State.barPoll (s : State) (b gen : Nat) : Out :=
  match s.curLaunch with
  | none => (s.modCur fun u => { u with wait := .run }).doneC
  | some l => if (l.barrier b).gen ≠ gen then (s.modCur fun u => { u with wait := .run }).doneC else s.wait

/-- `bar` (R338). -/
def execBar (a b : SReg) (s : State) : Out :=
  let x := s.cur.getS a
  let n := s.cur.getS b
  s.issue { ok := bits x 63 4 == 0 && decide (n ≠ 0) && decide (n.toNat ≤ 65535), touch := [s.cur.keyS a, s.cur.keyS b] } fun s =>
    s.withCommit (.bar x.toNat n.toNat) false fun s => s.barAct x.toNat n.toNat

end Sys2Proof.Machine
end

