-- ==== Sys2Proof/Machine/Engine.lean ====
section
/-! DEFINITION. What the engines share (R14, R64, R74, R150, R402, R436): reads and writes outside tasks through the slices and
homes, the faults they post, and the messages and records with which they report (R111, R117, R153, R298). A piece of engine
work runs whole in one step of the model or not at all; its writes are performed when it has succeeded (log 16). -/

namespace Sys2Proof.Machine

/-! ### Engine work -/

/-- How a piece of engine work ends without success: with a STATUS, in a translation fault, or because it must wait. -/
inductive EngEnd where
  | status (n : Nat)
  | fault (acc : Acc) (va : Nat) (c : Cause) (e : Word)
  | wait
  deriving DecidableEq, Repr

/-- A write that a piece of engine work will perform: physical and virtual address, expiry and bytes; where `before` is given, it is the
change of a count that was that, which its home performs as one atomic operation (R103). -/
structure EngWrite where
  pa : Nat
  va : Nat
  expiry : Nat
  bytes : List Byte
  before : Option Nat := none
  deriving DecidableEq, Repr

/-- The translation of one side of a chunk: what it serves, the 64 KiB region of the virtual space, the physical base of that region, the
entry and the expiry (R69, R149). -/
structure Side where
  acc : Acc
  region : Nat
  base : Nat
  entry : Word
  expiry : Nat
  deriving DecidableEq, Repr

/-- The state of a piece of engine work: the machine, the part and the issuer it works for, the place its remote requests
carry (log 16), the writes it will perform, the translations of the chunk it performs, and a node pool that it may change. -/
structure EngSt where
  s : State
  src : Source
  who : Issuer
  loc : Loc
  log : List EngWrite := []
  sides : List Side := []
  pool : Pool := {}
  nodes : Nat := 0

abbrev EngM := EStateM EngEnd EngSt

/-- Work that succeeded with an answer, was refused or stopped, or met a fault. -/
inductive EngRes (α : Type) where
  | ok (x : α) (t : EngSt)
  | stop (n : Nat) (s : State)
  | fault (acc : Acc) (va : Nat) (c : Cause) (e : Word) (s : State)
  | wait (s : State)

/-- The result of work begun in a state. -/
def EngM.result {α : Type} (m : EngM α) (t : EngSt) : EngRes α :=
  match m.run t with
  | .ok x t => .ok x t
  | .error (.status n) t => .stop n t.s
  | .error (.fault a va c e) t => .fault a va c e t.s
  | .error .wait t => .wait t.s

/-- A refusal with a STATUS. -/
def engStop {α : Type} (n : Nat) : EngM α := throw (.status n)

/-- A check of an engine: the STATUS where it fails. -/
def engCheck (b : Bool) (n : Nat) : EngM PUnit := if b then pure ⟨⟩ else throw (.status n)

/-- The translation of one access in the issuer's job, at its privilege and in its world (R150, R433): that of its chunk's side where
there is one, or by its own slice (R69). -/
def engXlate (acc : Acc) (va : Nat) : EngM (Nat × Word × Nat) := do
  let t ← get
  match t.sides.find? fun x => x.acc == acc && x.region == va / 65536 with
  | some x => pure (x.base + va % 65536, x.entry, x.expiry)
  | none =>
    match t.s.apart fun s => s.translate (sliceDie t.loc.die) t.who.job va acc t.who.supervisor t.who.secure with
    | (s, .fault c e) => do
      set { t with s }
      throw (.fault acc va c e)
    | (s, .wait) => do
      set { t with s }
      throw .wait
    | (s, .ok pa e x) => do
      set { t with s }
      pure (pa, e, x)

/-- A translation under a fresh lease (R77). -/
def engRenew (acc : Acc) (va : Nat) : EngM (Nat × Word × Nat) := do
  modify fun t => { t with
    s := t.s.dropTlb (sliceDie t.loc.die) t.who.job va
    sides := t.sides.filter fun x => !(x.acc == acc && x.region == va / 65536) }
  engXlate acc va

/-- A translation serves the 64 KiB region of its address for the rest of a chunk (R69, R149). -/
def engFix (acc : Acc) (va : Nat) (x : Nat × Word × Nat) : EngM PUnit :=
  modify fun t => { t with
    sides := { acc, region := va / 65536, base := x.1 - va % 65536, entry := x.2.1, expiry := x.2.2 } ::
      t.sides.filter fun y => !(y.acc == acc && y.region == va / 65536) }

/-- Some word of a span is locked, so that an engine's access waits (R318). -/
def State.anyLock (s : State) (pa n : Nat) : Bool :=
  (spanWords pa n).any fun w => s.locks.contains w || s.remoteLocks.any fun r => r.1 == w

/-- Bytes at `pa` under the writes of the work itself. -/
def overLog (log : List EngWrite) (pa : Nat) (bytes : List Byte) : List Byte :=
  log.foldl (fun l w =>
    if w.pa + w.bytes.length ≤ pa ∨ pa + l.length ≤ w.pa then l
    else l.mapIdx fun i x => if w.pa ≤ pa + i ∧ pa + i < w.pa + w.bytes.length then w.bytes.getD (pa + i - w.pa) x else x) bytes

/-- The reads of an engine that have been answered are made again (R74, R149). -/
def State.forgetReads (s : State) (p : Remote → Bool) : State :=
  { s with remotes := s.remotes.filter fun r => !(r.typ == .read && p r && (match r.answer with
      | some (t, _, _) => t != .refuse
      | none => false)) }

/-- A remote request of an engine, which keeps its answer until the work ends; a refused one keeps its place in its lane (R352), and the
work is done again from its first byte (R74). -/
def State.engAsk (s : State) (typ : PktType) (loc : Loc) (va pa n expiry : Nat) (data : List Byte) (secure : Bool) : State × Asked :=
  match s.remotes.find? fun r => r.asks typ loc va n data with
  | some r =>
    match r.answer with
    | some (t, reason, d) =>
      if t = .refuse then (s.forgetReads fun x => x.loc == loc).ask typ loc va pa n expiry data secure else (s, .answer t reason d)
    | none => (s, .wait)
  | none => s.ask typ loc va pa n expiry data secure

/-- A read by physical address at its home (R436); `va` is what a fault names. -/
def engReadPa (pa n va expiry : Nat) (e : Word) : EngM (List Byte) := do
  let t ← get
  if t.s.isLocal pa then
    if t.s.anyLock pa n then throw .wait
    else
      match t.s.homeRead t.who.secure pa n with
      | .fault c => throw (.fault .read va c e)
      | .wait => throw .wait
      | .bytes l => pure (overLog t.log pa l)
  else do
    let l ← (cutAt 128 (n / 128 + 2) pa n).foldlM (fun l p => far l (va + (p.1 - pa)) p.1 p.2) []
    pure (overLog t.log pa l)
where
  /-- At most 128 bytes from another module, after those of the span before them (R422). -/
  far (l : List Byte) (v a m : Nat) : EngM (List Byte) := do
    let t ← get
    match t.s.engAsk .read t.loc v a m expiry (readData m) t.who.secure with
    | (s, .wait) => do
      set { t with s }
      throw .wait
    | (s, .answer .data _ b) => do
      set { t with s }
      pure (l ++ b.take m)
    | (s, .answer _ reason _) => do
      set { t with s }
      throw (.fault .read va (causeOfReason reason) e)

/-- A read of `n` bytes by virtual address, piece by piece (R69). -/
def engRead (va n : Nat) : EngM (List Byte) :=
  (pieces256 va n).foldlM (fun l p => do
    let (pa, e, x) ← engXlate .read p.1
    let b ← engReadPa pa p.2 p.1 x e
    pure (l ++ b)) []

def engNum (va n : Nat) : EngM Nat := do
  let b ← engRead va n
  pure (ofBytes b)
def engWord (va : Nat) : EngM Word := do
  let x ← engNum va 8
  pure (word x)

/-- A write by physical address, kept until the work succeeds. -/
def engWritePa (pa va expiry : Nat) (b : List Byte) : EngM PUnit :=
  modify fun t => { t with log := t.log ++ [{ pa, va, expiry, bytes := b }] }

/-- Why a write of an engine is refused before it is sent: by its home in this module, or, in any module, since only copy engines write a
Granary window (R64, R165, R436). -/
def State.engineRefused (s : State) (secure copy : Bool) (pa : Nat) : Option Cause :=
  if s.isLocal pa then s.writeRefused secure copy pa
  else
    match regionOf (localOf pa) with
    | .granary _ _ => if copy then none else some .permission
    | .hbm _ _ => none
    | .lpddr _ => none
    | .loft _ _ _ _ => none
    | .hub _ _ => none
    | .host _ => none
    | .reserved => none

/-- A write by virtual address: its translation and its home's refusals are found first (R165, R436). -/
def engWrite (va : Nat) (b : List Byte) : EngM PUnit :=
  (pieces256 va b.length).foldlM (fun _ p => do
    let (pa, e, x) ← engXlate .write p.1
    let t ← get
    match t.s.engineRefused t.who.secure (t.src == .copy) pa with
    | some c => throw (.fault .write p.1 c e)
    | none => engWritePa pa p.1 x ((b.drop (p.1 - va)).take p.2)) ⟨⟩

/-- Why the home of a count refuses to change it: as it refuses a write, or since the host link completes no such operation (R355). -/
def State.countRefused (s : State) (secure : Bool) (pa : Nat) : Option Cause :=
  match s.engineRefused secure false pa with
  | some c => some c
  | none =>
    match regionOf (localOf pa) with
    | .host _ => if s.isLocal pa && !s.hostCompletes (localOf pa) .cas .w then some .hostAtomic else none
    | .hbm _ _ => none
    | .lpddr _ => none
    | .granary _ _ => none
    | .loft _ _ _ _ => none
    | .hub _ _ => none
    | .reserved => none

/-- A count of 4 bytes that is `n` becomes `m`: an atomic operation at its home (R103). -/
def engCount (va n m : Nat) : EngM PUnit := do
  let (pa, e, x) ← engXlate .atomic va
  let t ← get
  match t.s.countRefused t.who.secure pa with
  | some c => throw (.fault .atomic va c e)
  | none => modify fun t => { t with log := t.log ++ [{ pa, va, expiry := x, bytes := bytesOf 4 m, before := some n }] }

/-- The writes of the work may be performed: no word of them is locked, and those to other modules can be sent (R318, R427). -/
def EngSt.unlocked (t : EngSt) : Bool :=
  t.log.all fun w =>
    if t.s.isLocal w.pa then !t.s.anyLock w.pa w.bytes.length else !t.s.lost && t.s.routed t.loc.die (moduleOf w.pa)

/-- A write of an engine to another module, in packets of at most 128 bytes (R422); a count there has been changed before (R103). -/
def State.sendWrite (s : State) (loc : Loc) (who : Issuer) (w : EngWrite) : State :=
  match w.before with
  | some _ => s
  | none =>
    (cutAt 128 (w.bytes.length / 128 + 2) w.pa w.bytes.length).foldl (fun (s : State) p =>
      s.request { sdie := loc.die, dst := moduleOf p.1, lseq := 0, typ := .write, loc, pa := p.1, va := w.va + (p.1 - w.pa), size := p.2,
                  data := (w.bytes.drop (p.1 - w.pa)).take p.2, launch := who.launch, secure := who.secure } w.expiry) s

/-- The writes performed at their homes, or sent to their modules (R150, R325); the answers of the work are used up. -/
def EngSt.perform (t : EngSt) : State :=
  t.log.foldl (fun (s : State) w => if s.isLocal w.pa then s.engineSet w.pa w.bytes else s.sendWrite t.loc t.who w)
    { t.s with remotes := t.s.remotes.filter fun r => !(r.loc == t.loc && !r.dropped && (r.typ == .read || r.typ == .atomic)) }

/-- The operands of the compare-and-swap that changes a count (R103). -/
def countData (old new : Nat) : List Byte := atomicData .cas .w false (BitVec.ofNat 128 new) (BitVec.ofNat 128 old)

/-- How the counts that other modules keep are changed: all of them are, one is out or has been changed by another engine since it was read,
or a home refuses. -/
inductive Claimed where
  | done
  | wait
  | fault (va : Nat) (c : Cause)
  deriving DecidableEq, Repr

/-- The counts of a piece of work that other modules keep, changed one after another by compare-and-swap at their homes: no change of another
engine is lost, and the work decides on the value that it changed (R103). -/
def State.claimFrom (s : State) (loc : Loc) (secure : Bool) : List EngWrite → State × Claimed
  | [] => (s, .done)
  | w :: rest =>
    match w.before with
    | none => State.claimFrom s loc secure rest
    | some old =>
      if s.isLocal w.pa then State.claimFrom s loc secure rest
      else
        let data := countData old (ofBytes w.bytes)
        match s.engAsk .atomic loc w.va w.pa 4 w.expiry data secure with
        | (t, .wait) => (t, .wait)
        | (t, .answer .refuse reason _) => (t, .fault w.va (causeOfReason reason))
        | (t, .answer _ _ d) =>
          if ofBytes (d.take 4) = old then State.claimFrom t loc secure rest
          else
            ((t.dropAsked fun r => r.asks .atomic loc w.va 4 data).forgetReads fun r =>
              r.loc == loc && decide (r.va < w.va + 4) && decide (w.va < r.va + r.size), .wait)

/-- The counts of work that has succeeded are changed where other modules keep them; those that an earlier attempt changed and this one does
not need are changed back (log 59). -/
def State.claim (s : State) (t : EngSt) : State × Claimed :=
  let needs (r : Remote) : Bool := t.log.any fun w => match w.before with
    | some old => r.asks .atomic t.loc w.va 4 (countData old (ofBytes w.bytes))
    | none => false
  (s.dropAsked fun r => r.loc == t.loc && r.typ == .atomic && !needs r).claimFrom t.loc t.who.secure t.log

/-- A write of an engine to another module. -/
def Remote.engineWrites (r : Remote) (loc : Loc) : Bool := r.loc == loc && !r.dropped && r.typ == .write
/-- The reason for which a request has been refused. -/
def Remote.refusal (r : Remote) : Option Nat :=
  match r.answer with
  | some (t, n, _) => if t = .refuse then some n else none
  | none => none

/-- An engine's writes to other modules that are still to be acknowledged. -/
def State.writesOut (s : State) (loc : Loc) : Bool := s.remotes.any fun r => r.engineWrites loc && (r.answer.isNone || r.refusal.isSome)
/-- An engine's remote requests are done with: answers are used up, and what was refused leaves its lane (R352). -/
def State.dropRemotes (s : State) (loc : Loc) : State := (s.dropAsked fun r => r.loc == loc).withdrawHoles fun h => h.loc == loc

/-- A fault of an engine posted to the gleaner that R78 names; nothing happens while its inbox is full. -/
def State.engineFault (s : State) (src : Source) (who : Issuer) (acc : Acc) (va : Nat) (c : Cause) (e : Word) : State :=
  (s.post { token := 0, src, loc := who.loc, job := who.job, cause := c, acc, va := word va, entry := e, committing := false,
            pend := 0, launch := who.launch }).getD s

/-- A refused write of an engine translated again and sent again at its place in the lane (R74, R352); one that now meets a fault counts
as refused for its cause. One that its home in this module now takes waits for the locks on its words (R318). -/
def State.sendAgain (s : State) (src : Source) (who : Issuer) (r : Remote) : State :=
  if s.lost then s else
  match s.apart fun s => s.translate (sliceDie r.loc.die) who.job r.va .write who.supervisor who.secure with
  | (t, .ok pa _ x) =>
    if t.isLocal pa && t.anyLock pa r.size then t
    else
      match t.engineRefused who.secure (src == .copy) pa with
      | some c => refused t c
      | none =>
        let u : State := { t with remotes := t.remotes.filter (· ≠ r) }
        if u.isLocal pa then (u.withdraw r.sdie r.dst r.lseq).engineSet pa r.data
        else (u.keepPlace r).request { r with dst := moduleOf pa, pa, answer := none } x
  | (t, .wait) => t
  | (t, .fault c _) => refused t c
where
  /-- The write now counts as refused for a cause. -/
  refused (t : State) (c : Cause) : State :=
    { t with remotes := t.remotes.map fun x => if x = r then { r with answer := some (.refuse, c.number, []) } else x }

/-- The fault of a refused write posted, with word 2 of its message 0 (log 24); nothing happens while the inbox is full. -/
def State.refusedWrite (s : State) (src : Source) (who : Issuer) (r : Remote) : State :=
  match s.post { token := 0, src, loc := who.loc, job := who.job, cause := causeOfReason (r.refusal.getD 6),
                 acc := .write, va := word r.va, entry := 0, committing := false, pend := 0,
                 launch := who.launch } with
  | none => s
  | some t => { t with remotes := t.remotes.map fun x => if x = r then { r with posted := true } else x }

/-- Writes of an engine that were refused: a stale one is translated and sent again, but the eighth refusal in a row, and a refusal for
another cause, is a fault of the engine; a RETRY sends the write again (R74, R78). Answers the state, and whether a refusal was met. -/
def State.refusedWrites (s : State) (src : Source) (who : Issuer) (loc : Loc) : State × Bool :=
  (s.remotes.filter fun r => r.engineWrites loc && r.refusal.isSome).foldl (fun (t : State × Bool) r =>
    if r.posted then
      let r' := { r with posted := false }
      (({ t.1 with remotes := t.1.remotes.map fun x => if x = r then r' else x } : State).sendAgain src who r', true)
    else if r.refusal ≠ some 6 then (t.1.refusedWrite src who r, true)
    else
      match t.1.staleOnce loc r.va with
      | (u, false) => (u.sendAgain src who r, true)
      | (u, true) => (if (t.1.refusedWrite src who r).faults.length = t.1.faults.length then t.1 else u.refusedWrite src who r, true)) (s, false)

/-- An engine has a fault that is still to be answered. -/
def State.faultOut (s : State) (p : Fault' → Bool) : Bool := s.faults.any p

/-! ### Reports -/

/-- A unit's own counts of its outstanding commands, changed. -/
def State.countDown (s : State) (i : Issuer) (f : Unit → Unit) : State := (s.modUnits (fun u => u.is i.loc i.launch) f).progress i.launch

/-- The completion message of a copy (R153). -/
def copyMessage (r : CopyReq) (status : Nat) (w1 w2 w3 : Word) : List Word :=
  [word (0x30 * 2 ^ 56 + status * 2 ^ 48 + r.tag.toNat * 2 ^ 42 +
      (if r.by'.loc.cluster < Config.clustersPerDie then 0 else 2 ^ 40) + slotField r.by'.loc), w1, w2, w3]

/-- A copy reports: in its issuer's inbox, or for a COPY node to the command processor (R153, R385). -/
def State.copyReport (s : State) (r : CopyReq) (status : Nat) (w1 w2 w3 : Word) : State :=
  match r.node with
  | some (replay, node) => { s with nodeMsgs := s.nodeMsgs ++ [(replay, node, status)] }
  | none =>
    (s.message r.by' (copyMessage r status w1 w2 w3)).countDown r.by' fun u => { u with outCopies := u.outCopies - 1 }

/-- Number of a rope function (R113). -/
def RopeFn.code : RopeFn → Nat
  | .rcat => 0 | .rsplit => 1 | .rsplice => 2 | .rindex => 3 | .rsum => 4 | .rwalk => 5 | .rhold => 6 | .rdrop => 7
  | .rpiece => 8 | .rresum => 9 | .trim => 10 | .rtier => 11 | .pfx _ => 0

def RopeFn.isPfx : RopeFn → Bool
  | .pfx _ => true
  | .rcat => false | .rsplit => false | .rsplice => false | .rindex => false | .rsum => false | .rwalk => false
  | .rhold => false | .rdrop => false | .rpiece => false | .rresum => false | .trim => false | .rtier => false

/-- Word 0 of a rope record (R117). -/
def ropeWord (c : RopeCmd) (status nodes : Nat) : Word :=
  word (0x20 * 2 ^ 56 + status * 2 ^ 48 + c.tag.toNat * 2 ^ 42 + c.fn.code * 2 ^ 38 + nodes)

/-- What a rope command answers: its record, or the result registers of a prefix instruction, where a refusal is
2^63 + STATUS (R117, R132). -/
def ropeAnswer (c : RopeCmd) (status nodes : Nat) (ws : List Word) : List Word :=
  if c.fn.isPfx then (if status = 0 then ws else [word (2 ^ 63 + status), 0]) else ropeWord c status nodes :: ws

/-- The number under which a spill ring holds the record of a returning form, with that of the incomplete instruction behind it (R116). -/
def recordQueue : Nat := 1024

/-- The record of a returning form: it reaches the incomplete instruction, or the spill ring where pre-emption does not wait for it
(R116). -/
def State.recordFor (s : State) (c : RopeCmd) (ws : List Word) : State :=
  if !c.fn.isPfx && s.units.any fun u => u.is c.by'.loc c.by'.launch && s.spills u then
    s.deliver c.by'.loc c.by'.launch (recordQueue + c.pend) { bytes := bytesOfWords ws }
  else s.answerPend c.pend fun p => { p with values := some (ws.map sval) }

/-- The engine's writes leave the ways of the cluster before the unit's later accesses (R132). -/
def State.acquire (s : State) (l : Loc) : State :=
  let c := clusterId l.die l.cluster
  s.setCluster c (s.cluster c).applyClears

/-- A rope command reports: a record to q6, a message to the inbox, or the registers of a returning form (R114, R116). -/
def State.ropeReport (s : State) (c : RopeCmd) (ws : List Word) : State :=
  match c.form with
  | .plain =>
    (s.deliver c.by'.loc c.by'.launch 6 { bytes := bytesOfWords ws }).countDown c.by' fun u => { u with outRopes := u.outRopes - 1 }
  | .inbox => (s.message c.by' ws).countDown c.by' fun u => { u with outRopesI := u.outRopesI - 1 }
  | .returning => ((s.acquire c.by'.loc).recordFor c ws).progress c.by'.launch

/-- The message of a matrix command (R298). -/
def matrixMessage (c : MatCmd) (status : Nat) (time : Word) : List Word :=
  [word (0x40 * 2 ^ 56 + status * 2 ^ 48 + cwTag c.cw * 2 ^ 42 + (if cwProduct c.cw then 2 ^ 40 else 0) + slotField c.by'.loc +
      c.flags.toNat), word c.drained, c.err.getD 0, time]

/-- How a command ends (R298). -/
def MatCmd.status (c : MatCmd) : Nat := if c.err.isSome then 17 else if c.cancelled then 13 else 0

/-- A command whose last push to q3 is done produces no more for it (R195). -/
def State.outSettled (s : State) (c : MatCmd) : State := s.countDown c.by' fun u => { u with outMatsOut := u.outMatsOut - 1 }

/-- A matrix command reports (R298, R299): a message where C = 1, else a MATRIX_DATA trap owed where it met an error. -/
def State.matrixReport (s : State) (c : MatCmd) : State :=
  let s := if cwC c.cw then s.message c.by' (matrixMessage c c.status s.time)
    else if c.status = 17 then
      s.modUnits (fun u => u.is c.by'.loc c.by'.launch) fun u => { u with owedMatrix := u.owedMatrix ++ [c.err.getD 0] }
    else s
  s.countDown c.by' fun u =>
    { u with
      outMats := u.outMats - 1
      outMatsC := u.outMatsC - (if cwC c.cw then 1 else 0)
      outMatsOut := u.outMatsOut - (if cwOut c.cw && !c.outDone then 1 else 0) }

/-- An engine's entry for a FIFO stage (R147, R408): into the stage, or into the spill ring where the stage is full and a
taken slot has it bound; none where the engine must wait, also for room in a full ring. -/
def State.engineEntry (s : State) (stream : Nat) (b : List Byte) : Option State :=
  let bound := s.units.find? fun u => s.spills u &&
    (match s.streamIn u with
     | some t => streamNo t == stream
     | none => false)
  let spilled (u : Unit) : Bool := (s.cluster u.clusterId).spill.any fun e => e.loc == u.loc && e.q == 7
  match bound with
  | some u =>
    if spilled u || s.stageFree stream == 0 then
      let c := s.cluster u.clusterId
      if !c.spillRoom b.length then none
      else some (s.spill { loc := u.loc, launch := u.launch, q := 7, elem := { bytes := b } })
    else some (s.appendEntry stream b)
  | none => if s.stageFree stream = 0 then none else some (s.appendEntry stream b)

end Sys2Proof.Machine
end

