-- ==== Sys2Proof/Machine/Arrays.lean ====
section
/-! DEFINITION. The Flail and Product arrays (R281 to R299): weights and their check, the arbiter, the rows that accumulate and
drain into a tile, the rows pushed to q3, the completion of a command, and the tile moves as they are performed. -/

namespace Sys2Proof.Machine

/-! ### Weights (R281, R282) -/

/-- Local offset of the region of a cluster in the Granary of its die (R281). -/
def granaryBase (die cluster : Nat) : Nat := 0x300_0000_0000 + die * 0x1_0000_0000 + cluster * 0x0C00_0000
/-- Columns of an array. -/
def columnsOf (product : Bool) : Nat := if product then 256 else 512
/-- Region byte offset of the block of segment `j` of a command. -/
def MatCmd.blockAt (c : MatCmd) (j : Nat) : Nat :=
  64 * (crWb c.creg + j * blockWords (cwProduct c.cw) c.fb (crNs c.creg))
/-- Bytes of a column slot of a command. -/
def MatCmd.slotBytes (c : MatCmd) : Nat := columnSlot (cwProduct c.cw) c.fb (crNs c.creg)

/-- Nonzeros of a t5s group (R284). -/
def nsOf (ns : Nat) : Nat := if ns = 1 then 16 else if ns = 2 then 32 else 64

/-- The first slot byte of a t5s group out of order or out of place: its index; `last` is one more than the position before
it, `zero` says that a zero slot has come (R245). -/
def badSlot : Nat → Nat → Bool → List Byte → Option Nat
  | _, _, _, [] => none
  | i, last, zero, b :: r =>
    let p := b.toNat % 128
    if b.getLsbD 7 then (if p ≠ 0 then some i else badSlot (i + 1) last true r)
    else if zero ∨ p < last then some i
    else badSlot (i + 1) (p + 1) false r

/-- The first sign byte of a t5s group with a bit set for a zero slot. -/
def badSign (n : Nat) (g : List Byte) : Option Nat :=
  ((upTo (n / 8)).find? fun i => (upTo 8).any fun j => (g.getD (n + i) 0).getLsbD j && (g.getD (8 * i + j) 0).getLsbD 7).map (· + n)

/-- Where a t5s group is illegal (R245, R298). -/
def badGroup (n : Nat) (g : List Byte) : Option Nat :=
  match badSlot 0 0 false (g.take n) with
  | some i => some i
  | none => badSign n g

/-- The weights of a legal group of 128 (R245). -/
def groupTrits (n : Nat) (g : List Byte) : List Int :=
  let set := (upTo n).filterMap fun j =>
    let b := g.getD j 0
    if b.getLsbD 7 then none else some (b.toNat % 128, if (g.getD (n + j / 8) 0).getLsbD (j % 8) then (-1 : Int) else 1)
  (upTo 128).map fun q => (Sparse.find? set q).getD 0

/-- Offset of the bad weight in a column slot, none where every weight is legal (R298, R299). -/
def MatCmd.badWeight (c : MatCmd) (slot : List Byte) : Option Nat :=
  let k := if cwProduct c.cw then 128 else 512
  if c.fb = .t5 then (upTo ((k + 4) / 5)).find? fun i => decide (243 ≤ (slot.getD i 0).toNat)
  else if c.fb = .t5s then
    let n := nsOf (crNs c.creg)
    ((upTo 4).filterMap fun g => (badGroup n ((slot.drop (9 * n / 8 * g)).take (9 * n / 8))).map (· + 9 * n / 8 * g)).head?
  else
    match xOf c.fb, blockStarts c.fb 4 0 slot with
    | some p, some (ps, _) => ps.find? fun o => (xDecode p (slot.drop o)).isNone
    | _, _ => none

/-- The column slots of a loaded block. -/
def MatCmd.slots (c : MatCmd) (block : List Byte) : List (List Byte) :=
  (upTo (columnsOf (cwProduct c.cw))).map fun n => (block.drop (c.slotBytes * n)).take c.slotBytes

/-- The lowest bad weight of a block: its offset in the block. -/
def MatCmd.badBlock (c : MatCmd) (block : List Byte) : Option Nat :=
  (((c.slots block).mapIdx fun n s => (c.badWeight s).map (· + c.slotBytes * n)).filterMap fun x => x).head?

/-- The trits of a Flail column (R282). -/
def MatCmd.trits (c : MatCmd) (slot : List Byte) : List Int :=
  if c.fb = .t5 then ((slot.take 103).flatMap fun b => (tritsOf b.toNat).getD []).take 512
  else
    let n := nsOf (crNs c.creg)
    (upTo 4).flatMap fun g => groupTrits n ((slot.drop (9 * n / 8 * g)).take (9 * n / 8))

/-- The values of `n` elements of a format that stand in bytes; none where an entropy-coded block is illegal. -/
def valuesIn (f : Fmt) (n : Nat) (l : List Byte) : Option (List Num) :=
  match xOf f with
  | some p =>
    match blockStarts f (n / 32) 0 l with
    | none => none
    | some (ps, _) =>
      ps.foldl (fun (a : Option (List Num)) o =>
        match a, xDecode p (l.drop o) with
        | some xs, some (es, _) => some (xs ++ es.map p.read)
        | _, _ => none) (some [])
  | none =>
    match blockOf f with
    | some w => some ((upTo (n / 32)).flatMap fun i => blockValues w (l.drop ((1 + 4 * w) * i)))
    | none =>
      if f = .t5 then some ((((l.take ((n + 4) / 5)).flatMap fun b => (tritsOf b.toNat).getD []).take n).map Num.ofInt)
      else
        let w := fmtWidth f
        let x := ofBytes (l.take ((n * w + 7) / 8))
        some ((upTo n).map fun j => (valueOf f (elemAt x w j)).num)

/-! ### Tiles (R192) -/

/-- Key of an element of a tile. -/
def tileKey (y row col : Nat) : Nat := y * 16384 + row * 512 + col
def Core.tileAt (k : Core) (y row col : Nat) : BitVec 32 := Sparse.get 0 k.tiles (tileKey y row col)
/-- Elements of a row of a tile written from a column on. -/
def Core.putTile (k : Core) (y row col : Nat) (l : List (BitVec 32)) : Core :=
  { k with tiles := (l.mapIdx fun i x => (tileKey y row (col + i), x)).foldl (fun t e => Sparse.set 0 t e.1 e.2) k.tiles }

/-! ### The Flail path (R291, R292) -/

/-- The alignment of a row segment: E, the m[k], the special values, and whether one was inexact (R291). -/
def flailAlign (xs : List Num) : Int × List (Int × Option Num) × Bool :=
  let e : Int := match xs.filterMap floorLog with
    | [] => 0
    | y :: r => r.foldl max y
  let ms := xs.map fun x =>
    match x with
    | .fin n m ex => (let (i, nx) := roundInt .rne n m (ex + 21 - e); (i, (none : Option Num), nx))
    | .inf n => (0, some (.inf n), false)
    | .nan g => (0, some (.nan g), false)
  (e, ms.map fun m => (m.1, m.2.1), ms.any fun m => m.2.2)

/-- v of a column with NV (R292). -/
def flailColumn (e : Int) (ms : List (Int × Option Num)) (ts : List Int) : Exact :=
  let pairs := ms.zip ts
  let sum : Int := pairs.foldl (fun (a : Int) p => a + p.2 * p.1.1) 0
  let v := pairs.filterMap fun p => if p.2 = 0 then none else p.1.2.map fun x => if p.2 < 0 then x.neg else x
  if v.any Num.isNan then { x := .nan false, flags := { nv := v.any Num.isSignalling } }
  else if v.contains (.inf false) && v.contains (.inf true) then .invalid
  else
    match v with
    | x :: _ => { x }
    | [] => { x := .fin (sum < 0) sum.natAbs (e - 21) }

/-- f32 delivered as the arrays do: RNE, without saturation. -/
def arrayF32 (r : Exact) : Nat × Flags := fpF32.deliver .rne false r

/-- One row segment into one column: the scale rounded, then the fused step (R292). -/
def flailElem (v : Exact) (rowScale colScale a : Nat) : Nat × Flags :=
  let (s, f) := arrayF32 (mulExact (fpF32.read rowScale) (fpF32.read colScale))
  let (r, g) := arrayF32 (fmaExact .rne v.x (fpF32.read s) (fpF32.read a))
  (r, (v.flags.or f).or g)

/-! ### The Product path (R293) -/

/-- The exact sum of the products of a group. -/
def groupSum (xs ys : List Num) : Exact :=
  match (xs.zip ys).map fun p => mulExact p.1 p.2 with
  | [] => { x := .fin false 0 0 }
  | p :: r => r.foldl (fun a q => let t := addExact .rne a.x q.x; { t with flags := (a.flags.or q.flags).or t.flags }) p

/-- One row segment into one column: four groups, each rounded and then added (R293). -/
def productElem (xs ys : List Num) (a : Nat) : Nat × Flags :=
  (upTo 4).foldl (fun (acc : Nat × Flags) g =>
    let p := groupSum ((xs.drop (32 * g)).take 32) ((ys.drop (32 * g)).take 32)
    let (s, f) := arrayF32 p
    let (r, h) := arrayF32 (addExact .rne (fpF32.read s) (fpF32.read acc.1))
    (r, (acc.2.or f).or h)) (a, {})

/-! ### Draining (R292, R293, R295) -/

/-- The flags of a command with those of an operation: NV, DZ, OF, UF, NX from [4] down (R298). -/
def orFlags (b : BitVec 5) (f : Flags) : BitVec 5 := b ||| BitVec.ofNat 5 (f.mask.toNat / 16)

/-- One row segment drained into the tile. -/
def Core.drainRow (k : Core) (c : MatCmd) (j r : Nat) (bytes : List Byte) : Core × MatCmd :=
  let product := cwProduct c.cw
  let y := cwY c.cw
  let row := crTr c.creg + r
  let col := if product && cwH c.cw then 256 else 0
  let slots := c.slots ((Sparse.find? c.weights j).getD [])
  let old (n : Nat) : Nat := if j = 0 && !cwAcc c.cw then 0 else (k.tileAt y row (col + n)).toNat
  let xs := (valuesIn c.fa (segmentSize product) bytes).getD []
  let (es, nx) :=
    if product then
      (slots.mapIdx fun n s => productElem xs ((valuesIn c.fb 128 s).getD []) (old n), false)
    else
      let (e, ms, nx) := flailAlign xs
      let rs := if cwRs c.cw then ((c.scales.getD []).getD r 0).toNat else 0x3F80_0000
      (slots.mapIdx fun n s =>
        flailElem (flailColumn e ms (c.trits s)) rs (ofBytes (s.drop (c.slotBytes - 4))) (old n), nx)
  let f := es.foldl (fun (f : Flags) e => f.or e.2) { nx }
  (k.putTile y row col (es.map fun e => BitVec.ofNat 32 e.1), { c with flags := orFlags c.flags f })

def Core.cmd? (k : Core) (id : Nat) : Option MatCmd := k.q1.find? fun c => c.id == id

/-- The command's turn in the queue of its tile has come (R295). -/
def Core.atHead (k : Core) (c : MatCmd) : Bool := ((Sparse.find? k.tileQ (cwY c.cw)).getD []).head? == some (.cmd c.id)

/-- Every accumulated row of a command drained, once its turn has come. -/
def Core.drain (k : Core) (c : MatCmd) : Core × MatCmd :=
  if k.atHead c then
    let (k, c) := c.acc.foldl (fun (a : Core × MatCmd) x => a.1.drainRow a.2 x.1 x.2.1 x.2.2) (k, c)
    let c := { c with acc := [] }
    (k.modCmd c, c)
  else (k, c)

/-- Rows of the last segment that have drained. -/
def MatCmd.lastDrained (c : MatCmd) : Nat :=
  let ks := crKs c.creg
  let n := if c.seg = ks then crM c.creg else if c.seg + 1 = ks then c.row else 0
  n - (c.acc.filter fun x => x.1 + 1 == ks).length
/-- A drained row waits to be pushed to q3 (R288). -/
def MatCmd.pushes (c : MatCmd) : Bool := cwOut c.cw && decide (c.outRow < c.lastDrained)
/-- No more pushes to q3 are to come (R195, R288). -/
def MatCmd.outOver (c : MatCmd) : Bool :=
  cwOut c.cw && (c.outRow == crM c.creg || (c.ended && !c.pushes && c.acc.all fun x => x.1 + 1 != crKs c.creg))
/-- The command takes no further step. -/
def MatCmd.isOver (c : MatCmd) : Bool := c.ended || c.segmentsLeft == 0

/-- The commands of an array in a cluster, core by core in release order. -/
def State.arrayCmds (s : State) (cl : Nat) (product : Bool) : List (Nat × MatCmd) :=
  (upTo 8).flatMap fun p => ((s.core (cl * 16 + p)).q1.filter fun c => cwProduct c.cw == product).map fun c => (cl * 16 + p, c)

/-- q3 takes one more entry of a command; a taken slot's go to the spill ring (R193, R408). -/
def State.q3Room (s : State) (c : MatCmd) : Bool := s.roomFor c.by'.loc c.by'.launch 3
/-- An array waits, held for every core, while a finished row meets a full q3 (R288). -/
def State.arrayHeld (s : State) (cl : Nat) (product : Bool) : Bool :=
  (s.arrayCmds cl product).any fun x => x.2.pushes && !s.q3Room x.2

/-- The commands of an array whose last push is done count no more as producers of q3 (R195). -/
def State.outChecks (s : State) (cl : Nat) (product : Bool) : State :=
  ((s.arrayCmds cl product).filter fun x => x.2.outOver && !x.2.outDone).foldl (fun (t : State) x =>
    (t.setCore x.1 ((t.core x.1).modCmd { x.2 with outDone := true })).outSettled x.2) s

/-! ### The arbiter (R289, R290) -/

def Cluster.array (c : Cluster) (product : Bool) : Array' := if product then c.product else c.flail
def Cluster.setArray (c : Cluster) (product : Bool) (a : Array') : Cluster :=
  if product then { c with product := a } else { c with flail := a }
def State.setArray (s : State) (cl : Nat) (product : Bool) (a : Array') : State := s.setCluster cl ((s.cluster cl).setArray product a)

/-- The next command of an array in a core's order. -/
def Core.next (k : Core) (product : Bool) : Option MatCmd := k.q1.find? fun c => cwProduct c.cw == product && !c.isOver
/-- q2 holds the first entry of the command's next segment, or its row-scale entry (R289). -/
def Core.stepReady (k : Core) (c : MatCmd) : Bool :=
  match k.startOf c with
  | some n => decide (n < (k.rowsOf c.slot).length)
  | none => false

/-- A core whose taken slots have all stopped takes no new step (R407). -/
def State.draining (s : State) (core : Nat) : Bool :=
  let us := s.units.filter fun u => u.coreId == core && u.taken && !u.away
  !us.isEmpty && us.all fun u => u.wait == .stopped

/-- The step that a core could be granted: its command's weight. -/
def State.readyWeight (s : State) (product : Bool) (core : Nat) : Option Nat :=
  if s.draining core then none
  else
    match (s.core core).next product with
    | some c => if (s.core core).stepReady c then some c.weight else none
    | none => none

/-- The sealed launch of a cluster, if one runs there. -/
def State.sealedIn (s : State) (cl : Nat) : Option Launch :=
  (s.units.filter fun u => u.clusterId == cl).findSome? fun u =>
    match s.launch? u.launch with
    | some l => if l.sealed' then some l else none
    | none => none

/-- The weight at a core's turn: that of its next command, or of the sealed launch while it has none (R289). -/
def State.turnWeight (s : State) (product : Bool) (w core : Nat) : Nat :=
  match (s.core core).next product with
  | some c => c.weight
  | none => w

/-- The turn in a sealed launch: the arbiter waits at core p until it has a ready step or every slot of it has retired. -/
def State.sealedTurn (s : State) (cl : Nat) (product : Bool) (w : Nat) : Nat → Nat → Nat → Option (Nat × Nat)
  | 0, _, _ => none
  | f + 1, p, g =>
    if g < s.turnWeight product w (cl * 16 + p) && s.units.any (fun u => u.coreId == cl * 16 + p) then
      (if (s.readyWeight product (cl * 16 + p)).isSome then some (p, g + 1) else none)
    else s.sealedTurn cl product w f ((p + 1) % 8) 0

/-- The core that is granted the array and its count of grants (R289, R290). -/
def State.arbitrate (s : State) (cl : Nat) (product : Bool) : Option (Nat × Nat) :=
  let a := (s.cluster cl).array product
  match s.sealedIn cl with
  | some l => s.sealedTurn cl product l.weight 9 a.cur a.count
  | none =>
    let keep := match s.readyWeight product (cl * 16 + a.cur) with
      | some w => decide (a.count < w)
      | none => false
    if keep then some (a.cur, a.count + 1)
    else
      (((upTo 8).map fun i => (a.cur + 1 + i) % 8).find? fun p => (s.readyWeight product (cl * 16 + p)).isSome).map fun p => (p, 1)

/-- ARRAY_GRANT: the arbiter grants a ready step, whose weights load and are checked (R289, R299); no grant while module power
is above its limit (R442), or while the array waits for q3 (R288). -/
def execArrayGrant (die cluster : Nat) (product : Bool) (s : State) : Out :=
  let cl := clusterId die cluster
  let a := (s.cluster cl).array product
  if s.powerHold || a.granted.isSome || s.arrayHeld cl product then .next s
  else
    match s.arbitrate cl product with
    | none => .next s
    | some (p, g) =>
      let key := cl * 16 + p
      let k := s.core key
      match k.next product with
      | none => .next s
      | some c =>
        let block := s.bytes (granaryBase die cluster + c.blockAt c.seg) (64 * blockWords product c.fb (crNs c.creg))
        match c.badBlock block with
        | some o =>
          let w := word (2 ^ 63 + c.seg * 2 ^ 56 + alignDown (c.blockAt c.seg + o) 64)
          .next (((s.setCore key (k.endCmd { c with granted := true, err := some w })).setArray cl product
            { a with cur := p, count := g }).outChecks cl product)
        | none =>
          let old := c.weights.filter fun w => c.acc.any fun x => x.1 == w.1
          .next ((s.setCore key (k.modCmd { c with granted := true, weights := Sparse.put old c.seg block })).setArray cl product
            { cur := p, count := g, granted := some c.id })

/-! ### Rows -/

/-- The core of a cluster that holds a command. -/
def State.coreWith (s : State) (cl id : Nat) : Option (Nat × MatCmd) :=
  (upTo 8).findSome? fun p => ((s.core (cl * 16 + p)).cmd? id).map fun c => (cl * 16 + p, c)

/-- The array is free for its next step. -/
def State.freeArray (s : State) (cl : Nat) (product : Bool) : State :=
  s.setArray cl product { (s.cluster cl).array product with granted := none }

/-- No commit of the slot is releasing rows (R299). -/
def State.noRelease (s : State) (l : Loc) : Bool := s.units.all fun u => u.loc != l || !u.visible

/-- The next row of the granted step: its entries leave q2, the row segment accumulates, and it drains once the command's turn
in its tile's queue has come (R287, R289, R292, R293, R295). The array is free again after the last row of the step, unless a
row is still to be pushed to q3. -/
def State.rowWork (s : State) (cl : Nat) (product : Bool) : State :=
  match ((s.cluster cl).array product).granted with
  | none => s
  | some id =>
    match s.coreWith cl id with
    | none => s.freeArray cl product
    | some (key, c) =>
      let k := s.core key
      if c.ended then s.freeArray cl product
      else
        match k.nextRead c with
        | none =>
          if c.cancelled && s.noRelease c.by'.loc then
            (s.setCore key (k.endCmd c)).freeArray cl product
          else s
        | some (n, m, bytes, c') =>
          let k' := { k with q2 := dropRows c.slot n m k.q2 }
          if c.wantsScales then s.setCore key (k'.modCmd c')
          else if (valuesIn c.fa (segmentSize product) bytes).isNone then
            let w := word (c.seg * 2 ^ 56 + c.row * 2 ^ 48)
            (s.setCore key (k.endCmd { c with err := some w })).freeArray cl product
          else
            let last := decide (c.row + 1 = crM c.creg)
            let c' := { c' with acc := c.acc ++ [(c.seg, c.row, bytes)], drained := c'.seg }
            let (k', c') := (k'.modCmd c').drain c'
            let s := s.setCore key (if last && c.cancelled then k'.endCmd c' else k')
            if last && !c'.pushes then s.freeArray cl product else s

/-- An array steps one row, unless it waits for q3 (R288). -/
def State.rowStep (s : State) (cl : Nat) (product : Bool) : State :=
  if s.arrayHeld cl product then s else (s.rowWork cl product).outChecks cl product

/-- FLAIL_ROW (R291, R292). -/
def execFlailRow (die cluster : Nat) (s : State) : Out := .next (s.rowStep (clusterId die cluster) false)
/-- PRODUCT_ROW (R293). -/
def execProductRow (die cluster : Nat) (s : State) : Out := .next (s.rowStep (clusterId die cluster) true)

/-! ### q3 (R288) -/

/-- The entries of a finished row: 16 of the Flail array, 8 of the half that H selects of the Product array. -/
def Core.outEntries (k : Core) (c : MatCmd) : List Elem :=
  let col := if cwProduct c.cw && cwH c.cw then 256 else 0
  (upTo (if cwProduct c.cw then 8 else 16)).map fun i =>
    { bytes := (upTo 32).flatMap fun j => bytesOf 4 (k.tileAt (cwY c.cw) (crTr c.creg + c.outRow) (col + 32 * i + j)).toNat }

/-- Entries pushed one by one while q3 takes them: how many. -/
def State.pushList (c : MatCmd) : List Elem → State → Nat → State × Nat
  | [], s, n => (s, n)
  | e :: es, s, n => if s.q3Room c then State.pushList c es (s.deliver c.by'.loc c.by'.launch 3 e) (n + 1) else (s, n)

/-- A finished row pushed entry by entry as q3 has room; the array goes free with the last row of its step (R288). -/
def State.pushRow (s : State) (cl key : Nat) (c : MatCmd) : State :=
  let product := cwProduct c.cw
  let es := (s.core key).outEntries c
  let (t, n) := State.pushList c (es.drop c.outCol) s c.outCol
  let c' := if n = es.length then { c with outRow := c.outRow + 1, outCol := 0 } else { c with outCol := n }
  let t := (t.setCore key ((t.core key).modCmd c')).outChecks cl product
  if ((t.cluster cl).array product).granted = some c.id ∧ c'.isOver ∧ !c'.pushes then t.freeArray cl product else t

/-- Q3_PUSH (R288). -/
def execQ3Push (die cluster : Nat) (product : Bool) (s : State) : Out :=
  let cl := clusterId die cluster
  match (s.arrayCmds cl product).find? fun x => x.2.pushes && s.q3Room x.2 with
  | some (key, c) => .next (s.pushRow cl key c)
  | none => .next s

/-! ### Completion (R298, R299) -/

/-- The command is gone from its core's order and from the queue of its tile. -/
def Core.remove (k : Core) (c : MatCmd) : Core :=
  let y := cwY c.cw
  { k with
    q1 := k.q1.filter fun x => x.id ≠ c.id
    tileQ := Sparse.put k.tileQ y (((Sparse.find? k.tileQ y).getD []).filter fun o => o ≠ .cmd c.id) }

/-- A command that may report: it takes no further step, it is in no granted step, everything has drained at its turn in its
tile's queue, and every row has been pushed; its message needs room (R193). A command cancelled before its first grant touches no tile and waits
for no turn. -/
def State.mayReport (s : State) (cl key : Nat) (c : MatCmd) : Bool :=
  c.isOver && !(((s.cluster cl).array (cwProduct c.cw)).granted == some c.id) &&
    ((c.cancelled && !c.granted) || ((s.core key).atHead c && !c.pushes)) &&
    (!cwC c.cw || s.roomFor c.by'.loc c.by'.launch 0)

/-- MATRIX_COMPLETE (R298). -/
def execMatrixComplete (die cluster : Nat) (product : Bool) (s : State) : Out :=
  let cl := clusterId die cluster
  let s := (s.arrayCmds cl product).foldl (fun (t : State) x =>
    if x.2.acc.isEmpty then t else t.setCore x.1 ((t.core x.1).drain x.2).1) s
  let s := s.outChecks cl product
  match (s.arrayCmds cl product).find? fun x => s.mayReport cl x.1 x.2 with
  | none => .next s
  | some (key, c) =>
    let c := if c.ended then c else { c with drained := crKs c.creg }
    .next ((s.setCore key ((s.core key).remove c)).matrixReport c)

/-! ### Tile moves (R296) -/

/-- A move takes effect on the tile. -/
def State.moveTile (s : State) (key y : Nat) (m : TileMove) : State :=
  let k := s.core key
  let mine (u : Unit) : Bool := u.placed && u.loc == m.loc && !u.away
  let down (u : Unit) : Unit := { u with wcnt := u.wcnt - 1 }
  if m.get then
    let x : VWord := BitVec.ofNat 1024 (packElems 32 ((upTo 32).map fun j => (k.tileAt y m.row (32 * m.seg + j)).toNat))
    s.modUnits mine fun u => (down u).setV m.vreg x
  else
    (s.setCore key (k.putTile y m.row (32 * m.seg) ((upTo 32).map fun j => BitVec.ofNat 32 (elemAt m.value.toNat 32 j)))).modUnits mine down

/-- TILE_MOVE_PERFORM: the move at the head of a tile's queue (R295, R296). -/
def execTileMovePerform (die cluster core : Nat) (y : BitVec 2) (s : State) : Out :=
  let key := clusterId die cluster * 16 + core
  let k := s.core key
  match (Sparse.find? k.tileQ y.toNat).getD [] with
  | .move m :: rest => .next ((s.setCore key { k with tileQ := Sparse.put k.tileQ y.toNat rest }).moveTile key y.toNat m)
  | .cmd _ :: _ => .next s
  | [] => .next s

/-! ### The end of zeroing (R182) -/

/-- LBANK_ZERO_DONE: the bank answers again, and the `lbank` that changed it ends with status 0. -/
def execLbankZeroDone (die cluster bank : Nat) (s : State) : Out :=
  let cl := clusterId die cluster
  let c := s.cluster cl
  if !c.zeroing.contains bank then .next s
  else
    let waits (u : Unit) : Bool := u.placed && !u.away && u.clusterId == cl && (match u.wait with
      | .lbank _ b w => b == bank && w.isNone
      | .run => false
      | .lwait _ => false
      | .atTime _ => false
      | .fenceE _ => false
      | .bar _ _ => false
      | .gang _ => false
      | .retire _ _ => false
      | .nonspec => false
      | .stopped => false)
    let done (u : Unit) : Unit :=
      match u.wait with
      | .lbank d _ _ => (({ u with wait := .run }.setS d 0).pastC false).age s.ids
      | .run => u
      | .lwait _ => u
      | .atTime _ => u
      | .fenceE _ => u
      | .bar _ _ => u
      | .gang _ => u
      | .retire _ _ => u
      | .nonspec => u
      | .stopped => u
    let ended := (s.units.filter waits).map fun u => u.loc
    let s := s.setCluster cl { c with zeroing := c.zeroing.filter (· ≠ bank), lbanks := c.lbanks.filter fun l => !ended.contains l }
    .next (s.modUnits waits done)

end Sys2Proof.Machine
end

