-- ==== Sys2Proof/Machine/RopeTree.lean ====
section
/-! DEFINITION. Ropes (R86 to R105): their stored forms, the summaries, and the edits concat, split and splice as trees. Nodes
built by a command live in a table of their own until the command has succeeded; their numbers begin at 2^32. -/

namespace Sys2Proof.Machine

/-! ### Declarations (R92, R93) -/

/-- A used slot of a declaration: OP, CLS and FB. -/
structure SlotDecl where
  op : Nat
  cls : Nat
  fb : Nat
  deriving DecidableEq, Repr

/-- Slot k of a declaration word. -/
def slotDecl (d : Word) (k : Nat) : Nat := bits d (16 * k + 15) (16 * k)

/-- The used slots of a declaration. -/
def declSlots (d : Word) : List SlotDecl :=
  (upTo 4).filterMap fun k =>
    let x := slotDecl d k
    if x / 4096 = 0 then none else some { op := x / 4096, cls := x / 1024 % 4, fb := x % 64 }

/-- Lanes of a stored value and their bytes (R93). -/
def SlotDecl.shape (s : SlotDecl) : Nat × Nat :=
  if s.op = 8 then (32, 4) else if s.op = 9 then (32, 8) else if s.cls = 1 then (2, 8) else (1, 8)
def SlotDecl.size (s : SlotDecl) : Nat := s.shape.1 * s.shape.2

/-- A vector slot reads 128 bytes of the element. -/
def SlotDecl.input (s : SlotDecl) : Nat := if s.op = 7 then 0 else if s.op ≥ 8 then 128 else 4

/-- A pair of operator and class with a size (R93), no reserved bit set. -/
def slotOk (x : Nat) : Bool :=
  let op := x / 4096
  let cls := x / 1024 % 4
  if op = 0 then x == 0
  else decide (op ≤ 9) && decide (cls ≤ 2) && x / 64 % 16 == 0 && (op == 2 || x % 64 == 0) && (cls != 1 || decide (op ≤ 2)) &&
    (op != 7 || cls == 0)

/-- Bytes of an element (R87). -/
def elemSize (q : Nat) : Nat := if q = 0 then 4 else 64 * q

/-- The engine accepts a declaration for elements of a size with their inputs at SOFF (R93). -/
def declOk (d : Word) (eszq soff : Nat) : Bool :=
  let xs := (upTo 4).map (slotDecl d)
  let ss := declSlots d
  xs.all slotOk && (xs.dropWhile fun x => x != 0).all (· == 0) && decide ((ss.map SlotDecl.size).sum ≤ 448) &&
    (if eszq = 0 then soff == 0 && ss.all (fun s => decide (s.input ≤ 4))
     else ss.all fun s => s.op == 7 || decide (soff * 4 + s.input ≤ elemSize eszq))

/-! ### Operators (R94) -/

/-- fx(x, f) as the 64-bit word of its integer. -/
def fxWord (x f : Nat) : Nat :=
  match fpF32.read x with
  | .nan _ => 0
  | .inf n => (toIntFmt 64 true .rne (.inf n)).1
  | .fin n m e => (toIntFmt 64 true .rne (.fin n m (e + f))).1

/-- The identity of an operator. -/
def opIdentity (op : Nat) : Nat :=
  if op = 3 then 0x8000_0000 else if op = 5 then 0x7FFF_FFFF else if op = 4 ∨ op = 8 then 0xFF80_0000
  else if op = 6 then 0x7F80_0000 else 0

/-- Two values of one lane combined. -/
def opLane (op x y : Nat) : Nat :=
  if op = 3 then (if intValue 32 true x < intValue 32 true y then y else x)
  else if op = 5 then (if intValue 32 true y < intValue 32 true x then y else x)
  else if op = 4 ∨ op = 8 then f32Max x y
  else if op = 6 then f32Min x y
  else (x + y) % 2 ^ 64

/-- A slot's value: its lanes. -/
abbrev SlotVal := List Nat

def SlotDecl.identity (s : SlotDecl) : SlotVal := List.replicate s.shape.1 (opIdentity s.op)

/-- Two stored values combined, the second beginning `off` elements after the first (R96). -/
def SlotDecl.combine (s : SlotDecl) (off : Nat) (x y : SlotVal) : SlotVal :=
  if s.cls = 1 then
    [(x.getD 0 0 + y.getD 0 0) % 2 ^ 64, (x.getD 1 0 + y.getD 1 0 + off * y.getD 0 0) % 2 ^ 64]
  else List.zipWith (opLane s.op) x y

/-- The input of one element as an operand of its operator. -/
def SlotDecl.value (s : SlotDecl) (b : List Byte) : SlotVal :=
  if s.op = 7 then [1]
  else if s.op = 8 then (chunksOf 4 32 b).map ofBytes
  else if s.op = 9 then (chunksOf 4 32 b).map fun c => fxWord (ofBytes c) 24
  else if s.op = 1 then [lowBits 64 (intValue 32 true (ofBytes b))]
  else if s.op = 2 then [fxWord (ofBytes b) s.fb]
  else [ofBytes b]

/-- The value of consecutive elements from leaf offset `j`, under a BASE (R95); `inputs` are their input bytes. -/
def SlotDecl.ofElements (s : SlotDecl) (base : Word) (j : Nat) (inputs : List (List Byte)) : SlotVal :=
  if s.cls = 2 ∧ base = BitVec.allOnes 64 then List.replicate s.shape.1 0
  else
    (inputs.foldl (fun (a : Nat × SlotVal) b =>
      let v := s.value b
      let i := a.1
      let one := if s.cls = 1 then [v.getD 0 0, 0]
        else if s.cls = 2 ∧ s.op ≤ 2 then [(base.toNat + j + i) * v.getD 0 0 % 2 ^ 64]
        else v
      (i + 1, s.combine i a.2 one)) (0, s.identity)).2

/-! ### Nodes (R89, R90) -/

/-- An entry of a node: the child's granule (a piece's at level 1), the leaf's start, the elements below, BASE and values. -/
structure Ent where
  child : Nat
  start : Nat := 0
  len : Nat
  base : Word
  vals : List SlotVal
  deriving DecidableEq, Repr

/-- What every node and piece of one rope carries (R90). -/
structure RopeKind where
  decl : Word
  eszq : Nat
  soff : Nat
  deriving DecidableEq, Repr

structure RNode where
  level : Nat
  kind : RopeKind
  ents : List Ent
  gen : Nat := 0
  ref : Nat := 0
  job : Nat := 0
  deriving DecidableEq, Repr

/-- Bytes of an entry and of a node (R90). -/
def entSize (d : Word) : Nat := 32 + (((declSlots d).map SlotDecl.size).sum + 31) / 32 * 32
def nodeSize (d : Word) : Nat :=
  let n := 64 + 16 * entSize d
  if n ≤ 1024 then 1024 else if n ≤ 2048 then 2048 else if n ≤ 4096 then 4096 else 8192

def allOnes64 : Word := BitVec.allOnes 64

/-- The stored bytes of a slot value, and back. -/
def valBytes (s : SlotDecl) (v : SlotVal) : List Byte := v.flatMap fun x => bytesOf s.shape.2 x
def valOf (s : SlotDecl) (b : List Byte) : SlotVal := (chunksOf s.shape.2 s.shape.1 b).map ofBytes

/-- The values of an entry's slots from their bytes. -/
def valsOf : List SlotDecl → List Byte → List SlotVal
  | [], _ => []
  | s :: r, b => valOf s (b.take s.size) :: valsOf r (b.drop s.size)

/-- The 64-byte header and the entries of a node, as stored. -/
def RNode.bytes (n : RNode) : List Byte :=
  let head := [n.kind.decl,
    word (n.gen % 65536 * 2 ^ 48 + n.job % 4096 * 2 ^ 36 + n.level * 2 ^ 32 + (n.ents.length - 1) * 2 ^ 27 + n.kind.eszq * 2 ^ 20 +
      n.kind.soff * 2 ^ 10),
    word n.ref, 0, 0, 0, 0, 0]
  let ss := declSlots n.kind.decl
  let one (e : Ent) : List Byte :=
    let w := if n.level = 1 then e.start * 2 ^ 40 + (e.len - 1) * 2 ^ 32 + e.child else e.child
    let b := bytesOf 8 w ++ bytesOf 8 e.len ++ bytesOf 8 e.base.toNat ++ bytesOf 8 0 ++
      (List.zipWith valBytes ss e.vals).flatten
    b ++ List.replicate (entSize n.kind.decl - b.length) 0
  bytesOfWords head ++ n.ents.flatMap one

/-- A node from its stored bytes. -/
def RNode.ofBytes (b : List Byte) : RNode :=
  let w (i : Nat) : Word := word (Sys2Proof.Machine.ofBytes ((b.drop (8 * i)).take 8))
  let decl := w 0
  let h := w 1
  let level := bits h 35 32
  let ss := declSlots decl
  let sz := entSize decl
  let one (j : Nat) : Ent :=
    let e := (b.drop (64 + sz * j)).take sz
    let x (i : Nat) : Word := word (Sys2Proof.Machine.ofBytes ((e.drop (8 * i)).take 8))
    { child := bits (x 0) 31 0, start := if level = 1 then bits (x 0) 47 40 else 0, len := (x 1).toNat, base := x 2,
      vals := valsOf ss (e.drop 32) }
  { level, kind := { decl, eszq := bits h 26 20, soff := bits h 19 10 }, gen := bits h 63 48, job := bits h 47 36,
    ref := bits (w 2) 31 0, ents := (upTo (bits h 31 27 + 1)).map one }

/-- The entry that names a node in its parent (R96). -/
def summarise (child : Nat) (n : RNode) : Ent :=
  let ss := declSlots n.kind.decl
  let first := match n.ents with
    | e :: _ => e.base
    | [] => allOnes64
  let go := n.ents.foldl (fun (a : Nat × Bool × List SlotVal) e =>
    let off := a.1
    (off + e.len, a.2.1 && e.base == first + word off,
      (List.zip ss (List.zip a.2.2 e.vals)).map fun (s, x, y) => s.combine off x y))
    (0, first != allOnes64, ss.map SlotDecl.identity)
  let vals := (List.zip ss go.2.2).map fun (s, v) => if s.cls = 2 ∧ !go.2.1 then List.replicate s.shape.1 0 else v
  { child, len := go.1, base := if go.2.1 then first else allOnes64, vals }

/-! ### The node pool (R91, R104) -/

/-- Base of a job's node pool, and its granules (R370). -/
def State.poolBase (s : State) (job : Nat) : Nat := bits (s.jobWord job 1) 55 0
def State.poolSize (s : State) (job : Nat) : Nat := bits (s.jobWord job 2) 31 0

/-- Work on ropes also keeps the table of new nodes. -/
structure RopeSt where
  fresh : List RNode := []
  deriving Repr

abbrev RopeM := StateT RopeSt EngM

/-- First number of a node that a command has built. -/
def freshBase : Nat := 2 ^ 32

def granuleVa (g : Nat) : EngM Nat := do
  let t ← get
  pure (t.s.poolBase t.who.job + 128 * g)

/-- Granules that the 8 MiB node cache of a rope engine holds (R110). -/
def nodeCacheSize : Nat := 65536

/-- The key under which the node cache holds a granule: the job and privilege of its translation, and its number. -/
def granuleKey (i : Issuer) (g : Nat) : Nat := (2 * i.job + i.supervisor.toNat) * 2 ^ 32 + g

/-- At most 128 bytes of a granule, read at the place that the node cache holds for it while 256 ns of its translation remain, or
else through a slice, whose translation the cache then holds (R110). -/
def readGranule (g n : Nat) : EngM (List Byte) := do
  let va ← granuleVa g
  let t ← get
  let key := granuleKey t.who g
  let keep (pa x : Nat) (s : State) : State :=
    let d := s.die t.loc.die
    s.setDie t.loc.die { d with nodeCache := ((key, pa, x) :: d.nodeCache.filter fun c => c.1 ≠ key).take nodeCacheSize }
  match (t.s.die t.loc.die).nodeCache.find? fun c => c.1 == key && decide (t.s.time.toNat + 256 ≤ c.2.2) with
  | some (_, pa, x) => do
    modify fun t => { t with s := keep pa x t.s }
    engReadPa pa n va x 0
  | none => do
    let (pa, e, x) ← engXlate .read va
    let b ← engReadPa pa n va x e
    modify fun t => { t with s := keep pa x t.s }
    pure b

/-- `n` bytes of the pool from a granule on. -/
def readPool (g n : Nat) : EngM (List Byte) :=
  (upTo ((n + 127) / 128)).foldlM (fun l i => do
    let b ← readGranule (g + i) (min 128 (n - 128 * i))
    pure (l ++ b)) []

/-- A granule's node, as stored. -/
def readNode (g : Nat) : EngM RNode := do
  let head ← readPool g 64
  let n := RNode.ofBytes head
  let b ← readPool g (64 + entSize n.kind.decl * n.ents.length)
  pure (RNode.ofBytes b)

/-- A node, built or stored. -/
def getNode (g : Nat) : RopeM RNode := do
  if g ≥ freshBase then
    let t ← get
    match t.fresh[g - freshBase]? with
    | some n => pure n
    | none => throw (.status 1)
  else
    let n ← readNode g
    pure n

/-- A new node; a level above 8 is refused with HEIGHT (R98). -/
def mkNode (kind : RopeKind) (level : Nat) (ents : List Ent) : RopeM Nat := do
  if level > 8 then throw (.status 4)
  else
    let t ← get
    set { t with fresh := t.fresh ++ [({ level, kind, ents } : RNode)] }
    pure (freshBase + t.fresh.length)

def entOf (g : Nat) : RopeM Ent := do
  let n ← getNode g
  pure (summarise g n)

/-! ### Pieces and elements (R86 to R88, R95) -/

/-- A piece record's handles, length and kind. -/
structure Piece where
  ref : Nat
  job : Nat
  eszq : Nat
  soff : Nat
  len : Nat
  blocks : List Nat
  deriving DecidableEq, Repr

def readPiece (g : Nat) : EngM Piece := do
  let b ← readPool g 128
  let w0 := word (ofBytes (b.take 8))
  pure { ref := bits w0 63 32, job := bits w0 31 20, eszq := bits w0 19 13, soff := bits w0 12 3,
         len := ofBytes ((b.drop 8).take 8) % 512, blocks := (chunksOf 4 16 (b.drop 64)).map ofBytes }

/-- Physical address of a directory entry (R106, R124). -/
def State.directoryPa (s : State) (h : Nat) : Nat :=
  s.paOf (2 * (h / 2 ^ 29) * 0x10_0000_0000 + stackLimit + 32 * (h % 2 ^ 29))

/-- A directory entry (R106). -/
structure DirEntry where
  tier : Nat
  state : Nat
  va : Nat
  ref : Nat
  pin : Nat
  job : Nat
  hash : Word
  hzn : Word
  deriving DecidableEq, Repr

def DirEntry.ofBytes (b : List Byte) : DirEntry :=
  let w (i : Nat) : Word := word (Sys2Proof.Machine.ofBytes ((b.drop (8 * i)).take 8))
  { tier := bits (w 0) 63 60, state := bits (w 0) 59 56, va := bits (w 0) 55 0, ref := bits (w 1) 63 32, pin := bits (w 1) 31 16,
    job := bits (w 1) 11 0, hash := w 2, hzn := w 3 }
def DirEntry.bytes (d : DirEntry) : List Byte :=
  bytesOfWords [word (d.tier * 2 ^ 60 + d.state * 2 ^ 56 + d.va % 2 ^ 56), word (d.ref % 2 ^ 32 * 2 ^ 32 + d.pin % 65536 * 65536 + d.job % 4096),
    d.hash, d.hzn]

def readDir (h : Nat) : EngM DirEntry := do
  let t ← get
  let b ← engReadPa (t.s.directoryPa h) 32 0 0 0
  pure (DirEntry.ofBytes b)
def writeDir (h : Nat) (d : DirEntry) : EngM PUnit := do
  let t ← get
  engWritePa (t.s.directoryPa h) 0 0 d.bytes

/-- A handle names a LIVE block of the issuer's job, else BLOCK (R106, R117). -/
def liveBlock (h : Nat) : EngM DirEntry := do
  let t ← get
  if h / 2 ^ 29 ≥ 6 ∨ h % 2 ^ 29 = 0 ∨ h % 2 ^ 29 ≥ Config.directoryEntries then throw (.status 7)
  else
    let d ← readDir h
    if d.state = 1 ∧ d.job = t.who.job then pure d else throw (.status 7)

/-- Address of element `i` of a piece. -/
def elementVa (p : Piece) (i : Nat) : EngM Nat := do
  let d ← readDir (p.blocks.getD (i / 16) 0)
  pure (d.va + i % 16 * elemSize p.eszq)

/-- The input bytes of an element for every used slot: all slots read at SOFF × 4. -/
def elementInput (p : Piece) (n i : Nat) : EngM (List Byte) := do
  if n = 0 then pure []
  else
    let va ← elementVa p i
    engRead (va + 4 * p.soff) n

/-- Slot values of the part of a leaf from its offset `j`, `n` elements, under the leaf's BASE (R95). -/
def leafVals (kind : RopeKind) (piece start j n : Nat) (base : Word) : EngM (List SlotVal) := do
  let p ← readPiece piece
  let ss := declSlots kind.decl
  let width := (ss.map SlotDecl.input).foldl max 0
  let inputs ← (upTo n).mapM fun i => elementInput p width (start + j + i)
  pure (ss.map fun s => s.ofElements base j (inputs.map fun b => b.take s.input))

/-- A cut or merged leaf with its slots computed (R99). -/
def mkLeaf (kind : RopeKind) (piece start len : Nat) (base : Word) : RopeM Ent := do
  let vals ← leafVals kind piece start 0 len base
  pure { child := piece, start, len, base, vals }

def baseAfter (b : Word) (j : Nat) : Word := if b = allOnes64 then b else b + word j

/-! ### Join, concat and split (R100 to R102) -/

/-- `fit` of a list of children: one node, or two halves. -/
def fit (kind : RopeKind) (level : Nat) (l : List Ent) : RopeM (List Ent) := do
  if l.length ≤ 16 then
    let a ← mkNode kind level l
    let x ← entOf a
    pure [x]
  else
    let a ← mkNode kind level (l.take (l.length / 2))
    let b ← mkNode kind level (l.drop (l.length / 2))
    let x ← entOf a
    let y ← entOf b
    pure [x, y]

/-- A node on the path after its children have changed: one, or its first 8 and last 9 children as two (R100). -/
def repaired (kind : RopeKind) (level : Nat) (l : List Ent) : RopeM (List Ent) := do
  if l.length ≤ 16 then fit kind level l
  else
    let a ← mkNode kind level (l.take 8)
    let b ← mkNode kind level (l.drop 8)
    let x ← entOf a
    let y ← entOf b
    pure [x, y]

/-- The single node of a list, or a new root over two. -/
def asRoot (kind : RopeKind) (level : Nat) : List Ent → RopeM Nat
  | [x] => pure x.child
  | l => mkNode kind (level + 1) l

/-- The shorter rope `b` joined to the right (or left) end of node `a`, by fuel for a's levels above b's. -/
def joinAt (kind : RopeKind) (right : Bool) (b : Nat) : Nat → Nat → RopeM (List Ent)
  | 0, _ => throw (.status 4)
  | f + 1, a => do
    let n ← getNode a
    let m ← getNode b
    let inner := if right then n.ents.getLast? else n.ents.head?
    let outer := if right then n.ents.dropLast else n.ents.drop 1
    match inner with
    | none => throw (.status 1)
    | some c =>
      let new ← (if n.level = m.level + 1 then
          if m.ents.length ≥ 4 then do
            let x ← entOf b
            pure (if right then [c, x] else [x, c])
          else do
            let k ← getNode c.child
            fit kind m.level (if right then k.ents ++ m.ents else m.ents ++ k.ents)
        else joinAt kind right b f c.child)
      repaired kind n.level (if right then outer ++ new else new ++ outer)

/-- `join` (R100): no leaf merge. -/
def join (kind : RopeKind) (a b : Nat) : RopeM Nat := do
  let x ← getNode a
  let y ← getNode b
  if x.level = y.level then
    let l := x.ents ++ y.ents
    if l.length ≤ 16 then mkNode kind x.level l
    else
      let es ← fit kind x.level l
      mkNode kind (x.level + 1) es
  else if y.level < x.level then
    let es ← joinAt kind true b 8 a
    asRoot kind x.level es
  else
    let es ← joinAt kind false a 8 b
    asRoot kind y.level es

/-- Ropes as roots, none the empty one; `join` skips empty parts. -/
def joinOpt (kind : RopeKind) : Option Nat → Option Nat → RopeM (Option Nat)
  | none, b => pure b
  | a, none => pure a
  | some a, some b => do
    let r ← join kind a b
    pure (some r)

/-- `frag` (R101). -/
def frag (kind : RopeKind) (level : Nat) (l : List Ent) : RopeM (Option Nat) := do
  match l with
  | [] => pure none
  | [x] =>
    if level ≥ 2 then pure (some x.child)
    else
      let r ← mkNode kind level l
      pure (some r)
  | _ =>
    let r ← mkNode kind level l
    pure (some r)

/-- The children before the first whose subtree ends after `p`, that child, the position within it, and those after. -/
def childAt (p : Nat) : List Ent → Option (List Ent × Ent × Nat × List Ent)
  | [] => none
  | e :: r =>
    if p < e.len then some ([], e, p, r)
    else (childAt (p - e.len) r).map fun (l, c, j, k) => (e :: l, c, j, k)

/-- The fragments of R101 from a level down, joined with those of the levels above: F of the levels above in `above`, G of them
in `beyond`, both joined from the top down. -/
def splitGo (kind : RopeKind) : Nat → Nat → Nat → Option Nat → Option Nat → RopeM (Option Nat × Option Nat)
  | 0, _, _, _, _ => throw (.status 3)
  | f + 1, g, p, above, beyond => do
    let n ← getNode g
    match childAt p n.ents with
    | none => throw (.status 3)
    | some (l, c, j, r) =>
      if j = 0 then
        let x ← frag kind n.level l
        let y ← frag kind n.level (c :: r)
        let left ← joinOpt kind above x
        let right ← joinOpt kind y beyond
        pure (left, right)
      else if n.level = 1 then
        let a ← mkLeaf kind c.child c.start j c.base
        let b ← mkLeaf kind c.child (c.start + j) (c.len - j) (baseAfter c.base j)
        let x ← frag kind 1 (l ++ [a])
        let y ← frag kind 1 (b :: r)
        let left ← joinOpt kind above x
        let right ← joinOpt kind y beyond
        pure (left, right)
      else
        let x ← frag kind n.level l
        let y ← frag kind n.level r
        let upper ← joinOpt kind above x
        let outer ← joinOpt kind y beyond
        splitGo kind f c.child j upper outer

/-- Elements of a rope. -/
def ropeLen : Option Nat → RopeM Nat
  | none => pure 0
  | some g => do
    let n ← getNode g
    pure ((n.ents.map fun e => e.len).sum)

/-- `split` (R101). -/
def split (kind : RopeKind) (t : Option Nat) (p : Nat) : RopeM (Option Nat × Option Nat) := do
  let len ← ropeLen t
  if p = 0 then pure (none, t)
  else if p = len then pure (t, none)
  else
    match t with
    | none => throw (.status 3)
    | some g => splitGo kind 9 g p none none

/-- The last or first leaf of a rope. -/
def edgeLeaf (last : Bool) : Nat → Nat → RopeM Ent
  | 0, _ => throw (.status 1)
  | f + 1, g => do
    let n ← getNode g
    match (if last then n.ents.getLast? else n.ents.head?) with
    | none => throw (.status 1)
    | some e => if n.level = 1 then pure e else edgeLeaf last f e.child

/-- The rope with its last leaf replaced. -/
def replaceLast (kind : RopeKind) (leaf : Ent) : Nat → Nat → RopeM Nat
  | 0, _ => throw (.status 1)
  | f + 1, g => do
    let n ← getNode g
    if n.level = 1 then mkNode kind 1 (n.ents.dropLast ++ [leaf])
    else
      match n.ents.getLast? with
      | none => throw (.status 1)
      | some e =>
        let c ← replaceLast kind leaf f e.child
        let x ← entOf c
        mkNode kind n.level (n.ents.dropLast ++ [x])

/-- `concat` (R100). -/
def concat (kind : RopeKind) (a b : Option Nat) : RopeM (Option Nat) := do
  match a, b with
  | none, b => pure b
  | a, none => pure a
  | some x, some y =>
    let p ← edgeLeaf true 9 x
    let q ← edgeLeaf false 9 y
    if p.child = q.child ∧ p.start + p.len = q.start ∧ p.len + q.len ≤ 256 then
      let base := if p.base ≠ allOnes64 ∧ q.base = p.base + word p.len then p.base else allOnes64
      let leaf ← mkLeaf kind p.child p.start (p.len + q.len) base
      let x' ← replaceLast kind leaf 9 x
      let (_, rest) ← split kind (some y) q.len
      joinOpt kind (some x') rest
    else
      let r ← join kind x y
      pure (some r)

/-- `splice` (R102). -/
def splice (kind : RopeKind) (t : Option Nat) (p n : Nat) (mid : Option Nat) : RopeM (Option Nat) := do
  let (a, x) ← split kind t p
  let (_, c) ← split kind x n
  let l ← concat kind a mid
  concat kind l c

end Sys2Proof.Machine
end

