-- ==== Sys2Proof/Machine/RopeEngine.lean ====
section
/-! DEFINITION. The rope engine of a K-die (R103 to R127, R131 to R135): it takes released commands one at a time, performs each
whole or not at all, and reports. -/

namespace Sys2Proof.Machine

/-! ### Counts (R103, R104, R107) -/

/-- REF after one more; a count past 2^32 − 1 is refused (R98). -/
def countUp (n : Nat) : EngM Nat := if n + 1 < 2 ^ 32 then pure (n + 1) else throw (.status 6)

def bumpNode (g : Nat) : EngM Nat := do
  let va ← granuleVa g
  let n ← engNum (va + 16) 4
  let m ← countUp n
  engCount (va + 16) n m
  pure m

def bumpPiece (g : Nat) : EngM PUnit := do
  let va ← granuleVa g
  let n ← engNum (va + 4) 4
  let m ← countUp n
  engCount (va + 4) n m

def bumpBlock (h : Nat) : EngM PUnit := do
  let d ← readDir h
  let m ← countUp d.ref
  writeDir h { d with ref := m }

/-- The blocks that a leaf covers (R88). -/
def leafBlocks (p : Piece) (start len : Nat) : List Nat :=
  (upTo ((start + len - 1) / 16 + 1 - start / 16)).map fun i => p.blocks.getD (start / 16 + i) 0

/-- A new leaf entry names its piece and the blocks it covers. -/
def bumpLeaf (e : Ent) : EngM PUnit := do
  let p ← readPiece e.child
  bumpPiece e.child
  (leafBlocks p e.start e.len).foldlM (fun _ h => bumpBlock h) ⟨⟩

/-- A block with REF and PIN both 0 is in DRAIN until its horizon (R107, R108). -/
def drained (now : Word) (d : DirEntry) : DirEntry :=
  if d.ref = 0 ∧ d.pin = 0 then { d with state := 2, hzn := now + word Config.blockHorizon } else d

/-- A reference or pin of a block taken away. -/
def dropBlock (h : Nat) : EngM PUnit := do
  let t ← get
  let d ← readDir h
  if d.ref = 0 then throw (.status 6)
  else writeDir h (drained t.s.time { d with ref := d.ref - 1 })

/-- Granules given back to the pool; they wait for the block horizon (R104). -/
def freeGranules (g : Nat) : EngM PUnit :=
  modify fun t =>
    { t with pool := { t.pool with
        used := t.pool.used.filter fun u => u.1 ≠ g
        waiting := t.pool.waiting ++ (t.pool.used.filter fun u => u.1 == g).map fun u =>
          (u.1, u.2, t.s.time.toNat + Config.blockHorizon) } }

def dropPiece (g : Nat) : EngM PUnit := do
  let va ← granuleVa g
  let n ← engNum (va + 4) 4
  if n = 0 then throw (.status 6)
  else do
    engCount (va + 4) n (n - 1)
    if n = 1 then freeGranules g else pure ⟨⟩

/-- A node's REF lowered; at 0 its entries are released, and so on down (R104). Answers the REF after. -/
def dropNode : Nat → Nat → EngM Nat
  | 0, _ => throw (.status 1)
  | f + 1, g => do
    let n ← readNode g
    let va ← granuleVa g
    if n.ref = 0 then throw (.status 6)
    else do
      engCount (va + 16) n.ref (n.ref - 1)
      if n.ref = 1 then do
        n.ents.foldlM (fun _ e =>
          if n.level ≥ 2 then do
            let _ ← dropNode f e.child
            pure ⟨⟩
          else do
            let p ← readPiece e.child
            (leafBlocks p e.start e.len).foldlM (fun _ h => dropBlock h) ⟨⟩
            dropPiece e.child) (⟨⟩ : PUnit)
        freeGranules g
      else pure ⟨⟩
      pure (n.ref - 1)

/-! ### Allocation (R91, R104) -/

def overlaps (a m b n : Nat) : Bool := decide (a < b + n) && decide (b < a + m)

/-- The first of the aligned places, from one on and round, that no granule in use or still waiting overlaps. -/
def findPlace (p : Pool) (now step count : Nat) : Nat → Nat → Option Nat
  | 0, _ => none
  | f + 1, i =>
    let g := i % count * step
    if g ≠ 0 && !(p.used.any fun u => overlaps g step u.1 u.2) &&
        !(p.waiting.any fun u => overlaps g step u.1 u.2.1 && decide (now < u.2.2)) then some g
    else findPlace p now step count f (i + 1)

/-- Granules for `size` bytes, aligned to their size, and their generation; which of the free places is taken is open (log 21).
POOL where there is no room. -/
def allocate (size : Nat) : EngM (Nat × BitVec 16) := do
  let t ← get
  let step := size / 128
  let count := t.s.poolSize t.who.job / step
  let p := t.pool
  let fuel := ((p.used.map fun u => u.2 / step + 2).sum + (p.waiting.map fun u => u.2.1 / step + 2).sum) + 2
  match (if count = 0 then none else findPlace p t.s.time.toNat step count fuel (Config.poolChoice t.s.draws % count)) with
  | none => throw (.status 5)
  | some g =>
    let gen : BitVec 16 := match Sparse.find? p.gens g with
      | some x => x + 1
      | none => 0
    set { t with
      s := { t.s with draws := t.s.draws + 1 }
      pool := { used := p.used ++ [(g, step)], waiting := p.waiting.filter fun u => !overlaps g step u.1 u.2.1, gens := Sparse.put p.gens g gen } }
    pure (g, gen)

/-- New nodes written: the nodes of a result that the command built, each with the entries that name it counted (R98, R103). -/
def buildNode : Nat → Nat → RopeM (Nat × BitVec 16)
  | 0, _ => throw (.status 4)
  | f + 1, id => do
    let n ← getNode id
    let ents ← n.ents.mapM fun e =>
      if n.level = 1 then do
        bumpLeaf e
        pure e
      else if e.child ≥ freshBase then do
        let (g, _) ← buildNode f e.child
        pure { e with child := g }
      else do
        let _ ← bumpNode e.child
        pure e
    let (g, gen) ← allocate (nodeSize n.kind.decl)
    let t ← (get : EngM EngSt)
    let va ← granuleVa g
    engWrite va (RNode.bytes { n with ents, gen := gen.toNat, ref := 1, job := t.who.job })
    (modify fun t => { t with nodes := t.nodes + 1 } : EngM PUnit)
    pure (g, gen)

/-- A handle of a root (R91). -/
def handleOf (g : Nat) (gen : Nat) : Word := word (gen % 65536 * 2 ^ 48 + g % 2 ^ 32)

/-- A result root, with its REF raised for the issuer (R119). -/
def resultRoot : Option Nat → RopeM Word
  | none => pure 0
  | some id => do
    if id ≥ freshBase then
      let (g, gen) ← buildNode 9 id
      pure (handleOf g gen.toNat)
    else
      let n ← getNode id
      let _ ← bumpNode id
      pure (handleOf id n.gen)

/-! ### Operands -/

/-- The root that a handle names; none for the empty rope (R91, R117). A granule of 0, or one that does not lie in the pool, is a dead
root as well. DESIGN CHOICE (log 66). -/
def rootOf (h : Word) : RopeM (Option (Nat × RNode)) := do
  if h = 0 then pure none
  else
    let t ← (get : EngM EngSt)
    let g := bits h 31 0
    if bits h 47 32 ≠ 0 then throw (.status 9)
    else if g = 0 ∨ g ≥ t.s.poolSize t.who.job then throw (.status 1)
    else
      let n ← getNode g
      if n.gen ≠ bits h 63 48 ∨ n.ref = 0 then throw (.status 1)
      else if n.job ≠ t.who.job then throw (.status 2)
      else pure (some (g, n))

/-- The common kind of the operands, MISMATCH where they differ (R98). -/
def ropeKindOf (a b : Option (Nat × RNode)) : RopeM RopeKind := do
  match a, b with
  | some (_, x), some (_, y) => if x.kind = y.kind then pure x.kind else throw (.status 2)
  | some (_, x), none => pure x.kind
  | none, some (_, y) => pure y.kind
  | none, none => pure { decl := 0, eszq := 0, soff := 0 }

def rootId (a : Option (Nat × RNode)) : Option Nat := a.map fun x => x.1

/-- An address operand: bits [63:56] zero and a multiple of `n` (OPERAND). -/
def addrOperand (a : Word) (n : Nat) : EngM Nat := do
  engCheck (bits a 63 56 == 0 && a.toNat % n == 0) 9
  pure a.toNat

/-- A leaf found by position: its entry, the offset inside it and the position of its first element. -/
def findLeaf : Nat → Nat → Nat → Nat → RopeM (Ent × Nat × Nat)
  | 0, _, _, _ => throw (.status 1)
  | f + 1, g, p, at' => do
    let n ← getNode g
    match childAt p n.ents with
    | none => throw (.status 3)
    | some (l, c, j, _) =>
      let start := at' + ((l.map fun e => e.len).sum)
      if n.level = 1 then pure (c, j, start) else findLeaf f c.child j start

/-! ### Functions -/

/-- The running summary of a range: elements so far, values, and the slots found stale (R97, R121). -/
abbrev Sum := Nat × List SlotVal × Bool

def addSum (ss : List SlotDecl) (a : Sum) (len : Nat) (vals : List SlotVal) (valid : Bool) : Sum :=
  (a.1 + len, (List.zip ss (List.zip a.2.1 vals)).map (fun (s, x, y) => s.combine a.1 x y), a.2.2 || !valid)

/-- The range [lo, hi) of the subtree of a node whose first element stands at `at'`. -/
def sumRange (kind : RopeKind) (lo hi : Nat) : Nat → Nat → Nat → Sum → RopeM Sum
  | 0, _, _, _ => throw (.status 1)
  | f + 1, g, at', acc => do
    let n ← getNode g
    let ss := declSlots kind.decl
    let (_, r) ← n.ents.foldlM (fun (x : Nat × Sum) e => do
      let pos := x.1
      let stop := pos + e.len
      if stop ≤ lo ∨ hi ≤ pos then pure (stop, x.2)
      else if lo ≤ pos ∧ stop ≤ hi then pure (stop, addSum ss x.2 e.len e.vals (e.base == word pos))
      else if n.level = 1 then
        let a := max lo pos
        let b := min hi stop
        let vals ← leafVals kind e.child e.start (a - pos) (b - a) e.base
        pure (stop, addSum ss x.2 (b - a) vals (e.base == word pos))
      else
        let y ← sumRange kind lo hi f e.child pos x.2
        pure (stop, y)) (at', acc)
    pure r

/-- `rsum` (R121). The empty rope has no declaration: nothing is written, and the record holds zeros. DESIGN CHOICE (log 66). -/
def ropeSum (c : RopeCmd) : RopeM (List Word) := do
  let t ← rootOf c.a
  let len ← ropeLen (rootId t)
  engCheck (decide (c.b.toNat + c.c.toNat ≤ len)) 3
  let out ← addrOperand c.d 8
  match t with
  | none => pure [0, 0, 0]
  | some (g, n) =>
    let ss := declSlots n.kind.decl
    let none' : Sum := (0, ss.map SlotDecl.identity, false)
    let (count, vals, stale) ← if c.c = 0 then pure none' else sumRange n.kind c.b.toNat (c.b.toNat + c.c.toNat) 9 g 0 none'
    let bad (s : SlotDecl) : Bool := stale && s.cls == 2
    let bytes := ((List.zip ss vals).map fun (s, v) =>
      if bad s then List.replicate s.size (0 : Byte) else valBytes s v).flatten
    let mask := (ss.mapIdx fun i s => if bad s then 2 ^ i else 0).sum
    engWrite out bytes
    pure [word mask, word count, word bytes.length]

/-- `rindex` (R120). -/
def ropeIndex (c : RopeCmd) : RopeM (List Word) := do
  let t ← rootOf c.a
  let len ← ropeLen (rootId t)
  engCheck (decide (c.b.toNat < len)) 3
  match t with
  | none => throw (.status 3)
  | some (g, _) =>
    let (e, o, first) ← findLeaf 9 g c.b.toNat 0
    let p ← readPiece e.child
    let h := p.blocks.getD ((e.start + o) / 16) 0
    let va ← elementVa p (e.start + o)
    pure [word (h * 2 ^ 32 + e.child), word (o * 2 ^ 56 + va % 2 ^ 56),
      word ((e.start + o) % 16 * 2 ^ 48 + e.start * 2 ^ 40 + first)]

/-- `rpiece` (R124). An ESZQ of 65 to 127, which R87 refuses, and a nonzero TIER with MODE 1 give OPERAND, and
OPERAND goes before DECL, DECL before DIRFULL and BLOCK, and these before POOL. DESIGN CHOICE (log 66). -/
def ropePiece (c : RopeCmd) : RopeM (List Word) := do
  let w := c.b
  let eszq := bits w 15 9
  let soff := bits w 25 16
  let len := bits w 8 0
  let mode := bits w 28 28
  let tier := bits w 31 29
  engCheck (bits w 63 32 == 0 && bits w 27 26 == 0 && decide (1 ≤ len) && decide (len ≤ 256) && decide (eszq ≤ 64) &&
    (if mode = 0 then decide (tier ≤ 1) else tier == 0)) 9
  let va ← addrOperand c.a (if mode = 0 then 64 else 4)
  engCheck (declOk c.d eszq soff) 8
  let t ← (get : EngM EngSt)
  let n := (len + 15) / 16
  let die := t.loc.die
  let size := 16 * elemSize eszq
  let handles ← (if mode = 0 then do
      let free (i : Nat) : EngM Bool := do
        let d ← readDir (die * 2 ^ 29 + i)
        pure (d.state == 0)
      let r ← newBlocks die n free (Config.directoryEntries - 1) 1 []
      r.mapIdxM fun j h => do
        writeDir h { tier, state := 1, va := va + j * size, ref := 0, pin := 0, job := t.who.job, hash := 0, hzn := 0 }
        pure h
    else (upTo n).mapM fun j => do
      let h ← engNum (va + 4 * j) 4
      let _ ← liveBlock h
      pure h : EngM (List Nat))
  let (g, _) ← allocate 128
  let gva ← granuleVa g
  let head := [word (t.who.job % 4096 * 2 ^ 20 + eszq * 2 ^ 13 + soff * 8), word len, 0, 0, 0, 0, 0, 0]
  let blk := handles.flatMap fun h => bytesOf 4 h
  engWrite gva (bytesOfWords head ++ blk ++ List.replicate (64 - blk.length) 0)
  (modify fun t => { t with nodes := t.nodes + 1 } : EngM PUnit)
  let kind : RopeKind := { decl := c.d, eszq, soff }
  let leaf ← mkLeaf kind g 0 len c.c
  let id ← mkNode kind 1 [leaf]
  let root ← resultRoot (some id)
  pure [root, word g, word (handles.getD 0 0)]
where
  /-- The lowest FREE entries of a die's directory, DIRFULL where there are too few (R124). -/
  newBlocks (die n : Nat) (free : Nat → EngM Bool) : Nat → Nat → List Nat → EngM (List Nat)
    | 0, _, l => if l.length = n then pure l else throw (.status 10)
    | f + 1, i, l => do
      if l.length = n then pure l
      else
        let b ← free i
        newBlocks die n free f (i + 1) (if b then l ++ [die * 2 ^ 29 + i] else l)

/-- `rresum`'s new node for a node whose first element stands at `at'`, none where nothing in it is stale (R125). -/
def resumNode (kind : RopeKind) : Nat → Nat → Nat → RopeM (Option Nat)
  | 0, _, _ => throw (.status 1)
  | f + 1, g, at' => do
    let n ← getNode g
    let (_, ents, any) ← n.ents.foldlM (fun (x : Nat × List Ent × Bool) e => do
      let pos := x.1
      if n.level = 1 then
        if e.base = word pos then pure (pos + e.len, x.2.1 ++ [e], x.2.2)
        else
          let l ← mkLeaf kind e.child e.start e.len (word pos)
          pure (pos + e.len, x.2.1 ++ [l], true)
      else
        let r ← resumNode kind f e.child pos
        match r with
        | some c =>
          let y ← entOf c
          pure (pos + e.len, x.2.1 ++ [y], true)
        | none =>
          if e.base = word pos then pure (pos + e.len, x.2.1 ++ [e], x.2.2)
          else
            let y ← entOf e.child
            pure (pos + e.len, x.2.1 ++ [y], true)) (at', [], false)
    if any then
      let r ← mkNode kind n.level ents
      pure (some r)
    else pure none

/-- The prefix table of a die. -/
def Die.prefixAt (d : Die) (i : Nat) : PfxEntry := (Sparse.find? d.prefixes i).getD {}

/-- An entry's block is LIVE under the entry's hash, and belongs to a job where one is named (R131). -/
def pfxMatches (e : PfxEntry) (job : Option Nat) : EngM Bool := do
  if e.hash = 0 then pure false
  else
    let d ← readDir e.block.toNat
    pure (d.state == 1 && d.hash == e.hash && (match job with
      | some j => d.job == j
      | none => true))

/-- The first index below `n` from `i` on that satisfies a test. -/
def firstM (p : Nat → EngM Bool) : Nat → Nat → EngM (Option Nat)
  | 0, _ => pure none
  | f + 1, i => do
    let b ← p i
    if b then pure (some i) else firstM p f (i + 1)

/-- A prefix table whose entry `i` becomes `e`, the most recent: those that were more recent than it go down by one rank (R131, R133). -/
def topPrefix (l : List (Nat × PfxEntry)) (i : Nat) (e : PfxEntry) : List (Nat × PfxEntry) :=
  let old := (Sparse.find? l i).getD {}
  let down (x : Nat × PfxEntry) : Nat × PfxEntry :=
    if old.hash ≠ 0 ∧ old.rank < x.2.rank then (x.1, { x.2 with rank := x.2.rank - 1 }) else x
  Sparse.put (l.map down) i { e with rank := (l.filter fun x => x.1 ≠ i && x.2.hash != 0).length }

/-- An entry becomes the most recent (R133, R134). -/
def touchPrefix (die i : Nat) (f : PfxEntry → PfxEntry) : EngM PUnit :=
  modify fun t =>
    let d := t.s.die die
    { t with s := t.s.setDie die { d with prefixes := topPrefix d.prefixes i (f (d.prefixAt i)) } }

/-- `pfx.look` (R133). -/
def pfxLook (c : RopeCmd) : EngM (List Word) := do
  let t ← get
  let die := t.loc.die
  let va ← addrOperand c.a 8
  let out ← addrOperand c.c 4
  engCheck (decide (1 ≤ c.b.toNat) && decide (c.b.toNat ≤ 64)) 9
  let hits ← go t.who.job (t.s.die die) va c.b.toNat 0 []
  if c.c = 0 then pure ⟨⟩ else engWrite out (hits.flatMap fun e => bytesOf 4 e.2.block.toNat)
  hits.foldlM (fun _ e => touchPrefix die e.1 id) ⟨⟩
  pure [word hits.length, match hits.getLast? with
    | some e => e.2.block.zeroExtend 64
    | none => 0]
where
  /-- The entries that match one hash after another. -/
  go (job : Nat) (d : Die) (va : Nat) : Nat → Nat → List (Nat × PfxEntry) → EngM (List (Nat × PfxEntry))
    | 0, _, l => pure l
    | f + 1, i, l => do
      let h ← engWord (va + 8 * i)
      let r ← firstM (fun k => if h ≠ 0 ∧ (d.prefixAt k).hash = h then pfxMatches (d.prefixAt k) (some job) else pure false) 64 0
      match r with
      | none => pure l
      | some k => go job d va f (i + 1) (l ++ [(k, d.prefixAt k)])

/-- `pfx.add` (R134). A hash of 0, and nonzero bits [63:32] of the handle operand, give OPERAND. DESIGN CHOICE (log 66). -/
def pfxAdd (c : RopeCmd) : EngM (List Word) := do
  let t ← get
  let die := t.loc.die
  let d := t.s.die die
  engCheck (c.a != 0 && bits c.b 63 32 == 0) 9
  let h := c.b.toNat
  let b ← liveBlock h
  writeDir h { b with hash := c.a }
  let same ← firstM (fun k => pure ((d.prefixAt k).hash == c.a)) 64 0
  let empty ← firstM (fun k => pure ((d.prefixAt k).hash == 0)) 64 0
  let stale ← firstM (fun k => do
    let m ← pfxMatches (d.prefixAt k) none
    pure ((d.prefixAt k).hash != 0 && !m)) 64 0
  let free ← (upTo 64).filterM fun k => do
    let x ← readDir (d.prefixAt k).block.toNat
    pure (x.pin == 0)
  let oldest := free.foldl (fun (o : Option Nat) k =>
    match o with
    | none => some k
    | some j => if (d.prefixAt k).rank < (d.prefixAt j).rank then some k else some j) none
  match same, empty, stale, oldest with
  | some k, _, _, _ => place die d k h
  | none, some k, _, _ => place die d k h
  | none, none, some k, _ => place die d k h
  | none, none, none, some k => place die d k h
  | none, none, none, none => throw (.status 11)
where
  /-- The pair placed in an entry, which becomes the most recent. -/
  place (die : Nat) (d : Die) (k h : Nat) : EngM (List Word) := do
    let old := d.prefixAt k
    touchPrefix die k fun e => { e with hash := c.a, block := BitVec.ofNat 32 h }
    pure [word k, if old.hash = 0 then 0 else old.block.zeroExtend 64]

/-- `pfx.pin` and `pfx.unpin` (R135): every handle is checked and counted before a block without references drains. -/
def pfxPin (c : RopeCmd) (up : Bool) : EngM (List Word) := do
  let t ← get
  let va ← addrOperand c.a 4
  engCheck (decide (1 ≤ c.b.toNat) && decide (c.b.toNat ≤ 64)) 9
  let hs ← (upTo c.b.toNat).mapM fun i => do
    let h ← engNum (va + 4 * i) 4
    let d ← liveBlock h
    engCheck (if up then decide (d.pin < 65535) else d.pin != 0) 6
    writeDir h { d with pin := if up then d.pin + 1 else d.pin - 1 }
    pure h
  hs.foldlM (fun _ h => do
    let d ← readDir h
    if d.state = 1 then writeDir h (drained t.s.time d) else pure ⟨⟩) (⟨⟩ : PUnit)
  pure [c.b, 0]

/-- The work of a command (R118 to R126, R133 to R135): words 1 to 3 of its record, or its result registers. `rwalk` runs by
descriptors and is not here. Where several refusals of R98 hold, the roots are looked at first, then the kinds, then the range, then the
rest; nonzero bits [63:32] of the block handle of `rtier` give OPERAND, which goes before BLOCK, and BLOCK before PINNED. DESIGN CHOICE (log 66). -/
def ropeWork (c : RopeCmd) : RopeM (List Word) := do
  match c.fn with
  | .rcat =>
    let a ← rootOf c.a
    let b ← rootOf c.b
    let k ← ropeKindOf a b
    let r ← concat k (rootId a) (rootId b)
    let w ← resultRoot r
    pure [w, 0, 0]
  | .rsplit =>
    let t ← rootOf c.a
    let k ← ropeKindOf t none
    let len ← ropeLen (rootId t)
    engCheck (decide (c.b.toNat ≤ len)) 3
    let (l, r) ← split k (rootId t) c.b.toNat
    let x ← resultRoot l
    let y ← resultRoot r
    pure [x, y, 0]
  | .rsplice =>
    let t ← rootOf c.a
    let m ← rootOf c.d
    let k ← ropeKindOf t m
    let len ← ropeLen (rootId t)
    engCheck (decide (c.b.toNat + c.c.toNat ≤ len)) 3
    let r ← splice k (rootId t) c.b.toNat c.c.toNat (rootId m)
    let w ← resultRoot r
    pure [w, 0, 0]
  | .trim =>
    let t ← rootOf c.a
    let k ← ropeKindOf t none
    let len ← ropeLen (rootId t)
    engCheck (decide (c.b.toNat ≤ len)) 3
    let (_, r) ← split k (rootId t) c.b.toNat
    let w ← resultRoot r
    pure [w, 0, 0]
  | .rindex => ropeIndex c
  | .rsum => ropeSum c
  | .rwalk => pure [0, 0, 0]
  | .rhold =>
    let t ← rootOf c.a
    match t with
    | none => pure [0, 0, 0]
    | some (g, _) =>
      let n ← bumpNode g
      pure [word n, 0, 0]
  | .rdrop =>
    let t ← rootOf c.a
    match t with
    | none => pure [0, 0, 0]
    | some (g, _) =>
      let n ← dropNode 9 g
      pure [word n, 0, 0]
  | .rpiece => ropePiece c
  | .rresum =>
    let t ← rootOf c.a
    match t with
    | none => pure [0, 0, 0]
    | some (g, n) =>
      let r ← resumNode n.kind 9 g 0
      let w ← resultRoot (some (r.getD g))
      pure [w, 0, 0]
  | .rtier =>
    engCheck (bits c.a 63 32 == 0 && decide (c.c.toNat ≤ 1)) 9
    let va ← addrOperand c.b 64
    let d ← liveBlock c.a.toNat
    engCheck (d.pin == 0) 14
    writeDir c.a.toNat { d with tier := c.c.toNat, va }
    pure [word d.va, word d.tier, 0]
  | .pfx .look => pfxLook c
  | .pfx .add => pfxAdd c
  | .pfx .pin => pfxPin c true
  | .pfx .unpin => pfxPin c false

/-! ### The engine's events (R127) -/

/-- The place that a rope engine's remote requests carry (log 16). -/
def ropeLoc (die : Nat) : Loc := { die, cluster := 0, core := ropeCore, slot := 0 }

def State.engSt (s : State) (die : Nat) (c : RopeCmd) : EngSt :=
  { s, src := .rope, who := c.by', loc := ropeLoc die, pool := (Sparse.find? s.pools c.by'.job).getD {} }

def State.ropeFault (s : State) (die : Nat) : Bool := s.faultOut fun f => f.src == .rope && f.loc.die == die

def State.setRope (s : State) (die : Nat) (r : Option RopeRun) : State := s.setDie die { s.die die with rope := r }

/-- The rope commands that a visible commit of a unit still has to release, and those that wait behind earlier accesses of their unit: their
order. -/
def Unit.ropeComes (u : Unit) : List Nat :=
  let held := u.task.held.any fun h => match h with
    | .rope _ => true
    | _ => false
  let cont := match u.commit with
    | some (.rope _ _ _, _) => true
    | _ => false
  (if u.visible && (held || cont) then [u.visibleAt] else []) ++ u.pend.filterMap fun p => match p.act with
    | .rope c => some c.order
    | _ => none

/-- The root handles that a command names (R113, R118). -/
def RopeCmd.roots (c : RopeCmd) : List Word :=
  match c.fn with
  | .rcat => [c.a, c.b]
  | .rsplice => [c.a, c.d]
  | .rpiece => [] | .rtier => [] | .pfx _ => []
  | .rsplit => [c.a] | .rindex => [c.a] | .rsum => [c.a] | .rwalk => [c.a] | .rhold => [c.a] | .rdrop => [c.a] | .rresum => [c.a]
  | .trim => [c.a]

/-- An engine must not take a command yet (R105): a commit that became visible earlier still has one to come, on the same die, or, where
the command drops a root, one that names the root on any die (log 59). -/
def State.ropeWaits (s : State) (die : Nat) (c : RopeCmd) : Bool :=
  let drops := c.fn == .rdrop
  let names (x : RopeCmd) : Bool := x.order < c.order && x.by'.job == c.by'.job && x.roots.contains c.a
  (s.units.any fun u => (u.loc.die == die || drops) && u.ropeComes.any fun n => decide (n < c.order)) ||
    (drops && s.dies.any fun d => d.1 != die && (d.2.q5.any names || (match d.2.rope with
      | some r => names r.cmd
      | none => false)))

/-- ROPE_COMMAND_TAKE: the engine takes its next released command (R105, R127); one that was cancelled ends at once (R383). -/
def execRopeCommandTake (die : Nat) (s : State) : Out :=
  let d := s.die die
  match d.rope, d.q5 with
  | none, c :: rest =>
    if s.ropeWaits die c then .next s
    else .next (s.setDie die { d with rope := some { cmd := c, ended := if c.cancelled then some (13, 0, [0, 0, 0]) else none }, q5 := rest })
  | none, [] => .next s
  | some _, _ => .next s

/-- The next descriptor of a walk: its bytes and its elements, none at the end (R122). -/
def walkNext (c : RopeCmd) (walked : Nat) : RopeM (Option (List Byte × Nat)) := do
  let t ← rootOf c.a
  let len ← ropeLen (rootId t)
  let e ← (get : EngM EngSt)
  let cl := clusterId c.by'.loc.die c.by'.loc.cluster
  engCheck (decide (c.b.toNat + c.c.toNat ≤ len)) 3
  engCheck (bits c.d 63 12 == 0 && ((e.s.cluster cl).stage c.d.toNat).isSome) 9
  match t with
  | none => pure none
  | some (g, n) =>
    if walked ≥ c.c.toNat then pure none
    else
      let pos := c.b.toNat + walked
      let (leaf, o, _) ← findLeaf 9 g pos 0
      let p ← readPiece leaf.child
      let i := leaf.start + o
      let run := min (16 - i % 16) (min (leaf.len - o) (c.c.toNat - walked))
      let d ← readDir (p.blocks.getD (i / 16) 0)
      pure (some (bytesOfWords [word ((d.va + i % 16 * elemSize p.eszq) % 2 ^ 56),
        word ((run - 1) * 2 ^ 59 + d.tier % 8 * 2 ^ 56 + n.kind.eszq * 2 ^ 40 + pos)], run))

/-- Words 1 to 3 of a walk's record: descriptors pushed and, where it ended well, elements. -/
def walkWords (r : RopeRun) (status : Nat) : List Word := [word r.pushed, if status = 0 then word r.walked else 0, 0]

/-- Whole entries of a walk's bytes pushed while the stage has room; at the end the last one is padded (R122, R147, log 17). -/
def State.pushWalk (s : State) (r : RopeRun) (last : Bool) : State × RopeRun × Bool :=
  let st := (clusterId r.cmd.by'.loc.die r.cmd.by'.loc.cluster) * 4096 + stageKey (r.cmd.d.toNat % 16) (r.cmd.d.toNat / 16)
  let n := s.streamEntry st
  let rec go : Nat → State → List Byte → State × List Byte × Bool
    | 0, t, b => (t, b, false)
    | f + 1, t, b =>
      if b.length < n ∧ !(last && !b.isEmpty) then (t, b, true)
      else
        match t.engineEntry st (b.take n ++ List.replicate (n - b.length) 0) with
        | none => (t, b, false)
        | some t' => go f t' (b.drop n)
  let (t, b, all) := go (r.buf.length / 8 + 2) s r.buf
  (t, { r with buf := b }, all)

/-- RWALK_DESCRIPTOR_PUSH: the running `rwalk` forms its next descriptor and pushes what fills whole entries (R122). -/
def execRwalkDescriptorPush (die : Nat) (s : State) : Out :=
  match (s.die die).rope with
  | none => .next s
  | some r =>
    if r.cmd.fn ≠ .rwalk ∨ r.ended.isSome ∨ s.ropeFault die then .next s
    else
      let (s, r, room) := s.pushWalk r false
      if !room then .next (s.setRope die (some r))
      else
        match EngM.result ((walkNext r.cmd r.walked).run' {}) (s.engSt die r.cmd) with
        | .wait t => .next (t.setRope die (some r))
        | .fault a va c e t => .next ((t.setRope die (some r)).engineFault .rope r.cmd.by' a va c e)
        | .stop n t => .next ((t.dropRemotes (ropeLoc die)).setRope die (some { r with ended := some (n, 0, walkWords r n) }))
        | .ok none t =>
          let (u, r, done) := t.s.pushWalk r true
          let u := u.dropRemotes (ropeLoc die)
          .next (u.setRope die (some (if done then { r with ended := some (0, 0, walkWords r 0) } else r)))
        | .ok (some (b, n)) t =>
          let r := { r with pushed := r.pushed + 1, walked := r.walked + n, buf := r.buf ++ b }
          let (u, r, _) := (t.s.dropRemotes (ropeLoc die)).pushWalk r false
          .next (u.setRope die (some r))

/-- A command performed: whole, or ended by a refusal that changes nothing, or held up by a fault or a wait (R117, R127). -/
def State.ropeAttempt (s : State) (die : Nat) (r : RopeRun) : State :=
  match EngM.result ((ropeWork r.cmd).run' {}) (s.engSt die r.cmd) with
  | .wait t => t
  | .fault a va c e t => t.engineFault .rope r.cmd.by' a va c e
  | .stop n t => (t.dropRemotes (ropeLoc die)).setRope die (some { r with ended := some (n, 0, [0, 0, 0]) })
  | .ok ws t =>
    if !t.unlocked then s
    else
      match s.claim t with
      | (x, .wait) => x
      | (x, .fault va c) => x.engineFault .rope r.cmd.by' .atomic va c 0
      | (x, .done) =>
        let u := ({ t with s := { t.s with remotes := x.remotes, laneHoles := x.laneHoles, outbox := x.outbox, laneOut := x.laneOut } } : EngSt).perform
        { u.setRope die (some { r with ended := some (0, t.nodes, ws) }) with pools := Sparse.put u.pools r.cmd.by'.job t.pool }

/-- The record goes out once every write is performed, the descriptors of a walk that has ended are pushed (R122, log 17), and its
queue has room (R115, R127). -/
def State.ropeSend (s : State) (die : Nat) (r : RopeRun) : State :=
  let s := match r.ended with
    | some (12, _, _) => s.dropAsked fun x => x.engineWrites (ropeLoc die) && x.refusal.isSome
    | _ => (s.refusedWrites .rope r.cmd.by' (ropeLoc die)).1
  match r.ended with
  | none => s
  | some (status, nodes, ws) =>
    let (s, r, flushed) := if r.buf.isEmpty then (s, r, true) else s.pushWalk r true
    let s := if flushed then s else s.setRope die (some r)
    let q := if r.cmd.form = .plain then 6 else 0
    if !flushed || s.writesOut (ropeLoc die) || !(r.cmd.form == .returning || s.roomFor r.cmd.by'.loc r.cmd.by'.launch q) then s
    else
      ((s.dropRemotes (ropeLoc die)).setRope die none).ropeReport r.cmd (ropeAnswer r.cmd status nodes ws)

/-- ROPE_COMMAND_DONE: the running command is performed and its record sent (R127). -/
def execRopeCommandDone (die : Nat) (s : State) : Out :=
  match (s.die die).rope with
  | none => .next s
  | some r =>
    if s.ropeFault die then .next s
    else
      let t := if r.ended.isSome ∨ r.cmd.fn = .rwalk then s else s.ropeAttempt die r
      match (t.die die).rope with
      | none => .next t
      | some r => .next (t.ropeSend die r)

/-- BLOCK_DRAIN_EXPIRE: a block in DRAIN is FREE from its horizon on (R107). -/
def execBlockDrainExpire (die index : Nat) (s : State) : Out :=
  let pa := s.directoryPa (die * 2 ^ 29 + index)
  let d := DirEntry.ofBytes (s.bytes (localOf pa) 32)
  if d.state = 2 ∧ d.hzn.toNat ≤ s.time.toNat then .next (s.engineSet pa (DirEntry.bytes { d with state := 0 })) else .next s

end Sys2Proof.Machine
end

