-- ==== Sys2Proof/Machine/Rope.lean ====
section
/-! DEFINITION. The rope instructions in their three forms (R113 to R118), `hblk` (R130) and the prefix-table instructions
(R132). -/

namespace Sys2Proof.Machine

/-- The command captured from s[d] to s[d + 3] (R114, R116). -/
def State.ropeCmd (s : State) (fn : RopeFn) (form : RopeForm) (d : SReg) (tag : BitVec 6) : RopeCmd :=
  let u := s.cur
  { fn, form, tag, a := u.getS d, b := u.getS (d + 1), c := u.getS (d + 2), d := u.getS (d + 3), by' := s.issuer }

/-- What a returning form waits for: its record, which pre-emption does not wait for (R116), or the answer of a prefix instruction. -/
def RopeFn.awaits (f : RopeFn) : Act := if f.isPfx then .answer else .record

/-- What a returning form does once its commit has ended (R116, R132): the command enters the engine's queue, after the earlier accesses
of its unit (R346), and the result registers stay pending until its answer. -/
def State.ropeAct (s : State) (la : BitVec 4) (d : SReg) (c : RopeCmd) : Out :=
  let n := if c.fn.isPfx then 2 else 4
  let ks := (regsFrom d n).map s.cur.keyS
  let c := { c with by' := s.issuer, pend := s.ids, order := s.cur.visibleAt }
  if s.cur.orderedBefore s.ids then (s.openWindow la ks none (.rope c)).doneC
  else ((s.releaseRope c).openWindow la ks none c.fn.awaits).doneC

/-- A rope command (R113 to R116). -/
def State.rope (s : State) (fn : RopeFn) (la : BitVec 4) (d : SReg) (tag : BitVec 6) (form : RopeForm) : Out :=
  let rs := regsFrom d 4
  let ret := form == .returning
  s.issue { ok := decide (d.toNat ≤ 28), touch := rs.map s.cur.keyS, live := ret && rs.any s.cur.namedS } fun t =>
    let c := t.ropeCmd fn form d tag
    match form with
    | .plain => if t.cur.ropePlaces ≥ 16 then s.raise (s.bundleTrap .selfDeadlock) else t.push .yes (.rope c) false
    | .inbox => t.push .yes (.rope c) false
    | .returning => t.withCommit (.rope la d c) false fun t => t.ropeAct la d c

def execRcat (la : BitVec 4) (d : SReg) (tag : BitVec 6) (form : RopeForm) (s : State) : Out := s.rope .rcat la d tag form
def execRsplit (la : BitVec 4) (d : SReg) (tag : BitVec 6) (form : RopeForm) (s : State) : Out := s.rope .rsplit la d tag form
def execRsplice (la : BitVec 4) (d : SReg) (tag : BitVec 6) (form : RopeForm) (s : State) : Out := s.rope .rsplice la d tag form
def execRindex (la : BitVec 4) (d : SReg) (tag : BitVec 6) (form : RopeForm) (s : State) : Out := s.rope .rindex la d tag form
def execRsum (la : BitVec 4) (d : SReg) (tag : BitVec 6) (form : RopeForm) (s : State) : Out := s.rope .rsum la d tag form
def execRwalk (la : BitVec 4) (d : SReg) (tag : BitVec 6) (form : RopeForm) (s : State) : Out := s.rope .rwalk la d tag form
def execRhold (la : BitVec 4) (d : SReg) (tag : BitVec 6) (form : RopeForm) (s : State) : Out := s.rope .rhold la d tag form
def execRdrop (la : BitVec 4) (d : SReg) (tag : BitVec 6) (form : RopeForm) (s : State) : Out := s.rope .rdrop la d tag form
def execRpiece (la : BitVec 4) (d : SReg) (tag : BitVec 6) (form : RopeForm) (s : State) : Out := s.rope .rpiece la d tag form
def execRresum (la : BitVec 4) (d : SReg) (tag : BitVec 6) (form : RopeForm) (s : State) : Out := s.rope .rresum la d tag form
def execTrim (la : BitVec 4) (d : SReg) (tag : BitVec 6) (form : RopeForm) (s : State) : Out := s.rope .trim la d tag form
def execRtier (la : BitVec 4) (d : SReg) (tag : BitVec 6) (form : RopeForm) (s : State) : Out := s.rope .rtier la d tag form

/-! ### hblk (R130) -/

/-- One round of the chained hash. -/
def hashRound (h : Word) (x : Nat) : Word := (h.rotateLeft 23 ^^^ word x) * 0x8F1D4C276B39A5E3

/-- The chain value after the sixteen tokens of lanes 0 to 15. -/
def blockHash (h : Word) (v : VWord) : Word :=
  let r := (upTo 16).foldl (fun h i => hashRound h (bits v (32 * i + 31) (32 * i))) h
  if r = 0 then 1 else r

/-- `hblk` (R130). -/
def execHblk (la : BitVec 4) (d : SReg) (v : VReg) (s : State) : Out :=
  s.issue { touch := [s.cur.keyS d, .v v.toNat], live := s.cur.namedS d } fun t =>
    (t.openWindow la (t.cur.destS d) (some [sval (blockHash (t.cur.getS d) (t.cur.getV v))]) .answer).doneC

/-! ### The prefix table (R132 to R135) -/

/-- A prefix instruction: it commits, then acts through the rope engine (R132). -/
def State.prefix (s : State) (f : PfxFn) (la : BitVec 4) (d : SReg) : Out :=
  let reads := if f = .look then 3 else 2
  let us := regsFrom d 2
  s.issue { ok := decide (d.toNat ≤ 29), touch := (regsFrom d reads).map s.cur.keyS, live := us.any s.cur.namedS } fun t =>
    let c := t.ropeCmd (.pfx f) .returning d 0
    t.withCommit (.rope la d c) false fun t => t.ropeAct la d c

def execPfxLook (la : BitVec 4) (d : SReg) (s : State) : Out := s.prefix .look la d
def execPfxAdd (la : BitVec 4) (d : SReg) (s : State) : Out := s.prefix .add la d
def execPfxPin (la : BitVec 4) (d : SReg) (s : State) : Out := s.prefix .pin la d
def execPfxUnpin (la : BitVec 4) (d : SReg) (s : State) : Out := s.prefix .unpin la d

end Sys2Proof.Machine
end

