-- ==== Sys2Proof/Machine/Graphs.lean ====
section
/-! DEFINITION. Launch graphs as the command processor keeps them (R384 to R388): the fields of a node, the edges between nodes,
loop bodies, and how skips and error tokens pass through a graph. -/

namespace Sys2Proof.Machine

/-! ### Fields of a node (R384, R385) -/

def Node.w (n : Node) (i : Nat) : Word := n.words.getD i 0
def Node.typ (n : Node) : Nat := bits (n.w 0) 63 56
def Node.npred (n : Node) : Nat := bits (n.w 0) 55 48
def Node.start (n : Node) : Word := n.w 2
/-- SUCC entry i, none for 0xFFFF. -/
def Node.succ (n : Node) (i : Nat) : Option Nat := let x := bits (n.w 1) (16 * i + 15) (16 * i); if x = 0xFFFF then none else some x
def Node.succs (n : Node) : List Nat := (upTo 4).filterMap n.succ
def Node.first (n : Node) : Nat := bits (n.w 5) 15 0
def Node.last (n : Node) : Nat := bits (n.w 5) 31 16
def Node.dw (n : Node) : Bool := (n.w 5).getLsbD 32
def Node.maxit (n : Node) : Nat := (n.w 6).toNat

/-- The LOOP nodes of a graph: index, FIRST and LAST. -/
def loopsOf (ns : List Node) : List (Nat × Nat × Nat) :=
  (ns.mapIdx fun i n => if n.typ = 6 then [(i, n.first, n.last)] else []).flatten

/-- The innermost loop whose body holds a node. -/
def loopOf (ns : List Node) (i : Nat) : Option (Nat × Nat × Nat) :=
  (loopsOf ns).foldl (fun (best : Option (Nat × Nat × Nat)) l =>
    if l.2.1 ≤ i ∧ i ≤ l.2.2 then
      match best with
      | none => some l
      | some b => if l.2.2 - l.2.1 < b.2.2 - b.2.1 then some l else best
    else best) none

/-- Edges that a node waits for: NPRED, or inside a loop body the body's edges into it (R386). -/
def needed (ns : List Node) (i : Nat) : Nat :=
  match loopOf ns i with
  | none => (ns.getD i { words := [] }).npred
  | some (_, a, b) => (((ns.drop a).take (b + 1 - a)).flatMap fun n => n.succs.filter (· == i)).length

/-! ### Passing edges on (R385, R386, R388) -/

/-- What arrives over an edge: a completion, a skip, or an error token. -/
inductive Edge where
  | done | skip | error
  deriving DecidableEq, Repr

def modNode (ns : List Node) (i : Nat) (f : Node → Node) : List Node := ns.mapIdx fun j n => if j = i then f n else n

def NodeState.ended : NodeState → Bool
  | .waiting => false | .running => false | .done => true | .skipped => true | .cancelled => true | .failed => true

/-- Where the end of node `i` leads, with what its edges carry: to its successors, or from the LAST of a body back to its LOOP
node (R386), marked `true`. -/
def outEdges (ns : List Node) (i : Nat) (k : Edge) : List (Nat × Bool × Edge) :=
  let here := (ns.getD i { words := [] }).succs.map fun t => (t, false, k)
  match loopOf ns i with
  | some (l, _, b) => if b = i then [(l, true, k)] else here
  | none => here

/-- Edges taken one after another, with those that the nodes they end lead to, by fuel. -/
def passEdges : Nat → List Node → List (Nat × Bool × Edge) → List Node
  | 0, ns, _ => ns
  | _, ns, [] => ns
  | f + 1, ns, (t, back, k) :: rest =>
    let n := ns.getD t { words := [] }
    if back then
      if n.state ≠ .running then passEdges f ns rest
      else if k = .error then
        passEdges f (modNode ns t fun n => { n with state := .cancelled }) (rest ++ outEdges ns t .error)
      else passEdges f (modNode ns t fun n => { n with back := true }) rest
    else if n.state ≠ .waiting then passEdges f ns rest
    else
      let n' := { n with preds := n.preds + 1, skips := n.skips + (if k = .skip then 1 else 0), token := n.token || k == .error }
      let ns' := modNode ns t fun _ => n'
      if n'.token then passEdges f (modNode ns' t fun n => { n with state := .cancelled }) (rest ++ outEdges ns t .error)
      else if needed ns t ≤ n'.preds ∧ n'.skips = n'.preds then
        passEdges f (modNode ns' t fun n => { n with state := .skipped }) (rest ++ outEdges ns t .skip)
      else passEdges f ns' rest

/-- Enough steps for every edge of a graph. -/
def edgeFuel (ns : List Node) : Nat := 8 * ns.length + 8

/-- Node `i` ends in a state, its edges carrying `k`. -/
def Replay.endNode (r : Replay) (i : Nat) (st : NodeState) (k : Edge) : Replay :=
  let ns := modNode r.nodes i fun n => { n with state := st }
  { r with nodes := passEdges (edgeFuel ns) ns (outEdges ns i k) }

/-- A COND node ends: SUCC entries 0 and 1 are released where the predicate is nonzero, 2 and 3 where it is zero; the others
carry skips (R385). -/
def Replay.endCond (r : Replay) (i : Nat) (yes : Bool) : Replay :=
  let ns := modNode r.nodes i fun n => { n with state := .done }
  let n := ns.getD i { words := [] }
  let edge (j : Nat) : Edge := if decide (j < 2) == yes then .done else .skip
  let es := (upTo 4).filterMap fun j => (n.succ j).map fun t => (t, false, edge j)
  let es := if es.isEmpty then outEdges ns i .done else es
  { r with nodes := passEdges (edgeFuel ns) ns es }

/-- A node that fails of itself: its graph's first failure, and error tokens (R388, R445). -/
def Replay.failNode (r : Replay) (i : Nat) (stat : Word) : Replay :=
  { r with failure := some (r.failure.getD stat) }.endNode i .failed .error

/-- Node `i` of a replay. -/
def Replay.node? (r : Replay) (i : Nat) : Option Node := r.nodes[i]?

/-- A LOOP node runs an iteration of its body. -/
def Replay.iterating (r : Replay) (l : Nat) : Bool :=
  match r.nodes[l]? with
  | some n => n.state == .running && decide (0 < n.iters)
  | none => false

/-- A node may start (R385, R386): it waits, every edge it needs has come, and START has passed; FIRST of a body only when its
LOOP node has started it, and another body node only in an iteration of its loop. -/
def Replay.ready (r : Replay) (i : Nat) (now : Word) : Bool :=
  match r.nodes[i]? with
  | none => false
  | some n =>
    n.state == .waiting && decide (n.start.toNat ≤ now.toNat) &&
      (match loopOf r.nodes i with
       | some (l, a, _) => if a = i then n.armed && r.iterating l else r.iterating l && decide (needed r.nodes i ≤ n.preds)
       | none => decide (needed r.nodes i ≤ n.preds))

/-- A node that lies in the body of a loop (R386). -/
def inBody (ns : List Node) (i : Nat) : Bool := (loopOf ns i).isSome

/-- Every node has completed: a body node counts as completed with its loop, unless it still runs (R369, R386). -/
def Replay.complete (r : Replay) : Bool :=
  (r.nodes.mapIdx fun i n => n.state.ended || (inBody r.nodes i && n.state == .waiting)).all fun b => b

def State.modReplay (s : State) (id : Nat) (f : Replay → Replay) : State :=
  { s with replays := s.replays.map fun r => if r.id = id then f r else r }
def State.replay? (s : State) (id : Nat) : Option Replay := s.replays.find? fun r => r.id == id
def State.modPhase (s : State) (id : Nat) (f : Phase → Phase) : State :=
  { s with phases := s.phases.map fun p => if p.id = id then f p else p }

/-- A graph's nodes that have not started, its waits and its loops between iterations, cancelled (R383). -/
def Replay.cancelNodes (r : Replay) : Replay :=
  { r with
    cancelling := true
    nodes := r.nodes.map fun n =>
      if n.state = .waiting ∨ (n.state = .running ∧ (n.ran = 3 ∨ n.ran = 6)) then { n with state := .cancelled } else n }

end Sys2Proof.Machine
end

