-- ==== Sys2Proof/Machine/Cancel.lean ====
section
/-! DEFINITION. How items end (R369, R382, R388) and how a level is cancelled (R151, R299, R367, R383). -/

namespace Sys2Proof.Machine

/-! ### Items that end -/

/-- The hub that serves a queue (R374). -/
def hubOfQueue (q : Nat) : Nat := q / 32

/-- The first failure of a job (R382). -/
def State.noteJob (s : State) (job : Nat) (err : Option Word) : State :=
  match err with
  | none => s
  | some w => if (Sparse.find? s.jobFails job).isSome then s else { s with jobFails := Sparse.put s.jobFails job w }

/-- A queue is frozen (R382, R444). -/
def State.freeze (s : State) (q : Nat) : State := s.setQueue q { s.queue q with state := 2 }

/-- A queue holds records that have not started: at its head, pushed by device code, or in the part of its ring that a KICK covers (R374). -/
def Queue.left (k : Queue) : Bool := k.record.isSome || !k.pushed.isEmpty || decide (k.head.toNat < k.kicked.toNat)

/-- An item of the job has not completed, or has not started (R369). -/
def State.jobBusy (s : State) (job : Nat) : Bool :=
  (s.launches.any fun l => l.job == job) || (s.replays.any fun r => r.job == job) || (s.phases.any fun p => p.job == job) ||
    (s.hubs.any fun h => h.2.graphs.any fun g => g.job == job) ||
    (s.queues.any fun q => q.2.job == job && q.2.left)

/-- A job that ENDJOB has named completes with its last item: its counter JCNT advances, with the first failure of its items
(R369, R370, R382). -/
def State.settleJob (s : State) (job : Nat) : State :=
  if s.ended.contains job && !s.jobBusy job then
    let s' := s.advance (bits (s.jobWord job 3) 11 0) (Sparse.find? s.jobFails job)
    { s' with ended := s.ended.filter (· ≠ job), jobFails := s.jobFails.filter fun f => f.1 ≠ job }
  else s

/-- An item of a job ends: its counter advances, and the failure counts for the job (R369, R382). -/
def State.endItem (s : State) (job : Nat) (counter : Nat) (err : Option Word) : State :=
  ((s.advance counter err).noteJob job err).settleJob job

/-- A top-level item of a queue ends; with ERR the queue is frozen (R382). -/
def State.endTop (s : State) (q job counter : Nat) (err : Option Word) : State :=
  let s := s.endItem job counter err
  if err.isSome then s.freeze q else s

/-- A graph of a phase has ended (R375): with ERR the later graphs end as cancelled; otherwise the next one waits for its
replay, or the phase has completed. -/
def State.phaseNext (s : State) (p : Nat) (err : Option Word) : State :=
  match s.phases.find? fun x => x.id == p with
  | none => s
  | some x =>
    let failure := match x.failure with
      | some w => some w
      | none => err
    let stop := failure.isSome || x.cancelling
    match x.rest with
    | (g, counter, reent) :: rest =>
      if stop then done x (x.rest.foldl (fun t r => t.endItem x.job r.2.1 (some (statWord 0 2 0))) s) failure
      else
        let h := hubOfQueue x.queue
        let k := s.hub h
        let s := { (s.modPhase p fun y => { y with rest, failure }) with nextReplay := s.nextReplay + 1 }
        s.setHub h { k with graphs := k.graphs ++
          [{ id := s.nextReplay - 1, counter, reent, queue := x.queue, job := x.job, graph := g, patches := [], phase := some p }] }
    | [] => done x s failure
where
  /-- The phase has completed. -/
  done (x : Phase) (s : State) (failure : Option Word) : State :=
    let err := match failure with
      | some w => some w
      | none => if x.cancelling then some (statWord 0 2 0) else none
    let s := { s with phases := s.phases.filter fun y => y.id ≠ p }
    let q := s.queue x.queue
    (s.setQueue x.queue { q with phases := q.phases.filter (· ≠ p) }).endTop x.queue x.job x.counter err

/-- A replay whose nodes have all completed ends (R369, R388). -/
def State.settleReplay (s : State) (id : Nat) : State :=
  match s.replay? id with
  | none => s
  | some r =>
    if !r.complete then s
    else
      let err := match r.failure with
        | some w => some w
        | none => if r.cancelling then some (statWord 0 2 0) else none
      let s := { s with replays := s.replays.filter fun x => x.id ≠ id }
      match r.phase with
      | some p => (s.endItem r.job r.counter err).phaseNext p err
      | none =>
        let q := s.queue r.queue
        (s.setQueue r.queue { q with replays := q.replays.filter (· ≠ id) }).endTop r.queue r.job r.counter err

/-! ### Cancelling a launch (R383) -/

/-- Copies cancelled: released requests that have not started end with CANCELLED in their order, those of COPY nodes in their turn, running ones after their chunk (R148, R151). -/
def State.cancelCopies (s : State) (p : CopyReq → Bool) : State :=
  let waiting := s.units.flatMap fun u => u.copies.filter p
  let s := s.modUnits (fun _ => true) fun u => { u with copies := u.copies.filter fun r => !p r }
  let stop (c : Nat × Cluster) : Nat × Cluster :=
    (c.1, { c.2 with
      running := c.2.running.map fun r => if p r.req then { r with cancelled := true } else r
      nodeCopies := c.2.nodeCopies.map fun r => if p r then { r with cancelled := true } else r })
  waiting.foldl State.endCopy { s with clusters := s.clusters.map stop }

/-- Rope commands cancelled: those that the engine has not taken end with CANCELLED in their turn, the running one now (R127). -/
def State.cancelRopes (s : State) (p : Issuer → Bool) : State :=
  let mark (c : RopeCmd) : RopeCmd := if p c.by' then { c with cancelled := true } else c
  let stop (r : RopeRun) : RopeRun :=
    if p r.cmd.by' && r.ended.isNone then { r with ended := some (13, 0, [if r.cmd.fn = .rwalk then word r.pushed else 0, 0, 0]) } else r
  { s with dies := s.dies.map fun d => (d.1, { d.2 with q5 := d.2.q5.map mark, rope := d.2.rope.map stop }) }

/-- Matrix commands cancelled: those without a granted step end, the others after their step; one that has ended stands (R299). -/
def State.cancelMatrix (s : State) (p : Issuer → Bool) : State :=
  let busy (core : Nat) (c : MatCmd) : Bool :=
    let k := s.cluster (core / 16)
    k.flail.granted == some c.id || k.product.granted == some c.id
  { s with cores := s.cores.map fun k =>
      (k.1, (k.2.q1.filter fun c => p c.by' && !c.ended).foldl (fun (x : Core) c =>
        let c := { c with cancelled := true }
        if busy k.1 c then x.modCmd c else x.endCmd c) k.2) }

/-- The engine commands of issuers that `p` names end with CANCELLED (R383). -/
def State.cancelCommands (s : State) (p : Issuer → Bool) : State :=
  ((s.cancelCopies fun r => r.node.isNone && p r.by').cancelRopes p).cancelMatrix p

/-- Outstanding faults of a launch are answered as CANCEL (R84, R383). -/
def State.cancelFaults (s : State) (launch : BitVec 32) : State :=
  let s := { s with faults := s.faults.filter fun f => f.launch ≠ launch ∨ launch = 0 }
  s.modUnits (fun u => u.launch == launch) fun u => { u with mail := [] }

/-- A pre-empted unit acts no more: it joins the other units of the module. -/
def State.setAside (s : State) : State :=
  if s.cur.placed && s.cur.away then { s with cur := {}, others := s.cur :: s.others } else s

/-- Units cancelled while pre-empted retire without being restored (R410); with the last of a core, what the core saved goes. -/
def State.cancelAway (s : State) (launch : BitVec 32) (p : Unit → Bool) : State :=
  let s := s.setAside
  let mine (u : Unit) : Bool := u.placed && u.away && u.launch == launch && p u
  let gone := s.others.filter mine
  let s := { s with others := s.others.filter fun u => !mine u }
  let s := s.modLaunch launch fun l => { l with retired := l.retired + gone.length }
  gone.foldl (fun (t : State) u =>
    let t := if t.units.any fun v => v.launch == launch && v.clusterId == u.clusterId then t else t.freeBanks u.clusterId launch
    let c := t.cluster u.clusterId
    let t := t.setCluster u.clusterId { c with spill := c.spill.filter fun e => !(e.loc == u.loc && e.launch == launch) }
    if t.others.any fun v => v.placed && v.away && v.launch == launch && v.coreId == u.coreId then t
    else t.setCore u.coreId { t.core u.coreId with saved := (t.core u.coreId).saved.filter fun x => x.launch ≠ launch }) s

/-- A launch is cancelled for a reason (R383, R404). Its units retire at their next bundle boundaries with code 0xFFFF. -/
def State.cancelLaunch (s : State) (launch : BitVec 32) (reason : Nat) : State :=
  match s.launch? launch with
  | none => s
  | some l =>
    if l.cancelling then s
    else
      let s := s.modLaunch launch fun l => { (l.fail reason 0xFFFF 0) with cancelling := true }
      let s := { s with waiting := s.waiting.filter fun p => p.launch ≠ launch }
      let s := s.modUnits (fun u => u.placed && u.launch == launch) fun u => { u with cancelled := true }
      ((s.cancelCommands fun i => i.launch == launch).cancelFaults launch).cancelAway launch fun _ => true

/-! ### Cancelling the other levels (R367, R383) -/

/-- Items below 64 are the head records of queues; the others are nodes of replays, and under node number 1024 the start of a
replay (log 18). -/
def itemOf (replay node : Nat) : Nat := 64 + replay * 1025 + node
/-- The replay of an item that is none of a queue. -/
def itemReplay (item : Nat) : Nat := (item - 64) / 1025

/-- The reads of the command processor for cancelled items end: their faults are answered as CANCEL (R84, R444). -/
def State.dropCp (s : State) (p : Nat → Bool) : State :=
  let mine (l : Loc) : Bool := l.cluster == 0 && l.core == 18 && p l.slot
  (({ s with faults := s.faults.filter fun f => !(f.src == .cp && p f.item), cpFails := s.cpFails.filter fun x => !p x.1 } : State).dropAsked
    fun r => mine r.loc).withdrawHoles fun h => mine h.loc

def State.cancelReplay (s : State) (id : Nat) : State :=
  match s.replay? id with
  | none => s
  | some r =>
    if r.cancelling then s
    else
      let s := s.modReplay id Replay.cancelNodes
      let launches := s.launches.filter fun l => match l.node with
        | some (x, _) => x == id
        | none => false
      let s : State := launches.foldl (fun t l => t.cancelLaunch l.num 2) s
      let mine (q : CopyReq) : Bool := match q.node with
        | some (x, _) => x == id
        | none => false
      let s := (s.cancelCopies mine).dropCp fun i => decide (64 ≤ i) && itemReplay i == id
      let stopped := (s.clusters.flatMap fun (c : Nat × Cluster) => c.2.running).filter fun x => mine x.req
      let s : State := { s with
        faults := s.faults.filter fun f => !(f.src == Source.copy && f.launch == 0 && stopped.any fun x => x.req.by'.loc == f.loc) }
      s.settleReplay id

/-- The graphs that wait for their replay and satisfy a test complete as cancelled when they are taken; the faults of their reads are answered
as CANCEL. -/
def State.cancelWaiting (s : State) (p : GraphRec → Bool) : State :=
  let ids := (s.hubs.flatMap fun h => h.2.graphs.filter p).map fun g => g.id
  ({ s with hubs := s.hubs.map fun h =>
      (h.1, { h.2 with graphs := h.2.graphs.map fun g => if p g then { g with cancelled := true } else g }) } : State).dropCp
    fun i => decide (64 ≤ i) && ids.contains (itemReplay i)

def State.cancelPhase (s : State) (id : Nat) : State :=
  let s := s.modPhase id fun p => { p with cancelling := true }
  let s := s.cancelWaiting fun g => g.phase == some id
  (s.replays.filter fun r => r.phase == some id).foldl (fun t r => t.cancelReplay r.id) s

/-- Kick CANCEL: every running item of a queue (R374). -/
def State.cancelQueue (s : State) (q : Nat) : State :=
  let k := s.queue q
  let s := k.running.foldl (fun t l => t.cancelLaunch l 2) s
  let s := k.replays.foldl (fun t r => t.cancelReplay r) s
  let s := s.cancelWaiting fun g => g.queue == q && g.phase.isNone
  k.phases.foldl (fun t p => t.cancelPhase p) s

/-- The counter that a record names, where its words alone name one (R372, R375, R445). -/
def recordCounter (ws : List Word) : Option Nat :=
  let kind := bits (ws.getD 0 0) 63 56
  if kind = 3 then none else if kind = 4 then some (bits (ws.getD 0 0) 11 0) else some (bits (ws.getD 1 0) 11 0)

/-- A record that starts nothing ends (R373, R383, R445): its counter advances, with a REASON; `replay` is the counter of a
replay's graph header once that has been read. Where no counter is known the queue is frozen. -/
def State.endRecord (s : State) (q job : Nat) (ws : List Word) (replay : Option Nat) (reason : Nat) : State :=
  let c := match recordCounter ws with
    | some c => some c
    | none => replay
  match c with
  | some c => s.endTop q job c (some (statWord 0 reason 0))
  | none => (s.freeze q).settleJob job

/-- The counter of a replay's graph, where its header has been read. -/
def Pushed.counter (p : Pushed) : Option Nat :=
  match (p.captured.bind fun c => c.graphs.head?).map fun g => g.2.1 with
  | some c => some c
  | none => p.graph

/-- The head record of a queue as one of its list, under a number for its reads. -/
def Queue.headRecord (k : Queue) (id : Nat) : List Pushed :=
  k.record.toList.map fun ws => { mark := 0, words := ws, captured := k.captured, graph := k.graph, id }

/-- The counter of the head record's graph, where its header has been read. -/
def Queue.headCounter (k : Queue) : Option Nat := (k.headRecord 0).head?.bind Pushed.counter

/-- A pushed record by the number of its reads, with its queue; and a queue without it. -/
def State.pushedBy (s : State) (id : Nat) : Option (Nat × Pushed) :=
  s.queues.findSome? fun q => (q.2.pushed.find? fun p => p.id == id).map fun p => (q.1, p)
def State.dropPushed (s : State) (q id : Nat) : State :=
  let k := s.queue q
  s.setQueue q { k with pushed := k.pushed.filter fun p => p.id ≠ id }

/-- The records of a queue end as cancelled without starting (R383): those that have reached the command processor at once, a replay whose
graph header has not been read when that has been, and those of its ring that a KICK covers when they have been read, which alone shows the
counters that they name. -/
def State.cancelRecords (s : State) (q : Nat) : State :=
  let k := s.queue q
  let recs := k.headRecord s.nextReplay ++ k.pushed
  let unread (p : Pushed) : Bool := (recordCounter p.words).isNone && p.counter.isNone
  let s := (({ s with nextReplay := s.nextReplay + 1 } : State).setQueue q
    { k with record := none, captured := none, graph := none, cancelTo := k.kicked
             pushed := (recs.filter unread).map fun p => { p with cancelled := true } }).dropCp fun i =>
    i == q || recs.any fun p => i == itemOf p.id 1024
  (recs.filter fun p => !unread p).foldl (fun t p => t.endRecord q k.job p.words p.counter 2) s

/-- Every item of a job (R367). -/
def State.cancelJob (s : State) (job : Nat) : State :=
  let s := (s.launches.filter fun l => l.job == job).foldl (fun t l => t.cancelLaunch l.num 2) s
  let s := (s.replays.filter fun r => r.job == job).foldl (fun t r => t.cancelReplay r.id) s
  let s := s.cancelWaiting fun g => g.job == job
  let s := (s.phases.filter fun p => p.job == job).foldl (fun t p => t.cancelPhase p.id) s
  (s.queues.filter fun q => q.2.job == job).foldl (fun t q => t.cancelRecords q.1) s

end Sys2Proof.Machine
end

