-- ==== Sys2Proof/Machine/Paging.lean ====
section
/-! DEFINITION. The paging instructions (R80 to R84). -/

namespace Sys2Proof.Machine

/-! ### Horizons (R75, R81) -/

/-- The horizon of a change that became visible at `tv` (R81). -/
def horizon (domain : Bool) (lt : Nat) (tv : Word) : Word :=
  tv + word (leaseOf lt + if domain then 2 * Config.epsDomain + Config.fabricDrain else 2 * Config.epsModule)

/-- The result of `lhz`, written in the new task (R81). -/
def State.lhzAct (s : State) (domain : Bool) (d : SReg) (lt : Nat) : Out := (s.modCur fun u => u.setS d (horizon domain lt s.time)).doneC

def State.lhz (s : State) (domain : Bool) (d a : SReg) : Out :=
  let x := s.cur.getS a
  s.issue { ok := bits x 63 4 == 0, touch := [s.cur.keyS d, s.cur.keyS a], live := s.cur.namedS d } fun t =>
    t.withCommit (.lhz domain d x.toNat) false fun t => t.lhzAct domain d x.toNat

/-- `lhz.m` (R81). -/
def execLhzM (d a : SReg) (s : State) : Out := s.lhz false d a
/-- `lhz.d` (R81). -/
def execLhzD (d a : SReg) (s : State) : Out := s.lhz true d a

/-! ### lwait (R82) -/

/-- `lwait` (R82): it completes on the first turn at TIME ≥ s[a]. -/
def execLwait (a : SReg) (s : State) : Out :=
  let t := s.cur.getS a
  s.issue { touch := [s.cur.keyS a] } fun s =>
    if t.toNat ≤ s.time.toNat then s.doneC else (s.modCur fun u => { u with wait := .lwait t }).wait

/-- LWAIT_EXPIRE: the unit's `lwait` completes once TIME has reached its operand (R82). -/
def execLwaitExpire (s : State) : Out :=
  match s.cur.wait with
  | .lwait t =>
    if t.toNat ≤ s.time.toNat then onNext ((s.modCur fun u => { u with wait := .run }).doneC) (State.aged s.ids) else s.wait
  | .run => .next s
  | .atTime _ => .next s
  | .lbank _ _ _ => .next s
  | .fenceE _ => .next s
  | .bar _ _ => .next s
  | .gang _ => .next s
  | .retire _ _ => .next s
  | .nonspec => .next s
  | .stopped => .next s

/-! ### ptw (R83) -/

/-- What `ptw` writes: the size code and the physical address, or 2^63 + CAUSE; none while a lock holds an entry (R60, R318). -/
def State.ptwResult (s : State) (job va : Nat) : Option Word :=
  match s.walkLeaf job va with
  | .wait => none
  | .fault c _ => some (word (2 ^ 63 + c.number))
  | .leaf e _ level =>
    if !tsrSup s.cur.tsr && !pteU e then some (word (2 ^ 63 + Cause.permission.number))
    else if pteSw e && !s.cur.secure then some (word (2 ^ 63 + Cause.world.number))
    else some (word (pteSize e * 2 ^ 56 + leafPa e (levelBits level) va % 2 ^ 56))

/-- `ptw` (R83): it caches nothing, sets neither A nor D, and posts nothing. -/
def execPtw (d a b : SReg) (s : State) : Out :=
  let va := s.cur.getS a
  let j := s.cur.getS b
  s.issue { sup := true, ok := bits va 63 56 == 0 && bits j 63 12 == 0, touch := [s.cur.keyS d, s.cur.keyS a, s.cur.keyS b],
            live := s.cur.namedS d } fun t =>
    match t.ptwResult j.toNat va.toNat with
    | some x => (t.modCur fun u => u.setS d x).doneC
    | none => t.wait

/-! ### frep (R84) -/

/-- The memory-fault trap of a fault answered FAIL. -/
def Fault'.trap (f : Fault') : TrapInfo :=
  { trap := .memoryFault, faddr := f.va, sub := BitVec.ofNat 8 f.cause.number, td := f.committing }

/-- A FAIL reply reaches the unit: it traps at the faulting instruction, precisely or late, or at the committing one, whose task
is discarded. -/
def Unit.failed (u : Unit) (f : Fault') : Unit :=
  if f.committing then { u with commit := none, owed := u.owed ++ [f.trap] }
  else if f.pend = 0 then { u with owed := u.owed ++ [{ f.trap with beyond := decide (f.item ≠ 0) }] }
  else { u with pend := u.pend.map fun p => if p.id = f.pend then { p with failed := some (p.trap f.trap) } else p }

/-- What a FAIL or CANCEL reply withdraws (R352): the refused request of the access leaves its lane, a perform of a commit that is
visible already as well. -/
def State.withdrawFault (s : State) (f : Fault') : State :=
  (s.dropAsked fun r => r.commit && r.posted && r.loc == f.loc && r.lseq + 1 == f.item && r.va == f.va.toNat).withdrawHoles
    fun h => h.loc == f.loc && h.va == f.va.toNat

/-- A FAIL reply (R84): a unit's trap, or the error code that an engine reports. -/
def State.failReply (s : State) (f : Fault') : State :=
  match f.src with
  | .worker => (s.withdrawFault f).modUnits (fun u => u.is f.loc f.launch) fun u => u.failed f
  | .wain => (s.withdrawFault f).modUnits (fun u => u.is f.loc f.launch) fun u => u.failed f
  | .copy =>
    let c := clusterId f.loc.die f.loc.cluster
    let k := s.cluster c
    let mark (r : CopyRun) : CopyRun :=
      if r.req.by'.loc = f.loc ∧ r.req.by'.launch = f.launch ∧ r.status.isNone then
        r.fail 12 (word f.cause.number) f.va else r
    s.setCluster c { k with running := k.running.map mark }
  | .rope =>
    let d := s.die f.loc.die
    let stop (r : RopeRun) : RopeRun :=
      { r with ended := some (12, 0, [if r.cmd.fn = .rwalk then word r.pushed else 0, word f.cause.number, f.va]) }
    s.setDie f.loc.die { d with rope := d.rope.map stop }
  | .slice => s
  | .cp => { s with cpFails := Sparse.put s.cpFails f.item (f.cause.number, f.va) }

/-- The item that a read of the command processor serves is cancelled (R444): a record at the head of its queue, which is passed
over with its queue frozen where it has not been read, or a replay. -/
def State.cancelItem (s : State) (item : Nat) : State :=
  if item < 64 then
    let k := s.queue item
    match k.record with
    | some ws =>
      (s.setQueue item { k with record := none, captured := none, graph := none }).endRecord item k.job ws k.headCounter 2
    | none => (s.setQueue item { k with head := k.head + 1, state := 2 }).settleJob k.job
  else
    let id := itemReplay item
    match s.pushedBy id with
    | some (q, p) => (s.dropPushed q id).endRecord q (s.queue q).job p.words p.counter 2
    | none => (s.cancelWaiting fun g => g.id == id).cancelReplay id

/-- A CANCEL reply (R84): the requester's launch, or the item that a read of the command processor serves, is cancelled. -/
def State.cancelReply (s : State) (f : Fault') : State :=
  let s := s.withdrawFault f
  if f.launch ≠ 0 then s.cancelLaunch f.launch 2
  else
    match f.src with
    | .cp => s.cancelItem f.item
    | .copy =>
      let k := s.cluster (clusterId f.loc.die f.loc.cluster)
      match (k.running.filterMap fun r => r.req.node).head? with
      | some (id, _) => s.cancelReplay id
      | none => s
    | .worker => s
    | .wain => s
    | .rope => s
    | .slice => s

/-- The outstanding fault of the acting unit's cluster with a token. -/
def State.faultOf (s : State) (token : Nat) : Option Fault' :=
  s.faults.find? fun f => f.token == token && (gleanerOf f.src f.loc).1 == s.cur.clusterId

/-- A reply delivered: the fault is no longer outstanding, and the unit no longer waits for it. What it faulted on is tried again by a
RETRY: an access of a slice begins a new walk (R84). -/
def State.reply (s : State) (f : Fault') (action : Nat) : State :=
  let s := { s with faults := s.faults.filter (· ≠ f) }
  let s := s.modUnits (fun u => u.is f.loc f.launch) fun u => { u with mail := u.mail.filter (· ≠ f.token) }
  if action = 1 then s.failReply f
  else if action = 2 then s.cancelReply f
  else
    match f.req with
    | some r => s.joinWalk r
    | none => s

/-- `frep` (R84). -/
def execFrep (d a b : SReg) (s : State) : Out :=
  let x := s.cur.getS a
  let y := s.cur.getS b
  s.issue { sup := true, ok := bits x 63 16 == 0 && decide (y.toNat ≤ 2), touch := [s.cur.keyS d, s.cur.keyS a, s.cur.keyS b],
            live := s.cur.namedS d } fun t =>
    match if x = 0 then none else t.faultOf x.toNat with
    | none => (t.modCur fun u => u.setS d 1).doneC
    | some f => ((t.reply f y.toNat).modCur fun u => u.setS d 0).doneC

end Sys2Proof.Machine
end

