-- ==== Sys2Proof/Machine/Traps.lean ====
section
/-! DEFINITION. The trap and system instructions (R400, R401) and the counter instructions (R389, R390). -/

namespace Sys2Proof.Machine

/-- `trap` (R401): SYSCALL, with the immediate in FADDR. -/
def execTrap (i : BitVec 16) (s : State) : Out := s.issue {} fun t => t.raise { trap := .syscall, faddr := i.zeroExtend 64 }
/-- `brk` (R401). -/
def execBrk (i : BitVec 16) (s : State) : Out := s.issue {} fun t => t.raise { trap := .brk, faddr := i.zeroExtend 64 }

/-- `rte` (R401): where the window below is not resident it is filled in a turn of its own (R189). -/
def execRte (s : State) : Out :=
  s.issue { sup := true, addr := [if s.cur.depth = 1 then some (s.bundleTrap .windowUnderflow) else none] } fun t =>
    if t.cur.saved.isEmpty then t.fillWindow.wait else .next t.leaveTrap

/-- `tkill` (R401): the unit retires once its released commands have reported (R231). -/
def execTkill (i : BitVec 16) (s : State) : Out :=
  s.issue { sup := true } fun t => (t.discard.modCur fun u => { u with wait := .retire i true }).wait

/-! ### Counters (R390) -/

/-- own(c): the unit's job owns the counter, or the unit runs at supervisor privilege. -/
def State.own (s : State) (c : Nat) : Bool := (s.counter c).owner == s.cur.job || tsrSup s.cur.tsr

/-- The operands that `crd` takes. -/
def State.crdOk (s : State) (x : Word) : Bool :=
  bits x 63 14 == 0 && (if x.getLsbD 13 then bits x 12 0 == 0 else s.own (bits x 11 0))

/-- What `crd` reads: the retired units of the launch, a counter's status, or its word. -/
def State.crdValue (s : State) (x : Word) : Word :=
  if x.getLsbD 13 then
    match s.curLaunch with
    | some l => word l.retired
    | none => 0
  else if x.getLsbD 12 then (s.counter (bits x 11 0)).stat else (s.counter (bits x 11 0)).word

/-- `crd` (R390). -/
def execCrd (d a : SReg) (s : State) : Out :=
  let x := s.cur.getS a
  s.issue { ok := s.crdOk x, touch := [s.cur.keyS d, s.cur.keyS a], live := s.cur.namedS d } fun t =>
    (t.modCur fun u => u.setS d (t.crdValue x)).doneC

/-- A counter that a unit may wait on or signal, and a count that fits (R390). -/
def State.countOk (s : State) (c n : Word) : Bool := decide (c.toNat ≤ 4095) && s.own c.toNat && !n.getLsbD 63

/-- `cwait` (R390): it waits on later turns until COUNT has reached the target or ERR is set. -/
def execCwait (d a b : SReg) (s : State) : Out :=
  let c := s.cur.getS a
  let n := s.cur.getS b
  s.issue { ok := s.countOk c n, touch := [s.cur.keyS d, s.cur.keyS a, s.cur.keyS b], live := s.cur.namedS d } fun t =>
    let k := (t.counter c.toNat).word
    if n.toNat ≤ bits k 62 0 ∨ k.getLsbD 63 then (t.modCur fun u => u.setS d k).doneC else s.wait

/-- `csig` (R390): the signal is held until the commit. -/
def execCsig (a b : SReg) (s : State) : Out :=
  let c := s.cur.getS a
  let n := s.cur.getS b
  s.issue { ok := s.countOk c n, touch := [s.cur.keyS a, s.cur.keyS b] } fun t => t.push .yes (.signal c.toNat n) false

/-- `cset` (R390). -/
def execCset (a b : SReg) (s : State) : Out :=
  let x := s.cur.getS a
  let w := s.cur.getS b
  s.issue { sup := true, ok := bits x 63 28 == 0 && bits x 15 12 == 0, touch := [s.cur.keyS a, s.cur.keyS b] } fun t =>
    (t.setCounter (bits x 11 0) { word := w, stat := 0, owner := bits x 27 16 }).doneC

/-- The replay of the acting unit's launch. -/
def State.curReplay (s : State) : Option Replay :=
  match s.curLaunch with
  | none => none
  | some l =>
    match l.node with
    | none => none
    | some (id, _) => s.replay? id

/-- The levels that `lcancel` takes: a unit of the launch, or a level that the launch has (R390). -/
def State.lcancelOk (s : State) (x : Word) : Bool :=
  let lvl := bits x 63 60
  bits x 59 16 == 0 && decide (lvl ≤ 4) && (lvl == 0 || bits x 15 0 == 0) &&
    (lvl != 0 || (match s.curLaunch with
      | some l => decide (bits x 15 0 < l.nu + l.spawned)
      | none => false)) &&
    (lvl != 2 || s.curReplay.isSome) &&
    (lvl != 3 || (match s.curReplay with
      | some r => r.phase.isSome
      | none => false))

/-- The released commands of units end with CANCELLED, and their outstanding faults are answered as CANCEL (R84, R383). -/
def State.cancelWork (s : State) (mine : Unit → Bool) : State :=
  let own (l : Loc) (n : BitVec 32) : Bool := s.units.any fun u => mine u && u.is l n
  let s := s.cancelCommands fun i => own i.loc i.launch
  { s with faults := s.faults.filter fun f => !own f.loc f.launch }

/-- One unit of a launch cancelled (R367, R383): placed, it retires at its next bundle boundary; waiting or pre-empted, it
retires without being placed or restored. -/
def State.cancelUnit (s : State) (launch : BitVec 32) (n : Nat) : State :=
  let mine (u : Unit) : Bool := u.placed && u.launch == launch && u.unit == word n
  if s.waiting.any fun p => p.launch == launch && p.unit == n then
    { s with waiting := s.waiting.filter fun p => !(p.launch == launch && p.unit == n) }.modLaunch launch fun l =>
      { (l.fail 2 0xFFFF n) with retired := l.retired + 1 }
  else if s.units.any fun u => mine u && u.away then
    ((s.modLaunch launch fun l => l.fail 2 0xFFFF n).cancelWork mine).cancelAway launch fun u => u.unit == word n
  else (s.cancelWork mine).modUnits mine fun u => { u with cancelled := true, mail := [] }

/-- A level cancelled by `lcancel` (R383, R390); a unit that cancels itself does not go on. -/
def State.lcancelAct (s : State) (level unit : Nat) : Out :=
  let l := s.cur.launch
  let t :=
    if level = 0 then s.cancelUnit l unit
    else if level = 1 then s.cancelLaunch l 2
    else if level = 4 then s.cancelJob s.cur.job
    else
      match s.curReplay with
      | none => s
      | some r =>
        if level = 2 then s.cancelReplay r.id
        else
          match r.phase with
          | some p => s.cancelPhase p
          | none => s
  if t.cur.cancelled then t.wait else t.doneC

/-- `lcancel` (R390): level 4 needs supervisor privilege. -/
def execLcancel (a : SReg) (s : State) : Out :=
  let x := s.cur.getS a
  s.issue { ok := s.lcancelOk x, touch := [s.cur.keyS a] } fun t =>
    if bits x 63 60 = 4 ∧ !tsrSup t.cur.tsr then t.raise (t.bundleTrap .privilege)
    else t.withCommit (.lcancel (bits x 63 60) (bits x 15 0)) false fun t => t.lcancelAct (bits x 63 60) (bits x 15 0)

end Sys2Proof.Machine
end

