-- ==== Sys2Proof/Machine/UnitEvents.lean ====
section
/-! DEFINITION. What happens to a unit between its instructions: incomplete lookahead instructions (R41 to R43), late and
MATRIX_DATA traps (R42, R299, R324), eager spills (R189), commits under way (R316 to R319), aborts and non-speculative runs (R324
to R328), the end of a cancelled unit (R383), and the illegal encoding (R51). -/

namespace Sys2Proof.Machine

/-! ### Incomplete instructions (R41, R346) -/

/-- The incomplete instruction `id` of the acting unit, changed. -/
def State.setPend (s : State) (id : Nat) (f : Pend → Pend) : State :=
  s.modCur fun u => { u with pend := u.pend.map fun p => if p.id = id then f p else p }

/-- A value for an incomplete instruction. -/
def Pend.gets (xs : List VWord) (p : Pend) : Pend := { p with values := some xs }

/-- An incomplete instruction tried: what it waits for may have come. An access that R346 keeps in order waits for the earlier
ones of its unit. -/
def State.tryPend (s : State) (p : Pend) : State :=
  if p.ready then s
  else
    match p.act with
    | .load ea size signed vector tid seen =>
      match s.loadBytes ea size p.id p.id tid seen with
      | .ok t b => t.setPend p.id (Pend.gets [loadValue vector signed size b])
      | .wait t => t
      | .trap t i => t.setPend p.id fun p => { p with failed := some (p.trap i) }
    | .pop q vector st =>
      match s.popFor q vector st with
      | some (x, t) => t.setPend p.id (Pend.gets [x])
      | none => s
    | .qwait q st =>
      let n := (s.elemsAt q st).length
      if 0 < n then s.setPend p.id (Pend.gets [sval (word (min n 4095))]) else s
    | .wcwait n => if s.cur.wcnt ≤ n then s.setPend p.id (Pend.gets [sval (word s.cur.wcnt)]) else s
    | .atomic op t ea y cmp =>
      match s.access p.id op t ea y cmp with
      | .ok s old => s.setPend p.id (Pend.gets (atomicValues t old))
      | .wait s => s
      | .atHub s => s.setPend p.id fun p => { p with act := .far ea (typeBytes t) }
      | .trap s i => s.setPend p.id fun p => { p with failed := some (p.trap i) }
    | .sc op m z ea y cmp ta =>
      match s.announce p.id op m z ea y cmp ta with
      | .ok s old => s.setPend p.id fun p => p.gets (scValues p.dests old)
      | .wait s => s
      | .atHub s => s.setPend p.id fun p => { p with act := .far ea (scBytes z) }
      | .trap s i => s.setPend p.id fun p => { p with failed := some (p.trap i) }
    | .rope c => if s.cur.orderedBefore p.id then s else (s.releaseRope c).setPend p.id fun p => { p with act := c.fn.awaits }
    | .record => s
    | .far _ _ => s
    | .answer => s

/-- A fault that an incomplete instruction met is still to be answered (R79). -/
def State.faulted (s : State) (p : Pend) : Bool := s.faults.any fun f => f.pend == p.id && s.cur.mail.contains f.token

/-- Every incomplete instruction of the acting unit tried, in issue order: each access may meet a fault of its own, and only one whose
fault is still to be answered waits (R79). -/
def State.tryPends (s : State) : State := s.cur.pend.foldl (fun (t : State) p => if t.faulted p then t else t.tryPend p) s

/-- An instruction whose window has closed: nothing of it remains to be issued, and the unit stands between bundles; with a
lookahead of 0 it has none (R41). One that has failed closes at the next boundary between bundles (R42). -/
def Unit.closed (u : Unit) (p : Pend) : Bool := p.hold || ((p.left == 0 || p.failed.isSome) && !u.aslot)

/-- The instructions that are complete and whose windows have closed write their destinations (R41). -/
def Unit.completeClosed (u : Unit) : Unit :=
  let done (p : Pend) : Bool := p.ready && u.closed p && !(p.hold && p.failed.isSome)
  { u.pend.foldl (fun v p => if done p then v.complete p else v) u with pend := u.pend.filter fun p => !done p }

/-- LOOKAHEAD_COMPLETE (R41): what has completed writes its pending destinations once its window has closed; inside the window
they stay pending. -/
def execLookaheadComplete (s : State) : Out := .next (s.tryPends.modCur Unit.completeClosed)

/-! ### Owed traps -/

/-- An instruction whose lookahead of 0 ended in a failure has had no effect: its unit stands before its bundle. -/
def State.undoHold (s : State) (p : Pend) : State :=
  s.modCur fun u => { u.goto p.pc false with pend := u.pend.filter fun x => x.id ≠ p.id }

/-- An instruction whose lookahead of 0 ended in a failure raises its trap precisely, at its own bundle (R42). -/
def State.holdTrap (s : State) (p : Pend) (t : TrapInfo) : Out :=
  let s' := s.undoHold p
  if s'.settled then .next (s'.enterTrap t) else s.wait

/-- A unit that leaves its wait withdraws its arrival at a barrier, and its place among the `lbank`s of its cluster. -/
def State.leaveWait (s : State) : State :=
  match s.cur.wait with
  | .bar b gen =>
    s.modLaunch s.cur.launch fun l =>
      let x := l.barrier b
      if x.gen = gen ∧ 0 < x.arrived then { l with barriers := Sparse.put l.barriers b { x with arrived := x.arrived - 1 } } else l
  | .run => s
  | .lwait _ => s
  | .atTime _ => s
  | .lbank _ _ _ => s.leaveLbanks
  | .fenceE _ => s
  | .gang _ => s
  | .retire _ _ => s
  | .nonspec => s
  | .stopped => s

/-- A trap that is taken between bundles comes ahead of the unit's wait, but for a stopped slot and a unit that a trap has ended: the
waiting instruction re-executes after the trap (R299, log 42). -/
def Wait.yields : Wait → Bool
  | .run => true | .lwait _ => true | .atTime _ => true | .fenceE _ => true | .bar _ _ => true | .gang _ => true
  | .retire _ trapped => !trapped
  | .lbank _ _ _ => true | .nonspec => true | .stopped => false

/-- The window in which a unit that waits to run non-speculatively begins to wait again when a handler has returned (R299, R328). -/
def Unit.comesBack (u : Unit) : Option Nat :=
  match u.wait with
  | .nonspec => some u.depth
  | .run => none
  | .lwait _ => none
  | .atTime _ => none
  | .lbank _ _ _ => none
  | .fenceE _ => none
  | .bar _ _ => none
  | .gang _ => none
  | .retire _ _ => none
  | .stopped => none

/-- The unit leaves its wait, and a commit that is not visible, which gives its locks back: the instruction issues again after the trap that
the unit now takes. -/
def State.leaveFor (s : State) : State :=
  (if s.cur.commit.isSome then s.relock else s).leaveWait.modCur fun u =>
    { u with wait := .run, commit := none, nonspecBack := if u.comesBack.isSome then u.comesBack else u.nonspecBack }

/-- A trap that is owed is taken now: a late one only between bundles (R42), and none in the visible phase of a commit (R316). -/
def Unit.owesTrap (u : Unit) : Bool :=
  !u.visible && u.wait.yields && (match u.owed with
    | [] => false
    | t :: _ => !t.late || !u.aslot)

/-- LATE_TRAP (R42): the unit takes the trap that an incomplete instruction has left, a late one only between bundles, also in a wait or in
a commit that is not visible; a trap with TD discards the task. -/
def execLateTrap (s : State) : Out :=
  match s.cur.owed with
  | [] => .next s
  | t :: rest =>
    if !s.cur.owesTrap then .next s
    else if s.settled then .next ((s.leaveFor.modCur fun u => { u with owed := rest }).enterTrap t)
    else s.wait

/-- A MATRIX_DATA trap is taken now (R299, R324): between bundles, ahead of a waiting instruction and of a commit that has not become
visible; after an abort with TD = 1 at the restart point. -/
def State.owesMatrix (s : State) : Bool :=
  !s.cur.owedMatrix.isEmpty && !s.cur.visible && Wait.yields s.cur.wait && (!s.cur.aslot || s.cur.owedTd)

/-- MATRIX_DATA: an unhandled array error is taken; a commit that waits gives its locks back, and its instruction issues again, as does one
whose trap is still owed. -/
def execMatrixData (s : State) : Out :=
  match s.cur.owedMatrix with
  | [] => .next s
  | w :: rest =>
    if !s.owesMatrix then .next s
    else if !s.settled then s.wait
    else
      let td := s.cur.owedTd
      .next ((s.leaveFor.modCur fun u =>
          { u with owedMatrix := rest, owedTd := false, owed := u.owed.filter fun t => t.late || t.beyond }).enterTrap
        { trap := .matrixData, faddr := w, td })

/-! ### Eager spills (R189) -/

/-- With four windows resident, the oldest is spilled, unless it holds a pending destination or the stack has no room. -/
def State.eagerSpill (s : State) : State :=
  if s.cur.saved.length + 1 < Config.residentWindows || s.touches s.cur.oldestKeys then s else s.spillOldest.getD s

/-- EAGER_SPILL: what an unused turn does (R189). -/
def execEagerSpill (s : State) : Out := .next s.eagerSpill

/-! ### Commits under way -/

/-- What follows a commit, by the instruction that made it (R224). -/
def State.contAct (s : State) (c : Cont) (lone : Bool) : Out :=
  match c with
  | .tcommit => s.doneC
  | .tbegin _ _ => s.doneC
  | .ret => .next s
  | .atC _ => s.atcDone
  | .atomic op t la d ea y cmp => s.atomicAct op t la d ea y cmp lone
  | .sc op m z la d ea y cmp => s.scAct op m z la d ea y cmp lone
  | .lhz domain d lt => s.lhzAct domain d lt
  | .lbank d bank w => s.lbankAct d bank w
  | .lrng g w => s.lrngAct g w
  | .rope la d c => s.ropeAct la d c
  | .fence e i => s.fenceAct e i
  | .bar b n => s.barAct b n
  | .lcancel level unit => s.lcancelAct level unit
  | .gang w => s.gangAct w
  | .exit code => s.exitAct code

/-- COMMIT_VISIBLE: the unit's commit goes on: it is prepared, becomes visible, and ends, as far as it can (R316 to R319). A marked task
that is not visible yet is to be aborted instead, and one with a fault outstanding waits for its reply (R79, R316, R324). Where it ends, the
C-slot of the committing bundle has issued (R41). -/
def execCommitVisible (s : State) : Out :=
  match s.cur.commit with
  | none => .next s
  | some (c, lone) =>
    if (s.cur.marked && !s.cur.visible && !s.cur.task.nonspec) || !s.cur.mail.isEmpty then .next s
    else
      let out := s.withCommit c lone fun t => t.contAct c lone
      if c = .ret then out else onNext out (State.aged s.ids)

/-! ### Aborts and non-speculative runs -/

/-- The unit stands at a bundle boundary (R36, R41). -/
def Unit.atBoundary (u : Unit) : Bool := !u.aslot

/-- Conflict aborts in a row after which a task waits to run non-speculatively (R327). -/
def abortLimit : Nat := 8

/-- TASK_ABORT: a marked task is discarded at its unit's next bundle boundary and reruns from its restart point (R324); the
eighth time in a row it waits to run non-speculatively (R327). A MATRIX_DATA trap that is owed is kept. -/
def execTaskAbort (s : State) : Out :=
  if !s.cur.marked || s.cur.visible || s.cur.task.nonspec || !s.cur.atBoundary then .next s
  else
    let n := s.cur.aborts + 1
    let now := s.time
    .next (s.discard.restart.modCur fun u =>
      { u with
        aborts := n
        owedTd := !u.owedMatrix.isEmpty
        wait := if abortLimit ≤ n then .nonspec else .run
        nonspecSince := now })

/-- A waiting task whose domain holds no lower uncommitted timestamp, as its die knows it (R328). -/
def State.mayRunAlone (s : State) (u : Unit) : Bool :=
  u.placed && u.wait == .nonspec && decide (u.task.tstamp.toNat ≤ s.lowest u.loc.die u.launch)

/-- The order among waiting tasks: the earliest wait, then die, cluster, core and slot (R328). -/
def waitsBefore (u v : Unit) : Bool :=
  let key (x : Unit) : List Nat := [x.nonspecSince.toNat, x.loc.die, x.loc.cluster, x.loc.core, x.loc.slot]
  scBefore.less (key u) (key v)

/-- NONSPEC_RUN: the acting unit's waiting task receives the module's token and runs non-speculatively, where no other waiting
task stands before it (R328). -/
def execNonspecRun (s : State) : Out :=
  if s.token.isNone && s.mayRunAlone s.cur && !s.others.any (fun u => s.mayRunAlone u && waitsBefore u s.cur) then
    .next { s with
      token := some s.cur.loc
      cur := { s.cur with wait := .run, turn := .ran, task := { s.cur.task with nonspec := true } } }
  else s.wait

/-! ### The end of a cancelled unit (R383) -/

/-- An access beyond a commit that is on its way and cannot be taken back: one that is still to be sent, or whose home has refused it, can
(R383). -/
def Act.sent : Act → Bool
  | .load _ _ _ _ _ _ => false
  | .pop _ _ _ => false
  | .qwait _ _ => false
  | .wcwait _ => false
  | .atomic _ _ _ _ _ => false
  | .sc _ _ _ _ _ _ _ => false
  | .rope _ => false
  | .record => true
  | .far _ _ => true
  | .answer => true

/-- A cancelled unit may retire now: no commit of it is visible, its task is not non-speculative, and its accesses beyond a commit
have been answered. -/
def State.mayCancel (s : State) : Bool :=
  s.cur.placed && s.cur.cancelled && !s.cur.visible && !s.cur.task.nonspec && s.cur.atBoundary &&
    s.cur.pend.all fun p => !Act.sent p.act || p.ready

/-- UNIT_CANCEL_RETIRE: a cancelled unit discards its task and retires at its next bundle boundary with code 0xFFFF; a visible
commit stands, and a non-speculative task commits first. -/
def execUnitCancelRetire (s : State) : Out :=
  if s.mayCancel then .next (s.leaveWait.discard.retire 2 0xFFFF) else .next s

/-! ### Illegal encodings (R35, R51) -/

/-- ILLEGAL_ENCODING: neither slot of the bundle takes effect; FADDR has bit 0 set where the A-slot is the one reported. -/
def execIllegalEncoding (aslot : Bool) (s : State) : Out :=
  s.raise { trap := .illegalEncoding, faddr := if aslot then s.cur.pc ||| 1 else s.cur.pc }

end Sys2Proof.Machine
end

