-- ==== Sys2Proof/Machine/Records.lean ====
section
/-! DEFINITION. Records and their service (R370 to R376, R387, R444, R445): the reads of the command processor, the checks of launch,
replay and phase records, the order of service, and the start of what a record names. -/

namespace Sys2Proof.Machine

/-! ### Reads of the command processor (R444) -/

/-- The K-die nearer to a hub die. -/
def nearDie (hub : Nat) : Nat := if hub = 0 then 0 else 2

/-- Whose the reads of an item are: user privilege, in the job's world; their faults go to gleaner 1 of cluster 0 of the nearer
K-die. -/
def State.cpIssuer (s : State) (hub job : Nat) : Issuer :=
  { loc := ⟨nearDie hub, 0, 0, 0⟩, job, launch := 0, supervisor := false, secure := (s.jobWord job 3).getLsbD 62 }

/-- The place that the remote requests of an item carry (log 16). -/
def cpLoc (hub item : Nat) : Loc := ⟨nearDie hub, 0, 18, item⟩

/-- A read of the command processor has succeeded, was answered FAIL (CAUSE and VA), or waits. -/
inductive CpRes (α : Type) where
  | ok (x : α) (s : State)
  | fail (cause : Nat) (va : Word) (s : State)
  | wait (s : State)

/-- A read for an item waits for a reply or for another module. -/
def State.cpBusy (s : State) (hub item : Nat) : Bool :=
  (s.faults.any fun f => f.src == .cp && f.item == item) ||
    (s.remotes.any fun r => r.loc == cpLoc hub item && r.answer.isNone)

/-- The reads of an item tried. -/
def State.cpRead {α : Type} (s : State) (hub item job : Nat) (m : EngM α) : CpRes α :=
  match Sparse.find? s.cpFails item with
  | some (c, va) => .fail c va { s with cpFails := s.cpFails.filter fun x => x.1 ≠ item }
  | none =>
    if s.cpBusy hub item then .wait s
    else
      let who := s.cpIssuer hub job
      match m.result { s, src := .cp, who, loc := cpLoc hub item } with
      | .ok x t => .ok x (t.s.dropRemotes (cpLoc hub item))
      | .stop _ s => .wait s
      | .fault acc va c e s =>
        .wait ((s.post { token := 0, src := .cp, loc := who.loc, job, cause := c, acc, va := word va, entry := e, committing := false,
                         pend := 0, item }).getD s)
      | .wait s => .wait s

/-- Words read by virtual address. -/
def engWords (va n : Nat) : EngM (List Word) := do
  let b ← engRead va (8 * n)
  pure (wordsOf b)

/-! ### Launch records (R372, R373) -/

def recWord (ws : List Word) (i : Nat) : Word := ws.getD i 0
def ringRecKind (ws : List Word) : Nat := bits (recWord ws 0) 63 56
def recHdr (ws : List Word) : Nat := bits (recWord ws 0) 55 0
def recCc (ws : List Word) : Bool := (recWord ws 1).getLsbD 48
def recNu (ws : List Word) : Nat := bits (recWord ws 1) 47 32
def recCnt (ws : List Word) : Nat := bits (recWord ws 1) 11 0
def recDies (ws : List Word) : BitVec 6 := BitVec.ofNat 6 (bits (recWord ws 6) 57 52)
def recClusters (ws : List Word) : BitVec 20 := BitVec.ofNat 20 (bits (recWord ws 6) 51 32)
/-- Mode of granted bank b. -/
def recMode (ws : List Word) (b : Nat) : Nat := bits (recWord ws 5) (37 + 2 * b) (36 + 2 * b)

/-- GANG and WGT of the record, or of the kernel header where the record leaves them 0 (R28, R371). -/
def recGang (ws h : List Word) : Nat := let g := bits (recWord ws 1) 31 28; if g = 0 then bits (h.getD 2 0) 3 0 else g
def recWeight (ws h : List Word) : Nat := let g := bits (recWord ws 1) 27 24; if g = 0 then bits (h.getD 2 0) 7 4 else g
def recSealed (ws h : List Word) : Bool :=
  let x := bits (recWord ws 1) 23 22
  if x = 0 then (h.getD 2 0).getLsbD 8 else x == 1

def gangOk (g : Nat) : Bool := g == 1 || g == 2 || g == 4 || g == 8

/-- The places of cores that a launch allows by its KIND, DIE and CLU, slot 0 each: worker cores, the wain cores of the channel
groups of the stacks, or the LPDDR-tier wain cores (R155, R372, log 15). -/
def coresNamed (kind : Nat) (dies : BitVec 6) (clusters : BitVec 20) : List Loc :=
  if kind = 2 then
    if clusters.getLsbD 19 then
      ((upTo 2).filter fun h => dies.getLsbD h).flatMap fun h => (upTo 12).map fun p => ⟨6 + h, 20 + p / 8, p % 8, 0⟩
    else
      ((upTo 6).filter fun d => dies.getLsbD d).flatMap fun d => (upTo 2).flatMap fun k =>
        ((upTo 8).filter fun g => clusters.getLsbD g).map fun g => ⟨d, 20 + k, g, 0⟩
  else
    ((upTo 6).filter fun d => dies.getLsbD d).flatMap fun d => ((upTo 20).filter fun c => clusters.getLsbD c).flatMap fun c =>
      (upTo 8).map fun k => ⟨d, c, k, 0⟩

/-- The world of the block that holds a core (R433). -/
def State.coreSecure (s : State) (l : Loc) : Bool :=
  if l.cluster < Config.clustersPerDie then (s.cluster (clusterId l.die l.cluster)).secure
  else s.secureBlocks.contains (.wain l.die (l.cluster - Config.clustersPerDie) l.core)

/-- The cores that a launch may use: named by its record, and of its job's world (R434). -/
def State.coresAllowed (s : State) (job kind : Nat) (dies : BitVec 6) (clusters : BitVec 20) : List Loc :=
  (coresNamed kind dies clusters).filter fun l => s.coreSecure l == (s.jobWord job 3).getLsbD 62

/-- Slots of a core (R11, R155). -/
def slotsOf (l : Loc) : Nat := if l.cluster < Config.clustersPerDie then Config.slotsPerCore else 4

/-- Slots that the units of a job may hold at once (R370). -/
def State.maxSlot (s : State) (job : Nat) : Nat := let x := bits (s.jobWord job 3) 58 46; if x = 0 then 7680 else x

/-- A launch record that R373 refuses before its header is read. -/
def State.recordBad (s : State) (job : Nat) (ws : List Word) : Bool :=
  let w1 := recWord ws 1
  let w5 := recWord ws 5
  let w6 := recWord ws 6
  let kind := ringRecKind ws
  let cores := s.coresAllowed job kind (recDies ws) (recClusters ws)
  !(kind == 1 || kind == 2) || bits w1 63 49 != 0 || bits w1 21 12 != 0 || bits w6 63 58 != 0 || bits w6 31 0 != 0 ||
    !(bits w1 31 28 == 0 || gangOk (bits w1 31 28)) || decide (8 < bits w1 27 24) || bits w1 23 22 == 3 || recNu ws == 0 ||
    (kind == 1 && (bits w5 35 14 != 0 || (upTo 14).any fun b => recMode ws b == 3)) ||
    (kind == 2 && (bits w6 50 40 != 0 || cores.any fun l => !s.bindOk { loc := l, wain := true } w5)) ||
    recHdr ws % 64 != 0 || !s.jobValid job || (s.counter (recCnt ws)).owner != job || cores.isEmpty

/-- A launch record that R373 refuses with its header. -/
def State.headerBad (s : State) (job : Nat) (ws h : List Word) : Bool :=
  let g := recGang ws h
  let w := recWeight ws h
  let slots := ((s.coresAllowed job (ringRecKind ws) (recDies ws) (recClusters ws)).map slotsOf).sum
  !gangOk g || w == 0 || decide (8 < w) || decide (recNu ws % g ≠ 0) ||
    (recSealed ws h && (decide (slots < recNu ws) || decide (s.maxSlot job < recNu ws)))

/-- A launch starts: it takes the next LAUNCH number and its units wait for slots (R377, R380). Its units begin at a bundle address:
bits [2:0] of TEXT + ENTRY are dropped (R33). DESIGN CHOICE: the spec refuses no such header (log 62). -/
def State.startLaunch (s : State) (job prio : Nat) (queue : Option Nat) (node : Option (Nat × Nat)) (ws h : List Word) : State :=
  let n := s.nextLaunch
  let l : Launch :=
    { num := n, job, kind := ringRecKind ws, entry := word (alignDown (bits (h.getD 0 0) 55 0 + bits (h.getD 1 0) 31 0) 8), nu := recNu ws,
      gang := recGang ws h, weight := recWeight ws h, sealed' := recSealed ws h, counter := recCnt ws, p8 := recWord ws 2,
      p9 := recWord ws 3, p10 := recWord ws 4, word5 := recWord ws 5, dies := recDies ws, clusters := recClusters ws, queue, node,
      prio, progress := s.time }
  { s with
    nextLaunch := n + 1
    launches := s.launches ++ [l]
    waiting := s.waiting ++ (upTo l.nu).map fun u => { launch := n, unit := u, spawn := none } }

/-- DV, DEPC and DEPV of a record allow its start (R372). -/
def State.depMet (s : State) (ws : List Word) : Bool :=
  let w := recWord ws 7
  let k := (s.counter (bits w 62 51)).word
  !w.getLsbD 63 || decide (bits w 50 0 ≤ bits k 62 0) || k.getLsbD 63

/-! ### Graph objects (R384 to R386, R445) -/

/-- A node that R445 refuses by itself: its reserved bits, TYPE, SUCC and ARGS. -/
def nodeBad (nn : Nat) (n : Node) : Bool :=
  let t := n.typ
  bits (n.w 0) 47 0 != 0 || n.w 3 != 0 || t == 0 || decide (7 < t) || (n.succs.any fun x => decide (nn ≤ x)) ||
    (t == 1 && !(bits (n.w 8) 63 56 == 1 || bits (n.w 8) 63 56 == 2)) ||
    ((t == 3 || t == 4) && bits (n.w 4) 63 12 != 0) ||
    (t == 6 && (decide (nn ≤ n.first) || decide (nn ≤ n.last) || decide (n.last < n.first) || bits (n.w 5) 63 33 != 0 ||
      n.w 6 == 0 || decide (65535 < n.maxit))) ||
    (t == 7 && (decide (nn ≤ bits (n.w 5) 15 0) || bits (n.w 5) 63 20 != 0 || n.w 6 == 0 || decide (16 < (n.w 6).toNat) ||
      decide (16 < bits (n.w 5) 19 16 + (n.w 6).toNat)))

/-- The body of LOOP node `i` breaks R386: the node lies inside it, LAST has a successor, or an edge crosses its border. -/
def bodyBad (ns : List Node) (i : Nat) (n : Node) : Bool :=
  let inside (j : Nat) : Bool := decide (n.first ≤ j) && decide (j ≤ n.last)
  n.typ == 6 && (inside i || !(ns.getD n.last { words := [] }).succs.isEmpty ||
    (ns.mapIdx fun j x => x.succs.any fun t => inside t != inside j).any fun x => x)

/-- Node `i` of a graph is refused (R445): by itself, or for its body. -/
def nodeRefused (ns : List Node) (i : Nat) (n : Node) : Bool := nodeBad ns.length n || bodyBad ns i n

def graphBad (ns : List Node) : Bool := (ns.mapIdx (nodeRefused ns)).any fun x => x

/-- A patch entry: node, word and value (R387). -/
def patchNodes (ns : List Node) (ps : List (Nat × Nat × Word)) : List Node :=
  ps.foldl (fun l (n, w, x) => modNode l n fun k => { k with words := k.words.set w x }) ns

/-- A graph object's header: NN, REENT, the counter, and whether R445 refuses it (R384). -/
structure GraphHead where
  nn : Nat
  reent : Bool
  counter : Nat
  bad : Bool
  deriving DecidableEq, Repr

def graphHead (va : Nat) : EngM GraphHead := do
  let w ← engWords va 8
  let w0 := w.getD 0 0
  let w1 := w.getD 1 0
  let nn := bits w0 15 0
  pure { nn, reent := w0.getLsbD 16, counter := bits w1 11 0,
         bad := bits w0 63 17 != 0 || bits w1 63 12 != 0 || ((w.drop 2).any fun x => x != 0) || nn == 0 || decide (1024 < nn) }

/-- The nodes of a graph object (R384). -/
def graphNodes (va nn : Nat) : EngM (List Node) := do
  let w ← engWords (va + 64) (16 * nn)
  pure ((chunksOf 16 nn w).map fun c => { words := c })

/-- A graph object read whole: its header, and its nodes with the patches applied unless R445 refuses one of them. -/
def graphRead (va : Nat) (ps : List (Nat × Nat × Word)) : EngM (GraphHead × Option (List Node)) := do
  let h ← graphHead va
  if h.bad then pure (h, none)
  else do
    let ns ← graphNodes va h.nn
    let p := patchNodes ns ps
    if graphBad ns || (ps.any fun x => decide (h.nn ≤ x.1)) || graphBad p then pure (h, none) else pure (h, some p)

/-- A replay record captured (R387, R445): its graph and patch entries, and whether it is refused; `note` keeps the counter of the header
once that has been read (R444). -/
def captureReplay (note : Nat → State → State) (ws : List Word) : EngM (Captured × Bool) := do
  let va := recHdr ws
  let h ← graphHead va
  modify fun t => { t with s := note h.counter t.s }
  let np := bits (recWord ws 1) 63 48
  let g := [(word va, h.counter, h.reent)]
  if bits (recWord ws 1) 47 0 != 0 || decide (256 < np) || (((ws.drop 3).take 4).any fun x => x != 0) then
    pure ({ graphs := g, patches := [] }, true)
  else do
    let l ← engWords (recWord ws 2).toNat (2 * np)
    let es := chunksOf 2 np l
    let ps := es.map fun e => (bits (e.getD 0 0) 63 48, bits (e.getD 0 0) 47 44, e.getD 1 0)
    let (_, ns) ← graphRead va ps
    pure ({ graphs := g, patches := ps }, ns.isNone || es.any fun e => bits (e.getD 0 0) 43 0 != 0)

/-- A phase record captured (R375, R445). -/
def capturePhase (ws : List Word) : EngM (Captured × Bool) := do
  let vas := ((ws.drop 1).take 6).filter fun x => x != 0
  let bad := bits (recWord ws 0) 55 12 != 0 || vas.any fun x => bits x 63 56 != 0
  if bad then pure ({ graphs := [], patches := [] }, true)
  else
    vas.foldlM (fun (a : Captured × Bool) va => do
      let (h, ns) ← graphRead va.toNat []
      pure ({ a.1 with graphs := a.1.graphs ++ [(va, h.counter, h.reent)] }, a.2 || ns.isNone)) ({ graphs := [], patches := [] }, false)

/-! ### The head of a queue (R374, R375) -/

/-- The head record leaves the queue. -/
def State.popRecord (s : State) (q : Nat) : State := s.setQueue q { s.queue q with record := none, captured := none, graph := none }

/-- The queue is frozen, and word 5 of its descriptor shows the fault (R444). -/
def State.freezeFault (s : State) (q cause : Nat) (va : Word) : State :=
  s.setQueue q { s.queue q with state := 2, fcause := cause, fva := word (bits va 55 0) }

/-- The queue is frozen with HEAD at the record that it holds, as for a ring record that cannot be read (R444, R445). -/
def State.freezeAt (s : State) (q cause : Nat) (va : Word) : State :=
  let k := s.queue q
  let k := if k.record.isSome then { k with head := k.head - 1 } else k
  (s.setQueue q { k with record := none, captured := none, graph := none }).freezeFault q cause va

/-- Where a record stands that is captured: at the head of its queue, or among the pushed ones under the number of its reads. -/
inductive RecAt where
  | head
  | pushed (id : Nat)
  deriving DecidableEq, Repr

/-- The item under which the command processor makes the reads of a record (log 18). -/
def RecAt.item (q : Nat) : RecAt → Nat
  | .head => q
  | .pushed id => itemOf id 1024

/-- A pushed record changed. -/
def State.modPushed (s : State) (q id : Nat) (f : Pushed → Pushed) : State :=
  let k := s.queue q
  s.setQueue q { k with pushed := k.pushed.map fun p => if p.id = id then f p else p }

/-- The counter of a record's graph header kept, what has been captured of it, and the record gone from its queue. -/
def State.noteGraph (s : State) (q : Nat) : RecAt → Nat → State
  | .head, c => s.setQueue q { s.queue q with graph := some c }
  | .pushed id, c => s.modPushed q id fun p => { p with graph := some c }
def State.setCaptured (s : State) (q : Nat) (c : Captured) : RecAt → State
  | .head => s.setQueue q { s.queue q with captured := some c }
  | .pushed id => s.modPushed q id fun p => { p with captured := some c }
def State.dropRecord (s : State) (q : Nat) : RecAt → State
  | .head => s.popRecord q
  | .pushed id => s.dropPushed q id
/-- The counter of a record's graph, where its header has been read. -/
def State.graphOf (s : State) (q : Nat) : RecAt → Option Nat
  | .head => (s.queue q).headCounter
  | .pushed id => ((s.queue q).pushed.find? fun p => p.id == id).bind Pushed.counter

/-- What is read of a replay or phase record when it is captured; of another kind nothing. -/
def captureRead (q : Nat) (x : RecAt) (ws : List Word) : Option (EngM (Captured × Bool)) :=
  if ringRecKind ws = 3 then some (captureReplay (fun c s => s.noteGraph q x c) ws)
  else if ringRecKind ws = 4 then some (capturePhase ws) else none

/-- A replay or phase record captured at the moment it reaches the command processor (R387), or as soon as its reads have been answered: it is
refused at once, or waits for its turn with what has been captured (R445). -/
def State.captureAt (s : State) (q : Nat) (x : RecAt) (ws : List Word) : State :=
  let hub := hubOfQueue q
  let job := (s.queue q).job
  match captureRead q x ws with
  | none => s
  | some m =>
    match s.cpRead hub (x.item q) job m with
    | .wait t => t
    | .ok (c, bad) t => if bad then (t.dropRecord q x).endRecord q job ws (c.graphs.head?.map fun g => g.2.1) 6 else t.setCaptured q c x
    | .fail c va t =>
      match (if ringRecKind ws = 4 then recordCounter ws else t.graphOf q x) with
      | some n => (t.dropRecord q x).endRecord q job ws (some n) 6
      | none => match x with
        | .head => t.freezeAt q c va
        | .pushed _ => t.freezeFault q c va

/-- The eight words of the ring record at HEAD. -/
def ringRecord (k : Queue) : EngM (List Word) := engWords (k.base.toNat + 64 * (k.head.toNat % max 1 k.size)) 8

/-- A ring record of a cancelled job (R383): it is read for the counter that it names, a replay's from its graph header, and ends as
cancelled without starting. One that cannot be read names none and is passed over. -/
def State.readCancelled (s : State) (q : Nat) (k : Queue) : State :=
  let read : EngM (List Word × Option Nat) := do
    let ws ← ringRecord k
    if ringRecKind ws = 3 then do
      let h ← graphHead (recHdr ws)
      pure (ws, some h.counter)
    else pure (ws, none)
  match s.cpRead (hubOfQueue q) q k.job read with
  | .ok (ws, c) t => ((t.setQueue q { t.queue q with head := k.head + 1 }).endRecord q k.job ws c 2).settleJob k.job
  | .fail _ _ t => ((t.setQueue q { t.queue q with head := k.head + 1 }).freeze q).settleJob k.job
  | .wait t => t

/-- RING_RECORD_READ (R374, R375, R444): the next record of an active queue reaches the command processor: one that device code
pushed, at its place and once it has been captured, or the ring record at HEAD, which is captured at once; a FAIL freezes the queue. The ring records of a cancelled job are taken in a frozen
queue as well. -/
def execRingRecordRead (q : Nat) (s : State) : Out :=
  let k := s.queue q
  if k.record.isSome then .next s
  else if k.head.toNat < k.cancelTo.toNat then .next (s.readCancelled q k)
  else if k.state ≠ 1 then .next s
  else
    match k.pushed with
    | p :: rest =>
      if p.cancelled then .next s
      else if p.mark ≤ k.head.toNat then
        (if (captureRead q .head p.words).isSome && p.captured.isNone then .next s
         else .next (s.setQueue q { k with record := some p.words, captured := p.captured, ringRecord := false, pushed := rest }))
      else ring k
    | [] => ring k
where
  /-- The ring record at HEAD, which a KICK has covered. -/
  ring (k : Queue) : Out :=
    if k.head.toNat < k.kicked.toNat then
      match s.cpRead (hubOfQueue q) q k.job (ringRecord k) with
      | .ok ws t =>
        .next ((t.setQueue q { t.queue q with record := some ws, captured := none, graph := none, ringRecord := true, head := k.head + 1 }).captureAt
          q .head ws)
      | .fail c va t => .next (t.freezeAt q c va)
      | .wait t => .next t
    else .next s

/-- A launch's own queue (R375). -/
def State.ownQueue (s : State) (l : Launch) : Option Nat :=
  match l.queue with
  | some q => some q
  | none =>
    match l.node with
    | none => none
    | some (id, _) => (s.replay? id).map fun r => r.queue

/-- A record of device code joins a queue at the tail (R375) and is captured; one that R445 refuses ends at once. -/
def State.joinQueue (s : State) (q : Nat) (ws : List Word) : State :=
  let k := s.queue q
  let id := s.nextReplay
  (({ s with nextReplay := id + 1 } : State).setQueue q { k with
    pushed := k.pushed ++ [{ mark := max k.kicked.toNat k.head.toNat, words := ws, id }]
    state := if k.state = 0 then 1 else k.state }).captureAt q (.pushed id) ws

/-- A unit has a whole record among its released words. -/
def Unit.hasRecord (u : Unit) : Bool := u.placed && decide (8 ≤ u.q11.length)

/-- The complete records of a unit reach the command processor, in order, and free their places (R375). -/
def State.joinUnit (s : State) (u : Unit) : State :=
  match (s.launch? u.launch).bind s.ownQueue with
  | none => s
  | some q =>
    let n := u.q11.length / 8
    let t := s.modUnits (fun v => v.is u.loc u.launch) fun v => { v with q11 := v.q11.drop (8 * n) }
    (chunksOf 8 n u.q11).foldl (fun (t : State) ws => t.joinQueue q ws) t

/-- Every complete record reaches the command processor at its 8th word (R375). -/
def State.joinRecords (s : State) : State := (s.units.filter Unit.hasRecord).foldl State.joinUnit s

/-- Q11_RECORD (R375): eight released words of a slot complete a record, which joins the launch's own queue at the tail. -/
def execQ11Record (l : Loc) (s : State) : Out :=
  match s.units.find? fun u => u.loc == l && u.hasRecord with
  | none => .next s
  | some u => .next (s.joinUnit u)

/-! ### Capture (R387, R445) -/

/-- The record of a queue, of a kind, that is captured next: the head, or a pushed one; in a frozen queue only a cancelled one, whose graph
header is still to be read. -/
def State.toCapture (s : State) (hub kind q : Nat) : Option (RecAt × List Word × Bool) :=
  let k := s.queue q
  let head := match k.record with
    | some ws => if ringRecKind ws = kind ∧ k.captured.isNone ∧ k.state = 1 ∧ !s.cpBusy hub q then some (RecAt.head, ws, false) else none
    | none => none
  match head with
  | some x => some x
  | none =>
    (k.pushed.find? fun p => ringRecKind p.words == kind && p.captured.isNone && (p.cancelled || k.state != 2) &&
        !s.cpBusy hub (itemOf p.id 1024)).map fun p => (.pushed p.id, p.words, p.cancelled)

/-- The header of a cancelled replay's graph read, for the counter that advances (R383). -/
def State.readHeader (s : State) (hub q : Nat) (x : RecAt) (ws : List Word) : State :=
  let job := (s.queue q).job
  match s.cpRead hub (x.item q) job (graphHead (recHdr ws)) with
  | .wait t => t
  | .ok h t => (t.dropRecord q x).endRecord q job ws (some h.counter) 2
  | .fail _ _ t => (t.dropRecord q x).endRecord q job ws none 2

/-- The queue of a hub that holds a record of a kind to be captured next. -/
def State.captureQueue (s : State) (hub kind : Nat) : Option (Nat × RecAt × List Word × Bool) :=
  (s.queues.filter fun q => hubOfQueue q.1 == hub).findSome? fun q => (s.toCapture hub kind q.1).map fun x => (q.1, x)

/-- The capture of a record that waited for its reads goes on. -/
def State.capture (s : State) (hub : Nat) (x : Nat × RecAt × List Word × Bool) : State :=
  if x.2.2.2 then s.readHeader hub x.1 x.2.1 x.2.2.1 else s.captureAt x.1 x.2.1 x.2.2.1

/-! ### Replays (R384, R387, R388) -/

/-- A graph that waits ends without running, for a REASON: its counter advances, and its phase goes on or its queue is frozen
(R382, R383, R445). -/
def State.endGraphRec (s : State) (hub : Nat) (g : GraphRec) (reason : Nat) : State :=
  let err := some (statWord 0 reason 0)
  let k := s.hub hub
  let s := s.setHub hub { k with graphs := k.graphs.filter fun x => x.id ≠ g.id }
  match g.phase with
  | some p => (s.endItem g.job g.counter err).phaseNext p err
  | none =>
    let q := s.queue g.queue
    (s.setQueue g.queue { q with replays := q.replays.filter (· ≠ g.id) }).endTop g.queue g.job g.counter err

/-- A waiting graph may start: at most 16 replays run on its hub, and no earlier replay of the same object is unfinished unless
REENT = 1 (R387). A replay record that has been served starts nothing while its queue is frozen (R382). -/
def State.mayReplay (s : State) (hub : Nat) (g : GraphRec) : Bool :=
  g.cancelled ||
    ((g.phase.isSome || (s.queue g.queue).state != 2) &&
      decide ((s.replays.filter fun r => r.hub == hub).length < 16) && !s.cpBusy hub (itemOf g.id 1024) &&
      (g.reent || !((s.replays.any fun r => r.job == g.job && r.graph == g.graph) ||
        ((s.hub hub).graphs.any fun x => decide (x.id < g.id) && x.job == g.job && x.graph == g.graph))))

/-- A replay starts on its own copy of the nodes, patched (R387). -/
def State.startReplay (s : State) (hub : Nat) (g : GraphRec) : State :=
  if g.cancelled then s.endGraphRec hub g 2
  else
    match s.cpRead hub (itemOf g.id 1024) g.job (graphRead g.graph.toNat g.patches) with
    | .wait t => t
    | .fail _ _ t => t.endGraphRec hub g 6
    | .ok (_, none) t => t.endGraphRec hub g 6
    | .ok (h, some ns) t =>
      let k := t.hub hub
      { t.setHub hub { k with graphs := k.graphs.filter fun x => x.id ≠ g.id } with
        replays := t.replays ++ [{ id := g.id, hub, queue := g.queue, job := g.job, graph := g.graph, counter := g.counter,
                                   reent := h.reent, nodes := ns, phase := g.phase }] }

/-- GRAPH_REPLAY (R387, R445): a replay record whose capture has waited is captured and checked; else a waiting graph starts its
replay. -/
def execGraphReplay (hub : Nat) (s : State) : Out :=
  match s.captureQueue hub 3 with
  | some x => .next (s.capture hub x)
  | none =>
    match (s.hub hub).graphs.find? fun g => s.mayReplay hub g with
    | some g => .next (s.startReplay hub g)
    | none => .next s

/-- PHASE_RECORD (R375, R445): a phase record whose capture has waited is captured and checked. -/
def execPhaseRecord (hub : Nat) (s : State) : Out :=
  match s.captureQueue hub 4 with
  | some x => .next (s.capture hub x)
  | none => .next s

/-! ### The order of service (R374, R376) -/

/-- The record that a queue started last has completed. -/
def State.lastDone (s : State) (k : Queue) : Bool :=
  match k.last with
  | none => true
  | some (kind, n) =>
    if kind = 1 then (s.launch? (BitVec.ofNat 32 n)).isNone
    else if kind = 2 then (s.replay? n).isNone && !(s.hubs.any fun h => h.2.graphs.any fun g => g.id == n)
    else !(s.phases.any fun p => p.id == n)
/-- It has started; a replay starts when it has its copy (R387). -/
def State.lastStarted (s : State) (k : Queue) : Bool :=
  match k.last with
  | none => true
  | some (kind, n) => kind != 2 || !(s.hubs.any fun h => h.2.graphs.any fun g => g.id == n)

/-- The head record of a queue can start (R374). -/
def State.eligible (s : State) (q : Nat) : Bool :=
  let k := s.queue q
  match k.record with
  | none => false
  | some ws =>
    let graph := ringRecKind ws == 3 || ringRecKind ws == 4
    k.state == 1 && s.depMet ws && (!graph || k.captured.isSome) &&
      (s.lastDone k || (!graph && recCc ws && s.lastStarted k))

/-- Full milliseconds of TIME between two moments. -/
def fullMs (since now : Word) : Nat := (now.toNat - since.toNat) / 1000000

/-- Effective priority of the head (R376). -/
def Queue.effective (k : Queue) : Nat := min 7 (k.pri + k.aged)

/-- PRIORITY_AGING (R376): each full millisecond for which an eligible head has not started raises its priority by 1. -/
def Queue.age (k : Queue) (now : Word) : Queue :=
  match k.since with
  | none => k
  | some t => { k with aged := max k.aged (fullMs t now) }
def execPriorityAging (q : Nat) (s : State) : Out := .next (s.setQueue q ((s.queue q).age s.time))

/-- A core is one of those that a running sealed launch of another number was placed on (R379). -/
def State.sealedBy (s : State) (launch : BitVec 32) (core : Nat) : Bool :=
  s.launches.any fun x => x.sealed' && x.num != launch && x.cores.contains core

/-- No unit placed on a core after the unit left it is still there (R410), and no running sealed launch keeps the core (R379). -/
def State.slotFreeFor (s : State) (u : Unit) : Bool :=
  !(s.units.any fun v => v.coreId == u.coreId && !v.away && decide (u.awayAt < v.placedAt)) && !s.sealedBy u.launch u.coreId

/-- A pre-empted unit that could resume. -/
def State.couldResume (s : State) (launch : BitVec 32) : Bool :=
  s.units.any fun u => u.away && u.launch == launch && s.slotFreeFor u

/-- The launches of a queue that have units to resume. -/
def State.resumables (s : State) (q : Nat) : List (BitVec 32) :=
  (s.launches.filter fun l => s.ownQueue l == some q && s.couldResume l.num && !(s.queue q).resuming.contains l.num).map fun l => l.num

/-- What the model keeps of each queue at every step: since when its head is eligible, since when a pre-empted launch could resume,
the aging, and IDLE once nothing of the queue is left. -/
def State.watchQueue (s : State) (q : Nat) (k : Queue) : Queue :=
  let e := s.eligible q
  let since := if e then some (k.since.getD s.time) else none
  let k : Queue := { k with since, aged := if e then k.aged else 0 }
  let rs := s.resumables q
  let resumeSince := rs.map fun l => (l, ((k.resumeSince.find? fun x => x.1 == l).map fun x => x.2).getD s.time)
  let k : Queue := Queue.age { k with resumeSince } s.time
  let left := k.left || !k.running.isEmpty || !k.replays.isEmpty || !k.phases.isEmpty
  if k.state = 1 ∧ !left then { k with state := 0 } else k

/-- Every queue watched. -/
def State.watchQueues (s : State) : State := { s with queues := s.queues.map fun q => (q.1, s.watchQueue q.1 q.2) }

/-- An entry of the arbitration: its effective priority, its queue, and the pre-empted launch that it stands for. -/
structure Entry where
  prio : Nat
  queue : Nat
  resume : Option (BitVec 32)
  deriving DecidableEq, Repr

/-- The entries of a hub, a queue's resumptions ahead of its head (R376). -/
def State.entries (s : State) (hub : Nat) : List Entry :=
  (s.queues.filter fun q => hubOfQueue q.1 == hub).flatMap fun (q, k) =>
    (k.resumeSince.map fun x => { prio := min 7 (k.pri + fullMs x.2 s.time), queue := q, resume := some x.1 }) ++
      (if s.eligible q && !s.cpBusy hub q then [{ prio := k.effective, queue := q, resume := none }] else [])

/-- The queue that has the turn: it keeps it for up to QW records, and then it passes in queue number order (R376). -/
def wrr (turn count qw : Nat) (qs : List Nat) : Option (Nat × Nat) :=
  if qs.contains turn && decide (count < max 1 qw) then some (turn, count + 1)
  else
    match (qs.filter fun q => decide (turn < q)).min? with
    | some q => some (q, 1)
    | none => qs.min?.map fun q => (q, 1)

/-- The entry that is served next, with the turn that then stands for its priority (R376). -/
def State.arbitrateQueues (s : State) (hub : Nat) : Option (Entry × Nat × Nat) :=
  let es := s.entries hub
  match (es.map fun e => e.prio).max? with
  | none => none
  | some p =>
    let top := es.filter fun e => e.prio == p
    let h := s.hub hub
    let (turn, count) := (Sparse.find? h.turns p).getD (0, 0)
    match wrr turn count (s.queue turn).qw (top.map fun e => e.queue) with
    | none => none
    | some (q, n) => (top.find? fun e => e.queue == q).map fun e => (e, q, n)

/-- A record starts: the queue notes what it started. -/
def State.served (s : State) (q : Nat) (last : Option (Nat × Nat)) (f : Queue → Queue) : State :=
  s.setQueue q (f { s.queue q with record := none, captured := none, graph := none, since := none, aged := 0, last })

/-- A launch record is served: checked with its header, it is refused or its launch begins (R373, R376). -/
def State.serveLaunch (s : State) (hub q prio : Nat) (ws : List Word) : State :=
  let job := (s.queue q).job
  let refuse (t : State) : State := (t.popRecord q).endRecord q job ws none 6
  if s.recordBad job ws then refuse s
  else
    match s.cpRead hub q job (engWords (recHdr ws) 8) with
    | .wait t => t
    | .fail _ _ t => refuse t
    | .ok h t =>
      if t.headerBad job ws h then refuse t
      else
        let n := t.nextLaunch
        (t.startLaunch job prio (some q) none ws h).served q (some (1, n.toNat)) fun k => { k with running := k.running ++ [n] }

/-- A captured replay or phase record is served. -/
def State.serveGraph (s : State) (hub q kind : Nat) (ws : List Word) (c : Captured) : State :=
  let id := s.nextReplay
  let k := s.queue q
  let s := { s with nextReplay := id + 1 }
  if kind = 3 then
    match c.graphs with
    | (va, counter, reent) :: _ =>
      let s := s.served q (some (2, id)) fun k => { k with replays := k.replays ++ [id] }
      let h := s.hub hub
      s.setHub hub { h with graphs := h.graphs ++
        [{ id, counter, reent, queue := q, job := k.job, graph := va, patches := c.patches }] }
    | [] => s.popRecord q
  else
    let s := s.served q (some (3, id)) fun k => { k with phases := k.phases ++ [id] }
    let s : State := { s with phases := s.phases ++ [{ id, queue := q, job := k.job, counter := bits (recWord ws 0) 11 0, rest := c.graphs }] }
    s.phaseNext id none

/-- RECORD_SERVE (R376): the entry of the highest effective priority is served: a head record starts its placement, a pre-empted
launch its resumption. -/
def execRecordServe (hub : Nat) (s : State) : Out :=
  match s.arbitrateQueues hub with
  | none => .next s
  | some (e, turn, n) =>
    let h := s.hub hub
    let t := s.setHub hub { h with turns := Sparse.put h.turns e.prio (turn, n) }
    let k := t.queue e.queue
    match e.resume with
    | some l =>
      .next (t.setQueue e.queue { k with resuming := k.resuming ++ [l], resumeSince := k.resumeSince.filter fun x => x.1 ≠ l })
    | none =>
      match k.record, k.captured with
      | some ws, some c => .next (t.serveGraph hub e.queue (ringRecKind ws) ws c)
      | some ws, none => .next (t.serveLaunch hub e.queue e.prio ws)
      | none, _ => .next t

end Sys2Proof.Machine
end

