-- ==== Sys2Proof/Machine/Kicks.lean ====
section
/-! DEFINITION. The KICK words (R374, R418) with the handover of regions of host memory (R356), and writes to the hub registers
(R416). -/

namespace Sys2Proof.Machine

/-- A KICK word from its fields (R374). -/
def kickWord (cmd q arg : Nat) : Word := word (cmd * 2 ^ 56 + q * 2 ^ 50 + arg)
def kickCmd (w : Word) : Nat := bits w 63 56
def kickQ (w : Word) : Nat := bits w 55 50
def kickArg (w : Word) : Nat := bits w 31 0

/-- KICK_REFUSED (R418): the word is copied to KERR and has no other effect. -/
def execKickRefused (hub : Nat) (w : Word) (s : State) : Out := .next (s.setHub hub { s.hub hub with kerr := w })

/-- A command on a queue of the hub; one of another hub is refused (R374). -/
def State.onQueue (s : State) (hub cmd : Nat) (q : BitVec 6) (arg : Nat) (k : State → State) : Out :=
  if hubOfQueue q.toNat = hub then .next (k s) else execKickRefused hub (kickWord cmd q.toNat arg) s

/-- Kick SUBMIT (R374): TAIL takes the argument, and an idle queue becomes active. -/
def execSubmit (hub : Nat) (q : BitVec 6) (arg : BitVec 32) (s : State) : Out :=
  s.onQueue hub 1 q arg.toNat fun s =>
    let k := s.queue q.toNat
    let t := arg.zeroExtend 64
    s.setQueue q.toNat { k with tail := t, kicked := t, state := if k.state = 0 then 1 else k.state }

/-- Kick UNFREEZE (R374, R382): a frozen queue goes on at HEAD. -/
def execUnfreeze (hub : Nat) (q : BitVec 6) (s : State) : Out :=
  s.onQueue hub 2 q 0 fun s =>
    let k := s.queue q.toNat
    s.setQueue q.toNat { k with state := if k.state = 2 then 1 else k.state }

/-- Kick CANCEL (R374, R383): every running item of the queue. -/
def execCancel (hub : Nat) (q : BitVec 6) (s : State) : Out := s.onQueue hub 3 q 0 fun s => s.cancelQueue q.toNat

/-- A job number above 4095 has no record: the word is refused (R370, R374). -/
def jobRefused (w : Word) : Bool := kickCmd w == 4 && decide (4096 ≤ kickArg w)

/-- Kick ENDJOB (R367, R369, R374): the job has no further items; those it has are cancelled, and it completes with the last. -/
def execEndjob (hub : Nat) (arg : BitVec 32) (s : State) : Out :=
  let job := arg.toNat
  if 4096 ≤ job then execKickRefused hub (kickWord 4 0 job) s
  else
    let t : State := { s with ended := if s.ended.contains job then s.ended else s.ended ++ [job] }
    .next ((t.cancelJob job).settleJob job)

/-! ### Handover (R356, R418) -/

/-- A region of a hub, changed. -/
def State.modRegion (s : State) (hub n : Nat) (f : Region → Region) : State :=
  let h := s.hub hub
  s.setHub hub { h with regions := Sparse.put h.regions n (f (h.region n)) }

/-- Device accesses to a region are outstanding (R354, R356): atomics at its hub, held reductions of a visible phase among them, and
announced SC operations. Stores and engine writes of this module are performed at the hub in the step that issues them, so that none
of them is ever outstanding. -/
def State.regionBusy (s : State) (hub n : Nat) : Bool :=
  let h := s.hub hub
  let r := h.region n
  let base := localOf r.base.toNat
  let inside (pa : Nat) : Bool := s.isLocal pa && decide (base ≤ localOf pa) && decide (localOf pa < base + r.size * 65536)
  (h.atomics.any fun a => inside a.pa) || s.announced.any fun a => a.known && inside a.pa

/-- A transition waits for the device's outstanding accesses: it leaves DEVICE, or SHARED-ATOMIC for HOST (R356). -/
def drainsFirst (state to' : Nat) : Bool := state == 1 || (state == 2 && to' == 0)

/-- Every way of the module drops its words of a region. -/
def State.dropRegion (s : State) (hub n : Nat) : State :=
  let r := (s.hub hub).region n
  let base := localOf r.base.toNat
  let mine (w : Nat) : Bool := s.isLocal w && decide (base ≤ localOf w) && decide (localOf w < base + r.size * 65536)
  { s with clusters := s.clusters.map fun (c : Nat × Cluster) => (c.1, c.2.clearWords mine) }

/-- A transition of R356 to state `to'` (0 HOST, 1 DEVICE, 2 SHARED-ATOMIC): the counter advances when it completes, with REASON 6
where it is refused. A region that drains first keeps its KICK word at the head. -/
def State.handoverTo (s : State) (hub cmd to' : Nat) (arg : BitVec 32) : Out :=
  if bits arg 31 18 ≠ 0 then execKickRefused hub (kickWord cmd 0 arg.toNat) s
  else
    let n := bits arg 5 0
    let c := bits arg 17 6
    let state := ((s.hub hub).region n).state
    if state = to' then .next ((s.modRegion hub n fun r => { r with cstat := 2 }).advance c (some (statWord 0 6 0)))
    else if drainsFirst state to' && s.regionBusy hub n then
      .next { s.modRegion hub n fun r => { r with cstat := 1 } with kicks := (hub, kickWord cmd 0 arg.toNat) :: s.kicks }
    else
      let t := if state = 2 then s else s.dropRegion hub n
      .next ((t.modRegion hub n fun r => { r with state := to', cstat := 0 }).advance c none)

/-- Kick TO_DEVICE. -/
def execToDevice (hub : Nat) (arg : BitVec 32) (s : State) : Out := s.handoverTo hub 0x10 1 arg
/-- Kick TO_SHARED. -/
def execToShared (hub : Nat) (arg : BitVec 32) (s : State) : Out := s.handoverTo hub 0x11 2 arg
/-- Kick TO_HOST. -/
def execToHost (hub : Nat) (arg : BitVec 32) (s : State) : Out := s.handoverTo hub 0x12 0 arg

/-! ### The KICK register (R374, R418) -/

/-- A KICK word acted on by its hub; one that is refused goes to KERR as it came (R418). -/
def State.kick (s : State) (hub : Nat) (w : Word) : Out :=
  let q := BitVec.ofNat 6 (kickQ w)
  let arg := BitVec.ofNat 32 (kickArg w)
  let cmd := kickCmd w
  if bits w 49 32 ≠ 0 || (1 ≤ cmd && cmd ≤ 3 && hubOfQueue q.toNat ≠ hub) || jobRefused w then execKickRefused hub w s
  else if cmd = 1 then execSubmit hub q arg s
  else if cmd = 2 then execUnfreeze hub q s
  else if cmd = 3 then execCancel hub q s
  else if cmd = 4 then execEndjob hub arg s
  else if q ≠ 0 then execKickRefused hub w s
  else if cmd = 0x10 then execToDevice hub arg s
  else if cmd = 0x11 then execToShared hub arg s
  else if cmd = 0x12 then execToHost hub arg s
  else execKickRefused hub w s

/-- A KICK word that only marks time: its region still drains and is marked busy. -/
def State.kickWaits (s : State) (hub : Nat) (w : Word) : Bool :=
  let n := bits w 5 0
  let r := (s.hub hub).region n
  r.cstat == 1 && s.regionBusy hub n &&
    ((kickCmd w == 0x12 && drainsFirst r.state 0) || (kickCmd w == 0x11 && drainsFirst r.state 2))

/-- The KICK word that is acted on next: the oldest of a hub that does not wait. -/
def State.nextKick (s : State) : Option (Nat × Word) :=
  let first (h : Nat) : Option (Nat × Word) :=
    match s.kicks.find? fun k => k.1 == h with
    | some k => if s.kickWaits k.1 k.2 then none else some k
    | none => none
  match first 0 with
  | some k => some k
  | none => first 1

/-- REGISTER_WRITE (R415, R416): the host writes a register through BAR0, which answers once the command-processor firmware runs (R438). A
register with no behaviour of its own stores its value; KICK takes its word (R374). -/
def execRegisterWrite (hub : Nat) (off : BitVec 32) (value : Word) (s : State) : Out :=
  if s.boot ≠ .running then .next s else .next (s.hubWrite hub off.toNat value)

end Sys2Proof.Machine
end

