-- ==== Sys2Proof/Machine/Boot.lean ====
section
/-! DEFINITION. Boot (R438 to R440), topology discovery (R431, R432), attestation (R441), worlds and the region table (R434 to R437),
power, cooling and soft errors (R442, R443), and the stop by the debugger (R392). -/

namespace Sys2Proof.Machine

/-! ### The reset sequence (R438 to R440) -/

/-- An image runs: its header gives the length of its body, and both signatures of header and body verify under the keys of the flash (R439). -/
def imageVerifies (i : Config.Image) : Bool :=
  i.len == i.body.length && i.header.length == 256 && i.slh.length == 16224 &&
    Config.rsaVerifies (Config.flashKey 0) (i.header ++ i.body) i.rsa && Config.slhVerifies (Config.flashKey 1) (i.header ++ i.body) i.slh

/-- An image slot of the module flash is accepted: every image of it runs, and none is older than its KIND's rollback counter allows (R439,
R440). -/
def State.slotVerifies (s : State) (slot : Nat) : Bool :=
  (Config.flash slot).all fun i => imageVerifies i &&
    s.hubs.all fun (h : Nat × Hub) => h.2.fuses.all fun f => f.1 != i.kind.toNat || decide (f.2 ≤ i.svn.toNat)

/-- The public keys of the flash are those whose hashes the fuses of both hubs hold (R438). -/
def keysVerify : Bool := (upTo 2).all fun h => (upTo 2).all fun k => Config.sha384 (Config.flashKey k) == Config.keyHash h k

/-- The slot of the running images: A, or B where A fails (R439). -/
def State.imageSlot (s : State) : Nat := if s.slotVerifies 0 then 0 else 1

/-- PERST_RELEASE (R438, R439): Renrak runs its ROM, checks the keys and verifies the images, those of slot B where slot A fails; where
both fail, boot stops. Where a key fails, it stops too. DESIGN CHOICE (log 40). -/
def execPerstRelease (s : State) : Out :=
  if s.boot ≠ .held then .next s
  else .next { s with boot := if keysVerify && (s.slotVerifies 0 || s.slotVerifies 1) then .verified else .stopped }

/-- K_DIE_RELEASE (R438): the K-dies are released and discovery runs. -/
def execKDieRelease (s : State) : Out := .next (if s.boot = .verified then { s with boot := .discovering, releasedAt := s.time } else s)

/-- ROLLBACK_FUSE_BLOW (R440): after a successful boot the counter of a KIND rises to the image's SVN, where the image asks. -/
def execRollbackFuseBlow (hub kind : Nat) (s : State) : Out :=
  match (Config.flash s.imageSlot).find? fun i => i.kind.toNat == kind with
  | some i =>
    if s.boot = .running ∧ i.asks then
      let h := s.hub hub
      .next (s.setHub hub { h with fuses := Sparse.put h.fuses kind (max ((Sparse.find? h.fuses kind).getD 0) i.svn.toNat) })
    else .next s
  | none => .next s

/-! ### Topology discovery (R431, R432) -/

/-- Key of a die port. -/
def diePortKey (die port : Nat) : Nat := die * 16 + port
def State.diePort (s : State) (die port : Nat) : DiePort := (Sparse.find? s.diePorts (diePortKey die port)).getD {}
def State.setDiePort (s : State) (die port : Nat) (x : DiePort) : State :=
  { s with diePorts := Sparse.put s.diePorts (diePortKey die port) x }

/-- Ports of a die of the module: eight of a K-die (R432); a hub die has the four that R10 gives it, and how many more is open (log 26). -/
def portsOf (die : Nat) : Nat := if die < 6 then 8 else max 4 (Config.hubPorts die).toNat

/-- The partner that a port of K-die `d` has on the module (R9, R10, R432): ports 0 and 1 of the dies in columns 0 and 2 reach the hub die
at their end, ports 4, 5 and 6 are the weave links to the lower column, the higher column and the other row. Which two ports of the hub die
belong to row 1 the spec does not say: the model takes 2 and 3. DESIGN CHOICE (log 26). -/
def weavePeer (d port : Nat) : Option (Nat × Nat) :=
  let col := d % 3
  if port < 2 then (if col = 1 then none else some (if col = 0 then 6 else 7, port + 2 * (d / 3)))
  else if port = 4 then (if col = 0 then none else some (d - 1, 5))
  else if port = 5 then (if col = 2 then none else some (d + 1, 4))
  else if port = 6 then some ((d + 3) % 6, 6)
  else none

/-- The partner of a port where the module fixes it: that of a K-die's port, or of the four ports of a hub die that reach K-dies. -/
def wiredPeer (die port : Nat) : Option (Option (Nat × Nat)) :=
  if die < 6 then some (weavePeer die port)
  else if die < 8 ∧ port < 4 then some (some ((if die = 6 then 0 else 2) + 3 * (port / 2), port % 2))
  else none

/-- A UCIe module of a bare K-die, which leads where its integrator has bonded it (R10, R432). -/
def State.exposed (s : State) (die port : Nat) : Bool := s.bare && decide (die < 6) && decide (port < 4)

/-- Two ports may be partners as the module is wired, or as an integrator wires a bare K-die. -/
def State.mayPair (s : State) (die port die' port' : Nat) : Bool :=
  s.exposed die port || (s.bare && decide (6 ≤ die)) ||
    (match wiredPeer die port with
     | some p => p == some (die', port')
     | none => true)

/-- The die to which a message at die `a` goes next on its way to die `b` (R9, R10): along its row and then to the other row; from a hub
die to a K-die by the nearest die of that row, so that the way to K-dies 1 and 4 crosses one weave link (log 41). A die beyond the module
is reached only as a partner. -/
def nextHop (a b : Nat) : Nat :=
  let toward (col : Nat) (last : Nat) : Nat := if a % 3 < col then a + 1 else if col < a % 3 then a - 1 else last
  if b < 6 then
    if a < 6 then toward (b % 3) ((a + 3) % 6)
    else if a < 8 then b / 3 * 3 + (if a = 6 then 0 else 2)
    else b
  else if b < 8 then
    if a < 6 then toward (if b = 6 then 0 else 2) b
    else if a < 8 then (if a = 6 then 0 else 2)
    else b
  else b

/-- Word 0 of a topology entry (R432). -/
def topoWord0 (x : Discover) : Word := word (x.kind * 2 ^ 56 + x.die % 16 * 2 ^ 52 + x.nport % 16 * 2 ^ 48 + x.range.toNat)

/-- What a die of this module declares. -/
def declares (die port : Nat) : Discover := { kind := if die < 6 then 1 else 2, die, port, nport := portsOf die, range := 0 }

/-- An entry of the topology table, PEER all none where it is new. -/
def State.topoEntry (s : State) (die : Nat) : Word × Word := (Sparse.find? s.topo die).getD (0, 0xFFFF_FFFF_FFFF_FFFF)

/-- The partner of port `p` of die `d` recorded in its entry's PEER byte. -/
def State.setPeer (s : State) (x : Discover) (p peer : Nat) : State :=
  let (w0, w1) := s.topoEntry x.die
  let w0 := if w0 = 0 then topoWord0 x else w0
  { s with topo := Sparse.put s.topo x.die (w0, if p < 8 then setBits w1 (8 * p + 7) (8 * p) peer else w1) }

/-- Every die of the module is in the table, or a K-die where the part is a bare one, and every port of these has a partner or none. The ports
of an integrator's dies are its own to report (R430, R431). -/
def State.allResolved (s : State) : Bool :=
  (if s.bare then s.topo.any fun e => decide (e.1 < 6) else (upTo 8).all fun d => (Sparse.find? s.topo d).isSome) &&
    s.topo.all fun e => 3 ≤ bits e.2.1 63 56 ||
      (upTo (bits e.2.1 51 48)).all fun p => (s.diePort e.1 p).peer.isSome || (s.diePort e.1 p).closed

/-- STATUS in entry 0 (R432). -/
def State.markTopo (s : State) (done : Bool) : State :=
  let (w0, w1) := s.topoEntry 0
  { s with topo := Sparse.put s.topo 0 (w0 ||| (if done then word (2 ^ 47) else 0) ||| (if s.mismatch then word (2 ^ 46) else 0), w1) }

/-- A region table taken by every home: bytes that leave the secure world are zeroed first, also where a way holds them (R437). -/
def State.setRegions (s : State) (new : List (Nat × Word × Word)) : State :=
  let leaves (o : Nat) : Bool := secureAt s.secureRegions o && !secureAt new o
  { s with
    secureRegions := new
    mem := s.mem.filter fun c => !leaves c.1
    clusters := s.clusters.map fun c => (c.1, c.2.clearWords fun w => s.isLocal w && leaves (localOf w)) }

/-- Discovery ends once the table is complete: boot stops on MISMATCH; otherwise MODID is written (log 69), the region table is cleared, every
block is non-secure, and the command-processor firmware starts (R438). -/
def State.settleBoot (s : State) : State :=
  if s.boot ≠ .discovering then s
  else if s.mismatch then { s.markTopo false with boot := .stopped }
  else if !s.allResolved then s
  else
    let clear (c : Nat × Cluster) : Nat × Cluster := (c.1, { c.2 with secure := false })
    let t := (s.markTopo true).setRegions []
    { t with
      boot := .running, secureBlocks := []
      modid := word (Config.moduleNumber % Config.modules), numbered := true
      clusters := t.clusters.map clear
      dies := t.dies.map fun (d : Nat × Die) => (d.1, { d.2 with ropeSecure := false })
      hubs := t.hubs.map fun (h : Nat × Hub) => (h.1, { h.2 with secure := false }) }

/-- The bytes of a DISCOVER message: kind, die, port, ports, range (log 13). -/
def discoverData (x : Discover) : List Byte :=
  [BitVec.ofNat 8 x.kind, BitVec.ofNat 8 x.die, BitVec.ofNat 8 x.port, BitVec.ofNat 8 x.nport] ++ bytesOf 6 x.range.toNat

/-- DISCOVER_SEND (R431): the boot agent of a die sends DISCOVER on every port. -/
def execDiscoverSend (die : Nat) (s : State) : Out :=
  let ms := (upTo (portsOf die)).map fun p =>
    (5, 0, ({ sdie := die, ddie := 0, addr := 0, tag := p, exp := 0, data := discoverData (declares die p) } : DieMsg))
  let t := { s with dieOut := s.dieOut ++ ms }
  let (w0, w1) := t.topoEntry die
  .next { t with topo := Sparse.put t.topo die (if w0 = 0 then topoWord0 (declares die 0) else w0, w1) }

/-- DISCOVER_TIMEOUT (R431): a port without an answer 100 µs after the release of the K-dies has no partner. -/
def execDiscoverTimeout (die port : Nat) (s : State) : Out :=
  let p := s.diePort die port
  if p.peer.isSome || s.time.toNat < s.releasedAt.toNat + 100000 then .next s
  else .next (((s.setDiePort die port { p with closed := true }).setPeer (declares die port) port 0xFF).settleBoot)

/-- DIE_MGMT_DISCOVER (R431, R432): the partner of a port is recorded; two dies with one number, or two ports that disagree about their
link, set MISMATCH. A port that the module wires has no partner but the wired one (R9, R10). -/
def execDieMgmtDiscover (die port : Nat) (x : Discover) (s : State) : Out :=
  let p := s.diePort die port
  let far := s.diePort x.die x.port
  let old := (Sparse.find? s.topo x.die).map fun e => e.1 &&& 0xFFFF_3FFF_FFFF_FFFF
  let bad := (old.isSome && old != some (topoWord0 x)) || (p.peer.isSome && p.peer != some (x.die, x.port)) ||
    (far.peer.isSome && far.peer != some (die, port)) || x.die == die ||
    !s.mayPair die port x.die x.port || !s.mayPair x.die x.port die port
  if bad then .next ({ s with mismatch := true } : State).settleBoot
  else
    let t := (s.setDiePort die port { p with peer := some (x.die, x.port), closed := false }).setPeer (declares die port) port
      (x.die % 16 * 16 + x.port % 16)
    .next ((t.setPeer x x.port (die % 16 * 16 + port % 16)).settleBoot)

/-! ### Attestation (R441, R443) -/

/-- The measurements: the SHA-384 digest of each running image, the fused key hashes, the rollback counters, and the log of soft errors. -/
def State.measurements (s : State) (hub : Nat) : List Byte :=
  let h := s.hub hub
  ((Config.flash s.imageSlot).flatMap fun i => bytesOf 48 (Config.sha384 (i.header ++ i.body)).toNat) ++
    ((upTo 2).flatMap fun k => bytesOf 48 (Config.keyHash hub k).toNat) ++ (h.fuses.flatMap fun f => [BitVec.ofNat 8 f.1, BitVec.ofNat 8 f.2]) ++
    h.log.flatMap fun e => bytesOf 4 e.1 ++ bytesOf 4 e.2

/-- A response with its RSA-3072 and its SLH-DSA signature. -/
def State.answerSpdm (s : State) (hub : Nat) (l : List Byte) : State :=
  let h := s.hub hub
  s.setHub hub { h with spdm := (l, Config.rsaSignature hub l, Config.slhSignature hub l) :: h.spdm }

/-- GET_MEASUREMENTS (R441). -/
def execGetMeasurements (hub : Nat) (s : State) : Out := .next (s.answerSpdm hub (s.measurements hub))
/-- CHALLENGE (R441): the response covers the nonce. -/
def execChallenge (hub : Nat) (nonce : BitVec 256) (s : State) : Out :=
  .next (s.answerSpdm hub (bytesOf 32 nonce.toNat ++ s.measurements hub))

/-! ### Worlds (R433 to R437) -/

/-- Entry `i` of the region table without its reserved bits (R435). -/
def regionEntry (w0 w1 : Word) : Word × Word :=
  (word (bits w0 63 62 * 2 ^ 62 + bits w0 45 16 * 65536), word (bits w1 31 0))

/-- The entry put at its number, in order. -/
def putRegion (i : Nat) (e : Word × Word) : List (Nat × Word × Word) → List (Nat × Word × Word)
  | [] => [(i, e)]
  | x :: r => if x.1 = i then (i, e) :: r else if i < x.1 then (i, e) :: x :: r else x :: putRegion i e r

/-- REGION_TABLE_WRITE (R435, R437): every home takes the entry. -/
def execRegionTableWrite (entry : BitVec 8) (w0 w1 : Word) (s : State) : Out :=
  .next (s.setRegions (putRegion entry.toNat (regionEntry w0 w1) s.secureRegions))

/-- No unit occupies a block, and no command that it has released still runs (R434). -/
def State.blockIdle (s : State) : Block → Bool
  | .cluster d c =>
    let k := clusterId d c
    !(s.units.any fun u => u.clusterId == k) && (s.cluster k).running.isEmpty && (s.cluster k).nodeCopies.isEmpty &&
      (upTo 8).all fun p => (s.core (k * 16 + p)).q1.isEmpty
  | .wain d k g =>
    !(s.units.any fun u => u.loc.die == d && u.loc.cluster == Config.clustersPerDie + k && u.loc.core == g) &&
      !((s.cluster (clusterId d (Config.clustersPerDie + k))).running.any fun r => r.req.by'.loc.core == g)
  | .rope d => (s.die d).q5.isEmpty && (s.die d).rope.isNone
  | .command h =>
    !(s.queues.any fun q => hubOfQueue q.1 == h && (!q.2.running.isEmpty || !q.2.replays.isEmpty || !q.2.phases.isEmpty)) &&
      !(s.replays.any fun r => r.hub == h)
  | .hostLink h => (s.hub h).atomics.isEmpty
  | .lpddrCopy p =>
    !((s.cluster (clusterId (6 + p / 12) (Config.clustersPerDie + p % 12 / 8))).running.any fun r => r.req.by'.loc.core == p % 12 % 8)

/-- BLOCK_WORLD_SET (R434): an idle block takes the WORLD bit of the record of the job that starts. -/
def execBlockWorldSet (b : Block) (job : BitVec 12) (s : State) : Out :=
  let secure := (s.jobWord job.toNat 3).getLsbD 62
  if !s.blockIdle b then .next s
  else
    let listed := if secure then (if s.secureBlocks.contains b then s.secureBlocks else s.secureBlocks ++ [b])
      else s.secureBlocks.filter (· ≠ b)
    match b with
    | .cluster d c => .next (s.setCluster (clusterId d c) { s.cluster (clusterId d c) with secure })
    | .rope d => .next (s.setDie d { s.die d with ropeSecure := secure })
    | .command h => .next (s.setHub h { s.hub h with secure })
    | .wain _ _ _ => .next { s with secureBlocks := listed }
    | .hostLink _ => .next { s with secureBlocks := listed }
    | .lpddrCopy _ => .next { s with secureBlocks := listed }

/-! ### Power, cooling and soft errors (R442, R443) -/

/-- POWER_LIMIT: new array grants are held. -/
def execPowerLimit (s : State) : Out := .next { s with powerHold := true }
/-- POWER_BELOW_LIMIT: the hold is lifted. -/
def execPowerBelowLimit (s : State) : Out := .next { s with powerHold := false }
/-- THERMAL_STOP: the module stops until the next reset. -/
def execThermalStop (s : State) : Out := .next { s with stopped := true }

/-- SINGLE_BIT_ERROR: corrected and counted. -/
def execSingleBitError (_die _block : Nat) (s : State) : Out := .next { s with softErrors := s.softErrors + 1 }

/-- DOUBLE_BIT_ERROR: logged with its die and block, and the launch of the access that read it is cancelled with REASON 2. -/
def execDoubleBitError (die block : Nat) (reader : Option (BitVec 32)) (s : State) : Out :=
  let hub := hubOfDie die
  let h := s.hub hub
  let t := s.setHub hub { h with log := h.log ++ [(die, block)] }
  match reader with
  | some l => .next (t.cancelLaunch l 2)
  | none => .next t

/-! ### The debugger (R392) -/

/-- DEBUGGER_STOP: the unit at a place issues nothing from its next bundle boundary on; nothing more of the debugger is given (log 28). -/
def execDebuggerStop (l : Loc) (s : State) : Out :=
  .next (s.modUnits (fun u => u.placed && u.loc == l && !u.away) fun u => { u with debug := true })

end Sys2Proof.Machine
end

