-- ==== Sys2Proof/Machine/Copies.lean ====
section
/-! DEFINITION. The copy engines (R138 to R154, R157): a request's fields and records, the points of its walk, its chunks, and
how it starts, runs and reports. -/

namespace Sys2Proof.Machine

/-! ### The request (R138) -/

/-- The place that a copy's remote requests carry (log 16). -/
def CopyReq.loc (r : CopyReq) : Loc := { r.by'.loc with core := if r.node.isSome then 17 else 32 + r.by'.loc.core }

/-- The request's issuer runs on a wain core (R157). -/
def CopyReq.wain (r : CopyReq) : Bool := decide (Config.clustersPerDie ≤ r.by'.loc.cluster)

/-- The cluster that a copy with FS = 1 names: its own for a worker, any of its die for a wain core of a K-die, any of the
module for one of a hub die (R138, R157). -/
def CopyReq.streamCluster (r : CopyReq) : Option Nat :=
  let die := bits r.w2 19 17
  let c := bits r.w2 16 12
  let l := r.by'.loc
  let ok := if r.wain then decide (l.die ≥ 6) || l.die == die else l.die == die && l.cluster == c
  if bits r.w2 55 20 = 0 ∧ die < Config.dies ∧ c < Config.clustersPerDie ∧ ok then some (clusterId die c) else none

/-- The stream that a copy with FS = 1 names; none where R171 refuses it. -/
def State.copyStream (s : State) (r : CopyReq) : Option Nat :=
  match r.streamCluster with
  | none => none
  | some cl => ((s.cluster cl).stage (bits r.w2 11 0)).map fun (b, st) => cl * 4096 + stageKey b st

/-! ### Layout records (R142, R143) -/

/-- A reserved field of the records, or one that belongs to another kind, is nonzero (R142). -/
def foreignFields (f s : List Word) : Bool :=
  let win := recKind f == 1
  let gather := recKind f == 2
  bits (recW f 0) 59 56 != 0 || (!gather && recBase f != 0) ||
    (if gather then bits (recW f 2) 31 0 != 0 else recW f 2 != 0 || recW f 3 != 0) ||
    bits (recW f 4) 63 32 != 0 || bits (recW f 5) 63 40 != 0 || (!win && (recW f 5 != 0 || recW f 6 != 0)) || recW f 7 != 0 ||
    recW s 4 != 0 || recW s 5 != 0 || recW s 6 != 0 || recW s 7 != 0

/-- An extent, step or dilation is 0 (R143), or OW. DEDUCED (log 38). -/
def zeroFields (f s : List Word) : Bool :=
  (upTo 4).any (fun k => recExtent f k == 0 || recExtent s k == 0) ||
    (recKind f == 1 && (recWin f 15 0 == 0 || recWin f 19 16 == 0 || recWin f 23 20 == 0 || recWin f 35 32 == 0 ||
      recWin f 39 36 == 0))

/-- A request that R143 ends with OPERAND, by its own words. -/
def CopyReq.badWords (r : CopyReq) : Bool :=
  bits r.w0 63 56 != 0 || bits r.w1 63 56 != 0 || bits r.w2 58 56 != 0 || r.frec % 64 != 0 || r.srec % 64 != 0 ||
    (r.tg && (r.stores || r.fs)) || (!r.ts && r.startField != 0)

/-- A request that R143 ends with OPERAND, with its records. -/
def CopyReq.badRecords (r : CopyReq) (f s : List Word) : Bool :=
  let z := recEsz s
  decide (recKind f > 2) || recKind s != 3 || foreignFields f s || zeroFields f s || decide (recPoints f > 2 ^ 32) ||
    recBase s % z != 0 || (upTo 4).any (fun k => recStride s k % z != 0) || recPitch f % z != 0 || (!r.fs && r.dense % z != 0) ||
    (recKind f == 2 && (recBase f % 4 != 0 || [1, 2, 3].any fun k => recStride f k % 4 != 0)) ||
    (recPitch f != 0 && decide (recPitch f < rowBytes f s))

/-! ### Points (R144 to R147) -/

/-- Coordinates of the point with a linear index (R146). -/
def pointOf (f : List Word) (i : Nat) : Nat × Nat × Nat × Nat :=
  let a := recExtent f 0
  let b := recExtent f 1
  let c := recExtent f 2
  (i % a, i / a % b, i / (a * b) % c, i / (a * b * c))

/-- Address of a point's GATHER index (R144). -/
def gatherAddr (f : List Word) (i : Nat) : Option Int :=
  if recKind f = 2 then
    let (_, i1, i2, i3) := pointOf f i
    some (recBase f + i1 * recStride f 1 + i2 * recStride f 2 + i3 * recStride f 3)
  else none

/-- The coordinates that F gives a point, none where it is void; `g` is its GATHER index (R144). -/
def coordsOf (f : List Word) (i : Nat) (g : Int) : Option (List Int) :=
  let (i0, i1, i2, i3) := pointOf f i
  if recKind f = 1 then
    let m := bits (recW f 6) 31 0 + i3
    if m ≥ bits (recW f 6) 63 32 then none
    else
      let ow := recWin f 15 0
      some [(i0 : Int), (m % ow * recWin f 19 16 + i1 * recWin f 35 32 : Nat) - (recWin f 27 24 : Int),
            (m / ow * recWin f 23 20 + i2 * recWin f 39 36 : Nat) - (recWin f 31 28 : Int), 0]
  else if recKind f = 2 then some [(i0 : Int), g, (i2 : Int), (i3 : Int)]
  else some [(i0 : Int), (i1 : Int), (i2 : Int), (i3 : Int)]

/-- An address of the virtual space. -/
def inSpace (a : Int) : Bool := decide (0 ≤ a) && decide (a < 2 ^ 56)

/-- A point of a copy: the addresses of its GATHER index, of its element in the tensor where it is in bounds, and of its element
in the dense side. -/
structure Point where
  gather : Option Nat
  tensor : Option Nat
  dense : Nat
  deriving DecidableEq, Repr

/-- The tensor address of coordinates (R145): `some none` for a point without an element, none where the copy ends with BOUNDS. -/
def fateOf (s : List Word) : Option (List Int) → Option (Option Nat)
  | none => some none
  | some c =>
    if (c.mapIdx fun k x => decide (0 ≤ x) && decide (x < (recExtent s k : Int))).all (fun b => b) then
      let a := (c.mapIdx fun k x => x * recStride s k).foldl (· + ·) (recBase s : Int)
      if inSpace a then some (some a.toNat) else none
    else if recZf s then some none
    else none

/-- Dense address of a point (R147). -/
def denseAddr (r : CopyReq) (f s : List Word) (i : Nat) : Nat :=
  let row := recExtent f 0 * recExtent f 1 * recExtent f 2
  r.dense + i / row * pitchBytes f s + i % row * recEsz s

/-- The 64 KiB regions that the accesses of a chunk lie in (R149), by side, and the bytes it reads and writes. -/
structure ChunkUse where
  gather : Option Nat := none
  tensor : Option Nat := none
  dense : Option Nat := none
  reads : Nat := 0
  writes : Nat := 0
  deriving DecidableEq, Repr

/-- An access joins a side of a chunk; none where it lies in another region. -/
def joinSide (side : Option Nat) (a : Option Nat) (len : Nat) : Option (Option Nat) :=
  match a with
  | none => some side
  | some a =>
    if a / 65536 = (a + len - 1) / 65536 ∧ (side = none ∨ side = some (a / 65536)) then some (some (a / 65536)) else none

/-- Bytes of the dense row pad that follows a point: only after the last point of a row, with ZP and a load to memory (R147). -/
def CopyReq.padAfter (r : CopyReq) (f s : List Word) (i : Nat) : Nat :=
  if r.zp ∧ !r.stores ∧ !r.fs ∧ (i + 1) % (recExtent f 0 * recExtent f 1 * recExtent f 2) = 0 then
    pitchBytes f s - rowBytes f s
  else 0

/-- A point joins a chunk; none where the chunk ends before it (R149). -/
def CopyReq.join (r : CopyReq) (f s : List Word) (i : Nat) (p : Point) (u : ChunkUse) : Option ChunkUse :=
  let z := recEsz s
  let pad := r.padAfter f s i
  let dense : Option Nat := if r.fs ∨ (r.stores ∧ p.tensor.isNone) then none else some p.dense
  match joinSide u.gather p.gather 4, joinSide u.tensor p.tensor z, joinSide u.dense dense (z + pad) with
  | some g, some t, some d =>
    let hit := if p.tensor.isSome then z else 0
    let reads := u.reads + hit + (if p.gather.isSome then 4 else 0)
    let writes := u.writes + if r.stores then hit else z + pad
    if max reads writes ≤ 65536 then some { gather := g, tensor := t, dense := d, reads, writes } else none
  | _, _, _ => none

/-- How the points of a chunk were collected: the points, and whether the next one ends the copy with BOUNDS. -/
structure Collected where
  points : List Point := []
  bounds : Bool := false
  deriving DecidableEq, Repr

/-- A point joins the points of a chunk, with the use that the chunk then makes of its regions, or ends them; a chunk has at least one
point, which a row pad that fits no region leaves alone in its chunk. DEDUCED (log 38). -/
def CopyReq.place (r : CopyReq) (f s : List Word) (i : Nat) (u : ChunkUse) (c : Collected) (gather : Option Nat) (g : Int) :
    Collected × Option ChunkUse :=
  match fateOf s (coordsOf f i g) with
  | none => ({ c with bounds := true }, none)
  | some t =>
    let p : Point := { gather, tensor := t, dense := denseAddr r f s i }
    match r.join f s i p u with
    | some u' => ({ c with points := c.points ++ [p] }, some u')
    | none => (if c.points.isEmpty then { c with points := [p] } else c, none)

/-- The address and the value of a point's GATHER index, or none where the chunk ends before it; it is read once its region is known to
join (R149). -/
def gatherIndex (f : List Word) (i : Nat) (u : ChunkUse) (c : Collected) : EngM (Option (Option Nat × Int) × Collected) :=
  match gatherAddr f i with
  | none => pure (some (none, 0), c)
  | some a =>
    if !inSpace a then pure (none, { c with bounds := true })
    else if (joinSide u.gather (some a.toNat) 4).isNone && !c.points.isEmpty then pure (none, c)
    else do
      let x ← engXlate .read a.toNat
      engFix .read a.toNat x
      let g ← engNum a.toNat 4
      pure (some (some a.toNat, (BitVec.ofNat 32 g).toInt), c)

/-- A chunk's points from index `i` on (R149, R151). -/
def collect (r : CopyReq) (f s : List Word) : Nat → Nat → ChunkUse → Collected → EngM Collected
  | 0, _, _, c => pure c
  | n + 1, i, u, c =>
    if i ≥ recPoints f then pure c
    else do
      let x ← gatherIndex f i u c
      match x.1 with
      | none => pure x.2
      | some (a, g) =>
        match r.place f s i u x.2 a g with
        | (c', some u') => collect r f s n (i + 1) u' c'
        | (c', none) => pure c'

end Sys2Proof.Machine
end

