-- ==== Sys2Proof/Machine/CopyEngine.lean ====
section
/-! DEFINITION. The copy engines at work (R77, R139, R148 to R154, R157): taking a request, its timed start, its chunks, and its
completion. -/

namespace Sys2Proof.Machine

/-! ### What a run waits for -/

/-- The issuer of a copy's accesses: those of a hub-die wain core's copy carry the world of the copy unit of its LPDDR package (R157, R433). -/
def State.copyIssuer (s : State) (q : CopyReq) : Issuer :=
  let l := q.by'.loc
  if q.wain && decide (6 ≤ l.die) then
    { q.by' with secure := s.secureBlocks.contains (.lpddrCopy ((l.die - 6) * 12 + (l.cluster - Config.clustersPerDie) * 8 + l.core)) }
  else q.by'

/-- The work of a copy. Faults of a wain core's copy unit carry SRC 1, that of a copy engine: the table of R78 does not name that unit.
DESIGN CHOICE (log 15). -/
def State.copySt (s : State) (r : CopyRun) : EngSt := { s, src := .copy, who := s.copyIssuer r.req, loc := r.req.loc }

/-- A fault of the copy is still to be answered (R78, R84). -/
def State.copyFaulted (s : State) (r : CopyRun) : Bool :=
  s.faultOut fun f => f.src == .copy && f.loc == r.req.by'.loc && f.launch == r.req.by'.launch

def CopyRun.total (r : CopyRun) : Nat := recPoints r.f
/-- Every point has been performed. -/
def CopyRun.isOver (r : CopyRun) : Bool := !r.f.isEmpty && decide (r.total ≤ r.next) && !r.pushing

def sameRun (a b : CopyRun) : Bool := a.req == b.req
/-- A run of a cluster's engine replaced. -/
def State.setRun (s : State) (cl : Nat) (r : CopyRun) : State :=
  let k := s.cluster cl
  s.setCluster cl { k with running := k.running.map fun x => if sameRun x r then r else x }

/-! ### Taking a request (R148) -/

/-- A translation of a write for each 64 KiB region from `a` to `b`, as the bank that it lies in (R152): none where some byte
lies outside the SCRATCH banks of a Loft, or the banks differ. -/
def denseBank (a b : Nat) : EngM (Option (Nat × Nat × Nat)) :=
  if b - a ≥ 0x8_0000 then pure none
  else
    (upTo (b / 65536 - a / 65536 + 1)).foldlM (fun (o : Option (Option (Nat × Nat × Nat))) i => do
      let va := max a ((a / 65536 + i) * 65536)
      let (pa, _, _) ← engXlate .write va
      let t ← get
      let here : Option (Nat × Nat × Nat) :=
        match regionOf (localOf pa) with
        | .loft d c bk _ => if t.s.isLocal pa && decide (bk < 14) && modeOf ((t.s.cluster (clusterId d c)).configOf bk) == .scratch
            then some (d, c, bk) else none
        | _ => none
      pure (match o with
        | none => some here
        | some x => if x = here then o else some none)) none >>= fun o => pure (o.getD none)

/-- The bank check of TG = 1 (R152, R157): a worker's copy tags its own cluster's bank. -/
def tagCheck (r : CopyReq) (f s : List Word) : EngM Bool := do
  let b ← denseBank r.dense (denseLast r f s)
  let l := r.by'.loc
  pure (match b with
    | none => false
    | some (d, c, _) => if r.wain then decide (l.die ≥ 6) || d == l.die else d == l.die && c == l.cluster)

/-- The records read and checked (R143): a STATUS, or none where the copy may run. -/
def readRecords (r : CopyReq) : EngM (List Word × List Word × Option Nat) := do
  let f ← engRead r.frec 64
  let s ← engRead r.srec 64
  let t ← get
  let f := wordsOf f
  let s := wordsOf s
  if r.badRecords f s || (r.fs && (t.s.copyStream r).isNone) then pure (f, s, some 9)
  else if r.tg then do
    let b ← tagCheck r f s
    pure (f, s, if b then none else some 16)
  else pure (f, s, none)

/-- A taken request reads its records, or waits, or posts a fault; a request cancelled meanwhile ends. -/
def State.loadRecords (s : State) (cl : Nat) (r : CopyRun) : State :=
  if r.cancelled then s.setRun cl (r.fail 13 0 0)
  else if r.req.badWords then s.setRun cl (r.fail 9 0 0)
  else
    match EngM.result (readRecords r.req) (s.copySt r) with
    | .wait t => t
    | .fault a va c e t => t.engineFault .copy r.req.by' a va c e
    | .stop n t => t.setRun cl (r.fail n 0 0)
    | .ok (f, g, st) t =>
      let u := t.s.dropRemotes r.req.loc
      u.setRun cl (match st with
        | some n => { r with f := f, s := g }.fail n 0 0
        | none => { r with f := f, s := g })

/-- The key of a slot in the rotation of R148; the queue of COPY nodes comes after slot 7 of core 7. -/
def CopyReq.key (r : CopyReq) : Nat := if r.node.isSome then 64 else r.by'.loc.core * 8 + r.by'.loc.slot

/-- Head requests that a cluster's engine may take now: no request of their slot runs, or is still to report (R148). -/
def State.copyHeads (s : State) (cl : Nat) : List CopyReq :=
  let k := s.cluster cl
  let free (r : CopyReq) : Bool := !(k.running.any fun x => x.req.key == r.key) && !k.ending.any fun x => x.key == r.key
  ((s.units.filter fun u => u.clusterId == cl).filterMap fun u => u.copies.head?).filter free ++
    (k.nodeCopies.take 1).filter free

/-- The next key in rotation after `last`. -/
def nextKey (last : Nat) (l : List CopyReq) : Option CopyReq :=
  let least (l : List CopyReq) : Option CopyReq := l.foldl (fun o r =>
    match o with
    | none => some r
    | some x => if r.key < x.key then some r else o) none
  match least (l.filter fun r => decide (last < r.key)) with
  | some r => some r
  | none => least l

/-- COPY_START: a request is taken into a run place and its entry is freed (R141, R148). -/
def execCopyStart (die cluster : Nat) (s : State) : Out :=
  let cl := clusterId die cluster
  let k := s.cluster cl
  if cluster < Config.clustersPerDie ∧ 4 ≤ k.running.length then .next s
  else
    match nextKey k.rotation (s.copyHeads cl) with
    | none => .next s
    | some r =>
      let run : CopyRun := { req := r, f := [], s := [], cancelled := r.cancelled, start := if r.ts then startTime r.startField r.released.toNat else 0 }
      let s := if r.node.isSome then s.setCluster cl { k with nodeCopies := k.nodeCopies.drop 1 }
        else s.modUnits (fun u => u.is r.by'.loc r.by'.launch) fun u => { u with copies := u.copies.drop 1 }
      let k := s.cluster cl
      .next ((s.setCluster cl { k with rotation := r.key, running := k.running ++ [run] }).loadRecords cl run)

/-- COPY_TIMED_START: TIME has reached a run's start time, and its data accesses may begin (R139). -/
def execCopyTimedStart (die cluster : Nat) (s : State) : Out :=
  let cl := clusterId die cluster
  match (s.cluster cl).running.find? fun r =>
    r.req.ts && !r.f.isEmpty && r.status.isNone && decide (r.start ≠ 0) && decide (r.start ≤ s.time.toNat) with
  | none => .next s
  | some r => .next (s.setRun cl { r with start := 0 })

/-! ### Chunks (R77, R149) -/

/-- Worst-case transfer time of 64 KiB at the home of an address, in ns (R77). -/
def State.chunkTime (s : State) (pa : Nat) : Nat :=
  if !s.isLocal pa then 16000 + Config.fabricDrain
  else
    match regionOf (localOf pa) with
    | .hbm _ _ => 4000
    | .lpddr _ => 8000
    | .granary _ _ => 2000
    | .loft _ _ _ _ => 2000
    | .hub _ _ => 16000 + Config.fabricDrain
    | .host _ => 16000 + Config.fabricDrain
    | .reserved => 16000 + Config.fabricDrain

/-- A side's lease covers W for `n` bytes, that of its translation or a fresh one; the side then keeps that translation (R69, R77). -/
def leaseCovers (acc : Acc) (n : Nat) (va : Option Nat) : EngM Bool := do
  match va with
  | none => pure true
  | some va =>
    let covers (t : EngSt) (x : Nat × Word × Nat) : Bool := decide (t.s.time.toNat + (t.s.chunkTime x.1 * n + 65535) / 65536 ≤ x.2.2)
    let x ← engXlate acc va
    let t ← get
    if covers t x then do
      engFix acc va x
      pure true
    else do
      let y ← engRenew acc va
      let t ← get
      if covers t y then do
        engFix acc va y
        pure true
      else pure false

/-- The length of a chunk (R149): the larger of the bytes that its points, from index `i` on, read and write, row pads included. -/
def chunkBytes (r : CopyRun) (z : Nat) (ps : List Point) : Nat :=
  let q := r.req
  let hits := (ps.filter fun p => p.tensor.isSome).length
  let pads := ((upTo ps.length).map fun k => q.padAfter r.f r.s (r.next + k)).sum
  max (z * hits + 4 * (ps.filter fun p => p.gather.isSome).length) (if q.stores then z * hits else z * ps.length + pads)

/-- A chunk halved until the leases of its sides cover it, down to 4 KiB; below that each access is translated by itself (R77). -/
def halve (r : CopyRun) (z : Nat) : Nat → List Point → EngM (List Point)
  | 0, ps => do
    modify fun t => { t with sides := [] }
    pure ps
  | n + 1, ps => do
    let q := r.req
    let len := chunkBytes r z ps
    let dense := if q.fs then none else (ps.find? fun p => !q.stores || p.tensor.isSome).map fun p => p.dense
    let g ← leaseCovers .read len (ps.findSome? fun p => p.gather)
    let a ← leaseCovers (if q.stores then .write else .read) len (ps.findSome? fun p => p.tensor)
    let b ← leaseCovers (if q.stores then .read else .write) len dense
    if g && a && b then pure ps
    else if len ≤ 4096 ∨ ps.length ≤ 1 then do
      modify fun t => { t with sides := [] }
      pure ps
    else halve r z n (ps.take ((ps.length + 1) / 2))

/-- The dense bytes of a load's points, each read at its home or zero (R145). -/
def loadBytes (z : Nat) (ps : List Point) : EngM (List (List Byte)) :=
  ps.mapM fun p =>
    match p.tensor with
    | some a => engRead a z
    | none => pure (List.replicate z 0)

/-- The points of a chunk with the elements that a store writes: from the dense side, or from the stream's bytes in point order;
a point that writes nothing takes none (R145, R147). -/
def storeBytes (r : CopyReq) (z : Nat) : List Point → List Byte → EngM (List (Nat × List Byte))
  | [], _ => pure []
  | p :: ps, l =>
    match p.tensor with
    | none => storeBytes r z ps l
    | some a => do
      let b ← if r.fs then pure (l.take z) else engRead p.dense z
      let rest ← storeBytes r z ps (l.drop z)
      pure ((a, b) :: rest)

/-- What a chunk did: its points, whether BOUNDS follows it, whether it accessed data at all, the stream's bytes that remain or are to be pushed, and those that it began
with. -/
structure ChunkDone where
  points : Nat
  bounds : Bool
  touched : Bool
  buf : List Byte := []
  kept : List Byte := []
  deriving DecidableEq, Repr

/-- Whole entries of a store's stream popped into the run's bytes, as many as `need` bytes take (R147, R172). -/
def State.popRun (s : State) (r : CopyRun) (need : Nat) : State × CopyRun :=
  match s.copyStream r.req with
  | none => (s, r)
  | some st =>
    let n := s.streamEntry st
    let take := (s.streamElems st).take ((need - r.buf.length + n - 1) / n)
    (s.setStreamElems st ((s.streamElems st).drop take.length), { r with buf := r.buf ++ take.flatMap fun e => e.bytes })

/-- The bytes that a store's points take from its stream; an empty stage makes the engine wait with what it has popped. -/
def popStream (cl : Nat) (r : CopyRun) (need : Nat) : EngM (List Byte) := do
  let t ← get
  let (s, r) := t.s.popRun r need
  set { t with s := s.setRun cl r }
  if r.buf.length < need then throw .wait else pure r.buf

/-- A chunk from the run's next point on: all of its reads, then its writes (R149). A wain copy with FS = 0 and TG = 0 is performed wherever its
dense side lies. DEDUCED (log 38). -/
def chunkWork (cl : Nat) (r : CopyRun) : EngM ChunkDone := do
  let q := r.req
  let z := recEsz r.s
  let c ← collect q r.f r.s 65536 r.next {} {}
  let ps ← halve r z 24 c.points
  let bounds := c.bounds && ps.length == c.points.length
  if q.stores then do
    let need := if q.fs then z * (ps.filter fun p => p.tensor.isSome).length else 0
    let l ← popStream cl r need
    let ws ← storeBytes q z ps l
    ws.foldlM (fun _ (w : Nat × List Byte) => engWrite w.1 w.2) (⟨⟩ : PUnit)
    pure { points := ps.length, bounds, touched := ps.any fun p => p.tensor.isSome, buf := l.drop need, kept := l }
  else do
    let bs ← loadBytes z ps
    if q.fs then pure { points := ps.length, bounds, touched := ps.any fun p => p.tensor.isSome, buf := r.buf ++ bs.flatten }
    else do
      (ps.zip bs).foldlM (fun _ (w : Point × List Byte) => engWrite w.1.dense w.2) (⟨⟩ : PUnit)
      (ps.mapIdx fun k p => (k, p)).foldlM (fun _ (w : Nat × Point) => do
        let pad := q.padAfter r.f r.s (r.next + w.1)
        if pad = 0 then pure ⟨⟩ else engWrite (w.2.dense + z) (List.replicate pad 0)) (⟨⟩ : PUnit)
      pure { points := ps.length, bounds, touched := !ps.isEmpty }

/-- The stream's bytes pushed in whole entries while it has room; at the end of the copy the last one is padded (R147). -/
def pushEntries (st n : Nat) (last : Bool) : Nat → State → List Byte → State × List Byte × Bool
  | 0, t, b => (t, b, false)
  | f + 1, t, b =>
    if b.length < n ∧ !(last && !b.isEmpty) then (t, b, true)
    else
      match t.engineEntry st (b.take n ++ List.replicate (n - b.length) 0) with
      | none => (t, b, false)
      | some t' => pushEntries st n last f t' (b.drop n)

/-- A load's bytes pushed to its stream. -/
def State.pushRun (s : State) (cl : Nat) (r : CopyRun) : State :=
  match s.copyStream r.req with
  | none => s.setRun cl { r with buf := [], pushing := false }
  | some st =>
    let (t, b, done) := pushEntries st (s.streamEntry st) (decide (r.total ≤ r.next) || r.status.isSome) (r.buf.length + 2) s r.buf
    t.setRun cl { r with buf := b, pushing := !done, last := if done then s.time else r.last }

/-- A chunk has succeeded: its writes are performed and the run has come past it (R149, R151). The first data access and the last write count
at the TIME at which the engine ends the chunk, also where another module performed them. DESIGN CHOICE (log 16). -/
def State.endChunk (s : State) (cl : Nat) (r : CopyRun) (c : ChunkDone) : State :=
  let r := { r with
    first := r.next
    next := r.next + c.points
    began := if c.touched then some (r.began.getD s.time) else r.began
    last := if c.touched then s.time else r.last
    again := false
    buf := c.buf
    kept := c.kept
    pushing := r.req.fs && !r.req.stores }
  let r := if c.bounds then r.fail 15 (word r.next) 0 else r
  if r.pushing then s.pushRun cl r else s.setRun cl r

/-- Acknowledged writes of an engine are used up. -/
def State.dropWrites (s : State) (loc : Loc) : State := { s with remotes := s.remotes.filter fun r => !r.engineWrites loc }

/-- Refused writes of a run: sent again, and its chunk then performed again, also where the run is cancelled (R74, R149, R151); those of a run
that a FAIL has ended leave their lane (R352). -/
def State.settleWrites (s : State) (cl : Nat) (r : CopyRun) : State × CopyRun :=
  let gone := match r.status with
    | some (n, _, _) => n == 12
    | none => false
  if gone then (s.dropAsked fun x => x.engineWrites r.req.loc && x.refusal.isSome, r)
  else
    let (t, again) := s.refusedWrites .copy (s.copyIssuer r.req) r.req.loc
    if again then (t.setRun cl r.rerun, r.rerun) else (t, r)

/-- A run's turn: what is still to be pushed, then its next chunk; a cancelled run ends after its chunk (R151). Nothing happens
before its start, while a fault of it is outstanding, or while writes to other modules are still to be acknowledged. -/
def State.copyStep (s : State) (cl : Nat) (r : CopyRun) : State :=
  let (s, r) := if s.copyFaulted r then (s, r) else s.settleWrites cl r
  if s.copyFaulted r || s.writesOut r.req.loc then s
  else if r.f.isEmpty then s.loadRecords cl r
  else if r.pushing then s.pushRun cl r
  else if r.cancelled && !r.again then s.setRun cl (r.fail 13 0 0)
  else if r.req.ts && r.start != 0 then s
  else if r.isOver then s
  else
    let s := s.dropWrites r.req.loc
    match EngM.result (chunkWork cl r) (s.copySt r) with
    | .wait t => t
    | .fault a va c e t => t.engineFault .copy r.req.by' a va c e
    | .stop n t => t.setRun cl (r.fail n 0 0)
    | .ok c t => if !t.unlocked then s else t.perform.endChunk cl r c

/-- COPY_CHUNK: the first run of the engine that may go on takes its turn, and goes behind the others (R149). -/
def execCopyChunk (die cluster : Nat) (s : State) : Out :=
  let cl := clusterId die cluster
  let k := s.cluster cl
  match k.running.find? fun r => (r.status.isNone || r.pushing) && !r.isOver with
  | none => .next s
  | some r =>
    let s := s.setCluster cl { k with running := k.running.filter (fun x => !sameRun x r) ++ [r] }
    .next (s.copyStep cl r)

/-! ### Completion (R152, R153) -/

/-- The granules that the dense side of a copy touches: its rows and their pads, not the gaps between them (R152). -/
def touchedGranules (r : CopyReq) (f s : List Word) : List Nat :=
  let per := if r.zp then pitchBytes f s else rowBytes f s
  let all := (upTo (recExtent f 3)).flatMap fun k =>
    let a := r.dense + k * pitchBytes f s
    (upTo ((a + per - 1) / 4096 - a / 4096 + 1)).map fun i => (a / 4096 + i) * 4096
  all.foldl (fun l g => if l.contains g then l else l ++ [g]) []

/-- The tags that a copy writes: bank key and granule (R152). -/
def tagWork (r : CopyRun) : EngM (List (Nat × Nat)) :=
  if !r.req.tg then pure []
  else
    (touchedGranules r.req r.f r.s).filterMapM fun va => do
      let (pa, _, _) ← engXlate .write va
      match regionOf (localOf pa) with
      | .loft d c b o => pure (some (clusterId d c, b * 128 + o / 4096))
      | _ => pure none

/-- Words 1 to 3 of the message (R153). -/
def CopyRun.words (r : CopyRun) (points : Nat) : Nat × Word × Word × Word :=
  match r.status with
  | none => (0, word points, r.began.getD 0, r.last)
  | some (n, w2, w3) => (n, word points, w2, w3)

/-- The copy reports, and its run place is free. -/
def State.reportRun (s : State) (cl : Nat) (r : CopyRun) (points : Nat) : State :=
  let (n, w1, w2, w3) := r.words points
  let k := s.cluster cl
  ((s.setCluster cl { k with running := k.running.filter fun x => !sameRun x r }).dropRemotes r.req.loc).copyReport r.req n w1 w2 w3

/-- The message may go out: its inbox has room; a COPY node's goes to the command processor (R153). -/
def State.copyRoom (s : State) (r : CopyReq) : Bool := r.node.isSome || s.roomFor r.by'.loc r.by'.launch 0

/-- A run that has ended and may report. -/
def CopyRun.ended (r : CopyRun) : Bool := (r.status.isSome && !r.pushing) || r.isOver

/-- A cancelled request that may report: the earlier ones of its slot have, whichever launch issued them, and its inbox has room (R148,
R151). -/
def State.endingNext (s : State) (cl : Nat) : Option CopyReq :=
  let k := s.cluster cl
  k.ending.find? fun r => s.copyRoom r && !k.running.any (fun x => x.req.key == r.key) &&
    (k.ending.find? fun x => x.key == r.key) == some r

/-- COPY_COMPLETE: a request that was cancelled before it started reports; or a copy that has ended writes its tags, once its writes are
performed, and reports (R151 to R153, R347). -/
def execCopyComplete (die cluster : Nat) (s : State) : Out :=
  let cl := clusterId die cluster
  match s.endingNext cl, (s.cluster cl).running.find? CopyRun.ended with
  | some r, _ =>
    let k := s.cluster cl
    .next ((s.setCluster cl { k with ending := dropFirst r k.ending }).copyReport r 13 0 0 0)
  | none, none => .next s
  | none, some r =>
      let k := s.cluster cl
      let s := s.setCluster cl { k with running := k.running.filter (fun x => !sameRun x r) ++ [r] }
      let (s, r) := if s.copyFaulted r then (s, r) else s.settleWrites cl r
      if s.copyFaulted r || !r.ended then .next s
      else if s.writesOut r.req.loc then .next (s.setRun cl { r with last := s.time })
      else if !s.copyRoom r.req then .next s
      else if r.status.isSome then .next (s.reportRun cl r r.next)
      else
        match EngM.result (tagWork r) (s.copySt r) with
        | .wait t => .next t
        | .fault a va c e t => .next (t.engineFault .copy r.req.by' a va c e)
        | .stop n t => .next (t.setRun cl (r.fail n 0 0))
        | .ok tags t =>
          let u : State := tags.foldl (fun (u : State) (g : Nat × Nat) =>
            u.setCluster g.1 { u.cluster g.1 with tags := Sparse.set 0 (u.cluster g.1).tags g.2 (BitVec.ofNat 16 r.req.seq) }) t.s
          .next (u.reportRun cl r r.next)

end Sys2Proof.Machine
end

