-- ==== Sys2Proof/Machine/Fabric.lean ====
section
/-! DEFINITION. The Trelior fabric (R351, R352, R419 to R427): flits and ports, the lanes of the ingress, what each type of packet does
at its destination, timed sends at the egress, and beacons. -/

namespace Sys2Proof.Machine

/-! ### Packets as bytes (R422) -/

def PktType.code : PktType → Nat
  | .read => 0 | .data => 1 | .write => 2 | .lock => 3 | .ack => 4 | .perform => 5 | .unlock => 6 | .atomic => 7 | .sc => 8
  | .refuse => 9 | .send => 10 | .beacon => 11
def pktTypeOf (n : Nat) : Option PktType :=
  if n = 0 then some .read else if n = 1 then some .data else if n = 2 then some .write else if n = 3 then some .lock
  else if n = 4 then some .ack else if n = 5 then some .perform else if n = 6 then some .unlock else if n = 7 then some .atomic
  else if n = 8 then some .sc else if n = 9 then some .refuse else if n = 10 then some .send else if n = 11 then some .beacon else none

/-- Virtual lane of a type (R421); announcements have one of their own. -/
def PktType.lane : PktType → Nat
  | .read => 0 | .lock => 0 | .atomic => 0 | .sc => 0 | .data => 1 | .ack => 1 | .refuse => 1 | .perform => 2 | .unlock => 2
  | .write => 2 | .send => 3 | .beacon => 4

/-- Header words of a packet. -/
def Packet.header (k : Packet) (t : PktType) : Word × Word :=
  (word (k.dst % 1024 * 2 ^ 54 + k.src % 1024 * 2 ^ 44 + k.sdie % 8 * 2 ^ 41 + PktType.code t * 2 ^ 36 + k.lseq % 4096 * 2 ^ 24 + k.exp % 2 ^ 24),
   word (k.data.length % 256 * 2 ^ 56 + k.addr % 2 ^ 56))
/-- A packet as it travels. -/
def Packet.bytes (k : Packet) (t : PktType) : List Byte :=
  let (a, b) := Packet.header k t
  bytesOf 8 a.toNat ++ bytesOf 8 b.toNat ++ k.data

/-- A packet read from its bytes; none for a TYPE that is not listed, or a SIZE above 128 (R422). -/
def packetOf (l : List Byte) : Option (PktType × Packet) :=
  let a := word (ofBytes (l.take 8))
  let b := word (ofBytes ((l.drop 8).take 8))
  if 128 < bits b 63 56 then none
  else (pktTypeOf (bits a 40 36)).map fun t =>
    (t, { dst := bits a 63 54, src := bits a 53 44, sdie := bits a 43 41, lseq := bits a 35 24, exp := bits a 23 0, addr := bits b 55 0,
          data := (l.drop 16).take (bits b 63 56) })

/-! ### Ports (R419 to R421) -/

def State.port (s : State) (p : Nat) : Port := (Sparse.find? s.ports p).getD {}
def State.setPort (s : State) (p : Nat) (x : Port) : State := { s with ports := Sparse.put s.ports p x }

/-- The receive buffer of a lane: flits of packets that are still to be taken (R421). -/
def Port.buffered (p : Port) (vl : Nat) : Nat :=
  ((p.packets.filter fun k => k.1 == vl).map fun k => (k.2.length + 47) / 48).sum +
    ((((Sparse.find? p.partials vl).getD []).length + 47) / 48)
/-- STOP of each lane: set from 256 buffered flits on, and cleared below 128 (R421). -/
def Port.stops (p : Port) : BitVec 8 :=
  BitVec.ofNat 8 ((upTo 8).foldl (fun (n : Nat) v =>
    if 256 ≤ p.buffered v || (p.stopping.getLsbD v && 128 ≤ p.buffered v) then n + 2 ^ v else n) 0)
/-- A port with its STOP bits as its buffers now give them. -/
def Port.restop (p : Port) : Port := { p with stopping := p.stops }

/-! ### Flits as bytes (R420, R429) -/

/-- CRC-32 of bytes with the polynomial 0x04C1_1DB7, in the bit order, start value and final complement of IEEE 802.3. PRESUMED: the rules
give the polynomial only (log 68). -/
def crc32 (l : List Byte) : Nat :=
  let bit (c : Nat) : Nat := if c % 2 = 1 then Nat.xor (c / 2) 0xEDB8_8320 else c / 2
  Nat.xor (l.foldl (fun (c : Nat) b => bit (bit (bit (bit (bit (bit (bit (bit (Nat.xor c b.toNat))))))))) 0xFFFF_FFFF) 0xFFFF_FFFF

/-- Bytes with their CRC-32 behind them. -/
def withCrc (l : List Byte) : List Byte := l ++ bytesOf 4 (crc32 l)
/-- The last four of `n` bytes are the CRC-32 of the others. -/
def crcHolds (l : List Byte) (n : Nat) : Bool := l.length == n && ofBytes (l.drop (n - 4)) == crc32 (l.take (n - 4))

/-- A fabric flit as its 64 bytes. -/
def Flit.bytes (f : Flit) : List Byte :=
  let w := f.seq % 4096 * 2 ^ 52 + f.ack % 4096 * 2 ^ 40 + f.nak.toNat * 2 ^ 39 + f.vl % 8 * 2 ^ 36 + f.sop.toNat * 2 ^ 35 + f.eop.toNat * 2 ^ 34 +
    f.nul.toNat * 2 ^ 33 + f.stop.toNat * 2 ^ 25
  withCrc ((f.pay ++ List.replicate (48 - f.pay.length) 0).take 48 ++ bytesOf 8 w ++ bytesOf 4 0)

/-- The fields of a fabric flit's 64 bytes. -/
def flitOf (raw : List Byte) : Flit :=
  let w := word (ofBytes ((raw.drop 48).take 8))
  { crcGood := crcHolds raw 64, seq := bits w 63 52, ack := bits w 51 40, nak := w.getLsbD 39, vl := bits w 38 36, sop := w.getLsbD 35,
    eop := w.getLsbD 34, nul := w.getLsbD 33, stop := BitVec.ofNat 8 (bits w 32 25), pay := raw.take 48 }

/-- A die flit as its 256 bytes. -/
def DieFlit.bytes (f : DieFlit) : List Byte :=
  withCrc (bytesOf 4 (f.seq % 4096 * 2 ^ 20 + f.ack % 4096 * 2 ^ 8 + f.nak.toNat * 2 ^ 7) ++
    (f.slots ++ List.replicate (240 - f.slots.length) 0).take 240 ++ bytesOf 4 (f.stop.toNat * 2 ^ 26) ++ bytesOf 4 0)

/-- The fields of a die flit's 256 bytes. -/
def dieFlitOf (raw : List Byte) : DieFlit :=
  let w := word (ofBytes (raw.take 4))
  let x := word (ofBytes ((raw.drop 244).take 4))
  { crcGood := crcHolds raw 256, seq := bits w 31 20, ack := bits w 19 8, nak := w.getLsbD 7, stop := BitVec.ofNat 6 (bits x 31 26),
    slots := (raw.drop 4).take 240 }

/-- Virtual lane of a packet (R421). -/
def Packet.lane (t : PktType) (k : Packet) : Nat := if Packet.announces t k then 4 else PktType.lane t

/-- The flits of a packet (R420). -/
def flitsOf (vl : Nat) (p : Port) (l : List Byte) : List Flit :=
  let cs := chunksOf 48 l.length l
  cs.mapIdx fun i c =>
    { crcGood := true, seq := (p.sent + i) % 4096, ack := p.acked, nak := p.sendNak, vl, sop := i == 0, eop := i + 1 == cs.length, nul := false,
      stop := p.stops, pay := c }

/-- A packet handed to a port: its flits are sent, and kept until they are acknowledged. -/
def Port.push (p : Port) (t : PktType) (k : Packet) : Port :=
  let fs := flitsOf (Packet.lane t k) p (Packet.bytes k t)
  { p with unacked := p.unacked ++ fs, sent := (p.sent + fs.length) % 4096 }

/-- A port may begin a packet of a lane: it is live, the lane is not stopped, and fewer than 256 flits are unacknowledged (R420, R421,
R423). -/
def Port.takes (p : Port) (vl : Nat) : Bool := !p.down && !p.stopped.getLsbD vl && decide (p.unacked.length + 3 ≤ 256)

/-- The port that a packet takes (R423): the lowest that the route allows and that takes it. -/
def State.portFor (s : State) (hub : Nat) (t : PktType) (k : Packet) : Option Nat :=
  let e := Sparse.get 0 (s.hub hub).routes k.dst
  if !e.getLsbD 63 then none
  else ((upTo 9).map fun i => 9 * hub + i).find? fun p => e.getLsbD (p % 9) && (s.port p).takes (Packet.lane t k)

/-- A packet of this module's own that asks for something; while LOST is set none is sent (R427). -/
def PktType.asks : PktType → Bool
  | .read => true | .write => true | .lock => true | .perform => true | .unlock => true | .atomic => true | .sc => true | .send => true
  | .data => false | .ack => false | .refuse => false | .beacon => false

/-- Packets that wait leave by their ports as far as they can, each in its order; a send to this module is delivered through its own
ingress (R423, R425). Nothing leaves before MODID has been written (R62). -/
def State.pumpOut (s : State) : State :=
  if !s.numbered then s else s.outbox.foldl (fun (t : State) (x : Nat × PktType × Packet) =>
    let (hub, typ, k) := x
    let stay : State := { t with outbox := t.outbox ++ [(hub, typ, k)] }
    if t.lost && k.src == t.modid.toNat && PktType.asks typ then stay
    else if k.dst = t.modid.toNat then
      let p := t.port (9 * hub)
      t.setPort (9 * hub) { p with packets := p.packets ++ [(Packet.lane typ k, Packet.bytes k typ)] }
    else if t.outbox.any fun o => o.1 == hub && Packet.lane o.2.1 o.2.2 == Packet.lane typ k && o.2.2.dst == k.dst then stay
    else
      match t.portFor hub typ k with
      | some p => t.setPort p ((t.port p).push typ k)
      | none => stay) { s with outbox := [] }

/-- How far a SEQ lies after another, modulo 4096. -/
def seqAfter (x y : Nat) : Nat := (x + 4096 - y % 4096) % 4096

/-- Flits by packets: each run begins with the first flit of one, but for the rest of a packet whose first flits have been acknowledged. -/
def packetRuns : List Flit → List (List Flit)
  | [] => []
  | f :: r =>
    match packetRuns r with
    | (g :: gs) :: rest => if g.sop then [f] :: (g :: gs) :: rest else (f :: g :: gs) :: rest
    | [] :: rest => [f] :: rest
    | [] => [[f]]

/-- A route allows a port for a run of flits; the rest of a packet, whose header has gone, may take any port of the hub. -/
def State.routeAllows (s : State) (port : Nat) (fs : List Flit) : Bool :=
  match fs with
  | f :: _ => !f.sop || (let e := Sparse.get 0 (s.hub (port / 9)).routes (bits (word (ofBytes (f.pay.take 8))) 63 54)
      e.getLsbD 63 && e.getLsbD (port % 9))
  | [] => false

/-- The unacknowledged flits of a port that retrains go to another live port that the route table allows, packet by packet; one that finds
none stays (R420). -/
def State.moveFlits (s : State) (port : Nat) : State :=
  let p := s.port port
  (packetRuns p.unacked).foldl (fun (t : State) fs =>
    let vl := (fs.head?.map Flit.vl).getD 0
    match ((upTo 9).map fun i => 9 * (port / 9) + i).find? fun x => x != port && t.routeAllows x fs && (t.port x).takes vl with
    | some o =>
      let x := t.port o
      let fs := fs.mapIdx fun i u => { u with seq := (x.sent + i) % 4096 }
      t.setPort o { x with unacked := x.unacked ++ fs, sent := (x.sent + fs.length) % 4096 }
    | none =>
      let x := t.port port
      t.setPort port { x with unacked := x.unacked ++ fs }) (s.setPort port { p with unacked := [] })

/-- A flit is accepted: its CRC is good, its SEQ is the next expected one, and its lane has room for it (R420, R421). -/
def Port.accepts (p : Port) (f : Flit) : Bool := f.crcGood && f.seq == p.next && (f.nul || decide (p.buffered f.vl < 512))

/-- What an accepted flit says of the other direction: what it acknowledges, what it stops, and whether a replay is asked for, which counts
until a flit is acknowledged (R420, R421). -/
def Port.heard (p : Port) (f : Flit) : Port :=
  let left := p.unacked.filter fun u => decide (seqAfter f.ack u.seq ≥ 2048)
  { p with
    stopped := f.stop
    unacked := left
    down := false
    replays := (if left.length < p.unacked.length then 0 else p.replays) + f.nak.toNat }

/-- The payload of an accepted flit joins its packet (R420, R422). -/
def Port.join (p : Port) (f : Flit) : Port :=
  let p := { p with next := (p.next + 1) % 4096, acked := f.seq, sendNak := false }
  if f.nul then p
  else
    let l := (if f.sop then [] else (Sparse.find? p.partials f.vl).getD []) ++ f.pay
    (if f.eop then { p with partials := p.partials.filter fun x => x.1 ≠ f.vl, packets := p.packets ++ [(f.vl, l)] }
     else { p with partials := Sparse.put p.partials f.vl l } : Port).restop

/-- FLIT_RECEIVE (R420, R421), once MODID has been written (R62): a flit that is not accepted is dropped and a NAK is sent. After eight
failed replays of one flit the port retrains, and its flits go to other ports. A replay sends again what the port keeps, in order from
ACK + 1 (log 68). -/
def execFlitReceive (port : Nat) (raw : List Byte) (s : State) : Out :=
  let f := flitOf raw
  let p := s.port port
  if !s.numbered then .next s
  else if !p.accepts f then .next (s.setPort port { p with sendNak := true })
  else
    let q := (p.heard f).join f
    if 8 ≤ q.replays then .next ((s.setPort port { q with replays := 0, retrains := q.retrains + 1, down := true }).moveFlits port)
    else .next (s.setPort port q)

/-! ### Answers (R351, R352, R422) -/

/-- A packet that answers another, echoing its lane and LSEQ. -/
def State.respond (s : State) (k : Packet) (t : PktType) (addr : Nat) (data : List Byte) : State :=
  let p : Packet := { dst := k.src, src := s.modid.toNat, sdie := k.sdie, lseq := k.lseq, exp := 0, addr, data }
  { s with outbox := s.outbox ++ [(hubOfDie k.sdie, t, p)] }

/-- The number of a refusal's cause in a REFUSE packet. -/
def State.refuse (s : State) (k : Packet) (reason : Nat) : State := s.respond k .refuse (k.addr % 2 ^ 46 + reason * 2 ^ 48) []

/-- A world that a message does not carry: a free value (log 13). -/
def State.freeWorld (s : State) : State × Bool := ({ s with draws := s.draws + 1 }, (Config.freeWord s.draws).getLsbD 0)

/-- The world of a packet's sender, which its header does not carry: that of the part which issued the request where it is this module's
(R433), else a free value (log 13). -/
def State.packetWorld (s : State) (k : Packet) : State × Bool :=
  match (if k.src = s.modid.toNat then s.remotes.find? fun r => r.sdie == k.sdie && r.dst == k.dst && r.lseq == k.lseq else none) with
  | some r => (s, r.secure)
  | none => s.freeWorld

/-! ### What a request does at its destination -/

/-- A request is served, refused for a cause, held by a lock at its home, or kept at the head of its lane. -/
inductive Served where
  | done (s : State)
  | refused (s : State) (reason : Nat)
  | held
  | stay
  deriving DecidableEq, Repr

/-- E rebuilt from EXP: the value congruent to it that lies within 2^23 ns of TIME (R422). -/
def rebuildE (exp : Nat) (now : Nat) : Nat :=
  let m := 2 ^ 24
  let t := now / m * m + exp
  if now + 2 ^ 23 ≤ t then t - m else if t + 2 ^ 23 < now then t + m else t

/-- The lease of an access has run out, or the module has lost the timebase (R73, R427). -/
def State.leaseOver (s : State) (exp : Nat) : Bool := s.lost || decide (rebuildE exp s.time.toNat ≤ s.time.toNat)

/-- The words that a request names (R318); a commit's own performs, releases and sends meet no lock. -/
def Packet.span (k : Packet) (t : PktType) (pa : Nat) : List Nat :=
  match t with
  | .read => spanWords pa (k.data.getD 0 0).toNat
  | .write => spanWords pa k.data.length
  | .lock => spanWords pa 4
  | .atomic => spanWords pa (typeBytes (atypeOf (k.data.getD 1 0).toNat))
  | .sc => spanWords pa (if k.data.getD 1 0 = 0 then 4 else 8)
  | .perform => [] | .unlock => [] | .send => [] | .data => [] | .ack => [] | .refuse => [] | .beacon => []

/-- A word of a span is locked, or an earlier request that a lock holds names it (R318). -/
def State.blockedAt (s : State) (pa n : Nat) : Bool :=
  s.anyLock pa n || s.held.any fun h => (Packet.span h.2.1 h.1 (s.paOf (h.2.1.addr % 2 ^ 46))).any fun w => (spanWords pa n).contains w

/-- A read of a request (R351, R352): the destination port refuses it before a lock may hold it; `leased` is set where its lease is still to
be checked (R73). -/
def State.serveRead (s : State) (w : State × Bool) (leased : Bool) (exp pa n : Nat) (k : State → List Byte → State) : Served :=
  let (t, secure) := w
  if s.lost || (leased && s.leaseOver exp) then .refused s 6
  else
    match ({ t with locks := [], remoteLocks := [] } : State).homeRead secure pa n with
    | .fault c => .refused t c.number
    | .wait => .held
    | .bytes l => if s.blockedAt pa n then .held else .done (k t l)

/-- An access of a request that writes: an engine's write, a store to the host window, a lock, or an atomic; a held reduction is a perform of
the commit that holds its word. -/
def State.serveWrite (s : State) (w : State × Bool) (engine leased free : Bool) (exp pa n : Nat) (k : State → Served) : Served :=
  let (t, secure) := w
  if s.lost || (leased && s.leaseOver exp) then .refused s 6
  else
    match t.writeRefused secure engine pa with
    | some c => .refused t c.number
    | none => if !free && s.blockedAt pa n then .held else k t

/-- A lock of another module (or, with number 1024 and more, of another die) taken. -/
def State.takeRemote (s : State) (mine : Nat × Nat) (w : Nat) : State :=
  if s.remoteLocks.contains (w, mine.1, mine.2) then s else { s with remoteLocks := s.remoteLocks ++ [(w, mine.1, mine.2)] }

/-- One indivisible access at a home that marks no task (R325). -/
def State.farAtomic (s : State) (pa n : Nat) (f : Nat → Option Nat) : State × Nat :=
  let old := ofBytes (s.homeGet pa n)
  match f old with
  | none => (s, old)
  | some x => (s.homeWrite pa (bytesOf n x), old)

/-- An atomic as its data describes it (log 13), performed by `perform`: operation, type, whether it is a held reduction, y, compare value.
One on the host window goes to its hub, which answers `asker` once the host link has performed it (R354, R355, R417). -/
def State.serveAtomic (perform : State → Nat → Nat → (Nat → Option Nat) → State × Nat) (s : State) (w : State × Bool) (asker : ScFrom)
    (leased : Bool) (exp pa : Nat) (data : List Byte) (k : State → Bool → List Byte → State) : Served :=
  let op := atomOpOf (data.getD 0 0).toNat
  let t := atypeOf (data.getD 1 0).toNat
  let held := (data.getD 2 0) != 0
  let y := ofBytes ((data.drop 3).take 16)
  let cmp := ofBytes ((data.drop 19).take 16)
  let n := typeBytes t
  let here (s : State) : Served :=
    let (s, old) := perform s pa n fun old => op.apply t old y cmp
    .done (k s held (bytesOf n old))
  s.serveWrite w false (leased && !held) held exp pa n fun s =>
    match regionOf (localOf pa) with
    | .host h =>
      if !s.hostCompletes (localOf pa) op t then .refused s 9
      else
        let x := s.hub h
        .done (s.setHub h { x with atomics := x.atomics ++
          [{ loc := ⟨0, 0, 0, 0⟩, op, t, ea := 0, pa, y := BitVec.ofNat 128 y, cmp := BitVec.ofNat 128 cmp, pend := 0, commit := held, asker }] })
    | .hbm _ _ => here s
    | .lpddr _ => here s
    | .granary _ _ => here s
    | .loft _ _ _ _ => here s
    | .hub _ _ => here s
    | .reserved => here s

/-- A lock request (R318). For the host window, where no lock is taken, it announces a held reduction, which the hub refuses where the host
cannot complete it (R355, log 13). -/
def State.serveLock (s : State) (w : State × Bool) (leased : Bool) (mine : Nat × Nat) (exp pa : Nat) (data : List Byte) (ack : State → State) : Served :=
  s.serveWrite w false leased (isHost pa) exp pa 4 fun s =>
    if isHost pa then
      if s.hostCompletes (localOf pa) (atomOpOf (data.getD 0 0).toNat) (atypeOf (data.getD 1 0).toNat) then .done (ack s) else .refused s 9
    else .done (ack (s.takeRemote mine (alignDown pa 4)))

def scOpOf (n : Nat) : ScOp := if n = 0 then .ld else if n = 1 then .st else if n = 2 then .swap else if n = 3 then .cas else .add

/-- The entry of sco that stands for the operation of another module with this number (R335). -/
def ScAnn.isOf (a : ScAnn) (k : Packet) (id : Nat) : Bool :=
  a.module == k.src && a.loc.die == k.sdie && a.pend == id && (match a.asker with
    | .unit => false | .die _ => false | .packet _ => true | .announced => true)

/-- News of another module's domain-scope operation (R335): an entry stands in sco for it until its request comes, its home is known to be
another module, or it has ended. News that comes after the operation's time to be performed opens none (log 13). -/
def State.hearSc (s : State) (k : Packet) : State :=
  let b (i : Nat) : Nat := (k.data.getD i 0).toNat
  let home := ofBytes ((k.data.drop 2).take 8)
  let window := ofBytes ((k.data.drop 10).take 8)
  let id := ofBytes ((k.data.drop 21).take 8)
  let a := { scAnnOf s id .ld .domain .w 0 0 0 (word (window * scWindow .domain)) ⟨k.sdie, b 18, b 19, b 20⟩ with
             module := k.src, asker := .announced }
  let opened : State :=
    if (s.announced.any fun x => x.isOf k id) || decide (a.ready ≤ s.time.toNat) then s else { s with announced := s.announced ++ [a] }
  let dropped : State := { s with announced := s.announced.filter fun x => !(x.isOf k id && x.asker == .announced) }
  if b 1 = 0 then opened else if b 1 = 1 ∧ home = s.modid.toNat then opened else dropped

/-- An SC operation of another module takes its place in sco at its home (R335), which is that of its announcement where that has come: its
data is the operation and its announcement (log 13). -/
def State.serveSc (s : State) (w : State × Bool) (leased : Bool) (k : Packet) (pa : Nat) : Served :=
  let b (i : Nat) : Nat := (k.data.getD i 0).toNat
  let op := scOpOf (b 0)
  let z : ScSize := if b 1 = 0 then .w else .d
  let ta := word (ofBytes ((k.data.drop 18).take 8))
  let m : ScScope := if b 26 = 0 then .device else .domain
  let (t, secure) := w
  if s.lost || (leased && s.leaseOver k.exp) then .refused s 6
  else
    match t.scRefused secure op pa (scBytes z) with
    | some c => .refused t c.number
    | none =>
      let id := ofBytes ((k.data.drop 30).take 8)
      let a := scAnnOf t id op m z 0 (word (ofBytes ((k.data.drop 2).take 8))) (word (ofBytes ((k.data.drop 10).take 8))) ta
        ⟨k.sdie, b 27, b 28, b 29⟩
      .done { t with announced := (t.announced.filter fun x => !(x.isOf k id && x.asker == .announced)) ++
        [{ a with module := k.src, pa, known := true, asker := .packet k }] }

/-- The unit that a send reaches: the one that pre-emption has taken from the slot, else the one that holds it (R408, R425). -/
def State.sendTarget (s : State) (l : Loc) : Option Unit :=
  match s.units.find? fun u => u.loc == l && (u.taken || u.away) with
  | some u => some u
  | none => s.unitAt l

/-- Who sent a send: known where this module sent it, else free values within their ranges, which no packet carries (log 13). -/
def State.senderOf (s : State) (k : Packet) : State × Loc × Bool :=
  match (if k.src = s.modid.toNat then s.remotes.find? fun r => r.typ == .send && r.sdie == k.sdie && r.dst == k.dst && r.lseq == k.lseq else none) with
  | some r => (s, r.loc, r.secure)
  | none =>
    let w := (Config.freeWord s.draws).toNat
    ({ s with draws := s.draws + 1 }, ⟨k.sdie, w % 20, w / 32 % 8, w / 256 % 8⟩, decide (w / 2048 % 2 = 1))

/-- A send admitted (R425, R426): its element enters q10 of the slot or the spill ring; reason 1 without a unit, 5 between worlds; it is
held while q10 is full. -/
def State.serveSend (s : State) (k : Packet) : Served :=
  let l : Loc := ⟨bits (word k.addr) 45 43, bits (word k.addr) 42 38, bits (word k.addr) 37 35, bits (word k.addr) 34 32⟩
  if s.lost then .refused s 6 else
  match s.sendTarget l with
  | none => .refused s 1
  | some u =>
    let (t, from', secure) := s.senderOf k
    if u.secure != secure then .refused t 5
    else if !s.roomFor l u.launch 10 then .stay
    else
      let w0 := word (k.src % 1024 * 2 ^ 54 + from'.die % 8 * 2 ^ 51 + from'.cluster % 32 * 2 ^ 46 + from'.core % 8 * 2 ^ 43 +
        from'.slot % 8 * 2 ^ 40 + bits (word k.addr) 31 24 * 2 ^ 32)
      .done ((t.deliver l u.launch 10 { bytes := bytesOfWords [w0, t.time] ++ k.data }).respond k .ack 0 [])

/-- A request as its home meets it (R351, R352); `leased` is set where it has still to pass the check of the destination port (R73). While
LOST is set every request is refused as stale (R427). -/
def State.serve (s : State) (leased : Bool) (t : PktType) (k : Packet) : Served :=
  let mine := (k.src, k.sdie)
  let pa := s.paOf (k.addr % 2 ^ 46)
  let n := k.data.length
  let w := s.packetWorld k
  match t with
  | .read => s.serveRead w leased k.exp pa (k.data.getD 0 0).toNat fun s l => s.respond k .data 0 l
  | .write => s.serveWrite w true leased false k.exp pa n fun s => .done ((s.homeWrite pa k.data).respond k .ack 0 [])
  | .lock => s.serveLock w leased mine k.exp pa k.data fun s => s.respond k .ack 0 []
  | .perform => if s.lost then .refused s 6 else .done ((s.homeWrite pa k.data).respond k .ack 0 [])
  | .unlock =>
    if s.lost then .refused s 6
    else if k.addr % 4 = 0 then .done { s with remoteLocks := s.remoteLocks.filter fun r => r ≠ (alignDown pa 4, k.src, k.sdie) } else .done s
  | .atomic => State.serveAtomic State.farAtomic s w (.packet k) leased k.exp pa k.data fun s held l =>
      if held then s.respond k .ack 0 [] else s.respond k .data 0 l
  | .sc => s.serveSc w leased k pa
  | .send => s.serveSend k
  | .data => .done s
  | .ack => .done s
  | .refuse => .done s
  | .beacon => .done s

/-! ### Lanes (R351, R352) -/

def laneKey (k : Packet) : Nat := k.src * 8 + k.sdie
def State.laneAt (s : State) (key : Nat) : Lane := (Sparse.find? s.lanes key).getD {}
def State.setLane (s : State) (key : Nat) (l : Lane) : State := { s with lanes := Sparse.put s.lanes key l }

/-- An admitted request that a lock holds at its home (R318). -/
def State.holdAt (s : State) (t : PktType) (k : Packet) : State := { s with held := s.held ++ [(t, k, s.time)] }

/-- A request that has left its lane is refused: its place is kept for it (R73, R352). -/
def State.refuseAgain (s : State) (k : Packet) (reason : Nat) : State :=
  let l := s.laneAt (laneKey k)
  (s.setLane (laneKey k) { l with again := l.again ++ [k.lseq] }).refuse k reason

/-- The requests of a lane served in LSEQ order, by fuel: a refused one is answered and keeps its place, and those behind it wait; a
refused send is dropped (R426), unless it is refused as stale. -/
def State.drainLane (key : Nat) : Nat → State → State
  | 0, s => s
  | f + 1, s =>
    let l := s.laneAt key
    match l.waiting.find? fun x => x.2.lseq == l.next with
    | none => s
    | some (t, k) =>
      let rest := l.waiting.filter fun x => x.2.lseq != l.next
      let step (x : State) (n : Nat) : State := x.setLane key { x.laneAt key with next := n, waiting := rest }
      match s.serve true t k with
      | .stay => s
      | .held => State.drainLane key f (step (s.holdAt t k) ((l.next + 1) % 4096))
      | .done x => State.drainLane key f (step x ((l.next + 1) % 4096))
      | .refused x reason =>
        if t = .send ∧ reason ≠ 6 then State.drainLane key f (step (x.refuse k reason) ((l.next + 1) % 4096))
        else step (x.refuse k reason) l.next

/-- Every lane with a request that waits, served as far as it goes. -/
def State.drainLanes (s : State) : State :=
  s.lanes.foldl (fun (t : State) l => if l.2.waiting.isEmpty then t else State.drainLane l.1 (l.2.waiting.length + 1) t) s

/-- A request that a lock held tries again, after those before it: it is refused as stale where D_F has passed since its check (R73). -/
def State.serveHeld1 (s : State) (h : PktType × Packet × Word) : State :=
  let (t, k, at') := h
  if at'.toNat + Config.fabricDrain ≤ s.time.toNat then s.refuseAgain k 6
  else
    match s.serve false t k with
    | .done x => x
    | .refused x reason => x.refuseAgain k reason
    | .held => { s with held := s.held ++ [h] }
    | .stay => { s with held := s.held ++ [h] }

/-- The requests that locks hold, in the order of their admission (R318). -/
def State.serveHeld (s : State) : State := s.held.foldl State.serveHeld1 { s with held := [] }

/-- A request arrives at the ingress: forwarded where it names another module (R423), else it takes its place in its lane, or the place
that was kept for it behind the lane. Nothing is accepted or forwarded before MODID has been written (R62). -/
def State.ingress (s : State) (t : PktType) (k : Packet) : Out :=
  if !s.numbered then .next s
  else if k.dst ≠ s.modid.toNat then .next { s with outbox := s.outbox ++ [(hubOfDie k.sdie, t, k)] }
  else
    let key := laneKey k
    let l := s.laneAt key
    if l.again.contains k.lseq then
      let s := s.setLane key { l with again := l.again.filter (· ≠ k.lseq) }
      match s.serve true t k with
      | .done x => .next x
      | .refused x reason => .next (x.refuseAgain k reason)
      | .held => .next (s.holdAt t k)
      | .stay => .next (s.holdAt t k)
    else
      let rest := l.waiting.filter fun x => x.2.lseq != k.lseq
      .next (State.drainLane key (rest.length + 2) (s.setLane key { l with waiting := rest ++ [(t, k)] }))

/-- FABRIC_READ. -/
def execFabricRead (k : Packet) (s : State) : Out := s.ingress .read k
/-- FABRIC_WRITE: an engine's write or a store to the host window. -/
def execFabricWrite (k : Packet) (s : State) : Out := s.ingress .write k
/-- FABRIC_LOCK (R318). -/
def execFabricLock (k : Packet) (s : State) : Out := s.ingress .lock k
/-- FABRIC_PERFORM (R319). -/
def execFabricPerform (k : Packet) (s : State) : Out := s.ingress .perform k
/-- FABRIC_UNLOCK. -/
def execFabricUnlock (k : Packet) (s : State) : Out := s.ingress .unlock k
/-- FABRIC_ATOMIC (R330, R333). -/
def execFabricAtomic (k : Packet) (s : State) : Out := s.ingress .atomic k
/-- FABRIC_SC (R335): a request takes its place in its lane, and an announcement is heard as it comes. -/
def execFabricSc (k : Packet) (s : State) : Out :=
  if Packet.announces .sc k && s.numbered && decide (k.dst = s.modid.toNat) then .next (s.hearSc k) else s.ingress .sc k
/-- FABRIC_SEND (R425). -/
def execFabricSend (k : Packet) (s : State) : Out := s.ingress .send k

/-! ### Responses (R351, R352, R426) -/

/-- The request that a response answers. -/
def Remote.answers (r : Remote) (k : Packet) : Bool := r.sdie == k.sdie && r.dst == k.src && r.lseq == k.lseq && r.answer.isNone

/-- A send is accepted: its launch has one less outstanding (R353, R425). -/
def State.sendAccepted (s : State) (r : Remote) : State :=
  ({ s with remotes := s.remotes.filter (· ≠ r) }.modLaunch r.launch fun l => { l with sends := l.sends - 1 }).modUnits
    (fun u => u.is r.loc r.launch) fun u => { u with outSends := u.outSends - 1 }

/-- The words that a prefetch asked for have come (R181). -/
def State.filled (s : State) (r : Remote) (x : Fill) (data : List Byte) : State :=
  let c := s.cluster x.cluster
  s.setCluster x.cluster (c.fill x.job r.va x.pline x.expiry x.global (wordsIn r.va (data.take r.size)))

/-- A response reaches the request that waits for it (R352). A write's acknowledgement needs no reader: it is used up. A send refused as
stale is sent again in its place, and so is an UNLOCK, of which the module keeps no record (R427). -/
def State.answered (s : State) (t : PktType) (reason : Nat) (k : Packet) : Out :=
  if !s.numbered then .next s
  else if k.dst ≠ s.modid.toNat then .next { s with outbox := s.outbox ++ [(hubOfDie k.sdie, t, k)] }
  else
    match s.remotes.find? fun r => r.answers k with
    | none => .next (if t = .refuse then s.sendAt k.lseq .unlock k.sdie k.src (k.addr % 2 ^ 46) 0 [] else s)
    | some r =>
      let gone : State := { s with remotes := s.remotes.filter (· ≠ r) }
      if r.typ = .send then
        if t = .refuse ∧ reason = 6 then .next (s.sendAt r.lseq .send r.sdie r.dst r.pa 0 (r.data.drop 16))
        else if t = .refuse then
          let who : Issuer := { loc := r.loc, job := 0, launch := r.launch, supervisor := false, secure := false }
          .next (gone.refuseSend who (word (ofBytes (r.data.take 8))) reason)
        else .next (s.sendAccepted r)
      else if r.dropped then .next (gone.settleDropped r t k.data)
      else
        match r.fill with
        | some x => .next (if t = .data then gone.filled r x k.data else gone.settleDropped r t k.data)
        | none =>
          let kept : State := { s with remotes := s.remotes.map fun x => if x = r then { x with answer := some (t, reason, k.data) } else x }
          .next (if t = .refuse then kept else kept.freshOnce r.loc r.va)

/-- FABRIC_DATA. -/
def execFabricData (k : Packet) (s : State) : Out := s.answered .data 0 k
/-- FABRIC_ACK. -/
def execFabricAck (k : Packet) (s : State) : Out := s.answered .ack 0 k
/-- FABRIC_REFUSE (R352). -/
def execFabricRefuse (k : Packet) (s : State) : Out := s.answered .refuse (k.addr / 2 ^ 48 % 256) k

/-! ### Timed sends (R425) -/

/-- T of a timed send that waits. -/
def egressTime (now : Nat) (e : List Byte × Issuer) : Nat := startTime (bits (word (ofBytes ((e.1.drop 8).take 8))) 47 0) now

/-- A timed send put among others by T, behind those of the same T that were released before it. -/
def insertTimed (now : Nat) (e : List Byte × Issuer) : List (List Byte × Issuer) → List (List Byte × Issuer)
  | [] => [e]
  | x :: r => if egressTime now e < egressTime now x then e :: x :: r else x :: insertTimed now e r

/-- SEND_TIMED_EGRESS: the sends of a die whose T has come take their LSEQ and leave, in the order of T, and of their release where that is
equal. -/
def execSendTimedEgress (die : Nat) (s : State) : Out :=
  let d := s.die die
  let now := s.time.toNat
  let due (e : List Byte × Issuer) : Bool := decide (egressTime now e ≤ now)
  let t := s.setDie die { d with egress := d.egress.filter fun e => !due e }
  .next (((d.egress.filter due).foldl (fun l e => insertTimed now e l) []).foldl (fun (t : State) e => t.emitSend e.2 e.1) t)

/-! ### The timebase (R427) -/

/-- TBCTL of a hub: EN and UP. -/
def Hub.en (h : Hub) : Bool := h.tbctl.getLsbD 0
def Hub.up (h : Hub) : Nat := bits h.tbctl 8 4

/-- LOST set or cleared in both hubs. -/
def State.setLost (s : State) (b : Bool) : State :=
  (upTo 2).foldl (fun (t : State) h =>
    let x := t.hub h
    t.setHub h { x with tbctl := setBits x.tbctl 15 15 b.toNat }) s

/-- FABRIC_BEACON: a beacon from the UP port with a hop count of at most 8 sets TIME, corrected by half of the round trip; two good ones
in a row clear LOST. One for another module is forwarded (R423), and none is taken before MODID has been written (R62). -/
def execFabricBeacon (port : Nat) (k : Packet) (s : State) : Out :=
  let h := s.hub (port / 9)
  let hop := (k.data.getD 8 0).toNat
  if !s.numbered then .next s
  else if k.dst ≠ s.modid.toNat then .next { s with outbox := s.outbox ++ [(hubOfDie k.sdie, .beacon, k)] }
  else if !h.en || h.up ≠ port then .next s
  else if hop = 0 || 8 < hop then .next { s with beacons := 0 }
  else
    let t := word (ofBytes (k.data.take 8)) + word (s.port port).delay
    let s := { s with time := t, beaconAt := t, hops := hop, beacons := s.beacons + 1 }
    .next (if 2 ≤ s.beacons then s.setLost false else s)

/-- The beacons that the ports of a hub send to the modules they lead to (log 48): the master's with hop count 1, others' with one more than
they received. -/
def State.sendBeacons (s : State) (hub : Nat) : State :=
  let h := s.hub hub
  let master := h.up == 31
  if !s.numbered || !h.en || (!master && s.hops == 0) then s
  else
    let hop := if master then 1 else s.hops + 1
    let k (p : Nat) : Packet := { dst := (Config.portModule p).toNat, src := s.modid.toNat, sdie := 6 + hub, lseq := 0, exp := 0, addr := 0,
                                  data := bytesOf 8 s.time.toNat ++ bytesOf 8 hop }
    ((upTo 9).map fun i => 9 * hub + i).foldl (fun (t : State) p =>
      let x := t.port p
      if p = h.up || !x.takes 4 then t else t.setPort p (x.push .beacon (k p))) s

/-- BEACON_SEND: each microsecond beacons are sent on, and the delay of the UP link is measured by an echo (log 27). -/
def execBeaconSend (s : State) : Out :=
  let t := (s.sendBeacons 0).sendBeacons 1
  .next ((upTo 2).foldl (fun (t : State) h =>
    let up := (t.hub h).up
    if (t.hub h).en && up < 18 then t.setPort up { t.port up with delay := (Config.linkDelay t.draws).toNat } else t)
    { t with draws := t.draws + 1 })

/-- BEACON_LOST: a module that takes part, and is not the master, sets LOST after 8 µs without a good beacon. -/
def execBeaconLost (s : State) : Out :=
  let takes := (upTo 2).any fun h => (s.hub h).en && (s.hub h).up != 31
  if takes && decide (s.beaconAt.toNat + 8000 ≤ s.time.toNat) then .next ({ s with beacons := 0 }.setLost true) else .next s

/-! ### Packets that have arrived (R420 to R423) -/

/-- A packet taken from a port: it acts by its TYPE; one of an unlisted TYPE is dropped and counted as a link error (R422). -/
def State.takePacket (s : State) (port : Nat) (l : List Byte) : Out :=
  match packetOf l with
  | none => let p := s.port port; .next (s.setPort port { p with linkErrors := p.linkErrors + 1 })
  | some (t, k) =>
    match t with
    | .read => execFabricRead k s
    | .data => execFabricData k s
    | .write => execFabricWrite k s
    | .lock => execFabricLock k s
    | .ack => execFabricAck k s
    | .perform => execFabricPerform k s
    | .unlock => execFabricUnlock k s
    | .atomic => execFabricAtomic k s
    | .sc => execFabricSc k s
    | .refuse => execFabricRefuse k s
    | .send => execFabricSend k s
    | .beacon => execFabricBeacon port k s

/-- The oldest packet of the first port that holds one. -/
def State.nextPacket (s : State) : Option (Nat × List Byte × State) :=
  match s.ports.find? fun p => !p.2.packets.isEmpty with
  | none => none
  | some (p, x) =>
    match x.packets with
    | (_, l) :: rest => some (p, l, s.setPort p ({ x with packets := rest } : Port).restop)
    | [] => none

end Sys2Proof.Machine
end

