-- ==== Sys2Proof/Machine/DieLinks.lean ====
section
/-! DEFINITION. The die links (R428 to R430): die flits, and what each message of the six classes does at the die it reaches. -/

namespace Sys2Proof.Machine

/-! ### Messages as bytes (R429) -/

/-- The header and data of a message in whole slots of 16 bytes. -/
def dieMsgBytes (cls typ : Nat) (m : DieMsg) : List Byte :=
  let a := cls * 2 ^ 61 + typ % 32 * 2 ^ 56 + m.sdie % 16 * 2 ^ 52 + m.ddie % 16 * 2 ^ 48 + m.addr % 2 ^ 46
  let b := m.data.length % 256 * 2 ^ 56 + m.tag % 65536 * 2 ^ 40 + m.exp % 2 ^ 24 * 2 ^ 16
  let l := bytesOf 8 a ++ bytesOf 8 b ++ m.data
  l ++ List.replicate ((16 - l.length % 16) % 16) 0

/-- TYPE values of a class (R429): 0 for a class that is dropped. -/
def dieTypes (cls : Nat) : Nat :=
  if cls ≤ 3 then 4 else if cls ≤ 5 then 2 else 0

/-- The message at the front of a run of slots, its class and type, and the slots that it takes. -/
def dieMsgOf (l : List Byte) : (Nat × Nat × DieMsg) × Nat :=
  let a := word (ofBytes (l.take 8))
  let b := word (ofBytes ((l.drop 8).take 8))
  let n := bits b 63 56
  ((bits a 63 61, bits a 60 56,
    { sdie := bits a 55 52, ddie := bits a 51 48, addr := bits a 45 0, tag := bits b 55 40, exp := bits b 39 16, data := (l.drop 16).take n }),
   16 + (n + 15) / 16 * 16)

/-- The whole messages in a run of slots, and the bytes of one that goes on in the next flit: an unused slot is zero, and a message of an
unlisted class or TYPE is dropped (R429). -/
def dieMsgs : Nat → List Byte → List (Nat × Nat × DieMsg) × List Byte
  | 0, l => ([], l)
  | f + 1, l =>
    if l.length < 16 then ([], l)
    else if (l.take 16).all (· == 0) then dieMsgs f (l.drop 16)
    else
      let (m, n) := dieMsgOf l
      if l.length < n then ([], l)
      else
        let (r, rest) := dieMsgs f (l.drop n)
        (if m.2.1 < dieTypes m.1 then m :: r else r, rest)

/-! ### Ports -/

/-- A message ends at the die that it has reached: it names that die, or it is a DISCOVER, which goes to the other end of a link. -/
def endsAt (die cls typ : Nat) (m : DieMsg) : Bool := (cls == 5 && typ == 0) || m.ddie == die

/-- The messages of a class that have come in at a die and still wait. -/
def State.dieBuffered (s : State) (die cls : Nat) : Nat := (s.dieIn.filter fun x => x.1 == cls && x.2.2.ddie == die).length

/-- STOP of a die's ports: one bit per class, set while as many messages of it wait as R421 gives flits of a lane (log 68). -/
def State.dieStops (s : State) (die : Nat) : BitVec 6 :=
  BitVec.ofNat 6 ((upTo 6).foldl (fun (n : Nat) c => if 256 ≤ s.dieBuffered die c then n + 2 ^ c else n) 0)

/-- The unacknowledged flits of a die port that retrains go to another port with the same partner die; they stay where there is none (R420,
R429). -/
def State.moveDieFlits (s : State) (die port : Nat) : State :=
  let p := s.diePort die port
  let mate (x : DiePort) : Option Nat := x.peer.map fun y => y.1
  match (upTo (portsOf die)).find? fun x => x != port && (mate (s.diePort die x)).isSome && mate (s.diePort die x) == mate p &&
      !(s.diePort die x).down with
  | none => s
  | some o =>
    let x := s.diePort die o
    let fs := p.unacked.mapIdx fun i u => { u with seq := (x.sent + i) % 4096 }
    (s.setDiePort die port { p with unacked := [] }).setDiePort die o
      { x with unacked := x.unacked ++ fs, sent := (x.sent + fs.length) % 4096 }

/-- DIE_FLIT_RECEIVE (R429): replay as R420 gives, with 512 flits; the whole messages of the slots are taken in, and those for another die
go on toward it (R10). -/
def execDieFlitReceive (die port : Nat) (raw : List Byte) (s : State) : Out :=
  let f := dieFlitOf raw
  let p := s.diePort die port
  if !f.crcGood || f.seq ≠ p.next then .next (s.setDiePort die port { p with sendNak := true })
  else
    let left := p.unacked.filter fun u => decide (seqAfter f.ack u.seq ≥ 2048)
    let n := (if left.length < p.unacked.length then 0 else p.replays) + f.nak.toNat
    let (ms, rest) := dieMsgs 16 (p.slots ++ f.slots)
    let p := { p with stopped := f.stop, unacked := left, replays := n, down := false, next := (p.next + 1) % 4096, acked := f.seq,
                      sendNak := false, slots := rest }
    let t := s.setDiePort die port (if 8 ≤ n then { p with replays := 0, retrains := p.retrains + 1, down := true } else p)
    let t := if 8 ≤ n then t.moveDieFlits die port else t
    .next { t with
      dieIn := t.dieIn ++ ms.filter (fun x => endsAt die x.1 x.2.1 x.2.2)
      dieFwd := t.dieFwd ++ (ms.filter fun x => !endsAt die x.1 x.2.1 x.2.2).map fun x => (die, x) }

/-- The message expects a response: a request, a write other than an unlock, or an engine's command. -/
def dieAsks (cls typ : Nat) : Bool := cls == 0 || (cls == 2 && typ != 2) || (cls == 4 && typ == 0)

/-- The port by which a message leaves a die: the one that DISCOVER names, else the lowest that takes its class and whose partner is its
destination, or the next die on the way there (R10, R429, R431). -/
def State.diePortFor (s : State) (die cls typ : Nat) (m : DieMsg) : Option Nat :=
  let leads (d p : Nat) : Bool :=
    let x := s.diePort die p
    (x.peer.map fun y => y.1) == some d && !x.down && !x.stopped.getLsbD cls && decide (x.unacked.length < 512)
  if cls = 5 ∧ typ = 0 then some m.tag
  else
    let ports := upTo (portsOf die)
    match ports.find? (leads m.ddie) with
    | some p => some p
    | none => ports.find? (leads (nextHop die m.ddie))

/-- A message leaves a die in flits of 15 slots, where a port takes it. -/
def State.sendDie (s : State) (die : Nat) (x : Nat × Nat × DieMsg) : Option State :=
  let (cls, typ, m) := x
  (s.diePortFor die cls typ m).map fun p =>
    let q := s.diePort die p
    let fs := (chunksOf 240 16 (dieMsgBytes cls typ m)).mapIdx fun i c =>
      ({ crcGood := true, seq := (q.sent + i) % 4096, ack := q.acked, nak := q.sendNak, stop := s.dieStops die,
         slots := c ++ List.replicate (240 - c.length) 0 } : DieFlit)
    s.setDiePort die p { q with unacked := q.unacked ++ fs, sent := (q.sent + fs.length) % 4096 }

/-- Two messages whose order a die keeps: of one class, from one die to one die. -/
def sameWay (x y : Nat × Nat × DieMsg) : Bool := x.1 == y.1 && x.2.2.sdie == y.2.2.sdie && x.2.2.ddie == y.2.2.ddie

/-- Messages leave in order, as far as the ports take them: those on their way through a die first, then those of its own. -/
def State.pumpDies (s : State) : State :=
  let t := s.dieFwd.foldl (fun (t : State) (x : Nat × Nat × Nat × DieMsg) =>
    let stay : State := { t with dieFwd := t.dieFwd ++ [x] }
    if t.dieFwd.any fun y => y.1 == x.1 && sameWay y.2 x.2 then stay else (t.sendDie x.1 x.2).getD stay) { s with dieFwd := [] }
  t.dieOut.foldl (fun (t : State) (x : Nat × Nat × DieMsg) =>
    let stay : State := { t with dieOut := t.dieOut ++ [x] }
    if t.dieOut.any fun y => sameWay y x then stay
    else
      match t.sendDie x.2.2.sdie x with
      | none => stay
      | some t => if dieAsks x.1 x.2.1 then { t with dieAsked := t.dieAsked ++ [x] } else t) { t with dieOut := [] }

/-! ### Requests and writes (R429, R430) -/

/-- The source of a die's locks: no module has such a number. -/
def dieSource (m : DieMsg) : Nat × Nat := (1024 + m.sdie, 0)

/-- A message sent to the die that `m` came from, with its TAG. -/
def State.dieAnswer (s : State) (m : DieMsg) (cls typ : Nat) (data : List Byte) : State :=
  { s with dieOut := s.dieOut ++ [(cls, typ, { sdie := m.ddie, ddie := m.sdie, addr := m.addr, tag := m.tag, exp := 0, data })] }

/-- An earlier message of the same class between the same dies is still to be acted on (R429). -/
def State.dieBehind (s : State) (x : Nat × Nat × DieMsg) : Bool :=
  s.dieIn.contains x && (s.dieIn.takeWhile (· ≠ x)).any (sameWay x)

/-- A request taken from those that wait, and served, refused with its reason, or kept waiting while a lock holds its words, or while one
that came before it on its way is still to be acted on. -/
def State.dieServe (s : State) (cls typ : Nat) (m : DieMsg) (k : State → Served) : Out :=
  if s.dieBehind (cls, typ, m) then .next s else
  let taken : State := { s with dieIn := s.dieIn.filter (· ≠ (cls, typ, m)) }
  match k taken.unfocus with
  | .done t => .next t
  | .refused t reason => .next (t.dieAnswer m 1 2 [BitVec.ofNat 8 reason])
  | .held => .next { taken with dieIn := taken.dieIn ++ [(cls, typ, m)] }
  | .stay => .next { taken with dieIn := taken.dieIn ++ [(cls, typ, m)] }

/-- The HOME die whose range holds a local offset: the first 64 GiB and the count of its topology entry (R430, R432). -/
def State.rangeDie (s : State) (o : Nat) : Option Nat :=
  (s.topo.find? fun e => decide (8 ≤ e.1) && bits e.2.1 63 56 == 3 &&
    decide (bits e.2.1 45 36 ≤ o / 2 ^ 36) && decide (o / 2 ^ 36 < bits e.2.1 45 36 + bits e.2.1 9 0)).map fun e => e.1

/-- The die that is the home of a local offset: a HOME die where its range holds it, else as the map of the module gives (R8, R65, R430). -/
def State.homeDieOf (s : State) (o : Nat) : Option Nat :=
  match s.rangeDie o with
  | some d => some d
  | none => homeDie o

/-- An access at a home of the die that the message has reached; one for another part's address is refused as the map refuses it
(R65, log 56). -/
def State.dieAccess (s : State) (cls typ : Nat) (m : DieMsg) (k : State → Served) : Out :=
  s.dieServe cls typ m fun t => if (t.homeDieOf m.addr).all fun d => d == m.ddie then k t else .refused t Cause.format.number

/-- The K-dies of the package (R431, R432). -/
def State.kDies (s : State) : List Nat := (s.topo.filter fun e => bits e.2.1 63 56 == 1).map fun e => e.1

/-- The answer to an access that has written the `n` bytes from `pa`, or none where `n` is 0. A HOME die of an integrator sends INV for them to
every K-die of the package first, and answers once every INVACK has come (R350, R430); a die of the module has cleared the ways already. -/
def State.dieDone (s : State) (m : DieMsg) (typ pa n : Nat) (data : List Byte) : State :=
  if m.ddie < 8 ∨ n = 0 ∨ s.kDies = [] then s.dieAnswer m 1 typ data
  else
    let tag := s.ids % 65536
    let inv (d : Nat) : Nat × Nat × DieMsg :=
      (2, 3, { sdie := m.ddie, ddie := d, addr := localOf pa, tag, exp := 0, data := bytesOf 2 n })
    { s with
      ids := s.ids + 1
      dieOut := s.dieOut ++ s.kDies.map inv
      homeAcks := s.homeAcks ++ [{ answer := (1, typ, { sdie := m.ddie, ddie := m.sdie, addr := m.addr, tag := m.tag, exp := 0, data }),
                                   tag, left := s.kDies }] }

/-- The answers of a HOME die whose last INVACK has come leave. -/
def State.homeAcked (s : State) (m : DieMsg) : State :=
  let acked (h : HomeAck) : HomeAck :=
    if h.answer.2.2.sdie = m.ddie ∧ h.tag = m.tag then { h with left := h.left.filter (· ≠ m.sdie) } else h
  let l := s.homeAcks.map acked
  { s with homeAcks := l.filter fun h => h.left ≠ [], dieOut := s.dieOut ++ (l.filter fun h => h.left = []).map fun h => h.answer }

/-- DIE_REQ_READ. -/
def execDieReqRead (m : DieMsg) (s : State) : Out :=
  s.dieAccess 0 0 m fun s => s.serveRead s.freeWorld true m.exp (s.paOf m.addr) (m.data.getD 0 0).toNat fun s l => s.dieAnswer m 1 0 l
/-- DIE_REQ_LOCK (R318). -/
def execDieReqLock (m : DieMsg) (s : State) : Out :=
  s.dieAccess 0 1 m fun s => s.serveLock s.freeWorld true (dieSource m) m.exp (s.paOf m.addr) m.data fun s => s.dieAnswer m 1 1 []
/-- DIE_REQ_ATOMIC (R330, R333): as an access of this module, it marks tasks. -/
def execDieReqAtomic (m : DieMsg) (s : State) : Out :=
  s.dieAccess 0 2 m fun s => State.serveAtomic State.homeAtomic s s.freeWorld (.die m) true m.exp (s.paOf m.addr) m.data fun s held l =>
    let op := atomOpOf (m.data.getD 0 0).toNat
    let ty := atypeOf (m.data.getD 1 0).toNat
    let wrote := (op.apply ty (ofBytes l) (ofBytes ((m.data.drop 3).take 16)) (ofBytes ((m.data.drop 19).take 16))).isSome
    let n := if wrote then typeBytes ty else 0
    if held then s.dieDone m 1 (s.paOf m.addr) n [] else s.dieDone m 0 (s.paOf m.addr) n l
/-- Another die has announced the operation. -/
def ScAnn.fromDie (a : ScAnn) : Bool :=
  match a.asker with
  | .die _ => true
  | .unit => false
  | .packet _ => false
  | .announced => false

/-- DIE_REQ_SC (R335): the operation takes the place in sco that its announcement gave it, or one of now where it had none; SC_PERFORM
performs it in its turn. -/
def execDieReqSc (m : DieMsg) (s : State) : Out :=
  let b (i : Nat) : Nat := (m.data.getD i 0).toNat
  let op := scOpOf (b 0)
  let z : ScSize := if b 1 = 0 then .w else .d
  s.dieAccess 0 3 m fun s =>
    let pa := s.paOf m.addr
    if s.leaseOver m.exp then .refused s 6
    else
      let (t, secure) := s.freeWorld
      match t.scRefused secure op pa (scBytes z) with
      | some c => .refused t c.number
      | none =>
        let mine (a : ScAnn) : Bool := !a.known && a.fromDie && a.loc.die == m.sdie && a.pa == pa
        match t.announced.find? mine with
        | some a => .done { t with announced := t.announced.map fun x => if x = a then { a with known := true, asker := .die m } else x }
        | none =>
          let arg (k : Nat) : Word := word (ofBytes ((m.data.drop k).take 8))
          let a := scAnnOf t 0 op .device z 0 (arg 2) (arg 10) t.time ⟨m.sdie, 0, 0, 0⟩
          .done { t with announced := t.announced ++ [{ a with pa, known := true, asker := .die m }] }

/-- DIE_WR_PERFORM (R319). -/
def execDieWrPerform (m : DieMsg) (s : State) : Out :=
  s.dieAccess 2 0 m fun s => .done ((s.homeWrite (s.paOf m.addr) m.data).dieDone m 1 (s.paOf m.addr) m.data.length [])
/-- DIE_WR_WRITE: an engine's write, or a store to the host window. -/
def execDieWrWrite (m : DieMsg) (s : State) : Out :=
  s.dieAccess 2 1 m fun s => s.serveWrite s.freeWorld true true false m.exp (s.paOf m.addr) m.data.length fun s =>
    .done ((s.homeWrite (s.paOf m.addr) m.data).dieDone m 1 (s.paOf m.addr) m.data.length [])
/-- DIE_WR_UNLOCK (R318). -/
def execDieWrUnlock (m : DieMsg) (s : State) : Out :=
  s.dieAccess 2 2 m fun s =>
    .done { s with remoteLocks := s.remoteLocks.filter fun r => r ≠ (alignDown (s.paOf m.addr) 4, (dieSource m).1, (dieSource m).2) }

/-- A cluster of the die. -/
def clusterOf (die : Nat) (key : Nat) : Bool := (upTo Config.clustersPerDie).any fun c => key == clusterId die c

/-- The words that `p` admits leave the ways of a die's clusters. -/
def State.clearDie (s : State) (die : Nat) (p : Nat → Bool) : State :=
  { s with clusters := s.clusters.map fun (c : Nat × Cluster) => if clusterOf die c.1 then (c.1, c.2.clearWords p) else c }

/-- A signature as it travels (R429). -/
def sigOf (data : List Byte) : BitVec 1024 := BitVec.ofNat 1024 (ofBytes (data.take 128))

/-- DIE_WR_INV (R350, R430): the words of the span, or of the signature where 128 bytes come, leave the ways of the die's clusters, and
INVACK answers. The length of a span is the value of its data bytes (log 13). -/
def execDieWrInv (m : DieMsg) (s : State) : Out :=
  s.dieServe 2 3 m fun s =>
    let pa := s.paOf m.addr
    let p (w : Nat) : Bool :=
      if m.data.length = 128 then inSig (sigOf m.data) w else decide (alignDown pa 4 ≤ w) && decide (w < pa + ofBytes m.data)
    .done ((s.clearDie m.ddie p).dieAnswer m 1 3 [])

/-! ### Responses -/

/-- A response reaches the request with its TAG, which is then no longer outstanding; it stays among what has come in for its issuer, and an
INVACK counts for the HOME die that waits for it. -/
def State.dieResponse (s : State) (typ : Nat) (m : DieMsg) : Out :=
  let mine (x : Nat × Nat × DieMsg) : Bool :=
    x.1 != 4 && x.2.2.tag == m.tag && x.2.2.sdie == m.ddie && x.2.2.ddie == m.sdie
  let rest := s.dieIn.filter (· ≠ (1, typ, m))
  if s.dieAsked.any mine then
    let t : State := { s with dieAsked := s.dieAsked.filter fun x => !mine x, dieIn := rest ++ [(1, typ, m)] }
    .next (if typ = 3 then t.homeAcked m else t)
  else .next { s with dieIn := rest }

/-- DIE_RSP_DATA. -/
def execDieRspData (m : DieMsg) (s : State) : Out := s.dieResponse 0 m
/-- DIE_RSP_ACK. -/
def execDieRspAck (m : DieMsg) (s : State) : Out := s.dieResponse 1 m
/-- DIE_RSP_REFUSE. -/
def execDieRspRefuse (m : DieMsg) (s : State) : Out := s.dieResponse 2 m
/-- DIE_RSP_INVACK (R350, R430). -/
def execDieRspInvack (m : DieMsg) (s : State) : Out := s.dieResponse 3 m

/-! ### Arbitration -/

/-- DIE_ARB_SIG (R168): a committed write signature clears the ways of the die's clusters. -/
def execDieArbSig (m : DieMsg) (s : State) : Out := s.dieServe 3 0 m fun s => .done (s.clearDie m.ddie (inSig (sigOf m.data)))

/-- DIE_ARB_LOWTS (R322): the lowest uncommitted timestamp of a launch at another die; the data is the launch, then the timestamp
(log 13). -/
def execDieArbLowts (m : DieMsg) (s : State) : Out :=
  s.dieServe 3 1 m fun s =>
    let d := s.die m.ddie
    let launch := BitVec.ofNat 32 (ofBytes (m.data.take 4))
    let ts := BitVec.ofNat 32 (ofBytes ((m.data.drop 4).take 4))
    .done (s.setDie m.ddie { d with lowTs := d.lowTs.filter (fun e => !(e.1 == m.sdie && e.2.1 == launch)) ++ [(m.sdie, launch, ts)] })

/-- DIE_ARB_MARK (R324): the running tasks of the die whose read signature meets the write signature are marked. -/
def execDieArbMark (m : DieMsg) (s : State) : Out := s.dieServe 3 2 m fun s => .done (s.mark (sigOf m.data) fun u => u.loc.die == m.ddie)

/-- DIE_ARB_SCANN (R335): an SC operation announced by another die, which performs it with a request of its own; its data is TIME, the
place within the die, the scope, and then the operation as in a request (log 13). -/
def execDieArbScann (m : DieMsg) (s : State) : Out :=
  s.dieServe 3 3 m fun s =>
    let ta := ofBytes (m.data.take 8)
    let (c, p, l) := ((m.data.getD 8 0).toNat % 32, (m.data.getD 9 0).toNat % 8, (m.data.getD 10 0).toNat % 8)
    let scope : ScScope := if m.data.getD 11 0 = 0 then .device else .domain
    let a := scAnnOf s 0 (scOpOf (m.data.getD 12 0).toNat) scope (if m.data.getD 13 0 = 0 then .w else .d) 0
      (word (ofBytes ((m.data.drop 14).take 8))) (word (ofBytes ((m.data.drop 22).take 8))) (word ta) ⟨m.sdie, c, p, l⟩
    .done { s with announced := s.announced ++ [{ a with pa := s.paOf m.addr, asker := .die m }] }

/-! ### Engines and management -/

/-- DIE_ENG_CMD: a command for an engine of the die is taken in; the engines' own steps run it. -/
def execDieEngCmd (m : DieMsg) (s : State) : Out := .next { s with dieIn := s.dieIn.filter (· ≠ (4, 0, m)) ++ [(4, 0, m)] }
/-- DIE_ENG_DONE: an engine of another die has done the command with this TAG, which is then no longer outstanding. -/
def execDieEngDone (m : DieMsg) (s : State) : Out :=
  let mine (x : Nat × Nat × DieMsg) : Bool := x.1 == 4 && x.2.2.tag == m.tag && x.2.2.sdie == m.ddie && x.2.2.ddie == m.sdie
  .next { s with dieAsked := s.dieAsked.filter (fun x => !mine x), dieIn := s.dieIn.filter (· ≠ (4, 1, m)) ++ [(4, 1, m)] }

/-- DIE_MGMT_BEACON (R67, R427): a hub die hands its TIME on to the dies of the module; the data is TIME (log 13). -/
def execDieMgmtBeacon (m : DieMsg) (s : State) : Out :=
  let rest := s.dieIn.filter (· ≠ (5, 1, m))
  if m.sdie = 6 ∨ m.sdie = 7 then .next { s with time := word (ofBytes (m.data.take 8)), dieIn := rest } else .next { s with dieIn := rest }

end Sys2Proof.Machine
end

