-- ==== Sys2Proof/Machine/HostLink.lean ====
section
/-! DEFINITION. The host link (R415): what a host reads through BAR0 and does through BAR2, and the device atomics on the host window that a hub performs with
PCIe AtomicOps (R354, R355, R417). -/

namespace Sys2Proof.Machine

/-! ### BAR2 (R415) -/

/-- The physical address of an offset in BAR2 of a hub: the local map at HAPB. -/
def State.bar2 (s : State) (hub : Nat) (off : BitVec 36) : Nat := s.paOf (localOf ((s.hub hub).hapb.toNat + off.toNat))

/-- What the host has read or been answered; a Completer Abort leaves nothing (R436). -/
def State.hostAnswer (s : State) (hub : Nat) (l : List Byte) : State := s.setHub hub { s.hub hub with hostReply := l }

/-- An access of the host to `n` bytes: nothing happens until the command-processor firmware runs (R438), or while a lock holds the
words (R318): the host link then tries again. -/
def State.hostAccess (s : State) (hub : Nat) (off : BitVec 36) (n : Nat) (k : Nat → State) : Out :=
  let pa := s.bar2 hub off
  if s.boot ≠ .running || s.anyLock pa n then .next s else .next (k pa)

/-- HOST_READ: through BAR0 the hub's registers, by which the host learns of completion; through BAR2 performed at the home, outside any
task, as a non-secure access (R415, R433). -/
def execHostRead (hub : Nat) (off : HostAddr) (size : Nat) (s : State) : Out :=
  match off with
  | .bar0 off => .next (if s.boot ≠ .running then s else s.hostAnswer hub (s.hubBytes hub off.toNat size))
  | .bar2 off =>
    s.hostAccess hub off size fun pa =>
      match s.homeRead false pa size with
      | .bytes l => s.hostAnswer hub l
      | .fault _ => s.hostAnswer hub []
      | .wait => s

/-- HOST_WRITE: it marks no task (R325), and clears the ways (R350). -/
def execHostWrite (hub : Nat) (off : BitVec 36) (data : List Byte) (s : State) : Out :=
  s.hostAccess hub off data.length fun pa =>
    match s.writeRefused false false pa with
    | some _ => s.hostAnswer hub []
    | none => s.homeWrite pa data

/-- An AtomicOp of the host: one indivisible access at the home, whose old value is the answer. One that is not naturally aligned is
refused as PCIe gives (log 25). -/
def State.hostAtomic (s : State) (hub : Nat) (off : BitVec 36) (n : Nat) (f : Nat → Option Nat) : Out :=
  s.hostAccess hub off n fun pa =>
    match if pa % n ≠ 0 then some Cause.format else s.writeRefused false false pa with
    | some _ => s.hostAnswer hub []
    | none =>
      let old := ofBytes (s.homeGet pa n)
      let t := match f old with
        | some x => s.homeWrite pa (bytesOf n x)
        | none => s
      t.hostAnswer hub (bytesOf n old)

/-- HOST_FETCH_ADD (R415). -/
def execHostFetchAdd (hub : Nat) (off : BitVec 36) (z : ScSize) (value : Word) (s : State) : Out :=
  s.hostAtomic hub off (scBytes z) fun old => some ((old + value.toNat) % 2 ^ (8 * scBytes z))
/-- HOST_SWAP (R415). -/
def execHostSwap (hub : Nat) (off : BitVec 36) (z : ScSize) (value : Word) (s : State) : Out :=
  s.hostAtomic hub off (scBytes z) fun _ => some (value.toNat % 2 ^ (8 * scBytes z))
/-- HOST_CAS (R415). -/
def execHostCas (hub : Nat) (off : BitVec 36) (size : Nat) (compare value : BitVec 128) (s : State) : Out :=
  s.hostAtomic hub off size fun old =>
    if old = compare.toNat % 2 ^ (8 * size) then some (value.toNat % 2 ^ (8 * size)) else none

/-! ### Device atomics on the host window (R354, R355) -/

/-- The old value of an atomic of the hub's queue reaches whoever asked: a waiting instruction, another module or another die; a held
reduction asks for none. -/
def State.hubDone (s : State) (a : HostAtomic) (old : Nat) : State :=
  match a.asker with
  | .unit => s.answerPend a.pend fun p => { p with values := some (atomicValues a.t old) }
  | .packet k => if a.commit then s.respond k .ack 0 [] else s.respond k .data 0 (bytesOf (typeBytes a.t) old)
  | .die m => if a.commit then s.dieAnswer m 1 1 [] else s.dieAnswer m 1 0 (bytesOf (typeBytes a.t) old)
  | .announced => s

/-- The host has not completed it (R355): a waiting instruction takes HOST_ATOMIC, a unit whose held reduction it was takes it once its commit
has ended (log 57), and another module or die is refused. -/
def State.hubFailed (s : State) (a : HostAtomic) : State :=
  match a.asker with
  | .unit =>
    if a.commit then s.modUnits (fun u => u.placed && u.loc == a.loc && u.visible) fun u =>
      { u with owed := u.owed ++ [{ hostTrap a.ea with beyond := true }] }
    else s.answerPend a.pend fun p => { p with failed := some (p.trap (hostTrap a.ea)) }
  | .packet k => s.refuseAgain k Cause.hostAtomic.number
  | .die m => s.dieAnswer m 1 2 [BitVec.ofNat 8 Cause.hostAtomic.number]
  | .announced => s

/-- Its region's state refuses it now (R357): a fault of the waiting instruction, which issues the access again after a RETRY, or a refusal;
none while the message must wait. -/
def State.hubRefused (s : State) (a : HostAtomic) (c : Cause) : Option State :=
  match a.asker with
  | .unit => (s.faultPend a.pend .atomic a.ea c).map fun t =>
      t.answerPend a.pend fun p => { p with act := .atomic a.op a.t a.ea a.y a.cmp }
  | .packet k => some (s.refuseAgain k c.number)
  | .die m => some (s.dieAnswer m 1 2 [BitVec.ofNat 8 c.number])
  | .announced => some s

/-- HUB_HOST_ATOMIC (R354, R355, R417): the oldest access that waits at the hub is performed: an atomic with a PCIe AtomicOp or a CAS loop,
or the store that stands behind one. A completion of UR or CA clears the bit of its operation and width and nothing is written. -/
def execHubHostAtomic (hub : Nat) (status : PcieStatus) (s : State) : Out :=
  match (s.hub hub).atomics with
  | [] => .next s
  | a :: rest =>
    let h := s.hub hub
    let done (h : Hub) : State := s.setHub hub { h with atomics := rest }
    let abort : State := (done { h with hacap := h.hacap &&& ~~~(word (2 ^ hacapBit a.op a.t)) }).hubFailed a
    match a.store with
    | some b => .next ((done h).homeWrite a.pa b)
    | none =>
      match status with
      | .ur => .next abort
      | .ca => .next abort
      | .sc =>
        if !s.hostCompletes (localOf a.pa) a.op a.t then .next ((done h).hubFailed a)
        else
          match (if a.commit then none else s.writeRefused true false a.pa) with
          | some c => .next (((done h).hubRefused a c).getD s)
          | none =>
            let f (old : Nat) : Option Nat := a.op.apply a.t old a.y.toNat a.cmp.toNat
            let (t, old) := match a.asker with
              | .unit => (done h).unfocus.homeAtomic a.pa (typeBytes a.t) f
              | .packet _ => (done h).unfocus.farAtomic a.pa (typeBytes a.t) f
              | .die _ => (done h).unfocus.homeAtomic a.pa (typeBytes a.t) f
              | .announced => (done h, 0)
            .next (t.hubDone a old)

end Sys2Proof.Machine
end

