-- ==== Sys2Proof/Machine/Place.lean ====
section
/-! DEFINITION. Placement (R372, R377 to R380), the choice of the slots that a launch of higher priority takes (R377, R405), the end
of a launch (R353, R382) and its watchdog (R404). -/

namespace Sys2Proof.Machine

/-! ### Slots -/

/-- A slot holds a unit: one that has not left its core. -/
def State.slotHeld (s : State) (l : Loc) : Bool := (s.unitAt l).isSome

/-- Units on a core that hold a slot. -/
def State.unitsOn (s : State) (core : Nat) : List Unit := s.units.filter fun u => u.coreId == core && !u.away

/-- The cluster may hold units of a launch: none of the banks that it would be granted is held by another (R378). -/
def State.banksFree (s : State) (l : Launch) (cl : Nat) : Bool :=
  l.kind == 2 || !((s.cluster cl).granted.any fun g => g.2 != l.num && l.word5.getLsbD g.1)

/-- A core is one of those that a running sealed launch of another number was placed on (R379). -/
def State.sealedOn (s : State) (l : Launch) (core : Nat) : Bool := s.sealedBy l.num core

/-- The cores that a launch may use now, in (die, cluster, core) order. -/
def State.coresFor (s : State) (l : Launch) : List Loc :=
  (s.coresAllowed l.job l.kind l.dies l.clusters).filter fun c =>
    s.banksFree l (clusterId c.die c.cluster) && !s.sealedOn l (coreId c)

/-- The first cores of the gangs of a launch among its cores (R377). -/
def gangBases (g : Nat) (cores : List Loc) : List Loc :=
  cores.filter fun c => c.core % g == 0 && (upTo g).all fun i => cores.contains { c with core := c.core + i }

/-- The slots that are free on every core of a gang. -/
def State.gangSlots (s : State) (g : Nat) (base : Loc) : List Nat :=
  (upTo (slotsOf base)).filter fun k => (upTo g).all fun i => !s.slotHeld { base with core := base.core + i, slot := k }

/-- A unit of another launch is on a core. -/
def State.otherOn (s : State) (l : Launch) (c : Loc) : Bool := (s.unitsOn (coreId c)).any fun u => u.launch != l.num

/-- The place of the next gang of an unsealed launch, or of a child: the core with the most free slots, the lowest one of equals, and
its lowest free slot (R377); a child of a sealed launch goes on no core with a unit of another launch (R379). -/
def State.choosePlace (s : State) (l : Launch) : Option Loc :=
  let best := (gangBases l.gang ((s.coresFor l).filter fun c => !l.sealed' || !s.otherOn l c)).foldl (fun (b : Option (Nat × Loc)) c =>
    match s.gangSlots l.gang c with
    | [] => b
    | k :: rest =>
      let n := rest.length + 1
      match b with
      | some (m, _) => if m < n then some (n, { c with slot := k }) else b
      | none => some (n, { c with slot := k })) none
  best.map fun b => b.2

/-- The places of a sealed launch, whole or not at all: on the lowest cores that hold no unit of another launch (R379). -/
def State.sealedPlaces (s : State) (l : Launch) (gangs : Nat) : Option (List Loc) :=
  let cores := (s.coresFor l).filter fun c => !s.otherOn l c
  let ps := (gangBases l.gang cores).flatMap fun c => (s.gangSlots l.gang c).map fun k => { c with slot := k }
  if ps.length < gangs then none else some (ps.take gangs)

/-! ### A unit on its slot (R372, R380, R228) -/

/-- Where the aperture of a launch begins: 16 MiB × a number that the command processor chooses and the manual leaves open. -/
def apertureBase (launch : BitVec 32) : Word := word (16777216 * (Config.apertureNumber launch.toNat % 2 ^ 32))

/-- The local store of a slot (R161, R162). -/
def storeBase (lap : Word) (l : Loc) : Word := lap + 0x70_0000 + word ((8 * (l.core % 8) + l.slot % 8) * 16384)

/-- The scalar registers that a unit begins with: P8 to P10, or the captured values of its spawn (R228, R380). -/
def Launch.firstRegs (l : Launch) (p : PendUnit) : Vector Word 32 :=
  Vector.ofFn fun i =>
    match p.spawn with
    | none => if i.val = 8 then l.p8 else if i.val = 9 then l.p9 else if i.val = 10 then l.p10 else 0
    | some r =>
      if 1 ≤ i.val ∧ i.val < 8 then r.lo.getD (i.val - 1) 0
      else if 8 ≤ i.val ∧ i.val < 16 then r.out.getD (i.val - 8) 0
      else 0

/-- A unit as it begins (R380). -/
def State.newUnit (s : State) (l : Launch) (p : PendUnit) (loc : Loc) : Unit :=
  let lap := apertureBase l.num
  let lsb := storeBase lap loc
  let (entry, ts, mask) : Word × BitVec 32 × Word := match p.spawn with
    | some r => (r.entry, r.ts, r.mask)
    | none => (l.entry, 0, 0xFFFE)
  let u : Unit :=
    { placed := true, loc, job := l.job, pc := entry, npc := entry + 8, regs := l.firstRegs p, wsp := lsb + 16384, lsb, lap,
      unit := word p.unit, launch := l.num, secure := s.coreSecure loc, gang := l.gang,
      lbm := if l.kind = 2 then 0 else word (bits l.word5 13 0), sbind := if l.kind = 2 then l.word5 else 0, wain := l.kind == 2,
      placedAt := s.ids }
  u.beginTask ts mask entry false

/-- The banks of a cluster are granted to a launch with its first unit there (R372). -/
def State.grantBanks (s : State) (l : Launch) (cl : Nat) : State :=
  if l.kind = 2 || s.units.any fun u => u.launch == l.num && u.clusterId == cl then s
  else
    let bs := (upTo 14).filter fun b => l.word5.getLsbD b
    bs.foldl (fun (t : State) b =>
      let mode := bits l.word5 (37 + 2 * b) (36 + 2 * b)
      let c := t.cluster cl
      let t := t.setCluster cl { c with granted := c.granted ++ [(b, l.num)] }
      if mode = 1 then t.configure cl b 1 else if mode = 2 then t.configure cl b 0x42 else t) s

/-- A waiting unit goes on its slot. -/
def State.putUnit (s : State) (l : Launch) (p : PendUnit) (loc : Loc) : State :=
  let u := s.newUnit l p loc
  let s := s.grantBanks l (clusterId loc.die loc.cluster)
  let s := s.lowerTs loc.die l.num u.task.tstamp
  let s := s.modLaunch l.num fun x => { x with cores := if x.cores.contains (coreId loc) then x.cores else x.cores ++ [coreId loc] }
  let s : State := { s with ids := s.ids + 1, waiting := dropFirst p s.waiting }
  if s.cur.placed then { s with others := s.others ++ [u] } else { s with cur := u }

/-- The gang of consecutive waiting units on the same slot of consecutive cores (R377). -/
def State.putGang (s : State) (l : Launch) (ps : List PendUnit) (base : Loc) : State :=
  (ps.mapIdx fun i p => (i, p)).foldl (fun (t : State) x => t.putUnit l x.2 { base with core := base.core + x.1 }) s

/-! ### UNIT_PLACE (R377 to R379) -/

/-- Slots that the units of a job hold (R370). -/
def State.slotsHeld (s : State) (job : Nat) : Nat := (s.units.filter fun u => u.job == job && !u.away).length

/-- The waiting units of a launch, in UNIT order. -/
def State.waitingOf (s : State) (n : BitVec 32) : List PendUnit := s.waiting.filter fun p => p.launch == n

/-- The launches with waiting units: the highest priority first, then the oldest. -/
def insertByPrio (l : Launch) : List Launch → List Launch
  | [] => [l]
  | x :: r => if x.prio < l.prio then l :: x :: r else x :: insertByPrio l r
def State.waitingLaunches (s : State) : List Launch :=
  (s.launches.filter fun l => s.waiting.any fun p => p.launch == l.num).foldl (fun a l => insertByPrio l a) []

/-- How many of the waiting units form the next gang: one for a child, which goes on one slot as a gang of one where fewer than
a whole gang are left. -/
def gangNow (l : Launch) (ps : List PendUnit) : Nat :=
  if (ps.take l.gang).all (fun p => p.spawn.isNone) && decide (l.gang ≤ ps.length) then l.gang else 1

/-- The next units of a launch placed, where they find slots. -/
def State.placeNext (s : State) (l : Launch) : Option State :=
  let ps := s.waitingOf l.num
  if l.sealed' && (ps.all fun p => p.spawn.isNone) then
    if s.maxSlot l.job < s.slotsHeld l.job + ps.length then none
    else
      (s.sealedPlaces l (ps.length / l.gang)).map fun locs =>
        (locs.mapIdx fun i c => (i, c)).foldl (fun (t : State) x => t.putGang l ((ps.drop (x.1 * l.gang)).take l.gang) x.2) s
  else
    let g := gangNow l ps
    let l' := { l with gang := g }
    if s.maxSlot l.job < s.slotsHeld l.job + g then none
    else (s.choosePlace l').map fun c => s.putGang l' (ps.take g) c

/-- The order in which running units lose their slots: the lowest priority, then the youngest launch, then the highest UNIT (R377). -/
def State.losesBefore (s : State) (u v : Unit) : Bool :=
  let prio (x : Unit) : Nat := ((s.launch? x.launch).map fun l => l.prio).getD 0
  if prio u ≠ prio v then decide (prio u < prio v)
  else if u.launch ≠ v.launch then decide (v.launch.toNat < u.launch.toNat)
  else decide (v.unit.toNat < u.unit.toNat)

/-- A unit whose slot a launch may take (R377, R379). -/
def State.mayLose (s : State) (l : Launch) (u : Unit) : Bool :=
  !u.away && !u.taken && !u.gleaner &&
    (match s.launch? u.launch with
     | some x => !x.sealed' && decide (x.prio < l.prio)
     | none => false)

/-- The slots that go with a set of slots: the other slots of their cores with units of the launch, and their gang members (R405);
by fuel. -/
def State.takenWith (s : State) : Nat → List Loc → List Loc
  | 0, ls => ls
  | f + 1, ls =>
    let mine (u : Unit) : Bool := !u.away && ls.any fun l =>
      match s.unitAt l with
      | none => false
      | some v =>
        v.launch == u.launch && v.clusterId == u.clusterId &&
          (v.loc.core == u.loc.core || (v.loc.slot == u.loc.slot && v.loc.core / v.gang == u.loc.core / v.gang))
    s.takenWith f ((s.units.filter mine).map fun u => u.loc)

/-- Slots are chosen for pre-emption. -/
def State.takeSlots (s : State) (ls : List Loc) : State :=
  s.modUnits (fun u => u.placed && !u.away && ls.contains u.loc) fun u => { u with taken := true }

/-- A launch that finds no slot takes one of a running launch of lower priority; a sealed one every slot of the cores that it needs
(R377, R379); none where there is nothing for it to take. -/
def State.preemptFor (s : State) (l : Launch) : Option State :=
  let cores := s.coresFor l
  let ps := s.waitingOf l.num
  if l.sealed' then
    let can (c : Loc) : Bool := (s.unitsOn (coreId c)).all fun u => u.launch == l.num || s.mayLose l u
    let g := gangNow l ps
    let bases := gangBases g (cores.filter can)
    let need := (ps.length / g + slotsOf (bases.headD ⟨0, 0, 0, 0⟩) - 1) / slotsOf (bases.headD ⟨0, 0, 0, 0⟩)
    let chosen := (bases.take need).flatMap fun c => (upTo g).map fun i => { c with core := c.core + i }
    let us := chosen.flatMap fun c => (s.unitsOn (coreId c)).filter fun u => u.launch != l.num
    if bases.length < need ∨ us.isEmpty then none
    else some (us.foldl (fun (t : State) u => t.takeSlots (t.takenWith 8 [u.loc])) s)
  else
    let us := s.units.filter fun u => s.mayLose l u && cores.any fun c => coreId c == u.coreId
    match us with
    | [] => none
    | u :: rest =>
      let v := rest.foldl (fun v x => if s.losesBefore x v then x else v) u
      some (s.takeSlots (s.takenWith 8 [v.loc]))

/-- The first launch whose units can be placed. -/
def State.placeFirst (s : State) : List Launch → Option State
  | [] => none
  | l :: r =>
    match s.placeNext l with
    | some t => some t
    | none => State.placeFirst s r

/-- A launch wants slots that it does not find: its job may hold more. -/
def State.wantsSlots (s : State) (l : Launch) : Bool :=
  let ps := s.waitingOf l.num
  let n := if l.sealed' && (ps.all fun p => p.spawn.isNone) then ps.length else gangNow l ps
  decide (s.slotsHeld l.job + n ≤ s.maxSlot l.job)

/-- The first launch that finds slots to take among those of lower priority takes them (R377). -/
def State.preemptFirst (s : State) : List Launch → Option State
  | [] => none
  | l :: r =>
    match if s.wantsSlots l then s.preemptFor l else none with
    | some t => some t
    | none => State.preemptFirst s r

/-- UNIT_PLACE (R377 to R380): the next waiting units go on free slots and begin their first task; where none can, the first
launch that may takes slots of launches of lower priority. One choice is outstanding at a time. -/
def execUnitPlace (s : State) : Out :=
  let ls := s.waitingLaunches
  match s.placeFirst ls with
  | some t => .next t
  | none =>
    if s.units.any fun u => u.taken && !u.away then .next s else .next ((s.preemptFirst ls).getD s)

/-! ### The end of a launch (R353, R382) -/

/-- Something that a launch has started is still to end: units, commands, requests to other modules, sends. -/
def State.launchBusy (s : State) (l : Launch) : Bool :=
  let n := l.num
  let mine (i : Issuer) : Bool := i.launch == n
  (s.waiting.any fun p => p.launch == n) || (s.units.any fun u => u.launch == n) || l.sends != 0 ||
    (s.clusters.any fun (c : Nat × Cluster) => (c.2.running.any fun r => r.req.node.isNone && mine r.req.by') ||
      c.2.ending.any fun r => r.node.isNone && mine r.by') ||
    (s.dies.any fun (d : Nat × Die) => d.2.q5.any (fun c => mine c.by') || (match d.2.rope with
      | some r => mine r.cmd.by'
      | none => false)) ||
    (s.cores.any fun (k : Nat × Core) => k.2.q1.any fun c => mine c.by') ||
    (s.remotes.any fun r => r.launch == n && r.answer.all fun a => a.1 == .refuse)

/-- A node of a replay has ended, well or with the failure that stands in its launch's or its own status word, which sets ERR in the
graph counter at once (R385, R388). -/
def State.endNode (s : State) (id node : Nat) (err : Option Word) : State :=
  match s.replay? id with
  | none => s
  | some r =>
    match r.node? node with
    | none => s
    | some n =>
      if n.state ≠ .running then s
      else
        match err with
        | none => (s.modReplay id fun r => r.endNode node .done .done).settleReplay id
        | some w => ((s.setErr r.counter w).modReplay id fun r => r.failNode node w).settleReplay id

/-- LAUNCH_COMPLETE (R353, R369, R382): the launch's counter advances, and its node or its queue learns of its end. -/
def execLaunchComplete (launch : BitVec 32) (s : State) : Out :=
  match s.launch? launch with
  | none => .next s
  | some l =>
    if s.launchBusy l then .next s
    else
      let err := l.failure.map fun f => statWord f.2.1 f.1 launch
      let t : State := { s with launches := s.launches.filter fun x => x.num ≠ launch }
      match l.node, l.queue with
      | some (id, node), _ => .next ((t.endItem l.job l.counter err).endNode id node err)
      | none, some q =>
        let k := t.queue q
        .next ((t.setQueue q { k with running := k.running.filter (· ≠ launch) }).endTop q l.job l.counter err)
      | none, none => .next (t.endItem l.job l.counter err)

/-! ### The watchdog (R404) -/

/-- A unit waits in `at` or `lwait` (R404). -/
def Unit.timedWait (u : Unit) : Bool :=
  match u.wait with
  | .lwait _ => true
  | .atTime _ => true
  | .run => false
  | .lbank _ _ _ => false
  | .fenceE _ => false
  | .bar _ _ => false
  | .gang _ => false
  | .retire _ _ => false
  | .nonspec => false
  | .stopped => false

/-- Time counts for a launch while a unit of it is placed that is neither pre-empted nor in a timed wait. -/
def State.counts (s : State) (launch : BitVec 32) : Bool :=
  s.units.any fun u => u.launch == launch && !u.away && !u.timedWait

/-- TIME passes by `dt`: a launch for which it does not count is as far from its last progress as before. -/
def State.watchLaunches (s : State) (dt : Word) : State :=
  { s with launches := s.launches.map fun l => if s.counts l.num then l else { l with progress := l.progress + dt } }

/-- WATCHDOG (R404): a launch without progress for WDT µs is cancelled with REASON 4. -/
def execWatchdog (launch : BitVec 32) (s : State) : Out :=
  match s.launch? launch with
  | none => .next s
  | some l =>
    if s.wdt ≠ 0 ∧ s.counts launch ∧ 1000 * s.wdt.toNat ≤ s.time.toNat - l.progress.toNat then .next (s.cancelLaunch launch 4)
    else .next s

end Sys2Proof.Machine
end

