-- ==== Sys2Proof/Machine/Nodes.lean ====
section
/-! DEFINITION. The nodes of a running replay (R385, R386, R388, R445). -/

namespace Sys2Proof.Machine

/-- A node marked as running. -/
def State.runNode (s : State) (id i : Nat) : State :=
  s.modReplay id fun r => { r with nodes := modNode r.nodes i fun n => { n with state := .running, ran := if n.state = .running then n.ran else n.typ } }

/-- STAT of a node that fails of itself (R445). -/
def nodeStat (code : Nat) : Word := statWord (BitVec.ofNat 16 code) 7 0

/-- A running node ends. -/
def State.nodeDone (s : State) (id i : Nat) : State := (s.runNode id i).endNode id i none
/-- A node fails with a CODE under REASON 7. -/
def State.nodeFails (s : State) (id i code : Nat) : State := (s.runNode id i).endNode id i (some (nodeStat code))

/-- A node of a TYPE acts: it is ready, or it runs already, under the TYPE with which it began, and acts again. One whose fields a PATCH has
left refused fails when it would act, whatever its TYPE then is; a COPY that runs ends with its message (R445, log 60). -/
def State.onNode (s : State) (id i typ : Nat) (again : Node → Bool) (k : Replay → Node → State) : Out :=
  match s.replay? id with
  | none => .next s
  | some r =>
    match r.node? i with
    | none => .next s
    | some n =>
      let refused := nodeRefused r.nodes i n
      let ready := r.ready i s.time
      let acts := n.state == .running && n.ran == typ && again n
      if refused ∧ (ready ∨ (acts ∧ typ ≠ 2)) then .next (s.nodeFails id i 0)
      else if (n.typ = typ ∧ ready) ∨ acts then .next (k r n)
      else .next s

/-- A read of the command processor for a node: its values, or the node's failure with the fault's CAUSE. -/
def State.nodeRead (s : State) (r : Replay) (i va n : Nat) (k : State → List Word → State) : State :=
  match s.cpRead r.hub (itemOf r.id i) r.job (engWords va n) with
  | .ok ws t => k t ws
  | .fail c _ t => t.nodeFails r.id i c
  | .wait t => t

/-- NODE_LAUNCH (R385): the launch record in BODY starts its launch in the graph's job; the node completes with the launch. A record
that R373 refuses sets REASON 6 with LAUNCH 0 (R445). -/
def execNodeLaunch (replay node : Nat) (s : State) : Out :=
  s.onNode replay node 1 (fun _ => false) fun r n =>
    let ws := (n.words.drop 8).take 8
    let err := some (statWord 0 6 0)
    let refuse (t : State) : State := ((t.runNode replay node).endItem r.job (recCnt ws) err).endNode replay node err
    if !s.depMet ws then s
    else if s.recordBad r.job ws then refuse s
    else
      match s.cpRead r.hub (itemOf r.id node) r.job (engWords (recHdr ws) 8) with
      | .wait t => t
      | .fail _ _ t => refuse t
      | .ok h t =>
        if t.headerBad r.job ws h then refuse t
        else (t.startLaunch r.job ((t.queue r.queue).pri) none (some (replay, node)) ws h).runNode replay node

/-- NODE_COPY (R385): the copy request in BODY goes to the copy engine of cluster 0 of the hub's nearer K-die; the node completes
with its message. -/
def execNodeCopy (replay node : Nat) (s : State) : Out :=
  s.onNode replay node 2 (fun _ => true) fun r n =>
    if n.state = .running then
      match s.nodeMsgs.find? fun m => m.1 == replay && m.2.1 == node with
      | none => s
      | some m =>
        let t := { s with nodeMsgs := s.nodeMsgs.filter fun x => !(x.1 == replay && x.2.1 == node) }
        if m.2.2 = 0 then t.nodeDone replay node
        else if m.2.2 = 13 ∧ r.cancelling then (t.modReplay replay fun r => r.endNode node .cancelled .error).settleReplay replay
        else t.nodeFails replay node m.2.2
    else
      let who := s.cpIssuer r.hub r.job
      let q : CopyReq := { w0 := n.w 8, w1 := n.w 9, w2 := n.w 10, w3 := n.w 11, tag := 0, by' := who, released := s.time,
                           node := some (replay, node) }
      let c := clusterId who.loc.die 0
      (s.setCluster c { s.cluster c with nodeCopies := (s.cluster c).nodeCopies ++ [q] }).runNode replay node

/-- NODE_WAIT (R385): it completes when its counter has reached the target or has ERR. -/
def execNodeWait (replay node : Nat) (s : State) : Out :=
  s.onNode replay node 3 (fun _ => true) fun _ n =>
    let w := (s.counter (n.w 4).toNat).word
    if (n.w 5).toNat ≤ bits w 62 0 ∨ w.getLsbD 63 then s.nodeDone replay node else s.runNode replay node

/-- NODE_SIGNAL (R385). -/
def execNodeSignal (replay node : Nat) (s : State) : Out :=
  s.onNode replay node 4 (fun _ => false) fun _ n =>
    let c := (n.w 4).toNat
    (s.setCounter c ((s.counter c).add (n.w 5).toNat)).nodeDone replay node

/-- NODE_COND (R385): a nonzero predicate releases SUCC entries 0 and 1, zero releases 2 and 3. -/
def execNodeCond (replay node : Nat) (s : State) : Out :=
  s.onNode replay node 5 (fun _ => false) fun r n =>
    s.nodeRead r node (n.w 4).toNat 1 fun t ws =>
      (t.modReplay replay fun r => r.endCond node (ws.getD 0 0 != 0)).settleReplay replay

/-- The next iteration of a loop (R386): its body is reset, FIRST is started, and the count rises. -/
def Replay.iterate (r : Replay) (i : Nat) (n : Node) : Replay :=
  let reset (j : Nat) (x : Node) : Node :=
    if n.first ≤ j ∧ j ≤ n.last then { words := x.words, armed := j == n.first } else x
  { r with nodes := modNode (r.nodes.mapIdx reset) i fun x => { x with state := .running, ran := 6, back := false, iters := x.iters + 1 } }

/-- A body node of a loop still runs. -/
def Replay.bodyRuns (r : Replay) (n : Node) : Bool :=
  (r.nodes.mapIdx fun j x => decide (n.first ≤ j) && decide (j ≤ n.last) && x.state == .running).any fun b => b

/-- NODE_LOOP (R386): at its start, and each time LAST has completed, the loop runs a further iteration or completes. -/
def execNodeLoop (replay node : Nat) (s : State) : Out :=
  s.onNode replay node 6 (fun n => n.back) fun r n =>
    let again (t : State) : State := t.modReplay replay fun r => r.iterate node n
    if r.bodyRuns n then s
    else if n.dw && n.iters == 0 then again s
    else
      s.nodeRead r node (n.w 4).toNat 1 fun t ws =>
        if ws.getD 0 0 ≠ 0 ∧ n.iters < n.maxit then again t else t.nodeDone replay node

/-- NODE_PATCH (R385): words from memory copied into a node of this replay. -/
def execNodePatch (replay node : Nat) (s : State) : Out :=
  s.onNode replay node 7 (fun _ => false) fun r n =>
    let target := bits (n.w 5) 15 0
    let first := bits (n.w 5) 19 16
    s.nodeRead r node (n.w 4).toNat (n.w 6).toNat fun t ws =>
      (t.modReplay replay fun r =>
        { r with nodes := patchNodes r.nodes (ws.mapIdx fun j x => (target, first + j, x)) }).nodeDone replay node

end Sys2Proof.Machine
end

