-- ==== Sys2Proof/Machine/System.lean ====
section
/-! DEFINITION. `nop` (R48), the format prefix (R44 to R47) and the system registers (R197 to R199). -/

namespace Sys2Proof.Machine

/-- `nop` in either slot (R48): it is no consumer, so a pending prefix is dangling. -/
def execNop (s : State) : Out := s.issue {} State.doneHere

/-- PFX with its three fields (R47). -/
def pfxWord (fa fb fc : FmtId) : Word :=
  word ((FmtId.bits fc).toNat * 1024 + (FmtId.bits fb).toNat * 32 + (FmtId.bits fa).toNat)

/-- `fmt` (R46): PFX takes the formats and a prefix is pending. -/
def State.setFormats (s : State) (fa fb fc : FmtId) : State :=
  s.modCur fun u => { u with pfx := pfxWord fa fb fc, tsr := tsrSetPp u.tsr true }

/-- `fmt` of the C-slot (R45, R46). -/
def execFmtC (fa fb fc : FmtId) (s : State) : Out := s.issue {} fun t => (t.setFormats fa fb fc).doneC
/-- `fmt` of the A-slot (R45, R46). -/
def execFmtA (fa fb fc : FmtId) (s : State) : Out := s.issue {} fun t => (t.setFormats fa fb fc).doneA

/-! ### System registers (R197, R198) -/

/-- CORE: [2:0] core, [7:3] cluster, [10:8] K-die (R197). -/
def coreWord (l : Loc) : Word := word (l.die % 8 * 256 + l.cluster % 32 * 8 + l.core % 8)

/-- A system register as it reads (R197). -/
def State.readSys (s : State) (r : SysReg) : Word :=
  let u := s.cur
  match r with
  | .tsr => u.tsr
  | .epc => u.epc
  | .cause => u.cause
  | .faddr => u.faddr
  | .time => s.time
  | .wsp => u.wsp
  | .lsb => u.lsb
  | .tid => u.tid
  | .tstamp => u.task.tstamp.zeroExtend 64
  | .unit => u.unit
  | .launch => u.launch.zeroExtend 64
  | .core => coreWord u.loc
  | .slot => word u.loc.slot
  | .wcnt => word u.wcnt
  | .world => if u.secure then 1 else 0
  | .pfx => u.pfx
  | .lap => u.lap
  | .lbm => u.lbm
  | .xtag => u.xtag
  | .sbind => u.sbind
  | .lpc => u.lpc

/-- A register whose every access at user privilege raises PRIVILEGE (R197, R199). -/
def SysReg.supervisor : SysReg → Bool
  | .epc => true | .cause => true | .faddr => true | .lpc => true
  | .tsr => false | .time => false | .wsp => false | .lsb => false | .tid => false | .tstamp => false | .unit => false
  | .launch => false | .core => false | .slot => false | .wcnt => false | .world => false | .pfx => false | .lap => false
  | .lbm => false | .xtag => false | .sbind => false

/-- A register that only supervisor code may write (R199). -/
def SysReg.supervisorWrite : SysReg → Bool
  | .epc => true | .cause => true | .faddr => true | .lpc => true
  | .wsp => true | .tid => true | .wcnt => true | .pfx => true | .sbind => true
  | .tsr => false | .time => false | .lsb => false | .tstamp => false | .unit => false | .launch => false | .core => false
  | .slot => false | .world => false | .lap => false | .lbm => false | .xtag => false

/-- A register that no `mtsr` writes (R199). -/
def SysReg.readOnly : SysReg → Bool
  | .time => true | .lsb => true | .tstamp => true | .unit => true | .launch => true | .core => true | .slot => true
  | .world => true | .lap => true | .lbm => true | .lpc => true
  | .tsr => false | .epc => false | .cause => false | .faddr => false | .wsp => false | .tid => false | .wcnt => false
  | .pfx => false | .xtag => false | .sbind => false

/-- A field of PFX as `mtsr` stores it: 24 to 30 become 31 (R47). -/
def pfxField (x : Nat) : Nat := if 24 ≤ x then 31 else x

/-- TSR after a write (R198): at user privilege PP and PL keep their values; reserved bits stay zero. -/
def tsrWrite (sup : Bool) (old x : Word) : Word :=
  let kept := word (bits x 8 1 * 2)
  if sup then kept ||| word (bits x 11 10 * 1024 + bits x 0 0) else kept ||| word (bits old 11 10 * 1024 + bits old 0 0)

/-- CAUSE without its reserved bits (R393). -/
def causeWrite (x : Word) : Word := x &&& 0xF8FF_0700_0000_00FF

/-- The values that `mtsr` takes: PL 0 or 1 from supervisor code (R198), WCNT from 0 to 16 and only while it is 0 (R297). -/
def State.sysOk (s : State) (r : SysReg) (x : Word) : Bool :=
  match r with
  | .tsr => !tsrSup s.cur.tsr || decide (bits x 11 10 ≤ 1)
  | .wcnt => s.cur.wcnt == 0 && decide (x.toNat ≤ 16)
  | .epc => true | .cause => true | .faddr => true | .wsp => true | .tid => true | .pfx => true | .xtag => true | .sbind => true
  | .time => false | .lsb => false | .tstamp => false | .unit => false | .launch => false | .core => false | .slot => false
  | .world => false | .lap => false | .lbm => false | .lpc => false

/-- A system register written (R197 to R199); writes to the reserved bits of PFX, XTAG and SBIND are ignored (R4, R184, R158). -/
def State.writeSys (s : State) (r : SysReg) (x : Word) : State :=
  let u := s.cur
  match r with
  | .tsr => s.setCur { u with tsr := tsrWrite (tsrSup u.tsr) u.tsr x }
  | .epc => s.setCur { u with epc := x }
  | .cause => s.setCur { u with cause := causeWrite x }
  | .faddr => s.setCur { u with faddr := x }
  | .wsp => s.setCur { u with wsp := x }
  | .tid => s.setCur { u with tid := x }
  | .wcnt => s.setCur { u with wcnt := x.toNat }
  | .pfx => s.setCur { u with pfx := word (pfxField (bits x 14 10) * 1024 + pfxField (bits x 9 5) * 32 + pfxField (bits x 4 0)) }
  | .xtag => s.setCur { u with xtag := word (bits x 15 0) }
  | .sbind => s.setCur { u with sbind := x &&& if u.wain then 0x0000_FFFF_8FFF_8FFF else 0x8FFF_8FFF }
  | .time => s | .lsb => s | .tstamp => s | .unit => s | .launch => s | .core => s | .slot => s | .world => s | .lap => s
  | .lbm => s | .lpc => s

/-- `mfsr` (R199). -/
def execMfsr (d : SReg) (r : SysReg) (s : State) : Out :=
  s.issue { sup := SysReg.supervisor r, touch := [s.cur.keyS d], live := s.cur.namedS d } fun t =>
    (t.modCur fun u => u.setS d (s.readSys r)).doneC

/-- `mtsr` (R199): it takes effect for the next instruction. -/
def execMtsr (a : SReg) (r : SysReg) (s : State) : Out :=
  s.issue { sup := SysReg.supervisorWrite r, ok := !SysReg.readOnly r && s.sysOk r (s.cur.getS a), touch := [s.cur.keyS a] } fun t =>
    (t.writeSys r (s.cur.getS a)).doneC

end Sys2Proof.Machine
end

