-- ==== Sys2Proof/Machine/Preempt.lean ====
section
/-! DEFINITION. Pre-emption (R405 to R410): a taken slot stops and writes its slot record, the arrays drain and the core saves what
the slots leave behind, and a unit resumes on its slot. What a resumed unit finds is what the model keeps of it; the save areas
hold the images that R409 lays out (log 23). -/

namespace Sys2Proof.Machine

/-! ### The save area (R409) -/

/-- A core's number i within its die. -/
def saveCore (l : Loc) : Nat := 8 * l.cluster + l.core

/-- Bytes written from a list of pieces. -/
def State.setPieces (s : State) (base : Nat) (ps : List (Nat × List Byte)) : State :=
  ps.foldl (fun (t : State) p => t.setBytes (base + p.1) p.2) s

/-- The system registers 0 to 19, in number order. -/
def savedRegs : List SysReg :=
  [.tsr, .epc, .cause, .faddr, .time, .wsp, .lsb, .tid, .tstamp, .unit, .launch, .core, .slot, .wcnt, .world, .pfx, .lap, .lbm, .xtag,
   .sbind]

/-- The slot record of the acting unit, by offset (R409). -/
def State.slotRecord (s : State) : List (Nat × List Byte) :=
  let u := s.cur
  let t := u.task
  let preds := (upTo 7).foldl (fun (n : Nat) i => if u.getP (BitVec.ofNat 3 (i + 1)) then n + 2 ^ (i + 1) else n) 0
  [(0, s.bytes (u.loftAddr u.lsb) 16384), (16384, u.v.toList.flatMap fun x => bytesOf 128 x.toNat),
   (20480, (u.k.toList.drop 1).flatMap fun x => bytesOf 16 x.toNat), (20592, bytesOfWords ((u.regs.toList.drop 1).take 7)),
   (20648, bytesOfWords (u.regs.toList.drop 8)), (20840, bytesOf 8 preds), (20848, bytesOfWords (savedRegs.map fun r => s.readSys r)),
   (21008, bytesOfWords [t.mask, t.restartPc ||| (if t.restartA then 1 else 0), word t.startDepth, t.startWsp, t.flags.zeroExtend 64,
      word u.depth]),
   (21056, bytesOf 8 u.lpc.toNat), (21064, (u.saved.reverse.flatMap fun w => bytesOfWords w.toList))]

/-- The slot record written to the save area of a worker core's die. -/
def State.writeSlotRecord (s : State) : State :=
  let l := s.cur.loc
  if l.cluster < Config.clustersPerDie then
    s.setPieces (s.saveBase l.die + 0x320_0000 + (8 * saveCore l + l.slot) * 0x6000) s.slotRecord
  else s

/-! ### SLOT_STOP (R405, R406) -/

/-- A wait during which a slot may stop (R338, R405): a bundle boundary. -/
def Wait.stops : Wait → Bool
  | .run => true | .lwait _ => true | .atTime _ => true | .bar _ _ => true | .gang _ => true | .nonspec => true
  | .lbank _ _ _ => false | .fenceE _ => false | .retire _ _ => false | .stopped => false

/-- A granted step of the unit's core waits for q2 entries that the unit's task has pushed but not released (R405). -/
def State.feedsStep (s : State) : Bool :=
  let u := s.cur
  let cl := s.cluster u.clusterId
  let k := s.core u.coreId
  let waits (a : Array') : Bool :=
    match a.granted.bind k.cmd? with
    | some c => c.slot == u.loc.slot && (k.nextRead c).isNone
    | none => false
  decide (heldRows 2 0 u.task.held > 0) && (waits cl.flail || waits cl.product)

/-- A returning rope instruction of the bundle still waits for its record (R116). -/
def Unit.awaitsRecord (u : Unit) : Bool := u.pend.any fun p => p.hold && p.act == .record && !p.ready

/-- An incomplete instruction that a stop does not wait for: a blocking queue wait (R405), a returning rope instruction that waits for its
record (R116), and an access whose fault is withdrawn (R79). Every other one completes first (R406). -/
def State.stopsOver (s : State) (p : Pend) : Bool :=
  s.faulted p ||
    match p.act with
    | .pop _ _ _ => true
    | .qwait _ _ => true
    | .record => true
    | .load _ _ _ _ _ _ => false
    | .wcwait _ => false
    | .atomic _ _ _ _ _ => false
    | .sc _ _ _ _ _ _ _ => false
    | .rope _ => false
    | .far _ _ => false
    | .answer => false

/-- The acting unit may stop now: it stands at a bundle boundary or waits for the record of a returning rope instruction (R116, log 58), its
lookahead instructions and tile moves have completed, no commit of it is visible, it does not run non-speculatively, and no array step waits
for it. -/
def State.mayStop (s : State) : Bool :=
  let u := s.cur
  u.placed && u.taken && !u.away && Wait.stops u.wait && (u.atBoundary || u.awaitsRecord) && !u.visible && !u.task.nonspec &&
    (u.pend.all fun p => p.ready || s.stopsOver p) && s.tileMoves.isEmpty && !s.feedsStep

/-- Every resident window but the current one that finds a place in the local store is spilled (R406). -/
def State.spillAll : Nat → State → State
  | 0, s => s
  | n + 1, s =>
    match s.spillOldest with
    | some t => State.spillAll n t
    | none => s

/-- The unit with the task that a returning rope instruction began, where its record is still to come: it resumes at the bundle after that
instruction (R116). Where a `vloop` stood beside it, which a discard executes again (R279), the restart point stays there. -/
def Unit.pastRecord (u : Unit) : Unit :=
  match u.pend.find? fun p => p.act == .record && !p.ready && p.pc == u.task.restartPc && u.task.restartA with
  | none => u
  | some p =>
    if u.seq.active && u.seq.start == p.pc + 8 then u else { u with task := { u.task with restartPc := p.pc + 8, restartA := false } }

/-- The slot stops: the task is discarded as `tabort` does, the sequencer state goes, the windows are spilled and the slot record is
written (R406). A party of a barrier keeps its arrival (R338). After an `at.c` whose commit stands the unit resumes at the bundle behind it
(R221), and after a returning rope instruction likewise (R116). -/
def State.stopSlot (s : State) : State :=
  let bar := match s.cur.wait with
    | .bar b g => some (b, g)
    | .run => none
    | .lwait _ => none
    | .atTime _ => none
    | .lbank _ _ _ => none
    | .fenceE _ => none
    | .gang _ => none
    | .retire _ _ => none
    | .nonspec => none
    | .stopped => none
  let s := s.modCur fun u => if u.atc && !u.aslot then u.restartHere else u.pastRecord
  let s := s.discard
  let s := State.spillAll s.cur.saved.length s
  s.writeSlotRecord.modCur fun u => { u with wait := .stopped, keptBar := bar, turn := .ran }

/-- SLOT_STOP (R405, R406): a slot that pre-emption has chosen stops at its next bundle boundary. -/
def execSlotStop (l : Loc) (s : State) : Out :=
  let t := s.focus l
  if t.cur.loc = l ∧ t.mayStop then .next t.stopSlot else .next s

/-! ### PREEMPT_DRAIN (R407) -/

/-- The granted step of a core on one array, finished as far as its entries go, and otherwise cut at its next row; by fuel. -/
def State.finishStep (cl key : Nat) (product : Bool) : Nat → State → State
  | 0, s => s
  | f + 1, s =>
    match (((s.cluster cl).array product).granted).bind (s.core key).cmd? with
    | none => s
    | some c =>
      if c.pushes then
        let t := s.pushRow cl key c
        if t = s then s.freeArray cl product else State.finishStep cl key product f t
      else if ((s.core key).nextRead c).isNone then s.freeArray cl product
      else State.finishStep cl key product f (s.rowWork cl product)

/-- What the core saves for the taken slots of a launch, and the core without it. -/
def Core.saveFor (k : Core) (launch : BitVec 32) (slots : List Nat) : Core :=
  let mine (n : Nat) : Bool := slots.contains n
  let cmds := k.q1.filter fun c => mine c.slot
  let gone (o : TileOp) : Bool := match o with
    | .cmd id => cmds.any fun c => c.id == id
    | .move _ => false
  { k with
    q1 := k.q1.filter fun c => !mine c.slot
    tileQ := k.tileQ.map fun q => (q.1, q.2.filter fun o => !gone o)
    q0 := k.q0.filter fun e => !mine e.1
    q2 := k.q2.filter fun e => !mine e.1
    q3 := k.q3.filter fun e => !mine e.1
    discard := k.discard.filter fun c => !mine c.slot
    saved := k.saved ++ [{ launch, tiles := k.tiles, q2 := k.q2.filter fun e => mine e.1, q3 := k.q3.filter fun e => mine e.1,
                           cmds, discard := k.discard.filter fun c => mine c.slot }] }

/-- The image that R409 gives a core: tiles, q2 entries, q3 entries, and the command records, whose layout the manual leaves open. -/
def State.writeCoreRecord (s : State) (l : Loc) (x : SavedCore) : State :=
  if l.cluster < Config.clustersPerDie then
    let base := s.saveBase l.die + saveCore l * 0x5_0000
    let s := s.zeroBytes base 0x4_0000
    let s := s.setPieces base (x.tiles.map fun t => (4 * t.1, bytesOf 4 t.2.toNat))
    let s := s.setBytes (base + 0x4_0000) (x.q2.flatMap fun e => e.2)
    let s := s.setBytes (base + 0x4_2000) (x.q3.flatMap fun e => e.2.bytes)
    let n := 8 * x.cmds.length
    { s.setBytes (base + 0x4_4000) ((upTo n).flatMap fun i => bytesOf 8 (Config.freeWord (s.draws + i)).toNat) with draws := s.draws + n }
  else s

/-- The stopped slots of a core leave it: what is addressed to them goes to the spill ring ahead of what comes later (R408). -/
def State.leaveCore (s : State) (l : Loc) : State :=
  let key := coreId l
  let us := s.units.filter fun u => u.coreId == key && u.taken && !u.away
  let launches := (us.map fun u => u.launch).eraseDups
  launches.foldl (fun (t : State) n =>
    let mine := us.filter fun u => u.launch == n
    let slots := mine.map fun u => u.loc.slot
    let k := t.core key
    let q0 := (k.q0.filter fun e => slots.contains e.1).map fun e =>
      ({ loc := { l with slot := e.1 }, launch := n, q := 0, elem := e.2 } : SpillElem)
    let k' := k.saveFor n slots
    let c := t.cluster (clusterId l.die l.cluster)
    let t := (t.setCore key k').setCluster (clusterId l.die l.cluster) { c with spill := q0 ++ c.spill }
    let t := match k'.saved.getLast? with
      | some x => t.writeCoreRecord l x
      | none => t
    let at' := t.ids
    let t := t.modUnits (fun u => u.coreId == key && u.taken && !u.away && u.launch == n) fun u =>
      { u with taken := false, away := true, awayAt := at' }
    { t with ids := t.ids + 1 }) s

/-- PREEMPT_DRAIN (R407): once every taken slot of a core has stopped, each array finishes or cuts the granted step of the core, and
the core saves its tiles, entries and commands. -/
def execPreemptDrain (die cluster core : Nat) (s : State) : Out :=
  let l : Loc := ⟨die, cluster, core, 0⟩
  let key := coreId l
  if !s.draining key then .next s
  else
    let cl := clusterId die cluster
    let s := State.finishStep cl key false 80 s
    let s := State.finishStep cl key true 80 s
    .next (s.leaveCore l)

/-! ### RESUME (R408, R410) -/

/-- The pre-empted units that resume with the one at a place: those of its launch on its core, and on the cores of its gang. -/
def State.resumeSet (s : State) (u : Unit) : List Unit :=
  s.units.filter fun v => v.away && v.launch == u.launch && v.clusterId == u.clusterId &&
    (v.loc.core == u.loc.core || v.loc.core / u.gang == u.loc.core / u.gang)

/-- What a core has saved for a launch is restored: its commands come ahead of the core's own, and at the heads of the queues of
their tiles, in the order that they had (R410). -/
def Core.restoreFor (k : Core) (launch : BitVec 32) : Core :=
  match k.saved.find? fun x => x.launch == launch with
  | none => k
  | some x =>
    let q (y : Nat) : List TileOp := (x.cmds.filter fun c => cwY c.cw == y).map fun c => .cmd c.id
    { k with
      tiles := x.tiles
      q1 := x.cmds ++ k.q1
      q2 := x.q2 ++ k.q2
      q3 := x.q3 ++ k.q3
      discard := x.discard ++ k.discard
      tileQ := (upTo 4).foldl (fun t y => Sparse.put t y (q y ++ (Sparse.find? k.tileQ y).getD [])) k.tileQ
      saved := k.saved.filter fun y => y.launch ≠ launch }

/-- The spilled elements of a slot replayed in arrival order (R408). -/
def State.replaySpill (s : State) (u : Unit) : State :=
  let c := s.cluster u.clusterId
  let mine (e : SpillElem) : Bool := e.loc == u.loc && e.launch == u.launch
  let s := s.setCluster u.clusterId { c with spill := c.spill.filter fun e => !mine e }
  (c.spill.filter mine).foldl (fun (t : State) e =>
    if recordQueue ≤ e.q then
      t.answerPend (e.q - recordQueue) fun p => { p with values := some ((wordsOf e.elem.bytes).map sval) }
    else if e.q = 7 then
      match t.streamIn u with
      | some x => t.appendEntry (streamNo x) e.elem.bytes
      | none => t
    else t.putElem u e.q e.elem) s

/-- A unit restored: it issues at its restart point, or waits on at the barrier that it had arrived at (R338, R410). -/
def Unit.restored (u : Unit) (at' : Nat) : Unit :=
  let v := { u with away := false, placedAt := at' }
  match u.keptBar with
  | some (b, g) => { v with wait := .bar b g, keptBar := none }
  | none => { v.goto u.task.restartPc u.task.restartA with wait := .run }

/-- RESUME (R410): a pre-empted unit whose launch has been served is restored on its slot with the others of its core. -/
def execResume (l : Loc) (s : State) : Out :=
  match s.units.find? fun u => u.loc == l && u.away && (s.queues.any fun q => q.2.resuming.contains u.launch) with
  | none => .next s
  | some u =>
    let us := s.resumeSet u
    if !(us.all s.slotFreeFor) || decide (s.maxSlot u.job < s.slotsHeld u.job + us.length) then .next s
    else
      let keys := (us.map fun v => v.coreId).eraseDups
      let t := keys.foldl (fun (t : State) k => t.setCore k ((t.core k).restoreFor u.launch)) s
      let at' := t.ids
      let t := t.modUnits (fun v => us.contains v) fun v => v.restored at'
      let t := { t with ids := t.ids + 1 }
      let t := us.foldl (fun (t : State) v => t.replaySpill v) t
      let t := t.modUnits (fun v => v.placed && us.any fun x => x.loc == v.loc && x.launch == v.launch) Unit.completeReady
      .next { t with queues := t.queues.map fun (q : Nat × Queue) =>
        (q.1, { q.2 with resuming := q.2.resuming.filter fun n => n ≠ u.launch || t.couldResume n }) }

end Sys2Proof.Machine
end

