-- ==== Sys2Proof/Machine/ScOrder.lean ====
section
/-! DEFINITION. The sequentially consistent operations as their homes perform them, one after another in the order sco (R335, R348). -/

namespace Sys2Proof.Machine

/-- An operation is one of this module's that its unit no longer waits for. -/
def State.scOver (s : State) (a : ScAnn) : Bool :=
  a.asker == .unit && !s.units.any fun u => u.pend.any fun p => p.id == a.pend && !p.ready

/-- Operations whose unit no longer waits for them leave the order: they have ended in a trap. -/
def State.scClean (s : State) : State :=
  (s.announced.filter s.scOver).foldl (fun t a => t.tellSc .ended a) { s with announced := s.announced.filter fun a => !s.scOver a }

/-- The operation leaves the order. -/
def State.scDrop (s : State) (a : ScAnn) : State := { s with announced := s.announced.filter (· ≠ a) }

/-- A refused operation of another module leaves the order until it is sent again; one of domain scope keeps its place, as announced. -/
def State.scAside (s : State) (a : ScAnn) : State :=
  if a.scope = .device then s.scDrop a
  else { s with announced := s.announced.map fun x => if x = a then { a with known := false, asker := .announced } else x }

/-- The old value of an operation reaches whoever asked. -/
def State.scReply (s : State) (a : ScAnn) (old : Nat) : State :=
  match a.asker with
  | .unit => s.scAnswer a old
  | .packet k => (s.scDrop a).respond k .data 0 (bytesOf (scBytes a.z) old)
  | .die m =>
    let wrote := (a.op.apply a.z old a.y.toNat a.cmp.toNat).isSome
    (s.scDrop a).dieDone m 0 a.pa (if wrote then scBytes a.z else 0) (bytesOf (scBytes a.z) old)
  | .announced => s

/-- The home refuses an operation after all: a unit's fault is posted, and a RETRY sends it on its way again in its place of sco; none while
that message must wait. -/
def State.scFault (s : State) (a : ScAnn) (c : Cause) : Option State :=
  match a.asker with
  | .unit =>
    (s.faultPend a.pend .atomic a.ea c).map fun t =>
      (t.scMod a.pend fun x => { x with known := false }).answerPend a.pend fun p =>
        { p with act := .sc a.op a.scope a.z a.ea a.y a.cmp (word (a.window * scWindow a.scope)) }
  | .packet k => some ((s.scAside a).refuseAgain k c.number)
  | .die m => some ((s.scDrop a).dieAnswer m 1 2 [BitVec.ofNat 8 c.number])
  | .announced => none

/-- The host cannot complete an operation on its window (R355). -/
def State.scNoHost (s : State) (a : ScAnn) : State :=
  match a.asker with
  | .unit => (s.scEnded a.pend).answerPend a.pend fun p => { p with failed := some (p.trap (hostTrap a.ea)) }
  | .packet k => (s.scDrop a).refuseAgain k Cause.hostAtomic.number
  | .die m => (s.scDrop a).dieAnswer m 1 2 [BitVec.ofNat 8 Cause.hostAtomic.number]
  | .announced => s

/-- An operation on the host window goes to the hub, which performs it with a PCIe AtomicOp and answers whoever asked (R354). -/
def State.scToHub (s : State) (a : ScAnn) (op : AtomOp) (h : Nat) : State :=
  let k := s.hub h
  (s.setHub h { k with atomics := k.atomics ++ [{ loc := a.loc, op, t := scType a.z, ea := a.ea, pa := a.pa, y := a.y.zeroExtend 128,
                                                  cmp := a.cmp.zeroExtend 128, pend := a.pend, asker := a.asker }] }).scDrop a

/-- An operation performed at its home in its turn. A task of this module that has read the word is marked by an operation of this
module, and not by one of another (R324, R325). -/
def State.scPerform (s : State) (a : ScAnn) : State :=
  let n := scBytes a.z
  let here (s : State) : State :=
    let f (old : Nat) : Option Nat := a.op.apply a.z old a.y.toNat a.cmp.toNat
    let (t, old) := match a.asker with
      | .packet _ => s.unfocus.farAtomic a.pa n f
      | .unit => s.unfocus.homeAtomic a.pa n f
      | .die _ => s.unfocus.homeAtomic a.pa n f
      | .announced => (s, 0)
    t.scReply a old
  match s.scRefused true a.op a.pa n with
  | some c => (s.scFault a c).getD s
  | none =>
    match a.op.atomOp, regionOf (localOf a.pa) with
    | some op, .host h =>
      if !s.hostCompletes (localOf a.pa) op (scType a.z) then s.scNoHost a
      else s.scToHub a op h
    | _, _ => here s

/-- SC_PERFORM: the next announced operation is performed at its home, no earlier than its window allows (R335). One whose address or request
is not known yet, or whose word a lock holds, keeps those behind it waiting. -/
def execScPerform (s : State) : Out :=
  let s := s.scClean
  match s.scNext with
  | none => .next s
  | some a =>
    if !a.known || s.time.toNat < a.ready || s.scBlocked a || s.anyLock a.pa (scBytes a.z) then .next s
    else .next (s.scPerform a)

end Sys2Proof.Machine
end

