-- ==== Sys2Proof/Machine/Slices.lean ====
section
/-! DEFINITION. The events of slices and homes (R69 to R76): an access that reaches a slice, the end of a walk, its acceptance at its
home, the skew check, and the exchange of the lowest timestamps (R322). -/

namespace Sys2Proof.Machine

/-! ### Accesses by way of a slice (R71 to R74) -/

/-- A fault of an access posted for its requester, whose launch a CANCEL reply ends; a unit waits on its mailbox for the answer (R79,
R84). None while its gleaner's inbox is full (R78). Word 2 of the message is `e`, 0 where a home refuses the
access. DEDUCED (log 24). -/
def State.xlFault (s : State) (r : XlReq) (c : Cause) (e : Word) : Option State :=
  let u := s.unitAt r.loc
  let launch := (u.map fun v => v.launch).getD 0
  (s.post { token := 0, src := r.src, loc := r.loc, job := r.job, cause := c, acc := r.acc, va := r.va, entry := e, committing := false,
            pend := 0, launch, req := some r }).map fun t =>
    if r.src = .worker ∨ r.src = .wain then t.modUnits (fun v => v.is r.loc launch) fun v => { v with mail := v.mail ++ t.lastToken } else t

/-- What a slice is asked for such an access. -/
def xlAsk (r : XlReq) : XlAsk := { job := r.job, va := r.va.toNat, acc := r.acc, supervisor := r.supervisor, secure := r.secure }

/-- A cached translation serves an access (R71). -/
def State.sliceHit (s : State) (die : Nat) (r : XlReq) : Bool := (s.cachedFor die (xlAsk r)).isSome

/-- An access with its translation is on its way to its home, or its fault is posted; none while that must wait. -/
def State.sent (s : State) (r : XlReq) (refusals : Nat) : Xlated → Option State
  | .ok pa _ expiry => some { s with flights := s.flights ++ [{ req := r, pa, expiry, refusals }] }
  | .fault c e => s.xlFault r c e
  | .wait => none

/-- The translation of an access: on its way to its home, or its fault is posted; none while that must wait. -/
def State.depart (s : State) (die : Nat) (r : XlReq) (refusals : Nat) : Option State :=
  let (t, x) := s.apart fun s => s.translate die r.job r.va.toNat r.acc r.supervisor r.secure
  t.sent r refusals x

/-- SLICE_TRANSLATE (R69, R71, R72): an access is translated from the slice's cache, joins a walk for its page, or begins one. -/
def execSliceTranslate (r : XlReq) (s : State) : Out :=
  let die := sliceDie r.loc.die
  .next (if s.sliceHit die r then (s.depart die r 0).getD s else s.joinWalk r)

/-- A fault whose message waits for room does not hold up the slice (R78). -/
def State.sentOrMailed (s : State) (r : XlReq) (x : Xlated) : State :=
  match s.sent r 0 x with
  | some t => t
  | none =>
    match x with
    | .fault c e => { s with faultMail := s.faultMail ++ [(r, c, e)] }
    | .ok _ _ _ => s
    | .wait => s

/-- The faults that wait for room, tried at every step, oldest first (R78). -/
def State.postFaults (s : State) : State :=
  s.faultMail.foldl (fun (t : State) m => t.sentOrMailed m.1 (.fault m.2.1 m.2.2)) { s with faultMail := [] }

/-- The leaf that a walk has found, as an access that used it has left it. -/
def WalkEnd.after (x : WalkEnd) (r : Xlated) : WalkEnd :=
  match x, r with
  | .leaf _ ea level, .ok _ e _ => .leaf e ea level
  | .leaf e ea level, .fault _ _ => .leaf e ea level
  | .leaf e ea level, .wait => .leaf e ea level
  | .fault c e, _ => .fault c e
  | .wait, _ => .wait

/-- The accesses that wait for a walk use its result, each under the checks of R60, or post their own fault (R72). -/
def State.departAll (s : State) (die : Nat) (x : WalkEnd) (l : List XlReq) : State × WalkEnd :=
  l.foldl (fun (t : State × WalkEnd) r =>
    let (u, y) := t.1.walkIn die t.2 (xlAsk r)
    (u.sentOrMailed r y, t.2.after y)) (s, x)

/-- What units and engines have asked for while a walk was under way: its result is kept for each where the slice does not cache it (R72). -/
def State.keepJoined (s : State) (die : Nat) (x : WalkEnd) (l : List XlAsk) : State :=
  let keep (s : State) (o : XlOnce) : State :=
    let d := s.die die
    s.setDie die { d with once := (d.once.filter fun y => y.ask ≠ o.ask && decide (s.time.toNat < y.expiry)) ++ [o] }
  (l.foldl (fun (t : State × WalkEnd) q =>
    match t.1.walkIn die t.2 q with
    | (u, .ok pa e expiry) =>
      ((if (u.cachedFor die q).isSome then u else keep u { ask := q, cause := none, pa, entry := e, expiry }), t.2.after (.ok pa e expiry))
    | (u, .fault c e) => (keep u { ask := q, cause := some c, pa := 0, entry := e, expiry := u.time.toNat + 512 }, t.2)
    | (u, .wait) => (u, t.2)) (s, x)).1

/-- PAGE_WALK_COMPLETE (R72): the oldest walk that no lock holds up ends (R318); every access that waits for it uses its result, or posts its
own fault. -/
def execPageWalkComplete (s : State) : Out :=
  let leaf (t : State) (w : Walk) : WalkEnd := match w.reqs with
    | r :: _ => t.walkLeaf r.job r.va.toNat
    | [] => .fault .format 0
  match s.walks.find? fun w => leaf s.unfocus w != .wait with
  | none => .next s
  | some w =>
    .next (s.apart fun s =>
      let s : State := { s with walks := dropFirst w s.walks }
      let (t, x) := s.departAll w.die (leaf s w) w.reqs
      (t.keepJoined w.die x w.joined, ())).1

/-- An access accepted at its home: performed, or refused for a cause; none while a lock holds it (R73, R318). The atomic that such an
event carries is a swap (log 24). -/
def State.acceptAt (s : State) (f : Flight) : Option (State × Option Cause) :=
  let r := f.req
  let read : Option (State × Option Cause) :=
    if s.anyLock f.pa r.size then none
    else
      match s.homeRead r.secure f.pa r.size with
      | .bytes _ => some (s, none)
      | .fault c => some (s, some c)
      | .wait => none
  let write (k : State → State) : Option (State × Option Cause) :=
    if s.anyLock f.pa r.size then none
    else
      match s.writeRefused r.secure (r.src == .copy) f.pa with
      | some c => some (s, some c)
      | none => some (k s, none)
  match r.acc with
  | .read => read
  | .fetch => read
  | .write => write fun s =>
    let b := bytesOf r.size r.value
    if r.src = .copy ∨ r.src = .rope then s.engineSet f.pa b else s.homeWrite f.pa b
  | .atomic => write fun s => (s.unfocus.homeAtomic f.pa r.size fun _ => some r.value).1

/-- HOME_ACCEPT (R73, R74): the oldest access on its way is accepted while its expiry is ahead; a stale one is translated again, and
the eighth refusal in a row posts STALE_HOME. -/
def execHomeAccept (s : State) : Out :=
  match s.flights with
  | [] => .next s
  | f :: fs =>
    let t : State := { s with flights := fs }
    let r := f.req
    let die := sliceDie r.loc.die
    if !s.isLocal f.pa then
      let (typ, data) : PktType × List Byte := match r.acc with
        | .read => (.read, readData r.size)
        | .fetch => (.read, readData r.size)
        | .write => (.write, bytesOf r.size r.value)
        | .atomic => (.atomic, atomicData .swap (if r.size = 4 then .w else .d) false (BitVec.ofNat 128 r.value) 0)
      match s.ask typ r.loc r.va.toNat f.pa r.size f.expiry data r.secure with
      | (t, .wait) =>
        let here (x : State) : Bool := x.remotes.any fun q => q.same typ r.loc r.va.toNat r.size
        if here s && !here t then .next ((({ t with flights := fs } : State).depart die r 0).getD s) else .next t
      | (t, .answer .refuse reason _) =>
        let t : State := { t with flights := fs }
        .next ((t.xlFault r (causeOfReason reason) 0).getD s)
      | (t, .answer _ _ _) => .next { t with flights := fs }
    else if s.time.toNat < f.expiry then
      match s.acceptAt f with
      | none => .next s
      | some (_, some c) => .next ((t.xlFault r c 0).getD s)
      | some (x, none) => .next { x with flights := fs }
    else if 7 ≤ f.refusals then .next ((t.xlFault r .staleHome 0).getD s)
    else .next ((t.depart die r (f.refusals + 1)).getD s)

/-! ### Skew (R76) -/

/-- The message that a slice posts when it enters or leaves skew mode, to gleaner (i mod 2) of cluster (i mod 20); none while that
inbox is full. It belongs to no access: its JOB and ACC are 0. DESIGN CHOICE: the spec gives them no value (log 61). -/
def State.skewMessage (s : State) (die slice : Nat) (cause : Nat) : Option State :=
  let c := clusterId die (slice % 20)
  let k := s.cluster c
  let inbox := k.inbox (slice % 2)
  if inbox.length ≥ 64 then none
  else
    let w0 := word (0x11 * 2 ^ 56 + cause * 2 ^ 48 + die % 8 * 2 ^ 17 + slice % 20 * 2 ^ 12 + sourceCode .slice * 2 ^ 8)
    some (s.setCluster c (k.setInbox (slice % 2) (inbox ++ [[w0, 0, 0, s.time]])))

/-- The skew messages of a die, oldest first, posted as far as their inboxes have room. -/
def State.postSkewOf (s : State) (die : Nat) : State :=
  ((s.die die).skewMail).foldl (fun (t : State) m =>
    match t.skewMessage die m.1 m.2 with
    | some x => x
    | none =>
      let d := t.die die
      t.setDie die { d with skewMail := d.skewMail ++ [m] }) (s.setDie die { s.die die with skewMail := [] })

/-- The skew messages that wait, tried at every step (R76). -/
def State.postSkew (s : State) : State :=
  (upTo 8).foldl (fun (t : State) d => if (t.die d).skewMail.isEmpty then t else t.postSkewOf d) s

/-- SKEW_CHECK (R76): a slice whose TIME has been found outside ε enters skew mode with an empty cache, and leaves it after two good
checks in a row; its message waits for room where it must. Homes and engines check as well: the model keeps one TIME, the beacon's,
which all of them compare with, so that their mode changes nothing (log 61). -/
def execSkewCheck (die slice : Nat) (within : Bool) (s : State) : Out :=
  let d := s.die die
  match Sparse.find? d.skew slice with
  | none =>
    if within then .next s
    else
      .next ((s.setDie die { d with skew := d.skew ++ [(slice, 0)], tlb := d.tlb.filter (fun c => c.slice ≠ slice),
                                    skewMail := d.skewMail ++ [(slice, 7)] }).postSkewOf die)
  | some n =>
    if !within then .next (s.setDie die { d with skew := Sparse.put d.skew slice 0 })
    else if n = 0 then .next (s.setDie die { d with skew := Sparse.put d.skew slice 1 })
    else
      .next ((s.setDie die { d with skew := d.skew.filter (fun x => x.1 ≠ slice), skewMail := d.skewMail ++ [(slice, 0)] }).postSkewOf die)

/-! ### The lowest uncommitted timestamps (R322) -/

/-- What die `d` then knows: the values of every other die, and of the command processor, for each launch. -/
def State.lowTsFor (s : State) (d : Nat) : List (Nat × BitVec 32 × BitVec 32) :=
  s.launches.flatMap fun l =>
    let from' (o : Nat) (x : Option Nat) : List (Nat × BitVec 32 × BitVec 32) := match x with
      | some t => [(o, l.num, BitVec.ofNat 32 t)]
      | none => []
    ((upTo 8).flatMap fun o => if o = d then [] else from' o (s.dieLow o l.num)) ++ from' cpDie (s.cpLow l.num)

/-- LOWTS_EXCHANGE (R322): each die sends its lowest uncommitted timestamp of every launch to the others. -/
def execLowtsExchange (s : State) : Out :=
  .next ((upTo 8).foldl (fun (t : State) d => t.setDie d { t.die d with lowTs := s.lowTsFor d }) s)

end Sys2Proof.Machine
end

