-- ==== Sys2Proof/Machine/Lanes.lean ====
section
/-! DEFINITION. The rules shared by the vector families (R254): elements of a register, active elements (R191), and the one
write of a vector, mask or scalar destination with the flags of its active elements. -/

namespace Sys2Proof.Machine

/-- Bits of an element size (R255). -/
def ESize.bitsOf (z : ESize) : Nat :=
  match z with
  | .b => 8 | .h => 16 | .w => 32 | .d => 64
/-- Bits of a floating-point type of R257, and its format. -/
def ftypeFp : FType → Fp
  | .f32 => fpF32 | .bf16 => fpBf16 | .f16 => fpF16
def htypeFp : HType → Fp
  | .bf16 => fpBf16 | .f16 => fpF16

/-- Element `j` of `w` bits of a register (R190). -/
def lane (x : VWord) (w j : Nat) : Nat := elemAt x.toNat w j
/-- Element `j` of `w` bits is active: the mask bit of the byte lane that holds its lowest bit (R191, R254). -/
def laneOn (k : KWord) (w j : Nat) : Bool := k.getLsbD (w * j / 8)
/-- A register of `n` elements of `w` bits; the bits above them are zero. -/
def lanes (w n : Nat) (f : Nat → Nat) : VWord := BitVec.ofNat 1024 (packElems w ((upTo n).map f))

/-- The OR of the flags of the active elements (R254). -/
def flagsOf (l : List Flags) : Flags := l.foldl Flags.or {}

/-- The elements of a masked operation with their flags: an inactive one keeps its old value and raises nothing (R254). -/
def maskedLanes (k : KWord) (w n : Nat) (old : VWord) (f : Nat → Nat × Flags) : VWord × Flags :=
  let es := (upTo n).map fun j => if laneOn k w j then f j else (lane old w j, {})
  (BitVec.ofNat 1024 (packElems w (es.map fun e => e.1)), flagsOf (es.map fun e => e.2))

/-- RM and SAT as they stand when the A-slot issues (R280). -/
def Unit.rm (u : Unit) : RM := tsrRm u.tsr
def Unit.sat (u : Unit) : Bool := tsrSat u.tsr

/-- The vector-register keys of a lookahead check (R41). -/
def vkeys (l : List VReg) : List RegKey := l.map fun r => .v r.toNat

/-- A vector destination written whole, with flags; `srcs` are the vector registers read. -/
def State.writeV (s : State) (d : VReg) (srcs : List VReg) (x : State → VWord × Flags) (n : Need := {}) : Out :=
  s.issue { n with touch := vkeys (d :: srcs) ++ n.touch, live := s.cur.namedV d } fun t =>
    (t.modCur fun u => (u.setV d (x t).1).raiseFlags (x t).2).doneA

/-- A mask destination written whole, with flags. -/
def State.writeK (s : State) (d : KReg) (srcs : List VReg) (x : State → KWord × Flags) (n : Need := {}) : Out :=
  s.issue { n with touch := vkeys srcs ++ n.touch, live := s.cur.namedK d } fun t =>
    (t.modCur fun u => (u.setK d (x t).1).raiseFlags (x t).2).doneA

/-- A scalar destination of the vector families. -/
def State.writeSV (s : State) (d : SReg) (srcs : List VReg) (x : State → Word) (n : Need := {}) : Out :=
  s.issue { n with touch := s.cur.keyS d :: vkeys srcs ++ n.touch, live := s.cur.namedS d } fun t =>
    (t.modCur fun u => u.setS d (x t)).doneA

/-- A masked element-wise operation without flags: `f` gets the elements' index. -/
def State.vmap (s : State) (d : VReg) (srcs : List VReg) (k : KReg) (w : Nat) (f : Nat → Nat) : Out :=
  s.writeV d srcs fun t => maskedLanes (t.cur.getK k) w (1024 / w) (t.cur.getV d) fun j => (f j, {})

/-- A masked element-wise operation with flags. -/
def State.vmapF (s : State) (d : VReg) (srcs : List VReg) (k : KReg) (w : Nat) (f : Nat → Nat × Flags) : Out :=
  s.writeV d srcs fun t => maskedLanes (t.cur.getK k) w (1024 / w) (t.cur.getV d) f

end Sys2Proof.Machine
end

