-- ==== Sys2Proof/Machine/Vector.lean ====
section
/-! DEFINITION. The integer vector instructions (R256), permutes (R271), mask logic (R272), moves between vectors, masks and
scalars (R273), and the vector sequencer (R276 to R279). -/

namespace Sys2Proof.Machine

/-! ### Integer arithmetic (R256) -/

/-- Clamped signed result of `w` bits (R256). -/
def clampW (w : Nat) (i : Int) : Nat := lowBits w (clamp (intMin w true) (intMax w true) i)
/-- Signed value of a `w`-bit element. -/
def sgn (w x : Nat) : Int := intValue w true x
/-- All ones of `w` bits. -/
def ones (w : Nat) : Nat := 2 ^ w - 1

/-- `op.sz vd, va, vb [, kn]` (R256): `f` gets the width and the two elements. -/
def State.vint2 (s : State) (f : Nat → Nat → Nat → Nat) (d a b : VReg) (k : KReg) (z : ESize) : Out :=
  let w := ESize.bitsOf z
  s.vmap d [a, b] k w fun j => f w (lane (s.cur.getV a) w j) (lane (s.cur.getV b) w j)

/-- `vadd` (R256). -/
def execVadd (d a b : VReg) (k : KReg) (z : ESize) (s : State) : Out := s.vint2 (fun w x y => (x + y) % 2 ^ w) d a b k z
/-- `vsub` (R256). -/
def execVsub (d a b : VReg) (k : KReg) (z : ESize) (s : State) : Out := s.vint2 (fun w x y => (x + 2 ^ w - y) % 2 ^ w) d a b k z
/-- `vadds` (R256). -/
def execVadds (d a b : VReg) (k : KReg) (z : ESize) (s : State) : Out := s.vint2 (fun w x y => clampW w (sgn w x + sgn w y)) d a b k z
/-- `vsubs` (R256). -/
def execVsubs (d a b : VReg) (k : KReg) (z : ESize) (s : State) : Out := s.vint2 (fun w x y => clampW w (sgn w x - sgn w y)) d a b k z
/-- `vaddus` (R256). -/
def execVaddus (d a b : VReg) (k : KReg) (z : ESize) (s : State) : Out := s.vint2 (fun w x y => min (ones w) (x + y)) d a b k z
/-- `vsubus` (R256). -/
def execVsubus (d a b : VReg) (k : KReg) (z : ESize) (s : State) : Out := s.vint2 (fun _ x y => x - y) d a b k z
/-- `vmul` (R256). -/
def execVmul (d a b : VReg) (k : KReg) (z : ESize) (s : State) : Out := s.vint2 (fun w x y => x * y % 2 ^ w) d a b k z
/-- `vmulh` (R256). -/
def execVmulh (d a b : VReg) (k : KReg) (z : ESize) (s : State) : Out := s.vint2 (fun w x y => lowBits w (sgn w x * sgn w y / 2 ^ w)) d a b k z
/-- `vmulhu` (R256). -/
def execVmulhu (d a b : VReg) (k : KReg) (z : ESize) (s : State) : Out := s.vint2 (fun w x y => x * y / 2 ^ w) d a b k z
/-- `vand` (R256). -/
def execVand (d a b : VReg) (k : KReg) (z : ESize) (s : State) : Out := s.vint2 (fun _ x y => x &&& y) d a b k z
/-- `vor` (R256). -/
def execVor (d a b : VReg) (k : KReg) (z : ESize) (s : State) : Out := s.vint2 (fun _ x y => x ||| y) d a b k z
/-- `vxor` (R256). -/
def execVxor (d a b : VReg) (k : KReg) (z : ESize) (s : State) : Out := s.vint2 (fun _ x y => x ^^^ y) d a b k z
/-- `vandn` (R256). -/
def execVandn (d a b : VReg) (k : KReg) (z : ESize) (s : State) : Out := s.vint2 (fun w x y => x &&& (ones w ^^^ y)) d a b k z
/-- `vmin` (R256). -/
def execVmin (d a b : VReg) (k : KReg) (z : ESize) (s : State) : Out := s.vint2 (fun w x y => if sgn w y < sgn w x then y else x) d a b k z
/-- `vmax` (R256). -/
def execVmax (d a b : VReg) (k : KReg) (z : ESize) (s : State) : Out := s.vint2 (fun w x y => if sgn w x < sgn w y then y else x) d a b k z
/-- `vminu` (R256). -/
def execVminu (d a b : VReg) (k : KReg) (z : ESize) (s : State) : Out := s.vint2 (fun _ x y => min x y) d a b k z
/-- `vmaxu` (R256). -/
def execVmaxu (d a b : VReg) (k : KReg) (z : ESize) (s : State) : Out := s.vint2 (fun _ x y => max x y) d a b k z
/-- `vabs` (R256): −2^(w−1) gives itself. -/
def execVabs (d a : VReg) (k : KReg) (z : ESize) (s : State) : Out :=
  s.vint2 (fun w x _ => if sgn w x < 0 then (2 ^ w - x) % 2 ^ w else x) d a a k z
/-- `vsll` (R256). -/
def execVsll (d a b : VReg) (k : KReg) (z : ESize) (s : State) : Out := s.vint2 (fun w x y => x * 2 ^ (y % w) % 2 ^ w) d a b k z
/-- `vsrl` (R256). -/
def execVsrl (d a b : VReg) (k : KReg) (z : ESize) (s : State) : Out := s.vint2 (fun w x y => x / 2 ^ (y % w)) d a b k z
/-- `vsra` (R256). -/
def execVsra (d a b : VReg) (k : KReg) (z : ESize) (s : State) : Out := s.vint2 (fun w x y => lowBits w (sgn w x / 2 ^ (y % w))) d a b k z
/-- `vavgu` (R256). -/
def execVavgu (d a b : VReg) (k : KReg) (z : ESize) (s : State) : Out := s.vint2 (fun _ x y => (x + y + 1) / 2) d a b k z

/-! ### Permutes (R271) -/

/-- A permute: `f` gets the element count, the elements of va, vb and the old vd, and the index of the result. -/
def State.perm (s : State) (f : Nat → (Nat → Nat) → (Nat → Nat) → (Nat → Nat) → Nat → Nat) (d a b : VReg) (k : KReg)
    (z : ESize) : Out :=
  let w := ESize.bitsOf z
  s.vmap d [a, b] k w (f (1024 / w) (lane (s.cur.getV a) w) (lane (s.cur.getV b) w) (lane (s.cur.getV d) w))

/-- `vperm` (R271). -/
def execVperm (d a b : VReg) (k : KReg) (z : ESize) (s : State) : Out :=
  s.perm (fun n x y _ j => if y j < n then x (y j) else 0) d a b k z
/-- `vperm2` (R271): the old vd is the second table. -/
def execVperm2 (d a b : VReg) (k : KReg) (z : ESize) (s : State) : Out :=
  s.perm (fun n x y o j => if y j < n then x (y j) else if y j < 2 * n then o (y j - n) else 0) d a b k z
/-- `vzipl` (R271). -/
def execVzipl (d a b : VReg) (k : KReg) (z : ESize) (s : State) : Out :=
  s.perm (fun _ x y _ j => if j % 2 = 0 then x (j / 2) else y (j / 2)) d a b k z
/-- `vziph` (R271). -/
def execVziph (d a b : VReg) (k : KReg) (z : ESize) (s : State) : Out :=
  s.perm (fun n x y _ j => if j % 2 = 0 then x (n / 2 + j / 2) else y (n / 2 + j / 2)) d a b k z
/-- `vuzpe` (R271). -/
def execVuzpe (d a b : VReg) (k : KReg) (z : ESize) (s : State) : Out :=
  s.perm (fun n x y _ j => if j < n / 2 then x (2 * j) else y (2 * (j - n / 2))) d a b k z
/-- `vuzpo` (R271). -/
def execVuzpo (d a b : VReg) (k : KReg) (z : ESize) (s : State) : Out :=
  s.perm (fun n x y _ j => if j < n / 2 then x (2 * j + 1) else y (2 * (j - n / 2) + 1)) d a b k z
/-- `vrev` (R271). -/
def execVrev (d a : VReg) (k : KReg) (z : ESize) (s : State) : Out :=
  s.perm (fun n x _ _ j => x (n - 1 - j)) d a a k z
/-- `vsld` (R271): zero beyond the end of va followed by vb. -/
def execVsld (d a b : VReg) (k : KReg) (z : ESize) (c : BitVec 5) (s : State) : Out :=
  s.perm (fun n x y _ j =>
    let i := j + c.toNat
    if i < n then x i else if i < 2 * n then y (i - n) else 0) d a b k z

/-! ### Mask operations (R272) -/

/-- Mask logic on all 128 bits. -/
def State.mask2 (s : State) (f : KWord → KWord → KWord) (d a b : KReg) : Out :=
  s.writeK d [] fun t => (f (t.cur.getK a) (t.cur.getK b), {})

/-- `kand` (R272). -/
def execKand (d a b : KReg) (s : State) : Out := s.mask2 (fun x y => x &&& y) d a b
/-- `kor` (R272). -/
def execKor (d a b : KReg) (s : State) : Out := s.mask2 (fun x y => x ||| y) d a b
/-- `kxor` (R272). -/
def execKxor (d a b : KReg) (s : State) : Out := s.mask2 (fun x y => x ^^^ y) d a b
/-- `kandn` (R272). -/
def execKandn (d a b : KReg) (s : State) : Out := s.mask2 (fun x y => x &&& ~~~y) d a b
/-- `knot` (R272). -/
def execKnot (d a : KReg) (s : State) : Out := s.mask2 (fun x _ => ~~~x) d a a
/-- `kmov` (R272). -/
def execKmov (d a : KReg) (s : State) : Out := s.mask2 (fun x _ => x) d a a
/-- `vmerge` (R272): the mask selects between the sources, and every element is written. -/
def execVmerge (d a b : VReg) (k : KReg) (z : ESize) (s : State) : Out :=
  let w := ESize.bitsOf z
  s.writeV d [a, b] fun t =>
    (lanes w (1024 / w) fun j => if laneOn (t.cur.getK k) w j then lane (t.cur.getV a) w j else lane (t.cur.getV b) w j, {})

/-! ### Moves between vectors, masks and scalars (R273) -/

/-- `vbcast` (R273). -/
def execVbcast (d : VReg) (a : SReg) (k : KReg) (z : ESize) (s : State) : Out :=
  let w := ESize.bitsOf z
  s.writeV d [] (fun t => maskedLanes (t.cur.getK k) w (1024 / w) (t.cur.getV d) fun _ => ((t.cur.getS a).toNat % 2 ^ w, {}))
    { touch := [s.cur.keyS a] }

/-- An index is below the element count (R273). -/
def indexOk (i : Word) (w : Nat) : Bool := decide (i.toNat < 1024 / w)

/-- `vext` (R273). -/
def execVext (d : SReg) (a : VReg) (b : SReg) (z : ESize) (s : State) : Out :=
  let w := ESize.bitsOf z
  let i := s.cur.getS b
  s.writeSV d [a] (fun t => word (lane (t.cur.getV a) w i.toNat)) { touch := [s.cur.keyS b], ok := indexOk i w }
/-- `vexts` (R273). -/
def execVexts (d : SReg) (a : VReg) (b : SReg) (z : ESize) (s : State) : Out :=
  let w := ESize.bitsOf z
  let i := s.cur.getS b
  s.writeSV d [a] (fun t => wordI (sgn w (lane (t.cur.getV a) w i.toNat))) { touch := [s.cur.keyS b], ok := indexOk i w }
/-- `vins` (R273). -/
def execVins (d : VReg) (a b : SReg) (z : ESize) (s : State) : Out :=
  let w := ESize.bitsOf z
  let i := s.cur.getS b
  s.writeV d []
    (fun t => (lanes w (1024 / w) fun j => if j = i.toNat then (t.cur.getS a).toNat else lane (t.cur.getV d) w j, {}))
    { touch := [s.cur.keyS a, s.cur.keyS b], ok := indexOk i w }
/-- `ktos` (R273). -/
def execKtos (d : SReg) (a : KReg) (h : BitVec 1) (s : State) : Out :=
  s.writeSV d [] fun t => word (elemAt (t.cur.getK a).toNat 64 h.toNat)
/-- `stok` (R273). -/
def execStok (d : KReg) (a : SReg) (h : BitVec 1) (s : State) : Out :=
  s.writeK d [] (fun t => (setBits (t.cur.getK d) (64 * h.toNat + 63) (64 * h.toNat) (t.cur.getS a).toNat, {}))
    { touch := [s.cur.keyS a] }
/-- `kpop` (R273). -/
def execKpop (d : SReg) (a : KReg) (s : State) : Out := s.writeSV d [] fun t => word (popCount 128 (t.cur.getK a).toNat)
/-- `vmov` (R273). -/
def execVmov (d a : VReg) (k : KReg) (z : ESize) (s : State) : Out := s.vint2 (fun _ x _ => x) d a a k z

/-! ### The vector sequencer (R276 to R279) -/

/-- `vloop sa, n` with trip count `t` (R278): the body is the bundles that follow in memory. -/
def State.vloop (s : State) (t : Word) (a : SReg) (n : BitVec 4) : Out :=
  let len := n.toNat + 1
  s.issue { touch := [s.cur.keyS a], ok := decide (t.toNat < 2 ^ 32) && !s.cur.seq.active } fun s =>
    let first := s.cur.pc + 8
    if t = 0 then (s.modCur fun u => u.jump (first + word (8 * len))).doneA
    else (s.modCur fun u => { u.jump first with seq := { active := true, start := first, len, trips := t.toNat } }).doneA
/-- `vloop sa, n` (R278). -/
def execVloop (a : SReg) (n : BitVec 4) (s : State) : Out := s.vloop (s.cur.getS a) a n
/-- `vlidx sd` (R278): LIDX while the sequencer is Running or Held, 0 while it is Idle. -/
def execVlidx (d : SReg) (s : State) : Out :=
  s.writeSV d [] fun t => if t.cur.seq.active then word t.cur.seq.idx else 0

end Sys2Proof.Machine
end

