-- ==== Sys2Proof/Machine/VectorFmt.lean ====
section
/-! DEFINITION. The vector instructions that take formats: packed narrow arithmetic (R261, R262), conversions (R263, R264), and
the ternary unpack and pack (R274, R275). -/

namespace Sys2Proof.Machine

/-! ### Packed narrow arithmetic (R261, R262) -/

/-- A format that the packed arithmetic accepts (R261). -/
def packedOk (f : Fmt) : Bool :=
  [Fmt.bf16, .f16, .e4m3, .e5m2, .e3m4, .i8, .n8, .e3m2, .e2m3, .e2m1, .i4, .n4, .i2].contains f

/-- The three formats have one width and are all floating point or all integer (R261). -/
def packedFormats (fa fb fc : Fmt) : Bool :=
  packedOk fa && packedOk fb && packedOk fc && fmtWidth fa == fmtWidth fb && fmtWidth fa == fmtWidth fc &&
    kindOf fa == kindOf fb && kindOf fa == kindOf fc

/-- One packed lane: exact, then delivered in fc (R262). -/
def packedLane (u : Unit) (fl : RM → Num → Num → Num → Exact) (int : Int → Int → Int → Int) (fc : Fmt) (a b c : Val) : Nat × Flags :=
  match fpOf fc with
  | some p => p.deliver u.rm u.sat (fl u.rm a.num b.num c.num)
  | none =>
    let i (v : Val) : Int :=
      match v with
      | .int i => i
      | .fp _ => 0
    let (w, sg) := (intOf fc).getD (8, true)
    narrowInt w sg u.sat (int (i a) (i b) (i c))

/-- A packed instruction (R261): formats from the prefix, e4m3 and fa by default; the bits of vd beyond the last element are
written zero. -/
def State.packed (s : State) (fl : RM → Num → Num → Num → Exact) (int : Int → Int → Int → Int) (d a b : VReg) (k : KReg) : Out :=
  let fa := s.cur.fa.getD .e4m3
  let fb := s.cur.fb.getD fa
  let fc := s.cur.fc.getD fa
  let w := fmtWidth fa
  let rd (r : VReg) (f : Fmt) (j : Nat) := valueOf f (lane (s.cur.getV r) w j)
  s.writeV d [a, b]
    (fun _ => maskedLanes (s.cur.getK k) w (1024 / w) (s.cur.getV d) fun j =>
      packedLane s.cur fl int fc (rd a fa j) (rd b fb j) (rd d fc j))
    { fmts := true, ok := packedFormats fa fb fc }

/-- `vpadd` (R262). -/
def execVpadd (d a b : VReg) (k : KReg) (s : State) : Out := s.packed (fun m x y _ => addExact m x y) (fun x y _ => x + y) d a b k
/-- `vpsub` (R262). -/
def execVpsub (d a b : VReg) (k : KReg) (s : State) : Out :=
  s.packed (fun m x y _ => addExact m x (Num.neg y)) (fun x y _ => x - y) d a b k
/-- `vpmul` (R262). -/
def execVpmul (d a b : VReg) (k : KReg) (s : State) : Out := s.packed (fun _ x y _ => mulExact x y) (fun x y _ => x * y) d a b k
/-- `vpmin` (R262). -/
def execVpmin (d a b : VReg) (k : KReg) (s : State) : Out := s.packed (fun _ x y _ => minExact x y) (fun x y _ => min x y) d a b k
/-- `vpmax` (R262). -/
def execVpmax (d a b : VReg) (k : KReg) (s : State) : Out := s.packed (fun _ x y _ => maxExact x y) (fun x y _ => max x y) d a b k
/-- `vpfma` (R262). -/
def execVpfma (d a b : VReg) (k : KReg) (s : State) : Out :=
  s.packed (fun m x y c => fmaExact m x y c) (fun x y c => x * y + c) d a b k

/-! ### Conversions (R263, R264) -/

/-- The 32 source values of `vcvt`, none where an entropy-coded block is illegal (R264). -/
def sourceValues (f : Fmt) (x : VWord) (sp : Nat) : Option (List Val) :=
  let (lo, n) := partAt f sp
  let str := x.toNat / 2 ^ lo % 2 ^ n
  match xOf f with
  | some p => (xDecode p (bytesOf 128 str)).map fun r => r.1.map fun e => .fp (p.read e)
  | none =>
    match blockOf f with
    | some w => some ((blockValues w (bytesOf (1 + 4 * w) str)).map .fp)
    | none => some ((upTo 32).map fun j => valueOf f (elemAt str (fmtWidth f) j))

/-- The register with its bits [lo + n − 1 : lo] replaced. -/
def putPart (x : VWord) (lo n v : Nat) : VWord := setBits x (lo + n - 1) lo v

/-- What `vcvt` writes, with its flags (R263, R264). -/
def convert (u : Unit) (fa fb : Fmt) (k : KWord) (x old : VWord) (sp dp : Nat) : VWord × Flags :=
  let src := sourceValues fa x sp
  let bad : Flags := { nv := src.isNone }
  let vs := src.getD (List.replicate 32 (.fp (.nan false)))
  let (lo, n) := partAt fb dp
  match xOf fb with
  | some p =>
    let es := vs.map fun v => p.deliver u.rm u.sat { x := v.num, flags := { nv := v.num.isSignalling } }
    (BitVec.ofNat 1024 (ofBytes (xEncode p (es.map fun e => e.1))), bad.or (flagsOf (es.map fun e => e.2)))
  | none =>
    match blockOf fb with
    | some w =>
      let (bs, f) := blockOfValues w u.rm (vs.map Val.num)
      (putPart old lo n (ofBytes bs), bad.or f)
    | none =>
      let w := fmtWidth fb
      let es := (upTo 32).map fun i =>
        if laneOn k 32 i then
          let r := convertTo fb u.rm u.sat (vs.getD i (.int 0))
          (r.1, bad.or r.2)
        else (elemAt (old.toNat / 2 ^ lo) w i, {})
      (putPart old lo n (packElems w (es.map fun e => e.1)), flagsOf (es.map fun e => e.2))

/-- `vcvt` (R263): func[5:3], `x`, is the destination part and func[2:0], `y`, the source part. -/
def execVcvt (d a : VReg) (k : KReg) (x y : BitVec 3) (s : State) : Out :=
  let fa := s.cur.fa.getD .f32
  let fb := s.cur.fb.getD .f32
  let whole := kindOf fb == .block || kindOf fb == .coded
  let ok := convertible fa fb && decide (y.toNat < partsOf fa) && decide (x.toNat < partsOf fb) && s.cur.fc.isNone &&
    (!whole || k == 0)
  s.writeV d [a] (fun _ => convert s.cur fa fb (s.cur.getK k) (s.cur.getV a) (s.cur.getV d) y.toNat x.toNat) { fmts := true, ok }

/-! ### Ternary unpack and pack (R274, R275) -/

/-- The format of a ternary unpack, its elements and its parts (R274). -/
def ttypeFmt : TType → Fmt
  | .i8 => .i8 | .i2 => .i2 | .e4m3 => .e4m3 | .e5m2 => .e5m2 | .e3m4 => .e3m4 | .e3m2 => .e3m2 | .e2m3 => .e2m3
  | .e2m1 => .e2m1 | .bf16 => .bf16 | .f16 => .f16 | .f32 => .f32
def ttypeCount (t : TType) : Nat := if fmtWidth (ttypeFmt t) ≤ 8 then 125 else if fmtWidth (ttypeFmt t) = 16 then 60 else 30
def ttypeParts (t : TType) : Nat := if fmtWidth (ttypeFmt t) ≤ 8 then 5 else if fmtWidth (ttypeFmt t) = 16 then 10 else 21

/-- The trits of t5 bytes: an illegal byte gives five zeros and NV (R244). -/
def unpackTrits (l : List Byte) : List Int × Flags :=
  (l.flatMap fun b => (tritsOf b.toNat).getD (List.replicate 5 0), { nv := l.any fun b => (tritsOf b.toNat).isNone })

/-- `vtunpack.t` (R274). -/
def execVtunpack (d a : VReg) (p : BitVec 5) (f : TType) (s : State) : Out :=
  let n := ttypeCount f / 5
  let fmt := ttypeFmt f
  let bs := bytesOf n ((s.cur.getV a).toNat / 2 ^ (8 * n * p.toNat))
  let (ts, g) := unpackTrits bs
  s.writeV d [a]
    (fun _ => (BitVec.ofNat 1024 (packElems (fmtWidth fmt) (ts.map fun t => (convertTo fmt .rne false (.int t)).1)), g))
    { ok := decide (p.toNat < ttypeParts f) }

/-- `vtpack` (R275): a value outside −1 to 1 is clamped and sets NV. -/
def execVtpack (d a : VReg) (p : BitVec 5) (t : TPack) (s : State) : Out :=
  let w := match t with | .i8 => 8 | .i2 => 2
  let vs := (upTo 125).map fun j => intValue w true (lane (s.cur.getV a) w j)
  let bs := (chunksOf 5 25 (vs.map (clamp (-1) 1))).map byteOfTrits
  s.writeV d [a]
    (fun t => (putPart (t.cur.getV d) (200 * p.toNat) 200 (packElems 8 bs), { nv := vs.any fun v => decide (v < -1 ∨ 1 < v) }))
    { ok := decide (p.toNat < 5) }

end Sys2Proof.Machine
end

