-- ==== Sys2Proof/Machine/VectorFp.lean ====
section
/-! DEFINITION. The floating-point vector instructions: arithmetic (R257, R258), fused multiply-add (R259), compares (R260),
special functions (R265 to R268), reductions (R269, R270) and the soft-maximum pair (R307 to R309). Each result is exact and
rounded once in TSR.RM and TSR.SAT. -/

namespace Sys2Proof.Machine

/-! ### Arithmetic (R257, R258) -/

/-- A masked operation on two sources and the old destination, rounded once (R257). -/
def State.vfp (s : State) (f : RM → Num → Num → Num → Exact) (d a b : VReg) (k : KReg) (t : FType) : Out :=
  let p := ftypeFp t
  let w := p.width
  let rd (r : VReg) (j : Nat) := p.read (lane (s.cur.getV r) w j)
  s.vmapF d [a, b] k w fun j => p.deliver s.cur.rm s.cur.sat (f s.cur.rm (rd a j) (rd b j) (rd d j))

/-- A sign operation: the bits of a with the sign that `f` gives; no flag (R258). -/
def State.vsign (s : State) (f : Bool → Bool → Bool) (d a b : VReg) (k : KReg) (t : FType) : Out :=
  let w := (ftypeFp t).width
  let sg (x : Nat) : Bool := decide (2 ^ (w - 1) ≤ x)
  s.vmap d [a, b] k w fun j =>
    let x := lane (s.cur.getV a) w j
    x % 2 ^ (w - 1) + (if f (sg x) (sg (lane (s.cur.getV b) w j)) then 2 ^ (w - 1) else 0)

/-- `vadd.t` (R257). -/
def execVaddF (d a b : VReg) (k : KReg) (t : FType) (s : State) : Out := s.vfp (fun m x y _ => addExact m x y) d a b k t
/-- `vsub.t` (R257). -/
def execVsubF (d a b : VReg) (k : KReg) (t : FType) (s : State) : Out := s.vfp (fun m x y _ => addExact m x (Num.neg y)) d a b k t
/-- `vmul.t` (R257). -/
def execVmulF (d a b : VReg) (k : KReg) (t : FType) (s : State) : Out := s.vfp (fun _ x y _ => mulExact x y) d a b k t
/-- `vmin.t` (R257, R258). -/
def execVminF (d a b : VReg) (k : KReg) (t : FType) (s : State) : Out := s.vfp (fun _ x y _ => minExact x y) d a b k t
/-- `vmax.t` (R257, R258). -/
def execVmaxF (d a b : VReg) (k : KReg) (t : FType) (s : State) : Out := s.vfp (fun _ x y _ => maxExact x y) d a b k t
/-- `vabs.t` (R258). -/
def execVabsF (d a : VReg) (k : KReg) (t : FType) (s : State) : Out := s.vsign (fun _ _ => false) d a a k t
/-- `vneg.t` (R258). -/
def execVnegF (d a : VReg) (k : KReg) (t : FType) (s : State) : Out := s.vsign (fun x _ => !x) d a a k t
/-- `vcpsgn.t` (R258). -/
def execVcpsgnF (d a b : VReg) (k : KReg) (t : FType) (s : State) : Out := s.vsign (fun _ y => y) d a b k t

/-! ### Fused multiply-add (R259) -/

/-- `vfma.t` (R259). -/
def execVfma (d a b : VReg) (k : KReg) (t : FType) (s : State) : Out := s.vfp (fun m x y c => fmaExact m x y c) d a b k t
/-- `vfms.t` (R259). -/
def execVfms (d a b : VReg) (k : KReg) (t : FType) (s : State) : Out := s.vfp (fun m x y c => fmaExact m x y (Num.neg c)) d a b k t
/-- `vfnma.t` (R259). -/
def execVfnma (d a b : VReg) (k : KReg) (t : FType) (s : State) : Out := s.vfp (fun m x y c => fmaExact m (Num.neg x) y c) d a b k t
/-- `vfnms.t` (R259). -/
def execVfnms (d a b : VReg) (k : KReg) (t : FType) (s : State) : Out := s.vfp (fun m x y c => fmaExact m (Num.neg x) y (Num.neg c)) d a b k t

/-- The widening forms: elements j + `from'` of va and vb, in f32 (R259). -/
def State.vfmaw (s : State) (from' : Nat) (d a b : VReg) (k : KReg) (t : HType) : Out :=
  let p := htypeFp t
  let rd (r : VReg) (j : Nat) := p.read (lane (s.cur.getV r) 16 (j + from'))
  s.vmapF d [a, b] k 32 fun j =>
    fpF32.deliver s.cur.rm s.cur.sat (fmaExact s.cur.rm (rd a j) (rd b j) (fpF32.read (lane (s.cur.getV d) 32 j)))
/-- `vfmaw.lo.t` (R259). -/
def execVfmawLo (d a b : VReg) (k : KReg) (t : HType) (s : State) : Out := s.vfmaw 0 d a b k t
/-- `vfmaw.hi.t` (R259). -/
def execVfmawHi (d a b : VReg) (k : KReg) (t : HType) (s : State) : Out := s.vfmaw 32 d a b k t

/-! ### Compares (R260) -/

/-- An integer compare of two `w`-bit elements (R209). -/
def compareW (c : Cc) (w x y : Nat) : Bool :=
  match c with
  | .eq => x == y
  | .ne => x != y
  | .lt => decide (intValue w true x < intValue w true y)
  | .ge => !decide (intValue w true x < intValue w true y)
  | .ltu => decide (x < y)
  | .geu => !decide (x < y)

/-- A floating-point compare with its NV (R260). -/
def compareF (c : FCc) (x y : Num) : Bool × Flags :=
  let nan := x.isNan || y.isNan
  let snan : Flags := { nv := x.isSignalling || y.isSignalling }
  match c with
  | .eq => (numEq x y, snan)
  | .ne => (!numEq x y, snan)
  | .lt => (!nan && numLess x y, { nv := nan })
  | .le => (!nan && !numLess y x, { nv := nan })
  | .uo => (nan, snan)

/-- What a compare answers for elements `j`, with the width of an element. -/
def vcmpWidth : VCmp → Nat
  | .int _ z => ESize.bitsOf z
  | .fp _ t => (ftypeFp t).width
def vcmpLane (c : VCmp) (x y : Nat) : Bool × Flags :=
  match c with
  | .int c z => (compareW c (ESize.bitsOf z) x y, {})
  | .fp c t => compareF c ((ftypeFp t).read x) ((ftypeFp t).read y)

/-- A mask of `n` elements, all w bits of an element alike (R191). -/
def maskOf (w n : Nat) (f : Nat → Bool) : KWord :=
  BitVec.ofNat 128 (packElems (w / 8) ((upTo n).map fun j => if f j then 2 ^ (w / 8) - 1 else 0))

/-- `vcmp.cc` (R260): an inactive element writes 0. -/
def execVcmp (d : KReg) (a b : VReg) (k : KReg) (c : VCmp) (s : State) : Out :=
  let w := vcmpWidth c
  let on := laneOn (s.cur.getK k) w
  let r (j : Nat) := vcmpLane c (lane (s.cur.getV a) w j) (lane (s.cur.getV b) w j)
  s.writeK d [a, b] fun _ =>
    (maskOf w (1024 / w) (fun j => on j && (r j).1), flagsOf ((upTo (1024 / w)).map fun j => if on j then (r j).2 else {}))

/-! ### Special functions (R265 to R268) -/

/-- A masked f32 operation. -/
def State.vf32 (s : State) (f : Num → Num → Nat × Flags) (d a b : VReg) (k : KReg) : Out :=
  s.vmapF d [a, b] k 32 fun j => f (fpF32.read (lane (s.cur.getV a) 32 j)) (fpF32.read (lane (s.cur.getV b) 32 j))
/-- An f32 result rounded once in RM and SAT. -/
def Unit.f32 (u : Unit) (r : Exact) : Nat × Flags := fpF32.deliver u.rm u.sat r

/-- y + y × (1 − p) / 2^h for the product p of finite values, exactly (R267). -/
def refineFin (rm : RM) (p y : Num) (h : Nat) : Exact :=
  let c := addExact rm (.fin false 1 0) p.neg
  let c := mulExact y c.x
  let c := mulExact c.x (.fin false 1 (-(h : Int)))
  addExact rm y c.x

/-- A refinement step of x and y (R267); `h` is 1 for the square root. -/
def refine (rm : RM) (root : Bool) (x y : Num) : Exact :=
  match y with
  | .nan _ => { x := .nan false }
  | .inf _ => { x := y }
  | .fin _ m _ =>
    if m = 0 then { x := y }
    else
      match x with
      | .nan g => .nanOf [.nan g]
      | .inf _ => { x := y }
      | .fin _ n _ =>
        if n = 0 then { x := y }
        else
          let xy := (mulExact x y).x
          if root then refineFin rm (mulExact xy y).x y 1 else refineFin rm xy y 0

/-- `vrcp.a` (R266): RM and SAT are ignored. -/
def execVrcpA (d a : VReg) (k : KReg) (s : State) : Out := s.vf32 (fun x _ => approx12 (rcpExact x)) d a a k
/-- `vrsq.a` (R266): RM and SAT are ignored. -/
def execVrsqA (d a : VReg) (k : KReg) (s : State) : Out := s.vf32 (fun x _ => approx12 (rsqExact x)) d a a k
/-- `vrcp.s` (R267). -/
def execVrcpS (d a b : VReg) (k : KReg) (s : State) : Out := s.vf32 (fun x y => s.cur.f32 (refine s.cur.rm false x y)) d a b k
/-- `vrsq.s` (R267). -/
def execVrsqS (d a b : VReg) (k : KReg) (s : State) : Out := s.vf32 (fun x y => s.cur.f32 (refine s.cur.rm true x y)) d a b k
/-- `vrcp` (R268). -/
def execVrcp (d a : VReg) (k : KReg) (s : State) : Out := s.vf32 (fun x _ => s.cur.f32 (rcpExact x)) d a a k
/-- `vrsq` (R268). -/
def execVrsq (d a : VReg) (k : KReg) (s : State) : Out := s.vf32 (fun x _ => s.cur.f32 (rsqExact x)) d a a k
/-- `vsqrt` (R268). -/
def execVsqrt (d a : VReg) (k : KReg) (s : State) : Out := s.vf32 (fun x _ => s.cur.f32 (sqrtExact x)) d a a k
/-- `vdiv` (R268). -/
def execVdiv (d a b : VReg) (k : KReg) (s : State) : Out := s.vf32 (fun x y => s.cur.f32 (divExact x y)) d a b k
/-- `vexp2` (R268). -/
def execVexp2 (d a : VReg) (k : KReg) (s : State) : Out := s.vf32 (fun x _ => s.cur.f32 (exp2Exact x)) d a a k
/-- `vlog2` (R268). -/
def execVlog2 (d a : VReg) (k : KReg) (s : State) : Out := s.vf32 (fun x _ => s.cur.f32 (log2Exact x)) d a a k

/-! ### Reductions (R269, R270) -/

/-- One level of the tree: an absent input passes the other one through (R270). -/
def treeLevel {α : Type} (f : α → α → α) : List (Option α) → List (Option α)
  | x :: y :: r =>
    (match x, y with
     | some a, some b => some (f a b)
     | some a, none => some a
     | none, some b => some b
     | none, none => none) :: treeLevel f r
  | x :: [] => [x]
  | [] => []

/-- The tree over at most 2^n elements. -/
def tree {α : Type} (f : α → α → α) : Nat → List (Option α) → Option α
  | 0, l => l.getD 0 none
  | n + 1, l => tree f n (treeLevel f l)

/-- The elements of va that are active, absent otherwise. -/
def State.activeLanes (s : State) (a : VReg) (k : KReg) (w : Nat) : List (Option Nat) :=
  (upTo (1024 / w)).map fun j => if laneOn (s.cur.getK k) w j then some (lane (s.cur.getV a) w j) else none

/-- A reduction into element 0; every other bit is zero (R269). -/
def State.reduce (s : State) (d a : VReg) (r : Nat × Flags) : Out :=
  s.writeV d [a] fun _ => (BitVec.ofNat 1024 r.1, r.2)

/-- A floating-point reduction: each node is delivered with its flags (R270). -/
def State.reduceF (s : State) (f : Num → Num → Exact) (identity : Nat) (d a : VReg) (k : KReg) : Out :=
  let node (x y : Nat × Flags) : Nat × Flags :=
    let r := s.cur.f32 (f (fpF32.read x.1) (fpF32.read y.1))
    (r.1, (x.2.or y.2).or r.2)
  let l := (s.activeLanes a k 32).map fun x => x.map fun x => (x, ({} : Flags))
  s.reduce d a ((tree node 5 l).getD (identity, {}))

/-- An integer reduction of `w`-bit elements. -/
def State.reduceI (s : State) (f : Nat → Nat → Nat → Nat) (identity : Nat → Nat) (d a : VReg) (k : KReg) (z : ESize) : Out :=
  let w := ESize.bitsOf z
  s.reduce d a ((tree (f w) 7 (s.activeLanes a k w)).getD (identity w), {})

/-- `vradd.f32` (R270): rounded at every node. -/
def execVraddF32 (d a : VReg) (k : KReg) (s : State) : Out := s.reduceF (addExact s.cur.rm) 0 d a k
/-- `vrmax.f32` (R269): the identity is −∞. -/
def execVrmaxF32 (d a : VReg) (k : KReg) (s : State) : Out := s.reduceF maxExact 0xFF800000 d a k
/-- `vrmin.f32` (R269): the identity is +∞. -/
def execVrminF32 (d a : VReg) (k : KReg) (s : State) : Out := s.reduceF minExact 0x7F800000 d a k
/-- `vradd` (R269). -/
def execVradd (d a : VReg) (k : KReg) (z : ESize) (s : State) : Out :=
  s.reduceI (fun w x y => (x + y) % 2 ^ w) (fun _ => 0) d a k z
/-- `vrmax` (R269). -/
def execVrmax (d a : VReg) (k : KReg) (z : ESize) (s : State) : Out :=
  s.reduceI (fun w x y => if intValue w true x < intValue w true y then y else x) (fun w => 2 ^ (w - 1)) d a k z
/-- `vrmin` (R269). -/
def execVrmin (d a : VReg) (k : KReg) (z : ESize) (s : State) : Out :=
  s.reduceI (fun w x y => if intValue w true y < intValue w true x then y else x) (fun w => 2 ^ (w - 1) - 1) d a k z
/-- `vrmaxu` (R269). -/
def execVrmaxu (d a : VReg) (k : KReg) (z : ESize) (s : State) : Out :=
  s.reduceI (fun _ x y => max x y) (fun _ => 0) d a k z
/-- `vrminu` (R269). -/
def execVrminu (d a : VReg) (k : KReg) (z : ESize) (s : State) : Out :=
  s.reduceI (fun _ x y => min x y) (fun w => 2 ^ w - 1) d a k z
/-- `vrand` (R269). -/
def execVrand (d a : VReg) (k : KReg) (z : ESize) (s : State) : Out :=
  s.reduceI (fun _ x y => x &&& y) (fun w => 2 ^ w - 1) d a k z
/-- `vror` (R269). -/
def execVror (d a : VReg) (k : KReg) (z : ESize) (s : State) : Out :=
  s.reduceI (fun _ x y => x ||| y) (fun _ => 0) d a k z
/-- `vrxor` (R269). -/
def execVrxor (d a : VReg) (k : KReg) (z : ESize) (s : State) : Out :=
  s.reduceI (fun _ x y => x ^^^ y) (fun _ => 0) d a k z
/-- `vraddw` (R269): the exact signed sum as a 64-bit element 0. -/
def execVraddw (d a : VReg) (k : KReg) (z : ESize) (s : State) : Out :=
  let w := ESize.bitsOf z
  let l := (s.activeLanes a k w).map fun x => x.map (intValue w true)
  s.reduce d a (lowBits 64 ((tree (fun x y => x + y) 7 l).getD 0), {})

/-! ### The soft-maximum pair (R307 to R309) -/

/-- The least integer at or above a finite value, +0 for zero (R308). -/
def ceilNum (x : Num) : Num :=
  match x with
  | .fin n m e => let i := (roundInt .ru n m e).1; .fin (i < 0) i.natAbs 0
  | .inf n => .inf n
  | .nan g => .nan g

/-- The largest counted score, none where a counted score is NaN or +∞, with NV (R308). -/
def smMax (l : List Num) : Option Num × Flags :=
  l.foldl (fun (a : Option Num × Flags) x =>
    match x with
    | .nan g => (none, { a.2 with nv := a.2.nv || g })
    | .inf n => if n then a else (none, { a.2 with nv := true })
    | .fin _ _ _ => (a.1.map fun m => if orderLess m x then x else m, a.2)) (some (.inf true), {})

/-- One lane of `vsm.upd` (R308). -/
def smLane (m : Option Num) (e : Nat) : Nat × Flags :=
  let v := fpF32.read e
  match m with
  | none => (fpF32.nanEnc, { nv := v.isSignalling })
  | some m =>
    if v.isNan then (fpF32.nanEnc, { nv := v.isSignalling })
    else
      let bar := (addExact .rne v (.fin false 8 0)).x
      if numLess bar m then ((fpF32.deliver .rne false { x := ceilNum m }).1, {}) else (e, {})

/-- `vsm.upd` (R308): one maximum over the active lanes of vb, every lane of vd written. -/
def execVsmUpd (d a b : VReg) (k : KReg) (s : State) : Out :=
  let scores := (s.activeLanes b k 32).filterMap fun x => x.map fpF32.read
  let m := smMax scores
  let es := (upTo 32).map fun j => smLane m.1 (lane (s.cur.getV a) 32 j)
  s.writeV d [a, b] fun _ =>
    (BitVec.ofNat 1024 (packElems 32 (es.map fun e => e.1)), m.2.or (flagsOf (es.map fun e => e.2)))

/-- 2^(a − b) × x, exact for the ranges of f32: an exponent beyond ±2000 stands for the ones beyond (R309). -/
def scaleNum (x d : Num) : Exact :=
  match x, d with
  | .fin n m e, .fin _ _ _ =>
    if m = 0 then { x := x }
    else
      match exp2Exact d with
      | { x := .fin _ mm ee, flags := _ } => { x := .fin n (m * mm) (e + ee) }
      | { x := .inf _, flags := _ } => { x := x }
      | { x := .nan _, flags := _ } => { x := x }
  | .nan g, _ => .nanOf [.nan g]
  | .inf n, .fin _ _ _ => { x := .inf n }
  | .inf n, .inf _ => { x := .inf n }
  | .inf n, .nan _ => { x := .inf n }
  | .fin n m e, .inf _ => { x := .fin n m e }
  | .fin n m e, .nan _ => { x := .fin n m e }

/-- One lane of `vsm.rescale` (R309). -/
def rescaleLane (u : Unit) (a b x : Nat) : Nat × Flags :=
  let va := fpF32.read a
  let vb := fpF32.read b
  let vx := fpF32.read x
  if va.isNan || vb.isNan || vx.isNan then u.f32 (.nanOf [va, vb, vx])
  else
    match va, vb with
    | .fin na ma ea, .fin nb mb eb =>
      if numEq va vb then (x, {})
      else u.f32 (scaleNum vx (sumFin .rne na ma ea (!nb) mb eb))
    | .inf _, _ => u.f32 .invalid
    | _, .inf _ => u.f32 .invalid
    | .nan _, _ => u.f32 .invalid
    | _, .nan _ => u.f32 .invalid

/-- `vsm.rescale` (R309). -/
def execVsmRescale (d a b : VReg) (k : KReg) (s : State) : Out :=
  s.vmapF d [a, b] k 32 fun j => rescaleLane s.cur (lane (s.cur.getV a) 32 j) (lane (s.cur.getV b) 32 j) (lane (s.cur.getV d) 32 j)

end Sys2Proof.Machine
end

