-- ==== Sys2Proof/Machine/Dispatch.lean ====
section
/-! DEFINITION. One arm for each constructor of `Instr`. -/

namespace Sys2Proof.Machine

/-- The meaning of an instruction, operation or event in a state. -/
def exec (i : Instr) (s : State) : Host.Outcome State Fault Refusal :=
  match i with
  | .nop => Sys2Proof.Machine.execNop s
  | .fmtC fa fb fc => Sys2Proof.Machine.execFmtC fa fb fc s
  | .fmtA fa fb fc => Sys2Proof.Machine.execFmtA fa fb fc s
  | .ldB la d b o => Sys2Proof.Machine.execLdB la d b o s
  | .ldH la d b o => Sys2Proof.Machine.execLdH la d b o s
  | .ldW la d b o => Sys2Proof.Machine.execLdW la d b o s
  | .ldD la d b o => Sys2Proof.Machine.execLdD la d b o s
  | .ldBs la d b o => Sys2Proof.Machine.execLdBs la d b o s
  | .ldHs la d b o => Sys2Proof.Machine.execLdHs la d b o s
  | .ldWs la d b o => Sys2Proof.Machine.execLdWs la d b o s
  | .vld la d b o => Sys2Proof.Machine.execVld la d b o s
  | .vldTag la d b o => Sys2Proof.Machine.execVldTag la d b o s
  | .stB d b o => Sys2Proof.Machine.execStB d b o s
  | .stH d b o => Sys2Proof.Machine.execStH d b o s
  | .stW d b o => Sys2Proof.Machine.execStW d b o s
  | .stD d b o => Sys2Proof.Machine.execStD d b o s
  | .vst d b o => Sys2Proof.Machine.execVst d b o s
  | .vstTag d b o => Sys2Proof.Machine.execVstTag d b o s
  | .adr d b o => Sys2Proof.Machine.execAdr d b o s
  | .cpf a b => Sys2Proof.Machine.execCpf a b s
  | .cinv a b => Sys2Proof.Machine.execCinv a b s
  | .lbank d a b => Sys2Proof.Machine.execLbank d a b s
  | .lrng a b => Sys2Proof.Machine.execLrng a b s
  | .lstat d a => Sys2Proof.Machine.execLstat d a s
  | .sbind a => Sys2Proof.Machine.execSbind a s
  | .ltag d a => Sys2Proof.Machine.execLtag d a s
  | .aswap la d a b t => Sys2Proof.Machine.execAswap la d a b t s
  | .acas la d a b t => Sys2Proof.Machine.execAcas la d a b t s
  | .aadd la d a b t => Sys2Proof.Machine.execAadd la d a b t s
  | .aand la d a b t => Sys2Proof.Machine.execAand la d a b t s
  | .aor la d a b t => Sys2Proof.Machine.execAor la d a b t s
  | .axor la d a b t => Sys2Proof.Machine.execAxor la d a b t s
  | .amax la d a b t => Sys2Proof.Machine.execAmax la d a b t s
  | .amin la d a b t => Sys2Proof.Machine.execAmin la d a b t s
  | .amaxu la d a b t => Sys2Proof.Machine.execAmaxu la d a b t s
  | .aminu la d a b t => Sys2Proof.Machine.execAminu la d a b t s
  | .aaddN a b t => Sys2Proof.Machine.execAaddN a b t s
  | .aandN a b t => Sys2Proof.Machine.execAandN a b t s
  | .aorN a b t => Sys2Proof.Machine.execAorN a b t s
  | .axorN a b t => Sys2Proof.Machine.execAxorN a b t s
  | .amaxN a b t => Sys2Proof.Machine.execAmaxN a b t s
  | .aminN a b t => Sys2Proof.Machine.execAminN a b t s
  | .amaxuN a b t => Sys2Proof.Machine.execAmaxuN a b t s
  | .aminuN a b t => Sys2Proof.Machine.execAminuN a b t s
  | .fence => Sys2Proof.Machine.execFence s
  | .fenceE => Sys2Proof.Machine.execFenceE s
  | .fenceI => Sys2Proof.Machine.execFenceI s
  | .fenceEi => Sys2Proof.Machine.execFenceEi s
  | .bar a b => Sys2Proof.Machine.execBar a b s
  | .scLd la d a m z => Sys2Proof.Machine.execScLd la d a m z s
  | .scSt a b m z => Sys2Proof.Machine.execScSt a b m z s
  | .scSwap la d a b m z => Sys2Proof.Machine.execScSwap la d a b m z s
  | .scCas la d a b m z => Sys2Proof.Machine.execScCas la d a b m z s
  | .scAdd la d a b m z => Sys2Proof.Machine.execScAdd la d a b m z s
  | .br p disp => Sys2Proof.Machine.execBr p disp s
  | .brf p disp => Sys2Proof.Machine.execBrf p disp s
  | .call p disp => Sys2Proof.Machine.execCall p disp s
  | .jr a => Sys2Proof.Machine.execJr a s
  | .callr a => Sys2Proof.Machine.execCallr a s
  | .ret => Sys2Proof.Machine.execRet s
  | .wflush => Sys2Proof.Machine.execWflush s
  | .wdepth d => Sys2Proof.Machine.execWdepth d s
  | .atTime a => Sys2Proof.Machine.execAtTime a s
  | .atTimeC a => Sys2Proof.Machine.execAtTimeC a s
  | .gang a => Sys2Proof.Machine.execGang a s
  | .split => Sys2Proof.Machine.execSplit s
  | .tbegin a b => Sys2Proof.Machine.execTbegin a b s
  | .tcommit => Sys2Proof.Machine.execTcommit s
  | .tend => Sys2Proof.Machine.execTend s
  | .tspawn d a b => Sys2Proof.Machine.execTspawn d a b s
  | .tstamp d => Sys2Proof.Machine.execTstamp d s
  | .tabort => Sys2Proof.Machine.execTabort s
  | .tabortO => Sys2Proof.Machine.execTabortO s
  | .exit a => Sys2Proof.Machine.execExit a s
  | .div la d a b => Sys2Proof.Machine.execDiv la d a b s
  | .divu la d a b => Sys2Proof.Machine.execDivu la d a b s
  | .rem la d a b => Sys2Proof.Machine.execRem la d a b s
  | .remu la d a b => Sys2Proof.Machine.execRemu la d a b s
  | .divw la d a b => Sys2Proof.Machine.execDivw la d a b s
  | .divuw la d a b => Sys2Proof.Machine.execDivuw la d a b s
  | .remw la d a b => Sys2Proof.Machine.execRemw la d a b s
  | .remuw la d a b => Sys2Proof.Machine.execRemuw la d a b s
  | .mul2 la d a b => Sys2Proof.Machine.execMul2 la d a b s
  | .mul2u la d a b => Sys2Proof.Machine.execMul2u la d a b s
  | .mfsr d r => Sys2Proof.Machine.execMfsr d r s
  | .mtsr a r => Sys2Proof.Machine.execMtsr a r s
  | .lhzM d a => Sys2Proof.Machine.execLhzM d a s
  | .lhzD d a => Sys2Proof.Machine.execLhzD d a s
  | .lwait a => Sys2Proof.Machine.execLwait a s
  | .ptw d a b => Sys2Proof.Machine.execPtw d a b s
  | .frep d a b => Sys2Proof.Machine.execFrep d a b s
  | .trap n => Sys2Proof.Machine.execTrap n s
  | .brk n => Sys2Proof.Machine.execBrk n s
  | .rte => Sys2Proof.Machine.execRte s
  | .tkill n => Sys2Proof.Machine.execTkill n s
  | .crd d a => Sys2Proof.Machine.execCrd d a s
  | .cwait d a b => Sys2Proof.Machine.execCwait d a b s
  | .csig a b => Sys2Proof.Machine.execCsig a b s
  | .lcancel a => Sys2Proof.Machine.execLcancel a s
  | .cset a b => Sys2Proof.Machine.execCset a b s
  | .qpop la d q => Sys2Proof.Machine.execQpop la d q s
  | .qpush d q imm => Sys2Proof.Machine.execQpush d q imm s
  | .vqpop la d q => Sys2Proof.Machine.execVqpop la d q s
  | .vqpush d q => Sys2Proof.Machine.execVqpush d q s
  | .cpy d tag => Sys2Proof.Machine.execCpy d tag s
  | .cpyTry la d tag => Sys2Proof.Machine.execCpyTry la d tag s
  | .mcmd d c => Sys2Proof.Machine.execMcmd d c s
  | .rcat la d tag form => Sys2Proof.Machine.execRcat la d tag form s
  | .rsplit la d tag form => Sys2Proof.Machine.execRsplit la d tag form s
  | .rsplice la d tag form => Sys2Proof.Machine.execRsplice la d tag form s
  | .rindex la d tag form => Sys2Proof.Machine.execRindex la d tag form s
  | .rsum la d tag form => Sys2Proof.Machine.execRsum la d tag form s
  | .rwalk la d tag form => Sys2Proof.Machine.execRwalk la d tag form s
  | .rhold la d tag form => Sys2Proof.Machine.execRhold la d tag form s
  | .rdrop la d tag form => Sys2Proof.Machine.execRdrop la d tag form s
  | .rpiece la d tag form => Sys2Proof.Machine.execRpiece la d tag form s
  | .rresum la d tag form => Sys2Proof.Machine.execRresum la d tag form s
  | .trim la d tag form => Sys2Proof.Machine.execTrim la d tag form s
  | .rtier la d tag form => Sys2Proof.Machine.execRtier la d tag form s
  | .hblk la d v => Sys2Proof.Machine.execHblk la d v s
  | .pfxLook la d => Sys2Proof.Machine.execPfxLook la d s
  | .pfxAdd la d => Sys2Proof.Machine.execPfxAdd la d s
  | .pfxPin la d => Sys2Proof.Machine.execPfxPin la d s
  | .pfxUnpin la d => Sys2Proof.Machine.execPfxUnpin la d s
  | .tget d a y => Sys2Proof.Machine.execTget d a y s
  | .tput d a y => Sys2Proof.Machine.execTput d a y s
  | .qwait la d q => Sys2Proof.Machine.execQwait la d q s
  | .wcwait la d c => Sys2Proof.Machine.execWcwait la d c s
  | .add d a b p => Sys2Proof.Machine.execAdd d a b p s
  | .sub d a b p => Sys2Proof.Machine.execSub d a b p s
  | .addw d a b p => Sys2Proof.Machine.execAddw d a b p s
  | .subw d a b p => Sys2Proof.Machine.execSubw d a b p s
  | .adds d a b p => Sys2Proof.Machine.execAdds d a b p s
  | .subs d a b p => Sys2Proof.Machine.execSubs d a b p s
  | .addus d a b p => Sys2Proof.Machine.execAddus d a b p s
  | .subus d a b p => Sys2Proof.Machine.execSubus d a b p s
  | .and d a b p => Sys2Proof.Machine.execAnd d a b p s
  | .or d a b p => Sys2Proof.Machine.execOr d a b p s
  | .xor d a b p => Sys2Proof.Machine.execXor d a b p s
  | .andn d a b p => Sys2Proof.Machine.execAndn d a b p s
  | .orn d a b p => Sys2Proof.Machine.execOrn d a b p s
  | .xnor d a b p => Sys2Proof.Machine.execXnor d a b p s
  | .min d a b p => Sys2Proof.Machine.execMin d a b p s
  | .max d a b p => Sys2Proof.Machine.execMax d a b p s
  | .minu d a b p => Sys2Proof.Machine.execMinu d a b p s
  | .maxu d a b p => Sys2Proof.Machine.execMaxu d a b p s
  | .abs d a p => Sys2Proof.Machine.execAbs d a p s
  | .sll d a b p => Sys2Proof.Machine.execSll d a b p s
  | .srl d a b p => Sys2Proof.Machine.execSrl d a b p s
  | .sra d a b p => Sys2Proof.Machine.execSra d a b p s
  | .rol d a b p => Sys2Proof.Machine.execRol d a b p s
  | .ror d a b p => Sys2Proof.Machine.execRor d a b p s
  | .sllw d a b p => Sys2Proof.Machine.execSllw d a b p s
  | .srlw d a b p => Sys2Proof.Machine.execSrlw d a b p s
  | .sraw d a b p => Sys2Proof.Machine.execSraw d a b p s
  | .sllImm d a n => Sys2Proof.Machine.execSllImm d a n s
  | .srlImm d a n => Sys2Proof.Machine.execSrlImm d a n s
  | .sraImm d a n => Sys2Proof.Machine.execSraImm d a n s
  | .rolImm d a n => Sys2Proof.Machine.execRolImm d a n s
  | .rorImm d a n => Sys2Proof.Machine.execRorImm d a n s
  | .sllwImm d a n => Sys2Proof.Machine.execSllwImm d a n s
  | .srlwImm d a n => Sys2Proof.Machine.execSrlwImm d a n s
  | .srawImm d a n => Sys2Proof.Machine.execSrawImm d a n s
  | .mul d a b p => Sys2Proof.Machine.execMul d a b p s
  | .mulh d a b p => Sys2Proof.Machine.execMulh d a b p s
  | .mulhu d a b p => Sys2Proof.Machine.execMulhu d a b p s
  | .mulhsu d a b p => Sys2Proof.Machine.execMulhsu d a b p s
  | .mulw d a b p => Sys2Proof.Machine.execMulw d a b p s
  | .clz d a p => Sys2Proof.Machine.execClz d a p s
  | .ctz d a p => Sys2Proof.Machine.execCtz d a p s
  | .popc d a p => Sys2Proof.Machine.execPopc d a p s
  | .brev d a p => Sys2Proof.Machine.execBrev d a p s
  | .bswap d a p => Sys2Proof.Machine.execBswap d a p s
  | .sextB d a p => Sys2Proof.Machine.execSextB d a p s
  | .sextH d a p => Sys2Proof.Machine.execSextH d a p s
  | .sextW d a p => Sys2Proof.Machine.execSextW d a p s
  | .zextB d a p => Sys2Proof.Machine.execZextB d a p s
  | .zextH d a p => Sys2Proof.Machine.execZextH d a p s
  | .zextW d a p => Sys2Proof.Machine.execZextW d a p s
  | .bclr d a b p => Sys2Proof.Machine.execBclr d a b p s
  | .bset d a b p => Sys2Proof.Machine.execBset d a b p s
  | .binv d a b p => Sys2Proof.Machine.execBinv d a b p s
  | .bext d a b p => Sys2Proof.Machine.execBext d a b p s
  | .cmp d a b p c => Sys2Proof.Machine.execCmp d a b p c s
  | .cmpImm d a c imm => Sys2Proof.Machine.execCmpImm d a c imm s
  | .sel d a b p q => Sys2Proof.Machine.execSel d a b p q s
  | .mov d a p => Sys2Proof.Machine.execMov d a p s
  | .pand d a b p => Sys2Proof.Machine.execPand d a b p s
  | .por d a b p => Sys2Proof.Machine.execPor d a b p s
  | .pxor d a b p => Sys2Proof.Machine.execPxor d a b p s
  | .pandn d a b p => Sys2Proof.Machine.execPandn d a b p s
  | .pnot d a p => Sys2Proof.Machine.execPnot d a p s
  | .pmov d a p => Sys2Proof.Machine.execPmov d a p s
  | .ptest d a p => Sys2Proof.Machine.execPtest d a p s
  | .addImm d a imm => Sys2Proof.Machine.execAddImm d a imm s
  | .andImm d a imm => Sys2Proof.Machine.execAndImm d a imm s
  | .orImm d a imm => Sys2Proof.Machine.execOrImm d a imm s
  | .xorImm d a imm => Sys2Proof.Machine.execXorImm d a imm s
  | .li d imm => Sys2Proof.Machine.execLi d imm s
  | .lih d a imm => Sys2Proof.Machine.execLih d a imm s
  | .vadd d a b k es => Sys2Proof.Machine.execVadd d a b k es s
  | .vsub d a b k es => Sys2Proof.Machine.execVsub d a b k es s
  | .vadds d a b k es => Sys2Proof.Machine.execVadds d a b k es s
  | .vsubs d a b k es => Sys2Proof.Machine.execVsubs d a b k es s
  | .vaddus d a b k es => Sys2Proof.Machine.execVaddus d a b k es s
  | .vsubus d a b k es => Sys2Proof.Machine.execVsubus d a b k es s
  | .vmul d a b k es => Sys2Proof.Machine.execVmul d a b k es s
  | .vmulh d a b k es => Sys2Proof.Machine.execVmulh d a b k es s
  | .vmulhu d a b k es => Sys2Proof.Machine.execVmulhu d a b k es s
  | .vand d a b k es => Sys2Proof.Machine.execVand d a b k es s
  | .vor d a b k es => Sys2Proof.Machine.execVor d a b k es s
  | .vxor d a b k es => Sys2Proof.Machine.execVxor d a b k es s
  | .vandn d a b k es => Sys2Proof.Machine.execVandn d a b k es s
  | .vmin d a b k es => Sys2Proof.Machine.execVmin d a b k es s
  | .vmax d a b k es => Sys2Proof.Machine.execVmax d a b k es s
  | .vminu d a b k es => Sys2Proof.Machine.execVminu d a b k es s
  | .vmaxu d a b k es => Sys2Proof.Machine.execVmaxu d a b k es s
  | .vabs d a k es => Sys2Proof.Machine.execVabs d a k es s
  | .vsll d a b k es => Sys2Proof.Machine.execVsll d a b k es s
  | .vsrl d a b k es => Sys2Proof.Machine.execVsrl d a b k es s
  | .vsra d a b k es => Sys2Proof.Machine.execVsra d a b k es s
  | .vavgu d a b k es => Sys2Proof.Machine.execVavgu d a b k es s
  | .vaddF d a b k t => Sys2Proof.Machine.execVaddF d a b k t s
  | .vsubF d a b k t => Sys2Proof.Machine.execVsubF d a b k t s
  | .vmulF d a b k t => Sys2Proof.Machine.execVmulF d a b k t s
  | .vminF d a b k t => Sys2Proof.Machine.execVminF d a b k t s
  | .vmaxF d a b k t => Sys2Proof.Machine.execVmaxF d a b k t s
  | .vabsF d a k t => Sys2Proof.Machine.execVabsF d a k t s
  | .vnegF d a k t => Sys2Proof.Machine.execVnegF d a k t s
  | .vcpsgnF d a b k t => Sys2Proof.Machine.execVcpsgnF d a b k t s
  | .vfma d a b k t => Sys2Proof.Machine.execVfma d a b k t s
  | .vfms d a b k t => Sys2Proof.Machine.execVfms d a b k t s
  | .vfnma d a b k t => Sys2Proof.Machine.execVfnma d a b k t s
  | .vfnms d a b k t => Sys2Proof.Machine.execVfnms d a b k t s
  | .vfmawLo d a b k t => Sys2Proof.Machine.execVfmawLo d a b k t s
  | .vfmawHi d a b k t => Sys2Proof.Machine.execVfmawHi d a b k t s
  | .vcmp d a b k c => Sys2Proof.Machine.execVcmp d a b k c s
  | .vcvt d a k x y => Sys2Proof.Machine.execVcvt d a k x y s
  | .vrcpA d a k => Sys2Proof.Machine.execVrcpA d a k s
  | .vrsqA d a k => Sys2Proof.Machine.execVrsqA d a k s
  | .vrcpS d a b k => Sys2Proof.Machine.execVrcpS d a b k s
  | .vrsqS d a b k => Sys2Proof.Machine.execVrsqS d a b k s
  | .vrcp d a k => Sys2Proof.Machine.execVrcp d a k s
  | .vrsq d a k => Sys2Proof.Machine.execVrsq d a k s
  | .vsqrt d a k => Sys2Proof.Machine.execVsqrt d a k s
  | .vdiv d a b k => Sys2Proof.Machine.execVdiv d a b k s
  | .vexp2 d a k => Sys2Proof.Machine.execVexp2 d a k s
  | .vlog2 d a k => Sys2Proof.Machine.execVlog2 d a k s
  | .vraddF32 d a k => Sys2Proof.Machine.execVraddF32 d a k s
  | .vrmaxF32 d a k => Sys2Proof.Machine.execVrmaxF32 d a k s
  | .vrminF32 d a k => Sys2Proof.Machine.execVrminF32 d a k s
  | .vradd d a k es => Sys2Proof.Machine.execVradd d a k es s
  | .vrmax d a k es => Sys2Proof.Machine.execVrmax d a k es s
  | .vrmin d a k es => Sys2Proof.Machine.execVrmin d a k es s
  | .vrmaxu d a k es => Sys2Proof.Machine.execVrmaxu d a k es s
  | .vrminu d a k es => Sys2Proof.Machine.execVrminu d a k es s
  | .vrand d a k es => Sys2Proof.Machine.execVrand d a k es s
  | .vror d a k es => Sys2Proof.Machine.execVror d a k es s
  | .vrxor d a k es => Sys2Proof.Machine.execVrxor d a k es s
  | .vraddw d a k es => Sys2Proof.Machine.execVraddw d a k es s
  | .vperm d a b k es => Sys2Proof.Machine.execVperm d a b k es s
  | .vperm2 d a b k es => Sys2Proof.Machine.execVperm2 d a b k es s
  | .vzipl d a b k es => Sys2Proof.Machine.execVzipl d a b k es s
  | .vziph d a b k es => Sys2Proof.Machine.execVziph d a b k es s
  | .vuzpe d a b k es => Sys2Proof.Machine.execVuzpe d a b k es s
  | .vuzpo d a b k es => Sys2Proof.Machine.execVuzpo d a b k es s
  | .vrev d a k es => Sys2Proof.Machine.execVrev d a k es s
  | .vsld d a b k es c => Sys2Proof.Machine.execVsld d a b k es c s
  | .kand d a b => Sys2Proof.Machine.execKand d a b s
  | .kor d a b => Sys2Proof.Machine.execKor d a b s
  | .kxor d a b => Sys2Proof.Machine.execKxor d a b s
  | .kandn d a b => Sys2Proof.Machine.execKandn d a b s
  | .knot d a => Sys2Proof.Machine.execKnot d a s
  | .kmov d a => Sys2Proof.Machine.execKmov d a s
  | .vmerge d a b k es => Sys2Proof.Machine.execVmerge d a b k es s
  | .vtunpack d a p f => Sys2Proof.Machine.execVtunpack d a p f s
  | .vtpack d a p t => Sys2Proof.Machine.execVtpack d a p t s
  | .vpadd d a b k => Sys2Proof.Machine.execVpadd d a b k s
  | .vpsub d a b k => Sys2Proof.Machine.execVpsub d a b k s
  | .vpmul d a b k => Sys2Proof.Machine.execVpmul d a b k s
  | .vpmin d a b k => Sys2Proof.Machine.execVpmin d a b k s
  | .vpmax d a b k => Sys2Proof.Machine.execVpmax d a b k s
  | .vpfma d a b k => Sys2Proof.Machine.execVpfma d a b k s
  | .vbcast d a k es => Sys2Proof.Machine.execVbcast d a k es s
  | .vext d a b es => Sys2Proof.Machine.execVext d a b es s
  | .vexts d a b es => Sys2Proof.Machine.execVexts d a b es s
  | .vins d a b es => Sys2Proof.Machine.execVins d a b es s
  | .ktos d a h => Sys2Proof.Machine.execKtos d a h s
  | .stok d a h => Sys2Proof.Machine.execStok d a h s
  | .kpop d a => Sys2Proof.Machine.execKpop d a s
  | .vmov d a k es => Sys2Proof.Machine.execVmov d a k es s
  | .vsmUpd d a b k => Sys2Proof.Machine.execVsmUpd d a b k s
  | .vsmRescale d a b k => Sys2Proof.Machine.execVsmRescale d a b k s
  | .vloop a n => Sys2Proof.Machine.execVloop a n s
  | .vlidx d => Sys2Proof.Machine.execVlidx d s
  | .lookaheadComplete => Sys2Proof.Machine.execLookaheadComplete s
  | .lateTrap => Sys2Proof.Machine.execLateTrap s
  | .matrixData => Sys2Proof.Machine.execMatrixData s
  | .eagerSpill => Sys2Proof.Machine.execEagerSpill s
  | .commitVisible => Sys2Proof.Machine.execCommitVisible s
  | .taskAbort => Sys2Proof.Machine.execTaskAbort s
  | .nonspecRun => Sys2Proof.Machine.execNonspecRun s
  | .lowtsExchange => Sys2Proof.Machine.execLowtsExchange s
  | .lwaitExpire => Sys2Proof.Machine.execLwaitExpire s
  | .atExpire => Sys2Proof.Machine.execAtExpire s
  | .sliceTranslate r => Sys2Proof.Machine.execSliceTranslate r s
  | .pageWalkComplete => Sys2Proof.Machine.execPageWalkComplete s
  | .homeAccept => Sys2Proof.Machine.execHomeAccept s
  | .skewCheck die slice within => Sys2Proof.Machine.execSkewCheck die slice within s
  | .copyStart die cluster => Sys2Proof.Machine.execCopyStart die cluster s
  | .copyTimedStart die cluster => Sys2Proof.Machine.execCopyTimedStart die cluster s
  | .copyChunk die cluster => Sys2Proof.Machine.execCopyChunk die cluster s
  | .copyComplete die cluster => Sys2Proof.Machine.execCopyComplete die cluster s
  | .ropeCommandTake die => Sys2Proof.Machine.execRopeCommandTake die s
  | .ropeCommandDone die => Sys2Proof.Machine.execRopeCommandDone die s
  | .rwalkDescriptorPush die => Sys2Proof.Machine.execRwalkDescriptorPush die s
  | .blockDrainExpire die index => Sys2Proof.Machine.execBlockDrainExpire die index s
  | .arrayGrant die cluster product => Sys2Proof.Machine.execArrayGrant die cluster product s
  | .flailRow die cluster => Sys2Proof.Machine.execFlailRow die cluster s
  | .productRow die cluster => Sys2Proof.Machine.execProductRow die cluster s
  | .q3Push die cluster product => Sys2Proof.Machine.execQ3Push die cluster product s
  | .matrixComplete die cluster product => Sys2Proof.Machine.execMatrixComplete die cluster product s
  | .tileMovePerform die cluster core y => Sys2Proof.Machine.execTileMovePerform die cluster core y s
  | .lbankZeroDone die cluster bank => Sys2Proof.Machine.execLbankZeroDone die cluster bank s
  | .submit hub q arg => Sys2Proof.Machine.execSubmit hub q arg s
  | .unfreeze hub q => Sys2Proof.Machine.execUnfreeze hub q s
  | .cancel hub q => Sys2Proof.Machine.execCancel hub q s
  | .endjob hub arg => Sys2Proof.Machine.execEndjob hub arg s
  | .toDevice hub arg => Sys2Proof.Machine.execToDevice hub arg s
  | .toShared hub arg => Sys2Proof.Machine.execToShared hub arg s
  | .toHost hub arg => Sys2Proof.Machine.execToHost hub arg s
  | .ringRecordRead q => Sys2Proof.Machine.execRingRecordRead q s
  | .q11Record l => Sys2Proof.Machine.execQ11Record l s
  | .recordServe hub => Sys2Proof.Machine.execRecordServe hub s
  | .priorityAging q => Sys2Proof.Machine.execPriorityAging q s
  | .unitPlace => Sys2Proof.Machine.execUnitPlace s
  | .slotStop l => Sys2Proof.Machine.execSlotStop l s
  | .preemptDrain die cluster core => Sys2Proof.Machine.execPreemptDrain die cluster core s
  | .resume l => Sys2Proof.Machine.execResume l s
  | .launchComplete launch => Sys2Proof.Machine.execLaunchComplete launch s
  | .graphReplay hub => Sys2Proof.Machine.execGraphReplay hub s
  | .phaseRecord hub => Sys2Proof.Machine.execPhaseRecord hub s
  | .nodeLaunch replay node => Sys2Proof.Machine.execNodeLaunch replay node s
  | .nodeCopy replay node => Sys2Proof.Machine.execNodeCopy replay node s
  | .nodeWait replay node => Sys2Proof.Machine.execNodeWait replay node s
  | .nodeSignal replay node => Sys2Proof.Machine.execNodeSignal replay node s
  | .nodeCond replay node => Sys2Proof.Machine.execNodeCond replay node s
  | .nodeLoop replay node => Sys2Proof.Machine.execNodeLoop replay node s
  | .nodePatch replay node => Sys2Proof.Machine.execNodePatch replay node s
  | .watchdog launch => Sys2Proof.Machine.execWatchdog launch s
  | .unitCancelRetire => Sys2Proof.Machine.execUnitCancelRetire s
  | .registerWrite hub off value => Sys2Proof.Machine.execRegisterWrite hub off value s
  | .hostRead hub off size => Sys2Proof.Machine.execHostRead hub off size s
  | .hostWrite hub off data => Sys2Proof.Machine.execHostWrite hub off data s
  | .hostFetchAdd hub off z value => Sys2Proof.Machine.execHostFetchAdd hub off z value s
  | .hostSwap hub off z value => Sys2Proof.Machine.execHostSwap hub off z value s
  | .hostCas hub off size compare value => Sys2Proof.Machine.execHostCas hub off size compare value s
  | .hubHostAtomic hub status => Sys2Proof.Machine.execHubHostAtomic hub status s
  | .getMeasurements hub => Sys2Proof.Machine.execGetMeasurements hub s
  | .challenge hub nonce => Sys2Proof.Machine.execChallenge hub nonce s
  | .perstRelease => Sys2Proof.Machine.execPerstRelease s
  | .kDieRelease => Sys2Proof.Machine.execKDieRelease s
  | .rollbackFuseBlow hub kind => Sys2Proof.Machine.execRollbackFuseBlow hub kind s
  | .discoverSend die => Sys2Proof.Machine.execDiscoverSend die s
  | .discoverTimeout die port => Sys2Proof.Machine.execDiscoverTimeout die port s
  | .flitReceive port f => Sys2Proof.Machine.execFlitReceive port f s
  | .fabricRead k => Sys2Proof.Machine.execFabricRead k s
  | .fabricData k => Sys2Proof.Machine.execFabricData k s
  | .fabricWrite k => Sys2Proof.Machine.execFabricWrite k s
  | .fabricLock k => Sys2Proof.Machine.execFabricLock k s
  | .fabricAck k => Sys2Proof.Machine.execFabricAck k s
  | .fabricPerform k => Sys2Proof.Machine.execFabricPerform k s
  | .fabricUnlock k => Sys2Proof.Machine.execFabricUnlock k s
  | .fabricAtomic k => Sys2Proof.Machine.execFabricAtomic k s
  | .fabricSc k => Sys2Proof.Machine.execFabricSc k s
  | .fabricRefuse k => Sys2Proof.Machine.execFabricRefuse k s
  | .fabricSend k => Sys2Proof.Machine.execFabricSend k s
  | .fabricBeacon port k => Sys2Proof.Machine.execFabricBeacon port k s
  | .sendTimedEgress die => Sys2Proof.Machine.execSendTimedEgress die s
  | .beaconSend => Sys2Proof.Machine.execBeaconSend s
  | .beaconLost => Sys2Proof.Machine.execBeaconLost s
  | .dieFlitReceive die port f => Sys2Proof.Machine.execDieFlitReceive die port f s
  | .dieReqRead m => Sys2Proof.Machine.execDieReqRead m s
  | .dieReqLock m => Sys2Proof.Machine.execDieReqLock m s
  | .dieReqAtomic m => Sys2Proof.Machine.execDieReqAtomic m s
  | .dieReqSc m => Sys2Proof.Machine.execDieReqSc m s
  | .dieRspData m => Sys2Proof.Machine.execDieRspData m s
  | .dieRspAck m => Sys2Proof.Machine.execDieRspAck m s
  | .dieRspRefuse m => Sys2Proof.Machine.execDieRspRefuse m s
  | .dieRspInvack m => Sys2Proof.Machine.execDieRspInvack m s
  | .dieWrPerform m => Sys2Proof.Machine.execDieWrPerform m s
  | .dieWrWrite m => Sys2Proof.Machine.execDieWrWrite m s
  | .dieWrUnlock m => Sys2Proof.Machine.execDieWrUnlock m s
  | .dieWrInv m => Sys2Proof.Machine.execDieWrInv m s
  | .dieArbSig m => Sys2Proof.Machine.execDieArbSig m s
  | .dieArbLowts m => Sys2Proof.Machine.execDieArbLowts m s
  | .dieArbMark m => Sys2Proof.Machine.execDieArbMark m s
  | .dieArbScann m => Sys2Proof.Machine.execDieArbScann m s
  | .dieEngCmd m => Sys2Proof.Machine.execDieEngCmd m s
  | .dieEngDone m => Sys2Proof.Machine.execDieEngDone m s
  | .dieMgmtDiscover die port x => Sys2Proof.Machine.execDieMgmtDiscover die port x s
  | .dieMgmtBeacon m => Sys2Proof.Machine.execDieMgmtBeacon m s
  | .scPerform => Sys2Proof.Machine.execScPerform s
  | .regionTableWrite entry w0 w1 => Sys2Proof.Machine.execRegionTableWrite entry w0 w1 s
  | .blockWorldSet b job => Sys2Proof.Machine.execBlockWorldSet b job s
  | .powerLimit => Sys2Proof.Machine.execPowerLimit s
  | .thermalStop => Sys2Proof.Machine.execThermalStop s
  | .singleBitError die block => Sys2Proof.Machine.execSingleBitError die block s
  | .doubleBitError die block reader => Sys2Proof.Machine.execDoubleBitError die block reader s
  | .debuggerStop l => Sys2Proof.Machine.execDebuggerStop l s
  | .powerBelowLimit => Sys2Proof.Machine.execPowerBelowLimit s
  | .illegalEncoding aslot => Sys2Proof.Machine.execIllegalEncoding aslot s
  | .kickRefused hub word => Sys2Proof.Machine.execKickRefused hub word s

end Sys2Proof.Machine
end

