-- ==== Sys2Proof/Machine/Turn.lean ====
section
/-! DEFINITION. The turn of a unit: what it does before its next bundle, the fetch (R34, R35, R278), the issue of a slot (R36, R37, R41),
the limits of a wain core (R156) and of a sequencer body (R277), and gangs in lock-step (R200, R399). Where a decoded instruction is
built the definitions are noncomputable, as in the decoder. -/

namespace Sys2Proof.Machine

/-! ### Outcomes -/

/-- In a turn that goes unused the oldest of four windows is spilled (R189). -/
def State.unused (t : State) : State := if t.cur.placed && t.cur.turn == .waited then t.eagerSpill else t

/-! ### Fetch (R33 to R35, R60, R71) -/

/-- The bundle of the acting unit: its words, a wait, or a trap. -/
inductive Bundle where
  | ok (s : State) (w0 w1 : Word32)
  | wait (s : State)
  | trap (s : State) (t : TrapInfo)
  deriving DecidableEq, Repr

/-- The bundle read at its bank where it stands in the aperture, which no slice sees (R161), and else through the slice: access fetch, at
the unit's privilege and in its world. A fault is posted with ACC = 3 and the unit waits on its mailbox (R78, R215). -/
def State.fetch (s : State) : Bundle :=
  let u := s.cur
  let va := u.pc.toNat
  let words (t : State) (l : List Byte) : Bundle :=
    .ok t (BitVec.ofNat 32 (ofBytes (l.take 4))) (BitVec.ofNat 32 (ofBytes ((l.drop 4).take 4)))
  let fault (t : State) (c : Cause) (e : Word) : Bundle :=
    match t.faultCur .fetch va c e false 0 with
    | .ok t _ => .wait t
    | .wait t => .wait t
    | .trap t i => .trap t i
  match rangeCheck u.pc with
  | some t => .trap s t
  | none =>
    if s.loftRefused u.pc 8 then .trap s (addressTrap .loftAccess u.pc)
    else if u.inAperture u.pc then
      let o := u.loftAddr u.pc
      if s.apertureWaits u.pc || s.lockedAgainst (s.paOf o) 8 then .wait s else words s (s.bytes o 8)
    else
    match s.translate (sliceDie u.loc.die) u.job va .fetch (tsrSup u.tsr) u.secure with
    | (t, .fault c e) => fault t c e
    | (t, .wait) => .wait t
    | (t, .ok pa e x) =>
      if t.isLocal pa then
        match t.homeRead u.secure pa 8 with
        | .fault c => fault t c e
        | .wait => .wait t
        | .bytes l => words t l
      else
        match t.ask .read u.loc va pa 8 x (readData 8) u.secure with
        | (t, .wait) => .wait t
        | (t, .answer .data _ l) => words t l
        | (t, .answer _ reason _) => fault t (causeOfReason reason) e

/-- Place of the unit's bundle in the body of its running loop. -/
def Unit.bodyPlace (u : Unit) : Option Nat :=
  let q := u.seq
  if q.active && !q.held && decide (q.start ≤ u.pc) && decide (u.pc.toNat < q.start.toNat + 8 * q.len) then
    some ((u.pc.toNat - q.start.toNat) / 8)
  else none

/-- The first iteration that issues a bundle of the body captures it (R278). -/
def Unit.capture (u : Unit) (w : Word32 × Word32) : Unit :=
  match u.bodyPlace with
  | some i =>
    if (Sparse.find? u.seq.body i).isNone then { u with seq := { u.seq with body := Sparse.put u.seq.body i w } } else u
  | none => u

/-- The words that the unit already holds: those fetched for the bundle, the leader's in a gang, or the captured ones of a later
iteration. -/
def Unit.heldWords (u : Unit) (lead : Option (Word32 × Word32)) : Option (Word32 × Word32) :=
  match u.fetched with
  | some w => some w
  | none =>
    match lead with
    | some w => some w
    | none =>
      match u.bodyPlace with
      | some i => if u.seq.idx = 0 then none else Sparse.find? u.seq.body i
      | none => none

/-- The bundle of the acting unit, which it keeps until the bundle has issued. -/
def State.bundle (s : State) (lead : Option (Word32 × Word32)) : Bundle :=
  let got (t : State) (w0 w1 : Word32) : Bundle := .ok (t.modCur fun u => { u.capture (w0, w1) with fetched := some (w0, w1) }) w0 w1
  match s.cur.heldWords lead with
  | some (w0, w1) => got s w0 w1
  | none =>
    match s.fetch with
    | .ok t w0 w1 => got t w0 w1
    | .wait t => .wait t
    | .trap t i => .trap t i

/-! ### What a word is (R156, R277) -/

def opC (w : Word32) : Nat := (w.extractLsb' 25 6).toNat
def func4 (w : Word32) : Nat := (w.extractLsb' 21 4).toNat
def queueField (w : Word32) : Nat := (w.extractLsb' 12 4).toNat
def opA (w : Word32) : Nat := (w.extractLsb' 26 6).toNat

/-- The C-slot opcodes of a wain core (R156). -/
def wainC (w : Word32) : Bool :=
  let op := opC w
  op == 0 || (decide (0x04 ≤ op) && decide (op ≤ 0x0A)) || (decide (0x10 ≤ op) && decide (op ≤ 0x13)) || op == 0x18 ||
    (op == 0x19 && func4 w == 5) || (decide (0x1C ≤ op) && decide (op ≤ 0x25)) || (decide (0x27 ≤ op) && decide (op ≤ 0x2B)) ||
    op == 0x30 || op == 0x31 || op == 0x34

/-- A queue that a wain core has not (R156); q4 is one of them. DEDUCED (log 38). -/
def wainQueueBad (w : Word32) : Bool := (opC w == 0x30 || opC w == 0x31) && !([0, 7, 8].contains (queueField w))

/-- The C-slot of a bundle as the unit's core reads it. -/
def Unit.readC (u : Unit) (w0 w1 : Word32) : Decoded :=
  if u.wain && !wainC w0 then .illegalEncoding
  else if u.wain && wainQueueBad w0 then (if decodeC w0 w1 = .illegalEncoding then .illegalEncoding else .illegalOperand false)
  else decodeC w0 w1

/-- The A-slot word of a bundle as the unit's core reads it. -/
noncomputable def Unit.readA (u : Unit) (w1 : Word32) : Decoded :=
  if u.wain && decide (0x0F < opA w1) then .illegalEncoding else decodeA w1

/-- A bundle that no body may hold (R277). -/
def bodyRefuses (w0 w1 : Word32) : Bool :=
  let op := opC w0
  let f := func4 w0
  (decide (0x20 ≤ op) && decide (op ≤ 0x27)) || op == 0x1C || op == 0x1E || op == 0x1F || op == 0x2B ||
    (op == 0x2A && decide (f ≤ 1)) || (op == 0x19 && (f == 2 || f == 3)) || (op == 0x2C && f == 3) ||
    (op == 0x36 && w0.getLsbD 4) || (op == 0x37 && w0.extractLsb' 0 4 != 0) ||
    (!lone w0 && opA w1 == 0x1D && w1.extractLsb' 0 6 == 0)

/-! ### The issue of a slot -/

/-- The C-slot word that a gang member executes: the leader's predicate decides a branch or call (R200), so the word becomes one on p0,
always taken or never. -/
def leadWord (lead : Unit) (w0 : Word32) : Word32 :=
  let c := lead.getP (w0.extractLsb' 22 3)
  let field (op : BitVec 10) : Word32 := op ++ w0.extractLsb' 0 22
  if opC w0 = 0x20 then (if c then field 0x100 else field 0x108)
  else if opC w0 = 0x21 then (if c then field 0x108 else field 0x100)
  else if opC w0 = 0x22 then (if c then field 0x110 else field 0x108)
  else w0

/-- An A-slot instruction executed: in a gang the leader's s[a] gives the trips of `vloop` (R278). -/
noncomputable def State.execA (s : State) (lead : Option Unit) (w1 : Word32) (i : Instr) : Out :=
  match lead with
  | none => exec i s
  | some l =>
    if opA w1 = 0x1D ∧ w1.extractLsb' 0 6 = 0 then
      s.vloop (l.getS (w1.extractLsb' 16 5)) (w1.extractLsb' 16 5) (w1.extractLsb' 11 4)
    else exec i s

/-- The C-slot of a bundle issues (R35 to R37): both words are decoded first. A gang member executes the instruction of its leader's
predicate, once the bundle's own word has been found legal. -/
noncomputable def State.issueC (s : State) (lead : Option Unit) (w0 w1 : Word32) : Out :=
  let run (i : Instr) : Out := onNext (exec i s) (State.aged s.ids)
  let ofLead (i : Instr) : Instr :=
    match lead with
    | none => i
    | some l =>
      match s.cur.readC (leadWord l w0) w1 with
      | .instr j => j
      | .illegalEncoding => i
      | .illegalOperand _ => i
  let badA : Bool := !lone w0 && decide (s.cur.readA w1 = .illegalEncoding)
  match s.cur.readC w0 w1 with
  | .illegalEncoding => execIllegalEncoding false s
  | .illegalOperand f =>
    if badA then execIllegalEncoding true s
    else if s.cur.bodyPlace.isSome && bodyRefuses w0 w1 then s.raise (s.bundleTrap .illegalOperand)
    else s.illegalOperandWord f
  | .instr i =>
    if badA then execIllegalEncoding true s
    else if s.cur.bodyPlace.isSome && bodyRefuses w0 w1 then s.raise (s.bundleTrap .illegalOperand)
    else run (ofLead i)

/-- The A-slot of a bundle issues; a literal is no instruction (R37). At a resumption there too both words are decoded first (R35). -/
noncomputable def State.issueA (s : State) (lead : Option Unit) (w0 w1 : Word32) : Out :=
  if s.cur.readC w0 w1 = .illegalEncoding then execIllegalEncoding false s
  else if lone w0 then s.doneA
  else
    match s.cur.readA w1 with
    | .illegalEncoding => execIllegalEncoding true s
    | .illegalOperand f => s.illegalOperandWord f
    | .instr i => s.execA lead w1 i

/-- An incomplete instruction that the next slot waits for: one with a lookahead of 0, or, at the start of a bundle, one whose window has
closed (R41). -/
def Unit.blocked (u : Unit) : Bool := u.pend.any fun p => !p.ready && (p.hold || (p.left == 0 && !u.aslot))

/-- A unit that waits for nothing issues its next slot; a return below the depth of its task commits at the end of its bundle (R218). -/
noncomputable def State.issueNext (s : State) (lead : Option (Unit × Option (Word32 × Word32))) : Out :=
  if s.cur.retDue then s.withCommit .ret false .next
  else if s.cur.blocked then s.wait
  else
    match s.bundle (lead.bind fun l => l.2) with
    | .wait t => t.wait
    | .trap t i => t.raise i
    | .ok t w0 w1 =>
      let l := lead.map fun x => x.1
      if t.cur.aslot then t.issueA l w0 w1 else t.issueC l w0 w1

/-! ### A turn -/

/-- A unit that waits for its commands to report retires once they have, and its accesses have been answered (R231). -/
def State.retirePoll (s : State) (code : BitVec 16) (trapped : Bool) : Out :=
  if s.cur.reported && s.cur.allReady then .next (s.retire (exitReason code trapped) code) else s.wait

/-- `lbank` waits for its turn in the cluster, or for its bank to be zeroed (R182). -/
def State.lbankPoll (s : State) (d : SReg) (bank : Nat) (w : Option Word) : Out :=
  match w with
  | some w => s.lbankAct d bank w
  | none => if s.curCluster.zeroing.contains bank then s.wait else s.lbankEnd d 0

/-- What the unit waits for is looked at, or its next slot issues. -/
noncomputable def State.proceed (s : State) (lead : Option (Unit × Option (Word32 × Word32))) : Out :=
  let done (o : Out) : Out := onNext o (State.aged s.ids)
  match s.cur.wait with
  | .run => s.issueNext lead
  | .lwait _ => execLwaitExpire s
  | .atTime _ => execAtExpire s
  | .lbank d bank w => done (s.lbankPoll d bank w)
  | .fenceE i => done (s.fencePoll i)
  | .bar b gen => done (s.barPoll b gen)
  | .gang w => s.gangPoll w
  | .retire code trapped => s.retirePoll code trapped
  | .nonspec => execNonspecRun s
  | .stopped => .next s

/-- A marked task may be aborted now (R324, R328). -/
def State.mayAbort (s : State) : Bool := !s.cur.visible && !s.cur.task.nonspec && s.cur.atBoundary

/-- A trap that an instruction has raised is entered once the slot has settled (R43, R297). -/
def State.raiseTurn (s : State) (t : TrapInfo) : Out :=
  if s.settled then .next ((s.modCur fun u => { u with raising := none }).enterTrap t) else s.wait

/-- The owed trap of an instruction before the unit's bundle, which comes ahead of MATRIX_DATA and of a trap that its bundle has raised
(R42, R394). -/
def Unit.owesEarlier (u : Unit) : Bool := u.owesTrap && (u.owed.take 1).all fun t => t.late || t.beyond

/-- What a unit does in its turn once what was incomplete has been tried. A MATRIX_DATA trap comes before any trap of the bundle that it
precedes, also before that of an instruction which has waited there (R299, R394). -/
noncomputable def State.unitTurn (lead : Option (Unit × Option (Word32 × Word32))) (s : State) : Out :=
  match s.cur.pend.findSome? fun p => if p.hold then p.failed.map fun t => (p, t) else none with
  | some (p, t) =>
    let x := s.undoHold p
    if x.owesMatrix then execMatrixData x else s.holdTrap p t
  | none =>
    if s.cur.marked && s.mayAbort then execTaskAbort s
    else
    if s.cur.owesEarlier then execLateTrap s
    else if s.owesMatrix then execMatrixData s
    else
    match s.cur.raising with
    | some t => s.raiseTurn t
    | none =>
    if s.cur.owesTrap then execLateTrap s
    else if !s.cur.mail.isEmpty then s.wait
    else if s.cur.commit.isSome then execCommitVisible s
    else s.proceed lead

/-- A slot without a unit, one whose unit has left or stopped, and one that the debugger holds leave their turn unused. -/
def Unit.idle (u : Unit) : Bool := !u.placed || u.away || u.wait == .stopped || (u.debug && u.atBoundary)

/-- The turn of the acting unit, outside a gang or as one of its members. -/
noncomputable def State.ownTurn (lead : Option (Unit × Option (Word32 × Word32))) (s : State) : Out :=
  if s.cur.idle then .next s
  else if s.mayCancel then execUnitCancelRetire s
  else if s.mayStop then .next s.stopSlot
  else (s.tryPends.modCur Unit.completeClosed).unitTurn lead

/-! ### Gangs (R200, R399; log 14) -/

/-- The members of the acting unit's gang, the leader first. -/
def State.gangMembers (s : State) : List Unit :=
  let u := s.cur
  let same (v : Unit) : Bool := !v.away && v.gang == u.gang && v.launch == u.launch && v.loc.die == u.loc.die &&
    v.loc.cluster == u.loc.cluster && v.loc.slot == u.loc.slot && v.loc.core / u.gang == u.loc.core / u.gang
  (upTo 8).flatMap fun c => (s.units.filter same).filter fun v => v.loc.core == c

/-- How the turn of the unit at a place ended. -/
def State.turnAt (s : State) (l : Loc) : Turn :=
  match s.unitAt l with
  | some u => u.turn
  | none => .ran

/-- The trap that a turn ended with. -/
def Turn.trap? : Turn → Option TrapInfo
  | .ran => none
  | .waited => none
  | .trapped t => some t

/-- Members run in order: the outcome, and the places of those that wait. -/
def runMembers (f : Loc → State → Out) : List Loc → State → List Loc → Out × List Loc
  | [], s, w => (.next s, w)
  | l :: r, s, w =>
    match f l s with
    | .next t => runMembers f r t (if t.turnAt l = .waited then w ++ [l] else w)
    | .fault x => (.fault x, w)
    | .refused x => (.refused x, w)

/-- The bundle waits: what the waiting members did stands, and the others do the bundle again. -/
def keepWaiting (f : Loc → State → Out) : List Loc → State → State
  | [], s => s
  | l :: r, s =>
    let stay := (s.focus l).waitTurn
    match f l s with
    | .next t => keepWaiting f r (if t.turnAt l = .waited then t else stay)
    | .fault _ => keepWaiting f r stay
    | .refused _ => keepWaiting f r stay

/-- A member at the bundle of the leader. -/
def Unit.align (lead u : Unit) : Unit :=
  let v := if u.turn.trap?.isSome then { u with turn := .ran } else u
  if !lead.aslot && !v.aslot && v.wait == .run && v.commit.isNone then { v with pc := lead.pc, npc := lead.npc } else v

/-- A trap of some members taken by every member: those that raised it record their own, the others GANG at the leader's
bundle (R399). -/
def State.gangTrap (s : State) (f : Loc → State → Out) (ls : List Loc) (lead : Unit) (hits : List (Loc × TrapInfo)) : State :=
  match hits.foldl (fun (b : Option (Loc × TrapInfo)) h => match b with
      | none => some h
      | some x => if h.2.trap.code < x.2.trap.code then some h else some x) none with
  | none => s
  | some low =>
    ls.foldl (fun (t : State) l =>
      if hits.any fun h => h.1 == l then
        match f l t with
        | .next x => x
        | .fault _ => t
        | .refused _ => t
      else
        let t := (t.focus l).modCur (Unit.align lead)
        t.enterTrap { trap := .gang, faddr := t.cur.here, sub := BitVec.ofNat 8 low.2.trap.code,
                      mem := BitVec.ofNat 3 (low.1.core - lead.loc.core), td := low.2.td }) s

/-- The turn of a gang, which the leader's slot drives: every member issues the same slot, or all wait, trap, abort or stop. -/
noncomputable def State.gangTurn (s : State) : Out :=
  match s.gangMembers with
  | [] => .next s
  | lead :: rest =>
    let us := lead :: rest
    let ls := us.map fun u => u.loc
    let home (t : State) : State := t.focus lead.loc
    let each (f : State → State) : State := home (ls.foldl (fun (t : State) l => f (t.focus l)) s)
    if s.cur.loc ≠ lead.loc then .next s
    else if us.any (fun u => u.marked) && us.all (fun u => (s.focus u.loc).mayAbort) then
      .next (each fun t =>
        match execTaskAbort (t.modCur fun u => { u with marked := true }) with
        | .next x => x
        | .fault _ => t
        | .refused _ => t)
    else if us.any (fun u => u.taken) && us.all (fun u => (s.focus u.loc).mayStop) then .next (each State.stopSlot)
    else
      let ready := lead.wait == .run && lead.commit.isNone && lead.mail.isEmpty && !lead.blocked && !lead.idle && !lead.retDue && lead.raising.isNone
      let got := if ready then (home s).bundle none else .wait s
      let base : State := match got with
        | .ok t _ _ => t
        | .wait t => t
        | .trap _ _ => s
      let words : Option (Word32 × Word32) := match got with
        | .ok _ w0 w1 => some (w0, w1)
        | .wait _ => none
        | .trap _ _ => none
      let late := match got with
        | .wait _ => ready
        | .ok _ _ _ => false
        | .trap _ _ => false
      if late then .next (home base).waitTurn
      else
        let f (l : Loc) (t : State) : Out := ((t.focus l).modCur (Unit.align lead)).ownTurn (some (lead, words))
        match runMembers f ls base [] with
        | (.next t1, w1) =>
          match runMembers f w1 t1 [] with
          | (.next t2, []) =>
            let hits := ls.filterMap fun l => (t2.turnAt l).trap?.map fun t => (l, t)
            if hits.isEmpty then .next (home t2)
            else
              let settledAll := ls.all fun l => (base.focus l).settled
              if settledAll then .next (home (base.gangTrap f ls lead hits))
              else .next (home (ls.foldl (fun (t : State) l => ((t.focus l).tryPends.modCur Unit.completeClosed).waitTurn) base))
          | (.next _, _ :: _) => .next (home (keepWaiting f ls base))
          | (.fault x, _) => .fault x
          | (.refused x, _) => .refused x
        | (.fault x, _) => .fault x
        | (.refused x, _) => .refused x

/-- The turn of the acting unit. -/
noncomputable def State.turn (s : State) : Out := onNext (if s.cur.gang ≤ 1 then s.ownTurn none else s.gangTurn) State.unused

/-! ### Between turns -/

/-- The words that engines have written leave the ways (R168, R350). -/
def State.clearWays (s : State) : State := { s with clusters := s.clusters.map fun c => (c.1, c.2.applyClears) }

/-- TIME passes, by 1 ns and as many more as the machine takes (log 3), and what goes on by itself does: written words leave the ways,
complete records and messages that had no room go on, boot goes on, queues and launches are watched, held requests and lanes drain, and packets and
messages leave. -/
def State.tick (s : State) : State :=
  let dt := 1 + word (Config.elapsed s.draws)
  let t : State := { s with time := s.time + dt, draws := s.draws + 1 }
  let t := t.clearWays.joinRecords.retryRefusals.postSkew.postFaults.retryPrefetches.settleBoot
  (t.watchQueues.watchLaunches dt).serveHeld.drainLanes.pumpOut.pumpDies

/-- The acting unit stands between the slots of a bundle that issues in one turn (R34). A unit that a return or a restart has brought to
the A-slot of another bundle issues it on its next turn (R186). -/
def State.midBundle (s : State) : Bool := s.cur.placed && !s.cur.away && s.cur.aslot && s.cur.turn == .ran && s.cur.fetched.isSome

/-- An event from outside a unit's own instructions; a word that only a slot issues is none. -/
def State.event (s : State) (i : Instr) : Out := if (encode i).isSome then .next s else exec i s

/-- The turn of a core goes to the next of its slots, in their fixed rotation, that holds a unit (R186, log 10); a core without a unit has
none. -/
def State.rotate (s : State) (l : Loc) : Option State :=
  let k := s.core (coreId l)
  let at' (i : Nat) : Loc := { l with slot := (k.rotation + i) % 8 }
  ((upTo 8).find? fun i => (s.unitAt (at' i)).isSome).map fun i =>
    (s.setCore (coreId l) { k with rotation := ((at' i).slot + 1) % 8 }).focus (at' i)

/-- A turn of a core; none issues before boot has ended (R438). -/
noncomputable def State.coreTurn (s : State) (l : Loc) : Out :=
  if s.boot ≠ .running then .next s
  else
    match s.rotate l with
    | some t => t.turn
    | none => .next s

/-- What comes next: a KICK word, to which the command processor answers once boot has ended (R438), a packet, an entry of the agenda, or a turn of the acting unit's core. -/
noncomputable def State.act (s : State) : Out :=
  match (if s.boot = .running then s.nextKick else none) with
  | some (h, w) => ({ s with kicks := dropFirst (h, w) s.kicks } : State).kick h w
  | none =>
    match s.nextPacket with
    | some (p, l, t) => t.takePacket p l
    | none =>
      match s.agenda with
      | .event i :: rest => ({ s with agenda := rest } : State).event i
      | .turn l :: rest => ({ s with agenda := rest } : State).coreTurn l
      | [] => s.coreTurn s.cur.loc

end Sys2Proof.Machine
end

