-- ==== Sys2Proof/Machine/Step.lean ====
section
/-! DEFINITION. One step of the machine, and an instruction placed where the next step fetches it. -/

namespace Sys2Proof.Machine

/-- One step: the A-slot of the bundle that is issuing, or, after TIME has passed, what comes next. Nothing comes between the slots of
a bundle (R34, R36). -/
noncomputable def step (s : State) : Host.Outcome State Fault Refusal :=
  if s.stopped then .fault .thermalStop
  else if s.midBundle then s.turn
  else s.tick.act

/-- A state whose next step fetches the instruction with the bits `w` and runs it: a unit of a launch of job 0 on slot 0 of core 0 of
cluster 0 of die 0, a job record and page tables that map its 64 MiB page to the same addresses, and the bundle at 0x10000. Boot has ended (log 71). A word that is
an A-slot instruction stands in the A-slot beside a `nop`, with the unit past the C-slot. -/
noncomputable def State.withFetchWord (s : State) (nbits w : Nat) : State :=
  let w0 := BitVec.ofNat 32 (w % 2 ^ nbits)
  let w1 := BitVec.ofNat 32 (w % 2 ^ nbits / 2 ^ 32)
  let a := readsAsA w0
  let loc : Loc := ⟨0, 0, 0, 0⟩
  let lap : Word := 0x0080_0000_0000_0000
  let lsb := lap + 0x70_0000
  let u : Unit :=
    { placed := true, loc, pc := 0x10000, npc := 0x10008, aslot := a, wsp := lsb + 16384, lsb, lap, launch := 1 }
  let l : Launch :=
    { num := 1, job := 0, kind := 1, entry := 0x10000, nu := 1, gang := 1, weight := 0, sealed' := false, counter := 0, p8 := 0, p9 := 0,
      p10 := 0, word5 := 0, dies := 1, clusters := 1, queue := some 0, node := none, prio := 0, progress := s.time }
  let t : State :=
    { s with cur := u.beginTask 0 0xFFFE 0x10000 a, others := s.others.filter (fun v => v.loc ≠ loc),
             launches := l :: s.launches.filter (fun x => x.num ≠ 1), jobtab := 0, agenda := [], kicks := [],
             ports := s.ports.map fun p => (p.1, { p.2 with packets := [] }), stopped := false, boot := .running }
  let t := t.setCore 0 { t.core 0 with rotation := 0 }
  let t := t.setBytes 0 (bytesOfWords [0x2000])
  let t := t.setBytes 0x2000 (bytesOfWords [0x1001])
  let t := t.setBytes 0x4000 (bytesOfWords [0x1801])
  let t := t.setBytes 0x6000 (bytesOfWords [0x0200_0000_0000_008D])
  t.setBytes 0x10000 (if a then bytesOf 4 0 ++ bytesOf 4 w0.toNat else bytesOf 4 w0.toNat ++ bytesOf 4 w1.toNat)

end Sys2Proof.Machine
end

