-- ==== Sys2Proof/WellFormed.lean ====
section
/-! DEFINITION. Well-formed instructions: the operands that an encoding of the opcode table admits, and the ranges of what an
event carries (places, ports and sizes of one module). -/

namespace Sys2Proof

/-- The operand is the literal word. -/
def RegLit.isLit : RegLit → Bool
  | .reg _ => false
  | .lit _ => true

/-- A place of the module (R11, R156): a slot of a worker core or gleaner (log 7) of a K-die, or of a wain core of its stacks or of the
LPDDR tier (log 15). -/
def Loc.wf (l : Loc) : Bool :=
  decide (l.slot < 8) && ((decide (l.die < 6) && decide (l.cluster < 20) && decide (l.core < 10)) ||
    (decide (l.die < 6) && decide (20 ≤ l.cluster) && decide (l.cluster < 22) && decide (l.core < 8)) ||
    (decide (6 ≤ l.die) && decide (l.die < 8) && decide (20 ≤ l.cluster) && decide (l.cluster < 24) && decide (l.core < 8)))

/-- Sizes of a host access (R415). -/
def hostSize (n : Nat) : Bool := decide (0 < n) && decide (n ≤ 4096)
/-- A host read stays within the hub register window; the device memory window is checked where it is translated (R415). -/
def hostAddrOk (off : HostAddr) (size : Nat) : Bool :=
  match off with
  | .bar0 off => decide (off.toNat + size ≤ 2 ^ 32)
  | .bar2 _ => true
/-- Sizes of a host compare-and-swap (R415). -/
def casSize (n : Nat) : Bool := n == 4 || n == 8 || n == 16

/-- A request of a part of this module. -/
def XlReq.wf (r : XlReq) : Bool := decide (r.loc.die < 8) && decide (0 < r.size)

/-- The fields of a packet fit their bits (R422). -/
def Packet.wf (k : Packet) : Bool :=
  decide (k.dst < 1024) && decide (k.src < 1024) && decide (k.sdie < 8) && decide (k.lseq < 4096) && decide (k.addr < 2 ^ 56)

/-- The fields of a die message fit their bits (R429). -/
def DieMsg.wf (m : DieMsg) : Bool :=
  decide (m.sdie < 8) && decide (m.ddie < 8) && decide (m.addr < 2 ^ 56) && decide (m.tag < 65536)

/-- A flit of a fabric port has 64 bytes, one of a die port 256 (R419, R429). -/
def flitWf (raw : List Byte) (n : Nat) : Bool := raw.length == n

/-- The fields of DISCOVER (R431). -/
def Discover.wf (x : Discover) : Bool := decide (x.die < 8) && decide (x.port < 8)

/-- A block of this module (R433). -/
def Block.wf : Block → Bool
  | .cluster d c => decide (d < 6) && decide (c < 20)
  | .wain d s g => decide (d < 6) && decide (s < 2) && decide (g < 8)
  | .rope d => decide (d < 6)
  | .command h => decide (h < 2)
  | .hostLink h => decide (h < 2)
  | .lpddrCopy p => decide (p < 64)

/-- The instruction is one that the opcode table lists with operands that its encoding admits. -/
def Instr.wf (i : Instr) : Bool :=
  match i with
  | .nop => true
  | .fmtC _ _ _ => true
  | .fmtA _ _ _ => true
  | .ldB _ _ _ _ => true
  | .ldH _ _ _ _ => true
  | .ldW _ _ _ _ => true
  | .ldD _ _ _ _ => true
  | .ldBs _ _ _ _ => true
  | .ldHs _ _ _ _ => true
  | .ldWs _ _ _ _ => true
  | .vld _ _ _ _ => true
  | .vldTag _ _ _ _ => true
  | .stB _ _ _ => true
  | .stH _ _ _ => true
  | .stW _ _ _ => true
  | .stD _ _ _ => true
  | .vst _ _ _ => true
  | .vstTag _ _ _ => true
  | .adr _ _ _ => true
  | .cpf _ _ => true
  | .cinv _ _ => true
  | .lbank _ _ _ => true
  | .lrng _ _ => true
  | .lstat _ _ => true
  | .sbind _ => true
  | .ltag _ _ => true
  | .aswap _ _ _ _ t => atomicType 0 t
  | .acas _ _ _ b t => atomicType 1 t && !(t == .q && b.isLit)
  | .aadd _ _ _ _ t => atomicType 2 t
  | .aand _ _ _ _ t => atomicType 3 t
  | .aor _ _ _ _ t => atomicType 4 t
  | .axor _ _ _ _ t => atomicType 5 t
  | .amax _ _ _ _ t => atomicType 6 t
  | .amin _ _ _ _ t => atomicType 7 t
  | .amaxu _ _ _ _ t => atomicType 8 t
  | .aminu _ _ _ _ t => atomicType 9 t
  | .aaddN _ _ t => atomicType 2 t && t != .q
  | .aandN _ _ t => atomicType 3 t && t != .q
  | .aorN _ _ t => atomicType 4 t && t != .q
  | .axorN _ _ t => atomicType 5 t && t != .q
  | .amaxN _ _ t => atomicType 6 t && t != .q
  | .aminN _ _ t => atomicType 7 t && t != .q
  | .amaxuN _ _ t => atomicType 8 t && t != .q
  | .aminuN _ _ t => atomicType 9 t && t != .q
  | .fence => true
  | .fenceE => true
  | .fenceI => true
  | .fenceEi => true
  | .bar _ _ => true
  | .scLd _ _ _ _ _ => true
  | .scSt _ _ _ _ => true
  | .scSwap _ _ _ _ _ _ => true
  | .scCas _ _ _ _ _ _ => true
  | .scAdd _ _ _ _ _ _ => true
  | .br _ _ => true
  | .brf _ _ => true
  | .call _ _ => true
  | .jr _ => true
  | .callr _ => true
  | .ret => true
  | .wflush => true
  | .wdepth _ => true
  | .atTime _ => true
  | .atTimeC _ => true
  | .gang _ => true
  | .split => true
  | .tbegin _ _ => true
  | .tcommit => true
  | .tend => true
  | .tspawn _ _ _ => true
  | .tstamp _ => true
  | .tabort => true
  | .tabortO => true
  | .exit _ => true
  | .div _ _ _ _ => true
  | .divu _ _ _ _ => true
  | .rem _ _ _ _ => true
  | .remu _ _ _ _ => true
  | .divw _ _ _ _ => true
  | .divuw _ _ _ _ => true
  | .remw _ _ _ _ => true
  | .remuw _ _ _ _ => true
  | .mul2 _ _ _ _ => true
  | .mul2u _ _ _ _ => true
  | .mfsr _ _ => true
  | .mtsr _ _ => true
  | .lhzM _ _ => true
  | .lhzD _ _ => true
  | .lwait _ => true
  | .ptw _ _ _ => true
  | .frep _ _ _ => true
  | .trap _ => true
  | .brk _ => true
  | .rte => true
  | .tkill _ => true
  | .crd _ _ => true
  | .cwait _ _ _ => true
  | .csig _ _ => true
  | .lcancel _ => true
  | .cset _ _ => true
  | .qpop _ _ _ => true
  | .qpush _ _ _ => true
  | .vqpop _ _ _ => true
  | .vqpush _ _ => true
  | .cpy _ _ => true
  | .cpyTry _ _ _ => true
  | .mcmd _ _ => true
  | .rcat la _ _ form => form == .returning || la == 0
  | .rsplit la _ _ form => form == .returning || la == 0
  | .rsplice la _ _ form => form == .returning || la == 0
  | .rindex la _ _ form => form == .returning || la == 0
  | .rsum la _ _ form => form == .returning || la == 0
  | .rwalk la _ _ form => form == .returning || la == 0
  | .rhold la _ _ form => form == .returning || la == 0
  | .rdrop la _ _ form => form == .returning || la == 0
  | .rpiece la _ _ form => form == .returning || la == 0
  | .rresum la _ _ form => form == .returning || la == 0
  | .trim la _ _ form => form == .returning || la == 0
  | .rtier la _ _ form => form == .returning || la == 0
  | .hblk _ _ _ => true
  | .pfxLook _ _ => true
  | .pfxAdd _ _ => true
  | .pfxPin _ _ => true
  | .pfxUnpin _ _ => true
  | .tget _ _ _ => true
  | .tput _ _ _ => true
  | .qwait _ _ _ => true
  | .wcwait _ _ c => decide (c.toNat ≤ 16)
  | .add _ _ _ _ => true
  | .sub _ _ _ _ => true
  | .addw _ _ _ _ => true
  | .subw _ _ _ _ => true
  | .adds _ _ _ _ => true
  | .subs _ _ _ _ => true
  | .addus _ _ _ _ => true
  | .subus _ _ _ _ => true
  | .and _ _ _ _ => true
  | .or _ _ _ _ => true
  | .xor _ _ _ _ => true
  | .andn _ _ _ _ => true
  | .orn _ _ _ _ => true
  | .xnor _ _ _ _ => true
  | .min _ _ _ _ => true
  | .max _ _ _ _ => true
  | .minu _ _ _ _ => true
  | .maxu _ _ _ _ => true
  | .abs _ _ _ => true
  | .sll _ _ _ _ => true
  | .srl _ _ _ _ => true
  | .sra _ _ _ _ => true
  | .rol _ _ _ _ => true
  | .ror _ _ _ _ => true
  | .sllw _ _ _ _ => true
  | .srlw _ _ _ _ => true
  | .sraw _ _ _ _ => true
  | .sllImm _ _ _ => true
  | .srlImm _ _ _ => true
  | .sraImm _ _ _ => true
  | .rolImm _ _ _ => true
  | .rorImm _ _ _ => true
  | .sllwImm _ _ _ => true
  | .srlwImm _ _ _ => true
  | .srawImm _ _ _ => true
  | .mul _ _ _ _ => true
  | .mulh _ _ _ _ => true
  | .mulhu _ _ _ _ => true
  | .mulhsu _ _ _ _ => true
  | .mulw _ _ _ _ => true
  | .clz _ _ _ => true
  | .ctz _ _ _ => true
  | .popc _ _ _ => true
  | .brev _ _ _ => true
  | .bswap _ _ _ => true
  | .sextB _ _ _ => true
  | .sextH _ _ _ => true
  | .sextW _ _ _ => true
  | .zextB _ _ _ => true
  | .zextH _ _ _ => true
  | .zextW _ _ _ => true
  | .bclr _ _ _ _ => true
  | .bset _ _ _ _ => true
  | .binv _ _ _ _ => true
  | .bext _ _ _ _ => true
  | .cmp _ _ _ _ _ => true
  | .cmpImm _ _ _ _ => true
  | .sel _ _ _ _ _ => true
  | .mov _ _ _ => true
  | .pand _ _ _ _ => true
  | .por _ _ _ _ => true
  | .pxor _ _ _ _ => true
  | .pandn _ _ _ _ => true
  | .pnot _ _ _ => true
  | .pmov _ _ _ => true
  | .ptest _ _ _ => true
  | .addImm _ _ _ => true
  | .andImm _ _ _ => true
  | .orImm _ _ _ => true
  | .xorImm _ _ _ => true
  | .li _ _ => true
  | .lih _ _ _ => true
  | .vadd _ _ _ _ _ => true
  | .vsub _ _ _ _ _ => true
  | .vadds _ _ _ _ _ => true
  | .vsubs _ _ _ _ _ => true
  | .vaddus _ _ _ _ _ => true
  | .vsubus _ _ _ _ _ => true
  | .vmul _ _ _ _ _ => true
  | .vmulh _ _ _ _ _ => true
  | .vmulhu _ _ _ _ _ => true
  | .vand _ _ _ _ _ => true
  | .vor _ _ _ _ _ => true
  | .vxor _ _ _ _ _ => true
  | .vandn _ _ _ _ _ => true
  | .vmin _ _ _ _ _ => true
  | .vmax _ _ _ _ _ => true
  | .vminu _ _ _ _ _ => true
  | .vmaxu _ _ _ _ _ => true
  | .vabs _ _ _ _ => true
  | .vsll _ _ _ _ _ => true
  | .vsrl _ _ _ _ _ => true
  | .vsra _ _ _ _ _ => true
  | .vavgu _ _ _ _ _ => true
  | .vaddF _ _ _ _ _ => true
  | .vsubF _ _ _ _ _ => true
  | .vmulF _ _ _ _ _ => true
  | .vminF _ _ _ _ _ => true
  | .vmaxF _ _ _ _ _ => true
  | .vabsF _ _ _ _ => true
  | .vnegF _ _ _ _ => true
  | .vcpsgnF _ _ _ _ _ => true
  | .vfma _ _ _ _ _ => true
  | .vfms _ _ _ _ _ => true
  | .vfnma _ _ _ _ _ => true
  | .vfnms _ _ _ _ _ => true
  | .vfmawLo _ _ _ _ _ => true
  | .vfmawHi _ _ _ _ _ => true
  | .vcmp _ _ _ _ _ => true
  | .vcvt _ _ _ _ _ => true
  | .vrcpA _ _ _ => true
  | .vrsqA _ _ _ => true
  | .vrcpS _ _ _ _ => true
  | .vrsqS _ _ _ _ => true
  | .vrcp _ _ _ => true
  | .vrsq _ _ _ => true
  | .vsqrt _ _ _ => true
  | .vdiv _ _ _ _ => true
  | .vexp2 _ _ _ => true
  | .vlog2 _ _ _ => true
  | .vraddF32 _ _ _ => true
  | .vrmaxF32 _ _ _ => true
  | .vrminF32 _ _ _ => true
  | .vradd _ _ _ _ => true
  | .vrmax _ _ _ _ => true
  | .vrmin _ _ _ _ => true
  | .vrmaxu _ _ _ _ => true
  | .vrminu _ _ _ _ => true
  | .vrand _ _ _ _ => true
  | .vror _ _ _ _ => true
  | .vrxor _ _ _ _ => true
  | .vraddw _ _ _ s => s != .d
  | .vperm _ _ _ _ _ => true
  | .vperm2 _ _ _ _ _ => true
  | .vzipl _ _ _ _ _ => true
  | .vziph _ _ _ _ _ => true
  | .vuzpe _ _ _ _ _ => true
  | .vuzpo _ _ _ _ _ => true
  | .vrev _ _ _ _ => true
  | .vsld _ _ _ _ _ _ => true
  | .kand _ _ _ => true
  | .kor _ _ _ => true
  | .kxor _ _ _ => true
  | .kandn _ _ _ => true
  | .knot _ _ => true
  | .kmov _ _ => true
  | .vmerge _ _ _ _ _ => true
  | .vtunpack _ _ _ _ => true
  | .vtpack _ _ _ _ => true
  | .vpadd _ _ _ _ => true
  | .vpsub _ _ _ _ => true
  | .vpmul _ _ _ _ => true
  | .vpmin _ _ _ _ => true
  | .vpmax _ _ _ _ => true
  | .vpfma _ _ _ _ => true
  | .vbcast _ _ _ _ => true
  | .vext _ _ _ _ => true
  | .vexts _ _ _ _ => true
  | .vins _ _ _ _ => true
  | .ktos _ _ _ => true
  | .stok _ _ _ => true
  | .kpop _ _ => true
  | .vmov _ _ _ _ => true
  | .vsmUpd _ _ _ _ => true
  | .vsmRescale _ _ _ _ => true
  | .vloop _ _ => true
  | .vlidx _ => true
  | .lookaheadComplete => true
  | .lateTrap => true
  | .matrixData => true
  | .eagerSpill => true
  | .commitVisible => true
  | .taskAbort => true
  | .nonspecRun => true
  | .lowtsExchange => true
  | .lwaitExpire => true
  | .atExpire => true
  | .sliceTranslate r => r.wf
  | .pageWalkComplete => true
  | .homeAccept => true
  | .skewCheck die slice _ => decide (die < 6) && decide (slice < 32)
  | .copyStart die cluster => decide (die < 6) && decide (cluster < 20)
  | .copyTimedStart die cluster => decide (die < 6) && decide (cluster < 20)
  | .copyChunk die cluster => decide (die < 6) && decide (cluster < 20)
  | .copyComplete die cluster => decide (die < 6) && decide (cluster < 20)
  | .ropeCommandTake die => decide (die < 6)
  | .ropeCommandDone die => decide (die < 6)
  | .rwalkDescriptorPush die => decide (die < 6)
  | .blockDrainExpire die index => decide (die < 6) && decide (index < Config.directoryEntries)
  | .arrayGrant die cluster _ => decide (die < 6) && decide (cluster < 20)
  | .flailRow die cluster => decide (die < 6) && decide (cluster < 20)
  | .productRow die cluster => decide (die < 6) && decide (cluster < 20)
  | .q3Push die cluster _ => decide (die < 6) && decide (cluster < 20)
  | .matrixComplete die cluster _ => decide (die < 6) && decide (cluster < 20)
  | .tileMovePerform die cluster core _ => decide (die < 6) && decide (cluster < 20) && decide (core < 8)
  | .lbankZeroDone die cluster bank => decide (die < 6) && decide (cluster < 20) && decide (bank < 14)
  | .submit hub _ _ => decide (hub < 2)
  | .unfreeze hub _ => decide (hub < 2)
  | .cancel hub _ => decide (hub < 2)
  | .endjob hub _ => decide (hub < 2)
  | .toDevice hub _ => decide (hub < 2)
  | .toShared hub _ => decide (hub < 2)
  | .toHost hub _ => decide (hub < 2)
  | .ringRecordRead q => decide (q < 64)
  | .q11Record l => l.wf
  | .recordServe hub => decide (hub < 2)
  | .priorityAging q => decide (q < 64)
  | .unitPlace => true
  | .slotStop l => l.wf
  | .preemptDrain die cluster core => decide (die < 6) && decide (cluster < 20) && decide (core < 8)
  | .resume l => l.wf
  | .launchComplete _ => true
  | .graphReplay hub => decide (hub < 2)
  | .phaseRecord hub => decide (hub < 2)
  | .nodeLaunch _ _ => true
  | .nodeCopy _ _ => true
  | .nodeWait _ _ => true
  | .nodeSignal _ _ => true
  | .nodeCond _ _ => true
  | .nodeLoop _ _ => true
  | .nodePatch _ _ => true
  | .watchdog _ => true
  | .unitCancelRetire => true
  | .registerWrite hub _ _ => decide (hub < 2)
  | .hostRead hub off size => decide (hub < 2) && hostSize size && hostAddrOk off size
  | .hostWrite hub _ data => decide (hub < 2) && hostSize data.length
  | .hostFetchAdd hub _ _ _ => decide (hub < 2)
  | .hostSwap hub _ _ _ => decide (hub < 2)
  | .hostCas hub _ size _ _ => decide (hub < 2) && casSize size
  | .hubHostAtomic hub _ => decide (hub < 2)
  | .getMeasurements hub => decide (hub < 2)
  | .challenge hub _ => decide (hub < 2)
  | .perstRelease => true
  | .kDieRelease => true
  | .rollbackFuseBlow hub kind => decide (hub < 2) && decide (kind < 4)
  | .discoverSend die => decide (die < 8)
  | .discoverTimeout die port => decide (die < 8) && decide (port < 8)
  | .flitReceive port f => decide (port < 18) && flitWf f 64
  | .fabricRead k => k.wf
  | .fabricData k => k.wf
  | .fabricWrite k => k.wf
  | .fabricLock k => k.wf
  | .fabricAck k => k.wf
  | .fabricPerform k => k.wf
  | .fabricUnlock k => k.wf
  | .fabricAtomic k => k.wf
  | .fabricSc k => k.wf
  | .fabricRefuse k => k.wf
  | .fabricSend k => k.wf
  | .fabricBeacon port k => decide (port < 18) && k.wf
  | .sendTimedEgress die => decide (die < 6)
  | .beaconSend => true
  | .beaconLost => true
  | .dieFlitReceive die port f => decide (die < 8) && decide (port < 8) && flitWf f 256
  | .dieReqRead m => m.wf
  | .dieReqLock m => m.wf
  | .dieReqAtomic m => m.wf
  | .dieReqSc m => m.wf
  | .dieRspData m => m.wf
  | .dieRspAck m => m.wf
  | .dieRspRefuse m => m.wf
  | .dieRspInvack m => m.wf
  | .dieWrPerform m => m.wf
  | .dieWrWrite m => m.wf
  | .dieWrUnlock m => m.wf
  | .dieWrInv m => m.wf
  | .dieArbSig m => m.wf
  | .dieArbLowts m => m.wf
  | .dieArbMark m => m.wf
  | .dieArbScann m => m.wf
  | .dieEngCmd m => m.wf
  | .dieEngDone m => m.wf
  | .dieMgmtDiscover die port x => decide (die < 8) && decide (port < 8) && x.wf
  | .dieMgmtBeacon m => m.wf
  | .scPerform => true
  | .regionTableWrite _ _ _ => true
  | .blockWorldSet b _ => b.wf
  | .powerLimit => true
  | .thermalStop => true
  | .singleBitError die _ => decide (die < 8)
  | .doubleBitError die _ _ => decide (die < 8)
  | .debuggerStop l => l.wf
  | .powerBelowLimit => true
  | .illegalEncoding _ => true
  | .kickRefused hub _ => decide (hub < 2)

end Sys2Proof
end

