-- ==== Sys2Proof/Safety.lean ====
section
/-! DEFINITION. What counts as a safe run, and the words in which claims are stated: an acting unit that nothing holds back, the
state past an instruction, a commit that ends, and the canonical form of memory. -/

namespace Sys2Proof.Machine

/-- A run of `k` steps from `s` meets neither a fault nor a refusal. -/
def Safe : Nat → State → Prop
  | 0, _ => True
  | k + 1, s => ∃ t, step s = .next t ∧ Safe k t

/-- Memory is in its canonical form. -/
def State.MemOk (s : State) : Prop := Memory.wf s.mem = true

/-- No prefix is pending (R46), and no register of `ks` is a destination that is still pending (R41, R297): what every instruction
that touches `ks` and takes no formats needs. -/
def State.Quiet (s : State) (ks : List RegKey) : Prop := tsrPp s.cur.tsr = false ∧ s.touches ks = false

/-- The keys of scalar registers. -/
def Unit.keysS (u : Unit) (l : List SReg) : List RegKey := l.map u.keyS

/-- The acting unit changed by `f` and past its A-slot instruction: nothing else of the state differs from `s`. -/
def State.afterA (s : State) (f : Unit → Unit) : State := s.modCur fun u => (f u).pastA

/-- The acting unit changed by `f` and past its C-slot instruction, whose word issued alone where `lone` holds (R37). -/
def State.afterC (s : State) (f : Unit → Unit) (lone : Bool := false) : State := s.modCur fun u => (f u).pastC lone

/-- The acting unit holds one item more for release at its commit, and is past its C-slot instruction. -/
def State.afterHold (s : State) (h : Held) (lone : Bool := false) : State :=
  s.afterC (fun u => { u with task := { u.task with held := u.task.held ++ [h] } }) lone

/-- The commit of the current task ends now, in the state `t` (R316 to R319, R224): whatever follows the commit starts from `t`. -/
def State.CommitsTo (s : State) (c : Cont) (lone : Bool) (t : State) : Prop := s.commitStep c lone = .ended t

/-- The address checks of an access of `n` bytes at `ea` pass (R175): a canonical address, aligned, and no part of the aperture that
the unit may not use. -/
def State.Reaches (s : State) (ea : Word) (n align : Nat) : Prop :=
  ea.toNat < 2 ^ 56 ∧ ea.toNat % align = 0 ∧ s.loftRefused ea n = false

/-- The trap `t` is raised: it is entered at once where nothing of the slot is incomplete, and otherwise stands in `raising` until all
is complete (R43, log 53). -/
def Raises (i : Instr) (s : State) (t : TrapInfo) : Prop :=
  exec i s = if s.settled then .next (s.enterTrap t) else .next (s.modCur fun u => { u with raising := some t }).waitTurn

end Sys2Proof.Machine
end

