-- ==== Sys2Proof/Certificates/Slice0/Obligations.lean ====
section
/-! DEFINITION. The statements for the provers. Each is about the machine; its docstring says which rules it formalises. -/

open Sys2Proof Sys2Proof.Machine

/-- Scalar arithmetic and logic write the results of the table, and nothing else. For every state in which no prefix is pending, no named
register is pending or live-in and the guard is true, each of the nineteen instructions of opcode 0x02 answers the next state in which
s[d] holds the result of R204 (wrapping, clamped at both ends for the saturating forms, abs of -2^63 giving -2^63) and the unit stands
past its A-slot. The next state is given whole, so every other register, flag, special register, accumulator and byte of memory is
unchanged. Formalises R204. -/
def Obligations.ScalarArithmeticResults : Prop :=
  ∀ (s : State) (d a b : SReg) (p : PReg), s.Quiet (s.cur.keysS [d, a, b]) → s.cur.namedS d = false → s.cur.getP p = true →
    let x := s.cur.getS a
    let y := s.cur.getS b
    let clampTo (i : Int) : Word :=
      if 2 ^ 63 - 1 < i then 0x7FFF_FFFF_FFFF_FFFF else if i < -2 ^ 63 then 0x8000_0000_0000_0000 else BitVec.ofInt 64 i
    let low (z : Word) : Word := (z.truncate 32 : BitVec 32).signExtend 64
    ∀ (i : Instr) (r : Word),
      (i, r) ∈ [(.add d a b p, x + y), (.sub d a b p, x - y), (.addw d a b p, low (x + y)), (.subw d a b p, low (x - y)),
        (.adds d a b p, clampTo (x.toInt + y.toInt)), (.subs d a b p, clampTo (x.toInt - y.toInt)),
        (.addus d a b p, if 2 ^ 64 ≤ x.toNat + y.toNat then BitVec.allOnes 64 else x + y),
        (.subus d a b p, if x.toNat < y.toNat then 0 else x - y),
        (.and d a b p, x &&& y), (.or d a b p, x ||| y), (.xor d a b p, x ^^^ y), (.andn d a b p, x &&& ~~~y),
        (.orn d a b p, x ||| ~~~y), (.xnor d a b p, ~~~(x ^^^ y)),
        (.min d a b p, if x.toInt ≤ y.toInt then x else y), (.max d a b p, if x.toInt ≤ y.toInt then y else x),
        (.minu d a b p, if x.toNat ≤ y.toNat then x else y), (.maxu d a b p, if x.toNat ≤ y.toNat then y else x),
        (.abs d a p, if 0 ≤ x.toInt then x else 0 - x)] →
      exec i s = .next (s.afterA fun u => u.setS d r)

/-- Scalar compares, predicates, selects, constants and immediates have the results of their table. For every state in which nothing stops
them, the six immediate forms of R205, mov and sel of R210 and pmov answer the next state in which s[d] holds the result and the unit
stands past its A-slot: imm16 is sign-extended for add and li, zero-extended for and, or, xor and lih. A write of s0 is discarded.
Everything else is unchanged. For every state in which nothing stops them, cmp by register and by immediate writes p[d] with the
comparison of R209 (immediates sign-extended for the signed codes and for equality, zero-extended for ltu and geu), and pand, por, pxor,
pandn, pnot and ptest write the predicate of R210. A write of p0 is discarded. Everything else is unchanged. Rests on R203, R205, R210,
R209. -/
def Obligations.CompareSelectAndImmediateResults : Prop :=
  (∀ (s : State) (d a b : SReg) (p q : PReg) (v : BitVec 16), s.Quiet (s.cur.keysS [d, a, b]) → s.cur.namedS d = false →
    let x := s.cur.getS a
    let y := s.cur.getS b
    (∀ (i : Instr) (r : Word),
      (i, r) ∈ [(.addImm d a v, x + v.signExtend 64), (.andImm d a v, x &&& v.zeroExtend 64), (.orImm d a v, x ||| v.zeroExtend 64),
        (.xorImm d a v, x ^^^ v.zeroExtend 64), (.li d v, v.signExtend 64), (.lih d a v, x * 65536 ||| v.zeroExtend 64)] →
      exec i s = .next (s.afterA fun u => u.setS d r)) ∧
    (s.cur.getP p = true →
      ∀ (i : Instr) (r : Word),
        (i, r) ∈ [(.mov d a p, x), (.sel d a b p q, if s.cur.getP q then x else y)] →
        exec i s = .next (s.afterA fun u => u.setS d r)) ∧
    (s.cur.getP p = true → exec (.pmov d q p) s = .next (s.afterA fun u => u.setS d (if s.cur.getP q then 1 else 0)))) ∧
  (∀ (s : State) (d e f : PReg) (a b : SReg) (p : PReg) (v : BitVec 13), s.Quiet (s.cur.keysS [a, b]) → s.cur.namedP d = false →
    let x := s.cur.getS a
    let y := s.cur.getS b
    let se : Word := v.signExtend 64
    let ze : Word := v.zeroExtend 64
    (∀ (i : Instr) (r : Bool),
      (i, r) ∈ [(.cmpImm d a .eq v, decide (x = se)), (.cmpImm d a .ne v, decide (x ≠ se)), (.cmpImm d a .lt v, decide (x.toInt < se.toInt)),
        (.cmpImm d a .ge v, decide (se.toInt ≤ x.toInt)), (.cmpImm d a .ltu v, decide (x.toNat < ze.toNat)),
        (.cmpImm d a .geu v, decide (ze.toNat ≤ x.toNat))] →
      exec i s = .next (s.afterA fun u => u.setP d r)) ∧
    (s.cur.getP p = true →
      ∀ (i : Instr) (r : Bool),
        (i, r) ∈ [(.cmp d a b p .eq, decide (x = y)), (.cmp d a b p .ne, decide (x ≠ y)), (.cmp d a b p .lt, decide (x.toInt < y.toInt)),
          (.cmp d a b p .ge, decide (y.toInt ≤ x.toInt)), (.cmp d a b p .ltu, decide (x.toNat < y.toNat)),
          (.cmp d a b p .geu, decide (y.toNat ≤ x.toNat)), (.ptest d a p, decide (x ≠ 0)),
          (.pand d e f p, s.cur.getP e && s.cur.getP f), (.por d e f p, s.cur.getP e || s.cur.getP f),
          (.pxor d e f p, s.cur.getP e ^^ s.cur.getP f), (.pandn d e f p, s.cur.getP e && !s.cur.getP f),
          (.pnot d e p, !s.cur.getP e)] →
        exec i s = .next (s.afterA fun u => u.setP d r)))

/-- Shifts, rotates and multiplies write their results, and nothing else. For every state in which nothing stops them, the shifts and rotates
by register and by immediate and the five multiplies answer the next state in which s[d] holds the result of R206 or R207. A register
count is s[b] modulo 64, or modulo 32 for the w forms, whose 32-bit results are sign-extended; the high halves of products are the exact
signed, unsigned or mixed product divided by 2^64. Everything else is unchanged. Rests on R206, R207. -/
def Obligations.ShiftAndMultiplyResults : Prop :=
  ∀ (s : State) (d a b : SReg) (p : PReg) (n : BitVec 6) (m : BitVec 5), s.Quiet (s.cur.keysS [d, a, b]) → s.cur.namedS d = false →
    let x := s.cur.getS a
    let y := s.cur.getS b
    let w : BitVec 32 := x.truncate 32
    let c := y.toNat % 64
    let e := y.toNat % 32
    (s.cur.getP p = true →
      ∀ (i : Instr) (r : Word),
        (i, r) ∈ [(.sll d a b p, x <<< c), (.srl d a b p, x >>> c), (.sra d a b p, x.sshiftRight c), (.rol d a b p, x.rotateLeft c),
          (.ror d a b p, x.rotateRight c), (.sllw d a b p, (w <<< e).signExtend 64), (.srlw d a b p, (w >>> e).signExtend 64),
          (.sraw d a b p, (w.sshiftRight e).signExtend 64), (.mul d a b p, x * y),
          (.mulh d a b p, BitVec.ofInt 64 (x.toInt * y.toInt / 2 ^ 64)), (.mulhu d a b p, BitVec.ofNat 64 (x.toNat * y.toNat / 2 ^ 64)),
          (.mulhsu d a b p, BitVec.ofInt 64 (x.toInt * y.toNat / 2 ^ 64)), (.mulw d a b p, ((x * y).truncate 32 : BitVec 32).signExtend 64)] →
        exec i s = .next (s.afterA fun u => u.setS d r)) ∧
    (∀ (i : Instr) (r : Word),
      (i, r) ∈ [(.sllImm d a n, x <<< n.toNat), (.srlImm d a n, x >>> n.toNat), (.sraImm d a n, x.sshiftRight n.toNat),
        (.rolImm d a n, x.rotateLeft n.toNat), (.rorImm d a n, x.rotateRight n.toNat), (.sllwImm d a m, (w <<< m.toNat).signExtend 64),
        (.srlwImm d a m, (w >>> m.toNat).signExtend 64), (.srawImm d a m, (w.sshiftRight m.toNat).signExtend 64)] →
      exec i s = .next (s.afterA fun u => u.setS d r))

/-- The bit operations write what their table says, bit by bit. For every state in which nothing stops them, the fifteen instructions of
opcode 0x05 answer the next state in which s[d] holds their result and nothing else has changed. clz and ctz are given by the bits that
are zero and the first that is one, popc by a count of the bits, brev and bswap bit by bit and byte by byte, the extensions by sign and
zero extension, and the single-bit forms act at s[b] modulo 64. Formalises R208. -/
def Obligations.BitOperationResults : Prop :=
  ∀ (s : State) (d a b : SReg) (p : PReg), s.Quiet (s.cur.keysS [d, a, b]) → s.cur.namedS d = false → s.cur.getP p = true →
    let x := s.cur.getS a
    let bit : Word := 1 <<< ((s.cur.getS b).toNat % 64)
    (∃ n, exec (.clz d a p) s = .next (s.afterA fun u => u.setS d (BitVec.ofNat 64 n)) ∧ n ≤ 64 ∧
      (∀ j, 64 - n ≤ j → j < 64 → x.getLsbD j = false) ∧ (n < 64 → x.getLsbD (63 - n) = true)) ∧
    (∃ n, exec (.ctz d a p) s = .next (s.afterA fun u => u.setS d (BitVec.ofNat 64 n)) ∧ n ≤ 64 ∧
      (∀ j, j < n → x.getLsbD j = false) ∧ (n < 64 → x.getLsbD n = true)) ∧
    (∃ v : Word, exec (.brev d a p) s = .next (s.afterA fun u => u.setS d v) ∧ ∀ j, j < 64 → v.getLsbD j = x.getLsbD (63 - j)) ∧
    (∃ v : Word, exec (.bswap d a p) s = .next (s.afterA fun u => u.setS d v) ∧
      ∀ j, j < 8 → v.extractLsb' (8 * j) 8 = x.extractLsb' (8 * (7 - j)) 8) ∧
    (∀ (i : Instr) (r : Word),
      (i, r) ∈ [(.popc d a p, BitVec.ofNat 64 ((List.range 64).countP fun j => x.getLsbD j)),
        (.sextB d a p, (x.truncate 8 : BitVec 8).signExtend 64), (.sextH d a p, (x.truncate 16 : BitVec 16).signExtend 64),
        (.sextW d a p, (x.truncate 32 : BitVec 32).signExtend 64), (.zextB d a p, (x.truncate 8 : BitVec 8).zeroExtend 64),
        (.zextH d a p, (x.truncate 16 : BitVec 16).zeroExtend 64), (.zextW d a p, (x.truncate 32 : BitVec 32).zeroExtend 64),
        (.bclr d a b p, x &&& ~~~bit), (.bset d a b p, x ||| bit), (.binv d a b p, x ^^^ bit),
        (.bext d a b p, (x >>> ((s.cur.getS b).toNat % 64)) &&& 1)] →
      exec i s = .next (s.afterA fun u => u.setS d r))

/-- An A-slot instruction whose guard is false changes nothing but the position. With a false guard and no prefix pending, every AR
instruction of opcodes 0x02 to 0x07 answers the next state in which only the position of the unit has changed, whatever its operands are:
pending registers and live-in registers among them stop nothing. With a prefix pending it raises DANGLING_PREFIX. Rests on R40. -/
def Obligations.FalseGuardMakesNoEffect : Prop :=
  ∀ (s : State) (d a b : SReg) (e f g p q : PReg) (c : Cc), s.cur.getP p = false →
    ∀ i ∈ [Instr.add d a b p, .sub d a b p, .addw d a b p, .subw d a b p, .adds d a b p, .subs d a b p, .addus d a b p, .subus d a b p,
        .and d a b p, .or d a b p, .xor d a b p, .andn d a b p, .orn d a b p, .xnor d a b p, .min d a b p, .max d a b p, .minu d a b p,
        .maxu d a b p, .abs d a p, .sll d a b p, .srl d a b p, .sra d a b p, .rol d a b p, .ror d a b p, .sllw d a b p, .srlw d a b p,
        .sraw d a b p, .mul d a b p, .mulh d a b p, .mulhu d a b p, .mulhsu d a b p, .mulw d a b p, .clz d a p, .ctz d a p, .popc d a p,
        .brev d a p, .bswap d a p, .sextB d a p, .sextH d a p, .sextW d a p, .zextB d a p, .zextH d a p, .zextW d a p, .bclr d a b p,
        .bset d a b p, .binv d a b p, .bext d a b p, .cmp e a b p c, .sel d a b p q, .mov d a p, .pand e f g p, .por e f g p, .pxor e f g p,
        .pandn e f g p, .pnot e f p, .pmov d f p, .ptest e a p],
      (tsrPp s.cur.tsr = false → exec i s = .next (s.afterA id)) ∧
      (tsrPp s.cur.tsr = true → Raises i s (s.bundleTrap .danglingPrefix))

/-- A register reads what was last written to it, s0, k0 and p0 are constant, and a write leaves every other register alone. For every unit:
after a write, the written scalar, vector, mask or predicate register reads the value written and every other one reads as before, in all
four register files; s0 reads zero, k0 all ones and p0 true, and a write to one of the three changes nothing at all. Rests on R188, R190,
R191. -/
def Obligations.RegisterFileReadsWhatWasWritten : Prop :=
  ∀ (u : Machine.Unit) (r q : BitVec 5) (m n : BitVec 3) (x : Word) (y : VWord) (z : KWord) (b : Bool),
    (u.getS 0 = 0 ∧ u.getK 0 = BitVec.allOnes 128 ∧ u.getP 0 = true) ∧
    (u.setS 0 x = u ∧ u.setK 0 z = u ∧ u.setP 0 b = u) ∧
    (u.setS r x).getS q = (if q = 0 then 0 else if q = r then x else u.getS q) ∧
    (u.setV r y).getV q = (if q = r then y else u.getV q) ∧
    (u.setK m z).getK n = (if n = 0 then BitVec.allOnes 128 else if n = m then z else u.getK n) ∧
    (u.setP m b).getP n = (if n = 0 then true else if n = m then b else u.getP n) ∧
    ((u.setS r x).getV q = u.getV q ∧ (u.setS r x).getK n = u.getK n ∧ (u.setS r x).getP n = u.getP n) ∧
    ((u.setV r y).getS q = u.getS q ∧ (u.setV r y).getK n = u.getK n ∧ (u.setV r y).getP n = u.getP n) ∧
    ((u.setK m z).getS q = u.getS q ∧ (u.setK m z).getV q = u.getV q ∧ (u.setK m z).getP n = u.getP n) ∧
    ((u.setP m b).getS q = u.getS q ∧ (u.setP m b).getV q = u.getV q ∧ (u.setP m b).getK n = u.getK n)

/-- Past a slot the unit stands at the other slot or at the next bundle, and a loop body repeats until its trips are done. Past the C-slot of
a bundle without a literal the unit stands at the A-slot of the same bundle. Past the A-slot, or past a C-slot whose second word is its
literal, it stands at the C-slot of the next bundle: the one that a branch has named or the one 8 bytes on, the first bundle of the body
where the sequencer has run its last bundle with trips left, or the bundle past the body, with the sequencer idle, where none is left. At
the bundle of a split the unit leaves its gang with it. Registers and everything else of the unit but the position, the held words, the
sequencer, the note of an at.c and the turn note stay. Rests on R33, R34, R37, R223, R278. -/
def Obligations.PositionAfterASlot : Prop :=
  ∀ (u : Machine.Unit),
    let v := if u.splitAt = some u.pc then { u with gang := 1, splitAt := none } else u
    u.pastC false = { u with aslot := true, turn := .ran, atc := false } ∧
    u.pastC true = { u.pastA with atc := false } ∧
    (u.seq.active = false → u.pastA = { v with pc := u.npc, npc := u.npc + 8, aslot := false, fetched := none, turn := .ran }) ∧
    (∀ q : Seq, u.seq = q → q.active = true → q.held = false → 0 < q.len →
      let last := q.start + word (8 * (q.len - 1))
      let past := q.start + word (8 * q.len)
      (u.pc = last → q.idx + 1 < q.trips → u.pastA =
        { v with pc := q.start, npc := q.start + 8, aslot := false, fetched := none, turn := .ran, seq := { q with idx := q.idx + 1 } }) ∧
      (u.pc = last → q.trips ≤ q.idx + 1 → u.pastA =
        { v with pc := past, npc := past + 8, aslot := false, fetched := none, turn := .ran, seq := {} }) ∧
      (u.pc ≠ last → u.pastA = { v with pc := u.npc, npc := u.npc + 8, aslot := false, fetched := none, turn := .ran })) ∧
    (∀ (pc : Word) (a : Bool), u.goto pc a = { u with pc, npc := pc + 8, aslot := a, fetched := none, atc := false, raising := none })

/-- A lookahead of 0 writes known values at once; any other keeps the destinations pending, and touching one raises LOOKAHEAD_VIOLATION. For
every state: an instruction with a lookahead of 0 whose value is known writes its scalar or vector destination at once and leaves nothing
pending. With a lookahead of n from 1 to 15 no register changes, the destination becomes pending with its value and n bundles to go, and
from then on every instruction that names the destination, and takes it as an operand or result, raises LOOKAHEAD_VIOLATION at its own
bundle (shown for add and vadd). Rests on R41. -/
def Obligations.LookaheadWindowHoldsDestinations : Prop :=
  ∀ (s : State) (la : BitVec 4) (d e f : SReg) (v w : VReg) (x : Word) (y : VWord) (act : Act),
    s.openWindow 0 (s.cur.destS d) (some [sval x]) act = s.modCur (fun u => u.setS d x) ∧
    s.openWindow 0 [.v v.toNat] (some [y]) act = s.modCur (fun u => u.setV v y) ∧
    (la ≠ 0 → d ≠ 0 →
      let t := s.openWindow la (s.cur.destS d) (some [sval x]) act
      t.cur.regs = s.cur.regs ∧
      t.cur.pend = s.cur.pend ++ [{ id := s.ids, dests := [s.cur.keyS d], values := some [sval x], act, left := la.toNat, hold := false,
                                    pc := s.cur.pc }] ∧
      t.mem = s.mem ∧ t.others = s.others ∧
      (tsrPp s.cur.tsr = false →
        Raises (.add d e f 0) t (t.bundleTrap .lookaheadViolation) ∧ Raises (.add e d f 0) t (t.bundleTrap .lookaheadViolation) ∧
        Raises (.add e f d 0) t (t.bundleTrap .lookaheadViolation))) ∧
    (la ≠ 0 →
      let t := s.openWindow la [.v v.toNat] (some [y]) act
      t.cur.v = s.cur.v ∧
      (tsrPp s.cur.tsr = false →
        Raises (.vadd v w w 0 .w) t (t.bundleTrap .lookaheadViolation) ∧ Raises (.vadd w v w 0 .w) t (t.bundleTrap .lookaheadViolation)))

/-- Divides and wide multiplies give their quotient, remainder or product, in registers at a lookahead of 0 and pending at any other. For
every state in which nothing stops them, the eight divides and the two wide multiplies answer a next state in which the results are
written (lookahead 0) or pending (any other), y being s[b] or the sign-extended literal. A divide by zero gives all ones or the dividend
and sets TSR.DZ when it completes; -2^63 by -1 gives -2^63 and 0; every other quotient is truncated toward zero and the remainder is
dividend minus quotient times y, the w forms on the low 32 bits. mul2 and mul2u give the low and the high half of the exact product.
Nothing else changes; mul2 with d = 0 or d = 31 raises ILLEGAL_OPERAND. Rests on R211, R212, R213. -/
def Obligations.DivideAndWideMultiplyResults : Prop :=
  ∀ (s : State) (la : BitVec 4) (d a : SReg) (b : RegLit),
    let x := s.cur.getS a
    let y := s.cur.operand b
    let lone := match b with
      | .reg _ => false
      | .lit _ => true
    let lx : BitVec 32 := x.truncate 32
    let ly : BitVec 32 := y.truncate 32
    let keysB : List RegKey := match b with
      | .reg r => [s.cur.keyS r]
      | .lit _ => []
    (s.Quiet (s.cur.keyS d :: s.cur.keyS a :: keysB) → s.cur.namedS d = false →
      ∀ (i : Instr) (r : Word) (dz : Bool),
        (i, r, dz) ∈ [
          (.div la d a b, if y = 0 then BitVec.allOnes 64 else BitVec.ofInt 64 (x.toInt.tdiv y.toInt), decide (y = 0)),
          (.divu la d a b, if y = 0 then BitVec.allOnes 64 else BitVec.ofNat 64 (x.toNat / y.toNat), decide (y = 0)),
          (.rem la d a b, if y = 0 then x else BitVec.ofInt 64 (x.toInt.tmod y.toInt), decide (y = 0)),
          (.remu la d a b, if y = 0 then x else BitVec.ofNat 64 (x.toNat % y.toNat), decide (y = 0)),
          (.divw la d a b, (if ly = 0 then BitVec.allOnes 32 else BitVec.ofInt 32 (lx.toInt.tdiv ly.toInt)).signExtend 64, decide (ly = 0)),
          (.divuw la d a b, (if ly = 0 then BitVec.allOnes 32 else BitVec.ofNat 32 (lx.toNat / ly.toNat)).signExtend 64, decide (ly = 0)),
          (.remw la d a b, (if ly = 0 then lx else BitVec.ofInt 32 (lx.toInt.tmod ly.toInt)).signExtend 64, decide (ly = 0)),
          (.remuw la d a b, (if ly = 0 then lx else BitVec.ofNat 32 (lx.toNat % ly.toNat)).signExtend 64, decide (ly = 0))] →
        (la = 0 → exec i s = .next (s.afterC (fun u => (if dz then { u with tsr := u.tsr ||| 0x80 } else u).setS d r) lone)) ∧
        exec i s = .next ((s.openWindow la (s.cur.destS d) (some [sval r]) .answer dz).afterC id lone)) ∧
    (s.Quiet (s.cur.keyS d :: s.cur.keyS (d + 1) :: s.cur.keyS a :: keysB) → s.cur.namedS d = false → s.cur.namedS (d + 1) = false →
      d ≠ 0 → d ≠ 31 →
      ∀ (i : Instr) (p : Int),
        (i, p) ∈ [(.mul2 la d a b, x.toInt * y.toInt), (.mul2u la d a b, (x.toNat : Int) * y.toNat)] →
        exec i s = .next ((s.openWindow la [s.cur.keyS d, s.cur.keyS (d + 1)]
          (some [sval (BitVec.ofInt 64 p), sval (BitVec.ofInt 64 (p / 2 ^ 64))]) .answer).afterC id lone)) ∧
    (tsrPp s.cur.tsr = false → d = 0 ∨ d = 31 →
      Raises (.mul2 la d a b) s (s.bundleTrap .illegalOperand) ∧ Raises (.mul2u la d a b) s (s.bundleTrap .illegalOperand))

/-- A taken branch or jump names the bundle after this one; an untaken one changes nothing but the position. br with a true predicate, brf
with a false one, and jr set the bundle that issues after the A-slot of this one, pc + 8 times the displacement or s[a], and write nothing
else. An untaken branch only moves past its slot. A target with a nonzero bit in [63:56] raises ADDRESS_RANGE at that address, and a jr
target that is no multiple of 8 raises MISALIGNED. Rests on R34, R215, R217. -/
def Obligations.BranchesNameTheNextBundle : Prop :=
  ∀ (s : State) (p : PReg) (disp : BitVec 22) (a : SReg), tsrPp s.cur.tsr = false →
    let t := s.cur.pc + disp.signExtend 64 * 8
    let x := s.cur.getS a
    (s.cur.getP p = true → exec (.brf p disp) s = .next (s.afterC id)) ∧
    (s.cur.getP p = false → exec (.br p disp) s = .next (s.afterC id)) ∧
    (s.cur.getP p = true → t.toNat < 2 ^ 56 → exec (.br p disp) s = .next (s.afterC fun u => { u with npc := t })) ∧
    (s.cur.getP p = false → t.toNat < 2 ^ 56 → exec (.brf p disp) s = .next (s.afterC fun u => { u with npc := t })) ∧
    (s.cur.getP p = true → 2 ^ 56 ≤ t.toNat → Raises (.br p disp) s { trap := .addressRange, faddr := t }) ∧
    (s.cur.getP p = false → 2 ^ 56 ≤ t.toNat → Raises (.brf p disp) s { trap := .addressRange, faddr := t }) ∧
    (s.Quiet [s.cur.keyS a] →
      (x.toNat < 2 ^ 56 → x.toNat % 8 = 0 → exec (.jr a) s = .next (s.afterC fun u => { u with npc := x })) ∧
      (2 ^ 56 ≤ x.toNat → Raises (.jr a) s { trap := .addressRange, faddr := x }) ∧
      (x.toNat < 2 ^ 56 → x.toNat % 8 ≠ 0 → Raises (.jr a) s { trap := .misaligned, faddr := x }))

/-- A call slides the register window by 16: the caller's s24 to s31 become s8 to s15, s15 takes the link, and s0 to s7 stay. For every state
in which nothing stops it (none of the registers that become the callee's s8 to s31 is pending) and fewer than four windows are resident,
call (with a true predicate) and callr answer a next state with DEPTH one higher, the caller's s8 to s23 saved as the newest resident
window, the callee's s8 to s14 equal to the caller's s24 to s30, s15 equal to pc + 8, s0 to s7 unchanged, and the target as the next
bundle. The undefined s16 to s31 are free values (log 2). With a false predicate call only moves past its slot. With four windows resident
and room in the stack the turn spills the oldest window instead: 128 bytes go to WSP - 128, and the call issues again. Rests on R41, R188,
R189, R216, R217. -/
def Obligations.CallsSlideTheWindow : Prop :=
  ∀ (s : State) (p : PReg) (disp : BitVec 22) (a : SReg),
    let outs := ([24, 25, 26, 27, 28, 29, 30, 31] : List SReg).map s.cur.keyS ++
      (List.range 16).map fun i => RegKey.s (16 * s.cur.depth + 32 + i)
    (tsrPp s.cur.tsr = false → s.cur.getP p = false → exec (.call p disp) s = .next (s.afterC id)) ∧
    (∀ (i : Instr) (t : Word) (ks : List RegKey),
      (i, t, ks) ∈ [(.call p disp, s.cur.pc + disp.signExtend 64 * 8, outs), (.callr a, s.cur.getS a, s.cur.keyS a :: outs)] →
      s.cur.getP p = true → s.Quiet ks → t.toNat < 2 ^ 56 → t.toNat % 8 = 0 →
      (s.cur.saved.length < 3 →
        ∃ n, exec i s = .next n ∧ n.cur.npc = t ∧ n.cur.pc = s.cur.pc ∧ n.cur.aslot = true ∧ n.cur.depth = s.cur.depth + 1 ∧
          n.cur.saved = Vector.ofFn (fun j => s.cur.regs[j.val + 8]) :: s.cur.saved ∧
          (∀ r : SReg, r.toNat < 8 → n.cur.getS r = s.cur.getS r) ∧
          (∀ r : SReg, 8 ≤ r.toNat → r.toNat < 15 → n.cur.getS r = s.cur.getS (r + 16)) ∧ n.cur.getS 15 = s.cur.pc + 8 ∧
          n.cur.v = s.cur.v ∧ n.cur.k = s.cur.k ∧ n.cur.p = s.cur.p ∧ n.cur.tsr = s.cur.tsr ∧ n.cur.wsp = s.cur.wsp ∧
          n.cur.task = s.cur.task ∧ n.mem = s.mem ∧ n.others = s.others) ∧
      (∀ w, 3 ≤ s.cur.saved.length → s.touches s.cur.oldestKeys = false → s.cur.saved.getLast? = some w →
        s.cur.lsb.toNat + 8192 + 128 ≤ s.cur.wsp.toNat →
        exec i s = .next ((s.setBytes (s.cur.loftAddr (s.cur.wsp - 128)) (bytesOfWords w.toList)).modCur fun u =>
          { u with wsp := u.wsp - 128, saved := u.saved.dropLast, turn := .waited })))

/-- ret slides the window back by 16, fills it from the stack where it is not resident, and wflush and wdepth act on the same windows. For
every state in which nothing stops it, ret with the caller's window resident answers a next state with DEPTH one lower, s8 to s23 those
the caller had, s24 to s31 the callee's s8 to s15, s0 to s7 unchanged and s15 as the next bundle; below the depth at which the task began
the commit step falls at the end of the bundle. With the window not resident the turn reads it back from WSP and ret issues again. DEPTH 1
raises WINDOW_UNDERFLOW. wflush with one resident window only moves on, with more it spills the oldest in its turn; wdepth writes DEPTH.
Rests on R188, R189, R218, R219. -/
def Obligations.ReturnsSlideTheWindowBack : Prop :=
  ∀ (s : State) (d : SReg), tsrPp s.cur.tsr = false →
    let t := s.cur.getS 15
    (s.Quiet [s.cur.keyS 15] →
      (s.cur.depth = 1 → Raises .ret s (s.bundleTrap .windowUnderflow)) ∧
      (s.cur.depth ≠ 1 → t.toNat < 2 ^ 56 → t.toNat % 8 = 0 →
        (∀ w older, s.cur.saved = w :: older →
          ∃ n, exec .ret s = .next n ∧ n.cur.npc = t ∧ n.cur.pc = s.cur.pc ∧ n.cur.aslot = true ∧ n.cur.depth = s.cur.depth - 1 ∧
            n.cur.saved = older ∧ (∀ r : SReg, r.toNat < 8 → n.cur.getS r = s.cur.getS r) ∧
            (∀ (r : SReg) (h : 8 ≤ r.toNat ∧ r.toNat < 24), n.cur.getS r = w[r.toNat - 8]) ∧
            (∀ r : SReg, 24 ≤ r.toNat → n.cur.getS r = s.cur.getS (r - 16)) ∧
            n.cur.retCommit = (s.cur.retCommit || decide (s.cur.depth - 1 < s.cur.task.startDepth)) ∧
            n.cur.v = s.cur.v ∧ n.cur.k = s.cur.k ∧ n.cur.p = s.cur.p ∧ n.cur.tsr = s.cur.tsr ∧ n.cur.wsp = s.cur.wsp ∧
            n.mem = s.mem ∧ n.others = s.others) ∧
        (s.cur.saved = [] → exec .ret s = .next (s.modCur fun u =>
          { u with saved := [vec16 (wordsOf (s.bytes (u.loftAddr u.wsp) 128))], wsp := u.wsp + 128, turn := .waited })))) ∧
    (s.cur.saved = [] → exec .wflush s = .next (s.afterC id)) ∧
    (∀ w, s.cur.saved.getLast? = some w → s.touches s.cur.oldestKeys = false → s.cur.lsb.toNat + 8192 + 128 ≤ s.cur.wsp.toNat →
      exec .wflush s = .next ((s.setBytes (s.cur.loftAddr (s.cur.wsp - 128)) (bytesOfWords w.toList)).modCur fun u =>
        { u with wsp := u.wsp - 128, saved := u.saved.dropLast, turn := .waited })) ∧
    (s.Quiet [s.cur.keyS d] → s.cur.namedS d = false → exec (.wdepth d) s = .next (s.afterC fun u => u.setS d (word u.depth)))

/-- A load writes the committed bytes under the task's own earlier stores, zero- or sign-extended, and stores nothing. For every state in
which nothing stops it and whose address passes the checks, each of the seven scalar loads, vld and vld.tag answers a next state once its
span can be read: the destination is written (lookahead 0) or pending with that value (any other), the value being the committed bytes
with the bytes of the task's own stores laid over them, little-endian, sign-extended for the s forms. Where the span must wait, or an
earlier access of the unit to one of its words is still to be performed, the destination stays pending without a value, or the turn goes
unused with a lookahead of 0. An aperture span is read at the bank at once and changes only the read signature; vld.tag needs the
granule's tag to be XTAG and raises SCHEDULE otherwise. That own stores are laid over by virtual address (log 30) and which earlier
accesses are waited for (log 43) are the model's choices. Rests on R5, R41, R163, R174, R175, R176, R345, R346. -/
def Obligations.LoadsReadThroughTheTasksOwnStores : Prop :=
  ∀ (s : State) (la : BitVec 4) (d b : SReg) (w : VReg) (o : MemOff),
    let pend := if la = 0 then 0 else s.ids
    let seen := s.cur.task.ops.length
    let reads (ea : Word) (n : Nat) := s.loadBytes ea n s.ids pend s.cur.tid seen
    let own (t : State) (ea : Word) (l : List Byte) := if t.cur.tid = s.cur.tid then overlay (t.cur.task.ops.take seen) ea.toNat l else l
    (∀ (i : Instr) (n : Nat) (signed : Bool),
      (i, n, signed) ∈ [(.ldB la d b o, 1, false), (.ldH la d b o, 2, false), (.ldW la d b o, 4, false), (.ldD la d b o, 8, false),
        (.ldBs la d b o, 1, true), (.ldHs la d b o, 2, true), (.ldWs la d b o, 4, true)] →
      let ea := s.cur.getS b + offsetOf o n
      s.Quiet (s.cur.keysS [d, b]) → s.cur.namedS d = false → s.Reaches ea n n →
      let value (l : List Byte) : Word :=
        if signed then BitVec.ofInt 64 (BitVec.ofNat (8 * n) (ofBytes l)).toInt else BitVec.ofNat 64 (ofBytes l)
      (∀ t l, reads ea n = .ok t l → l.length = n →
        exec i s = .next ((t.openWindow la (s.cur.destS d) (some [sval (value l)])
          (.load ea n signed false s.cur.tid seen)).afterC id (memLit o))) ∧
      (∀ t, reads ea n = .wait t →
        (la = 0 → exec i s = .next t.waitTurn) ∧
        (la ≠ 0 → exec i s = .next ((t.openWindow la (s.cur.destS d) none (.load ea n signed false s.cur.tid seen)).afterC id (memLit o))))) ∧
    (let ea := s.cur.getS b + offsetOf o 128;
      s.Quiet [.v w.toNat, s.cur.keyS b] → s.cur.namedV w = false →
      (s.Reaches ea 128 4 →
        (∀ t l, reads ea 128 = .ok t l →
          exec (.vld la w b o) s = .next ((t.openWindow la [.v w.toNat] (some [BitVec.ofNat 1024 (ofBytes l)])
            (.load ea 128 false true s.cur.tid seen)).afterC id (memLit o))) ∧
        (∀ t, reads ea 128 = .wait t →
          (la = 0 → exec (.vld la w b o) s = .next t.waitTurn) ∧
          (la ≠ 0 → exec (.vld la w b o) s =
            .next ((t.openWindow la [.v w.toNat] none (.load ea 128 false true s.cur.tid seen)).afterC id (memLit o))))) ∧
      (s.Reaches ea 128 128 → s.cur.inAperture ea = true → s.cur.apertureBank ea ≤ 13 → s.tagWaits ea = false →
        s.lockedAgainst (s.paOf (s.cur.loftAddr ea)) 128 = false →
        (s.tagAt ea = s.cur.xtag.truncate 16 →
          let t := (s.tagSig ea).readSig (s.paOf (s.cur.loftAddr ea)) 128
          exec (.vldTag la w b o) s = .next ((t.openWindow la [.v w.toNat]
            (some [BitVec.ofNat 1024 (ofBytes (overlay (s.cur.task.ops.take seen) ea.toNat (s.bytes (s.cur.loftAddr ea) 128)))])
            (.load ea 128 false true s.cur.tid seen)).afterC id (memLit o))) ∧
        (s.tagAt ea ≠ s.cur.xtag.truncate 16 → Raises (.vldTag la w b o) s { trap := .schedule, faddr := ea }))) ∧
    (∀ (ea : Word) (n : Nat) (t : State) (l : List Byte),
      (s.cur.wordBefore s.ids ea n = true → reads ea n = .wait s) ∧
      (s.cur.wordBefore s.ids ea n = false → s.readSpan ea n pend = .ok t l → t.cur.tid = s.cur.tid → reads ea n = .ok t (own t ea l))) ∧
    (∀ (ea : Word) (n : Nat), s.cur.inAperture ea = true → s.apertureWaits ea = false →
      s.lockedAgainst (s.paOf (s.cur.loftAddr ea)) n = false →
      s.readSpan ea n pend =
        .ok (if s.cur.apertureBank ea < 14 then s.readSig (s.paOf (s.cur.loftAddr ea)) n else s) (s.bytes (s.cur.loftAddr ea) n))

/-- Outside the aperture a piece of a load is read from a valid way, or from the home that its translation names. A piece of a load that hits
a way takes the way's bytes, moves the line to the most recent place of its set and adds its words to the read signature. One that misses
is translated; where the home is HBM, LPDDR or a Granary of this module, belongs to the unit's world and is not locked against it, it
takes the bytes of memory at the local offset, and memory stays. Where the home may not be cached, only the read signature and the count
of the range register that decides the miss change beside what the translation changed; where it may be, the words of the piece fill a
way: with no range register for the address, no line of its page present and a way free in its set, one line is new, with the words, the
lease and the job of the access. That translation and read are one step is the model's choice (log 5). Rests on R62, R73, R166, R167,
R170, R323, R357. -/
def Obligations.CommittedReadsComeFromTheWayOrTheHome : Prop :=
  ∀ (s : State) (va n pend : Nat),
    (∀ b l, s.wayHit va n = some (b, l) →
      let c := s.curCluster
      s.readPiece va n pend = .ok ((s.setCurCluster { c with lines := l :: c.lines.filter (· ≠ l) }).readSig (l.pline + va % 256) n) b) ∧
    (∀ t pa e x, s.wayHit va n = none →
      s.translate (sliceDie s.cur.loc.die) s.cur.job va .read (tsrSup s.cur.tsr) s.cur.secure = (t, .ok pa e x) → t.isLocal pa = true →
      let v := t.leavePlace .read s.cur.loc va
      let a := alignDown pa 4
      let m := (pa + n + 3) / 4 * 4 - a
      let plain (o : Nat) : Prop := (∃ k y, regionOf o = .hbm k y) ∨ (∃ y, regionOf o = .lpddr y) ∨ (∃ k y, regionOf o = .granary k y)
      v.mem = t.mem ∧
      (v.cacheable pa e = false → v.worldOk s.cur.secure (localOf pa) = true → v.lockedAgainst pa n = false → plain (localOf pa) →
        s.readPiece va n pend = .ok ((v.countMiss va).readSig pa n) (v.bytes (localOf pa) n) ∧ ((v.countMiss va).readSig pa n).mem = t.mem) ∧
      (v.cacheable pa e = true → v.worldOk s.cur.secure (localOf a) = true → v.lockedAgainst a m = false → plain (localOf a) →
        let l := v.bytes (localOf a) m
        let k := v.curCluster.fill s.cur.job va (alignDown pa 256) x (pteG e) (wordsIn va l)
        s.readPiece va n pend = .ok ((v.setCurCluster k).readSig pa n) ((l.drop (pa - a)).take n) ∧
          ((v.setCurCluster k).readSig pa n).mem = t.mem)) ∧
    (∀ (c : Cluster) (job pline expiry w : Nat) (g : Bool) (words : List (Nat × Word32)) (ws : List Nat), c.rangeOf job va = none →
      (c.lines.find? fun l => l.holds job va && c.ways.contains l.way) = none →
      (c.ways.filter fun w => !(c.lines.filter fun l => l.set == va / 256 % 2048).any fun l => l.way == w) = w :: ws →
      (c.fill job va pline expiry g words).lines = insertLine false
        { way := w, set := va / 256 % 2048, vtag := va / 2 ^ 19, job := if g then none else some job, pline, expiry, keep := false, words }
        c.lines)

/-- A store or no-return reduction is held by its task: no byte of memory changes until the commit. For every state in which nothing stops it
and whose address passes the checks, each of the four scalar stores, vst and the eight no-return reductions answers the next state in
which the task holds the operation, at the address that the instruction computes, with the register's low bytes little-endian (s0 stores
zero) or the captured operand, and its words count among the buffered ones. Registers and every byte of memory are unchanged. The
instruction that would pass 8192 words takes a capacity event in a speculative task: the task is discarded. Rests on R5, R326, R328, R332,
R333. -/
def Obligations.StoresAreHeldByTheTask : Prop :=
  ∀ (s : State) (d b a : SReg) (w : VReg) (o : MemOff) (y : RegLit) (ty : AType),
    let keysY : List RegKey := match y with
      | .reg r => [s.cur.keyS r]
      | .lit _ => []
    let loneY := match y with
      | .reg _ => false
      | .lit _ => true
    let yv := s.cur.operand y
    let tn := match ty with
      | .w => 4
      | .f32 => 4
      | .d => 8
      | .q => 16
    let size := Config.bufferWords
    let le (n : Nat) (x : Nat) : List Byte := (List.range n).map fun j => BitVec.ofNat 8 (x / 256 ^ j)
    ∀ (i : Instr) (n align : Nat) (ea : Word) (op : TaskOp) (ks : List RegKey) (lone : Bool),
      (i, n, align, ea, op, ks, lone) ∈ (
        [(.stB d b o, 1), (.stH d b o, 2), (.stW d b o, 4), (.stD d b o, 8)].map (fun p =>
          let ea := s.cur.getS b + offsetOf o p.2
          (p.1, p.2, p.2, ea, TaskOp.store ea (le p.2 (s.cur.getS d).toNat), s.cur.keysS [d, b], memLit o)) ++
        [(let ea := s.cur.getS b + offsetOf o 128
          (.vst w b o, 128, 4, ea, TaskOp.store ea (le 128 (s.cur.getV w).toNat), [.v w.toNat, s.cur.keyS b], memLit o))] ++
        [(.aaddN a y ty, AtomOp.add), (.aandN a y ty, .and), (.aorN a y ty, .or), (.axorN a y ty, .xor), (.amaxN a y ty, .max),
          (.aminN a y ty, .min), (.amaxuN a y ty, .maxu), (.aminuN a y ty, .minu)].map (fun p =>
          (p.1, tn, tn, s.cur.getS a, TaskOp.reduce (s.cur.getS a) p.2 ty yv, s.cur.keyS a :: keysY, loneY)) :
        List (Instr × Nat × Nat × Word × TaskOp × List RegKey × Bool)) →
      s.Quiet ks → s.Reaches ea n align →
      let words := s.cur.wordsWith (vaWords ea n)
      (words.length ≤ size →
        exec i s = .next (s.afterC (fun u => { u with task := { u.task with ops := u.task.ops ++ [op], words } }) lone) ∧
        (s.afterC (fun u => { u with task := { u.task with ops := u.task.ops ++ [op], words } }) lone).mem = s.mem) ∧
      (size < words.length → s.cur.task.nonspec = false → exec i s = .next s.capacityEvent)

/-- vst.tag, adr, lstat, ltag, sbind, cpf and cinv have their effects on tags, registers and ways. For every state in which nothing stops it,
vst.tag to a granule of banks 0 to 13 answers the next state in which the task holds the 128 data bytes and a write of XTAG[15:0] to the
granule's tag, an earlier tag write to that granule being replaced; the granule counts as one buffered word more. Memory, the tags and
every register are unchanged. An address outside banks 0 to 13 of the aperture raises LOFT_ACCESS. For every state in which nothing stops
them: adr writes base plus offset, its base 0 being the address of the bundle, with no check; lstat writes a configuration word, the word
of a range register or the number of banks in CACHE mode; ltag writes the tag of the granule; sbind writes SBIND where the binding is
allowed. cinv clears the words of its span in the ways of the cluster and cpf fills them piece by piece; a length outside 1 to 65536, an
address that is no multiple of 4 or not canonical, and an lstat index above 24 raise ILLEGAL_OPERAND. Nothing else changes, but for what a
translation of cpf changes. Rests on R173, R177, R326, R158, R181, R183, R184, R185, R214. -/
def Obligations.TagsAddressesAndCacheControl : Prop :=
  (∀ (s : State) (w : VReg) (b : SReg) (o : MemOff),
    let ea := s.cur.getS b + offsetOf o 128
    let u := s.cur
    s.Quiet [.v w.toNat, s.cur.keyS b] → s.Reaches ea 128 128 →
    (s.cur.inAperture ea = true → s.cur.apertureBank ea ≤ 13 →
      let words := u.wordsWith (vaWords ea 128 ++ [2 ^ 60 + u.apertureBank ea * 128 + u.granule ea])
      words.length ≤ Config.bufferWords →
      exec (.vstTag w b o) s = .next (s.afterC (fun u => { u with task := { u.task with
        ops := u.task.ops.filter (fun op => match op with
          | .tag va _ => !(u.apertureBank va == u.apertureBank ea && u.granule va == u.granule ea)
          | .store _ _ => true
          | .reduce _ _ _ _ => true) ++
          [.store ea ((List.range 128).map fun j => BitVec.ofNat 8 ((u.getV w).toNat / 256 ^ j)), .tag ea (u.xtag.truncate 16)]
        words } }) (memLit o))) ∧
    ((s.cur.inAperture ea = false ∨ 13 < s.cur.apertureBank ea) → Raises (.vstTag w b o) s { trap := .loftAccess, faddr := ea })) ∧
  (∀ (s : State) (d a b : SReg) (o : MemOff), tsrPp s.cur.tsr = false →
    let x := s.cur.getS a
    let y := s.cur.getS b
    let off : Word := match o with
      | .short v => v.signExtend 64
      | .lit v => v.signExtend 64
    (s.touches (s.cur.keysS [d, b]) = false → s.cur.namedS d = false →
      exec (.adr d b o) s = .next (s.afterC (fun u => u.setS d ((if b = 0 then s.cur.pc else y) + off)) (memLit o))) ∧
    (s.touches (s.cur.keysS [d, a]) = false → s.cur.namedS d = false →
      (x.toNat < 16 → exec (.lstat d a) s = .next (s.afterC fun u => u.setS d (s.curCluster.configOf x.toNat))) ∧
      (16 ≤ x.toNat → x.toNat < 24 → exec (.lstat d a) s = .next (s.afterC fun u => u.setS d
        (match Sparse.find? s.curCluster.ranges (x.toNat - 16) with
          | some r => r.word
          | none => 0))) ∧
      (x.toNat = 24 → exec (.lstat d a) s = .next (s.afterC fun u => u.setS d (word ((List.range 14).filter fun j => modeOf (s.curCluster.configOf j) == .cache).length))) ∧
      (s.Reaches x 128 128 → s.cur.inAperture x = true → s.cur.apertureBank x ≤ 13 → s.tagWaits x = false →
        exec (.ltag d a) s = .next ((s.tagSig x).afterC fun u => u.setS d ((s.tagAt x).zeroExtend 64)))) ∧
    (s.touches [s.cur.keyS a] = false → s.bindOk s.cur x = true → (s.partialOut && outputChanges s.cur.sbind x) = false →
      exec (.sbind a) s = .next (s.afterC fun u => { u with sbind := x })) ∧
    (s.touches (s.cur.keysS [a, b]) = false → 1 ≤ y.toNat → y.toNat ≤ 65536 → x.toNat % 4 = 0 → x.toNat < 2 ^ 56 →
      exec (.cinv a b) s = .next ((s.setCurCluster (s.curCluster.invalidate s.cur x.toNat y.toNat)).afterC id) ∧
      exec (.cpf a b) s = .next (((pieces256 x.toNat y.toNat).foldl (fun (t : State) p =>
        if t.cur.inAperture (word p.1) then t
        else t.prefetch { loc := t.cur.loc, job := t.cur.job, supervisor := tsrSup t.cur.tsr, secure := t.cur.secure, va := p.1,
                          size := (p.2 + 3) / 4 * 4 }) s).afterC id)) ∧
    (y.toNat = 0 ∨ 65536 < y.toNat ∨ x.toNat % 4 ≠ 0 ∨ 2 ^ 56 ≤ x.toNat →
      Raises (.cinv a b) s (s.bundleTrap .illegalOperand) ∧ Raises (.cpf a b) s (s.bundleTrap .illegalOperand)) ∧
    (24 < x.toNat → Raises (.lstat d a) s (s.bundleTrap .illegalOperand)))

/-- The checks of an instruction come in the order of their codes, and those of an access in their order. Where nothing else stops a scalar or
vector load, a store, a no-return reduction or a returning atomic of 32 bits, an address with a nonzero bit in [63:56] raises
ADDRESS_RANGE, one that is canonical and not aligned raises MISALIGNED, and one in a part of the aperture that the unit may not use raises
LOFT_ACCESS, each with FADDR equal to the address and with no effect on memory or on the task. For every state: the supervisor
instructions rte, tkill, ptw and frep, and mfsr and mtsr of EPC and CAUSE, raise PRIVILEGE at user privilege whatever else holds. An
instruction that takes no formats raises DANGLING_PREFIX with a prefix pending (adding, loading and popping are named here); with none
pending, one that names a register which is still pending raises LOOKAHEAD_VIOLATION; and one whose destination is in the live-in mask of
the task, with everything else in order, raises LIVE_IN. Each is raised at the bundle, and the instruction has no effect. Rests on R175,
R394, R41, R46, R197, R225, R393, R400. -/
def Obligations.ChecksOfInstructionsAndAccesses : Prop :=
  (∀ (s : State) (la : BitVec 4) (d b : SReg) (w : VReg) (o : MemOff) (i : Instr) (n align : Nat) (ea : Word) (ks : List RegKey),
    (i, n, align, ea, ks) ∈ (
      [(.ldB la d b o, 1), (.ldH la d b o, 2), (.ldW la d b o, 4), (.ldD la d b o, 8), (.ldBs la d b o, 1), (.ldHs la d b o, 2),
        (.ldWs la d b o, 4), (.stB d b o, 1), (.stH d b o, 2), (.stW d b o, 4), (.stD d b o, 8)].map (fun p =>
        (p.1, p.2, p.2, s.cur.getS b + offsetOf o p.2, s.cur.keysS [d, b])) ++
      [(.vld la w b o, 128, 4, s.cur.getS b + offsetOf o 128, [.v w.toNat, s.cur.keyS b]),
        (.vst w b o, 128, 4, s.cur.getS b + offsetOf o 128, [.v w.toNat, s.cur.keyS b]),
        (.aaddN b (.reg d) .w, 4, 4, s.cur.getS b, s.cur.keysS [b, d]),
        (.aadd la d b (.reg d) .w, 4, 4, s.cur.getS b, s.cur.keysS [d, b, d])] :
      List (Instr × Nat × Nat × Word × List RegKey)) →
    s.Quiet ks →
    (2 ^ 56 ≤ ea.toNat → Raises i s { trap := .addressRange, faddr := ea }) ∧
    (ea.toNat < 2 ^ 56 → ea.toNat % align ≠ 0 → Raises i s { trap := .misaligned, faddr := ea }) ∧
    (ea.toNat < 2 ^ 56 → ea.toNat % align = 0 → s.loftRefused ea n = true → Raises i s { trap := .loftAccess, faddr := ea })) ∧
  (∀ (s : State) (d a b : SReg) (n : BitVec 16) (la : BitVec 4) (o : MemOff) (q : QReg),
    (tsrSup s.cur.tsr = false → ∀ i ∈ ([.rte, .tkill n, .ptw d a b, .frep d a b, .mfsr d .epc, .mfsr d .cause, .mtsr a .epc, .mtsr a .cause] :
      List Instr), Raises i s (s.bundleTrap .privilege)) ∧
    (tsrPp s.cur.tsr = true → ∀ i ∈ ([.add d a b 0, .sub d a b 0, .li d n, .ldD la d b o, .stD d b o, .qpop la d q, .div la d a (.reg b)] :
      List Instr), Raises i s (s.bundleTrap .danglingPrefix)) ∧
    (tsrPp s.cur.tsr = false →
      (s.touches (s.cur.keysS [d, a, b]) = true → Raises (.add d a b 0) s (s.bundleTrap .lookaheadViolation)) ∧
      (s.touches (s.cur.keysS [d, b]) = true → Raises (.ldD la d b o) s (s.bundleTrap .lookaheadViolation))) ∧
    (s.Quiet (s.cur.keysS [d, a, b]) → s.cur.namedS d = true →
      Raises (.add d a b 0) s (s.bundleTrap .liveIn) ∧
      (s.Reaches (s.cur.getS b + offsetOf o 8) 8 8 → Raises (.ldD la d b o) s (s.bundleTrap .liveIn))))

/-- A returning atomic commits the task, then reads and writes its operand indivisibly and returns the old value. For every state in which
nothing stops it and whose commit ends in t, each of the ten returning atomics of type w, d or f32 answers the next state that follows
from one indivisible access: where the access is performed at once, the old value, zero-extended, is the destination value (written with a
lookahead of 0, else pending), and where it must wait or is at the hub the destination stays pending. An access to the aperture is
performed at the bank: memory there holds the new value of R329 (or is unchanged for a failed compare), every other byte is as before, and
the destination of acas.q is a register pair. Rests on R329, R330, R331, R346. -/
def Obligations.AtomicsReturnTheOldValue : Prop :=
  ∀ (s t : State) (la : BitVec 4) (d a : SReg) (b : RegLit) (ty : AType) (i : Instr) (op : AtomOp),
    (i, op) ∈ [(.aswap la d a b ty, .swap), (.acas la d a b ty, .cas), (.aadd la d a b ty, .add), (.aand la d a b ty, .and),
      (.aor la d a b ty, .or), (.axor la d a b ty, .xor), (.amax la d a b ty, .max), (.amin la d a b ty, .min),
      (.amaxu la d a b ty, .maxu), (.aminu la d a b ty, .minu)] →
    let ea := s.cur.getS a
    let lone := match b with
      | .reg _ => false
      | .lit _ => true
    let keysB : List RegKey := match b with
      | .reg r => [s.cur.keyS r]
      | .lit _ => []
    let n := if ty = .d then 8 else 4
    let y : BitVec 128 := (s.cur.operand b).zeroExtend 128
    let cmp : BitVec 128 := (s.cur.getS d).zeroExtend 128
    let c : Cont := .atomic op ty la d ea y cmp
    ty ≠ .q → s.Quiet (s.cur.keyS d :: s.cur.keyS a :: keysB) → s.cur.namedS d = false → s.Reaches ea n n → s.CommitsTo c lone t →
    (∀ v old, t.access t.ids op ty ea y cmp = .ok v old →
      exec i s = .next ((v.openWindow la (t.cur.destS d) (some [sval (word old)]) (.atomic op ty ea y cmp)).afterC id lone)) ∧
    (∀ v, t.access t.ids op ty ea y cmp = .wait v →
      exec i s = .next ((v.openWindow la (t.cur.destS d) none (.atomic op ty ea y cmp)).afterC id lone)) ∧
    (∀ v, t.access t.ids op ty ea y cmp = .atHub v →
      exec i s = .next ((v.openWindow la (t.cur.destS d) none (.far ea n)).afterC id lone)) ∧
    (t.cur.inAperture ea = true → t.apertureWaits ea = false → t.cur.orderedBefore t.ids = false → t.cur.wordBefore t.ids ea n = false →
      let pa := t.paOf (t.cur.loftAddr ea)
      t.lockedAgainst pa n = false →
      let r := t.homeAtomic pa n fun old => op.apply ty old y.toNat cmp.toNat
      t.access t.ids op ty ea y cmp = .ok r.1 r.2 ∧
      exec i s = .next ((r.1.openWindow la (t.cur.destS d) (some [sval (word r.2)]) (.atomic op ty ea y cmp)).afterC id lone))

/-- The new memory value of each atomic is that of its table, and acas.q compares and swaps a register pair. For a w or d operand of n bits,
with old and y taken modulo 2^n: swap writes y, add the sum modulo 2^n, and, or and xor the bits, max and min the signed choice, maxu and
minu the unsigned one, and cas writes y where old equals the compare value and nothing otherwise. For every state in which nothing stops
it and whose commit ends in t, acas.q on even pairs below 31 to an aperture address that nothing locks performs one 16-byte compare and
swap at the bank and gives the old 128 bits to s[d] and s[d + 1]. An odd d or b raises ILLEGAL_OPERAND. Rests on R329, R330. -/
def Obligations.AtomicOperationsAndPairAtomics : Prop :=
  (∀ (old y cmp : Nat) (ty : AType) (n : Nat), (ty, n) ∈ [(AType.w, 32), (AType.d, 64)] → old < 2 ^ n →
    let o := BitVec.ofNat n old
    let v := BitVec.ofNat n y
    ∀ (op : AtomOp) (r : BitVec n),
      (op, r) ∈ [(.swap, v), (.add, o + v), (.and, o &&& v), (.or, o ||| v), (.xor, o ^^^ v),
        (.max, if o.toInt ≤ v.toInt then v else o), (.min, if v.toInt ≤ o.toInt then v else o),
        (.maxu, if old ≤ v.toNat then v else o), (.minu, if v.toNat ≤ old then v else o)] →
      op.apply ty old y cmp = some r.toNat ∧
      (AtomOp.cas.apply ty old y cmp = if old = cmp % 2 ^ n then some v.toNat else none)) ∧
  (∀ (s t : State) (la : BitVec 4) (d a b : SReg),
    let ea := s.cur.getS a
    let y : BitVec 128 := s.cur.getS (b + 1) ++ s.cur.getS b
    let cmp : BitVec 128 := s.cur.getS (d + 1) ++ s.cur.getS d
    (tsrPp s.cur.tsr = false → d.toNat % 2 = 1 ∨ b.toNat % 2 = 1 →
      Raises (.acas la d a (.reg b) .q) s (s.bundleTrap .illegalOperand)) ∧
    (d.toNat % 2 = 0 → b.toNat % 2 = 0 → s.Quiet (s.cur.keysS [d, d + 1, a, b, b + 1]) → s.cur.namedS d = false →
      s.cur.namedS (d + 1) = false → s.Reaches ea 16 16 → s.CommitsTo (.atomic .cas .q la d ea y cmp) false t →
      t.cur.inAperture ea = true → t.apertureWaits ea = false → t.cur.orderedBefore t.ids = false →
      t.cur.wordBefore t.ids ea 16 = false → t.lockedAgainst (t.paOf (t.cur.loftAddr ea)) 16 = false →
      let r := t.homeAtomic (t.paOf (t.cur.loftAddr ea)) 16 fun old => if old = cmp.toNat then some y.toNat else none
      exec (.acas la d a (.reg b) .q) s = .next ((r.1.openWindow la [t.cur.keyS d, t.cur.keyS (d + 1)]
        (some [sval (word r.2), sval (word (r.2 / 2 ^ 64))]) (.atomic .cas .q ea y cmp)).afterC id)))

/-- An SC operation commits the task and is announced with the window of its TIME; its destination is pending until it is performed. For every
state in which nothing stops it and whose commit ends in t, each of the five SC operations to an aperture address answers the next state
in which the operation is announced in the order of its module and place: its window is TIME divided by 64 (device) or 256 (domain), it
may be performed no earlier than 48 or 1000 after the end of that window, and the destination, none for sc.st, is pending with no value.
One of the domain is told to every module of the route table, with its place in the order and with its home, this module. No byte of
memory changes until it is performed. Rests on R334, R335. -/
def Obligations.SequentiallyConsistentOperationsAreAnnounced : Prop :=
  ∀ (s t : State) (la : BitVec 4) (d a : SReg) (b : RegLit) (m : ScScope) (z : ScSize),
    let ea := s.cur.getS a
    let n := if z = .w then 4 else 8
    let win := if m = .device then 64 else 256
    let delay := if m = .device then 48 else 1000
    let keysB : List RegKey := match b with
      | .reg r => [s.cur.keyS r]
      | .lit _ => []
    let loneB := match b with
      | .reg _ => false
      | .lit _ => true
    ∀ (i : Instr) (op : ScOp) (l : BitVec 4) (r : SReg) (y : Word) (lone : Bool),
      (i, op, l, r, y, lone) ∈ [(.scLd la d a m z, .ld, la, d, 0, false), (.scSt a b m z, .st, 0, 0, s.cur.operand b, loneB),
        (.scSwap la d a b m z, .swap, la, d, s.cur.operand b, loneB), (.scCas la d a b m z, .cas, la, d, s.cur.operand b, loneB),
        (.scAdd la d a b m z, .add, la, d, s.cur.operand b, loneB)] →
      s.Quiet (s.cur.keyS 0 :: s.cur.keyS d :: s.cur.keyS a :: keysB) → s.cur.namedS r = false → s.Reaches ea n n →
      s.CommitsTo (.sc op m z l r ea y (s.cur.getS r)) lone t → t.cur.inAperture ea = true → t.apertureWaits ea = false →
      (∀ x ∈ t.announced, x.pend ≠ t.ids) →
      let w := t.time.toNat / win
      let entry : ScAnn :=
        { window := w, scope := m, module := t.modid.toNat, loc := t.cur.loc, op, z, pa := t.paOf (t.cur.loftAddr ea), y
          cmp := s.cur.getS r, ready := (w + 1) * win + delay, pend := t.ids, ea, known := true, home := some t.modid.toNat }
      let hub := hubOfDie t.cur.loc.die
      let told (n : ScNews) : List (Nat × PktType × Packet) :=
        if m = .device then [] else ((t.hub hub).routes.filter fun e => e.2.getLsbD 63 && e.1 != t.modid.toNat).map fun e =>
          (hub, .sc, { dst := e.1, src := t.modid.toNat, sdie := t.cur.loc.die, lseq := 0, exp := 0, addr := 0, data := newsData n entry })
      let sent := t.outbox ++ told .announced ++ told (.home t.modid.toNat)
      exec i s = .next ((State.openWindow { t with announced := t.announced ++ [entry], outbox := sent } l
        (if op = ScOp.st then [] else t.cur.destS r) none (.far ea n)).afterC id lone)

/-- tcommit, tbegin, at.c, gang of width 1, split, lrng, lhz and the fences act once the commit has ended. For every state in which nothing
stops them and whose commit ends in t: tcommit and tbegin leave t past their slot, and so does at.c, whose commit it notes for a debug
stop; fence leaves t past its slot, fence.i also clears the words of foreign homes from the ways of the cluster, and the forms with E
first wait until every command that the unit released has reported and then clear what the engines have written; lrng writes its range
register with a count of 0, unless one whose commit became visible later has; lhz writes the horizon of the change; gang 1 leaves a gang
of one, whose task restarts behind it. split lets a member leave its gang at the end of the bundle, without a commit. Rests on R81, R183,
R220, R221, R222, R223, R227, R337. -/
def Obligations.CommittingInstructionsMoveOn : Prop :=
  ∀ (s t : State) (d a b : SReg), tsrPp s.cur.tsr = false →
    let x := s.cur.getS a
    let y := s.cur.getS b
    (s.CommitsTo .tcommit false t → exec .tcommit s = .next (t.afterC id)) ∧
    (s.touches (s.cur.keysS [a, b]) = false → x.toNat < 2 ^ 32 → s.cur.task.tstamp.toNat ≤ x.toNat → y.getLsbD 0 = false →
      y.toNat < 2 ^ 62 → s.CommitsTo (.tbegin (x.truncate 32) y) false t → exec (.tbegin a b) s = .next (t.afterC id)) ∧
    (s.touches [s.cur.keyS a] = false →
      (s.CommitsTo (.atC x) false t → exec (.atTimeC a) s = .next (t.modCur fun u => { u.pastC false with atc := true })) ∧
      (x = 1 → s.cur.gang = 1 → s.CommitsTo (.gang 1) false t →
        exec (.gang a) s = .next (t.afterC fun u => { u with task := { u.task with restartPc := u.pc, restartA := true } }))) ∧
    exec .split s = .next (s.afterC fun u => { u with splitAt := if u.gang = 1 then none else some u.pc }) ∧
    (s.touches (s.cur.keysS [a, b]) = false → x.toNat ≤ 7 → rangeOk y = true → s.CommitsTo (.lrng x.toNat y) false t →
      let later := ((Sparse.find? t.curCluster.ranges x.toNat).map fun r => r.order).getD 0
      let reg : Machine.Range := { word := y, job := t.cur.job, misses := 0, order := t.cur.visibleAt }
      (later ≤ t.cur.visibleAt → exec (.lrng a b) s =
        .next ((t.setCurCluster { t.curCluster with ranges := Sparse.put t.curCluster.ranges x.toNat reg }).afterC id)) ∧
      (t.cur.visibleAt < later → exec (.lrng a b) s = .next (t.afterC id))) ∧
    (s.touches (s.cur.keysS [d, a]) = false → s.cur.namedS d = false → x.toNat ≤ 15 →
      (s.CommitsTo (.lhz false d x.toNat) false t → exec (.lhzM d a) s = .next (t.afterC fun u =>
        u.setS d (t.time + word (leaseOf x.toNat + 2 * Config.epsModule)))) ∧
      (s.CommitsTo (.lhz true d x.toNat) false t → exec (.lhzD d a) s = .next (t.afterC fun u =>
        u.setS d (t.time + word (leaseOf x.toNat + 2 * Config.epsDomain + Config.fabricDrain))))) ∧
    (
      let far (v : State) : State := v.setCurCluster (v.curCluster.clearWords fun w => !v.isLocal w || isHost w)
      let eng (v : State) : State := v.setCurCluster v.curCluster.applyClears
      let run (u : Machine.Unit) : Machine.Unit := { u with wait := .run }
      (s.CommitsTo (.fence false false) false t → exec .fence s = .next (t.afterC run)) ∧
      (s.CommitsTo (.fence false true) false t → exec .fenceI s = .next ((far t).afterC run)) ∧
      (s.CommitsTo (.fence true false) false t →
        (t.cur.reported = true → exec .fenceE s = .next ((eng t).afterC run)) ∧
        (t.cur.reported = false → exec .fenceE s = .next (t.modCur fun u => { u with wait := .fenceE false, turn := .waited }))) ∧
      (s.CommitsTo (.fence true true) false t →
        (t.cur.reported = true → exec .fenceEi s = .next ((far (eng t)).afterC run)) ∧
        (t.cur.reported = false → exec .fenceEi s = .next (t.modCur fun u => { u with wait := .fenceE true, turn := .waited }))))

/-- The commit of a task that holds nothing ends at once: TID counts it, and the next task begins where its instruction leaves it. Where the
task holds no store, reduction, push or lock, has not begun to commit, awaits no access of its own, no unit of the launch has a lower
timestamp, and the T of an at.c has come, a commit for any instruction ends in the same turn. TID is one higher, and the new task is
empty. Its timestamp and mask are those of a tbegin; after a return the mask keeps s0 to s7 and bits 32 up; otherwise both are kept. It
restarts where the unit stands after a return and for a waiting gang, else past the instruction, as a lone word or a C-slot. Every
register, the system registers but TID, and memory are unchanged. Rests on R218, R222, R224, R227, R316, R321. -/
def Obligations.CommitOfATaskWithoutStores : Prop :=
  ∀ (s : State) (c : Cont) (lone : Bool), s.cur.visible = false → s.cur.prepared = none → s.cur.task.ops = [] → s.cur.task.words = [] →
    s.cur.task.wsig = 0 → s.cur.task.held = [] → s.cur.task.locked = [] → s.timestampOk = true → s.cur.accessBefore = false →
    (∀ T, c = .atC T → T.toNat ≤ s.time.toNat) → s.holdsToken = false → s.performsOut = false →
    ∃ t, s.CommitsTo c lone t ∧ t.cur.tid = s.cur.tid + 1 ∧ t.cur.task.ops = [] ∧
      t.cur.task.held = [] ∧ t.cur.task.popped = [] ∧ t.cur.task.rsig = 0 ∧
      (∀ ts m, c = .tbegin ts m → t.cur.task.tstamp = ts ∧ t.cur.task.mask = m) ∧
      (c = .ret → t.cur.task.tstamp = s.cur.task.tstamp ∧ ∀ j, j < 64 →
        t.cur.task.mask.getLsbD j = (s.cur.task.mask.getLsbD j && (decide (j < 8) || decide (32 ≤ j)))) ∧
      (c ≠ .ret → (∀ ts m, c ≠ .tbegin ts m) → t.cur.task.tstamp = s.cur.task.tstamp ∧ t.cur.task.mask = s.cur.task.mask) ∧
      (c = .ret ∨ (∃ n, c = .gang n) → t.cur.task.restartPc = s.cur.pc ∧ t.cur.task.restartA = s.cur.aslot) ∧
      (c ≠ .ret → (∀ n, c ≠ .gang n) →
        (lone = false → t.cur.task.restartPc = s.cur.pc ∧ t.cur.task.restartA = true) ∧
        (lone = true → t.cur.task.restartPc = (s.cur.pastC true).pc ∧ t.cur.task.restartA = false)) ∧
      t.cur.task.startDepth = s.cur.depth ∧ t.cur.task.startWsp = s.cur.wsp ∧ t.cur.regs = s.cur.regs ∧ t.cur.v = s.cur.v ∧ t.cur.k = s.cur.k ∧
      t.cur.p = s.cur.p ∧ t.cur.tsr = s.cur.tsr ∧ t.cur.pc = s.cur.pc ∧ t.cur.npc = s.cur.npc ∧ t.cur.aslot = s.cur.aslot ∧
      t.cur.depth = s.cur.depth ∧ t.cur.pend = s.cur.pend ∧ t.mem = s.mem ∧ t.others = s.others

/-- The visible phase of a commit: a held store, reduction or tag write to own scratch reaches it, and held items are released in order. For
every state in whose canonical memory a unit of a module die commits a task with one operation and no lock, against no other lock and no
non-speculative task: a store to the own cluster's scratch gives its bytes at its address and every other byte as before; a reduction
gives the new value of its operation there; a tag write gives its granule the tag and leaves memory as it was. The words of the write
signature leave the ways of every cluster, the tasks of the own cluster that have read one of them are marked, TID is one higher, the next
task is empty, and nothing stays locked. A task with held items alone releases them: a signal adds to its counter, two words of q11 join
the record in program order, a copy enters the slot's queue, a rope command its engine's, a matrix command the core's order, and a spawn
waits as the next unit of its launch; memory is unchanged. Rests on R163, R177, R194, R228, R230, R319, R320, R323, R324, R390. -/
def Obligations.VisiblePhaseOfACommit : Prop :=
  ∀ (s : State) (c : Cont) (lone : Bool), s.MemOk → s.cur.loc.die < 6 → s.cur.loc.cluster < 20 → s.cur.visible = false → s.cur.prepared = none →
    s.cur.task.wsig = 0 → s.cur.task.locked = [] → s.timestampOk = true → s.cur.accessBefore = false → s.cur.cancelled = false →
    (∀ T, c = .atC T → T.toNat ≤ s.time.toNat) → s.holdsToken = false → s.performsOut = false →
    (∀ u ∈ s.others, u.task.nonspec = false) →
    let done (t : State) : Prop :=
      t.cur.tid = s.cur.tid + 1 ∧ t.cur.visible = false ∧ t.cur.task.ops = [] ∧ t.cur.task.held = [] ∧ t.cur.task.words = [] ∧
      t.cur.task.locked = [] ∧ t.locks = s.locks ∧ t.cur.regs = s.cur.regs ∧ t.cur.pc = s.cur.pc
    let cleared (t : State) (g : BitVec 1024) : Prop :=
      t.others = s.others.map (fun u => if u.clusterId = s.cur.clusterId then u.markBy g else u) ∧
      ((∀ d k w, c ≠ .lbank d k w) → ∀ k, (t.cluster k).lines = ((s.cluster k).clearWords (inSig g)).lines)
    (∀ va, s.cur.inAperture va = true → s.apertureWaits va = false → s.cur.task.held = [] →
      let a := s.cur.loftAddr va
      (∀ b, s.cur.task.ops = [.store va b] → s.lockedAgainst (s.paOf a) b.length = false →
        ∃ t, s.CommitsTo c lone t ∧ done t ∧ cleared t (sigSpan (s.paOf a) b.length) ∧ t.MemOk ∧
          (∀ (i : Nat) (h : i < b.length), t.byte (a + i) = b[i]) ∧ ∀ x, x < a ∨ a + b.length ≤ x → t.byte x = s.byte x) ∧
      (∀ op ty y x, s.cur.task.ops = [.reduce va op ty y] → s.lockedAgainst (s.paOf a) (typeBytes ty) = false →
        op.apply ty (ofBytes (s.bytes a (typeBytes ty))) y.toNat 0 = some x →
        ∃ t, s.CommitsTo c lone t ∧ done t ∧ cleared t (sigSpan (s.paOf a) (typeBytes ty)) ∧ t.MemOk ∧
          (∀ (i : Nat), i < typeBytes ty → t.byte (a + i) = BitVec.ofNat 8 (x / 256 ^ i)) ∧
          ∀ z, z < a ∨ a + typeBytes ty ≤ z → t.byte z = s.byte z) ∧
      (∀ x, s.cur.task.ops = [.tag va x] →
        ∃ t, s.CommitsTo c lone t ∧ done t ∧ cleared t (sigSpan (s.paOf (alignDown a 4096)) 4) ∧ t.mem = s.mem ∧
          (t.cluster s.cur.clusterId).tags = Sparse.set 0 (s.cluster s.cur.clusterId).tags
            (s.cur.apertureBank va * 128 + (va.toNat - s.cur.lap.toNat) % 0x8_0000 / 4096) x)) ∧
    (s.cur.task.ops = [] → ∀ l, s.cur.task.held = l → ∃ t, s.CommitsTo c lone t ∧
      (∀ k n, l = [.signal k n] → done t ∧ t.mem = s.mem ∧
        bits (t.counter k).word 62 0 = (bits (s.counter k).word 62 0 + n.toNat) % 2 ^ 63 ∧
        (t.counter k).word.getLsbD 63 = (s.counter k).word.getLsbD 63 ∧ ∀ j, j ≠ k → t.counter j = s.counter j) ∧
      (∀ x y i j, l = [.word 11 i x, .word 11 j y] → done t ∧ t.mem = s.mem ∧ t.cur.q11 = s.cur.q11 ++ [x, y]) ∧
      (∀ r, l = [.copy r] → done t ∧ t.mem = s.mem ∧ t.cur.copies = s.cur.copies ++ [{ r with released := s.time }]) ∧
      (∀ r, l = [.rope r] → done t ∧ t.mem = s.mem ∧
        (t.die s.cur.loc.die).q5 = insertRope { r with order := s.ids, cancelled := false } (s.die s.cur.loc.die).q5) ∧
      (∀ m, l = [.matrix m] → done t ∧ t.mem = s.mem ∧ ∃ id, t.curCore.q1 = s.curCore.q1 ++ [{ m with id, cancelled := false }]) ∧
      (∀ r x, l = [.spawn r] → s.curLaunch = some x → done t ∧ t.mem = s.mem ∧
        t.waiting = s.waiting ++ [{ launch := x.num, unit := x.nu + x.spawned, spawn := some r }]))

/-- tend and exit commit and wait to retire, tabort discards and restarts, tspawn holds its record and tstamp reads. For every state in which
nothing stops them: tend and exit, once every incomplete instruction is ready, end in the state t of their commit with the unit waiting to
retire with code 0 or s[a][15:0], and use up the turn while one is not ready. tabort answers the state in which the task is discarded and
the unit stands at its restart point, with depth, stack pointer and TSR[8:1] as they were when the task began, no held item or store, and
every byte of memory unchanged; tabort.o leaves the unit waiting for its non-speculative run as well. Both raise ILLEGAL_OPERAND in a non-
speculative task. For every state in which nothing stops it and whose task has room for one held item more, tspawn answers the next state
in which the task holds the record of entry s[a], timestamp s[b], mask s[d], the values of s1 to s7 and those of s24 to s31, and nothing
else has changed; a timestamp below that of the task or above 32 bits, or a mask with a reserved bit, raises ILLEGAL_OPERAND. With 64
items held a speculative task takes a capacity event and a non-speculative one the CAPACITY trap. tstamp writes the lowest uncommitted
timestamp of the launch. Rests on R230, R231, R327, R328, R228, R229, R326. -/
def Obligations.TaskEndsAbortsSpawnsAndStamps : Prop :=
  (∀ (s t : State) (a : SReg), tsrPp s.cur.tsr = false →
    (∀ (i : Instr) (code : BitVec 16) (ks : List RegKey),
      (i, code, ks) ∈ [(.tend, 0, []), (.exit a, (s.cur.getS a).truncate 16, [s.cur.keyS a])] → s.touches ks = false →
      (s.cur.allReady = true → (s.setCur s.cur.completeReady).CommitsTo (.exit code) false t →
        exec i s = .next (t.modCur fun u => { u with wait := .retire code false, turn := .waited })) ∧
      (s.cur.allReady = false → exec i s = .next s.waitTurn)) ∧
    (s.cur.task.nonspec = false →
      ∃ n, exec .tabort s = .next n ∧
        exec .tabortO s = .next (n.modCur fun u => { u with wait := .nonspec, nonspecSince := s.time }) ∧
        n.cur.pc = s.cur.task.restartPc ∧ n.cur.npc = s.cur.task.restartPc + 8 ∧ n.cur.aslot = s.cur.task.restartA ∧
        n.cur.depth = s.cur.task.startDepth ∧ n.cur.wsp = s.cur.task.startWsp ∧ bits n.cur.tsr 8 1 = s.cur.task.flags.toNat ∧
        tsrPp n.cur.tsr = false ∧ n.cur.task.ops = [] ∧ n.cur.task.held = [] ∧ n.cur.task.popped = [] ∧ n.cur.task.rsig = 0 ∧
        n.cur.tid = s.cur.tid ∧ n.cur.wait = .run ∧ n.mem = s.mem) ∧
    (s.cur.task.nonspec = true →
      Raises .tabort s (s.bundleTrap .illegalOperand) ∧ Raises .tabortO s (s.bundleTrap .illegalOperand))) ∧
  (∀ (s : State) (d a b : SReg), tsrPp s.cur.tsr = false →
    let e := s.cur.getS a
    let ts := s.cur.getS b
    let m := s.cur.getS d
    let r : SpawnRec := { entry := e, ts := ts.truncate 32, mask := m, lo := ([1, 2, 3, 4, 5, 6, 7] : List SReg).map s.cur.getS,
                          out := ([24, 25, 26, 27, 28, 29, 30, 31] : List SReg).map s.cur.getS }
    (s.touches (s.cur.keysS [d, a, b, 24, 25, 26, 27, 28, 29, 30, 31, 1, 2, 3, 4, 5, 6, 7]) = false → ts.toNat < 2 ^ 32 →
      s.cur.task.tstamp.toNat ≤ ts.toNat → m.getLsbD 0 = false → m.toNat < 2 ^ 62 → e.toNat % 8 = 0 → e.toNat < 2 ^ 56 →
      (s.cur.task.held.length < 64 → exec (.tspawn d a b) s = .next (s.afterHold (.spawn r))) ∧
      (64 ≤ s.cur.task.held.length → s.cur.task.nonspec = false → exec (.tspawn d a b) s = .next s.capacityEvent) ∧
      (64 ≤ s.cur.task.held.length → s.cur.task.nonspec = true → Raises (.tspawn d a b) s (s.bundleTrap .capacity))) ∧
    (2 ^ 32 ≤ ts.toNat ∨ ts.toNat < s.cur.task.tstamp.toNat ∨ m.getLsbD 0 = true ∨ 2 ^ 62 ≤ m.toNat →
      Raises (.tspawn d a b) s (s.bundleTrap .illegalOperand)) ∧
    (s.touches [s.cur.keyS d] = false → s.cur.namedS d = false →
      exec (.tstamp d) s = .next (s.afterC fun u => u.setS d (word (s.lowest s.cur.loc.die s.cur.launch)))))

/-- at and lwait complete at their TIME; lbank and bar act as their rules give. For every state in which nothing stops them, at and lwait with
TIME at or past s[a] only move past their slot; earlier they leave the unit waiting for that TIME. AT_EXPIRE and LWAIT_EXPIRE of a waiting
unit end the wait and move past the slot once TIME has reached it, where the bundle counts in the lookahead windows as issued, and use up
the turn before. Nothing else changes. For every state in which nothing stops it and whose commit ends in t: lbank writes 2 where the bank
has that word already, 1 where the bank is busy, waits behind the lbanks of its cluster that committed before it, and otherwise
reconfigures the bank, drops its lines, tags and elements, zeroes its 512 KiB and waits until that has ended. bar with the last party of
its count opens the next generation and goes on, with an earlier one counts it and waits, and with a count other than that of the first
party raises ILLEGAL_OPERAND. Rests on R82, R220, R182, R338. -/
def Obligations.TimedInstructionsBanksAndBarriers : Prop :=
  (∀ (s : State) (a : SReg) (t : Word),
    (s.Quiet [s.cur.keyS a] → ∀ (i : Instr) (w : Wait), (i, w) ∈ [(.atTime a, .atTime (s.cur.getS a)), (.lwait a, .lwait (s.cur.getS a))] →
      ((s.cur.getS a).toNat ≤ s.time.toNat → exec i s = .next (s.afterC id)) ∧
      (s.time.toNat < (s.cur.getS a).toNat → exec i s = .next (s.modCur fun u => { u with wait := w, turn := .waited }))) ∧
    (∀ (i : Instr) (w : Wait), (i, w) ∈ [(.atExpire, .atTime t), (.lwaitExpire, .lwait t)] → s.cur.wait = w →
      (t.toNat ≤ s.time.toNat → exec i s = .next ((s.afterC fun u => { u with wait := .run }).modCur (Machine.Unit.age s.ids))) ∧
      (s.time.toNat < t.toNat → exec i s = .next s.waitTurn))) ∧
  (∀ (s t : State) (d a b : SReg), tsrPp s.cur.tsr = false →
    let x := s.cur.getS a
    let y := s.cur.getS b
    (s.touches (s.cur.keysS [d, a, b]) = false → s.cur.namedS d = false → x.toNat ≤ 13 → s.cur.lbm.getLsbD x.toNat = true →
      let w := configClean y
      configRefused w = false → s.CommitsTo (.lbank d x.toNat w) false t →
      let c := t.curCluster
      let v := if c.lbanks.contains t.cur.loc then t else t.setCurCluster { c with lbanks := c.lbanks ++ [t.cur.loc] }
      let first := v.curCluster.lbanks.head? = some t.cur.loc
      let left := v.setCurCluster { v.curCluster with lbanks := v.curCluster.lbanks.filter (· ≠ t.cur.loc) }
      (¬first → exec (.lbank d a b) s = .next (v.modCur fun u => { u with wait := .lbank d x.toNat (some w), turn := .waited })) ∧
      (first → v.curCluster.configOf x.toNat = w →
        exec (.lbank d a b) s = .next (left.afterC fun u => { u.setS d 2 with wait := .run })) ∧
      (first → v.curCluster.configOf x.toNat ≠ w → v.bankBusy v.cur.clusterId x.toNat = true →
        exec (.lbank d a b) s = .next (left.afterC fun u => { u.setS d 1 with wait := .run })) ∧
      (first → v.curCluster.configOf x.toNat ≠ w → v.bankBusy v.cur.clusterId x.toNat = false →
        exec (.lbank d a b) s = .next ((v.configure v.cur.clusterId x.toNat w).modCur fun u =>
          { u with wait := .lbank d x.toNat none, turn := .waited }))) ∧
    (s.touches (s.cur.keysS [a, b]) = false → x.toNat ≤ 15 → 1 ≤ y.toNat → y.toNat ≤ 65535 →
      s.CommitsTo (.bar x.toNat y.toNat) false t → ∀ l, t.curLaunch = some l →
      let p := l.barrier x.toNat
      let put (q : Barrier) : State := t.modLaunch l.num fun l => { l with barriers := Sparse.put l.barriers x.toNat q }
      (p.arrived = 0 ∨ p.count = y.toNat →
        (p.arrived + 1 = y.toNat → exec (.bar a b) s = .next ((put { gen := p.gen + 1 }).afterC id)) ∧
        (p.arrived + 1 ≠ y.toNat → exec (.bar a b) s = .next
          ((put { p with count := y.toNat, arrived := p.arrived + 1 }).modCur fun u =>
            { u with wait := .bar x.toNat p.gen, turn := .waited }))) ∧
      (0 < p.arrived → p.count ≠ y.toNat →
        exec (.bar a b) s = if t.settled then .next (t.enterTrap (t.bundleTrap .illegalOperand))
          else .next (t.modCur fun u => { u with raising := some (t.bundleTrap .illegalOperand) }).waitTurn)))

/-- mfsr writes each system register as it stands, and the four of traps only at supervisor privilege. For every state in which nothing stops
it, mfsr answers the next state in which s[d] holds the register that it names, for each of the twenty-one registers, and nothing else has
changed. At user privilege EPC, CAUSE, FADDR and LPC raise PRIVILEGE. Rests on R197, R199. -/
def Obligations.SystemRegistersRead : Prop :=
  ∀ (s : State) (d : SReg) (r : SysReg) (x : Word), tsrPp s.cur.tsr = false →
    (s.touches [s.cur.keyS d] = false → s.cur.namedS d = false →
      (r, x) ∈ [(.tsr, s.cur.tsr), (.epc, s.cur.epc), (.cause, s.cur.cause), (.faddr, s.cur.faddr), (.time, s.time), (.wsp, s.cur.wsp),
        (.lsb, s.cur.lsb), (.tid, s.cur.tid), (.tstamp, s.cur.task.tstamp.zeroExtend 64), (.unit, s.cur.unit),
        (.launch, s.cur.launch.zeroExtend 64),
        (.core, word (s.cur.loc.die % 8 * 256 + s.cur.loc.cluster % 32 * 8 + s.cur.loc.core % 8)), (.slot, word s.cur.loc.slot),
        (.wcnt, word s.cur.wcnt), (.world, if s.cur.secure then 1 else 0), (.pfx, s.cur.pfx), (.lap, s.cur.lap), (.lbm, s.cur.lbm),
        (.xtag, s.cur.xtag), (.sbind, s.cur.sbind), (.lpc, s.cur.lpc)] →
      (r ∈ [SysReg.epc, .cause, .faddr, .lpc] → tsrSup s.cur.tsr = true) →
      exec (.mfsr d r) s = .next (s.afterC fun u => u.setS d x)) ∧
    (r ∈ [SysReg.epc, .cause, .faddr, .lpc] → tsrSup s.cur.tsr = false → Raises (.mfsr d r) s (s.bundleTrap .privilege))

/-- mtsr writes the register that it names, bit by bit as its layout allows, and refuses the rest. For every state in which nothing stops it,
mtsr writes TSR (its bits 8 to 1 from any privilege, PP and PL only from supervisor code), XTAG[15:0], and from supervisor code EPC, CAUSE
without its reserved bits, FADDR, WSP, TID, SBIND without its reserved bits, WCNT (0 to 16, while it is 0) and PFX, a field of 24 to 30
becoming 31; nothing else changes. At user privilege the registers of supervisor code raise PRIVILEGE; the read-only registers raise
ILLEGAL_OPERAND. Rests on R47, R198, R199, R297, R393. -/
def Obligations.SystemRegistersWritten : Prop :=
  ∀ (s : State) (a : SReg), tsrPp s.cur.tsr = false →
    let x := s.cur.getS a
    let sup := tsrSup s.cur.tsr
    (s.touches [s.cur.keyS a] = false →
      ((sup = true → bits x 11 10 ≤ 1) → ∃ v : Word, exec (.mtsr a .tsr) s = .next (s.afterC fun u => { u with tsr := v }) ∧
        ∀ j, j < 64 → v.getLsbD j = if 1 ≤ j ∧ j ≤ 8 then x.getLsbD j
          else if j = 0 ∨ j = 10 ∨ j = 11 then (if sup then x else s.cur.tsr).getLsbD j else false) ∧
      exec (.mtsr a .xtag) s = .next (s.afterC fun u => { u with xtag := x &&& 0xFFFF }) ∧
      (sup = true →
        exec (.mtsr a .epc) s = .next (s.afterC fun u => { u with epc := x }) ∧
        exec (.mtsr a .cause) s = .next (s.afterC fun u => { u with cause := x &&& 0xF8FF_0700_0000_00FF }) ∧
        exec (.mtsr a .faddr) s = .next (s.afterC fun u => { u with faddr := x }) ∧
        exec (.mtsr a .wsp) s = .next (s.afterC fun u => { u with wsp := x }) ∧
        exec (.mtsr a .tid) s = .next (s.afterC fun u => { u with tid := x }) ∧
        (s.cur.wain = false → exec (.mtsr a .sbind) s = .next (s.afterC fun u => { u with sbind := x &&& 0x8FFF_8FFF })) ∧
        (s.cur.wcnt = 0 → x.toNat ≤ 16 → exec (.mtsr a .wcnt) s = .next (s.afterC fun u => { u with wcnt := x.toNat })) ∧
        ∃ v : Word, exec (.mtsr a .pfx) s = .next (s.afterC fun u => { u with pfx := v }) ∧ v.toNat < 2 ^ 15 ∧
          ∀ k ∈ [0, 5, 10], bits v (k + 4) k = if 24 ≤ bits x (k + 4) k then 31 else bits x (k + 4) k)) ∧
    (sup = false → ∀ r ∈ [SysReg.epc, .cause, .faddr, .lpc, .wsp, .tid, .wcnt, .pfx, .sbind], Raises (.mtsr a r) s (s.bundleTrap .privilege)) ∧
    (∀ r ∈ [SysReg.time, .lsb, .tstamp, .unit, .launch, .core, .slot, .world, .lap, .lbm],
      Raises (.mtsr a r) s (s.bundleTrap .illegalOperand)) ∧
    (sup = true → Raises (.mtsr a .lpc) s (s.bundleTrap .illegalOperand))

/-- ptw writes the walk's answer without side effects, and frep answers one outstanding fault. At supervisor privilege and with nothing in
their way, ptw writes s[d] with the size code and physical address of the leaf, or 2^63 plus the cause, and changes nothing else, page
tables included; where a lock holds an entry of the walk the turn goes unused. frep with no such fault writes 1; with the outstanding
fault of the cluster that s[a] names it delivers the reply and writes 0, a RETRY reply removing the fault and the unit's wait for it, a
slice's access joining the walk for its page, or beginning one where there is none, and doing nothing else. At user privilege both raise
PRIVILEGE. Rests on R83, R84. -/
def Obligations.PagingInstructions : Prop :=
  ∀ (s : State) (d a b : SReg), tsrPp s.cur.tsr = false →
    let x := s.cur.getS a
    let y := s.cur.getS b
    (tsrSup s.cur.tsr = true → s.touches (s.cur.keysS [d, a, b]) = false → s.cur.namedS d = false →
      (x.toNat < 2 ^ 56 → y.toNat < 4096 →
        (∀ c e, s.walkLeaf y.toNat x.toNat = .fault c e →
          exec (.ptw d a b) s = .next (s.afterC fun u => u.setS d (word (2 ^ 63 + c.number)))) ∧
        (s.walkLeaf y.toNat x.toNat = .wait → exec (.ptw d a b) s = .next s.waitTurn) ∧
        (∀ e q l, s.walkLeaf y.toNat x.toNat = .leaf e q l → (pteSw e && !s.cur.secure) = false →
          exec (.ptw d a b) s = .next (s.afterC fun u =>
            u.setS d (word (pteSize e * 2 ^ 56 + leafPa e (levelBits l) x.toNat % 2 ^ 56)))) ∧
        (∀ e q l, s.walkLeaf y.toNat x.toNat = .leaf e q l → (pteSw e && !s.cur.secure) = true →
          exec (.ptw d a b) s = .next (s.afterC fun u => u.setS d (word (2 ^ 63 + Cause.world.number))))) ∧
      (x.toNat < 2 ^ 16 → y.toNat ≤ 2 →
        (x = 0 ∨ s.faultOf x.toNat = none → exec (.frep d a b) s = .next (s.afterC fun u => u.setS d 1)) ∧
        (∀ f, x ≠ 0 → s.faultOf x.toNat = some f →
          exec (.frep d a b) s = .next ((s.reply f y.toNat).afterC fun u => u.setS d 0) ∧
          let v := State.modUnits { s with faults := s.faults.filter (· ≠ f) } (fun u => u.is f.loc f.launch)
            fun u => { u with mail := u.mail.filter (· ≠ f.token) }
          (f.req = none → s.reply f 0 = v) ∧
          (∀ r, f.req = some r →
            let same := v.walkFor (sliceDie r.loc.die) r.job r.va.toNat
            ((∀ w ∈ v.walks, same w = false) →
              s.reply f 0 = { v with walks := v.walks ++ [{ slice := sliceOf r.va.toNat, die := sliceDie r.loc.die, reqs := [r] }] }) ∧
            ((∃ w ∈ v.walks, same w = true) → s.reply f 0 =
              { v with walks := v.walks.map fun w => if same w = true then { w with reqs := w.reqs ++ [r] } else w }))))) ∧
    (tsrSup s.cur.tsr = false → Raises (.ptw d a b) s (s.bundleTrap .privilege) ∧ Raises (.frep d a b) s (s.bundleTrap .privilege))

/-- A trap entry saves EPC, FADDR, CAUSE and LPC, clears PP, enters supervisor mode, slides the window and goes to TVEC. For every state and
trap without TD: with fewer than four windows resident, or room for a spill above LSB + 8192, after the entry EPC is the bundle address
with the slot bit (the address plus 1 for trap and brk, the return's bundle where its commit is due, the address alone for a late trap,
ILLEGAL_ENCODING and MATRIX_DATA), FADDR is that of the trap, CAUSE holds the code, the sub-code, the member, PP, LATE, TD and PL in their
fields and zeros elsewhere, TSR is as before but for PP cleared and PL supervisor, the unit stands at the C-slot of TVEC, the window has
slid by 16, a running loop is held, and the other units are unchanged. With fewer than four windows memory is unchanged too; else the
oldest window lies in the 128 bytes below WSP, which is 128 lower, and every other byte is as before. Without that room the task is
discarded and the unit retires with code 0xFFFE, memory unchanged. Rests on R162, R188, R189, R218, R230, R278, R393, R395, R397. -/
def Obligations.TrapEntrySavesAndSwitches : Prop :=
  ∀ (s : State) (t : TrapInfo), t.td = false →
    let u := s.cur.completeReady
    let n := s.enterTrap t
    let few : Prop := s.cur.saved.length < 3
    let room : Prop := u.lsb.toNat + 8192 + 128 ≤ u.wsp.toNat
    (few ∨ room →
    n.cur.epc = (if t.late = true ∨ t.trap = .illegalEncoding ∨ t.trap = .matrixData then s.cur.pc
      else if s.cur.retCommit = true ∧ s.cur.aslot = false ∧ s.cur.depth < s.cur.task.startDepth then s.cur.retPc
      else if s.cur.aslot = true ∨ t.trap = .syscall ∨ t.trap = .brk then s.cur.pc ||| 1 else s.cur.pc) ∧
    n.cur.faddr = t.faddr ∧ n.cur.lpc = (if t.late then t.lpc else s.cur.lpc) ∧
    bits n.cur.cause 7 0 = t.trap.code ∧ bits n.cur.cause 39 8 = 0 ∧ bits n.cur.cause 42 40 = t.mem.toNat ∧ bits n.cur.cause 47 43 = 0 ∧
    bits n.cur.cause 55 48 = t.sub.toNat ∧ bits n.cur.cause 58 56 = 0 ∧ n.cur.cause.getLsbD 59 = tsrPp s.cur.tsr ∧
    n.cur.cause.getLsbD 60 = t.late ∧ n.cur.cause.getLsbD 61 = false ∧ bits n.cur.cause 63 62 = bits s.cur.tsr 11 10 ∧
    (∀ j, j < 64 → n.cur.tsr.getLsbD j = if j = 0 then false else if j = 10 then true else if j = 11 then false else u.tsr.getLsbD j) ∧
    n.cur.pc = s.tvec ∧ n.cur.npc = s.tvec + 8 ∧ n.cur.aslot = false ∧ n.cur.depth = s.cur.depth + 1 ∧
    (few → n.cur.saved = u.window :: u.saved ∧ n.cur.wsp = u.wsp ∧ n.mem = s.mem) ∧
    (¬few → n.cur.saved = u.window :: u.saved.dropLast ∧ n.cur.wsp = u.wsp - 128 ∧
      let a := u.loftAddr (u.wsp - 128)
      ∀ w, u.saved.getLast? = some w → s.MemOk →
        (∀ (i : Nat), i < 16 → ∀ j, j < 8 → n.byte (a + 8 * i + j) = BitVec.ofNat 8 ((w.toList.getD i 0).toNat / 256 ^ j)) ∧
        ∀ x, x < a ∨ a + 128 ≤ x → n.byte x = s.byte x) ∧
    (∀ r : SReg, r.toNat < 8 → n.cur.getS r = u.getS r) ∧ (∀ r : SReg, 8 ≤ r.toNat → r.toNat < 16 → n.cur.getS r = u.getS (r + 16)) ∧
    n.cur.v = u.v ∧ n.cur.k = u.k ∧ n.cur.p = u.p ∧ n.cur.task = s.cur.task ∧ n.cur.seq = { s.cur.seq with held := s.cur.seq.active } ∧
    n.others = s.others) ∧
    (¬few → ¬room → n.cur.wait = .retire 0xFFFE true ∧ n.cur.task.ops = [] ∧ n.cur.task.held = [] ∧ n.cur.task.popped = [] ∧ n.mem = s.mem)

/-- trap and brk enter their trap, rte restores what the entry saved, and tkill retires the unit. For every state in which no prefix is
pending and nothing of the slot is incomplete, trap and brk enter SYSCALL and BREAKPOINT with their immediate in FADDR. At supervisor
privilege and a depth above 1, rte with the window below resident slides the window back, takes PL and PP from CAUSE, and goes to the
bundle of EPC, at its A-slot where EPC[0] is set, or to the restart point of the task where CAUSE.TD is set; a held loop goes on in its
iteration where that bundle lies in its body, and is dropped elsewhere; with the window spilled it is read back first. At depth 1 it
raises WINDOW_UNDERFLOW. tkill discards the task and waits to retire with its code. At user privilege rte and tkill raise PRIVILEGE. Rests
on R189, R278, R400, R401. -/
def Obligations.TrapInstructionsAndReturn : Prop :=
  ∀ (s : State) (i : BitVec 16), tsrPp s.cur.tsr = false →
    (s.settled = true → exec (.trap i) s = .next (s.enterTrap { trap := .syscall, faddr := i.zeroExtend 64 }) ∧
      exec (.brk i) s = .next (s.enterTrap { trap := .brk, faddr := i.zeroExtend 64 })) ∧
    (tsrSup s.cur.tsr = true →
      (s.cur.depth = 1 → Raises .rte s (s.bundleTrap .windowUnderflow)) ∧
      (s.cur.depth ≠ 1 → ∀ w older, s.cur.saved = w :: older →
        ∃ n, exec .rte s = .next n ∧ n.cur.depth = s.cur.depth - 1 ∧ n.cur.saved = older ∧
          bits n.cur.tsr 11 10 = bits s.cur.cause 63 62 ∧ tsrPp n.cur.tsr = s.cur.cause.getLsbD 59 ∧
          bits n.cur.tsr 9 1 = bits s.cur.tsr 9 1 ∧
          (s.cur.cause.getLsbD 61 = true → n.cur.pc = s.cur.task.restartPc ∧ n.cur.aslot = s.cur.task.restartA) ∧
          (s.cur.cause.getLsbD 61 = false → n.cur.pc = s.cur.epc &&& ~~~7 ∧ n.cur.aslot = s.cur.epc.getLsbD 0) ∧
          n.cur.npc = n.cur.pc + 8 ∧
          let q := s.cur.seq
          let inBody : Prop := q.start.toNat ≤ n.cur.pc.toNat ∧ n.cur.pc.toNat < q.start.toNat + 8 * q.len
          (q.held = false → n.cur.seq = q) ∧ (q.held = true → inBody → n.cur.seq = { q with held := false }) ∧
          (q.held = true → ¬inBody → n.cur.seq = {}) ∧
          (∀ r : SReg, r.toNat < 8 → n.cur.getS r = s.cur.getS r) ∧
          (∀ (r : SReg) (h : 8 ≤ r.toNat ∧ r.toNat < 24), n.cur.getS r = w[r.toNat - 8]) ∧
          (∀ r : SReg, 24 ≤ r.toNat → n.cur.getS r = s.cur.getS (r - 16)) ∧
          n.cur.epc = s.cur.epc ∧ n.cur.cause = s.cur.cause ∧ n.cur.v = s.cur.v ∧ n.cur.k = s.cur.k ∧ n.cur.p = s.cur.p ∧
          n.mem = s.mem ∧ n.others = s.others) ∧
      (s.cur.depth ≠ 1 → s.cur.saved = [] → exec .rte s = .next (s.modCur fun u =>
        { u with saved := [vec16 (wordsOf (s.bytes (u.loftAddr u.wsp) 128))], wsp := u.wsp + 128, turn := .waited })) ∧
      exec (.tkill i) s = .next (s.discard.modCur fun u => { u with wait := .retire i true, turn := .waited })) ∧
    (tsrSup s.cur.tsr = false → Raises .rte s (s.bundleTrap .privilege) ∧ Raises (.tkill i) s (s.bundleTrap .privilege))

/-- crd and cwait read a counter, csig holds a signal for the commit, cset sets a counter, and lcancel commits and cancels. For every state in
which nothing stops them: crd writes the word or the status of a counter that the job owns, or the number of retired units; cwait writes
the word once COUNT has reached the target or ERR is set and uses up the turn before; csig leaves the task holding the signal; cset, from
supervisor code, sets word and owner of a counter and clears its status; lcancel commits, cancels its level, be it a unit, the launch, the
replay of the launch, its phase or the job, and goes on unless its own unit is cancelled. A counter of another job raises ILLEGAL_OPERAND
at user privilege, and cset PRIVILEGE. Nothing else changes. Rests on R194, R383, R389, R390. -/
def Obligations.CounterInstructions : Prop :=
  ∀ (s t : State) (d a b : SReg), tsrPp s.cur.tsr = false →
    let x := s.cur.getS a
    let y := s.cur.getS b
    let owns (c : Nat) : Prop := (s.counter c).owner = s.cur.job ∨ tsrSup s.cur.tsr = true
    (s.touches (s.cur.keysS [d, a]) = false → s.cur.namedS d = false →
      (x.toNat < 4096 → owns x.toNat → exec (.crd d a) s = .next (s.afterC fun u => u.setS d (s.counter x.toNat).word)) ∧
      (4096 ≤ x.toNat → x.toNat < 8192 → owns (x.toNat - 4096) →
        exec (.crd d a) s = .next (s.afterC fun u => u.setS d (s.counter (x.toNat - 4096)).stat)) ∧
      (∀ l, x = 8192 → s.curLaunch = some l → exec (.crd d a) s = .next (s.afterC fun u => u.setS d (word l.retired)))) ∧
    (s.touches (s.cur.keysS [d, a, b]) = false → x.toNat < 4096 → owns x.toNat → y.toNat < 2 ^ 63 →
      let w := (s.counter x.toNat).word
      (s.cur.namedS d = false → y.toNat ≤ bits w 62 0 ∨ w.getLsbD 63 = true →
        exec (.cwait d a b) s = .next (s.afterC fun u => u.setS d w)) ∧
      (s.cur.namedS d = false → bits w 62 0 < y.toNat → w.getLsbD 63 = false → exec (.cwait d a b) s = .next s.waitTurn) ∧
      (s.cur.task.held.length < 64 → exec (.csig a b) s = .next (s.afterHold (.signal x.toNat y)))) ∧
    (s.touches (s.cur.keysS [a, b]) = false → tsrSup s.cur.tsr = true → x.toNat < 2 ^ 28 → bits x 15 12 = 0 →
      exec (.cset a b) s = .next ((s.setCounter (x.toNat % 4096) { word := y, stat := 0, owner := x.toNat / 65536 }).afterC id)) ∧
    (s.touches [s.cur.keyS a] = false → s.lcancelOk x = true → (bits x 63 60 = 4 → tsrSup s.cur.tsr = true) →
      s.CommitsTo (.lcancel (bits x 63 60) (bits x 15 0)) false t →
      let after (n : State) : State := if n.cur.cancelled then n.waitTurn else n.afterC id
      (∀ n, (bits x 63 60, n) ∈ [(0, t.cancelUnit t.cur.launch (bits x 15 0)), (1, t.cancelLaunch t.cur.launch 2), (4, t.cancelJob t.cur.job)] →
        exec (.lcancel a) s = .next (after n)) ∧
      (∀ r, bits x 63 60 = 2 → t.curReplay = some r → exec (.lcancel a) s = .next (after (t.cancelReplay r.id))) ∧
      (∀ r p, bits x 63 60 = 3 → t.curReplay = some r → r.phase = some p → exec (.lcancel a) s = .next (after (t.cancelPhase p)))) ∧
    (tsrSup s.cur.tsr = false →
      Raises (.cset a b) s (s.bundleTrap .privilege) ∧
      (x.toNat < 4096 → (s.counter x.toNat).owner ≠ s.cur.job → Raises (.crd d a) s (s.bundleTrap .illegalOperand) ∧
        Raises (.cwait d a b) s (s.bundleTrap .illegalOperand) ∧ Raises (.csig a b) s (s.bundleTrap .illegalOperand)))

/-- qpop takes the next word and vqpop the rest of the head element; qwait counts without popping; an empty queue is waited for. For every
state in which nothing stops them: qpop writes (lookahead 0) or leaves pending with its value (any other) the next 8 bytes of the element
that the slot has partly popped, or of the head of the queue, which is taken whole into the task and undone by a discard; vqpop writes the
remaining words of that element at their places. On an empty queue the turn goes unused with a lookahead of 0 and the destination stays
pending otherwise, unless only the task itself could fill the queue: then SELF_DEADLOCK. qwait writes the number of elements, at most
4095, and pops nothing; wcwait writes WCNT once it is at most its operand. For q6 the head and the state after it are given whole. Rests
on R111, R112, R194, R195, R196, R339. -/
def Obligations.PopsTakeTheHeadOfTheQueue : Prop :=
  ∀ (s : State) (la : BitVec 4) (d : SReg) (w : VReg) (q : QReg) (c : BitVec 8), tsrPp s.cur.tsr = false →
    (∀ (i : Instr) (vector : Bool) (ks dests : List RegKey),
      (i, vector, ks, dests) ∈ [(.qpop la d q, false, [s.cur.keyS d], s.cur.destS d), (.vqpop la w q, true, [.v w.toNat], [.v w.toNat])] →
      s.popOk q vector = true → s.touches ks = false → (if vector then s.cur.namedV w else s.cur.namedS d) = false →
      (∀ e t, s.front q = some (e, t) →
        let word8 : Word := BitVec.ofNat 64 (ofBytes ((e.bytes.drop (8 * e.taken)).take 8))
        let more := 8 * (e.taken + 1) < e.bytes.length
        let key := if q = 7 then 16 + s.popStream q else q.toNat
        let kept : State := if more then t.setCur { t.cur with part := t.cur.part ++ [(key, { e with taken := e.taken + 1 })] } else t
        (vector = false → exec i s = .next ((kept.openWindow la dests (some [sval word8]) (.pop q false (s.popStream q))).afterC id)) ∧
        (vector = true → exec i s = .next ((t.openWindow la dests
          (some [BitVec.ofNat 1024 (ofBytes (e.bytes.drop (8 * e.taken)) * 2 ^ (64 * e.taken))]) (.pop q true (s.popStream q))).afterC id))) ∧
      (s.front q = none →
        (s.cur.popDeadlock q = true → Raises i s (s.bundleTrap .selfDeadlock)) ∧
        (s.cur.popDeadlock q = false → la = 0 → exec i s = .next s.waitTurn) ∧
        (s.cur.popDeadlock q = false → la ≠ 0 → exec i s = .next ((s.openWindow la dests none (.pop q vector (s.popStream q))).afterC id)))) ∧
    (∀ e r, Sparse.find? s.cur.part 6 = none → s.cur.q6 = e :: r →
      let k := s.curCluster.applyClears
      s.front 6 = some (e, (s.setCurCluster k).setCur { s.cur with
        q6 := r, task := { s.cur.task with popped := s.cur.task.popped ++ [(6, 0, e)] } })) ∧
    (s.touches [s.cur.keyS d] = false → s.cur.namedS d = false →
      (s.qwaitOk q = true →
        (s.elems q ≠ [] → exec (.qwait la d q) s =
          .next ((s.openWindow la (s.cur.destS d) (some [sval (word (min (s.elems q).length 4095))]) (.qwait q (s.popStream q))).afterC id)) ∧
        (s.elems q = [] → s.cur.popDeadlock q = false → la = 0 → exec (.qwait la d q) s = .next s.waitTurn)) ∧
      (s.cur.wcnt ≤ c.toNat → exec (.wcwait la d c) s =
        .next ((s.openWindow la (s.cur.destS d) (some [sval (word s.cur.wcnt)]) (.wcwait c.toNat)).afterC id)) ∧
      (c.toNat < s.cur.wcnt → s.moveDeadlock = false → la = 0 → exec (.wcwait la d c) s = .next s.waitTurn))

/-- qpush, vqpush, cpy and mcmd leave their item held by the task until it commits, in room that they reserve. For every state in which
nothing stops them and whose task has room for one held item more: with room in the queue, qpush holds the word s[d] plus its immediate,
vqpush the low bytes of v[d] that an element takes, cpy the request of s[d] to s[d + 3] and mcmd its command with the formats of the
prefix, and nothing else changes but that mcmd consumes the prefix. Without room the turn goes unused, and SELF_DEADLOCK is raised where
only the task itself keeps the room. cpy.try writes 0 and holds its request, or writes 1 where no entry is free. Rests on R194, R195,
R196, R139, R141, R286. -/
def Obligations.PushesAreHeldByTheTask : Prop :=
  ∀ (s : State) (la : BitVec 4) (d : SReg) (w : VReg) (q : QReg) (v : QImm) (tag : BitVec 6),
    let lone := match v with
      | .short _ => false
      | .lit _ => true
    let imm : Word := match v with
      | .short x => x.signExtend 64
      | .lit x => x.signExtend 64
    let req : CopyReq := { w0 := s.cur.getS d, w1 := s.cur.getS (d + 1), w2 := s.cur.getS (d + 2), w3 := s.cur.getS (d + 3), tag,
                           by' := s.issuer, released := 0, node := none }
    let rowBytes := if q = 8 then s.streamEntry (s.pushStream 8) else 128
    let copyRoom : Room := if s.cur.copyEntries < 8 then .yes else if heldCopies s.cur.task.held = 8 then .deadlock else .wait
    (tsrPp s.cur.tsr = false → s.cur.task.held.length < 64 →
      (∀ (i : Instr) (r : Room) (h : Held) (ks : List RegKey) (l : Bool),
        (i, r, h, ks, l) ∈ [
          (.qpush d q v, s.wordRoom q, .word q (s.pushStream q) (s.cur.getS d + imm), [s.cur.keyS d], lone),
          (.vqpush w q, s.rowRoom q, .row q (s.pushStream q) (bytesOf rowBytes (s.cur.getV w).toNat), [.v w.toNat], false),
          (.cpy d tag, copyRoom, .copy req, s.cur.keysS [d, d + 1, d + 2, d + 3], false)] →
        s.touches ks = false → (i = .qpush d q v → s.pushOk q false = true) → (i = .vqpush w q → s.pushOk q true = true) →
        (i = .cpy d tag → d.toNat ≤ 28) →
        (r = .yes → exec i s = .next (s.afterHold h l)) ∧ (r = .wait → exec i s = .next s.waitTurn) ∧
        (r = .deadlock → Raises i s (s.bundleTrap .selfDeadlock))) ∧
      (d.toNat ≤ 28 → s.touches (s.cur.keysS [d, d + 1, d + 2, d + 3]) = false → s.cur.namedS d = false →
        let hold (u : Machine.Unit) : Machine.Unit := { u with task := { u.task with held := u.task.held ++ [.copy req] } }
        (s.cur.copyEntries < 8 → exec (.cpyTry la d tag) s =
          .next (((s.modCur hold).openWindow la (s.cur.destS d) (some [0]) .answer).afterC id)) ∧
        (8 ≤ s.cur.copyEntries → exec (.cpyTry la d tag) s =
          .next ((s.openWindow la (s.cur.destS d) (some [1]) .answer).afterC id)))) ∧
    (let cw32 : BitVec 32 := match v with
        | .short x => x.zeroExtend 32
        | .lit x => x;
     let cw : BitVec 14 := cw32.truncate 14;
     let fa := s.cur.fa.getD .bf16;
     let fb := s.cur.fb.getD (if cw.getLsbD 2 then .bf16 else .t5);
      s.touches [s.cur.keyS d] = false → mcmdOk (s.cur.getS d) cw32 fa fb s.cur.fc = true → s.q1Used < 8 → s.cur.task.held.length < 64 →
      ∀ l, s.curLaunch = some l →
        exec (.mcmd d v) s = .next (s.consume.afterHold
          (.matrix { creg := s.cur.getS d, cw, fa, fb, by' := s.issuer, weight := l.weight, id := 0 }) lone))

/-- tget and tput enter the queue of their tile and count in WCNT; at 16 they wait. For every state in which nothing stops it and with WCNT
below 16, tget or tput with row s[a][4:0] and segment s[a][8:5] adds its move at the end of the queue of tile y of the core and adds 1 to
WCNT; no register and no byte of memory changes, the destination of tget being pending from then on. With WCNT at 16 the turn goes unused,
or, where the moves wait on the task itself, SELF_DEADLOCK is entered as soon as no instruction of the unit is incomplete (log 53). A
nonzero bit of s[a][63:9] raises ILLEGAL_OPERAND. Rests on R295, R296, R297. -/
def Obligations.TileMovesEnterTheQueueOfTheirTile : Prop :=
  ∀ (s : State) (w : VReg) (a : SReg) (y : BitVec 2),
    let x := s.cur.getS a
    ∀ (i : Instr) (get : Bool), (i, get) ∈ [(.tget w a y, true), (.tput w a y, false)] → tsrPp s.cur.tsr = false →
    let move : TileMove := { loc := s.cur.loc, get, row := bits x 4 0, seg := bits x 8 5, vreg := w,
                             value := if get then 0 else s.cur.getV w }
    (2 ^ 9 ≤ x.toNat → Raises i s (s.bundleTrap .illegalOperand)) ∧
    (x.toNat < 2 ^ 9 → s.touches [.v w.toNat, s.cur.keyS a] = false → s.cur.namedV w = false →
      (s.cur.wcnt < 16 → exec i s = .next ((s.setCurCore (s.curCore.pushTile y.toNat (.move move))).afterC fun u =>
        { u with wcnt := u.wcnt + 1 })) ∧
      (16 ≤ s.cur.wcnt → s.moveDeadlock = false → exec i s = .next s.waitTurn) ∧
      (16 ≤ s.cur.wcnt → s.moveDeadlock = true →
        exec i s = if s.cur.allReady then .next (s.enterTrap (s.bundleTrap .selfDeadlock)) else .next s.waitTurn))

/-- A rope command of the plain or inbox form is held for the commit; a returning form or prefix instruction commits and awaits its answer.
For every state in which nothing stops them: each of the twelve rope instructions in its plain form, with a result place free, and in its
inbox form holds the command of s[d] to s[d + 3] for the commit; in its returning form it commits, its command enters the queue of the
die's rope engine, at once or after the earlier accesses of the unit that are still to be performed, and s[d] to s[d + 3] are pending
until the answer. The four prefix instructions do the same with s[d] and s[d + 1] pending. With 16 result places taken the plain form
raises SELF_DEADLOCK; d above 28 (29 for the prefix table) raises ILLEGAL_OPERAND. Nothing else changes. Rests on R113, R114, R115, R116,
R132, R346. -/
def Obligations.RopeCommandsAreHeldOrAnswered : Prop :=
  ∀ (s t : State) (la : BitVec 4) (d : SReg) (tag : BitVec 6) (form : RopeForm), tsrPp s.cur.tsr = false →
    let cmd (fn : RopeFn) (f : RopeForm) (g : BitVec 6) : RopeCmd :=
      { fn, form := f, tag := g, a := s.cur.getS d, b := s.cur.getS (d + 1), c := s.cur.getS (d + 2), d := s.cur.getS (d + 3), by' := s.issuer }
    let answered (c : RopeCmd) (l : List SReg) : State :=
      let c : RopeCmd := { c with by' := t.issuer, pend := t.ids, order := t.cur.visibleAt }
      (if t.cur.orderedBefore t.ids then t.openWindow la (t.cur.keysS l) none (.rope c)
        else (t.releaseRope c).openWindow la (t.cur.keysS l) none (if l.length = 2 then .answer else .record)).afterC id
    (∀ (i : Instr) (fn : RopeFn),
      (i, fn) ∈ [(.rcat la d tag form, .rcat), (.rsplit la d tag form, .rsplit), (.rsplice la d tag form, .rsplice),
        (.rindex la d tag form, .rindex), (.rsum la d tag form, .rsum), (.rwalk la d tag form, .rwalk), (.rhold la d tag form, .rhold),
        (.rdrop la d tag form, .rdrop), (.rpiece la d tag form, .rpiece), (.rresum la d tag form, .rresum), (.trim la d tag form, .trim),
        (.rtier la d tag form, .rtier)] →
      (28 < d.toNat → Raises i s (s.bundleTrap .illegalOperand)) ∧
      (d.toNat ≤ 28 → s.touches (s.cur.keysS [d, d + 1, d + 2, d + 3]) = false →
        (form = .plain → 16 ≤ s.cur.ropePlaces → Raises i s (s.bundleTrap .selfDeadlock)) ∧
        (form = .plain → s.cur.ropePlaces < 16 → s.cur.task.held.length < 64 → exec i s = .next (s.afterHold (.rope (cmd fn form tag)))) ∧
        (form = .inbox → s.cur.task.held.length < 64 → exec i s = .next (s.afterHold (.rope (cmd fn form tag)))) ∧
        (form = .returning → ([d, d + 1, d + 2, d + 3].any s.cur.namedS) = false → s.CommitsTo (.rope la d (cmd fn form tag)) false t →
          fn.isPfx = false ∧ exec i s = .next (answered (cmd fn form tag) [d, d + 1, d + 2, d + 3])))) ∧
    (∀ (i : Instr) (fn : PfxFn),
      (i, fn) ∈ [(.pfxLook la d, .look), (.pfxAdd la d, .add), (.pfxPin la d, .pin), (.pfxUnpin la d, .unpin)] →
      (29 < d.toNat → Raises i s (s.bundleTrap .illegalOperand)) ∧
      (d.toNat ≤ 29 → s.touches (s.cur.keysS [d, d + 1, d + 2]) = false → ([d, d + 1].any s.cur.namedS) = false →
        s.CommitsTo (.rope la d (cmd (.pfx fn) .returning 0)) false t →
        exec i s = .next (answered (cmd (.pfx fn) .returning 0) [d, d + 1])))

/-- hblk chains sixteen tokens, fmt sets PFX and its prefix, and nop only moves on. For every state in which nothing stops it, hblk answers
the next state in which s[d] is written (lookahead 0) or pending (any other) with the chain value: from s[d], for lanes 0 to 15 in order,
the value rotated left by 23, XORed with the zero-extended 32-bit lane, and multiplied by 0x8F1D4C276B39A5E3; a chain value of 0 becomes
1. Nothing else changes. With no prefix pending, fmt in the C-slot or A-slot answers the next state in which PFX holds its three format
codes at bits 4:0, 9:5 and 14:10 and PP is set, and nop in either slot only moves past its slot. With a prefix pending all three raise
DANGLING_PREFIX. Rests on R130, R45, R46, R47, R48. -/
def Obligations.BlockHashFormatsAndNop : Prop :=
  (∀ (s : State) (la : BitVec 4) (d : SReg) (w : VReg), s.Quiet [s.cur.keyS d, .v w.toNat] → s.cur.namedS d = false →
    let h := (List.range 16).foldl (fun (h : Word) j =>
      (h.rotateLeft 23 ^^^ (((s.cur.getV w) >>> (32 * j)).truncate 32 : BitVec 32).zeroExtend 64) * 0x8F1D4C276B39A5E3) (s.cur.getS d)
    let v : Word := if h = 0 then 1 else h
    (la = 0 → exec (.hblk la d w) s = .next (s.afterC fun u => u.setS d v)) ∧
    exec (.hblk la d w) s = .next ((s.openWindow la (s.cur.destS d) (some [sval v]) .answer).afterC id)) ∧
  (∀ (s : State) (fa fb fc : FmtId),
    let v : Word := BitVec.ofNat 64 ((FmtId.bits fa).toNat + 32 * (FmtId.bits fb).toNat + 1024 * (FmtId.bits fc).toNat)
    let set (u : Machine.Unit) : Machine.Unit := { u with pfx := v, tsr := u.tsr ||| 1 }
    (tsrPp s.cur.tsr = false →
      exec (.fmtC fa fb fc) s = .next (s.afterC set) ∧ exec (.fmtA fa fb fc) s = .next (s.afterA set) ∧
      (s.cur.aslot = false → exec .nop s = .next (s.afterC id)) ∧ (s.cur.aslot = true → exec .nop s = .next (s.afterA id))) ∧
    (tsrPp s.cur.tsr = true → Raises (.fmtC fa fb fc) s (s.bundleTrap .danglingPrefix) ∧
      Raises (.fmtA fa fb fc) s (s.bundleTrap .danglingPrefix) ∧ Raises .nop s (s.bundleTrap .danglingPrefix)))

/-- Integer vector arithmetic writes each active element with its result and keeps the inactive ones. For every state in which nothing stops
it and for every element size, each of the twenty-four integer vector instructions and vmov answers the next state in which v[d] holds, in
every element whose mask bit is set, the result of R256 on the elements of the sources (wrapping, clamped for the saturating forms, shift
counts modulo the width), and in every other element what it held; nothing else has changed. Rests on R190, R191, R254, R255, R256, R273. -/
def Obligations.VectorIntegerResults : Prop :=
  ∀ (s : State) (d a b : VReg) (k : KReg) (z : ESize) (w : Nat), (z, w) ∈ [(ESize.b, 8), (.h, 16), (.w, 32), (.d, 64)] →
    s.Quiet [.v d.toNat, .v a.toNat, .v b.toNat] → s.cur.namedV d = false →
    let el (v : VWord) (j : Nat) : BitVec w := v.extractLsb' (w * j) w
    let clampTo (i : Int) : BitVec w :=
      if 2 ^ (w - 1) - 1 < i then BitVec.ofInt w (2 ^ (w - 1) - 1) else if i < -2 ^ (w - 1) then BitVec.ofInt w (-2 ^ (w - 1)) else BitVec.ofInt w i
    ∀ (i : Instr) (f : BitVec w → BitVec w → BitVec w),
      (i, f) ∈ [(.vadd d a b k z, fun x y => x + y), (.vsub d a b k z, fun x y => x - y),
        (.vadds d a b k z, fun x y => clampTo (x.toInt + y.toInt)), (.vsubs d a b k z, fun x y => clampTo (x.toInt - y.toInt)),
        (.vaddus d a b k z, fun x y => if 2 ^ w ≤ x.toNat + y.toNat then BitVec.allOnes w else x + y),
        (.vsubus d a b k z, fun x y => if x.toNat < y.toNat then 0 else x - y), (.vmul d a b k z, fun x y => x * y),
        (.vmulh d a b k z, fun x y => BitVec.ofInt w (x.toInt * y.toInt / 2 ^ w)),
        (.vmulhu d a b k z, fun x y => BitVec.ofNat w (x.toNat * y.toNat / 2 ^ w)),
        (.vand d a b k z, fun x y => x &&& y), (.vor d a b k z, fun x y => x ||| y), (.vxor d a b k z, fun x y => x ^^^ y),
        (.vandn d a b k z, fun x y => x &&& ~~~y), (.vmin d a b k z, fun x y => if x.toInt ≤ y.toInt then x else y),
        (.vmax d a b k z, fun x y => if x.toInt ≤ y.toInt then y else x), (.vminu d a b k z, fun x y => if x.toNat ≤ y.toNat then x else y),
        (.vmaxu d a b k z, fun x y => if x.toNat ≤ y.toNat then y else x), (.vabs d a k z, fun x _ => if 0 ≤ x.toInt then x else 0 - x),
        (.vsll d a b k z, fun x y => x <<< (y.toNat % w)), (.vsrl d a b k z, fun x y => x >>> (y.toNat % w)),
        (.vsra d a b k z, fun x y => x.sshiftRight (y.toNat % w)),
        (.vavgu d a b k z, fun x y => BitVec.ofNat w ((x.toNat + y.toNat + 1) / 2)), (.vmov d a k z, fun x _ => x)] →
      ∃ v : VWord, exec i s = .next (s.afterA fun u => u.setV d v) ∧
        ∀ j, j < 1024 / w → el v j = if (s.cur.getK k).getLsbD (w * j / 8) then f (el (s.cur.getV a) j) (el (s.cur.getV b) j)
          else el (s.cur.getV d) j

/-- Permutes, merges, broadcasts, inserts and extracts move elements to their places. For every state in which nothing stops it and for every
element size with n elements: each permute and vbcast writes the active elements of v[d] with the element of R271 (zero where an index
lies outside its table) or with s[a], and keeps the inactive ones; vmerge writes every element, from va where the mask bit is set and from
vb elsewhere; vins writes element s[b] and keeps the others; vext and vexts write s[d] with element s[b], zero- or sign-extended. An index
of n or more raises ILLEGAL_OPERAND in the last three. Nothing else changes. Rests on R271, R272, R273. -/
def Obligations.VectorPermutesAndMoves : Prop :=
  ∀ (s : State) (d a b : VReg) (k : KReg) (z : ESize) (w : Nat) (c : BitVec 5) (r t : SReg),
    (z, w) ∈ [(ESize.b, 8), (.h, 16), (.w, 32), (.d, 64)] →
    let n := 1024 / w
    let el (v : VWord) (j : Nat) : BitVec w := v.extractLsb' (w * j) w
    let va := el (s.cur.getV a)
    let vb := el (s.cur.getV b)
    let vd := el (s.cur.getV d)
    let on (j : Nat) : Bool := (s.cur.getK k).getLsbD (w * j / 8)
    let index := (s.cur.getS t).toNat
    (s.Quiet (.v d.toNat :: .v a.toNat :: .v b.toNat :: s.cur.keysS [r, t]) → s.cur.namedV d = false →
      (∀ (i : Instr) (f : Nat → BitVec w),
        (i, f) ∈ [(.vperm d a b k z, fun j => if (vb j).toNat < n then va (vb j).toNat else 0),
          (.vperm2 d a b k z, fun j => if (vb j).toNat < n then va (vb j).toNat
            else if (vb j).toNat < 2 * n then vd ((vb j).toNat - n) else 0),
          (.vzipl d a b k z, fun j => if j % 2 = 0 then va (j / 2) else vb (j / 2)),
          (.vziph d a b k z, fun j => if j % 2 = 0 then va (n / 2 + j / 2) else vb (n / 2 + j / 2)),
          (.vuzpe d a b k z, fun j => if j < n / 2 then va (2 * j) else vb (2 * (j - n / 2))),
          (.vuzpo d a b k z, fun j => if j < n / 2 then va (2 * j + 1) else vb (2 * (j - n / 2) + 1)),
          (.vrev d a k z, fun j => va (n - 1 - j)),
          (.vsld d a b k z c, fun j => if j + c.toNat < n then va (j + c.toNat)
            else if j + c.toNat < 2 * n then vb (j + c.toNat - n) else 0),
          (.vbcast d r k z, fun _ => (s.cur.getS r).truncate w)] →
        ∃ v : VWord, exec i s = .next (s.afterA fun u => u.setV d v) ∧ ∀ j, j < n → el v j = if on j then f j else vd j) ∧
      (∃ v : VWord, exec (.vmerge d a b k z) s = .next (s.afterA fun u => u.setV d v) ∧
        ∀ j, j < n → el v j = if on j then va j else vb j) ∧
      (index < n → ∃ v : VWord, exec (.vins d r t z) s = .next (s.afterA fun u => u.setV d v) ∧
        ∀ j, j < n → el v j = if j = index then (s.cur.getS r).truncate w else vd j)) ∧
    (s.Quiet (.v a.toNat :: s.cur.keysS [r, t]) → s.cur.namedS r = false → index < n →
      exec (.vext r a t z) s = .next (s.afterA fun u => u.setS r ((va index).zeroExtend 64)) ∧
      exec (.vexts r a t z) s = .next (s.afterA fun u => u.setS r ((va index).signExtend 64))) ∧
    (tsrPp s.cur.tsr = false → n ≤ index → Raises (.vins d r t z) s (s.bundleTrap .illegalOperand) ∧
      Raises (.vext r a t z) s (s.bundleTrap .illegalOperand) ∧ Raises (.vexts r a t z) s (s.bundleTrap .illegalOperand))

/-- Mask logic, mask moves and vector compares write every bit of their mask; a write of k0 is discarded. For every state in which nothing
stops it: the six mask instructions write all 128 bits of k[d]; stok writes one half and keeps the other; ktos and kpop write s[d] with a
half and with the number of ones; vcmp writes every bit of an element alike, with the comparison where the element is active and 0
elsewhere, raising NV as R260 says for the floating-point forms, which compare the exact values, -0 as +0 and a NaN as unordered. Nothing
else changes. Rests on R191, R260, R272, R273. -/
def Obligations.MaskResults : Prop :=
  ∀ (s : State) (d a b : KReg) (r : SReg) (v w : VReg) (h : BitVec 1) (q : VCmp),
    let x := s.cur.getK a
    let y := s.cur.getK b
    let lo := 64 * h.toNat
    (s.Quiet (.v v.toNat :: .v w.toNat :: s.cur.keysS [r]) → s.cur.namedK d = false →
      (∀ (i : Instr) (m : KWord),
        (i, m) ∈ [(.kand d a b, x &&& y), (.kor d a b, x ||| y), (.kxor d a b, x ^^^ y), (.kandn d a b, x &&& ~~~y), (.knot d a, ~~~x),
          (.kmov d a, x)] → exec i s = .next (s.afterA fun u => u.setK d m)) ∧
      (∃ m : KWord, exec (.stok d r h) s = .next (s.afterA fun u => u.setK d m) ∧
        ∀ j, j < 128 → m.getLsbD j = if lo ≤ j ∧ j < lo + 64 then (s.cur.getS r).getLsbD (j - lo) else (s.cur.getK d).getLsbD j) ∧
      (let n := vcmpWidth q;
       let el (u : VWord) (j : Nat) : Nat := u.toNat / 2 ^ (n * j) % 2 ^ n;
       let on (j : Nat) : Bool := y.getLsbD (n * j / 8);
       let res (j : Nat) : Bool × Flags := vcmpLane q (el (s.cur.getV v) j) (el (s.cur.getV w) j);
       let nv : Bool := (List.range (1024 / n)).any fun j => on j && (res j).2.nv;
        ∃ m : KWord, exec (.vcmp d v w b q) s = .next (s.afterA fun u => (u.setK d m).raiseFlags { nv }) ∧
          ∀ j, j < 1024 / n → ∀ l, l < n / 8 → m.getLsbD (n / 8 * j + l) = (on j && (res j).1))) ∧
    (s.Quiet (s.cur.keysS [r]) → s.cur.namedS r = false →
      exec (.ktos r a h) s = .next (s.afterA fun u => u.setS r (x.extractLsb' lo 64)) ∧
      exec (.kpop r a) s = .next (s.afterA fun u => u.setS r (BitVec.ofNat 64 ((List.range 128).countP fun j => x.getLsbD j)))) ∧
    (∀ (c : Cc) (z : ESize) (l : Nat) (e f : BitVec l), (z, l) ∈ [(ESize.b, 8), (.h, 16), (.w, 32), (.d, 64)] →
      (vcmpLane (.int c z) e.toNat f.toNat).1 = match c with
        | .eq => decide (e = f)
        | .ne => decide (e ≠ f)
        | .lt => decide (e.toInt < f.toInt)
        | .ge => decide (f.toInt ≤ e.toInt)
        | .ltu => decide (e.toNat < f.toNat)
        | .geu => decide (f.toNat ≤ e.toNat)) ∧
    (∀ (c : FCc) (t : FType) (e f : Nat),
      let q (neg : Bool) (m : Nat) (i : Int) : ℚ := (if neg then -1 else 1) * (m : ℚ) * (2 : ℚ) ^ i;
      let r := vcmpLane (.fp c t) e f;
      let a := (ftypeFp t).read e;
      let b := (ftypeFp t).read f;
      let of (eq lt : Prop) : Prop := r.2 = {} ∧ (r.1 = true ↔ match c with
        | .eq => eq
        | .ne => ¬eq
        | .lt => lt
        | .le => lt ∨ eq
        | .uo => False);
      (∀ m i n j x y, a = .fin x m i → b = .fin y n j → of (q x m i = q y n j) (q x m i < q y n j)) ∧
      (∀ m i x y, a = .inf x → b = .fin y m i → of False (x = true)) ∧ (∀ m i x y, a = .fin x m i → b = .inf y → of False (y = false)) ∧
      (∀ x y, a = .inf x → b = .inf y → of (x = y) (x = true ∧ y = false)) ∧
      (a.isNan = true ∨ b.isNan = true → (r.1 = true ↔ c = .ne ∨ c = .uo) ∧
        r.2 = { nv := a.isSignalling || b.isSignalling || c == .lt || c == .le }))

/-- Floating-point vector instructions round each active element once and raise the flags of the active elements only. For every state in
which nothing stops it, each floating-point arithmetic, fused, widening and special-function instruction and vsm.rescale answers the next
state in which every active element of v[d] is the exact result delivered once in TSR.RM and TSR.SAT (RNE for the approximations), every
inactive one is as before, and TSR has gained the flags of the active elements; the sign operations change the sign bit alone and raise
nothing; vsm.upd writes every lane with one maximum. Nothing else changes. Rests on R257, R258, R259, R265, R266, R267, R268, R308, R309. -/
def Obligations.VectorFloatingPointResults : Prop :=
  ∀ (s : State) (d a b : VReg) (k : KReg) (t : FType) (g : HType), s.Quiet [.v d.toNat, .v a.toNat, .v b.toNat] → s.cur.namedV d = false →
    let rm := tsrRm s.cur.tsr
    let sat := tsrSat s.cur.tsr
    let el (v : VWord) (n j : Nat) : Nat := v.toNat / 2 ^ (n * j) % 2 ^ n
    let on (n j : Nat) : Bool := (s.cur.getK k).getLsbD (n * j / 8)
    let p := ftypeFp t
    let w := p.width
    let x (j : Nat) := p.read (el (s.cur.getV a) w j)
    let y (j : Nat) := p.read (el (s.cur.getV b) w j)
    let c (j : Nat) := p.read (el (s.cur.getV d) w j)
    let xs (j : Nat) := fpF32.read (el (s.cur.getV a) 32 j)
    let ys (j : Nat) := fpF32.read (el (s.cur.getV b) 32 j)
    let hx (j : Nat) := (htypeFp g).read (el (s.cur.getV a) 16 j)
    let hy (j : Nat) := (htypeFp g).read (el (s.cur.getV b) 16 j)
    let hc (j : Nat) := fpF32.read (el (s.cur.getV d) 32 j)
    let out (e : Exact) : Nat × Flags := p.deliver rm sat e
    let out32 (e : Exact) : Nat × Flags := fpF32.deliver rm sat e
    let sign (v : VWord) (j : Nat) : Nat := el v w j / 2 ^ (w - 1)
    let size (j : Nat) : Nat := el (s.cur.getV a) w j % 2 ^ (w - 1)
    (∀ (i : Instr) (n : Nat) (f : Nat → Nat × Flags),
      (i, n, f) ∈ [(.vaddF d a b k t, w, fun j => out (addExact rm (x j) (y j))),
        (.vsubF d a b k t, w, fun j => out (addExact rm (x j) (Machine.Num.neg (y j)))), (.vmulF d a b k t, w, fun j => out (mulExact (x j) (y j))),
        (.vminF d a b k t, w, fun j => out (minExact (x j) (y j))), (.vmaxF d a b k t, w, fun j => out (maxExact (x j) (y j))),
        (.vfma d a b k t, w, fun j => out (fmaExact rm (x j) (y j) (c j))),
        (.vfms d a b k t, w, fun j => out (fmaExact rm (x j) (y j) (Machine.Num.neg (c j)))),
        (.vfnma d a b k t, w, fun j => out (fmaExact rm (Machine.Num.neg (x j)) (y j) (c j))),
        (.vfnms d a b k t, w, fun j => out (fmaExact rm (Machine.Num.neg (x j)) (y j) (Machine.Num.neg (c j)))),
        (.vfmawLo d a b k g, 32, fun j => out32 (fmaExact rm (hx j) (hy j) (hc j))),
        (.vfmawHi d a b k g, 32, fun j => out32 (fmaExact rm (hx (j + 32)) (hy (j + 32)) (hc j))),
        (.vrcpA d a k, 32, fun j => approx12 (rcpExact (xs j))), (.vrsqA d a k, 32, fun j => approx12 (rsqExact (xs j))),
        (.vrcpS d a b k, 32, fun j => out32 (refine rm false (xs j) (ys j))), (.vrsqS d a b k, 32, fun j => out32 (refine rm true (xs j) (ys j))),
        (.vrcp d a k, 32, fun j => out32 (rcpExact (xs j))), (.vrsq d a k, 32, fun j => out32 (rsqExact (xs j))),
        (.vsqrt d a k, 32, fun j => out32 (sqrtExact (xs j))), (.vdiv d a b k, 32, fun j => out32 (divExact (xs j) (ys j))),
        (.vexp2 d a k, 32, fun j => out32 (exp2Exact (xs j))), (.vlog2 d a k, 32, fun j => out32 (log2Exact (xs j))),
        (.vsmRescale d a b k, 32, fun j =>
          rescaleLane s.cur (el (s.cur.getV a) 32 j) (el (s.cur.getV b) 32 j) (el (s.cur.getV d) 32 j))] →
      ∃ (v : VWord) (e : Flags), exec i s = .next (s.afterA fun u => (u.setV d v).raiseFlags e) ∧
        e = flagsOf ((List.range (1024 / n)).map fun j => if on n j then (f j).2 else {}) ∧
        ∀ j, j < 1024 / n → el v n j = if on n j then (f j).1 % 2 ^ n else el (s.cur.getV d) n j) ∧
    (∀ (i : Instr) (sg : Nat → Nat),
      (i, sg) ∈ [(.vabsF d a k t, fun _ => 0), (.vnegF d a k t, fun j => 1 - sign (s.cur.getV a) j),
        (.vcpsgnF d a b k t, fun j => sign (s.cur.getV b) j)] →
      ∃ v : VWord, exec i s = .next (s.afterA fun u => u.setV d v) ∧
        ∀ j, j < 1024 / w → el v w j = if on w j then size j + sg j * 2 ^ (w - 1) else el (s.cur.getV d) w j) ∧
    (let m := smMax (((List.range 32).filter fun j => on 32 j).map ys);
     let r (j : Nat) := smLane m.1 (el (s.cur.getV a) 32 j);
      ∃ v : VWord, exec (.vsmUpd d a b k) s = .next (s.afterA fun u =>
          (u.setV d v).raiseFlags (m.2.or (flagsOf ((List.range 32).map fun j => (r j).2)))) ∧
        ∀ j, j < 32 → el v 32 j = (r j).1 % 2 ^ 32)

/-- A result is the exact value to within its spacing on the side of its mode, ties to even; sums, products and comparisons are exact. Over
the rationals, with (-1)^neg m 2^e for a finite value: in each of the nine floating-point formats and each mode, a value not past the top
is delivered with its sign at less than one spacing of the format at its own magnitude (subnormal spacing below the smallest normal) on
the side of the mode, or at most half of it under RNE, the encoding even on a tie; NX holds exactly where the result differs, UF where it
is also below the smallest normal. A value past the top, which under RNE begins at the tie point if the largest value is odd, sets OF and
NX and gives infinity, the NaN or the largest finite value by the table of R238. Infinities and NaNs convert by R240. To an integer the
value is rounded alike to spacing 1 and clamped with NV alone. Sums, products and fused products are exact, an exact zero of opposite
signs is -0 under RD alone, and less and equal are those of the values. A block takes the exponent of its largest element, and rounds and
clamps each to it. Rests on R5, R235, R237, R238, R239, R240, R241, R242, R243, R260, R262. -/
def Obligations.RoundingBoundsTheExactValue : Prop :=
  let q (neg : Bool) (m : Nat) (e : Int) : ℚ := (if neg then -1 else 1) * (m : ℚ) * (2 : ℚ) ^ e
  let near (rm : RM) (x z s : ℚ) (even : Bool) : Prop :=
    match rm with
    | .rne => 2 * |z - x| ≤ s ∧ (2 * |z - x| = s → even = true)
    | .rz => |z| ≤ |x| ∧ |z - x| < s
    | .ru => x ≤ z ∧ z - x < s
    | .rd => z ≤ x ∧ x - z < s
  (∀ (g : Fmt) (f : Fp) (rm : RM) (sat : Bool), fpOf g = some f →
    ∀ (mm : Nat) (ee : Int), f.read f.maxEnc = .fin false mm ee →
    let top := q false mm ee
    let u := (2 : ℚ) ^ ee
    let infinite : Prop := g ∈ [Fmt.f32, .bf16, .f16, .e5m2]
    let finite : Prop := g ∈ [Fmt.e3m2, .e2m3, .e2m1]
    (∀ (neg : Bool) (m : Nat) (e : Int),
      let x := q neg m e
      let r := convertTo g rm sat (.fp (.fin neg m e))
      let outward : Prop := rm = .rne ∨ (rm = .ru ∧ neg = false) ∨ (rm = .rd ∧ neg = true)
      let past : Prop :=
        if rm = .rne then top + u / 2 < |x| ∨ (top + u / 2 = |x| ∧ mm % 2 = 1) else if outward then top < |x| else top + u ≤ |x|
      (¬past → ∃ n k, f.read r.1 = .fin neg n k ∧ (m = 0 → n = 0) ∧
        let z := q neg n k
        (r.2.nx = true ↔ z ≠ x) ∧ (r.2.uf = true ↔ z ≠ x ∧ |z| < (2 : ℚ) ^ (1 - (f.bias : Int))) ∧
        r.2.of = false ∧ r.2.nv = false ∧ r.2.dz = false ∧
        ∀ L : Int, (2 : ℚ) ^ L ≤ |x| → |x| < (2 : ℚ) ^ (L + 1) →
          near rm x z ((2 : ℚ) ^ (max (L - f.p) (1 - (f.bias : Int) - f.p))) (r.1 % 2 == 0)) ∧
      (past → r.2 = { of := true, nx := true } ∧
        (sat = false → outward → infinite → f.read r.1 = .inf neg) ∧
        (sat = false → outward → ¬infinite → ¬finite → (f.read r.1).isNan = true) ∧
        (sat = true ∨ ¬outward ∨ finite → f.read r.1 = .fin neg mm ee))) ∧
    (∀ neg : Bool,
      let r := convertTo g rm sat (.fp (.inf neg))
      (infinite → f.read r.1 = .inf neg ∧ r.2 = {}) ∧
      (¬infinite → r.2 = { of := true, nx := true } ∧
        (sat = true ∨ finite → f.read r.1 = .fin neg mm ee) ∧ (sat = false → ¬finite → (f.read r.1).isNan = true))) ∧
    (∀ signalling : Bool,
      let r := convertTo g rm sat (.fp (.nan signalling))
      (¬finite → (f.read r.1).isNan = true ∧ r.2 = { nv := signalling }) ∧ (finite → r = (0, { nv := true })))) ∧
  (∀ (g : Fmt) (w : Nat) (sg : Bool) (rm : RM) (sat : Bool), intOf g = some (w, sg) →
    let lo : Int := if sg then -(2 ^ (w - 1)) else 0
    let hi : Int := if sg then 2 ^ (w - 1) - 1 else 2 ^ w - 1
    (∀ (neg : Bool) (m : Nat) (e : Int),
      let r := convertTo g rm sat (.fp (.fin neg m e))
      ∃ i : Int, near rm (q neg m e) i 1 (i % 2 == 0) ∧ r.1 = ((max lo (min hi i)) % 2 ^ w).toNat ∧
        (lo ≤ i → i ≤ hi → r.2 = { nx := decide ((i : ℚ) ≠ q neg m e) }) ∧ (i < lo ∨ hi < i → r.2 = { nv := true })) ∧
    (∀ neg : Bool, convertTo g rm sat (.fp (.inf neg)) = (((if neg then lo else hi) % 2 ^ w).toNat, { nv := true })) ∧
    (∀ n : Bool, convertTo g rm sat (.fp (.nan n)) = (0, { nv := true }))) ∧
  (∀ (rm : RM) (a b c : Bool) (m n l : Nat) (d e h : Int),
    let x := q a m d
    let y := q b n e
    (∃ o k j, addExact rm (.fin a m d) (.fin b n e) = { x := .fin o k j } ∧ q o k j = x + y ∧
      (x + y = 0 → a ≠ b → (o = true ↔ rm = .rd))) ∧
    (∃ k j, mulExact (.fin a m d) (.fin b n e) = { x := .fin (a != b) k j } ∧ q (a != b) k j = x * y) ∧
    (∃ o k j, fmaExact rm (.fin a m d) (.fin b n e) (.fin c l h) = { x := .fin o k j } ∧ q o k j = x * y + q c l h) ∧
    (numLess (.fin a m d) (.fin b n e) = true ↔ x < y) ∧ (numEq (.fin a m d) (.fin b n e) = true ↔ x = y)) ∧
  (∀ (w : Nat) (rm : RM) (vs : List (Bool × Nat × Int)) (L : Int), w ∈ [16, 8, 4] → vs.length = 32 →
    let x (j : Nat) : ℚ := let v := vs.getD j (false, 0, 0); q v.1 v.2.1 v.2.2
    (∀ j, j < 32 → |x j| < (2 : ℚ) ^ (L + 1)) → (∃ j, j < 32 ∧ (2 : ℚ) ^ L ≤ |x j|) →
    let b := (blockOfValues w rm (vs.map fun v => .fin v.1 v.2.1 v.2.2)).1
    let X : Int := max 0 (min 255 (L + 128))
    b.length = 1 + 4 * w ∧ (b.getD 0 0).toNat = X ∧
    ∀ j, j < 32 → ∃ i : Int, near rm (x j * (2 : ℚ) ^ (126 + (w : Int) - X)) i 1 (i % 2 == 0) ∧
      ofBytes (b.drop 1) / 2 ^ (w * j) % 2 ^ w = ((max (-(2 ^ (w - 1))) (min (2 ^ (w - 1) - 1) i)) % 2 ^ w).toNat)

/-- A reduction combines the active elements into element 0, gives its identity where none is active, and zeroes the rest. For every state in
which nothing stops it and every element size: the integer reductions write v[d] with the sum, the signed and unsigned maximum and
minimum, the and, the or and the exclusive or of the active elements of va, starting from the identity of R269, in element 0 and zero in
every other bit; vraddw writes the exact signed sum as a 64-bit element. The f32 reductions are the pairwise tree of R270, rounded and
flagged at every node. Nothing else changes but TSR's flags for the last three. Rests on R269, R270. -/
def Obligations.ReductionsOverActiveElements : Prop :=
  ∀ (s : State) (d a : VReg) (k : KReg) (z : ESize) (w : Nat), (z, w) ∈ [(ESize.b, 8), (.h, 16), (.w, 32), (.d, 64)] →
    s.Quiet [.v d.toNat, .v a.toNat] → s.cur.namedV d = false →
    let el (j : Nat) : BitVec w := (s.cur.getV a).extractLsb' (w * j) w
    let active := (List.range (1024 / w)).filter fun j => (s.cur.getK k).getLsbD (w * j / 8)
    (∀ (i : Instr) (f : BitVec w → BitVec w → BitVec w) (e : BitVec w),
      (i, f, e) ∈ [(.vradd d a k z, (fun x y => x + y), 0), (.vrmax d a k z, (fun x y => if x.toInt < y.toInt then y else x), BitVec.intMin w),
        (.vrmin d a k z, (fun x y => if y.toInt < x.toInt then y else x), BitVec.intMax w),
        (.vrmaxu d a k z, (fun x y => if x.toNat < y.toNat then y else x), 0),
        (.vrminu d a k z, (fun x y => if y.toNat < x.toNat then y else x), BitVec.allOnes w),
        (.vrand d a k z, (fun x y => x &&& y), BitVec.allOnes w), (.vror d a k z, (fun x y => x ||| y), 0),
        (.vrxor d a k z, (fun x y => x ^^^ y), 0)] →
      exec i s = .next (s.afterA fun u => u.setV d (((active.map el).foldl f e).zeroExtend 1024))) ∧
    exec (.vraddw d a k z) s = .next (s.afterA fun u =>
      u.setV d ((BitVec.ofInt 64 ((active.map fun j => (el j).toInt).sum)).zeroExtend 1024)) ∧
    (∀ (i : Instr) (f : Machine.Num → Machine.Num → Exact) (e : Nat),
      (i, f, e) ∈ [(.vraddF32 d a k, addExact (tsrRm s.cur.tsr), 0), (.vrmaxF32 d a k, maxExact, 0xFF800000), (.vrminF32 d a k, minExact, 0x7F800000)] →
      let node (p q : Nat × Flags) : Nat × Flags :=
        let r := fpF32.deliver (tsrRm s.cur.tsr) (tsrSat s.cur.tsr) (f (fpF32.read p.1) (fpF32.read q.1))
        (r.1, (p.2.or q.2).or r.2)
      let leaves : List (Option (Nat × Flags)) := (List.range 32).map fun j =>
        if (s.cur.getK k).getLsbD (4 * j) then some ((s.cur.getV a).toNat / 2 ^ (32 * j) % 2 ^ 32, {}) else none
      let r := (tree node 5 leaves).getD (e, {})
      exec i s = .next (s.afterA fun u => (u.setV d (BitVec.ofNat 1024 r.1)).raiseFlags r.2))

/-- Packed arithmetic and vcvt answer a next state for all legal formats: they take them from the prefix, consume it, and act element by
element. For every state in which nothing stops them and every mask. vpadd, vpsub, vpmul, vpmin, vpmax and vpfma, with formats (from the
pending prefix or their defaults) that go together, answer the next state in which the prefix is consumed, every active element of v[d] is
its exact result delivered once in the third format, inactive ones are as before, bits beyond the last element are zero, and TSR has
gained the flags of the active elements. vcvt, with formats that convert, parts in range, no third format and no mask for a block or coded
destination, answers the next state in which the prefix is consumed and v[d] holds the converted part: from an element or block format,
every active element of the part is the one conversion of its source element, or the part is the block of the 32 values, and every bit
outside the part is as before. Nothing else changes. Formats that do not go together and parts out of range raise ILLEGAL_OPERAND. Rests
on R46, R242, R243, R261, R262, R263, R264. -/
def Obligations.FormatInstructionsConsumeThePrefix : Prop :=
  ∀ (s : State) (d a b : VReg) (k : KReg) (x y : BitVec 3),
    s.touches [.v d.toNat, .v a.toNat, .v b.toNat] = false → s.cur.namedV d = false →
    let fa := s.cur.fa.getD .e4m3
    let fb := s.cur.fb.getD fa
    let fc := s.cur.fc.getD fa
    let w := fmtWidth fa
    let el (v : VWord) (n j : Nat) : Nat := v.toNat / 2 ^ (n * j) % 2 ^ n
    let on (j : Nat) : Bool := (s.cur.getK k).getLsbD (w * j / 8)
    let va (j : Nat) := valueOf fa (el (s.cur.getV a) w j)
    let vb (j : Nat) := valueOf fb (el (s.cur.getV b) w j)
    let vc (j : Nat) := valueOf fc (el (s.cur.getV d) w j)
    let ga := s.cur.fa.getD .f32
    let gb := s.cur.fb.getD .f32
    let whole := kindOf gb == .block || kindOf gb == .coded
    let r := convert s.cur ga gb (s.cur.getK k) (s.cur.getV a) (s.cur.getV d) y.toNat x.toNat
    (packedFormats fa fb fc = true →
      ∀ (i : Instr) (fl : RM → Machine.Num → Machine.Num → Machine.Num → Exact) (int : Int → Int → Int → Int),
        (i, fl, int) ∈ [(.vpadd d a b k, (fun m x y _ => addExact m x y), (fun x y _ => x + y)),
          (.vpsub d a b k, (fun m x y _ => addExact m x (Machine.Num.neg y)), (fun x y _ => x - y)),
          (.vpmul d a b k, (fun _ x y _ => mulExact x y), (fun x y _ => x * y)),
          (.vpmin d a b k, (fun _ x y _ => minExact x y), (fun x y _ => min x y)),
          (.vpmax d a b k, (fun _ x y _ => maxExact x y), (fun x y _ => max x y)),
          (.vpfma d a b k, (fun m x y c => fmaExact m x y c), (fun x y c => x * y + c))] →
        let r (j : Nat) := packedLane s.cur fl int fc (va j) (vb j) (vc j)
        let e := flagsOf ((List.range (1024 / w)).map fun j => if on j then (r j).2 else {})
        ∃ v : VWord, exec i s = .next (s.consume.afterA fun u => (u.setV d v).raiseFlags e) ∧
          (∀ j, j < 1024 / w → el v w j = if on j then (r j).1 % 2 ^ w else el (s.cur.getV d) w j) ∧
          (∀ j, 1024 / w * w ≤ j → v.getLsbD j = false)) ∧
    (packedFormats fa fb fc = false →
      ∀ i ∈ [Instr.vpadd d a b k, .vpsub d a b k, .vpmul d a b k, .vpmin d a b k, .vpmax d a b k, .vpfma d a b k],
        Raises i s (s.bundleTrap .illegalOperand)) ∧
    (convertible ga gb = true → y.toNat < partsOf ga → x.toNat < partsOf gb → s.cur.fc = none → (whole = true → k = 0) →
      exec (.vcvt d a k x y) s = .next (s.consume.afterA fun u => (u.setV d r.1).raiseFlags r.2)) ∧
    (let rm := tsrRm s.cur.tsr;
      let plain (f : Fmt) : Bool := kindOf f == .fp || kindOf f == .int || kindOf f == .sign;
      let wa := fmtWidth ga;
      let wb := fmtWidth gb;
      let base := 8 * (1 + 4 * wa) * y.toNat;
      let bit (v : VWord) (lo n : Nat) : Nat := v.toNat / 2 ^ lo % 2 ^ n;
      let src (j : Nat) : Val :=
        if plain ga then valueOf ga (el (s.cur.getV a) wa (32 * y.toNat + j))
        else
          let m := (BitVec.ofNat wa (bit (s.cur.getV a) (base + 8 + wa * j) wa)).toInt
          .fp (.fin (m < 0) m.natAbs ((bit (s.cur.getV a) base 8 : Int) - 126 - wa));
      (plain ga = true ∨ kindOf ga = .block) →
      (plain gb = true →
        (∀ j, j < 32 → el r.1 wb (32 * x.toNat + j) =
          if (s.cur.getK k).getLsbD (4 * j) then (convertTo gb rm (tsrSat s.cur.tsr) (src j)).1 % 2 ^ wb
          else el (s.cur.getV d) wb (32 * x.toNat + j)) ∧
        (∀ j, j < 1024 → j < 32 * wb * x.toNat ∨ 32 * wb * (x.toNat + 1) ≤ j → r.1.getLsbD j = (s.cur.getV d).getLsbD j) ∧
        r.2 = flagsOf ((List.range 32).map fun j =>
          if (s.cur.getK k).getLsbD (4 * j) then (convertTo gb rm (tsrSat s.cur.tsr) (src j)).2 else {})) ∧
      (kindOf gb = .block →
        let lo := 8 * (1 + 4 * wb) * x.toNat
        bit r.1 lo (8 * (1 + 4 * wb)) = ofBytes (blockOfValues wb rm ((List.range 32).map fun j => (src j).num)).1 ∧
        (∀ j, j < 1024 → j < lo ∨ lo + 8 * (1 + 4 * wb) ≤ j → r.1.getLsbD j = (s.cur.getV d).getLsbD j) ∧
        r.2 = (blockOfValues wb rm ((List.range 32).map fun j => (src j).num)).2)) ∧
    (convertible ga gb = false ∨ partsOf ga ≤ y.toNat ∨ partsOf gb ≤ x.toNat ∨ s.cur.fc ≠ none ∨ (whole = true ∧ k ≠ 0) →
      Raises (.vcvt d a k x y) s (s.bundleTrap .illegalOperand))

/-- vtunpack and vtpack answer a next state for every part in range: trits become elements, and elements become the bytes of trits. For every
state in which nothing stops them: vtunpack with a part in range answers the next state in which v[d] holds the trits of its bytes as
elements of its format, and NV is raised for an illegal byte; vtpack with a part below 5 answers the next state in which the 25 bytes of
that part hold the clamped trits of its 125 elements, every other bit of v[d] is as before, and NV is raised where an element was clamped.
Nothing else changes. A part out of range raises ILLEGAL_OPERAND. Rests on R244, R274, R275. -/
def Obligations.TernaryUnpackAndPackResults : Prop :=
  ∀ (s : State) (d a : VReg) (p : BitVec 5) (f : TType) (t : TPack), s.Quiet [.v d.toNat, .v a.toNat] → s.cur.namedV d = false →
    let el (v : VWord) (n j : Nat) : Nat := v.toNat / 2 ^ (n * j) % 2 ^ n
    let n := ttypeCount f / 5
    let trits := unpackTrits ((List.range n).map fun j => BitVec.ofNat 8 (el (s.cur.getV a) 8 (n * p.toNat + j)))
    let m := if t = .i8 then 8 else 2
    let val (j : Nat) : Int := (BitVec.ofNat m (el (s.cur.getV a) m j)).toInt
    let clip (v : Int) : Int := if v < -1 then -1 else if 1 < v then 1 else v
    (p.toNat < ttypeParts f →
      ∃ v : VWord, exec (.vtunpack d a p f) s = .next (s.afterA fun u => (u.setV d v).raiseFlags trits.2) ∧
        ∀ j, j < ttypeCount f → el v (fmtWidth (ttypeFmt f)) j =
          (convertTo (ttypeFmt f) .rne false (.int (trits.1.getD j 0))).1 % 2 ^ fmtWidth (ttypeFmt f)) ∧
    (p.toNat < 5 →
      ∃ v : VWord, exec (.vtpack d a p t) s = .next (s.afterA fun u =>
          (u.setV d v).raiseFlags { nv := (List.range 125).any fun j => val j < -1 || 1 < val j }) ∧
        (∀ j, j < 25 → el v 8 (25 * p.toNat + j) = byteOfTrits ((List.range 5).map fun l => clip (val (5 * j + l)))) ∧
        (∀ j, j < 1024 → j < 200 * p.toNat ∨ 200 * p.toNat + 200 ≤ j → v.getLsbD j = (s.cur.getV d).getLsbD j)) ∧
    (ttypeParts f ≤ p.toNat → Raises (.vtunpack d a p f) s (s.bundleTrap .illegalOperand)) ∧
    (5 ≤ p.toNat → Raises (.vtpack d a p t) s (s.bundleTrap .illegalOperand))

/-- vloop starts a body of n + 1 bundles or jumps past it, and vlidx reads the iteration. For every state in which nothing stops it and with
the sequencer idle, vloop with s[a] trips, more than 0 and below 2^32, moves to the bundle that follows with the sequencer running its
body of imm + 1 bundles; with 0 trips it moves past the body. With the sequencer active, or with 2^32 trips or more, it raises
ILLEGAL_OPERAND. vlidx writes the iteration of a sequencer that is not idle, else 0. Rests on R276, R278. -/
def Obligations.VectorLoopsRunTheirBody : Prop :=
  ∀ (s : State) (a d : SReg) (n : BitVec 4), tsrPp s.cur.tsr = false →
    let t := (s.cur.getS a).toNat
    let first := s.cur.pc + 8
    (s.touches [s.cur.keyS a] = false → s.cur.seq.active = false →
      (t = 0 → exec (.vloop a n) s = .next (s.afterA fun u => { u with npc := first + word (8 * (n.toNat + 1)) })) ∧
      (0 < t → t < 2 ^ 32 → ∃ m, exec (.vloop a n) s = .next m ∧ m.cur.pc = first ∧ m.cur.npc = first + 8 ∧ m.cur.aslot = false ∧
        m.cur.seq = { active := true, start := first, len := n.toNat + 1, trips := t } ∧ m.cur.regs = s.cur.regs ∧ m.cur.v = s.cur.v ∧
        m.mem = s.mem ∧ m.others = s.others)) ∧
    (2 ^ 32 ≤ t ∨ s.cur.seq.active = true → Raises (.vloop a n) s (s.bundleTrap .illegalOperand)) ∧
    (s.touches [s.cur.keyS d] = false → s.cur.namedS d = false →
      exec (.vlidx d) s = .next (s.afterA fun u => u.setS d (if s.cur.seq.active then word s.cur.seq.idx else 0)))

/-- Decoding the words of a well-formed slot instruction gives the instruction back. For every well-formed instruction that has an encoding,
and for every value of its operands, the decoder of its slot reads the words that the encoder writes as exactly that instruction: no two
forms share a word, and no bit of an operand is lost. (Whether a bit is read as the manual prints it is what the words written out from
the manual say.) Rests on R33, R35, R37, R38, R39, R49, R50, R51. -/
def Obligations.DecodeOfEncode : Prop :=
  ∀ (i : Instr) (c : Code), i.wf = true → encode i = some c → c.decode = .instr i

/-- Every step keeps memory in its canonical form. From every state whose memory lists strictly rising addresses and no byte equal to what an
unlisted address reads as, each step that answers a next state, whatever it does (a turn of a unit or a gang, an event, a KICK, a packet),
leaves a memory of that form. The form is the model's own (log 4): equal memories are equal data. Rests on R3, R62, R177, R319, R437. -/
def Obligations.EveryStepKeepsMemoryCanonical : Prop :=
  ∀ s t : State, s.MemOk → step s = .next t → t.MemOk

/-- Right after reset no unit is placed, banks are caches of zeros, WDT is 100,000, MODID is 0 and the tables are empty. At reset: no unit is
placed and the machine runs no launch; memory is in canonical form and every byte reads 0; every bank from 0 to 13 of every cluster has
the configuration word 0, CACHE mode, and banks 14 and 15 are in SCRATCH mode; WDT holds 100,000 and MODID 0; no prefix entry, no region
entry and no counter is set; every queue is idle; boot is held. That memory outside the banks reads 0 is the model's choice (log 4). Rests
on R12, R62, R107, R131, R159, R186, R374, R404, R435, R438. -/
def Obligations.ResetState : Prop :=
  let s := State.reset
  s.cur.placed = false ∧ s.others = [] ∧ s.launches = [] ∧ s.waiting = [] ∧ s.MemOk ∧ (∀ a, s.byte a = 0) ∧
    (∀ cl b, b ≤ 13 → (s.cluster cl).configOf b = 0) ∧ (∀ cl b, b ∈ [14, 15] → modeOf ((s.cluster cl).configOf b) = .scratch) ∧ s.wdt = 100000 ∧ s.modid = 0 ∧ (∀ d, (s.die d).prefixes = []) ∧ s.secureRegions = [] ∧
    (∀ c, s.counter c = {}) ∧ (∀ q, (s.queue q).state = 0) ∧ s.boot = .held

/-- A step of a unit that nothing else occupies executes the instruction that the words at its program counter decode to. Where the words that
the unit whose turn it is on its core already holds for its bundle, or else the bytes at its PC, read through its translation or, in the
aperture, at its bank, decode to an instruction of the slot that issues, step answers what exec of that instruction answers, in the state
in which the unit holds the words of its bundle. Around exec: TIME passes first and the turn of the core goes to its next slot, but not
between the slots of a bundle; what was incomplete is tried and completed; after a C-slot instruction the windows of the older incomplete
instructions cover one bundle less; and in a turn that ends in a wait the oldest of four windows may be spilled. Excluded by hypotheses on
the state: a machine that has not booted, a KICK word, packet or agenda entry that comes first, gangs, and a unit that is idle, cancelled,
pre-empted, marked, owed a trap or raising one, or in a commit or a wait. On a unit of a cluster readC and readA are the decoder of the
slot. Rests on R33, R34, R35, R36, R37, R41, R71, R156, R161, R186, R277, R438. -/
def Obligations.StepRunsTheDecodedInstruction : Prop :=
  ∀ (s z v : State) (i : Instr) (w0 w1 : Word32),
    let t := State.modCur z.tryPends Unit.completeClosed
    let u := v.modCur fun u => { u.capture (w0, w1) with fetched := some (w0, w1) }
    let words (l : List Byte) : Prop := w0 = BitVec.ofNat 32 (ofBytes (l.take 4)) ∧ w1 = BitVec.ofNat 32 (ofBytes ((l.drop 4).take 4))
    s.stopped = false → (s.midBundle = true → z = s) →
    (s.midBundle = false → s.tick.boot = .running ∧ s.tick.nextKick = none ∧ s.tick.nextPacket = none ∧ s.tick.agenda = [] ∧
      s.tick.rotate s.tick.cur.loc = some z) →
    z.cur.gang ≤ 1 → z.cur.idle = false → z.mayCancel = false → z.mayStop = false →
    (∀ p ∈ t.cur.pend, p.hold = false) → t.cur.marked = false → t.cur.raising = none → t.cur.owed = [] → t.cur.owedMatrix = [] → t.cur.mail = [] →
    t.cur.commit = none → t.cur.wait = .run → t.cur.retCommit = false → t.cur.blocked = false →
    ((v = t ∧ t.cur.fetched = some (w0, w1)) ∨
      (t.cur.fetched = none ∧ t.cur.bodyPlace = none ∧ rangeCheck t.cur.pc = none ∧ t.loftRefused t.cur.pc 8 = false ∧
        ((t.cur.inAperture t.cur.pc = true ∧ v = t ∧ t.apertureWaits t.cur.pc = false ∧
            t.lockedAgainst (t.paOf (t.cur.loftAddr t.cur.pc)) 8 = false ∧ words (t.bytes (t.cur.loftAddr t.cur.pc) 8)) ∨
          (t.cur.inAperture t.cur.pc = false ∧ ∃ (pa : Nat) (e : Word) (x : Nat) (l : List Byte),
            t.translate (sliceDie t.cur.loc.die) t.cur.job t.cur.pc.toNat .fetch (tsrSup t.cur.tsr) t.cur.secure = (v, .ok pa e x) ∧
            v.isLocal pa = true ∧ v.homeRead t.cur.secure pa 8 = .bytes l ∧ words l)))) →
    (u.cur.aslot = false → u.cur.readC w0 w1 = .instr i → lone w0 = true ∨ u.cur.readA w1 ≠ .illegalEncoding →
      (u.cur.bodyPlace.isSome && bodyRefuses w0 w1) = false →
      step s = onNext (onNext (exec i u) (State.aged u.ids)) State.unused) ∧
    (u.cur.aslot = true → u.cur.readC w0 w1 ≠ .illegalEncoding → lone w0 = false → u.cur.readA w1 = .instr i → step s = onNext (exec i u) State.unused) ∧
    (u.cur.wain = false → u.cur.readC w0 w1 = decodeC w0 w1 ∧ u.cur.readA w1 = decodeA w1)

/-- Words that the manual prints decode to the instructions that it prints beside them. Twelve words of the C-slot and ten of the A-slot, one
or more for each kind of format, decode to the statement that the manual gives for each; an opcode that the maps do not list and a field
that must be zero are illegal encodings; the wrong queue in a copy is an illegal operand. Rests on R38, R39, R45, R49, R50, R140, R196,
R199, R211, R334, R336. -/
def Obligations.WordsOfTheManualDecode : Prop :=
  (∀ (w0 w1 : Word32) (i : Instr),
      (w0, w1, i) ∈ ([(0x0E304002, 0, .ldD 1 16 8 (.short 2)), (0x8E134000, 0x123450, .ldD 0 19 8 (.lit 0x123450)),
        (0x241147FF, 0, .stW 17 8 (.short 0x7FF)), (0x38304249, 0, .aadd 1 16 8 (.reg 9) .d), (0x3AC0A542, 0, .amaxN 20 (.reg 21) .f32),
        (0x3E004265, 0, .scSt 8 (.reg 9) .domain .d), (0x3C208440, 0, .bar 16 17), (0x44000004, 0, .call 0 4),
        (0x50304240, 0, .div 1 16 8 (.reg 9)), (0x52204812, 0, .mtsr 9 .xtag), (0x68384141, 0, .cpyTry 1 24 5),
        (0x02507C00, 0, .fmtC (some .x43) (some .f32) none)] : List (Word32 × Word32 × Instr)) → decodeC w0 w1 = .instr i) ∧
    (∀ (w : Word32) (i : Instr),
      (w, i) ∈ ([(0x22290003, .addImm 17 9 3), (0x38386000, .cmpImm 1 24 .ge 0), (0x1F38B020, .sel 25 24 22 0 1),
        (0x40221880, .vadd 1 2 3 0 .w), (0x49095280, .vfma 8 9 10 2 .f32), (0x64851000, .vtunpack 4 5 2 .i8),
        (0x718A5880, .vsmUpd 12 10 11 0), (0x6C530005, .stok 2 19 0), (0x74131800, .vloop 19 3),
        (0x059FF800, .fmtA (some .i8) none none)] : List (Word32 × Instr)) → decodeA w = .instr i) ∧
    decodeC 0x04000000 0 = .illegalEncoding ∧ decodeC 0x32010000 0 = .illegalEncoding ∧ decodeC 0x68180000 0 = .illegalOperand false ∧
    decodeA 0xFC000000 = .illegalEncoding

/-- A KICK acts on a queue of its hub, a job or a host region; any other word goes to KERR and does nothing else. For every state: SUBMIT sets
TAIL and wakes an idle queue, UNFREEZE wakes a frozen one at HEAD, CANCEL cancels the items of the queue; on a queue of the other hub each
only sets KERR. ENDJOB below 4096 marks the job as ended, cancels it and settles it. The three handovers move a region to their state,
DEVICE 1, SHARED-ATOMIC 2 and HOST 0, drop its words from the ways unless it leaves SHARED-ATOMIC, clear CSTAT and advance the counter;
they set CSTAT to 2, with REASON 6 in the counter, where the region is in that state already, and CSTAT to 1, the word staying first in
KICK, while accesses that the transition waits for are outstanding. A register write, once the firmware runs, is a write of its hub
register, and a refused word only sets KERR. Rests on R356, R367, R374, R382, R383, R416, R418. -/
def Obligations.KicksActOnQueuesJobsAndRegions : Prop :=
  ∀ (s : State) (hub : Nat) (q : BitVec 6) (arg : BitVec 32) (w : Word) (off : BitVec 32),
    let k := s.queue q.toNat
    let t : Word := arg.zeroExtend 64
    let kerr (x : Nat) : State := s.setHub hub { s.hub hub with kerr := word x }
    (hubOfQueue q.toNat = hub →
      exec (.submit hub q arg) s = .next (s.setQueue q.toNat { k with tail := t, kicked := t, state := if k.state = 0 then 1 else k.state }) ∧
      exec (.unfreeze hub q) s = .next (s.setQueue q.toNat { k with state := if k.state = 2 then 1 else k.state }) ∧
      exec (.cancel hub q) s = .next (s.cancelQueue q.toNat)) ∧
    (hubOfQueue q.toNat ≠ hub →
      exec (.submit hub q arg) s = .next (kerr (2 ^ 56 + q.toNat * 2 ^ 50 + arg.toNat)) ∧
      exec (.unfreeze hub q) s = .next (kerr (2 * 2 ^ 56 + q.toNat * 2 ^ 50)) ∧
      exec (.cancel hub q) s = .next (kerr (3 * 2 ^ 56 + q.toNat * 2 ^ 50))) ∧
    (arg.toNat < 4096 → s.ended.contains arg.toNat = false →
      exec (.endjob hub arg) s = .next ((State.cancelJob { s with ended := s.ended ++ [arg.toNat] } arg.toNat).settleJob arg.toNat)) ∧
    (∀ (i : Instr) (to' cmd : Nat), (i, to', cmd) ∈ [(.toDevice hub arg, 1, 0x10), (.toShared hub arg, 2, 0x11), (.toHost hub arg, 0, 0x12)] →
      arg.toNat < 2 ^ 18 →
      let n := arg.toNat % 64
      let c := arg.toNat / 64
      let r := (s.hub hub).region n
      let drains : Prop := r.state = 1 ∨ (r.state = 2 ∧ to' = 0)
      (r.state = to' → exec i s = .next ((s.modRegion hub n fun r => { r with cstat := 2 }).advance c (some (statWord 0 6 0)))) ∧
      (r.state ≠ to' → (drains → s.regionBusy hub n = false) →
        exec i s = .next ((State.modRegion (if r.state = 2 then s else s.dropRegion hub n) hub n fun r =>
          { r with state := to', cstat := 0 }).advance c none)) ∧
      (r.state ≠ to' → drains → s.regionBusy hub n = true →
        exec i s = .next { s.modRegion hub n fun r => { r with cstat := 1 } with kicks := (hub, word (cmd * 2 ^ 56 + arg.toNat)) :: s.kicks })) ∧
    (s.boot = .running → exec (.registerWrite hub off w) s = .next (s.hubWrite hub off.toNat w)) ∧
    (s.boot ≠ .running → exec (.registerWrite hub off w) s = .next s) ∧
    exec (.kickRefused hub w) s = .next (s.setHub hub { s.hub hub with kerr := w })

/-- Records reach the head of a queue, are served and captured; launches are placed, watched and ended. For every state: an active queue
without a head record takes the pushed record whose place has come, once what it captures has been captured, or the ring record at HEAD
that a KICK has covered, which is captured then; the complete records of a slot join the queue of its launch; the entry that arbitration
picks becomes a placement, a replay or phase, or a resumption, and the turn of its priority is kept; a queue ages by its own rule; a
replay or phase record at a head is captured; the first waiting launch that finds slots is placed, and else, with no choice outstanding,
the first that may pre-empt takes slots; a launch for which nothing is outstanding leaves the table, its queue or its node and its counter
learning of it; and one without progress for WDT microseconds is cancelled with REASON 4. Rests on R353, R374, R375, R376, R377, R382,
R387, R404, R445. -/
def Obligations.RecordsAndLaunchesGoTheirWay : Prop :=
  ∀ (s : State) (q hub : Nat) (l : Loc) (n : BitVec 32),
    let k := s.queue q
    let ls := s.waitingLaunches
    let chosen : Bool := s.units.any fun u => u.taken && !u.away
    (∀ p rest, k.record = none → k.cancelTo.toNat ≤ k.head.toNat → k.state = 1 → k.pushed = p :: rest → p.cancelled = false →
      p.mark ≤ k.head.toNat →
      (ringRecKind p.words ≠ 3 ∧ ringRecKind p.words ≠ 4 ∨ p.captured ≠ none → exec (.ringRecordRead q) s =
        .next (s.setQueue q { k with record := some p.words, captured := p.captured, ringRecord := false, pushed := rest })) ∧
      (ringRecKind p.words = 3 ∨ ringRecKind p.words = 4 → p.captured = none → exec (.ringRecordRead q) s = .next s)) ∧
    (∀ ws t, k.record = none → k.cancelTo.toNat ≤ k.head.toNat → k.state = 1 → k.pushed = [] → k.head.toNat < k.kicked.toNat →
      s.cpRead (hubOfQueue q) q k.job (ringRecord k) = .ok ws t →
      let x := t.setQueue q { t.queue q with record := some ws, captured := none, graph := none, ringRecord := true, head := k.head + 1 }
      exec (.ringRecordRead q) s = .next (x.captureAt q .head ws) ∧
      (ringRecKind ws ≠ 3 → ringRecKind ws ≠ 4 → x.captureAt q .head ws = x)) ∧
    (∀ u j, (s.units.find? fun u => u.loc == l && u.hasRecord) = some u → u.q11.length = 8 →
      (s.launch? u.launch).bind s.ownQueue = some j →
      let t := s.modUnits (fun v => v.is u.loc u.launch) fun v => { v with q11 := v.q11.drop 8 }
      let x := t.queue j
      let id := t.nextReplay
      exec (.q11Record l) s = .next (State.captureAt (State.setQueue { t with nextReplay := id + 1 } j { x with
        pushed := x.pushed ++ [{ mark := max x.kicked.toNat x.head.toNat, words := u.q11.take 8, id }]
        state := if x.state = 0 then 1 else x.state }) j (.pushed id) (u.q11.take 8))) ∧
    (∀ e turn c, s.arbitrateQueues hub = some (e, turn, c) →
      let t := s.setHub hub { s.hub hub with turns := Sparse.put (s.hub hub).turns e.prio (turn, c) }
      let x := t.queue e.queue
      (∀ m, e.resume = some m → exec (.recordServe hub) s = .next (t.setQueue e.queue
        { x with resuming := x.resuming ++ [m], resumeSince := x.resumeSince.filter fun y => y.1 ≠ m })) ∧
      (∀ ws, e.resume = none → x.record = some ws → x.captured = none →
        exec (.recordServe hub) s = .next (t.serveLaunch hub e.queue e.prio ws)) ∧
      (∀ ws y, e.resume = none → x.record = some ws → x.captured = some y →
        exec (.recordServe hub) s = .next (t.serveGraph hub e.queue (ringRecKind ws) ws y))) ∧
    exec (.priorityAging q) s = .next (s.setQueue q (k.age s.time)) ∧
    (∀ j, s.captureQueue hub 3 = some j → exec (.graphReplay hub) s = .next (s.capture hub j)) ∧
    (∀ g, s.captureQueue hub 3 = none → ((s.hub hub).graphs.find? fun g => s.mayReplay hub g) = some g →
      exec (.graphReplay hub) s = .next (s.startReplay hub g)) ∧
    (∀ j, s.captureQueue hub 4 = some j → exec (.phaseRecord hub) s = .next (s.capture hub j)) ∧
    (∀ t, s.placeFirst ls = some t → exec .unitPlace s = .next t) ∧
    (s.placeFirst ls = none → exec .unitPlace s = .next (if chosen = true then s else (s.preemptFirst ls).getD s)) ∧
    (∀ x, s.launch? n = some x → s.launchBusy x = false →
      let t : State := { s with launches := s.launches.filter fun y => y.num ≠ n }
      let err := x.failure.map fun f => statWord f.2.1 f.1 n
      (∀ j, x.node = none → x.queue = some j → exec (.launchComplete n) s = .next (State.endTop
        (t.setQueue j { t.queue j with running := (t.queue j).running.filter (· ≠ n) }) j x.job x.counter err)) ∧
      (∀ id node, x.node = some (id, node) →
        exec (.launchComplete n) s = .next (State.endNode (t.endItem x.job x.counter err) id node err))) ∧
    (∀ x, s.launch? n = some x → s.wdt ≠ 0 → s.counts n = true → 1000 * s.wdt.toNat ≤ s.time.toNat - x.progress.toNat →
      exec (.watchdog n) s = .next (s.cancelLaunch n 4))

/-- A ready node of a replay does what its TYPE says: it launches, copies, waits, signals, decides, loops or patches. For every state and
every node of a running replay that is ready and whose fields are legal: SIGNAL adds to its counter and completes; WAIT completes where
the counter has reached its target or has ERR, and else is running; COPY hands its request to the copy engine of cluster 0 of the nearer
die and is running; COND releases the arm that the word at its address selects; LOOP with DW starts its first iteration at once, and PATCH
writes the words that it reads into its target and completes; LAUNCH, its dependence met and its records legal, starts its launch and is
running. A ready node whose fields a PATCH has left illegal fails with CODE 0. Rests on R385, R386, R445. -/
def Obligations.NodesOfAReplayAct : Prop :=
  ∀ (s : State) (id i : Nat) (r : Replay) (n : Node), s.replay? id = some r → r.node? i = some n → r.ready i s.time = true →
    (nodeRefused r.nodes i n = true → ∀ x ∈ [Instr.nodeLaunch id i, .nodeCopy id i, .nodeWait id i, .nodeSignal id i, .nodeCond id i,
      .nodeLoop id i, .nodePatch id i], exec x s = .next (s.nodeFails id i 0)) ∧
    (nodeRefused r.nodes i n = false →
    (n.typ = 4 → exec (.nodeSignal id i) s = .next ((s.setCounter (n.w 4).toNat ((s.counter (n.w 4).toNat).add (n.w 5).toNat)).nodeDone id i)) ∧
    (n.typ = 3 → let w := (s.counter (n.w 4).toNat).word
      ((n.w 5).toNat ≤ bits w 62 0 ∨ w.getLsbD 63 = true → exec (.nodeWait id i) s = .next (s.nodeDone id i)) ∧
      (bits w 62 0 < (n.w 5).toNat → w.getLsbD 63 = false → exec (.nodeWait id i) s = .next (s.runNode id i))) ∧
    (n.typ = 2 → n.state ≠ .running →
      let who := s.cpIssuer r.hub r.job
      let q : CopyReq := { w0 := n.w 8, w1 := n.w 9, w2 := n.w 10, w3 := n.w 11, tag := 0, by' := who, released := s.time, node := some (id, i) }
      let c := clusterId who.loc.die 0
      exec (.nodeCopy id i) s = .next (State.runNode (s.setCluster c { s.cluster c with nodeCopies := (s.cluster c).nodeCopies ++ [q] }) id i)) ∧
    (∀ w t, n.typ = 5 → s.cpRead r.hub (itemOf r.id i) r.job (engWords (n.w 4).toNat 1) = .ok [w] t →
      exec (.nodeCond id i) s = .next ((t.modReplay id fun r => r.endCond i (w != 0)).settleReplay id)) ∧
    (n.typ = 6 → r.bodyRuns n = false → n.dw = true → n.iters = 0 →
      exec (.nodeLoop id i) s = .next (s.modReplay id fun r => r.iterate i n)) ∧
    (∀ w t, n.typ = 6 → r.bodyRuns n = false → n.dw = false →
      s.cpRead r.hub (itemOf r.id i) r.job (engWords (n.w 4).toNat 1) = .ok [w] t →
      exec (.nodeLoop id i) s = .next (if w ≠ 0 ∧ n.iters < n.maxit then t.modReplay id fun r => r.iterate i n else t.nodeDone id i)) ∧
    (∀ ws t, n.typ = 7 → s.cpRead r.hub (itemOf r.id i) r.job (engWords (n.w 4).toNat (n.w 6).toNat) = .ok ws t →
      exec (.nodePatch id i) s = .next (State.nodeDone (t.modReplay id fun r =>
        { r with nodes := patchNodes r.nodes (ws.mapIdx fun j x => (bits (n.w 5) 15 0, bits (n.w 5) 19 16 + j, x)) }) id i)) ∧
    (∀ h t, n.typ = 1 → let ws := (n.words.drop 8).take 8
      s.depMet ws = true → s.recordBad r.job ws = false → s.cpRead r.hub (itemOf r.id i) r.job (engWords (recHdr ws) 8) = .ok h t →
      t.headerBad r.job ws h = false →
      exec (.nodeLaunch id i) s = .next ((t.startLaunch r.job ((t.queue r.queue).pri) none (some (id, i)) ws h).runNode id i)))

/-- Between instructions a unit takes owed traps, aborts, commits on, runs alone, stops, drains, resumes and retires. For every state that
enables it, each of these events answers the state of its own effect: a late trap is entered, and a MATRIX_DATA trap, ahead of the wait or
the commit in which the unit stands, which it leaves and whose locks it gives back; the oldest of four windows is spilled, a commit goes
on and where it ends the windows of older instructions cover one bundle less, a marked task is discarded and restarts (waiting for the
token at the eighth abort in a row), the first waiting task takes the token, a cancelled unit retires with REASON 2 and code 0xFFFF, an
illegal word traps at its slot, the debugger holds a unit, a chosen slot stops, a drained core leaves, a served launch resumes, a complete
instruction writes its pending destination once its window has closed (and keeps it pending before), and the dies exchange their lowest
timestamps. Rests on R41, R42, R51, R189, R299, R324, R327, R328, R383, R405, R407, R410. -/
def Obligations.UnitsBetweenTheirInstructions : Prop :=
  ∀ (s : State) (l : Loc) (b : Bool),
    (∀ t rest, s.cur.owed = t :: rest → (t.late && s.cur.aslot) = false → s.cur.visible = false → s.cur.wait.yields = true →
      s.settled = true → exec .lateTrap s = .next (State.enterTrap (s.leaveFor.modCur fun u => { u with owed := rest }) t)) ∧
    (∀ w rest, s.cur.owedMatrix = w :: rest → s.owesMatrix = true → s.settled = true →
      exec .matrixData s = .next (State.enterTrap (s.leaveFor.modCur fun u =>
          { u with owedMatrix := rest, owedTd := false, owed := u.owed.filter fun t => t.late || t.beyond })
        { trap := .matrixData, faddr := w, td := s.cur.owedTd })) ∧
    (s.leaveFor.cur.wait = .run ∧ s.leaveFor.cur.commit = none ∧ s.leaveFor.mem = s.mem ∧ s.leaveFor.cur.regs = s.cur.regs ∧
      s.leaveFor.cur.task.ops = s.cur.task.ops ∧ (s.cur.commit.isSome = true → s.leaveFor.cur.prepared = none) ∧
      (s.cur.wait = .run → s.cur.commit = none → s.leaveFor = s)) ∧
    (∀ w, s.cur.saved.length = 3 → s.cur.saved.getLast? = some w → s.touches s.cur.oldestKeys = false →
      s.cur.lsb.toNat + 8192 + 128 ≤ s.cur.wsp.toNat →
      exec .eagerSpill s = .next (State.modCur (s.setBytes (s.cur.loftAddr (s.cur.wsp - 128)) (bytesOfWords w.toList)) fun u =>
        { u with wsp := u.wsp - 128, saved := u.saved.dropLast })) ∧
    (∀ t, s.cur.commit = some (.tcommit, false) → (s.cur.marked && !s.cur.visible && !s.cur.task.nonspec) = false → s.cur.mail = [] →
      s.CommitsTo .tcommit false t → exec .commitVisible s = .next (State.aged s.ids (t.afterC id))) ∧
    (s.cur.marked = true → s.cur.visible = false → s.cur.task.nonspec = false → s.cur.aslot = false →
      exec .taskAbort s = .next (s.discard.restart.modCur fun u =>
        { u with aborts := s.cur.aborts + 1, owedTd := !u.owedMatrix.isEmpty, wait := if 8 ≤ s.cur.aborts + 1 then .nonspec else .run,
                 nonspecSince := s.time })) ∧
    (s.token = none → s.mayRunAlone s.cur = true → (s.others.any fun u => s.mayRunAlone u && waitsBefore u s.cur) = false →
      exec .nonspecRun s = .next { s with token := some s.cur.loc, cur := { s.cur with
        wait := .run, turn := .ran, task := { s.cur.task with nonspec := true } } }) ∧
    (s.mayCancel = true → exec .unitCancelRetire s = .next (s.leaveWait.discard.retire 2 0xFFFF)) ∧
    (s.settled = true → exec (.illegalEncoding b) s = .next (s.enterTrap
      { trap := .illegalEncoding, faddr := if b then s.cur.pc ||| 1 else s.cur.pc })) ∧
    exec (.debuggerStop l) s = .next (s.modUnits (fun u => u.placed && u.loc == l && !u.away) fun u => { u with debug := true }) ∧
    ((s.focus l).cur.loc = l → (s.focus l).mayStop = true → exec (.slotStop l) s = .next (s.focus l).stopSlot) ∧
    (s.draining (coreId ⟨l.die, l.cluster, l.core, 0⟩) = true →
      let c := clusterId l.die l.cluster
      let k := coreId ⟨l.die, l.cluster, l.core, 0⟩
      exec (.preemptDrain l.die l.cluster l.core) s =
        .next (State.leaveCore (State.finishStep c k true 80 (State.finishStep c k false 80 s)) ⟨l.die, l.cluster, l.core, 0⟩)) ∧
    (∀ u, (s.units.find? fun u => u.loc == l && u.away && (s.queues.any fun q => q.2.resuming.contains u.launch)) = some u →
      s.resumeSet u = [u] → s.slotFreeFor u = true → s.slotsHeld u.job + 1 ≤ s.maxSlot u.job →
      let t := s.setCore u.coreId ((s.core u.coreId).restoreFor u.launch)
      let x : State := State.replaySpill { t.modUnits (fun v => [u].contains v) (fun v => v.restored t.ids) with ids := t.ids + 1 } u
      let v := x.modUnits (fun v => v.placed && [u].any fun x => x.loc == v.loc && x.launch == v.launch) Machine.Unit.completeReady
      exec (.resume l) s = .next { v with queues := v.queues.map fun (q : Nat × Queue) =>
        (q.1, { q.2 with resuming := q.2.resuming.filter fun n => n ≠ u.launch || v.couldResume n }) }) ∧
    (∀ p x, s.cur.pend = [p] → p.values = some [x] → p.failed = none →
      (p.left = 0 → s.cur.aslot = false → exec .lookaheadComplete s = .next (s.modCur fun u =>
        { (if p.dz then u.raiseFlags { dz := true } else u).setKeys p.dests [x] with pend := [] })) ∧
      (p.hold = false → 0 < p.left → exec .lookaheadComplete s = .next s)) ∧
    exec .lowtsExchange s = .next ((List.range 8).foldl (fun (t : State) d => t.setDie d { t.die d with lowTs := s.lowTsFor d }) s)

/-- An access is translated, walks, and is accepted at its home; the host reads, writes and performs atomics there. For every state that
enables it: an access that hits the cache of its slice leaves for its home, one that does not joins or begins a walk, and the end of a
walk sends its access on; an accepted access is performed at its home; a slice found outside its clock enters skew mode with an empty
cache and its message is posted, or waits for room. Once the firmware runs and no lock holds the words, the host reads the bytes of the
home, or of the registers of the hub through BAR0, writes them, and performs its three atomics, whose old value is the answer; the oldest
access that waits at a hub is performed on success, and an atomic ends in HOST_ATOMIC with its HACAP bit cleared on UR or CA, a held
reduction of a visible commit leaving the trap to its unit and the request of another module being refused for reason 9. Rests on R71,
R72, R73, R76, R354, R415, R433, R436. -/
def Obligations.SlicesHomesAndHosts : Prop :=
  ∀ (s : State) (r : XlReq) (die slice hub : Nat) (off : BitVec 36) (data : List Byte) (z : ScSize) (v : Word) (c y : BitVec 128) (size : Nat),
    let d := sliceDie r.loc.die
    (∀ t, s.sliceHit d r = true → s.depart d r 0 = some t → exec (.sliceTranslate r) s = .next t) ∧
    (s.sliceHit d r = false → s.walks = [] →
      exec (.sliceTranslate r) s = .next { s with walks := [{ slice := sliceOf r.va.toNat, die := d, reqs := [r] }] }) ∧
    (∀ w, s.sliceHit d r = false → s.walks = [w] → s.walkFor d r.job r.va.toNat w = true →
      exec (.sliceTranslate r) s = .next { s with walks := [{ w with reqs := w.reqs ++ [r] }] }) ∧
    (∀ w rest x, s.walks = w :: rest → w.reqs = [x] → w.joined = [] → s.unfocus.walkLeaf x.job x.va.toNat ≠ .wait →
      exec .pageWalkComplete s = .next (s.apart fun v =>
        let v : State := { v with walks := rest }
        let y := v.walkIn w.die (v.walkLeaf x.job x.va.toNat) (xlAsk x)
        (y.1.sentOrMailed x y.2, ())).1) ∧
    (∀ x pa e expiry, (s.sentOrMailed x (.ok pa e expiry)).flights = s.flights ++ [{ req := x, pa, expiry, refusals := 0 }]) ∧
    (∀ f rest x, s.flights = f :: rest → s.isLocal f.pa = true → s.time.toNat < f.expiry → s.acceptAt f = some (x, none) →
      exec .homeAccept s = .next { x with flights := rest }) ∧
    (let h := s.die die;
      Sparse.find? h.skew slice = none → exec (.skewCheck die slice false) s = .next (State.postSkewOf (s.setDie die { h with
        skew := h.skew ++ [(slice, 0)], tlb := h.tlb.filter (fun c => c.slice ≠ slice), skewMail := h.skewMail ++ [(slice, 7)] }) die)) ∧
    (s.boot = .running →
      let pa := s.bar2 hub off
      let answer (t : State) (l : List Byte) : State := t.setHub hub { t.hub hub with hostReply := l }
      let n := scBytes z
      (∀ l, s.anyLock pa size = false → s.homeRead false pa size = .bytes l → exec (.hostRead hub (.bar2 off) size) s = .next (answer s l)) ∧
      (∀ e, s.anyLock pa size = false → s.homeRead false pa size = .fault e → exec (.hostRead hub (.bar2 off) size) s = .next (answer s [])) ∧
      (∀ reg : BitVec 32, exec (.hostRead hub (.bar0 reg) size) s = .next (answer s (s.hubBytes hub reg.toNat size))) ∧
      (s.anyLock pa data.length = false → s.writeRefused false false pa = none →
        exec (.hostWrite hub off data) s = .next (s.homeWrite pa data)) ∧
      (s.anyLock pa n = false → pa % n = 0 → s.writeRefused false false pa = none →
        let old := ofBytes (s.homeGet pa n)
        exec (.hostFetchAdd hub off z v) s = .next (answer (s.homeWrite pa (bytesOf n ((old + v.toNat) % 2 ^ (8 * n)))) (bytesOf n old)) ∧
        exec (.hostSwap hub off z v) s = .next (answer (s.homeWrite pa (bytesOf n (v.toNat % 2 ^ (8 * n)))) (bytesOf n old))) ∧
      (s.anyLock pa size = false → pa % size = 0 → s.writeRefused false false pa = none →
        let old := ofBytes (s.homeGet pa size)
        (old = c.toNat % 2 ^ (8 * size) → exec (.hostCas hub off size c y) s =
          .next (answer (s.homeWrite pa (bytesOf size (y.toNat % 2 ^ (8 * size)))) (bytesOf size old))) ∧
        (old ≠ c.toNat % 2 ^ (8 * size) → exec (.hostCas hub off size c y) s = .next (answer s (bytesOf size old))))) ∧
    (∀ a rest, (s.hub hub).atomics = a :: rest →
      let h := s.hub hub
      let done : State := s.setHub hub { h with atomics := rest }
      let failed (t : State) : State :=
        if a.commit = true then t.modUnits (fun u => u.placed && u.loc == a.loc && u.visible) fun u =>
          { u with owed := u.owed ++ [{ hostTrap a.ea with beyond := true }] }
        else t.answerPend a.pend fun q => { q with failed := some (q.trap (hostTrap a.ea)) }
      (∀ l st, a.store = some l → exec (.hubHostAtomic hub st) s = .next (done.homeWrite a.pa l)) ∧
      (∀ k, a.store = none → a.asker = .packet k →
        (s.hostCompletes (localOf a.pa) a.op a.t = true → a.commit = false → s.writeRefused true false a.pa = none →
          let p := done.unfocus.farAtomic a.pa (typeBytes a.t) fun old => a.op.apply a.t old a.y.toNat a.cmp.toNat
          exec (.hubHostAtomic hub .sc) s = .next (p.1.respond k .data 0 (bytesOf (typeBytes a.t) p.2))) ∧
        (∀ st ∈ [PcieStatus.ur, .ca], exec (.hubHostAtomic hub st) s = .next (State.refuseAgain
          (s.setHub hub { h with hacap := h.hacap &&& ~~~(word (2 ^ hacapBit a.op a.t)), atomics := rest }) k 9))) ∧
      (a.store = none → a.asker = .unit → s.hostCompletes (localOf a.pa) a.op a.t = true → (a.commit = true ∨ s.writeRefused true false a.pa = none) →
        let p := done.unfocus.homeAtomic a.pa (typeBytes a.t) fun old => a.op.apply a.t old a.y.toNat a.cmp.toNat
        exec (.hubHostAtomic hub .sc) s =
          .next (if a.commit = true then p.1 else p.1.answerPend a.pend fun q => { q with values := some (atomicValues a.t p.2) })) ∧
      (∀ st ∈ [PcieStatus.ur, .ca], a.store = none → a.asker = .unit → exec (.hubHostAtomic hub st) s =
        .next (failed (s.setHub hub { h with hacap := h.hacap &&& ~~~(word (2 ^ hacapBit a.op a.t)), atomics := rest }))))

/-- A copy engine takes a request, starts it, moves a chunk and reports; a rope engine takes, performs, walks and answers a command. For every
state: with a run place free the copy engine takes the next request in its rotation, frees its entry, and reads its records, a request
with bad words ending with STATUS 9 and a cancelled one with STATUS 13; a timed run whose start TIME has reached may access its data; the
first run that may go on takes its turn and goes behind the others, and where its chunk meets no fault, lock or wait its writes are
performed and it is past the points of the chunk; a cancelled request that never started reports STATUS 13, and a run that has ended
reports once its inbox has room. The rope engine takes its next released command that no earlier one must precede, performs it, once the
counts that other modules keep have been changed there, and sends its record once its queue has room, and forms the next descriptor of an
rwalk; a block in DRAIN is FREE from its horizon on. Rests on R107, R127, R139, R141, R143, R148, R149, R151, R122. -/
def Obligations.CopyAndRopeEnginesGoOn : Prop :=
  ∀ (s : State) (die cluster index : Nat),
    let cl := clusterId die cluster
    let k := s.cluster cl
    let back (r : CopyRun) : State := s.setCluster cl { k with running := k.running.filter (fun x => !sameRun x r) ++ [r] }
    let free (l : Loc) : Prop := ∀ x ∈ s.remotes, (x.loc == l) = false
    (∀ r, (cluster < 20 → k.running.length < 4) → nextKey k.rotation (s.copyHeads cl) = some r →
      let run : CopyRun := { req := r, f := [], s := [], cancelled := r.cancelled, start := if r.ts then startTime r.startField r.released.toNat else 0 }
      let t := if r.node.isSome = true then s.setCluster cl { k with nodeCopies := k.nodeCopies.drop 1 }
        else s.modUnits (fun u => u.is r.by'.loc r.by'.launch) fun u => { u with copies := u.copies.drop 1 }
      let u := t.setCluster cl { t.cluster cl with rotation := r.key, running := (t.cluster cl).running ++ [run] }
      exec (.copyStart die cluster) s = .next (u.loadRecords cl run) ∧
      (r.cancelled = true → exec (.copyStart die cluster) s = .next (u.setRun cl (run.fail 13 0 0))) ∧
      (r.cancelled = false → r.badWords = true → exec (.copyStart die cluster) s = .next (u.setRun cl (run.fail 9 0 0))) ∧
      (∀ f g v, r.cancelled = false → r.badWords = false → EngM.result (readRecords r) (u.copySt run) = .ok (f, g, none) v →
        exec (.copyStart die cluster) s = .next (State.setRun (v.s.dropRemotes r.loc) cl { run with f := f, s := g }))) ∧
    (∀ r, (k.running.find? fun r => r.req.ts && !r.f.isEmpty && r.status.isNone && decide (r.start ≠ 0) && decide (r.start ≤ s.time.toNat)) =
        some r → exec (.copyTimedStart die cluster) s = .next (s.setRun cl { r with start := 0 })) ∧
    (∀ r, (k.running.find? fun r => (r.status.isNone || r.pushing) && !r.isOver) = some r →
      exec (.copyChunk die cluster) s = .next ((back r).copyStep cl r) ∧
      (∀ c v, (back r).copyFaulted r = false → free r.req.loc → r.f ≠ [] → r.pushing = false → r.cancelled = false → r.status = none →
        (r.req.ts = true → r.start = 0) → EngM.result (chunkWork cl r) (((back r).dropWrites r.req.loc).copySt r) = .ok c v →
        v.unlocked = true → exec (.copyChunk die cluster) s = .next (v.perform.endChunk cl r c))) ∧
    (∀ r, s.endingNext cl = some r →
      exec (.copyComplete die cluster) s = .next ((s.setCluster cl { k with ending := dropFirst r k.ending }).copyReport r 13 0 0 0)) ∧
    (∀ r, s.endingNext cl = none → k.running.find? CopyRun.ended = some r → (back r).copyFaulted r = false → free r.req.loc →
      (back r).copyRoom r.req = true → (r.status.isSome = true ∨ r.req.tg = false) →
      exec (.copyComplete die cluster) s = .next ((back r).reportRun cl r r.next)) ∧
    (∀ c rest, (s.die die).rope = none → (s.die die).q5 = c :: rest → s.ropeWaits die c = false →
      exec (.ropeCommandTake die) s = .next (s.setDie die { s.die die with
        rope := some { cmd := c, ended := if c.cancelled = true then some (13, 0, [0, 0, 0]) else none }, q5 := rest })) ∧
    (∀ r, (s.die die).rope = some r → s.ropeFault die = false →
      let sent (t : State) (status nodes : Nat) (ws : List Word) : State :=
        ((t.dropRemotes (ropeLoc die)).setRope die none).ropeReport r.cmd (ropeAnswer r.cmd status nodes ws)
      let room (t : State) : Prop := (∀ x ∈ t.remotes, (x.loc == ropeLoc die) = false) ∧
        (r.cmd.form = .returning ∨ t.roomFor r.cmd.by'.loc r.cmd.by'.launch (if r.cmd.form = .plain then 6 else 0) = true)
      (∀ status nodes ws, r.ended = some (status, nodes, ws) → r.buf = [] → room s →
        exec (.ropeCommandDone die) s = .next (sent s status nodes ws)) ∧
      (∀ ws v, r.ended = none → r.cmd.fn ≠ .rwalk → r.buf = [] → EngM.result ((ropeWork r.cmd).run' {}) (s.engSt die r.cmd) = .ok ws v →
        v.unlocked = true → ∀ x, s.claim v = (x, .done) →
        let p := EngSt.perform { v with s := { v.s with
          remotes := x.remotes, laneHoles := x.laneHoles, outbox := x.outbox, laneOut := x.laneOut } }
        let t : State := { p.setRope die (some { r with ended := some (0, v.nodes, ws) }) with pools := Sparse.put p.pools r.cmd.by'.job v.pool }
        room t → exec (.ropeCommandDone die) s = .next (sent t 0 v.nodes ws))) ∧
    (∀ v : EngSt, (∀ w ∈ v.log, w.before = none ∨ s.isLocal w.pa = true) → (∀ x ∈ s.remotes, (x.loc == v.loc) = false) →
      s.claim v = (s, .done)) ∧
    (∀ r a, (s.die die).rope = some r → r.cmd.fn = .rwalk → r.ended = none → s.ropeFault die = false →
      s.pushWalk r false = (s, r, true) →
      ∀ t, EngM.result ((walkNext r.cmd r.walked).run' {}) (s.engSt die r.cmd) = .ok (some a) t →
      let q := { r with pushed := r.pushed + 1, walked := r.walked + a.2, buf := r.buf ++ a.1 }
      let u := (t.s.dropRemotes (ropeLoc die)).pushWalk q false
      exec (.rwalkDescriptorPush die) s = .next (u.1.setRope die (some u.2.1))) ∧
    (let pa := s.directoryPa (die * 2 ^ 29 + index);
     let d := DirEntry.ofBytes (s.bytes (localOf pa) 32);
      d.state = 2 → d.hzn.toNat ≤ s.time.toNat →
        exec (.blockDrainExpire die index) s = .next (s.engineSet pa (DirEntry.bytes { d with state := 0 })))

/-- An array is granted a step, reads a row, pushes a result and completes; a tile moves at its head; a zeroed bank answers again. For every
state: with no step granted, no power hold and no row that meets a full q3, the arbiter grants a ready step, loading its weights where
they are legal and ending the command with its error where they are not; no grant falls while power is held. A row of the granted step
leaves q2: a row-scale entry is kept, a legal row accumulates and drains once the turn of its command has come, and the array is free
after the last row unless one is still to be pushed. The first command whose result finds room in q3 pushes it; a command that may report
is removed and reports; the move at the head of the queue of a tile is performed; and the end of zeroing lets the bank answer and ends the
lbank that waits for it with 0, at the end of whose C-slot the windows of older instructions cover one bundle less. Rests on R182, R287,
R288, R289, R291, R293, R295, R296, R298, R299. -/
def Obligations.ArraysTilesAndBanksGoOn : Prop :=
  ∀ (s : State) (die cluster core bank : Nat) (product : Bool) (y : BitVec 2),
    let cl := clusterId die cluster
    let a := (s.cluster cl).array product
    (∀ p g c, s.powerHold = false → a.granted = none → s.arrayHeld cl product = false → s.arbitrate cl product = some (p, g) →
      (s.core (cl * 16 + p)).next product = some c →
      let key := cl * 16 + p
      let block := s.bytes (granaryBase die cluster + c.blockAt c.seg) (64 * blockWords product c.fb (crNs c.creg))
      (c.badBlock block = none →
        exec (.arrayGrant die cluster product) s = .next (State.setArray (s.setCore key ((s.core key).modCmd { c with
          granted := true, weights := Sparse.put (c.weights.filter fun w => c.acc.any fun x => x.1 == w.1) c.seg block })) cl product
          { cur := p, count := g, granted := some c.id })) ∧
      (∀ o, c.badBlock block = some o →
        exec (.arrayGrant die cluster product) s = .next (State.outChecks (State.setArray (s.setCore key ((s.core key).endCmd { c with
          granted := true, err := some (word (2 ^ 63 + c.seg * 2 ^ 56 + alignDown (c.blockAt c.seg + o) 64)) })) cl product
          { a with cur := p, count := g }) cl product))) ∧
    (s.powerHold = true → exec (.arrayGrant die cluster product) s = .next s) ∧
    (∀ i id key c n m bytes c', i = (if product = true then Instr.productRow die cluster else .flailRow die cluster) →
      s.arrayHeld cl product = false → a.granted = some id → s.coreWith cl id = some (key, c) → c.ended = false →
      (s.core key).nextRead c = some (n, m, bytes, c') →
      let k := { s.core key with q2 := dropRows c.slot n m (s.core key).q2 }
      (c.wantsScales = true → exec i s = .next ((s.setCore key (k.modCmd c')).outChecks cl product)) ∧
      (c.wantsScales = false → (valuesIn c.fa (segmentSize product) bytes).isSome = true → c.cancelled = false →
        let d := { c' with acc := c.acc ++ [(c.seg, c.row, bytes)], drained := c'.seg }
        let r := (k.modCmd d).drain d
        let t := s.setCore key r.1
        exec i s = .next (State.outChecks (if c.row + 1 = crM c.creg ∧ r.2.pushes = false then t.freeArray cl product else t) cl product))) ∧
    (∀ key c, ((s.arrayCmds cl product).find? fun x => x.2.pushes && s.q3Room x.2) = some (key, c) →
      exec (.q3Push die cluster product) s = .next (s.pushRow cl key c)) ∧
    (∀ key c, (∀ x ∈ s.arrayCmds cl product, x.2.acc = [] ∧ (x.2.outOver && !x.2.outDone) = false) →
      ((s.arrayCmds cl product).find? fun x => s.mayReport cl x.1 x.2) = some (key, c) →
      let d := if c.ended = true then c else { c with drained := crKs c.creg }
      exec (.matrixComplete die cluster product) s = .next (State.matrixReport (s.setCore key ((s.core key).remove d)) d)) ∧
    (∀ m rest, (Sparse.find? (s.core (cl * 16 + core)).tileQ y.toNat).getD [] = .move m :: rest →
      let key := cl * 16 + core
      exec (.tileMovePerform die cluster core y) s =
        .next (State.moveTile (s.setCore key { s.core key with tileQ := Sparse.put (s.core key).tileQ y.toNat rest }) key y.toNat m)) ∧
    ((s.cluster cl).zeroing.contains bank = true →
      ∃ t, exec (.lbankZeroDone die cluster bank) s = .next t ∧ t.mem = s.mem ∧
        (t.cluster cl).zeroing = (s.cluster cl).zeroing.filter (· ≠ bank) ∧ (∀ l ∈ (t.cluster cl).lbanks, l ∈ (s.cluster cl).lbanks) ∧
        (∀ d, s.cur.placed = true → s.cur.away = false → s.cur.clusterId = cl → s.cur.wait = .lbank d bank none →
          t.cur = (({ s.cur with wait := .run }.setS d 0).pastC false).age s.ids ∧ (t.cluster cl).lbanks.contains s.cur.loc = false))

/-- Fabric requests are served in their lane and answered; timed sends and beacons leave at their time. For every state: before MODID has been
written nothing is accepted. A packet for another module is put out again unchanged. A request that is next in its empty lane, and that no
lease, lock or refusal holds back, is served and the lane goes on to the next LSEQ: READ answers DATA with the bytes of its home, WRITE
and PERFORM write theirs and answer ACK, LOCK takes the word and answers ACK, UNLOCK gives it back without an answer, ATOMIC answers the
old value, or waits at the hub for the host, SC takes its place in the order of its home, and SEND enters q10 of its slot and answers ACK.
News of an SC operation opens an entry that holds back those behind it. A DATA, ACK or REFUSE reaches the request of its lane and LSEQ
that waits, and the ACK of a send counts it as accepted. A flit with a bad CRC only makes the port send a NAK, and a good one in sequence
that is a whole packet delivers it. A good beacon for this module from the UP port sets TIME, corrected by the delay of the link, and the
second in a row clears LOST. For every state: the sends of a die whose T has come leave its egress in the order of T, the others stay;
both hubs send beacons and the delays of their UP links are measured, a hub that takes no part, or whose module has no MODID yet, sending
none and the master sending its TIME with hop count 1 on every port that takes it, to the module at its other end (log 48); a module that
takes part, is not the master, and has had no good beacon for 8000 ns sets LOST in both hubs. Rests on R62, R73, R335, R351, R352, R355,
R420, R421, R422, R423, R425, R427. -/
def Obligations.FabricRequestsBeaconsAndTimedSends : Prop :=
  (∀ (s : State) (k : Packet) (port : Nat) (raw : List Byte),
    let key := laneKey k
    let lane := s.laneAt key
    let pa := s.paOf (k.addr % 2 ^ 46)
    let v (t : PktType) : State := s.setLane key { lane with waiting := [(t, k)] }
    let w (t : PktType) : State × Bool := (v t).packetWorld k
    let after (x : State) : State := x.setLane key { x.laneAt key with next := (k.lseq + 1) % 4096, waiting := [] }
    let n := k.data.length
    let f := flitOf raw
    (∀ i ∈ [Instr.fabricRead k, .fabricWrite k, .fabricLock k, .fabricPerform k, .fabricUnlock k, .fabricAtomic k, .fabricSc k,
      .fabricSend k, .fabricData k, .fabricAck k, .fabricRefuse k, .fabricBeacon port k, .flitReceive port raw],
      s.numbered = false → exec i s = .next s) ∧
    (∀ (i : Instr) (t : PktType),
      (i, t) ∈ [(.fabricRead k, .read), (.fabricWrite k, .write), (.fabricLock k, .lock), (.fabricPerform k, .perform),
        (.fabricUnlock k, .unlock), (.fabricAtomic k, .atomic), (.fabricSc k, .sc), (.fabricSend k, .send),
        (.fabricData k, .data), (.fabricAck k, .ack), (.fabricRefuse k, .refuse), (.fabricBeacon port k, .beacon)] →
      s.numbered = true → k.dst ≠ s.modid.toNat → exec i s = .next { s with outbox := s.outbox ++ [(hubOfDie k.sdie, t, k)] }) ∧
    (s.numbered = true → k.dst = s.modid.toNat → lane.next = k.lseq → lane.waiting = [] → lane.again = [] →
      (∀ l, let m := (k.data.getD 0 0).toNat
        (v .read).leaseOver k.exp = false → (v .read).blockedAt pa m = false →
        State.homeRead { (w .read).1 with locks := [], remoteLocks := [] } (w .read).2 pa m = .bytes l →
        exec (.fabricRead k) s = .next (after ((w .read).1.respond k .data 0 l))) ∧
      ((v .write).leaseOver k.exp = false → (v .write).blockedAt pa n = false → (w .write).1.writeRefused (w .write).2 true pa = none →
        exec (.fabricWrite k) s = .next (after (((w .write).1.homeWrite pa k.data).respond k .ack 0 []))) ∧
      (isHost pa = false → (v .lock).leaseOver k.exp = false → (v .lock).blockedAt pa 4 = false →
        (w .lock).1.writeRefused (w .lock).2 false pa = none →
        exec (.fabricLock k) s = .next (after (((w .lock).1.takeRemote (k.src, k.sdie) (alignDown pa 4)).respond k .ack 0 []))) ∧
      (s.lost = false → exec (.fabricPerform k) s = .next (after (((v .perform).homeWrite pa k.data).respond k .ack 0 []))) ∧
      (s.lost = false → k.addr % 4 = 0 → exec (.fabricUnlock k) s = .next (after { v .unlock with
        remoteLocks := s.remoteLocks.filter fun r => r ≠ (alignDown pa 4, k.src, k.sdie) })) ∧
      (let op := atomOpOf (k.data.getD 0 0).toNat;
       let ty := atypeOf (k.data.getD 1 0).toNat;
       let y := ofBytes ((k.data.drop 3).take 16);
       let cmp := ofBytes ((k.data.drop 19).take 16);
        k.data.getD 2 0 = 0 → (v .atomic).leaseOver k.exp = false → (v .atomic).blockedAt pa (typeBytes ty) = false →
        (w .atomic).1.writeRefused (w .atomic).2 false pa = none →
        (isHost pa = false →
          let r := (w .atomic).1.farAtomic pa (typeBytes ty) fun old => op.apply ty old y cmp
          exec (.fabricAtomic k) s = .next (after (r.1.respond k .data 0 (bytesOf (typeBytes ty) r.2)))) ∧
        (∀ h, regionOf (localOf pa) = .host h → s.hostCompletes (localOf pa) op ty = true →
          let x := (w .atomic).1
          exec (.fabricAtomic k) s = .next (after (x.setHub h { x.hub h with atomics := (x.hub h).atomics ++
            [{ loc := ⟨0, 0, 0, 0⟩, op, t := ty, ea := 0, pa, y := BitVec.ofNat 128 y, cmp := BitVec.ofNat 128 cmp, pend := 0,
               asker := .packet k }] })))) ∧
      (k.data.getD 0 0 ≠ 0xFF → (v .sc).leaseOver k.exp = false →
        (w .sc).1.scRefused (w .sc).2 (scOpOf (k.data.getD 0 0).toNat) pa (if k.data.getD 1 0 = 0 then 4 else 8) = none →
        ∃ a, exec (.fabricSc k) s = .next (after { (w .sc).1 with announced :=
            (s.announced.filter fun x => !(x.isOf k (ofBytes ((k.data.drop 30).take 8)) && x.asker == .announced)) ++ [a] }) ∧
          a.pa = pa ∧ a.module = k.src ∧ a.known = true ∧ a.asker = .packet k ∧ a.op = scOpOf (k.data.getD 0 0).toNat ∧
          a.window = (word (ofBytes ((k.data.drop 18).take 8))).toNat / scWindow a.scope ∧
          a.ready = (a.window + 1) * scWindow a.scope + scDelay a.scope) ∧
      (∀ u, let l : Loc := ⟨bits (word k.addr) 45 43, bits (word k.addr) 42 38, bits (word k.addr) 37 35, bits (word k.addr) 34 32⟩
        let r := (v .send).senderOf k
        (v .send).sendTarget l = some u → s.lost = false → u.secure = r.2.2 → (v .send).roomFor l u.launch 10 = true →
        let w0 := word (k.src % 1024 * 2 ^ 54 + r.2.1.die % 8 * 2 ^ 51 + r.2.1.cluster % 32 * 2 ^ 46 + r.2.1.core % 8 * 2 ^ 43 +
          r.2.1.slot % 8 * 2 ^ 40 + bits (word k.addr) 31 24 * 2 ^ 32)
        exec (.fabricSend k) s = .next (after
          ((r.1.deliver l u.launch 10 { bytes := bytesOfWords [w0, r.1.time] ++ k.data }).respond k .ack 0 [])))) ∧
    (s.numbered = true → k.dst = s.modid.toNat → k.data.getD 0 0 = 0xFF →
      exec (.fabricSc k) s = .next (s.hearSc k) ∧
      (let window := ofBytes ((k.data.drop 10).take 8);
        k.data.getD 1 0 = 0 → (s.announced.any fun x => x.isOf k (ofBytes ((k.data.drop 21).take 8))) = false → window < 2 ^ 56 →
        s.time.toNat < (window + 1) * 256 + 1000 →
        ∃ a, s.hearSc k = { s with announced := s.announced ++ [a] } ∧ a.known = false ∧ a.asker = .announced ∧ a.module = k.src ∧
          a.scope = .domain ∧ a.window = window ∧ a.loc.die = k.sdie)) ∧
    (∀ r, s.numbered = true → k.dst = s.modid.toNat → (s.remotes.find? fun r => r.answers k) = some r →
      (r.typ ≠ .send → r.dropped = false → r.fill = none →
        let kept (t : PktType) (reason : Nat) : State := { s with
          remotes := s.remotes.map fun x => if x = r then { x with answer := some (t, reason, k.data) } else x }
        exec (.fabricData k) s = .next ((kept .data 0).freshOnce r.loc r.va) ∧
        exec (.fabricAck k) s = .next ((kept .ack 0).freshOnce r.loc r.va) ∧
        exec (.fabricRefuse k) s = .next (kept .refuse (k.addr / 2 ^ 48 % 256))) ∧
      (r.typ = .send → exec (.fabricAck k) s = .next (s.sendAccepted r))) ∧
    (s.numbered = true → f.crcGood = false → exec (.flitReceive port raw) s = .next (s.setPort port { s.port port with sendNak := true })) ∧
    (let p := s.port port;
      s.numbered = true → f.crcGood = true → p.unacked = [] → p.replays = 0 → f.nak = false → f.nul = false → f.sop = true →
        f.eop = true → f.seq = p.next → p.buffered f.vl < 512 → exec (.flitReceive port raw) s = .next (s.setPort port (Port.restop { p with
          stopped := f.stop, down := false, next := (p.next + 1) % 4096, acked := f.seq, sendNak := false
          partials := p.partials.filter (fun x => x.1 ≠ f.vl), packets := p.packets ++ [(f.vl, f.pay)] }))) ∧
    (let h := s.hub (port / 9);
     let hop := (k.data.getD 8 0).toNat;
     let time := word (ofBytes (k.data.take 8)) + word (s.port port).delay;
     let t : State := { s with time, beaconAt := time, hops := hop, beacons := s.beacons + 1 };
      s.numbered = true → k.dst = s.modid.toNat → h.en = true → h.up = port →
      (1 ≤ hop → hop ≤ 8 → exec (.fabricBeacon port k) s = .next (if 1 ≤ s.beacons then t.setLost false else t)) ∧
      (hop = 0 ∨ 8 < hop → exec (.fabricBeacon port k) s = .next { s with beacons := 0 }))) ∧
  (∀ (s : State) (die : Nat),
    let d := s.die die
    let now := s.time.toNat
    let due (e : List Byte × Issuer) : Bool :=
      decide (startTime (bits (word (ofBytes ((e.1.drop 8).take 8))) 47 0) now ≤ now)
    (∃ l : List (List Byte × Issuer), exec (.sendTimedEgress die) s = .next (l.foldl (fun (t : State) e => t.emitSend e.2 e.1)
        (s.setDie die { d with egress := d.egress.filter fun e => !due e })) ∧
      l.Perm (d.egress.filter due) ∧ l.Pairwise fun x y => egressTime now x ≤ egressTime now y) ∧
    (let b := (s.sendBeacons 0).sendBeacons 1;
      exec .beaconSend s = .next ((upTo 2).foldl (fun (t : State) h =>
        let up := (t.hub h).up
        if (t.hub h).en && up < 18 then t.setPort up { t.port up with delay := (Config.linkDelay t.draws).toNat } else t)
        { b with draws := b.draws + 1 })) ∧
    (∀ hub ∈ upTo 2, ((s.hub hub).en = false ∨ s.numbered = false → s.sendBeacons hub = s) ∧
      (s.numbered = true → (s.hub hub).en = true → (s.hub hub).up = 31 → ∀ i ∈ upTo 9, (s.port (9 * hub + i)).takes 4 = true →
        (s.sendBeacons hub).port (9 * hub + i) = (s.port (9 * hub + i)).push .beacon
          { dst := (Config.portModule (9 * hub + i)).toNat, src := s.modid.toNat, sdie := 6 + hub, lseq := 0, exp := 0, addr := 0
            data := bytesOf 8 s.time.toNat ++ bytesOf 8 1 })) ∧
    (∀ hub ∈ upTo 2, (s.hub hub).en = true → (s.hub hub).up ≠ 31 → s.beaconAt.toNat + 8000 ≤ s.time.toNat →
      exec .beaconLost s = .next (State.setLost { s with beacons := 0 } true)))

/-- A message between dies leaves those that wait, does its work at the home or the ways of its die, and is answered with its TAG. For every
state in which no earlier message of its class between the same dies waits, with t the state without the message and without an acting
unit: PERFORM writes and answers ACK, UNLOCK gives its lock back, INV clears the words of its span or signature from the ways of the die
and answers INVACK, SIG clears without an answer, MARK marks the tasks of the die, LOWTS and SCANN record what they announce; READ, LOCK,
ATOMIC and WRITE to an address of that die that nothing refuses or holds do as at any home and answer DATA or ACK, and SC takes its place
in the order of its home; a response reaches its request; an engine command is taken in and its end removes it; a good flit in sequence
delivers its messages, those for another die going on toward it; a beacon of a hub die sets TIME. A HOME die of an integrator sends INV
for the words of a PERFORM to every K-die first, and its answer leaves with the last INVACK. While an earlier message of the same class
and way waits, nothing happens. Rests on R168, R318, R319, R322, R324, R335, R350, R429, R430. -/
def Obligations.DieMessagesDoTheirWork : Prop :=
  ∀ (s : State) (m : DieMsg),
    let gone (c n : Nat) : State := State.unfocus { s with dieIn := s.dieIn.filter (· ≠ (c, n, m)) }
    let first (c n : Nat) : Prop := s.dieBehind (c, n, m) = false
    let answer (t : State) (n : Nat) (l : List Byte) : State :=
      { t with dieOut := t.dieOut ++ [(1, n, { sdie := m.ddie, ddie := m.sdie, addr := m.addr, tag := m.tag, exp := 0, data := l })] }
    let pa := s.paOf m.addr
    let who := (1024 + m.sdie, 0)
    let home : Prop := ((s.homeDieOf m.addr).all fun d => d == m.ddie) = true
    (home → first 2 0 → m.ddie < 8 → exec (.dieWrPerform m) s = .next (answer ((gone 2 0).homeWrite pa m.data) 1 [])) ∧
    (let t := (gone 2 0).homeWrite pa m.data;
      home → first 2 0 → 8 ≤ m.ddie → m.data ≠ [] → s.kDies ≠ [] → exec (.dieWrPerform m) s = .next { t with
        ids := t.ids + 1
        dieOut := t.dieOut ++ s.kDies.map fun d =>
          (2, 3, { sdie := m.ddie, ddie := d, addr := localOf pa, tag := t.ids % 65536, exp := 0, data := bytesOf 2 m.data.length })
        homeAcks := t.homeAcks ++ [{ answer := (1, 1, { sdie := m.ddie, ddie := m.sdie, addr := m.addr, tag := m.tag, exp := 0, data := [] })
                                     tag := t.ids % 65536, left := s.kDies }] }) ∧
    (let mine (x : Nat × Nat × DieMsg) : Bool := x.1 != 4 && x.2.2.tag == m.tag && x.2.2.sdie == m.ddie && x.2.2.ddie == m.sdie;
      s.dieAsked.any mine = true → ∃ t, exec (.dieRspInvack m) s = .next t ∧
        (∀ h, h.answer.2.2.sdie = m.ddie → h.tag = m.tag → s.homeAcks = [h] →
          (h.left.filter (· ≠ m.sdie) = [] → t.homeAcks = [] ∧ t.dieOut = s.dieOut ++ [h.answer]) ∧
          (h.left.filter (· ≠ m.sdie) ≠ [] → t.homeAcks = [{ h with left := h.left.filter (· ≠ m.sdie) }] ∧ t.dieOut = s.dieOut))) ∧
    (home → first 2 2 → exec (.dieWrUnlock m) s =
      .next { gone 2 2 with remoteLocks := s.remoteLocks.filter fun r => r ≠ (alignDown pa 4, who.1, who.2) }) ∧
    (first 2 3 → exec (.dieWrInv m) s = .next (answer ((gone 2 3).clearDie m.ddie fun w =>
      if m.data.length = 128 then inSig (sigOf m.data) w else decide (alignDown pa 4 ≤ w) && decide (w < pa + ofBytes m.data)) 3 [])) ∧
    (first 3 0 → exec (.dieArbSig m) s = .next ((gone 3 0).clearDie m.ddie (inSig (sigOf m.data)))) ∧
    (first 3 2 → exec (.dieArbMark m) s = .next ((gone 3 2).mark (sigOf m.data) fun u => u.loc.die == m.ddie)) ∧
    (∀ (i : Instr) (c n : Nat), (i, c, n) ∈ [(.dieReqRead m, 0, 0), (.dieReqLock m, 0, 1), (.dieReqAtomic m, 0, 2), (.dieReqSc m, 0, 3),
        (.dieWrPerform m, 2, 0), (.dieWrWrite m, 2, 1), (.dieWrUnlock m, 2, 2), (.dieWrInv m, 2, 3), (.dieArbSig m, 3, 0),
        (.dieArbLowts m, 3, 1), (.dieArbMark m, 3, 2), (.dieArbScann m, 3, 3)] → s.dieBehind (c, n, m) = true → exec i s = .next s) ∧
    (let d := s.die m.ddie;
     let launch := BitVec.ofNat 32 (ofBytes (m.data.take 4));
      first 3 1 → exec (.dieArbLowts m) s = .next ((gone 3 1).setDie m.ddie { d with
        lowTs := d.lowTs.filter (fun e => !(e.1 == m.sdie && e.2.1 == launch)) ++ [(m.sdie, launch, BitVec.ofNat 32 (ofBytes ((m.data.drop 4).take 4)))] })) ∧
    (first 3 3 → ∃ a, exec (.dieArbScann m) s = .next { gone 3 3 with announced := s.announced ++ [a] } ∧ a.asker = .die m ∧ a.known = false ∧
      a.loc.die = m.sdie ∧ a.pa = pa ∧ a.window = (word (ofBytes (m.data.take 8))).toNat / scWindow a.scope ∧
      a.ready = (a.window + 1) * scWindow a.scope + scDelay a.scope) ∧
    (∀ l, let t := gone 0 0
      let w := t.freeWorld
      let n := (m.data.getD 0 0).toNat
      home → first 0 0 → t.leaseOver m.exp = false → t.blockedAt pa n = false →
      State.homeRead { w.1 with locks := [], remoteLocks := [] } w.2 pa n = .bytes l →
      exec (.dieReqRead m) s = .next (answer w.1 0 l)) ∧
    (let t := gone 0 1;
     let w := t.freeWorld;
      home → first 0 1 → isHost pa = false → t.leaseOver m.exp = false → t.blockedAt pa 4 = false → w.1.writeRefused w.2 false pa = none →
      exec (.dieReqLock m) s = .next (answer (w.1.takeRemote who (alignDown pa 4)) 1 [])) ∧
    (let t := gone 2 1;
     let w := t.freeWorld;
      home → first 2 1 → m.ddie < 8 → t.leaseOver m.exp = false → t.blockedAt pa m.data.length = false → w.1.writeRefused w.2 true pa = none →
      exec (.dieWrWrite m) s = .next (answer (w.1.homeWrite pa m.data) 1 [])) ∧
    (let t := gone 0 2;
     let w := t.freeWorld;
     let op := atomOpOf (m.data.getD 0 0).toNat;
     let ty := atypeOf (m.data.getD 1 0).toNat;
      home → first 0 2 → m.ddie < 8 → t.leaseOver m.exp = false → t.blockedAt pa (typeBytes ty) = false → w.1.writeRefused w.2 false pa = none →
      isHost pa = false → m.data.getD 2 0 = 0 →
      let r := w.1.homeAtomic pa (typeBytes ty) fun old =>
        op.apply ty old (ofBytes ((m.data.drop 3).take 16)) (ofBytes ((m.data.drop 19).take 16))
      exec (.dieReqAtomic m) s = .next (answer r.1 0 (bytesOf (typeBytes ty) r.2))) ∧
    (let t := gone 0 3;
     let p := t.freeWorld;
     let found := p.1.announced.find? fun a => !a.known && a.fromDie && a.loc.die == m.sdie && a.pa == pa;
      home → first 0 3 → t.leaseOver m.exp = false →
      p.1.scRefused p.2 (scOpOf (m.data.getD 0 0).toNat) pa (if m.data.getD 1 0 = 0 then 4 else 8) = none →
      (∀ a, found = some a → exec (.dieReqSc m) s = .next { p.1 with
        announced := s.announced.map fun x => if x = a then { a with known := true, asker := .die m } else x }) ∧
      (found = none → ∃ a, exec (.dieReqSc m) s = .next { p.1 with announced := s.announced ++ [a] } ∧
        a.known = true ∧ a.asker = .die m ∧ a.pa = pa ∧ a.loc.die = m.sdie)) ∧
    (exec (.dieRspData m) s = s.dieResponse 0 m ∧ exec (.dieRspAck m) s = s.dieResponse 1 m ∧
      exec (.dieRspRefuse m) s = s.dieResponse 2 m ∧ exec (.dieRspInvack m) s = s.dieResponse 3 m ∧ ∀ n, ∃ t, s.dieResponse n m = .next t) ∧
    exec (.dieEngCmd m) s = .next { s with dieIn := s.dieIn.filter (· ≠ (4, 0, m)) ++ [(4, 0, m)] } ∧
    exec (.dieEngDone m) s = .next { s with
      dieAsked := s.dieAsked.filter (fun x => !(x.1 == 4 && x.2.2.tag == m.tag && x.2.2.sdie == m.ddie && x.2.2.ddie == m.sdie))
      dieIn := s.dieIn.filter (· ≠ (4, 1, m)) ++ [(4, 1, m)] } ∧
    (m.sdie = 6 ∨ m.sdie = 7 → exec (.dieMgmtBeacon m) s =
      .next { s with time := word (ofBytes (m.data.take 8)), dieIn := s.dieIn.filter (· ≠ (5, 1, m)) }) ∧
    (∀ die port raw, let p := s.diePort die port
      let f := dieFlitOf raw
      (f.crcGood = false ∨ f.seq ≠ p.next → exec (.dieFlitReceive die port raw) s =
        .next (s.setDiePort die port { p with sendNak := true })) ∧
      (f.crcGood = true → f.seq = p.next → p.unacked = [] → p.replays + f.nak.toNat < 8 →
        let r := dieMsgs 16 (p.slots ++ f.slots)
        exec (.dieFlitReceive die port raw) s = .next { s.setDiePort die port { p with
          stopped := f.stop, replays := p.replays + f.nak.toNat, down := false, next := (p.next + 1) % 4096, acked := f.seq, sendNak := false
          slots := r.2 } with
          dieIn := s.dieIn ++ r.1.filter (fun x => endsAt die x.1 x.2.1 x.2.2)
          dieFwd := s.dieFwd ++ (r.1.filter fun x => !endsAt die x.1 x.2.1 x.2.2).map fun x => (die, x) }))

/-- Boot goes from held to verified to discovering, worlds change with their bytes zeroed, and care counts, holds, stops and logs. For every
state: PERST release checks the keys and verifies an image slot, or stops boot; the K-dies are released into discovery; a fuse rises to
the version of the image after a successful boot that asks for it; a die sends DISCOVER on every port, records the partner that answers,
or closes a port without an answer for 100 microseconds, and a contradiction, or a partner that the wiring of the module rules out, sets
MISMATCH; measurements and challenges add a signed response; a region-table write keeps every byte but those that leave the secure world,
which read zero; an idle block of any kind takes the world of the job that starts, and one that is not idle keeps its own; power, thermal
and soft-error events act on their own state alone; a double-bit error is logged and cancels the launch that read it. SC_PERFORM performs
the next announced operation at its home once its window allows and no lock holds its word. Rests on R335, R9, R431, R433, R434, R435,
R437, R438, R440, R441, R442. -/
def Obligations.BootWorldsAndCare : Prop :=
  ∀ (s : State) (hub die port kind b : Nat) (nonce : BitVec 256) (x : Discover) (e : BitVec 8) (w0 w1 : Word) (l : BitVec 32),
    (s.boot = .held → exec .perstRelease s =
      .next { s with boot := if keysVerify && (s.slotVerifies 0 || s.slotVerifies 1) then .verified else .stopped }) ∧
    (s.boot = .verified → exec .kDieRelease s = .next { s with boot := .discovering, releasedAt := s.time }) ∧
    (s.boot = .running → exec (.rollbackFuseBlow hub kind) s =
      .next (match (Config.flash s.imageSlot).find? fun i => i.kind.toNat == kind with
        | some i => if i.asks then s.setHub hub { s.hub hub with
            fuses := Sparse.put (s.hub hub).fuses kind (max ((Sparse.find? (s.hub hub).fuses kind).getD 0) i.svn.toNat) } else s
        | none => s)) ∧
    (s.boot ≠ .running → exec (.rollbackFuseBlow hub kind) s = .next s) ∧
    exec (.getMeasurements hub) s = .next (s.answerSpdm hub (s.measurements hub)) ∧
    exec (.challenge hub nonce) s = .next (s.answerSpdm hub (bytesOf 32 nonce.toNat ++ s.measurements hub)) ∧
    (∃ t, exec (.discoverSend die) s = .next t ∧ t.dieOut = s.dieOut ++ (List.range (portsOf die)).map (fun p =>
      (5, 0, { sdie := die, ddie := 0, addr := 0, tag := p, exp := 0, data := discoverData (declares die p) })) ∧ t.mem = s.mem) ∧
    ((s.diePort die port).peer = none → s.releasedAt.toNat + 100000 ≤ s.time.toNat → exec (.discoverTimeout die port) s = .next (State.settleBoot (State.setPeer
      (s.setDiePort die port { s.diePort die port with closed := true }) (declares die port) port 0xFF))) ∧
    (x.die = die ∨ s.mayPair die port x.die x.port = false ∨ s.mayPair x.die x.port die port = false → exec (.dieMgmtDiscover die port x) s = .next (State.settleBoot { s with mismatch := true })) ∧
    (x.die ≠ die → Sparse.find? s.topo x.die = none → (s.diePort die port).peer = none → (s.diePort x.die x.port).peer = none →
      s.mayPair die port x.die x.port = true → s.mayPair x.die x.port die port = true →
      exec (.dieMgmtDiscover die port x) s = .next (State.settleBoot (State.setPeer (State.setPeer
        (s.setDiePort die port { s.diePort die port with peer := some (x.die, x.port), closed := false }) (declares die port) port
        (x.die % 16 * 16 + x.port % 16)) x x.port (die % 16 * 16 + port % 16)))) ∧
    (∃ t, exec (.regionTableWrite e w0 w1) s = .next t ∧ t.secureRegions = putRegion e.toNat (regionEntry w0 w1) s.secureRegions ∧
      t.cur = s.cur ∧ t.others = s.others ∧ (Memory.wf s.mem = true → ∀ a, t.byte a =
        if secureAt s.secureRegions a && !secureAt t.secureRegions a then 0 else s.byte a)) ∧
    (∀ (c : Nat) (job : BitVec 12), let secure := (s.jobWord job.toNat 3).getLsbD 62
      (s.blockIdle (.cluster die c) = true → exec (.blockWorldSet (.cluster die c) job) s =
        .next (s.setCluster (clusterId die c) { s.cluster (clusterId die c) with secure })) ∧
      (s.blockIdle (.rope die) = true → exec (.blockWorldSet (.rope die) job) s = .next (s.setDie die { s.die die with ropeSecure := secure })) ∧
      (s.blockIdle (.command hub) = true → exec (.blockWorldSet (.command hub) job) s = .next (s.setHub hub { s.hub hub with secure })) ∧
      (∀ y ∈ [Block.wain die c port, .hostLink hub, .lpddrCopy port], s.blockIdle y = true →
        ∃ l, exec (.blockWorldSet y job) s = .next { s with secureBlocks := l } ∧ (y ∈ l ↔ secure = true) ∧
          ∀ z, z ≠ y → (z ∈ l ↔ z ∈ s.secureBlocks)) ∧
      (∀ y, s.blockIdle y = false → exec (.blockWorldSet y job) s = .next s)) ∧
    exec .powerLimit s = .next { s with powerHold := true } ∧ exec .powerBelowLimit s = .next { s with powerHold := false } ∧
    exec .thermalStop s = .next { s with stopped := true } ∧
    exec (.singleBitError die b) s = .next { s with softErrors := s.softErrors + 1 } ∧
    (let t := s.setHub (hubOfDie die) { s.hub (hubOfDie die) with log := (s.hub (hubOfDie die)).log ++ [(die, b)] };
      exec (.doubleBitError die b none) s = .next t ∧ exec (.doubleBitError die b (some l)) s = .next (t.cancelLaunch l 2)) ∧
    (∀ a, let t := s.scClean
      t.scNext = some a → a.known = true → a.ready ≤ s.time.toNat → t.scBlocked a = false → t.anyLock a.pa (scBytes a.z) = false →
      exec .scPerform s = .next (t.scPerform a) ∧
      (a.asker = .unit → t.scRefused true a.op a.pa (scBytes a.z) = none → (∀ h, regionOf (localOf a.pa) ≠ .host h) →
        let r := t.unfocus.homeAtomic a.pa (scBytes a.z) fun old => a.op.apply a.z old a.y.toNat a.cmp.toNat
        exec .scPerform s = .next (r.1.scAnswer a r.2)))
end

