-- ==== Sys2Proof/Laws/Sparse.lean ====
section
/-! SUPPORT. Laws of the sparse tables: a read after a write, and the canonical form, which every write keeps. -/

namespace Sys2Proof.Sparse

variable {α : Type} [DecidableEq α]

/-- A key below every listed key reads as the default. -/
theorem get_below (d : α) : ∀ (l : List (Nat × α)) (lo a : Nat), wfFrom d lo l = true → a < lo → get d l a = d := by
  intro l
  induction l with
  | nil => intros; rfl
  | cons e r ih =>
    obtain ⟨k, x⟩ := e
    intro lo a h ha
    simp only [wfFrom, Bool.and_eq_true, decide_eq_true_eq] at h
    have h1 : a ≠ k := by omega
    have h2 : a < k := by omega
    simp [get, h1, h2]

/-- A canonical table is canonical from any lower bound on. -/
theorem wfFrom_mono (d : α) (l : List (Nat × α)) (lo lo' : Nat) (h : wfFrom d lo l = true) (hl : lo' ≤ lo) : wfFrom d lo' l = true := by
  cases l with
  | nil => rfl
  | cons e r =>
    simp only [wfFrom, Bool.and_eq_true, decide_eq_true_eq] at h ⊢
    exact ⟨⟨by omega, h.1.2⟩, h.2⟩

/-- A write keeps the canonical form from a lower bound on. -/
theorem wfFrom_set (d : α) : ∀ (l : List (Nat × α)) (lo a : Nat) (v : α), wfFrom d lo l = true → lo ≤ a → wfFrom d lo (set d l a v) = true := by
  intro l
  induction l with
  | nil =>
    intro lo a v _ ha
    by_cases hv : v = d <;> simp [set, wfFrom, hv, ha]
  | cons e r ih =>
    obtain ⟨k, x⟩ := e
    intro lo a v h ha
    simp only [wfFrom, Bool.and_eq_true, decide_eq_true_eq] at h
    obtain ⟨⟨hk, hx⟩, hr⟩ := h
    by_cases hak : a = k
    · subst hak
      by_cases hv : v = d
      · simpa [set, hv] using wfFrom_mono d r (a + 1) lo hr (by omega)
      · simp [set, hv, wfFrom, hk, hr]
    · by_cases hlt : a < k
      · by_cases hv : v = d
        · simp [set, hak, hlt, hv, wfFrom, hk, hx, hr]
        · have : a + 1 ≤ k := hlt
          simp [set, hak, hlt, hv, wfFrom, ha, hx, hr, this]
      · have : k + 1 ≤ a := by omega
        simp [set, hak, hlt, wfFrom, hk, hx, ih (k + 1) a v hr this]

/-- A write keeps the canonical form. -/
theorem wf_set (d : α) (l : List (Nat × α)) (a : Nat) (v : α) (h : wf d l = true) : wf d (set d l a v) = true :=
  wfFrom_set d l 0 a v h (Nat.zero_le a)

/-- A read after a write of the same key gives the value written. -/
theorem get_set_same (d : α) : ∀ (l : List (Nat × α)) (lo a : Nat) (v : α), wfFrom d lo l = true → get d (set d l a v) a = v := by
  intro l
  induction l with
  | nil => intro lo a v _; by_cases hv : v = d <;> simp [set, get, hv]
  | cons e r ih =>
    obtain ⟨k, x⟩ := e
    intro lo a v h
    simp only [wfFrom, Bool.and_eq_true, decide_eq_true_eq] at h
    by_cases hak : a = k
    · subst hak
      by_cases hv : v = d
      · simpa [set, hv] using get_below d r (a + 1) a h.2 (by omega)
      · simp [set, hv, get]
    · by_cases hlt : a < k
      · by_cases hv : v = d
        · simp [set, hak, hlt, hv, get]
        · simp [set, hak, hlt, hv, get]
      · simp [set, hak, hlt, get, ih (k + 1) a v h.2]

/-- A write leaves every other key alone. -/
theorem get_set_other (d : α) : ∀ (l : List (Nat × α)) (lo a b : Nat) (v : α), wfFrom d lo l = true → b ≠ a → get d (set d l a v) b = get d l b := by
  intro l
  induction l with
  | nil => intro lo a b v _ hb; by_cases hv : v = d <;> simp [set, get, hv, hb]
  | cons e r ih =>
    obtain ⟨k, x⟩ := e
    intro lo a b v h hb
    simp only [wfFrom, Bool.and_eq_true, decide_eq_true_eq] at h
    by_cases hak : a = k
    · subst hak
      by_cases hv : v = d
      · by_cases hbk : b < a
        · simpa [set, hv, get, hb, hbk] using get_below d r (a + 1) b h.2 (by omega)
        · simp [set, hv, get, hb, hbk]
      · simp [set, hv, get, hb]
    · by_cases hlt : a < k
      · by_cases hv : v = d
        · simp [set, hak, hlt, hv]
        · by_cases hba : b < a
          · have h1 : b ≠ k := by omega
            have h2 : b < k := by omega
            simp [set, hak, hlt, hv, get, hb, hba, h1, h2]
          · simp [set, hak, hlt, hv, get, hb, hba]
      · have ih' := ih (k + 1) a b v h.2 hb
        simp [set, hak, hlt, get, ih']

/-- Entries dropped from a canonical table leave it canonical. -/
theorem wfFrom_filter (d : α) (p : Nat × α → Bool) : ∀ (l : List (Nat × α)) (lo : Nat), wfFrom d lo l = true → wfFrom d lo (l.filter p) = true := by
  intro l
  induction l with
  | nil => intros; rfl
  | cons e r ih =>
    obtain ⟨k, x⟩ := e
    intro lo h
    simp only [wfFrom, Bool.and_eq_true, decide_eq_true_eq] at h
    obtain ⟨⟨hk, hx⟩, hr⟩ := h
    have ih' := ih (k + 1) hr
    by_cases hp : p (k, x) = true
    · simp [hp, wfFrom, hk, hx, ih']
    · simpa [List.filter_cons, hp] using wfFrom_mono d _ (k + 1) lo ih' (by omega)

end Sys2Proof.Sparse
end

