-- ==== Sys2Proof/Laws/Memory.lean ====
section
/-! SUPPORT. Laws of memory: a byte reads as it was last written, every other byte as before, and every operation keeps the canonical
form. -/

namespace Sys2Proof.Machine

theorem reset_mem_wf : Memory.wf State.reset.mem = true := rfl

theorem setByte_mem_wf (s : State) (a : Nat) (b : Byte) (h : Memory.wf s.mem = true) : Memory.wf (s.setByte a b).mem = true :=
  Sparse.wf_set 0 s.mem a b h

theorem setBytes_mem_wf (l : List Byte) : ∀ (s : State) (a : Nat), Memory.wf s.mem = true → Memory.wf (s.setBytes a l).mem = true := by
  induction l with
  | nil => intro s a h; exact h
  | cons b r ih => intro s a h; exact ih (s.setByte a b) (a + 1) (setByte_mem_wf s a b h)

theorem setWord64_mem_wf (s : State) (a : Nat) (x : Word) (h : Memory.wf s.mem = true) : Memory.wf (s.setWord64 a x).mem = true :=
  setBytes_mem_wf _ s a h

theorem zeroBytes_mem_wf (s : State) (a n : Nat) (h : Memory.wf s.mem = true) : Memory.wf (s.zeroBytes a n).mem = true :=
  Sparse.wfFrom_filter 0 _ s.mem 0 h

theorem byte_setByte_same (s : State) (a : Nat) (b : Byte) (h : Memory.wf s.mem = true) : (s.setByte a b).byte a = b :=
  Sparse.get_set_same 0 s.mem 0 a b h

theorem byte_setByte_other (s : State) (a c : Nat) (b : Byte) (h : Memory.wf s.mem = true) (hc : c ≠ a) : (s.setByte a b).byte c = s.byte c :=
  Sparse.get_set_other 0 s.mem 0 a c b h hc

theorem byte_setBytes_outside (l : List Byte) : ∀ (s : State) (a c : Nat), Memory.wf s.mem = true → (c < a ∨ a + l.length ≤ c) →
    (s.setBytes a l).byte c = s.byte c := by
  induction l with
  | nil => intro s a c _ _; rfl
  | cons b r ih =>
    intro s a c h hc
    have hc' : c < a + 1 ∨ a + 1 + r.length ≤ c := by simp only [List.length_cons] at hc; omega
    have hne : c ≠ a := by simp only [List.length_cons] at hc; omega
    exact (ih (s.setByte a b) (a + 1) c (setByte_mem_wf s a b h) hc').trans (byte_setByte_other s a c b h hne)

theorem byte_setBytes_inside (l : List Byte) : ∀ (s : State) (a i : Nat) (hi : i < l.length), Memory.wf s.mem = true →
    (s.setBytes a l).byte (a + i) = l[i] := by
  induction l with
  | nil => intro s a i hi; exact absurd hi (Nat.not_lt_zero i)
  | cons b r ih =>
    intro s a i hi h
    have hw := setByte_mem_wf s a b h
    cases i with
    | zero =>
      exact (byte_setBytes_outside r (s.setByte a b) (a + 1) (a + 0) hw (by omega)).trans (byte_setByte_same s a b h)
    | succ j =>
      have hj : j < r.length := by simpa using hi
      have e : a + (j + 1) = a + 1 + j := by omega
      simpa [State.setBytes, e] using ih (s.setByte a b) (a + 1) j hj hw

end Sys2Proof.Machine
end

