-- ==== Sys2Proof/Laws/State.lean ====
section
/-! SUPPORT. One lemma for each field and each update of the state, and of a unit by its register writes, so that no proof unfolds a record
update. -/

namespace Sys2Proof.Machine

/-! ### `State.setCur` -/

@[simp] theorem State.setCur_time (s : State) (u : Unit) : (s.setCur u).time = s.time := rfl
@[simp] theorem State.setCur_draws (s : State) (u : Unit) : (s.setCur u).draws = s.draws := rfl
@[simp] theorem State.setCur_tokens (s : State) (u : Unit) : (s.setCur u).tokens = s.tokens := rfl
@[simp] theorem State.setCur_ids (s : State) (u : Unit) : (s.setCur u).ids = s.ids := rfl
@[simp] theorem State.setCur_cur (s : State) (u : Unit) : (s.setCur u).cur = u := rfl
@[simp] theorem State.setCur_others (s : State) (u : Unit) : (s.setCur u).others = s.others := rfl
@[simp] theorem State.setCur_waiting (s : State) (u : Unit) : (s.setCur u).waiting = s.waiting := rfl
@[simp] theorem State.setCur_launches (s : State) (u : Unit) : (s.setCur u).launches = s.launches := rfl
@[simp] theorem State.setCur_nextLaunch (s : State) (u : Unit) : (s.setCur u).nextLaunch = s.nextLaunch := rfl
@[simp] theorem State.setCur_mem (s : State) (u : Unit) : (s.setCur u).mem = s.mem := rfl
@[simp] theorem State.setCur_locks (s : State) (u : Unit) : (s.setCur u).locks = s.locks := rfl
@[simp] theorem State.setCur_token (s : State) (u : Unit) : (s.setCur u).token = s.token := rfl
@[simp] theorem State.setCur_cores (s : State) (u : Unit) : (s.setCur u).cores = s.cores := rfl
@[simp] theorem State.setCur_clusters (s : State) (u : Unit) : (s.setCur u).clusters = s.clusters := rfl
@[simp] theorem State.setCur_dies (s : State) (u : Unit) : (s.setCur u).dies = s.dies := rfl
@[simp] theorem State.setCur_hubs (s : State) (u : Unit) : (s.setCur u).hubs = s.hubs := rfl
@[simp] theorem State.setCur_pools (s : State) (u : Unit) : (s.setCur u).pools = s.pools := rfl
@[simp] theorem State.setCur_faults (s : State) (u : Unit) : (s.setCur u).faults = s.faults := rfl
@[simp] theorem State.setCur_walks (s : State) (u : Unit) : (s.setCur u).walks = s.walks := rfl
@[simp] theorem State.setCur_prefetches (s : State) (u : Unit) : (s.setCur u).prefetches = s.prefetches := rfl
@[simp] theorem State.setCur_faultMail (s : State) (u : Unit) : (s.setCur u).faultMail = s.faultMail := rfl
@[simp] theorem State.setCur_flights (s : State) (u : Unit) : (s.setCur u).flights = s.flights := rfl
@[simp] theorem State.setCur_remotes (s : State) (u : Unit) : (s.setCur u).remotes = s.remotes := rfl
@[simp] theorem State.setCur_announced (s : State) (u : Unit) : (s.setCur u).announced = s.announced := rfl
@[simp] theorem State.setCur_counters (s : State) (u : Unit) : (s.setCur u).counters = s.counters := rfl
@[simp] theorem State.setCur_queues (s : State) (u : Unit) : (s.setCur u).queues = s.queues := rfl
@[simp] theorem State.setCur_replays (s : State) (u : Unit) : (s.setCur u).replays = s.replays := rfl
@[simp] theorem State.setCur_phases (s : State) (u : Unit) : (s.setCur u).phases = s.phases := rfl
@[simp] theorem State.setCur_nextReplay (s : State) (u : Unit) : (s.setCur u).nextReplay = s.nextReplay := rfl
@[simp] theorem State.setCur_nodeMsgs (s : State) (u : Unit) : (s.setCur u).nodeMsgs = s.nodeMsgs := rfl
@[simp] theorem State.setCur_cpFails (s : State) (u : Unit) : (s.setCur u).cpFails = s.cpFails := rfl
@[simp] theorem State.setCur_ended (s : State) (u : Unit) : (s.setCur u).ended = s.ended := rfl
@[simp] theorem State.setCur_jobFails (s : State) (u : Unit) : (s.setCur u).jobFails = s.jobFails := rfl
@[simp] theorem State.setCur_jobtab (s : State) (u : Unit) : (s.setCur u).jobtab = s.jobtab := rfl
@[simp] theorem State.setCur_tvec (s : State) (u : Unit) : (s.setCur u).tvec = s.tvec := rfl
@[simp] theorem State.setCur_wdt (s : State) (u : Unit) : (s.setCur u).wdt = s.wdt := rfl
@[simp] theorem State.setCur_ctx (s : State) (u : Unit) : (s.setCur u).ctx = s.ctx := rfl
@[simp] theorem State.setCur_modid (s : State) (u : Unit) : (s.setCur u).modid = s.modid := rfl
@[simp] theorem State.setCur_numbered (s : State) (u : Unit) : (s.setCur u).numbered = s.numbered := rfl
@[simp] theorem State.setCur_topo (s : State) (u : Unit) : (s.setCur u).topo = s.topo := rfl
@[simp] theorem State.setCur_mismatch (s : State) (u : Unit) : (s.setCur u).mismatch = s.mismatch := rfl
@[simp] theorem State.setCur_ports (s : State) (u : Unit) : (s.setCur u).ports = s.ports := rfl
@[simp] theorem State.setCur_lanes (s : State) (u : Unit) : (s.setCur u).lanes = s.lanes := rfl
@[simp] theorem State.setCur_outbox (s : State) (u : Unit) : (s.setCur u).outbox = s.outbox := rfl
@[simp] theorem State.setCur_laneOut (s : State) (u : Unit) : (s.setCur u).laneOut = s.laneOut := rfl
@[simp] theorem State.setCur_laneHoles (s : State) (u : Unit) : (s.setCur u).laneHoles = s.laneHoles := rfl
@[simp] theorem State.setCur_held (s : State) (u : Unit) : (s.setCur u).held = s.held := rfl
@[simp] theorem State.setCur_refusals (s : State) (u : Unit) : (s.setCur u).refusals = s.refusals := rfl
@[simp] theorem State.setCur_stale (s : State) (u : Unit) : (s.setCur u).stale = s.stale := rfl
@[simp] theorem State.setCur_remoteLocks (s : State) (u : Unit) : (s.setCur u).remoteLocks = s.remoteLocks := rfl
@[simp] theorem State.setCur_diePorts (s : State) (u : Unit) : (s.setCur u).diePorts = s.diePorts := rfl
@[simp] theorem State.setCur_dieOut (s : State) (u : Unit) : (s.setCur u).dieOut = s.dieOut := rfl
@[simp] theorem State.setCur_dieFwd (s : State) (u : Unit) : (s.setCur u).dieFwd = s.dieFwd := rfl
@[simp] theorem State.setCur_dieAsked (s : State) (u : Unit) : (s.setCur u).dieAsked = s.dieAsked := rfl
@[simp] theorem State.setCur_dieIn (s : State) (u : Unit) : (s.setCur u).dieIn = s.dieIn := rfl
@[simp] theorem State.setCur_homeAcks (s : State) (u : Unit) : (s.setCur u).homeAcks = s.homeAcks := rfl
@[simp] theorem State.setCur_secureRegions (s : State) (u : Unit) : (s.setCur u).secureRegions = s.secureRegions := rfl
@[simp] theorem State.setCur_secureBlocks (s : State) (u : Unit) : (s.setCur u).secureBlocks = s.secureBlocks := rfl
@[simp] theorem State.setCur_boot (s : State) (u : Unit) : (s.setCur u).boot = s.boot := rfl
@[simp] theorem State.setCur_releasedAt (s : State) (u : Unit) : (s.setCur u).releasedAt = s.releasedAt := rfl
@[simp] theorem State.setCur_bare (s : State) (u : Unit) : (s.setCur u).bare = s.bare := rfl
@[simp] theorem State.setCur_powerHold (s : State) (u : Unit) : (s.setCur u).powerHold = s.powerHold := rfl
@[simp] theorem State.setCur_stopped (s : State) (u : Unit) : (s.setCur u).stopped = s.stopped := rfl
@[simp] theorem State.setCur_softErrors (s : State) (u : Unit) : (s.setCur u).softErrors = s.softErrors := rfl
@[simp] theorem State.setCur_beaconAt (s : State) (u : Unit) : (s.setCur u).beaconAt = s.beaconAt := rfl
@[simp] theorem State.setCur_beacons (s : State) (u : Unit) : (s.setCur u).beacons = s.beacons := rfl
@[simp] theorem State.setCur_hops (s : State) (u : Unit) : (s.setCur u).hops = s.hops := rfl
@[simp] theorem State.setCur_kicks (s : State) (u : Unit) : (s.setCur u).kicks = s.kicks := rfl
@[simp] theorem State.setCur_agenda (s : State) (u : Unit) : (s.setCur u).agenda = s.agenda := rfl

/-! ### `State.modCur` -/

@[simp] theorem State.modCur_time (s : State) (f : Unit → Unit) : (s.modCur f).time = s.time := rfl
@[simp] theorem State.modCur_draws (s : State) (f : Unit → Unit) : (s.modCur f).draws = s.draws := rfl
@[simp] theorem State.modCur_tokens (s : State) (f : Unit → Unit) : (s.modCur f).tokens = s.tokens := rfl
@[simp] theorem State.modCur_ids (s : State) (f : Unit → Unit) : (s.modCur f).ids = s.ids := rfl
@[simp] theorem State.modCur_cur (s : State) (f : Unit → Unit) : (s.modCur f).cur = f s.cur := rfl
@[simp] theorem State.modCur_others (s : State) (f : Unit → Unit) : (s.modCur f).others = s.others := rfl
@[simp] theorem State.modCur_waiting (s : State) (f : Unit → Unit) : (s.modCur f).waiting = s.waiting := rfl
@[simp] theorem State.modCur_launches (s : State) (f : Unit → Unit) : (s.modCur f).launches = s.launches := rfl
@[simp] theorem State.modCur_nextLaunch (s : State) (f : Unit → Unit) : (s.modCur f).nextLaunch = s.nextLaunch := rfl
@[simp] theorem State.modCur_mem (s : State) (f : Unit → Unit) : (s.modCur f).mem = s.mem := rfl
@[simp] theorem State.modCur_locks (s : State) (f : Unit → Unit) : (s.modCur f).locks = s.locks := rfl
@[simp] theorem State.modCur_token (s : State) (f : Unit → Unit) : (s.modCur f).token = s.token := rfl
@[simp] theorem State.modCur_cores (s : State) (f : Unit → Unit) : (s.modCur f).cores = s.cores := rfl
@[simp] theorem State.modCur_clusters (s : State) (f : Unit → Unit) : (s.modCur f).clusters = s.clusters := rfl
@[simp] theorem State.modCur_dies (s : State) (f : Unit → Unit) : (s.modCur f).dies = s.dies := rfl
@[simp] theorem State.modCur_hubs (s : State) (f : Unit → Unit) : (s.modCur f).hubs = s.hubs := rfl
@[simp] theorem State.modCur_pools (s : State) (f : Unit → Unit) : (s.modCur f).pools = s.pools := rfl
@[simp] theorem State.modCur_faults (s : State) (f : Unit → Unit) : (s.modCur f).faults = s.faults := rfl
@[simp] theorem State.modCur_walks (s : State) (f : Unit → Unit) : (s.modCur f).walks = s.walks := rfl
@[simp] theorem State.modCur_prefetches (s : State) (f : Unit → Unit) : (s.modCur f).prefetches = s.prefetches := rfl
@[simp] theorem State.modCur_faultMail (s : State) (f : Unit → Unit) : (s.modCur f).faultMail = s.faultMail := rfl
@[simp] theorem State.modCur_flights (s : State) (f : Unit → Unit) : (s.modCur f).flights = s.flights := rfl
@[simp] theorem State.modCur_remotes (s : State) (f : Unit → Unit) : (s.modCur f).remotes = s.remotes := rfl
@[simp] theorem State.modCur_announced (s : State) (f : Unit → Unit) : (s.modCur f).announced = s.announced := rfl
@[simp] theorem State.modCur_counters (s : State) (f : Unit → Unit) : (s.modCur f).counters = s.counters := rfl
@[simp] theorem State.modCur_queues (s : State) (f : Unit → Unit) : (s.modCur f).queues = s.queues := rfl
@[simp] theorem State.modCur_replays (s : State) (f : Unit → Unit) : (s.modCur f).replays = s.replays := rfl
@[simp] theorem State.modCur_phases (s : State) (f : Unit → Unit) : (s.modCur f).phases = s.phases := rfl
@[simp] theorem State.modCur_nextReplay (s : State) (f : Unit → Unit) : (s.modCur f).nextReplay = s.nextReplay := rfl
@[simp] theorem State.modCur_nodeMsgs (s : State) (f : Unit → Unit) : (s.modCur f).nodeMsgs = s.nodeMsgs := rfl
@[simp] theorem State.modCur_cpFails (s : State) (f : Unit → Unit) : (s.modCur f).cpFails = s.cpFails := rfl
@[simp] theorem State.modCur_ended (s : State) (f : Unit → Unit) : (s.modCur f).ended = s.ended := rfl
@[simp] theorem State.modCur_jobFails (s : State) (f : Unit → Unit) : (s.modCur f).jobFails = s.jobFails := rfl
@[simp] theorem State.modCur_jobtab (s : State) (f : Unit → Unit) : (s.modCur f).jobtab = s.jobtab := rfl
@[simp] theorem State.modCur_tvec (s : State) (f : Unit → Unit) : (s.modCur f).tvec = s.tvec := rfl
@[simp] theorem State.modCur_wdt (s : State) (f : Unit → Unit) : (s.modCur f).wdt = s.wdt := rfl
@[simp] theorem State.modCur_ctx (s : State) (f : Unit → Unit) : (s.modCur f).ctx = s.ctx := rfl
@[simp] theorem State.modCur_modid (s : State) (f : Unit → Unit) : (s.modCur f).modid = s.modid := rfl
@[simp] theorem State.modCur_numbered (s : State) (f : Unit → Unit) : (s.modCur f).numbered = s.numbered := rfl
@[simp] theorem State.modCur_topo (s : State) (f : Unit → Unit) : (s.modCur f).topo = s.topo := rfl
@[simp] theorem State.modCur_mismatch (s : State) (f : Unit → Unit) : (s.modCur f).mismatch = s.mismatch := rfl
@[simp] theorem State.modCur_ports (s : State) (f : Unit → Unit) : (s.modCur f).ports = s.ports := rfl
@[simp] theorem State.modCur_lanes (s : State) (f : Unit → Unit) : (s.modCur f).lanes = s.lanes := rfl
@[simp] theorem State.modCur_outbox (s : State) (f : Unit → Unit) : (s.modCur f).outbox = s.outbox := rfl
@[simp] theorem State.modCur_laneOut (s : State) (f : Unit → Unit) : (s.modCur f).laneOut = s.laneOut := rfl
@[simp] theorem State.modCur_laneHoles (s : State) (f : Unit → Unit) : (s.modCur f).laneHoles = s.laneHoles := rfl
@[simp] theorem State.modCur_held (s : State) (f : Unit → Unit) : (s.modCur f).held = s.held := rfl
@[simp] theorem State.modCur_refusals (s : State) (f : Unit → Unit) : (s.modCur f).refusals = s.refusals := rfl
@[simp] theorem State.modCur_stale (s : State) (f : Unit → Unit) : (s.modCur f).stale = s.stale := rfl
@[simp] theorem State.modCur_remoteLocks (s : State) (f : Unit → Unit) : (s.modCur f).remoteLocks = s.remoteLocks := rfl
@[simp] theorem State.modCur_diePorts (s : State) (f : Unit → Unit) : (s.modCur f).diePorts = s.diePorts := rfl
@[simp] theorem State.modCur_dieOut (s : State) (f : Unit → Unit) : (s.modCur f).dieOut = s.dieOut := rfl
@[simp] theorem State.modCur_dieFwd (s : State) (f : Unit → Unit) : (s.modCur f).dieFwd = s.dieFwd := rfl
@[simp] theorem State.modCur_dieAsked (s : State) (f : Unit → Unit) : (s.modCur f).dieAsked = s.dieAsked := rfl
@[simp] theorem State.modCur_dieIn (s : State) (f : Unit → Unit) : (s.modCur f).dieIn = s.dieIn := rfl
@[simp] theorem State.modCur_homeAcks (s : State) (f : Unit → Unit) : (s.modCur f).homeAcks = s.homeAcks := rfl
@[simp] theorem State.modCur_secureRegions (s : State) (f : Unit → Unit) : (s.modCur f).secureRegions = s.secureRegions := rfl
@[simp] theorem State.modCur_secureBlocks (s : State) (f : Unit → Unit) : (s.modCur f).secureBlocks = s.secureBlocks := rfl
@[simp] theorem State.modCur_boot (s : State) (f : Unit → Unit) : (s.modCur f).boot = s.boot := rfl
@[simp] theorem State.modCur_releasedAt (s : State) (f : Unit → Unit) : (s.modCur f).releasedAt = s.releasedAt := rfl
@[simp] theorem State.modCur_bare (s : State) (f : Unit → Unit) : (s.modCur f).bare = s.bare := rfl
@[simp] theorem State.modCur_powerHold (s : State) (f : Unit → Unit) : (s.modCur f).powerHold = s.powerHold := rfl
@[simp] theorem State.modCur_stopped (s : State) (f : Unit → Unit) : (s.modCur f).stopped = s.stopped := rfl
@[simp] theorem State.modCur_softErrors (s : State) (f : Unit → Unit) : (s.modCur f).softErrors = s.softErrors := rfl
@[simp] theorem State.modCur_beaconAt (s : State) (f : Unit → Unit) : (s.modCur f).beaconAt = s.beaconAt := rfl
@[simp] theorem State.modCur_beacons (s : State) (f : Unit → Unit) : (s.modCur f).beacons = s.beacons := rfl
@[simp] theorem State.modCur_hops (s : State) (f : Unit → Unit) : (s.modCur f).hops = s.hops := rfl
@[simp] theorem State.modCur_kicks (s : State) (f : Unit → Unit) : (s.modCur f).kicks = s.kicks := rfl
@[simp] theorem State.modCur_agenda (s : State) (f : Unit → Unit) : (s.modCur f).agenda = s.agenda := rfl

/-! ### `State.setCluster` -/

@[simp] theorem State.setCluster_time (s : State) (c : Nat) (x : Cluster) : (s.setCluster c x).time = s.time := rfl
@[simp] theorem State.setCluster_draws (s : State) (c : Nat) (x : Cluster) : (s.setCluster c x).draws = s.draws := rfl
@[simp] theorem State.setCluster_tokens (s : State) (c : Nat) (x : Cluster) : (s.setCluster c x).tokens = s.tokens := rfl
@[simp] theorem State.setCluster_ids (s : State) (c : Nat) (x : Cluster) : (s.setCluster c x).ids = s.ids := rfl
@[simp] theorem State.setCluster_cur (s : State) (c : Nat) (x : Cluster) : (s.setCluster c x).cur = s.cur := rfl
@[simp] theorem State.setCluster_others (s : State) (c : Nat) (x : Cluster) : (s.setCluster c x).others = s.others := rfl
@[simp] theorem State.setCluster_waiting (s : State) (c : Nat) (x : Cluster) : (s.setCluster c x).waiting = s.waiting := rfl
@[simp] theorem State.setCluster_launches (s : State) (c : Nat) (x : Cluster) : (s.setCluster c x).launches = s.launches := rfl
@[simp] theorem State.setCluster_nextLaunch (s : State) (c : Nat) (x : Cluster) : (s.setCluster c x).nextLaunch = s.nextLaunch := rfl
@[simp] theorem State.setCluster_mem (s : State) (c : Nat) (x : Cluster) : (s.setCluster c x).mem = s.mem := rfl
@[simp] theorem State.setCluster_locks (s : State) (c : Nat) (x : Cluster) : (s.setCluster c x).locks = s.locks := rfl
@[simp] theorem State.setCluster_token (s : State) (c : Nat) (x : Cluster) : (s.setCluster c x).token = s.token := rfl
@[simp] theorem State.setCluster_cores (s : State) (c : Nat) (x : Cluster) : (s.setCluster c x).cores = s.cores := rfl
@[simp] theorem State.setCluster_clusters (s : State) (c : Nat) (x : Cluster) : (s.setCluster c x).clusters = Sparse.put s.clusters c x := rfl
@[simp] theorem State.setCluster_dies (s : State) (c : Nat) (x : Cluster) : (s.setCluster c x).dies = s.dies := rfl
@[simp] theorem State.setCluster_hubs (s : State) (c : Nat) (x : Cluster) : (s.setCluster c x).hubs = s.hubs := rfl
@[simp] theorem State.setCluster_pools (s : State) (c : Nat) (x : Cluster) : (s.setCluster c x).pools = s.pools := rfl
@[simp] theorem State.setCluster_faults (s : State) (c : Nat) (x : Cluster) : (s.setCluster c x).faults = s.faults := rfl
@[simp] theorem State.setCluster_walks (s : State) (c : Nat) (x : Cluster) : (s.setCluster c x).walks = s.walks := rfl
@[simp] theorem State.setCluster_prefetches (s : State) (c : Nat) (x : Cluster) : (s.setCluster c x).prefetches = s.prefetches := rfl
@[simp] theorem State.setCluster_faultMail (s : State) (c : Nat) (x : Cluster) : (s.setCluster c x).faultMail = s.faultMail := rfl
@[simp] theorem State.setCluster_flights (s : State) (c : Nat) (x : Cluster) : (s.setCluster c x).flights = s.flights := rfl
@[simp] theorem State.setCluster_remotes (s : State) (c : Nat) (x : Cluster) : (s.setCluster c x).remotes = s.remotes := rfl
@[simp] theorem State.setCluster_announced (s : State) (c : Nat) (x : Cluster) : (s.setCluster c x).announced = s.announced := rfl
@[simp] theorem State.setCluster_counters (s : State) (c : Nat) (x : Cluster) : (s.setCluster c x).counters = s.counters := rfl
@[simp] theorem State.setCluster_queues (s : State) (c : Nat) (x : Cluster) : (s.setCluster c x).queues = s.queues := rfl
@[simp] theorem State.setCluster_replays (s : State) (c : Nat) (x : Cluster) : (s.setCluster c x).replays = s.replays := rfl
@[simp] theorem State.setCluster_phases (s : State) (c : Nat) (x : Cluster) : (s.setCluster c x).phases = s.phases := rfl
@[simp] theorem State.setCluster_nextReplay (s : State) (c : Nat) (x : Cluster) : (s.setCluster c x).nextReplay = s.nextReplay := rfl
@[simp] theorem State.setCluster_nodeMsgs (s : State) (c : Nat) (x : Cluster) : (s.setCluster c x).nodeMsgs = s.nodeMsgs := rfl
@[simp] theorem State.setCluster_cpFails (s : State) (c : Nat) (x : Cluster) : (s.setCluster c x).cpFails = s.cpFails := rfl
@[simp] theorem State.setCluster_ended (s : State) (c : Nat) (x : Cluster) : (s.setCluster c x).ended = s.ended := rfl
@[simp] theorem State.setCluster_jobFails (s : State) (c : Nat) (x : Cluster) : (s.setCluster c x).jobFails = s.jobFails := rfl
@[simp] theorem State.setCluster_jobtab (s : State) (c : Nat) (x : Cluster) : (s.setCluster c x).jobtab = s.jobtab := rfl
@[simp] theorem State.setCluster_tvec (s : State) (c : Nat) (x : Cluster) : (s.setCluster c x).tvec = s.tvec := rfl
@[simp] theorem State.setCluster_wdt (s : State) (c : Nat) (x : Cluster) : (s.setCluster c x).wdt = s.wdt := rfl
@[simp] theorem State.setCluster_ctx (s : State) (c : Nat) (x : Cluster) : (s.setCluster c x).ctx = s.ctx := rfl
@[simp] theorem State.setCluster_modid (s : State) (c : Nat) (x : Cluster) : (s.setCluster c x).modid = s.modid := rfl
@[simp] theorem State.setCluster_numbered (s : State) (c : Nat) (x : Cluster) : (s.setCluster c x).numbered = s.numbered := rfl
@[simp] theorem State.setCluster_topo (s : State) (c : Nat) (x : Cluster) : (s.setCluster c x).topo = s.topo := rfl
@[simp] theorem State.setCluster_mismatch (s : State) (c : Nat) (x : Cluster) : (s.setCluster c x).mismatch = s.mismatch := rfl
@[simp] theorem State.setCluster_ports (s : State) (c : Nat) (x : Cluster) : (s.setCluster c x).ports = s.ports := rfl
@[simp] theorem State.setCluster_lanes (s : State) (c : Nat) (x : Cluster) : (s.setCluster c x).lanes = s.lanes := rfl
@[simp] theorem State.setCluster_outbox (s : State) (c : Nat) (x : Cluster) : (s.setCluster c x).outbox = s.outbox := rfl
@[simp] theorem State.setCluster_laneOut (s : State) (c : Nat) (x : Cluster) : (s.setCluster c x).laneOut = s.laneOut := rfl
@[simp] theorem State.setCluster_laneHoles (s : State) (c : Nat) (x : Cluster) : (s.setCluster c x).laneHoles = s.laneHoles := rfl
@[simp] theorem State.setCluster_held (s : State) (c : Nat) (x : Cluster) : (s.setCluster c x).held = s.held := rfl
@[simp] theorem State.setCluster_refusals (s : State) (c : Nat) (x : Cluster) : (s.setCluster c x).refusals = s.refusals := rfl
@[simp] theorem State.setCluster_stale (s : State) (c : Nat) (x : Cluster) : (s.setCluster c x).stale = s.stale := rfl
@[simp] theorem State.setCluster_remoteLocks (s : State) (c : Nat) (x : Cluster) : (s.setCluster c x).remoteLocks = s.remoteLocks := rfl
@[simp] theorem State.setCluster_diePorts (s : State) (c : Nat) (x : Cluster) : (s.setCluster c x).diePorts = s.diePorts := rfl
@[simp] theorem State.setCluster_dieOut (s : State) (c : Nat) (x : Cluster) : (s.setCluster c x).dieOut = s.dieOut := rfl
@[simp] theorem State.setCluster_dieFwd (s : State) (c : Nat) (x : Cluster) : (s.setCluster c x).dieFwd = s.dieFwd := rfl
@[simp] theorem State.setCluster_dieAsked (s : State) (c : Nat) (x : Cluster) : (s.setCluster c x).dieAsked = s.dieAsked := rfl
@[simp] theorem State.setCluster_dieIn (s : State) (c : Nat) (x : Cluster) : (s.setCluster c x).dieIn = s.dieIn := rfl
@[simp] theorem State.setCluster_homeAcks (s : State) (c : Nat) (x : Cluster) : (s.setCluster c x).homeAcks = s.homeAcks := rfl
@[simp] theorem State.setCluster_secureRegions (s : State) (c : Nat) (x : Cluster) : (s.setCluster c x).secureRegions = s.secureRegions := rfl
@[simp] theorem State.setCluster_secureBlocks (s : State) (c : Nat) (x : Cluster) : (s.setCluster c x).secureBlocks = s.secureBlocks := rfl
@[simp] theorem State.setCluster_boot (s : State) (c : Nat) (x : Cluster) : (s.setCluster c x).boot = s.boot := rfl
@[simp] theorem State.setCluster_releasedAt (s : State) (c : Nat) (x : Cluster) : (s.setCluster c x).releasedAt = s.releasedAt := rfl
@[simp] theorem State.setCluster_bare (s : State) (c : Nat) (x : Cluster) : (s.setCluster c x).bare = s.bare := rfl
@[simp] theorem State.setCluster_powerHold (s : State) (c : Nat) (x : Cluster) : (s.setCluster c x).powerHold = s.powerHold := rfl
@[simp] theorem State.setCluster_stopped (s : State) (c : Nat) (x : Cluster) : (s.setCluster c x).stopped = s.stopped := rfl
@[simp] theorem State.setCluster_softErrors (s : State) (c : Nat) (x : Cluster) : (s.setCluster c x).softErrors = s.softErrors := rfl
@[simp] theorem State.setCluster_beaconAt (s : State) (c : Nat) (x : Cluster) : (s.setCluster c x).beaconAt = s.beaconAt := rfl
@[simp] theorem State.setCluster_beacons (s : State) (c : Nat) (x : Cluster) : (s.setCluster c x).beacons = s.beacons := rfl
@[simp] theorem State.setCluster_hops (s : State) (c : Nat) (x : Cluster) : (s.setCluster c x).hops = s.hops := rfl
@[simp] theorem State.setCluster_kicks (s : State) (c : Nat) (x : Cluster) : (s.setCluster c x).kicks = s.kicks := rfl
@[simp] theorem State.setCluster_agenda (s : State) (c : Nat) (x : Cluster) : (s.setCluster c x).agenda = s.agenda := rfl

/-! ### `State.setCore` -/

@[simp] theorem State.setCore_time (s : State) (c : Nat) (x : Core) : (s.setCore c x).time = s.time := rfl
@[simp] theorem State.setCore_draws (s : State) (c : Nat) (x : Core) : (s.setCore c x).draws = s.draws := rfl
@[simp] theorem State.setCore_tokens (s : State) (c : Nat) (x : Core) : (s.setCore c x).tokens = s.tokens := rfl
@[simp] theorem State.setCore_ids (s : State) (c : Nat) (x : Core) : (s.setCore c x).ids = s.ids := rfl
@[simp] theorem State.setCore_cur (s : State) (c : Nat) (x : Core) : (s.setCore c x).cur = s.cur := rfl
@[simp] theorem State.setCore_others (s : State) (c : Nat) (x : Core) : (s.setCore c x).others = s.others := rfl
@[simp] theorem State.setCore_waiting (s : State) (c : Nat) (x : Core) : (s.setCore c x).waiting = s.waiting := rfl
@[simp] theorem State.setCore_launches (s : State) (c : Nat) (x : Core) : (s.setCore c x).launches = s.launches := rfl
@[simp] theorem State.setCore_nextLaunch (s : State) (c : Nat) (x : Core) : (s.setCore c x).nextLaunch = s.nextLaunch := rfl
@[simp] theorem State.setCore_mem (s : State) (c : Nat) (x : Core) : (s.setCore c x).mem = s.mem := rfl
@[simp] theorem State.setCore_locks (s : State) (c : Nat) (x : Core) : (s.setCore c x).locks = s.locks := rfl
@[simp] theorem State.setCore_token (s : State) (c : Nat) (x : Core) : (s.setCore c x).token = s.token := rfl
@[simp] theorem State.setCore_cores (s : State) (c : Nat) (x : Core) : (s.setCore c x).cores = Sparse.put s.cores c x := rfl
@[simp] theorem State.setCore_clusters (s : State) (c : Nat) (x : Core) : (s.setCore c x).clusters = s.clusters := rfl
@[simp] theorem State.setCore_dies (s : State) (c : Nat) (x : Core) : (s.setCore c x).dies = s.dies := rfl
@[simp] theorem State.setCore_hubs (s : State) (c : Nat) (x : Core) : (s.setCore c x).hubs = s.hubs := rfl
@[simp] theorem State.setCore_pools (s : State) (c : Nat) (x : Core) : (s.setCore c x).pools = s.pools := rfl
@[simp] theorem State.setCore_faults (s : State) (c : Nat) (x : Core) : (s.setCore c x).faults = s.faults := rfl
@[simp] theorem State.setCore_walks (s : State) (c : Nat) (x : Core) : (s.setCore c x).walks = s.walks := rfl
@[simp] theorem State.setCore_prefetches (s : State) (c : Nat) (x : Core) : (s.setCore c x).prefetches = s.prefetches := rfl
@[simp] theorem State.setCore_faultMail (s : State) (c : Nat) (x : Core) : (s.setCore c x).faultMail = s.faultMail := rfl
@[simp] theorem State.setCore_flights (s : State) (c : Nat) (x : Core) : (s.setCore c x).flights = s.flights := rfl
@[simp] theorem State.setCore_remotes (s : State) (c : Nat) (x : Core) : (s.setCore c x).remotes = s.remotes := rfl
@[simp] theorem State.setCore_announced (s : State) (c : Nat) (x : Core) : (s.setCore c x).announced = s.announced := rfl
@[simp] theorem State.setCore_counters (s : State) (c : Nat) (x : Core) : (s.setCore c x).counters = s.counters := rfl
@[simp] theorem State.setCore_queues (s : State) (c : Nat) (x : Core) : (s.setCore c x).queues = s.queues := rfl
@[simp] theorem State.setCore_replays (s : State) (c : Nat) (x : Core) : (s.setCore c x).replays = s.replays := rfl
@[simp] theorem State.setCore_phases (s : State) (c : Nat) (x : Core) : (s.setCore c x).phases = s.phases := rfl
@[simp] theorem State.setCore_nextReplay (s : State) (c : Nat) (x : Core) : (s.setCore c x).nextReplay = s.nextReplay := rfl
@[simp] theorem State.setCore_nodeMsgs (s : State) (c : Nat) (x : Core) : (s.setCore c x).nodeMsgs = s.nodeMsgs := rfl
@[simp] theorem State.setCore_cpFails (s : State) (c : Nat) (x : Core) : (s.setCore c x).cpFails = s.cpFails := rfl
@[simp] theorem State.setCore_ended (s : State) (c : Nat) (x : Core) : (s.setCore c x).ended = s.ended := rfl
@[simp] theorem State.setCore_jobFails (s : State) (c : Nat) (x : Core) : (s.setCore c x).jobFails = s.jobFails := rfl
@[simp] theorem State.setCore_jobtab (s : State) (c : Nat) (x : Core) : (s.setCore c x).jobtab = s.jobtab := rfl
@[simp] theorem State.setCore_tvec (s : State) (c : Nat) (x : Core) : (s.setCore c x).tvec = s.tvec := rfl
@[simp] theorem State.setCore_wdt (s : State) (c : Nat) (x : Core) : (s.setCore c x).wdt = s.wdt := rfl
@[simp] theorem State.setCore_ctx (s : State) (c : Nat) (x : Core) : (s.setCore c x).ctx = s.ctx := rfl
@[simp] theorem State.setCore_modid (s : State) (c : Nat) (x : Core) : (s.setCore c x).modid = s.modid := rfl
@[simp] theorem State.setCore_numbered (s : State) (c : Nat) (x : Core) : (s.setCore c x).numbered = s.numbered := rfl
@[simp] theorem State.setCore_topo (s : State) (c : Nat) (x : Core) : (s.setCore c x).topo = s.topo := rfl
@[simp] theorem State.setCore_mismatch (s : State) (c : Nat) (x : Core) : (s.setCore c x).mismatch = s.mismatch := rfl
@[simp] theorem State.setCore_ports (s : State) (c : Nat) (x : Core) : (s.setCore c x).ports = s.ports := rfl
@[simp] theorem State.setCore_lanes (s : State) (c : Nat) (x : Core) : (s.setCore c x).lanes = s.lanes := rfl
@[simp] theorem State.setCore_outbox (s : State) (c : Nat) (x : Core) : (s.setCore c x).outbox = s.outbox := rfl
@[simp] theorem State.setCore_laneOut (s : State) (c : Nat) (x : Core) : (s.setCore c x).laneOut = s.laneOut := rfl
@[simp] theorem State.setCore_laneHoles (s : State) (c : Nat) (x : Core) : (s.setCore c x).laneHoles = s.laneHoles := rfl
@[simp] theorem State.setCore_held (s : State) (c : Nat) (x : Core) : (s.setCore c x).held = s.held := rfl
@[simp] theorem State.setCore_refusals (s : State) (c : Nat) (x : Core) : (s.setCore c x).refusals = s.refusals := rfl
@[simp] theorem State.setCore_stale (s : State) (c : Nat) (x : Core) : (s.setCore c x).stale = s.stale := rfl
@[simp] theorem State.setCore_remoteLocks (s : State) (c : Nat) (x : Core) : (s.setCore c x).remoteLocks = s.remoteLocks := rfl
@[simp] theorem State.setCore_diePorts (s : State) (c : Nat) (x : Core) : (s.setCore c x).diePorts = s.diePorts := rfl
@[simp] theorem State.setCore_dieOut (s : State) (c : Nat) (x : Core) : (s.setCore c x).dieOut = s.dieOut := rfl
@[simp] theorem State.setCore_dieFwd (s : State) (c : Nat) (x : Core) : (s.setCore c x).dieFwd = s.dieFwd := rfl
@[simp] theorem State.setCore_dieAsked (s : State) (c : Nat) (x : Core) : (s.setCore c x).dieAsked = s.dieAsked := rfl
@[simp] theorem State.setCore_dieIn (s : State) (c : Nat) (x : Core) : (s.setCore c x).dieIn = s.dieIn := rfl
@[simp] theorem State.setCore_homeAcks (s : State) (c : Nat) (x : Core) : (s.setCore c x).homeAcks = s.homeAcks := rfl
@[simp] theorem State.setCore_secureRegions (s : State) (c : Nat) (x : Core) : (s.setCore c x).secureRegions = s.secureRegions := rfl
@[simp] theorem State.setCore_secureBlocks (s : State) (c : Nat) (x : Core) : (s.setCore c x).secureBlocks = s.secureBlocks := rfl
@[simp] theorem State.setCore_boot (s : State) (c : Nat) (x : Core) : (s.setCore c x).boot = s.boot := rfl
@[simp] theorem State.setCore_releasedAt (s : State) (c : Nat) (x : Core) : (s.setCore c x).releasedAt = s.releasedAt := rfl
@[simp] theorem State.setCore_bare (s : State) (c : Nat) (x : Core) : (s.setCore c x).bare = s.bare := rfl
@[simp] theorem State.setCore_powerHold (s : State) (c : Nat) (x : Core) : (s.setCore c x).powerHold = s.powerHold := rfl
@[simp] theorem State.setCore_stopped (s : State) (c : Nat) (x : Core) : (s.setCore c x).stopped = s.stopped := rfl
@[simp] theorem State.setCore_softErrors (s : State) (c : Nat) (x : Core) : (s.setCore c x).softErrors = s.softErrors := rfl
@[simp] theorem State.setCore_beaconAt (s : State) (c : Nat) (x : Core) : (s.setCore c x).beaconAt = s.beaconAt := rfl
@[simp] theorem State.setCore_beacons (s : State) (c : Nat) (x : Core) : (s.setCore c x).beacons = s.beacons := rfl
@[simp] theorem State.setCore_hops (s : State) (c : Nat) (x : Core) : (s.setCore c x).hops = s.hops := rfl
@[simp] theorem State.setCore_kicks (s : State) (c : Nat) (x : Core) : (s.setCore c x).kicks = s.kicks := rfl
@[simp] theorem State.setCore_agenda (s : State) (c : Nat) (x : Core) : (s.setCore c x).agenda = s.agenda := rfl

/-! ### `State.setDie` -/

@[simp] theorem State.setDie_time (s : State) (d : Nat) (x : Die) : (s.setDie d x).time = s.time := rfl
@[simp] theorem State.setDie_draws (s : State) (d : Nat) (x : Die) : (s.setDie d x).draws = s.draws := rfl
@[simp] theorem State.setDie_tokens (s : State) (d : Nat) (x : Die) : (s.setDie d x).tokens = s.tokens := rfl
@[simp] theorem State.setDie_ids (s : State) (d : Nat) (x : Die) : (s.setDie d x).ids = s.ids := rfl
@[simp] theorem State.setDie_cur (s : State) (d : Nat) (x : Die) : (s.setDie d x).cur = s.cur := rfl
@[simp] theorem State.setDie_others (s : State) (d : Nat) (x : Die) : (s.setDie d x).others = s.others := rfl
@[simp] theorem State.setDie_waiting (s : State) (d : Nat) (x : Die) : (s.setDie d x).waiting = s.waiting := rfl
@[simp] theorem State.setDie_launches (s : State) (d : Nat) (x : Die) : (s.setDie d x).launches = s.launches := rfl
@[simp] theorem State.setDie_nextLaunch (s : State) (d : Nat) (x : Die) : (s.setDie d x).nextLaunch = s.nextLaunch := rfl
@[simp] theorem State.setDie_mem (s : State) (d : Nat) (x : Die) : (s.setDie d x).mem = s.mem := rfl
@[simp] theorem State.setDie_locks (s : State) (d : Nat) (x : Die) : (s.setDie d x).locks = s.locks := rfl
@[simp] theorem State.setDie_token (s : State) (d : Nat) (x : Die) : (s.setDie d x).token = s.token := rfl
@[simp] theorem State.setDie_cores (s : State) (d : Nat) (x : Die) : (s.setDie d x).cores = s.cores := rfl
@[simp] theorem State.setDie_clusters (s : State) (d : Nat) (x : Die) : (s.setDie d x).clusters = s.clusters := rfl
@[simp] theorem State.setDie_dies (s : State) (d : Nat) (x : Die) : (s.setDie d x).dies = Sparse.put s.dies d x := rfl
@[simp] theorem State.setDie_hubs (s : State) (d : Nat) (x : Die) : (s.setDie d x).hubs = s.hubs := rfl
@[simp] theorem State.setDie_pools (s : State) (d : Nat) (x : Die) : (s.setDie d x).pools = s.pools := rfl
@[simp] theorem State.setDie_faults (s : State) (d : Nat) (x : Die) : (s.setDie d x).faults = s.faults := rfl
@[simp] theorem State.setDie_walks (s : State) (d : Nat) (x : Die) : (s.setDie d x).walks = s.walks := rfl
@[simp] theorem State.setDie_prefetches (s : State) (d : Nat) (x : Die) : (s.setDie d x).prefetches = s.prefetches := rfl
@[simp] theorem State.setDie_faultMail (s : State) (d : Nat) (x : Die) : (s.setDie d x).faultMail = s.faultMail := rfl
@[simp] theorem State.setDie_flights (s : State) (d : Nat) (x : Die) : (s.setDie d x).flights = s.flights := rfl
@[simp] theorem State.setDie_remotes (s : State) (d : Nat) (x : Die) : (s.setDie d x).remotes = s.remotes := rfl
@[simp] theorem State.setDie_announced (s : State) (d : Nat) (x : Die) : (s.setDie d x).announced = s.announced := rfl
@[simp] theorem State.setDie_counters (s : State) (d : Nat) (x : Die) : (s.setDie d x).counters = s.counters := rfl
@[simp] theorem State.setDie_queues (s : State) (d : Nat) (x : Die) : (s.setDie d x).queues = s.queues := rfl
@[simp] theorem State.setDie_replays (s : State) (d : Nat) (x : Die) : (s.setDie d x).replays = s.replays := rfl
@[simp] theorem State.setDie_phases (s : State) (d : Nat) (x : Die) : (s.setDie d x).phases = s.phases := rfl
@[simp] theorem State.setDie_nextReplay (s : State) (d : Nat) (x : Die) : (s.setDie d x).nextReplay = s.nextReplay := rfl
@[simp] theorem State.setDie_nodeMsgs (s : State) (d : Nat) (x : Die) : (s.setDie d x).nodeMsgs = s.nodeMsgs := rfl
@[simp] theorem State.setDie_cpFails (s : State) (d : Nat) (x : Die) : (s.setDie d x).cpFails = s.cpFails := rfl
@[simp] theorem State.setDie_ended (s : State) (d : Nat) (x : Die) : (s.setDie d x).ended = s.ended := rfl
@[simp] theorem State.setDie_jobFails (s : State) (d : Nat) (x : Die) : (s.setDie d x).jobFails = s.jobFails := rfl
@[simp] theorem State.setDie_jobtab (s : State) (d : Nat) (x : Die) : (s.setDie d x).jobtab = s.jobtab := rfl
@[simp] theorem State.setDie_tvec (s : State) (d : Nat) (x : Die) : (s.setDie d x).tvec = s.tvec := rfl
@[simp] theorem State.setDie_wdt (s : State) (d : Nat) (x : Die) : (s.setDie d x).wdt = s.wdt := rfl
@[simp] theorem State.setDie_ctx (s : State) (d : Nat) (x : Die) : (s.setDie d x).ctx = s.ctx := rfl
@[simp] theorem State.setDie_modid (s : State) (d : Nat) (x : Die) : (s.setDie d x).modid = s.modid := rfl
@[simp] theorem State.setDie_numbered (s : State) (d : Nat) (x : Die) : (s.setDie d x).numbered = s.numbered := rfl
@[simp] theorem State.setDie_topo (s : State) (d : Nat) (x : Die) : (s.setDie d x).topo = s.topo := rfl
@[simp] theorem State.setDie_mismatch (s : State) (d : Nat) (x : Die) : (s.setDie d x).mismatch = s.mismatch := rfl
@[simp] theorem State.setDie_ports (s : State) (d : Nat) (x : Die) : (s.setDie d x).ports = s.ports := rfl
@[simp] theorem State.setDie_lanes (s : State) (d : Nat) (x : Die) : (s.setDie d x).lanes = s.lanes := rfl
@[simp] theorem State.setDie_outbox (s : State) (d : Nat) (x : Die) : (s.setDie d x).outbox = s.outbox := rfl
@[simp] theorem State.setDie_laneOut (s : State) (d : Nat) (x : Die) : (s.setDie d x).laneOut = s.laneOut := rfl
@[simp] theorem State.setDie_laneHoles (s : State) (d : Nat) (x : Die) : (s.setDie d x).laneHoles = s.laneHoles := rfl
@[simp] theorem State.setDie_held (s : State) (d : Nat) (x : Die) : (s.setDie d x).held = s.held := rfl
@[simp] theorem State.setDie_refusals (s : State) (d : Nat) (x : Die) : (s.setDie d x).refusals = s.refusals := rfl
@[simp] theorem State.setDie_stale (s : State) (d : Nat) (x : Die) : (s.setDie d x).stale = s.stale := rfl
@[simp] theorem State.setDie_remoteLocks (s : State) (d : Nat) (x : Die) : (s.setDie d x).remoteLocks = s.remoteLocks := rfl
@[simp] theorem State.setDie_diePorts (s : State) (d : Nat) (x : Die) : (s.setDie d x).diePorts = s.diePorts := rfl
@[simp] theorem State.setDie_dieOut (s : State) (d : Nat) (x : Die) : (s.setDie d x).dieOut = s.dieOut := rfl
@[simp] theorem State.setDie_dieFwd (s : State) (d : Nat) (x : Die) : (s.setDie d x).dieFwd = s.dieFwd := rfl
@[simp] theorem State.setDie_dieAsked (s : State) (d : Nat) (x : Die) : (s.setDie d x).dieAsked = s.dieAsked := rfl
@[simp] theorem State.setDie_dieIn (s : State) (d : Nat) (x : Die) : (s.setDie d x).dieIn = s.dieIn := rfl
@[simp] theorem State.setDie_homeAcks (s : State) (d : Nat) (x : Die) : (s.setDie d x).homeAcks = s.homeAcks := rfl
@[simp] theorem State.setDie_secureRegions (s : State) (d : Nat) (x : Die) : (s.setDie d x).secureRegions = s.secureRegions := rfl
@[simp] theorem State.setDie_secureBlocks (s : State) (d : Nat) (x : Die) : (s.setDie d x).secureBlocks = s.secureBlocks := rfl
@[simp] theorem State.setDie_boot (s : State) (d : Nat) (x : Die) : (s.setDie d x).boot = s.boot := rfl
@[simp] theorem State.setDie_releasedAt (s : State) (d : Nat) (x : Die) : (s.setDie d x).releasedAt = s.releasedAt := rfl
@[simp] theorem State.setDie_bare (s : State) (d : Nat) (x : Die) : (s.setDie d x).bare = s.bare := rfl
@[simp] theorem State.setDie_powerHold (s : State) (d : Nat) (x : Die) : (s.setDie d x).powerHold = s.powerHold := rfl
@[simp] theorem State.setDie_stopped (s : State) (d : Nat) (x : Die) : (s.setDie d x).stopped = s.stopped := rfl
@[simp] theorem State.setDie_softErrors (s : State) (d : Nat) (x : Die) : (s.setDie d x).softErrors = s.softErrors := rfl
@[simp] theorem State.setDie_beaconAt (s : State) (d : Nat) (x : Die) : (s.setDie d x).beaconAt = s.beaconAt := rfl
@[simp] theorem State.setDie_beacons (s : State) (d : Nat) (x : Die) : (s.setDie d x).beacons = s.beacons := rfl
@[simp] theorem State.setDie_hops (s : State) (d : Nat) (x : Die) : (s.setDie d x).hops = s.hops := rfl
@[simp] theorem State.setDie_kicks (s : State) (d : Nat) (x : Die) : (s.setDie d x).kicks = s.kicks := rfl
@[simp] theorem State.setDie_agenda (s : State) (d : Nat) (x : Die) : (s.setDie d x).agenda = s.agenda := rfl

/-! ### `State.setHub` -/

@[simp] theorem State.setHub_time (s : State) (h : Nat) (x : Hub) : (s.setHub h x).time = s.time := rfl
@[simp] theorem State.setHub_draws (s : State) (h : Nat) (x : Hub) : (s.setHub h x).draws = s.draws := rfl
@[simp] theorem State.setHub_tokens (s : State) (h : Nat) (x : Hub) : (s.setHub h x).tokens = s.tokens := rfl
@[simp] theorem State.setHub_ids (s : State) (h : Nat) (x : Hub) : (s.setHub h x).ids = s.ids := rfl
@[simp] theorem State.setHub_cur (s : State) (h : Nat) (x : Hub) : (s.setHub h x).cur = s.cur := rfl
@[simp] theorem State.setHub_others (s : State) (h : Nat) (x : Hub) : (s.setHub h x).others = s.others := rfl
@[simp] theorem State.setHub_waiting (s : State) (h : Nat) (x : Hub) : (s.setHub h x).waiting = s.waiting := rfl
@[simp] theorem State.setHub_launches (s : State) (h : Nat) (x : Hub) : (s.setHub h x).launches = s.launches := rfl
@[simp] theorem State.setHub_nextLaunch (s : State) (h : Nat) (x : Hub) : (s.setHub h x).nextLaunch = s.nextLaunch := rfl
@[simp] theorem State.setHub_mem (s : State) (h : Nat) (x : Hub) : (s.setHub h x).mem = s.mem := rfl
@[simp] theorem State.setHub_locks (s : State) (h : Nat) (x : Hub) : (s.setHub h x).locks = s.locks := rfl
@[simp] theorem State.setHub_token (s : State) (h : Nat) (x : Hub) : (s.setHub h x).token = s.token := rfl
@[simp] theorem State.setHub_cores (s : State) (h : Nat) (x : Hub) : (s.setHub h x).cores = s.cores := rfl
@[simp] theorem State.setHub_clusters (s : State) (h : Nat) (x : Hub) : (s.setHub h x).clusters = s.clusters := rfl
@[simp] theorem State.setHub_dies (s : State) (h : Nat) (x : Hub) : (s.setHub h x).dies = s.dies := rfl
@[simp] theorem State.setHub_hubs (s : State) (h : Nat) (x : Hub) : (s.setHub h x).hubs = Sparse.put s.hubs h x := rfl
@[simp] theorem State.setHub_pools (s : State) (h : Nat) (x : Hub) : (s.setHub h x).pools = s.pools := rfl
@[simp] theorem State.setHub_faults (s : State) (h : Nat) (x : Hub) : (s.setHub h x).faults = s.faults := rfl
@[simp] theorem State.setHub_walks (s : State) (h : Nat) (x : Hub) : (s.setHub h x).walks = s.walks := rfl
@[simp] theorem State.setHub_prefetches (s : State) (h : Nat) (x : Hub) : (s.setHub h x).prefetches = s.prefetches := rfl
@[simp] theorem State.setHub_faultMail (s : State) (h : Nat) (x : Hub) : (s.setHub h x).faultMail = s.faultMail := rfl
@[simp] theorem State.setHub_flights (s : State) (h : Nat) (x : Hub) : (s.setHub h x).flights = s.flights := rfl
@[simp] theorem State.setHub_remotes (s : State) (h : Nat) (x : Hub) : (s.setHub h x).remotes = s.remotes := rfl
@[simp] theorem State.setHub_announced (s : State) (h : Nat) (x : Hub) : (s.setHub h x).announced = s.announced := rfl
@[simp] theorem State.setHub_counters (s : State) (h : Nat) (x : Hub) : (s.setHub h x).counters = s.counters := rfl
@[simp] theorem State.setHub_queues (s : State) (h : Nat) (x : Hub) : (s.setHub h x).queues = s.queues := rfl
@[simp] theorem State.setHub_replays (s : State) (h : Nat) (x : Hub) : (s.setHub h x).replays = s.replays := rfl
@[simp] theorem State.setHub_phases (s : State) (h : Nat) (x : Hub) : (s.setHub h x).phases = s.phases := rfl
@[simp] theorem State.setHub_nextReplay (s : State) (h : Nat) (x : Hub) : (s.setHub h x).nextReplay = s.nextReplay := rfl
@[simp] theorem State.setHub_nodeMsgs (s : State) (h : Nat) (x : Hub) : (s.setHub h x).nodeMsgs = s.nodeMsgs := rfl
@[simp] theorem State.setHub_cpFails (s : State) (h : Nat) (x : Hub) : (s.setHub h x).cpFails = s.cpFails := rfl
@[simp] theorem State.setHub_ended (s : State) (h : Nat) (x : Hub) : (s.setHub h x).ended = s.ended := rfl
@[simp] theorem State.setHub_jobFails (s : State) (h : Nat) (x : Hub) : (s.setHub h x).jobFails = s.jobFails := rfl
@[simp] theorem State.setHub_jobtab (s : State) (h : Nat) (x : Hub) : (s.setHub h x).jobtab = s.jobtab := rfl
@[simp] theorem State.setHub_tvec (s : State) (h : Nat) (x : Hub) : (s.setHub h x).tvec = s.tvec := rfl
@[simp] theorem State.setHub_wdt (s : State) (h : Nat) (x : Hub) : (s.setHub h x).wdt = s.wdt := rfl
@[simp] theorem State.setHub_ctx (s : State) (h : Nat) (x : Hub) : (s.setHub h x).ctx = s.ctx := rfl
@[simp] theorem State.setHub_modid (s : State) (h : Nat) (x : Hub) : (s.setHub h x).modid = s.modid := rfl
@[simp] theorem State.setHub_numbered (s : State) (h : Nat) (x : Hub) : (s.setHub h x).numbered = s.numbered := rfl
@[simp] theorem State.setHub_topo (s : State) (h : Nat) (x : Hub) : (s.setHub h x).topo = s.topo := rfl
@[simp] theorem State.setHub_mismatch (s : State) (h : Nat) (x : Hub) : (s.setHub h x).mismatch = s.mismatch := rfl
@[simp] theorem State.setHub_ports (s : State) (h : Nat) (x : Hub) : (s.setHub h x).ports = s.ports := rfl
@[simp] theorem State.setHub_lanes (s : State) (h : Nat) (x : Hub) : (s.setHub h x).lanes = s.lanes := rfl
@[simp] theorem State.setHub_outbox (s : State) (h : Nat) (x : Hub) : (s.setHub h x).outbox = s.outbox := rfl
@[simp] theorem State.setHub_laneOut (s : State) (h : Nat) (x : Hub) : (s.setHub h x).laneOut = s.laneOut := rfl
@[simp] theorem State.setHub_laneHoles (s : State) (h : Nat) (x : Hub) : (s.setHub h x).laneHoles = s.laneHoles := rfl
@[simp] theorem State.setHub_held (s : State) (h : Nat) (x : Hub) : (s.setHub h x).held = s.held := rfl
@[simp] theorem State.setHub_refusals (s : State) (h : Nat) (x : Hub) : (s.setHub h x).refusals = s.refusals := rfl
@[simp] theorem State.setHub_stale (s : State) (h : Nat) (x : Hub) : (s.setHub h x).stale = s.stale := rfl
@[simp] theorem State.setHub_remoteLocks (s : State) (h : Nat) (x : Hub) : (s.setHub h x).remoteLocks = s.remoteLocks := rfl
@[simp] theorem State.setHub_diePorts (s : State) (h : Nat) (x : Hub) : (s.setHub h x).diePorts = s.diePorts := rfl
@[simp] theorem State.setHub_dieOut (s : State) (h : Nat) (x : Hub) : (s.setHub h x).dieOut = s.dieOut := rfl
@[simp] theorem State.setHub_dieFwd (s : State) (h : Nat) (x : Hub) : (s.setHub h x).dieFwd = s.dieFwd := rfl
@[simp] theorem State.setHub_dieAsked (s : State) (h : Nat) (x : Hub) : (s.setHub h x).dieAsked = s.dieAsked := rfl
@[simp] theorem State.setHub_dieIn (s : State) (h : Nat) (x : Hub) : (s.setHub h x).dieIn = s.dieIn := rfl
@[simp] theorem State.setHub_homeAcks (s : State) (h : Nat) (x : Hub) : (s.setHub h x).homeAcks = s.homeAcks := rfl
@[simp] theorem State.setHub_secureRegions (s : State) (h : Nat) (x : Hub) : (s.setHub h x).secureRegions = s.secureRegions := rfl
@[simp] theorem State.setHub_secureBlocks (s : State) (h : Nat) (x : Hub) : (s.setHub h x).secureBlocks = s.secureBlocks := rfl
@[simp] theorem State.setHub_boot (s : State) (h : Nat) (x : Hub) : (s.setHub h x).boot = s.boot := rfl
@[simp] theorem State.setHub_releasedAt (s : State) (h : Nat) (x : Hub) : (s.setHub h x).releasedAt = s.releasedAt := rfl
@[simp] theorem State.setHub_bare (s : State) (h : Nat) (x : Hub) : (s.setHub h x).bare = s.bare := rfl
@[simp] theorem State.setHub_powerHold (s : State) (h : Nat) (x : Hub) : (s.setHub h x).powerHold = s.powerHold := rfl
@[simp] theorem State.setHub_stopped (s : State) (h : Nat) (x : Hub) : (s.setHub h x).stopped = s.stopped := rfl
@[simp] theorem State.setHub_softErrors (s : State) (h : Nat) (x : Hub) : (s.setHub h x).softErrors = s.softErrors := rfl
@[simp] theorem State.setHub_beaconAt (s : State) (h : Nat) (x : Hub) : (s.setHub h x).beaconAt = s.beaconAt := rfl
@[simp] theorem State.setHub_beacons (s : State) (h : Nat) (x : Hub) : (s.setHub h x).beacons = s.beacons := rfl
@[simp] theorem State.setHub_hops (s : State) (h : Nat) (x : Hub) : (s.setHub h x).hops = s.hops := rfl
@[simp] theorem State.setHub_kicks (s : State) (h : Nat) (x : Hub) : (s.setHub h x).kicks = s.kicks := rfl
@[simp] theorem State.setHub_agenda (s : State) (h : Nat) (x : Hub) : (s.setHub h x).agenda = s.agenda := rfl

/-! ### `State.setByte` -/

@[simp] theorem State.setByte_time (s : State) (a : Nat) (b : Byte) : (s.setByte a b).time = s.time := rfl
@[simp] theorem State.setByte_draws (s : State) (a : Nat) (b : Byte) : (s.setByte a b).draws = s.draws := rfl
@[simp] theorem State.setByte_tokens (s : State) (a : Nat) (b : Byte) : (s.setByte a b).tokens = s.tokens := rfl
@[simp] theorem State.setByte_ids (s : State) (a : Nat) (b : Byte) : (s.setByte a b).ids = s.ids := rfl
@[simp] theorem State.setByte_cur (s : State) (a : Nat) (b : Byte) : (s.setByte a b).cur = s.cur := rfl
@[simp] theorem State.setByte_others (s : State) (a : Nat) (b : Byte) : (s.setByte a b).others = s.others := rfl
@[simp] theorem State.setByte_waiting (s : State) (a : Nat) (b : Byte) : (s.setByte a b).waiting = s.waiting := rfl
@[simp] theorem State.setByte_launches (s : State) (a : Nat) (b : Byte) : (s.setByte a b).launches = s.launches := rfl
@[simp] theorem State.setByte_nextLaunch (s : State) (a : Nat) (b : Byte) : (s.setByte a b).nextLaunch = s.nextLaunch := rfl
@[simp] theorem State.setByte_mem (s : State) (a : Nat) (b : Byte) : (s.setByte a b).mem = Sparse.set 0 s.mem a b := rfl
@[simp] theorem State.setByte_locks (s : State) (a : Nat) (b : Byte) : (s.setByte a b).locks = s.locks := rfl
@[simp] theorem State.setByte_token (s : State) (a : Nat) (b : Byte) : (s.setByte a b).token = s.token := rfl
@[simp] theorem State.setByte_cores (s : State) (a : Nat) (b : Byte) : (s.setByte a b).cores = s.cores := rfl
@[simp] theorem State.setByte_clusters (s : State) (a : Nat) (b : Byte) : (s.setByte a b).clusters = s.clusters := rfl
@[simp] theorem State.setByte_dies (s : State) (a : Nat) (b : Byte) : (s.setByte a b).dies = s.dies := rfl
@[simp] theorem State.setByte_hubs (s : State) (a : Nat) (b : Byte) : (s.setByte a b).hubs = s.hubs := rfl
@[simp] theorem State.setByte_pools (s : State) (a : Nat) (b : Byte) : (s.setByte a b).pools = s.pools := rfl
@[simp] theorem State.setByte_faults (s : State) (a : Nat) (b : Byte) : (s.setByte a b).faults = s.faults := rfl
@[simp] theorem State.setByte_walks (s : State) (a : Nat) (b : Byte) : (s.setByte a b).walks = s.walks := rfl
@[simp] theorem State.setByte_prefetches (s : State) (a : Nat) (b : Byte) : (s.setByte a b).prefetches = s.prefetches := rfl
@[simp] theorem State.setByte_faultMail (s : State) (a : Nat) (b : Byte) : (s.setByte a b).faultMail = s.faultMail := rfl
@[simp] theorem State.setByte_flights (s : State) (a : Nat) (b : Byte) : (s.setByte a b).flights = s.flights := rfl
@[simp] theorem State.setByte_remotes (s : State) (a : Nat) (b : Byte) : (s.setByte a b).remotes = s.remotes := rfl
@[simp] theorem State.setByte_announced (s : State) (a : Nat) (b : Byte) : (s.setByte a b).announced = s.announced := rfl
@[simp] theorem State.setByte_counters (s : State) (a : Nat) (b : Byte) : (s.setByte a b).counters = s.counters := rfl
@[simp] theorem State.setByte_queues (s : State) (a : Nat) (b : Byte) : (s.setByte a b).queues = s.queues := rfl
@[simp] theorem State.setByte_replays (s : State) (a : Nat) (b : Byte) : (s.setByte a b).replays = s.replays := rfl
@[simp] theorem State.setByte_phases (s : State) (a : Nat) (b : Byte) : (s.setByte a b).phases = s.phases := rfl
@[simp] theorem State.setByte_nextReplay (s : State) (a : Nat) (b : Byte) : (s.setByte a b).nextReplay = s.nextReplay := rfl
@[simp] theorem State.setByte_nodeMsgs (s : State) (a : Nat) (b : Byte) : (s.setByte a b).nodeMsgs = s.nodeMsgs := rfl
@[simp] theorem State.setByte_cpFails (s : State) (a : Nat) (b : Byte) : (s.setByte a b).cpFails = s.cpFails := rfl
@[simp] theorem State.setByte_ended (s : State) (a : Nat) (b : Byte) : (s.setByte a b).ended = s.ended := rfl
@[simp] theorem State.setByte_jobFails (s : State) (a : Nat) (b : Byte) : (s.setByte a b).jobFails = s.jobFails := rfl
@[simp] theorem State.setByte_jobtab (s : State) (a : Nat) (b : Byte) : (s.setByte a b).jobtab = s.jobtab := rfl
@[simp] theorem State.setByte_tvec (s : State) (a : Nat) (b : Byte) : (s.setByte a b).tvec = s.tvec := rfl
@[simp] theorem State.setByte_wdt (s : State) (a : Nat) (b : Byte) : (s.setByte a b).wdt = s.wdt := rfl
@[simp] theorem State.setByte_ctx (s : State) (a : Nat) (b : Byte) : (s.setByte a b).ctx = s.ctx := rfl
@[simp] theorem State.setByte_modid (s : State) (a : Nat) (b : Byte) : (s.setByte a b).modid = s.modid := rfl
@[simp] theorem State.setByte_numbered (s : State) (a : Nat) (b : Byte) : (s.setByte a b).numbered = s.numbered := rfl
@[simp] theorem State.setByte_topo (s : State) (a : Nat) (b : Byte) : (s.setByte a b).topo = s.topo := rfl
@[simp] theorem State.setByte_mismatch (s : State) (a : Nat) (b : Byte) : (s.setByte a b).mismatch = s.mismatch := rfl
@[simp] theorem State.setByte_ports (s : State) (a : Nat) (b : Byte) : (s.setByte a b).ports = s.ports := rfl
@[simp] theorem State.setByte_lanes (s : State) (a : Nat) (b : Byte) : (s.setByte a b).lanes = s.lanes := rfl
@[simp] theorem State.setByte_outbox (s : State) (a : Nat) (b : Byte) : (s.setByte a b).outbox = s.outbox := rfl
@[simp] theorem State.setByte_laneOut (s : State) (a : Nat) (b : Byte) : (s.setByte a b).laneOut = s.laneOut := rfl
@[simp] theorem State.setByte_laneHoles (s : State) (a : Nat) (b : Byte) : (s.setByte a b).laneHoles = s.laneHoles := rfl
@[simp] theorem State.setByte_held (s : State) (a : Nat) (b : Byte) : (s.setByte a b).held = s.held := rfl
@[simp] theorem State.setByte_refusals (s : State) (a : Nat) (b : Byte) : (s.setByte a b).refusals = s.refusals := rfl
@[simp] theorem State.setByte_stale (s : State) (a : Nat) (b : Byte) : (s.setByte a b).stale = s.stale := rfl
@[simp] theorem State.setByte_remoteLocks (s : State) (a : Nat) (b : Byte) : (s.setByte a b).remoteLocks = s.remoteLocks := rfl
@[simp] theorem State.setByte_diePorts (s : State) (a : Nat) (b : Byte) : (s.setByte a b).diePorts = s.diePorts := rfl
@[simp] theorem State.setByte_dieOut (s : State) (a : Nat) (b : Byte) : (s.setByte a b).dieOut = s.dieOut := rfl
@[simp] theorem State.setByte_dieFwd (s : State) (a : Nat) (b : Byte) : (s.setByte a b).dieFwd = s.dieFwd := rfl
@[simp] theorem State.setByte_dieAsked (s : State) (a : Nat) (b : Byte) : (s.setByte a b).dieAsked = s.dieAsked := rfl
@[simp] theorem State.setByte_dieIn (s : State) (a : Nat) (b : Byte) : (s.setByte a b).dieIn = s.dieIn := rfl
@[simp] theorem State.setByte_homeAcks (s : State) (a : Nat) (b : Byte) : (s.setByte a b).homeAcks = s.homeAcks := rfl
@[simp] theorem State.setByte_secureRegions (s : State) (a : Nat) (b : Byte) : (s.setByte a b).secureRegions = s.secureRegions := rfl
@[simp] theorem State.setByte_secureBlocks (s : State) (a : Nat) (b : Byte) : (s.setByte a b).secureBlocks = s.secureBlocks := rfl
@[simp] theorem State.setByte_boot (s : State) (a : Nat) (b : Byte) : (s.setByte a b).boot = s.boot := rfl
@[simp] theorem State.setByte_releasedAt (s : State) (a : Nat) (b : Byte) : (s.setByte a b).releasedAt = s.releasedAt := rfl
@[simp] theorem State.setByte_bare (s : State) (a : Nat) (b : Byte) : (s.setByte a b).bare = s.bare := rfl
@[simp] theorem State.setByte_powerHold (s : State) (a : Nat) (b : Byte) : (s.setByte a b).powerHold = s.powerHold := rfl
@[simp] theorem State.setByte_stopped (s : State) (a : Nat) (b : Byte) : (s.setByte a b).stopped = s.stopped := rfl
@[simp] theorem State.setByte_softErrors (s : State) (a : Nat) (b : Byte) : (s.setByte a b).softErrors = s.softErrors := rfl
@[simp] theorem State.setByte_beaconAt (s : State) (a : Nat) (b : Byte) : (s.setByte a b).beaconAt = s.beaconAt := rfl
@[simp] theorem State.setByte_beacons (s : State) (a : Nat) (b : Byte) : (s.setByte a b).beacons = s.beacons := rfl
@[simp] theorem State.setByte_hops (s : State) (a : Nat) (b : Byte) : (s.setByte a b).hops = s.hops := rfl
@[simp] theorem State.setByte_kicks (s : State) (a : Nat) (b : Byte) : (s.setByte a b).kicks = s.kicks := rfl
@[simp] theorem State.setByte_agenda (s : State) (a : Nat) (b : Byte) : (s.setByte a b).agenda = s.agenda := rfl

/-! ### `Unit.setS` -/

@[simp] theorem Unit.setS_placed (u : Unit) (r : SReg) (x : Word) : (u.setS r x).placed = u.placed := by unfold Unit.setS; split <;> rfl
@[simp] theorem Unit.setS_loc (u : Unit) (r : SReg) (x : Word) : (u.setS r x).loc = u.loc := by unfold Unit.setS; split <;> rfl
@[simp] theorem Unit.setS_job (u : Unit) (r : SReg) (x : Word) : (u.setS r x).job = u.job := by unfold Unit.setS; split <;> rfl
@[simp] theorem Unit.setS_pc (u : Unit) (r : SReg) (x : Word) : (u.setS r x).pc = u.pc := by unfold Unit.setS; split <;> rfl
@[simp] theorem Unit.setS_aslot (u : Unit) (r : SReg) (x : Word) : (u.setS r x).aslot = u.aslot := by unfold Unit.setS; split <;> rfl
@[simp] theorem Unit.setS_npc (u : Unit) (r : SReg) (x : Word) : (u.setS r x).npc = u.npc := by unfold Unit.setS; split <;> rfl
@[simp] theorem Unit.setS_fetched (u : Unit) (r : SReg) (x : Word) : (u.setS r x).fetched = u.fetched := by unfold Unit.setS; split <;> rfl
@[simp] theorem Unit.setS_saved (u : Unit) (r : SReg) (x : Word) : (u.setS r x).saved = u.saved := by unfold Unit.setS; split <;> rfl
@[simp] theorem Unit.setS_depth (u : Unit) (r : SReg) (x : Word) : (u.setS r x).depth = u.depth := by unfold Unit.setS; split <;> rfl
@[simp] theorem Unit.setS_v (u : Unit) (r : SReg) (x : Word) : (u.setS r x).v = u.v := by unfold Unit.setS; split <;> rfl
@[simp] theorem Unit.setS_k (u : Unit) (r : SReg) (x : Word) : (u.setS r x).k = u.k := by unfold Unit.setS; split <;> rfl
@[simp] theorem Unit.setS_p (u : Unit) (r : SReg) (x : Word) : (u.setS r x).p = u.p := by unfold Unit.setS; split <;> rfl
@[simp] theorem Unit.setS_tsr (u : Unit) (r : SReg) (x : Word) : (u.setS r x).tsr = u.tsr := by unfold Unit.setS; split <;> rfl
@[simp] theorem Unit.setS_epc (u : Unit) (r : SReg) (x : Word) : (u.setS r x).epc = u.epc := by unfold Unit.setS; split <;> rfl
@[simp] theorem Unit.setS_cause (u : Unit) (r : SReg) (x : Word) : (u.setS r x).cause = u.cause := by unfold Unit.setS; split <;> rfl
@[simp] theorem Unit.setS_faddr (u : Unit) (r : SReg) (x : Word) : (u.setS r x).faddr = u.faddr := by unfold Unit.setS; split <;> rfl
@[simp] theorem Unit.setS_lpc (u : Unit) (r : SReg) (x : Word) : (u.setS r x).lpc = u.lpc := by unfold Unit.setS; split <;> rfl
@[simp] theorem Unit.setS_wsp (u : Unit) (r : SReg) (x : Word) : (u.setS r x).wsp = u.wsp := by unfold Unit.setS; split <;> rfl
@[simp] theorem Unit.setS_lsb (u : Unit) (r : SReg) (x : Word) : (u.setS r x).lsb = u.lsb := by unfold Unit.setS; split <;> rfl
@[simp] theorem Unit.setS_tid (u : Unit) (r : SReg) (x : Word) : (u.setS r x).tid = u.tid := by unfold Unit.setS; split <;> rfl
@[simp] theorem Unit.setS_unit (u : Unit) (r : SReg) (x : Word) : (u.setS r x).unit = u.unit := by unfold Unit.setS; split <;> rfl
@[simp] theorem Unit.setS_launch (u : Unit) (r : SReg) (x : Word) : (u.setS r x).launch = u.launch := by unfold Unit.setS; split <;> rfl
@[simp] theorem Unit.setS_wcnt (u : Unit) (r : SReg) (x : Word) : (u.setS r x).wcnt = u.wcnt := by unfold Unit.setS; split <;> rfl
@[simp] theorem Unit.setS_secure (u : Unit) (r : SReg) (x : Word) : (u.setS r x).secure = u.secure := by unfold Unit.setS; split <;> rfl
@[simp] theorem Unit.setS_pfx (u : Unit) (r : SReg) (x : Word) : (u.setS r x).pfx = u.pfx := by unfold Unit.setS; split <;> rfl
@[simp] theorem Unit.setS_lap (u : Unit) (r : SReg) (x : Word) : (u.setS r x).lap = u.lap := by unfold Unit.setS; split <;> rfl
@[simp] theorem Unit.setS_lbm (u : Unit) (r : SReg) (x : Word) : (u.setS r x).lbm = u.lbm := by unfold Unit.setS; split <;> rfl
@[simp] theorem Unit.setS_xtag (u : Unit) (r : SReg) (x : Word) : (u.setS r x).xtag = u.xtag := by unfold Unit.setS; split <;> rfl
@[simp] theorem Unit.setS_sbind (u : Unit) (r : SReg) (x : Word) : (u.setS r x).sbind = u.sbind := by unfold Unit.setS; split <;> rfl
@[simp] theorem Unit.setS_wain (u : Unit) (r : SReg) (x : Word) : (u.setS r x).wain = u.wain := by unfold Unit.setS; split <;> rfl
@[simp] theorem Unit.setS_gang (u : Unit) (r : SReg) (x : Word) : (u.setS r x).gang = u.gang := by unfold Unit.setS; split <;> rfl
@[simp] theorem Unit.setS_seq (u : Unit) (r : SReg) (x : Word) : (u.setS r x).seq = u.seq := by unfold Unit.setS; split <;> rfl
@[simp] theorem Unit.setS_task (u : Unit) (r : SReg) (x : Word) : (u.setS r x).task = u.task := by unfold Unit.setS; split <;> rfl
@[simp] theorem Unit.setS_pend (u : Unit) (r : SReg) (x : Word) : (u.setS r x).pend = u.pend := by unfold Unit.setS; split <;> rfl
@[simp] theorem Unit.setS_turn (u : Unit) (r : SReg) (x : Word) : (u.setS r x).turn = u.turn := by unfold Unit.setS; split <;> rfl
@[simp] theorem Unit.setS_wait (u : Unit) (r : SReg) (x : Word) : (u.setS r x).wait = u.wait := by unfold Unit.setS; split <;> rfl
@[simp] theorem Unit.setS_mail (u : Unit) (r : SReg) (x : Word) : (u.setS r x).mail = u.mail := by unfold Unit.setS; split <;> rfl
@[simp] theorem Unit.setS_commit (u : Unit) (r : SReg) (x : Word) : (u.setS r x).commit = u.commit := by unfold Unit.setS; split <;> rfl
@[simp] theorem Unit.setS_visible (u : Unit) (r : SReg) (x : Word) : (u.setS r x).visible = u.visible := by unfold Unit.setS; split <;> rfl
@[simp] theorem Unit.setS_visibleAt (u : Unit) (r : SReg) (x : Word) : (u.setS r x).visibleAt = u.visibleAt := by unfold Unit.setS; split <;> rfl
@[simp] theorem Unit.setS_prepared (u : Unit) (r : SReg) (x : Word) : (u.setS r x).prepared = u.prepared := by unfold Unit.setS; split <;> rfl
@[simp] theorem Unit.setS_retCommit (u : Unit) (r : SReg) (x : Word) : (u.setS r x).retCommit = u.retCommit := by unfold Unit.setS; split <;> rfl
@[simp] theorem Unit.setS_left (u : Unit) (r : SReg) (x : Word) : (u.setS r x).left = u.left := by unfold Unit.setS; split <;> rfl
@[simp] theorem Unit.setS_retPc (u : Unit) (r : SReg) (x : Word) : (u.setS r x).retPc = u.retPc := by unfold Unit.setS; split <;> rfl
@[simp] theorem Unit.setS_marked (u : Unit) (r : SReg) (x : Word) : (u.setS r x).marked = u.marked := by unfold Unit.setS; split <;> rfl
@[simp] theorem Unit.setS_owed (u : Unit) (r : SReg) (x : Word) : (u.setS r x).owed = u.owed := by unfold Unit.setS; split <;> rfl
@[simp] theorem Unit.setS_owedMatrix (u : Unit) (r : SReg) (x : Word) : (u.setS r x).owedMatrix = u.owedMatrix := by unfold Unit.setS; split <;> rfl
@[simp] theorem Unit.setS_owedTd (u : Unit) (r : SReg) (x : Word) : (u.setS r x).owedTd = u.owedTd := by unfold Unit.setS; split <;> rfl
@[simp] theorem Unit.setS_cancelled (u : Unit) (r : SReg) (x : Word) : (u.setS r x).cancelled = u.cancelled := by unfold Unit.setS; split <;> rfl
@[simp] theorem Unit.setS_aborts (u : Unit) (r : SReg) (x : Word) : (u.setS r x).aborts = u.aborts := by unfold Unit.setS; split <;> rfl
@[simp] theorem Unit.setS_nonspecSince (u : Unit) (r : SReg) (x : Word) : (u.setS r x).nonspecSince = u.nonspecSince := by unfold Unit.setS; split <;> rfl
@[simp] theorem Unit.setS_splitAt (u : Unit) (r : SReg) (x : Word) : (u.setS r x).splitAt = u.splitAt := by unfold Unit.setS; split <;> rfl
@[simp] theorem Unit.setS_atc (u : Unit) (r : SReg) (x : Word) : (u.setS r x).atc = u.atc := by unfold Unit.setS; split <;> rfl
@[simp] theorem Unit.setS_raising (u : Unit) (r : SReg) (x : Word) : (u.setS r x).raising = u.raising := by unfold Unit.setS; split <;> rfl
@[simp] theorem Unit.setS_nonspecBack (u : Unit) (r : SReg) (x : Word) : (u.setS r x).nonspecBack = u.nonspecBack := by unfold Unit.setS; split <;> rfl
@[simp] theorem Unit.setS_taken (u : Unit) (r : SReg) (x : Word) : (u.setS r x).taken = u.taken := by unfold Unit.setS; split <;> rfl
@[simp] theorem Unit.setS_away (u : Unit) (r : SReg) (x : Word) : (u.setS r x).away = u.away := by unfold Unit.setS; split <;> rfl
@[simp] theorem Unit.setS_debug (u : Unit) (r : SReg) (x : Word) : (u.setS r x).debug = u.debug := by unfold Unit.setS; split <;> rfl
@[simp] theorem Unit.setS_keptBar (u : Unit) (r : SReg) (x : Word) : (u.setS r x).keptBar = u.keptBar := by unfold Unit.setS; split <;> rfl
@[simp] theorem Unit.setS_placedAt (u : Unit) (r : SReg) (x : Word) : (u.setS r x).placedAt = u.placedAt := by unfold Unit.setS; split <;> rfl
@[simp] theorem Unit.setS_awayAt (u : Unit) (r : SReg) (x : Word) : (u.setS r x).awayAt = u.awayAt := by unfold Unit.setS; split <;> rfl
@[simp] theorem Unit.setS_part (u : Unit) (r : SReg) (x : Word) : (u.setS r x).part = u.part := by unfold Unit.setS; split <;> rfl
@[simp] theorem Unit.setS_partStart (u : Unit) (r : SReg) (x : Word) : (u.setS r x).partStart = u.partStart := by unfold Unit.setS; split <;> rfl
@[simp] theorem Unit.setS_q6 (u : Unit) (r : SReg) (x : Word) : (u.setS r x).q6 = u.q6 := by unfold Unit.setS; split <;> rfl
@[simp] theorem Unit.setS_q10 (u : Unit) (r : SReg) (x : Word) : (u.setS r x).q10 = u.q10 := by unfold Unit.setS; split <;> rfl
@[simp] theorem Unit.setS_q11 (u : Unit) (r : SReg) (x : Word) : (u.setS r x).q11 = u.q11 := by unfold Unit.setS; split <;> rfl
@[simp] theorem Unit.setS_q9 (u : Unit) (r : SReg) (x : Word) : (u.setS r x).q9 = u.q9 := by unfold Unit.setS; split <;> rfl
@[simp] theorem Unit.setS_q8 (u : Unit) (r : SReg) (x : Word) : (u.setS r x).q8 = u.q8 := by unfold Unit.setS; split <;> rfl
@[simp] theorem Unit.setS_q8Stream (u : Unit) (r : SReg) (x : Word) : (u.setS r x).q8Stream = u.q8Stream := by unfold Unit.setS; split <;> rfl
@[simp] theorem Unit.setS_copies (u : Unit) (r : SReg) (x : Word) : (u.setS r x).copies = u.copies := by unfold Unit.setS; split <;> rfl
@[simp] theorem Unit.setS_outCopies (u : Unit) (r : SReg) (x : Word) : (u.setS r x).outCopies = u.outCopies := by unfold Unit.setS; split <;> rfl
@[simp] theorem Unit.setS_outRopes (u : Unit) (r : SReg) (x : Word) : (u.setS r x).outRopes = u.outRopes := by unfold Unit.setS; split <;> rfl
@[simp] theorem Unit.setS_outRopesI (u : Unit) (r : SReg) (x : Word) : (u.setS r x).outRopesI = u.outRopesI := by unfold Unit.setS; split <;> rfl
@[simp] theorem Unit.setS_outMats (u : Unit) (r : SReg) (x : Word) : (u.setS r x).outMats = u.outMats := by unfold Unit.setS; split <;> rfl
@[simp] theorem Unit.setS_outMatsC (u : Unit) (r : SReg) (x : Word) : (u.setS r x).outMatsC = u.outMatsC := by unfold Unit.setS; split <;> rfl
@[simp] theorem Unit.setS_outMatsOut (u : Unit) (r : SReg) (x : Word) : (u.setS r x).outMatsOut = u.outMatsOut := by unfold Unit.setS; split <;> rfl
@[simp] theorem Unit.setS_outSends (u : Unit) (r : SReg) (x : Word) : (u.setS r x).outSends = u.outSends := by unfold Unit.setS; split <;> rfl

/-! ### `Unit.setV` -/

@[simp] theorem Unit.setV_placed (u : Unit) (r : VReg) (x : VWord) : (u.setV r x).placed = u.placed := rfl
@[simp] theorem Unit.setV_loc (u : Unit) (r : VReg) (x : VWord) : (u.setV r x).loc = u.loc := rfl
@[simp] theorem Unit.setV_job (u : Unit) (r : VReg) (x : VWord) : (u.setV r x).job = u.job := rfl
@[simp] theorem Unit.setV_pc (u : Unit) (r : VReg) (x : VWord) : (u.setV r x).pc = u.pc := rfl
@[simp] theorem Unit.setV_aslot (u : Unit) (r : VReg) (x : VWord) : (u.setV r x).aslot = u.aslot := rfl
@[simp] theorem Unit.setV_npc (u : Unit) (r : VReg) (x : VWord) : (u.setV r x).npc = u.npc := rfl
@[simp] theorem Unit.setV_fetched (u : Unit) (r : VReg) (x : VWord) : (u.setV r x).fetched = u.fetched := rfl
@[simp] theorem Unit.setV_regs (u : Unit) (r : VReg) (x : VWord) : (u.setV r x).regs = u.regs := rfl
@[simp] theorem Unit.setV_saved (u : Unit) (r : VReg) (x : VWord) : (u.setV r x).saved = u.saved := rfl
@[simp] theorem Unit.setV_depth (u : Unit) (r : VReg) (x : VWord) : (u.setV r x).depth = u.depth := rfl
@[simp] theorem Unit.setV_k (u : Unit) (r : VReg) (x : VWord) : (u.setV r x).k = u.k := rfl
@[simp] theorem Unit.setV_p (u : Unit) (r : VReg) (x : VWord) : (u.setV r x).p = u.p := rfl
@[simp] theorem Unit.setV_tsr (u : Unit) (r : VReg) (x : VWord) : (u.setV r x).tsr = u.tsr := rfl
@[simp] theorem Unit.setV_epc (u : Unit) (r : VReg) (x : VWord) : (u.setV r x).epc = u.epc := rfl
@[simp] theorem Unit.setV_cause (u : Unit) (r : VReg) (x : VWord) : (u.setV r x).cause = u.cause := rfl
@[simp] theorem Unit.setV_faddr (u : Unit) (r : VReg) (x : VWord) : (u.setV r x).faddr = u.faddr := rfl
@[simp] theorem Unit.setV_lpc (u : Unit) (r : VReg) (x : VWord) : (u.setV r x).lpc = u.lpc := rfl
@[simp] theorem Unit.setV_wsp (u : Unit) (r : VReg) (x : VWord) : (u.setV r x).wsp = u.wsp := rfl
@[simp] theorem Unit.setV_lsb (u : Unit) (r : VReg) (x : VWord) : (u.setV r x).lsb = u.lsb := rfl
@[simp] theorem Unit.setV_tid (u : Unit) (r : VReg) (x : VWord) : (u.setV r x).tid = u.tid := rfl
@[simp] theorem Unit.setV_unit (u : Unit) (r : VReg) (x : VWord) : (u.setV r x).unit = u.unit := rfl
@[simp] theorem Unit.setV_launch (u : Unit) (r : VReg) (x : VWord) : (u.setV r x).launch = u.launch := rfl
@[simp] theorem Unit.setV_wcnt (u : Unit) (r : VReg) (x : VWord) : (u.setV r x).wcnt = u.wcnt := rfl
@[simp] theorem Unit.setV_secure (u : Unit) (r : VReg) (x : VWord) : (u.setV r x).secure = u.secure := rfl
@[simp] theorem Unit.setV_pfx (u : Unit) (r : VReg) (x : VWord) : (u.setV r x).pfx = u.pfx := rfl
@[simp] theorem Unit.setV_lap (u : Unit) (r : VReg) (x : VWord) : (u.setV r x).lap = u.lap := rfl
@[simp] theorem Unit.setV_lbm (u : Unit) (r : VReg) (x : VWord) : (u.setV r x).lbm = u.lbm := rfl
@[simp] theorem Unit.setV_xtag (u : Unit) (r : VReg) (x : VWord) : (u.setV r x).xtag = u.xtag := rfl
@[simp] theorem Unit.setV_sbind (u : Unit) (r : VReg) (x : VWord) : (u.setV r x).sbind = u.sbind := rfl
@[simp] theorem Unit.setV_wain (u : Unit) (r : VReg) (x : VWord) : (u.setV r x).wain = u.wain := rfl
@[simp] theorem Unit.setV_gang (u : Unit) (r : VReg) (x : VWord) : (u.setV r x).gang = u.gang := rfl
@[simp] theorem Unit.setV_seq (u : Unit) (r : VReg) (x : VWord) : (u.setV r x).seq = u.seq := rfl
@[simp] theorem Unit.setV_task (u : Unit) (r : VReg) (x : VWord) : (u.setV r x).task = u.task := rfl
@[simp] theorem Unit.setV_pend (u : Unit) (r : VReg) (x : VWord) : (u.setV r x).pend = u.pend := rfl
@[simp] theorem Unit.setV_turn (u : Unit) (r : VReg) (x : VWord) : (u.setV r x).turn = u.turn := rfl
@[simp] theorem Unit.setV_wait (u : Unit) (r : VReg) (x : VWord) : (u.setV r x).wait = u.wait := rfl
@[simp] theorem Unit.setV_mail (u : Unit) (r : VReg) (x : VWord) : (u.setV r x).mail = u.mail := rfl
@[simp] theorem Unit.setV_commit (u : Unit) (r : VReg) (x : VWord) : (u.setV r x).commit = u.commit := rfl
@[simp] theorem Unit.setV_visible (u : Unit) (r : VReg) (x : VWord) : (u.setV r x).visible = u.visible := rfl
@[simp] theorem Unit.setV_visibleAt (u : Unit) (r : VReg) (x : VWord) : (u.setV r x).visibleAt = u.visibleAt := rfl
@[simp] theorem Unit.setV_prepared (u : Unit) (r : VReg) (x : VWord) : (u.setV r x).prepared = u.prepared := rfl
@[simp] theorem Unit.setV_retCommit (u : Unit) (r : VReg) (x : VWord) : (u.setV r x).retCommit = u.retCommit := rfl
@[simp] theorem Unit.setV_left (u : Unit) (r : VReg) (x : VWord) : (u.setV r x).left = u.left := rfl
@[simp] theorem Unit.setV_retPc (u : Unit) (r : VReg) (x : VWord) : (u.setV r x).retPc = u.retPc := rfl
@[simp] theorem Unit.setV_marked (u : Unit) (r : VReg) (x : VWord) : (u.setV r x).marked = u.marked := rfl
@[simp] theorem Unit.setV_owed (u : Unit) (r : VReg) (x : VWord) : (u.setV r x).owed = u.owed := rfl
@[simp] theorem Unit.setV_owedMatrix (u : Unit) (r : VReg) (x : VWord) : (u.setV r x).owedMatrix = u.owedMatrix := rfl
@[simp] theorem Unit.setV_owedTd (u : Unit) (r : VReg) (x : VWord) : (u.setV r x).owedTd = u.owedTd := rfl
@[simp] theorem Unit.setV_cancelled (u : Unit) (r : VReg) (x : VWord) : (u.setV r x).cancelled = u.cancelled := rfl
@[simp] theorem Unit.setV_aborts (u : Unit) (r : VReg) (x : VWord) : (u.setV r x).aborts = u.aborts := rfl
@[simp] theorem Unit.setV_nonspecSince (u : Unit) (r : VReg) (x : VWord) : (u.setV r x).nonspecSince = u.nonspecSince := rfl
@[simp] theorem Unit.setV_splitAt (u : Unit) (r : VReg) (x : VWord) : (u.setV r x).splitAt = u.splitAt := rfl
@[simp] theorem Unit.setV_atc (u : Unit) (r : VReg) (x : VWord) : (u.setV r x).atc = u.atc := rfl
@[simp] theorem Unit.setV_raising (u : Unit) (r : VReg) (x : VWord) : (u.setV r x).raising = u.raising := rfl
@[simp] theorem Unit.setV_nonspecBack (u : Unit) (r : VReg) (x : VWord) : (u.setV r x).nonspecBack = u.nonspecBack := rfl
@[simp] theorem Unit.setV_taken (u : Unit) (r : VReg) (x : VWord) : (u.setV r x).taken = u.taken := rfl
@[simp] theorem Unit.setV_away (u : Unit) (r : VReg) (x : VWord) : (u.setV r x).away = u.away := rfl
@[simp] theorem Unit.setV_debug (u : Unit) (r : VReg) (x : VWord) : (u.setV r x).debug = u.debug := rfl
@[simp] theorem Unit.setV_keptBar (u : Unit) (r : VReg) (x : VWord) : (u.setV r x).keptBar = u.keptBar := rfl
@[simp] theorem Unit.setV_placedAt (u : Unit) (r : VReg) (x : VWord) : (u.setV r x).placedAt = u.placedAt := rfl
@[simp] theorem Unit.setV_awayAt (u : Unit) (r : VReg) (x : VWord) : (u.setV r x).awayAt = u.awayAt := rfl
@[simp] theorem Unit.setV_part (u : Unit) (r : VReg) (x : VWord) : (u.setV r x).part = u.part := rfl
@[simp] theorem Unit.setV_partStart (u : Unit) (r : VReg) (x : VWord) : (u.setV r x).partStart = u.partStart := rfl
@[simp] theorem Unit.setV_q6 (u : Unit) (r : VReg) (x : VWord) : (u.setV r x).q6 = u.q6 := rfl
@[simp] theorem Unit.setV_q10 (u : Unit) (r : VReg) (x : VWord) : (u.setV r x).q10 = u.q10 := rfl
@[simp] theorem Unit.setV_q11 (u : Unit) (r : VReg) (x : VWord) : (u.setV r x).q11 = u.q11 := rfl
@[simp] theorem Unit.setV_q9 (u : Unit) (r : VReg) (x : VWord) : (u.setV r x).q9 = u.q9 := rfl
@[simp] theorem Unit.setV_q8 (u : Unit) (r : VReg) (x : VWord) : (u.setV r x).q8 = u.q8 := rfl
@[simp] theorem Unit.setV_q8Stream (u : Unit) (r : VReg) (x : VWord) : (u.setV r x).q8Stream = u.q8Stream := rfl
@[simp] theorem Unit.setV_copies (u : Unit) (r : VReg) (x : VWord) : (u.setV r x).copies = u.copies := rfl
@[simp] theorem Unit.setV_outCopies (u : Unit) (r : VReg) (x : VWord) : (u.setV r x).outCopies = u.outCopies := rfl
@[simp] theorem Unit.setV_outRopes (u : Unit) (r : VReg) (x : VWord) : (u.setV r x).outRopes = u.outRopes := rfl
@[simp] theorem Unit.setV_outRopesI (u : Unit) (r : VReg) (x : VWord) : (u.setV r x).outRopesI = u.outRopesI := rfl
@[simp] theorem Unit.setV_outMats (u : Unit) (r : VReg) (x : VWord) : (u.setV r x).outMats = u.outMats := rfl
@[simp] theorem Unit.setV_outMatsC (u : Unit) (r : VReg) (x : VWord) : (u.setV r x).outMatsC = u.outMatsC := rfl
@[simp] theorem Unit.setV_outMatsOut (u : Unit) (r : VReg) (x : VWord) : (u.setV r x).outMatsOut = u.outMatsOut := rfl
@[simp] theorem Unit.setV_outSends (u : Unit) (r : VReg) (x : VWord) : (u.setV r x).outSends = u.outSends := rfl

/-! ### `Unit.setK` -/

@[simp] theorem Unit.setK_placed (u : Unit) (r : KReg) (x : KWord) : (u.setK r x).placed = u.placed := by unfold Unit.setK; split <;> rfl
@[simp] theorem Unit.setK_loc (u : Unit) (r : KReg) (x : KWord) : (u.setK r x).loc = u.loc := by unfold Unit.setK; split <;> rfl
@[simp] theorem Unit.setK_job (u : Unit) (r : KReg) (x : KWord) : (u.setK r x).job = u.job := by unfold Unit.setK; split <;> rfl
@[simp] theorem Unit.setK_pc (u : Unit) (r : KReg) (x : KWord) : (u.setK r x).pc = u.pc := by unfold Unit.setK; split <;> rfl
@[simp] theorem Unit.setK_aslot (u : Unit) (r : KReg) (x : KWord) : (u.setK r x).aslot = u.aslot := by unfold Unit.setK; split <;> rfl
@[simp] theorem Unit.setK_npc (u : Unit) (r : KReg) (x : KWord) : (u.setK r x).npc = u.npc := by unfold Unit.setK; split <;> rfl
@[simp] theorem Unit.setK_fetched (u : Unit) (r : KReg) (x : KWord) : (u.setK r x).fetched = u.fetched := by unfold Unit.setK; split <;> rfl
@[simp] theorem Unit.setK_regs (u : Unit) (r : KReg) (x : KWord) : (u.setK r x).regs = u.regs := by unfold Unit.setK; split <;> rfl
@[simp] theorem Unit.setK_saved (u : Unit) (r : KReg) (x : KWord) : (u.setK r x).saved = u.saved := by unfold Unit.setK; split <;> rfl
@[simp] theorem Unit.setK_depth (u : Unit) (r : KReg) (x : KWord) : (u.setK r x).depth = u.depth := by unfold Unit.setK; split <;> rfl
@[simp] theorem Unit.setK_v (u : Unit) (r : KReg) (x : KWord) : (u.setK r x).v = u.v := by unfold Unit.setK; split <;> rfl
@[simp] theorem Unit.setK_p (u : Unit) (r : KReg) (x : KWord) : (u.setK r x).p = u.p := by unfold Unit.setK; split <;> rfl
@[simp] theorem Unit.setK_tsr (u : Unit) (r : KReg) (x : KWord) : (u.setK r x).tsr = u.tsr := by unfold Unit.setK; split <;> rfl
@[simp] theorem Unit.setK_epc (u : Unit) (r : KReg) (x : KWord) : (u.setK r x).epc = u.epc := by unfold Unit.setK; split <;> rfl
@[simp] theorem Unit.setK_cause (u : Unit) (r : KReg) (x : KWord) : (u.setK r x).cause = u.cause := by unfold Unit.setK; split <;> rfl
@[simp] theorem Unit.setK_faddr (u : Unit) (r : KReg) (x : KWord) : (u.setK r x).faddr = u.faddr := by unfold Unit.setK; split <;> rfl
@[simp] theorem Unit.setK_lpc (u : Unit) (r : KReg) (x : KWord) : (u.setK r x).lpc = u.lpc := by unfold Unit.setK; split <;> rfl
@[simp] theorem Unit.setK_wsp (u : Unit) (r : KReg) (x : KWord) : (u.setK r x).wsp = u.wsp := by unfold Unit.setK; split <;> rfl
@[simp] theorem Unit.setK_lsb (u : Unit) (r : KReg) (x : KWord) : (u.setK r x).lsb = u.lsb := by unfold Unit.setK; split <;> rfl
@[simp] theorem Unit.setK_tid (u : Unit) (r : KReg) (x : KWord) : (u.setK r x).tid = u.tid := by unfold Unit.setK; split <;> rfl
@[simp] theorem Unit.setK_unit (u : Unit) (r : KReg) (x : KWord) : (u.setK r x).unit = u.unit := by unfold Unit.setK; split <;> rfl
@[simp] theorem Unit.setK_launch (u : Unit) (r : KReg) (x : KWord) : (u.setK r x).launch = u.launch := by unfold Unit.setK; split <;> rfl
@[simp] theorem Unit.setK_wcnt (u : Unit) (r : KReg) (x : KWord) : (u.setK r x).wcnt = u.wcnt := by unfold Unit.setK; split <;> rfl
@[simp] theorem Unit.setK_secure (u : Unit) (r : KReg) (x : KWord) : (u.setK r x).secure = u.secure := by unfold Unit.setK; split <;> rfl
@[simp] theorem Unit.setK_pfx (u : Unit) (r : KReg) (x : KWord) : (u.setK r x).pfx = u.pfx := by unfold Unit.setK; split <;> rfl
@[simp] theorem Unit.setK_lap (u : Unit) (r : KReg) (x : KWord) : (u.setK r x).lap = u.lap := by unfold Unit.setK; split <;> rfl
@[simp] theorem Unit.setK_lbm (u : Unit) (r : KReg) (x : KWord) : (u.setK r x).lbm = u.lbm := by unfold Unit.setK; split <;> rfl
@[simp] theorem Unit.setK_xtag (u : Unit) (r : KReg) (x : KWord) : (u.setK r x).xtag = u.xtag := by unfold Unit.setK; split <;> rfl
@[simp] theorem Unit.setK_sbind (u : Unit) (r : KReg) (x : KWord) : (u.setK r x).sbind = u.sbind := by unfold Unit.setK; split <;> rfl
@[simp] theorem Unit.setK_wain (u : Unit) (r : KReg) (x : KWord) : (u.setK r x).wain = u.wain := by unfold Unit.setK; split <;> rfl
@[simp] theorem Unit.setK_gang (u : Unit) (r : KReg) (x : KWord) : (u.setK r x).gang = u.gang := by unfold Unit.setK; split <;> rfl
@[simp] theorem Unit.setK_seq (u : Unit) (r : KReg) (x : KWord) : (u.setK r x).seq = u.seq := by unfold Unit.setK; split <;> rfl
@[simp] theorem Unit.setK_task (u : Unit) (r : KReg) (x : KWord) : (u.setK r x).task = u.task := by unfold Unit.setK; split <;> rfl
@[simp] theorem Unit.setK_pend (u : Unit) (r : KReg) (x : KWord) : (u.setK r x).pend = u.pend := by unfold Unit.setK; split <;> rfl
@[simp] theorem Unit.setK_turn (u : Unit) (r : KReg) (x : KWord) : (u.setK r x).turn = u.turn := by unfold Unit.setK; split <;> rfl
@[simp] theorem Unit.setK_wait (u : Unit) (r : KReg) (x : KWord) : (u.setK r x).wait = u.wait := by unfold Unit.setK; split <;> rfl
@[simp] theorem Unit.setK_mail (u : Unit) (r : KReg) (x : KWord) : (u.setK r x).mail = u.mail := by unfold Unit.setK; split <;> rfl
@[simp] theorem Unit.setK_commit (u : Unit) (r : KReg) (x : KWord) : (u.setK r x).commit = u.commit := by unfold Unit.setK; split <;> rfl
@[simp] theorem Unit.setK_visible (u : Unit) (r : KReg) (x : KWord) : (u.setK r x).visible = u.visible := by unfold Unit.setK; split <;> rfl
@[simp] theorem Unit.setK_visibleAt (u : Unit) (r : KReg) (x : KWord) : (u.setK r x).visibleAt = u.visibleAt := by unfold Unit.setK; split <;> rfl
@[simp] theorem Unit.setK_prepared (u : Unit) (r : KReg) (x : KWord) : (u.setK r x).prepared = u.prepared := by unfold Unit.setK; split <;> rfl
@[simp] theorem Unit.setK_retCommit (u : Unit) (r : KReg) (x : KWord) : (u.setK r x).retCommit = u.retCommit := by unfold Unit.setK; split <;> rfl
@[simp] theorem Unit.setK_left (u : Unit) (r : KReg) (x : KWord) : (u.setK r x).left = u.left := by unfold Unit.setK; split <;> rfl
@[simp] theorem Unit.setK_retPc (u : Unit) (r : KReg) (x : KWord) : (u.setK r x).retPc = u.retPc := by unfold Unit.setK; split <;> rfl
@[simp] theorem Unit.setK_marked (u : Unit) (r : KReg) (x : KWord) : (u.setK r x).marked = u.marked := by unfold Unit.setK; split <;> rfl
@[simp] theorem Unit.setK_owed (u : Unit) (r : KReg) (x : KWord) : (u.setK r x).owed = u.owed := by unfold Unit.setK; split <;> rfl
@[simp] theorem Unit.setK_owedMatrix (u : Unit) (r : KReg) (x : KWord) : (u.setK r x).owedMatrix = u.owedMatrix := by unfold Unit.setK; split <;> rfl
@[simp] theorem Unit.setK_owedTd (u : Unit) (r : KReg) (x : KWord) : (u.setK r x).owedTd = u.owedTd := by unfold Unit.setK; split <;> rfl
@[simp] theorem Unit.setK_cancelled (u : Unit) (r : KReg) (x : KWord) : (u.setK r x).cancelled = u.cancelled := by unfold Unit.setK; split <;> rfl
@[simp] theorem Unit.setK_aborts (u : Unit) (r : KReg) (x : KWord) : (u.setK r x).aborts = u.aborts := by unfold Unit.setK; split <;> rfl
@[simp] theorem Unit.setK_nonspecSince (u : Unit) (r : KReg) (x : KWord) : (u.setK r x).nonspecSince = u.nonspecSince := by unfold Unit.setK; split <;> rfl
@[simp] theorem Unit.setK_splitAt (u : Unit) (r : KReg) (x : KWord) : (u.setK r x).splitAt = u.splitAt := by unfold Unit.setK; split <;> rfl
@[simp] theorem Unit.setK_atc (u : Unit) (r : KReg) (x : KWord) : (u.setK r x).atc = u.atc := by unfold Unit.setK; split <;> rfl
@[simp] theorem Unit.setK_raising (u : Unit) (r : KReg) (x : KWord) : (u.setK r x).raising = u.raising := by unfold Unit.setK; split <;> rfl
@[simp] theorem Unit.setK_nonspecBack (u : Unit) (r : KReg) (x : KWord) : (u.setK r x).nonspecBack = u.nonspecBack := by unfold Unit.setK; split <;> rfl
@[simp] theorem Unit.setK_taken (u : Unit) (r : KReg) (x : KWord) : (u.setK r x).taken = u.taken := by unfold Unit.setK; split <;> rfl
@[simp] theorem Unit.setK_away (u : Unit) (r : KReg) (x : KWord) : (u.setK r x).away = u.away := by unfold Unit.setK; split <;> rfl
@[simp] theorem Unit.setK_debug (u : Unit) (r : KReg) (x : KWord) : (u.setK r x).debug = u.debug := by unfold Unit.setK; split <;> rfl
@[simp] theorem Unit.setK_keptBar (u : Unit) (r : KReg) (x : KWord) : (u.setK r x).keptBar = u.keptBar := by unfold Unit.setK; split <;> rfl
@[simp] theorem Unit.setK_placedAt (u : Unit) (r : KReg) (x : KWord) : (u.setK r x).placedAt = u.placedAt := by unfold Unit.setK; split <;> rfl
@[simp] theorem Unit.setK_awayAt (u : Unit) (r : KReg) (x : KWord) : (u.setK r x).awayAt = u.awayAt := by unfold Unit.setK; split <;> rfl
@[simp] theorem Unit.setK_part (u : Unit) (r : KReg) (x : KWord) : (u.setK r x).part = u.part := by unfold Unit.setK; split <;> rfl
@[simp] theorem Unit.setK_partStart (u : Unit) (r : KReg) (x : KWord) : (u.setK r x).partStart = u.partStart := by unfold Unit.setK; split <;> rfl
@[simp] theorem Unit.setK_q6 (u : Unit) (r : KReg) (x : KWord) : (u.setK r x).q6 = u.q6 := by unfold Unit.setK; split <;> rfl
@[simp] theorem Unit.setK_q10 (u : Unit) (r : KReg) (x : KWord) : (u.setK r x).q10 = u.q10 := by unfold Unit.setK; split <;> rfl
@[simp] theorem Unit.setK_q11 (u : Unit) (r : KReg) (x : KWord) : (u.setK r x).q11 = u.q11 := by unfold Unit.setK; split <;> rfl
@[simp] theorem Unit.setK_q9 (u : Unit) (r : KReg) (x : KWord) : (u.setK r x).q9 = u.q9 := by unfold Unit.setK; split <;> rfl
@[simp] theorem Unit.setK_q8 (u : Unit) (r : KReg) (x : KWord) : (u.setK r x).q8 = u.q8 := by unfold Unit.setK; split <;> rfl
@[simp] theorem Unit.setK_q8Stream (u : Unit) (r : KReg) (x : KWord) : (u.setK r x).q8Stream = u.q8Stream := by unfold Unit.setK; split <;> rfl
@[simp] theorem Unit.setK_copies (u : Unit) (r : KReg) (x : KWord) : (u.setK r x).copies = u.copies := by unfold Unit.setK; split <;> rfl
@[simp] theorem Unit.setK_outCopies (u : Unit) (r : KReg) (x : KWord) : (u.setK r x).outCopies = u.outCopies := by unfold Unit.setK; split <;> rfl
@[simp] theorem Unit.setK_outRopes (u : Unit) (r : KReg) (x : KWord) : (u.setK r x).outRopes = u.outRopes := by unfold Unit.setK; split <;> rfl
@[simp] theorem Unit.setK_outRopesI (u : Unit) (r : KReg) (x : KWord) : (u.setK r x).outRopesI = u.outRopesI := by unfold Unit.setK; split <;> rfl
@[simp] theorem Unit.setK_outMats (u : Unit) (r : KReg) (x : KWord) : (u.setK r x).outMats = u.outMats := by unfold Unit.setK; split <;> rfl
@[simp] theorem Unit.setK_outMatsC (u : Unit) (r : KReg) (x : KWord) : (u.setK r x).outMatsC = u.outMatsC := by unfold Unit.setK; split <;> rfl
@[simp] theorem Unit.setK_outMatsOut (u : Unit) (r : KReg) (x : KWord) : (u.setK r x).outMatsOut = u.outMatsOut := by unfold Unit.setK; split <;> rfl
@[simp] theorem Unit.setK_outSends (u : Unit) (r : KReg) (x : KWord) : (u.setK r x).outSends = u.outSends := by unfold Unit.setK; split <;> rfl

/-! ### `Unit.setP` -/

@[simp] theorem Unit.setP_placed (u : Unit) (r : PReg) (x : Bool) : (u.setP r x).placed = u.placed := by unfold Unit.setP; split <;> rfl
@[simp] theorem Unit.setP_loc (u : Unit) (r : PReg) (x : Bool) : (u.setP r x).loc = u.loc := by unfold Unit.setP; split <;> rfl
@[simp] theorem Unit.setP_job (u : Unit) (r : PReg) (x : Bool) : (u.setP r x).job = u.job := by unfold Unit.setP; split <;> rfl
@[simp] theorem Unit.setP_pc (u : Unit) (r : PReg) (x : Bool) : (u.setP r x).pc = u.pc := by unfold Unit.setP; split <;> rfl
@[simp] theorem Unit.setP_aslot (u : Unit) (r : PReg) (x : Bool) : (u.setP r x).aslot = u.aslot := by unfold Unit.setP; split <;> rfl
@[simp] theorem Unit.setP_npc (u : Unit) (r : PReg) (x : Bool) : (u.setP r x).npc = u.npc := by unfold Unit.setP; split <;> rfl
@[simp] theorem Unit.setP_fetched (u : Unit) (r : PReg) (x : Bool) : (u.setP r x).fetched = u.fetched := by unfold Unit.setP; split <;> rfl
@[simp] theorem Unit.setP_regs (u : Unit) (r : PReg) (x : Bool) : (u.setP r x).regs = u.regs := by unfold Unit.setP; split <;> rfl
@[simp] theorem Unit.setP_saved (u : Unit) (r : PReg) (x : Bool) : (u.setP r x).saved = u.saved := by unfold Unit.setP; split <;> rfl
@[simp] theorem Unit.setP_depth (u : Unit) (r : PReg) (x : Bool) : (u.setP r x).depth = u.depth := by unfold Unit.setP; split <;> rfl
@[simp] theorem Unit.setP_v (u : Unit) (r : PReg) (x : Bool) : (u.setP r x).v = u.v := by unfold Unit.setP; split <;> rfl
@[simp] theorem Unit.setP_k (u : Unit) (r : PReg) (x : Bool) : (u.setP r x).k = u.k := by unfold Unit.setP; split <;> rfl
@[simp] theorem Unit.setP_tsr (u : Unit) (r : PReg) (x : Bool) : (u.setP r x).tsr = u.tsr := by unfold Unit.setP; split <;> rfl
@[simp] theorem Unit.setP_epc (u : Unit) (r : PReg) (x : Bool) : (u.setP r x).epc = u.epc := by unfold Unit.setP; split <;> rfl
@[simp] theorem Unit.setP_cause (u : Unit) (r : PReg) (x : Bool) : (u.setP r x).cause = u.cause := by unfold Unit.setP; split <;> rfl
@[simp] theorem Unit.setP_faddr (u : Unit) (r : PReg) (x : Bool) : (u.setP r x).faddr = u.faddr := by unfold Unit.setP; split <;> rfl
@[simp] theorem Unit.setP_lpc (u : Unit) (r : PReg) (x : Bool) : (u.setP r x).lpc = u.lpc := by unfold Unit.setP; split <;> rfl
@[simp] theorem Unit.setP_wsp (u : Unit) (r : PReg) (x : Bool) : (u.setP r x).wsp = u.wsp := by unfold Unit.setP; split <;> rfl
@[simp] theorem Unit.setP_lsb (u : Unit) (r : PReg) (x : Bool) : (u.setP r x).lsb = u.lsb := by unfold Unit.setP; split <;> rfl
@[simp] theorem Unit.setP_tid (u : Unit) (r : PReg) (x : Bool) : (u.setP r x).tid = u.tid := by unfold Unit.setP; split <;> rfl
@[simp] theorem Unit.setP_unit (u : Unit) (r : PReg) (x : Bool) : (u.setP r x).unit = u.unit := by unfold Unit.setP; split <;> rfl
@[simp] theorem Unit.setP_launch (u : Unit) (r : PReg) (x : Bool) : (u.setP r x).launch = u.launch := by unfold Unit.setP; split <;> rfl
@[simp] theorem Unit.setP_wcnt (u : Unit) (r : PReg) (x : Bool) : (u.setP r x).wcnt = u.wcnt := by unfold Unit.setP; split <;> rfl
@[simp] theorem Unit.setP_secure (u : Unit) (r : PReg) (x : Bool) : (u.setP r x).secure = u.secure := by unfold Unit.setP; split <;> rfl
@[simp] theorem Unit.setP_pfx (u : Unit) (r : PReg) (x : Bool) : (u.setP r x).pfx = u.pfx := by unfold Unit.setP; split <;> rfl
@[simp] theorem Unit.setP_lap (u : Unit) (r : PReg) (x : Bool) : (u.setP r x).lap = u.lap := by unfold Unit.setP; split <;> rfl
@[simp] theorem Unit.setP_lbm (u : Unit) (r : PReg) (x : Bool) : (u.setP r x).lbm = u.lbm := by unfold Unit.setP; split <;> rfl
@[simp] theorem Unit.setP_xtag (u : Unit) (r : PReg) (x : Bool) : (u.setP r x).xtag = u.xtag := by unfold Unit.setP; split <;> rfl
@[simp] theorem Unit.setP_sbind (u : Unit) (r : PReg) (x : Bool) : (u.setP r x).sbind = u.sbind := by unfold Unit.setP; split <;> rfl
@[simp] theorem Unit.setP_wain (u : Unit) (r : PReg) (x : Bool) : (u.setP r x).wain = u.wain := by unfold Unit.setP; split <;> rfl
@[simp] theorem Unit.setP_gang (u : Unit) (r : PReg) (x : Bool) : (u.setP r x).gang = u.gang := by unfold Unit.setP; split <;> rfl
@[simp] theorem Unit.setP_seq (u : Unit) (r : PReg) (x : Bool) : (u.setP r x).seq = u.seq := by unfold Unit.setP; split <;> rfl
@[simp] theorem Unit.setP_task (u : Unit) (r : PReg) (x : Bool) : (u.setP r x).task = u.task := by unfold Unit.setP; split <;> rfl
@[simp] theorem Unit.setP_pend (u : Unit) (r : PReg) (x : Bool) : (u.setP r x).pend = u.pend := by unfold Unit.setP; split <;> rfl
@[simp] theorem Unit.setP_turn (u : Unit) (r : PReg) (x : Bool) : (u.setP r x).turn = u.turn := by unfold Unit.setP; split <;> rfl
@[simp] theorem Unit.setP_wait (u : Unit) (r : PReg) (x : Bool) : (u.setP r x).wait = u.wait := by unfold Unit.setP; split <;> rfl
@[simp] theorem Unit.setP_mail (u : Unit) (r : PReg) (x : Bool) : (u.setP r x).mail = u.mail := by unfold Unit.setP; split <;> rfl
@[simp] theorem Unit.setP_commit (u : Unit) (r : PReg) (x : Bool) : (u.setP r x).commit = u.commit := by unfold Unit.setP; split <;> rfl
@[simp] theorem Unit.setP_visible (u : Unit) (r : PReg) (x : Bool) : (u.setP r x).visible = u.visible := by unfold Unit.setP; split <;> rfl
@[simp] theorem Unit.setP_visibleAt (u : Unit) (r : PReg) (x : Bool) : (u.setP r x).visibleAt = u.visibleAt := by unfold Unit.setP; split <;> rfl
@[simp] theorem Unit.setP_prepared (u : Unit) (r : PReg) (x : Bool) : (u.setP r x).prepared = u.prepared := by unfold Unit.setP; split <;> rfl
@[simp] theorem Unit.setP_retCommit (u : Unit) (r : PReg) (x : Bool) : (u.setP r x).retCommit = u.retCommit := by unfold Unit.setP; split <;> rfl
@[simp] theorem Unit.setP_left (u : Unit) (r : PReg) (x : Bool) : (u.setP r x).left = u.left := by unfold Unit.setP; split <;> rfl
@[simp] theorem Unit.setP_retPc (u : Unit) (r : PReg) (x : Bool) : (u.setP r x).retPc = u.retPc := by unfold Unit.setP; split <;> rfl
@[simp] theorem Unit.setP_marked (u : Unit) (r : PReg) (x : Bool) : (u.setP r x).marked = u.marked := by unfold Unit.setP; split <;> rfl
@[simp] theorem Unit.setP_owed (u : Unit) (r : PReg) (x : Bool) : (u.setP r x).owed = u.owed := by unfold Unit.setP; split <;> rfl
@[simp] theorem Unit.setP_owedMatrix (u : Unit) (r : PReg) (x : Bool) : (u.setP r x).owedMatrix = u.owedMatrix := by unfold Unit.setP; split <;> rfl
@[simp] theorem Unit.setP_owedTd (u : Unit) (r : PReg) (x : Bool) : (u.setP r x).owedTd = u.owedTd := by unfold Unit.setP; split <;> rfl
@[simp] theorem Unit.setP_cancelled (u : Unit) (r : PReg) (x : Bool) : (u.setP r x).cancelled = u.cancelled := by unfold Unit.setP; split <;> rfl
@[simp] theorem Unit.setP_aborts (u : Unit) (r : PReg) (x : Bool) : (u.setP r x).aborts = u.aborts := by unfold Unit.setP; split <;> rfl
@[simp] theorem Unit.setP_nonspecSince (u : Unit) (r : PReg) (x : Bool) : (u.setP r x).nonspecSince = u.nonspecSince := by unfold Unit.setP; split <;> rfl
@[simp] theorem Unit.setP_splitAt (u : Unit) (r : PReg) (x : Bool) : (u.setP r x).splitAt = u.splitAt := by unfold Unit.setP; split <;> rfl
@[simp] theorem Unit.setP_atc (u : Unit) (r : PReg) (x : Bool) : (u.setP r x).atc = u.atc := by unfold Unit.setP; split <;> rfl
@[simp] theorem Unit.setP_raising (u : Unit) (r : PReg) (x : Bool) : (u.setP r x).raising = u.raising := by unfold Unit.setP; split <;> rfl
@[simp] theorem Unit.setP_nonspecBack (u : Unit) (r : PReg) (x : Bool) : (u.setP r x).nonspecBack = u.nonspecBack := by unfold Unit.setP; split <;> rfl
@[simp] theorem Unit.setP_taken (u : Unit) (r : PReg) (x : Bool) : (u.setP r x).taken = u.taken := by unfold Unit.setP; split <;> rfl
@[simp] theorem Unit.setP_away (u : Unit) (r : PReg) (x : Bool) : (u.setP r x).away = u.away := by unfold Unit.setP; split <;> rfl
@[simp] theorem Unit.setP_debug (u : Unit) (r : PReg) (x : Bool) : (u.setP r x).debug = u.debug := by unfold Unit.setP; split <;> rfl
@[simp] theorem Unit.setP_keptBar (u : Unit) (r : PReg) (x : Bool) : (u.setP r x).keptBar = u.keptBar := by unfold Unit.setP; split <;> rfl
@[simp] theorem Unit.setP_placedAt (u : Unit) (r : PReg) (x : Bool) : (u.setP r x).placedAt = u.placedAt := by unfold Unit.setP; split <;> rfl
@[simp] theorem Unit.setP_awayAt (u : Unit) (r : PReg) (x : Bool) : (u.setP r x).awayAt = u.awayAt := by unfold Unit.setP; split <;> rfl
@[simp] theorem Unit.setP_part (u : Unit) (r : PReg) (x : Bool) : (u.setP r x).part = u.part := by unfold Unit.setP; split <;> rfl
@[simp] theorem Unit.setP_partStart (u : Unit) (r : PReg) (x : Bool) : (u.setP r x).partStart = u.partStart := by unfold Unit.setP; split <;> rfl
@[simp] theorem Unit.setP_q6 (u : Unit) (r : PReg) (x : Bool) : (u.setP r x).q6 = u.q6 := by unfold Unit.setP; split <;> rfl
@[simp] theorem Unit.setP_q10 (u : Unit) (r : PReg) (x : Bool) : (u.setP r x).q10 = u.q10 := by unfold Unit.setP; split <;> rfl
@[simp] theorem Unit.setP_q11 (u : Unit) (r : PReg) (x : Bool) : (u.setP r x).q11 = u.q11 := by unfold Unit.setP; split <;> rfl
@[simp] theorem Unit.setP_q9 (u : Unit) (r : PReg) (x : Bool) : (u.setP r x).q9 = u.q9 := by unfold Unit.setP; split <;> rfl
@[simp] theorem Unit.setP_q8 (u : Unit) (r : PReg) (x : Bool) : (u.setP r x).q8 = u.q8 := by unfold Unit.setP; split <;> rfl
@[simp] theorem Unit.setP_q8Stream (u : Unit) (r : PReg) (x : Bool) : (u.setP r x).q8Stream = u.q8Stream := by unfold Unit.setP; split <;> rfl
@[simp] theorem Unit.setP_copies (u : Unit) (r : PReg) (x : Bool) : (u.setP r x).copies = u.copies := by unfold Unit.setP; split <;> rfl
@[simp] theorem Unit.setP_outCopies (u : Unit) (r : PReg) (x : Bool) : (u.setP r x).outCopies = u.outCopies := by unfold Unit.setP; split <;> rfl
@[simp] theorem Unit.setP_outRopes (u : Unit) (r : PReg) (x : Bool) : (u.setP r x).outRopes = u.outRopes := by unfold Unit.setP; split <;> rfl
@[simp] theorem Unit.setP_outRopesI (u : Unit) (r : PReg) (x : Bool) : (u.setP r x).outRopesI = u.outRopesI := by unfold Unit.setP; split <;> rfl
@[simp] theorem Unit.setP_outMats (u : Unit) (r : PReg) (x : Bool) : (u.setP r x).outMats = u.outMats := by unfold Unit.setP; split <;> rfl
@[simp] theorem Unit.setP_outMatsC (u : Unit) (r : PReg) (x : Bool) : (u.setP r x).outMatsC = u.outMatsC := by unfold Unit.setP; split <;> rfl
@[simp] theorem Unit.setP_outMatsOut (u : Unit) (r : PReg) (x : Bool) : (u.setP r x).outMatsOut = u.outMatsOut := by unfold Unit.setP; split <;> rfl
@[simp] theorem Unit.setP_outSends (u : Unit) (r : PReg) (x : Bool) : (u.setP r x).outSends = u.outSends := by unfold Unit.setP; split <;> rfl

/-! ### Registers (R188, R190, R191) -/

/-- s0 reads as zero (R188). -/
@[simp] theorem Unit.getS_zero (u : Unit) : u.getS 0 = 0 := rfl
/-- A write to s0 is discarded (R188). -/
@[simp] theorem Unit.setS_zero (u : Unit) (x : Word) : u.setS 0 x = u := rfl
@[simp] theorem Unit.getK_zero (u : Unit) : u.getK 0 = BitVec.allOnes 128 := rfl
@[simp] theorem Unit.setK_zero (u : Unit) (x : KWord) : u.setK 0 x = u := rfl
@[simp] theorem Unit.getP_zero (u : Unit) : u.getP 0 = true := rfl
@[simp] theorem Unit.setP_zero (u : Unit) (x : Bool) : u.setP 0 x = u := rfl

theorem Unit.getS_setS_same (u : Unit) (r : SReg) (x : Word) (h : r ≠ 0) : (u.setS r x).getS r = x := by
  unfold Unit.setS Unit.getS
  rw [if_neg h, if_neg h]
  exact Vector.getElem_set_self _

theorem Unit.getS_setS_other (u : Unit) (r q : SReg) (x : Word) (h : q ≠ r) : (u.setS r x).getS q = u.getS q := by
  have hn : r.toNat ≠ q.toNat := fun e => h (BitVec.eq_of_toNat_eq e).symm
  unfold Unit.setS Unit.getS
  split
  · rfl
  · split
    · rfl
    · exact Vector.getElem_set_ne r.isLt q.isLt hn

theorem Unit.getV_setV_same (u : Unit) (r : VReg) (x : VWord) : (u.setV r x).getV r = x := by
  simp [Unit.setV, Unit.getV]

theorem Unit.getV_setV_other (u : Unit) (r q : VReg) (x : VWord) (h : q ≠ r) : (u.setV r x).getV q = u.getV q := by
  have hn : r.toNat ≠ q.toNat := fun e => h (BitVec.eq_of_toNat_eq e).symm
  exact Vector.getElem_set_ne r.isLt q.isLt hn

theorem Unit.getK_setK_same (u : Unit) (r : KReg) (x : KWord) (h : r ≠ 0) : (u.setK r x).getK r = x := by
  unfold Unit.setK Unit.getK
  rw [if_neg h, if_neg h]
  exact Vector.getElem_set_self _

theorem Unit.getK_setK_other (u : Unit) (r q : KReg) (x : KWord) (h : q ≠ r) : (u.setK r x).getK q = u.getK q := by
  have hn : r.toNat ≠ q.toNat := fun e => h (BitVec.eq_of_toNat_eq e).symm
  unfold Unit.setK Unit.getK
  split
  · rfl
  · split
    · rfl
    · exact Vector.getElem_set_ne r.isLt q.isLt hn

theorem Unit.getP_setP_same (u : Unit) (r : PReg) (x : Bool) (h : r ≠ 0) : (u.setP r x).getP r = x := by
  unfold Unit.setP Unit.getP
  rw [if_neg h, if_neg h]
  exact Vector.getElem_set_self _

theorem Unit.getP_setP_other (u : Unit) (r q : PReg) (x : Bool) (h : q ≠ r) : (u.setP r x).getP q = u.getP q := by
  have hn : r.toNat ≠ q.toNat := fun e => h (BitVec.eq_of_toNat_eq e).symm
  unfold Unit.setP Unit.getP
  split
  · rfl
  · split
    · rfl
    · exact Vector.getElem_set_ne r.isLt q.isLt hn

end Sys2Proof.Machine
end

