-- ==== Sys2Proof/Laws/Ops.lean ====
section
/-! SUPPORT. One lemma for what each shared operation does: issuing with its checks, raising a trap, moving on, opening a window. -/

namespace Sys2Proof.Machine

/-! ### Issuing (R46, R394) -/

/-- With no prefix pending, consuming one changes nothing. -/
theorem consume_quiet (s : State) (h : tsrPp s.cur.tsr = false) : s.consume = s := by
  have e : tsrSetPp s.cur.tsr false = s.cur.tsr := by
    have hb : bits s.cur.tsr 0 0 = 0 := by
      simp only [tsrPp, BitVec.getLsbD, Nat.testBit_zero, decide_eq_false_iff_not] at h
      simp only [bits]; omega
    simp [tsrSetPp, setBits, hb]
  simp only [State.consume, State.modCur]
  rw [e]

theorem issue_ok (s : State) (n : Need) (k : State → Out) (h : s.trapOf n = none) : s.issue n k = k s.consume := by
  simp [State.issue, h]

theorem issue_trap (s : State) (n : Need) (k : State → Out) (t : TrapInfo) (h : s.trapOf n = some t) : s.issue n k = s.raise t := by
  simp [State.issue, h]

/-- No check at issue fails: the privilege suffices, no prefix dangles, the operands are legal, nothing touched is pending, the address
checks pass, and no destination is live-in. -/
theorem trapOf_none (s : State) (n : Need) (hs : n.sup = true → tsrSup s.cur.tsr = true) (hp : tsrPp s.cur.tsr = true → n.fmts = true)
    (ho : n.ok = true) (ht : s.touches n.touch = false) (ha : n.addr.findSome? id = none) (hl : n.live = false) : s.trapOf n = none := by
  unfold State.trapOf
  have h1 : (n.sup && !tsrSup s.cur.tsr) = false := by
    cases h : n.sup
    · rfl
    · simp [hs h]
  have h2 : (tsrPp s.cur.tsr && !n.fmts) = false := by
    cases h : tsrPp s.cur.tsr
    · rfl
    · simp [hp h]
  simp [h1, h2, ho, ht, ha, hl]

/-- An instruction that nothing stops has its effect in the state itself. -/
theorem issue_clear (s : State) (n : Need) (k : State → Out) (hp : tsrPp s.cur.tsr = false) (hs : n.sup = true → tsrSup s.cur.tsr = true)
    (ho : n.ok = true) (ht : s.touches n.touch = false) (ha : n.addr.findSome? id = none) (hl : n.live = false) : s.issue n k = k s := by
  rw [issue_ok _ _ _ (trapOf_none s n hs (fun h => by simp [hp] at h) ho ht ha hl), consume_quiet _ hp]

/-- Illegal operands stop an instruction whose privilege suffices and that no prefix reaches. -/
theorem issue_operand (s : State) (n : Need) (k : State → Out) (hp : tsrPp s.cur.tsr = false) (hs : n.sup = true → tsrSup s.cur.tsr = true)
    (ho : n.ok = false) : s.issue n k = s.raise (s.bundleTrap .illegalOperand) := by
  refine issue_trap _ _ _ _ ?_
  unfold State.trapOf
  have h1 : (n.sup && !tsrSup s.cur.tsr) = false := by
    cases h : n.sup
    · rfl
    · simp [hs h]
  simp [h1, hp, ho]

/-- A failed address check stops an instruction whose operands are legal and settled. -/
theorem issue_address (s : State) (n : Need) (k : State → Out) (t : TrapInfo) (hp : tsrPp s.cur.tsr = false)
    (hs : n.sup = true → tsrSup s.cur.tsr = true) (ho : n.ok = true) (ht : s.touches n.touch = false)
    (ha : n.addr.findSome? id = some t) : s.issue n k = s.raise t := by
  refine issue_trap _ _ _ _ ?_
  unfold State.trapOf
  have h1 : (n.sup && !tsrSup s.cur.tsr) = false := by
    cases h : n.sup
    · rfl
    · simp [hs h]
  simp [h1, hp, ho, ht, ha]

/-- Nothing touched is pending where none of more registers is. -/
theorem touches_sub {s : State} {a b : List RegKey} (h : s.touches a = false) (hs : ∀ k ∈ b, k ∈ a) : s.touches b = false := by
  simp only [State.touches, Unit.touches, Bool.or_eq_false_iff, List.any_eq_false] at h ⊢
  refine ⟨fun k hk => h.1 k (hs k hk), fun m hm => ?_⟩
  have := h.2 m hm
  simp only [Bool.and_eq_true, List.contains_eq_mem, decide_eq_true_eq] at this ⊢
  exact fun ⟨x, y⟩ => this ⟨x, hs _ y⟩

theorem quiet_sub {s : State} {a b : List RegKey} (h : s.Quiet a) (hs : ∀ k ∈ b, k ∈ a) : s.Quiet b := ⟨h.1, touches_sub h.2 hs⟩

/-- A scalar A-slot result with a true guard. -/
theorem writeS_ok (s : State) (p : PReg) (d : SReg) (srcs : List SReg) (x : Word) (hp : s.cur.getP p = true)
    (hq : s.Quiet ((d :: srcs).map s.cur.keyS)) (hn : s.cur.namedS d = false) :
    s.writeS p d srcs x = .next (s.afterA fun u => u.setS d x) := by
  simp only [State.writeS, State.guarded, hp, if_true]
  rw [issue_clear _ _ _ hq.1 (by simp) rfl hq.2 rfl hn]
  rfl

/-- A predicate A-slot result with a true guard. -/
theorem writeP_ok (s : State) (p d : PReg) (srcs : List SReg) (x : Bool) (hp : s.cur.getP p = true)
    (hq : s.Quiet (srcs.map s.cur.keyS)) (hn : s.cur.namedP d = false) :
    s.writeP p d srcs x = .next (s.afterA fun u => u.setP d x) := by
  simp only [State.writeP, State.guarded, hp, if_true]
  rw [issue_clear _ _ _ hq.1 (by simp) rfl hq.2 rfl hn]
  rfl

/-! ### Raising (R43) -/

theorem raise_settled (s : State) (t : TrapInfo) (h : s.settled = true) : s.raise t = .next (s.enterTrap t) := by
  simp [State.raise, h]

/-- The entry of a trap waits until the slot has settled, and the trap stands meanwhile. -/
theorem raise_waits (s : State) (t : TrapInfo) (h : s.settled = false) :
    s.raise t = .next (s.modCur fun u => { u with raising := some t }).waitTurn := by
  simp [State.raise, h, State.wait]

/-! ### Moving on (R34, R37) -/

@[simp] theorem goto_pc (u : Unit) (pc : Word) (a : Bool) : (u.goto pc a).pc = pc := rfl
@[simp] theorem goto_npc (u : Unit) (pc : Word) (a : Bool) : (u.goto pc a).npc = pc + 8 := rfl
@[simp] theorem goto_aslot (u : Unit) (pc : Word) (a : Bool) : (u.goto pc a).aslot = a := rfl
@[simp] theorem goto_fetched (u : Unit) (pc : Word) (a : Bool) : (u.goto pc a).fetched = none := rfl

/-- A unit that has not issued `split` in this bundle stays in its gang. -/
theorem leaveGang_none (u : Unit) (h : u.splitAt = none) : u.leaveGang = u := by simp [Unit.leaveGang, h]

/-- Outside a running loop the next bundle is the one that npc names. -/
theorem nextBundle_idle (u : Unit) (h : u.seq.active = false) (g : u.splitAt = none) :
    u.nextBundle = { u with pc := u.npc, npc := u.npc + 8, aslot := false, fetched := none } := by
  simp [Unit.nextBundle, leaveGang_none u g, h]

theorem doneA_eq (s : State) : s.doneA = .next (s.modCur Unit.pastA) := rfl
theorem doneC_eq (s : State) (lone : Bool) : s.doneC lone = .next (s.modCur fun u => u.pastC lone) := rfl

/-! ### Windows of incomplete instructions (R41) -/

/-- With a lookahead of 0 known values are written at once. -/
theorem openWindow_zero (s : State) (dests : List RegKey) (xs : List VWord) (act : Act) :
    s.openWindow 0 dests (some xs) act = s.setCur (s.cur.setKeys dests xs) := by
  simp [State.openWindow]

/-- With any other lookahead the destinations stay pending, and the values are kept. -/
theorem openWindow_pending (s : State) (la : BitVec 4) (dests : List RegKey) (xs : List VWord) (act : Act) (h : la ≠ 0) :
    (s.openWindow la dests (some xs) act).cur.pend = s.cur.pend ++
      [{ id := s.ids, dests, values := some xs, act, left := la.toNat, hold := false, pc := s.cur.pc }] := by
  simp only [State.openWindow]
  rw [if_neg h]

/-- The key of a scalar register other than s0 writes that register (R41, R188). -/
theorem setKey_keyS (u : Unit) (r : SReg) (x : Word) : u.setKey (u.keyS r) (sval x) = u.setS r x := by
  have hx : word (sval x).toNat = x := by
    have h : (sval x).toNat = x.toNat := BitVec.toNat_setWidth_of_le (by decide)
    rw [h]
    simp [word]
  have e : BitVec.ofNat 5 r.toNat = r := by simp
  by_cases h : r.toNat < 8
  · simp only [Unit.setKey, Unit.keyS, h, if_true]
    rw [hx, e]
  · have h1 : ¬ (16 * u.depth + r.toNat < 8) := by omega
    have h2 : ¬ (16 * u.depth + r.toNat < 16 * u.depth + 8) := by omega
    have h3 : 16 * u.depth + r.toNat - 16 * u.depth = r.toNat := by omega
    have h4 : 16 * u.depth + r.toNat < 16 * u.depth + 32 := by have := r.isLt; omega
    simp only [Unit.setKey, Unit.keyS, h, if_false]
    rw [if_neg h1, if_neg h2, if_pos h4, h3, hx, e]

/-- The destination list of a scalar register writes it, and nothing where it is s0. -/
theorem setKeys_destS (u : Unit) (r : SReg) (x : Word) : u.setKeys (u.destS r) [sval x] = u.setS r x := by
  unfold Unit.destS
  by_cases h : r = 0
  · rw [if_pos h, h]; rfl
  · rw [if_neg h]; exact setKey_keyS u r x

theorem setKeys_vector (u : Unit) (r : VReg) (x : VWord) : u.setKeys [.v r.toNat] [x] = u.setV r x := by
  simp [Unit.setKeys, Unit.setKey]

end Sys2Proof.Machine
end

