-- ==== Sys2Proof/Laws/Tasks.lean ====
section
/-! SUPPORT. What a turn of a commit can do (R316, R224): it ends in a state, from which what follows goes on, or it does not end. -/

namespace Sys2Proof.Machine

/-- What follows a commit that ends starts from the state in which it ended. -/
theorem withCommit_ended {s t : State} {c : Cont} {lone : Bool} (h : s.CommitsTo c lone t) (k : State → Out) : s.withCommit c lone k = k t := by
  unfold State.withCommit
  rw [h]

/-- A commit that waits or traps answers the same whatever was to follow it. -/
theorem withCommit_still {s : State} {c : Cont} {lone : Bool} {out : Out} (h : s.commitStep c lone = .still out) (k : State → Out) :
    s.withCommit c lone k = out := by
  unfold State.withCommit
  rw [h]

/-- One of the two holds of every commit. -/
theorem commitStep_cases (s : State) (c : Cont) (lone : Bool) :
    (∃ t, s.CommitsTo c lone t) ∨ ∃ out, s.commitStep c lone = .still out := by
  cases h : s.commitStep c lone with
  | ended t => exact .inl ⟨t, h⟩
  | still out => exact .inr ⟨out, rfl⟩

end Sys2Proof.Machine
end

