-- ==== Sys2Proof/Tests/Slice0.lean ====
section
/-! SUPPORT. Tests: ill-formed terms, words that the manual prints, states that meet the hypotheses of the statements, and single steps
whose results are worked out from the manual. -/

open Sys2Proof Sys2Proof.Machine

namespace Sys2Proof.Tests

set_option Elab.async false

/-! ### Small states -/

/-- A unit at the bundle 0x10000 of launch 1, on slot 0 of core 0 of cluster 0 of die 0. -/
def unit0 : Machine.Unit :=
  { placed := true, pc := 0x10000, npc := 0x10008, lap := 0x80_0000_0000_0000, lsb := 0x80_0000_0070_0000, wsp := 0x80_0000_0070_4000,
    launch := 1, lbm := 0x3FFF }
def launch0 : Launch :=
  { num := 1, job := 0, kind := 1, entry := 0x10000, nu := 1, gang := 1, weight := 0, sealed' := false, counter := 0, p8 := 0, p9 := 0,
    p10 := 0, word5 := 0, dies := 1, clusters := 1, queue := some 0, node := none, prio := 0 }
/-- One unit of one launch, at user privilege, with an empty task. -/
def s0 : State := State.setCur { State.reset with launches := [launch0] } (unit0.beginTask 0 0xFFFE 0x10000 false)
/-- `s0` with scalar registers set. -/
def regs (l : List (SReg × Word)) : State := s0.modCur fun u => l.foldl (fun v x => v.setS x.1 x.2) u
/-- The same at supervisor privilege. -/
def supRegs (l : List (SReg × Word)) : State := (regs l).modCur fun u => { u with tsr := 0x400 }
/-- `s0` with a prefix pending. -/
def s0Pp : State := s0.modCur fun u => { u with tsr := 1 }
/-- `s0` with a destination pending for two bundles. -/
def s0Pend : State := s0.openWindow 2 (s0.cur.destS 16) (some [5]) .answer
/-- `s0` in the A-slot. -/
def s0A : State := s0.modCur fun u => { u with aslot := true }
/-- Bank 1 of the cluster in SCRATCH mode, and an address in it in s8. -/
def scratch (l : List (SReg × Word)) : State :=
  (regs ((8, 0x80_0000_0008_0000) :: l)).setCluster 0 { State.reset.cluster 0 with config := [(1, 1)] }
/-- A window of small numbers. -/
def win0 : Vector Word 16 := Vector.replicate 16 7

/-- How a read ends: 1 with its bytes, 2 with a wait, 3 with a trap. -/
def got : Got → Nat
  | .ok _ _ => 1
  | .wait _ => 2
  | .trap _ _ => 3

/-- The commit of a state ends, in a state with a property. -/
def ends (s : State) (c : Cont) (p : State → Bool) : Bool :=
  match s.commitStep c false with
  | .ended t => p t
  | .still _ => false
theorem commitsIn {s : State} {c : Cont} {P : State → Prop} [DecidablePred P] (h : ends s c (fun t => decide (P t)) = true) :
    ∃ t, s.CommitsTo c false t ∧ P t := by
  unfold ends at h
  cases e : s.commitStep c false with
  | ended t => exact ⟨t, e, by simpa [e] using h⟩
  | still out => simp [e] at h
theorem commits {s : State} {c : Cont} (h : ends s c (fun _ => true) = true) : ∃ t, s.CommitsTo c false t := by
  unfold ends at h
  cases e : s.commitStep c false with
  | ended t => exact ⟨t, e⟩
  | still out => simp [e] at h

/-! ### Decoding

The words are written from the encoding tables of the manual: every constructor of a slot has one, with its fields at values that differ. -/

/-- Words of the C-slot that the manual prints, with the statements beside them. -/
theorem test_decode_printed_c : ∀ x ∈ ([
    (0x0E304002, 0, .ldD 1 16 8 (.short 2)), (0x8E134000, 0x123450, .ldD 0 19 8 (.lit 0x123450)), (0x3254AD80, 0, .lbank 20 21 22),
    (0x52100004, 0, .mfsr 16 .time), (0x52204812, 0, .mtsr 9 .xtag), (0x38304249, 0, .aadd 1 16 8 (.reg 9) .d),
    (0x3AC0A542, 0, .amaxN 20 (.reg 21) .f32), (0x3E004265, 0, .scSt 8 (.reg 9) .domain .d), (0x3C208440, 0, .bar 16 17),
    (0x72100000, 0, .qwait 0 16 0), (0x72100001, 0, .wcwait 0 16 0), (0x66029000, 0, .vqpush 2 9), (0x60307000, 0, .qpop 1 16 7),
    (0x6218B005, 0, .qpush 24 11 (.short 5)), (0x66048000, 0, .vqpush 4 8), (0x44000004, 0, .call 0 4), (0x4EE00000, 0, .exit 0),
    (0x50304240, 0, .div 1 16 8 (.reg 9)), (0x50094242, 0, .rem 0 9 8 (.reg 9)), (0x46400000, 0, .ret),
    (0x6A141381, 0, .mcmd 20 (.short 0x381)), (0x7006A840, 0, .tget 6 21 1), (0x7027A880, 0, .tput 7 21 2),
    (0x02507C00, 0, .fmtC (some .x43) (some .f32) none), (0x6E120010, 0, .hblk 0 18 1), (0x6E140001, 0, .pfxLook 0 20),
    (0x6C185018, 0, .rpiece 0 24 0 .returning), (0x6C585011, 0, .rsplit 2 24 0 .returning), (0x6C1850E7, 0, .rdrop 0 24 3 .inbox),
    (0x5416A800, 0, .lhzM 22 21), (0x5440B000, 0, .lwait 22), (0x54884A80, 0, .frep 8 9 10), (0x68184080, 0, .cpy 24 2),
    (0x68384141, 0, .cpyTry 1 24 5), (0x18644802, 0, .vld 3 4 9 (.short 2)), (0x1A055000, 0, .vldTag 0 5 10 (.short 0)),
    (0x241147FF, 0, .stW 17 8 (.short 0x7FF)), (0x14188800, 0, .ldWs 0 24 17 (.short 0))] : List (Word32 × Word32 × Instr)), decodeC x.1 x.2.1 = .instr x.2.2 := by decide +kernel

/-- Words of the A-slot that the manual prints. -/
theorem test_decode_printed_a : ∀ x ∈ ([
    (0x22290003, .addImm 17 9 3), (0x40221880, .vadd 1 2 3 0 .w), (0x49095280, .vfma 8 9 10 2 .f32), (0x64851000, .vtunpack 4 5 2 .i8),
    (0x74131800, .vloop 19 3), (0x65250010, .vtpack 9 5 0 .i8), (0x059FF800, .fmtA (some .i8) none none), (0x718A5880, .vsmUpd 12 10 11 0),
    (0x71AA6081, .vsmRescale 13 10 12 0), (0x50410080, .vcvt 2 1 0 0 0), (0x54A40288, .vexp2 5 4 2), (0x560D7887, .vdiv 16 13 15 0),
    (0x6C530005, .stok 2 19 0), (0x38386000, .cmpImm 1 24 .ge 0), (0x1F38B020, .sel 25 24 22 0 1)] : List (Word32 × Instr)), decodeA x.1 = .instr x.2 := by decide +kernel

theorem test_decode_c_slot_1 : ∀ x ∈ ([
    (0x02507C00, 0, .fmtC (some .x43) (some .f32) none), (0x09366C05, 0, .ldB 9 22 13 (.short 0x405)),
    (0x0B366C05, 0, .ldH 9 22 13 (.short 0x405)), (0x0D366C05, 0, .ldW 9 22 13 (.short 0x405)),
    (0x0F366C05, 0, .ldD 9 22 13 (.short 0x405)), (0x11366C05, 0, .ldBs 9 22 13 (.short 0x405)),
    (0x13366C05, 0, .ldHs 9 22 13 (.short 0x405)), (0x15366C05, 0, .ldWs 9 22 13 (.short 0x405)),
    (0x19366C05, 0, .vld 9 22 13 (.short 0x405)), (0x1B366C05, 0, .vldTag 9 22 13 (.short 0x405)),
    (0x20166C05, 0, .stB 22 13 (.short 0x405)), (0x22166C05, 0, .stH 22 13 (.short 0x405)), (0x24166C05, 0, .stW 22 13 (.short 0x405)),
    (0x26166C05, 0, .stD 22 13 (.short 0x405)), (0x28166C05, 0, .vst 22 13 (.short 0x405)), (0x2A166C05, 0, .vstTag 22 13 (.short 0x405)),
    (0x30166C05, 0, .adr 22 13 (.short 0x405)), (0x32005B40, 0, .cpf 11 13), (0x32205B40, 0, .cinv 11 13),
    (0x32565B40, 0, .lbank 22 11 13), (0x32605B40, 0, .lrng 11 13), (0x32965800, 0, .lstat 22 11), (0x32A05800, 0, .sbind 11),
    (0x32D65800, 0, .ltag 22 11)] : List (Word32 × Word32 × Instr)), decodeC x.1 x.2.1 = .instr x.2.2 := by decide +kernel

theorem test_decode_c_slot_2 : ∀ x ∈ ([
    (0x39365B41, 0, .aswap 9 22 11 (.reg 13) .d), (0x39365B45, 0, .acas 9 22 11 (.reg 13) .d), (0x39365B49, 0, .aadd 9 22 11 (.reg 13) .d),
    (0x39365B4D, 0, .aand 9 22 11 (.reg 13) .d), (0x39365B51, 0, .aor 9 22 11 (.reg 13) .d), (0x39365B55, 0, .axor 9 22 11 (.reg 13) .d),
    (0x39365B59, 0, .amax 9 22 11 (.reg 13) .d), (0x39365B5D, 0, .amin 9 22 11 (.reg 13) .d), (0x39365B61, 0, .amaxu 9 22 11 (.reg 13) .d),
    (0x39365B65, 0, .aminu 9 22 11 (.reg 13) .d), (0x3A405B41, 0, .aaddN 11 (.reg 13) .d), (0x3A605B41, 0, .aandN 11 (.reg 13) .d),
    (0x3A805B41, 0, .aorN 11 (.reg 13) .d), (0x3AA05B41, 0, .axorN 11 (.reg 13) .d), (0x3AC05B41, 0, .amaxN 11 (.reg 13) .d),
    (0x3AE05B41, 0, .aminN 11 (.reg 13) .d), (0x3B005B41, 0, .amaxuN 11 (.reg 13) .d), (0x3B205B41, 0, .aminuN 11 (.reg 13) .d),
    (0x3C000000, 0, .fence), (0x3C000001, 0, .fenceE), (0x3C000002, 0, .fenceI), (0x3C000003, 0, .fenceEi), (0x3C205B40, 0, .bar 11 13),
    (0x3F365821, 0, .scLd 9 22 11 .domain .d)] : List (Word32 × Word32 × Instr)), decodeC x.1 x.2.1 = .instr x.2.2 := by decide +kernel

theorem test_decode_c_slot_3 : ∀ x ∈ ([
    (0x3E005B65, 0, .scSt 11 (.reg 13) .domain .d), (0x3F365B69, 0, .scSwap 9 22 11 (.reg 13) .domain .d),
    (0x3F365B6D, 0, .scCas 9 22 11 (.reg 13) .domain .d), (0x3F365B71, 0, .scAdd 9 22 11 (.reg 13) .domain .d),
    (0x40A00003, 0, .br 2 0x200003), (0x42A00003, 0, .brf 2 0x200003), (0x44A00003, 0, .call 2 0x200003), (0x46005800, 0, .jr 11),
    (0x46205800, 0, .callr 11), (0x46400000, 0, .ret), (0x48000000, 0, .wflush), (0x48360000, 0, .wdepth 22), (0x4A005800, 0, .atTime 11),
    (0x4A205800, 0, .atTimeC 11), (0x4C005800, 0, .gang 11), (0x4C200000, 0, .split), (0x4E005B40, 0, .tbegin 11 13),
    (0x4E200000, 0, .tcommit), (0x4E400000, 0, .tend), (0x4E765B40, 0, .tspawn 22 11 13), (0x4E960000, 0, .tstamp 22),
    (0x4EA00000, 0, .tabort), (0x4EC00000, 0, .tabortO), (0x4EE05800, 0, .exit 11)] : List (Word32 × Word32 × Instr)), decodeC x.1 x.2.1 = .instr x.2.2 := by decide +kernel

theorem test_decode_c_slot_4 : ∀ x ∈ ([
    (0x51365B40, 0, .div 9 22 11 (.reg 13)), (0x51365B41, 0, .divu 9 22 11 (.reg 13)), (0x51365B42, 0, .rem 9 22 11 (.reg 13)),
    (0x51365B43, 0, .remu 9 22 11 (.reg 13)), (0x51365B44, 0, .divw 9 22 11 (.reg 13)), (0x51365B45, 0, .divuw 9 22 11 (.reg 13)),
    (0x51365B46, 0, .remw 9 22 11 (.reg 13)), (0x51365B47, 0, .remuw 9 22 11 (.reg 13)), (0x51365B48, 0, .mul2 9 22 11 (.reg 13)),
    (0x51365B49, 0, .mul2u 9 22 11 (.reg 13)), (0x52160012, 0, .mfsr 22 .xtag), (0x52205812, 0, .mtsr 11 .xtag),
    (0x54165800, 0, .lhzM 22 11), (0x54365800, 0, .lhzD 22 11), (0x54405800, 0, .lwait 11), (0x54765B40, 0, .ptw 22 11 13),
    (0x54965B40, 0, .frep 22 11 13), (0x56008001, 0, .trap 0x8001), (0x56088001, 0, .brk 0x8001), (0x56100000, 0, .rte),
    (0x56188001, 0, .tkill 0x8001), (0x58165800, 0, .crd 22 11), (0x58365B40, 0, .cwait 22 11 13), (0x58405B40, 0, .csig 11 13)] : List (Word32 × Word32 × Instr)), decodeC x.1 x.2.1 = .instr x.2.2 := by decide +kernel

theorem test_decode_c_slot_5 : ∀ x ∈ ([
    (0x58605800, 0, .lcancel 11), (0x58805B40, 0, .cset 11 13), (0x61369000, 0, .qpop 9 22 9), (0x62169803, 0, .qpush 22 9 (.short 0x803)),
    (0x65369000, 0, .vqpop 9 22 9), (0x66169000, 0, .vqpush 22 9), (0x68164940, 0, .cpy 22 37), (0x69364941, 0, .cpyTry 9 22 37),
    (0x6A161803, 0, .mcmd 22 (.short 0x803)), (0x6D365950, 0, .rcat 9 22 37 .returning), (0x6D365951, 0, .rsplit 9 22 37 .returning),
    (0x6D365952, 0, .rsplice 9 22 37 .returning), (0x6D365953, 0, .rindex 9 22 37 .returning), (0x6D365954, 0, .rsum 9 22 37 .returning),
    (0x6D365955, 0, .rwalk 9 22 37 .returning), (0x6D365956, 0, .rhold 9 22 37 .returning), (0x6D365957, 0, .rdrop 9 22 37 .returning),
    (0x6D365958, 0, .rpiece 9 22 37 .returning), (0x6D365959, 0, .rresum 9 22 37 .returning), (0x6D36595A, 0, .trim 9 22 37 .returning),
    (0x6D36595B, 0, .rtier 9 22 37 .returning), (0x6F360130, 0, .hblk 9 22 19), (0x6F360001, 0, .pfxLook 9 22),
    (0x6F360002, 0, .pfxAdd 9 22)] : List (Word32 × Word32 × Instr)), decodeC x.1 x.2.1 = .instr x.2.2 := by decide +kernel

theorem test_decode_c_slot_6 : ∀ x ∈ ([
    (0x6F360003, 0, .pfxPin 9 22), (0x6F360004, 0, .pfxUnpin 9 22), (0x70165880, 0, .tget 22 11 2), (0x70365880, 0, .tput 22 11 2),
    (0x73369000, 0, .qwait 9 22 9), (0x73360101, 0, .wcwait 9 22 16)] : List (Word32 × Word32 × Instr)), decodeC x.1 x.2.1 = .instr x.2.2 := by decide +kernel

theorem test_decode_a_slot_1 : ∀ x ∈ ([
    (0x059FF800, .fmtA (some .i8) none none), (0x0ACB6A00, .add 22 11 13 2), (0x0ACB6A01, .sub 22 11 13 2), (0x0ACB6A02, .addw 22 11 13 2),
    (0x0ACB6A03, .subw 22 11 13 2), (0x0ACB6A04, .adds 22 11 13 2), (0x0ACB6A05, .subs 22 11 13 2), (0x0ACB6A06, .addus 22 11 13 2),
    (0x0ACB6A07, .subus 22 11 13 2), (0x0ACB6A08, .and 22 11 13 2), (0x0ACB6A09, .or 22 11 13 2), (0x0ACB6A0A, .xor 22 11 13 2),
    (0x0ACB6A0B, .andn 22 11 13 2), (0x0ACB6A0C, .orn 22 11 13 2), (0x0ACB6A0D, .xnor 22 11 13 2), (0x0ACB6A10, .min 22 11 13 2),
    (0x0ACB6A11, .max 22 11 13 2), (0x0ACB6A12, .minu 22 11 13 2), (0x0ACB6A13, .maxu 22 11 13 2), (0x0ACB0214, .abs 22 11 2),
    (0x0ECB6A00, .sll 22 11 13 2), (0x0ECB6A01, .srl 22 11 13 2), (0x0ECB6A02, .sra 22 11 13 2), (0x0ECB6A03, .rol 22 11 13 2)] : List (Word32 × Instr)), decodeA x.1 = .instr x.2 := by decide +kernel

theorem test_decode_a_slot_2 : ∀ x ∈ ([
    (0x0ECB6A04, .ror 22 11 13 2), (0x0ECB6A05, .sllw 22 11 13 2), (0x0ECB6A06, .srlw 22 11 13 2), (0x0ECB6A07, .sraw 22 11 13 2),
    (0x3ECB0029, .sllImm 22 11 41), (0x3ECB0129, .srlImm 22 11 41), (0x3ECB0229, .sraImm 22 11 41), (0x3ECB0329, .rolImm 22 11 41),
    (0x3ECB0429, .rorImm 22 11 41), (0x3ECB0515, .sllwImm 22 11 21), (0x3ECB0615, .srlwImm 22 11 21), (0x3ECB0715, .srawImm 22 11 21),
    (0x12CB6A00, .mul 22 11 13 2), (0x12CB6A01, .mulh 22 11 13 2), (0x12CB6A02, .mulhu 22 11 13 2), (0x12CB6A03, .mulhsu 22 11 13 2),
    (0x12CB6A04, .mulw 22 11 13 2), (0x16CB0200, .clz 22 11 2), (0x16CB0201, .ctz 22 11 2), (0x16CB0202, .popc 22 11 2),
    (0x16CB0203, .brev 22 11 2), (0x16CB0204, .bswap 22 11 2), (0x16CB0205, .sextB 22 11 2), (0x16CB0206, .sextH 22 11 2)] : List (Word32 × Instr)), decodeA x.1 = .instr x.2 := by decide +kernel

theorem test_decode_a_slot_3 : ∀ x ∈ ([
    (0x16CB0207, .sextW 22 11 2), (0x16CB0208, .zextB 22 11 2), (0x16CB0209, .zextH 22 11 2), (0x16CB020A, .zextW 22 11 2),
    (0x16CB6A0B, .bclr 22 11 13 2), (0x16CB6A0C, .bset 22 11 13 2), (0x16CB6A0D, .binv 22 11 13 2), (0x16CB6A0E, .bext 22 11 13 2),
    (0x18AB6A03, .cmp 5 11 13 2 .ge), (0x38AB7002, .cmpImm 5 11 .ge 0x1002), (0x1ECB6AA0, .sel 22 11 13 2 5), (0x1ECB0201, .mov 22 11 2),
    (0x1CA33202, .pand 5 3 6 2), (0x1CA33203, .por 5 3 6 2), (0x1CA33204, .pxor 5 3 6 2), (0x1CA33205, .pandn 5 3 6 2),
    (0x1CA30206, .pnot 5 3 2), (0x1EC30207, .pmov 22 3 2), (0x1CAB0208, .ptest 5 11 2), (0x22CB8001, .addImm 22 11 0x8001),
    (0x26CB8001, .andImm 22 11 0x8001), (0x2ACB8001, .orImm 22 11 0x8001), (0x2ECB8001, .xorImm 22 11 0x8001), (0x32C08001, .li 22 0x8001)] : List (Word32 × Instr)), decodeA x.1 = .instr x.2 := by decide +kernel

theorem test_decode_a_slot_4 : ∀ x ∈ ([
    (0x36CB8001, .lih 22 11 0x8001), (0x42CB6E40, .vadd 22 11 13 6 .h), (0x42CB6E41, .vsub 22 11 13 6 .h),
    (0x42CB6E42, .vadds 22 11 13 6 .h), (0x42CB6E43, .vsubs 22 11 13 6 .h), (0x42CB6E44, .vaddus 22 11 13 6 .h),
    (0x42CB6E45, .vsubus 22 11 13 6 .h), (0x42CB6E46, .vmul 22 11 13 6 .h), (0x42CB6E47, .vmulh 22 11 13 6 .h),
    (0x42CB6E48, .vmulhu 22 11 13 6 .h), (0x42CB6E49, .vand 22 11 13 6 .h), (0x42CB6E4A, .vor 22 11 13 6 .h),
    (0x42CB6E4B, .vxor 22 11 13 6 .h), (0x42CB6E4C, .vandn 22 11 13 6 .h), (0x42CB6E4D, .vmin 22 11 13 6 .h),
    (0x42CB6E4E, .vmax 22 11 13 6 .h), (0x42CB6E4F, .vminu 22 11 13 6 .h), (0x42CB6E50, .vmaxu 22 11 13 6 .h),
    (0x42CB0651, .vabs 22 11 6 .h), (0x42CB6E52, .vsll 22 11 13 6 .h), (0x42CB6E53, .vsrl 22 11 13 6 .h),
    (0x42CB6E54, .vsra 22 11 13 6 .h), (0x42CB6E55, .vavgu 22 11 13 6 .h), (0x46CB6E60, .vaddF 22 11 13 6 .f16)] : List (Word32 × Instr)), decodeA x.1 = .instr x.2 := by decide +kernel

theorem test_decode_a_slot_5 : ∀ x ∈ ([
    (0x46CB6E61, .vsubF 22 11 13 6 .f16), (0x46CB6E62, .vmulF 22 11 13 6 .f16), (0x46CB6E63, .vminF 22 11 13 6 .f16),
    (0x46CB6E64, .vmaxF 22 11 13 6 .f16), (0x46CB0665, .vabsF 22 11 6 .f16), (0x46CB0666, .vnegF 22 11 6 .f16),
    (0x46CB6E67, .vcpsgnF 22 11 13 6 .f16), (0x4ACB6E60, .vfma 22 11 13 6 .f16), (0x4ACB6E61, .vfms 22 11 13 6 .f16),
    (0x4ACB6E62, .vfnma 22 11 13 6 .f16), (0x4ACB6E63, .vfnms 22 11 13 6 .f16), (0x4ACB6EA4, .vfmawLo 22 11 13 6 .f16),
    (0x4ACB6EA5, .vfmawHi 22 11 13 6 .f16), (0x4CAB6E6B, .vcmp 5 11 13 6 (.fp .le .f16)), (0x52CB069D, .vcvt 22 11 6 3 5),
    (0x56CB0680, .vrcpA 22 11 6), (0x56CB0681, .vrsqA 22 11 6), (0x56CB6E82, .vrcpS 22 11 13 6), (0x56CB6E83, .vrsqS 22 11 13 6),
    (0x56CB0684, .vrcp 22 11 6), (0x56CB0685, .vrsq 22 11 6), (0x56CB0686, .vsqrt 22 11 6), (0x56CB6E87, .vdiv 22 11 13 6),
    (0x56CB0688, .vexp2 22 11 6)] : List (Word32 × Instr)), decodeA x.1 = .instr x.2 := by decide +kernel

theorem test_decode_a_slot_6 : ∀ x ∈ ([
    (0x56CB0689, .vlog2 22 11 6), (0x5ACB0680, .vraddF32 22 11 6), (0x5ACB0681, .vrmaxF32 22 11 6), (0x5ACB0682, .vrminF32 22 11 6),
    (0x5ACB0648, .vradd 22 11 6 .h), (0x5ACB0649, .vrmax 22 11 6 .h), (0x5ACB064A, .vrmin 22 11 6 .h), (0x5ACB064B, .vrmaxu 22 11 6 .h),
    (0x5ACB064C, .vrminu 22 11 6 .h), (0x5ACB064D, .vrand 22 11 6 .h), (0x5ACB064E, .vror 22 11 6 .h), (0x5ACB064F, .vrxor 22 11 6 .h),
    (0x5ACB0650, .vraddw 22 11 6 .h), (0x5ECB6E40, .vperm 22 11 13 6 .h), (0x5ECB6E41, .vperm2 22 11 13 6 .h),
    (0x5ECB6E42, .vzipl 22 11 13 6 .h), (0x5ECB6E43, .vziph 22 11 13 6 .h), (0x5ECB6E44, .vuzpe 22 11 13 6 .h),
    (0x5ECB6E45, .vuzpo 22 11 13 6 .h), (0x5ECB0646, .vrev 22 11 6 .h), (0x5ECB6E71, .vsld 22 11 13 6 .h 17), (0x60A33000, .kand 5 3 6),
    (0x60A33001, .kor 5 3 6), (0x60A33002, .kxor 5 3 6)] : List (Word32 × Instr)), decodeA x.1 = .instr x.2 := by decide +kernel

theorem test_decode_a_slot_7 : ∀ x ∈ ([
    (0x60A33003, .kandn 5 3 6), (0x60A30004, .knot 5 3), (0x60A30005, .kmov 5 3), (0x62CB6E48, .vmerge 22 11 13 6 .h),
    (0x66CB3000, .vtunpack 22 11 6 .i8), (0x66CB3011, .vtpack 22 11 6 .i2), (0x6ACB6E00, .vpadd 22 11 13 6),
    (0x6ACB6E01, .vpsub 22 11 13 6), (0x6ACB6E02, .vpmul 22 11 13 6), (0x6ACB6E03, .vpmin 22 11 13 6), (0x6ACB6E04, .vpmax 22 11 13 6),
    (0x6ACB6E05, .vpfma 22 11 13 6), (0x6ECB0640, .vbcast 22 11 6 .h), (0x6ECB6841, .vext 22 11 13 .h), (0x6ECB6842, .vexts 22 11 13 .h),
    (0x6ECB6843, .vins 22 11 13 .h), (0x6EC30804, .ktos 22 3 1), (0x6CAB0805, .stok 5 11 1), (0x6EC30006, .kpop 22 3),
    (0x6ECB0647, .vmov 22 11 6 .h), (0x72CB6E80, .vsmUpd 22 11 13 6), (0x72CB6E81, .vsmRescale 22 11 13 6), (0x740B4800, .vloop 11 9),
    (0x76C00001, .vlidx 22)] : List (Word32 × Instr)), decodeA x.1 = .instr x.2 := by decide +kernel

theorem test_decode_nop : decodeC 0 0 = .instr .nop ∧ decodeA 0 = .instr .nop := by decide +kernel

/-! ### The hypotheses of the statements are met -/

theorem test_hyp_ScalarArithmeticResults : (regs [(8, 0x7FFF_FFFF_FFFF_FFFF), (9, 1)]).Quiet (s0.cur.keysS [16, 8, 9]) ∧
    s0.cur.namedS 16 = false ∧ s0.cur.getP 0 = true := by simp only [State.Quiet]; decide +kernel

theorem test_hyp_CompareSelectAndImmediateResults_scalar : s0.Quiet (s0.cur.keysS [0, 8, 9]) ∧ s0.cur.namedS 0 = false ∧ s0.cur.getP 0 = true := by
  simp only [State.Quiet]; decide +kernel

theorem test_hyp_ShiftAndMultiplyResults : (regs [(8, 1), (9, 64)]).Quiet (s0.cur.keysS [31, 8, 9]) ∧ s0.cur.namedS 31 = false ∧
    s0.cur.getP 0 = true := by simp only [State.Quiet]; decide +kernel

theorem test_hyp_BitOperationResults : (regs [(8, 0)]).Quiet (s0.cur.keysS [16, 8, 9]) ∧ s0.cur.namedS 16 = false ∧ s0.cur.getP 0 = true := by
  simp only [State.Quiet]; decide +kernel

theorem test_hyp_CompareSelectAndImmediateResults_compare : s0.Quiet (s0.cur.keysS [8, 9]) ∧ s0.cur.namedP 1 = false ∧ s0.cur.getP 0 = true := by
  simp only [State.Quiet]; decide +kernel

theorem test_hyp_FalseGuardMakesNoEffect : (s0.cur.getP 7 = false ∧ tsrPp s0.cur.tsr = false) ∧
    (s0Pp.cur.getP 7 = false ∧ tsrPp s0Pp.cur.tsr = true) := by decide +kernel

theorem test_hyp_PositionAfterASlot :
    let q (i : Nat) : Seq := { active := true, start := 0x10000, len := 2, trips := 2, idx := i }
    let last : Word := 0x10000 + word 8
    unit0.seq.active = false ∧ ((q 0).active = true ∧ (q 0).held = false ∧ 0 < (q 0).len) ∧
      ({ unit0 with pc := 0x10008, seq := q 0 }.pc = last ∧ (q 0).idx + 1 < (q 0).trips) ∧
      ({ unit0 with pc := 0x10008, seq := q 1 }.pc = last ∧ (q 1).trips ≤ (q 1).idx + 1) ∧ { unit0 with seq := q 0 }.pc ≠ last := by
  decide +kernel

theorem test_hyp_LookaheadWindowHoldsDestinations : (1 : BitVec 4) ≠ 0 ∧ (16 : SReg) ≠ 0 ∧ tsrPp s0.cur.tsr = false := by decide +kernel

theorem test_hyp_DivideAndWideMultiplyResults :
    (s0.Quiet (s0.cur.keyS 16 :: s0.cur.keyS 8 :: [s0.cur.keyS 9]) ∧ s0.cur.namedS 16 = false) ∧
    (s0.Quiet (s0.cur.keyS 30 :: s0.cur.keyS (30 + 1) :: s0.cur.keyS 8 :: [s0.cur.keyS 9]) ∧ s0.cur.namedS 30 = false ∧
      s0.cur.namedS (30 + 1) = false ∧ (30 : SReg) ≠ 0 ∧ (30 : SReg) ≠ 31) ∧ tsrPp s0.cur.tsr = false := by
  simp only [State.Quiet]; decide +kernel

theorem test_hyp_BranchesNameTheNextBundle :
    tsrPp s0.cur.tsr = false ∧ s0.cur.getP 0 = true ∧ s0.cur.getP 1 = false ∧
    (s0.cur.pc + (0x3FFFFF : BitVec 22).signExtend 64 * 8).toNat < 2 ^ 56 ∧
    2 ^ 56 ≤ ((s0.modCur fun u => { u with pc := 0 }).cur.pc + (0x3FFFFF : BitVec 22).signExtend 64 * 8).toNat ∧
    (regs [(8, 0xFF_FFFF_FFFF_FFF8)]).Quiet [s0.cur.keyS 8] ∧
    (((regs [(8, 0xFF_FFFF_FFFF_FFF8)]).cur.getS 8).toNat < 2 ^ 56 ∧ ((regs [(8, 0xFF_FFFF_FFFF_FFF8)]).cur.getS 8).toNat % 8 = 0) ∧
    2 ^ 56 ≤ ((regs [(8, 0x100_0000_0000_0000)]).cur.getS 8).toNat ∧
    (((regs [(8, 4)]).cur.getS 8).toNat < 2 ^ 56 ∧ ((regs [(8, 4)]).cur.getS 8).toNat % 8 ≠ 0) := by
  simp only [State.Quiet]; decide +kernel

/-- Three older windows are resident. -/
def s3 : State := s0.modCur fun u => { u with saved := [win0, win0, win0], depth := 4 }

theorem test_hyp_CallsSlideTheWindow :
    let outs := ([24, 25, 26, 27, 28, 29, 30, 31] : List SReg).map s0.cur.keyS ++
      (List.range 16).map fun i => RegKey.s (16 * s0.cur.depth + 32 + i)
    (tsrPp s0.cur.tsr = false ∧ s0.cur.getP 1 = false) ∧
    (s0.cur.getP 0 = true ∧ (tsrPp s0.cur.tsr = false ∧ s0.touches (s0.cur.keyS 8 :: outs) = false) ∧ s0.cur.saved.length < 3 ∧
      ((regs [(8, 0x20000)]).cur.getS 8).toNat < 2 ^ 56 ∧ ((regs [(8, 0x20000)]).cur.getS 8).toNat % 8 = 0) ∧
    (3 ≤ s3.cur.saved.length ∧ s3.touches s3.cur.oldestKeys = false ∧ s3.cur.saved.getLast? = some win0 ∧
      s3.cur.lsb.toNat + 8192 + 128 ≤ s3.cur.wsp.toNat) := by decide +kernel

theorem test_hyp_ReturnsSlideTheWindowBack :
    tsrPp s0.cur.tsr = false ∧ s0.Quiet [s0.cur.keyS 15] ∧ s0.cur.depth = 1 ∧
    (s3.cur.depth ≠ 1 ∧ (s3.cur.getS 15).toNat < 2 ^ 56 ∧ (s3.cur.getS 15).toNat % 8 = 0 ∧ s3.cur.saved = win0 :: [win0, win0]) ∧
    ((s0.modCur fun u => { u with depth := 2 }).cur.depth ≠ 1 ∧ s0.cur.saved = []) ∧
    (s3.cur.saved.getLast? = some win0 ∧ s3.touches s3.cur.oldestKeys = false ∧ s3.cur.lsb.toNat + 8192 + 128 ≤ s3.cur.wsp.toNat) ∧
    s0.Quiet [s0.cur.keyS 16] ∧ s0.cur.namedS 16 = false := by simp only [State.Quiet]; decide +kernel

/-- The mapped state of a fetched instruction: its 64 MiB page maps to the same addresses. -/
noncomputable def mapped : State := State.reset.withFetchWord 32 0x44000004

theorem test_hyp_LoadsReadThroughTheTasksOwnStores :
    let s := scratch []
    let ea := s.cur.getS 8 + offsetOf (.short 0) 128
    (s.Quiet (s.cur.keysS [16, 8]) ∧ s.cur.namedS 16 = false ∧ s.Reaches ea 8 8) ∧ got (s.readSpan ea 8 0) = 1 ∧
    (s.cur.wordBefore s.ids ea 8 = false ∧ got (s.loadBytes ea 8 s.ids 0 s.cur.tid 0) = 1 ∧
      (let t := s.openWindow 2 (s.cur.destS 16) none (.load ea 8 false false 0 0)
       t.cur.wordBefore t.ids ea 8 = true ∧ got (t.loadBytes ea 8 t.ids 0 t.cur.tid 0) = 2)) ∧
    (s.Quiet [.v 31, s.cur.keyS 8] ∧ s.cur.namedV 31 = false ∧ s.Reaches ea 128 4 ∧ s.Reaches ea 128 128) ∧
    (s.cur.inAperture ea = true ∧ s.cur.apertureBank ea ≤ 13 ∧ s.apertureWaits ea = false ∧ s.tagWaits ea = false ∧
      s.lockedAgainst (s.paOf (s.cur.loftAddr ea)) 128 = false ∧ s.tagAt ea = s.cur.xtag.truncate 16) ∧
    (s.modCur fun u => { u with xtag := 5 }).tagAt ea ≠ (s.modCur fun u => { u with xtag := 5 }).cur.xtag.truncate 16 := by
  simp only [State.Quiet, State.Reaches]; decide +kernel

/-- `mapped` with another leaf for its page: not cacheable (NC), or the host's region. -/
noncomputable def mappedAs (pte : Word) : State := mapped.setBytes 0x6000 (bytesOf 8 pte.toNat)
def ncPage : Word := 0x0200_0000_0000_01AF
def hostPage : Word := 0x0200_0800_0000_01AF
/-- A line of way 0 that holds the words of the addresses 0x2000 to 0x2007. -/
def line0 : Line :=
  { way := 0, set := 0x20, vtag := 0, job := some 0, pline := 0x2000, expiry := 1000, keep := false, words := [(0, 1), (1, 2)] }
/-- `regs` with that line in the ways of the cluster. -/
def cached (l : List (SReg × Word)) : State := (regs l).setCluster 0 { State.reset.cluster 0 with lines := [line0] }

/-- The leaves of a page of LPDDR and of a Granary. -/
def lpddrPage : Word := 0x0200_0100_0000_01AF
def granaryPage : Word := 0x0200_0300_0000_01AF
/-- A piece of a load misses, is translated and may be read at its home, as one that may be cached or not. -/
def missed (s : State) (cacheable : Bool) (plain : Region' → Bool) : Bool :=
  match s.translate (sliceDie s.cur.loc.die) s.cur.job 0x2000 .read (tsrSup s.cur.tsr) s.cur.secure with
  | (t, .ok pa e _) =>
    let v := t.leavePlace .read s.cur.loc 0x2000
    t.isLocal pa && v.cacheable pa e == cacheable && v.worldOk s.cur.secure (localOf pa) && !v.lockedAgainst pa 8 && plain (regionOf (localOf pa))
  | _ => false
def isPlain : Region' → Nat
  | .hbm _ _ => 1
  | .lpddr _ => 2
  | .granary _ _ => 3
  | _ => 0

theorem test_hyp_CommittedReadsComeFromTheWayOrTheHome :
    ((cached []).wayHit 0x2000 8).isSome = true ∧
    (∀ x ∈ [(ncPage, 1), (lpddrPage, 2), (granaryPage, 3)], (mappedAs x.1).wayHit 0x2000 8 = none ∧
      missed (mappedAs x.1) false (fun r => isPlain r == x.2) = true) ∧
    (mapped.wayHit 0x2000 8 = none ∧ missed mapped true (fun r => isPlain r == 1) = true) ∧
    (let c := State.reset.cluster 0
     c.rangeOf 0 0x2000 = none ∧ (c.lines.find? fun l => l.holds 0 0x2000 && c.ways.contains l.way) = none ∧
      (c.ways.filter fun w => !(c.lines.filter fun l => l.set == 0x2000 / 256 % 2048).any fun l => l.way == w) ≠ []) := by decide +kernel

/-- `s0` with a full buffer of stores. -/
def full : State := (regs [(8, 0x1000_0000)]).modCur fun u =>
  { u with task := { u.task with words := (List.range 8192).map fun j => j } }

theorem test_hyp_StoresAreHeldByTheTask :
    (∀ s ∈ [regs [(8, 0x2000)], regs [(8, 0xFF_FFFF_FFFF_FF00)]],
      s.Quiet [s.cur.keyS 16, s.cur.keyS 8] ∧ s.Quiet [.v 31, s.cur.keyS 8] ∧ s.Reaches (s.cur.getS 8) 8 8 ∧ s.Reaches (s.cur.getS 8) 1 1 ∧
      s.Reaches (s.cur.getS 8) 128 4 ∧ s.Reaches (s.cur.getS 8) 16 16 ∧
      (s.cur.wordsWith (vaWords (s.cur.getS 8) 8)).length ≤ Config.bufferWords) := by
  simp only [State.Quiet, State.Reaches]; decide +kernel

theorem test_hyp_StoresAreHeldByTheTask_full : full.Quiet [full.cur.keyS 16, full.cur.keyS 8] ∧ full.Reaches (full.cur.getS 8) 8 8 ∧
    full.cur.task.nonspec = false ∧ Config.bufferWords < (full.cur.wordsWith (vaWords (full.cur.getS 8) 8)).length := by
  simp only [State.Quiet, State.Reaches]; decide +kernel

theorem test_hyp_TagsAddressesAndCacheControl_tag :
    let s := scratch []
    let ea := s.cur.getS 8 + offsetOf (.short 0) 128
    (s.Quiet [.v 31, s.cur.keyS 8] ∧ s.Reaches ea 128 128) ∧ (s.cur.inAperture ea = true ∧ s.cur.apertureBank ea ≤ 13) ∧
    (s.cur.wordsWith (vaWords ea 128 ++ [2 ^ 60 + s.cur.apertureBank ea * 128 + s.cur.granule ea])).length ≤ Config.bufferWords ∧
    (let t := regs [(8, 0x2000)]
     t.Quiet [.v 31, t.cur.keyS 8] ∧ t.Reaches 0x2000 128 128 ∧ t.cur.inAperture 0x2000 = false) ∧
    (s.touches (s.cur.keysS [31, 8]) = false ∧ s.cur.namedS 31 = false ∧ s.tagWaits ea = false ∧ tsrPp s.cur.tsr = false) := by
  simp only [State.Quiet, State.Reaches]; decide +kernel

theorem test_hyp_TagsAddressesAndCacheControl_rest :
    (tsrPp s0.cur.tsr = false ∧ s0.touches (s0.cur.keysS [16, 0]) = false ∧ s0.cur.namedS 16 = false) ∧
    (∀ s ∈ [regs [(8, 15)], regs [(8, 16)], regs [(8, 23)], regs [(8, 24)]],
      s.touches (s.cur.keysS [16, 8]) = false ∧ (s.cur.getS 8).toNat ≤ 24) ∧
    (let s := regs [(8, 0)]; s.bindOk s.cur (s.cur.getS 8) = true ∧ (s.partialOut && outputChanges s.cur.sbind (s.cur.getS 8)) = false) ∧
    (∀ s ∈ [regs [(8, 0xFF_FFFF_FFFF_FFFC), (9, 1)], regs [(8, 0xFF_FFFF_FFFF_FFFC), (9, 65536)]],
      s.touches (s.cur.keysS [8, 9]) = false ∧ 1 ≤ (s.cur.getS 9).toNat ∧ (s.cur.getS 9).toNat ≤ 65536 ∧ (s.cur.getS 8).toNat % 4 = 0 ∧
        (s.cur.getS 8).toNat < 2 ^ 56) ∧
    ((regs [(9, 65537)]).cur.getS 9).toNat = 65537 ∧ 24 < ((regs [(8, 25)]).cur.getS 8).toNat := by decide +kernel

theorem test_hyp_ChecksOfInstructionsAndAccesses_address :
    (∀ s ∈ [regs [(8, 0x100_0000_0000_0000)], regs [(8, 2)], regs [(8, 0x80_0000_0008_0000)]],
      s.Quiet (s.cur.keysS [16, 8]) ∧ s.Quiet [.v 31, s.cur.keyS 8]) ∧
    2 ^ 56 ≤ ((regs [(8, 0x100_0000_0000_0000)]).cur.getS 8).toNat ∧ ((regs [(8, 2)]).cur.getS 8).toNat % 4 ≠ 0 ∧
    (regs [(8, 0x80_0000_0008_0000)]).loftRefused ((regs [(8, 0x80_0000_0008_0000)]).cur.getS 8) 8 = true := by simp only [State.Quiet]; decide +kernel

/-- How an indivisible access ends: 1 with the old value, 2 with a wait, 3 at the hub. -/
def accessed : Accessed → Nat
  | .ok _ _ => 1
  | .wait _ => 2
  | .atHub _ => 3
  | .trap _ _ => 4

theorem test_hyp_AtomicsReturnTheOldValue :
    let s := scratch []
    let ea := s.cur.getS 8
    (s.Quiet (s.cur.keyS 16 :: s.cur.keyS 8 :: [s.cur.keyS 9]) ∧ s.cur.namedS 16 = false ∧ s.Reaches ea 8 8) ∧
    ∃ t, s.CommitsTo (.atomic .add .d 1 16 ea 0 0) false t ∧
      (accessed (t.access t.ids .add .d ea 0 0) = 1 ∧ t.cur.inAperture ea = true ∧ t.apertureWaits ea = false ∧
        t.cur.orderedBefore t.ids = false ∧ t.cur.wordBefore t.ids ea 8 = false ∧ t.lockedAgainst (t.paOf (t.cur.loftAddr ea)) 8 = false) := by
  refine ⟨by simp only [State.Quiet, State.Reaches]; decide +kernel, commitsIn (by decide +kernel)⟩

/-- The same bank with its first word locked by another module. -/
def locked : State := { scratch [] with remoteLocks := [(loftWindow 0 0 + 0x8_0000, 3, 0)] }

theorem test_hyp_AtomicsReturnTheOldValue_waits :
    ∃ t, locked.CommitsTo (.atomic .add .d 1 16 (locked.cur.getS 8) 0 0) false t ∧
      accessed (t.access t.ids .add .d (locked.cur.getS 8) 0 0) = 2 := commitsIn (by decide +kernel)

/-- A unit whose page is the host's region of hub 0, whose link performs every atomic. -/
noncomputable def hosted : State := (mappedAs hostPage).setHub 0 { State.reset.hub 0 with hacap := BitVec.allOnes 64 }

theorem test_hyp_AtomicsReturnTheOldValue_hub :
    ∃ t, hosted.CommitsTo (.atomic .add .d 1 16 0x2000 0 0) false t ∧ accessed (t.access t.ids .add .d 0x2000 0 0) = 3 :=
  commitsIn (by decide +kernel)

theorem test_hyp_AtomicOperationsAndPairAtomics :
    (0xFFFF_FFFF < 2 ^ 32) ∧ (tsrPp s0.cur.tsr = false ∧ (17 : SReg).toNat % 2 = 1) ∧
    (let s := scratch []
     let ea := s.cur.getS 8
     ((16 : SReg).toNat % 2 = 0 ∧ s.Quiet (s.cur.keysS [16, 17, 8, 10, 11]) ∧ s.cur.namedS 16 = false ∧ s.cur.namedS 17 = false ∧
       s.Reaches ea 16 16) ∧
     ∃ t, s.CommitsTo (.atomic .cas .q 1 16 ea 0 0) false t ∧
      (t.cur.inAperture ea = true ∧ t.apertureWaits ea = false ∧ t.cur.orderedBefore t.ids = false ∧
        t.cur.wordBefore t.ids ea 16 = false ∧ t.lockedAgainst (t.paOf (t.cur.loftAddr ea)) 16 = false)) := by
  refine ⟨by decide, by decide +kernel, by simp only [State.Quiet, State.Reaches]; decide +kernel, commitsIn (by decide +kernel)⟩

theorem test_hyp_SequentiallyConsistentOperationsAreAnnounced :
    let s := scratch []
    let ea := s.cur.getS 8
    (s.Quiet (s.cur.keyS 0 :: s.cur.keyS 16 :: s.cur.keyS 8 :: [s.cur.keyS 9]) ∧ s.cur.namedS 16 = false ∧ s.Reaches ea 8 8) ∧
    ∃ t, s.CommitsTo (.sc .swap .domain .d 1 16 ea 0 0) false t ∧ (t.cur.inAperture ea = true ∧ t.apertureWaits ea = false ∧ ∀ x ∈ t.announced, x.pend ≠ t.ids) := by
  refine ⟨by simp only [State.Quiet, State.Reaches]; decide +kernel, commitsIn (by decide +kernel)⟩

/-- A module whose hub knows the way to module 3: it is told of the operations of the domain. -/
def routed : State := (scratch []).setHub 0 { State.reset.hub 0 with routes := [(3, 2 ^ 63)] }
theorem test_hyp_SequentiallyConsistentOperationsAreAnnounced_domain :
    ∃ t, routed.CommitsTo (.sc .st .domain .d 0 0 (routed.cur.getS 8) 0 0) false t ∧ (t.cur.inAperture (routed.cur.getS 8) = true ∧
      t.apertureWaits (routed.cur.getS 8) = false ∧ (∀ x ∈ t.announced, x.pend ≠ t.ids) ∧
      ((t.hub 0).routes.filter fun e => e.2.getLsbD 63 && e.1 != t.modid.toNat) = [(3, 2 ^ 63)]) := commitsIn (by decide +kernel)

/-- A unit that has released a copy command whose report is outstanding. -/
def unreported : State := s0.modCur fun u => { u with outCopies := 1 }

/-- A range register that a commit which became visible later has written. -/
def lrngLater : State := s0.setCluster 0 { State.reset.cluster 0 with ranges := [(7, { word := 0, job := 0, misses := 0, order := 1000000 })] }

theorem test_hyp_CommittingInstructionsMoveOn :
    let s := regs [(8, 1), (9, 2)]
    (tsrPp s.cur.tsr = false ∧ s.touches (s.cur.keysS [16, 8, 9]) = false ∧ s.cur.task.tstamp.toNat ≤ (s.cur.getS 8).toNat ∧
      (s.cur.getS 9).getLsbD 0 = false ∧ (s.cur.getS 9).toNat < 2 ^ 62 ∧ s.cur.gang = 1 ∧ rangeOk 0 = true ∧
      rangeOk (0x8000_0000_0000_0010 : Word) = true ∧ s.cur.namedS 16 = false) ∧
    (∃ t, s.CommitsTo .tcommit false t) ∧ (∃ t, s.CommitsTo (.tbegin 1 2) false t) ∧ (∃ t, s.CommitsTo (.atC 0) false t) ∧
    (∃ t, s.CommitsTo (.gang 1) false t) ∧ (∃ t, s.CommitsTo (.lrng 7 0) false t ∧ (Sparse.find? t.curCluster.ranges 7).isNone = true) ∧
    (∃ t, lrngLater.CommitsTo (.lrng 7 0) false t ∧
      t.cur.visibleAt < ((Sparse.find? t.curCluster.ranges 7).map fun r => r.order).getD 0) ∧ (∃ t, s.CommitsTo (.lhz false 16 15) false t) ∧
    (∃ t, s.CommitsTo (.lhz true 16 0) false t) ∧ (∃ t, s.CommitsTo (.fence false false) false t) ∧
    (∃ t, s.CommitsTo (.fence false true) false t) ∧ (∃ t, s.CommitsTo (.fence true false) false t ∧ t.cur.reported = true) ∧
    (∃ t, s.CommitsTo (.fence true true) false t ∧ t.cur.reported = true) ∧
    (∃ t, unreported.CommitsTo (.fence true false) false t ∧ t.cur.reported = false) ∧
    (∃ t, unreported.CommitsTo (.fence true true) false t ∧ t.cur.reported = false) := by
  refine ⟨by decide +kernel, commits (by decide +kernel), commits (by decide +kernel), commits (by decide +kernel), commits (by decide +kernel),
    commitsIn (by decide +kernel), commitsIn (by decide +kernel), commits (by decide +kernel), commits (by decide +kernel), commits (by decide +kernel), commits (by decide +kernel), commitsIn (by decide +kernel),
    commitsIn (by decide +kernel), commitsIn (by decide +kernel), commitsIn (by decide +kernel)⟩

theorem test_hyp_CommitOfATaskWithoutStores : s0.cur.visible = false ∧ s0.cur.prepared = none ∧ s0.cur.task.ops = [] ∧ s0.cur.task.words = [] ∧
    s0.cur.task.wsig = 0 ∧ s0.cur.task.held = [] ∧ s0.cur.task.locked = [] ∧ s0.timestampOk = true ∧ s0.cur.accessBefore = false ∧
    (∀ T, Cont.atC 0 = .atC T → T.toNat ≤ s0.time.toNat) ∧ s0.holdsToken = false ∧ s0.performsOut = false := by
  refine ⟨by decide +kernel, by decide +kernel, by decide +kernel, by decide +kernel, by decide +kernel, by decide +kernel, by decide +kernel,
    by decide +kernel, by decide +kernel, ?_, by decide +kernel, by decide +kernel⟩
  intro T h; cases h; decide +kernel

/-- The unit of `scratch` with a task of one operation, or of held items. -/
def tasked (ops : List TaskOp) (held : List Held) : State := (scratch []).modCur fun u => { u with task := { u.task with ops, held } }
theorem test_hyp_VisiblePhaseOfACommit :
    let va : Word := 0x80_0000_0008_0000
    (∀ s ∈ [tasked [.store va [1, 2]] [], tasked [.reduce va .add .w 5] [], tasked [.tag va 3] [], tasked [] [.signal 0 1],
        tasked [] [.word 11 0 1, .word 11 0 2], tasked [] [.spawn { entry := 0, ts := 0, mask := 0, lo := [], out := [] }]],
      Memory.wf s.mem = true ∧ s.cur.loc.die < 6 ∧ s.cur.loc.cluster < 20 ∧ s.cur.visible = false ∧ s.cur.prepared = none ∧
      s.cur.task.wsig = 0 ∧ s.cur.task.locked = [] ∧ s.timestampOk = true ∧ s.cur.accessBefore = false ∧ s.cur.cancelled = false ∧
      s.holdsToken = false ∧ s.performsOut = false ∧ s.others = [] ∧ s.curLaunch = some launch0) ∧
    (let s := tasked [.reduce va .add .w 5] []
     s.cur.inAperture va = true ∧ s.apertureWaits va = false ∧ (∀ n ∈ [2, 4], s.lockedAgainst (s.paOf (s.cur.loftAddr va)) n = false) ∧
      AtomOp.add.apply .w (ofBytes (s.bytes (s.cur.loftAddr va) 4)) 5 0 = some 5) := by decide +kernel

/-- `s0` with 64 items held. -/
def held64 : State := s0.modCur fun u => { u with task := { u.task with held := List.replicate 64 (.signal 0 1) } }
def nonspec (s : State) : State := s.modCur fun u => { u with task := { u.task with nonspec := true } }

theorem test_hyp_TaskEndsAbortsSpawnsAndStamps :
    (tsrPp s0.cur.tsr = false ∧ s0.touches [s0.cur.keyS 8] = false ∧ s0.cur.allReady = true ∧ s0.cur.task.nonspec = false) ∧
    (∃ t, (s0.setCur s0.cur.completeReady).CommitsTo (.exit 0) false t) ∧
    ((s0.openWindow 2 (s0.cur.destS 16) none .answer).cur.allReady = false ∧ (nonspec s0).cur.task.nonspec = true) ∧
    (let s := regs [(8, 0xFF_FFFF_FFFF_FFF8), (9, 0xFFFF_FFFF), (16, 2)]
     s.touches (s.cur.keysS [16, 8, 9, 24, 25, 26, 27, 28, 29, 30, 31, 1, 2, 3, 4, 5, 6, 7]) = false ∧ (s.cur.getS 9).toNat < 2 ^ 32 ∧
      s.cur.task.tstamp.toNat ≤ (s.cur.getS 9).toNat ∧ (s.cur.getS 16).getLsbD 0 = false ∧ (s.cur.getS 16).toNat < 2 ^ 62 ∧
      (s.cur.getS 8).toNat % 8 = 0 ∧ (s.cur.getS 8).toNat < 2 ^ 56 ∧ s.cur.task.held.length < 64 ∧ s.cur.namedS 16 = false) ∧
    (64 ≤ held64.cur.task.held.length ∧ held64.cur.task.nonspec = false ∧
      64 ≤ (nonspec held64).cur.task.held.length ∧ (nonspec held64).cur.task.nonspec = true) ∧
    2 ^ 32 ≤ ((regs [(9, 0x1_0000_0000)]).cur.getS 9).toNat := by
  refine ⟨by decide +kernel, commits (by decide +kernel), by decide +kernel, by decide +kernel, by decide +kernel, by decide +kernel⟩

theorem test_hyp_TimedInstructionsBanksAndBarriers :
    ((regs [(8, 0)]).Quiet [s0.cur.keyS 8] ∧ ((regs [(8, 0)]).cur.getS 8).toNat ≤ s0.time.toNat) ∧
    ((regs [(8, 1)]).Quiet [s0.cur.keyS 8] ∧ s0.time.toNat < ((regs [(8, 1)]).cur.getS 8).toNat) ∧
    ((0 : Word).toNat ≤ s0.time.toNat ∧ s0.time.toNat < (1 : Word).toNat) ∧
    (let s := regs [(8, 13), (9, 1)]
     tsrPp s.cur.tsr = false ∧ s.touches (s.cur.keysS [16, 8, 9]) = false ∧ s.cur.namedS 16 = false ∧ (s.cur.getS 8).toNat ≤ 13 ∧
      s.cur.lbm.getLsbD (s.cur.getS 8).toNat = true ∧ configRefused (configClean (s.cur.getS 9)) = false) := by
  simp only [State.Quiet]; decide +kernel

/-- A FIFO stage of bank 13 that holds an entry. -/
def fifoBusy : State := s0.setCluster 0 { State.reset.cluster 0 with fifos := [(13 * 256, [{ bytes := [1] }])] }
/-- The `lbank` of another unit of the cluster that committed earlier and has not ended. -/
def lbankBusy : State := s0.setCluster 0 { State.reset.cluster 0 with lbanks := [⟨0, 0, 1, 0⟩] }
/-- What `lbank` finds once its place in its cluster is taken. -/
def lbankTurn (t : State) : State :=
  let c := t.curCluster
  if c.lbanks.contains t.cur.loc then t else t.setCurCluster { c with lbanks := c.lbanks ++ [t.cur.loc] }
def lbankFirst (t : State) : Bool := (lbankTurn t).curCluster.lbanks.head? == some t.cur.loc

theorem test_hyp_TimedInstructionsBanksAndBarriers_banks :
    (∃ t, s0.CommitsTo (.lbank 16 13 0) false t ∧ lbankFirst t = true ∧ (lbankTurn t).curCluster.configOf 13 = 0) ∧
    (∃ t, s0.CommitsTo (.lbank 16 13 1) false t ∧ lbankFirst t = true ∧ (lbankTurn t).curCluster.configOf 13 ≠ 1 ∧
      (lbankTurn t).bankBusy t.cur.clusterId 13 = false) ∧
    (∃ t, fifoBusy.CommitsTo (.lbank 16 13 1) false t ∧ lbankFirst t = true ∧ (lbankTurn t).curCluster.configOf 13 ≠ 1 ∧
      (lbankTurn t).bankBusy t.cur.clusterId 13 = true) ∧
    (∃ t, lbankBusy.CommitsTo (.lbank 16 13 0) false t ∧ lbankFirst t = false) :=
  ⟨commitsIn (by decide +kernel), commitsIn (by decide +kernel), commitsIn (by decide +kernel),
    commitsIn (by decide +kernel)⟩

/-- Barrier 15 of the launch has one arrival of three. -/
def arrived : State := { s0 with launches := [{ launch0 with barriers := [(15, { count := 3, arrived := 1 })] }] }

theorem test_hyp_TimedInstructionsBanksAndBarriers_bar :
    let s := regs [(8, 15), (9, 65535)]
    (s.touches (s.cur.keysS [8, 9]) = false ∧ (s.cur.getS 8).toNat ≤ 15 ∧ 1 ≤ (s.cur.getS 9).toNat ∧ (s.cur.getS 9).toNat ≤ 65535) ∧
    (∃ t, s.CommitsTo (.bar 15 65535) false t ∧ t.curLaunch = some launch0 ∧ (launch0.barrier 15).arrived = 0) ∧
    (∃ t, s0.CommitsTo (.bar 15 1) false t ∧ t.curLaunch = some launch0 ∧ (launch0.barrier 15).arrived + 1 = 1) ∧
    (∃ t, arrived.CommitsTo (.bar 15 2) false t ∧
      t.curLaunch = some { launch0 with barriers := [(15, { count := 3, arrived := 1 })] } ∧ 0 < 1 ∧ 3 ≠ 2) := by
  refine ⟨by decide +kernel, commitsIn (by decide +kernel), commitsIn (by decide +kernel), commitsIn (by decide +kernel)⟩

theorem test_hyp_SystemRegistersRead : (tsrPp s0.cur.tsr = false ∧ s0.touches [s0.cur.keyS 31] = false ∧ s0.cur.namedS 31 = false ∧
    tsrSup s0.cur.tsr = false) ∧ (tsrPp (supRegs []).cur.tsr = false ∧ tsrSup (supRegs []).cur.tsr = true) := by decide +kernel

theorem test_hyp_SystemRegistersWritten : (tsrPp s0.cur.tsr = false ∧ s0.touches [s0.cur.keyS 8] = false ∧ tsrSup s0.cur.tsr = false) ∧
    (let s := supRegs [(8, 16)]
     tsrPp s.cur.tsr = false ∧ s.touches [s.cur.keyS 8] = false ∧ tsrSup s.cur.tsr = true ∧ bits (s.cur.getS 8) 11 10 ≤ 1 ∧
      s.cur.wain = false ∧ s.cur.wcnt = 0 ∧ (s.cur.getS 8).toNat ≤ 16) := by decide +kernel

/-- A read of the unit on slot 0 at 0x2000. -/
def xl0 : XlReq :=
  { src := .worker, loc := ⟨0, 0, 0, 0⟩, job := 0, supervisor := false, secure := false, acc := .read, va := 0x2000, size := 8, value := 0 }
/-- A fault of the unit on slot 0 that has not been answered. -/
def fault0 : Fault' :=
  { token := 7, src := .worker, loc := ⟨0, 0, 0, 0⟩, job := 0, cause := .notPresent, acc := .read, va := 0, entry := 0, committing := false,
    pend := 0, launch := 1 }
/-- A walk ends in a fault (1), in a leaf of the non-secure world (2) or of the secure world (3), or waits for a lock (4). -/
def walked : WalkEnd → Nat
  | .fault _ _ => 1
  | .leaf e _ _ => if pteSw e then 3 else 2
  | .wait => 4

theorem test_hyp_PagingInstructions :
    (let s := supRegs [(8, 0xFF_FFFF_FFFF_FFFF), (9, 4095)]
     tsrPp s.cur.tsr = false ∧ tsrSup s.cur.tsr = true ∧ s.touches (s.cur.keysS [16, 8, 9]) = false ∧ s.cur.namedS 16 = false ∧
      (s.cur.getS 8).toNat < 2 ^ 56 ∧ (s.cur.getS 9).toNat < 4096 ∧ walked (s.walkLeaf 4095 0xFF_FFFF_FFFF_FFFF) = 1) ∧
    (walked (mapped.walkLeaf 0 0x2000) = 2 ∧ mapped.cur.secure = false) ∧
    (let s := { mapped with remoteLocks := [(0x6000, 3, 0)] }; walked (s.walkLeaf 0 0x2000) = 4) ∧
    (let s := mappedAs (ncPage ||| 0x400); walked (s.walkLeaf 0 0x2000) = 3 ∧ s.cur.secure = false) ∧
    (let s := supRegs [(8, 7), (9, 2)]
     (s.cur.getS 8).toNat < 2 ^ 16 ∧ (s.cur.getS 9).toNat ≤ 2 ∧ s.faultOf 7 = none ∧ s.cur.getS 8 ≠ 0 ∧
      ({ s with faults := [fault0] } : State).faultOf 7 = some fault0 ∧ fault0.req = none ∧
      ({ s with faults := [{ fault0 with req := some xl0 }] } : State).faultOf 7 = some { fault0 with req := some xl0 } ∧
      (∀ w ∈ mapped.walks, mapped.walkFor (sliceDie 0) 0 0x2000 w = false) ∧
      ∃ w ∈ ({ mapped with walks := [{ slice := sliceOf 0x2000, die := sliceDie 0, reqs := [xl0] }] } : State).walks,
        mapped.walkFor (sliceDie 0) 0 0x2000 w = true) ∧
    tsrSup s0.cur.tsr = false := by decide +kernel

/-- `s3` with a stack that has no room for a spill. -/
def s3Full : State := s3.modCur fun u => { u with wsp := u.lsb }
theorem test_hyp_TrapEntrySavesAndSwitches : ({ trap := .syscall, faddr := 0 } : TrapInfo).td = false ∧ s0.cur.saved.length < 3 ∧
    (¬s3.cur.saved.length < 3 ∧ (let u := s3.cur.completeReady
      u.lsb.toNat + 8192 + 128 ≤ u.wsp.toNat ∧ u.saved.getLast? = some win0 ∧ Memory.wf s3.mem = true)) ∧
    (¬s3Full.cur.saved.length < 3 ∧ (let u := s3Full.cur.completeReady
      ¬u.lsb.toNat + 8192 + 128 ≤ u.wsp.toNat)) := by decide +kernel

/-- `s3` and `s0` at supervisor privilege, the latter with its older window in memory. -/
def s3Sup : State := s3.modCur fun u => { u with tsr := 0x400 }
def spilledSup : State := s0.modCur fun u => { u with tsr := 0x400, depth := 2 }

theorem test_hyp_TrapInstructionsAndReturn :
    (tsrPp s0.cur.tsr = false ∧ s0.settled = true ∧ tsrSup s0.cur.tsr = false) ∧
    (tsrSup (supRegs []).cur.tsr = true ∧ (supRegs []).cur.depth = 1) ∧
    (tsrSup s3Sup.cur.tsr = true ∧ s3Sup.cur.depth ≠ 1 ∧ s3Sup.cur.saved = win0 :: [win0, win0] ∧ s3Sup.cur.seq.held = false ∧
      s3Sup.cur.cause.getLsbD 61 = false ∧ (s3Sup.modCur fun u => { u with cause := 2 ^ 61 }).cur.cause.getLsbD 61 = true) ∧
    (tsrSup spilledSup.cur.tsr = true ∧ spilledSup.cur.depth ≠ 1 ∧ spilledSup.cur.saved = []) ∧
    (let s := s3Sup.modCur fun u => { u with epc := 0x20008, seq := { active := true, held := true, start := 0x20000, len := 2, trips := 2 } }
     let q := s.cur.seq
     tsrSup s.cur.tsr = true ∧ s.cur.depth ≠ 1 ∧ s.cur.saved = win0 :: [win0, win0] ∧ q.held = true ∧
      q.start.toNat ≤ (s.cur.epc &&& ~~~7).toNat ∧ (s.cur.epc &&& ~~~7).toNat < q.start.toNat + 8 * q.len ∧
      ¬(q.start.toNat ≤ ((0x20010 : Word) &&& ~~~7).toNat ∧ ((0x20010 : Word) &&& ~~~7).toNat < q.start.toNat + 8 * q.len)) := by decide +kernel

theorem test_hyp_CounterInstructions :
    (tsrPp s0.cur.tsr = false ∧ s0.touches (s0.cur.keysS [16, 8, 9]) = false ∧ s0.cur.namedS 16 = false) ∧
    (((regs [(8, 4095)]).cur.getS 8).toNat < 4096 ∧ (s0.counter 4095).owner = s0.cur.job) ∧
    (4096 ≤ ((regs [(8, 4096)]).cur.getS 8).toNat ∧ ((regs [(8, 8191)]).cur.getS 8).toNat < 8192) ∧
    ((regs [(8, 8192)]).cur.getS 8 = 8192 ∧ s0.curLaunch = some launch0) ∧
    ((0 : Word).toNat ≤ bits (s0.counter 0).word 62 0 ∧ bits (s0.counter 0).word 62 0 < (1 : Word).toNat ∧
      (s0.counter 0).word.getLsbD 63 = false ∧ (1 : Word).toNat < 2 ^ 63 ∧ s0.cur.task.held.length < 64) ∧
    (tsrSup (supRegs [(8, 0xFFF_0FFF)]).cur.tsr = true ∧ ((supRegs [(8, 0xFFF_0FFF)]).cur.getS 8).toNat < 2 ^ 28 ∧
      bits ((supRegs [(8, 0xFFF_0FFF)]).cur.getS 8) 15 12 = 0) ∧
    (s0.lcancelOk 0 = true ∧ s0.lcancelOk 0x1000_0000_0000_0000 = true ∧ s0.lcancelOk 0x4000_0000_0000_0000 = true) ∧
    (tsrSup s0.cur.tsr = false ∧ ((s0.setCounter 0 { owner := 5 }).counter 0).owner ≠ s0.cur.job) := by decide +kernel

/-- The launch of the unit is a node of a replay of a phase. -/
def inReplay : State := { s0 with
  launches := [{ launch0 with node := some (1, 0) }]
  replays := [{ id := 1, hub := 0, queue := 0, job := 0, graph := 0, counter := 0, reent := false, nodes := [], phase := some 4 }]
  phases := [{ id := 4, queue := 0, job := 0, counter := 0, rest := [] }] }
theorem test_hyp_CounterInstructions_lcancel :
    (inReplay.lcancelOk 0x2000_0000_0000_0000 = true ∧ inReplay.lcancelOk 0x3000_0000_0000_0000 = true) ∧
    (∃ t, inReplay.CommitsTo (.lcancel 2 0) false t ∧ (t.curReplay.map (·.id)) = some 1) ∧
    (∃ t, inReplay.CommitsTo (.lcancel 3 0) false t ∧ (t.curReplay.bind (·.phase)) = some 4) ∧
    (∃ t, s0.CommitsTo (.lcancel 0 0) false t) ∧ (∃ t, s0.CommitsTo (.lcancel 1 0) false t) ∧
    (∃ t, (supRegs []).CommitsTo (.lcancel 4 0) false t) :=
  ⟨by decide +kernel, commitsIn (by decide +kernel), commitsIn (by decide +kernel), commits (by decide +kernel),
    commits (by decide +kernel), commits (by decide +kernel)⟩

/-- A record of 64 bytes in q6. -/
def record6 : Elem := { bytes := (List.range 64).map fun j => BitVec.ofNat 8 j }
def popping : State := s0.modCur fun u => { u with q6 := [record6] }
/-- The task itself holds the copy whose report q0 would take. -/
def req0 : CopyReq := { w0 := 0, w1 := 0, w2 := 0, w3 := 0, tag := 0, by' := s0.issuer, released := 0, node := none }
def waitsOnItself : State := s0.modCur fun u => { u with task := { u.task with held := [.copy req0] } }

theorem test_hyp_PopsTakeTheHeadOfTheQueue :
    (tsrPp popping.cur.tsr = false ∧ popping.popOk 6 false = true ∧ popping.popOk 6 true = true ∧
      popping.touches [.s 0, popping.cur.keyS 16, .v 31] = false ∧ popping.cur.namedV 31 = false ∧ popping.cur.namedS 16 = false) ∧
    (((popping.front 6).map (·.1)) = some record6 ∧ s0.front 0 = none ∧ s0.cur.popDeadlock 0 = false) ∧
    (waitsOnItself.front 0 = none ∧ waitsOnItself.cur.popDeadlock 0 = true) ∧
    (Sparse.find? popping.cur.part 6 = none ∧ popping.cur.q6 = record6 :: []) ∧
    (popping.qwaitOk 6 = true ∧ popping.elems 6 ≠ [] ∧ s0.elems 6 = [] ∧ s0.cur.popDeadlock 6 = false) ∧
    (s0.cur.wcnt ≤ (0 : BitVec 8).toNat ∧ (15 : BitVec 8).toNat < (s0.modCur fun u => { u with wcnt := 16 }).cur.wcnt ∧
      (s0.modCur fun u => { u with wcnt := 16 }).moveDeadlock = false) := by decide +kernel

/-- Eight copy entries taken, by the task or by released requests, and 32 words of a launch record in q11. -/
def copiesHeld : State := s0.modCur fun u => { u with task := { u.task with held := List.replicate 8 (.copy req0) } }
def copiesOut : State := s0.modCur fun u => { u with copies := List.replicate 8 req0, q11 := List.replicate 32 0 }
/-- A matrix command of one segment and one row. -/
def matrixRegs : State := regs [(16, 0)]

theorem test_hyp_PushesAreHeldByTheTask :
    (tsrPp s0.cur.tsr = false ∧ s0.cur.task.held.length < 64 ∧ s0.pushOk 11 false = true ∧ s0.pushOk 2 true = true ∧
      s0.touches (s0.cur.keysS [28, 29, 30, 31]) = false ∧ (28 : SReg).toNat ≤ 28 ∧ s0.touches [.v 31] = false ∧ s0.cur.namedS 28 = false) ∧
    (s0.wordRoom 11 = .yes ∧ copiesOut.wordRoom 11 = .wait ∧ s0.rowRoom 2 = .yes ∧ s0.cur.copyEntries < 8 ∧ 8 ≤ copiesOut.cur.copyEntries ∧
      8 ≤ copiesHeld.cur.copyEntries ∧ heldCopies copiesHeld.cur.task.held = 8) ∧
    (s0.touches [s0.cur.keyS 16] = false ∧ mcmdOk (s0.cur.getS 16) 0 (s0.cur.fa.getD .bf16) (s0.cur.fb.getD .t5) s0.cur.fc = true ∧
      s0.q1Used < 8 ∧ s0.curLaunch = some launch0) := by decide +kernel

/-- All sixteen moves of the unit are outstanding. -/
def moves16 : State := s0.modCur fun u => { u with wcnt := 16 }
/-- A command at the head of tile 0 that waits for a row which only the unit's own task holds, and a move of the unit behind it. -/
def starved : State :=
  let c : MatCmd := { creg := 0, cw := 0, fa := .bf16, fb := .t5, by' := s0.issuer, weight := 0, id := 9 }
  let m : TileMove := { loc := ⟨0, 0, 0, 0⟩, get := false, row := 0, seg := 0, vreg := 0, value := 0 }
  (moves16.modCur fun u => { u with task := { u.task with held := [.row 2 0 (List.replicate 128 0)] } }).setCurCore
    { moves16.curCore with q1 := [c], tileQ := [(0, [.cmd 9, .move m])] }

theorem test_hyp_TileMovesEnterTheQueueOfTheirTile :
    (tsrPp s0.cur.tsr = false ∧ s0.touches [.v 31, s0.cur.keyS 8] = false ∧ s0.cur.namedV 31 = false ∧ s0.cur.wcnt < 16) ∧
    (((regs [(8, 511)]).cur.getS 8).toNat < 2 ^ 9 ∧ 2 ^ 9 ≤ ((regs [(8, 512)]).cur.getS 8).toNat) ∧
    (16 ≤ moves16.cur.wcnt ∧ moves16.moveDeadlock = false) ∧ (16 ≤ starved.cur.wcnt ∧ starved.moveDeadlock = true) := by decide +kernel

/-- Sixteen plain rope commands are out. -/
def ropes16 : State := s0.modCur fun u => { u with outRopes := 16 }
def ropeCmd (fn : RopeFn) : RopeCmd := { fn, form := .returning, tag := 0, a := 0, b := 0, c := 0, d := 0, by' := s0.issuer }

theorem test_hyp_RopeCommandsAreHeldOrAnswered :
    (tsrPp s0.cur.tsr = false ∧ s0.touches (s0.cur.keysS [28, 29, 30, 31]) = false ∧ s0.touches (s0.cur.keysS [29, 30, 31]) = false ∧
      28 < (29 : SReg).toNat ∧ (28 : SReg).toNat ≤ 28 ∧ 29 < (30 : SReg).toNat ∧ (29 : SReg).toNat ≤ 29) ∧
    (s0.cur.ropePlaces < 16 ∧ s0.cur.task.held.length < 64 ∧ 16 ≤ ropes16.cur.ropePlaces ∧
      (([28, 29, 30, 31] : List SReg).any s0.cur.namedS) = false) ∧
    (∃ t, s0.CommitsTo (.rope 1 28 (ropeCmd .rcat)) false t) ∧ (∃ t, s0.CommitsTo (.rope 1 29 (ropeCmd (.pfx .look))) false t) := by
  refine ⟨by decide +kernel, by decide +kernel, commits (by decide +kernel), commits (by decide +kernel)⟩

theorem test_hyp_BlockHashFormatsAndNop_hash : s0.Quiet [s0.cur.keyS 16, .v 31] ∧ s0.cur.namedS 16 = false := by
  simp only [State.Quiet]; decide +kernel

theorem test_hyp_BlockHashFormatsAndNop_formats : (tsrPp s0.cur.tsr = false ∧ s0.cur.aslot = false) ∧ (tsrPp s0A.cur.tsr = false ∧ s0A.cur.aslot = true) ∧
    tsrPp s0Pp.cur.tsr = true := by decide +kernel

theorem test_hyp_VectorIntegerResults : s0.Quiet [.v 31, .v 30, .v 29] ∧ s0.cur.namedV 31 = false := by
  simp only [State.Quiet]; decide +kernel

theorem test_hyp_VectorPermutesAndMoves :
    (s0.Quiet (.v 31 :: .v 30 :: .v 29 :: s0.cur.keysS [16, 8]) ∧ s0.cur.namedV 31 = false) ∧
    (((regs [(8, 127)]).cur.getS 8).toNat < 1024 / 8 ∧ 1024 / 8 ≤ ((regs [(8, 128)]).cur.getS 8).toNat) ∧
    (((regs [(8, 15)]).cur.getS 8).toNat < 1024 / 64 ∧ 1024 / 64 ≤ ((regs [(8, 16)]).cur.getS 8).toNat) ∧
    (s0.Quiet (.v 30 :: s0.cur.keysS [16, 8]) ∧ s0.cur.namedS 16 = false ∧ tsrPp s0.cur.tsr = false) := by
  simp only [State.Quiet]; decide +kernel

theorem test_hyp_MaskResults : s0.Quiet (.v 31 :: .v 30 :: s0.cur.keysS [16]) ∧ s0.cur.namedK 7 = false ∧ s0.Quiet (s0.cur.keysS [16]) ∧
    s0.cur.namedS 16 = false := by simp only [State.Quiet]; decide +kernel

/-- Encodings of a finite value, an infinity, a quiet and a signalling NaN. -/
theorem test_hyp_MaskResults_fp : (fpF32.read 0x3F800000 = .fin false 0x800000 (-23) ∧ fpF32.read 0xFF800000 = .inf true ∧
    (fpF32.read 0x7FC00000).isNan = true ∧ (fpF32.read 0x7F800001).isSignalling = true) ∧ ftypeFp .f32 = fpF32 := by decide +kernel

/-- A value below the top of a format, the tie at its top, one past it, and the exponents of a block. -/
theorem test_hyp_RoundingBoundsTheExactValue :
    (fpOf .f32 = some fpF32 ∧ fpF32.read fpF32.maxEnc = .fin false 0xFFFFFF 104 ∧ fpOf .e2m1 = some fpE2m1 ∧
      fpE2m1.read fpE2m1.maxEnc = .fin false 3 1 ∧ intOf .n4 = some (4, false) ∧ intOf .i8 = some (8, true)) ∧
    (let top : ℚ := 3 * (2 : ℚ) ^ (1 : Int)
     let u : ℚ := (2 : ℚ) ^ (1 : Int)
     ¬(top + u / 2 < 7 - 1 ∨ (top + u / 2 = 7 - 1 ∧ 3 % 2 = 1)) ∧ (top + u / 2 = 7 ∧ 3 % 2 = 1) ∧ top < 7 ∧ ¬top + u ≤ 7 ∧ top + u ≤ 8) ∧
    ((2 : ℚ) ^ (2 : Int) ≤ 5 ∧ (5 : ℚ) < (2 : ℚ) ^ ((2 : Int) + 1)) ∧
    (List.replicate 32 (true, 5, (0 : Int))).length = 32 := by
  refine ⟨by decide +kernel, by norm_num, by norm_num, by decide⟩

theorem test_hyp_VectorFloatingPointResults : s0.Quiet [.v 31, .v 30, .v 29] ∧ s0.cur.namedV 31 = false := by
  simp only [State.Quiet]; decide +kernel

theorem test_hyp_ReductionsOverActiveElements : s0.Quiet [.v 31, .v 30] ∧ s0.cur.namedV 31 = false := by
  simp only [State.Quiet]; decide +kernel

theorem test_hyp_FormatInstructionsConsumeThePrefix :
    (∀ s ∈ [s0, s0Pp], s.touches [.v 31, .v 30, .v 29] = false ∧ s.cur.namedV 31 = false) ∧
    (packedFormats .e4m3 .e4m3 .e4m3 = true ∧ packedFormats .i8 .i8 .i8 = true ∧ packedFormats .e4m3 .i8 .e4m3 = false) ∧
    (convertible .f32 .f32 = true ∧ (0 : BitVec 3).toNat < partsOf .f32 ∧ s0.cur.fc = none) ∧
    (convertible .f32 .b8 = true ∧ kindOf .f32 = .fp ∧ kindOf .b8 = .block ∧ partsOf .b8 ≠ 0) ∧
    (convertible .t5 .f32 = false ∧ partsOf .f32 ≤ (1 : BitVec 3).toNat) := by
  decide +kernel

theorem test_hyp_TernaryUnpackAndPackResults : (s0.Quiet [.v 31, .v 30] ∧ s0.cur.namedV 31 = false) ∧
    ((4 : BitVec 5).toNat < 5 ∧ 5 ≤ (5 : BitVec 5).toNat ∧ (0 : BitVec 5).toNat < ttypeParts .i8 ∧ ttypeParts .i8 ≤ (31 : BitVec 5).toNat) := by
  simp only [State.Quiet]; decide +kernel

theorem test_hyp_VectorLoopsRunTheirBody :
    (tsrPp s0.cur.tsr = false ∧ s0.touches [s0.cur.keyS 8] = false ∧ s0.cur.seq.active = false ∧ s0.cur.namedS 16 = false) ∧
    (((regs [(8, 0)]).cur.getS 8).toNat = 0 ∧ 0 < ((regs [(8, 0xFFFF_FFFF)]).cur.getS 8).toNat ∧
      ((regs [(8, 0xFFFF_FFFF)]).cur.getS 8).toNat < 2 ^ 32 ∧ 2 ^ 32 ≤ ((regs [(8, 0x1_0000_0000)]).cur.getS 8).toNat) ∧
    (s0.modCur fun u => { u with seq := { active := true } }).cur.seq.active = true := by decide +kernel

theorem test_hyp_DecodeOfEncode : (Instr.lbank 20 21 22).wf = true ∧ (encode (.lbank 20 21 22)).isSome = true ∧
    (Instr.acas 1 16 8 (.reg 10) .q).wf = true ∧ (encode (.acas 1 16 8 (.reg 10) .q)).isSome = true := by decide +kernel

theorem test_hyp_ChecksOfInstructionsAndAccesses_order :
    (tsrSup s0.cur.tsr = false ∧ tsrPp s0Pp.cur.tsr = true ∧ tsrPp s0Pend.cur.tsr = false ∧
      s0Pend.touches (s0Pend.cur.keysS [16, 8, 9]) = true ∧ s0Pend.touches (s0Pend.cur.keysS [16, 9]) = true) ∧
    (let s := regs [(9, 0x2000)]
     s.Quiet (s.cur.keysS [1, 8, 9]) ∧ s.cur.namedS 1 = true ∧ s.Reaches (s.cur.getS 9 + offsetOf (.short 0) 8) 8 8) := by
  simp only [State.Quiet, State.Reaches]; decide +kernel

/-- The unit and tables of `mapped`, with job 0 valid. -/
noncomputable def valid : State := mapped.setBytes 24 (bytesOf 8 0x8000_0000_0000_0000)
/-- The conditions of a step on the state in which a unit's turn begins, those of a fetch, and the bundle that it then reads. -/
def turnBegins (z : State) : Bool :=
  let t := State.modCur z.tryPends Unit.completeClosed
  decide (z.cur.gang ≤ 1) && !z.cur.idle && !z.mayCancel && !z.mayStop && t.cur.pend.isEmpty && !t.cur.marked && t.cur.raising.isNone &&
    t.cur.owed.isEmpty && t.cur.owedMatrix.isEmpty && t.cur.mail.isEmpty && t.cur.commit.isNone && t.cur.wait == .run &&
    !t.cur.retCommit && !t.cur.blocked && !t.cur.wain
def fetches (z : State) : Bool :=
  let t := State.modCur z.tryPends Unit.completeClosed
  t.cur.fetched.isNone && t.cur.bodyPlace.isNone && (rangeCheck t.cur.pc).isNone && !t.loftRefused t.cur.pc 8
def bundleRead (z : State) (l : List Byte) : Bool :=
  let t := State.modCur z.tryPends Unit.completeClosed
  !t.cur.inAperture t.cur.pc && match t.translate (sliceDie t.cur.loc.die) t.cur.job t.cur.pc.toNat .fetch (tsrSup t.cur.tsr) t.cur.secure with
  | (v, .ok pa _ _) => v.isLocal pa && v.homeRead t.cur.secure pa 8 == .bytes l
  | _ => false
/-- A state once TIME has passed and the turn of the core has gone on to the next slot. -/
def turned (s : State) : State := (s.tick.rotate s.tick.cur.loc).getD s.tick
def turns (s : State) : Prop :=
  s.stopped = false ∧ s.midBundle = false ∧ s.tick.boot = .running ∧ s.tick.nextKick = none ∧ s.tick.nextPacket = none ∧
    s.tick.agenda = [] ∧ (s.tick.rotate s.tick.cur.loc).isSome = true

/-- The unit at the C-slot of its bundle, `call p0, 4`, and another at the A-slot of its bundle, `add s1, s0, s0`. -/
theorem test_hyp_StepRunsTheDecodedInstruction_cslot :
    turns mapped ∧ turnBegins (turned mapped) = true ∧ fetches (turned mapped) = true ∧
    bundleRead (turned mapped) [4, 0, 0, 0x44, 0, 0, 0, 0] = true ∧ (turned mapped).cur.aslot = false ∧
    (turned mapped).cur.readC 0x44000004 0 = .instr (.call 0 4) ∧ (turned mapped).cur.readA 0 ≠ .illegalEncoding ∧
    (turned mapped).cur.bodyPlace.isSome = false := by simp only [turns]; decide +kernel

theorem test_hyp_StepRunsTheDecodedInstruction_aslot :
    let s := State.reset.withFetchWord 32 0x08200000
    turns s ∧ turnBegins (turned s) = true ∧ fetches (turned s) = true ∧ bundleRead (turned s) [0, 0, 0, 0, 0, 0, 0x20, 8] = true ∧
    (turned s).cur.aslot = true ∧ (turned s).cur.readC 0 0x08200000 ≠ .illegalEncoding ∧ lone 0 = false ∧
    (turned s).cur.readA 0x08200000 = .instr (.add 1 0 0 0) := by simp only [turns]; decide +kernel

/-- A unit that holds the words of its bundle between the slots, and one whose bundle of two `nop`s stands in its bank. -/
def between : State := s0A.modCur fun u => { u with turn := .ran, fetched := some (0, 0x08200000) }
def inBank : State := { scratch [] with boot := .running }.modCur fun u => { u with pc := 0x80_0000_0008_0000 }
theorem test_hyp_StepRunsTheDecodedInstruction_held :
    between.stopped = false ∧ between.midBundle = true ∧ turnBegins between = true ∧
    (State.modCur between.tryPends Unit.completeClosed).cur.fetched = some (0, 0x08200000) ∧
    between.cur.readA 0x08200000 = .instr (.add 1 0 0 0) := by decide +kernel

theorem test_hyp_StepRunsTheDecodedInstruction_bank :
    turns inBank ∧ turnBegins (turned inBank) = true ∧ fetches (turned inBank) = true ∧
    (let t := State.modCur (turned inBank).tryPends Unit.completeClosed
     t.cur.inAperture t.cur.pc = true ∧ t.apertureWaits t.cur.pc = false ∧ t.lockedAgainst (t.paOf (t.cur.loftAddr t.cur.pc)) 8 = false ∧
      t.bytes (t.cur.loftAddr t.cur.pc) 8 = [0, 0, 0, 0, 0, 0, 0, 0]) ∧ (turned inBank).cur.readC 0 0 = .instr .nop := by
  simp only [turns]; decide +kernel

def hostSide : State := { State.reset with boot := .running }
/-- The request of another module for this one. -/
def ask0 : Packet := { dst := 0, src := 3, sdie := 0, lseq := 0, exp := 1000, addr := 0x2000, data := [8, 0, 0, 0, 0, 0, 0, 0] }
/-- An access waits at hub 0 for its place at the host. -/
def atHub (op : AtomOp) (commit := false) (store : Option (List Byte) := none) (asker := ScFrom.unit) : State := hostSide.setHub 0 { State.reset.hub 0 with
  hacap := BitVec.allOnes 64
  atomics := [{ loc := ⟨0, 0, 0, 0⟩, op, t := .d, ea := 0x2000, pa := hostBase, y := 1, cmp := 0, pend := 1, commit, store, asker }] }

theorem test_hyp_KicksActOnQueuesJobsAndRegions :
    (hubOfQueue (0 : BitVec 6).toNat = 0 ∧ hubOfQueue (63 : BitVec 6).toNat ≠ 0) ∧
    ((4095 : BitVec 32).toNat < 4096 ∧ State.reset.ended.contains 4095 = false) ∧
    ((0x3FFFF : BitVec 32).toNat < 2 ^ 18 ∧ ((State.reset.hub 0).region 63).state = 0 ∧ 0 ≠ 1) ∧
    ((((State.reset.setHub 0 { regions := [(63, { state := 2 })] }).hub 0).region 63).state = 2 ∧
      (State.reset.setHub 0 { regions := [(63, { state := 2 })] }).regionBusy 0 63 = false) ∧
    (let s := (atHub .add).setHub 0 { (atHub .add).hub 0 with regions := [(0, { state := 2, base := BitVec.ofNat _ hostBase, size := 1 })] }
     ((s.hub 0).region 0).state = 2 ∧ s.regionBusy 0 0 = true) := by decide +kernel

/-- A launch record of KIND 1: header at 0x3000, one unit, gang and weight 1, cluster 0 of die 0. -/
def launchWords : List Word := [0x0100_0000_0000_3000, 0x0000_0001_1180_0000, 0, 0, 0, 0, 0x0010_0001_0000_0000, 0]
def cpOk {α : Type} : CpRes α → Bool
  | .ok _ _ => true
  | _ => false
noncomputable def withQueue (k : Queue) : State := valid.setQueue 0 { k with state := 1 }
def replayWords : List Word := [0x0300_0000_0000_3000, 0, 0, 0, 0, 0, 0, 0]
def phaseWords : List Word := [0x0400_0000_0000_3000, 0, 0, 0, 0, 0, 0, 0]

def captured0 : Captured := { graphs := [(0x3000, 0, false)], patches := [] }
/-- A served replay that waits to start. -/
def served0 : GraphRec := { id := 1, counter := 0, reent := false, queue := 0, job := 0, graph := 0x3000, patches := [] }
def pushed0 : Pushed := { mark := 0, words := launchWords }
theorem test_hyp_RecordsAndLaunchesGoTheirWay_head :
    (∀ p ∈ [pushed0, { pushed0 with words := replayWords, captured := some captured0 }, { pushed0 with words := replayWords }],
      let k := (withQueue { pushed := [p] }).queue 0
      k.state = 1 ∧ k.record = none ∧ k.cancelTo.toNat ≤ k.head.toNat ∧ k.pushed = p :: [] ∧ p.cancelled = false ∧ p.mark ≤ k.head.toNat) ∧
    (ringRecKind launchWords ≠ 3 ∧ ringRecKind launchWords ≠ 4 ∧ ringRecKind replayWords = 3) ∧
    (let s := withQueue { base := 0x3000, size := 1, kicked := 1 }
     let k := s.queue 0
     k.state = 1 ∧ k.record = none ∧ k.cancelTo.toNat ≤ k.head.toNat ∧ k.pushed = [] ∧ k.head.toNat < k.kicked.toNat ∧
      (match s.cpRead (hubOfQueue 0) 0 k.job (ringRecord k) with
       | .ok ws _ => ringRecKind ws == 0
       | _ => false) = true) ∧
    (let s := s0.modCur fun u => { u with q11 := List.replicate 8 0 }
     (s.units.find? fun u => u.loc == ⟨0, 0, 0, 0⟩ && u.hasRecord) = some s.cur ∧ s.cur.q11.length = 8 ∧
      (s.launch? s.cur.launch).bind s.ownQueue = some 0) := by decide +kernel

theorem test_hyp_RecordsAndLaunchesGoTheirWay :
    (let s := withQueue { record := some launchWords }
     ((s.arbitrateQueues 0).map fun x => (x.1.resume, x.1.queue)) = some (none, 0) ∧ (s.queue 0).captured = none) ∧
    ((((withQueue { resumeSince := [(1, 0)] }).arbitrateQueues 0).map fun x => x.1.resume) = some (some 1)) ∧
    (let s := withQueue { record := some replayWords, captured := some captured0 }
     ((s.arbitrateQueues 0).map fun x => (x.1.resume, x.1.queue)) = some (none, 0) ∧ (s.queue 0).captured = some captured0) ∧
    ((withQueue { record := some replayWords }).captureQueue 0 3 = some (0, .head, replayWords, false) ∧
      (withQueue { record := some phaseWords }).captureQueue 0 4 = some (0, .head, phaseWords, false)) ∧
    (let s := State.setHub (withQueue {}) 0 { State.reset.hub 0 with graphs := [served0] }
     s.captureQueue 0 3 = none ∧ ((s.hub 0).graphs.find? fun g => s.mayReplay 0 g) = some served0) := by
  decide +kernel

theorem test_hyp_RecordsAndLaunchesGoTheirWay_launches :
    (let s := { valid with cur := {}, launches := [launch0], waiting := [⟨1, 0, none⟩] }
     (s.placeFirst s.waitingLaunches).isSome = true ∧ s.placeFirst [] = none) ∧
    (let s := { State.reset with launches := [launch0] }
     s.launch? 1 = some launch0 ∧ s.launchBusy launch0 = false ∧ launch0.node = none ∧ launch0.queue = some 0 ∧
      (let l := { launch0 with node := some (1, 0) }
       ({ s with launches := [l] } : State).launchBusy l = false)) ∧
    (let s := { s0 with time := 100000000 }
     s.launch? 1 = some launch0 ∧ s.wdt ≠ 0 ∧ s.counts 1 = true ∧ 1000 * s.wdt.toNat ≤ s.time.toNat - launch0.progress.toNat) := by
  decide +kernel

/-- A node of a TYPE without predecessors or successors, with the words 4 to 6, and its replay. -/
def node (typ : Nat) (l : List Word) : Node := { words := [word (typ * 2 ^ 56), BitVec.allOnes 64, 0, 0] ++ l }
def replay1 (n : Node) : Replay :=
  { id := 1, hub := 0, queue := 0, job := 0, graph := 0, counter := 0, reent := false, nodes := [n, node 4 [0, 1]] }
noncomputable def replaying (n : Node) : State := { valid with replays := [replay1 n] }
def nodeReady (n : Node) (t : Nat) : Prop :=
  (replay1 n).node? 0 = some n ∧ (replay1 n).ready 0 0 = true ∧ nodeRefused (replay1 n).nodes 0 n = false ∧ n.typ = t

theorem test_hyp_NodesOfAReplayAct :
    ((replaying (node 4 [0, 1])).replay? 1 = some (replay1 (node 4 [0, 1])) ∧ nodeReady (node 4 [0, 1]) 4) ∧
    (let n := node 8 []
     (replaying n).replay? 1 = some (replay1 n) ∧ (replay1 n).node? 0 = some n ∧ (replay1 n).ready 0 0 = true ∧
      nodeRefused (replay1 n).nodes 0 n = true) ∧
    (nodeReady (node 3 [0, 0]) 3 ∧ ((node 3 [0, 0]).w 5).toNat ≤ bits (State.reset.counter 0).word 62 0) ∧
    (nodeReady (node 3 [0, 1]) 3 ∧ bits (State.reset.counter 0).word 62 0 < ((node 3 [0, 1]).w 5).toNat ∧
      (State.reset.counter 0).word.getLsbD 63 = false) ∧
    (nodeReady (node 2 [0, 0, 0, 0, 0, 0, 0, 0]) 2 ∧ (node 2 []).state ≠ .running) ∧
    (nodeReady (node 5 [0x3000]) 5 ∧
      cpOk ((replaying (node 5 [0x3000])).cpRead 0 (itemOf 1 0) 0 (engWords ((node 5 [0x3000]).w 4).toNat 1)) = true) ∧
    (let n := node 6 [0x3000, 0x1_0001_0001, 1]
     nodeReady n 6 ∧ (replay1 n).bodyRuns n = false ∧ n.dw = true ∧ n.iters = 0) ∧
    (let n := node 6 [0x3000, 0x1_0001, 1]
     nodeReady n 6 ∧ (replay1 n).bodyRuns n = false ∧ n.dw = false ∧
      cpOk ((replaying n).cpRead 0 (itemOf 1 0) 0 (engWords (n.w 4).toNat 1)) = true) ∧
    (let n := node 7 [0x3000, 0, 1]
     nodeReady n 7 ∧ cpOk ((replaying n).cpRead 0 (itemOf 1 0) 0 (engWords (n.w 4).toNat (n.w 6).toNat)) = true) := by
  simp only [nodeReady]; decide +kernel

theorem test_hyp_NodesOfAReplayAct_launch :
    let n := node 1 ([0, 0, 0, 0] ++ launchWords)
    let s := replaying n
    let ws := (n.words.drop 8).take 8
    nodeReady n 1 ∧ s.depMet ws = true ∧ s.recordBad 0 ws = false ∧
    (match s.cpRead 0 (itemOf 1 0) 0 (engWords (recHdr ws) 8) with
     | .ok h t => !t.headerBad 0 ws h
     | _ => false) = true := by simp only [nodeReady]; decide +kernel

def stopped0 : Machine.Unit := { unit0 with taken := true, wait := .stopped }
def away0 : Machine.Unit := { unit0 with taken := false, away := true }
def pend0 (left : Nat) : Pend := { id := 1, dests := [.s 16], values := some [5], act := .answer, left, hold := false, pc := 0 }

theorem test_hyp_UnitsBetweenTheirInstructions :
    (∀ w ∈ [Wait.run, .atTime 5, .bar 3 0],
     let s := s0.modCur fun u => { u with owed := [{ trap := .brk, faddr := 0, late := true }], wait := w }
     s.cur.owed = { trap := .brk, faddr := 0, late := true } :: [] ∧ (true && s.cur.aslot) = false ∧ s.cur.visible = false ∧
      s.cur.wait.yields = true ∧ s.settled = true) ∧
    (let s := s0.modCur fun u => { u with owedMatrix := [5] }
     s.cur.owedMatrix = 5 :: [] ∧ s.owesMatrix = true ∧ s.settled = true) ∧
    (s3.cur.saved.length = 3 ∧ s3.cur.saved.getLast? = some win0 ∧ s3.touches s3.cur.oldestKeys = false ∧
      s3.cur.lsb.toNat + 8192 + 128 ≤ s3.cur.wsp.toNat) ∧
    (let s := s0.modCur fun u => { u with marked := true }
     s.cur.marked = true ∧ s.cur.visible = false ∧ s.cur.task.nonspec = false ∧ s.cur.aslot = false) ∧
    (let s := s0.modCur fun u => { u with wait := .nonspec }
     s.token = none ∧ s.mayRunAlone s.cur = true ∧ (s.others.any fun u => s.mayRunAlone u && waitsBefore u s.cur) = false) ∧
    ((s0.modCur fun u => { u with cancelled := true }).mayCancel = true ∧ s0.settled = true) ∧
    (let s := s0.modCur fun u => { u with taken := true }
     (s.focus ⟨0, 0, 0, 0⟩).cur.loc = ⟨0, 0, 0, 0⟩ ∧ (s.focus ⟨0, 0, 0, 0⟩).mayStop = true) ∧
    ((s0.setCur stopped0).draining (coreId ⟨0, 0, 0, 0⟩) = true) ∧
    (let s := State.setQueue { State.reset with others := [away0], launches := [launch0] } 0 { resuming := [1] }
     (s.units.find? fun u => u.loc == ⟨0, 0, 0, 0⟩ && u.away && (s.queues.any fun q => q.2.resuming.contains u.launch)) = some away0 ∧
      s.resumeSet away0 = [away0] ∧ s.slotFreeFor away0 = true ∧ s.slotsHeld 0 + 1 ≤ s.maxSlot 0) ∧
    (let s := s0.modCur fun u => { u with pend := [pend0 0] }
     s.cur.pend = [pend0 0] ∧ s.cur.aslot = false ∧ (pend0 0).values = some [5] ∧ (pend0 0).failed = none ∧ (pend0 0).left = 0) ∧
    ((pend0 1).hold = false ∧ 0 < (pend0 1).left) := by decide +kernel

theorem test_hyp_UnitsBetweenTheirInstructions_commit :
    let s := s0.modCur fun u => { u with commit := some (.tcommit, false) }
    (s.cur.commit = some (.tcommit, false) ∧ (s.cur.marked && !s.cur.visible && !s.cur.task.nonspec) = false ∧ s.cur.mail = []) ∧
    ∃ t, s.CommitsTo .tcommit false t := ⟨by decide +kernel, commits (by decide +kernel)⟩

/-- The translation that a slice holds for `xl0`. -/
def tlb0 : Tlb := { slice := sliceOf 0x2000, base := 0, size := 0x400_0000, job := some 0, pbase := 0, leaf := ncPage, expiry := 1000 }
noncomputable def sliced : State := mapped.setDie 0 { State.reset.die 0 with tlb := [tlb0] }
/-- The first 64 KiB of HBM belong to the secure world. -/
def region0 : List (Nat × Word × Word) := [(0, 0xC000_0000_0000_0000, 1)]
/-- How a home answers a read. -/
def answered : Answer → Nat
  | .bytes _ => 1
  | .fault _ => 2
  | .wait => 3

theorem test_hyp_SlicesHomesAndHosts :
    (sliced.sliceHit (sliceDie 0) xl0 = true ∧ (sliced.depart (sliceDie 0) xl0 0).isSome = true) ∧
    (mapped.sliceHit (sliceDie 0) xl0 = false ∧ mapped.walks = []) ∧
    (let w : Walk := { slice := sliceOf 0x2000, die := sliceDie 0, reqs := [xl0] }
     let s := { mapped with walks := [w] }
     s.walks = w :: [] ∧ s.sliceHit (sliceDie 0) xl0 = false ∧ s.walkFor (sliceDie 0) 0 0x2000 w = true ∧ w.reqs = [xl0] ∧ w.joined = [] ∧
      walked (s.unfocus.walkLeaf 0 0x2000) ≠ 4) ∧
    (let f : Flight := { req := xl0, pa := 0x2000, expiry := 1, refusals := 0 }
     mapped.isLocal f.pa = true ∧ mapped.time.toNat < f.expiry ∧ ((mapped.acceptAt f).map (·.2)) = some none) ∧
    (Sparse.find? (State.reset.die 0).skew 3 = none) ∧
    (let pa := hostSide.bar2 0 0
     hostSide.boot = .running ∧ hostSide.anyLock pa 8 = false ∧ answered (hostSide.homeRead false pa 8) = 1 ∧
      answered (State.homeRead { hostSide with secureRegions := region0 } false pa 8) = 2 ∧
      hostSide.writeRefused false false pa = none ∧ pa % 8 = 0 ∧ pa % 16 = 0 ∧ ofBytes (hostSide.homeGet pa 8) = 0) ∧
    (∀ x ∈ [ScFrom.unit, .packet ask0], (((atHub .add false none x).hub 0).atomics.map fun a => (a.store, a.asker)) = [(none, x)]) ∧
    (((atHub .add false (some [1, 2, 3, 4])).hub 0).atomics.map (·.store)) = [some [1, 2, 3, 4]] ∧
    (((atHub .add).hub 0).atomics.length = 1 ∧ (atHub .add).hostCompletes (localOf hostBase) .add .d = true ∧
      (atHub .add).writeRefused true false hostBase = none ∧ (((atHub .add true).hub 0).atomics.map (·.commit)) = [true]) := by decide +kernel

/-- A copy of eight words to itself, and a run of it in a phase of its life. -/
def run0 (f : CopyRun → CopyRun) : State :=
  s0.setCluster 0 { State.reset.cluster 0 with running := [f { req := req0, f := [], s := [], start := 0 }] }
def timed : CopyRun := { req := { req0 with w2 := 2 ^ 63 }, f := [0], s := [0], start := 5 }

theorem test_hyp_CopyAndRopeEnginesGoOn :
    (let s := s0.modCur fun u => { u with copies := [req0] }
     (s.cluster 0).running.length < 4 ∧ nextKey (s.cluster 0).rotation (s.copyHeads 0) = some req0 ∧ req0.node = none ∧
      req0.badWords = false ∧ { req0 with w0 := 2 ^ 56 }.badWords = true) ∧
    (let s := { s0.setCluster 0 { State.reset.cluster 0 with running := [timed] } with time := 5 }
     ((s.cluster 0).running.find? fun r => r.req.ts && !r.f.isEmpty && r.status.isNone && decide (r.start ≠ 0) &&
       decide (r.start ≤ s.time.toNat)) = some timed) ∧
    ((run0 id).cluster 0).running.any (fun r => (r.status.isNone || r.pushing) && !r.isOver) = true ∧
    (let s := run0 fun r => { r with status := some (12, 0, 0) }
     s.endingNext 0 = none ∧ ((s.cluster 0).running.find? CopyRun.ended).map (·.status) = some (some (12, 0, 0)) ∧ s.copyRoom req0 = true ∧
      (∀ x ∈ s.remotes, (x.loc == req0.loc) = false)) ∧
    (s0.setCluster 0 { State.reset.cluster 0 with ending := [req0] }).endingNext 0 = some req0 ∧
    (let s := State.reset.setDie 0 { State.reset.die 0 with q5 := [ropeCmd .rcat] }
     (s.die 0).rope = none ∧ (s.die 0).q5 = ropeCmd .rcat :: [] ∧ s.ropeWaits 0 (ropeCmd .rcat) = false) ∧
    (let r : RopeRun := { cmd := ropeCmd .rcat, ended := some (0, 0, [0, 0, 0]) }
     let s := State.reset.setDie 0 { State.reset.die 0 with rope := some r }
     (s.die 0).rope = some r ∧ s.ropeFault 0 = false ∧ r.ended = some (0, 0, [0, 0, 0]) ∧ r.buf = [] ∧ r.cmd.form = .returning ∧
      (∀ x ∈ s.remotes, (x.loc == ropeLoc 0) = false)) ∧
    (let s := State.reset.setBytes (State.reset.directoryPa 1) (bytesOf 8 0x0200_0000_0000_0000)
     let d := DirEntry.ofBytes (s.bytes (localOf (s.directoryPa 1)) 32)
     d.state = 2 ∧ d.hzn.toNat ≤ s.time.toNat) := by decide +kernel

/-- Whether the work of an engine completes. -/
def engOk {α : Type} : EngRes α → Bool
  | .ok _ _ => true
  | _ => false

/-- A copy of one point of four bytes, at an address that is mapped, whose records have been read. -/
noncomputable def copied : State :=
  ((valid.setBytes 0x6000 (bytesOf 8 ncPage.toNat)).setBytes 0x10_0000 (bytesOfWords [0, 0x1_0001_0001_0001])).setBytes 0x10_0040 (bytesOfWords [0x3400_0000_0010_0100, 0x1_0001_0001_0001])
def reqPoint : CopyReq := { req0 with w0 := 0x10_0000, w1 := 0x10_0040, w2 := 0x10_0200 }
def fPoint : List Word := [0, 0x1_0001_0001_0001, 0, 0, 0, 0, 0, 0]
def sPoint : List Word := [0x3400_0000_0010_0100, 0x1_0001_0001_0001, 0, 0, 0, 0, 0, 0]
def runPoint : CopyRun := { req := reqPoint, f := fPoint, s := sPoint, start := 0 }

theorem test_hyp_CopyAndRopeEnginesGoOn_copy :
    reqPoint.badWords = false ∧
    (match EngM.result (readRecords reqPoint) (copied.copySt { req := reqPoint, f := [], s := [], start := 0 }) with
     | .ok x _ => x == (fPoint, sPoint, none)
     | _ => false) = true ∧
    (let s := copied.setCluster 0 { copied.cluster 0 with running := [runPoint] }
     s.copyFaulted runPoint = false ∧ (∀ x ∈ s.remotes, (x.loc == reqPoint.loc) = false) ∧
     (match EngM.result (chunkWork 0 runPoint) ((s.dropWrites reqPoint.loc).copySt runPoint) with
      | .ok c v => c.points == 1 && v.unlocked
      | _ => false) = true) ∧ runPoint.req.ts = false := by decide +kernel
/-- A rope of one leaf of 16 elements: its node is granule 8 of the pool of job 0 at 0x100000, its piece granule 1, its block 0. -/
noncomputable def roped : State :=
  let n : RNode := { level := 1, kind := { decl := 0, eszq := 0, soff := 0 }, ref := 1, ents := [{ child := 1, len := 16, base := 0, vals := [] }] }
  State.setCluster ((valid.setBytes 8 (bytesOfWords [0x10_0000, 64])).setBytes 0x10_0400 n.bytes) 0
    { State.reset.cluster 0 with config := [(1, 0x12)] }
def walk0 : RopeRun := { cmd := { ropeCmd .rwalk with a := 8, c := 16, d := 1 } }

theorem test_hyp_CopyAndRopeEnginesGoOn_rwalk :
    let s := roped.setRope 0 (some walk0)
    (s.die 0).rope = some walk0 ∧ walk0.cmd.fn = .rwalk ∧ walk0.ended = none ∧ s.ropeFault 0 = false ∧ s.pushWalk walk0 false = (s, walk0, true) ∧
    (match EngM.result ((walkNext walk0.cmd walk0.walked).run' {}) (s.engSt 0 walk0.cmd) with
     | .ok (some _) _ => true
     | _ => false) = true := by decide +kernel

/-- A sum over an empty rope is work that completes at once. -/
theorem test_hyp_CopyAndRopeEnginesGoOn_rope :
    let r : RopeRun := { cmd := ropeCmd .rsum }
    let s := roped.setRope 0 (some r)
    (s.die 0).rope = some r ∧ s.ropeFault 0 = false ∧ r.ended = none ∧ r.cmd.fn ≠ .rwalk ∧ r.buf = [] ∧
    (match EngM.result ((ropeWork r.cmd).run' {}) (s.engSt 0 r.cmd) with
     | .ok _ v => v.unlocked && (s.claim v).2 == .done && v.perform.remotes.isEmpty && r.cmd.form == .returning &&
         v.log.all fun w => w.before.isNone || s.isLocal w.pa
     | _ => false) = true := by decide +kernel

/-- A command of the product array (or of the ternary one) whose first row stands in q2, and a core that holds it. -/
def cmd0 (product : Bool) : MatCmd :=
  { creg := 0, cw := if product then 4 else 0, fa := .bf16, fb := if product then .bf16 else .t5, by' := s0.issuer, weight := 1, id := 9 }
def core0 (c : MatCmd) : Core :=
  { q1 := [c], q2 := List.replicate 16 (0, List.replicate 128 0), tileQ := [(0, [.cmd 9])] }
def arrayed (c : MatCmd) : State := s0.setCore 0 (core0 c)
/-- A weight byte of the block that is no group of five trits. -/
def badWeights : State := (arrayed (cmd0 false)).setBytes (granaryBase 0 0) [0xFF]
def block0 (s : State) (product : Bool) : List Byte :=
  s.bytes (granaryBase 0 0 + (cmd0 product).blockAt 0) (64 * blockWords product (cmd0 product).fb 0)

theorem test_hyp_ArraysTilesAndBanksGoOn_grant :
    let s := arrayed (cmd0 true)
    s.powerHold = false ∧ ((s.cluster 0).array true).granted = none ∧ s.arrayHeld 0 true = false ∧ (s.arbitrate 0 true).isSome = true ∧
      (s.core 0).next true = some (cmd0 true) ∧ (cmd0 true).badBlock (block0 s true) = none := by decide +kernel

theorem test_hyp_ArraysTilesAndBanksGoOn_refusedWeights :
    let s := badWeights
    s.powerHold = false ∧ ((s.cluster 0).array false).granted = none ∧ s.arrayHeld 0 false = false ∧ (s.arbitrate 0 false).isSome = true ∧
      (s.core 0).next false = some (cmd0 false) ∧ ((cmd0 false).badBlock (block0 s false)).isSome = true := by decide +kernel

/-- The step of a command, granted: its next row stands in q2, and is a row of scales where the command asks for one. -/
def granted (c : MatCmd) (product : Bool) : State :=
  let s := arrayed c
  s.setCluster 0 ((s.cluster 0).setArray product { cur := 0, count := 1, granted := some 9 })

theorem test_hyp_ArraysTilesAndBanksGoOn_row : ∀ product : Bool, ∀ c ∈ [cmd0 product, { cmd0 product with cw := (cmd0 product).cw ||| 32 }],
    let s := granted c product
    s.arrayHeld 0 product = false ∧ ((s.cluster 0).array product).granted = some 9 ∧ s.coreWith 0 9 = some (0, c) ∧ c.ended = false ∧
    (match (s.core 0).nextRead c with
     | some (_, _, bytes, _) => c.wantsScales || ((valuesIn c.fa (segmentSize product) bytes).isSome && !c.cancelled)
     | none => false) = true := by decide +kernel
theorem test_hyp_ArraysTilesAndBanksGoOn_scales : ∃ c : MatCmd, c.wantsScales = true ∧ c = { cmd0 true with cw := (cmd0 true).cw ||| 32 } :=
  ⟨_, by decide +kernel, rfl⟩

def move0 : TileMove := { loc := ⟨0, 0, 0, 0⟩, get := true, row := 0, seg := 0, vreg := 31, value := 0 }
def zeroing0 : State := (s0.setCluster 0 { State.reset.cluster 0 with zeroing := [13] }).modCur fun u => { u with wait := .lbank 16 13 none }

theorem test_hyp_ArraysTilesAndBanksGoOn :
    (let c := { cmd0 false with cw := 0x40, drained := 1, seg := 1 }
     let s := arrayed c
     ((s.arrayCmds 0 false).find? fun x => x.2.pushes && s.q3Room x.2) = some (0, c)) ∧
    (let c := { cmd0 false with ended := true }
     let s := arrayed c
     (∀ x ∈ s.arrayCmds 0 false, x.2.acc = [] ∧ (x.2.outOver && !x.2.outDone) = false) ∧ ((s.arrayCmds 0 false).find? fun x => s.mayReport 0 x.1 x.2) = some (0, c)) ∧
    ((Sparse.find? ({ tileQ := [(0, [.move move0])] } : Core).tileQ 0).getD [] = .move move0 :: []) ∧
    ((zeroing0.cluster 0).zeroing.contains 13 = true ∧ zeroing0.cur.placed = true ∧ zeroing0.cur.away = false ∧ zeroing0.cur.clusterId = 0 ∧
      zeroing0.cur.wait = .lbank 16 13 none) ∧
    ({ s0 with powerHold := true } : State).powerHold = true := by decide +kernel

/-- A request of module 3 for this module, the same for the host's region, and the news of an operation of the domain. -/
def pkt0 : Packet := ask0
def hostPkt : Packet := { pkt0 with addr := hostBase }
def news0 : Packet := { pkt0 with data := 0xFF :: 0 :: List.replicate 40 0 }
/-- A flit whose last four bytes are its CRC: a whole packet, number 0, on lane 0. -/
def flit0 : List Byte :=
  let l := List.replicate 48 0 ++ bytesOf 8 (2 ^ 35 + 2 ^ 34) ++ [0, 0, 0, 0]
  l ++ bytesOf 4 (crc32 l)
def remote0 (typ : PktType) : Remote :=
  { sdie := 0, dst := 3, lseq := 0, typ, loc := ⟨0, 0, 0, 0⟩, pa := 0, size := 8, data := [] }
/-- `s0` on a module that the firmware has numbered, and with a request first in its lane. -/
def numbered0 : State := { s0 with numbered := true }
def inLane (t : PktType) (k := pkt0) : State := numbered0.setLane (laneKey k) { numbered0.laneAt (laneKey k) with waiting := [(t, k)] }
/-- A send of this module to its own slot 0 of core 0 of cluster 0 of die 0, and the send that it answers. -/
def sendPkt : Packet := { pkt0 with src := 0, addr := 0, data := [] }
def sending : State := { inLane .send sendPkt with remotes := [{ remote0 .send with dst := 0 }] }

/-- The first of its lane, from a module, or from this one. -/
def firstOf (k : Packet) : Prop :=
  k.dst = numbered0.modid.toNat ∧ (numbered0.laneAt (laneKey k)).next = k.lseq ∧ (numbered0.laneAt (laneKey k)).waiting = [] ∧
    (numbered0.laneAt (laneKey k)).again = []
theorem test_hyp_FabricRequestsBeaconsAndTimedSends :
    (s0.numbered = false ∧ numbered0.numbered = true ∧ { pkt0 with dst := 5 }.dst ≠ numbered0.modid.toNat) ∧
    (firstOf pkt0 ∧ firstOf hostPkt ∧ firstOf sendPkt ∧ firstOf { pkt0 with data := [2, 1, 0] }) ∧
    (∀ t ∈ [PktType.read, .write, .lock, .atomic, .sc],
      let pa := s0.paOf (pkt0.addr % 2 ^ 46)
      (inLane t).leaseOver pkt0.exp = false ∧ (∀ m ∈ [4, 8], (inLane t).blockedAt pa m = false) ∧
      (∀ b : Bool, let w := ((inLane t).packetWorld pkt0).1
        answered (State.homeRead { w with locks := [], remoteLocks := [] } b pa 8) = 1 ∧ w.writeRefused b true pa = none ∧
          w.writeRefused b false pa = none ∧ w.scRefused b (scOpOf 8) pa 4 = none)) ∧
    (isHost (s0.paOf (pkt0.addr % 2 ^ 46)) = false ∧ numbered0.lost = false ∧ pkt0.data.getD 2 0 = 0 ∧ pkt0.data.getD 0 0 ≠ 0xFF ∧ pkt0.addr % 4 = 0) ∧
    (let s := (inLane .atomic hostPkt).setHub 0 { State.reset.hub 0 with hacap := BitVec.allOnes 64 }
     let pa := s.paOf (hostPkt.addr % 2 ^ 46)
     regionOf (localOf pa) = .host 0 ∧ s.hostCompletes (localOf pa) (atomOpOf 8) (atypeOf 0) = true ∧ s.blockedAt pa 4 = false ∧
      ∀ b : Bool, (s.packetWorld hostPkt).1.writeRefused b false pa = none) ∧
    ((sending.sendTarget ⟨0, 0, 0, 0⟩).map (·.secure) = some (sending.senderOf sendPkt).2.2 ∧ sending.lost = false ∧
      sending.roomFor ⟨0, 0, 0, 0⟩ 1 10 = true) ∧
    (news0.dst = numbered0.modid.toNat ∧ news0.data.getD 0 0 = 0xFF ∧ news0.data.getD 1 0 = 0 ∧ numbered0.announced = [] ∧
      ofBytes ((news0.data.drop 10).take 8) = 0 ∧ numbered0.time.toNat < (0 + 1) * 256 + 1000) ∧
    (∀ t ∈ [PktType.read, .send], (({ numbered0 with remotes := [remote0 t] } : State).remotes.find? fun r => r.answers pkt0) = some (remote0 t)) ∧
    ((remote0 .read).typ ≠ .send ∧ (remote0 .read).dropped = false ∧ (remote0 .read).fill = none) := by
  simp only [firstOf]; decide +kernel

theorem test_hyp_FabricRequestsBeaconsAndTimedSends_links :
    (let p := numbered0.port 0
     let f := flitOf flit0
     f.crcGood = true ∧ p.unacked = [] ∧ p.replays = 0 ∧ f.nak = false ∧ f.nul = false ∧ f.sop = true ∧ f.eop = true ∧
      f.seq = p.next ∧ p.buffered f.vl < 512 ∧ (flitOf (1 :: flit0.drop 1)).crcGood = false) ∧
    (let s := { s0.setHub 0 { State.reset.hub 0 with tbctl := 0x31 } with numbered := true }
     (s.hub 0).en = true ∧ (s.hub 0).up = 3 ∧ pkt0.dst = s.modid.toNat ∧
      (∀ n ∈ [(1 : Byte), 8], 1 ≤ ((List.replicate 9 n).getD 8 0).toNat ∧ ((List.replicate 9 n).getD 8 0).toNat ≤ 8) ∧
      8 < ((List.replicate 9 (9 : Byte)).getD 8 0).toNat) ∧
    ((s0.hub 0).en = false ∧ (s0.hub 1).en = false) ∧
    (let s := { s0.setHub 0 { State.reset.hub 0 with tbctl := 0x1F1 } with numbered := true }
     (s.hub 0).en = true ∧ (s.hub 0).up = 31 ∧ ∀ i ∈ upTo 9, (s.port i).takes 4 = true) ∧
    (let s := { s0.setHub 0 { State.reset.hub 0 with tbctl := 0x31 } with time := 8000 }
     (s.hub 0).en = true ∧ (s.hub 0).up ≠ 31 ∧ s.beaconAt.toNat + 8000 ≤ s.time.toNat) := by decide +kernel

/-- An announced operation whose window has ended. -/
def ann0 : ScAnn :=
  { window := 0, scope := .device, module := 0, loc := ⟨0, 0, 0, 0⟩, op := .add, z := .d, pa := 0x2000, y := 1, cmp := 0, ready := 112, pend := 1, ea := 0x2000 }
def msg0 (data : List Byte) : DieMsg := { sdie := 1, ddie := 0, addr := 0x2000, tag := 0, exp := 1000, data }
/-- A flit between dies without a message, number 0, whose last four bytes are its CRC. -/
def dieFlit0 : List Byte := let l := List.replicate 252 0; l ++ bytesOf 4 (crc32 l)

theorem test_hyp_DieMessagesDoTheirWork :
    let t := State.unfocus { s0 with dieIn := s0.dieIn.filter (· ≠ (0, 0, msg0 [8])) }
    (((s0.homeDieOf 0x2000).all fun d => d == (msg0 []).ddie) = true ∧ (msg0 []).ddie < 8 ∧ s0.dieBehind (0, 0, msg0 [8]) = false ∧ t.leaseOver 1000 = false ∧
      (∀ n ∈ [4, 8, 16], t.blockedAt (s0.paOf 0x2000) n = false) ∧
      (∀ b : Bool, let w := t.freeWorld.1
        answered (State.homeRead { w with locks := [], remoteLocks := [] } b (s0.paOf 0x2000) 8) = 1 ∧
        w.writeRefused b false (s0.paOf 0x2000) = none ∧ w.writeRefused b true (s0.paOf 0x2000) = none ∧
        w.scRefused b .add (s0.paOf 0x2000) 4 = none)) ∧
    ({ s0 with dieIn := [(0, 1, msg0 [1]), (0, 0, msg0 [8])] } : State).dieBehind (0, 0, msg0 [8]) = true ∧
    (let a := { ann0 with known := false, asker := .die (msg0 []), loc := ⟨1, 0, 0, 0⟩, pa := s0.paOf 0x2000 }
     let found (t : State) := t.freeWorld.1.announced.find? fun a => !a.known && a.fromDie && a.loc.die == 1 && a.pa == s0.paOf 0x2000
     found { t with announced := [a] } = some a ∧ found t = none) ∧
    (isHost (s0.paOf 0x2000) = false ∧ (msg0 [2, 0, 0]).data.getD 2 0 = 0 ∧ (msg0 [1, 0]).data.getD 0 0 = 1 ∧ (msg0 [1, 0]).data.getD 1 0 = 0) ∧
    ({ msg0 [] with sdie := 6 }.sdie = 6) ∧
    (let s : State := { s0 with topo := [(1, word (2 ^ 56), 0), (8, word (3 * 2 ^ 56 + 1), 0)] }
     let m := { msg0 [1, 2, 3, 4] with ddie := 8 }
     ((s.homeDieOf 0x2000).all fun d => d == m.ddie) = true ∧ s.dieBehind (2, 0, m) = false ∧ 8 ≤ m.ddie ∧ m.data ≠ [] ∧ s.kDies ≠ []) ∧
    (let m : DieMsg := { sdie := 1, ddie := 8, addr := 0, tag := 5, exp := 0, data := [] }
     let a : Nat × Nat × DieMsg := (1, 1, { m with sdie := 8, ddie := 0 })
     let s (l : List Nat) : State :=
      { s0 with dieAsked := [(2, 3, { m with sdie := 8, ddie := 1 })], homeAcks := [{ answer := a, tag := 5, left := l }] }
     let gone (s : State) := s.homeAcks.map fun h => h.left.filter (· ≠ m.sdie)
     (∀ l ∈ [[1], [1, 2]], ((s l).dieAsked.any fun x => x.1 != 4 && x.2.2.tag == m.tag && x.2.2.sdie == m.ddie && x.2.2.ddie == m.sdie) = true ∧
       a.2.2.sdie = m.ddie ∧ (5 : Nat) = m.tag) ∧
     gone (s [1]) = [[]] ∧ gone (s [1, 2]) = [[2]]) ∧
    (let f := dieFlitOf dieFlit0
     let p := s0.diePort 0 0
     f.crcGood = true ∧ f.seq = p.next ∧ p.unacked = [] ∧ p.replays + f.nak.toNat < 8 ∧
      (dieFlitOf (1 :: dieFlit0.drop 1)).crcGood = false) := by decide +kernel

theorem test_last_invack_answers :
    let m : DieMsg := { sdie := 1, ddie := 8, addr := 0, tag := 5, exp := 0, data := [] }
    let a : Nat × Nat × DieMsg := (1, 1, { m with sdie := 8, ddie := 0 })
    (match execDieRspInvack m
        { s0 with dieAsked := [(2, 3, { m with sdie := 8, ddie := 1 })], homeAcks := [{ answer := a, tag := 5, left := [1] }] } with
      | .next t => decide (t.homeAcks = [] ∧ t.dieOut = [a])
      | .fault _ => false
      | .refused _ => false) = true := by decide +kernel

/-- What die 1 declares at its port 4, which is wired to port 5 of die 0. -/
def disc1 : Discover := { kind := 1, die := 1, port := 4, nport := 4, range := 0 }

theorem test_hyp_BootWorldsAndCare :
    (State.reset.boot = .held ∧ State.reset.boot ≠ .running ∧ ({ State.reset with boot := .verified } : State).boot = .verified ∧
      hostSide.boot = .running) ∧
    ((State.reset.diePort 0 5).peer = none ∧ { disc1 with die := 0 }.die = 0 ∧ disc1.die ≠ 0 ∧ Sparse.find? State.reset.topo disc1.die = none ∧
      (State.reset.diePort disc1.die disc1.port).peer = none ∧ State.reset.mayPair 0 5 disc1.die disc1.port = true ∧
      State.reset.mayPair disc1.die disc1.port 0 5 = true ∧ State.reset.mayPair 0 5 5 0 = false ∧
      State.reset.releasedAt.toNat + 100000 ≤ ({ State.reset with time := 100000 } : State).time.toNat) ∧
    ((∀ y ∈ [Block.cluster 0 0, .rope 0, .command 0, .wain 0 0 0, .hostLink 0, .lpddrCopy 0], State.reset.blockIdle y = true) ∧
      s0.blockIdle (.cluster 0 0) = false ∧ Memory.wf State.reset.mem = true) ∧
    (let s := { s0.openWindow 2 (s0.cur.destS 16) none (.far 0x2000 8) with announced := [{ ann0 with pend := s0.ids }], time := 112 }
     let a := { ann0 with pend := s0.ids }
     s.scClean.scNext = some a ∧ a.known = true ∧ a.ready ≤ s.time.toNat ∧ s.scClean.scBlocked a = false ∧
      s.scClean.anyLock a.pa (scBytes a.z) = false ∧ a.asker = .unit ∧ s.scClean.scRefused true a.op a.pa (scBytes a.z) = none ∧
      regionOf (localOf a.pa) = .hbm 0 0x2000) := by decide +kernel

/-! ### Ill-formed terms

One or more for each check of `Instr.wf`. -/

theorem test_wf_atomics : (Instr.acas 0 16 8 (.lit 1) .q).wf = false ∧ (Instr.aadd 0 16 8 (.reg 9) .q).wf = false ∧
    (Instr.aand 0 16 8 (.reg 9) .f32).wf = false ∧ (Instr.aaddN 8 (.reg 9) .q).wf = false ∧ (Instr.acas 0 16 8 (.reg 10) .q).wf = true := by
  decide +kernel

theorem test_wf_slot_fields : (Instr.rcat 1 16 0 .plain).wf = false ∧ (Instr.rcat 1 16 0 .returning).wf = true ∧
    (Instr.wcwait 0 16 17).wf = false ∧ (Instr.vraddw 1 2 0 .d).wf = false := by decide +kernel

theorem test_wf_places : (Instr.copyStart 6 0).wf = false ∧ (Instr.copyStart 5 20).wf = false ∧ (Instr.slotStop ⟨0, 0, 0, 8⟩).wf = false ∧
    (Instr.slotStop ⟨6, 0, 0, 0⟩).wf = false ∧ (Instr.slotStop ⟨0, 0, 10, 0⟩).wf = false ∧ (Instr.tileMovePerform 0 0 8 0).wf = false ∧
    (Instr.lbankZeroDone 0 0 14).wf = false ∧ (Instr.skewCheck 0 32 true).wf = false ∧ (Instr.blockDrainExpire 0 (2 ^ 30)).wf = false ∧
    (Instr.blockWorldSet (.cluster 6 0) 0).wf = false ∧ (Instr.blockWorldSet (.lpddrCopy 64) 0).wf = false := by decide +kernel

theorem test_wf_host_and_hubs : (Instr.submit 2 0 0).wf = false ∧ (Instr.ringRecordRead 64).wf = false ∧ (Instr.hostRead 0 (.bar2 0) 0).wf = false ∧
    (Instr.hostRead 0 (.bar0 0) 4097).wf = false ∧ (Instr.hostRead 0 (.bar0 0xFFFF_FFFF) 2).wf = false ∧ (Instr.hostWrite 0 0 []).wf = false ∧ (Instr.hostCas 0 0 12 0 0).wf = false ∧
    (Instr.rollbackFuseBlow 0 4).wf = false ∧ (Instr.discoverTimeout 0 8).wf = false := by decide +kernel

theorem test_wf_packets_and_messages : (Instr.fabricRead { pkt0 with dst := 1024 }).wf = false ∧
    (Instr.fabricData { pkt0 with lseq := 4096 }).wf = false ∧ (Instr.fabricBeacon 18 pkt0).wf = false ∧
    (Instr.flitReceive 0 (flit0.drop 1)).wf = false ∧ (Instr.dieWrWrite { msg0 [] with tag := 65536 }).wf = false ∧
    (Instr.dieFlitReceive 0 0 flit0).wf = false ∧
    (Instr.dieMgmtDiscover 0 0 { disc1 with port := 8 }).wf = false ∧ (Instr.sliceTranslate { xl0 with size := 0 }).wf = false := by
  decide +kernel

/-! ### Single steps

Each expected value is worked out from the manual: from its worked examples where it has one, and by hand from its tables. -/

/-- The state after an instruction, or the state before it where it does not complete. -/
noncomputable def after (i : Instr) (s : State) : State :=
  match exec i s with
  | .next t => t
  | _ => s
/-- `regs` with vector registers set as well. -/
def vecs (l : List (VReg × Nat)) : State := s0.modCur fun u => l.foldl (fun v x => v.setV x.1 (BitVec.ofNat 1024 x.2)) u
/-- The low 64 bits of a vector register. -/
def lowV (s : State) (d : VReg) : Word := (s.cur.getV d).truncate 64

/-- 2^63 - 1 plus 1 wraps for `add` and clamps for `adds` (R204). -/
theorem test_add_wraps_and_adds_clamps : let s := regs [(8, 0x7FFF_FFFF_FFFF_FFFF), (9, 1)]
    (after (.add 16 8 9 0) s).cur.getS 16 = 0x8000_0000_0000_0000 ∧ (after (.adds 16 8 9 0) s).cur.getS 16 = 0x7FFF_FFFF_FFFF_FFFF ∧
    (after (.addw 16 8 9 0) s).cur.getS 16 = 0 ∧ (after (.add 0 8 9 0) s).cur.getS 0 = 0 := by decide +kernel

/-- A source that is also the destination; a borrow out of a 32-bit difference (R204). -/
theorem test_sub_in_place : (after (.sub 16 16 9 0) (regs [(16, 5), (9, 7)])).cur.getS 16 = 0xFFFF_FFFF_FFFF_FFFE ∧
    (after (.subus 16 16 9 0) (regs [(16, 5), (9, 7)])).cur.getS 16 = 0 ∧
    (after (.subw 16 16 9 0) (regs [(16, 0x8000_0000), (9, 1)])).cur.getS 16 = 0x7FFF_FFFF := by decide +kernel

/-- Counts are modulo 64, and modulo 32 for the w forms, whose results are sign-extended (R206). -/
theorem test_shift_counts : let s := regs [(8, 0x8000_0001), (9, 65)]
    (after (.sll 16 8 9 0) s).cur.getS 16 = 0x1_0000_0002 ∧ (after (.sllw 16 8 9 0) s).cur.getS 16 = 2 ∧
    (after (.sraw 16 8 9 0) s).cur.getS 16 = 0xFFFF_FFFF_C000_0000 ∧ (after (.ror 16 8 9 0) s).cur.getS 16 = 0x8000_0000_4000_0000 := by
  decide +kernel

/-- (-1) × (-1) and 2^64 - 1 squared by their high halves (R207). -/
theorem test_high_products : let s := regs [(8, BitVec.allOnes 64), (9, BitVec.allOnes 64)]
    (after (.mulh 16 8 9 0) s).cur.getS 16 = 0 ∧ (after (.mulhu 16 8 9 0) s).cur.getS 16 = 0xFFFF_FFFF_FFFF_FFFE ∧
    (after (.mulhsu 16 8 9 0) s).cur.getS 16 = BitVec.allOnes 64 := by decide +kernel

/-- Counts of zero, and reversals (R208). -/
theorem test_bit_counts : let s := regs [(8, 0), (9, 0x0102_0304_0506_0708)]
    (after (.clz 16 8 0) s).cur.getS 16 = 64 ∧ (after (.ctz 16 8 0) s).cur.getS 16 = 64 ∧ (after (.ctz 16 9 0) s).cur.getS 16 = 3 ∧
    (after (.bswap 16 9 0) s).cur.getS 16 = 0x0807_0605_0403_0201 ∧ (after (.popc 16 9 0) s).cur.getS 16 = 13 := by decide +kernel

/-- Signed against unsigned order, and an immediate that is sign-extended only for the signed codes (R209). -/
theorem test_compares : let s := regs [(8, BitVec.allOnes 64), (9, 1)]
    (after (.cmp 1 8 9 0 .lt) s).cur.getP 1 = true ∧ (after (.cmp 1 8 9 0 .ltu) s).cur.getP 1 = false ∧
    (after (.cmpImm 1 8 .eq 0x1FFF) s).cur.getP 1 = true ∧ (after (.cmpImm 1 8 .geu 0x1FFF) s).cur.getP 1 = true ∧
    (after (.cmpImm 1 9 .ltu 0x1FFF) s).cur.getP 1 = true ∧ (after (.cmp 0 8 9 0 .eq) s).cur.getP 0 = true := by decide +kernel

/-- `li` and `lih` build a constant (R205). -/
theorem test_constants : (after (.li 16 0x8000) s0).cur.getS 16 = 0xFFFF_FFFF_FFFF_8000 ∧
    (after (.lih 16 8 0x9ABC) (regs [(8, 0x1234)])).cur.getS 16 = 0x1234_9ABC ∧
    (after (.andImm 16 8 0xFF00) (regs [(8, BitVec.allOnes 64)])).cur.getS 16 = 0xFF00 := by decide +kernel

/-- Division truncates toward zero; by zero the quotient is all ones, the remainder the dividend, and TSR.DZ is set (R213). -/
theorem test_division : let s := regs [(8, -7), (9, 2), (11, 0)]
    (after (.div 0 16 8 (.reg 9)) s).cur.getS 16 = -3 ∧ (after (.rem 0 16 8 (.reg 9)) s).cur.getS 16 = -1 ∧
    (after (.div 0 16 8 (.reg 11)) s).cur.getS 16 = -1 ∧ (after (.rem 0 16 8 (.reg 11)) s).cur.getS 16 = -7 ∧
    (after (.div 0 16 8 (.reg 11)) s).cur.tsr.getLsbD 7 = true := by decide +kernel

theorem test_wide_product : let s := after (.mul2u 0 16 8 (.lit 0xFFFF_FFFF)) (regs [(8, BitVec.allOnes 64)])
    s.cur.getS 16 = 1 ∧ s.cur.getS 17 = 0xFFFF_FFFF_FFFF_FFFE := by decide +kernel

/-- A taken branch names the bundle at pc + 8 × disp; the A-slot of its own bundle still issues (R34, R215). -/
theorem test_branch_backward : let s := after (.br 0 0x3FFFFE) s0
    s.cur.npc = 0xFFF0 ∧ s.cur.pc = 0x10000 ∧ s.cur.aslot = true := by decide +kernel

/-- `call` puts the link into s15 of the window that it opens (R216). -/
theorem test_call_link : let s := after (.call 0 4) (regs [(24, 77), (31, 88), (3, 5)])
    s.cur.npc = 0x10020 ∧ s.cur.getS 15 = 0x10008 ∧ s.cur.getS 8 = 77 ∧ s.cur.getS 3 = 5 ∧ s.cur.depth = 2 := by decide +kernel

/-- A store is held by its task: the bytes of the bank do not change, and a load of the same task reads it (R177, R326). -/
theorem test_store_then_load : let s := after (.stW 9 8 (.short 1)) (scratch [(9, 0xFFFF_FFFF_8000_0001)])
    s.mem = [] ∧ (after (.ldWs 0 16 8 (.short 1)) s).cur.getS 16 = 0xFFFF_FFFF_8000_0001 ∧
    (after (.ldB 0 16 8 (.short 7)) s).cur.getS 16 = 0x80 := by decide +kernel

/-- An unaligned address and one above 2^56 (R175). -/
theorem test_access_traps : (after (.ldD 0 16 8 (.short 0)) (regs [(8, 0x2004)])).cur.cause.toNat % 256 = Trap.misaligned.code ∧
    (after (.ldD 0 16 8 (.short 0)) (regs [(8, 0x2004)])).cur.faddr = 0x2004 ∧
    (after (.stB 9 8 (.short 0)) (regs [(8, 0x100_0000_0000_0000)])).cur.cause.toNat % 256 = Trap.addressRange.code := by decide +kernel

/-- `amax.w` at a bank: -1 is below 5, so the new word is 5, and the old one is zero-extended (R329, R330). -/
theorem test_atomic_max : let s := after (.amax 0 16 8 (.reg 9) .w) ((scratch [(9, 5)]).setBytes (loftWindow 0 0 + 0x8_0000) [0xFF, 0xFF, 0xFF, 0xFF])
    s.cur.getS 16 = 0xFFFF_FFFF ∧ s.bytes (loftWindow 0 0 + 0x8_0000) 5 = [5, 0, 0, 0, 0] ∧ s.cur.tid = 1 := by decide +kernel

/-- `tcommit` counts TID; `trap` saves the bundle and the slot after it, and enters supervisor mode at TVEC (R224, R395, R400). -/
theorem test_commit_and_trap : (after .tcommit s0).cur.tid = 1 ∧
    (let s := after (.trap 9) { s0 with tvec := 0x8000 }
     s.cur.pc = 0x8000 ∧ s.cur.epc = 0x10001 ∧ s.cur.faddr = 9 ∧ tsrSup s.cur.tsr = true ∧ s.cur.depth = 2) := by decide +kernel

/-- The example leaf of the manual's walk, at the end of a table of four levels, and the store that sets its D bit (R60). -/
def walkTables : State :=
  let s := State.setBytes State.reset 0 (bytesOf 8 0x2000)
  let s := s.setBytes 0x2008 (bytesOf 8 0x1_0001)
  let s := s.setBytes 0x1_0010 (bytesOf 8 0x2_0001)
  let s := s.setBytes 0x2_0018 (bytesOf 8 0x3_0001)
  s.setBytes 0x3_0020 (bytesOf 8 0x0100_0010_0004_508B)

theorem test_walk_worked :
    (walkTables.walkTo (walkTables.walkLeaf 0 0x4020_0C04_5678) 0x4020_0C04_5678 .read false false).2 = .ok 0x10_0004_5678 0x0100_0010_0004_508B 131072 ∧
    (walkTables.walkTo (walkTables.walkLeaf 0 0x4020_0C04_5678) 0x4020_0C04_5678 .write false false).1.word64 0x3_0020 = 0x0100_0010_0004_518B := by decide +kernel

/-- `vadd.b` wraps in each byte and keeps the inactive ones: k1 holds ones in the odd bytes (R254, R256). -/
theorem test_vadd_masked : let s := (vecs [(1, 0x0101), (2, 0xFFFF), (3, 0x7777)]).modCur fun u => u.setK 1 2
    lowV (after (.vadd 3 1 2 0 .b) s) 3 = 0 ∧ lowV (after (.vadd 3 1 2 1 .b) s) 3 = 0x0077 := by decide +kernel

/-- 1.5 × 2 + 1 = 4, and 1 + 2^-24 rounds to 1 with NX (R237, R259). -/
theorem test_vector_fp : lowV (after (.vfma 3 1 2 0 .f32) (vecs [(1, 0x3FC0_0000), (2, 0x4000_0000), (3, 0x3F80_0000)])) 3 = 0x4080_0000 ∧
    lowV (after (.vaddF 3 1 2 0 .f32) (vecs [(1, 0x3F80_0000), (2, 0x3380_0000)])) 3 = 0x3F80_0000 ∧
    (after (.vaddF 3 1 2 0 .f32) (vecs [(1, 0x3F80_0000), (2, 0x3380_0000)])).cur.tsr = 0x10 := by decide +kernel

/-- 1 / 3 rounded to nearest, 2^0.5, the square root of 4, and log2 of 8 (R265, R268). -/
theorem test_special_functions : lowV (after (.vdiv 3 1 2 0) (vecs [(1, 0x3F80_0000), (2, 0x4040_0000)])) 3 % 2 ^ 32 = 0x3EAA_AAAB ∧
    lowV (after (.vsqrt 3 1 0) (vecs [(1, 0x4080_0000)])) 3 = 0x4000_0000 ∧
    lowV (after (.vlog2 3 1 0) (vecs [(1, 0x4100_0000)])) 3 % 2 ^ 32 = 0x4040_0000 := by decide +kernel

/-- The four lanes of the manual's `vpadd`, with SAT = 0 and SAT = 1, and the flags OF, NX and NV (R262). -/
theorem test_packed_add_worked :
    let s (sat : Bool) : State := (vecs [(2, 0xFF40387E), (3, 0x003C7D5C)]).modCur fun u =>
      { u with pfx := 3 + 4 * 32 + 3 * 1024, tsr := if sat then 0x9 else 1 }
    lowV (after (.vpadd 1 2 3 0) (s false)) 1 = 0x7F447F7F ∧ lowV (after (.vpadd 1 2 3 0) (s true)) 1 = 0x7F447F7E := by decide +kernel

/-- A b8 block of 1.0 and -0.75 begins with the bytes 0x80, 0x40 and 0xD0 (R243). -/
theorem test_block_conversion_worked :
    let s := (vecs [(1, 0xBF40_0000_3F80_0000)]).modCur fun u =>
      { u with pfx := (FmtId.bits (some .f32)).toNat + 32 * (FmtId.bits (some .b8)).toNat + 31 * 1024, tsr := 1 }
    lowV (after (.vcvt 2 1 0 0 0) s) 2 = 0xD04080 := by decide +kernel

/-- Digits 1, 2, 0 of a t5 byte are +1, -1 and 0 (R244, R274). -/
theorem test_ternary_unpack : lowV (after (.vtunpack 4 5 0 .i8) (vecs [(5, 7)])) 4 = 0xFF01 := by decide +kernel

/-- `vsm.upd` keeps an E that absorbs the rise and raises one that does not, to the least integer (R308). -/
theorem test_softmax_update : lowV (after (.vsmUpd 12 10 11 0) (vecs [(10, 0x4000_0000_0000_0000), (11, 0x4108_0000)])) 12 = 0x4000_0000_4110_0000 := by
  decide +kernel

/-- The sum of 128 bytes of 1 wraps to 128, and widens to 128 (R269). -/
theorem test_reductions : let s := vecs [(1, 2 ^ 1024 / 255)]
    lowV (after (.vradd 2 1 0 .b) s) 2 = 0x80 ∧ lowV (after (.vraddw 2 1 0 .b) s) 2 = 0x80 := by decide +kernel

/-- One round of the block hash as the manual works it: lane 0 is 7 and the chain value 0. Fifteen rounds with lanes of 0 follow (R130). -/
theorem test_block_hash : (after (.hblk 0 16 1) (vecs [(1, 7)])).cur.getS 16 =
    (List.range 15).foldl (fun (h : Word) _ => h.rotateLeft 23 * 0x8F1D_4C27_6B39_A5E3) 0xE9CD_1513_EE93_8935 := by decide +kernel

/-- A lookahead of 2 leaves s16 pending; the next instruction that names it raises LOOKAHEAD_VIOLATION (R41). -/
theorem test_lookahead_violation : (after (.div 2 16 8 (.reg 9)) s0).cur.pend.length = 1 ∧
    (after (.add 16 16 0 0) s0Pend).cur.cause.toNat % 256 = Trap.lookaheadViolation.code := by decide +kernel

/-- Privileged instructions trap at user privilege and run at supervisor privilege (R197, R400). -/
theorem test_privilege : (after (.mtsr 8 .epc) (regs [(8, 40)])).cur.cause.toNat % 256 = Trap.privilege.code ∧
    (after (.mtsr 8 .epc) (supRegs [(8, 40)])).cur.epc = 40 ∧ (after .rte s0).cur.cause.toNat % 256 = Trap.privilege.code := by decide +kernel

/-- `rte` goes back to the A-slot that EPC names, one window shallower (R400). -/
theorem test_return_from_trap : let s := after .rte (s3Sup.modCur fun u => { u with epc := 0x20001 })
    s.cur.pc = 0x20000 ∧ s.cur.aslot = true ∧ s.cur.depth = 3 ∧ tsrSup s.cur.tsr = false := by decide +kernel

/-- `qpop` takes the record's first word, little-endian, and the rest stays for the next pop (R111). -/
theorem test_pop_first_word : let s := after (.qpop 0 16 6) popping
    s.cur.getS 16 = 0x0706_0504_0302_0100 ∧ s.cur.q6 = [] ∧ s.cur.part = [(6, { record6 with taken := 1 })] := by decide +kernel

/-- `vloop` with three trips starts the body; `lbank` with the word the bank has writes 2 (R182, R278). -/
theorem test_loop_and_bank : (after (.vloop 8 3) (regs [(8, 3)])).cur.seq = { active := true, start := 0x10008, len := 4, trips := 3 } ∧
    (after (.lbank 16 8 9) (regs [(8, 13)])).cur.getS 16 = 2 := by decide +kernel

/-- A handover of a HOST region to DEVICE (R356), and SUBMIT of a TAIL (R374). -/
theorem test_kicks : ((after (.toDevice 0 5) State.reset).hub 0).region 5 = { state := 1 } ∧
    (after (.submit 0 3 9) State.reset).queue 3 = { tail := 9, kicked := 9, state := 1 } := by decide +kernel

/-- A host write lands at the home; a fetch-and-add answers the old value (R415). -/
theorem test_host : (after (.hostWrite 0 0x40 [1, 2]) hostSide).bytes 0x40 3 = [1, 2, 0] ∧
    ((after (.hostFetchAdd 0 0x40 .w 5) hostSide).hub 0).hostReply = [0, 0, 0, 0] ∧
    (after (.hostFetchAdd 0 0x40 .w 5) hostSide).bytes 0x40 4 = [5, 0, 0, 0] := by decide +kernel

/-- After reset the boot is held, and a junction that is too hot stops the module (R438, R442). -/
theorem test_reset_and_stop : State.reset.boot = .held ∧ State.reset.wdt = 100000 ∧ (after .thermalStop State.reset).stopped = true ∧
    (match step (after .thermalStop State.reset) with
     | .fault .thermalStop => true
     | _ => false) = true := by decide +kernel

/-- The check value of CRC-32 in the convention of log 68: the digits 1 to 9 in ASCII. -/
theorem test_crc_check_value : crc32 [0x31, 0x32, 0x33, 0x34, 0x35, 0x36, 0x37, 0x38, 0x39] = 0xCBF43926 := by decide +kernel

end Sys2Proof.Tests
end

