-- ==== Sys2Proof/Proofs/CanonicalWords.lean ====
section
/-! Canonical memory: the invariant of O47 for states and outcomes, and what folds of updates keep. -/

namespace Sys2Proof.Machine

/-! ### Canonical memory: the words of the invariant -/

/-- The next state of an outcome, if it has one, has canonical memory. -/
def OutOk : Out → Prop
  | .next t => Memory.wf t.mem = true
  | .fault _ => True
  | .refused _ => True

@[simp] theorem outOk_next (t : State) : OutOk (.next t) ↔ Memory.wf t.mem = true := Iff.rfl
@[simp] theorem outOk_fault (r : Fault) : OutOk (.fault r) := trivial
@[simp] theorem outOk_refused (r : Refusal) : OutOk (.refused r) := trivial

@[simp] theorem outOk_ite (c : Prop) [Decidable c] (a b : Out) : OutOk (if c then a else b) ↔ (c → OutOk a) ∧ (¬c → OutOk b) := by
  split <;> simp [*]

@[simp] theorem mem_ite (c : Prop) [Decidable c] (a b : State) : (if c then a else b).mem = if c then a.mem else b.mem :=
  apply_ite State.mem c a b

@[simp] theorem fst_ite_mem {α : Type} (c : Prop) [Decidable c] (a b : State × α) :
    (if c then a else b).1.mem = if c then a.1.mem else b.1.mem :=
  apply_ite (fun x => x.1.mem) c a b

@[simp] theorem wf_ite (c : Prop) [Decidable c] (a b : List Host.Cell) :
    Memory.wf (if c then a else b) = true ↔ (c → Memory.wf a = true) ∧ (¬c → Memory.wf b = true) := by
  split <;> simp [*]

/-- A pair named by its parts. -/
theorem eq_mk_iff {α β : Type} {x : α × β} {a : α} {b : β} : x = (a, b) ↔ a = x.1 ∧ b = x.2 := by
  constructor
  · rintro rfl; exact ⟨rfl, rfl⟩
  · rintro ⟨rfl, rfl⟩; rfl

/-- A fold of updates that leave memory alone leaves it alone. -/
@[simp] theorem foldl_mem {α : Type} {f : State → α → State} {l : List α} {s : State} (hf : ∀ t a, (f t a).mem = t.mem) :
    (l.foldl f s).mem = s.mem := by
  induction l generalizing s with
  | nil => rfl
  | cons a r ih => exact ih.trans (hf s a)

@[simp] theorem foldr_mem {α : Type} {f : α → State → State} {l : List α} {s : State} (hf : ∀ a t, (f a t).mem = t.mem) :
    (l.foldr f s).mem = s.mem := by
  induction l with
  | nil => rfl
  | cons a r ih => exact (hf a _).trans ih

/-- A fold of updates that keep the canonical form keeps it. -/
theorem foldl_mem_wf {α : Type} {f : State → α → State} {l : List α} {s : State}
    (hf : ∀ t a, Memory.wf t.mem = true → Memory.wf (f t a).mem = true) (h : Memory.wf s.mem = true) :
    Memory.wf (l.foldl f s).mem = true := by
  induction l generalizing s with
  | nil => exact h
  | cons a r ih => exact ih (hf s a h)

end Sys2Proof.Machine
end

