-- ==== Sys2Proof/Proofs/CanonicalAccess.lean ====
section
/-! What the module's memory, translations, queues, scalar operations and homes keep of the canonical form: for each function of the model
that changes a state, either that it leaves memory alone (`f_mem`) or that it keeps the form (`f_mem_wf`, `f_outOk`). -/

namespace Sys2Proof.Machine

@[simp] theorem setCluster_mem (s : State) (c : Nat) (x : Cluster) : (s.setCluster c x).mem = s.mem := by
  simp [State.setCluster]

@[simp] theorem setCore_mem (s : State) (c : Nat) (x : Core) : (s.setCore c x).mem = s.mem := by
  simp [State.setCore]

@[simp] theorem setDie_mem (s : State) (d : Nat) (x : Die) : (s.setDie d x).mem = s.mem := by
  simp [State.setDie]

@[simp] theorem setHub_mem (s : State) (hub : Nat) (x : Hub) : (s.setHub hub x).mem = s.mem := by
  simp [State.setHub]

@[simp] theorem clearSpan_mem (s : State) (pa n : Nat) : (s.clearSpan pa n).mem = s.mem := by
  simp [State.clearSpan]

@[simp] theorem sendAt_mem (s : State) (lseq : Nat) (typ : PktType) (sdie dst addr expiry : Nat) (data : List Byte) :
    (s.sendAt lseq typ sdie dst addr expiry data).mem = s.mem := by
  simp [State.sendAt]

@[simp] theorem send_mem (s : State) (typ : PktType) (sdie dst addr expiry : Nat) (data : List Byte) :
    (s.send typ sdie dst addr expiry data).mem = s.mem := by
  simp [State.send]

@[simp] theorem withdraw_mem (s : State) (sdie dst lseq : Nat) : (s.withdraw sdie dst lseq).mem = s.mem := by
  simp [State.withdraw]

@[simp] theorem withdrawHoles_mem (s : State) (p : Hole → Bool) : (s.withdrawHoles p).mem = s.mem := by
  simp [State.withdrawHoles]

@[simp] theorem undoClaim_mem (s : State) (r : Remote) (old new : Nat) : (s.undoClaim r old new).mem = s.mem := by
  simp [State.undoClaim]

@[simp] theorem settleDropped_mem (s : State) (r : Remote) (t : PktType) (d : List Byte) : (s.settleDropped r t d).mem = s.mem := by
  fun_cases State.settleDropped <;> simp [*]

@[simp] theorem dropRemote_mem (s : State) (r : Remote) : (s.dropRemote r).mem = s.mem := by
  unfold State.dropRemote
  split <;> simp

@[simp] theorem dropAsked_mem (s : State) (p : Remote → Bool) : (s.dropAsked p).mem = s.mem := by
  simp [State.dropAsked]

@[simp] theorem staleOnce_mem (s : State) (loc : Loc) (va : Nat) : (s.staleOnce loc va).1.mem = s.mem := by
  simp [State.staleOnce]

@[simp] theorem freshOnce_mem (s : State) (loc : Loc) (va : Nat) : (s.freshOnce loc va).mem = s.mem := by
  simp [State.freshOnce]

@[simp] theorem request_mem (s : State) (r : Remote) (expiry : Nat) : (s.request r expiry).mem = s.mem := by
  unfold State.request
  split <;> simp

@[simp] theorem leavePlace_mem (s : State) (typ : PktType) (loc : Loc) (va : Nat) : (s.leavePlace typ loc va).mem = s.mem := by
  simp [State.leavePlace]

@[simp] theorem dropOldLock_mem (s : State) (typ : PktType) (loc : Loc) (va pa : Nat) : (s.dropOldLock typ loc va pa).mem = s.mem := by
  simp [State.dropOldLock]

@[simp] theorem keepPlace_mem (s : State) (r : Remote) : (s.keepPlace r).mem = s.mem := by
  simp [State.keepPlace]

@[simp] theorem ask_mem (s : State) (typ : PktType) (loc : Loc) (va pa size expiry : Nat) (data : List Byte) (secure : Bool) :
    (s.ask typ loc va pa size expiry data secure).1.mem = s.mem := by
  simp only [State.ask]
  repeat' split
  all_goals simp_all [eq_mk_iff]

@[simp] theorem setCounter_mem (s : State) (c : Nat) (x : Counter) : (s.setCounter c x).mem = s.mem := by
  simp [State.setCounter]

@[simp] theorem setQueue_mem (s : State) (q : Nat) (x : Queue) : (s.setQueue q x).mem = s.mem := by
  simp [State.setQueue]

@[simp] theorem hubWrite_mem (s : State) (hub o : Nat) (x : Word) : (s.hubWrite hub o x).mem = s.mem := by
  simp [State.hubWrite]

@[simp] theorem hubStore_mem (s : State) (hub o : Nat) (l : List Byte) : (s.hubStore hub o l).mem = s.mem := by
  simp [State.hubStore]

@[simp] theorem walkTo_mem_wf {s : State} (h : Memory.wf s.mem = true) (x : WalkEnd) (va : Nat) (acc : Acc) (sup secure : Bool) :
    Memory.wf (s.walkTo x va acc sup secure).1.mem = true := by
  unfold State.walkTo
  split <;> simp [h, setWord64_mem_wf]

@[simp] theorem walkIn_mem_wf {s : State} (h : Memory.wf s.mem = true) (die : Nat) (x : WalkEnd) (q : XlAsk) :
    Memory.wf (s.walkIn die x q).1.mem = true := by
  fun_cases State.walkIn <;> simp_all [eq_mk_iff]

@[simp] theorem translate_mem_wf {s : State} (h : Memory.wf s.mem = true) (die job va : Nat) (acc : Acc) (sup secure : Bool) :
    Memory.wf (s.translate die job va acc sup secure).1.mem = true := by
  fun_cases State.translate <;> simp [*]

@[simp] theorem joinWalk_mem (s : State) (r : XlReq) : (s.joinWalk r).mem = s.mem := by
  simp [State.joinWalk]

@[simp] theorem dropTlb_mem (s : State) (die job va : Nat) : (s.dropTlb die job va).mem = s.mem := by
  simp [State.dropTlb]

theorem post_mem {s t : State} {f : Fault'} (e : s.post f = some t) : t.mem = s.mem := by
  simp only [State.post] at e
  split at e
  · cases e
  · cases e; simp

/-- A fault that is posted leads to one state, which has the memory of the first. -/
theorem post_eq_some_iff {s t : State} {f : Fault'} : s.post f = some t ↔ (s.post f).isSome = true ∧ t = (s.post f).getD s := by
  constructor
  · intro e; simp [e]
  · rintro ⟨hs, rfl⟩
    obtain ⟨x, hx⟩ := Option.isSome_iff_exists.mp hs
    simp [hx]

@[simp] theorem post_getD_mem (s : State) (f : Fault') : ((s.post f).getD s).mem = s.mem := by
  cases e : s.post f with
  | none => rfl
  | some t => exact post_mem e

@[simp] theorem setCurCluster_mem (s : State) (c : Cluster) : (s.setCurCluster c).mem = s.mem := by
  simp [State.setCurCluster]

@[simp] theorem setCurCore_mem (s : State) (c : Core) : (s.setCurCore c).mem = s.mem := by
  simp [State.setCurCore]

@[simp] theorem setStreamElems_mem (s : State) (n : Nat) (l : List Elem) : (s.setStreamElems n l).mem = s.mem := by
  simp [State.setStreamElems]

@[simp] theorem dropHead_mem (s : State) (q : QReg) (stream : Nat) : (s.dropHead q stream).mem = s.mem := by
  simp [State.dropHead]

@[simp] theorem undoPop_mem (s : State) (q : QReg) (stream : Nat) (e : Elem) : (s.undoPop q stream e).mem = s.mem := by
  simp [State.undoPop]

theorem frontAt_mem {s t : State} {q : QReg} {st : Nat} {x : Elem} (e : s.frontAt q st = some (x, t)) : t.mem = s.mem := by
  simp only [State.frontAt] at e
  split at e
  · cases e; simp
  · split at e <;> cases e
    simp

theorem popWord_mem {s t : State} {q : QReg} {st : Nat} {x : Word} (e : s.popWord q st = some (x, t)) : t.mem = s.mem := by
  simp only [State.popWord] at e
  split at e
  · cases e
  next hf => cases e; simp [frontAt_mem hf]

theorem popWhole_mem {s t : State} {q : QReg} {st : Nat} {x : VWord} (e : s.popWhole q st = some (x, t)) : t.mem = s.mem := by
  simp only [State.popWhole] at e
  split at e
  · cases e
  next hf => cases e; exact frontAt_mem hf

theorem popFor_mem {s t : State} {q : QReg} {vector : Bool} {st : Nat} {x : VWord} (e : s.popFor q vector st = some (x, t)) :
    t.mem = s.mem := by
  unfold State.popFor at e
  split at e
  · exact popWhole_mem e
  · obtain ⟨⟨y, u⟩, hp, hx⟩ := Option.map_eq_some_iff.mp e
    cases hx
    exact popWord_mem hp

@[simp] theorem doneC_outOk (s : State) (lone : Bool) : OutOk (s.doneC lone) ↔ Memory.wf s.mem = true := by
  simp [State.doneC]

@[simp] theorem doneA_outOk (s : State) : OutOk s.doneA ↔ Memory.wf s.mem = true := by
  simp [State.doneA]

/-- A change of the next state that keeps the canonical form. -/
theorem onNext_outOk {o : Out} {f : State → State} (ho : OutOk o) (hf : ∀ t : State, Memory.wf t.mem = true → Memory.wf (f t).mem = true) :
    OutOk (onNext o f) := by
  cases o with
  | next t => exact (outOk_next _).mpr (hf t ((outOk_next t).mp ho))
  | fault r => exact outOk_fault r
  | refused r => exact outOk_refused r

@[simp] theorem aged_mem (t : State) (ids : Nat) : (State.aged ids t).mem = t.mem := by
  simp [State.aged]

@[simp] theorem doneHere_outOk (s : State) : OutOk s.doneHere ↔ Memory.wf s.mem = true := by
  unfold State.doneHere
  split <;> simp

@[simp] theorem waitTurn_mem (s : State) : s.waitTurn.mem = s.mem := by
  simp [State.waitTurn]

@[simp] theorem wait_outOk (s : State) : OutOk s.wait ↔ Memory.wf s.mem = true := by
  simp [State.wait]

theorem spillOldest_mem_wf {s t : State} (h : Memory.wf s.mem = true) (e : s.spillOldest = some t) : Memory.wf t.mem = true := by
  simp only [State.spillOldest] at e
  split at e
  · cases e
  · split at e
    · cases e
    · cases e; exact setBytes_mem_wf _ s _ h

@[simp] theorem fillWindow_mem (s : State) : s.fillWindow.mem = s.mem := by
  simp [State.fillWindow]

@[simp] theorem slide_mem (s : State) : s.slide.mem = s.mem := by
  simp [State.slide]

@[simp] theorem discard_mem (s : State) : s.discard.mem = s.mem := by
  simp [State.discard]

@[simp] theorem restart_mem (s : State) : s.restart.mem = s.mem := by
  simp [State.restart]

/-- The room for the window of a trap entry is the state itself or a spilled one. -/
theorem roomForTrap_mem_wf {s t : State} (h : Memory.wf s.mem = true)
    (e : (if s.cur.saved.length + 1 < Config.residentWindows then some s else s.spillOldest) = some t) : Memory.wf t.mem = true := by
  split at e
  · cases e; exact h
  · exact spillOldest_mem_wf h e

@[simp] theorem enterTrap_mem_wf {s : State} (h : Memory.wf s.mem = true) (t : TrapInfo) : Memory.wf (s.enterTrap t).mem = true := by
  have hd : Memory.wf (if t.td then s.discard else s.setCur s.cur.completeReady).mem = true := by simp [h]
  unfold State.enterTrap
  generalize (if t.td then s.discard else s.setCur s.cur.completeReady) = d at hd
  simp only
  split
  · simp [hd]
  next hroom => simpa using roomForTrap_mem_wf hd hroom

@[simp] theorem raise_outOk {s : State} (h : Memory.wf s.mem = true) (t : TrapInfo) : OutOk (s.raise t) := by
  simp [State.raise, h]

@[simp] theorem raiseStuck_outOk {s : State} (h : Memory.wf s.mem = true) : OutOk s.raiseStuck := by
  simp [State.raiseStuck, h]

@[simp] theorem leaveTrap_mem (s : State) : s.leaveTrap.mem = s.mem := by
  fun_cases State.leaveTrap <;> simp [*]

@[simp] theorem consume_mem (s : State) : s.consume.mem = s.mem := by
  simp [State.consume]

/-- An instruction that issues raises a trap or has its effect. -/
@[simp] theorem issue_outOk {s : State} {n : Need} {k : State → Out} (h : Memory.wf s.mem = true) (hk : OutOk (k s.consume)) :
    OutOk (s.issue n k) := by
  unfold State.issue
  split
  · exact raise_outOk h _
  · exact hk

@[simp] theorem illegalOperandWord_outOk {s : State} (h : Memory.wf s.mem = true) (fmts : Bool) : OutOk (s.illegalOperandWord fmts) :=
  issue_outOk h (by simp [h])

@[simp] theorem openWindow_mem (s : State) (la : BitVec 4) (dests : List RegKey) (values : Option (List VWord)) (act : Act)
    (dz : optParam Bool false) : (s.openWindow la dests values act dz).mem = s.mem := by
  unfold State.openWindow
  split <;> simp

/-- A false guard moves on; a true one issues. -/
@[simp] theorem guarded_outOk {s : State} (h : Memory.wf s.mem = true) {p : PReg} {n : Need} {k : State → Out} (hk : OutOk (k s.consume)) :
    OutOk (s.guarded p n k) := by
  simp [State.guarded, h, hk]

@[simp] theorem writeS_outOk {s : State} (h : Memory.wf s.mem = true) (p : PReg) (d : SReg) (srcs : List SReg) (x : Word) :
    OutOk (s.writeS p d srcs x) := by
  simp [State.writeS, h]

@[simp] theorem writeP_outOk {s : State} (h : Memory.wf s.mem = true) (p d : PReg) (srcs : List SReg) (x : Bool) :
    OutOk (s.writeP p d srcs x) := by
  simp [State.writeP, h]

@[simp] theorem alu2_outOk {s : State} (h : Memory.wf s.mem = true) (f : Word → Word → Word) (d a b : SReg) (p : PReg) :
    OutOk (s.alu2 f d a b p) := by
  simp [State.alu2, h]

@[simp] theorem alu1_outOk {s : State} (h : Memory.wf s.mem = true) (f : Word → Word) (d a : SReg) (p : PReg) : OutOk (s.alu1 f d a p) := by
  simp [State.alu1, h]

@[simp] theorem aluI_outOk {s : State} (h : Memory.wf s.mem = true) (f : Word → Word) (d a : SReg) : OutOk (s.aluI f d a) := by
  simp [State.aluI, h]

/-- The state in which an access ends has canonical memory. -/
def GotOk : Got → Prop
  | .ok t _ => Memory.wf t.mem = true
  | .wait t => Memory.wf t.mem = true
  | .trap t _ => Memory.wf t.mem = true

@[simp] theorem gotOk_ok (t : State) (b : List Byte) : GotOk (.ok t b) ↔ Memory.wf t.mem = true := Iff.rfl

@[simp] theorem gotOk_wait (t : State) : GotOk (.wait t) ↔ Memory.wf t.mem = true := Iff.rfl

@[simp] theorem gotOk_trap (t : State) (i : TrapInfo) : GotOk (.trap t i) ↔ Memory.wf t.mem = true := Iff.rfl

theorem faultCur_gotOk {s : State} (h : Memory.wf s.mem = true) (acc : Acc) (va : Nat) (c : Cause) (e : Word) (committing : Bool)
    (pend : Nat) : GotOk (s.faultCur acc va c e committing pend) := by
  unfold State.faultCur
  simp only
  split
  · exact h
  · split
    · exact h
    next hp => simp [post_mem hp, h]

@[simp] theorem countMiss_mem (s : State) (va : Nat) : (s.countMiss va).mem = s.mem := by
  simp [State.countMiss]

@[simp] theorem readSig_mem (s : State) (pa n : Nat) : (s.readSig pa n).mem = s.mem := by
  simp [State.readSig]

theorem readPiece_gotOk {s : State} (h : Memory.wf s.mem = true) (va n pend : Nat) : GotOk (s.readPiece va n pend) := by
  fun_cases State.readPiece <;> simp_all +zetaDelta [eq_mk_iff, faultCur_gotOk]

@[simp] theorem unfilled_mem (s t : State) : (s.unfilled t).mem = t.mem := by
  simp [State.unfilled]

theorem readSpanGo_gotOk (pend : Nat)
    (l : List (Nat × Nat)) {s : State} (h : Memory.wf s.mem = true) : GotOk (State.readSpan.go pend s l) := by
  induction l generalizing s with
  | nil => exact h
  | cons p rest ih =>
    have hp := readPiece_gotOk h p.1 p.2 pend
    unfold State.readSpan.go
    split
    next t b e =>
      have ht := ih (s := t) (by simpa [e] using hp)
      split <;> simp_all
    next e => exact hp

theorem readSpan_gotOk {s : State} (h : Memory.wf s.mem = true) (ea : Word) (n pend : Nat) : GotOk (s.readSpan ea n pend) := by
  simp only [State.readSpan]
  split_ifs
  · simpa using h
  · simpa using h
  · simpa using h
  · exact readSpanGo_gotOk pend _ h

@[simp] theorem capacityEvent_mem (s : State) : s.capacityEvent.mem = s.mem := by
  simp [State.capacityEvent]

@[simp] theorem holdRoom_outOk {s : State} (h : Memory.wf s.mem = true) {k : State → Out} (hk : OutOk (k s)) : OutOk (s.holdRoom k) := by
  simp [State.holdRoom, h, hk]

@[simp] theorem hold_mem (s : State) (held : Held) : (s.hold held).mem = s.mem := by
  simp [State.hold]

@[simp] theorem clearSig_mem (s : State) (g : BitVec 1024) : (s.clearSig g).mem = s.mem := by
  simp [State.clearSig]

@[simp] theorem clearLater_mem (s : State) (pa n : Nat) : (s.clearLater pa n).mem = s.mem := by
  simp [State.clearLater]

@[simp] theorem homeSet_mem_wf {s : State} (h : Memory.wf s.mem = true) (pa : Nat) (b : List Byte) :
    Memory.wf (s.homeSet pa b).mem = true := by
  unfold State.homeSet
  split <;> simp [h, setBytes_mem_wf]

@[simp] theorem homeWrite_mem_wf {s : State} (h : Memory.wf s.mem = true) (pa : Nat) (b : List Byte) :
    Memory.wf (s.homeWrite pa b).mem = true := by
  simp [State.homeWrite, h]

@[simp] theorem engineSet_mem_wf {s : State} (h : Memory.wf s.mem = true) (pa : Nat) (b : List Byte) :
    Memory.wf (s.engineSet pa b).mem = true := by
  simp [State.engineSet, h]

@[simp] theorem mark_mem (s : State) (g : BitVec 1024) (p : Unit → Bool) : (s.mark g p).mem = s.mem := by
  simp [State.mark]

@[simp] theorem unfocus_mem (s : State) : s.unfocus.mem = s.mem := by
  simp [State.unfocus]

theorem apart_mem_wf {α : Type} {s : State} {f : State → State × α} (hf : Memory.wf (f s.unfocus).1.mem = true) :
    Memory.wf (s.apart f).1.mem = true := by
  simp [State.apart, hf]

@[simp] theorem homeAtomic_mem_wf {s : State} (h : Memory.wf s.mem = true) (pa n : Nat) (f : Nat → Option Nat) :
    Memory.wf (s.homeAtomic pa n f).1.mem = true := by
  fun_cases State.homeAtomic <;> simp [*]

end Sys2Proof.Machine
end

