-- ==== Sys2Proof/Proofs/CanonicalTasks.lean ====
section
/-! What the release of held operations, tasks, memory instructions, queues, control and synchronisation keep of the canonical form. -/

namespace Sys2Proof.Machine

@[simp] theorem modLaunch_mem (s : State) (n : BitVec 32) (f : Launch → Launch) : (s.modLaunch n f).mem = s.mem := by
  simp [State.modLaunch]

@[simp] theorem progress_mem (s : State) (n : BitVec 32) : (s.progress n).mem = s.mem := by
  simp [State.progress]

@[simp] theorem modUnits_mem (s : State) (p : Unit → Bool) (f : Unit → Unit) : (s.modUnits p f).mem = s.mem := by
  simp [State.modUnits]

@[simp] theorem putElem_mem (s : State) (u : Unit) (q : Nat) (e : Elem) : (s.putElem u q e).mem = s.mem := by
  simp [State.putElem]

@[simp] theorem spill_mem_wf {s : State} (h : Memory.wf s.mem = true) (e : SpillElem) : Memory.wf (s.spill e).mem = true := by
  simp [State.spill, h, setBytes_mem_wf]

@[simp] theorem deliver_mem_wf {s : State} (h : Memory.wf s.mem = true) (l : Loc) (launch : BitVec 32) (q : Nat) (e : Elem) :
    Memory.wf (s.deliver l launch q e).mem = true := by
  unfold State.deliver
  split <;> simp [h]

@[simp] theorem message_mem_wf {s : State} (h : Memory.wf s.mem = true) (i : Issuer) (ws : List Word) :
    Memory.wf (s.message i ws).mem = true := by
  simp [State.message, h]

@[simp] theorem advance_mem (s : State) (c : Nat) (err : Option Word) : (s.advance c err).mem = s.mem := by
  unfold State.advance
  split <;> simp

@[simp] theorem setErr_mem (s : State) (c : Nat) (st : Word) : (s.setErr c st).mem = s.mem := by
  simp [State.setErr]

@[simp] theorem refuseSend_mem_wf {s : State} (h : Memory.wf s.mem = true) (i : Issuer) (dest : Word) (reason : Nat) :
    Memory.wf (s.refuseSend i dest reason).mem = true := by
  simp [State.refuseSend, h]

@[simp] theorem retryRefusals_mem_wf {s : State} (h : Memory.wf s.mem = true) : Memory.wf s.retryRefusals.mem = true := by
  exact foldl_mem_wf (fun _ _ ht => by simp [ht]) h

@[simp] theorem emitSend_mem (s : State) (i : Issuer) (b : List Byte) : (s.emitSend i b).mem = s.mem := by
  simp [State.emitSend]

@[simp] theorem releaseSend_mem_wf {s : State} (h : Memory.wf s.mem = true) (i : Issuer) (b : List Byte) :
    Memory.wf (s.releaseSend i b).mem = true := by
  simp [State.releaseSend, h]

@[simp] theorem appendEntry_mem (s : State) (stream : Nat) (b : List Byte) : (s.appendEntry stream b).mem = s.mem := by
  simp [State.appendEntry]

@[simp] theorem releaseWord_mem_wf {s : State} (h : Memory.wf s.mem = true) (q : QReg) (stream : Nat) (x : Word) :
    Memory.wf (s.releaseWord q stream x).mem = true := by
  simp [State.releaseWord, h]

@[simp] theorem releaseRow_mem_wf {s : State} (h : Memory.wf s.mem = true) (q : QReg) (stream : Nat) (b : List Byte) :
    Memory.wf (s.releaseRow q stream b).mem = true := by
  simp [State.releaseRow, h]

@[simp] theorem releaseMatrix_mem (s : State) (c : MatCmd) : (s.releaseMatrix c).mem = s.mem := by
  simp [State.releaseMatrix]

@[simp] theorem releaseRope_mem (s : State) (c : RopeCmd) : (s.releaseRope c).mem = s.mem := by
  simp [State.releaseRope]

@[simp] theorem lowerTs_mem (s : State) (die : Nat) (launch ts : BitVec 32) : (s.lowerTs die launch ts).mem = s.mem := by
  simp [State.lowerTs]

@[simp] theorem releaseSpawn_mem (s : State) (r : SpawnRec) : (s.releaseSpawn r).mem = s.mem := by
  unfold State.releaseSpawn
  split <;> simp

@[simp] theorem endCopy_mem (s : State) (r : CopyReq) : (s.endCopy r).mem = s.mem := by
  simp [State.endCopy]

@[simp] theorem releaseCopy_mem (s : State) (r : CopyReq) : (s.releaseCopy r).mem = s.mem := by
  simp only [State.releaseCopy]
  repeat' split
  all_goals simp

@[simp] theorem release_mem_wf {s : State} (h : Memory.wf s.mem = true) (x : Held) : Memory.wf (s.release x).mem = true := by
  unfold State.release
  split <;> simp [h]

@[simp] theorem unlockAll_mem (s : State) : s.unlockAll.mem = s.mem := by
  simp [State.unlockAll]

@[simp] theorem relock_mem (s : State) : s.relock.mem = s.mem := by
  simp [State.relock]

/-- The state in which a preparation stands has canonical memory. -/
def PrepOk : Prep → Prop
  | .ok t _ _ => Memory.wf t.mem = true
  | .wait t => Memory.wf t.mem = true
  | .trap t _ => Memory.wf t.mem = true

@[simp] theorem prepOk_ok (t : State) (l : List Perform) (x : Nat) : PrepOk (.ok t l x) ↔ Memory.wf t.mem = true := Iff.rfl

@[simp] theorem prepOk_wait (t : State) : PrepOk (.wait t) ↔ Memory.wf t.mem = true := Iff.rfl

@[simp] theorem prepOk_trap (t : State) (i : TrapInfo) : PrepOk (.trap t i) ↔ Memory.wf t.mem = true := Iff.rfl

theorem prepFault_prepOk {s : State} (h : Memory.wf s.mem = true) (acc : Acc) (va : Nat) (c : Cause) (e : Word) :
    PrepOk (s.prepFault acc va c e) := by
  have hf := faultCur_gotOk (s := if s.cur.task.locked.isEmpty then s else s.relock) (by simp [h]) acc va c e true 0
  unfold State.prepFault
  split
  next e => rw [e] at hf; exact hf
  next e => rw [e] at hf; exact hf
  next e => rw [e] at hf; exact hf

theorem prepSpan_prepOk {s : State} (h : Memory.wf s.mem = true) (va : Nat) (acc : Acc) (red : Option (AtomOp × AType))
    (k : Nat → Perform) : PrepOk (s.prepSpan va acc red k) := by
  have ht := translate_mem_wf h (sliceDie s.cur.loc.die) s.cur.job va acc (tsrSup s.cur.tsr) s.cur.secure
  unfold State.prepSpan
  simp only
  split
  next e => rw [e] at ht; exact prepFault_prepOk ht ..
  next e => rw [e] at ht; exact ht
  next e =>
    rw [e] at ht
    repeat' split
    all_goals simp [ht, prepFault_prepOk ht]

theorem andThen_prepOk {p : Prep} {f : State → Prep} (hp : PrepOk p) (hf : ∀ t : State, Memory.wf t.mem = true → PrepOk (f t)) :
    PrepOk (p.andThen f) := by
  cases p with
  | ok t l x =>
    have ht := hf t hp
    simp only [Prep.andThen]
    split <;> simp_all
  | wait t => exact hp
  | trap t i => exact hp

theorem prepPieces_prepOk {s : State} (h : Memory.wf s.mem = true) (va : Nat) (b : List Byte) (l : List (Nat × Nat)) :
    PrepOk (s.prepPieces va b l) := by
  induction l generalizing s with
  | nil => exact h
  | cons p rest ih => exact andThen_prepOk (prepSpan_prepOk h ..) fun t ht => ih ht

theorem prepAperture_prepOk {s : State} (h : Memory.wf s.mem = true) (va : Word) (p : Perform) : PrepOk (s.prepAperture va p) := by
  unfold State.prepAperture
  split <;> exact h

theorem prepOp_prepOk {s : State} (h : Memory.wf s.mem = true) (op : TaskOp) : PrepOk (s.prepOp op) := by
  unfold State.prepOp
  split
  · split
    · exact prepAperture_prepOk h ..
    · exact prepPieces_prepOk h ..
  · split
    · exact prepAperture_prepOk h ..
    · exact prepSpan_prepOk h ..
  · exact prepAperture_prepOk h ..

theorem prepare_prepOk {s : State} (h : Memory.wf s.mem = true) (l : List TaskOp) : PrepOk (s.prepare l) := by
  induction l generalizing s with
  | nil => exact h
  | cons op rest ih => exact andThen_prepOk (prepOp_prepOk h op) fun t ht => ih ht

@[simp] theorem takeLocks_mem (s : State) (expiry : Nat) (x : List LockAsk) : (s.takeLocks expiry x).1.mem = s.mem := by
  fun_induction State.takeLocks <;> simp_all +zetaDelta [eq_mk_iff]

@[simp] theorem performLocal_mem_wf {s : State} (h : Memory.wf s.mem = true) (x : Perform) : Memory.wf (s.performLocal x).mem = true := by
  fun_cases State.performLocal <;> simp [*]

@[simp] theorem performFar_mem (s : State) (pa va expiry : Nat) (typ : PktType) (data : List Byte) :
    (s.performFar pa va expiry typ data).mem = s.mem := by
  simp [State.performFar]

@[simp] theorem hostStore_mem_wf {s : State} (h : Memory.wf s.mem = true) (host pa : Nat) (va : Word) (b : List Byte) :
    Memory.wf (s.hostStore host pa va b).mem = true := by
  simp [State.hostStore, h]

@[simp] theorem perform_mem_wf {s : State} (h : Memory.wf s.mem = true) (expiry : Nat) (p : Perform) :
    Memory.wf (s.perform expiry p).mem = true := by
  fun_cases State.perform <;> simp [*]

@[simp] theorem visibleCont_mem (s : State) (x : Cont) : (s.visibleCont x).mem = s.mem := by
  unfold State.visibleCont
  split <;> simp

@[simp] theorem makeVisible_mem_wf {s : State} (h : Memory.wf s.mem = true) (expiry : Nat) (l : List Perform) (p : Unit → Bool) :
    Memory.wf (s.makeVisible expiry l p).mem = true := by
  have hf := foldl_mem_wf (l := performOrder l) (fun t x ht => perform_mem_wf ht expiry x) (s := s.mark (writeSig s l) p) (by simp [h])
  simpa [State.makeVisible] using hf

@[simp] theorem retryPerform_mem_wf {s : State} (h : Memory.wf s.mem = true) (r : Remote) : Memory.wf (s.retryPerform r).mem = true := by
  simp only [State.retryPerform]
  repeat' split
  all_goals simp_all [eq_mk_iff, post_eq_some_iff]

@[simp] theorem retryPerforms_mem_wf {s : State} (h : Memory.wf s.mem = true) : Memory.wf s.retryPerforms.mem = true := by
  unfold State.retryPerforms
  refine foldl_mem_wf (fun t r ht => ?_) h
  split <;> simp [ht]

@[simp] theorem endCommit_mem_wf {s : State} (h : Memory.wf s.mem = true) (c : Cont) (lone : Bool) :
    Memory.wf (s.endCommit c lone).mem = true := by
  unfold State.endCommit
  simp only [progress_mem, State.setCur_mem]
  exact foldl_mem_wf (fun t x ht => release_mem_wf ht x) (by simp [h])

@[simp] theorem commitWaits_outOk {s : State} (h : Memory.wf s.mem = true) (c : Cont) (lone : Bool) : OutOk (s.commitWaits c lone) := by
  simp [State.commitWaits, h]

/-- What a turn of a commit answers has canonical memory. -/
def CommitOk : CommitRes → Prop
  | .ended t => Memory.wf t.mem = true
  | .still out => OutOk out

@[simp] theorem commitOk_ended (t : State) : CommitOk (.ended t) ↔ Memory.wf t.mem = true := Iff.rfl

@[simp] theorem commitOk_still (o : Out) : CommitOk (.still o) ↔ OutOk o := Iff.rfl

theorem lockStep_commitOk {s : State} (h : Memory.wf s.mem = true) (c : Cont) (lone : Bool) (l : List Perform) (expiry : Nat) :
    CommitOk (s.lockStep c lone l expiry) := by
  unfold State.lockStep
  simp only
  split
  · simp [h]
  split
  · simp [h]
  generalize hx : (if (s.scratchOnly l && s.cur.task.held.isEmpty) = true then (s, Locking.held) else s.takeLocks expiry (s.lockOrder
      l)) = x
  have ht : x.1.mem = s.mem := by rw [← hx]; simp
  obtain ⟨t, k⟩ := x
  have ht' : t.mem = s.mem := ht
  cases k with
  | wait => simp [ht', h]
  | stale => simp [ht', h]
  | held =>
    simp only
    split
    · simp [ht', h]
    · split <;> simp [ht', h]
  | refused va reason =>
    simp only
    split
    · simp [ht', h]
    · have hg := faultCur_gotOk (s := t.modCur fun u => { u with prepared := none })
        (by simp [ht', h]) .write va (causeOfReason reason) 0 true 0
      split
      next e => rw [e, gotOk_ok] at hg; simp [hg]
      next e => rw [e, gotOk_wait] at hg; simp [hg]
      next e => rw [e, gotOk_trap] at hg; simp [hg]

theorem commitStep_commitOk {s : State} (h : Memory.wf s.mem = true) (c : Cont) (lone : Bool) : CommitOk (s.commitStep c lone) := by
  have hr := retryPerforms_mem_wf h
  have hp := prepare_prepOk h s.cur.task.ops
  unfold State.commitStep
  split
  · simp only
    split <;> simp [hr]
  · split
    · exact lockStep_commitOk h ..
    · split
      next e => rw [e, prepOk_wait] at hp; simp [hp]
      next e => rw [e, prepOk_trap] at hp; simp [hp]
      next e =>
        rw [e, prepOk_ok] at hp
        split
        · simp [hp]
        · exact lockStep_commitOk (by simp [hp]) ..

/-- What follows a commit starts from a state with canonical memory. -/
@[simp] theorem withCommit_outOk {s : State} (h : Memory.wf s.mem = true) (c : Cont) (lone : Bool) {k : State → Out}
    (hk : ∀ t : State, Memory.wf t.mem = true → OutOk (k t)) : OutOk (s.withCommit c lone k) := by
  have hc := commitStep_commitOk h c lone
  unfold State.withCommit
  split
  next t e => rw [e] at hc; exact hk t hc
  next e => rw [e] at hc; exact hc

@[simp] theorem tagSig_mem (s : State) (ea : Word) : (s.tagSig ea).mem = s.mem := by
  simp [State.tagSig]

@[simp] theorem readBy_mem (s t : State) (tid : Word) : (s.readBy t tid).mem = t.mem := by
  simp [State.readBy]

theorem loadBytes_gotOk {s : State} (h : Memory.wf s.mem = true) (ea : Word) (size id pend : Nat) (tid : Word) (seen : Nat) :
    GotOk (s.loadBytes ea size id pend tid seen) := by
  have hg := readSpan_gotOk h ea size pend
  unfold State.loadBytes
  split
  · exact h
  · split
    next e => rw [e, gotOk_ok] at hg; simp [hg]
    next e => rw [e, gotOk_wait] at hg; simp [hg]
    next e => rw [e, gotOk_trap] at hg; simp [hg]

@[simp] theorem load_outOk {s : State} (h : Memory.wf s.mem = true) (la : BitVec 4) (dests : List RegKey) (ea : Word) (size : Nat)
    (signed vector lone : Bool) : OutOk (s.load la dests ea size signed vector lone) := by
  have hg := loadBytes_gotOk h ea size s.ids (if la = 0 then 0 else s.ids) s.cur.tid s.cur.task.ops.length
  unfold State.load
  simp only
  split
  next e => rw [e, gotOk_ok] at hg; simp [hg]
  next e => rw [e, gotOk_wait] at hg; simp [hg]
  next e => rw [e, gotOk_trap] at hg; simp [hg]

@[simp] theorem loadS_outOk {s : State} (h : Memory.wf s.mem = true) (la : BitVec 4) (d b : SReg) (o : MemOff) (size : Nat) (signed : Bool) :
    OutOk (s.loadS la d b o size signed) := by
  simp [State.loadS, h]

@[simp] theorem execVld_outOk {s : State} (h : Memory.wf s.mem = true) (la : BitVec 4) (d : VReg) (b : SReg) (o : MemOff) :
    OutOk (execVld la d b o s) := by
  simp [execVld, h]

@[simp] theorem execVldTag_outOk {s : State} (h : Memory.wf s.mem = true) (la : BitVec 4) (d : VReg) (b : SReg) (o : MemOff) :
    OutOk (execVldTag la d b o s) := by
  simp [execVldTag, h]

@[simp] theorem ownFaults_mem (s : State) : s.ownFaults.mem = s.mem := by
  simp [State.ownFaults]

theorem writeThrough_outOk {s : State} (h : Memory.wf s.mem = true) (ea : Word) (n : Nat) (ops : List TaskOp) {k : State → Out}
    (hk : ∀ t : State, Memory.wf t.mem = true → OutOk (k t)) : OutOk (s.writeThrough ea n ops k) := by
  have hp := prepare_prepOk h (ops.flatMap fun o => (o.parts s.cur).2)
  unfold State.writeThrough
  simp only
  split
  next e => rw [e, prepOk_wait] at hp; simp [hp]
  next e => rw [e, prepOk_trap] at hp; simp [hp]
  next t l x e =>
    rw [e, prepOk_ok] at hp
    split
    · simp [hp]
    split
    · simp [h]
    · have ht := takeLocks_mem t x (t.lockOrder l)
      split
      next e => rw [e] at ht; simp_all
      next e => rw [e] at ht; simp_all
      next e => rw [e] at ht; simp_all
      next t' e =>
        have ht' : t'.mem = t.mem := by rw [e] at ht; exact ht
        refine hk _ ?_
        simp only [State.modCur_mem, clearSig_mem]
        exact foldl_mem_wf (fun t p ht => perform_mem_wf ht x p) (by rw [ht']; exact hp)

@[simp] theorem bufferOps_outOk {s : State} (h : Memory.wf s.mem = true) (ea : Word) (n : Nat) (extra : List Nat) (ops : List TaskOp)
    {k : State → Out} (hk : ∀ t : State, Memory.wf t.mem = true → OutOk (k t)) : OutOk (s.bufferOps ea n extra ops k) := by
  unfold State.bufferOps
  simp only
  split
  · exact hk _ (by simp [h])
  split
  · exact writeThrough_outOk h ea n ops hk
  · simp [h]

@[simp] theorem storeS_outOk {s : State} (h : Memory.wf s.mem = true) (d b : SReg) (o : MemOff) (size : Nat) :
    OutOk (s.storeS d b o size) := by
  simp [State.storeS, h]

@[simp] theorem execVst_outOk {s : State} (h : Memory.wf s.mem = true) (d : VReg) (b : SReg) (o : MemOff) : OutOk (execVst d b o s) := by
  simp [execVst, h]

@[simp] theorem execVstTag_outOk {s : State} (h : Memory.wf s.mem = true) (d : VReg) (b : SReg) (o : MemOff) :
    OutOk (execVstTag d b o s) := by
  simp [execVstTag, h]

@[simp] theorem execAdr_outOk {s : State} (h : Memory.wf s.mem = true) (d b : SReg) (o : MemOff) : OutOk (execAdr d b o s) := by
  simp [execAdr, h]

theorem fillFor_mem_wf {s t : State} {q : Prefetch} (h : Memory.wf s.mem = true) (e : s.fillFor q = some t) : Memory.wf t.mem = true := by
  unfold State.fillFor at e
  simp only at e
  split at e
  · cases e; exact h
  · have ht := translate_mem_wf h (sliceDie q.loc.die) q.job q.va .read q.supervisor q.secure
    split at e
    next hx => rw [hx] at ht; cases e; exact ht
    next => cases e
    next hx =>
      rw [hx] at ht
      repeat' split at e
      all_goals cases e
      all_goals simpa using ht

@[simp] theorem prefetch_mem_wf {s : State} (h : Memory.wf s.mem = true) (q : Prefetch) : Memory.wf (s.prefetch q).mem = true := by
  refine apart_mem_wf ?_
  cases e : s.unfocus.fillFor q with
  | none => simp [h]
  | some t => simpa using fillFor_mem_wf (by simp [h]) e

@[simp] theorem retryPrefetches_mem_wf {s : State} (h : Memory.wf s.mem = true) : Memory.wf s.retryPrefetches.mem = true :=
  foldl_mem_wf (fun _ q ht => prefetch_mem_wf ht q) h

@[simp] theorem execCpf_outOk {s : State} (h : Memory.wf s.mem = true) (a b : SReg) : OutOk (execCpf a b s) := by
  simp only [execCpf]
  refine issue_outOk h ((doneC_outOk _ _).mpr (foldl_mem_wf (fun t p ht => ?_) (by simp [h])))
  split <;> simp [ht]

@[simp] theorem execCinv_outOk {s : State} (h : Memory.wf s.mem = true) (a b : SReg) : OutOk (execCinv a b s) := by
  simp [execCinv, h]

@[simp] theorem configure_mem_wf {s : State} (h : Memory.wf s.mem = true) (cluster bank : Nat) (w : Word) :
    Memory.wf (s.configure cluster bank w).mem = true := by
  simp [State.configure, h, zeroBytes_mem_wf]

@[simp] theorem leaveLbanks_mem (s : State) : s.leaveLbanks.mem = s.mem := by
  simp [State.leaveLbanks]

@[simp] theorem lbankEnd_outOk {s : State} (h : Memory.wf s.mem = true) (d : SReg) (status : Nat) : OutOk (s.lbankEnd d status) := by
  simp [State.lbankEnd, h]

@[simp] theorem lbankAct_outOk {s : State} (h : Memory.wf s.mem = true) (d : SReg) (bank : Nat) (w : Word) :
    OutOk (s.lbankAct d bank w) := by
  simp [State.lbankAct, h]

@[simp] theorem execLbank_outOk {s : State} (h : Memory.wf s.mem = true) (d a b : SReg) : OutOk (execLbank d a b s) := by
  simp only [execLbank]
  refine issue_outOk h (withCommit_outOk (by simp [h]) _ _ fun t ht => ?_)
  simp [ht]

@[simp] theorem lrngAct_outOk {s : State} (h : Memory.wf s.mem = true) (g : Nat) (w : Word) : OutOk (s.lrngAct g w) := by
  simp [State.lrngAct, h]

@[simp] theorem execLrng_outOk {s : State} (h : Memory.wf s.mem = true) (a b : SReg) : OutOk (execLrng a b s) := by
  simp only [execLrng]
  refine issue_outOk h (withCommit_outOk (by simp [h]) _ _ fun t ht => ?_)
  simp [ht]

@[simp] theorem execLstat_outOk {s : State} (h : Memory.wf s.mem = true) (d a : SReg) : OutOk (execLstat d a s) := by
  simp [execLstat, h]

@[simp] theorem execSbind_outOk {s : State} (h : Memory.wf s.mem = true) (a : SReg) : OutOk (execSbind a s) := by
  simp [execSbind, h]

@[simp] theorem execLtag_outOk {s : State} (h : Memory.wf s.mem = true) (d a : SReg) : OutOk (execLtag d a s) := by
  simp [execLtag, h]

@[simp] theorem focus_mem (s : State) (l : Loc) : (s.focus l).mem = s.mem := by
  fun_cases State.focus <;> simp [*]

@[simp] theorem freeBanks_mem_wf {s : State} (h : Memory.wf s.mem = true) (cluster : Nat) (launch : BitVec 32) :
    Memory.wf (s.freeBanks cluster launch).mem = true := by
  exact foldl_mem_wf (fun _ _ ht => by simp [ht]) h

@[simp] theorem retire_mem_wf {s : State} (h : Memory.wf s.mem = true) (reason : Nat) (code : BitVec 16) :
    Memory.wf (s.retire reason code).mem = true := by
  simp [State.retire, h]

@[simp] theorem pop_outOk {s : State} (h : Memory.wf s.mem = true) (la : BitVec 4) (dests : List RegKey) (q : QReg) (vector : Bool) :
    OutOk (s.pop la dests q vector) := by
  unfold State.pop
  simp only
  split
  next e => simpa [popFor_mem e] using h
  · split
    · simp [h]
    · split <;> simp [h]

@[simp] theorem execQpop_outOk {s : State} (h : Memory.wf s.mem = true) (la : BitVec 4) (d : SReg) (q : QReg) :
    OutOk (execQpop la d q s) := by
  simp [execQpop, h]

@[simp] theorem execVqpop_outOk {s : State} (h : Memory.wf s.mem = true) (la : BitVec 4) (d : VReg) (q : QReg) :
    OutOk (execVqpop la d q s) := by
  simp [execVqpop, h]

@[simp] theorem push_outOk {s : State} (h : Memory.wf s.mem = true) (r : Room) (held : Held) (lone : Bool) : OutOk (s.push r held lone) := by
  unfold State.push
  split <;> simp [h]

@[simp] theorem execQpush_outOk {s : State} (h : Memory.wf s.mem = true) (d : SReg) (q : QReg) (i : QImm) : OutOk (execQpush d q i s) := by
  simp [execQpush, h]

@[simp] theorem execVqpush_outOk {s : State} (h : Memory.wf s.mem = true) (d : VReg) (q : QReg) : OutOk (execVqpush d q s) := by
  simp [execVqpush, h]

@[simp] theorem execCpy_outOk {s : State} (h : Memory.wf s.mem = true) (d : SReg) (tag : BitVec 6) : OutOk (execCpy d tag s) := by
  simp [execCpy, h]

@[simp] theorem execCpyTry_outOk {s : State} (h : Memory.wf s.mem = true) (la : BitVec 4) (d : SReg) (tag : BitVec 6) :
    OutOk (execCpyTry la d tag s) := by
  simp [execCpyTry, h]

@[simp] theorem execMcmd_outOk {s : State} (h : Memory.wf s.mem = true) (d : SReg) (c : QImm) : OutOk (execMcmd d c s) := by
  simp only [execMcmd]
  refine issue_outOk h ?_
  split <;> simp [h]

@[simp] theorem tileMove_outOk {s : State} (h : Memory.wf s.mem = true) (y : BitVec 2) (m : TileMove) : OutOk (s.tileMove y m) := by
  simp [State.tileMove, h]

@[simp] theorem execTget_outOk {s : State} (h : Memory.wf s.mem = true) (d : VReg) (a : SReg) (y : BitVec 2) :
    OutOk (execTget d a y s) := by
  simp [execTget, h]

@[simp] theorem execTput_outOk {s : State} (h : Memory.wf s.mem = true) (d : VReg) (a : SReg) (y : BitVec 2) :
    OutOk (execTput d a y s) := by
  simp [execTput, h]

@[simp] theorem execQwait_outOk {s : State} (h : Memory.wf s.mem = true) (la : BitVec 4) (d : SReg) (q : QReg) :
    OutOk (execQwait la d q s) := by
  simp [execQwait, h]

@[simp] theorem execWcwait_outOk {s : State} (h : Memory.wf s.mem = true) (la : BitVec 4) (d : SReg) (c : BitVec 8) :
    OutOk (execWcwait la d c s) := by
  simp [execWcwait, h]

@[simp] theorem branch_outOk {s : State} (h : Memory.wf s.mem = true) (taken : Bool) (disp : BitVec 22) : OutOk (s.branch taken disp) := by
  simp [State.branch, h]

@[simp] theorem callTo_outOk {s : State} (h : Memory.wf s.mem = true) (t : Word) : OutOk (s.callTo t) := by
  unfold State.callTo
  split
  · simp [h]
  split
  · simp [h]
  split
  · simp [h]
  next e => simpa using spillOldest_mem_wf h e

@[simp] theorem execCall_outOk {s : State} (h : Memory.wf s.mem = true) (p : PReg) (disp : BitVec 22) : OutOk (execCall p disp s) := by
  simp only [execCall]
  split
  · exact issue_outOk h (callTo_outOk (by simp [h]) _)
  · exact issue_outOk h (by simp [h])

@[simp] theorem execJr_outOk {s : State} (h : Memory.wf s.mem = true) (a : SReg) : OutOk (execJr a s) := by
  simp [execJr, h]

@[simp] theorem execCallr_outOk {s : State} (h : Memory.wf s.mem = true) (a : SReg) : OutOk (execCallr a s) := by
  simp [execCallr, h]

@[simp] theorem returnTo_outOk {s : State} (h : Memory.wf s.mem = true) (t : Word) : OutOk (s.returnTo t) := by
  fun_cases State.returnTo <;> simp [*]

@[simp] theorem execRet_outOk {s : State} (h : Memory.wf s.mem = true) : OutOk (execRet s) := by
  simp [execRet, h]

@[simp] theorem execWflush_outOk {s : State} (h : Memory.wf s.mem = true) : OutOk (execWflush s) := by
  refine issue_outOk h ?_
  split
  · simp [h]
  split
  · simp [h]
  split
  · simp [h]
  next e => simpa using spillOldest_mem_wf (by simp [h]) e

@[simp] theorem resultC_outOk {s : State} (h : Memory.wf s.mem = true) (d : SReg) (srcs : List SReg) (x : State → Word) :
    OutOk (s.resultC d srcs x) := by
  simp [State.resultC, h]

@[simp] theorem execAtTime_outOk {s : State} (h : Memory.wf s.mem = true) (a : SReg) : OutOk (execAtTime a s) := by
  simp [execAtTime, h]

@[simp] theorem execAtExpire_outOk {s : State} (h : Memory.wf s.mem = true) : OutOk (execAtExpire s) := by
  unfold execAtExpire
  split
  · split
    · exact onNext_outOk (by simp [h]) fun t ht => by simp [ht]
    · simp [h]
  all_goals exact h

@[simp] theorem atcDone_outOk {s : State} (h : Memory.wf s.mem = true) : OutOk s.atcDone := by
  simp [State.atcDone, h]

@[simp] theorem execAtTimeC_outOk {s : State} (h : Memory.wf s.mem = true) (a : SReg) : OutOk (execAtTimeC a s) := by
  simp only [execAtTimeC]
  refine issue_outOk h (withCommit_outOk (by simp [h]) _ _ fun t ht => ?_)
  simp [ht]

@[simp] theorem gangPoll_outOk {s : State} (h : Memory.wf s.mem = true) (w : Nat) : OutOk (s.gangPoll w) := by
  simp [State.gangPoll, h]

@[simp] theorem gangAct_outOk {s : State} (h : Memory.wf s.mem = true) (w : Nat) : OutOk (s.gangAct w) := by
  simp [State.gangAct, h]

@[simp] theorem execGang_outOk {s : State} (h : Memory.wf s.mem = true) (a : SReg) : OutOk (execGang a s) := by
  simp only [execGang]
  refine issue_outOk h (withCommit_outOk (by simp [h]) _ _ fun t ht => ?_)
  simp [ht]

@[simp] theorem execSplit_outOk {s : State} (h : Memory.wf s.mem = true) : OutOk (execSplit s) := by
  simp [execSplit, h]

@[simp] theorem execTbegin_outOk {s : State} (h : Memory.wf s.mem = true) (a b : SReg) : OutOk (execTbegin a b s) := by
  simp [execTbegin, h]

@[simp] theorem execTcommit_outOk {s : State} (h : Memory.wf s.mem = true) : OutOk (execTcommit s) := by
  simp [execTcommit, h]

@[simp] theorem exitAct_outOk {s : State} (h : Memory.wf s.mem = true) (code : BitVec 16) : OutOk (s.exitAct code) := by
  simp [State.exitAct, h]

@[simp] theorem exitWith_outOk {s : State} (h : Memory.wf s.mem = true) (srcs : List SReg) (code : BitVec 16) :
    OutOk (s.exitWith srcs code) := by
  simp only [State.exitWith]
  refine issue_outOk h ?_
  simp +contextual [h]

@[simp] theorem execTspawn_outOk {s : State} (h : Memory.wf s.mem = true) (d a b : SReg) : OutOk (execTspawn d a b s) := by
  simp [execTspawn, h]

@[simp] theorem execTabort_outOk {s : State} (h : Memory.wf s.mem = true) : OutOk (execTabort s) := by
  simp [execTabort, h]

@[simp] theorem execTabortO_outOk {s : State} (h : Memory.wf s.mem = true) : OutOk (execTabortO s) := by
  simp [execTabortO, h]

@[simp] theorem divideOp_outOk {s : State} (h : Memory.wf s.mem = true) (la : BitVec 4) (d a : SReg) (b : RegLit)
    (f : Word → Word → Word) (zero : Word → Bool) : OutOk (s.divideOp la d a b f zero) := by
  simp [State.divideOp, h]

@[simp] theorem mulWide_outOk {s : State} (h : Memory.wf s.mem = true) (la : BitVec 4) (d a : SReg) (b : RegLit) (f : Word → Word → Nat) :
    OutOk (s.mulWide la d a b f) := by
  simp [State.mulWide, h]

@[simp] theorem answerPend_mem (s : State) (id : Nat) (f : Pend → Pend) : (s.answerPend id f).mem = s.mem := by
  simp [State.answerPend]

theorem faultPend_mem {s t : State} {id : Nat} {acc : Acc} {ea : Word} {c : Cause} (e : s.faultPend id acc ea c = some t) : t.mem =
    s.mem := by
  unfold State.faultPend at e
  split at e
  · cases e; rfl
  · obtain ⟨x, hx, rfl⟩ := Option.map_eq_some_iff.mp e
    simp [post_mem hx]

/-- The state in which an indivisible access ends has canonical memory. -/
def AccessedOk : Accessed → Prop
  | .ok t _ => Memory.wf t.mem = true
  | .wait t => Memory.wf t.mem = true
  | .atHub t => Memory.wf t.mem = true
  | .trap t _ => Memory.wf t.mem = true

@[simp] theorem accessedOk_ok (t : State) (old : Nat) : AccessedOk (.ok t old) ↔ Memory.wf t.mem = true := Iff.rfl

@[simp] theorem accessedOk_wait (t : State) : AccessedOk (.wait t) ↔ Memory.wf t.mem = true := Iff.rfl

@[simp] theorem accessedOk_atHub (t : State) : AccessedOk (.atHub t) ↔ Memory.wf t.mem = true := Iff.rfl

@[simp] theorem accessedOk_trap (t : State) (i : TrapInfo) : AccessedOk (.trap t i) ↔ Memory.wf t.mem = true := Iff.rfl

theorem accessedOk_ofGot {g : Got} (h : GotOk g) : AccessedOk (.ofGot g) := by
  cases g <;> exact h

theorem access_accessedOk {s : State} (h : Memory.wf s.mem = true) (id : Nat) (op : AtomOp) (t : AType) (ea : Word) (y cmp : BitVec 128) :
    AccessedOk (s.access id op t ea y cmp) := by
  have hf {x : State} (hx : Memory.wf x.mem = true) (c : Cause) (e : Word) :
      AccessedOk (.ofGot (x.faultCur .atomic ea.toNat c e false id)) := accessedOk_ofGot (faultCur_gotOk hx ..)
  have ht := translate_mem_wf h (sliceDie s.cur.loc.die) s.cur.job ea.toNat .atomic (tsrSup s.cur.tsr) s.cur.secure
  simp only [State.access]
  split
  · exact h
  split
  · repeat' split
    all_goals simp [h]
  split
  next e => rw [e] at ht; exact hf ht ..
  next e => rw [e] at ht; exact ht
  next t' pa w expiry e =>
    rw [e] at ht
    have ht' : Memory.wf t'.mem = true := ht
    split
    · repeat' split
      all_goals simp [ht', hf]
    · have ha := ask_mem t' .atomic s.cur.loc ea.toNat pa (typeBytes t) expiry (atomicData op t false y cmp) s.cur.secure
      split
      next e => rw [e] at ha; simp_all
      next t'' reason _ e =>
        have ha' : Memory.wf t''.mem = true := by rw [e] at ha; rw [show t''.mem = _ from ha]; exact ht'
        split <;> simp [ha', hf]
      next e => rw [e] at ha; simp_all

@[simp] theorem atomicAct_outOk {s : State} (h : Memory.wf s.mem = true) (op : AtomOp) (t : AType) (la : BitVec 4) (d : SReg) (ea : Word)
    (y cmp : BitVec 128) (lone : Bool) : OutOk (s.atomicAct op t la d ea y cmp lone) := by
  have ha := access_accessedOk h s.ids op t ea y cmp
  unfold State.atomicAct
  simp only
  split
  next e => rw [e] at ha; simpa using ha
  next e => rw [e] at ha; simpa using ha
  next e => rw [e] at ha; simpa using ha
  next e => rw [e, accessedOk_trap] at ha; split <;> simp [ha]

@[simp] theorem atomic_outOk {s : State} (h : Memory.wf s.mem = true) (op : AtomOp) (la : BitVec 4) (d a : SReg) (b : RegLit) (t : AType) :
    OutOk (s.atomic op la d a b t) := by
  simp only [State.atomic]
  refine issue_outOk h (withCommit_outOk (by simp [h]) _ _ fun t ht => ?_)
  simp [ht]

@[simp] theorem reduction_outOk {s : State} (h : Memory.wf s.mem = true) (op : AtomOp) (a : SReg) (b : RegLit) (t : AType) :
    OutOk (s.reduction op a b t) := by
  simp [State.reduction, h]

@[simp] theorem tellSc_mem (s : State) (n : ScNews) (a : ScAnn) : (s.tellSc n a).mem = s.mem := by
  simp [State.tellSc]

@[simp] theorem scPut_mem (s : State) (a : ScAnn) : (s.scPut a).mem = s.mem := by
  simp [State.scPut]

@[simp] theorem scMod_mem (s : State) (id : Nat) (f : ScAnn → ScAnn) : (s.scMod id f).mem = s.mem := by
  simp [State.scMod]

@[simp] theorem scGone_mem (s : State) (id : Nat) : (s.scGone id).mem = s.mem := by
  simp [State.scGone]

@[simp] theorem scHome_mem (s : State) (id home : Nat) : (s.scHome id home).mem = s.mem := by
  unfold State.scHome
  split <;> simp

@[simp] theorem scEnded_mem (s : State) (id : Nat) : (s.scEnded id).mem = s.mem := by
  unfold State.scEnded
  split <;> simp

theorem announce_accessedOk {s : State} (h : Memory.wf s.mem = true) (id : Nat) (op : ScOp) (m : ScScope) (z : ScSize)
    (ea y cmp ta : Word) :
    AccessedOk (s.announce id op m z ea y cmp ta) := by
  have hf {x : State} (hx : Memory.wf x.mem = true) (c : Cause) (e : Word) :
      AccessedOk (.ofGot (x.faultCur .atomic ea.toNat c e false id)) := accessedOk_ofGot (faultCur_gotOk hx ..)
  have hp : Memory.wf (s.scPut (scAnnOf s id op m z ea y cmp ta s.cur.loc)).mem = true := by simp [h]
  simp only [State.announce]
  generalize s.scPut (scAnnOf s id op m z ea y cmp ta s.cur.loc) = p at hp
  have ht := translate_mem_wf hp (sliceDie s.cur.loc.die) s.cur.job ea.toNat .atomic (tsrSup s.cur.tsr) s.cur.secure
  split
  · split <;> simp [hp]
  split
  next e => rw [e] at ht; exact hf ht ..
  next e => rw [e] at ht; exact ht
  next t' pa w x e =>
    rw [e] at ht
    have ht' : Memory.wf t'.mem = true := ht
    split
    · repeat' split
      all_goals simp [ht', hf]
    split
    · simp [ht']
    · have ha := ask_mem (t'.scHome id (moduleOf pa)) .sc s.cur.loc ea.toNat pa (scBytes z) x (scData op m z y cmp ta s.cur.loc id)
        s.cur.secure
      split
      next e => rw [e] at ha; simp_all
      next t'' reason _ e =>
        have ha' : Memory.wf t''.mem = true := by rw [e] at ha; rw [show t''.mem = _ from ha]; simp [ht']
        split <;> simp [ha', hf]
      next e => rw [e] at ha; simp_all

@[simp] theorem scAct_outOk {s : State} (h : Memory.wf s.mem = true) (op : ScOp) (m : ScScope) (z : ScSize) (la : BitVec 4) (d : SReg)
    (ea y cmp : Word) (lone : Bool) : OutOk (s.scAct op m z la d ea y cmp lone) := by
  have ha := announce_accessedOk h s.ids op m z ea y cmp s.time
  unfold State.scAct
  simp only
  split
  next e => rw [e] at ha; simpa using ha
  next e => rw [e] at ha; simpa using ha
  next e => rw [e] at ha; simpa using ha
  next e => rw [e, accessedOk_trap] at ha; split <;> simp [ha]

@[simp] theorem scOp_outOk {s : State} (h : Memory.wf s.mem = true) (op : ScOp) (la : BitVec 4) (d a : SReg) (b : RegLit) (m : ScScope)
    (z : ScSize) : OutOk (s.scOp op la d a b m z) := by
  simp only [State.scOp]
  refine issue_outOk h (withCommit_outOk (by simp [h]) _ _ fun t ht => ?_)
  simp [ht]

@[simp] theorem scAnswer_mem (s : State) (a : ScAnn) (old : Nat) : (s.scAnswer a old).mem = s.mem := by
  simp [State.scAnswer]

@[simp] theorem clearForeign_mem (s : State) : s.clearForeign.mem = s.mem := by
  simp [State.clearForeign]

@[simp] theorem fenceEnd_outOk {s : State} (h : Memory.wf s.mem = true) (i : Bool) : OutOk (s.fenceEnd i) := by
  simp [State.fenceEnd, h]

@[simp] theorem fencePoll_outOk {s : State} (h : Memory.wf s.mem = true) (i : Bool) : OutOk (s.fencePoll i) := by
  simp [State.fencePoll, h]

@[simp] theorem fenceAct_outOk {s : State} (h : Memory.wf s.mem = true) (e i : Bool) : OutOk (s.fenceAct e i) := by
  simp [State.fenceAct, h]

@[simp] theorem fence_outOk {s : State} (h : Memory.wf s.mem = true) (e i : Bool) : OutOk (s.fence e i) := by
  simp only [State.fence]
  refine issue_outOk h (withCommit_outOk (by simp [h]) _ _ fun t ht => ?_)
  simp [ht]

@[simp] theorem barAct_outOk {s : State} (h : Memory.wf s.mem = true) (b count : Nat) : OutOk (s.barAct b count) := by
  unfold State.barAct
  split <;> simp [h]

@[simp] theorem barPoll_outOk {s : State} (h : Memory.wf s.mem = true) (b gen : Nat) : OutOk (s.barPoll b gen) := by
  unfold State.barPoll
  split <;> simp [h]

@[simp] theorem execBar_outOk {s : State} (h : Memory.wf s.mem = true) (a b : SReg) : OutOk (execBar a b s) := by
  simp only [execBar]
  refine issue_outOk h (withCommit_outOk (by simp [h]) _ _ fun t ht => ?_)
  simp [ht]

end Sys2Proof.Machine
end

