-- ==== Sys2Proof/Proofs/CanonicalEngines.lean ====
section
/-! What the engines keep of the canonical form: their arrays, and a small calculus for engine work (`EngKeeps`, `RopeKeeps`) in which the
proof about a piece of work follows its `do` block. -/

namespace Sys2Proof.Machine

@[simp] theorem forgetReads_mem (s : State) (p : Remote → Bool) : (s.forgetReads p).mem = s.mem := by
  simp [State.forgetReads]

@[simp] theorem engAsk_mem (s : State) (typ : PktType) (loc : Loc) (va pa n expiry : Nat) (data : List Byte) (secure : Bool) :
    (s.engAsk typ loc va pa n expiry data secure).1.mem = s.mem := by
  fun_cases State.engAsk <;> simp [*]

@[simp] theorem sendWrite_mem (s : State) (loc : Loc) (who : Issuer) (w : EngWrite) : (s.sendWrite loc who w).mem = s.mem := by
  unfold State.sendWrite
  split <;> simp

@[simp] theorem claimFrom_mem (s : State) (loc : Loc) (secure : Bool) (x : List EngWrite) : (s.claimFrom loc secure x).1.mem = s.mem := by
  fun_induction State.claimFrom <;> simp_all +zetaDelta [eq_mk_iff]

@[simp] theorem claim_mem (s : State) (t : EngSt) : (s.claim t).1.mem = s.mem := by
  simp [State.claim]

@[simp] theorem dropRemotes_mem (s : State) (loc : Loc) : (s.dropRemotes loc).mem = s.mem := by
  simp [State.dropRemotes]

@[simp] theorem engineFault_mem (s : State) (src : Source) (who : Issuer) (acc : Acc) (va : Nat) (c : Cause) (e : Word) :
    (s.engineFault src who acc va c e).mem = s.mem := by
  simp [State.engineFault]

@[simp] theorem sendAgainRefused_mem (r : Remote) (t : State) (c : Cause) : (State.sendAgain.refused r t c).mem = t.mem := rfl

@[simp] theorem sendAgain_mem_wf {s : State} (h : Memory.wf s.mem = true) (src : Source) (who : Issuer) (r : Remote) :
    Memory.wf (s.sendAgain src who r).mem = true := by
  have ht : Memory.wf (s.apart fun s => s.translate (sliceDie r.loc.die) who.job r.va .write who.supervisor who.secure).1.mem = true :=
    apart_mem_wf (by simp [h])
  unfold State.sendAgain
  split
  · exact h
  generalize (s.apart fun s => s.translate (sliceDie r.loc.die) who.job r.va .write who.supervisor who.secure) = y at ht
  obtain ⟨t, z⟩ := y
  have ht : Memory.wf t.mem = true := ht
  cases z with
  | wait => exact ht
  | fault c e => simp [ht]
  | ok pa e x =>
    simp only
    split
    · exact ht
    split
    · simp [ht]
    · split <;> simp [ht]

@[simp] theorem refusedWrite_mem (s : State) (src : Source) (who : Issuer) (r : Remote) : (s.refusedWrite src who r).mem = s.mem := by
  unfold State.refusedWrite
  split
  · rfl
  next e => simp [post_mem e]

/-- A fold over states paired with a note keeps the canonical form where every step does. -/
theorem foldl_fst_mem_wf {α β : Type} {f : State × β → α → State × β} {l : List α} {x : State × β}
    (hf : ∀ y a, Memory.wf y.1.mem = true → Memory.wf (f y a).1.mem = true) (h : Memory.wf x.1.mem = true) :
    Memory.wf (l.foldl f x).1.mem = true := by
  induction l generalizing x with
  | nil => exact h
  | cons a r ih => exact ih (hf x a h)

@[simp] theorem refusedWrites_mem_wf {s : State} (h : Memory.wf s.mem = true) (src : Source) (who : Issuer) (loc : Loc) :
    Memory.wf (s.refusedWrites src who loc).1.mem = true := by
  refine foldl_fst_mem_wf (fun y r hy => ?_) h
  split
  · simp [hy]
  split
  · simp [hy]
  · split <;> simp_all [eq_mk_iff]

@[simp] theorem countDown_mem (s : State) (i : Issuer) (f : Unit → Unit) : (s.countDown i f).mem = s.mem := by
  simp [State.countDown]

@[simp] theorem copyReport_mem_wf {s : State} (h : Memory.wf s.mem = true) (r : CopyReq) (status : Nat) (w1 w2 w3 : Word) :
    Memory.wf (s.copyReport r status w1 w2 w3).mem = true := by
  unfold State.copyReport
  split <;> simp [h]

@[simp] theorem recordFor_mem_wf {s : State} (h : Memory.wf s.mem = true) (c : RopeCmd) (ws : List Word) :
    Memory.wf (s.recordFor c ws).mem = true := by
  simp [State.recordFor, h]

@[simp] theorem acquire_mem (s : State) (l : Loc) : (s.acquire l).mem = s.mem := by
  simp [State.acquire]

@[simp] theorem ropeReport_mem_wf {s : State} (h : Memory.wf s.mem = true) (c : RopeCmd) (ws : List Word) :
    Memory.wf (s.ropeReport c ws).mem = true := by
  unfold State.ropeReport
  split <;> simp [h]

@[simp] theorem outSettled_mem (s : State) (c : MatCmd) : (s.outSettled c).mem = s.mem := by
  simp [State.outSettled]

@[simp] theorem matrixReport_mem_wf {s : State} (h : Memory.wf s.mem = true) (c : MatCmd) : Memory.wf (s.matrixReport c).mem = true := by
  simp [State.matrixReport, h]

theorem engineEntry_mem_wf {s t : State} {stream : Nat} {b : List Byte} (h : Memory.wf s.mem = true) (e : s.engineEntry stream b = some t) :
    Memory.wf t.mem = true := by
  simp only [State.engineEntry] at e
  split at e
  · split at e
    · split at e <;> cases e
      simp [h]
    · cases e; simp [h]
  · split at e <;> cases e
    simp [h]

@[simp] theorem outChecks_mem (s : State) (cl : Nat) (product : Bool) : (s.outChecks cl product).mem = s.mem := by
  simp [State.outChecks]

@[simp] theorem setArray_mem (s : State) (cl : Nat) (product : Bool) (a : Array') : (s.setArray cl product a).mem = s.mem := by
  simp [State.setArray]

@[simp] theorem execArrayGrant_outOk {s : State} (h : Memory.wf s.mem = true) (die cluster : Nat) (product : Bool) :
    OutOk (execArrayGrant die cluster product s) := by
  fun_cases execArrayGrant <;> simp [*]

@[simp] theorem freeArray_mem (s : State) (cl : Nat) (product : Bool) : (s.freeArray cl product).mem = s.mem := by
  simp [State.freeArray]

@[simp] theorem rowWork_mem (s : State) (cl : Nat) (product : Bool) : (s.rowWork cl product).mem = s.mem := by
  simp only [State.rowWork]
  repeat' split
  all_goals simp

@[simp] theorem rowStep_mem (s : State) (cl : Nat) (product : Bool) : (s.rowStep cl product).mem = s.mem := by
  simp [State.rowStep]

@[simp] theorem execFlailRow_outOk {s : State} (h : Memory.wf s.mem = true) (die cluster : Nat) : OutOk (execFlailRow die cluster s) := by
  simp [execFlailRow, h]

@[simp] theorem execProductRow_outOk {s : State} (h : Memory.wf s.mem = true) (die cluster : Nat) :
    OutOk (execProductRow die cluster s) := by
  simp [execProductRow, h]

@[simp] theorem pushList_mem_wf {s : State} (h : Memory.wf s.mem = true) (c : MatCmd) (x : List Elem) (n : Nat) :
    Memory.wf (State.pushList c x s n).1.mem = true := by
  fun_induction State.pushList <;> simp [*]

@[simp] theorem pushRow_mem_wf {s : State} (h : Memory.wf s.mem = true) (cl key : Nat) (c : MatCmd) :
    Memory.wf (s.pushRow cl key c).mem = true := by
  simp [State.pushRow, h]

@[simp] theorem execQ3Push_outOk {s : State} (h : Memory.wf s.mem = true) (die cluster : Nat) (product : Bool) :
    OutOk (execQ3Push die cluster product s) := by
  fun_cases execQ3Push <;> simp [*]

@[simp] theorem execMatrixComplete_outOk {s : State} (h : Memory.wf s.mem = true) (die cluster : Nat) (product : Bool) :
    OutOk (execMatrixComplete die cluster product s) := by
  simp only [execMatrixComplete]
  repeat' split
  all_goals simp [h]

@[simp] theorem moveTile_mem (s : State) (key y : Nat) (m : TileMove) : (s.moveTile key y m).mem = s.mem := by
  simp [State.moveTile]

@[simp] theorem execTileMovePerform_outOk {s : State} (h : Memory.wf s.mem = true) (die cluster core : Nat) (y : BitVec 2) :
    OutOk (execTileMovePerform die cluster core y s) := by
  fun_cases execTileMovePerform <;> simp [*]

@[simp] theorem execLbankZeroDone_outOk {s : State} (h : Memory.wf s.mem = true) (die cluster bank : Nat) :
    OutOk (execLbankZeroDone die cluster bank s) := by
  simp [execLbankZeroDone, h]

/-! ### Engine work keeps the canonical form -/

/-- The machine that a run of engine work leaves, however it ends. -/
def engEnd {α : Type} : EStateM.Result EngEnd EngSt α → State
  | .ok _ t => t.s
  | .error _ t => t.s

/-- Engine work that leaves canonical memory canonical, however it ends. -/
def EngKeeps {α : Type} (m : EngM α) : Prop := ∀ t : EngSt, Memory.wf t.s.mem = true → Memory.wf (engEnd (m t)).mem = true

/-- Work on ropes that leaves canonical memory canonical, whatever new nodes it begins with. -/
def RopeKeeps {α : Type} (m : RopeM α) : Prop := ∀ r, EngKeeps (m r)

/-- A property of the computations of a monad that holds of `pure` and passes through `bind`. -/
structure Closed {m : Type → Type} [Monad m] (P : ∀ {α : Type}, m α → Prop) : Prop where
  pure : ∀ {α : Type} (a : α), P (Pure.pure a : m α)
  bind : ∀ {α β : Type} {x : m α} {f : α → m β}, P x → (∀ a, P (f a)) → P (x >>= f)

namespace Closed

variable {m : Type → Type} [Monad m] [LawfulMonad m] {P : ∀ {α : Type}, m α → Prop} {α β γ : Type}

omit [LawfulMonad m] in
theorem foldlM (c : Closed (m := m) P) {f : β → α → m β} (hf : ∀ b a, P (f b a)) (l : List α) (b : β) : P (l.foldlM f b) := by
  induction l generalizing b with
  | nil => exact c.pure b
  | cons a r ih => exact c.bind (hf b a) fun x => ih x

theorem mapM (c : Closed (m := m) P) {f : α → m β} (hf : ∀ a, P (f a)) (l : List α) : P (l.mapM f) := by
  induction l with
  | nil => simpa using c.pure []
  | cons a r ih => simpa using c.bind (hf a) fun x => c.bind ih fun y => c.pure (x :: y)

omit [LawfulMonad m] in
theorem filterAuxM (c : Closed (m := m) P) {f : α → m Bool} (hf : ∀ a, P (f a)) (l acc : List α) : P (l.filterAuxM f acc) := by
  induction l generalizing acc with
  | nil => exact c.pure acc
  | cons a r ih => exact c.bind (hf a) fun b => ih (cond b (a :: acc) acc)

omit [LawfulMonad m] in
theorem filterM (c : Closed (m := m) P) {f : α → m Bool} (hf : ∀ a, P (f a)) (l : List α) : P (l.filterM f) :=
  c.bind (c.filterAuxM hf l []) fun r => c.pure r.reverse

omit [LawfulMonad m] in
theorem mapIdxM_go (c : Closed (m := m) P) {f : Nat → α → m β} (hf : ∀ i a, P (f i a)) (l : List α) (acc : Array β) :
    P (List.mapIdxM.go f l acc) := by
  induction l generalizing acc with
  | nil => exact c.pure acc.toList
  | cons a r ih => exact c.bind (hf acc.size a) fun b => ih (acc.push b)

omit [LawfulMonad m] in
theorem mapIdxM (c : Closed (m := m) P) {f : Nat → α → m β} (hf : ∀ i a, P (f i a)) (l : List α) : P (l.mapIdxM f) :=
  c.mapIdxM_go hf l #[]

omit [LawfulMonad m] in
theorem filterMapM_loop (c : Closed (m := m) P) {f : α → m (Option β)} (hf : ∀ a, P (f a)) (l : List α) (acc : List β) :
    P (List.filterMapM.loop f l acc) := by
  induction l generalizing acc with
  | nil => exact c.pure acc.reverse
  | cons a r ih =>
    refine c.bind (hf a) fun o => ?_
    cases o with
    | none => exact ih acc
    | some b => exact ih (b :: acc)

omit [LawfulMonad m] in
theorem filterMapM (c : Closed (m := m) P) {f : α → m (Option β)} (hf : ∀ a, P (f a)) (l : List α) : P (l.filterMapM f) :=
  c.filterMapM_loop hf l []

end Closed

namespace EngKeeps

variable {α β : Type}

theorem pure (a : α) : EngKeeps (Pure.pure a) := fun _ h => h

theorem bind {x : EngM α} {f : α → EngM β} (hx : EngKeeps x) (hf : ∀ a, EngKeeps (f a)) : EngKeeps (x >>= f) := by
  intro t h
  have hx := hx t h
  show Memory.wf (engEnd (EStateM.bind x f t)).mem = true
  unfold EStateM.bind
  generalize x t = y at hx
  cases y with
  | ok a t' => exact hf a t' hx
  | error e t' => exact hx

theorem throw (e : EngEnd) : EngKeeps (MonadExcept.throw e : EngM α) := fun _ h => h

/-- What follows a look at the state may use that its memory is canonical. -/
theorem get {f : EngSt → EngM β} (hf : ∀ t, Memory.wf t.s.mem = true → EngKeeps (f t)) : EngKeeps (MonadState.get >>= f) :=
  fun t h => hf t h t h

theorem set {t : EngSt} (h : Memory.wf t.s.mem = true) : EngKeeps (MonadStateOf.set t) := fun _ _ => h

theorem change {f : EngSt → EngSt} (hf : ∀ t, Memory.wf t.s.mem = true → Memory.wf (f t).s.mem = true) :
    EngKeeps (modify f : EngM PUnit) := fun t h => hf t h

theorem ite {c : Prop} [Decidable c] {x y : EngM α} (hx : EngKeeps x) (hy : EngKeeps y) : EngKeeps (if c then x else y) := by
  split
  · exact hx
  · exact hy

theorem closed : Closed (m := EngM) EngKeeps := ⟨pure, bind⟩

end EngKeeps

namespace RopeKeeps

variable {α β : Type}

theorem pure (a : α) : RopeKeeps (Pure.pure a) := fun _ => .pure _

theorem bind {x : RopeM α} {f : α → RopeM β} (hx : RopeKeeps x) (hf : ∀ a, RopeKeeps (f a)) : RopeKeeps (x >>= f) :=
  fun r => .bind (hx r) fun y => hf y.1 y.2

theorem throw (e : EngEnd) : RopeKeeps (MonadExcept.throw e : RopeM α) := fun _ => .throw e

theorem lift {x : EngM α} (hx : EngKeeps x) : RopeKeeps (liftM x : RopeM α) := fun _ => .bind hx fun _ => .pure _

theorem get : RopeKeeps (MonadState.get : RopeM RopeSt) := fun _ => .pure _

theorem set (r : RopeSt) : RopeKeeps (MonadStateOf.set r : RopeM PUnit) := fun _ => .pure _

theorem ite {c : Prop} [Decidable c] {x y : RopeM α} (hx : RopeKeeps x) (hy : RopeKeeps y) : RopeKeeps (if c then x else y) := by
  split
  · exact hx
  · exact hy

theorem closed : Closed (m := RopeM) RopeKeeps := ⟨pure, bind⟩

end RopeKeeps

/-! ### What each piece of engine work keeps -/

theorem engStop_keeps {α : Type} {n : Nat} : EngKeeps (engStop n : EngM α) := .throw _
theorem engCheck_keeps {b : Bool} {n : Nat} : EngKeeps (engCheck b n) := .ite (.pure _) (.throw _)

theorem engXlate_keeps {acc : Acc} {va : Nat} : EngKeeps (engXlate acc va) := by
  refine .get fun t h => ?_
  split
  · exact .pure _
  have hx := apart_mem_wf (s := t.s) (f := fun s => s.translate (sliceDie t.loc.die) t.who.job va acc t.who.supervisor t.who.secure)
      (by simp [h])
  split
  next e => exact .bind (.set (by rw [e] at hx; exact hx)) fun _ => .throw _
  next e => exact .bind (.set (by rw [e] at hx; exact hx)) fun _ => .throw _
  next e => exact .bind (.set (by rw [e] at hx; exact hx)) fun _ => .pure _

theorem engRenew_keeps {acc : Acc} {va : Nat} : EngKeeps (engRenew acc va) :=
  .bind (.change fun _ h => by simp [h]) fun _ => engXlate_keeps

theorem engFix_keeps {acc : Acc} {va : Nat} {x : Nat × Word × Nat} : EngKeeps (engFix acc va x) := .change fun _ h => h

theorem engReadPa_far_keeps {va : Nat} {e : Word} {expiry : Nat} {l : List Byte} {v a m : Nat} :
    EngKeeps (engReadPa.far va expiry e l v a m) := by
  refine .get fun t h => ?_
  split
  next e => exact .bind (.set (by simp_all [eq_mk_iff])) fun _ => .throw _
  next e => exact .bind (.set (by simp_all [eq_mk_iff])) fun _ => .pure _
  next e => exact .bind (.set (by simp_all [eq_mk_iff])) fun _ => .throw _

theorem engReadPa_keeps {pa n va expiry : Nat} {e : Word} : EngKeeps (engReadPa pa n va expiry e) := by
  refine .get fun t h => ?_
  split
  · refine .ite (.throw _) ?_
    split
    · exact .throw _
    · exact .throw _
    · exact .pure _
  · exact .bind (EngKeeps.closed.foldlM (fun _ _ => engReadPa_far_keeps) _ _) fun _ => .pure _

theorem engRead_keeps {va n : Nat} : EngKeeps (engRead va n) :=
  EngKeeps.closed.foldlM (fun _ _ => .bind engXlate_keeps fun _ => .bind engReadPa_keeps fun _ => .pure _) _ _

theorem engNum_keeps {va n : Nat} : EngKeeps (engNum va n) := .bind engRead_keeps fun _ => .pure _

theorem engWord_keeps {va : Nat} : EngKeeps (engWord va) := .bind engNum_keeps fun _ => .pure _

theorem engWritePa_keeps {pa va expiry : Nat} {b : List Byte} : EngKeeps (engWritePa pa va expiry b) := .change fun _ h => h

theorem engWrite_keeps {va : Nat} {b : List Byte} : EngKeeps (engWrite va b) :=
  EngKeeps.closed.foldlM (fun _ _ => .bind engXlate_keeps fun _ => .get fun _ _ => by
    split
    · exact .throw _
    · exact engWritePa_keeps) _ _

theorem engCount_keeps {va n m : Nat} : EngKeeps (engCount va n m) :=
  .bind engXlate_keeps fun _ => .get fun _ _ => by
    split
    · exact .throw _
    · exact .change fun _ h => h

/-! ### Ropes: nodes, pieces and blocks -/

theorem granuleVa_keeps {g : Nat} : EngKeeps (granuleVa g) := .get fun _ _ => .pure _

theorem readGranule_keeps {g n : Nat} : EngKeeps (readGranule g n) := by
  refine .bind granuleVa_keeps fun _ => .get fun _ _ => ?_
  dsimp only
  split
  · exact .bind (.change fun _ h => by simp [h]) fun _ => engReadPa_keeps
  · exact .bind engXlate_keeps fun _ => .bind engReadPa_keeps fun _ => .bind (.change fun _ h => by simp [h]) fun _ => .pure _

theorem readPool_keeps {g n : Nat} : EngKeeps (readPool g n) :=
  EngKeeps.closed.foldlM (fun _ _ => .bind readGranule_keeps fun _ => .pure _) _ _

theorem readNode_keeps {g : Nat} : EngKeeps (readNode g) :=
  .bind readPool_keeps fun _ => .bind readPool_keeps fun _ => .pure _

theorem getNode_keeps {g : Nat} : RopeKeeps (getNode g) := by
  refine .ite (.bind .get fun t => ?_) (.lift readNode_keeps)
  split
  · exact .pure _
  · exact .throw _

theorem mkNode_keeps {kind : RopeKind} {level : Nat} {ents : List Ent} : RopeKeeps (mkNode kind level ents) :=
  .ite (.throw _) (.bind .get fun _ => .bind (.set _) fun _ => .pure _)

theorem entOf_keeps {g : Nat} : RopeKeeps (entOf g) := .bind getNode_keeps fun _ => .pure _

theorem readPiece_keeps {g : Nat} : EngKeeps (readPiece g) := .bind readPool_keeps fun _ => .pure _

theorem readDir_keeps {h : Nat} : EngKeeps (readDir h) := .get fun _ _ => .bind engReadPa_keeps fun _ => .pure _

theorem writeDir_keeps {h : Nat} {d : DirEntry} : EngKeeps (writeDir h d) := .get fun _ _ => engWritePa_keeps

theorem liveBlock_keeps {h : Nat} : EngKeeps (liveBlock h) :=
  .get fun _ _ => .ite (.throw _) (.bind readDir_keeps fun _ => .ite (.pure _) (.throw _))

theorem elementVa_keeps {p : Piece} {i : Nat} : EngKeeps (elementVa p i) := .bind readDir_keeps fun _ => .pure _

theorem elementInput_keeps {p : Piece} {n i : Nat} : EngKeeps (elementInput p n i) :=
  .ite (.pure _) (.bind elementVa_keeps fun _ => engRead_keeps)

theorem leafVals_keeps {kind : RopeKind} {piece start j n : Nat} {base : Word} : EngKeeps (leafVals kind piece start j n base) :=
  .bind readPiece_keeps fun _ => .bind (EngKeeps.closed.mapM (fun _ => elementInput_keeps) _) fun _ => .pure _

theorem mkLeaf_keeps {kind : RopeKind} {piece start len : Nat} {base : Word} : RopeKeeps (mkLeaf kind piece start len base) :=
  .bind (.lift leafVals_keeps) fun _ => .pure _

/-! ### Ropes: join, concat and split -/

theorem fit_keeps {kind : RopeKind} {level : Nat} {l : List Ent} : RopeKeeps (fit kind level l) :=
  .ite (.bind mkNode_keeps fun _ => .bind entOf_keeps fun _ => .pure _)
    (.bind mkNode_keeps fun _ => .bind mkNode_keeps fun _ => .bind entOf_keeps fun _ => .bind entOf_keeps fun _ => .pure _)

theorem repaired_keeps {kind : RopeKind} {level : Nat} {l : List Ent} : RopeKeeps (repaired kind level l) :=
  .ite fit_keeps
    (.bind mkNode_keeps fun _ => .bind mkNode_keeps fun _ => .bind entOf_keeps fun _ => .bind entOf_keeps fun _ => .pure _)

theorem asRoot_keeps {kind : RopeKind} {level : Nat} {l : List Ent} : RopeKeeps (asRoot kind level l) := by
  unfold asRoot
  split
  · exact .pure _
  · exact mkNode_keeps

theorem joinAt_keeps {kind : RopeKind} {right : Bool} {b : Nat} {f a : Nat} : RopeKeeps (joinAt kind right b f a) := by
  induction f generalizing a with
  | zero => exact .throw _
  | succ f ih =>
    refine .bind getNode_keeps fun n => .bind getNode_keeps fun m => ?_
    dsimp only
    split
    · exact .throw _
    · refine .bind (.ite (.ite ?_ ?_) ih) fun _ => repaired_keeps
      · exact .bind entOf_keeps fun _ => .pure _
      · exact .bind getNode_keeps fun _ => fit_keeps

theorem join_keeps {kind : RopeKind} {a b : Nat} : RopeKeeps (join kind a b) :=
  .bind getNode_keeps fun _ => .bind getNode_keeps fun _ =>
    .ite (.ite mkNode_keeps (.bind fit_keeps fun _ => mkNode_keeps))
      (.ite (.bind joinAt_keeps fun _ => asRoot_keeps) (.bind joinAt_keeps fun _ => asRoot_keeps))

theorem joinOpt_keeps {kind : RopeKind} {a b : Option Nat} : RopeKeeps (joinOpt kind a b) := by
  unfold joinOpt
  split
  · exact .pure _
  · exact .pure _
  · exact .bind join_keeps fun _ => .pure _

theorem frag_keeps {kind : RopeKind} {level : Nat} {l : List Ent} : RopeKeeps (frag kind level l) := by
  unfold frag
  split
  · exact .pure _
  · exact .ite (.pure _) (.bind mkNode_keeps fun _ => .pure _)
  · exact .bind mkNode_keeps fun _ => .pure _

theorem splitGo_keeps {kind : RopeKind} {f g p : Nat} {above beyond : Option Nat} :
    RopeKeeps (splitGo kind f g p above beyond) := by
  induction f generalizing g p above beyond with
  | zero => exact .throw _
  | succ f ih =>
    refine .bind getNode_keeps fun n => ?_
    split
    · exact .throw _
    · have parts {l r k} : RopeKeeps (do
          let x ← frag kind k l
          let y ← frag kind k r
          let left ← joinOpt kind above x
          let right ← joinOpt kind y beyond
          pure (left, right)) :=
        .bind frag_keeps fun _ => .bind frag_keeps fun _ => .bind joinOpt_keeps fun _ => .bind joinOpt_keeps fun _ => .pure _
      refine .ite parts (.ite ?_ ?_)
      · exact .bind mkLeaf_keeps fun _ => .bind mkLeaf_keeps fun _ => parts
      · exact .bind frag_keeps fun _ => .bind frag_keeps fun _ => .bind joinOpt_keeps fun _ => .bind joinOpt_keeps fun _ => ih

theorem ropeLen_keeps {t : Option Nat} : RopeKeeps (ropeLen t) := by
  unfold ropeLen
  split
  · exact .pure _
  · exact .bind getNode_keeps fun _ => .pure _

theorem split_keeps {kind : RopeKind} {t : Option Nat} {p : Nat} : RopeKeeps (split kind t p) := by
  refine .bind ropeLen_keeps fun _ => .ite (.pure _) (.ite (.pure _) ?_)
  split
  · exact .throw _
  · exact splitGo_keeps

theorem edgeLeaf_keeps {last : Bool} {f g : Nat} : RopeKeeps (edgeLeaf last f g) := by
  induction f generalizing g with
  | zero => exact .throw _
  | succ f ih =>
    refine .bind getNode_keeps fun n => ?_
    split
    · exact .throw _
    · exact .ite (.pure _) ih

theorem replaceLast_keeps {kind : RopeKind} {leaf : Ent} {f g : Nat} : RopeKeeps (replaceLast kind leaf f g) := by
  induction f generalizing g with
  | zero => exact .throw _
  | succ f ih =>
    refine .bind getNode_keeps fun n => .ite mkNode_keeps ?_
    split
    · exact .throw _
    · exact .bind ih fun _ => .bind entOf_keeps fun _ => mkNode_keeps

theorem concat_keeps {kind : RopeKind} {a b : Option Nat} : RopeKeeps (concat kind a b) := by
  unfold concat
  split
  · exact .pure _
  · exact .pure _
  · exact .bind edgeLeaf_keeps fun _ => .bind edgeLeaf_keeps fun _ =>
      .ite (.bind mkLeaf_keeps fun _ => .bind replaceLast_keeps fun _ => .bind split_keeps fun _ => joinOpt_keeps)
        (.bind join_keeps fun _ => .pure _)

theorem splice_keeps {kind : RopeKind} {t : Option Nat} {p n : Nat} {mid : Option Nat} : RopeKeeps (splice kind t p n mid) :=
  .bind split_keeps fun _ => .bind split_keeps fun _ => .bind concat_keeps fun _ => concat_keeps

/-! ### The rope engine: counts and the pool -/

theorem countUp_keeps {n : Nat} : EngKeeps (countUp n) := .ite (.pure _) (.throw _)

theorem bumpNode_keeps {g : Nat} : EngKeeps (bumpNode g) :=
  .bind granuleVa_keeps fun _ => .bind engNum_keeps fun _ => .bind countUp_keeps fun _ => .bind engCount_keeps fun _ => .pure _

theorem bumpPiece_keeps {g : Nat} : EngKeeps (bumpPiece g) :=
  .bind granuleVa_keeps fun _ => .bind engNum_keeps fun _ => .bind countUp_keeps fun _ => engCount_keeps

theorem bumpBlock_keeps {h : Nat} : EngKeeps (bumpBlock h) :=
  .bind readDir_keeps fun _ => .bind countUp_keeps fun _ => writeDir_keeps

theorem bumpLeaf_keeps {e : Ent} : EngKeeps (bumpLeaf e) :=
  .bind readPiece_keeps fun _ => .bind bumpPiece_keeps fun _ => EngKeeps.closed.foldlM (fun _ _ => bumpBlock_keeps) _ _

theorem dropBlock_keeps {h : Nat} : EngKeeps (dropBlock h) :=
  .get fun _ _ => .bind readDir_keeps fun _ => .ite (.throw _) writeDir_keeps

theorem freeGranules_keeps {g : Nat} : EngKeeps (freeGranules g) := .change fun _ h => h

theorem dropPiece_keeps {g : Nat} : EngKeeps (dropPiece g) :=
  .bind granuleVa_keeps fun _ => .bind engNum_keeps fun _ =>
    .ite (.throw _) (.bind engCount_keeps fun _ => .ite freeGranules_keeps (.pure _))

theorem dropNode_keeps {f g : Nat} : EngKeeps (dropNode f g) := by
  induction f generalizing g with
  | zero => exact .throw _
  | succ f ih =>
    refine .bind readNode_keeps fun _ => .bind granuleVa_keeps fun _ =>
      .ite (.throw _) (.bind engCount_keeps fun _ => .ite ?_ (.pure _))
    refine .bind (EngKeeps.closed.foldlM (fun _ _ => .ite ?_ ?_) _ _) fun _ => .bind freeGranules_keeps fun _ => .pure _
    · exact .bind ih fun _ => .pure _
    · exact .bind readPiece_keeps fun _ => .bind (EngKeeps.closed.foldlM (fun _ _ => dropBlock_keeps) _ _) fun _ => dropPiece_keeps

theorem allocate_keeps {size : Nat} : EngKeeps (allocate size) := by
  refine .get fun t h => ?_
  dsimp only
  split
  · exact .throw _
  · exact .bind (.set h) fun _ => .pure _

/-- A look at the engine's state from work on ropes. -/
theorem RopeKeeps.look : RopeKeeps (liftM (MonadState.get : EngM EngSt) : RopeM EngSt) := fun _ _ h => h

theorem buildNode_keeps {f id : Nat} : RopeKeeps (buildNode f id) := by
  induction f generalizing id with
  | zero => exact .throw _
  | succ f ih =>
    refine .bind getNode_keeps fun _ => .bind (RopeKeeps.closed.mapM (fun _ => .ite ?_ (.ite ?_ ?_)) _) fun _ =>
      .bind (.lift allocate_keeps) fun _ => .bind .look fun _ => .bind (.lift granuleVa_keeps) fun _ =>
      .bind (.lift engWrite_keeps) fun _ => .bind (.lift (.change fun _ h => h)) fun _ => .pure _
    · exact .bind (.lift bumpLeaf_keeps) fun _ => .pure _
    · exact .bind ih fun _ => .pure _
    · exact .bind (.lift bumpNode_keeps) fun _ => .pure _

/-! ### The rope engine: operands and functions -/

theorem resultRoot_keeps {t : Option Nat} : RopeKeeps (resultRoot t) := by
  unfold resultRoot
  split
  · exact .pure _
  · exact .ite (.bind buildNode_keeps fun _ => .pure _)
      (.bind getNode_keeps fun _ => .bind (.lift bumpNode_keeps) fun _ => .pure _)

theorem rootOf_keeps {h : Word} : RopeKeeps (rootOf h) :=
  .ite (.pure _) (.bind .look fun _ => .ite (.throw _) (.ite (.throw _)
    (.bind getNode_keeps fun _ => .ite (.throw _) (.ite (.throw _) (.pure _)))))

theorem ropeKindOf_keeps {a b : Option (Nat × RNode)} : RopeKeeps (ropeKindOf a b) := by
  unfold ropeKindOf
  split
  · exact .ite (.pure _) (.throw _)
  · exact .pure _
  · exact .pure _
  · exact .pure _

theorem addrOperand_keeps {a : Word} {n : Nat} : EngKeeps (addrOperand a n) := .bind engCheck_keeps fun _ => .pure _

theorem findLeaf_keeps {f g p k : Nat} : RopeKeeps (findLeaf f g p k) := by
  induction f generalizing g p k with
  | zero => exact .throw _
  | succ f ih =>
    refine .bind getNode_keeps fun _ => ?_
    split
    · exact .throw _
    · exact .ite (.pure _) ih

theorem sumRange_keeps {kind : RopeKind} {lo hi f g k : Nat} {acc : Sum} : RopeKeeps (sumRange kind lo hi f g k acc) := by
  induction f generalizing g k acc with
  | zero => exact .throw _
  | succ f ih =>
    refine .bind getNode_keeps fun _ => .bind (RopeKeeps.closed.foldlM (fun _ _ => ?_) _ _) fun _ => .pure _
    refine .ite (.pure _) (.ite (.pure _) (.ite ?_ ?_))
    · exact .bind (.lift leafVals_keeps) fun _ => .pure _
    · exact .bind ih fun _ => .pure _

theorem ropeSum_keeps {c : RopeCmd} : RopeKeeps (ropeSum c) := by
  refine .bind rootOf_keeps fun _ => .bind ropeLen_keeps fun _ => .bind (.lift engCheck_keeps) fun _ =>
    .bind (.lift addrOperand_keeps) fun _ => ?_
  split
  · exact .pure _
  · refine .ite (.bind (.pure _) fun _ => ?_) (.bind sumRange_keeps fun _ => ?_)
    all_goals exact .bind (.lift engWrite_keeps) fun _ => .pure _

theorem ropeIndex_keeps {c : RopeCmd} : RopeKeeps (ropeIndex c) := by
  refine .bind rootOf_keeps fun _ => .bind ropeLen_keeps fun _ => .bind (.lift engCheck_keeps) fun _ => ?_
  split
  · exact .throw _
  · exact .bind findLeaf_keeps fun _ => .bind (.lift readPiece_keeps) fun _ => .bind (.lift elementVa_keeps) fun _ => .pure _

theorem newBlocks_keeps {die n : Nat} {free : Nat → EngM Bool} (hfree : ∀ i, EngKeeps (free i)) {f i : Nat} {l : List Nat} :
    EngKeeps (ropePiece.newBlocks die n free f i l) := by
  induction f generalizing i l with
  | zero => exact .ite (.pure _) (.throw _)
  | succ f ih => exact .ite (.pure _) (.bind (hfree i) fun _ => ih)

theorem ropePiece_keeps {c : RopeCmd} : RopeKeeps (ropePiece c) := by
  refine .bind (.lift engCheck_keeps) fun _ => .bind (.lift addrOperand_keeps) fun _ => .bind (.lift engCheck_keeps) fun _ =>
    .bind .look fun _ => .bind (.lift ?_) fun _ => .bind (.lift allocate_keeps) fun _ => .bind (.lift granuleVa_keeps) fun _ =>
    .bind (.lift engWrite_keeps) fun _ => .bind (.lift (.change fun _ h => h)) fun _ => .bind mkLeaf_keeps fun _ =>
    .bind mkNode_keeps fun _ => .bind resultRoot_keeps fun _ => .pure _
  refine .ite ?_ ?_
  · exact .bind (newBlocks_keeps fun _ => .bind readDir_keeps fun _ => .pure _) fun _ =>
      EngKeeps.closed.mapIdxM (fun _ _ => .bind writeDir_keeps fun _ => .pure _) _
  · exact EngKeeps.closed.mapM (fun _ => .bind engNum_keeps fun _ => .bind liveBlock_keeps fun _ => .pure _) _

theorem resumNode_keeps {kind : RopeKind} {f g k : Nat} : RopeKeeps (resumNode kind f g k) := by
  induction f generalizing g k with
  | zero => exact .throw _
  | succ f ih =>
    refine .bind getNode_keeps fun _ => .bind (RopeKeeps.closed.foldlM (fun _ _ => ?_) _ _) fun _ =>
      .ite (.bind mkNode_keeps fun _ => .pure _) (.pure _)
    refine .ite (.ite (.pure _) (.bind mkLeaf_keeps fun _ => .pure _)) (.bind ih fun _ => ?_)
    split
    · exact .bind entOf_keeps fun _ => .pure _
    · exact .ite (.pure _) (.bind entOf_keeps fun _ => .pure _)

theorem pfxMatches_keeps {e : PfxEntry} {job : Option Nat} : EngKeeps (pfxMatches e job) :=
  .ite (.pure _) (.bind readDir_keeps fun _ => .pure _)

theorem firstM_keeps {p : Nat → EngM Bool} (hp : ∀ i, EngKeeps (p i)) {f i : Nat} : EngKeeps (firstM p f i) := by
  induction f generalizing i with
  | zero => exact .pure _
  | succ f ih => exact .bind (hp i) fun _ => .ite (.pure _) ih

theorem touchPrefix_keeps {die i : Nat} {f : PfxEntry → PfxEntry} : EngKeeps (touchPrefix die i f) := .change fun _ h => by simp [h]

theorem pfxLook_go_keeps {job : Nat} {d : Die} {va f i : Nat} {l : List (Nat × PfxEntry)} : EngKeeps (pfxLook.go job d va f i l) := by
  induction f generalizing i l with
  | zero => exact .pure _
  | succ f ih =>
    refine .bind engWord_keeps fun _ => .bind (firstM_keeps fun _ => .ite pfxMatches_keeps (.pure _)) fun _ => ?_
    split
    · exact .pure _
    · exact ih

theorem pfxLook_keeps {c : RopeCmd} : EngKeeps (pfxLook c) := by
  refine .get fun _ _ => .bind addrOperand_keeps fun _ => .bind addrOperand_keeps fun _ => .bind engCheck_keeps fun _ =>
    .bind pfxLook_go_keeps fun _ => .ite ?_ (.bind engWrite_keeps fun _ => ?_)
  all_goals exact .bind (EngKeeps.closed.foldlM (fun _ _ => touchPrefix_keeps) _ _) fun _ => .pure _

theorem pfxAdd_place_keeps {c : RopeCmd} {die : Nat} {d : Die} {k h : Nat} : EngKeeps (pfxAdd.place c die d k h) :=
  .bind touchPrefix_keeps fun _ => .pure _

theorem pfxAdd_keeps {c : RopeCmd} : EngKeeps (pfxAdd c) := by
  refine .get fun _ _ => .bind engCheck_keeps fun _ => .bind liveBlock_keeps fun _ => .bind writeDir_keeps fun _ =>
    .bind (firstM_keeps fun _ => .pure _) fun _ => .bind (firstM_keeps fun _ => .pure _) fun _ =>
    .bind (firstM_keeps fun _ => .bind pfxMatches_keeps fun _ => .pure _) fun _ =>
    .bind (EngKeeps.closed.filterM (fun _ => .bind readDir_keeps fun _ => .pure _) _) fun _ => ?_
  dsimp only
  split
  · exact pfxAdd_place_keeps
  · exact pfxAdd_place_keeps
  · exact pfxAdd_place_keeps
  · exact pfxAdd_place_keeps
  · exact .throw _

theorem pfxPin_keeps {c : RopeCmd} {up : Bool} : EngKeeps (pfxPin c up) := by
  refine .get fun _ _ => .bind addrOperand_keeps fun _ => .bind engCheck_keeps fun _ => .bind (EngKeeps.closed.mapM (fun _ => ?_) _)
      fun _ =>
    .bind (EngKeeps.closed.foldlM (fun _ _ => ?_) _ _) fun _ => .pure _
  · exact .bind engNum_keeps fun _ => .bind liveBlock_keeps fun _ => .bind engCheck_keeps fun _ => .bind writeDir_keeps fun _ => .pure _
  · exact .bind readDir_keeps fun _ => .ite writeDir_keeps (.pure _)

theorem ropeWork_keeps {c : RopeCmd} : RopeKeeps (ropeWork c) := by
  unfold ropeWork
  split
  case h_1 =>
    exact .bind rootOf_keeps fun _ => .bind rootOf_keeps fun _ => .bind ropeKindOf_keeps fun _ => .bind concat_keeps fun _ =>
      .bind resultRoot_keeps fun _ => .pure _
  case h_2 =>
    exact .bind rootOf_keeps fun _ => .bind ropeKindOf_keeps fun _ => .bind ropeLen_keeps fun _ => .bind (.lift engCheck_keeps) fun _ =>
      .bind split_keeps fun _ => .bind resultRoot_keeps fun _ => .bind resultRoot_keeps fun _ => .pure _
  case h_3 =>
    exact .bind rootOf_keeps fun _ => .bind rootOf_keeps fun _ => .bind ropeKindOf_keeps fun _ => .bind ropeLen_keeps fun _ =>
      .bind (.lift engCheck_keeps) fun _ => .bind splice_keeps fun _ => .bind resultRoot_keeps fun _ => .pure _
  case h_4 =>
    exact .bind rootOf_keeps fun _ => .bind ropeKindOf_keeps fun _ => .bind ropeLen_keeps fun _ => .bind (.lift engCheck_keeps) fun _ =>
      .bind split_keeps fun _ => .bind resultRoot_keeps fun _ => .pure _
  case h_5 => exact ropeIndex_keeps
  case h_6 => exact ropeSum_keeps
  case h_7 => exact .pure _
  case h_8 =>
    refine .bind rootOf_keeps fun _ => ?_
    split
    · exact .pure _
    · exact .bind (.lift bumpNode_keeps) fun _ => .pure _
  case h_9 =>
    refine .bind rootOf_keeps fun _ => ?_
    split
    · exact .pure _
    · exact .bind (.lift dropNode_keeps) fun _ => .pure _
  case h_10 => exact ropePiece_keeps
  case h_11 =>
    refine .bind rootOf_keeps fun _ => ?_
    split
    · exact .pure _
    · exact .bind resumNode_keeps fun _ => .bind resultRoot_keeps fun _ => .pure _
  case h_12 =>
    exact .bind (.lift engCheck_keeps) fun _ => .bind (.lift addrOperand_keeps) fun _ => .bind (.lift liveBlock_keeps) fun _ =>
      .bind (.lift engCheck_keeps) fun _ => .bind (.lift writeDir_keeps) fun _ => .pure _
  case h_13 => exact .lift pfxLook_keeps
  case h_14 => exact .lift pfxAdd_keeps
  case h_15 => exact .lift pfxPin_keeps
  case h_16 => exact .lift pfxPin_keeps

theorem walkNext_keeps {c : RopeCmd} {walked : Nat} : RopeKeeps (walkNext c walked) := by
  refine .bind rootOf_keeps fun _ => .bind ropeLen_keeps fun _ => .bind .look fun _ => .bind (.lift engCheck_keeps) fun _ =>
    .bind (.lift engCheck_keeps) fun _ => ?_
  split
  · exact .pure _
  · exact .ite (.pure _) (.bind findLeaf_keeps fun _ => .bind (.lift readPiece_keeps) fun _ => .bind (.lift readDir_keeps) fun _ => .pure _)

/-- The machine that the result of a piece of work leaves. -/
@[simp] def EngRes.machine {α : Type} : EngRes α → State
  | .ok _ t => t.s
  | .stop _ s => s
  | .fault _ _ _ _ s => s
  | .wait s => s

theorem EngKeeps.result {α : Type} {m : EngM α} (hm : EngKeeps m) {t : EngSt} (h : Memory.wf t.s.mem = true) :
    Memory.wf (m.result t).machine.mem = true := by
  have hm := hm t h
  unfold EngM.result EStateM.run
  cases e : m t with
  | ok x u => simpa [e, engEnd] using hm
  | error x u => cases x <;> simpa [e, engEnd] using hm

theorem RopeKeeps.run' {α : Type} {m : RopeM α} (hm : RopeKeeps m) (r : RopeSt) : EngKeeps (m.run' r) :=
  .bind (hm r) fun _ => .pure _

theorem engPerform_mem_wf {t : EngSt} (h : Memory.wf t.s.mem = true) : Memory.wf t.perform.mem = true :=
  foldl_mem_wf (fun s w h => by split <;> simp [h]) h

@[simp] theorem setRope_mem (s : State) (die : Nat) (r : Option RopeRun) : (s.setRope die r).mem = s.mem := by
  simp [State.setRope]

@[simp] theorem execRopeCommandTake_outOk {s : State} (h : Memory.wf s.mem = true) (die : Nat) : OutOk (execRopeCommandTake die s) := by
  fun_cases execRopeCommandTake <;> simp [*]

@[simp] theorem pushWalk_go_mem_wf {s : State} (h : Memory.wf s.mem = true) (last : Bool) (st n f : Nat) (b : List Byte) :
    Memory.wf (State.pushWalk.go last st n f s b).1.mem = true := by
  induction f generalizing s b with
  | zero => exact h
  | succ f ih =>
    unfold State.pushWalk.go
    split
    · exact h
    · split
      · exact h
      next e => exact ih (engineEntry_mem_wf h e) _

@[simp] theorem pushWalk_mem_wf {s : State} (h : Memory.wf s.mem = true) (r : RopeRun) (last : Bool) :
    Memory.wf (s.pushWalk r last).1.mem = true := by
  simp [State.pushWalk, h]

@[simp] theorem execRwalkDescriptorPush_outOk {s : State} (h : Memory.wf s.mem = true) (die : Nat) :
    OutOk (execRwalkDescriptorPush die s) := by
  unfold execRwalkDescriptorPush
  split
  · exact h
  next r _ =>
    split
    · exact h
    have hs := pushWalk_mem_wf h r false
    generalize s.pushWalk r false = x at hs ⊢
    obtain ⟨u, r', room⟩ := x
    have hu : Memory.wf u.mem = true := hs
    have hw := (walkNext_keeps (c := r'.cmd) (walked := r'.walked)).run' {} |>.result (t := u.engSt die r'.cmd) hu
    dsimp only
    split
    · simp [hu]
    generalize EngM.result _ _ = y at hw ⊢
    cases y with
    | wait t => simpa using hw
    | fault a va c e t => simpa using hw
    | stop n t => simpa using hw
    | ok x t =>
      cases x with
      | none => simpa using pushWalk_mem_wf hw r' true
      | some p => simpa using pushWalk_mem_wf (by simpa using hw) _ false

@[simp] theorem ropeAttempt_mem_wf {s : State} (h : Memory.wf s.mem = true) (die : Nat) (r : RopeRun) :
    Memory.wf (s.ropeAttempt die r).mem = true := by
  unfold State.ropeAttempt
  have hw := (ropeWork_keeps (c := r.cmd)).run' {} |>.result (t := s.engSt die r.cmd) h
  generalize EngM.result _ _ = y at hw ⊢
  cases y with
  | wait t => exact hw
  | fault a va c e t => simpa using hw
  | stop n t => simpa using hw
  | ok ws t =>
    dsimp only
    split
    · exact h
    split
    · simp_all [eq_mk_iff]
    · simp_all [eq_mk_iff]
    · simp only [setRope_mem]
      exact engPerform_mem_wf hw

@[simp] theorem ropeSend_mem_wf {s : State} (h : Memory.wf s.mem = true) (die : Nat) (r : RopeRun) :
    Memory.wf (s.ropeSend die r).mem = true := by
  unfold State.ropeSend
  extract_lets t
  have ht : Memory.wf t.mem = true := by
    unfold t
    split <;> simp [h]
  split
  · exact ht
  have ha : Memory.wf (if r.buf.isEmpty then (t, r, true) else t.pushWalk r true).1.mem = true := by
    split
    · exact ht
    · simp [ht]
  generalize (if r.buf.isEmpty then (t, r, true) else t.pushWalk r true) = a at ha
  obtain ⟨u, r', flushed⟩ := a
  have hu : Memory.wf u.mem = true := ha
  cases flushed
  · simp [hu]
  · dsimp only
    split <;> simp [hu]

@[simp] theorem execRopeCommandDone_outOk {s : State} (h : Memory.wf s.mem = true) (die : Nat) : OutOk (execRopeCommandDone die s) := by
  unfold execRopeCommandDone
  split
  · exact h
  next r _ =>
    split
    · exact h
    extract_lets t
    have ht : Memory.wf t.mem = true := by
      unfold t
      split
      · exact h
      · exact ropeAttempt_mem_wf h _ _
    split
    · exact ht
    · exact ropeSend_mem_wf ht _ _

@[simp] theorem execBlockDrainExpire_outOk {s : State} (h : Memory.wf s.mem = true) (die index : Nat) :
    OutOk (execBlockDrainExpire die index s) := by
  simp [execBlockDrainExpire, h]

@[simp] theorem ropeAct_outOk {s : State} (h : Memory.wf s.mem = true) (la : BitVec 4) (d : SReg) (c : RopeCmd) :
    OutOk (s.ropeAct la d c) := by
  simp [State.ropeAct, h]

@[simp] theorem rope_outOk {s : State} (h : Memory.wf s.mem = true) (fn : RopeFn) (la : BitVec 4) (d : SReg) (tag : BitVec 6)
    (form : RopeForm) :
    OutOk (s.rope fn la d tag form) := by
  simp only [State.rope]
  refine issue_outOk h ?_
  split
  · split <;> simp [h]
  · simp [h]
  · exact withCommit_outOk (by simp [h]) _ _ fun t ht => by simp [ht]

@[simp] theorem execHblk_outOk {s : State} (h : Memory.wf s.mem = true) (la : BitVec 4) (d : SReg) (v : VReg) :
    OutOk (execHblk la d v s) := by
  simp [execHblk, h]

/-- An instruction of the rope engine that issues, commits and acts. -/
theorem issueRope_outOk {s : State} (h : Memory.wf s.mem = true) (n : Need) (f : RopeFn) (la : BitVec 4) (d : SReg) :
    OutOk (s.issue n fun t => t.withCommit (.rope la d (t.ropeCmd f .returning d 0)) false
      fun u => u.ropeAct la d (t.ropeCmd f .returning d 0)) := by
  refine issue_outOk h (withCommit_outOk (by simp [h]) _ _ fun t ht => ?_)
  simp [ht]

@[simp] theorem execPfxLook_outOk {s : State} (h : Memory.wf s.mem = true) (la : BitVec 4) (d : SReg) : OutOk (execPfxLook la d s) :=
  issueRope_outOk h _ _ la d
@[simp] theorem execPfxAdd_outOk {s : State} (h : Memory.wf s.mem = true) (la : BitVec 4) (d : SReg) : OutOk (execPfxAdd la d s) :=
  issueRope_outOk h _ _ la d
@[simp] theorem execPfxPin_outOk {s : State} (h : Memory.wf s.mem = true) (la : BitVec 4) (d : SReg) : OutOk (execPfxPin la d s) :=
  issueRope_outOk h _ _ la d
@[simp] theorem execPfxUnpin_outOk {s : State} (h : Memory.wf s.mem = true) (la : BitVec 4) (d : SReg) : OutOk (execPfxUnpin la d s) :=
  issueRope_outOk h _ _ la d

@[simp] theorem modReplay_mem (s : State) (id : Nat) (f : Replay → Replay) : (s.modReplay id f).mem = s.mem := by
  simp [State.modReplay]

@[simp] theorem modPhase_mem (s : State) (id : Nat) (f : Phase → Phase) : (s.modPhase id f).mem = s.mem := by
  simp [State.modPhase]

end Sys2Proof.Machine
end

