-- ==== Sys2Proof/Proofs/CanonicalItems.lean ====
section
/-! What cancelling, paging, traps, unit events, records, kicks and boot keep of the canonical form. -/

namespace Sys2Proof.Machine

@[simp] theorem noteJob_mem (s : State) (job : Nat) (err : Option Word) : (s.noteJob job err).mem = s.mem := by
  unfold State.noteJob
  split <;> simp

@[simp] theorem freeze_mem (s : State) (q : Nat) : (s.freeze q).mem = s.mem := by
  simp [State.freeze]

@[simp] theorem settleJob_mem (s : State) (job : Nat) : (s.settleJob job).mem = s.mem := by
  simp [State.settleJob]

@[simp] theorem endItem_mem (s : State) (job counter : Nat) (err : Option Word) : (s.endItem job counter err).mem = s.mem := by
  simp [State.endItem]

@[simp] theorem endTop_mem (s : State) (q job counter : Nat) (err : Option Word) : (s.endTop q job counter err).mem = s.mem := by
  simp [State.endTop]

@[simp] theorem phaseNext_done_mem (p : Nat) (x : Phase) (s : State) (failure : Option Word) :
    (State.phaseNext.done p x s failure).mem = s.mem := by
  simp [State.phaseNext.done]

@[simp] theorem phaseNext_mem (s : State) (p : Nat) (err : Option Word) : (s.phaseNext p err).mem = s.mem := by
  unfold State.phaseNext
  split
  · rfl
  extract_lets failure stop
  split
  · split <;> simp
  · simp

@[simp] theorem settleReplay_mem (s : State) (id : Nat) : (s.settleReplay id).mem = s.mem := by
  unfold State.settleReplay
  split
  · rfl
  split
  · rfl
  extract_lets err t
  split <;> simp [t]

@[simp] theorem cancelCopies_mem (s : State) (p : CopyReq → Bool) : (s.cancelCopies p).mem = s.mem := by
  simp [State.cancelCopies]

@[simp] theorem cancelRopes_mem (s : State) (p : Issuer → Bool) : (s.cancelRopes p).mem = s.mem := by
  simp [State.cancelRopes]

@[simp] theorem cancelMatrix_mem (s : State) (p : Issuer → Bool) : (s.cancelMatrix p).mem = s.mem := by
  simp [State.cancelMatrix]

@[simp] theorem cancelCommands_mem (s : State) (p : Issuer → Bool) : (s.cancelCommands p).mem = s.mem := by
  simp [State.cancelCommands]

@[simp] theorem cancelFaults_mem (s : State) (launch : BitVec 32) : (s.cancelFaults launch).mem = s.mem := by
  simp [State.cancelFaults]

@[simp] theorem setAside_mem (s : State) : s.setAside.mem = s.mem := by
  simp [State.setAside]

@[simp] theorem cancelAway_mem_wf {s : State} (h : Memory.wf s.mem = true) (launch : BitVec 32) (p : Unit → Bool) :
    Memory.wf (s.cancelAway launch p).mem = true := by
  simp only [State.cancelAway]
  exact foldl_mem_wf (fun _ _ ht => by simp [ht]) (by simp [h])

@[simp] theorem cancelLaunch_mem_wf {s : State} (h : Memory.wf s.mem = true) (launch : BitVec 32) (reason : Nat) :
    Memory.wf (s.cancelLaunch launch reason).mem = true := by
  unfold State.cancelLaunch
  split <;> simp [h]

@[simp] theorem dropCp_mem (s : State) (p : Nat → Bool) : (s.dropCp p).mem = s.mem := by
  simp [State.dropCp]

@[simp] theorem cancelReplay_mem_wf {s : State} (h : Memory.wf s.mem = true) (id : Nat) : Memory.wf (s.cancelReplay id).mem = true := by
  unfold State.cancelReplay
  split
  · exact h
  split
  · exact h
  extract_lets t launches u mine v stopped w
  have hu : Memory.wf u.mem = true := foldl_mem_wf (fun t l ht => by simp [ht]) (by simp [t, h])
  simp [w, v, hu]

@[simp] theorem cancelWaiting_mem (s : State) (p : GraphRec → Bool) : (s.cancelWaiting p).mem = s.mem := by
  simp [State.cancelWaiting]

@[simp] theorem cancelPhase_mem_wf {s : State} (h : Memory.wf s.mem = true) (id : Nat) : Memory.wf (s.cancelPhase id).mem = true :=
  foldl_mem_wf (fun t r ht => by simp [ht]) (by simp [h])

@[simp] theorem cancelQueue_mem_wf {s : State} (h : Memory.wf s.mem = true) (q : Nat) : Memory.wf (s.cancelQueue q).mem = true := by
  refine foldl_mem_wf (fun t p ht => by simp [ht]) ?_
  rw [cancelWaiting_mem]
  exact foldl_mem_wf (fun t r ht => by simp [ht]) (foldl_mem_wf (fun t l ht => by simp [ht]) h)

@[simp] theorem endRecord_mem (s : State) (q job : Nat) (ws : List Word) (replay : Option Nat) (reason : Nat) :
    (s.endRecord q job ws replay reason).mem = s.mem := by
  fun_cases State.endRecord <;> simp [*]

@[simp] theorem dropPushed_mem (s : State) (q id : Nat) : (s.dropPushed q id).mem = s.mem := by
  simp [State.dropPushed]

@[simp] theorem cancelRecords_mem (s : State) (q : Nat) : (s.cancelRecords q).mem = s.mem := by
  simp [State.cancelRecords]

@[simp] theorem cancelJob_mem_wf {s : State} (h : Memory.wf s.mem = true) (job : Nat) : Memory.wf (s.cancelJob job).mem = true := by
  refine foldl_mem_wf (fun t q ht => by simp [ht]) (foldl_mem_wf (fun t p ht => by simp [ht]) ?_)
  rw [cancelWaiting_mem]
  exact foldl_mem_wf (fun t r ht => by simp [ht]) (foldl_mem_wf (fun t l ht => by simp [ht]) h)

@[simp] theorem lhzAct_outOk {s : State} (h : Memory.wf s.mem = true) (domain : Bool) (d : SReg) (lt : Nat) :
    OutOk (s.lhzAct domain d lt) := by
  simp [State.lhzAct, h]

@[simp] theorem lhz_outOk {s : State} (h : Memory.wf s.mem = true) (domain : Bool) (d a : SReg) : OutOk (s.lhz domain d a) := by
  simp only [State.lhz]
  refine issue_outOk h (withCommit_outOk (by simp [h]) _ _ fun t ht => ?_)
  simp [ht]

@[simp] theorem execLwait_outOk {s : State} (h : Memory.wf s.mem = true) (a : SReg) : OutOk (execLwait a s) := by
  simp [execLwait, h]

@[simp] theorem execLwaitExpire_outOk {s : State} (h : Memory.wf s.mem = true) : OutOk (execLwaitExpire s) := by
  unfold execLwaitExpire
  split
  · split
    · exact onNext_outOk (by simp [h]) (by simp)
    · simp [h]
  all_goals exact h

@[simp] theorem execPtw_outOk {s : State} (h : Memory.wf s.mem = true) (d a b : SReg) : OutOk (execPtw d a b s) := by
  simp only [execPtw]
  refine issue_outOk h ?_
  split <;> simp [h]

@[simp] theorem withdrawFault_mem (s : State) (f : Fault') : (s.withdrawFault f).mem = s.mem := by
  simp [State.withdrawFault]

@[simp] theorem failReply_mem (s : State) (f : Fault') : (s.failReply f).mem = s.mem := by
  unfold State.failReply
  split <;> simp

@[simp] theorem cancelItem_mem_wf {s : State} (h : Memory.wf s.mem = true) (item : Nat) : Memory.wf (s.cancelItem item).mem = true := by
  unfold State.cancelItem
  split
  · extract_lets k
    split <;> simp [h]
  · extract_lets id
    split <;> simp [h]

@[simp] theorem cancelReply_mem_wf {s : State} (h : Memory.wf s.mem = true) (f : Fault') : Memory.wf (s.cancelReply f).mem = true := by
  unfold State.cancelReply
  extract_lets t
  have ht : Memory.wf t.mem = true := by simp [t, h]
  split
  · simp [ht]
  split
  · simp [ht]
  · split <;> simp [ht]
  all_goals exact ht

@[simp] theorem reply_mem_wf {s : State} (h : Memory.wf s.mem = true) (f : Fault') (action : Nat) :
    Memory.wf (s.reply f action).mem = true := by
  unfold State.reply
  extract_lets t u
  have hu : Memory.wf u.mem = true := by simp [u, t, h]
  split
  · simp [hu]
  split
  · simp [hu]
  · split <;> simp [hu]

@[simp] theorem execFrep_outOk {s : State} (h : Memory.wf s.mem = true) (d a b : SReg) : OutOk (execFrep d a b s) := by
  simp only [execFrep]
  refine issue_outOk h ?_
  split <;> simp [h]

@[simp] theorem execTrap_outOk {s : State} (h : Memory.wf s.mem = true) (i : BitVec 16) : OutOk (execTrap i s) := by
  simp [execTrap, h]

@[simp] theorem execBrk_outOk {s : State} (h : Memory.wf s.mem = true) (i : BitVec 16) : OutOk (execBrk i s) := by
  simp [execBrk, h]

@[simp] theorem execRte_outOk {s : State} (h : Memory.wf s.mem = true) : OutOk (execRte s) := by
  simp [execRte, h]

@[simp] theorem execTkill_outOk {s : State} (h : Memory.wf s.mem = true) (i : BitVec 16) : OutOk (execTkill i s) := by
  simp [execTkill, h]

@[simp] theorem execCrd_outOk {s : State} (h : Memory.wf s.mem = true) (d a : SReg) : OutOk (execCrd d a s) := by
  simp [execCrd, h]

@[simp] theorem execCwait_outOk {s : State} (h : Memory.wf s.mem = true) (d a b : SReg) : OutOk (execCwait d a b s) := by
  simp [execCwait, h]

@[simp] theorem execCsig_outOk {s : State} (h : Memory.wf s.mem = true) (a b : SReg) : OutOk (execCsig a b s) := by
  simp [execCsig, h]

@[simp] theorem execCset_outOk {s : State} (h : Memory.wf s.mem = true) (a b : SReg) : OutOk (execCset a b s) := by
  simp [execCset, h]

@[simp] theorem cancelWork_mem (s : State) (mine : Unit → Bool) : (s.cancelWork mine).mem = s.mem := by
  simp [State.cancelWork]

@[simp] theorem cancelUnit_mem_wf {s : State} (h : Memory.wf s.mem = true) (launch : BitVec 32) (n : Nat) :
    Memory.wf (s.cancelUnit launch n).mem = true := by
  simp [State.cancelUnit, h]

@[simp] theorem lcancelAct_outOk {s : State} (h : Memory.wf s.mem = true) (level unit : Nat) : OutOk (s.lcancelAct level unit) := by
  unfold State.lcancelAct
  extract_lets l t
  have ht : Memory.wf t.mem = true := by
    unfold t
    split
    · simp [h]
    split
    · simp [h]
    split
    · simp [h]
    split
    · exact h
    split
    · simp [h]
    · split <;> simp [h]
  split <;> simp [ht]

@[simp] theorem execLcancel_outOk {s : State} (h : Memory.wf s.mem = true) (a : SReg) : OutOk (execLcancel a s) := by
  simp only [execLcancel]
  refine issue_outOk h ?_
  split
  · simp [h]
  · exact withCommit_outOk (by simp [h]) _ _ fun t ht => by simp [ht]

@[simp] theorem setPend_mem (s : State) (id : Nat) (f : Pend → Pend) : (s.setPend id f).mem = s.mem := by
  simp [State.setPend]

@[simp] theorem tryPend_mem_wf {s : State} (h : Memory.wf s.mem = true) (p : Pend) : Memory.wf (s.tryPend p).mem = true := by
  unfold State.tryPend
  split
  · exact h
  split
  case h_1 ea size signed vector tid seen _ =>
    have hg := loadBytes_gotOk h ea size p.id p.id tid seen
    split
    next e => rw [e] at hg; simpa using hg
    next e => rw [e] at hg; simpa using hg
    next e => rw [e] at hg; simpa using hg
  case h_2 =>
    split
    next e => simp [popFor_mem e, h]
    · exact h
  case h_3 =>
    extract_lets n
    split <;> simp [h]
  case h_4 => split <;> simp [h]
  case h_5 op t ea y cmp _ =>
    have hg := access_accessedOk h p.id op t ea y cmp
    split
    next e => rw [e] at hg; simpa using hg
    next e => rw [e] at hg; simpa using hg
    next e => rw [e] at hg; simpa using hg
    next e => rw [e] at hg; simpa using hg
  case h_6 op m z ea y cmp ta _ =>
    have hg := announce_accessedOk h p.id op m z ea y cmp ta
    split
    next e => rw [e] at hg; simpa using hg
    next e => rw [e] at hg; simpa using hg
    next e => rw [e] at hg; simpa using hg
    next e => rw [e] at hg; simpa using hg
  case h_7 => split <;> simp [h]
  all_goals exact h

@[simp] theorem tryPends_mem_wf {s : State} (h : Memory.wf s.mem = true) : Memory.wf s.tryPends.mem = true :=
  foldl_mem_wf (fun t p ht => by split <;> simp [ht]) h

@[simp] theorem execLookaheadComplete_outOk {s : State} (h : Memory.wf s.mem = true) : OutOk (execLookaheadComplete s) := by
  simp [execLookaheadComplete, h]

@[simp] theorem undoHold_mem (s : State) (p : Pend) : (s.undoHold p).mem = s.mem := by
  simp [State.undoHold]

@[simp] theorem holdTrap_outOk {s : State} (h : Memory.wf s.mem = true) (p : Pend) (t : TrapInfo) : OutOk (s.holdTrap p t) := by
  simp [State.holdTrap, h]

@[simp] theorem leaveWait_mem (s : State) : s.leaveWait.mem = s.mem := by
  unfold State.leaveWait
  split <;> simp

@[simp] theorem leaveFor_mem (s : State) : s.leaveFor.mem = s.mem := by
  simp [State.leaveFor]

@[simp] theorem execLateTrap_outOk {s : State} (h : Memory.wf s.mem = true) : OutOk (execLateTrap s) := by
  unfold execLateTrap
  split <;> simp [h]

@[simp] theorem execMatrixData_outOk {s : State} (h : Memory.wf s.mem = true) : OutOk (execMatrixData s) := by
  unfold execMatrixData
  split <;> simp [h]

@[simp] theorem eagerSpill_mem_wf {s : State} (h : Memory.wf s.mem = true) : Memory.wf s.eagerSpill.mem = true := by
  unfold State.eagerSpill
  split
  · exact h
  cases e : s.spillOldest with
  | none => exact h
  | some t => exact spillOldest_mem_wf h e

@[simp] theorem execEagerSpill_outOk {s : State} (h : Memory.wf s.mem = true) : OutOk (execEagerSpill s) := by
  simp [execEagerSpill, h]

@[simp] theorem contAct_outOk {s : State} (h : Memory.wf s.mem = true) (c : Cont) (lone : Bool) : OutOk (s.contAct c lone) := by
  unfold State.contAct
  split <;> simp [h]

@[simp] theorem execCommitVisible_outOk {s : State} (h : Memory.wf s.mem = true) : OutOk (execCommitVisible s) := by
  unfold execCommitVisible
  split
  · exact h
  next c lone _ =>
    have hw : OutOk (s.withCommit c lone fun t => t.contAct c lone) := withCommit_outOk h _ _ fun t ht => by simp [ht]
    split
    · exact h
    · extract_lets out
      split
      · exact hw
      · exact onNext_outOk hw (by simp)

@[simp] theorem execTaskAbort_outOk {s : State} (h : Memory.wf s.mem = true) : OutOk (execTaskAbort s) := by
  simp [execTaskAbort, h]

@[simp] theorem execNonspecRun_outOk {s : State} (h : Memory.wf s.mem = true) : OutOk (execNonspecRun s) := by
  simp [execNonspecRun, h]

@[simp] theorem execUnitCancelRetire_outOk {s : State} (h : Memory.wf s.mem = true) : OutOk (execUnitCancelRetire s) := by
  simp [execUnitCancelRetire, h]

/-- The machine that reads of the command processor leave has canonical memory. -/
def CpOk {α : Type} : CpRes α → Prop
  | .ok _ t => Memory.wf t.mem = true
  | .fail _ _ t => Memory.wf t.mem = true
  | .wait t => Memory.wf t.mem = true

@[simp] theorem cpOk_ok {α : Type} (x : α) (t : State) : CpOk (.ok x t) ↔ Memory.wf t.mem = true := Iff.rfl

@[simp] theorem cpOk_fail {α : Type} (c : Nat) (va : Word) (t : State) : CpOk (.fail c va t : CpRes α) ↔ Memory.wf t.mem = true := Iff.rfl

@[simp] theorem cpOk_wait {α : Type} (t : State) : CpOk (.wait t : CpRes α) ↔ Memory.wf t.mem = true := Iff.rfl

theorem cpRead_cpOk {α : Type} {s : State} (h : Memory.wf s.mem = true) (hub item job : Nat) {m : EngM α} (hm : EngKeeps m) :
    CpOk (s.cpRead hub item job m) := by
  unfold State.cpRead
  split
  · exact h
  split
  · exact h
  extract_lets who
  have hr := hm.result (t := { s, src := .cp, who, loc := cpLoc hub item }) h
  generalize EngM.result _ _ = y at hr ⊢
  cases y with
  | ok x t => simpa using hr
  | stop n t => exact hr
  | wait t => exact hr
  | fault acc va c e t => simpa using hr

theorem engWords_keeps {va n : Nat} : EngKeeps (engWords va n) := .bind engRead_keeps fun _ => .pure _

theorem graphHead_keeps {va : Nat} : EngKeeps (graphHead va) := .bind engWords_keeps fun _ => .pure _

theorem graphNodes_keeps {va nn : Nat} : EngKeeps (graphNodes va nn) := .bind engWords_keeps fun _ => .pure _

theorem graphRead_keeps {va : Nat} {ps : List (Nat × Nat × Word)} : EngKeeps (graphRead va ps) :=
  .bind graphHead_keeps fun _ => .ite (.pure _) (.bind graphNodes_keeps fun _ => .ite (.pure _) (.pure _))

theorem captureReplay_keeps {note : Nat → State → State} (hn : ∀ n s, (note n s).mem = s.mem) {ws : List Word} :
    EngKeeps (captureReplay note ws) :=
  .bind graphHead_keeps fun _ => .bind (.change fun _ h => by simp [hn, h]) fun _ =>
    .ite (.pure _) (.bind engWords_keeps fun _ => .bind graphRead_keeps fun _ => .pure _)

theorem capturePhase_keeps {ws : List Word} : EngKeeps (capturePhase ws) :=
  .ite (.pure _) (EngKeeps.closed.foldlM (fun _ _ => .bind graphRead_keeps fun _ => .pure _) _ _)

theorem ringRecord_keeps {k : Queue} : EngKeeps (ringRecord k) := engWords_keeps

@[simp] theorem startLaunch_mem (s : State) (job prio : Nat) (queue : Option Nat) (node : Option (Nat × Nat)) (ws hs : List Word) :
    (s.startLaunch job prio queue node ws hs).mem = s.mem := by
  simp [State.startLaunch]

@[simp] theorem popRecord_mem (s : State) (q : Nat) : (s.popRecord q).mem = s.mem := by
  simp [State.popRecord]

@[simp] theorem freezeFault_mem (s : State) (q cause : Nat) (va : Word) : (s.freezeFault q cause va).mem = s.mem := by
  simp [State.freezeFault]

@[simp] theorem freezeAt_mem (s : State) (q cause : Nat) (va : Word) : (s.freezeAt q cause va).mem = s.mem := by
  simp [State.freezeAt]

@[simp] theorem modPushed_mem (s : State) (q id : Nat) (f : Pushed → Pushed) : (s.modPushed q id f).mem = s.mem := by
  simp [State.modPushed]

@[simp] theorem noteGraph_mem (s : State) (q : Nat) (r : RecAt) (n : Nat) : (s.noteGraph q r n).mem = s.mem := by
  unfold State.noteGraph
  split <;> simp

@[simp] theorem setCaptured_mem (s : State) (q : Nat) (c : Captured) (x : RecAt) : (s.setCaptured q c x).mem = s.mem := by
  unfold State.setCaptured
  split <;> simp

@[simp] theorem dropRecord_mem (s : State) (q : Nat) (x : RecAt) : (s.dropRecord q x).mem = s.mem := by
  unfold State.dropRecord
  split <;> simp

theorem captureRead_keeps {q : Nat} {x : RecAt} {ws : List Word} {m : EngM (Captured × Bool)} (e : captureRead q x ws = some m) :
    EngKeeps m := by
  unfold captureRead at e
  split at e
  · cases e
    exact captureReplay_keeps fun n s => by simp
  · split at e <;> cases e
    exact capturePhase_keeps

@[simp] theorem captureAt_mem_wf {s : State} (h : Memory.wf s.mem = true) (q : Nat) (x : RecAt) (ws : List Word) :
    Memory.wf (s.captureAt q x ws).mem = true := by
  simp only [State.captureAt]
  split
  · exact h
  next m e =>
    have hc := cpRead_cpOk h (hubOfQueue q) (x.item q) (s.queue q).job (captureRead_keeps e)
    split
    next e => rw [e] at hc; exact hc
    next e => rw [e] at hc; split <;> simpa using hc
    next e =>
      rw [e] at hc
      split
      · simpa using hc
      · split <;> simpa using hc

@[simp] theorem readCancelled_mem_wf {s : State} (h : Memory.wf s.mem = true) (q : Nat) (k : Queue) :
    Memory.wf (s.readCancelled q k).mem = true := by
  unfold State.readCancelled
  extract_lets read
  have hc := cpRead_cpOk h (hubOfQueue q) q k.job (m := read)
    (.bind ringRecord_keeps fun _ => .ite (.bind graphHead_keeps fun _ => .pure _) (.pure _))
  split
  next e => rw [e] at hc; simpa using hc
  next e => rw [e] at hc; simpa using hc
  next e => rw [e] at hc; exact hc

@[simp] theorem ringRead_outOk {s : State} (h : Memory.wf s.mem = true) (q : Nat) (k : Queue) : OutOk (execRingRecordRead.ring q s k) := by
  unfold execRingRecordRead.ring
  split
  · have hc := cpRead_cpOk h (hubOfQueue q) q k.job (ringRecord_keeps (k := k))
    split
    next e => rw [e] at hc; simpa using captureAt_mem_wf (by simpa using hc) q .head _
    next e => rw [e] at hc; simpa using hc
    next e => rw [e] at hc; exact hc
  · exact h

@[simp] theorem execRingRecordRead_outOk {s : State} (h : Memory.wf s.mem = true) (q : Nat) : OutOk (execRingRecordRead q s) := by
  unfold execRingRecordRead
  extract_lets k
  split
  · exact h
  split
  · simp [h]
  split
  · exact h
  split
  · split
    · exact h
    · split
      · split <;> simp [h]
      · exact ringRead_outOk h q k
  · exact ringRead_outOk h q k

@[simp] theorem joinQueue_mem_wf {s : State} (h : Memory.wf s.mem = true) (q : Nat) (ws : List Word) :
    Memory.wf (s.joinQueue q ws).mem = true :=
  captureAt_mem_wf (by simp [h]) q _ ws

@[simp] theorem joinUnit_mem_wf {s : State} (h : Memory.wf s.mem = true) (u : Unit) : Memory.wf (s.joinUnit u).mem = true := by
  unfold State.joinUnit
  split
  · exact h
  · exact foldl_mem_wf (fun _ ws ht => joinQueue_mem_wf ht _ ws) (by simp [h])

@[simp] theorem joinRecords_mem_wf {s : State} (h : Memory.wf s.mem = true) : Memory.wf s.joinRecords.mem = true :=
  foldl_mem_wf (fun _ u ht => joinUnit_mem_wf ht u) h

@[simp] theorem execQ11Record_outOk {s : State} (h : Memory.wf s.mem = true) (l : Loc) : OutOk (execQ11Record l s) := by
  unfold execQ11Record
  split <;> simp [h]

@[simp] theorem readHeader_mem_wf {s : State} (h : Memory.wf s.mem = true) (hub q : Nat) (x : RecAt) (ws : List Word) :
    Memory.wf (s.readHeader hub q x ws).mem = true := by
  unfold State.readHeader
  extract_lets job
  have hc := cpRead_cpOk h hub (x.item q) job (graphHead_keeps (va := recHdr ws))
  split
  next e => rw [e] at hc; exact hc
  next e => rw [e] at hc; simpa using hc
  next e => rw [e] at hc; simpa using hc

@[simp] theorem capture_mem_wf {s : State} (h : Memory.wf s.mem = true) (hub : Nat) (x : Nat × RecAt × List Word × Bool) :
    Memory.wf (s.capture hub x).mem = true := by
  simp [State.capture, h]

@[simp] theorem endGraphRec_mem (s : State) (hub : Nat) (g : GraphRec) (reason : Nat) : (s.endGraphRec hub g reason).mem = s.mem := by
  unfold State.endGraphRec
  split <;> simp

@[simp] theorem startReplay_mem_wf {s : State} (h : Memory.wf s.mem = true) (hub : Nat) (g : GraphRec) :
    Memory.wf (s.startReplay hub g).mem = true := by
  unfold State.startReplay
  split
  · simp [h]
  have hc := cpRead_cpOk h hub (itemOf g.id 1024) g.job (graphRead_keeps (va := g.graph.toNat) (ps := g.patches))
  split
  next e => rw [e] at hc; exact hc
  next e => rw [e] at hc; simpa using hc
  next e => rw [e] at hc; simpa using hc
  next e => rw [e] at hc; simpa using hc

@[simp] theorem execGraphReplay_outOk {s : State} (h : Memory.wf s.mem = true) (hub : Nat) : OutOk (execGraphReplay hub s) := by
  unfold execGraphReplay
  split
  · simp [h]
  · split <;> simp [h]

@[simp] theorem execPhaseRecord_outOk {s : State} (h : Memory.wf s.mem = true) (hub : Nat) : OutOk (execPhaseRecord hub s) := by
  unfold execPhaseRecord
  split <;> simp [h]

@[simp] theorem execPriorityAging_outOk {s : State} (h : Memory.wf s.mem = true) (q : Nat) : OutOk (execPriorityAging q s) := by
  simp [execPriorityAging, h]

@[simp] theorem watchQueues_mem (s : State) : s.watchQueues.mem = s.mem := by
  simp [State.watchQueues]

@[simp] theorem served_mem (s : State) (q : Nat) (last : Option (Nat × Nat)) (f : Queue → Queue) : (s.served q last f).mem = s.mem := by
  simp [State.served]

@[simp] theorem serveLaunch_mem_wf {s : State} (h : Memory.wf s.mem = true) (hub q prio : Nat) (ws : List Word) :
    Memory.wf (s.serveLaunch hub q prio ws).mem = true := by
  unfold State.serveLaunch
  extract_lets job refuse
  split
  · simp [refuse, h]
  have hc := cpRead_cpOk h hub q job (engWords_keeps (va := recHdr ws) (n := 8))
  split
  next e => rw [e] at hc; exact hc
  next e => rw [e] at hc; simpa [refuse] using hc
  next e =>
    rw [e] at hc
    split
    · simpa [refuse] using hc
    · simpa using hc

@[simp] theorem serveGraph_mem (s : State) (hub q kind : Nat) (ws : List Word) (c : Captured) :
    (s.serveGraph hub q kind ws c).mem = s.mem := by
  simp only [State.serveGraph]
  repeat' split
  all_goals simp

@[simp] theorem execRecordServe_outOk {s : State} (h : Memory.wf s.mem = true) (hub : Nat) : OutOk (execRecordServe hub s) := by
  unfold execRecordServe
  split
  · exact h
  extract_lets _ t k
  have ht : Memory.wf t.mem = true := by simp [t, h]
  split
  · simp [ht]
  · split <;> simp [ht]

@[simp] theorem execKickRefused_outOk {s : State} (h : Memory.wf s.mem = true) (hub : Nat) (w : Word) :
    OutOk (execKickRefused hub w s) := by
  simp [execKickRefused, h]

theorem onQueue_outOk {s : State} (h : Memory.wf s.mem = true) {k : State → State} (hk : Memory.wf (k s).mem = true) (hub cmd : Nat)
    (q : BitVec 6) (arg : Nat) : OutOk (s.onQueue hub cmd q arg k) := by
  unfold State.onQueue
  split
  · exact hk
  · simp [h]

@[simp] theorem execSubmit_outOk {s : State} (h : Memory.wf s.mem = true) (hub : Nat) (q : BitVec 6) (arg : BitVec 32) :
    OutOk (execSubmit hub q arg s) :=
  onQueue_outOk h (by simp [h]) ..

@[simp] theorem execUnfreeze_outOk {s : State} (h : Memory.wf s.mem = true) (hub : Nat) (q : BitVec 6) : OutOk (execUnfreeze hub q s) :=
  onQueue_outOk h (by simp [h]) ..

@[simp] theorem execCancel_outOk {s : State} (h : Memory.wf s.mem = true) (hub : Nat) (q : BitVec 6) : OutOk (execCancel hub q s) :=
  onQueue_outOk h (by simp [h]) ..

@[simp] theorem execEndjob_outOk {s : State} (h : Memory.wf s.mem = true) (hub : Nat) (arg : BitVec 32) : OutOk (execEndjob hub arg s) := by
  simp [execEndjob, h]

@[simp] theorem modRegion_mem (s : State) (hub n : Nat) (f : Region → Region) : (s.modRegion hub n f).mem = s.mem := by
  simp [State.modRegion]

@[simp] theorem dropRegion_mem (s : State) (hub n : Nat) : (s.dropRegion hub n).mem = s.mem := by
  simp [State.dropRegion]

@[simp] theorem handoverTo_outOk {s : State} (h : Memory.wf s.mem = true) (hub cmd to' : Nat) (arg : BitVec 32) :
    OutOk (s.handoverTo hub cmd to' arg) := by
  simp [State.handoverTo, h]

@[simp] theorem kick_outOk {s : State} (h : Memory.wf s.mem = true) (hub : Nat) (w : Word) : OutOk (s.kick hub w) := by
  simp [State.kick, execToDevice, execToShared, execToHost, h]

@[simp] theorem execRegisterWrite_outOk {s : State} (h : Memory.wf s.mem = true) (hub : Nat) (off : BitVec 32) (value : Word) :
    OutOk (execRegisterWrite hub off value s) := by
  simp [execRegisterWrite, h]

@[simp] theorem execPerstRelease_outOk {s : State} (h : Memory.wf s.mem = true) : OutOk (execPerstRelease s) := by
  simp [execPerstRelease, h]

@[simp] theorem execKDieRelease_outOk {s : State} (h : Memory.wf s.mem = true) : OutOk (execKDieRelease s) := by
  simp [execKDieRelease, h]

@[simp] theorem execRollbackFuseBlow_outOk {s : State} (h : Memory.wf s.mem = true) (hub kind : Nat) :
    OutOk (execRollbackFuseBlow hub kind s) := by
  unfold execRollbackFuseBlow
  split <;> simp [h]

@[simp] theorem setDiePort_mem (s : State) (die port : Nat) (x : DiePort) : (s.setDiePort die port x).mem = s.mem := by
  simp [State.setDiePort]

@[simp] theorem setPeer_mem (s : State) (x : Discover) (p peer : Nat) : (s.setPeer x p peer).mem = s.mem := by
  simp [State.setPeer]

@[simp] theorem markTopo_mem (s : State) (done : Bool) : (s.markTopo done).mem = s.mem := by
  simp [State.markTopo]

/-- The bytes that a change of the secure regions clears leave the memory, which stays canonical. -/
@[simp] theorem setRegions_mem_wf {s : State} (h : Memory.wf s.mem = true) (new : List (Nat × Word × Word)) :
    Memory.wf (s.setRegions new).mem = true := by
  exact Sparse.wfFrom_filter 0 _ s.mem 0 h

@[simp] theorem settleBoot_mem_wf {s : State} (h : Memory.wf s.mem = true) : Memory.wf s.settleBoot.mem = true := by
  unfold State.settleBoot
  split
  · exact h
  split
  · simp [h]
  split
  · exact h
  · simp [h]

@[simp] theorem execDiscoverSend_outOk {s : State} (h : Memory.wf s.mem = true) (die : Nat) : OutOk (execDiscoverSend die s) := by
  simp [execDiscoverSend, h]

@[simp] theorem execDiscoverTimeout_outOk {s : State} (h : Memory.wf s.mem = true) (die port : Nat) :
    OutOk (execDiscoverTimeout die port s) := by
  simp [execDiscoverTimeout, h]

@[simp] theorem execDieMgmtDiscover_outOk {s : State} (h : Memory.wf s.mem = true) (die port : Nat) (x : Discover) :
    OutOk (execDieMgmtDiscover die port x s) := by
  simp [execDieMgmtDiscover, h]

@[simp] theorem answerSpdm_mem (s : State) (hub : Nat) (l : List Byte) : (s.answerSpdm hub l).mem = s.mem := by
  simp [State.answerSpdm]

@[simp] theorem execGetMeasurements_outOk {s : State} (h : Memory.wf s.mem = true) (hub : Nat) : OutOk (execGetMeasurements hub s) := by
  simp [execGetMeasurements, h]

@[simp] theorem execChallenge_outOk {s : State} (h : Memory.wf s.mem = true) (hub : Nat) (nonce : BitVec 256) :
    OutOk (execChallenge hub nonce s) := by
  simp [execChallenge, h]

@[simp] theorem execRegionTableWrite_outOk {s : State} (h : Memory.wf s.mem = true) (entry : BitVec 8) (w0 w1 : Word) :
    OutOk (execRegionTableWrite entry w0 w1 s) := by
  simp [execRegionTableWrite, h]

@[simp] theorem execBlockWorldSet_outOk {s : State} (h : Memory.wf s.mem = true) (b : Block) (job : BitVec 12) :
    OutOk (execBlockWorldSet b job s) := by
  fun_cases execBlockWorldSet <;> simp [*]

@[simp] theorem execPowerLimit_outOk {s : State} (h : Memory.wf s.mem = true) : OutOk (execPowerLimit s) := by
  simp [execPowerLimit, h]

@[simp] theorem execPowerBelowLimit_outOk {s : State} (h : Memory.wf s.mem = true) : OutOk (execPowerBelowLimit s) := by
  simp [execPowerBelowLimit, h]

@[simp] theorem execThermalStop_outOk {s : State} (h : Memory.wf s.mem = true) : OutOk (execThermalStop s) := by
  simp [execThermalStop, h]

@[simp] theorem execSingleBitError_outOk {s : State} (h : Memory.wf s.mem = true) (_die _block : Nat) :
    OutOk (execSingleBitError _die _block s) := by
  simp [execSingleBitError, h]

@[simp] theorem execDoubleBitError_outOk {s : State} (h : Memory.wf s.mem = true) (die block : Nat) (reader : Option (BitVec 32)) :
    OutOk (execDoubleBitError die block reader s) := by
  unfold execDoubleBitError
  split <;> simp [h]

@[simp] theorem execDebuggerStop_outOk {s : State} (h : Memory.wf s.mem = true) (l : Loc) : OutOk (execDebuggerStop l s) := by
  simp [execDebuggerStop, h]

end Sys2Proof.Machine
end

