-- ==== Sys2Proof/Proofs/CanonicalCopies.lean ====
section
/-! What the copy engines keep of the canonical form. -/

namespace Sys2Proof.Machine

theorem gatherIndex_keeps {f : List Word} {i : Nat} {u : ChunkUse} {c : Collected} : EngKeeps (gatherIndex f i u c) := by
  unfold gatherIndex
  split
  · exact .pure _
  · exact .ite (.pure _) (.ite (.pure _)
      (.bind engXlate_keeps fun _ => .bind engFix_keeps fun _ => .bind engNum_keeps fun _ => .pure _))

theorem collect_keeps {r : CopyReq} {f s : List Word} {n i : Nat} {u : ChunkUse} {c : Collected} :
    EngKeeps (collect r f s n i u c) := by
  induction n generalizing i u c with
  | zero => exact .pure _
  | succ n ih =>
    refine .ite (.pure _) (.bind gatherIndex_keeps fun x => ?_)
    split
    · exact .pure _
    · split
      · exact ih
      · exact .pure _

theorem denseBank_keeps {a b : Nat} : EngKeeps (denseBank a b) :=
  .ite (.pure _) (.bind (EngKeeps.closed.foldlM (fun _ _ => .bind engXlate_keeps fun _ => .get fun _ _ => .pure _) _ _) fun _ => .pure _)

theorem tagCheck_keeps {r : CopyReq} {f s : List Word} : EngKeeps (tagCheck r f s) := .bind denseBank_keeps fun _ => .pure _

theorem readRecords_keeps {r : CopyReq} : EngKeeps (readRecords r) :=
  .bind engRead_keeps fun _ => .bind engRead_keeps fun _ => .get fun _ _ =>
    .ite (.pure _) (.ite (.bind tagCheck_keeps fun _ => .pure _) (.pure _))

theorem leaseCovers_keeps {acc : Acc} {n : Nat} {va : Option Nat} : EngKeeps (leaseCovers acc n va) := by
  unfold leaseCovers
  split
  · exact .pure _
  · exact .bind engXlate_keeps fun _ => .get fun _ _ => .ite (.bind engFix_keeps fun _ => .pure _)
      (.bind engRenew_keeps fun _ => .get fun _ _ => .ite (.bind engFix_keeps fun _ => .pure _) (.pure _))

theorem halve_keeps {r : CopyRun} {z n : Nat} {ps : List Point} : EngKeeps (halve r z n ps) := by
  induction n generalizing ps with
  | zero => exact .bind (.change fun _ h => h) fun _ => .pure _
  | succ n ih =>
    exact .bind leaseCovers_keeps fun _ => .bind leaseCovers_keeps fun _ => .bind leaseCovers_keeps fun _ =>
      .ite (.pure _) (.ite (.bind (.change fun _ h => h) fun _ => .pure _) ih)

theorem engLoadBytes_keeps {z : Nat} {ps : List Point} : EngKeeps (loadBytes z ps) :=
  EngKeeps.closed.mapM (fun _ => by
    split
    · exact engRead_keeps
    · exact .pure _) _

theorem storeBytes_keeps {r : CopyReq} {z : Nat} {ps : List Point} {l : List Byte} : EngKeeps (storeBytes r z ps l) := by
  induction ps generalizing l with
  | nil => exact .pure _
  | cons p ps ih =>
    unfold storeBytes
    split
    · exact ih
    · refine .ite (.bind (.pure _) fun _ => ?_) (.bind engRead_keeps fun _ => ?_)
      all_goals exact .bind ih fun _ => .pure _

@[simp] theorem setRun_mem (s : State) (cl : Nat) (r : CopyRun) : (s.setRun cl r).mem = s.mem := by
  simp [State.setRun]

@[simp] theorem loadRecords_mem_wf {s : State} (h : Memory.wf s.mem = true) (cl : Nat) (r : CopyRun) :
    Memory.wf (s.loadRecords cl r).mem = true := by
  unfold State.loadRecords
  split
  · simp [h]
  split
  · simp [h]
  have hr := (readRecords_keeps (r := r.req)).result (t := s.copySt r) h
  generalize EngM.result _ _ = y at hr ⊢
  cases y <;> simpa using hr

@[simp] theorem execCopyStart_outOk {s : State} (h : Memory.wf s.mem = true) (die cluster : Nat) : OutOk (execCopyStart die cluster s) := by
  unfold execCopyStart
  extract_lets cl k
  split
  · exact h
  split
  · exact h
  · extract_lets run t k'
    have ht : Memory.wf t.mem = true := by
      unfold t
      split <;> simp [h]
    simp [ht]

@[simp] theorem execCopyTimedStart_outOk {s : State} (h : Memory.wf s.mem = true) (die cluster : Nat) :
    OutOk (execCopyTimedStart die cluster s) := by
  fun_cases execCopyTimedStart <;> simp [*]

@[simp] theorem popRun_mem (s : State) (r : CopyRun) (need : Nat) : (s.popRun r need).1.mem = s.mem := by
  unfold State.popRun
  split <;> simp

theorem popStream_keeps {cl : Nat} {r : CopyRun} {need : Nat} : EngKeeps (popStream cl r need) :=
  .get fun t h => .bind (.set (show Memory.wf ((t.s.popRun r need).1.setRun cl (t.s.popRun r need).2).mem = true by simp [h])) fun _ =>
    .ite (.throw _) (.pure _)

theorem chunkWork_keeps {cl : Nat} {r : CopyRun} : EngKeeps (chunkWork cl r) := by
  refine .bind collect_keeps fun _ => .bind halve_keeps fun _ => .ite ?_ (.bind engLoadBytes_keeps fun _ => .ite (.pure _) ?_)
  · exact .bind popStream_keeps fun _ => .bind storeBytes_keeps fun _ =>
      .bind (EngKeeps.closed.foldlM (fun _ _ => engWrite_keeps) _ _) fun _ => .pure _
  · exact .bind (EngKeeps.closed.foldlM (fun _ _ => engWrite_keeps) _ _) fun _ =>
      .bind (EngKeeps.closed.foldlM (fun _ _ => .ite (.pure _) engWrite_keeps) _ _) fun _ => .pure _

theorem tagWork_keeps {r : CopyRun} : EngKeeps (tagWork r) :=
  .ite (.pure _) (EngKeeps.closed.filterMapM (fun _ => .bind engXlate_keeps fun ⟨_, _, _⟩ => by dsimp only; split <;> exact .pure _) _)

theorem pushEntries_mem_wf {s : State} (h : Memory.wf s.mem = true) (st n : Nat) (last : Bool) (f : Nat) (b : List Byte) :
    Memory.wf (pushEntries st n last f s b).1.mem = true := by
  induction f generalizing s b with
  | zero => exact h
  | succ f ih =>
    unfold pushEntries
    split
    · exact h
    · split
      · exact h
      next e => exact ih (engineEntry_mem_wf h e) _

@[simp] theorem pushRun_mem_wf {s : State} (h : Memory.wf s.mem = true) (cl : Nat) (r : CopyRun) :
    Memory.wf (s.pushRun cl r).mem = true := by
  unfold State.pushRun
  split
  · simp [h]
  · simp [pushEntries_mem_wf h]

@[simp] theorem endChunk_mem_wf {s : State} (h : Memory.wf s.mem = true) (cl : Nat) (r : CopyRun) (c : ChunkDone) :
    Memory.wf (s.endChunk cl r c).mem = true := by
  simp only [State.endChunk]
  split <;> simp [h]

@[simp] theorem dropWrites_mem (s : State) (loc : Loc) : (s.dropWrites loc).mem = s.mem := by
  simp [State.dropWrites]

@[simp] theorem settleWrites_mem_wf {s : State} (h : Memory.wf s.mem = true) (cl : Nat) (r : CopyRun) :
    Memory.wf (s.settleWrites cl r).1.mem = true := by
  simp [State.settleWrites, h]

@[simp] theorem copyStep_mem_wf {s : State} (h : Memory.wf s.mem = true) (cl : Nat) (r : CopyRun) :
    Memory.wf (s.copyStep cl r).mem = true := by
  unfold State.copyStep
  have hs : Memory.wf (if s.copyFaulted r then (s, r) else s.settleWrites cl r).1.mem = true := by
    split <;> simp [h]
  generalize (if s.copyFaulted r then (s, r) else s.settleWrites cl r) = x at hs ⊢
  obtain ⟨t, r⟩ := x
  have ht : Memory.wf t.mem = true := hs
  dsimp only
  split
  · exact ht
  split
  · simp [ht]
  split
  · simp [ht]
  split
  · simp [ht]
  split
  · exact ht
  split
  · exact ht
  have hr := (chunkWork_keeps (cl := cl) (r := r)).result (t := (t.dropWrites r.req.loc).copySt r) (by simpa [State.copySt] using ht)
  generalize EngM.result _ _ = y at hr ⊢
  cases y with
  | wait t => exact hr
  | fault a va c e t => simpa using hr
  | stop n t => simpa using hr
  | ok c u =>
    dsimp only
    split
    · simp [ht]
    · exact endChunk_mem_wf (engPerform_mem_wf hr) ..

@[simp] theorem execCopyChunk_outOk {s : State} (h : Memory.wf s.mem = true) (die cluster : Nat) : OutOk (execCopyChunk die cluster s) := by
  unfold execCopyChunk
  extract_lets cl k
  split <;> simp [h]

@[simp] theorem reportRun_mem_wf {s : State} (h : Memory.wf s.mem = true) (cl : Nat) (r : CopyRun) (points : Nat) :
    Memory.wf (s.reportRun cl r points).mem = true := by
  simp [State.reportRun, h]

@[simp] theorem execCopyComplete_outOk {s : State} (h : Memory.wf s.mem = true) (die cluster : Nat) :
    OutOk (execCopyComplete die cluster s) := by
  unfold execCopyComplete
  dsimp only
  split
  · simp [h]
  · exact h
  next r _ _ =>
    generalize e : State.setCluster _ _ _ = t
    have ht : Memory.wf t.mem = true := by simp [← e, h]
    have hs : Memory.wf (if t.copyFaulted r then (t, r) else t.settleWrites (clusterId die cluster) r).1.mem = true := by
      split <;> simp [ht]
    generalize (if t.copyFaulted r then (t, r) else t.settleWrites (clusterId die cluster) r) = x at hs ⊢
    obtain ⟨u, r⟩ := x
    have hu : Memory.wf u.mem = true := hs
    dsimp only
    split
    · exact hu
    split
    · simp [hu]
    split
    · exact hu
    split
    · simp [hu]
    have hr := (tagWork_keeps (r := r)).result (t := u.copySt r) hu
    generalize EngM.result _ _ = y at hr ⊢
    cases y with
    | wait v => exact hr
    | fault a va c e v => simpa using hr
    | stop n v => simpa using hr
    | ok tags v => exact reportRun_mem_wf (foldl_mem_wf (fun v g hv => by simp [hv]) hr) ..

end Sys2Proof.Machine
end

