-- ==== Sys2Proof/Proofs/CanonicalLinks.lean ====
section
/-! What the fabric, the die links and the host link keep of the canonical form. -/

namespace Sys2Proof.Machine

@[simp] theorem setPort_mem (s : State) (p : Nat) (x : Port) : (s.setPort p x).mem = s.mem := by
  simp [State.setPort]

@[simp] theorem pumpOut_mem (s : State) : s.pumpOut.mem = s.mem := by
  unfold State.pumpOut
  split
  · rfl
  refine foldl_mem fun t x => ?_
  dsimp only
  split
  · rfl
  split
  · simp
  split
  · rfl
  · split <;> simp

@[simp] theorem moveFlits_mem (s : State) (port : Nat) : (s.moveFlits port).mem = s.mem := by
  unfold State.moveFlits
  extract_lets p
  rw [foldl_mem fun t fs => ?_]
  · simp
  · dsimp only
    split <;> simp

@[simp] theorem execFlitReceive_outOk {s : State} (h : Memory.wf s.mem = true) (port : Nat) (raw : List Byte) :
    OutOk (execFlitReceive port raw s) := by
  simp [execFlitReceive, h]

@[simp] theorem respond_mem (s : State) (k : Packet) (t : PktType) (addr : Nat) (data : List Byte) :
    (s.respond k t addr data).mem = s.mem := by
  simp [State.respond]

@[simp] theorem refuse_mem (s : State) (k : Packet) (reason : Nat) : (s.refuse k reason).mem = s.mem := by
  simp [State.refuse]

@[simp] theorem freeWorld_mem (s : State) : s.freeWorld.1.mem = s.mem := by
  simp [State.freeWorld]

@[simp] theorem packetWorld_mem (s : State) (k : Packet) : (s.packetWorld k).1.mem = s.mem := by
  unfold State.packetWorld
  split <;> simp

/-- The machine that a served request leaves has canonical memory. -/
def ServedOk : Served → Prop
  | .done t => Memory.wf t.mem = true
  | .refused t _ => Memory.wf t.mem = true
  | .held => True
  | .stay => True

@[simp] theorem servedOk_done (t : State) : ServedOk (.done t) ↔ Memory.wf t.mem = true := Iff.rfl

@[simp] theorem servedOk_refused (t : State) (n : Nat) : ServedOk (.refused t n) ↔ Memory.wf t.mem = true := Iff.rfl

@[simp] theorem servedOk_held : ServedOk .held := trivial

@[simp] theorem servedOk_stay : ServedOk .stay := trivial

@[simp] theorem servedOk_ite (c : Prop) [Decidable c] (a b : Served) :
    ServedOk (if c then a else b) ↔ (c → ServedOk a) ∧ (¬c → ServedOk b) := by
  split <;> simp [*]

theorem serveRead_servedOk {s : State} (h : Memory.wf s.mem = true) {w : State × Bool} (hw : Memory.wf w.1.mem = true) (leased : Bool)
    (exp pa n : Nat) {k : State → List Byte → State} (hk : ∀ t l, Memory.wf t.mem = true → Memory.wf (k t l).mem = true) :
    ServedOk (s.serveRead w leased exp pa n k) := by
  unfold State.serveRead
  dsimp only
  split
  · exact h
  split
  · exact hw
  · exact servedOk_held
  · split
    · exact servedOk_held
    · exact hk _ _ hw

theorem serveWrite_servedOk {s : State} (h : Memory.wf s.mem = true) {w : State × Bool} (hw : Memory.wf w.1.mem = true)
    (engine leased free : Bool) (exp pa n : Nat) {k : State → Served} (hk : ∀ t, Memory.wf t.mem = true → ServedOk (k t)) :
    ServedOk (s.serveWrite w engine leased free exp pa n k) := by
  unfold State.serveWrite
  dsimp only
  split
  · exact h
  split
  · exact hw
  · split
    · exact servedOk_held
    · exact hk _ hw

@[simp] theorem takeRemote_mem (s : State) (mine : Nat × Nat) (w : Nat) : (s.takeRemote mine w).mem = s.mem := by
  simp [State.takeRemote]

@[simp] theorem farAtomic_mem_wf {s : State} (h : Memory.wf s.mem = true) (pa n : Nat) (f : Nat → Option Nat) :
    Memory.wf (s.farAtomic pa n f).1.mem = true := by
  fun_cases State.farAtomic <;> simp [*]

theorem serveAtomic_servedOk {perform : State → Nat → Nat → (Nat → Option Nat) → State × Nat}
    (hp : ∀ t pa n f, Memory.wf t.mem = true → Memory.wf (perform t pa n f).1.mem = true) {s : State} (h : Memory.wf s.mem = true)
    {w : State × Bool} (hw : Memory.wf w.1.mem = true) (asker : ScFrom) (leased : Bool) (exp pa : Nat) (data : List Byte)
    {k : State → Bool → List Byte → State} (hk : ∀ t b l, Memory.wf t.mem = true → Memory.wf (k t b l).mem = true) :
    ServedOk (State.serveAtomic perform s w asker leased exp pa data k) := by
  unfold State.serveAtomic
  extract_lets op t held y cmp n here
  have here_ok (t : State) (ht : Memory.wf t.mem = true) : ServedOk (here t) := hk _ _ _ (hp _ _ _ _ ht)
  refine serveWrite_servedOk h hw _ _ _ _ _ _ fun t ht => ?_
  split
  case h_1 => split <;> simp [ht]
  all_goals exact here_ok t ht

theorem serveLock_servedOk {s : State} (h : Memory.wf s.mem = true) {w : State × Bool} (hw : Memory.wf w.1.mem = true) (leased : Bool)
    (mine : Nat × Nat) (exp pa : Nat) (data : List Byte) {ack : State → State}
    (hk : ∀ t, Memory.wf t.mem = true → Memory.wf (ack t).mem = true) : ServedOk (s.serveLock w leased mine exp pa data ack) := by
  refine serveWrite_servedOk h hw _ _ _ _ _ _ fun t ht => ?_
  split
  · split
    · exact hk _ ht
    · exact ht
  · exact hk _ (by simp [ht])

@[simp] theorem hearSc_mem (s : State) (k : Packet) : (s.hearSc k).mem = s.mem := by
  simp [State.hearSc]

theorem serveSc_servedOk {s : State} (h : Memory.wf s.mem = true) {w : State × Bool} (hw : Memory.wf w.1.mem = true) (leased : Bool)
    (k : Packet) (pa : Nat) : ServedOk (s.serveSc w leased k pa) := by
  unfold State.serveSc
  dsimp only
  split
  · exact h
  split
  · exact hw
  · exact hw

@[simp] theorem senderOf_mem (s : State) (k : Packet) : (s.senderOf k).1.mem = s.mem := by
  unfold State.senderOf
  split <;> simp

theorem serveSend_servedOk {s : State} (h : Memory.wf s.mem = true) (k : Packet) : ServedOk (s.serveSend k) := by
  unfold State.serveSend
  dsimp only
  split
  · exact h
  split
  · exact h
  · split
    · simp [h]
    split
    · exact servedOk_stay
    · simp [h]

theorem serve_servedOk {s : State} (h : Memory.wf s.mem = true) (leased : Bool) (t : PktType)
    (k : Packet) : ServedOk (s.serve leased t k) := by
  have hw : Memory.wf (s.packetWorld k).1.mem = true := by simp [h]
  unfold State.serve
  extract_lets mine pa n w
  cases t with
  | read => exact serveRead_servedOk h hw _ _ _ _ fun t l ht => by simp [ht]
  | write => exact serveWrite_servedOk h hw _ _ _ _ _ _ fun t ht => by simp [ht]
  | lock => exact serveLock_servedOk h hw _ _ _ _ _ fun t ht => by simp [ht]
  | perform => simp [h]
  | unlock => simp [h]
  | atomic =>
    exact serveAtomic_servedOk (fun t pa n f ht => by simp [ht]) h hw _ _ _ _ _ fun t b l ht => by split <;> simp [ht]
  | sc => exact serveSc_servedOk h hw _ _ _
  | send => exact serveSend_servedOk h k
  | data => exact h
  | ack => exact h
  | refuse => exact h
  | beacon => exact h

@[simp] theorem setLane_mem (s : State) (key : Nat) (l : Lane) : (s.setLane key l).mem = s.mem := by
  simp [State.setLane]

@[simp] theorem holdAt_mem (s : State) (t : PktType) (k : Packet) : (s.holdAt t k).mem = s.mem := by
  simp [State.holdAt]

@[simp] theorem refuseAgain_mem (s : State) (k : Packet) (reason : Nat) : (s.refuseAgain k reason).mem = s.mem := by
  simp [State.refuseAgain]

theorem drainLane_mem_wf (key f : Nat) {s : State} (h : Memory.wf s.mem = true) : Memory.wf (State.drainLane key f s).mem = true := by
  induction f generalizing s with
  | zero => exact h
  | succ f ih =>
    unfold State.drainLane
    dsimp only
    split
    · exact h
    next t k _ =>
      have hs := serve_servedOk h true t k
      split
      · exact h
      · exact ih (by simp [h])
      next e => rw [e] at hs; exact ih (by simpa using hs)
      next e =>
        rw [e] at hs
        split
        · exact ih (by simpa using hs)
        · simpa using hs

@[simp] theorem drainLanes_mem_wf {s : State} (h : Memory.wf s.mem = true) : Memory.wf s.drainLanes.mem = true :=
  foldl_mem_wf (fun t l ht => by
    split
    · exact ht
    · exact drainLane_mem_wf _ _ ht) h

@[simp] theorem serveHeld1_mem_wf {s : State} (h : Memory.wf s.mem = true) (x : PktType × Packet × Word) :
    Memory.wf (s.serveHeld1 x).mem = true := by
  obtain ⟨t, k, now⟩ := x
  have hs := serve_servedOk h false t k
  unfold State.serveHeld1
  dsimp only
  split
  · simp [h]
  split
  next e => rw [e] at hs; exact hs
  next e => rw [e] at hs; simpa using hs
  · exact h
  · exact h

@[simp] theorem serveHeld_mem_wf {s : State} (h : Memory.wf s.mem = true) : Memory.wf s.serveHeld.mem = true :=
  foldl_mem_wf (fun _ x ht => serveHeld1_mem_wf ht x) h

@[simp] theorem ingress_outOk {s : State} (h : Memory.wf s.mem = true) (t : PktType) (k : Packet) : OutOk (s.ingress t k) := by
  unfold State.ingress
  split
  · exact h
  split
  · exact h
  extract_lets key l u
  split
  · have hs := serve_servedOk (s := u) (by simp [u, h]) true t k
    split
    next e => rw [e] at hs; exact hs
    next e => rw [e] at hs; simpa using hs
    · simp [u, h]
    · simp [u, h]
  · exact drainLane_mem_wf _ _ (by simp [h])

@[simp] theorem execFabricSc_outOk {s : State} (h : Memory.wf s.mem = true) (k : Packet) : OutOk (execFabricSc k s) := by
  simp [execFabricSc, h]

@[simp] theorem sendAccepted_mem (s : State) (r : Remote) : (s.sendAccepted r).mem = s.mem := by
  simp [State.sendAccepted]

@[simp] theorem filled_mem (s : State) (r : Remote) (x : Fill) (data : List Byte) : (s.filled r x data).mem = s.mem := by
  simp [State.filled]

@[simp] theorem answered_outOk {s : State} (h : Memory.wf s.mem = true) (t : PktType) (reason : Nat) (k : Packet) :
    OutOk (s.answered t reason k) := by
  simp only [State.answered]
  repeat' split
  all_goals simp [h]

@[simp] theorem execSendTimedEgress_outOk {s : State} (h : Memory.wf s.mem = true) (die : Nat) : OutOk (execSendTimedEgress die s) := by
  simp [execSendTimedEgress, h]

@[simp] theorem setLost_mem (s : State) (b : Bool) : (s.setLost b).mem = s.mem := foldl_mem fun t x => by simp

@[simp] theorem execFabricBeacon_outOk {s : State} (h : Memory.wf s.mem = true) (port : Nat) (k : Packet) :
    OutOk (execFabricBeacon port k s) := by
  simp [execFabricBeacon, h]

@[simp] theorem sendBeacons_mem (s : State) (hub : Nat) : (s.sendBeacons hub).mem = s.mem := by
  simp [State.sendBeacons]

@[simp] theorem execBeaconSend_outOk {s : State} (h : Memory.wf s.mem = true) : OutOk (execBeaconSend s) := by
  simp [execBeaconSend, h]

@[simp] theorem execBeaconLost_outOk {s : State} (h : Memory.wf s.mem = true) : OutOk (execBeaconLost s) := by
  simp [execBeaconLost, h]

@[simp] theorem takePacket_outOk {s : State} (h : Memory.wf s.mem = true) (port : Nat) (l : List Byte) : OutOk (s.takePacket port l) := by
  unfold State.takePacket
  split
  · simp [h]
  next t k _ =>
    cases t with
    | data => exact answered_outOk h ..
    | ack => exact answered_outOk h ..
    | refuse => exact answered_outOk h ..
    | beacon => exact execFabricBeacon_outOk h port k
    | sc => exact execFabricSc_outOk h k
    | _ => exact ingress_outOk h _ k

theorem nextPacket_mem {s t : State} {p : Nat} {l : List Byte} (e : s.nextPacket = some (p, l, t)) : t.mem = s.mem := by
  unfold State.nextPacket at e
  split at e
  · cases e
  · split at e <;> cases e
    rfl

@[simp] theorem moveDieFlits_mem (s : State) (die port : Nat) : (s.moveDieFlits die port).mem = s.mem := by
  fun_cases State.moveDieFlits <;> simp [*]

@[simp] theorem execDieFlitReceive_outOk {s : State} (h : Memory.wf s.mem = true) (die port : Nat) (raw : List Byte) :
    OutOk (execDieFlitReceive die port raw s) := by
  simp [execDieFlitReceive, h]

theorem sendDie_mem {s t : State} {die : Nat} {x : Nat × Nat × DieMsg} (e : s.sendDie die x = some t) : t.mem = s.mem := by
  simp only [State.sendDie, Option.map_eq_some_iff] at e
  obtain ⟨p, _, rfl⟩ := e
  simp

@[simp] theorem pumpDies_mem (s : State) : s.pumpDies.mem = s.mem := by
  unfold State.pumpDies
  refine (foldl_mem fun t x => ?_).trans (foldl_mem fun t x => ?_)
  · dsimp only
    split
    · rfl
    split
    · rfl
    next e =>
      refine Eq.trans ?_ (sendDie_mem e)
      split <;> rfl
  · dsimp only
    split
    · rfl
    cases e : t.sendDie x.1 x.2 with
    | none => rfl
    | some u => exact sendDie_mem e

@[simp] theorem dieAnswer_mem (s : State) (m : DieMsg) (cls typ : Nat) (data : List Byte) : (s.dieAnswer m cls typ data).mem = s.mem := by
  simp [State.dieAnswer]

theorem dieServe_outOk {s : State} (h : Memory.wf s.mem = true) (cls typ : Nat) (m : DieMsg) {k : State → Served}
    (hk : ∀ t, Memory.wf t.mem = true → ServedOk (k t)) : OutOk (s.dieServe cls typ m k) := by
  unfold State.dieServe
  split
  · exact h
  extract_lets taken
  have hs := hk taken.unfocus (by simpa [taken] using h)
  split
  next e => rw [e] at hs; exact hs
  next e => rw [e] at hs; simpa using hs
  · exact h
  · exact h

theorem dieAccess_outOk {s : State} (h : Memory.wf s.mem = true) (cls typ : Nat) (m : DieMsg) {k : State → Served}
    (hk : ∀ t, Memory.wf t.mem = true → ServedOk (k t)) : OutOk (s.dieAccess cls typ m k) :=
  dieServe_outOk h cls typ m fun t ht => by split <;> simp [hk, ht]

@[simp] theorem dieDone_mem (s : State) (m : DieMsg) (typ pa n : Nat) (data : List Byte) : (s.dieDone m typ pa n data).mem = s.mem := by
  simp [State.dieDone]

@[simp] theorem homeAcked_mem (s : State) (m : DieMsg) : (s.homeAcked m).mem = s.mem := by
  simp [State.homeAcked]

@[simp] theorem execDieReqRead_outOk {s : State} (h : Memory.wf s.mem = true) (m : DieMsg) : OutOk (execDieReqRead m s) :=
  dieAccess_outOk h _ _ m fun _ ht => serveRead_servedOk ht (by simp [ht]) _ _ _ _ fun _ _ hu => by simp [hu]

@[simp] theorem execDieReqLock_outOk {s : State} (h : Memory.wf s.mem = true) (m : DieMsg) : OutOk (execDieReqLock m s) :=
  dieAccess_outOk h _ _ m fun _ ht => serveLock_servedOk ht (by simp [ht]) _ _ _ _ _ fun _ hu => by simp [hu]

@[simp] theorem execDieReqAtomic_outOk {s : State} (h : Memory.wf s.mem = true) (m : DieMsg) : OutOk (execDieReqAtomic m s) :=
  dieAccess_outOk h _ _ m fun _ ht => serveAtomic_servedOk (fun _ _ _ _ hu => by simp [hu]) ht (by simp [ht]) _ _ _ _ _ fun _ _ _ hu => by
    dsimp only
    split <;> simp [hu]

@[simp] theorem execDieReqSc_outOk {s : State} (h : Memory.wf s.mem = true) (m : DieMsg) : OutOk (execDieReqSc m s) :=
  dieAccess_outOk h _ _ m fun t ht => by
    dsimp only
    split
    · exact ht
    split
    · simp [ht]
    · split <;> simp [ht]

@[simp] theorem execDieWrPerform_outOk {s : State} (h : Memory.wf s.mem = true) (m : DieMsg) : OutOk (execDieWrPerform m s) :=
  dieAccess_outOk h _ _ m fun _ ht => by simp [ht]

@[simp] theorem execDieWrWrite_outOk {s : State} (h : Memory.wf s.mem = true) (m : DieMsg) : OutOk (execDieWrWrite m s) :=
  dieAccess_outOk h _ _ m fun _ ht => serveWrite_servedOk ht (by simp [ht]) _ _ _ _ _ _ fun _ hu => by simp [hu]

@[simp] theorem execDieWrUnlock_outOk {s : State} (h : Memory.wf s.mem = true) (m : DieMsg) : OutOk (execDieWrUnlock m s) :=
  dieAccess_outOk h _ _ m fun _ ht => ht

@[simp] theorem clearDie_mem (s : State) (die : Nat) (p : Nat → Bool) : (s.clearDie die p).mem = s.mem := by
  simp [State.clearDie]

@[simp] theorem execDieWrInv_outOk {s : State} (h : Memory.wf s.mem = true) (m : DieMsg) : OutOk (execDieWrInv m s) :=
  dieServe_outOk h _ _ m fun _ ht => by simp [ht]

@[simp] theorem dieResponse_outOk {s : State} (h : Memory.wf s.mem = true) (typ : Nat) (m : DieMsg) : OutOk (s.dieResponse typ m) := by
  simp [State.dieResponse, h]

@[simp] theorem execDieArbSig_outOk {s : State} (h : Memory.wf s.mem = true) (m : DieMsg) : OutOk (execDieArbSig m s) :=
  dieServe_outOk h _ _ m fun _ ht => by simp [ht]

@[simp] theorem execDieArbLowts_outOk {s : State} (h : Memory.wf s.mem = true) (m : DieMsg) : OutOk (execDieArbLowts m s) :=
  dieServe_outOk h _ _ m fun _ ht => by simp [ht]

@[simp] theorem execDieArbMark_outOk {s : State} (h : Memory.wf s.mem = true) (m : DieMsg) : OutOk (execDieArbMark m s) :=
  dieServe_outOk h _ _ m fun _ ht => by simp [ht]

@[simp] theorem execDieArbScann_outOk {s : State} (h : Memory.wf s.mem = true) (m : DieMsg) : OutOk (execDieArbScann m s) :=
  dieServe_outOk h _ _ m fun _ ht => ht

@[simp] theorem execDieEngCmd_outOk {s : State} (h : Memory.wf s.mem = true) (m : DieMsg) : OutOk (execDieEngCmd m s) := by
  simp [execDieEngCmd, h]

@[simp] theorem execDieEngDone_outOk {s : State} (h : Memory.wf s.mem = true) (m : DieMsg) : OutOk (execDieEngDone m s) := by
  simp [execDieEngDone, h]

@[simp] theorem execDieMgmtBeacon_outOk {s : State} (h : Memory.wf s.mem = true) (m : DieMsg) : OutOk (execDieMgmtBeacon m s) := by
  simp [execDieMgmtBeacon, h]

@[simp] theorem hostAnswer_mem (s : State) (hub : Nat) (l : List Byte) : (s.hostAnswer hub l).mem = s.mem := by
  simp [State.hostAnswer]

theorem hostAccess_outOk {s : State} (h : Memory.wf s.mem = true) (hub : Nat) (off : BitVec 36) (n : Nat) {k : Nat → State}
    (hk : ∀ pa, Memory.wf (k pa).mem = true) : OutOk (s.hostAccess hub off n k) := by
  simp [State.hostAccess, h, hk]

@[simp] theorem execHostRead_outOk {s : State} (h : Memory.wf s.mem = true) (hub : Nat) (off : HostAddr) (size : Nat) :
    OutOk (execHostRead hub off size s) := by
  unfold execHostRead
  split
  · simp [h]
  · exact hostAccess_outOk h _ _ _ fun pa => by split <;> simp [h]

@[simp] theorem execHostWrite_outOk {s : State} (h : Memory.wf s.mem = true) (hub : Nat) (off : BitVec 36) (data : List Byte) :
    OutOk (execHostWrite hub off data s) :=
  hostAccess_outOk h _ _ _ fun pa => by split <;> simp [h]

@[simp] theorem hostAtomic_outOk {s : State} (h : Memory.wf s.mem = true) (hub : Nat) (off : BitVec 36) (n : Nat) (f : Nat → Option Nat) :
    OutOk (s.hostAtomic hub off n f) :=
  hostAccess_outOk h _ _ _ fun pa => by
    split
    · simp [h]
    · dsimp only
      split <;> simp [h]

@[simp] theorem hubDone_mem (s : State) (a : HostAtomic) (old : Nat) : (s.hubDone a old).mem = s.mem := by
  unfold State.hubDone
  split <;> simp

@[simp] theorem hubFailed_mem (s : State) (a : HostAtomic) : (s.hubFailed a).mem = s.mem := by
  unfold State.hubFailed
  split <;> simp

theorem hubRefused_mem {s t : State} {a : HostAtomic} {c : Cause} (e : s.hubRefused a c = some t) : t.mem = s.mem := by
  unfold State.hubRefused at e
  split at e
  · simp only [Option.map_eq_some_iff] at e
    obtain ⟨u, hu, rfl⟩ := e
    simp [faultPend_mem hu]
  all_goals cases e; simp

@[simp] theorem execHubHostAtomic_outOk {s : State} (h : Memory.wf s.mem = true) (hub : Nat) (status : PcieStatus) :
    OutOk (execHubHostAtomic hub status s) := by
  unfold execHubHostAtomic
  split
  · exact h
  next a rest _ =>
    extract_lets x done abort
    have hd (x : Hub) : Memory.wf (done x).mem = true := by simp [done, h]
    split
    · simp [hd]
    split
    · simp [abort, hd]
    · simp [abort, hd]
    split
    · simp [hd]
    split
    next c _ =>
      cases e : (done x).hubRefused a c with
      | none => exact h
      | some t => simpa [hubRefused_mem e] using hd x
    · dsimp only
      split <;> simp [hd]

end Sys2Proof.Machine
end

