-- ==== Sys2Proof/Proofs/CanonicalPlaces.lean ====
section
/-! What placement, graph nodes, pre-emption, slices and the vector operations keep of the canonical form. -/

namespace Sys2Proof.Machine

@[simp] theorem grantBanks_mem_wf {s : State} (h : Memory.wf s.mem = true) (l : Launch) (cl : Nat) :
    Memory.wf (s.grantBanks l cl).mem = true := by
  unfold State.grantBanks
  split
  · exact h
  · exact foldl_mem_wf (fun t b ht => by simp [ht]) h

@[simp] theorem putUnit_mem_wf {s : State} (h : Memory.wf s.mem = true) (l : Launch) (p : PendUnit) (loc : Loc) :
    Memory.wf (s.putUnit l p loc).mem = true := by
  simp [State.putUnit, h]

@[simp] theorem putGang_mem_wf {s : State} (h : Memory.wf s.mem = true) (l : Launch) (ps : List PendUnit) (base : Loc) :
    Memory.wf (s.putGang l ps base).mem = true :=
  foldl_mem_wf (fun t x ht => by simp [ht]) h

theorem placeNext_mem_wf {s t : State} (h : Memory.wf s.mem = true) {l : Launch} (e : s.placeNext l = some t) : Memory.wf t.mem = true := by
  unfold State.placeNext at e
  dsimp only at e
  split at e
  · split at e
    · cases e
    · obtain ⟨locs, _, rfl⟩ := Option.map_eq_some_iff.mp e
      exact foldl_mem_wf (fun t x ht => by simp [ht]) h
  · split at e
    · cases e
    · obtain ⟨c, _, rfl⟩ := Option.map_eq_some_iff.mp e
      simp [h]

@[simp] theorem takeSlots_mem (s : State) (ls : List Loc) : (s.takeSlots ls).mem = s.mem := by
  simp [State.takeSlots]

theorem preemptFor_mem {s t : State} {l : Launch} (e : s.preemptFor l = some t) : t.mem = s.mem := by
  unfold State.preemptFor at e
  dsimp only at e
  split at e
  · split at e <;> cases e
    exact foldl_mem fun t u => by simp
  · split at e <;> cases e
    simp

theorem placeFirst_mem_wf {s t : State} (h : Memory.wf s.mem = true) {ls : List Launch} (e : s.placeFirst ls = some t) :
    Memory.wf t.mem = true := by
  induction ls with
  | nil => cases e
  | cons l r ih =>
    unfold State.placeFirst at e
    split at e
    next e' => cases e; exact placeNext_mem_wf h e'
    · exact ih e

theorem preemptFirst_mem {s t : State} {ls : List Launch} (e : s.preemptFirst ls = some t) : t.mem = s.mem := by
  induction ls with
  | nil => cases e
  | cons l r ih =>
    unfold State.preemptFirst at e
    split at e
    next e' =>
      cases e
      split at e'
      · exact preemptFor_mem e'
      · cases e'
    · exact ih e

@[simp] theorem execUnitPlace_outOk {s : State} (h : Memory.wf s.mem = true) : OutOk (execUnitPlace s) := by
  unfold execUnitPlace
  dsimp only
  split
  next e => exact placeFirst_mem_wf h e
  · split
    · exact h
    cases e : s.preemptFirst s.waitingLaunches with
    | none => exact h
    | some t => simp [preemptFirst_mem e, h]

@[simp] theorem endNode_mem (s : State) (id node : Nat) (err : Option Word) : (s.endNode id node err).mem = s.mem := by
  fun_cases State.endNode <;> simp [*]

@[simp] theorem execLaunchComplete_outOk {s : State} (h : Memory.wf s.mem = true) (launch : BitVec 32) :
    OutOk (execLaunchComplete launch s) := by
  simp only [execLaunchComplete]
  repeat' split
  all_goals simp [h]

@[simp] theorem watchLaunches_mem (s : State) (dt : Word) : (s.watchLaunches dt).mem = s.mem := by
  simp [State.watchLaunches]

@[simp] theorem execWatchdog_outOk {s : State} (h : Memory.wf s.mem = true) (launch : BitVec 32) : OutOk (execWatchdog launch s) := by
  unfold execWatchdog
  split <;> simp [h]

@[simp] theorem runNode_mem (s : State) (id i : Nat) : (s.runNode id i).mem = s.mem := by
  simp [State.runNode]

@[simp] theorem nodeDone_mem (s : State) (id i : Nat) : (s.nodeDone id i).mem = s.mem := by
  simp [State.nodeDone]

@[simp] theorem nodeFails_mem (s : State) (id i code : Nat) : (s.nodeFails id i code).mem = s.mem := by
  simp [State.nodeFails]

theorem onNode_outOk {s : State} (h : Memory.wf s.mem = true) (id i typ : Nat) (again : Node → Bool) {k : Replay → Node → State}
    (hk : ∀ r n, Memory.wf (k r n).mem = true) : OutOk (s.onNode id i typ again k) := by
  unfold State.onNode
  split
  · exact h
  · split
    · exact h
    · simp [h, hk]

theorem nodeRead_mem_wf {s : State} (h : Memory.wf s.mem = true) (r : Replay) (i va n : Nat) {k : State → List Word → State}
    (hk : ∀ t ws, Memory.wf t.mem = true → Memory.wf (k t ws).mem = true) : Memory.wf (s.nodeRead r i va n k).mem = true := by
  unfold State.nodeRead
  have hc := cpRead_cpOk h r.hub (itemOf r.id i) r.job (engWords_keeps (va := va) (n := n))
  split
  next e => rw [e] at hc; exact hk _ _ hc
  next e => rw [e] at hc; simpa using hc
  next e => rw [e] at hc; exact hc

@[simp] theorem execNodeLaunch_outOk {s : State} (h : Memory.wf s.mem = true) (replay node : Nat) :
    OutOk (execNodeLaunch replay node s) := by
  refine onNode_outOk h _ _ _ _ fun r n => ?_
  extract_lets ws err refuse
  have hc := cpRead_cpOk h r.hub (itemOf r.id node) r.job (engWords_keeps (va := recHdr ws) (n := 8))
  split
  · exact h
  split
  · simp [refuse, h]
  split
  next e => rw [e] at hc; exact hc
  next e => rw [e] at hc; simpa [refuse] using hc
  next e =>
    rw [e] at hc
    split
    · simpa [refuse] using hc
    · simpa using hc

@[simp] theorem execNodeCopy_outOk {s : State} (h : Memory.wf s.mem = true) (replay node : Nat) : OutOk (execNodeCopy replay node s) :=
  onNode_outOk h _ _ _ _ fun r n => by
    split
    · split <;> simp [h]
    · simp [h]

@[simp] theorem execNodeWait_outOk {s : State} (h : Memory.wf s.mem = true) (replay node : Nat) : OutOk (execNodeWait replay node s) :=
  onNode_outOk h _ _ _ _ fun r n => by simp [h]

@[simp] theorem execNodeSignal_outOk {s : State} (h : Memory.wf s.mem = true) (replay node : Nat) : OutOk (execNodeSignal replay node s) :=
  onNode_outOk h _ _ _ _ fun r n => by simp [h]

@[simp] theorem execNodeCond_outOk {s : State} (h : Memory.wf s.mem = true) (replay node : Nat) : OutOk (execNodeCond replay node s) :=
  onNode_outOk h _ _ _ _ fun r n => nodeRead_mem_wf h _ _ _ _ fun t ws ht => by simp [ht]

@[simp] theorem execNodeLoop_outOk {s : State} (h : Memory.wf s.mem = true) (replay node : Nat) : OutOk (execNodeLoop replay node s) :=
  onNode_outOk h _ _ _ _ fun r n => by
    dsimp only
    split
    · exact h
    split
    · simp [h]
    · exact nodeRead_mem_wf h _ _ _ _ fun t ws ht => by simp [ht]

@[simp] theorem execNodePatch_outOk {s : State} (h : Memory.wf s.mem = true) (replay node : Nat) : OutOk (execNodePatch replay node s) :=
  onNode_outOk h _ _ _ _ fun r n => nodeRead_mem_wf h _ _ _ _ fun t ws ht => by simp [ht]

@[simp] theorem execNop_outOk {s : State} (h : Memory.wf s.mem = true) : OutOk (execNop s) := by
  simp [execNop, h]

@[simp] theorem setFormats_mem (s : State) (fa fb fc : FmtId) : (s.setFormats fa fb fc).mem = s.mem := by
  simp [State.setFormats]

@[simp] theorem execFmtC_outOk {s : State} (h : Memory.wf s.mem = true) (fa fb fc : FmtId) : OutOk (execFmtC fa fb fc s) := by
  simp [execFmtC, h]

@[simp] theorem execFmtA_outOk {s : State} (h : Memory.wf s.mem = true) (fa fb fc : FmtId) : OutOk (execFmtA fa fb fc s) := by
  simp [execFmtA, h]

@[simp] theorem writeSys_mem (s : State) (r : SysReg) (x : Word) : (s.writeSys r x).mem = s.mem := by
  unfold State.writeSys
  split <;> simp

@[simp] theorem execMfsr_outOk {s : State} (h : Memory.wf s.mem = true) (d : SReg) (r : SysReg) : OutOk (execMfsr d r s) := by
  simp [execMfsr, h]

@[simp] theorem execMtsr_outOk {s : State} (h : Memory.wf s.mem = true) (a : SReg) (r : SysReg) : OutOk (execMtsr a r s) := by
  simp [execMtsr, h]

@[simp] theorem setPieces_mem_wf {s : State} (h : Memory.wf s.mem = true) (base : Nat) (ps : List (Nat × List Byte)) :
    Memory.wf (s.setPieces base ps).mem = true :=
  foldl_mem_wf (fun t _ ht => setBytes_mem_wf _ t _ ht) h

@[simp] theorem writeSlotRecord_mem_wf {s : State} (h : Memory.wf s.mem = true) : Memory.wf s.writeSlotRecord.mem = true := by
  simp [State.writeSlotRecord, h]

theorem spillAll_mem_wf (n : Nat) {s : State} (h : Memory.wf s.mem = true) : Memory.wf (State.spillAll n s).mem = true := by
  induction n generalizing s with
  | zero => exact h
  | succ n ih =>
    unfold State.spillAll
    split
    next e => exact ih (spillOldest_mem_wf h e)
    · exact h

@[simp] theorem stopSlot_mem_wf {s : State} (h : Memory.wf s.mem = true) : Memory.wf s.stopSlot.mem = true := by
  simp only [State.stopSlot, State.modCur_mem]
  exact writeSlotRecord_mem_wf (spillAll_mem_wf _ (by simp [h]))

@[simp] theorem execSlotStop_outOk {s : State} (h : Memory.wf s.mem = true) (l : Loc) : OutOk (execSlotStop l s) := by
  simp [execSlotStop, h]

@[simp] theorem finishStep_mem_wf {s : State} (h : Memory.wf s.mem = true) (cl key : Nat) (product : Bool) (n : Nat) :
    Memory.wf (State.finishStep cl key product n s).mem = true := by
  fun_induction State.finishStep <;> simp_all +zetaDelta

@[simp] theorem writeCoreRecord_mem_wf {s : State} (h : Memory.wf s.mem = true) (l : Loc) (x : SavedCore) :
    Memory.wf (s.writeCoreRecord l x).mem = true := by
  unfold State.writeCoreRecord
  split
  · exact setBytes_mem_wf _ _ _ (setBytes_mem_wf _ _ _ (setBytes_mem_wf _ _ _ (setPieces_mem_wf (zeroBytes_mem_wf _ _ _ h) _ _)))
  · exact h

@[simp] theorem leaveCore_mem_wf {s : State} (h : Memory.wf s.mem = true) (l : Loc) : Memory.wf (s.leaveCore l).mem = true := by
  refine foldl_mem_wf (fun t n ht => ?_) h
  dsimp only
  split <;> simp [ht]

@[simp] theorem execPreemptDrain_outOk {s : State} (h : Memory.wf s.mem = true) (die cluster core : Nat) :
    OutOk (execPreemptDrain die cluster core s) := by
  unfold execPreemptDrain
  dsimp only
  split
  · exact h
  · exact leaveCore_mem_wf (by simp [h]) _

@[simp] theorem replaySpill_mem (s : State) (u : Unit) : (s.replaySpill u).mem = s.mem := by
  refine (foldl_mem fun t e => ?_).trans (by simp)
  split
  · simp
  split
  · split <;> simp
  · simp

@[simp] theorem execResume_outOk {s : State} (h : Memory.wf s.mem = true) (l : Loc) : OutOk (execResume l s) := by
  unfold execResume
  dsimp only
  split
  · exact h
  split
  · exact h
  · rw [outOk_next]
    simp only [modUnits_mem, foldl_mem, replaySpill_mem, implies_true]
    exact foldl_mem_wf (fun t k ht => by simp [ht]) h

@[simp] theorem scClean_mem (s : State) : s.scClean.mem = s.mem := by
  simp [State.scClean]

@[simp] theorem scDrop_mem (s : State) (a : ScAnn) : (s.scDrop a).mem = s.mem := by
  simp [State.scDrop]

@[simp] theorem scAside_mem (s : State) (a : ScAnn) : (s.scAside a).mem = s.mem := by
  simp [State.scAside]

@[simp] theorem scReply_mem (s : State) (a : ScAnn) (old : Nat) : (s.scReply a old).mem = s.mem := by
  unfold State.scReply
  split <;> simp

theorem scFault_mem {s t : State} {a : ScAnn} {c : Cause} (e : s.scFault a c = some t) : t.mem = s.mem := by
  unfold State.scFault at e
  split at e
  · obtain ⟨u, hu, rfl⟩ := Option.map_eq_some_iff.mp e
    simp [faultPend_mem hu]
  · cases e; simp
  · cases e; simp
  · cases e

@[simp] theorem scNoHost_mem (s : State) (a : ScAnn) : (s.scNoHost a).mem = s.mem := by
  unfold State.scNoHost
  split <;> simp

@[simp] theorem scToHub_mem (s : State) (a : ScAnn) (op : AtomOp) (hub : Nat) : (s.scToHub a op hub).mem = s.mem := by
  simp [State.scToHub]

@[simp] theorem scPerform_mem_wf {s : State} (h : Memory.wf s.mem = true) (a : ScAnn) : Memory.wf (s.scPerform a).mem = true := by
  unfold State.scPerform
  extract_lets n f here
  have hh : Memory.wf (here s).mem = true := by
    simp only [here]
    split <;> simp [h]
  split
  next c _ =>
    cases e : s.scFault a c with
    | none => exact h
    | some t => simp [scFault_mem e, h]
  · split
    · split <;> simp [h]
    · exact hh

@[simp] theorem execScPerform_outOk {s : State} (h : Memory.wf s.mem = true) : OutOk (execScPerform s) := by
  unfold execScPerform
  have hs : Memory.wf s.scClean.mem = true := by simp [h]
  dsimp only
  split
  · exact hs
  · split
    · exact hs
    · exact scPerform_mem_wf hs _

theorem xlFault_mem {s t : State} {r : XlReq} {c : Cause} {w : Word} (e : s.xlFault r c w = some t) : t.mem = s.mem := by
  unfold State.xlFault at e
  obtain ⟨u, hu, rfl⟩ := Option.map_eq_some_iff.mp e
  simp [post_mem hu]

theorem xlSent_mem {s t : State} {r : XlReq} {n : Nat} {x : Xlated} (e : s.sent r n x = some t) : t.mem = s.mem := by
  unfold State.sent at e
  split at e
  · cases e; rfl
  · exact xlFault_mem e
  · cases e

theorem depart_mem_wf {s t : State} (h : Memory.wf s.mem = true) {die : Nat} {r : XlReq} {n : Nat} (e : s.depart die r n = some t) :
    Memory.wf t.mem = true := by
  rw [xlSent_mem e]
  show Memory.wf (s.apart fun s => s.translate die r.job r.va.toNat r.acc r.supervisor r.secure).1.mem = true
  exact apart_mem_wf (by simp [h])

/-- What departs, or else a machine whose memory is canonical. -/
theorem depart_getD_mem_wf {s t : State} (h : Memory.wf s.mem = true) (ht : Memory.wf t.mem = true) (die : Nat) (r : XlReq) (n : Nat) :
    Memory.wf ((s.depart die r n).getD t).mem = true := by
  cases e : s.depart die r n with
  | none => exact ht
  | some u => exact depart_mem_wf h e

theorem xlFault_getD_mem_wf {s t : State} (h : Memory.wf s.mem = true) (ht : Memory.wf t.mem = true) (r : XlReq) (c : Cause) (w : Word) :
    Memory.wf ((s.xlFault r c w).getD t).mem = true := by
  cases e : s.xlFault r c w with
  | none => exact ht
  | some u => simpa [xlFault_mem e] using h

@[simp] theorem execSliceTranslate_outOk {s : State} (h : Memory.wf s.mem = true) (r : XlReq) : OutOk (execSliceTranslate r s) := by
  unfold execSliceTranslate
  dsimp only
  split
  · exact depart_getD_mem_wf h h _ _ _
  · simp [h]

@[simp] theorem sentOrMailed_mem (s : State) (r : XlReq) (x : Xlated) : (s.sentOrMailed r x).mem = s.mem := by
  unfold State.sentOrMailed
  split
  next e => exact xlSent_mem e
  · split <;> rfl

@[simp] theorem postFaults_mem (s : State) : s.postFaults.mem = s.mem := foldl_mem fun t m => by simp

@[simp] theorem departAll_mem_wf {s : State} (h : Memory.wf s.mem = true) (die : Nat) (x : WalkEnd) (l : List XlReq) :
    Memory.wf (s.departAll die x l).1.mem = true :=
  foldl_fst_mem_wf (fun y r hy => by simp [hy]) h

@[simp] theorem keepJoined_mem_wf {s : State} (h : Memory.wf s.mem = true) (die : Nat) (x : WalkEnd) (l : List XlAsk) :
    Memory.wf (s.keepJoined die x l).mem = true := by
  refine foldl_fst_mem_wf (fun y q hy => ?_) h
  have hw : Memory.wf (y.1.walkIn die y.2 q).1.mem = true := by simp [hy]
  split
  next e => rw [e] at hw; split <;> simpa using hw
  next e => rw [e] at hw; simpa using hw
  next e => rw [e] at hw; exact hw

@[simp] theorem execPageWalkComplete_outOk {s : State} (h : Memory.wf s.mem = true) : OutOk (execPageWalkComplete s) := by
  unfold execPageWalkComplete
  dsimp only
  split
  · exact h
  · exact apart_mem_wf (by simp [h])

theorem acceptAt_mem_wf {s t : State} (h : Memory.wf s.mem = true) {f : Flight} {c : Option Cause} (e : s.acceptAt f = some (t, c)) :
    Memory.wf t.mem = true := by
  unfold State.acceptAt at e
  extract_lets r read write at e
  have hread (e : read = some (t, c)) : Memory.wf t.mem = true := by
    simp only [read] at e
    split at e
    · cases e
    · split at e <;> cases e <;> exact h
  have hwrite {k : State → State} (hk : Memory.wf (k s).mem = true) (e : write k = some (t, c)) : Memory.wf t.mem = true := by
    simp only [write] at e
    split at e
    · cases e
    · split at e <;> cases e
      · exact h
      · exact hk
  clear_value read write
  split at e
  · exact hread e
  · exact hread e
  · refine hwrite ?_ e
    split <;> simp [h]
  · refine hwrite ?_ e
    simp [h]

@[simp] theorem execHomeAccept_outOk {s : State} (h : Memory.wf s.mem = true) : OutOk (execHomeAccept s) := by
  unfold execHomeAccept
  split
  · exact h
  next f fs _ =>
    extract_lets t r die
    have ht : Memory.wf t.mem = true := h
    split
    · split
      next typ data _ =>
        have ha : Memory.wf (s.ask typ r.loc r.va.toNat f.pa r.size f.expiry data r.secure).1.mem = true := by simp [h]
        split
        next u e =>
          have hu : Memory.wf u.mem = true := by rw [e] at ha; exact ha
          dsimp only
          split
          · exact depart_getD_mem_wf (s := { u with flights := fs }) hu h _ _ _
          · exact hu
        next u _ _ e =>
          have hu : Memory.wf u.mem = true := by rw [e] at ha; exact ha
          exact xlFault_getD_mem_wf (s := { u with flights := fs }) hu h _ _ _
        next e => rw [e] at ha; exact ha
    split
    · split
      · exact h
      · exact xlFault_getD_mem_wf ht h _ _ _
      next e =>
        have hx := acceptAt_mem_wf h e
        exact hx
    split
    · exact xlFault_getD_mem_wf ht h _ _ _
    · exact depart_getD_mem_wf ht h _ _ _

theorem skewMessage_mem {s t : State} {die slice cause : Nat} (e : s.skewMessage die slice cause = some t) : t.mem = s.mem := by
  unfold State.skewMessage at e
  dsimp only at e
  split at e <;> cases e
  simp

@[simp] theorem postSkewOf_mem (s : State) (die : Nat) : (s.postSkewOf die).mem = s.mem := by
  refine (foldl_mem fun t m => ?_).trans (by simp)
  split
  next e => exact skewMessage_mem e
  · simp

@[simp] theorem postSkew_mem (s : State) : s.postSkew.mem = s.mem := foldl_mem fun t d => by split <;> simp

@[simp] theorem execSkewCheck_outOk {s : State} (h : Memory.wf s.mem = true) (die slice : Nat) (within : Bool) :
    OutOk (execSkewCheck die slice within s) := by
  unfold execSkewCheck
  dsimp only
  split
  · split <;> simp [h]
  · split
    · simp [h]
    · split <;> simp [h]

@[simp] theorem execLowtsExchange_outOk {s : State} (h : Memory.wf s.mem = true) : OutOk (execLowtsExchange s) := by
  exact foldl_mem_wf (fun _ _ ht => by simp [ht]) h

@[simp] theorem writeV_outOk {s : State} (h : Memory.wf s.mem = true) (d : VReg) (srcs : List VReg) (x : State → VWord × Flags)
    (n : optParam Need { }) : OutOk (s.writeV d srcs x n) := by
  simp [State.writeV, h]

@[simp] theorem writeK_outOk {s : State} (h : Memory.wf s.mem = true) (d : KReg) (srcs : List VReg) (x : State → KWord × Flags)
    (n : optParam Need { }) : OutOk (s.writeK d srcs x n) := by
  simp [State.writeK, h]

@[simp] theorem writeSV_outOk {s : State} (h : Memory.wf s.mem = true) (d : SReg) (srcs : List VReg) (x : State → Word)
    (n : optParam Need { }) : OutOk (s.writeSV d srcs x n) := by
  simp [State.writeSV, h]

@[simp] theorem vmap_outOk {s : State} (h : Memory.wf s.mem = true) (d : VReg) (srcs : List VReg) (k : KReg) (w : Nat) (f : Nat → Nat) :
    OutOk (s.vmap d srcs k w f) := by
  simp [State.vmap, h]

@[simp] theorem vmapF_outOk {s : State} (h : Memory.wf s.mem = true) (d : VReg) (srcs : List VReg) (k : KReg) (w : Nat)
    (f : Nat → Nat × Flags) : OutOk (s.vmapF d srcs k w f) := by
  simp [State.vmapF, h]

@[simp] theorem vint2_outOk {s : State} (h : Memory.wf s.mem = true) (f : Nat → Nat → Nat → Nat) (d a b : VReg) (k : KReg) (z : ESize) :
    OutOk (s.vint2 f d a b k z) := by
  simp [State.vint2, h]

@[simp] theorem perm_outOk {s : State} (h : Memory.wf s.mem = true) (f : Nat → (Nat → Nat) → (Nat → Nat) → (Nat → Nat) → Nat → Nat)
    (d a b : VReg) (k : KReg) (z : ESize) : OutOk (s.perm f d a b k z) := by
  simp [State.perm, h]

@[simp] theorem mask2_outOk {s : State} (h : Memory.wf s.mem = true) (f : KWord → KWord → KWord) (d a b : KReg) :
    OutOk (s.mask2 f d a b) := by
  simp [State.mask2, h]

@[simp] theorem execVmerge_outOk {s : State} (h : Memory.wf s.mem = true) (d a b : VReg) (k : KReg) (z : ESize) :
    OutOk (execVmerge d a b k z s) := by
  simp [execVmerge, h]

@[simp] theorem execVbcast_outOk {s : State} (h : Memory.wf s.mem = true) (d : VReg) (a : SReg) (k : KReg) (z : ESize) :
    OutOk (execVbcast d a k z s) := by
  simp [execVbcast, h]

@[simp] theorem execVext_outOk {s : State} (h : Memory.wf s.mem = true) (d : SReg) (a : VReg) (b : SReg) (z : ESize) :
    OutOk (execVext d a b z s) := by
  simp [execVext, h]

@[simp] theorem execVexts_outOk {s : State} (h : Memory.wf s.mem = true) (d : SReg) (a : VReg) (b : SReg) (z : ESize) :
    OutOk (execVexts d a b z s) := by
  simp [execVexts, h]

@[simp] theorem execVins_outOk {s : State} (h : Memory.wf s.mem = true) (d : VReg) (a b : SReg) (z : ESize) :
    OutOk (execVins d a b z s) := by
  simp [execVins, h]

@[simp] theorem execStok_outOk {s : State} (h : Memory.wf s.mem = true) (d : KReg) (a : SReg) (b : BitVec 1) :
    OutOk (execStok d a b s) := by
  simp [execStok, h]

@[simp] theorem vloop_outOk {s : State} (h : Memory.wf s.mem = true) (t : Word) (a : SReg) (n : BitVec 4) : OutOk (s.vloop t a n) := by
  simp [State.vloop, h]

@[simp] theorem packed_outOk {s : State} (h : Memory.wf s.mem = true) (fl : RM → Num → Num → Num → Exact) (int : ℤ → ℤ → ℤ → ℤ)
    (d a b : VReg) (k : KReg) : OutOk (s.packed fl int d a b k) := by
  simp [State.packed, h]

@[simp] theorem execVcvt_outOk {s : State} (h : Memory.wf s.mem = true) (d a : VReg) (k : KReg) (x y : BitVec 3) :
    OutOk (execVcvt d a k x y s) := by
  simp [execVcvt, h]

@[simp] theorem execVtunpack_outOk {s : State} (h : Memory.wf s.mem = true) (d a : VReg) (p : BitVec 5) (f : TType) :
    OutOk (execVtunpack d a p f s) := by
  simp [execVtunpack, h]

@[simp] theorem execVtpack_outOk {s : State} (h : Memory.wf s.mem = true) (d a : VReg) (p : BitVec 5) (t : TPack) :
    OutOk (execVtpack d a p t s) := by
  simp [execVtpack, h]

@[simp] theorem vfp_outOk {s : State} (h : Memory.wf s.mem = true) (f : RM → Num → Num → Num → Exact) (d a b : VReg) (k : KReg) (t : FType) :
    OutOk (s.vfp f d a b k t) := by
  simp [State.vfp, h]

@[simp] theorem vsign_outOk {s : State} (h : Memory.wf s.mem = true) (f : Bool → Bool → Bool) (d a b : VReg) (k : KReg) (t : FType) :
    OutOk (s.vsign f d a b k t) := by
  simp [State.vsign, h]

@[simp] theorem vfmaw_outOk {s : State} (h : Memory.wf s.mem = true) (from' : Nat) (d a b : VReg) (k : KReg) (t : HType) :
    OutOk (s.vfmaw from' d a b k t) := by
  simp [State.vfmaw, h]

@[simp] theorem execVcmp_outOk {s : State} (h : Memory.wf s.mem = true) (d : KReg) (a b : VReg) (k : KReg) (c : VCmp) :
    OutOk (execVcmp d a b k c s) := by
  simp [execVcmp, h]

@[simp] theorem vf32_outOk {s : State} (h : Memory.wf s.mem = true) (f : Num → Num → Nat × Flags) (d a b : VReg) (k : KReg) :
    OutOk (s.vf32 f d a b k) := by
  simp [State.vf32, h]

@[simp] theorem reduce_outOk {s : State} (h : Memory.wf s.mem = true) (d a : VReg) (r : Nat × Flags) : OutOk (s.reduce d a r) := by
  simp [State.reduce, h]

@[simp] theorem reduceF_outOk {s : State} (h : Memory.wf s.mem = true) (f : Num → Num → Exact) (identity : Nat) (d a : VReg) (k : KReg) :
    OutOk (s.reduceF f identity d a k) := by
  simp [State.reduceF, h]

@[simp] theorem reduceI_outOk {s : State} (h : Memory.wf s.mem = true) (f : Nat → Nat → Nat → Nat) (identity : Nat → Nat) (d a : VReg)
    (k : KReg) (z : ESize) : OutOk (s.reduceI f identity d a k z) := by
  simp [State.reduceI, h]

@[simp] theorem execVraddw_outOk {s : State} (h : Memory.wf s.mem = true) (d a : VReg) (k : KReg) (z : ESize) :
    OutOk (execVraddw d a k z s) := by
  simp [execVraddw, h]

@[simp] theorem execVsmUpd_outOk {s : State} (h : Memory.wf s.mem = true) (d a b : VReg) (k : KReg) : OutOk (execVsmUpd d a b k s) := by
  simp [execVsmUpd, h]

end Sys2Proof.Machine
end

