-- ==== Sys2Proof/Proofs/CanonicalSteps.lean ====
section
/-! What every instruction and event, every turn and every step keep of the canonical form (O47). -/

namespace Sys2Proof.Machine

/-- What an instruction or event does keeps memory canonical. -/
theorem exec_outOk (i : Instr) {s : State} (h : Memory.wf s.mem = true) : OutOk (exec i s) := by
  cases i
  case nop => exact execNop_outOk h
  case fmtC => exact execFmtC_outOk h _ _ _
  case fmtA => exact execFmtA_outOk h _ _ _
  case ldB | ldH | ldW | ldD | ldBs | ldHs | ldWs =>
    unfold exec
    exact loadS_outOk h _ _ _ _ _ _
  case vld => exact execVld_outOk h _ _ _ _
  case vldTag => exact execVldTag_outOk h _ _ _ _
  case stB | stH | stW | stD =>
    unfold exec
    exact storeS_outOk h _ _ _ _
  case vst => exact execVst_outOk h _ _ _
  case vstTag => exact execVstTag_outOk h _ _ _
  case adr => exact execAdr_outOk h _ _ _
  case cpf => exact execCpf_outOk h _ _
  case cinv => exact execCinv_outOk h _ _
  case lbank => exact execLbank_outOk h _ _ _
  case lrng => exact execLrng_outOk h _ _
  case lstat => exact execLstat_outOk h _ _
  case sbind => exact execSbind_outOk h _
  case ltag => exact execLtag_outOk h _ _
  case aswap | acas | aadd | aand | aor | axor | amax | amin | amaxu | aminu =>
    unfold exec
    exact atomic_outOk h _ _ _ _ _ _
  case aaddN | aandN | aorN | axorN | amaxN | aminN | amaxuN | aminuN =>
    unfold exec
    exact reduction_outOk h _ _ _ _
  case fence | fenceE | fenceI | fenceEi =>
    unfold exec
    exact fence_outOk h _ _
  case bar => exact execBar_outOk h _ _
  case scLd | scSt | scSwap | scCas | scAdd =>
    unfold exec
    exact scOp_outOk h _ _ _ _ _ _ _
  case br | brf =>
    unfold exec
    exact branch_outOk h _ _
  case call => exact execCall_outOk h _ _
  case jr => exact execJr_outOk h _
  case callr => exact execCallr_outOk h _
  case ret => exact execRet_outOk h
  case wflush => exact execWflush_outOk h
  case wdepth | tstamp =>
    unfold exec
    exact resultC_outOk h _ _ _
  case atTime => exact execAtTime_outOk h _
  case atTimeC => exact execAtTimeC_outOk h _
  case gang => exact execGang_outOk h _
  case split => exact execSplit_outOk h
  case tbegin => exact execTbegin_outOk h _ _
  case tcommit => exact execTcommit_outOk h
  case tend | exit =>
    unfold exec
    exact exitWith_outOk h _ _
  case tspawn => exact execTspawn_outOk h _ _ _
  case tabort => exact execTabort_outOk h
  case tabortO => exact execTabortO_outOk h
  case div | divu | rem | remu | divw | divuw | remw | remuw =>
    unfold exec
    exact divideOp_outOk h _ _ _ _ _ _
  case mul2 | mul2u =>
    unfold exec
    exact mulWide_outOk h _ _ _ _ _
  case mfsr => exact execMfsr_outOk h _ _
  case mtsr => exact execMtsr_outOk h _ _
  case lhzM | lhzD =>
    unfold exec
    exact lhz_outOk h _ _ _
  case lwait => exact execLwait_outOk h _
  case ptw => exact execPtw_outOk h _ _ _
  case frep => exact execFrep_outOk h _ _ _
  case trap => exact execTrap_outOk h _
  case brk => exact execBrk_outOk h _
  case rte => exact execRte_outOk h
  case tkill => exact execTkill_outOk h _
  case crd => exact execCrd_outOk h _ _
  case cwait => exact execCwait_outOk h _ _ _
  case csig => exact execCsig_outOk h _ _
  case lcancel => exact execLcancel_outOk h _
  case cset => exact execCset_outOk h _ _
  case qpop => exact execQpop_outOk h _ _ _
  case qpush => exact execQpush_outOk h _ _ _
  case vqpop => exact execVqpop_outOk h _ _ _
  case vqpush => exact execVqpush_outOk h _ _
  case cpy => exact execCpy_outOk h _ _
  case cpyTry => exact execCpyTry_outOk h _ _ _
  case mcmd => exact execMcmd_outOk h _ _
  case rcat | rsplit | rsplice | rindex | rsum | rwalk | rhold | rdrop | rpiece | rresum | trim | rtier =>
    unfold exec
    exact rope_outOk h _ _ _ _ _
  case hblk => exact execHblk_outOk h _ _ _
  case pfxLook => exact execPfxLook_outOk h _ _
  case pfxAdd => exact execPfxAdd_outOk h _ _
  case pfxPin => exact execPfxPin_outOk h _ _
  case pfxUnpin => exact execPfxUnpin_outOk h _ _
  case tget => exact execTget_outOk h _ _ _
  case tput => exact execTput_outOk h _ _ _
  case qwait => exact execQwait_outOk h _ _ _
  case wcwait => exact execWcwait_outOk h _ _ _
  case add | sub | addw | subw | adds | subs | addus | subus | and | or | xor | andn | orn | xnor | min | max | minu | maxu | sll | srl |
    sra | rol | ror | sllw | srlw | sraw | mul | mulh | mulhu | mulhsu | mulw | bclr | bset | binv | bext =>
    unfold exec
    exact alu2_outOk h _ _ _ _ _
  case abs | clz | ctz | popc | brev | bswap | sextB | sextH | sextW | zextB | zextH | zextW | mov =>
    unfold exec
    exact alu1_outOk h _ _ _ _
  case sllImm | srlImm | sraImm | rolImm | rorImm | sllwImm | srlwImm | srawImm | addImm | andImm | orImm | xorImm | lih =>
    unfold exec
    exact aluI_outOk h _ _ _
  case cmp | cmpImm | pand | por | pxor | pandn | pnot | ptest =>
    unfold exec
    exact writeP_outOk h _ _ _ _
  case sel | pmov | li =>
    unfold exec
    exact writeS_outOk h _ _ _ _
  case vadd | vsub | vadds | vsubs | vaddus | vsubus | vmul | vmulh | vmulhu | vand | vor | vxor | vandn | vmin | vmax | vminu | vmaxu |
    vabs | vsll | vsrl | vsra | vavgu | vmov =>
    unfold exec
    exact vint2_outOk h _ _ _ _ _ _
  case vaddF | vsubF | vmulF | vminF | vmaxF | vfma | vfms | vfnma | vfnms =>
    unfold exec
    exact vfp_outOk h _ _ _ _ _ _
  case vabsF | vnegF | vcpsgnF =>
    unfold exec
    exact vsign_outOk h _ _ _ _ _ _
  case vfmawLo | vfmawHi =>
    unfold exec
    exact vfmaw_outOk h _ _ _ _ _ _
  case vcmp => exact execVcmp_outOk h _ _ _ _ _
  case vcvt => exact execVcvt_outOk h _ _ _ _ _
  case vrcpA | vrsqA | vrcpS | vrsqS | vrcp | vrsq | vsqrt | vdiv | vexp2 | vlog2 =>
    unfold exec
    exact vf32_outOk h _ _ _ _ _
  case vraddF32 | vrmaxF32 | vrminF32 =>
    unfold exec
    exact reduceF_outOk h _ _ _ _ _
  case vradd | vrmax | vrmin | vrmaxu | vrminu | vrand | vror | vrxor =>
    unfold exec
    exact reduceI_outOk h _ _ _ _ _ _
  case vraddw => exact execVraddw_outOk h _ _ _ _
  case vperm | vperm2 | vzipl | vziph | vuzpe | vuzpo | vrev | vsld =>
    unfold exec
    exact perm_outOk h _ _ _ _ _ _
  case kand | kor | kxor | kandn | knot | kmov =>
    unfold exec
    exact mask2_outOk h _ _ _ _
  case vmerge => exact execVmerge_outOk h _ _ _ _ _
  case vtunpack => exact execVtunpack_outOk h _ _ _ _
  case vtpack => exact execVtpack_outOk h _ _ _ _
  case vpadd | vpsub | vpmul | vpmin | vpmax | vpfma =>
    unfold exec
    exact packed_outOk h _ _ _ _ _ _
  case vbcast => exact execVbcast_outOk h _ _ _ _
  case vext => exact execVext_outOk h _ _ _ _
  case vexts => exact execVexts_outOk h _ _ _ _
  case vins => exact execVins_outOk h _ _ _ _
  case ktos | kpop | vlidx =>
    unfold exec
    exact writeSV_outOk h _ _ _ _
  case stok => exact execStok_outOk h _ _ _
  case vsmUpd => exact execVsmUpd_outOk h _ _ _ _
  case vsmRescale =>
    unfold exec
    exact vmapF_outOk h _ _ _ _ _
  case vloop =>
    unfold exec
    exact vloop_outOk h _ _ _
  case lookaheadComplete => exact execLookaheadComplete_outOk h
  case lateTrap => exact execLateTrap_outOk h
  case matrixData => exact execMatrixData_outOk h
  case eagerSpill => exact execEagerSpill_outOk h
  case commitVisible => exact execCommitVisible_outOk h
  case taskAbort => exact execTaskAbort_outOk h
  case nonspecRun => exact execNonspecRun_outOk h
  case lowtsExchange => exact execLowtsExchange_outOk h
  case lwaitExpire => exact execLwaitExpire_outOk h
  case atExpire => exact execAtExpire_outOk h
  case sliceTranslate => exact execSliceTranslate_outOk h _
  case pageWalkComplete => exact execPageWalkComplete_outOk h
  case homeAccept => exact execHomeAccept_outOk h
  case skewCheck => exact execSkewCheck_outOk h _ _ _
  case copyStart => exact execCopyStart_outOk h _ _
  case copyTimedStart => exact execCopyTimedStart_outOk h _ _
  case copyChunk => exact execCopyChunk_outOk h _ _
  case copyComplete => exact execCopyComplete_outOk h _ _
  case ropeCommandTake => exact execRopeCommandTake_outOk h _
  case ropeCommandDone => exact execRopeCommandDone_outOk h _
  case rwalkDescriptorPush => exact execRwalkDescriptorPush_outOk h _
  case blockDrainExpire => exact execBlockDrainExpire_outOk h _ _
  case arrayGrant => exact execArrayGrant_outOk h _ _ _
  case flailRow => exact execFlailRow_outOk h _ _
  case productRow => exact execProductRow_outOk h _ _
  case q3Push => exact execQ3Push_outOk h _ _ _
  case matrixComplete => unfold exec; simp [h]
  case tileMovePerform => exact execTileMovePerform_outOk h _ _ _ _
  case lbankZeroDone => exact execLbankZeroDone_outOk h _ _ _
  case submit => exact execSubmit_outOk h _ _ _
  case unfreeze => exact execUnfreeze_outOk h _ _
  case cancel => exact execCancel_outOk h _ _
  case endjob => exact execEndjob_outOk h _ _
  case toDevice | toShared | toHost =>
    unfold exec
    exact handoverTo_outOk h _ _ _ _
  case ringRecordRead => exact execRingRecordRead_outOk h _
  case q11Record => exact execQ11Record_outOk h _
  case recordServe => exact execRecordServe_outOk h _
  case priorityAging => exact execPriorityAging_outOk h _
  case unitPlace => exact execUnitPlace_outOk h
  case slotStop => exact execSlotStop_outOk h _
  case preemptDrain => exact execPreemptDrain_outOk h _ _ _
  case resume => exact execResume_outOk h _
  case launchComplete => exact execLaunchComplete_outOk h _
  case graphReplay => exact execGraphReplay_outOk h _
  case phaseRecord => exact execPhaseRecord_outOk h _
  case nodeLaunch => exact execNodeLaunch_outOk h _ _
  case nodeCopy => exact execNodeCopy_outOk h _ _
  case nodeWait => exact execNodeWait_outOk h _ _
  case nodeSignal => exact execNodeSignal_outOk h _ _
  case nodeCond => exact execNodeCond_outOk h _ _
  case nodeLoop => exact execNodeLoop_outOk h _ _
  case nodePatch => exact execNodePatch_outOk h _ _
  case watchdog => exact execWatchdog_outOk h _
  case unitCancelRetire => exact execUnitCancelRetire_outOk h
  case registerWrite => exact execRegisterWrite_outOk h _ _ _
  case hostRead => exact execHostRead_outOk h _ _ _
  case hostWrite => exact execHostWrite_outOk h _ _ _
  case hostFetchAdd | hostSwap | hostCas =>
    unfold exec
    exact hostAtomic_outOk h _ _ _ _
  case hubHostAtomic => exact execHubHostAtomic_outOk h _ _
  case getMeasurements => exact execGetMeasurements_outOk h _
  case challenge => exact execChallenge_outOk h _ _
  case perstRelease => exact execPerstRelease_outOk h
  case kDieRelease => exact execKDieRelease_outOk h
  case rollbackFuseBlow => exact execRollbackFuseBlow_outOk h _ _
  case discoverSend => exact execDiscoverSend_outOk h _
  case discoverTimeout => exact execDiscoverTimeout_outOk h _ _
  case flitReceive => exact execFlitReceive_outOk h _ _
  case fabricRead | fabricWrite | fabricLock | fabricPerform | fabricUnlock | fabricAtomic | fabricSend =>
    unfold exec
    exact ingress_outOk h _ _
  case fabricData | fabricAck | fabricRefuse =>
    unfold exec
    exact answered_outOk h _ _ _
  case fabricSc => exact execFabricSc_outOk h _
  case fabricBeacon => exact execFabricBeacon_outOk h _ _
  case sendTimedEgress => exact execSendTimedEgress_outOk h _
  case beaconSend => exact execBeaconSend_outOk h
  case beaconLost => exact execBeaconLost_outOk h
  case dieFlitReceive => exact execDieFlitReceive_outOk h _ _ _
  case dieReqRead => exact execDieReqRead_outOk h _
  case dieReqLock => exact execDieReqLock_outOk h _
  case dieReqAtomic => exact execDieReqAtomic_outOk h _
  case dieReqSc => exact execDieReqSc_outOk h _
  case dieRspData | dieRspAck | dieRspRefuse | dieRspInvack =>
    unfold exec
    exact dieResponse_outOk h _ _
  case dieWrPerform => exact execDieWrPerform_outOk h _
  case dieWrWrite => exact execDieWrWrite_outOk h _
  case dieWrUnlock => exact execDieWrUnlock_outOk h _
  case dieWrInv => exact execDieWrInv_outOk h _
  case dieArbSig => exact execDieArbSig_outOk h _
  case dieArbLowts => exact execDieArbLowts_outOk h _
  case dieArbMark => exact execDieArbMark_outOk h _
  case dieArbScann => exact execDieArbScann_outOk h _
  case dieEngCmd => exact execDieEngCmd_outOk h _
  case dieEngDone => exact execDieEngDone_outOk h _
  case dieMgmtDiscover => exact execDieMgmtDiscover_outOk h _ _ _
  case dieMgmtBeacon => exact execDieMgmtBeacon_outOk h _
  case scPerform => exact execScPerform_outOk h
  case regionTableWrite => exact execRegionTableWrite_outOk h _ _ _
  case blockWorldSet => exact execBlockWorldSet_outOk h _ _
  case powerLimit => exact execPowerLimit_outOk h
  case thermalStop => exact execThermalStop_outOk h
  case singleBitError => unfold exec; simp [h]
  case doubleBitError => exact execDoubleBitError_outOk h _ _ _
  case debuggerStop => exact execDebuggerStop_outOk h _
  case powerBelowLimit => exact execPowerBelowLimit_outOk h
  case illegalEncoding =>
    unfold exec
    exact raise_outOk h _
  case kickRefused => exact execKickRefused_outOk h _ _

@[simp] theorem unused_mem_wf {t : State} (h : Memory.wf t.mem = true) : Memory.wf t.unused.mem = true := by
  simp [State.unused, h]

/-- The machine that a fetch leaves has canonical memory. -/
def BundleOk : Bundle → Prop
  | .ok t _ _ => Memory.wf t.mem = true
  | .wait t => Memory.wf t.mem = true
  | .trap t _ => Memory.wf t.mem = true

@[simp] theorem bundleOk_ok (t : State) (w0 w1 : Word32) : BundleOk (.ok t w0 w1) ↔ Memory.wf t.mem = true := Iff.rfl

@[simp] theorem bundleOk_wait (t : State) : BundleOk (.wait t) ↔ Memory.wf t.mem = true := Iff.rfl

@[simp] theorem bundleOk_trap (t : State) (i : TrapInfo) : BundleOk (.trap t i) ↔ Memory.wf t.mem = true := Iff.rfl

theorem fetch_bundleOk {s : State} (h : Memory.wf s.mem = true) : BundleOk s.fetch := by
  have ht := translate_mem_wf h (sliceDie s.cur.loc.die) s.cur.job s.cur.pc.toNat .fetch (tsrSup s.cur.tsr) s.cur.secure
  unfold State.fetch
  extract_lets u va words fault
  have hfault {t : State} (ht : Memory.wf t.mem = true) (c : Cause) (e : Word) : BundleOk (fault t c e) := by
    have hg := faultCur_gotOk ht .fetch va c e false 0
    simp only [fault]
    split
    next e => rw [e] at hg; exact hg
    next e => rw [e] at hg; exact hg
    next e => rw [e] at hg; exact hg
  have hwords {t : State} (ht : Memory.wf t.mem = true) (l : List Byte) : BundleOk (words t l) := ht
  clear_value fault words
  split
  · exact h
  split
  · exact h
  split
  · split
    · exact h
    · exact hwords h _
  split
  next e => rw [e] at ht; exact hfault ht _ _
  next e => rw [e] at ht; exact ht
  next t pa _ x e =>
    have hu : Memory.wf t.mem = true := by rw [e] at ht; exact ht
    split
    · split
      · exact hfault hu _ _
      · exact hu
      · exact hwords hu _
    · have ha : Memory.wf (t.ask .read u.loc va pa 8 x (readData 8) u.secure).1.mem = true := by simp [hu]
      split
      next e => rw [e] at ha; exact ha
      next e => rw [e] at ha; exact hwords ha _
      next e => rw [e] at ha; exact hfault ha _ _

theorem bundle_bundleOk {s : State} (h : Memory.wf s.mem = true) (lead : Option (Word32 × Word32)) : BundleOk (s.bundle lead) := by
  have hf := fetch_bundleOk h
  unfold State.bundle
  dsimp only
  split
  · simp [h]
  · split
    next e => rw [e] at hf; simpa using hf
    next e => rw [e] at hf; exact hf
    next e => rw [e] at hf; exact hf

@[simp] theorem execA_outOk {s : State} (h : Memory.wf s.mem = true) (lead : Option Unit) (w1 : Word32) (i : Instr) :
    OutOk (s.execA lead w1 i) := by
  unfold State.execA
  split
  · exact exec_outOk i h
  · split
    · exact vloop_outOk h _ _ _
    · exact exec_outOk i h

@[simp] theorem issueC_outOk {s : State} (h : Memory.wf s.mem = true) (lead : Option Unit) (w0 w1 : Word32) :
    OutOk (s.issueC lead w0 w1) := by
  have hill (b : Bool) : OutOk (execIllegalEncoding b s) := raise_outOk h _
  unfold State.issueC
  dsimp only
  split
  · exact hill _
  · split
    · exact hill _
    split
    · exact raise_outOk h _
    · exact illegalOperandWord_outOk h _
  · split
    · exact hill _
    split
    · exact raise_outOk h _
    · exact onNext_outOk (exec_outOk _ h) (by simp)

@[simp] theorem issueA_outOk {s : State} (h : Memory.wf s.mem = true) (lead : Option Unit) (w0 w1 : Word32) :
    OutOk (s.issueA lead w0 w1) := by
  have hill (b : Bool) : OutOk (execIllegalEncoding b s) := raise_outOk h _
  unfold State.issueA
  split
  · exact hill _
  split
  · simp [h]
  split
  · exact hill _
  · exact illegalOperandWord_outOk h _
  · exact execA_outOk h _ _ _

@[simp] theorem issueNext_outOk {s : State} (h : Memory.wf s.mem = true) (lead : Option (Unit × Option (Word32 × Word32))) :
    OutOk (s.issueNext lead) := by
  unfold State.issueNext
  split
  · exact withCommit_outOk h _ _ fun _ ht => ht
  split
  · simp [h]
  have hb := bundle_bundleOk h (lead.bind fun l => l.2)
  split
  next e => rw [e] at hb; simpa using hb
  next e => rw [e] at hb; exact raise_outOk hb _
  next t w0 w1 e =>
    have ht : Memory.wf t.mem = true := by rw [e] at hb; exact hb
    dsimp only
    split
    · exact issueA_outOk ht _ _ _
    · exact issueC_outOk ht _ _ _

@[simp] theorem retirePoll_outOk {s : State} (h : Memory.wf s.mem = true) (code : BitVec 16) (trapped : Bool) :
    OutOk (s.retirePoll code trapped) := by
  simp [State.retirePoll, h]

@[simp] theorem lbankPoll_outOk {s : State} (h : Memory.wf s.mem = true) (d : SReg) (bank : Nat) (w : Option Word) :
    OutOk (s.lbankPoll d bank w) := by
  unfold State.lbankPoll
  split <;> simp [h]

@[simp] theorem proceed_outOk {s : State} (h : Memory.wf s.mem = true) (lead : Option (Unit × Option (Word32 × Word32))) :
    OutOk (s.proceed lead) := by
  have done {o : Out} (ho : OutOk o) : OutOk (onNext o (State.aged s.ids)) := onNext_outOk ho (by simp)
  unfold State.proceed
  dsimp only
  split
  · exact issueNext_outOk h _
  · exact execLwaitExpire_outOk h
  · exact execAtExpire_outOk h
  · exact done (lbankPoll_outOk h _ _ _)
  · exact done (fencePoll_outOk h _)
  · exact done (barPoll_outOk h _ _)
  · exact gangPoll_outOk h _
  · exact retirePoll_outOk h _ _
  · exact execNonspecRun_outOk h
  · exact h

@[simp] theorem raiseTurn_outOk {s : State} (h : Memory.wf s.mem = true) (t : TrapInfo) : OutOk (s.raiseTurn t) := by
  simp [State.raiseTurn, h]

@[simp] theorem unitTurn_outOk {s : State} (h : Memory.wf s.mem = true) (lead : Option (Unit × Option (Word32 × Word32))) :
    OutOk (State.unitTurn lead s) := by
  unfold State.unitTurn
  split
  · dsimp only
    split
    · exact execMatrixData_outOk (by simp [h])
    · exact holdTrap_outOk h _ _
  split
  · exact execTaskAbort_outOk h
  split
  · exact execLateTrap_outOk h
  split
  · exact execMatrixData_outOk h
  split
  · exact raiseTurn_outOk h _
  split
  · exact execLateTrap_outOk h
  split
  · simp [h]
  split
  · exact execCommitVisible_outOk h
  · exact proceed_outOk h _

@[simp] theorem ownTurn_outOk {s : State} (h : Memory.wf s.mem = true) (lead : Option (Unit × Option (Word32 × Word32))) :
    OutOk (State.ownTurn lead s) := by
  simp [State.ownTurn, h]

theorem runMembers_outOk {f : Loc → State → Out} (hf : ∀ l t, Memory.wf t.mem = true → OutOk (f l t)) (ls : List Loc) {s : State}
    (h : Memory.wf s.mem = true) (w : List Loc) : OutOk (runMembers f ls s w).1 := by
  induction ls generalizing s w with
  | nil => exact h
  | cons l r ih =>
    have hl := hf l s h
    unfold runMembers
    split
    next e => rw [e] at hl; exact ih hl _
    · trivial
    · trivial

theorem keepWaiting_mem_wf {f : Loc → State → Out} (hf : ∀ l t, Memory.wf t.mem = true → OutOk (f l t)) (ls : List Loc) {s : State}
    (h : Memory.wf s.mem = true) : Memory.wf (keepWaiting f ls s).mem = true := by
  induction ls generalizing s with
  | nil => exact h
  | cons l r ih =>
    have hl := hf l s h
    have hstay : Memory.wf (s.focus l).waitTurn.mem = true := by simp [h]
    unfold keepWaiting
    dsimp only
    split
    next e =>
      rw [e] at hl
      split
      · exact ih hl
      · exact ih hstay
    · exact ih hstay
    · exact ih hstay

theorem gangTrap_mem_wf {f : Loc → State → Out} (hf : ∀ l t, Memory.wf t.mem = true → OutOk (f l t)) {s : State}
    (h : Memory.wf s.mem = true) (ls : List Loc) (lead : Unit) (hits : List (Loc × TrapInfo)) :
    Memory.wf (s.gangTrap f ls lead hits).mem = true := by
  unfold State.gangTrap
  split
  · exact h
  · refine foldl_mem_wf (fun t l ht => ?_) h
    have hl := hf l t ht
    split
    · split
      next e => rw [e] at hl; exact hl
      · exact ht
      · exact ht
    · simp [ht]

@[simp] theorem gangTurn_outOk {s : State} (h : Memory.wf s.mem = true) : OutOk s.gangTurn := by
  unfold State.gangTurn
  split
  · exact h
  next lead rest _ =>
    extract_lets us ls home each ready got base words late f
    have hhome {t : State} (ht : Memory.wf t.mem = true) : Memory.wf (home t).mem = true := by simp [home, ht]
    have heach {f : State → State} (hf : ∀ t, Memory.wf t.mem = true → Memory.wf (f t).mem = true) : Memory.wf (each f).mem = true :=
      hhome (foldl_mem_wf (fun t l ht => hf _ (by simp [ht])) h)
    have hgot : BundleOk got := by
      simp only [got]
      split
      · exact bundle_bundleOk (hhome h) _
      · exact h
    have hbase : Memory.wf base.mem = true := by
      simp only [base]
      generalize got = g at hgot ⊢
      cases g with
      | ok t w0 w1 => exact hgot
      | wait t => exact hgot
      | trap t i => exact h
    have hf (l : Loc) (t : State) (ht : Memory.wf t.mem = true) : OutOk (f l t) := by simp [f, ht]
    clear_value f base late words got ready each home
    split
    · exact h
    split
    · refine heach fun t ht => ?_
      have ha : OutOk (execTaskAbort (t.modCur fun u => { u with marked := true })) := by simp [ht]
      split
      next e => rw [e] at ha; exact ha
      · exact ht
      · exact ht
    split
    · exact heach fun t ht => by simp [ht]
    split
    · simp [hhome hbase]
    have h1 := runMembers_outOk hf ls hbase []
    split
    next t1 w1 e1 =>
      rw [e1] at h1
      have h2 := runMembers_outOk hf w1 (s := t1) h1 []
      split
      next t2 e2 =>
        rw [e2] at h2
        dsimp only
        split
        · exact hhome h2
        split
        · exact hhome (gangTrap_mem_wf hf hbase _ _ _)
        · exact hhome (foldl_mem_wf (fun t l ht => by simp [ht]) hbase)
      · exact hhome (keepWaiting_mem_wf hf _ hbase)
      · trivial
      · trivial
    · trivial
    · trivial

@[simp] theorem turn_outOk {s : State} (h : Memory.wf s.mem = true) : OutOk s.turn := by
  refine onNext_outOk ?_ fun t ht => by simp [ht]
  split
  · exact ownTurn_outOk h _
  · exact gangTurn_outOk h

@[simp] theorem clearWays_mem (s : State) : s.clearWays.mem = s.mem := by
  simp [State.clearWays]

@[simp] theorem tick_mem_wf {s : State} (h : Memory.wf s.mem = true) : Memory.wf s.tick.mem = true := by
  simp only [State.tick, pumpDies_mem, pumpOut_mem]
  refine drainLanes_mem_wf (serveHeld_mem_wf ?_)
  simp only [watchLaunches_mem, watchQueues_mem]
  refine settleBoot_mem_wf (retryPrefetches_mem_wf ?_)
  simp only [postFaults_mem, postSkew_mem]
  refine retryRefusals_mem_wf (joinRecords_mem_wf ?_)
  simpa using h

@[simp] theorem event_outOk {s : State} (h : Memory.wf s.mem = true) (i : Instr) : OutOk (s.event i) := by
  unfold State.event
  split
  · exact h
  · exact exec_outOk i h

theorem rotate_mem {s t : State} {l : Loc} (e : s.rotate l = some t) : t.mem = s.mem := by
  unfold State.rotate at e
  obtain ⟨i, _, rfl⟩ := Option.map_eq_some_iff.mp e
  simp

@[simp] theorem coreTurn_outOk {s : State} (h : Memory.wf s.mem = true) (l : Loc) : OutOk (s.coreTurn l) := by
  unfold State.coreTurn
  split
  · exact h
  split
  next e => exact turn_outOk (by rwa [rotate_mem e])
  · exact h

@[simp] theorem act_outOk {s : State} (h : Memory.wf s.mem = true) : OutOk s.act := by
  unfold State.act
  split
  · simp [h]
  split
  next e => simp [nextPacket_mem e, h]
  split <;> simp [h]

theorem step_outOk {s : State} (h : Memory.wf s.mem = true) : OutOk (step s) := by
  unfold step
  split
  · trivial
  split
  · simp [h]
  · simp [h]

end Sys2Proof.Machine
end

