-- ==== Sys2Proof/Proofs/MemoryCanonical.lean ====
section
open Sys2Proof Sys2Proof.Machine

/-- Settles O47: memory changes byte by byte or by leaving bytes out, each of which keeps the form, and a step is made of such changes. -/
theorem everyStepKeepsMemoryCanonical : Obligations.EveryStepKeepsMemoryCanonical := by
  intro s t h e
  have hs := step_outOk h
  rw [e] at hs
  exact hs

end

