-- ==== Sys2Proof/Proofs/LoadsAndStores.lean ====
section
/-! Loads and stores: the equations of their shared operations, and what settles O13 and O15 (R174 to R177, R326, R333). -/

namespace Sys2Proof.Machine

/-! ### Addresses that pass their checks (R175) -/

/-- A canonical, aligned address that the unit may use passes the checks. -/
theorem addrChecks_reaches {s : State} {ea : Word} {n align : Nat} (h : s.Reaches ea n align) :
    (s.addrChecks ea n align).findSome? id = none := by
  obtain ⟨hc, ha, hl⟩ := h
  have hb : bits ea 63 56 = 0 := by simp only [bits]; omega
  simp [State.addrChecks, hb, ha, hl]

/-- So does one whose granule must be one of banks 0 to 13. -/
theorem tagChecks_reaches {s : State} {ea : Word} {n align : Nat} (h : s.Reaches ea n align) (hi : s.cur.inAperture ea = true)
    (hb : s.cur.apertureBank ea ≤ 13) : (s.addrChecks ea n align ++ [s.tagCheck ea]).findSome? id = none := by
  simp [List.findSome?_append, addrChecks_reaches h, State.tagCheck, hi, hb]

/-- An instruction at such an address, which nothing else stops, has its effect in the state itself. -/
theorem issue_access {s : State} {ks : List RegKey} (hq : s.Quiet ks) {addr : List (Option TrapInfo)} (ha : addr.findSome? id = none)
    {live : Bool} (hl : live = false) (k : State → Out) : s.issue { touch := ks, addr, live } k = k s :=
  issue_clear s _ k hq.1 nofun rfl hq.2 ha hl

/-! ### Bytes of numbers (R3, R5) -/

/-- The low bytes of a number, each by its own power of 256. -/
theorem bytesOf_eq_map_range (n x : Nat) : bytesOf n x = (List.range n).map fun j => BitVec.ofNat 8 (x / 256 ^ j) := by
  induction n generalizing x with
  | zero => rfl
  | succ n ih =>
    simp only [bytesOf, ih, List.range_succ_eq_map, List.map_cons, List.map_map, pow_zero, Nat.div_one]
    congr 1
    refine List.map_congr_left fun j _ => ?_
    simp [Nat.div_div_eq_div_mul, pow_succ']

theorem ofBytes_lt (l : List Byte) : ofBytes l < 256 ^ l.length := by
  induction l with
  | nil => simp [ofBytes]
  | cons b l ih =>
    have := b.isLt
    simp only [ofBytes, List.length_cons, pow_succ']
    omega

/-- The sign extension of a number of 64 bits, through its integer value. -/
theorem sext_word {x : Nat} (h : x < 2 ^ 64) (n : Nat) : sext (word x) n = BitVec.ofInt 64 (BitVec.ofNat n x).toInt := by
  have e : (BitVec.ofNat 64 x).toNat = x := Nat.mod_eq_of_lt h
  simp only [sext, word, BitVec.signExtend, e]

/-! ### Loads (R174 to R176) -/

/-- What a load of at most 8 bytes writes to a scalar register. -/
theorem loadValue_scalar (signed : Bool) {n : Nat} {l : List Byte} (hl : l.length = n) (hn : n ≤ 8) :
    loadValue false signed n l = sval (if signed then BitVec.ofInt 64 (BitVec.ofNat (8 * n) (ofBytes l)).toInt
      else BitVec.ofNat 64 (ofBytes l)) := by
  have hx : ofBytes l < 2 ^ 64 := calc
    ofBytes l < 256 ^ l.length := ofBytes_lt l
    _ ≤ 256 ^ 8 := Nat.pow_le_pow_right (by decide) (hl ▸ hn)
    _ = 2 ^ 64 := by decide
  simp only [loadValue, Bool.false_eq_true, if_false, sext_word hx]
  rfl

/-- The reading of load number `s.ids` with lookahead `la`. -/
def State.reads (s : State) (la : BitVec 4) (ea : Word) (n : Nat) : Got :=
  s.loadBytes ea n s.ids (if la = 0 then 0 else s.ids) s.cur.tid s.cur.task.ops.length

section
variable {s t : State} {la : BitVec 4} {ea : Word} {n : Nat}

theorem load_ok {l : List Byte} (h : s.reads la ea n = .ok t l) (dests : List RegKey) (signed vector lone : Bool) :
    s.load la dests ea n signed vector lone = .next ((t.openWindow la dests (some [loadValue vector signed n l])
      (.load ea n signed vector s.cur.tid s.cur.task.ops.length)).afterC id lone) := by
  unfold State.reads at h
  simp only [State.load, h]
  rfl

theorem load_wait_now (h : s.reads la ea n = .wait t) (h0 : la = 0) (dests : List RegKey) (signed vector lone : Bool) :
    s.load la dests ea n signed vector lone = .next t.waitTurn := by
  unfold State.reads at h
  simp only [State.load]
  rw [h]
  exact if_pos h0

theorem load_wait_later (h : s.reads la ea n = .wait t) (h0 : la ≠ 0) (dests : List RegKey) (signed vector lone : Bool) :
    s.load la dests ea n signed vector lone = .next ((t.openWindow la dests none
      (.load ea n signed vector s.cur.tid s.cur.task.ops.length)).afterC id lone) := by
  unfold State.reads at h
  simp only [State.load]
  rw [h]
  exact if_neg h0

end

/-- A load of which an earlier access to one of its words is still to be performed waits (R346). -/
theorem loadBytes_wordBefore {s : State} {id n : Nat} {ea : Word} (h : s.cur.wordBefore id ea n = true) (pend : Nat) (tid : Word)
    (seen : Nat) : s.loadBytes ea n id pend tid seen = .wait s := by
  simp [State.loadBytes, h]

/-- Any other load of the running task takes the committed bytes under the stores that precede it (R176). -/
theorem loadBytes_overlay {s t : State} {id n pend : Nat} {ea : Word} {l : List Byte} (h : s.cur.wordBefore id ea n = false)
    (hr : s.readSpan ea n pend = .ok t l) (seen : Nat) : s.loadBytes ea n id pend s.cur.tid seen =
      .ok t (if t.cur.tid = s.cur.tid then overlay (t.cur.task.ops.take seen) ea.toNat l else l) := by
  simp [State.loadBytes, h, hr, State.readBy]

/-- An aperture span that no lock holds is read at the bank. -/
theorem readSpan_aperture {s : State} {ea : Word} {n : Nat} (hi : s.cur.inAperture ea = true) (hw : s.apertureWaits ea = false)
    (hl : s.lockedAgainst (s.paOf (s.cur.loftAddr ea)) n = false) (pend : Nat) : s.readSpan ea n pend =
      .ok (if s.cur.apertureBank ea < 14 then s.readSig (s.paOf (s.cur.loftAddr ea)) n else s) (s.bytes (s.cur.loftAddr ea) n) := by
  simp [State.readSpan, hi, hw, hl]

/-- A scalar load that nothing stops. -/
theorem loadS_clear {s : State} {d b : SReg} {o : MemOff} {n : Nat} (hq : s.Quiet (s.cur.keysS [d, b])) (hd : s.cur.namedS d = false)
    (hr : s.Reaches (s.cur.getS b + offsetOf o n) n n) (la : BitVec 4) (signed : Bool) : s.loadS la d b o n signed =
      s.load la (s.cur.destS d) (s.cur.getS b + offsetOf o n) n signed false (memLit o) := by
  unfold State.loadS
  exact issue_access hq (addrChecks_reaches hr) hd _

/-- `vld` that nothing stops. -/
theorem execVld_clear {s : State} {w : VReg} {b : SReg} {o : MemOff} (hq : s.Quiet [.v w.toNat, s.cur.keyS b])
    (hd : s.cur.namedV w = false) (hr : s.Reaches (s.cur.getS b + offsetOf o 128) 128 4) (la : BitVec 4) : execVld la w b o s =
      s.load la [.v w.toNat] (s.cur.getS b + offsetOf o 128) 128 false true (memLit o) := by
  unfold execVld
  exact issue_access hq (addrChecks_reaches hr) hd _

/-- `vld.tag` that nothing stops and that need not wait: the tag is compared, and the data are read. -/
theorem execVldTag_clear {s : State} {w : VReg} {b : SReg} {o : MemOff} (hq : s.Quiet [.v w.toNat, s.cur.keyS b])
    (hd : s.cur.namedV w = false) (hr : s.Reaches (s.cur.getS b + offsetOf o 128) 128 128)
    (hi : s.cur.inAperture (s.cur.getS b + offsetOf o 128) = true) (hb : s.cur.apertureBank (s.cur.getS b + offsetOf o 128) ≤ 13)
    (hw : s.tagWaits (s.cur.getS b + offsetOf o 128) = false) (la : BitVec 4) : execVldTag la w b o s =
      if s.tagAt (s.cur.getS b + offsetOf o 128) ≠ s.cur.xtag.truncate 16 then
        s.raise (addressTrap .schedule (s.cur.getS b + offsetOf o 128))
      else (s.tagSig (s.cur.getS b + offsetOf o 128)).load la [.v w.toNat] (s.cur.getS b + offsetOf o 128) 128 false true (memLit o) := by
  unfold execVldTag
  rw [issue_access hq (tagChecks_reaches hr hi hb) hd]
  simp only [hw, Bool.false_eq_true, if_false]
  rfl

section
variable (s : State) (pa k : Nat)

@[simp] theorem readSig_tid : (s.readSig pa k).cur.tid = s.cur.tid := rfl
@[simp] theorem readSig_ops : (s.readSig pa k).cur.task.ops = s.cur.task.ops := rfl
@[simp] theorem readSig_ids : (s.readSig pa k).ids = s.ids := rfl
@[simp] theorem readSig_inAperture (ea : Word) : (s.readSig pa k).cur.inAperture ea = s.cur.inAperture ea := rfl
@[simp] theorem readSig_apertureBank (ea : Word) : (s.readSig pa k).cur.apertureBank ea = s.cur.apertureBank ea := rfl
@[simp] theorem readSig_loftAddr (ea : Word) : (s.readSig pa k).cur.loftAddr ea = s.cur.loftAddr ea := rfl
@[simp] theorem readSig_wordBefore (id : Nat) (ea : Word) (n : Nat) :
    (s.readSig pa k).cur.wordBefore id ea n = s.cur.wordBefore id ea n := rfl
@[simp] theorem readSig_bytes (a n : Nat) : (s.readSig pa k).bytes a n = s.bytes a n := rfl
@[simp] theorem readSig_paOf (o : Nat) : (s.readSig pa k).paOf o = s.paOf o := rfl
@[simp] theorem readSig_lockedAgainst (a n : Nat) : (s.readSig pa k).lockedAgainst a n = s.lockedAgainst a n := rfl
@[simp] theorem readSig_apertureWaits (ea : Word) : (s.readSig pa k).apertureWaits ea = s.apertureWaits ea := rfl

end

/-- The data of an aperture granule that need not wait are read at its bank, whatever the read signature has taken before (R176). -/
theorem reads_readSig {s : State} {ea : Word} (hi : s.cur.inAperture ea = true) (hb : s.cur.apertureBank ea ≤ 13)
    (hw : s.tagWaits ea = false) (la : BitVec 4) (pa k : Nat) : (s.readSig pa k).reads la ea 128 =
      .ok ((s.readSig pa k).readSig (s.paOf (s.cur.loftAddr ea)) 128)
        (overlay (s.cur.task.ops.take s.cur.task.ops.length) ea.toNat (s.bytes (s.cur.loftAddr ea) 128)) := by
  simp only [State.tagWaits, Bool.or_eq_false_iff] at hw
  obtain ⟨⟨⟨hz, hl⟩, -⟩, hwb⟩ := hw
  have hr := readSpan_aperture (s := s.readSig pa k) (ea := ea) (n := 128) (by simpa using hi) (by simpa using hz) (by simpa using hl)
    (if la = 0 then 0 else s.ids)
  simpa [State.reads, Nat.lt_succ_of_le hb] using loadBytes_overlay (id := s.ids) (by simpa using hwb) hr s.cur.task.ops.length

/-! ### Stores (R177, R326, R333) -/

/-- Where the words of an operation find room, the task holds it. -/
theorem bufferOps_room {s : State} {ea : Word} {n : Nat} (h : (s.cur.wordsWith (vaWords ea n)).length ≤ Config.bufferWords)
    (ops : List TaskOp) (k : State → Out) : s.bufferOps ea n [] ops k =
      k (s.modCur fun u => { u with task := { u.task with ops := u.task.ops ++ ops, words := s.cur.wordsWith (vaWords ea n) } }) := by
  simp [State.bufferOps, h]

/-- Where they find none, a speculative task is discarded. -/
theorem bufferOps_full {s : State} {ea : Word} {n : Nat} (h : Config.bufferWords < (s.cur.wordsWith (vaWords ea n)).length)
    (hs : s.cur.task.nonspec = false) (ops : List TaskOp) (k : State → Out) : s.bufferOps ea n [] ops k = .next s.capacityEvent := by
  simp [State.bufferOps, hs, Nat.not_le.mpr h]

/-- The task holds `op` too, its words count as `words`, and the unit is past its C-slot instruction. -/
def State.afterStore (s : State) (op : TaskOp) (words : List Nat) (lone : Bool) : State :=
  s.afterC (fun u => { u with task := { u.task with ops := u.task.ops ++ [op], words } }) lone

/-- A store or reduction of `n` bytes at `ea` that nothing stops holds `op`, or takes a capacity event where the buffer is full. -/
def Holds (i : Instr) (s : State) (n : Nat) (ea : Word) (op : TaskOp) (lone : Bool) : Prop :=
  ((s.cur.wordsWith (vaWords ea n)).length ≤ Config.bufferWords →
    exec i s = .next (s.afterStore op (s.cur.wordsWith (vaWords ea n)) lone) ∧
    (s.afterStore op (s.cur.wordsWith (vaWords ea n)) lone).mem = s.mem) ∧
  (Config.bufferWords < (s.cur.wordsWith (vaWords ea n)).length → s.cur.task.nonspec = false → exec i s = .next s.capacityEvent)

theorem holds_of_bufferOps {i : Instr} {s : State} {n : Nat} {ea : Word} {op : TaskOp} {lone : Bool}
    (h : exec i s = s.bufferOps ea n [] [op] fun t => t.doneC lone) : Holds i s n ea op lone :=
  ⟨fun hw => ⟨h.trans (bufferOps_room hw _ _), rfl⟩, fun hw hs => h.trans (bufferOps_full hw hs _ _)⟩

/-- A scalar store that nothing stops. -/
theorem storeS_clear {s : State} {d b : SReg} {o : MemOff} {n : Nat} (hq : s.Quiet (s.cur.keysS [d, b]))
    (hr : s.Reaches (s.cur.getS b + offsetOf o n) n n) : s.storeS d b o n =
      s.bufferOps (s.cur.getS b + offsetOf o n) n []
        [.store (s.cur.getS b + offsetOf o n) ((List.range n).map fun j => BitVec.ofNat 8 ((s.cur.getS d).toNat / 256 ^ j))]
        fun t => t.doneC (memLit o) := by
  rw [← bytesOf_eq_map_range]
  unfold State.storeS
  exact issue_access hq (addrChecks_reaches hr) rfl _

/-- `vst` that nothing stops. -/
theorem execVst_clear {s : State} {w : VReg} {b : SReg} {o : MemOff} (hq : s.Quiet [.v w.toNat, s.cur.keyS b])
    (hr : s.Reaches (s.cur.getS b + offsetOf o 128) 128 4) : execVst w b o s =
      s.bufferOps (s.cur.getS b + offsetOf o 128) 128 []
        [.store (s.cur.getS b + offsetOf o 128) ((List.range 128).map fun j => BitVec.ofNat 8 ((s.cur.getV w).toNat / 256 ^ j))]
        fun t => t.doneC (memLit o) := by
  rw [← bytesOf_eq_map_range]
  unfold execVst
  exact issue_access hq (addrChecks_reaches hr) rfl _

/-- A no-return reduction that nothing stops. -/
theorem reduction_clear {s : State} {a : SReg} {y : RegLit} {ty : AType} (hq : s.Quiet (s.cur.keyS a :: s.cur.operandKeys y))
    (hr : s.Reaches (s.cur.getS a) (typeBytes ty) (typeBytes ty)) (op : AtomOp) : s.reduction op a y ty =
      s.bufferOps (s.cur.getS a) (typeBytes ty) [] [.reduce (s.cur.getS a) op ty (s.cur.operand y)] fun t => t.doneC (regLit y) := by
  unfold State.reduction
  exact issue_access hq (addrChecks_reaches hr) rfl _

end Sys2Proof.Machine
end

