-- ==== Sys2Proof/Proofs/ScopeLoadsAndStores.lean ====
section
/-! O13 and O15 settled. -/

open Sys2Proof Sys2Proof.Machine

/-- Settles O15: every instruction of the list is a `bufferOps` of one operation, which holds it or finds no room. -/
theorem storesAreHeldByTheTask : Obligations.StoresAreHeldByTheTask := by
  intro s d b a w o y ty keysY loneY yv tn size le i n align ea op ks lone hm hq hr
  have htn : tn = typeBytes ty := by cases ty <;> rfl
  have hkeys : keysY = s.cur.operandKeys y := by cases y <;> rfl
  have hlone : loneY = regLit y := by cases y <;> rfl
  refine holds_of_bufferOps ?_
  rcases List.mem_append.1 hm with hm | hm
  · rcases List.mem_append.1 hm with hm | hm
    · obtain ⟨⟨i, n⟩, hp, e⟩ := List.mem_map.1 hm
      simp only [Prod.mk.injEq] at e
      obtain ⟨rfl, rfl, rfl, rfl, rfl, rfl, rfl⟩ := e
      have hs : exec i s = s.storeS d b o n := by
        fin_cases hp <;> rfl
      exact hs.trans (storeS_clear hq hr)
    · cases List.mem_singleton.1 hm
      exact execVst_clear hq hr
  · obtain ⟨⟨i, op⟩, hp, e⟩ := List.mem_map.1 hm
    rw [htn, hkeys, hlone] at e
    simp only [Prod.mk.injEq] at e
    obtain ⟨rfl, rfl, rfl, rfl, rfl, rfl, rfl⟩ := e
    have hs : exec i s = s.reduction op a y ty := by
      fin_cases hp <;> rfl
    exact hs.trans (reduction_clear hq hr op)

/-- Settles O13: a load reads once, through `loadBytes`, and opens its window with what it read. -/
theorem loadsReadThroughTheTasksOwnStores : Obligations.LoadsReadThroughTheTasksOwnStores := by
  intro s la d b w o pend seen reads own
  refine ⟨?scalar, ?vector, ?span, ?aperture⟩
  case scalar =>
    intro i n signed hm ea hq hd hr value
    have hs : exec i s = s.loadS la d b o n signed ∧ n ≤ 8 := by
      fin_cases hm <;> exact ⟨rfl, by decide⟩
    obtain ⟨hs, hn⟩ := hs
    replace hs := hs.trans (loadS_clear hq hd hr la signed)
    refine ⟨fun t l h hl => ?_, fun t h => ⟨fun h0 => hs.trans (load_wait_now h h0 ..), fun h0 => hs.trans (load_wait_later h h0 ..)⟩⟩
    rw [hs, load_ok h, loadValue_scalar signed hl hn]
  case vector =>
    intro ea hq hd
    refine ⟨fun hr => ?_, fun hr hi hb hw hl => ⟨fun ht => ?_, fun ht => ?_⟩⟩
    · have hs : exec (.vld la w b o) s = _ := execVld_clear hq hd hr la
      exact ⟨fun t l h => hs.trans (load_ok h ..),
        fun t h => ⟨fun h0 => hs.trans (load_wait_now h h0 ..), fun h0 => hs.trans (load_wait_later h h0 ..)⟩⟩
    · have hs : exec (.vldTag la w b o) s = _ := execVldTag_clear hq hd hr hi hb hw la
      rw [hs, if_neg (not_not_intro ht)]
      exact load_ok (reads_readSig hi hb hw la _ _) ..
    · have hs : exec (.vldTag la w b o) s = _ := execVldTag_clear hq hd hr hi hb hw la
      rw [Raises, hs, if_pos ht]
      rfl
  case span =>
    exact fun ea n t l => ⟨fun h => loadBytes_wordBefore h _ _ _, fun h hr _ => loadBytes_overlay h hr _⟩
  case aperture =>
    exact fun ea n hi hw hl => readSpan_aperture hi hw hl _

end

