-- ==== Sys2Proof/Proofs/ExactRounding.lean ====
section
/-! Rounding over the rationals: what moving to a neighbour does, and what `roundInt` answers (R237, R239 to R241). -/

namespace Sys2Proof.Machine

/-! ### Finite values -/

/-- The rational number (−1)^neg × m × 2^e. -/
def finQ (neg : Bool) (m : Nat) (e : Int) : ℚ := (if neg then -1 else 1) * (m : ℚ) * (2 : ℚ) ^ e

theorem two_zpow_pos (e : Int) : (0 : ℚ) < 2 ^ e := zpow_pos two_pos e

theorem abs_finQ (neg : Bool) (m : Nat) (e : Int) : |finQ neg m e| = m * (2 : ℚ) ^ e := by
  cases neg <;> simp [finQ]

/-- Exponents move between a value and its scale. -/
theorem finQ_mul_zpow (neg : Bool) (m : Nat) (e k : Int) : finQ neg m e * (2 : ℚ) ^ k = finQ neg m (e + k) := by
  simp only [finQ, zpow_add₀ (two_ne_zero (α := ℚ)), mul_assoc]

@[simp] theorem finQ_zero (neg : Bool) (e : Int) : finQ neg 0 e = 0 := by simp [finQ]

/-- An integer in units of 2^u is the value. -/
theorem inUnits_mul_zpow (neg : Bool) (m : Nat) {e u : Int} (h : u ≤ e) : (inUnits neg m e u : ℚ) * (2 : ℚ) ^ u = finQ neg m e := by
  have hp : ((2 : ℚ) ^ (e - u).toNat) * 2 ^ u = 2 ^ e := by
    rw [← zpow_natCast, ← zpow_add₀ two_ne_zero]
    congr 1
    omega
  cases neg <;> simp [inUnits, finQ, mul_assoc, hp]

/-! ### Neighbours -/

/-- The value `z` delivered for `x` in a mode, at spacing `s`: less than one spacing away on the side of the mode, or at most half of it under
RNE, where `even` tells whether the encoding that a tie gives is even (R237). -/
def Near (rm : RM) (x z s : ℚ) (even : Bool) : Prop :=
  match rm with
  | .rne => 2 * |z - x| ≤ s ∧ (2 * |z - x| = s → even = true)
  | .rz => |z| ≤ |x| ∧ |z - x| < s
  | .ru => x ≤ z ∧ z - x < s
  | .rd => z ≤ x ∧ x - z < s

theorem near_refl (rm : RM) (x : ℚ) {s : ℚ} (hs : 0 < s) (even : Bool) : Near rm x x s even := by
  cases rm <;> simp [Near, hs, hs.le, hs.ne]

/-- Scaling keeps neighbours. -/
theorem near_mul {rm : RM} {x z k s : ℚ} {even : Bool} (h : Near rm x z s even) (hk : 0 < k) : Near rm (x * k) (z * k) (s * k) even := by
  have hd : |z * k - x * k| = |z - x| * k := by rw [← sub_mul, abs_mul, abs_of_pos hk]
  cases rm with
  | rne =>
    obtain ⟨h1, h2⟩ := h
    refine ⟨?_, fun e => h2 ?_⟩
    · rw [hd, ← mul_assoc]; exact mul_le_mul_of_nonneg_right h1 hk.le
    · rw [hd, ← mul_assoc] at e; exact mul_right_cancel₀ hk.ne' e
  | rz =>
    obtain ⟨h1, h2⟩ := h
    refine ⟨?_, ?_⟩
    · rw [abs_mul, abs_mul]; exact mul_le_mul_of_nonneg_right h1 (abs_nonneg k)
    · rw [hd]; exact mul_lt_mul_of_pos_right h2 hk
  | ru => exact ⟨mul_le_mul_of_nonneg_right h.1 hk.le, by rw [← sub_mul]; exact mul_lt_mul_of_pos_right h.2 hk⟩
  | rd => exact ⟨mul_le_mul_of_nonneg_right h.1 hk.le, by rw [← sub_mul]; exact mul_lt_mul_of_pos_right h.2 hk⟩

/-- A magnitude `r`, or its upper neighbour where `roundsUp` says so. -/
def stepped (rm : RM) (neg : Bool) (r rem unit : Nat) : Nat := if roundsUp rm neg r rem unit then r + 1 else r

/-- `roundsUp` in terms of the fraction `rem / unit` that is cut off. -/
theorem roundsUp_iff (rm : RM) (neg : Bool) (r : Nat) {rem unit : Nat} (h : rem < unit) : roundsUp rm neg r rem unit = true ↔
    match rm with
    | .rne => 1 < 2 * ((rem : ℚ) / unit) ∨ (2 * ((rem : ℚ) / unit) = 1 ∧ r % 2 = 1)
    | .rz => False
    | .ru => (rem : ℚ) / unit ≠ 0 ∧ neg = false
    | .rd => (rem : ℚ) / unit ≠ 0 ∧ neg = true := by
  have hu : (0 : ℚ) < unit := by exact_mod_cast Nat.zero_lt_of_lt h
  have h0 : (rem : ℚ) / unit ≠ 0 ↔ rem ≠ 0 := by simp [hu.ne']
  cases rm with
  | rne =>
    have h1 : 1 < 2 * ((rem : ℚ) / unit) ↔ unit < 2 * rem := by
      rw [← mul_div_assoc, lt_div_iff₀ hu, one_mul]; exact_mod_cast Iff.rfl
    have h2 : 2 * ((rem : ℚ) / unit) = 1 ↔ 2 * rem = unit := by
      rw [← mul_div_assoc, div_eq_iff hu.ne', one_mul]; exact_mod_cast Iff.rfl
    simp [roundsUp, h1, h2]
  | rz => simp [roundsUp]
  | ru => simp [roundsUp, h0]
  | rd => simp [roundsUp, h0]

/-- The sign of a value. -/
def sgnQ (neg : Bool) : ℚ := if neg then -1 else 1

theorem abs_sgnQ_mul (neg : Bool) (x : ℚ) : |sgnQ neg * x| = |x| := by cases neg <;> simp [sgnQ]

theorem finQ_eq (neg : Bool) (m : Nat) (e : Int) : finQ neg m e = sgnQ neg * (m * (2 : ℚ) ^ e) := mul_assoc _ _ _

/-- What `roundsUp` chooses is a neighbour of the value in the mode. -/
theorem near_stepped (rm : RM) (neg : Bool) (r : Nat) {rem unit : Nat} (h : rem < unit) :
    Near rm (sgnQ neg * (r + (rem : ℚ) / unit)) (sgnQ neg * stepped rm neg r rem unit) 1 (stepped rm neg r rem unit % 2 == 0) := by
  have hup := roundsUp_iff rm neg r h
  have hu : (0 : ℚ) < unit := by exact_mod_cast Nat.zero_lt_of_lt h
  have h0 : 0 ≤ (rem : ℚ) / unit := by positivity
  have h1 : (rem : ℚ) / unit < 1 := (div_lt_one hu).2 (by exact_mod_cast h)
  have hr : (0 : ℚ) ≤ r := Nat.cast_nonneg r
  unfold stepped
  generalize (rem : ℚ) / unit = φ at *
  by_cases hb : roundsUp rm neg r rem unit = true
  · have hd : |sgnQ neg * (r + 1) - sgnQ neg * (r + φ)| = 1 - φ := by
      rw [← mul_sub, abs_sgnQ_mul, abs_of_nonneg] <;> linarith
    have hc := hup.1 hb
    rw [if_pos hb, Nat.cast_add, Nat.cast_one]
    cases rm with
    | rne =>
      rw [Near, hd]
      rcases hc with hc | ⟨hc, hp⟩
      · exact ⟨by linarith, fun e => by linarith⟩
      · exact ⟨by linarith, fun _ => by simp; omega⟩
    | rz => exact hc.elim
    | ru =>
      obtain ⟨hφ, rfl⟩ := hc
      have := lt_of_le_of_ne h0 hφ.symm
      simp only [Near, sgnQ, Bool.false_eq_true, if_false]
      constructor <;> linarith
    | rd =>
      obtain ⟨hφ, rfl⟩ := hc
      have := lt_of_le_of_ne h0 hφ.symm
      simp only [Near, sgnQ, if_true]
      constructor <;> linarith
  · have hd : |sgnQ neg * r - sgnQ neg * (r + φ)| = φ := by
      rw [← mul_sub, abs_sgnQ_mul, abs_of_nonpos] <;> linarith
    have hc := mt hup.2 hb
    rw [if_neg hb]
    cases rm with
    | rne =>
      rw [Near, hd]
      obtain ⟨hlt, htie⟩ := not_or.1 hc
      refine ⟨not_lt.1 hlt, fun e => ?_⟩
      have : r % 2 ≠ 1 := fun hp => htie ⟨e, hp⟩
      simp; omega
    | rz =>
      rw [Near, hd, abs_sgnQ_mul, abs_sgnQ_mul, abs_of_nonneg hr, abs_of_nonneg (add_nonneg hr h0)]
      constructor <;> linarith
    | ru =>
      cases neg
      · have hφ : φ = 0 := by_contra fun hφ => hc ⟨hφ, rfl⟩
        simp [Near, hφ]
      · simp only [Near, sgnQ, if_true]
        constructor <;> linarith
    | rd =>
      cases neg
      · simp only [Near, sgnQ, Bool.false_eq_true, if_false]
        constructor <;> linarith
      · have hφ : φ = 0 := by_contra fun hφ => hc ⟨hφ, rfl⟩
        simp [Near, hφ]

/-- It differs from the value exactly where something was cut off. -/
theorem stepped_ne_iff (rm : RM) (neg : Bool) (r : Nat) {rem unit : Nat} (h : rem < unit) :
    sgnQ neg * stepped rm neg r rem unit ≠ sgnQ neg * (r + (rem : ℚ) / unit) ↔ rem ≠ 0 := by
  have hu : (0 : ℚ) < unit := by exact_mod_cast Nat.zero_lt_of_lt h
  have hs : sgnQ neg ≠ 0 := by cases neg <;> simp [sgnQ]
  rw [Ne, mul_right_inj' hs, not_iff_not]
  unfold stepped
  split
  · next hb =>
    have hφ : (rem : ℚ) / unit < 1 := (div_lt_one hu).2 (by exact_mod_cast h)
    have hr : rem ≠ 0 := by
      rintro rfl
      have := (roundsUp_iff rm neg r h).1 hb
      cases rm <;> norm_num at this
    simp only [Nat.cast_add, Nat.cast_one, add_right_inj, hr, iff_false]
    exact hφ.ne'
  · rw [left_eq_add, div_eq_zero_iff, or_iff_left hu.ne', Nat.cast_eq_zero]

/-- A finite value is its whole part and the fraction cut off, in units of 2^-e. -/
theorem div_add_mod_unit (m : Nat) {e : Int} (h : e < 0) :
    ((m / 2 ^ (-e).toNat : Nat) : ℚ) + ((m % 2 ^ (-e).toNat : Nat) : ℚ) / ((2 ^ (-e).toNat : Nat) : ℚ) = m * (2 : ℚ) ^ e := by
  have hz : (2 : ℚ) ^ e = (((2 ^ (-e).toNat : Nat) : ℚ))⁻¹ := by
    rw [Nat.cast_pow, ← zpow_natCast, ← zpow_neg]
    congr 1
    omega
  have hp : (((2 ^ (-e).toNat : Nat) : ℚ)) ≠ 0 := by positivity
  have hm : ((m / 2 ^ (-e).toNat * 2 ^ (-e).toNat + m % 2 ^ (-e).toNat : Nat) : ℚ) = m := by rw [Nat.div_add_mod']
  rw [hz, ← hm]
  push_cast
  field_simp

/-! ### Rounding to an integer -/

/-- The magnitude to which `roundInt` rounds. -/
def roundMag (rm : RM) (neg : Bool) (m : Nat) (e : Int) : Nat :=
  if 0 ≤ e then m * 2 ^ e.toNat else stepped rm neg (m / 2 ^ (-e).toNat) (m % 2 ^ (-e).toNat) (2 ^ (-e).toNat)

theorem roundInt_fst (rm : RM) (neg : Bool) (m : Nat) (e : Int) :
    (roundInt rm neg m e).1 = if neg then -(roundMag rm neg m e : Int) else roundMag rm neg m e := by
  unfold roundInt roundMag
  split
  · simp [inUnits]
  · rfl

theorem cast_roundInt (rm : RM) (neg : Bool) (m : Nat) (e : Int) :
    ((roundInt rm neg m e).1 : ℚ) = sgnQ neg * roundMag rm neg m e := by
  rw [roundInt_fst]
  cases neg <;> simp [sgnQ]

theorem roundInt_even (rm : RM) (neg : Bool) (m : Nat) (e : Int) :
    ((roundInt rm neg m e).1 % 2 == 0) = (roundMag rm neg m e % 2 == 0) := by
  rw [roundInt_fst, Bool.eq_iff_iff]
  cases neg <;> simp <;> omega

theorem roundInt_exact (rm : RM) (neg : Bool) (m : Nat) {e : Int} (h : 0 ≤ e) :
    ((roundInt rm neg m e).1 : ℚ) = finQ neg m e ∧ (roundInt rm neg m e).2 = false := by
  have hu := inUnits_mul_zpow neg m h
  rw [zpow_zero, mul_one] at hu
  simp [roundInt, h, hu]

/-- The integer is a neighbour of the value at spacing 1. -/
theorem near_roundInt (rm : RM) (neg : Bool) (m : Nat) (e : Int) :
    Near rm (finQ neg m e) (roundInt rm neg m e).1 1 ((roundInt rm neg m e).1 % 2 == 0) := by
  by_cases h : 0 ≤ e
  · rw [(roundInt_exact rm neg m h).1]
    exact near_refl rm _ one_pos _
  · rw [roundInt_even, cast_roundInt, finQ_eq, ← div_add_mod_unit m (not_le.1 h), roundMag, if_neg h]
    exact near_stepped rm neg _ (Nat.mod_lt _ (by positivity))

/-- It is inexact exactly where it differs from the value. -/
theorem roundInt_inexact (rm : RM) (neg : Bool) (m : Nat) (e : Int) :
    (roundInt rm neg m e).2 = decide (((roundInt rm neg m e).1 : ℚ) ≠ finQ neg m e) := by
  by_cases h : 0 ≤ e
  · obtain ⟨h1, h2⟩ := roundInt_exact rm neg m h
    rw [h1, h2]
    simp
  · have hs := stepped_ne_iff rm neg (m / 2 ^ (-e).toNat) (Nat.mod_lt m (by positivity : 0 < 2 ^ (-e).toNat))
    rw [cast_roundInt, finQ_eq, ← div_add_mod_unit m (not_le.1 h), roundMag, if_neg h]
    simp only [roundInt, if_neg h]
    exact decide_eq_decide.2 hs.symm

end Sys2Proof.Machine
end

