-- ==== Sys2Proof/Proofs/ExactValues.lean ====
section
/-! Conversions to integers, exact sums and products, and the comparisons, over the rationals (R240, R241, R257 to R260). -/

namespace Sys2Proof.Machine

/-! ### To an integer (R240, R241) -/

theorem clamp_eq {lo hi : Int} (h : lo ≤ hi) (x : Int) : clamp lo hi x = max lo (min hi x) := by
  unfold clamp
  split
  · omega
  · split <;> omega

theorem intMin_le_intMax (w : Nat) (signed : Bool) : intMin w signed ≤ intMax w signed := by
  have h1 : (0 : Int) < 2 ^ (w - 1) := by positivity
  have h2 : (0 : Int) < 2 ^ w := by positivity
  unfold intMin intMax
  split <;> omega

/-- What a finite value gives, by the integer `i` to which it is rounded. -/
theorem toIntFmt_fin (w : Nat) (signed : Bool) (rm : RM) (neg : Bool) (m : Nat) (e : Int) :
    let i := (roundInt rm neg m e).1
    let r := toIntFmt w signed rm (.fin neg m e)
    r.1 = lowBits w (max (intMin w signed) (min (intMax w signed) i)) ∧
    (intMin w signed ≤ i → i ≤ intMax w signed → r.2 = { nx := decide ((i : ℚ) ≠ finQ neg m e) }) ∧
    (i < intMin w signed ∨ intMax w signed < i → r.2 = { nv := true }) := by
  intro i r
  by_cases ho : i < intMin w signed ∨ intMax w signed < i
  · have hr : r = (lowBits w (clamp (intMin w signed) (intMax w signed) i), { nv := true }) := if_pos ho
    rw [hr, clamp_eq (intMin_le_intMax w signed)]
    exact ⟨rfl, fun _ _ => by omega, fun _ => rfl⟩
  · have hr : r = (lowBits w i, { nx := (roundInt rm neg m e).2 }) := if_neg ho
    rw [hr, roundInt_inexact]
    have hi : max (intMin w signed) (min (intMax w signed) i) = i := by omega
    rw [hi]
    exact ⟨rfl, fun _ _ => rfl, fun h => absurd h ho⟩

/-! ### Sums and products (R257, R259) -/

theorem two_zpow_ne_zero (e : Int) : (2 : ℚ) ^ e ≠ 0 := (two_zpow_pos e).ne'

theorem finQ_eq_zero_iff (neg : Bool) (m : Nat) (e : Int) : finQ neg m e = 0 ↔ m = 0 := by
  cases neg <;> simp [finQ, two_zpow_ne_zero]

/-- An integer's sign and magnitude give it back. -/
theorem finQ_natAbs (t : Int) (u : Int) : finQ (decide (t < 0)) t.natAbs u = t * (2 : ℚ) ^ u := by
  have h : sgnQ (decide (t < 0)) * (t.natAbs : ℚ) = t := by
    by_cases ht : t < 0
    · have : (t.natAbs : ℚ) = ((-t : Int) : ℚ) := by rw [← Int.cast_natCast]; congr 1; omega
      simp [ht, sgnQ, this]
    · have : (t.natAbs : ℚ) = (t : ℚ) := by rw [← Int.cast_natCast]; congr 1; omega
      simp [ht, sgnQ, this]
  rw [finQ_eq, ← mul_assoc, h]

/-- A sum in common units. -/
theorem inUnits_add (na : Bool) (ma : Nat) (ea : Int) (nb : Bool) (mb : Nat) (eb : Int) :
    ((inUnits na ma ea (min ea eb) + inUnits nb mb eb (min ea eb) : Int) : ℚ) * (2 : ℚ) ^ min ea eb = finQ na ma ea + finQ nb mb eb := by
  rw [Int.cast_add, add_mul, inUnits_mul_zpow na ma (min_le_left _ _), inUnits_mul_zpow nb mb (min_le_right _ _)]

/-- The sum of two finite values is exact, and a zero of opposite signs is −0 under RD alone. -/
theorem sumFin_exact (rm : RM) (na : Bool) (ma : Nat) (ea : Int) (nb : Bool) (mb : Nat) (eb : Int) :
    ∃ o k j, sumFin rm na ma ea nb mb eb = .fin o k j ∧ finQ o k j = finQ na ma ea + finQ nb mb eb ∧
      (finQ na ma ea + finQ nb mb eb = 0 → na ≠ nb → (o = true ↔ rm = .rd)) := by
  have hs := inUnits_add na ma ea nb mb eb
  simp only [sumFin]
  generalize inUnits na ma ea (min ea eb) + inUnits nb mb eb (min ea eb) = t at *
  by_cases ht : t = 0
  · refine ⟨_, 0, 0, if_pos ht, ?_, fun _ hn => ?_⟩
    · rw [finQ_zero, ← hs, ht, Int.cast_zero, zero_mul]
    · rw [if_neg hn, beq_iff_eq]
  · refine ⟨_, _, _, if_neg ht, ?_, fun h0 => ?_⟩
    · rw [finQ_natAbs, hs]
    · rw [← hs, mul_eq_zero, or_iff_left (two_zpow_ne_zero _), Int.cast_eq_zero] at h0
      exact absurd h0 ht

theorem finQ_mul (na nb : Bool) (ma mb : Nat) (ea eb : Int) :
    finQ (na != nb) (ma * mb) (ea + eb) = finQ na ma ea * finQ nb mb eb := by
  have hs : sgnQ (na != nb) = sgnQ na * sgnQ nb := by cases na <;> cases nb <;> simp [sgnQ]
  rw [finQ_eq, finQ_eq, finQ_eq, hs, zpow_add₀ two_ne_zero, Nat.cast_mul]
  ring

theorem addExact_fin (rm : RM) (na : Bool) (ma : Nat) (ea : Int) (nb : Bool) (mb : Nat) (eb : Int) :
    addExact rm (.fin na ma ea) (.fin nb mb eb) = { x := sumFin rm na ma ea nb mb eb } := rfl

theorem fmaExact_fin (rm : RM) (na : Bool) (ma : Nat) (ea : Int) (nb : Bool) (mb : Nat) (eb : Int) (nc : Bool) (mc : Nat) (ec : Int) :
    fmaExact rm (.fin na ma ea) (.fin nb mb eb) (.fin nc mc ec) = { x := sumFin rm (na != nb) (ma * mb) (ea + eb) nc mc ec } := rfl

/-! ### The comparisons (R260) -/

section
variable (na : Bool) (ma : Nat) (ea : Int) (nb : Bool) (mb : Nat) (eb : Int)

/-- In common units the integers have the order of the values. -/
theorem inUnits_lt_iff : inUnits na ma ea (min ea eb) < inUnits nb mb eb (min ea eb) ↔ finQ na ma ea < finQ nb mb eb := by
  rw [← inUnits_mul_zpow na ma (min_le_left ea eb), ← inUnits_mul_zpow nb mb (min_le_right ea eb),
    mul_lt_mul_iff_left₀ (two_zpow_pos _), Int.cast_lt]

theorem numLess_fin : numLess (.fin na ma ea) (.fin nb mb eb) = true ↔ finQ na ma ea < finQ nb mb eb := by
  have hlt := inUnits_lt_iff na ma ea nb mb eb
  have hzero : ma = 0 → mb = 0 → ¬ finQ na ma ea < finQ nb mb eb := by rintro rfl rfl; simp
  simp only [numLess, orderLess, Num.isZero, Bool.and_eq_true, Bool.not_eq_true', Bool.and_eq_false_iff, beq_eq_false_iff_ne]
  split
  · next he =>
    have hq : finQ na ma ea = finQ nb mb eb := by
      rw [← inUnits_mul_zpow na ma (min_le_left ea eb), ← inUnits_mul_zpow nb mb (min_le_right ea eb), he]
    rw [hq, lt_self_iff_false, iff_false]
    rintro ⟨hm, hz⟩
    simp only [Bool.and_eq_true, beq_iff_eq] at hm
    have hb : mb = 0 := by rw [← finQ_eq_zero_iff nb mb eb, ← hq, finQ_eq_zero_iff]; exact hm.1.1
    exact hz.elim (absurd hm.1.1) (absurd hb)
  · rw [decide_eq_true_iff, hlt, and_iff_left_iff_imp]
    intro h
    by_contra hz
    simp only [not_or, not_not] at hz
    exact hzero hz.1 hz.2 h

theorem numEq_fin : numEq (.fin na ma ea) (.fin nb mb eb) = true ↔ finQ na ma ea = finQ nb mb eb := by
  simp only [numEq, Num.isNan, Bool.not_false, Bool.true_and, Bool.and_eq_true, Bool.not_eq_true', ← Bool.not_eq_true, numLess_fin,
    not_lt]
  exact ⟨fun h => le_antisymm h.2 h.1, fun h => ⟨h.ge, h.le⟩⟩

end

end Sys2Proof.Machine
end

