-- ==== Sys2Proof/Proofs/FloatGrid.lean ====
section
/-! The floating-point formats over the rationals: what an encoding reads as, on which grid a value is rounded, and where a format overflows
(R234, R235, R237, R238). -/

namespace Sys2Proof.Machine

/-! ### Encodings of finite values (R234, R235) -/

/-- The exponent of the subnormal spacing. -/
def Fp.low (f : Fp) : Int := 1 - (f.bias : Int) - f.p

/-- The mantissa with its hidden bit, and its exponent, of an encoding without sign. -/
def Fp.mantissa (f : Fp) (x : Nat) : Nat := if x / 2 ^ f.p = 0 then x else 2 ^ f.p + x % 2 ^ f.p
def Fp.exponent (f : Fp) (x : Nat) : Int := if x / 2 ^ f.p = 0 then f.low else f.low + (x / 2 ^ f.p : Nat) - 1

/-- What the nine formats have in common: a bit of mantissa, and more than one exponent of normal values. -/
def Fp.Wide (f : Fp) : Prop := 1 ≤ f.p ∧ 2 ≤ f.e

theorem fpOf_wide {g : Fmt} {f : Fp} (h : fpOf g = some f) : f.Wide := by
  cases g <;> cases h <;> exact ⟨by decide, by decide⟩

section
variable {f : Fp} (hf : f.Wide)

theorem maxEnc_lt (f : Fp) : f.maxEnc < 2 ^ (f.e + f.p) := by
  have h : (2 ^ f.e - 1) * 2 ^ f.p ≤ 2 ^ (f.e + f.p) := by
    rw [pow_add]; exact Nat.mul_le_mul_right _ (Nat.sub_le _ _)
  have h0 : 0 < 2 ^ (f.e + f.p) := by positivity
  unfold Fp.maxEnc
  split <;> omega

include hf in
theorem four_le_two_pow_e : 4 ≤ 2 ^ f.e := calc
  4 = 2 ^ 2 := rfl
  _ ≤ 2 ^ f.e := Nat.pow_le_pow_right (by decide) hf.2

include hf in
theorem two_le_two_pow_p : 2 ≤ 2 ^ f.p := calc
  2 = 2 ^ 1 := rfl
  _ ≤ 2 ^ f.p := Nat.pow_le_pow_right (by decide) hf.1

include hf in
/-- The largest finite value is normal. -/
theorem two_pow_le_maxEnc : 2 ^ f.p ≤ f.maxEnc := by
  have he := four_le_two_pow_e hf
  have hp := two_le_two_pow_p hf
  have h1 : 3 * 2 ^ f.p ≤ (2 ^ f.e - 1) * 2 ^ f.p := Nat.mul_le_mul_right _ (by omega)
  have h2 : 4 * 2 ^ f.p ≤ 2 ^ (f.e + f.p) := by rw [pow_add]; exact Nat.mul_le_mul_right _ he
  unfold Fp.maxEnc
  split <;> omega

/-- The fields of an encoding with its sign. -/
theorem signBit_fields (neg : Bool) {x : Nat} (h : x < 2 ^ (f.e + f.p)) :
    (f.signBit neg + x) % 2 ^ f.p = x % 2 ^ f.p ∧ (f.signBit neg + x) / 2 ^ f.p % 2 ^ f.e = x / 2 ^ f.p ∧
    (f.signBit neg + x) / 2 ^ (f.e + f.p) % 2 = neg.toNat ∧ (f.signBit neg + x) % 2 ^ (f.e + f.p) = x := by
  have h0 : x / 2 ^ f.p < 2 ^ f.e := Nat.div_lt_of_lt_mul (by rwa [mul_comm, ← pow_add])
  cases neg
  · simp [Fp.signBit, Nat.mod_eq_of_lt h, Nat.mod_eq_of_lt h0, Nat.div_eq_of_lt h]
  · have hs : f.signBit true = 2 ^ f.p * 2 ^ f.e := by rw [Fp.signBit, if_pos rfl, pow_add, mul_comm]
    refine ⟨?_, ?_, ?_, ?_⟩
    · rw [hs, Nat.mul_add_mod]
    · rw [hs, Nat.mul_add_div (by positivity), Nat.add_mod_left, Nat.mod_eq_of_lt h0]
    · simp [Fp.signBit, Nat.add_div_left, Nat.div_eq_of_lt h]
    · simp [Fp.signBit, Nat.mod_eq_of_lt h]

include hf in
/-- Below the encoding of the largest finite value every encoding reads as a finite value. -/
theorem read_signBit (neg : Bool) {x : Nat} (h : x ≤ f.maxEnc) :
    f.read (f.signBit neg + x) = .fin neg (f.mantissa x) (f.exponent x) := by
  obtain ⟨h1, h2, h3, h4⟩ := signBit_fields neg (lt_of_le_of_lt h (maxEnc_lt f))
  have hn : ((f.signBit neg + x) / 2 ^ (f.e + f.p) % 2 == 1) = neg := by rw [h3]; cases neg <;> rfl
  have hv : (if x / 2 ^ f.p = 0 then Num.fin neg (x % 2 ^ f.p) f.low
      else Num.fin neg (2 ^ f.p + x % 2 ^ f.p) (f.low + (x / 2 ^ f.p : Nat) - 1)) = .fin neg (f.mantissa x) (f.exponent x) := by
    unfold Fp.mantissa Fp.exponent
    split
    · next h0 => rw [Nat.mod_eq_of_lt ((Nat.div_eq_zero_iff_lt (by positivity)).1 h0)]
    · rfl
  have he := four_le_two_pow_e hf
  have h0 : 0 < 2 ^ (f.e + f.p) := by positivity
  unfold Fp.read
  simp only [h1, h2, hn, h4]
  unfold Fp.maxEnc at h
  split at h
  · have hx : x / 2 ^ f.p < 2 ^ f.e - 1 := by
      rw [Nat.div_lt_iff_lt_mul (by positivity)]
      have : 0 < (2 ^ f.e - 1) * 2 ^ f.p := Nat.mul_pos (by omega) (by positivity)
      omega
    simp only [hx.ne, if_false]
    exact hv
  · have hx : x ≠ 2 ^ (f.e + f.p) - 1 := by
      have : 2 ≤ 2 ^ (f.e + f.p) := (two_le_two_pow_p hf).trans (Nat.pow_le_pow_right (by decide) (by omega))
      omega
    simp only [hx, if_false]
    exact hv
  · exact hv

/-- The encoding `j` binades above the subnormal one with mantissa `r`, which may be that of the next binade, is `r` in the units of its
binade. -/
theorem finQ_encoding (f : Fp) (neg : Bool) {j r : Nat} (hr : r ≤ 2 ^ (f.p + 1)) (hj : j = 0 ∨ 2 ^ f.p ≤ r) :
    finQ neg (f.mantissa (j * 2 ^ f.p + r)) (f.exponent (j * 2 ^ f.p + r)) = finQ neg r (f.low + j) := by
  have hp : 0 < 2 ^ f.p := by positivity
  have hd : (j * 2 ^ f.p + r) / 2 ^ f.p = j + r / 2 ^ f.p := by rw [mul_comm, Nat.mul_add_div hp]
  have hm : (j * 2 ^ f.p + r) % 2 ^ f.p = r % 2 ^ f.p := Nat.mul_add_mod_self_right ..
  rw [pow_succ] at hr
  unfold Fp.mantissa Fp.exponent
  rw [hd, hm]
  rcases lt_or_ge r (2 ^ f.p) with h1 | h1
  · obtain rfl : j = 0 := hj.resolve_right (not_le.2 h1)
    simp [Nat.div_eq_of_lt h1]
  · have hq : j + r / 2 ^ f.p ≠ 0 := (Nat.add_pos_right j (Nat.div_pos h1 hp)).ne'
    rw [if_neg hq, if_neg hq]
    rcases lt_or_ge r (2 ^ f.p * 2) with h2 | h2
    · have h3 : r / 2 ^ f.p = 1 := Nat.div_eq_of_lt_le (by omega) (by omega)
      have h4 : 2 ^ f.p + r % 2 ^ f.p = r := by
        have := Nat.div_add_mod r (2 ^ f.p)
        rw [h3] at this
        omega
      rw [h3, h4]
      congr 1
      push_cast
      ring
    · obtain rfl : r = 2 ^ f.p * 2 := le_antisymm hr h2
      have h3 : 2 ^ f.p * 2 / 2 ^ f.p = 2 := Nat.mul_div_cancel_left 2 hp
      rw [h3, Nat.mul_mod_right, add_zero, finQ_eq, finQ_eq]
      have h4 : f.low + ((j + 2 : Nat) : Int) - 1 = f.low + j + 1 := by push_cast; ring
      rw [h4, zpow_add_one₀ two_ne_zero, Nat.cast_mul]
      push_cast
      ring

end

/-! ### The grid of a rounding (R237) -/

/-- A nonzero magnitude lies between two powers of two. -/
theorem bitLength_bounds {m : Nat} (hm : m ≠ 0) (e : Int) :
    (2 : ℚ) ^ (e + bitLength m - 1) ≤ m * (2 : ℚ) ^ e ∧ m * (2 : ℚ) ^ e < (2 : ℚ) ^ (e + bitLength m - 1 + 1) := by
  have hl : (bitLength m : Int) = Nat.log2 m + 1 := by simp [bitLength, hm]
  have h1 : ((2 ^ Nat.log2 m : Nat) : ℚ) ≤ m := by exact_mod_cast Nat.log2_self_le hm
  have h2 : (m : ℚ) < ((2 ^ (Nat.log2 m + 1) : Nat) : ℚ) := by exact_mod_cast Nat.lt_log2_self
  have e1 : e + bitLength m - 1 = (Nat.log2 m : Int) + e := by omega
  have e2 : e + bitLength m - 1 + 1 = ((Nat.log2 m + 1 : Nat) : Int) + e := by push_cast; omega
  rw [e2, e1, zpow_add₀ two_ne_zero, zpow_add₀ two_ne_zero, zpow_natCast, zpow_natCast]
  have hz := two_zpow_pos e
  push_cast at h1 h2
  exact ⟨mul_le_mul_of_nonneg_right h1 hz.le, mul_lt_mul_of_pos_right h2 hz⟩

/-- The power of two below a magnitude is unique. -/
theorem binade_unique {a : ℚ} {k l : Int} (hk : (2 : ℚ) ^ k ≤ a) (hk' : a < (2 : ℚ) ^ (k + 1)) (hl : (2 : ℚ) ^ l ≤ a)
    (hl' : a < (2 : ℚ) ^ (l + 1)) : k = l := by
  have h1 := (zpow_lt_zpow_iff_right₀ (one_lt_two (α := ℚ))).1 (hk.trans_lt hl')
  have h2 := (zpow_lt_zpow_iff_right₀ (one_lt_two (α := ℚ))).1 (hl.trans_lt hk')
  omega

/-- The exponent of the spacing at which a format delivers m × 2^e. -/
def Fp.grid (f : Fp) (m : Nat) (e : Int) : Int := max (e + bitLength m - 1 - f.p) f.low

/-- Binades between the grid and the subnormal spacing. -/
def Fp.binade (f : Fp) (m : Nat) (e : Int) : Nat := (f.grid m e - f.low).toNat

theorem low_add_binade (f : Fp) (m : Nat) (e : Int) : f.low + f.binade m e = f.grid m e := by
  have : f.low ≤ f.grid m e := le_max_right _ _
  unfold Fp.binade
  omega

/-- The encoding, without sign, to which a format rounds. -/
def Fp.roundEnc (f : Fp) (rm : RM) (neg : Bool) (m : Nat) (e : Int) : Nat :=
  f.binade m e * 2 ^ f.p + roundMag rm neg m (e - f.grid m e)

theorem roundsUp_exact (rm : RM) (neg : Bool) (r : Nat) {unit : Nat} (h : 0 < unit) : roundsUp rm neg r 0 unit = false := by
  cases rm <;> simp [roundsUp, h.ne]

/-- The rounding of a format is a rounding to an integer on its grid. -/
theorem round_eq (f : Fp) (rm : RM) (sat neg : Bool) {m : Nat} (hm : m ≠ 0) (e : Int) : f.round rm sat neg m e =
    if f.maxEnc < f.roundEnc rm neg m e then (f.overflow rm sat neg, { of := true, nx := true })
    else (f.signBit neg + f.roundEnc rm neg m e,
      { nx := (roundInt rm neg m (e - f.grid m e)).2,
        uf := (roundInt rm neg m (e - f.grid m e)).2 && decide (f.roundEnc rm neg m e < 2 ^ f.p) }) := by
  have hq : max (e + bitLength m - 1 - f.p) (1 - (f.bias : Int) - f.p) = f.grid m e := rfl
  have hj : (f.grid m e - (1 - (f.bias : Int) - f.p)).toNat = f.binade m e := rfl
  unfold Fp.round Fp.roundEnc
  simp only [if_neg hm, hq, hj]
  by_cases h : f.grid m e - e ≤ 0
  · have h' : 0 ≤ e - f.grid m e := by omega
    simp only [h, if_true, roundsUp_exact rm neg _ (by positivity : 0 < 2 ^ (f.grid m e - e).toNat), neg_sub, Bool.false_eq_true,
      if_false, roundMag, h', roundInt, ne_eq, not_true, decide_false]
  · have h' : ¬0 ≤ e - f.grid m e := by omega
    simp only [h, if_false, roundMag, stepped, h', roundInt, neg_sub]

end Sys2Proof.Machine
end

