-- ==== Sys2Proof/Proofs/FloatDelivery.lean ====
section
/-! What a floating-point format delivers: the neighbour of the value on its grid, or the overflow result where the value is past the top
(R235 to R240). -/

namespace Sys2Proof.Machine

/-! ### Magnitudes and their integers -/

/-- The modes that round a magnitude of that sign away from zero, RNE among them. -/
abbrev Outward (rm : RM) (neg : Bool) : Prop := rm = .rne ∨ (rm = .ru ∧ neg = false) ∨ (rm = .rd ∧ neg = true)

/-- A magnitude `a` is past the top, the mantissa `mm` in units of `u`. -/
abbrev Past (rm : RM) (neg : Bool) (a u : ℚ) (mm : Nat) : Prop :=
  if rm = .rne then mm * u + u / 2 < a ∨ (mm * u + u / 2 = a ∧ mm % 2 = 1) else if Outward rm neg then mm * u < a else mm * u + u ≤ a

section
variable {rm : RM} {neg : Bool} (a u : ℚ) (mm : Nat)

theorem past_rne : Past .rne neg a u mm ↔ mm * u + u / 2 < a ∨ (mm * u + u / 2 = a ∧ mm % 2 = 1) := by rw [Past, if_pos rfl]
theorem past_outward (hr : rm ≠ .rne) (h : Outward rm neg) : Past rm neg a u mm ↔ mm * u < a := by rw [Past, if_neg hr, if_pos h]
theorem past_inward (h : ¬Outward rm neg) : Past rm neg a u mm ↔ mm * u + u ≤ a := by
  rw [Past, if_neg (fun hr => h (Or.inl hr)), if_neg h]

end

theorem past_of_le {a u : ℚ} {mm : Nat} (hu : 0 < u) (h : mm * u + u ≤ a) (rm : RM) (neg : Bool) : Past rm neg a u mm := by
  unfold Past
  split
  · exact Or.inl (by linarith)
  · split <;> linarith

theorem not_past_of_le {a u : ℚ} {mm : Nat} (hu : 0 < u) (h : a ≤ mm * u) (rm : RM) (neg : Bool) : ¬Past rm neg a u mm := by
  unfold Past
  split
  · rintro (h' | ⟨h', -⟩) <;> linarith
  · split <;> linarith

theorem past_mul {a u k : ℚ} {mm : Nat} (hk : 0 < k) (rm : RM) (neg : Bool) : Past rm neg (a * k) (u * k) mm ↔ Past rm neg a u mm := by
  have h1 : mm * (u * k) + u * k / 2 = (mm * u + u / 2) * k := by ring
  have h2 : mm * (u * k) + u * k = (mm * u + u) * k := by ring
  have h3 : mm * (u * k) = mm * u * k := by ring
  unfold Past
  rw [h1, h2, h3, mul_lt_mul_iff_left₀ hk, mul_lt_mul_iff_left₀ hk, mul_le_mul_iff_left₀ hk, mul_left_inj' hk.ne']

/-- A neighbour is less than a spacing away. -/
theorem abs_sub_lt_of_near {rm : RM} {x z s : ℚ} {even : Bool} (h : Near rm x z s even) (hs : 0 < s) : |z - x| < s := by
  cases rm with
  | rne => linarith [h.1, abs_nonneg (z - x)]
  | rz => exact h.2
  | ru => rw [abs_of_nonneg (sub_nonneg.2 h.1)]; exact h.2
  | rd => rw [abs_sub_comm, abs_of_nonneg (sub_nonneg.2 h.1)]; exact h.2

section
variable {rm : RM} {neg : Bool} {a : ℚ} {z : Nat} {even : Bool} (h : Near rm (sgnQ neg * a) (sgnQ neg * z) 1 even)

include h in
theorem near_magnitude : |(z : ℚ) - a| < 1 := by
  have := abs_sub_lt_of_near h one_pos
  rwa [← mul_sub, abs_sgnQ_mul] at this

include h in
/-- Between integers a magnitude stays between them when it is rounded. -/
theorem le_of_near {n : Nat} (hn : (n : ℚ) ≤ a) : n ≤ z := by
  have := (abs_lt.1 (near_magnitude h)).1
  have : (n : ℚ) < z + 1 := by linarith
  exact Nat.lt_succ_iff.1 (by exact_mod_cast this)

include h in
theorem near_le {n : Nat} (hn : a ≤ n) : z ≤ n := by
  have := (abs_lt.1 (near_magnitude h)).2
  have : (z : ℚ) < n + 1 := by linarith
  exact Nat.lt_succ_iff.1 (by exact_mod_cast this)

end

/-- A magnitude rounds past an integer exactly where it is past it in the sense of R238. -/
theorem lt_stepped_iff {rm : RM} {neg : Bool} {a : ℚ} {z : Nat} (h : Near rm (sgnQ neg * a) (sgnQ neg * z) 1 (z % 2 == 0))
    (ha : 0 ≤ a) (mm : Nat) : mm < z ↔ Past rm neg a 1 mm := by
  have hz : (0 : ℚ) ≤ z := Nat.cast_nonneg z
  have hlt : mm < z ↔ (mm : ℚ) + 1 ≤ z := by rw [← Nat.cast_add_one, Nat.cast_le]; rfl
  have hgt : ¬mm < z ↔ (z : ℚ) ≤ mm := by rw [not_lt, Nat.cast_le]
  have hout (h1 : a ≤ z) (h2 : (z : ℚ) - a < 1) : mm < z ↔ (mm : ℚ) < a :=
    ⟨fun hm => by linarith [hlt.1 hm], fun hm => by exact_mod_cast hm.trans_le h1⟩
  have hin (h1 : (z : ℚ) ≤ a) (h2 : a - z < 1) : mm < z ↔ (mm : ℚ) + 1 ≤ a :=
    ⟨fun hm => (hlt.1 hm).trans h1, fun hm => by by_contra hc; linarith [hgt.1 hc]⟩
  cases rm with
  | rne =>
    obtain ⟨h1, h2⟩ := h
    rw [← mul_sub, abs_sgnQ_mul] at h1 h2
    have h3 := abs_le.1 (show |(z : ℚ) - a| ≤ 1 / 2 by linarith)
    rw [past_rne, mul_one]
    constructor
    · intro hm
      rcases lt_or_eq_of_le (show (mm : ℚ) + 1 / 2 ≤ a by linarith [hlt.1 hm]) with hlt' | heq
      · exact Or.inl hlt'
      · have hle : (z : ℚ) ≤ (mm + 1 : Nat) := by push_cast; linarith
        have hz : z = mm + 1 := le_antisymm (Nat.cast_le.1 hle) hm
        have := h2 (by rw [hz, ← heq]; push_cast; norm_num)
        refine Or.inr ⟨heq, ?_⟩
        simp only [hz, beq_iff_eq] at this
        omega
    · rintro (hlt' | ⟨heq, hodd⟩)
      · exact_mod_cast (show (mm : ℚ) < z by linarith)
      · refine lt_of_le_of_ne (by exact_mod_cast (show (mm : ℚ) ≤ z by linarith)) ?_
        rintro rfl
        have := h2 (by rw [← heq]; norm_num)
        simp [hodd] at this
  | rz =>
    obtain ⟨h1, h2⟩ := h
    rw [abs_sgnQ_mul, abs_sgnQ_mul, abs_of_nonneg ha, abs_of_nonneg hz] at h1
    rw [← mul_sub, abs_sgnQ_mul, abs_sub_comm, abs_of_nonneg (sub_nonneg.2 h1)] at h2
    rw [past_inward _ _ _ (by simp [Outward]), mul_one]
    exact hin h1 h2
  | ru =>
    cases neg
    · simp only [Near, sgnQ, Bool.false_eq_true, if_false, one_mul] at h
      rw [past_outward _ _ _ (by decide) (by decide), mul_one]
      exact hout h.1 h.2
    · simp only [Near, sgnQ, if_true] at h
      rw [past_inward _ _ _ (by decide), mul_one]
      exact hin (by linarith) (by linarith)
  | rd =>
    cases neg
    · simp only [Near, sgnQ, Bool.false_eq_true, if_false, one_mul] at h
      rw [past_inward _ _ _ (by decide), mul_one]
      exact hin h.1 h.2
    · simp only [Near, sgnQ, if_true] at h
      rw [past_outward _ _ _ (by decide) (by decide), mul_one]
      exact hout (by linarith) (by linarith)

/-! ### The magnitude on the grid of a format -/

theorem near_roundMag (rm : RM) (neg : Bool) (m : Nat) (e : Int) :
    Near rm (sgnQ neg * (m * (2 : ℚ) ^ e)) (sgnQ neg * roundMag rm neg m e) 1 (roundMag rm neg m e % 2 == 0) := by
  have h := near_roundInt rm neg m e
  rwa [cast_roundInt, roundInt_even, finQ_eq] at h

section
variable (f : Fp) {m : Nat} (hm : m ≠ 0) (e : Int)

include hm in
theorem scaled_lt : m * (2 : ℚ) ^ (e - f.grid m e) < ((2 ^ (f.p + 1) : Nat) : ℚ) := by
  have h := (bitLength_bounds hm (e - f.grid m e)).2
  have hg : e + bitLength m - 1 - f.p ≤ f.grid m e := le_max_left _ _
  refine h.trans_le ?_
  rw [Nat.cast_pow, ← zpow_natCast]
  exact zpow_le_zpow_right₀ one_le_two (by push_cast; omega)

include hm in
theorem le_scaled (hj : f.binade m e ≠ 0) : ((2 ^ f.p : Nat) : ℚ) ≤ m * (2 : ℚ) ^ (e - f.grid m e) := by
  have hg : f.grid m e = e + bitLength m - 1 - f.p := by
    have h : f.grid m e = max (e + bitLength m - 1 - f.p) f.low := rfl
    unfold Fp.binade at hj
    omega
  refine le_trans (le_of_eq ?_) (bitLength_bounds hm (e - f.grid m e)).1
  rw [Nat.cast_pow, ← zpow_natCast]
  congr 1
  omega

variable (rm : RM) (neg : Bool)

include hm in
theorem roundMag_le : roundMag rm neg m (e - f.grid m e) ≤ 2 ^ (f.p + 1) :=
  near_le (near_roundMag rm neg m _) (scaled_lt f hm e).le

include hm in
theorem le_roundMag : f.binade m e = 0 ∨ 2 ^ f.p ≤ roundMag rm neg m (e - f.grid m e) :=
  (eq_or_ne (f.binade m e) 0).imp_right fun hj => le_of_near (near_roundMag rm neg m _) (le_scaled f hm e hj)

/-- The magnitude itself, from the one in units of its grid. -/
theorem scaled_mul : m * (2 : ℚ) ^ (e - f.grid m e) * (2 : ℚ) ^ f.grid m e = m * (2 : ℚ) ^ e := by
  rw [mul_assoc, ← zpow_add₀ two_ne_zero, sub_add_cancel]

end

/-! ### The top of a format -/

/-- The largest finite value in the units of its binade. -/
theorem maxEnc_eq {f : Fp} (hf : f.Wide) : ∃ j : Nat, f.maxEnc = j * 2 ^ f.p + f.mantissa f.maxEnc ∧ f.exponent f.maxEnc = f.low + j ∧
    2 ^ f.p ≤ f.mantissa f.maxEnc ∧ f.mantissa f.maxEnc < 2 ^ (f.p + 1) := by
  have hd : 0 < f.maxEnc / 2 ^ f.p := Nat.div_pos (two_pow_le_maxEnc hf) (by positivity)
  have hmod : f.maxEnc % 2 ^ f.p < 2 ^ f.p := Nat.mod_lt _ (by positivity)
  have hs := Nat.div_add_mod' f.maxEnc (2 ^ f.p)
  have hm : f.mantissa f.maxEnc = 2 ^ f.p + f.maxEnc % 2 ^ f.p := if_neg hd.ne'
  have he : f.exponent f.maxEnc = f.low + (f.maxEnc / 2 ^ f.p : Nat) - 1 := if_neg hd.ne'
  refine ⟨f.maxEnc / 2 ^ f.p - 1, ?_, ?_, ?_, ?_⟩
  · obtain ⟨k, hk⟩ : ∃ k, f.maxEnc / 2 ^ f.p = k + 1 := ⟨_, (Nat.succ_pred_eq_of_pos hd).symm⟩
    rw [hm, hk, Nat.add_sub_cancel]
    rw [hk, Nat.add_mul, Nat.one_mul] at hs
    omega
  · rw [he]; omega
  · omega
  · rw [pow_succ]; omega

/-- A magnitude `a`, rounded to `z` in the units of binade `j`, has an encoding past that of the top exactly where it is past the top. Here
`P` is the first mantissa of a binade, and `mm` in binade `top` the last finite value. -/
theorem lt_encoding_iff {rm : RM} {neg : Bool} {P top mm j z : Nat} {a : ℚ} (hmm : P ≤ mm) (hmm' : mm < P * 2) (hz : z ≤ P * 2)
    (hz' : j = 0 ∨ P ≤ z) (ha0 : 0 ≤ a) (ha : a < ((P * 2 : Nat) : ℚ)) (ha' : j ≠ 0 → (P : ℚ) ≤ a)
    (hnear : Near rm (sgnQ neg * a) (sgnQ neg * z) 1 (z % 2 == 0)) (low : Int) :
    top * P + mm < j * P + z ↔ Past rm neg (a * (2 : ℚ) ^ (low + j)) ((2 : ℚ) ^ (low + top)) mm := by
  have hu := two_zpow_pos (low + top)
  have hstep (k : Int) : (2 : ℚ) ^ (k + 1) = 2 * 2 ^ k := by rw [zpow_add_one₀ two_ne_zero, mul_comm]
  rw [Nat.cast_mul, Nat.cast_two] at ha
  rcases lt_trichotomy j top with h | rfl | h
  · have henc : ¬top * P + mm < j * P + z := by
      have : (j + 1) * P ≤ top * P := Nat.mul_le_mul_right P h
      rw [Nat.add_mul] at this
      omega
    refine iff_of_false henc (not_past_of_le hu ?_ rm neg)
    calc a * (2 : ℚ) ^ (low + j) ≤ (P * 2) * 2 ^ (low + j) := mul_le_mul_of_nonneg_right ha.le (two_zpow_pos _).le
      _ = P * 2 ^ (low + j + 1) := by rw [hstep, mul_assoc]
      _ ≤ P * 2 ^ (low + top) := mul_le_mul_of_nonneg_left (zpow_le_zpow_right₀ one_le_two (by omega)) (Nat.cast_nonneg P)
      _ ≤ mm * 2 ^ (low + top) := mul_le_mul_of_nonneg_right (by exact_mod_cast hmm) hu.le
  · have hp := past_mul (a := a) (u := 1) (mm := mm) hu rm neg
    rw [one_mul] at hp
    rw [hp, ← lt_stepped_iff hnear ha0]
    omega
  · have henc : top * P + mm < j * P + z := by
      have : (top + 1) * P ≤ j * P := Nat.mul_le_mul_right P h
      have := hz'.resolve_left (by omega)
      rw [Nat.add_mul] at *
      omega
    refine iff_of_true henc (past_of_le hu ?_ rm neg)
    have hle : ((mm + 1 : Nat) : ℚ) ≤ ((P * 2 : Nat) : ℚ) := by exact_mod_cast hmm'
    calc mm * (2 : ℚ) ^ (low + top) + 2 ^ (low + top) = ((mm + 1 : Nat) : ℚ) * 2 ^ (low + top) := by push_cast; ring
      _ ≤ ((P * 2 : Nat) : ℚ) * 2 ^ (low + top) := mul_le_mul_of_nonneg_right hle hu.le
      _ = P * 2 ^ (low + top + 1) := by rw [hstep]; push_cast; ring
      _ ≤ P * 2 ^ (low + j) := mul_le_mul_of_nonneg_left (zpow_le_zpow_right₀ one_le_two (by omega)) (Nat.cast_nonneg P)
      _ ≤ a * 2 ^ (low + j) := mul_le_mul_of_nonneg_right (ha' (by omega)) (two_zpow_pos _).le

/-- A format overflows exactly where the value is past the top (R238). -/
theorem maxEnc_lt_roundEnc_iff {f : Fp} (hf : f.Wide) (rm : RM) (neg : Bool) {m : Nat} (hm : m ≠ 0) (e : Int) :
    f.maxEnc < f.roundEnc rm neg m e ↔ Past rm neg (m * (2 : ℚ) ^ e) ((2 : ℚ) ^ f.exponent f.maxEnc) (f.mantissa f.maxEnc) := by
  obtain ⟨top, hmax, hexp, hmm, hmm'⟩ := maxEnc_eq hf
  have h := lt_encoding_iff (top := top) hmm hmm' (roundMag_le f hm e rm neg) (le_roundMag f hm e rm neg) (by positivity)
    (scaled_lt f hm e) (le_scaled f hm e) (near_roundMag rm neg m _) f.low
  rwa [low_add_binade, scaled_mul, ← hexp, ← hmax] at h

/-! ### What a format delivers for a finite value (R237 to R240) -/

/-- The value that a rounding without overflow delivers. -/
theorem finQ_roundEnc (f : Fp) (rm : RM) (neg : Bool) {m : Nat} (hm : m ≠ 0) (e : Int) :
    finQ neg (f.mantissa (f.roundEnc rm neg m e)) (f.exponent (f.roundEnc rm neg m e)) =
      finQ neg (roundMag rm neg m (e - f.grid m e)) (f.grid m e) := by
  rw [Fp.roundEnc, finQ_encoding f neg (roundMag_le f hm e rm neg) (le_roundMag f hm e rm neg), low_add_binade]

/-- It is the neighbour of the value in the mode, at the spacing of its grid. -/
theorem near_grid (f : Fp) (rm : RM) (neg : Bool) (m : Nat) (e : Int) :
    Near rm (finQ neg m e) (finQ neg (roundMag rm neg m (e - f.grid m e)) (f.grid m e)) ((2 : ℚ) ^ f.grid m e)
      (roundMag rm neg m (e - f.grid m e) % 2 == 0) := by
  have h := near_mul (near_roundMag rm neg m (e - f.grid m e)) (two_zpow_pos (f.grid m e))
  rwa [mul_assoc, scaled_mul, ← finQ_eq, mul_assoc, ← finQ_eq, one_mul] at h

/-- It is inexact exactly where it differs from the value. -/
theorem roundInt_inexact_grid (f : Fp) (rm : RM) (neg : Bool) (m : Nat) (e : Int) : (roundInt rm neg m (e - f.grid m e)).2 = true ↔
    finQ neg (roundMag rm neg m (e - f.grid m e)) (f.grid m e) ≠ finQ neg m e := by
  have hs := mul_left_inj' (two_zpow_ne_zero (f.grid m e)) (a := sgnQ neg * roundMag rm neg m (e - f.grid m e))
    (b := finQ neg m (e - f.grid m e))
  rw [mul_assoc, ← finQ_eq, finQ_mul_zpow, sub_add_cancel] at hs
  rw [roundInt_inexact, decide_eq_true_iff, cast_roundInt, Ne, ← hs]

/-- It is below the smallest normal exactly where its encoding is. -/
theorem roundEnc_lt_iff (f : Fp) (rm : RM) (neg : Bool) {m : Nat} (hm : m ≠ 0) (e : Int) : f.roundEnc rm neg m e < 2 ^ f.p ↔
    |finQ neg (roundMag rm neg m (e - f.grid m e)) (f.grid m e)| < (2 : ℚ) ^ (1 - (f.bias : Int)) := by
  have hlow : (2 : ℚ) ^ (1 - (f.bias : Int)) = ((2 ^ f.p : Nat) : ℚ) * 2 ^ f.low := by
    rw [Nat.cast_pow, ← zpow_natCast, Nat.cast_two, ← zpow_add₀ two_ne_zero]
    congr 1
    unfold Fp.low
    ring
  have hq := low_add_binade f m e
  rw [abs_finQ, hlow]
  rcases le_roundMag f hm e rm neg with hj | hz
  · rw [Fp.roundEnc, hj, ← hq, hj, zero_mul, zero_add, Nat.cast_zero, add_zero, mul_lt_mul_iff_left₀ (two_zpow_pos _), Nat.cast_lt]
  · refine iff_of_false (not_lt.2 (hz.trans (Nat.le_add_left _ _))) (not_lt.2 ?_)
    exact mul_le_mul (by exact_mod_cast hz) (zpow_le_zpow_right₀ one_le_two (by omega)) (two_zpow_pos _).le (Nat.cast_nonneg _)

/-- Encodings, without sign or with it, are even where the mantissa is. -/
theorem signBit_roundEnc_even {f : Fp} (hf : f.Wide) (rm : RM) (neg : Bool) (m : Nat) (e : Int) :
    ((f.signBit neg + f.roundEnc rm neg m e) % 2 == 0) = (roundMag rm neg m (e - f.grid m e) % 2 == 0) := by
  obtain ⟨p, hp⟩ : ∃ p, f.p = p + 1 := ⟨f.p - 1, by have := hf.1; omega⟩
  have hs : f.signBit neg % 2 = 0 := by
    cases neg
    · rfl
    · simp [Fp.signBit, hp, ← add_assoc, pow_succ]
  have hb : f.binade m e * 2 ^ f.p % 2 = 0 := by simp [hp, pow_succ, ← mul_assoc]
  rw [Fp.roundEnc, ← add_assoc, Nat.add_mod, Nat.add_mod (f.signBit neg), hs, hb]
  simp

end Sys2Proof.Machine
end

