-- ==== Sys2Proof/Proofs/FloatConversions.lean ====
section
/-! Conversions to the floating-point formats: finite values on either side of the top, infinities and NaNs (R237 to R240). -/

namespace Sys2Proof.Machine

/-! ### Infinities and NaNs (R235, R236) -/

section
variable {f : Fp} (hf : f.Wide)

include hf in
theorem read_infEnc (ht : f.top = .ieee) (neg : Bool) : f.read (f.signBit neg + f.infEnc) = .inf neg := by
  have hp : 0 < 2 ^ f.p := by positivity
  have he := four_le_two_pow_e hf
  have hlt : f.infEnc < 2 ^ (f.e + f.p) := by
    rw [Fp.infEnc, pow_add]; exact Nat.mul_lt_mul_of_pos_right (by omega) hp
  obtain ⟨h1, h2, h3, -⟩ := signBit_fields neg hlt
  have hm : f.infEnc % 2 ^ f.p = 0 := Nat.mul_mod_left ..
  have hx : f.infEnc / 2 ^ f.p = 2 ^ f.e - 1 := Nat.mul_div_cancel _ hp
  have hn : ((f.signBit neg + f.infEnc) / 2 ^ (f.e + f.p) % 2 == 1) = neg := by rw [h3]; cases neg <;> rfl
  simp only [Fp.read, ht, h2, hx, h1, hm, hn, if_true]

include hf in
theorem isNan_read_nanEnc (ht : f.top ≠ .finite) : (f.read f.nanEnc).isNan = true := by
  have hp : 0 < 2 ^ f.p := by positivity
  have he := four_le_two_pow_e hf
  cases htop : f.top with
  | ieee =>
    have hhalf : 2 ^ (f.p - 1) < 2 ^ f.p := Nat.pow_lt_pow_right (by decide) (by have := hf.1; omega)
    have hpos : 2 ^ (f.p - 1) ≠ 0 := by positivity
    have hnan : f.nanEnc = 2 ^ f.p * (2 ^ f.e - 1) + 2 ^ (f.p - 1) := by simp only [Fp.nanEnc, htop, mul_comm]
    have hm : f.nanEnc % 2 ^ f.p = 2 ^ (f.p - 1) := by rw [hnan, Nat.mul_add_mod, Nat.mod_eq_of_lt hhalf]
    have hx : f.nanEnc / 2 ^ f.p % 2 ^ f.e = 2 ^ f.e - 1 := by
      rw [hnan, Nat.mul_add_div hp, Nat.div_eq_of_lt hhalf, add_zero, Nat.mod_eq_of_lt (by omega)]
    simp only [Fp.read, htop, hx, hm, if_true, if_neg hpos, Num.isNan]
  | nanOnly =>
    have hnan : f.nanEnc % 2 ^ (f.e + f.p) = 2 ^ (f.e + f.p) - 1 := by
      simp only [Fp.nanEnc, htop]
      exact Nat.mod_eq_of_lt (Nat.sub_lt (by positivity) one_pos)
    simp only [Fp.read, htop, hnan, if_true, Num.isNan]
  | finite => exact absurd htop ht

end

/-! ### The overflow result (R238) -/

/-- The overflow result of an outward rounding without saturation. -/
theorem overflow_outward (f : Fp) {rm : RM} {neg : Bool} (ho : Outward rm neg) : f.overflow rm false neg =
    match f.top with
    | .ieee => f.signBit neg + f.infEnc
    | .nanOnly => f.nanEnc
    | .finite => f.signBit neg + f.maxEnc := by
  rcases ho with rfl | ⟨rfl, rfl⟩ | ⟨rfl, rfl⟩ <;> rfl

theorem not_outward_iff (rm : RM) (neg : Bool) : ¬Outward rm neg ↔ rm = .rz ∨ (rm = .ru ∧ neg = true) ∨ (rm = .rd ∧ neg = false) := by
  cases rm <;> cases neg <;> decide

/-- Any other overflow, and any of a format without infinity and NaN, gives the largest finite value. -/
theorem overflow_inward (f : Fp) {rm : RM} {sat neg : Bool} (h : sat = true ∨ ¬Outward rm neg ∨ f.top = .finite) :
    f.overflow rm sat neg = f.signBit neg + f.maxEnc := by
  rw [not_outward_iff] at h
  rcases h with rfl | (rfl | ⟨rfl, rfl⟩ | ⟨rfl, rfl⟩) | ht
  case inr.inr => simp [Fp.overflow, ht]
  all_goals cases ht : f.top <;> simp [Fp.overflow, ht]

/-! ### Finite values -/

section
variable {f : Fp} (hf : f.Wide)

include hf in
/-- A value that is not past the top. -/
theorem round_of_not_past (rm : RM) (sat neg : Bool) (m : Nat) (e : Int)
    (h : ¬Past rm neg |finQ neg m e| ((2 : ℚ) ^ f.exponent f.maxEnc) (f.mantissa f.maxEnc)) :
    ∃ n k, f.read (f.round rm sat neg m e).1 = .fin neg n k ∧ (m = 0 → n = 0) ∧
      ((f.round rm sat neg m e).2.nx = true ↔ finQ neg n k ≠ finQ neg m e) ∧
      ((f.round rm sat neg m e).2.uf = true ↔ finQ neg n k ≠ finQ neg m e ∧ |finQ neg n k| < (2 : ℚ) ^ (1 - (f.bias : Int))) ∧
      (f.round rm sat neg m e).2.of = false ∧ (f.round rm sat neg m e).2.nv = false ∧ (f.round rm sat neg m e).2.dz = false ∧
      ∀ l : Int, (2 : ℚ) ^ l ≤ |finQ neg m e| → |finQ neg m e| < (2 : ℚ) ^ (l + 1) →
        Near rm (finQ neg m e) (finQ neg n k) ((2 : ℚ) ^ max (l - f.p) (1 - (f.bias : Int) - f.p))
          ((f.round rm sat neg m e).1 % 2 == 0) := by
  by_cases hm : m = 0
  · have hr : f.round rm sat neg m e = (f.signBit neg + 0, {}) := if_pos hm
    rw [hr, hm, finQ_zero]
    refine ⟨_, _, read_signBit hf neg (Nat.zero_le _), ?_⟩
    have hz : f.mantissa 0 = 0 := if_pos (Nat.zero_div _)
    rw [hz, finQ_zero]
    simp only [ne_eq, not_true, false_and, abs_zero, true_and, Bool.false_eq_true, implies_true]
    exact fun l hl => absurd hl (not_le.2 (two_zpow_pos l))
  · rw [abs_finQ, ← maxEnc_lt_roundEnc_iff hf rm neg hm] at h
    have hr := round_eq f rm sat neg hm e
    rw [if_neg h] at hr
    refine ⟨_, _, by rw [hr]; exact read_signBit hf neg (not_lt.1 h), fun h0 => absurd h0 hm, ?_⟩
    rw [finQ_roundEnc f rm neg hm, hr]
    refine ⟨roundInt_inexact_grid f rm neg m e, ?_, rfl, rfl, rfl, fun l hl hl' => ?_⟩
    · rw [Bool.and_eq_true, roundInt_inexact_grid, decide_eq_true_iff, roundEnc_lt_iff f rm neg hm]
    · obtain ⟨hb, hb'⟩ := bitLength_bounds hm e
      rw [abs_finQ] at hl hl'
      rw [binade_unique hl hl' hb hb', signBit_roundEnc_even hf]
      exact near_grid f rm neg m e

include hf in
/-- A value past the top. -/
theorem round_of_past (rm : RM) (sat neg : Bool) (m : Nat) (e : Int)
    (h : Past rm neg |finQ neg m e| ((2 : ℚ) ^ f.exponent f.maxEnc) (f.mantissa f.maxEnc)) :
    f.round rm sat neg m e = (f.overflow rm sat neg, { of := true, nx := true }) := by
  have hm : m ≠ 0 := by
    rintro rfl
    refine not_past_of_le (two_zpow_pos _) ?_ rm neg h
    rw [finQ_zero, abs_zero]
    positivity
  rw [abs_finQ, ← maxEnc_lt_roundEnc_iff hf rm neg hm] at h
  rw [round_eq f rm sat neg hm, if_pos h]

end

/-! ### Conversions (R240) -/

section
variable {g : Fmt} {f : Fp} (hg : fpOf g = some f) (rm : RM) (sat : Bool)

include hg in
theorem convertTo_fp (x : Num) : convertTo g rm sat (.fp x) = f.deliver rm sat { x, flags := { nv := x.isSignalling } } := by
  simp only [convertTo, hg, Val.num]

include hg in
theorem convertTo_fin (neg : Bool) (m : Nat) (e : Int) : convertTo g rm sat (.fp (.fin neg m e)) = f.round rm sat neg m e := by
  rw [convertTo_fp hg]
  rfl

include hg in
theorem convertTo_inf (neg : Bool) : convertTo g rm sat (.fp (.inf neg)) =
    match f.top with
    | .ieee => (f.signBit neg + f.infEnc, {})
    | .nanOnly => (if sat then f.signBit neg + f.maxEnc else f.nanEnc, { of := true, nx := true })
    | .finite => (f.signBit neg + f.maxEnc, { of := true, nx := true }) := by
  rw [convertTo_fp hg]
  cases ht : f.top <;> simp [Fp.deliver, ht, Num.isSignalling]

include hg in
theorem convertTo_nan (signalling : Bool) : convertTo g rm sat (.fp (.nan signalling)) =
    if f.top = .finite then (0, { nv := true }) else (f.nanEnc, { nv := signalling }) := by
  rw [convertTo_fp hg]
  cases ht : f.top <;> simp [Fp.deliver, ht, Num.isSignalling]

/-- The top of a format, by its identifier. -/
theorem top_ieee_iff (hg : fpOf g = some f) : g ∈ [Fmt.f32, .bf16, .f16, .e5m2] ↔ f.top = .ieee := by
  cases g <;> cases hg <;> decide

theorem top_nanOnly (h : f.top ≠ .ieee) (h' : f.top ≠ .finite) : f.top = .nanOnly := by
  cases ht : f.top
  · exact absurd ht h
  · rfl
  · exact absurd ht h'

theorem top_finite_iff (hg : fpOf g = some f) : g ∈ [Fmt.e3m2, .e2m3, .e2m1] ↔ f.top = .finite := by
  cases g <;> cases hg <;> decide

end

end Sys2Proof.Machine
end

