-- ==== Sys2Proof/Proofs/BlockExponents.lean ====
section
/-! Block fixed point over the rationals: the shared exponent, and the elements in their bytes (R242, R243). -/

namespace Sys2Proof.Machine

/-! ### Bytes and elements of a string (R3, R233) -/

theorem ofBytes_bytesOf (n x : Nat) : ofBytes (bytesOf n x) = x % 256 ^ n := by
  induction n generalizing x with
  | zero => simp [bytesOf, ofBytes, Nat.mod_one]
  | succ n ih =>
    have h : x % (256 * 256 ^ n) = x % 256 + 256 * (x / 256 % 256 ^ n) := Nat.mod_mul
    rw [bytesOf, ofBytes, ih, BitVec.toNat_ofNat, pow_succ' 256, h]

@[simp] theorem length_bytesOf (n x : Nat) : (bytesOf n x).length = n := by simp [bytesOf_eq_map_range]

theorem packElems_lt (w : Nat) (l : List Nat) : packElems w l < 2 ^ (w * l.length) := by
  induction l with
  | nil => simp [packElems]
  | cons x l ih =>
    have hx : x % 2 ^ w < 2 ^ w := Nat.mod_lt _ (by positivity)
    calc packElems w (x :: l) = x % 2 ^ w + 2 ^ w * packElems w l := rfl
      _ < 2 ^ w + 2 ^ w * packElems w l := Nat.add_lt_add_right hx _
      _ = 2 ^ w * (packElems w l + 1) := by ring
      _ ≤ 2 ^ w * 2 ^ (w * l.length) := Nat.mul_le_mul_left _ ih
      _ = 2 ^ (w * (x :: l).length) := by rw [← pow_add, List.length_cons]; congr 1; ring

/-- An element of a string is the one that was put there, modulo its width. -/
theorem elem_packElems (w j : Nat) (l : List Nat) : packElems w l / 2 ^ (w * j) % 2 ^ w = l.getD j 0 % 2 ^ w := by
  induction l generalizing j with
  | nil => simp [packElems]
  | cons x l ih =>
    have hw : 0 < 2 ^ w := by positivity
    cases j with
    | zero => simp [packElems]
    | succ j =>
      have hd : packElems w (x :: l) / 2 ^ w = packElems w l := by
        rw [packElems, Nat.add_mul_div_left _ _ hw, Nat.div_eq_of_lt (Nat.mod_lt _ hw), zero_add]
      rw [Nat.mul_succ, Nat.add_comm, pow_add, ← Nat.div_div_eq_div_mul, hd, ih, List.getD_cons_succ]

/-! ### The shared exponent (R243) -/

/-- The larger of the exponents so far and the next. -/
def keepMax (a : Option Int) (x : Int) : Option Int :=
  some (match a with
    | none => x
    | some y => max x y)

/-- The exponent of a block before its bias, from the values that are not zero. -/
def blockLog (l : List Num) : Option Int := (l.filterMap floorLog).foldl keepMax none

/-- A block under the exponent that its values give. -/
def blockUnder (w : Nat) (rm : RM) (l : List Num) (x0 : Int) : List Byte :=
  bytesOf 1 (clamp 0 255 x0).toNat ++ bytesOf (4 * w)
    (packElems w ((l.map (blockElem w rm (clamp 0 255 x0) (decide (255 ≤ x0)) (decide (x0 < 0)))).map fun e => e.1))

theorem blockOfValues_fst (w : Nat) (rm : RM) (l : List Num) : (blockOfValues w rm l).1 = blockUnder w rm l
    (match blockLog l with
      | none => 0
      | some y => y + 128) := rfl

/-- The largest of a list of exponents is kept. -/
theorem foldl_keepMax {b : Int} {l : List Int} {a : Option Int} (hl : ∀ y ∈ l, y ≤ b) (ha : ∀ y ∈ a, y ≤ b) (hb : b ∈ l ∨ a = some b) :
    l.foldl keepMax a = some b := by
  induction l generalizing a with
  | nil => simpa using hb
  | cons x l ih =>
    have hx : x ≤ b := hl x List.mem_cons_self
    have hle : ∀ y ∈ keepMax a x, y ≤ b := by
      rintro y ⟨⟩
      cases a with
      | none => exact hx
      | some y => exact max_le hx (ha y rfl)
    refine ih (fun y hy => hl y (List.mem_cons_of_mem x hy)) hle ?_
    rcases hb with hb | rfl
    · rcases List.mem_cons.1 hb with rfl | hb
      · right
        cases a with
        | none => rfl
        | some y => exact congrArg some (max_eq_left (ha y rfl))
      · exact Or.inl hb
    · exact Or.inr (congrArg some (max_eq_right hx))

/-- The exponent of a finite value that is not zero is that of the power of two below it. -/
theorem floorLog_fin (neg : Bool) {m : Nat} (hm : m ≠ 0) (e : Int) : floorLog (.fin neg m e) = some (e + bitLength m - 1) := if_neg hm

theorem floorLog_le {neg : Bool} {m : Nat} {e y b : Int} (h : floorLog (.fin neg m e) = some y) (hb : |finQ neg m e| < (2 : ℚ) ^ (b + 1)) :
    y ≤ b := by
  by_cases hm : m = 0
  · simp [floorLog, hm] at h
  · rw [floorLog_fin neg hm] at h
    cases h
    rw [abs_finQ] at hb
    exact Int.lt_add_one_iff.1 ((zpow_lt_zpow_iff_right₀ one_lt_two).1 ((bitLength_bounds hm e).1.trans_lt hb))

theorem floorLog_eq {neg : Bool} {m : Nat} {e b : Int} (hb : (2 : ℚ) ^ b ≤ |finQ neg m e|) (hb' : |finQ neg m e| < (2 : ℚ) ^ (b + 1)) :
    floorLog (.fin neg m e) = some b := by
  have hm : m ≠ 0 := by
    rintro rfl
    rw [finQ_zero, abs_zero] at hb
    exact absurd hb (not_le.2 (two_zpow_pos b))
  rw [abs_finQ] at hb hb'
  obtain ⟨h1, h2⟩ := bitLength_bounds hm e
  rw [floorLog_fin neg hm, binade_unique h1 h2 hb hb']

/-- A finite value and its number, from its sign, mantissa and exponent. -/
abbrev finOf (v : Bool × Nat × Int) : Num := .fin v.1 v.2.1 v.2.2
abbrev valQ (v : Bool × Nat × Int) : ℚ := finQ v.1 v.2.1 v.2.2

/-- The exponent of a block is that of the power of two below its largest magnitude. -/
theorem blockLog_eq {vs : List (Bool × Nat × Int)} {b : Int} (hlt : ∀ v ∈ vs, |valQ v| < (2 : ℚ) ^ (b + 1))
    (hge : ∃ v ∈ vs, (2 : ℚ) ^ b ≤ |valQ v|) : blockLog (vs.map finOf) = some b := by
  refine foldl_keepMax (fun y hy => ?_) (by simp) (Or.inl ?_)
  · obtain ⟨n, hn, hy⟩ := List.mem_filterMap.1 hy
    obtain ⟨v, hv, rfl⟩ := List.mem_map.1 hn
    exact floorLog_le hy (hlt v hv)
  · obtain ⟨v, hv, hb⟩ := hge
    exact List.mem_filterMap.2 ⟨finOf v, List.mem_map_of_mem hv, floorLog_eq hb (hlt v hv)⟩

/-- The same, by the places of the values. -/
theorem blockLog_eq_of_getD {vs : List (Bool × Nat × Int)} {b : Int} (hlen : vs.length = 32)
    (hlt : ∀ j, j < 32 → |valQ (vs.getD j (false, 0, 0))| < (2 : ℚ) ^ (b + 1))
    (hge : ∃ j, j < 32 ∧ (2 : ℚ) ^ b ≤ |valQ (vs.getD j (false, 0, 0))|) : blockLog (vs.map finOf) = some b := by
  refine blockLog_eq (fun v hv => ?_) ?_
  · obtain ⟨j, hj, rfl⟩ := List.mem_iff_getElem.1 hv
    have h := hlt j (hlen ▸ hj)
    rwa [List.getD_eq_getElem vs _ hj] at h
  · obtain ⟨j, hj, h⟩ := hge
    rw [List.getD_eq_getElem vs _ (hlen ▸ hj)] at h
    exact ⟨_, List.getElem_mem _, h⟩

/-! ### The elements (R242, R243) -/

theorem lowBits_mod (w : Nat) (i : Int) : lowBits w i % 2 ^ w = lowBits w i := by
  have h0 : (0 : Int) < 2 ^ w := by positivity
  have h1 := Int.emod_lt_of_pos i h0
  have h2 := Int.emod_nonneg i h0.ne'
  refine Nat.mod_eq_of_lt ?_
  unfold lowBits
  zify
  rwa [Int.toNat_of_nonneg h2]

/-- An element of a block is its value, in units of the block, rounded and clamped. -/
theorem blockElem_fin (w : Nat) (rm : RM) (x : Int) (high low : Bool) (neg : Bool) (m : Nat) (e : Int) :
    (blockElem w rm x high low (.fin neg m e)).1 =
      lowBits w (max (-(2 ^ (w - 1))) (min (2 ^ (w - 1) - 1) (roundInt rm neg m (e + 126 + w - x)).1)) := by
  have h0 : (0 : Int) < 2 ^ (w - 1) := by positivity
  have hc := clamp_eq (show -((2 : Int) ^ (w - 1) - 1) - 1 ≤ 2 ^ (w - 1) - 1 by omega) (roundInt rm neg m (e + 126 + w - x)).1
  rw [show -((2 : Int) ^ (w - 1)) = -(2 ^ (w - 1) - 1) - 1 by ring]
  exact congrArg (lowBits w) hc

/-- It is a neighbour of the value in those units, clamped to the width. -/
theorem near_blockElem (w : Nat) (rm : RM) (x : Int) (high low : Bool) (v : Bool × Nat × Int) :
    ∃ i : Int, Near rm (valQ v * (2 : ℚ) ^ (126 + (w : Int) - x)) i 1 (i % 2 == 0) ∧
      (blockElem w rm x high low (finOf v)).1 % 2 ^ w = ((max (-(2 ^ (w - 1))) (min (2 ^ (w - 1) - 1) i)) % 2 ^ w).toNat := by
  refine ⟨(roundInt rm v.1 v.2.1 (v.2.2 + 126 + w - x)).1, ?_, by rw [blockElem_fin, lowBits_mod, lowBits]⟩
  rw [finQ_mul_zpow, show v.2.2 + (126 + (w : Int) - x) = v.2.2 + 126 + w - x by ring]
  exact near_roundInt rm v.1 v.2.1 _

section
variable (w : Nat) (rm : RM) {l : List Num} (hl : l.length = 32) (x0 : Int)

theorem length_blockUnder : (blockUnder w rm l x0).length = 1 + 4 * w := by simp [blockUnder]

/-- The first byte holds the exponent. -/
theorem exponent_blockUnder : (((blockUnder w rm l x0).getD 0 0).toNat : Int) = clamp 0 255 x0 := by
  have hc := clamp_eq (show (0 : Int) ≤ 255 by decide) x0
  have hb : (blockUnder w rm l x0).getD 0 0 = BitVec.ofNat 8 (clamp 0 255 x0).toNat := rfl
  rw [hb, BitVec.toNat_ofNat]
  omega

include hl in
/-- The bytes that follow hold the elements. -/
theorem elem_blockUnder {j : Nat} (hj : j < 32) (v : Num) : ofBytes ((blockUnder w rm l x0).drop 1) / 2 ^ (w * j) % 2 ^ w =
    (blockElem w rm (clamp 0 255 x0) (decide (255 ≤ x0)) (decide (x0 < 0)) (l.getD j v)).1 % 2 ^ w := by
  have h256 : 256 ^ (4 * w) = 2 ^ (w * 32) := by rw [show 256 = 2 ^ 8 by rfl, ← pow_mul]; congr 1; ring
  have hdrop : (blockUnder w rm l x0).drop 1 = bytesOf (4 * w) (packElems w
    ((l.map (blockElem w rm (clamp 0 255 x0) (decide (255 ≤ x0)) (decide (x0 < 0)))).map fun e => e.1)) := rfl
  have hlt := packElems_lt w ((l.map (blockElem w rm (clamp 0 255 x0) (decide (255 ≤ x0)) (decide (x0 < 0)))).map fun e => e.1)
  rw [List.length_map, List.length_map, hl] at hlt
  rw [hdrop, ofBytes_bytesOf, h256, Nat.mod_eq_of_lt hlt, elem_packElems]
  simp [hj, hl]

end

end Sys2Proof.Machine
end

