-- ==== Sys2Proof/Proofs/RoundingBounds.lean ====
section
/-! O41 settled: its four parts, each from what the functions of the model do over the rationals. -/

open Sys2Proof Sys2Proof.Machine

/-- Settles O41: a rounding of a format is a rounding to an integer on its grid, and so are those to an integer and into a block. -/
theorem roundingBoundsTheExactValue : Obligations.RoundingBoundsTheExactValue := by
  unfold Obligations.RoundingBoundsTheExactValue
  intro q near
  refine ⟨?formats, ?integers, ?arithmetic, ?blocks⟩
  case formats =>
    intro g f rm sat hg mm ee hmax top u infinite finite
    have hf := fpOf_wide hg
    have hread := read_signBit hf false le_rfl
    rw [Fp.signBit, if_neg Bool.false_ne_true, zero_add, hmax] at hread
    obtain ⟨-, rfl, rfl⟩ := Num.fin.inj hread
    have hlargest (neg : Bool) := read_signBit hf neg le_rfl
    have htop : top = f.mantissa f.maxEnc * u := by simp [top, q, u]
    have hinf : infinite ↔ f.top = .ieee := top_ieee_iff hg
    have hfin : finite ↔ f.top = .finite := top_finite_iff hg
    refine ⟨fun neg m e => ?_, fun neg => ?_, fun signalling => ?_⟩
    · intro x r outward past
      have hr : r = f.round rm sat neg m e := convertTo_fin hg rm sat neg m e
      have hpast : past ↔ Past rm neg |finQ neg m e| ((2 : ℚ) ^ f.exponent f.maxEnc) (f.mantissa f.maxEnc) := by
        simp only [past, htop]
        exact Iff.rfl
      rw [hpast, hr]
      refine ⟨round_of_not_past hf rm sat neg m e, fun h => ?_⟩
      rw [round_of_past hf rm sat neg m e h]
      refine ⟨rfl, ?_, ?_, ?_⟩
      · rintro rfl ho hi
        rw [overflow_outward f ho, hinf.1 hi]
        exact read_infEnc hf (hinf.1 hi) neg
      · rintro rfl ho hi hn
        have ht : f.top = .nanOnly := top_nanOnly (hinf.not.1 hi) (hfin.not.1 hn)
        rw [overflow_outward f ho, ht]
        exact isNan_read_nanEnc hf (hfin.not.1 hn)
      · intro h
        rw [overflow_inward f (h.imp_right (Or.imp_right hfin.1))]
        exact hlargest neg
    · intro r
      have hr : r = _ := convertTo_inf hg rm sat neg
      refine ⟨fun hi => ?_, fun hi => ?_⟩
      · rw [hr, hinf.1 hi]
        exact ⟨read_infEnc hf (hinf.1 hi) neg, rfl⟩
      · by_cases hn : finite
        · rw [hr, hfin.1 hn]
          exact ⟨rfl, fun _ => hlargest neg, fun _ h => absurd hn h⟩
        · rw [hr, top_nanOnly (hinf.not.1 hi) (hfin.not.1 hn)]
          refine ⟨rfl, fun h => ?_, fun h _ => ?_⟩
          · rw [h.resolve_right hn]
            exact hlargest neg
          · rw [h]
            exact isNan_read_nanEnc hf (hfin.not.1 hn)
    · intro r
      have hr : r = _ := convertTo_nan hg rm sat signalling
      refine ⟨fun hn => ?_, fun hn => hr.trans (if_pos (hfin.1 hn))⟩
      rw [hr, if_neg (hfin.not.1 hn)]
      exact ⟨isNan_read_nanEnc hf (hfin.not.1 hn), rfl⟩
  case integers =>
    intro g w sg rm sat hg lo hi
    have hconv (x : Machine.Num) : convertTo g rm sat (.fp x) = toIntFmt w sg rm x := by
      cases g <;> cases hg <;> rfl
    refine ⟨fun neg m e => ?_, fun neg => ?_, fun n => ?_⟩
    · intro r
      have hr : r = toIntFmt w sg rm (.fin neg m e) := hconv _
      rw [hr]
      exact ⟨_, near_roundInt rm neg m e, toIntFmt_fin w sg rm neg m e⟩
    · rw [hconv]; rfl
    · rw [hconv]; rfl
  case arithmetic =>
    intro rm a b c m n l d e h x y
    refine ⟨?_, ⟨_, _, rfl, finQ_mul a b m n d e⟩, ?_, numLess_fin a m d b n e, numEq_fin a m d b n e⟩
    · obtain ⟨o, k, j, hadd, hval, hzero⟩ := sumFin_exact rm a m d b n e
      exact ⟨o, k, j, by rw [addExact_fin, hadd], hval, hzero⟩
    · obtain ⟨o, k, j, hfma, hval, -⟩ := sumFin_exact rm (a != b) (m * n) (d + e) c l h
      rw [finQ_mul] at hval
      exact ⟨o, k, j, by rw [fmaExact_fin, hfma], hval⟩
  case blocks =>
    intro w rm vs L hw hlen x hlt hge b X
    have hlog := blockLog_eq_of_getD hlen hlt hge
    have hb : b = blockUnder w rm (vs.map finOf) (L + 128) := (blockOfValues_fst w rm (vs.map finOf)).trans (by rw [hlog])
    have hX : clamp 0 255 (L + 128) = X := clamp_eq (by decide) _
    rw [hb]
    refine ⟨length_blockUnder w rm _, hX ▸ exponent_blockUnder w rm _, fun j hj => ?_⟩
    rw [elem_blockUnder w rm (by simpa using hlen) _ hj (finOf (false, 0, 0)), List.getD_map, hX]
    exact near_blockElem w rm X _ _ _

end

