-- ==== Sys2Proof/Proofs/AtReset.lean ====
section
/-! The state right after reset: what its tables read as, the mode of a bank at and away from the local stores, and O48 settled. -/

namespace Sys2Proof.Machine

/-! ### Banks (R12, R160, R162) -/

theorem modeOf_one : modeOf 1 = .scratch := by decide

theorem configOf_unlisted {c : Cluster} {b : Nat} (hc : c.config = []) (hb : b < 14) : c.configOf b = 0 := by
  rw [Cluster.configOf, if_pos hb, hc]
  rfl

theorem configOf_localStore (c : Cluster) {b : Nat} (hb : 14 ≤ b) : c.configOf b = 1 := if_neg (Nat.not_lt.2 hb)

theorem modeOf_configOf_localStore (c : Cluster) {b : Nat} (hb : 14 ≤ b) : modeOf (c.configOf b) = .scratch := by
  rw [configOf_localStore c hb, modeOf_one]

/-! ### Tables at reset (R438): none lists an entry, so each part reads as its default -/

@[simp] theorem cluster_reset (c : Nat) : State.reset.cluster c = {} := rfl

@[simp] theorem die_reset (d : Nat) : State.reset.die d = {} := rfl

@[simp] theorem counter_reset (c : Nat) : State.reset.counter c = {} := rfl

@[simp] theorem queue_reset (q : Nat) : State.reset.queue q = {} := rfl

@[simp] theorem byte_reset (a : Nat) : State.reset.byte a = 0 := rfl

end Sys2Proof.Machine

open Sys2Proof Sys2Proof.Machine

/-- Settles O48: an empty table reads as its default everywhere, and banks 14 and 15 are local stores in any state. Counters that are not set
and idle queues at reset are the model's choice (log 1), as are the zeros of memory outside the banks (log 4). -/
theorem resetState : Obligations.ResetState := by
  unfold Obligations.ResetState
  refine ⟨?unplaced, ?others, ?launches, ?waiting, reset_mem_wf, byte_reset, ?cacheBanks, ?localStores, ?wdt, ?modid, ?prefixes,
    ?regions, counter_reset, ?queues, ?boot⟩
  case unplaced | others | launches | waiting | wdt | modid | regions | boot => rfl
  case cacheBanks =>
    intro cl b hb
    exact configOf_unlisted (by rw [cluster_reset]) (Nat.lt_succ_of_le hb)
  case localStores =>
    intro cl b hb
    have h14 : 14 ≤ b := by
      simp only [List.mem_cons, List.not_mem_nil, or_false] at hb
      omega
    exact modeOf_configOf_localStore _ h14
  case prefixes =>
    intro d
    rw [die_reset]
  case queues =>
    intro q
    rw [queue_reset]

end

