-- ==== Sys2Proof/Proofs/CommittedReads.lean ====
section
/-! Committed reads of one piece: from a way that is hit, or from the home behind a translation, and what settles O14 (R62, R73, R166 to
R170, R323). -/

namespace Sys2Proof.Machine

/-! ### Homes that keep plain bytes (R62) -/

/-- A local offset in HBM, LPDDR or a Granary: a read there meets no bank mode, no register and no handover. -/
def PlainHome (o : Nat) : Prop :=
  (∃ k y, regionOf o = .hbm k y) ∨ (∃ y, regionOf o = .lpddr y) ∨ (∃ k y, regionOf o = .granary k y)

/-- A plain home of the requester's world, none of whose words is locked against it, answers with the bytes of memory (R318, R436). -/
theorem homeRead_plain {s : State} {secure : Bool} {pa n : Nat} (hw : s.worldOk secure (localOf pa) = true)
    (hl : s.lockedAgainst pa n = false) (hp : PlainHome (localOf pa)) :
    s.homeRead secure pa n = .bytes (s.bytes (localOf pa) n) := by
  obtain ⟨k, y, hr⟩ | ⟨y, hr⟩ | ⟨k, y, hr⟩ := hp <;> simp [State.homeRead, hw, hl, hr]

/-! ### A piece of a load (R166, R167, R176) -/

section
variable {s : State} {va n pend : Nat}

/-- A hit takes the way's bytes, and its line becomes the most recent. -/
theorem readPiece_hit {b : List Byte} {l : Line} (h : s.wayHit va n = some (b, l)) :
    s.readPiece va n pend =
      .ok ((s.setCurCluster { s.curCluster with lines := l :: s.curCluster.lines.filter (· ≠ l) }).readSig (l.pline + va % 256) n) b := by
  simp [State.readPiece, h]

variable {t : State} {pa x : Nat} {e : Word} (hmiss : s.wayHit va n = none)
  (hx : s.translate (sliceDie s.cur.loc.die) s.cur.job va .read (tsrSup s.cur.tsr) s.cur.secure = (t, .ok pa e x))
  (hlocal : t.isLocal pa = true)
include hmiss hx hlocal

/-- A miss whose home here may not be cached takes what the home answers, and is counted (R170). -/
theorem readPiece_uncached {l : List Byte} (hc : (t.leavePlace .read s.cur.loc va).cacheable pa e = false)
    (hr : (t.leavePlace .read s.cur.loc va).homeRead s.cur.secure pa n = .bytes l) :
    s.readPiece va n pend = .ok (((t.leavePlace .read s.cur.loc va).countMiss va).readSig pa n) l := by
  simp [State.readPiece, hmiss, hx, hlocal, hc, hr]

/-- A miss whose home here may be cached fills a way with the whole words that hold the piece, and takes the piece from them. -/
theorem readPiece_cached {l : List Byte} (hc : (t.leavePlace .read s.cur.loc va).cacheable pa e = true)
    (hr : (t.leavePlace .read s.cur.loc va).homeRead s.cur.secure (alignDown pa 4) ((pa + n + 3) / 4 * 4 - alignDown pa 4) = .bytes l) :
    let v := t.leavePlace .read s.cur.loc va
    s.readPiece va n pend =
      .ok ((v.setCurCluster (v.curCluster.fill s.cur.job va (alignDown pa 256) x (pteG e) (wordsIn va l))).readSig pa n)
        ((l.drop (pa - alignDown pa 4)).take n) := by
  simp [State.readPiece, hmiss, hx, hlocal, hc, hr]

end

/-! ### The ways (R167, R170) -/

/-- With no range register for its address, no line of its page and a free way in its set, a fill adds one line, the most recent. -/
theorem fill_new_line {c : Cluster} {job va w : Nat} {ws : List Nat} (pline expiry : Nat) (g : Bool) (words : List (Nat × Word32))
    (hrange : c.rangeOf job va = none) (hline : (c.lines.find? fun l => l.holds job va && c.ways.contains l.way) = none)
    (hfree : (c.ways.filter fun w => !(c.lines.filter fun l => l.set == va / 256 % 2048).any fun l => l.way == w) = w :: ws) :
    (c.fill job va pline expiry g words).lines = insertLine false
      { way := w, set := va / 256 % 2048, vtag := va / 2 ^ 19, job := if g then none else some job, pline, expiry, keep := false, words }
      c.lines := by
  have hcount : c.countMiss job va = c := by simp [Cluster.countMiss, hrange]
  simp only [Cluster.fill, hcount, hrange, hline, hfree]
  rfl

end Sys2Proof.Machine

open Sys2Proof Sys2Proof.Machine

/-- Settles O14: by what the ways and the translation answer. A plain home of the unit's world that no lock holds answers with the bytes of
memory, and neither leaving a place in a lane, nor counting, nor a fill changes memory. -/
theorem committedReadsComeFromTheWayOrTheHome : Obligations.CommittedReadsComeFromTheWayOrTheHome := by
  unfold Obligations.CommittedReadsComeFromTheWayOrTheHome
  intro s va n pend
  refine ⟨?hit, ?miss, ?newLine⟩
  case hit =>
    intro b l h
    exact readPiece_hit h
  case miss =>
    intro t pa e x hmiss hx hlocal v a m plain
    have hmem : v.mem = t.mem := leavePlace_mem t .read s.cur.loc va
    refine ⟨hmem, fun hc hw hl hp => ⟨?_, ?_⟩, fun hc hw hl hp => ⟨?_, ?_⟩⟩
    · exact readPiece_uncached hmiss hx hlocal hc (homeRead_plain hw hl hp)
    · rw [readSig_mem, countMiss_mem, hmem]
    · exact readPiece_cached hmiss hx hlocal hc (homeRead_plain hw hl hp)
    · rw [readSig_mem]
      exact hmem
  case newLine =>
    intro c job pline expiry w g words ws hrange hline hfree
    exact fill_new_line pline expiry g words hrange hline hfree

end

