-- ==== Sys2Proof/Proofs/FabricLanes.lean ====
section
/-! Requests of other modules at the ingress (R62, R351, R352, R423): what is ignored, what is forwarded, and the one that is next in an
empty lane, which is served where it is not held up. -/

namespace Sys2Proof.Sparse

variable {α : Type}

@[simp] theorem find?_put_same (l : List (Nat × α)) (a : Nat) (v : α) : find? (put l a v) a = some v := by
  induction l with
  | nil => simp [put, find?]
  | cons e r ih =>
    by_cases h : a = e.1
    · simp [put, find?, h]
    · simp [put, find?, h, ih]

theorem find?_put_other (l : List (Nat × α)) {a b : Nat} (v : α) (hb : b ≠ a) : find? (put l a v) b = find? l b := by
  induction l with
  | nil => simp [put, find?, hb]
  | cons e r ih =>
    by_cases h : a = e.1
    · have : b ≠ e.1 := h ▸ hb
      simp [put, find?, h, this]
    · simp [put, find?, h, ih]

end Sys2Proof.Sparse

namespace Sys2Proof.Machine

/-! ### Tables of lanes and ports -/

@[simp] theorem laneAt_setLane (s : State) (key : Nat) (l : Lane) : (s.setLane key l).laneAt key = l := by
  simp [State.laneAt, State.setLane]

@[simp] theorem port_setPort_same (s : State) (p : Nat) (x : Port) : (s.setPort p x).port p = x := by
  simp [State.port, State.setPort]

theorem port_setPort_other (s : State) {p q : Nat} (x : Port) (h : q ≠ p) : (s.setPort p x).port q = s.port q := by
  simp [State.port, State.setPort, Sparse.find?_put_other _ x h]

section
variable (k : Packet) (s : State)

/-! ### The instructions of a packet that has arrived (R422) -/

@[simp] theorem exec_fabricRead : exec (.fabricRead k) s = s.ingress .read k := rfl
@[simp] theorem exec_fabricWrite : exec (.fabricWrite k) s = s.ingress .write k := rfl
@[simp] theorem exec_fabricLock : exec (.fabricLock k) s = s.ingress .lock k := rfl
@[simp] theorem exec_fabricPerform : exec (.fabricPerform k) s = s.ingress .perform k := rfl
@[simp] theorem exec_fabricUnlock : exec (.fabricUnlock k) s = s.ingress .unlock k := rfl
@[simp] theorem exec_fabricAtomic : exec (.fabricAtomic k) s = s.ingress .atomic k := rfl
@[simp] theorem exec_fabricSc : exec (.fabricSc k) s = execFabricSc k s := rfl
@[simp] theorem exec_fabricSend : exec (.fabricSend k) s = s.ingress .send k := rfl
@[simp] theorem exec_fabricData : exec (.fabricData k) s = s.answered .data 0 k := rfl
@[simp] theorem exec_fabricAck : exec (.fabricAck k) s = s.answered .ack 0 k := rfl
@[simp] theorem exec_fabricRefuse : exec (.fabricRefuse k) s = s.answered .refuse (k.addr / 2 ^ 48 % 256) k := rfl

end

/-! ### Before MODID has been written, and packets for another module (R62, R423) -/

section
variable {s : State} {k : Packet}

theorem ingress_unnumbered (t : PktType) (h : s.numbered = false) : s.ingress t k = .next s := by
  simp [State.ingress, h]

theorem answered_unnumbered (t : PktType) (reason : Nat) (h : s.numbered = false) : s.answered t reason k = .next s := by
  simp [State.answered, h]

theorem ingress_forwards (t : PktType) (h : s.numbered = true) (hk : k.dst ≠ s.modid.toNat) :
    s.ingress t k = .next { s with outbox := s.outbox ++ [(hubOfDie k.sdie, t, k)] } := by
  simp [State.ingress, h, hk]

theorem answered_forwards (t : PktType) (reason : Nat) (h : s.numbered = true) (hk : k.dst ≠ s.modid.toNat) :
    s.answered t reason k = .next { s with outbox := s.outbox ++ [(hubOfDie k.sdie, t, k)] } := by
  simp [State.answered, h, hk]

theorem announces_sc : Packet.announces .sc k = true ↔ k.data.getD 0 0 = 0xFF := by
  simp only [Packet.announces, Bool.and_eq_true, beq_iff_eq, true_and]

/-- An SC packet that is not news for this module goes the way of every request. -/
theorem execFabricSc_request (h : k.data.getD 0 0 ≠ 0xFF ∨ s.numbered = false ∨ k.dst ≠ s.modid.toNat) :
    execFabricSc k s = s.ingress .sc k := by
  refine if_neg fun hn => ?_
  simp only [Bool.and_eq_true, announces_sc, decide_eq_true_eq] at hn
  obtain ⟨⟨hd, hs⟩, hk⟩ := hn
  obtain h | h | h := h
  · exact h hd
  · simp [h] at hs
  · exact h hk

theorem execFabricSc_unnumbered (h : s.numbered = false) : execFabricSc k s = .next s := by
  rw [execFabricSc_request (.inr (.inl h)), ingress_unnumbered _ h]

theorem execFabricSc_forwards (h : s.numbered = true) (hk : k.dst ≠ s.modid.toNat) :
    execFabricSc k s = .next { s with outbox := s.outbox ++ [(hubOfDie k.sdie, .sc, k)] } := by
  rw [execFabricSc_request (.inr (.inr hk)), ingress_forwards _ h hk]

/-- News for this module is heard as it comes (R335). -/
theorem execFabricSc_news (h : s.numbered = true) (hk : k.dst = s.modid.toNat) (hd : k.data.getD 0 0 = 0xFF) :
    execFabricSc k s = .next (s.hearSc k) := by
  refine if_pos ?_
  simp only [Bool.and_eq_true, announces_sc, decide_eq_true_eq]
  exact ⟨⟨hd, h⟩, hk⟩

end

/-! ### The next request of an empty lane (R351, R352) -/

/-- The request stands alone in its lane. -/
def State.queued (s : State) (t : PktType) (k : Packet) : State :=
  s.setLane (laneKey k) { s.laneAt (laneKey k) with waiting := [(t, k)] }

/-- The lane of a request expects the LSEQ behind it, and holds nothing. -/
def State.laneServed (s : State) (k : Packet) : State :=
  s.setLane (laneKey k) { s.laneAt (laneKey k) with next := (k.lseq + 1) % 4096, waiting := [] }

@[simp] theorem laneAt_queued (s : State) (t : PktType) (k : Packet) :
    (s.queued t k).laneAt (laneKey k) = { s.laneAt (laneKey k) with waiting := [(t, k)] } :=
  laneAt_setLane _ _ _

@[simp] theorem laneAt_laneServed (s : State) (k : Packet) :
    (s.laneServed k).laneAt (laneKey k) = { s.laneAt (laneKey k) with next := (k.lseq + 1) % 4096, waiting := [] } :=
  laneAt_setLane _ _ _

/-- An empty lane has nothing to serve. -/
theorem drainLane_empty {key : Nat} (f : Nat) {s : State} (h : (s.laneAt key).waiting = []) : State.drainLane key f s = s := by
  cases f with
  | zero => rfl
  | succ f => simp [State.drainLane, h]

/-- A request that is next in its empty lane, and that its home serves, leaves the lane at the next LSEQ. -/
theorem ingress_serves {s x : State} {t : PktType} {k : Packet} (hn : s.numbered = true) (hk : k.dst = s.modid.toNat)
    (hnext : (s.laneAt (laneKey k)).next = k.lseq) (hwait : (s.laneAt (laneKey k)).waiting = [])
    (hagain : (s.laneAt (laneKey k)).again = []) (hx : (s.queued t k).serve true t k = .done x) :
    s.ingress t k = .next (x.laneServed k) := by
  have hgo : s.ingress t k = .next (State.drainLane (laneKey k) 2 (s.queued t k)) := by
    simp [State.ingress, hn, hk, hwait, hagain, State.queued]
  have hdrain : State.drainLane (laneKey k) 2 (s.queued t k) = State.drainLane (laneKey k) 1 (x.laneServed k) := by
    rw [State.drainLane]
    simp [hnext, hx, State.laneServed]
  rw [hgo, hdrain, drainLane_empty 1 (by simp)]

end Sys2Proof.Machine
end

