-- ==== Sys2Proof/Proofs/FabricServices.lean ====
section
/-! What a request does at its home where no lease, lock or refusal holds it back (R318, R319, R335, R351, R352, R354, R425). -/

namespace Sys2Proof.Machine

/-- While LOST is set every lease counts as run out (R427). -/
theorem lost_of_leaseOver {s : State} {exp : Nat} (h : s.leaseOver exp = false) : s.lost = false :=
  (Bool.or_eq_false_iff.1 h).1

/-- The world of a packet's sender costs at most a draw (log 13). -/
theorem packetWorld_eq (s : State) (k : Packet) : ∃ n, (s.packetWorld k).1 = { s with draws := n } := by
  unfold State.packetWorld
  split
  · exact ⟨s.draws, rfl⟩
  · exact ⟨s.draws + 1, rfl⟩

@[simp] theorem packetWorld_announced (s : State) (k : Packet) : (s.packetWorld k).1.announced = s.announced := by
  obtain ⟨n, h⟩ := packetWorld_eq s k
  rw [h]

@[simp] theorem packetWorld_hostCompletes (s : State) (k : Packet) (o : Nat) (op : AtomOp) (ty : AType) :
    (s.packetWorld k).1.hostCompletes o op ty = s.hostCompletes o op ty := by
  obtain ⟨n, h⟩ := packetWorld_eq s k
  rw [h]
  rfl

/-! ### The data of packets (log 13) -/

/-- The operation, type, operand and compare value that the data of an atomic describe. -/
def dataOp (l : List Byte) : AtomOp := atomOpOf (l.getD 0 0).toNat
def dataType (l : List Byte) : AType := atypeOf (l.getD 1 0).toNat
def dataOperand (l : List Byte) : Nat := ofBytes ((l.drop 3).take 16)
def dataCompare (l : List Byte) : Nat := ofBytes ((l.drop 19).take 16)

/-- The slot that a SEND packet names. -/
def Packet.target (k : Packet) : Loc :=
  ⟨bits (word k.addr) 45 43, bits (word k.addr) 42 38, bits (word k.addr) 37 35, bits (word k.addr) 34 32⟩

/-- Word 0 of the element that a SEND packet from `l` leaves in q10. -/
def Packet.sendWord (k : Packet) (l : Loc) : Word :=
  word (k.src % 1024 * 2 ^ 54 + l.die % 8 * 2 ^ 51 + l.cluster % 32 * 2 ^ 46 + l.core % 8 * 2 ^ 43 + l.slot % 8 * 2 ^ 40 +
    bits (word k.addr) 31 24 * 2 ^ 32)

/-- The entry of sco that stands for an SC packet at its home. -/
def State.scEntry (s : State) (k : Packet) (pa : Nat) : ScAnn :=
  { scAnnOf s (ofBytes ((k.data.drop 30).take 8)) (scOpOf (k.data.getD 0 0).toNat) (if (k.data.getD 26 0).toNat = 0 then .device else .domain)
      (if (k.data.getD 1 0).toNat = 0 then .w else .d) 0 (word (ofBytes ((k.data.drop 2).take 8))) (word (ofBytes ((k.data.drop 10).take 8)))
      (word (ofBytes ((k.data.drop 18).take 8))) ⟨k.sdie, (k.data.getD 27 0).toNat, (k.data.getD 28 0).toNat, (k.data.getD 29 0).toNat⟩ with
    module := k.src, pa, known := true, asker := .packet k }

theorem scBytes_ofCode (b : Byte) : scBytes (if b.toNat = 0 then .w else .d) = if b = 0 then 4 else 8 := by
  have h : b.toNat = 0 ↔ b = 0 := BitVec.toNat_inj (y := (0 : Byte))
  simp only [h]
  split <;> rfl

/-! ### Accesses that write (R351, R354) -/

/-- A write, lock or atomic that its home does not refuse, and that no lock holds, is performed. -/
theorem serveWrite_performs {s : State} {w : State × Bool} {engine leased free : Bool} {exp pa n : Nat} (f : State → Served)
    (hlease : s.leaseOver exp = false) (hb : s.blockedAt pa n = false) (hr : w.1.writeRefused w.2 engine pa = none) :
    s.serveWrite w engine leased free exp pa n f = f w.1 := by
  simp [State.serveWrite, lost_of_leaseOver hlease, hlease, hr, hb]

section
variable {perform : State → Nat → Nat → (Nat → Option Nat) → State × Nat} {s : State} {w : State × Bool} {asker : ScFrom} {leased : Bool}
  {exp pa : Nat} {data : List Byte} (f : State → Bool → List Byte → State) (hlease : s.leaseOver exp = false)
  (hb : s.blockedAt pa (typeBytes (dataType data)) = false) (hr : w.1.writeRefused w.2 false pa = none) (hheld : data.getD 2 0 = 0)
include hlease hb hr hheld

/-- An atomic that is no held reduction, at a home other than the host window, is performed there, and what asked takes the old value. -/
theorem serveAtomic_here (hhost : isHost pa = false) :
    let r := perform w.1 pa (typeBytes (dataType data)) fun old => (dataOp data).apply (dataType data) old (dataOperand data) (dataCompare data)
    State.serveAtomic perform s w asker leased exp pa data f = .done (f r.1 false (bytesOf (typeBytes (dataType data)) r.2)) := by
  have hnot : (data.getD 2 0 != 0) = false := bne_eq_false_iff_eq.2 hheld
  rw [dataType] at hb
  simp only [State.serveAtomic, hnot]
  rw [serveWrite_performs _ hlease hb hr]
  unfold isHost at hhost
  cases hreg : regionOf (localOf pa) with
  | host h => simp [hreg] at hhost
  | hbm | lpddr | granary | loft | hub | reserved => rfl

/-- One on the host window, which the host completes, waits at its hub for the host link (R354). -/
theorem serveAtomic_host {h : Nat} (hhost : regionOf (localOf pa) = .host h)
    (hcap : w.1.hostCompletes (localOf pa) (dataOp data) (dataType data) = true) :
    State.serveAtomic perform s w asker leased exp pa data f =
      .done (w.1.setHub h { w.1.hub h with atomics := (w.1.hub h).atomics ++
        [{ loc := ⟨0, 0, 0, 0⟩, op := dataOp data, t := dataType data, ea := 0, pa, y := BitVec.ofNat 128 (dataOperand data),
           cmp := BitVec.ofNat 128 (dataCompare data), pend := 0, asker }] }) := by
  have hnot : (data.getD 2 0 != 0) = false := bne_eq_false_iff_eq.2 hheld
  rw [dataType] at hb
  simp only [State.serveAtomic, hnot]
  rw [serveWrite_performs _ hlease hb hr, hhost]
  exact if_neg (by simpa [dataOp, dataType] using hcap)

end

section
variable {s : State} {k : Packet} {pa : Nat} (hpa : s.paOf (k.addr % 2 ^ 46) = pa)

/-! ### Commits of other modules, and sends (R319, R425): they need no lease -/

section
variable (hlost : s.lost = false)
include hlost

theorem serve_send {u : Unit} (hu : s.sendTarget (Packet.target k) = some u) (hw : u.secure = (s.senderOf k).2.2)
    (hroom : s.roomFor (Packet.target k) u.launch 10 = true) :
    let r := s.senderOf k
    s.serve true .send k = .done ((r.1.deliver (Packet.target k) u.launch 10
      { bytes := bytesOfWords [Packet.sendWord k r.2.1, r.1.time] ++ k.data }).respond k .ack 0 []) := by
  simp only [Packet.target] at hu hroom
  simp [State.serve, State.serveSend, hlost, hu, hw, hroom, Packet.target, Packet.sendWord]

include hpa

theorem serve_perform : s.serve true .perform k = .done ((s.homeWrite pa k.data).respond k .ack 0 []) := by
  simp only [State.serve, hlost, hpa]
  rfl

theorem serve_unlock (ha : k.addr % 4 = 0) :
    s.serve true .unlock k =
      .done { s with remoteLocks := s.remoteLocks.filter fun r => r ≠ (alignDown pa 4, k.src, k.sdie) } := by
  simp only [State.serve, hlost, ha, hpa]
  rfl

end

/-! ### Requests under a lease (R73) -/

variable (hlease : s.leaseOver k.exp = false)
include hpa hlease

theorem serve_read {l : List Byte} (hb : s.blockedAt pa (k.data.getD 0 0).toNat = false)
    (hr : State.homeRead { (s.packetWorld k).1 with locks := [], remoteLocks := [] } (s.packetWorld k).2 pa (k.data.getD 0 0).toNat =
      .bytes l) : s.serve true .read k = .done ((s.packetWorld k).1.respond k .data 0 l) := by
  simp only [State.serve, State.serveRead, lost_of_leaseOver hlease, hlease, hpa, hr, hb]
  rfl

theorem serve_sc (hr : (s.packetWorld k).1.scRefused (s.packetWorld k).2 (scOpOf (k.data.getD 0 0).toNat) pa
      (if k.data.getD 1 0 = 0 then 4 else 8) = none) :
    s.serve true .sc k = .done { (s.packetWorld k).1 with announced :=
      (s.announced.filter fun x => !(x.isOf k (ofBytes ((k.data.drop 30).take 8)) && x.asker == .announced)) ++
        [(s.packetWorld k).1.scEntry k pa] } := by
  rw [← scBytes_ofCode] at hr
  simp only [State.serve, State.serveSc, lost_of_leaseOver hlease, hlease, hpa, hr, packetWorld_announced]
  rfl

theorem serve_write (hb : s.blockedAt pa k.data.length = false)
    (hr : (s.packetWorld k).1.writeRefused (s.packetWorld k).2 true pa = none) :
    s.serve true .write k = .done (((s.packetWorld k).1.homeWrite pa k.data).respond k .ack 0 []) := by
  simp only [State.serve, hpa]
  exact serveWrite_performs _ hlease hb hr

variable (hr : (s.packetWorld k).1.writeRefused (s.packetWorld k).2 false pa = none)
include hr

theorem serve_lock (hhost : isHost pa = false) (hb : s.blockedAt pa 4 = false) :
    s.serve true .lock k = .done (((s.packetWorld k).1.takeRemote (k.src, k.sdie) (alignDown pa 4)).respond k .ack 0 []) := by
  simp only [State.serve, State.serveLock, hpa]
  rw [serveWrite_performs _ hlease hb hr, hhost]
  rfl

variable (hheld : k.data.getD 2 0 = 0) (hb : s.blockedAt pa (typeBytes (dataType k.data)) = false)
include hheld hb

theorem serve_atomic (hhost : isHost pa = false) :
    let r := (s.packetWorld k).1.farAtomic pa (typeBytes (dataType k.data))
      fun old => (dataOp k.data).apply (dataType k.data) old (dataOperand k.data) (dataCompare k.data)
    s.serve true .atomic k = .done (r.1.respond k .data 0 (bytesOf (typeBytes (dataType k.data)) r.2)) := by
  simp only [State.serve, hpa]
  exact serveAtomic_here _ hlease hb hr hheld hhost

theorem serve_atomic_host {h : Nat} (hhost : regionOf (localOf pa) = .host h)
    (hcap : s.hostCompletes (localOf pa) (dataOp k.data) (dataType k.data) = true) :
    let x := (s.packetWorld k).1
    s.serve true .atomic k = .done (x.setHub h { x.hub h with atomics := (x.hub h).atomics ++
      [{ loc := ⟨0, 0, 0, 0⟩, op := dataOp k.data, t := dataType k.data, ea := 0, pa, y := BitVec.ofNat 128 (dataOperand k.data),
         cmp := BitVec.ofNat 128 (dataCompare k.data), pend := 0, asker := .packet k }] }) := by
  simp only [State.serve, hpa]
  exact serveAtomic_host _ hlease hb hr hheld hhost (by rw [packetWorld_hostCompletes, hcap])

end

end Sys2Proof.Machine
end

