-- ==== Sys2Proof/Proofs/FabricLinks.lean ====
section
/-! What news of the SC order, answers, flits and beacons do on their arrival (R335, R352, R420, R421, R427), and how beacons and timed sends
leave (R425, R427). -/

namespace Sys2Proof.Machine

section
variable {s : State} {k : Packet}

/-! ### News of an SC operation (R335) -/

/-- The entry that stands for an announced operation until its request comes (log 13). -/
def State.newsEntry (s : State) (k : Packet) : ScAnn :=
  { scAnnOf s (ofBytes ((k.data.drop 21).take 8)) .ld .domain .w 0 0 0 (word (ofBytes ((k.data.drop 10).take 8) * scWindow .domain))
      ⟨k.sdie, (k.data.getD 18 0).toNat, (k.data.getD 19 0).toNat, (k.data.getD 20 0).toNat⟩ with module := k.src, asker := .announced }

/-- A window whose start is a TIME is the one that its entry names. -/
theorem newsEntry_window (h : ofBytes ((k.data.drop 10).take 8) < 2 ^ 56) :
    (s.newsEntry k).window = ofBytes ((k.data.drop 10).take 8) := by
  simp only [State.newsEntry, scAnnOf, scWindow, word, BitVec.toNat_ofNat]
  omega

theorem newsEntry_ready (h : ofBytes ((k.data.drop 10).take 8) < 2 ^ 56) :
    (s.newsEntry k).ready = (ofBytes ((k.data.drop 10).take 8) + 1) * 256 + 1000 :=
  congrArg (fun n => (n + 1) * 256 + 1000) (newsEntry_window (s := s) h)

/-- The first news of an operation, before its time, opens an entry. -/
theorem hearSc_opens (hkind : k.data.getD 1 0 = 0) (hnew : (s.announced.any fun x => x.isOf k (ofBytes ((k.data.drop 21).take 8))) = false)
    (htime : s.time.toNat < (s.newsEntry k).ready) : s.hearSc k = { s with announced := s.announced ++ [s.newsEntry k] } := by
  have hlate : decide ((s.newsEntry k).ready ≤ s.time.toNat) = false := decide_eq_false (Nat.not_le.2 htime)
  rw [State.newsEntry] at hlate
  simp only [State.hearSc, hkind, hnew, hlate]
  rfl

/-! ### Answers (R352, R426) -/

variable {r : Remote} (hn : s.numbered = true) (hk : k.dst = s.modid.toNat) (hr : (s.remotes.find? fun r => r.answers k) = some r)
include hn hk hr

/-- The answer is kept for the issuer of a request that waits; any but a refusal ends a row of stale ones (R74). -/
theorem answered_keeps (t : PktType) (reason : Nat) (hsend : r.typ ≠ .send) (hdrop : r.dropped = false) (hfill : r.fill = none) :
    let kept : State := { s with remotes := s.remotes.map fun x => if x = r then { x with answer := some (t, reason, k.data) } else x }
    s.answered t reason k = .next (if t = .refuse then kept else kept.freshOnce r.loc r.va) := by
  simp [State.answered, hn, hk, hr, hsend, hdrop, hfill]

theorem answered_send (hsend : r.typ = .send) : s.answered .ack 0 k = .next (s.sendAccepted r) := by
  simp [State.answered, hn, hk, hr, hsend]

end

/-! ### Flits (R420, R421) -/

section
variable {s : State} {port : Nat} {raw : List Byte}

@[simp] theorem exec_flitReceive (port : Nat) (raw : List Byte) (s : State) : exec (.flitReceive port raw) s = execFlitReceive port raw s := rfl

theorem execFlitReceive_unnumbered (h : s.numbered = false) : execFlitReceive port raw s = .next s := by
  simp [execFlitReceive, h]

theorem execFlitReceive_rejects (h : s.numbered = true) (ha : (s.port port).accepts (flitOf raw) = false) :
    execFlitReceive port raw s = .next (s.setPort port { s.port port with sendNak := true }) := by
  simp [execFlitReceive, h, ha]

theorem execFlitReceive_accepts (h : s.numbered = true) (ha : (s.port port).accepts (flitOf raw) = true)
    (hreplays : (((s.port port).heard (flitOf raw)).join (flitOf raw)).replays < 8) :
    execFlitReceive port raw s = .next (s.setPort port (((s.port port).heard (flitOf raw)).join (flitOf raw))) := by
  simp [execFlitReceive, h, ha, Nat.not_le.2 hreplays]

/-- A flit without a NAK tells a port that waits for no acknowledgement only what the other side stops. -/
theorem heard_idle {p : Port} (f : Flit) (hu : p.unacked = []) (hr : p.replays = 0) (hnak : f.nak = false) :
    p.heard f = { p with stopped := f.stop, down := false } := by
  simp [Port.heard, hu, hr, hnak]

/-- A flit that is a whole packet joins the packets of its lane. -/
theorem join_packet (p : Port) {f : Flit} (hnul : f.nul = false) (hsop : f.sop = true) (heop : f.eop = true) :
    p.join f = Port.restop { p with
      next := (p.next + 1) % 4096, acked := f.seq, sendNak := false
      partials := p.partials.filter (fun x => x.1 ≠ f.vl), packets := p.packets ++ [(f.vl, f.pay)] } := by
  simp [Port.join, hnul, hsop, heop]

theorem accepts_badCrc (p : Port) {f : Flit} (h : f.crcGood = false) : p.accepts f = false := by
  simp [Port.accepts, h]

theorem accepts_next {p : Port} {f : Flit} (hcrc : f.crcGood = true) (hseq : f.seq = p.next) (hroom : p.buffered f.vl < 512) :
    p.accepts f = true := by
  simp [Port.accepts, hcrc, hseq, hroom]

end

/-! ### Beacons that arrive (R427) -/

section
variable {s : State} {port : Nat} {k : Packet}

@[simp] theorem exec_fabricBeacon (port : Nat) (k : Packet) (s : State) : exec (.fabricBeacon port k) s = execFabricBeacon port k s := rfl

theorem execFabricBeacon_unnumbered (h : s.numbered = false) : execFabricBeacon port k s = .next s := by
  simp [execFabricBeacon, h]

theorem execFabricBeacon_forwards (h : s.numbered = true) (hk : k.dst ≠ s.modid.toNat) :
    execFabricBeacon port k s = .next { s with outbox := s.outbox ++ [(hubOfDie k.sdie, .beacon, k)] } := by
  simp [execFabricBeacon, h, hk]

variable (hn : s.numbered = true) (hk : k.dst = s.modid.toNat) (hen : (s.hub (port / 9)).en = true) (hup : (s.hub (port / 9)).up = port)
include hn hk hen hup

/-- A good beacon from the UP port sets TIME, and the second in a row clears LOST. -/
theorem execFabricBeacon_good (hlow : 1 ≤ (k.data.getD 8 0).toNat) (hhigh : (k.data.getD 8 0).toNat ≤ 8) :
    let time := word (ofBytes (k.data.take 8)) + word (s.port port).delay
    let t : State := { s with time, beaconAt := time, hops := (k.data.getD 8 0).toNat, beacons := s.beacons + 1 }
    execFabricBeacon port k s = .next (if 1 ≤ s.beacons then t.setLost false else t) := by
  have hgood : (decide ((k.data.getD 8 0).toNat = 0) || decide (8 < (k.data.getD 8 0).toNat)) = false := by
    simp only [Bool.or_eq_false_iff, decide_eq_false_iff_not]
    omega
  simp only [execFabricBeacon, hgood]
  simp [hn, hk, hen, hup]

/-- One whose hop count is out of range ends a row of good ones. -/
theorem execFabricBeacon_bad (h : (k.data.getD 8 0).toNat = 0 ∨ 8 < (k.data.getD 8 0).toNat) :
    execFabricBeacon port k s = .next { s with beacons := 0 } := by
  have hbad : (decide ((k.data.getD 8 0).toNat = 0) || decide (8 < (k.data.getD 8 0).toNat)) = true := by
    simpa only [Bool.or_eq_true, decide_eq_true_eq] using h
  simp only [execFabricBeacon, hbad]
  simp [hn, hk, hen, hup]

end

/-! ### Beacons that leave (R427) -/

theorem sendBeacons_silent {s : State} {hub : Nat} (h : (s.hub hub).en = false ∨ s.numbered = false) : s.sendBeacons hub = s := by
  obtain h | h := h <;> simp [State.sendBeacons, h]

/-- The beacon of a hub for the module that a port leads to, with a hop count (R427). -/
def State.beaconOf (s : State) (hub hop p : Nat) : Packet :=
  { dst := (Config.portModule p).toNat, src := s.modid.toNat, sdie := 6 + hub, lseq := 0, exp := 0, addr := 0
    data := bytesOf 8 s.time.toNat ++ bytesOf 8 hop }

/-- A beacon sent by a port that takes it and is not UP. -/
def sendBeacon (up : Nat) (k : Nat → Packet) (t : State) (p : Nat) : State :=
  if p = up || !(t.port p).takes 4 then t else t.setPort p ((t.port p).push .beacon (k p))

theorem port_sendBeacon_other (up : Nat) (k : Nat → Packet) (t : State) {p q : Nat} (h : q ≠ p) : (sendBeacon up k t p).port q = t.port q := by
  unfold sendBeacon
  split
  · rfl
  · exact port_setPort_other t _ h

theorem port_sendBeacon_same {up : Nat} (k : Nat → Packet) {t : State} {p : Nat} (hup : p ≠ up) (ht : (t.port p).takes 4 = true) :
    (sendBeacon up k t p).port p = (t.port p).push .beacon (k p) := by
  simp [sendBeacon, hup, ht]

theorem port_foldl_sendBeacon_other (up : Nat) (k : Nat → Packet) {q : Nat} {ps : List Nat} (hq : q ∉ ps) (s : State) :
    (ps.foldl (sendBeacon up k) s).port q = s.port q := by
  induction ps generalizing s with
  | nil => rfl
  | cons p ps ih =>
    rw [List.mem_cons, not_or] at hq
    rw [List.foldl_cons, ih hq.2, port_sendBeacon_other up k s hq.1]

/-- Each port that is named once has sent its own beacon at the end. -/
theorem port_foldl_sendBeacon {up : Nat} (k : Nat → Packet) {q : Nat} {ps : List Nat} (hn : ps.Nodup) (hq : q ∈ ps) {s : State}
    (hup : q ≠ up) (ht : (s.port q).takes 4 = true) : (ps.foldl (sendBeacon up k) s).port q = (s.port q).push .beacon (k q) := by
  induction ps generalizing s with
  | nil => cases hq
  | cons p ps ih =>
    obtain ⟨hp, hn⟩ := List.nodup_cons.1 hn
    rw [List.foldl_cons]
    obtain rfl | hmem := List.mem_cons.1 hq
    · rw [port_foldl_sendBeacon_other up k hp, port_sendBeacon_same k hup ht]
    · have hne : q ≠ p := ne_of_mem_of_not_mem hmem hp
      have hsame := port_sendBeacon_other up k s hne
      rw [ih hn hmem (hsame ▸ ht), hsame]

/-- The master sends its TIME with hop count 1 on every port that takes it. -/
theorem sendBeacons_master {s : State} {hub i : Nat} (hn : s.numbered = true) (hen : (s.hub hub).en = true) (hup : (s.hub hub).up = 31)
    (hhub : hub < 2) (hi : i < 9) (ht : (s.port (9 * hub + i)).takes 4 = true) :
    (s.sendBeacons hub).port (9 * hub + i) = (s.port (9 * hub + i)).push .beacon (s.beaconOf hub 1 (9 * hub + i)) := by
  have hsends : s.sendBeacons hub = ((upTo 9).map fun i => 9 * hub + i).foldl (sendBeacon 31 (s.beaconOf hub 1)) s := by
    simp only [State.sendBeacons, hn, hen, hup]
    rfl
  have hports : ((upTo 9).map fun i => 9 * hub + i).Nodup := List.nodup_range.map fun _ _ h => Nat.add_left_cancel h
  rw [hsends]
  exact port_foldl_sendBeacon _ hports (List.mem_map.2 ⟨i, List.mem_range.2 hi, rfl⟩) (by omega) ht

theorem execBeaconLost_alone {s : State} {hub : Nat} (hhub : hub ∈ upTo 2) (hen : (s.hub hub).en = true) (hup : (s.hub hub).up ≠ 31)
    (ht : s.beaconAt.toNat + 8000 ≤ s.time.toNat) : execBeaconLost s = .next (State.setLost { s with beacons := 0 } true) := by
  have htakes : ((upTo 2).any fun h => (s.hub h).en && (s.hub h).up != 31) = true :=
    List.any_eq_true.2 ⟨hub, hhub, by simp [hen, hup]⟩
  simp only [execBeaconLost, htakes, ht]
  rfl

/-! ### Timed sends (R425) -/

theorem insertTimed_perm (now : Nat) (e : List Byte × Issuer) (l : List (List Byte × Issuer)) : (insertTimed now e l).Perm (e :: l) := by
  induction l with
  | nil => exact .refl _
  | cons x l ih =>
    rw [insertTimed]
    split
    · exact .refl _
    · exact (ih.cons x).trans (.swap e x l)

theorem insertTimed_sorted {now : Nat} (e : List Byte × Issuer) {l : List (List Byte × Issuer)}
    (h : l.Pairwise fun x y => egressTime now x ≤ egressTime now y) :
    (insertTimed now e l).Pairwise fun x y => egressTime now x ≤ egressTime now y := by
  induction l with
  | nil => exact List.pairwise_singleton _ e
  | cons x l ih =>
    obtain ⟨hx, hl⟩ := List.pairwise_cons.1 h
    rw [insertTimed]
    split
    next hlt =>
      refine List.pairwise_cons.2 ⟨fun y hy => ?_, h⟩
      obtain rfl | hy := List.mem_cons.1 hy
      · exact hlt.le
      · exact hlt.le.trans (hx y hy)
    next hge =>
      refine List.pairwise_cons.2 ⟨fun y hy => ?_, ih hl⟩
      obtain rfl | hy := List.mem_cons.1 ((insertTimed_perm now e l).mem_iff.1 hy)
      · exact Nat.not_lt.1 hge
      · exact hx y hy

/-- Sends by T: each put among those before it. -/
def sortTimed (now : Nat) (l : List (List Byte × Issuer)) : List (List Byte × Issuer) := l.foldl (fun l e => insertTimed now e l) []

theorem foldl_insertTimed (now : Nat) (es : List (List Byte × Issuer)) {l : List (List Byte × Issuer)}
    (h : l.Pairwise fun x y => egressTime now x ≤ egressTime now y) :
    (es.foldl (fun l e => insertTimed now e l) l).Perm (es ++ l) ∧
      (es.foldl (fun l e => insertTimed now e l) l).Pairwise fun x y => egressTime now x ≤ egressTime now y := by
  induction es generalizing l with
  | nil => exact ⟨.refl _, h⟩
  | cons e es ih =>
    obtain ⟨hp, hs⟩ := ih (insertTimed_sorted e h)
    exact ⟨hp.trans (((insertTimed_perm now e l).append_left es).trans List.perm_middle), hs⟩

theorem sortTimed_perm (now : Nat) (es : List (List Byte × Issuer)) : (sortTimed now es).Perm es := by
  simpa [sortTimed] using (foldl_insertTimed now es .nil).1

theorem sortTimed_sorted (now : Nat) (es : List (List Byte × Issuer)) :
    (sortTimed now es).Pairwise fun x y => egressTime now x ≤ egressTime now y :=
  (foldl_insertTimed now es .nil).2

end Sys2Proof.Machine
end

