-- ==== Sys2Proof/Proofs/FabricRequests.lean ====
section
open Sys2Proof Sys2Proof.Machine

/-- Settles O58: each request by what serving it answers at its home, which the lane then leaves behind; answers, flits, beacons and timed
sends by the equations of their operations. -/
theorem fabricRequestsBeaconsAndTimedSends : Obligations.FabricRequestsBeaconsAndTimedSends := by
  unfold Obligations.FabricRequestsBeaconsAndTimedSends
  refine ⟨?packets, ?timed⟩
  case packets =>
    intro s k port raw key lane pa v w after n f
    refine ⟨?unnumbered, ?forwarded, ?requests, ?news, ?answers, ?badFlit, ?goodFlit, ?beacon⟩
    case unnumbered =>
      intro i hi h
      simp only [List.mem_cons, List.not_mem_nil, or_false] at hi
      obtain rfl | rfl | rfl | rfl | rfl | rfl | rfl | rfl | rfl | rfl | rfl | rfl | rfl := hi
      all_goals simp [ingress_unnumbered, execFabricSc_unnumbered, answered_unnumbered, execFabricBeacon_unnumbered,
        execFlitReceive_unnumbered, h]
    case forwarded =>
      intro i t hi h hk
      simp only [List.mem_cons, List.not_mem_nil, or_false, Prod.mk.injEq] at hi
      obtain ⟨rfl, rfl⟩ | ⟨rfl, rfl⟩ | ⟨rfl, rfl⟩ | ⟨rfl, rfl⟩ | ⟨rfl, rfl⟩ | ⟨rfl, rfl⟩ | ⟨rfl, rfl⟩ | ⟨rfl, rfl⟩ | ⟨rfl, rfl⟩ |
        ⟨rfl, rfl⟩ | ⟨rfl, rfl⟩ | ⟨rfl, rfl⟩ := hi
      all_goals simp [ingress_forwards, execFabricSc_forwards, answered_forwards, execFabricBeacon_forwards, h, hk]
    case requests =>
      intro hn hk hnext hwait hagain
      have served {t : PktType} {x : State} (hx : (v t).serve true t k = .done x) : s.ingress t k = .next (after x) :=
        ingress_serves hn hk hnext hwait hagain hx
      refine ⟨?read, ?write, ?lock, ?perform, ?unlock, ?atomic, ?sc, ?send⟩
      case read =>
        intro l m hlease hb hr
        exact served (serve_read rfl hlease hb hr)
      case write =>
        intro hlease hb hr
        exact served (serve_write rfl hlease hb hr)
      case lock =>
        intro hhost hlease hb hr
        exact served (serve_lock rfl hlease hr hhost hb)
      case perform =>
        intro hlost
        exact served (serve_perform rfl hlost)
      case unlock =>
        intro hlost ha
        exact served (serve_unlock rfl hlost ha)
      case atomic =>
        intro op ty y cmp hheld hlease hb hr
        refine ⟨fun hhost => ?_, fun h hhost hcap => ?_⟩
        · exact served (serve_atomic rfl hlease hr hheld hb hhost)
        · exact served (serve_atomic_host rfl hlease hr hheld hb hhost hcap)
      case sc =>
        intro hdata hlease hr
        exact ⟨(w .sc).1.scEntry k pa, (execFabricSc_request (.inl hdata)).trans (served (serve_sc rfl hlease hr)),
          rfl, rfl, rfl, rfl, rfl, rfl, rfl⟩
      case send =>
        intro u l r hu hlost hw hroom
        exact served (serve_send (s := v .send) hlost hu hw hroom)
    case news =>
      intro hn hk hdata
      refine ⟨execFabricSc_news hn hk hdata, fun hkind hnew hsmall htime => ?_⟩
      refine ⟨s.newsEntry k, hearSc_opens hkind hnew ?_, rfl, rfl, rfl, rfl, newsEntry_window hsmall, rfl⟩
      rw [newsEntry_ready hsmall]
      exact htime
    case answers =>
      intro r hn hk hr
      refine ⟨fun hsend hdrop hfill => ⟨?_, ?_, ?_⟩, fun hsend => answered_send hn hk hr hsend⟩
      · exact answered_keeps hn hk hr .data 0 hsend hdrop hfill
      · exact answered_keeps hn hk hr .ack 0 hsend hdrop hfill
      · exact answered_keeps hn hk hr .refuse _ hsend hdrop hfill
    case badFlit =>
      intro hn hcrc
      exact execFlitReceive_rejects hn (accepts_badCrc _ hcrc)
    case goodFlit =>
      intro p hn hcrc hu hreplays hnak hnul hsop heop hseq hroom
      have hjoin := join_packet (p.heard f) hnul hsop heop
      rw [heard_idle f hu hreplays hnak] at hjoin
      refine (execFlitReceive_accepts hn (accepts_next hcrc hseq hroom) ?_).trans ?_
      · rw [heard_idle f hu hreplays hnak, hjoin]
        exact hreplays.trans_lt (by decide)
      · rw [heard_idle f hu hreplays hnak, hjoin]
    case beacon =>
      intro h hop time t hn hk hen hup
      exact ⟨execFabricBeacon_good hn hk hen hup, execFabricBeacon_bad hn hk hen hup⟩
  case timed =>
    intro s die d now due
    refine ⟨⟨sortTimed now (d.egress.filter due), rfl, sortTimed_perm now _, sortTimed_sorted now _⟩, rfl, ?beacons, ?lost⟩
    case beacons =>
      intro hub hhub
      refine ⟨sendBeacons_silent, fun hn hen hup i hi ht => ?_⟩
      exact sendBeacons_master hn hen hup (List.mem_range.1 hhub) (List.mem_range.1 hi) ht
    case lost =>
      intro hub hhub hen hup ht
      exact execBeaconLost_alone hhub hen hup ht

end

