-- ==== Sys2Proof/Proofs/CommittingInstructions.lean ====
section
/-! Instructions that commit their task and act once the commit has ended: the rule that they share, and the operands that pass their
checks (R183, R224, R227, R338). -/

namespace Sys2Proof.Machine

/-! ### Checks at issue (R41, R394) -/

@[simp] theorem touches_nil (s : State) : s.touches [] = false := by
  simp [State.touches, Unit.touches]

/-- A number below 2^lo has no bit from lo on. -/
theorem bits_eq_zero_of_lt {n : Nat} {x : BitVec n} {lo : Nat} (h : x.toNat < 2 ^ lo) (hi : Nat) : bits x hi lo = 0 := by
  simp [bits, Nat.div_eq_of_lt h]

/-- User code may not issue an instruction of supervisor code (R394). -/
theorem issue_privilege {s : State} {n : Need} (hn : n.sup = true) (hs : tsrSup s.cur.tsr = false) (k : State → Out) :
    s.issue n k = s.raise (s.bundleTrap .privilege) :=
  issue_trap _ _ _ _ (by simp [State.trapOf, hn, hs])

/-- An instruction that commits, and that nothing stops, acts in the state in which its commit has ended. -/
theorem issue_commits {s t : State} {n : Need} {c : Cont} {lone : Bool} (hc : s.CommitsTo c lone t) (hp : tsrPp s.cur.tsr = false)
    (hs : n.sup = false) (ho : n.ok = true) (ht : s.touches n.touch = false) (ha : n.addr = []) (hl : n.live = false) (k : State → Out) :
    (s.issue n fun v => v.withCommit c lone k) = k t := by
  rw [issue_clear s n _ hp (by simp [hs]) ho ht (by simp [ha]) hl, withCommit_ended hc]

/-! ### Operands (R183, R224, R227) -/

theorem stampOk_of_le {u : Unit} {x : Word} (h : x.toNat < 2 ^ 32) (hts : u.task.tstamp.toNat ≤ x.toNat) : u.stampOk x = true := by
  simp [Unit.stampOk, bits_eq_zero_of_lt h, hts]

theorem maskOk_of_lt {m : Word} (h0 : m.getLsbD 0 = false) (h : m.toNat < 2 ^ 62) : maskOk m = true := by
  simp only [maskOk, h0, bits_eq_zero_of_lt h]
  rfl

/-- A number of at most four bits. -/
theorem bits_nibble {x : Word} (h : x.toNat ≤ 15) : bits x 63 4 = 0 := bits_eq_zero_of_lt (Nat.lt_succ_of_le h) 63

/-! ### Each instruction after its commit -/

section
variable {s t : State} (hp : tsrPp s.cur.tsr = false)
include hp

theorem exec_tcommit (h : s.CommitsTo .tcommit false t) : exec .tcommit s = .next (t.afterC id) :=
  issue_commits h hp rfl rfl (touches_nil s) rfl rfl _

theorem exec_fence {e i : Bool} {x : Instr} (hx : exec x s = s.fence e i) (h : s.CommitsTo (.fence e i) false t) :
    exec x s = t.fenceAct e i :=
  hx.trans (issue_commits h hp rfl rfl (touches_nil s) rfl rfl _)

theorem exec_tbegin {a b : SReg} (ht : s.touches (s.cur.keysS [a, b]) = false) (hs : s.cur.stampOk (s.cur.getS a) = true)
    (hm : maskOk (s.cur.getS b) = true) (h : s.CommitsTo (.tbegin ((s.cur.getS a).truncate 32) (s.cur.getS b)) false t) :
    exec (.tbegin a b) s = .next (t.afterC id) :=
  issue_commits h hp rfl (by simp [hs, hm]) ht rfl rfl _

theorem exec_atTimeC {a : SReg} (ht : s.touches [s.cur.keyS a] = false) (h : s.CommitsTo (.atC (s.cur.getS a)) false t) :
    exec (.atTimeC a) s = t.atcDone :=
  issue_commits h hp rfl rfl ht rfl rfl _

theorem exec_gang_one {a : SReg} (ht : s.touches [s.cur.keyS a] = false) (ha : s.cur.getS a = 1) (hg : s.cur.gang = 1)
    (h : s.CommitsTo (.gang 1) false t) : exec (.gang a) s = t.gangAct 1 := by
  have hx : exec (.gang a) s = execGang a s := rfl
  rw [hx, execGang, ha]
  exact issue_commits h hp rfl (by simp [hg]) ht rfl rfl _

theorem exec_lrng {a b : SReg} (ht : s.touches (s.cur.keysS [a, b]) = false) (ha : (s.cur.getS a).toNat ≤ 7)
    (hr : rangeOk (s.cur.getS b) = true) (h : s.CommitsTo (.lrng (s.cur.getS a).toNat (s.cur.getS b)) false t) :
    exec (.lrng a b) s = t.lrngAct (s.cur.getS a).toNat (s.cur.getS b) :=
  issue_commits h hp rfl (by simp [ha, hr]) ht rfl rfl _

theorem exec_lhz {domain : Bool} {d a : SReg} {x : Instr} (hx : exec x s = s.lhz domain d a)
    (ht : s.touches (s.cur.keysS [d, a]) = false) (hd : s.cur.namedS d = false) (ha : (s.cur.getS a).toNat ≤ 15)
    (h : s.CommitsTo (.lhz domain d (s.cur.getS a).toNat) false t) : exec x s = t.lhzAct domain d (s.cur.getS a).toNat :=
  hx.trans (issue_commits h hp rfl (by simp [bits_nibble ha]) ht rfl hd _)

theorem exec_lbank {d a b : SReg} (ht : s.touches (s.cur.keysS [d, a, b]) = false) (hd : s.cur.namedS d = false)
    (ha : (s.cur.getS a).toNat ≤ 13) (hl : s.cur.lbm.getLsbD (s.cur.getS a).toNat = true)
    (hr : configRefused (configClean (s.cur.getS b)) = false)
    (h : s.CommitsTo (.lbank d (s.cur.getS a).toNat (configClean (s.cur.getS b))) false t) :
    exec (.lbank d a b) s = t.lbankAct d (s.cur.getS a).toNat (configClean (s.cur.getS b)) :=
  issue_commits h hp rfl (by simp [ha, hl, hr]) ht rfl hd _

theorem exec_bar {a b : SReg} (ht : s.touches (s.cur.keysS [a, b]) = false) (ha : (s.cur.getS a).toNat ≤ 15)
    (hb : 1 ≤ (s.cur.getS b).toNat) (hb' : (s.cur.getS b).toNat ≤ 65535)
    (h : s.CommitsTo (.bar (s.cur.getS a).toNat (s.cur.getS b).toNat) false t) :
    exec (.bar a b) s = t.barAct (s.cur.getS a).toNat (s.cur.getS b).toNat := by
  have hne : s.cur.getS b ≠ 0#64 := fun h0 => by simp [h0] at hb
  exact issue_commits h hp rfl (by simp [bits_nibble ha, hne, hb']) ht rfl rfl _

theorem exec_split : exec .split s = .next (s.afterC fun u => { u with splitAt := if u.gang = 1 then none else some u.pc }) := by
  have hx : exec .split s = execSplit s := rfl
  rw [hx, execSplit, issue_clear s {} _ hp nofun rfl (touches_nil s) rfl rfl]
  rfl

end

/-! ### What follows a commit -/

/-- A gang of width 1 goes on alone, and its task restarts at the A-slot of the `gang` (R222, R224). -/
theorem gangAct_one (t : State) :
    t.gangAct 1 = .next (t.afterC fun u => { u with task := { u.task with restartPc := u.pc, restartA := true } }) := rfl

/-- Two writes of one range register stand in the order of their commits (R183). -/
theorem lrngAct_latest {t : State} {g : Nat} (w : Word)
    (h : ((Sparse.find? t.curCluster.ranges g).map fun r => r.order).getD 0 ≤ t.cur.visibleAt) :
    t.lrngAct g w = .next ((t.setCurCluster { t.curCluster with
      ranges := Sparse.put t.curCluster.ranges g { word := w, job := t.cur.job, misses := 0, order := t.cur.visibleAt } }).afterC id) := by
  simp only [State.lrngAct, if_neg (Nat.not_lt.2 h)]
  rfl

theorem lrngAct_earlier {t : State} {g : Nat} (w : Word)
    (h : t.cur.visibleAt < ((Sparse.find? t.curCluster.ranges g).map fun r => r.order).getD 0) : t.lrngAct g w = .next (t.afterC id) := by
  simp only [State.lrngAct, if_pos h]
  rfl

theorem lhzAct_module (t : State) (d : SReg) (lt : Nat) : t.lhzAct false d lt =
    .next (t.afterC fun u => u.setS d (t.time + word (leaseOf lt + 2 * Config.epsModule))) := by
  rw [State.lhzAct, horizon, if_neg Bool.false_ne_true]
  rfl

theorem lhzAct_domain (t : State) (d : SReg) (lt : Nat) : t.lhzAct true d lt =
    .next (t.afterC fun u => u.setS d (t.time + word (leaseOf lt + 2 * Config.epsDomain + Config.fabricDrain))) := by
  rw [State.lhzAct, horizon, if_pos rfl, ← Nat.add_assoc]
  rfl

/-- A fence with E whose released commands have all reported. -/
theorem fenceAct_reported {t : State} (h : t.cur.reported = true) (i : Bool) :
    t.fenceAct true i = (t.setCurCluster t.curCluster.applyClears).fenceEnd i := by
  simp [State.fenceAct, State.fencePoll, h]

theorem fenceAct_unreported {t : State} (h : t.cur.reported = false) (i : Bool) :
    t.fenceAct true i = .next (t.modCur fun u => { u with wait := .fenceE i, turn := .waited }) := by
  simp [State.fenceAct, State.fencePoll, h, State.wait, State.waitTurn, State.modCur]

end Sys2Proof.Machine

open Sys2Proof Sys2Proof.Machine

/-- Settles O21: each instruction reaches its commit, and what follows the commit is its own operation in the state in which it ended. -/
theorem committingInstructionsMoveOn : Obligations.CommittingInstructionsMoveOn := by
  unfold Obligations.CommittingInstructionsMoveOn
  intro s t d a b hp x y
  refine ⟨exec_tcommit hp, ?tbegin, ?timed, exec_split hp, ?lrng, ?lhz, ?fences⟩
  case tbegin =>
    intro ht hx hts hy0 hy h
    exact exec_tbegin hp ht (stampOk_of_le hx hts) (maskOk_of_lt hy0 hy) h
  case timed =>
    intro ht
    exact ⟨exec_atTimeC hp ht, fun hx hg h => (exec_gang_one hp ht hx hg h).trans (gangAct_one t)⟩
  case lrng =>
    intro ht hx hy h later reg
    have hx' := exec_lrng hp ht hx hy h
    exact ⟨fun hl => hx'.trans (lrngAct_latest y hl), fun hl => hx'.trans (lrngAct_earlier y hl)⟩
  case lhz =>
    intro ht hd hx
    exact ⟨fun h => (exec_lhz hp rfl ht hd hx h).trans (lhzAct_module t d _),
      fun h => (exec_lhz hp rfl ht hd hx h).trans (lhzAct_domain t d _)⟩
  case fences =>
    intro far eng run
    refine ⟨exec_fence hp rfl, exec_fence hp rfl, fun h => ⟨fun hr => ?_, fun hr => ?_⟩, fun h => ⟨fun hr => ?_, fun hr => ?_⟩⟩
    · exact (exec_fence hp rfl h).trans (fenceAct_reported hr false)
    · exact (exec_fence hp rfl h).trans (fenceAct_unreported hr false)
    · exact (exec_fence hp rfl h).trans (fenceAct_reported hr true)
    · exact (exec_fence hp rfl h).trans (fenceAct_unreported hr true)

end

