-- ==== Sys2Proof/Proofs/TimedWaitsBanksBarriers.lean ====
section
/-! Waits for a TIME, the banks and the barriers: what `at`, `lwait`, `lbank` and `bar` do, and O25 settled (R82, R182, R220, R338). -/

namespace Sys2Proof.Machine

/-! ### Waits for a TIME (R82, R220) -/

section
variable {s : State}

theorem exec_atTime {a : SReg} (hq : s.Quiet [s.cur.keyS a]) :
    exec (.atTime a) s = if (s.cur.getS a).toNat ≤ s.time.toNat then .next (s.afterC id)
      else .next (s.modCur fun u => { u with wait := .atTime (s.cur.getS a), turn := .waited }) := by
  have hx : exec (.atTime a) s = execAtTime a s := rfl
  rw [hx, execAtTime, issue_access hq rfl rfl]
  rfl

theorem exec_lwait {a : SReg} (hq : s.Quiet [s.cur.keyS a]) :
    exec (.lwait a) s = if (s.cur.getS a).toNat ≤ s.time.toNat then .next (s.afterC id)
      else .next (s.modCur fun u => { u with wait := .lwait (s.cur.getS a), turn := .waited }) := by
  have hx : exec (.lwait a) s = execLwait a s := rfl
  rw [hx, execLwait, issue_access hq rfl rfl]
  rfl

/-- A wait that ends: the unit moves past its slot, and the windows of older instructions cover one bundle less (R41). -/
def State.afterWait (s : State) : State := (s.afterC fun u => { u with wait := .run }).modCur (Unit.age s.ids)

variable {t : Word}

theorem exec_atExpire (hw : s.cur.wait = .atTime t) :
    exec .atExpire s = if t.toNat ≤ s.time.toNat then .next s.afterWait else .next s.waitTurn := by
  have hx : exec .atExpire s = execAtExpire s := rfl
  rw [hx, execAtExpire, hw]
  rfl

theorem exec_lwaitExpire (hw : s.cur.wait = .lwait t) :
    exec .lwaitExpire s = if t.toNat ≤ s.time.toNat then .next s.afterWait else .next s.waitTurn := by
  have hx : exec .lwaitExpire s = execLwaitExpire s := rfl
  rw [hx, execLwaitExpire, hw]
  rfl

end

/-! ### lbank (R182) -/

/-- The unit has its place in the order of its cluster's `lbank`s. -/
def State.joinLbanks (s : State) : State :=
  if s.curCluster.lbanks.contains s.cur.loc then s
  else s.setCurCluster { s.curCluster with lbanks := s.curCluster.lbanks ++ [s.cur.loc] }

theorem joinLbanks_cur (s : State) : s.joinLbanks.cur = s.cur := by
  unfold State.joinLbanks
  split <;> rfl

/-- Its end gives the place back, with the status in s[d]. -/
theorem lbankEnd_joined (s : State) (d : SReg) (status : Nat) : s.joinLbanks.lbankEnd d status =
    .next ((s.joinLbanks.setCurCluster { s.joinLbanks.curCluster with
      lbanks := s.joinLbanks.curCluster.lbanks.filter (· ≠ s.cur.loc) }).afterC fun u => { u.setS d (word status) with wait := .run }) := by
  rw [State.lbankEnd, State.leaveLbanks, joinLbanks_cur]
  rfl

section
variable {s : State} {bank : Nat} {w : Word} (d : SReg)

/-- An earlier `lbank` of the cluster comes first. -/
theorem lbankAct_behind (h : s.joinLbanks.curCluster.lbanks.head? ≠ some s.cur.loc) : s.lbankAct d bank w =
    .next (s.joinLbanks.modCur fun u => { u with wait := .lbank d bank (some w), turn := .waited }) := by
  rw [← joinLbanks_cur] at h
  exact if_pos h

variable (h : s.joinLbanks.curCluster.lbanks.head? = some s.cur.loc)
include h

theorem lbankAct_first : s.lbankAct d bank w =
    if s.joinLbanks.curCluster.configOf bank = w then s.joinLbanks.lbankEnd d 2
    else if s.joinLbanks.bankBusy s.joinLbanks.cur.clusterId bank then s.joinLbanks.lbankEnd d 1
    else .next ((s.joinLbanks.configure s.joinLbanks.cur.clusterId bank w).modCur fun u =>
      { u with wait := .lbank d bank none, turn := .waited }) := by
  rw [← joinLbanks_cur] at h
  have hc : s.cur.clusterId = s.joinLbanks.cur.clusterId := by rw [joinLbanks_cur]
  unfold State.lbankAct
  rw [hc]
  exact if_neg (not_not_intro h)

theorem lbankAct_configured (hw : s.joinLbanks.curCluster.configOf bank = w) :
    s.lbankAct d bank w = s.joinLbanks.lbankEnd d 2 := by
  rw [lbankAct_first d h, if_pos hw]

theorem lbankAct_busy (hw : s.joinLbanks.curCluster.configOf bank ≠ w)
    (hb : s.joinLbanks.bankBusy s.joinLbanks.cur.clusterId bank = true) : s.lbankAct d bank w = s.joinLbanks.lbankEnd d 1 := by
  rw [lbankAct_first d h, if_neg hw, if_pos hb]

theorem lbankAct_configures (hw : s.joinLbanks.curCluster.configOf bank ≠ w)
    (hb : s.joinLbanks.bankBusy s.joinLbanks.cur.clusterId bank = false) : s.lbankAct d bank w =
    .next ((s.joinLbanks.configure s.joinLbanks.cur.clusterId bank w).modCur fun u =>
      { u with wait := .lbank d bank none, turn := .waited }) := by
  rw [lbankAct_first d h, if_neg hw, if_neg (Bool.not_eq_true _ ▸ hb)]

end

/-! ### bar (R338) -/

/-- Barrier `b` of a launch stands as `q`. -/
def State.putBarrier (s : State) (l : Launch) (b : Nat) (q : Barrier) : State :=
  s.modLaunch l.num fun l => { l with barriers := Sparse.put l.barriers b q }

section
variable {s : State} {l : Launch} {b count : Nat} (hl : s.curLaunch = some l)
include hl

theorem barAct_mismatch (ha : 0 < (l.barrier b).arrived) (hc : (l.barrier b).count ≠ count) :
    s.barAct b count = s.raise (s.bundleTrap .illegalOperand) := by
  rw [State.barAct, hl]
  exact if_pos ⟨ha, hc⟩

variable (hc : (l.barrier b).arrived = 0 ∨ (l.barrier b).count = count)
include hc

theorem barAct_arrives : s.barAct b count =
    if (l.barrier b).arrived + 1 = count then .next ((s.putBarrier l b { gen := (l.barrier b).gen + 1 }).afterC id)
    else .next ((s.putBarrier l b { l.barrier b with count, arrived := (l.barrier b).arrived + 1 }).modCur fun u =>
      { u with wait := .bar b (l.barrier b).gen, turn := .waited }) := by
  have hn : ¬((l.barrier b).arrived > 0 ∧ (l.barrier b).count ≠ count) := fun ⟨h0, h1⟩ => hc.elim (by omega) h1
  rw [State.barAct, hl]
  exact if_neg hn

end

end Sys2Proof.Machine

open Sys2Proof Sys2Proof.Machine

/-- Settles O25: a timed wait by the comparison with TIME, `lbank` by its place in its cluster and the state of the bank, `bar` by the
arrivals that its barrier counts. -/
theorem timedInstructionsBanksAndBarriers : Obligations.TimedInstructionsBanksAndBarriers := by
  unfold Obligations.TimedInstructionsBanksAndBarriers
  refine ⟨?times, ?banksAndBarriers⟩
  case times =>
    intro s a t
    refine ⟨fun hq i w hi => ?_, fun i w hi hw => ?_⟩
    · have hx : exec i s = if (s.cur.getS a).toNat ≤ s.time.toNat then .next (s.afterC id)
          else .next (s.modCur fun u => { u with wait := w, turn := .waited }) := by
        simp only [List.mem_cons, List.not_mem_nil, or_false, Prod.mk.injEq] at hi
        obtain ⟨rfl, rfl⟩ | ⟨rfl, rfl⟩ := hi
        · exact exec_atTime hq
        · exact exec_lwait hq
      exact ⟨fun h => hx.trans (if_pos h), fun h => hx.trans (if_neg (Nat.not_le.2 h))⟩
    · have hx : exec i s = if t.toNat ≤ s.time.toNat then .next s.afterWait else .next s.waitTurn := by
        simp only [List.mem_cons, List.not_mem_nil, or_false, Prod.mk.injEq] at hi
        obtain ⟨rfl, rfl⟩ | ⟨rfl, rfl⟩ := hi
        · exact exec_atExpire hw
        · exact exec_lwaitExpire hw
      exact ⟨fun h => hx.trans (if_pos h), fun h => hx.trans (if_neg (Nat.not_le.2 h))⟩
  case banksAndBarriers =>
    intro s t d a b hp x y
    refine ⟨?lbank, ?bar⟩
    case lbank =>
      intro ht hd hx hl w hr h c v first left
      have hact := exec_lbank hp ht hd hx hl hr h
      refine ⟨fun hf => ?_, fun hf hw => ?_, fun hf hw hb => ?_, fun hf hw hb => ?_⟩
      · exact hact.trans (lbankAct_behind d hf)
      · exact hact.trans ((lbankAct_configured d hf hw).trans (lbankEnd_joined t d 2))
      · exact hact.trans ((lbankAct_busy d hf hw hb).trans (lbankEnd_joined t d 1))
      · exact hact.trans (lbankAct_configures d hf hw hb)
    case bar =>
      intro ht hx hy hy' h l hl p put
      have hact := exec_bar hp ht hx hy hy' h
      exact ⟨fun hc => ⟨fun hn => hact.trans ((barAct_arrives hl hc).trans (if_pos hn)),
        fun hn => hact.trans ((barAct_arrives hl hc).trans (if_neg hn))⟩, fun ha hc => hact.trans (barAct_mismatch hl ha hc)⟩

end

