-- ==== Sys2Proof/Proofs/PagingInstructions.lean ====
section
/-! The paging instructions: what `ptw` answers for each end of a walk, and what `frep` does with a fault; O28 settled (R72, R83, R84). -/

namespace Sys2Proof.Machine

/-! ### The answers of `ptw` (R83) -/

/-- `ptw` reads the end of a walk. Stated of the functions: a check of the applied form makes the kernel evaluate the walk. -/
theorem ptwResult_eq : State.ptwResult = fun s job va =>
    match s.walkLeaf job va with
    | .wait => none
    | .fault c _ => some (word (2 ^ 63 + c.number))
    | .leaf e _ level =>
      if !tsrSup s.cur.tsr && !pteU e then some (word (2 ^ 63 + Cause.permission.number))
      else if pteSw e && !s.cur.secure then some (word (2 ^ 63 + Cause.world.number))
      else some (word (pteSize e * 2 ^ 56 + leafPa e (levelBits level) va % 2 ^ 56)) := rfl

section
variable {s : State} {job va : Nat}

theorem ptwResult_fault {c : Cause} {e : Word} (h : s.walkLeaf job va = .fault c e) :
    s.ptwResult job va = some (word (2 ^ 63 + c.number)) := by
  rw [ptwResult_eq]
  beta_reduce
  rw [h]

theorem ptwResult_wait (h : s.walkLeaf job va = .wait) : s.ptwResult job va = none := by
  rw [ptwResult_eq]
  beta_reduce
  rw [h]

variable {e : Word} {q l : Nat} (hsup : tsrSup s.cur.tsr = true) (h : s.walkLeaf job va = .leaf e q l)
include hsup h

theorem ptwResult_leaf : s.ptwResult job va =
    if pteSw e && !s.cur.secure then some (word (2 ^ 63 + Cause.world.number))
    else some (word (pteSize e * 2 ^ 56 + leafPa e (levelBits l) va % 2 ^ 56)) := by
  rw [ptwResult_eq]
  beta_reduce
  rw [h, hsup]
  rfl

end

/-! ### The two instructions (R83, R84) -/

section
variable {s : State} {d a b : SReg}

section
variable (hp : tsrPp s.cur.tsr = false) (hsup : tsrSup s.cur.tsr = true) (ht : s.touches (s.cur.keysS [d, a, b]) = false)
  (hd : s.cur.namedS d = false)
include hp hsup ht hd

theorem exec_ptw (ha : (s.cur.getS a).toNat < 2 ^ 56) (hb : (s.cur.getS b).toNat < 4096) :
    (∀ x, s.ptwResult (s.cur.getS b).toNat (s.cur.getS a).toNat = some x →
      exec (.ptw d a b) s = .next (s.afterC fun u => u.setS d x)) ∧
    (s.ptwResult (s.cur.getS b).toNat (s.cur.getS a).toNat = none → exec (.ptw d a b) s = .next s.waitTurn) := by
  have hx : exec (.ptw d a b) s = execPtw d a b s := rfl
  have hok : (bits (s.cur.getS a) 63 56 == 0 && bits (s.cur.getS b) 63 12 == 0) = true := by
    rw [bits_eq_zero_of_lt ha, bits_eq_zero_of_lt hb]
    rfl
  rw [hx, execPtw, issue_clear s _ _ hp (fun _ => hsup) hok ht rfl hd]
  refine ⟨fun x h => ?_, fun h => ?_⟩
  all_goals
    rw [h]
    rfl

theorem exec_frep (ha : (s.cur.getS a).toNat < 2 ^ 16) (hb : (s.cur.getS b).toNat ≤ 2) :
    (s.cur.getS a = 0 ∨ s.faultOf (s.cur.getS a).toNat = none → exec (.frep d a b) s = .next (s.afterC fun u => u.setS d 1)) ∧
    (∀ f, s.cur.getS a ≠ 0 → s.faultOf (s.cur.getS a).toNat = some f →
      exec (.frep d a b) s = .next ((s.reply f (s.cur.getS b).toNat).afterC fun u => u.setS d 0)) := by
  have hx : exec (.frep d a b) s = execFrep d a b s := rfl
  have hok : (bits (s.cur.getS a) 63 16 == 0 && decide ((s.cur.getS b).toNat ≤ 2)) = true := by
    simp [bits_eq_zero_of_lt ha, hb]
  rw [hx, execFrep, issue_clear s _ _ hp (fun _ => hsup) hok ht rfl hd]
  refine ⟨fun h => ?_, fun f h0 h => ?_⟩
  · have hnone : (if s.cur.getS a = 0 then none else s.faultOf (s.cur.getS a).toNat) = none :=
      ite_eq_left_iff.2 fun h0 => h.resolve_left h0
    rw [hnone]
    rfl
  · rw [if_neg h0, h]
    rfl

end

variable (hsup : tsrSup s.cur.tsr = false)
include hsup

theorem raises_ptw : Raises (.ptw d a b) s (s.bundleTrap .privilege) := by
  have hx : exec (.ptw d a b) s = execPtw d a b s := rfl
  rw [Raises, hx, execPtw, issue_privilege rfl hsup]
  rfl

theorem raises_frep : Raises (.frep d a b) s (s.bundleTrap .privilege) := by
  have hx : exec (.frep d a b) s = execFrep d a b s := rfl
  rw [Raises, hx, execFrep, issue_privilege rfl hsup]
  rfl

end

/-! ### Replies (R72, R84) -/

/-- A fault is no longer outstanding, and its unit no longer waits for the answer. -/
def State.dropFault (s : State) (f : Fault') : State :=
  State.modUnits { s with faults := s.faults.filter (· ≠ f) } (fun u => u.is f.loc f.launch)
    fun u => { u with mail := u.mail.filter (· ≠ f.token) }

section
variable {s : State} {f : Fault'} {r : XlReq}

theorem reply_retry (h : f.req = none) : s.reply f 0 = s.dropFault f := by
  simp [State.reply, State.dropFault, h]

theorem reply_retry_access (h : f.req = some r) : s.reply f 0 = (s.dropFault f).joinWalk r := by
  simp [State.reply, State.dropFault, h]

theorem joinWalk_begins (h : ∀ w ∈ s.walks, s.walkFor (sliceDie r.loc.die) r.job r.va.toNat w = false) : s.joinWalk r =
    { s with walks := s.walks ++ [{ slice := sliceOf r.va.toNat, die := sliceDie r.loc.die, reqs := [r] }] } :=
  if_neg fun hany => by
    obtain ⟨w, hw, hs⟩ := List.any_eq_true.1 hany
    exact absurd hs (by simp [h w hw])

theorem joinWalk_joins (h : ∃ w ∈ s.walks, s.walkFor (sliceDie r.loc.die) r.job r.va.toNat w = true) : s.joinWalk r =
    { s with walks := s.walks.map fun w =>
      if s.walkFor (sliceDie r.loc.die) r.job r.va.toNat w = true then { w with reqs := w.reqs ++ [r] } else w } :=
  if_pos (List.any_eq_true.2 h)

end

end Sys2Proof.Machine

open Sys2Proof Sys2Proof.Machine

/-- Settles O28: `ptw` by the three ends of a walk, `frep` by whether its token names a fault of the cluster, and a RETRY by what faulted. -/
theorem pagingInstructions : Obligations.PagingInstructions := by
  unfold Obligations.PagingInstructions
  intro s d a b hp x y
  refine ⟨fun hsup ht hd => ⟨fun hx hy => ?ptw, fun hx hy => ?frep⟩, fun hsup => ⟨raises_ptw hsup, raises_frep hsup⟩⟩
  case ptw =>
    obtain ⟨hsome, hnone⟩ := exec_ptw hp hsup ht hd hx hy
    refine ⟨fun c e h => hsome _ (ptwResult_fault h), fun h => hnone (ptwResult_wait h), fun e q l h hw => hsome _ ?_,
      fun e q l h hw => hsome _ ?_⟩
    · rw [ptwResult_leaf hsup h, if_neg (Bool.not_eq_true _ ▸ hw)]
    · rw [ptwResult_leaf hsup h, if_pos hw]
  case frep =>
    obtain ⟨hnone, hsome⟩ := exec_frep hp hsup ht hd hx hy
    refine ⟨hnone, fun f h0 h => ⟨hsome f h0 h, reply_retry, ?_⟩⟩
    intro r hr same
    exact ⟨fun hw => (reply_retry_access hr).trans (joinWalk_begins hw), fun hw => (reply_retry_access hr).trans (joinWalk_joins hw)⟩

end

