-- ==== Sys2Proof/Proofs/HubAtomics.lean ====
section
/-! The performs of a hub: what a completed atomic of a unit of this module answers (R354, R355), and O55 refuted by it. -/

namespace Sys2Proof.Machine

/-- A completed atomic of a unit reaches the instruction that its entry numbers, whether or not it is a held reduction of a commit. -/
theorem exec_hubHostAtomic_unit {s : State} {hub : Nat} {a : HostAtomic} {rest : List HostAtomic}
    (hq : (s.hub hub).atomics = a :: rest) (hstore : a.store = none) (hasker : a.asker = .unit)
    (hcap : s.hostCompletes (localOf a.pa) a.op a.t = true) (hr : a.commit = true ∨ s.writeRefused true false a.pa = none) :
    let p := (s.setHub hub { s.hub hub with atomics := rest }).unfocus.homeAtomic a.pa (typeBytes a.t)
      fun old => a.op.apply a.t old a.y.toNat a.cmp.toNat
    exec (.hubHostAtomic hub .sc) s =
      .next (p.1.answerPend a.pend fun q => { q with values := some (atomicValues a.t p.2) }) := by
  have hx : exec (.hubHostAtomic hub .sc) s = execHubHostAtomic hub .sc s := rfl
  have hfree : (if a.commit then none else s.writeRefused true false a.pa) = none := by
    rcases hr with h | h <;> simp [h]
  simp only [hx, execHubHostAtomic, hq, hstore, hcap, hfree, hasker, Bool.not_true, Bool.false_eq_true, if_false, State.hubDone]

/-! ### A held reduction that carries the number of an incomplete instruction -/

/-- A held reduction of a visible commit at the host window, which carries the number 1. -/
def heldReduction : HostAtomic :=
  { loc := ⟨0, 0, 0, 0⟩, op := .add, t := .d, ea := 0x2000, pa := hostBase, y := 1, cmp := 0, pend := 1, commit := true }

/-- The unit whose commit is visible; its instruction 1 still waits for its values. -/
def awaitingUnit : Unit :=
  { placed := true, visible := true,
    pend := [{ id := 1, dests := [], values := none, act := .far 0x2000 8, left := 0, hold := false, pc := 0 }] }

/-- The reduction is the oldest access at hub 0, and the host completes every atomic. -/
def reductionAtHub : State :=
  State.setHub { State.reset with others := [awaitingUnit] } 0 { hacap := BitVec.allOnes 64, atomics := [heldReduction] }

/-- The values that the incomplete instructions of the units that do not act have in the next state. -/
def pendValues : Out → List (List (Option (List VWord)))
  | .next s => s.others.map fun u => u.pend.map fun p => p.values
  | .fault _ => []
  | .refused _ => []

end Sys2Proof.Machine

open Sys2Proof Sys2Proof.Machine

/-- Refutes O55, in its clause on a completed atomic of a unit: for a held reduction it gives the state in which nothing has been answered,
and the model answers the instruction that the entry numbers as well (`exec_hubHostAtomic_unit`). The two differ where an entry of a held
reduction carries the number of an incomplete instruction, as in `reductionAtHub`. No step builds such an entry, for a visible commit numbers
its reductions 0 and instructions are numbered from 1; but the statement is about every state. -/
theorem not_slicesHomesAndHosts : ¬Obligations.SlicesHomesAndHosts := by
  unfold Obligations.SlicesHomesAndHosts
  intro h
  obtain ⟨-, -, -, -, -, -, -, -, hhub⟩ := h reductionAtHub ⟨.worker, ⟨0, 0, 0, 0⟩, 0, false, false, .read, 0, 8, 0⟩ 0 0 0 0 [] .w 0 0 0 0
  obtain ⟨-, -, hunit, -⟩ := hhub heldReduction [] rfl
  have hcap : reductionAtHub.hostCompletes (localOf heldReduction.pa) heldReduction.op heldReduction.t = true := by decide +kernel
  have hclaimed := hunit rfl rfl hcap (.inl rfl)
  rw [exec_hubHostAtomic_unit (s := reductionAtHub) (a := heldReduction) rfl rfl rfl hcap (.inl rfl)] at hclaimed
  exact absurd (congrArg pendValues hclaimed) (by decide +kernel)

end

