-- ==== Sys2Proof/Proofs/EnginesAsking.lean ====
section
/-! A part of the machine that asks no other module: nothing of it is dropped, refused, changed back or still to be acknowledged
(R74, R103, R149, R352). -/

namespace Sys2Proof.Machine

/-- No remote request carries the place of a part. -/
def State.AsksNone (s : State) (l : Loc) : Prop := ∀ x ∈ s.remotes, (x.loc == l) = false

theorem engineWrites_loc {r : Remote} {l : Loc} (h : r.engineWrites l = true) : (r.loc == l) = true := by
  simp only [Remote.engineWrites, Bool.and_eq_true] at h
  exact h.1.1

theorem claimFrom_local {s : State} (l : Loc) (secure : Bool) {log : List EngWrite}
    (hlog : ∀ w ∈ log, w.before = none ∨ s.isLocal w.pa = true) :
    s.claimFrom l secure log = (s, .done) := by
  induction log with
  | nil => rfl
  | cons w rest ih =>
    have hrest := ih fun x hx => hlog x (List.mem_cons_of_mem w hx)
    unfold State.claimFrom
    split
    · exact hrest
    next old hold =>
      have hlocal : s.isLocal w.pa = true := (hlog w List.mem_cons_self).resolve_left (by simp [hold])
      rw [if_pos hlocal]
      exact hrest

section
variable {s : State} {l : Loc} (h : s.AsksNone l)
include h

theorem filter_remotes_eq_nil {p : Remote → Bool} (hp : ∀ x, p x = true → (x.loc == l) = true) : s.remotes.filter p = [] :=
  List.filter_eq_nil_iff.2 fun x hx hpx => Bool.eq_false_iff.1 (h x hx) (hp x hpx)

theorem dropAsked_eq_self {p : Remote → Bool} (hp : ∀ x, p x = true → (x.loc == l) = true) : s.dropAsked p = s := by
  have hnone := filter_remotes_eq_nil h (p := fun x => !x.dropped && p x) fun x hx => hp x (Bool.and_eq_true_iff.1 hx).2
  simp [State.dropAsked, hnone]

theorem refusedWrites_none (src : Source) (who : Issuer) : s.refusedWrites src who l = (s, false) := by
  have hnone := filter_remotes_eq_nil h (p := fun x => x.engineWrites l && x.refusal.isSome)
    fun x hx => engineWrites_loc (Bool.and_eq_true_iff.1 hx).1
  simp [State.refusedWrites, hnone]

theorem dropRefusedWrites_none : (s.dropAsked fun x => x.engineWrites l && x.refusal.isSome) = s :=
  dropAsked_eq_self h fun _ hx => engineWrites_loc (Bool.and_eq_true_iff.1 hx).1

theorem writesOut_none : s.writesOut l = false :=
  List.any_eq_false.2 fun _ hx hw => Bool.eq_false_iff.1 (h _ hx) (engineWrites_loc (Bool.and_eq_true_iff.1 hw).1)

end

/-- Work that changes no count of another module, by an engine that has none out, claims nothing. -/
theorem claim_local {s : State} {v : EngSt} (hlog : ∀ w ∈ v.log, w.before = none ∨ s.isLocal w.pa = true) (h : s.AsksNone v.loc) :
    s.claim v = (s, .done) := by
  unfold State.claim
  extract_lets needs
  rw [dropAsked_eq_self h fun x hx => ?loc]
  · exact claimFrom_local v.loc v.who.secure hlog
  case loc =>
    simp only [Bool.and_eq_true] at hx
    exact hx.1.1

end Sys2Proof.Machine
end

