-- ==== Sys2Proof/Proofs/CopyEngines.lean ====
section
/-! The events of a copy engine (R139, R141, R143, R148, R149, R151): a request taken, its records, a chunk that nothing holds up, and the
report of a run that has ended. -/

namespace Sys2Proof.Machine

/-! ### Taking a request (R141, R143, R148) -/

/-- The run of a request as it is taken. -/
def CopyReq.taken (r : CopyReq) : CopyRun :=
  { req := r, f := [], s := [], cancelled := r.cancelled, start := if r.ts then startTime r.startField r.released.toNat else 0 }

/-- The entry of a request freed: the first COPY node of the cluster, or the first copy of its issuer. -/
def State.freeCopy (s : State) (cl : Nat) (r : CopyReq) : State :=
  if r.node.isSome = true then s.setCluster cl { s.cluster cl with nodeCopies := (s.cluster cl).nodeCopies.drop 1 }
  else s.modUnits (fun u => u.is r.by'.loc r.by'.launch) fun u => { u with copies := u.copies.drop 1 }

/-- A request in a run place, its entry freed and the rotation at its slot. -/
def State.takeCopy (s : State) (cl : Nat) (r : CopyReq) : State :=
  let t := s.freeCopy cl r
  t.setCluster cl { t.cluster cl with rotation := r.key, running := (t.cluster cl).running ++ [r.taken] }

theorem exec_copyStart {s : State} {die cluster : Nat} {r : CopyReq}
    (hroom : cluster < 20 → (s.cluster (clusterId die cluster)).running.length < 4)
    (hr : nextKey (s.cluster (clusterId die cluster)).rotation (s.copyHeads (clusterId die cluster)) = some r) :
    exec (.copyStart die cluster) s =
      .next ((s.takeCopy (clusterId die cluster) r).loadRecords (clusterId die cluster) r.taken) := by
  have hx : exec (.copyStart die cluster) s = execCopyStart die cluster s := rfl
  have hfree : ¬(cluster < Config.clustersPerDie ∧ 4 ≤ (s.cluster (clusterId die cluster)).running.length) :=
    fun ⟨hc, hfull⟩ => Nat.not_lt.2 hfull (hroom hc)
  simp only [hx, execCopyStart, if_neg hfree, hr]
  rfl

section
variable {s : State} {r : CopyRun} (cl : Nat)

theorem loadRecords_cancelled (hc : r.cancelled = true) : s.loadRecords cl r = s.setRun cl (r.fail 13 0 0) := if_pos hc

theorem loadRecords_badWords (hc : r.cancelled = false) (hb : r.req.badWords = true) :
    s.loadRecords cl r = s.setRun cl (r.fail 9 0 0) := by
  rw [State.loadRecords, if_neg (Bool.eq_false_iff.1 hc), if_pos hb]

theorem loadRecords_ok {f g : List Word} {v : EngSt} (hc : r.cancelled = false) (hb : r.req.badWords = false)
    (hv : EngM.result (readRecords r.req) (s.copySt r) = .ok (f, g, none) v) :
    s.loadRecords cl r = (v.s.dropRemotes r.req.loc).setRun cl { r with f := f, s := g } := by
  rw [State.loadRecords, if_neg (Bool.eq_false_iff.1 hc), if_neg (Bool.eq_false_iff.1 hb), hv]

end

theorem exec_copyTimedStart {s : State} {die cluster : Nat} {r : CopyRun}
    (hr : ((s.cluster (clusterId die cluster)).running.find? fun r =>
      r.req.ts && !r.f.isEmpty && r.status.isNone && decide (r.start ≠ 0) && decide (r.start ≤ s.time.toNat)) = some r) :
    exec (.copyTimedStart die cluster) s = .next (s.setRun (clusterId die cluster) { r with start := 0 }) := by
  have hx : exec (.copyTimedStart die cluster) s = execCopyTimedStart die cluster s := rfl
  simp only [hx, execCopyTimedStart, hr]

/-! ### A turn of a run (R149, R151) -/

/-- A run goes behind the others of its engine. -/
def State.goBehind (s : State) (cl : Nat) (r : CopyRun) : State :=
  s.setCluster cl { s.cluster cl with running := (s.cluster cl).running.filter (fun x => !sameRun x r) ++ [r] }

theorem exec_copyChunk {s : State} {die cluster : Nat} {r : CopyRun}
    (hr : ((s.cluster (clusterId die cluster)).running.find? fun r => (r.status.isNone || r.pushing) && !r.isOver) = some r) :
    exec (.copyChunk die cluster) s = .next ((s.goBehind (clusterId die cluster) r).copyStep (clusterId die cluster) r) := by
  have hx : exec (.copyChunk die cluster) s = execCopyChunk die cluster s := rfl
  simp only [hx, execCopyChunk, hr]
  rfl

section
variable {s : State} {r : CopyRun} (cl : Nat)

/-- No write of the run is out, so none is sent again or dropped. -/
theorem settleWrites_none (h : s.AsksNone r.req.loc) : s.settleWrites cl r = (s, r) := by
  simp [State.settleWrites, dropRefusedWrites_none h, refusedWrites_none h]

/-- The chunk of a run that has its records, may access its data, has nothing to push and is neither cancelled nor over. -/
theorem copyStep_chunk {c : ChunkDone} {v : EngSt} (hfault : s.copyFaulted r = false) (hfree : s.AsksNone r.req.loc) (hf : r.f ≠ [])
    (hpush : r.pushing = false) (hcancel : r.cancelled = false) (hstart : r.req.ts = true → r.start = 0) (hover : r.isOver = false)
    (hv : EngM.result (chunkWork cl r) ((s.dropWrites r.req.loc).copySt r) = .ok c v) (hlock : v.unlocked = true) :
    s.copyStep cl r = v.perform.endChunk cl r c := by
  have hdue : (r.req.ts && r.start != 0) = false := by
    simpa using hstart
  simp [State.copyStep, hfault, settleWrites_none cl hfree, writesOut_none hfree, hf, hpush, hcancel, hdue, hover, hv, hlock]

end

/-! ### Reports (R151 to R153) -/

theorem exec_copyComplete_cancelled {s : State} {die cluster : Nat} {r : CopyReq} (hr : s.endingNext (clusterId die cluster) = some r) :
    exec (.copyComplete die cluster) s = .next (State.copyReport (s.setCluster (clusterId die cluster)
      { s.cluster (clusterId die cluster) with ending := dropFirst r (s.cluster (clusterId die cluster)).ending }) r 13 0 0 0) := by
  have hx : exec (.copyComplete die cluster) s = execCopyComplete die cluster s := rfl
  simp only [hx, execCopyComplete, hr]

/-- A copy without TG writes no tags. -/
theorem result_tagWork_untagged {r : CopyRun} (h : r.req.tg = false) (t : EngSt) : EngM.result (tagWork r) t = .ok [] t := by
  simp only [tagWork, h]
  rfl

theorem exec_copyComplete_ended {s : State} {die cluster : Nat} {r : CopyRun} (hnone : s.endingNext (clusterId die cluster) = none)
    (hr : (s.cluster (clusterId die cluster)).running.find? CopyRun.ended = some r)
    (hfault : (s.goBehind (clusterId die cluster) r).copyFaulted r = false) (hfree : s.AsksNone r.req.loc)
    (hroom : (s.goBehind (clusterId die cluster) r).copyRoom r.req = true) (htags : r.status.isSome = true ∨ r.req.tg = false) :
    exec (.copyComplete die cluster) s =
      .next ((s.goBehind (clusterId die cluster) r).reportRun (clusterId die cluster) r r.next) := by
  have hx : exec (.copyComplete die cluster) s = execCopyComplete die cluster s := rfl
  have hended : r.ended = true := List.find?_some hr
  have hbehind : (s.goBehind (clusterId die cluster) r).AsksNone r.req.loc := hfree
  simp only [hx, execCopyComplete, hnone, hr]
  generalize hb : State.setCluster _ _ _ = t
  obtain rfl : s.goBehind (clusterId die cluster) r = t := hb
  rcases htags with hst | htg
  · simp [hfault, settleWrites_none _ hbehind, hended, writesOut_none hbehind, hroom, hst]
  · simp [hfault, settleWrites_none _ hbehind, hended, writesOut_none hbehind, hroom, result_tagWork_untagged htg, State.copySt]

end Sys2Proof.Machine
end

