-- ==== Sys2Proof/Proofs/RopeEngines.lean ====
section
/-! The events of a rope engine (R105, R107, R122, R127): a command taken, performed and answered, and a walk that goes on. -/

namespace Sys2Proof.Machine

theorem exec_ropeCommandTake {s : State} {die : Nat} {c : RopeCmd} {rest : List RopeCmd} (hidle : (s.die die).rope = none)
    (hq : (s.die die).q5 = c :: rest) (hnext : s.ropeWaits die c = false) :
    exec (.ropeCommandTake die) s = .next (s.setDie die { s.die die with
      rope := some { cmd := c, ended := if c.cancelled = true then some (13, 0, [0, 0, 0]) else none }, q5 := rest }) := by
  have hx : exec (.ropeCommandTake die) s = execRopeCommandTake die s := rfl
  simp only [hx, execRopeCommandTake, hidle, hq, hnext, Bool.false_eq_true, if_false]

/-! ### The record of a command (R115, R127) -/

theorem die_setRope_rope (s : State) (die : Nat) (r : Option RopeRun) : ((s.setRope die r).die die).rope = r := by
  simp [State.setRope, State.die]

/-- The record goes out, and the engine is free. -/
def State.ropeSent (s : State) (die : Nat) (c : RopeCmd) (status nodes : Nat) (ws : List Word) : State :=
  ((s.dropRemotes (ropeLoc die)).setRope die none).ropeReport c (ropeAnswer c status nodes ws)

/-- Nothing of the engine is out, and the queue of the command's form has room. -/
def State.MaySend (s : State) (die : Nat) (c : RopeCmd) : Prop :=
  s.AsksNone (ropeLoc die) ∧ (c.form = .returning ∨ s.roomFor c.by'.loc c.by'.launch (if c.form = .plain then 6 else 0) = true)

theorem ropeSend_ended {s : State} {die status nodes : Nat} {r : RopeRun} {ws : List Word} (hend : r.ended = some (status, nodes, ws))
    (hbuf : r.buf = []) (h : s.MaySend die r.cmd) : s.ropeSend die r = s.ropeSent die r.cmd status nodes ws := by
  obtain ⟨hfree, hroom⟩ := h
  have hgo : (r.cmd.form == .returning || s.roomFor r.cmd.by'.loc r.cmd.by'.launch (if r.cmd.form = .plain then 6 else 0)) = true := by
    simpa using hroom
  unfold State.ropeSend
  extract_lets t
  have ht : t = s := by
    unfold t
    split
    · exact dropRefusedWrites_none hfree
    · rw [refusedWrites_none hfree]
  rw [ht]
  simp [hend, hbuf, writesOut_none hfree, hgo, State.ropeSent]

theorem exec_ropeCommandDone_ended {s : State} {die status nodes : Nat} {r : RopeRun} {ws : List Word}
    (hr : (s.die die).rope = some r) (hfault : s.ropeFault die = false) (hend : r.ended = some (status, nodes, ws)) (hbuf : r.buf = [])
    (h : s.MaySend die r.cmd) : exec (.ropeCommandDone die) s = .next (s.ropeSent die r.cmd status nodes ws) := by
  have hx : exec (.ropeCommandDone die) s = execRopeCommandDone die s := rfl
  simp [hx, execRopeCommandDone, hr, hfault, hend, ropeSend_ended hend hbuf h]

/-! ### A command performed (R103, R127) -/

/-- The state after work that has succeeded and claimed its counts in `x`: its writes performed, its answer kept with the run, its pool
that of the job. -/
def RopeRun.performed (r : RopeRun) (die : Nat) (x : State) (v : EngSt) (ws : List Word) : State :=
  let p := EngSt.perform { v with s := { v.s with
    remotes := x.remotes, laneHoles := x.laneHoles, outbox := x.outbox, laneOut := x.laneOut } }
  { p.setRope die (some { r with ended := some (0, v.nodes, ws) }) with pools := Sparse.put p.pools r.cmd.by'.job v.pool }

section
variable {s x : State} {die : Nat} {r : RopeRun} {ws : List Word} {v : EngSt}
  (hv : EngM.result ((ropeWork r.cmd).run' {}) (s.engSt die r.cmd) = .ok ws v) (hlock : v.unlocked = true) (hclaim : s.claim v = (x, .done))
include hv hlock hclaim

theorem ropeAttempt_done : s.ropeAttempt die r = r.performed die x v ws := by
  simp only [State.ropeAttempt, hv, hlock, hclaim]
  rfl

theorem exec_ropeCommandDone_performs (hr : (s.die die).rope = some r) (hfault : s.ropeFault die = false) (hend : r.ended = none)
    (hfn : r.cmd.fn ≠ .rwalk) (hbuf : r.buf = []) (h : (r.performed die x v ws).MaySend die r.cmd) :
    exec (.ropeCommandDone die) s = .next ((r.performed die x v ws).ropeSent die r.cmd 0 v.nodes ws) := by
  have hx : exec (.ropeCommandDone die) s = execRopeCommandDone die s := rfl
  have hrun : ((r.performed die x v ws).die die).rope = some { r with ended := some (0, v.nodes, ws) } := die_setRope_rope _ die _
  simp [hx, execRopeCommandDone, hr, hfault, hend, hfn, ropeAttempt_done hv hlock hclaim, hrun,
    ropeSend_ended (r := { r with ended := some (0, v.nodes, ws) }) rfl hbuf h]

end

/-! ### Walks and drained blocks (R107, R122) -/

theorem exec_rwalkDescriptorPush {s : State} {die : Nat} {r : RopeRun} {b : List Byte} {n : Nat} {t : EngSt}
    (hr : (s.die die).rope = some r) (hfn : r.cmd.fn = .rwalk) (hend : r.ended = none) (hfault : s.ropeFault die = false)
    (hroom : s.pushWalk r false = (s, r, true))
    (ht : EngM.result ((walkNext r.cmd r.walked).run' {}) (s.engSt die r.cmd) = .ok (some (b, n)) t) :
    let u := (t.s.dropRemotes (ropeLoc die)).pushWalk
      { r with pushed := r.pushed + 1, walked := r.walked + n, buf := r.buf ++ b } false
    exec (.rwalkDescriptorPush die) s = .next (u.1.setRope die (some u.2.1)) := by
  have hx : exec (.rwalkDescriptorPush die) s = execRwalkDescriptorPush die s := rfl
  simp [-StateT.run'_eq, hx, execRwalkDescriptorPush, hr, hfn, hend, hfault, hroom, ht]

theorem exec_blockDrainExpire {s : State} {die index : Nat} {d : DirEntry}
    (hd : d = DirEntry.ofBytes (s.bytes (localOf (s.directoryPa (die * 2 ^ 29 + index))) 32)) (hstate : d.state = 2)
    (hzn : d.hzn.toNat ≤ s.time.toNat) : exec (.blockDrainExpire die index) s =
      .next (s.engineSet (s.directoryPa (die * 2 ^ 29 + index)) (DirEntry.bytes { d with state := 0 })) := by
  have hx : exec (.blockDrainExpire die index) s = execBlockDrainExpire die index s := rfl
  subst hd
  rw [hx]
  exact if_pos ⟨hstate, hzn⟩

end Sys2Proof.Machine
end

