-- ==== Sys2Proof/Proofs/CopyAndRopeEngines.lean ====
section
/-! O56 settled. -/

open Sys2Proof Sys2Proof.Machine

/-- Settles O56, event by event. An engine that has no remote request out settles nothing before its work, so that the work's own result is
the next state; a performed command stays with its engine until its record goes out. -/
theorem copyAndRopeEnginesGoOn : Obligations.CopyAndRopeEnginesGoOn := by
  unfold Obligations.CopyAndRopeEnginesGoOn
  intro s die cluster index cl k back free
  refine ⟨?start, fun r => exec_copyTimedStart, ?chunk, fun r => exec_copyComplete_cancelled, fun r => exec_copyComplete_ended,
    fun c rest => exec_ropeCommandTake, ?done, fun v => claim_local, ?walk, exec_blockDrainExpire rfl⟩
  case start =>
    intro r hroom hr run t u
    have hx := exec_copyStart hroom hr
    refine ⟨hx, fun hc => ?cancelled, fun hc hb => ?badWords, fun f g v hc hb hv => ?records⟩
    case cancelled => exact hx.trans (congrArg _ (loadRecords_cancelled cl hc))
    case badWords => exact hx.trans (congrArg _ (loadRecords_badWords cl hc hb))
    case records => exact hx.trans (congrArg _ (loadRecords_ok cl hc hb hv))
  case chunk =>
    intro r hr
    have hx := exec_copyChunk hr
    refine ⟨hx, fun c v hfault hfree hf hpush hcancel _ hstart hv hlock => hx.trans (congrArg _ ?_)⟩
    have hover : r.isOver = false := by
      have hgoes := List.find?_some hr
      simp only [Bool.and_eq_true, Bool.not_eq_true'] at hgoes
      exact hgoes.2
    exact copyStep_chunk cl hfault hfree hf hpush hcancel hstart hover hv hlock
  case done =>
    intro r hr hfault sent room
    refine ⟨fun status nodes ws => exec_ropeCommandDone_ended hr hfault, ?_⟩
    intro ws v hend hfn hbuf hv hlock x hclaim p t hroom
    exact exec_ropeCommandDone_performs hv hlock hclaim hr hfault hend hfn hbuf hroom
  case walk =>
    intro r a hr hfn hend hfault hroom t ht
    exact exec_rwalkDescriptorPush hr hfn hend hfault hroom ht

end

