-- ==== Sys2Proof/Proofs/HashFormatsAndNop.lean ====
section
/-! The block hash lane by lane, `fmt` and `nop`; O36 settled (R45 to R48, R130). -/

namespace Sys2Proof.Machine

/-! ### Traps at issue (R43, R46) -/

/-- An instruction whose meaning comes down to raising `t` raises it. -/
theorem raises_of_exec {i : Instr} {s : State} {t : TrapInfo} (h : exec i s = s.raise t) : Raises i s t := h

/-- Formats that are pending dangle where they reach an instruction that takes none (R46). -/
theorem issue_dangling {s : State} {n : Need} (hs : n.sup = false) (hf : n.fmts = false) (hp : tsrPp s.cur.tsr = true) (k : State → Out) :
    s.issue n k = s.raise (s.bundleTrap .danglingPrefix) :=
  issue_trap _ _ _ _ (by simp [State.trapOf, hs, hf, hp])

/-- An instruction that asks for nothing, with no formats pending. -/
theorem issue_free {s : State} (hp : tsrPp s.cur.tsr = false) (k : State → Out) : s.issue {} k = k s :=
  issue_clear s _ k hp nofun rfl (touches_nil s) rfl rfl

/-! ### hblk (R130) -/

/-- The token of lane `j`, zero-extended. -/
theorem word_bits_lane (v : VWord) (j : Nat) :
    word (bits v (32 * j + 31) (32 * j)) = ((v >>> (32 * j)).truncate 32 : BitVec 32).zeroExtend 64 := by
  have hw : 32 * j + 31 + 1 - 32 * j = 32 := by omega
  refine BitVec.eq_of_toNat_eq ?_
  simp [word, bits, hw, Nat.shiftRight_eq_div_pow]

/-- The round of lane `j`, with the token as R130 writes it. -/
def laneRound (v : VWord) (h : Word) (j : Nat) : Word :=
  (h.rotateLeft 23 ^^^ ((v >>> (32 * j)).truncate 32 : BitVec 32).zeroExtend 64) * 0x8F1D4C276B39A5E3

theorem blockHash_eq_lanes (h : Word) (v : VWord) : blockHash h v =
    if (List.range 16).foldl (laneRound v) h = 0 then 1 else (List.range 16).foldl (laneRound v) h := by
  have hround : (fun h j => hashRound h (bits v (32 * j + 31) (32 * j))) = laneRound v := by
    funext h j
    rw [hashRound, laneRound, word_bits_lane]
  rw [blockHash, hround]
  rfl

theorem exec_hblk {s : State} {d : SReg} {w : VReg} (hq : s.Quiet [s.cur.keyS d, .v w.toNat]) (hd : s.cur.namedS d = false)
    (la : BitVec 4) : exec (.hblk la d w) s =
    .next ((s.openWindow la (s.cur.destS d) (some [sval (blockHash (s.cur.getS d) (s.cur.getV w))]) .answer).afterC id) := by
  have hx : exec (.hblk la d w) s = execHblk la d w s := rfl
  rw [hx, execHblk, issue_access hq rfl hd]
  rfl

/-- A known scalar result with a lookahead of 0 is written at once (R41). -/
theorem openWindow_scalar_zero (s : State) (d : SReg) (x : Word) (act : Act) :
    (s.openWindow 0 (s.cur.destS d) (some [sval x]) act).afterC id = s.afterC fun u => u.setS d x := by
  rw [openWindow_zero, setKeys_destS]
  rfl

/-! ### fmt and nop (R45 to R48) -/

/-- Setting PP where it is clear sets bit 0. -/
theorem tsrSetPp_true {t : Word} (h : tsrPp t = false) : tsrSetPp t true = t ||| 1 := by
  have h0 : t.toNat % 2 = 0 := by
    simp only [tsrPp, BitVec.getLsbD, Nat.testBit_zero, decide_eq_false_iff_not] at h
    omega
  have hor : t.toNat ||| 1 = t.toNat + 1 := by
    have hadd := Nat.two_pow_add_eq_or_of_lt (i := 1) (b := 1) (by decide) (t.toNat / 2)
    have heven : 2 ^ 1 * (t.toNat / 2) = t.toNat := by omega
    rw [heven] at hadd
    exact hadd.symm
  refine BitVec.eq_of_toNat_eq ?_
  have hlt := t.isLt
  simp [tsrSetPp, setBits, bits, hor, h0]
  omega

/-- The three codes in PFX (R47). -/
theorem pfxWord_eq (fa fb fc : FmtId) : pfxWord fa fb fc =
    BitVec.ofNat 64 ((FmtId.bits fa).toNat + 32 * (FmtId.bits fb).toNat + 1024 * (FmtId.bits fc).toNat) := by
  rw [pfxWord, word]
  congr 1
  omega

/-- The unit with the three formats in PFX, pending. -/
def Unit.withFormats (fa fb fc : FmtId) (u : Unit) : Unit :=
  { u with
    pfx := BitVec.ofNat 64 ((FmtId.bits fa).toNat + 32 * (FmtId.bits fb).toNat + 1024 * (FmtId.bits fc).toNat)
    tsr := u.tsr ||| 1 }

section
variable {s : State} (fa fb fc : FmtId)

section
variable (hp : tsrPp s.cur.tsr = false)
include hp

theorem setFormats_quiet : s.setFormats fa fb fc = s.modCur (Unit.withFormats fa fb fc) := by
  unfold State.setFormats State.modCur
  beta_reduce
  rw [tsrSetPp_true hp, pfxWord_eq]
  rfl

theorem exec_fmtC : exec (.fmtC fa fb fc) s = .next (s.afterC (Unit.withFormats fa fb fc)) := by
  have hx : exec (.fmtC fa fb fc) s = execFmtC fa fb fc s := rfl
  rw [hx, execFmtC, issue_free hp, setFormats_quiet _ _ _ hp]
  rfl

theorem exec_fmtA : exec (.fmtA fa fb fc) s = .next (s.afterA (Unit.withFormats fa fb fc)) := by
  have hx : exec (.fmtA fa fb fc) s = execFmtA fa fb fc s := rfl
  rw [hx, execFmtA, issue_free hp, setFormats_quiet _ _ _ hp]
  rfl

theorem exec_nop : exec .nop s = if s.cur.aslot then .next (s.afterA id) else .next (s.afterC id) := by
  have hx : exec .nop s = execNop s := rfl
  rw [hx, execNop, issue_free hp]
  rfl

end

section
variable (hp : tsrPp s.cur.tsr = true)
include hp

theorem raises_fmtC : Raises (.fmtC fa fb fc) s (s.bundleTrap .danglingPrefix) := by
  have hx : exec (.fmtC fa fb fc) s = execFmtC fa fb fc s := rfl
  exact raises_of_exec (hx.trans (issue_dangling rfl rfl hp _))

theorem raises_fmtA : Raises (.fmtA fa fb fc) s (s.bundleTrap .danglingPrefix) := by
  have hx : exec (.fmtA fa fb fc) s = execFmtA fa fb fc s := rfl
  exact raises_of_exec (hx.trans (issue_dangling rfl rfl hp _))

theorem raises_nop : Raises .nop s (s.bundleTrap .danglingPrefix) := by
  have hx : exec .nop s = execNop s := rfl
  exact raises_of_exec (hx.trans (issue_dangling rfl rfl hp _))

end

end

end Sys2Proof.Machine

open Sys2Proof Sys2Proof.Machine

/-- Settles O36: the hash by its rounds lane by lane, `fmt` and `nop` by whether formats are pending. -/
theorem blockHashFormatsAndNop : Obligations.BlockHashFormatsAndNop := by
  unfold Obligations.BlockHashFormatsAndNop
  refine ⟨?hash, ?formats⟩
  case hash =>
    intro s la d w hq hd h v
    have hv : blockHash (s.cur.getS d) (s.cur.getV w) = v := blockHash_eq_lanes _ _
    have hx := exec_hblk hq hd la
    rw [hv] at hx
    refine ⟨fun hla => ?_, hx⟩
    rw [hx, hla, openWindow_scalar_zero]
  case formats =>
    intro s fa fb fc v set
    refine ⟨fun hp => ⟨exec_fmtC fa fb fc hp, exec_fmtA fa fb fc hp, fun ha => ?_, fun ha => ?_⟩,
      fun hp => ⟨raises_fmtC fa fb fc hp, raises_fmtA fa fb fc hp, raises_nop hp⟩⟩
    · exact (exec_nop hp).trans (if_neg (Bool.not_eq_true _ ▸ ha))
    · exact (exec_nop hp).trans (if_pos ha)

end

