-- ==== Sys2Proof/Proofs/QueuePops.lean ====
section
/-! Pops and waits of the queue registers; O32 settled (R111, R112, R194 to R196, R339). -/

namespace Sys2Proof.Machine

/-! ### What a pop takes (R111, R194, R196) -/

/-- What is left of an element, one more of its words being taken, stays under its key; nothing stays of its last word. -/
def State.keepRest (t : State) (key : Nat) (e : Elem) : State :=
  if 8 * (e.taken + 1) < e.bytes.length then t.setCur { t.cur with part := t.cur.part ++ [(key, { e with taken := e.taken + 1 })] } else t

section
variable {s t : State} {q : QReg} {st : Nat} {e : Elem}

theorem popFor_word (h : s.frontAt q st = some (e, t)) : s.popFor q false st =
    some (sval (word (ofBytes ((e.bytes.drop (8 * e.taken)).take 8))), t.keepRest (partKey q st) e) := by
  simp [State.popFor, State.popWord, State.keepRest, h]

theorem popFor_whole (h : s.frontAt q st = some (e, t)) : s.popFor q true st =
    some (BitVec.ofNat 1024 (ofBytes (e.bytes.drop (8 * e.taken)) * 2 ^ (64 * e.taken)), t) := by
  simp [State.popFor, State.popWhole, h]

theorem popFor_empty (h : s.frontAt q st = none) (vector : Bool) : s.popFor q vector st = none := by
  cases vector <;> simp [State.popFor, State.popWord, State.popWhole, h]

end

/-- The head of q6, which no pop has begun: it is taken whole into the task, and the clears of its cluster take effect (R112). -/
theorem front_six {s : State} {e : Elem} {r : List Elem} (hpart : Sparse.find? s.cur.part 6 = none) (hq : s.cur.q6 = e :: r) :
    s.front 6 = some (e, (s.setCurCluster s.curCluster.applyClears).setCur
      { s.cur with q6 := r, task := { s.cur.task with popped := s.cur.task.popped ++ [(6, 0, e)] } }) := by
  have hkey : Sparse.find? s.cur.part (partKey 6 0) = none := hpart
  have helems : s.elemsAt 6 0 = e :: r := hq
  have hdrop : s.dropHead 6 0 = s.setCur { s.cur with q6 := r } := by
    have hd : s.dropHead 6 0 = s.setCur { s.cur with q6 := s.cur.q6.drop 1 } := rfl
    rw [hd, hq]
    rfl
  have hfront : s.front 6 = s.frontAt 6 0 := rfl
  rw [hfront, State.frontAt, hkey, helems]
  simp only [hdrop]
  rfl

/-! ### The outcomes of a pop (R194, R195) -/

section
variable {s t : State} {q : QReg} {vector : Bool} (la : BitVec 4) (dests : List RegKey)

theorem pop_takes {x : VWord} (h : s.popFor q vector (s.popStream q) = some (x, t)) : s.pop la dests q vector =
    .next ((t.openWindow la dests (some [x]) (.pop q vector (s.popStream q))).afterC id) := by
  rw [State.pop, h]
  rfl

theorem pop_empty (h : s.popFor q vector (s.popStream q) = none) : s.pop la dests q vector =
    if s.cur.popDeadlock q then s.raise (s.bundleTrap .selfDeadlock)
    else if la = 0 then .next s.waitTurn
    else .next ((s.openWindow la dests none (.pop q vector (s.popStream q))).afterC id) := by
  rw [State.pop, h]
  rfl

end

/-! ### The instructions (R196, R339) -/

section
variable {s : State} (hp : tsrPp s.cur.tsr = false)
include hp

theorem exec_qpop {d : SReg} {q : QReg} (hq : s.popOk q false = true) (ht : s.touches [s.cur.keyS d] = false)
    (hd : s.cur.namedS d = false) (la : BitVec 4) : exec (.qpop la d q) s = s.pop la (s.cur.destS d) q false := by
  have hx : exec (.qpop la d q) s = execQpop la d q s := rfl
  rw [hx, execQpop]
  exact issue_clear s _ _ hp nofun hq ht rfl hd

theorem exec_vqpop {w : VReg} {q : QReg} (hq : s.popOk q true = true) (ht : s.touches [.v w.toNat] = false)
    (hd : s.cur.namedV w = false) (la : BitVec 4) : exec (.vqpop la w q) s = s.pop la [.v w.toNat] q true := by
  have hx : exec (.vqpop la w q) s = execVqpop la w q s := rfl
  rw [hx, execVqpop]
  exact issue_clear s _ _ hp nofun hq ht rfl hd

variable {d : SReg} (ht : s.touches [s.cur.keyS d] = false) (hd : s.cur.namedS d = false)
include ht hd

theorem exec_qwait {q : QReg} (hq : s.qwaitOk q = true) (la : BitVec 4) : exec (.qwait la d q) s =
    if 0 < (s.elems q).length then
      .next ((s.openWindow la (s.cur.destS d) (some [sval (word (min (s.elems q).length 4095))]) (.qwait q (s.popStream q))).afterC id)
    else if s.cur.popDeadlock q then s.raise (s.bundleTrap .selfDeadlock)
    else if la = 0 then .next s.waitTurn
    else .next ((s.openWindow la (s.cur.destS d) none (.qwait q (s.popStream q))).afterC id) := by
  have hx : exec (.qwait la d q) s = execQwait la d q s := rfl
  rw [hx, execQwait]
  exact issue_clear s _ _ hp nofun hq ht rfl hd

theorem exec_wcwait (c : BitVec 8) (la : BitVec 4) : exec (.wcwait la d c) s =
    if s.cur.wcnt ≤ c.toNat then .next ((s.openWindow la (s.cur.destS d) (some [sval (word s.cur.wcnt)]) (.wcwait c.toNat)).afterC id)
    else if s.moveDeadlock then s.raiseStuck
    else if la = 0 then .next s.waitTurn
    else .next ((s.openWindow la (s.cur.destS d) none (.wcwait c.toNat)).afterC id) := by
  have hx : exec (.wcwait la d c) s = execWcwait la d c s := rfl
  rw [hx, execWcwait]
  exact issue_clear s _ _ hp nofun rfl ht rfl hd

end

end Sys2Proof.Machine

open Sys2Proof Sys2Proof.Machine

/-- Settles O32: a pop by what stands at the front of its queue, `qwait` and `wcwait` by the count that they read. -/
theorem popsTakeTheHeadOfTheQueue : Obligations.PopsTakeTheHeadOfTheQueue := by
  unfold Obligations.PopsTakeTheHeadOfTheQueue
  intro s la d w q c hp
  refine ⟨fun i vector ks dests hi hok ht hlive => ?pops, fun e r hpart hq => front_six hpart hq,
    fun ht hd => ⟨fun hok => ?qwait, ?wcwait⟩⟩
  case pops =>
    have hx : exec i s = s.pop la dests q vector := by
      simp only [List.mem_cons, List.not_mem_nil, or_false, Prod.mk.injEq] at hi
      obtain ⟨rfl, rfl, rfl, rfl⟩ | ⟨rfl, rfl, rfl, rfl⟩ := hi
      · exact exec_qpop hp hok ht hlive la
      · exact exec_vqpop hp hok ht hlive la
    refine ⟨fun e t hfront => ⟨?word, ?whole⟩, fun hfront => ?empty⟩
    case word =>
      rintro rfl
      exact hx.trans (pop_takes la dests (popFor_word hfront))
    case whole =>
      rintro rfl
      exact hx.trans (pop_takes la dests (popFor_whole hfront))
    case empty =>
      have he := hx.trans (pop_empty la dests (popFor_empty hfront vector))
      refine ⟨fun hdead => raises_of_exec (he.trans (if_pos hdead)), fun hlive hla => ?_, fun hlive hla => ?_⟩
      all_goals rw [he, if_neg (Bool.not_eq_true _ ▸ hlive)]
      · exact if_pos hla
      · exact if_neg hla
  case qwait =>
    have hx := exec_qwait hp ht hd hok la
    refine ⟨fun hne => hx.trans (if_pos (List.length_pos_iff.2 hne)), fun he hlive hla => ?_⟩
    have hzero : ¬0 < (s.elems q).length := by simp [he]
    rw [hx, if_neg hzero, if_neg (Bool.not_eq_true _ ▸ hlive), if_pos hla]
  case wcwait =>
    have hx := exec_wcwait hp ht hd c la
    refine ⟨fun hle => hx.trans (if_pos hle), fun hlt hlive hla => ?_⟩
    rw [hx, if_neg (Nat.not_le.2 hlt), if_neg (Bool.not_eq_true _ ▸ hlive), if_pos hla]

end

