-- ==== Sys2Proof/Proofs/RopeInstructions.lean ====
section
/-! The rope instructions in their three forms and the instructions `pfx.*`; O35 settled (R113 to R116, R132, R346). -/

namespace Sys2Proof.Machine

/-! ### Registers of a command (R114, R132) -/

theorem regsFrom_two (d : SReg) : regsFrom d 2 = [d, d + 1] := by
  simp [regsFrom, upTo, List.range_succ]

theorem regsFrom_three (d : SReg) : regsFrom d 3 = [d, d + 1, d + 2] := by
  simp [regsFrom, upTo, List.range_succ]

theorem regsFrom_four (d : SReg) : regsFrom d 4 = [d, d + 1, d + 2, d + 3] := by
  simp [regsFrom, upTo, List.range_succ]

/-! ### Held commands (R194) -/

theorem push_yes_held {s : State} (h : s.cur.task.held.length < 64) (x : Held) : s.push .yes x false = .next (s.afterHold x) :=
  if_pos h

/-! ### What a returning form awaits (R116, R132, R346) -/

/-- The command of a returning form as it stands once its commit has ended in `t`. -/
def State.ownRope (t : State) (c : RopeCmd) : RopeCmd := { c with by' := t.issuer, pend := t.ids, order := t.cur.visibleAt }

/-- The command of a returning form is with the engine and awaits `last`, or stands behind the earlier accesses of its unit; the
registers `l` are pending. -/
def State.answersTo (t : State) (la : BitVec 4) (l : List SReg) (last : Act) (c : RopeCmd) : State :=
  (if t.cur.orderedBefore t.ids then t.openWindow la (t.cur.keysS l) none (.rope (t.ownRope c))
    else (t.releaseRope (t.ownRope c)).openWindow la (t.cur.keysS l) none last).afterC id

theorem ropeAct_eq (t : State) (la : BitVec 4) (d : SReg) (c : RopeCmd) :
    t.ropeAct la d c = .next (t.answersTo la (regsFrom d (if c.fn.isPfx then 2 else 4)) c.fn.awaits c) := by
  unfold State.ropeAct State.answersTo
  cases t.cur.orderedBefore t.ids <;> rfl

theorem ropeAct_record {c : RopeCmd} (h : c.fn.isPfx = false) (t : State) (la : BitVec 4) (d : SReg) :
    t.ropeAct la d c = .next (t.answersTo la [d, d + 1, d + 2, d + 3] .record c) := by
  rw [ropeAct_eq, RopeFn.awaits, h, if_neg Bool.false_ne_true, if_neg Bool.false_ne_true, regsFrom_four]

theorem ropeAct_answer {c : RopeCmd} (h : c.fn.isPfx = true) (t : State) (la : BitVec 4) (d : SReg) :
    t.ropeAct la d c = .next (t.answersTo la [d, d + 1] .answer c) := by
  rw [ropeAct_eq, RopeFn.awaits, h, if_pos rfl, if_pos rfl, regsFrom_two]

/-! ### The three forms (R113 to R116) -/

section
variable {s : State} {d : SReg} (hp : tsrPp s.cur.tsr = false) (fn : RopeFn) (la : BitVec 4) (tag : BitVec 6)
include hp

theorem rope_operand (form : RopeForm) (hd : 28 < d.toNat) :
    s.rope fn la d tag form = s.raise (s.bundleTrap .illegalOperand) := by
  unfold State.rope
  exact issue_operand s _ _ hp nofun (decide_eq_false (Nat.not_le.2 hd))

variable (hd : d.toNat ≤ 28) (ht : s.touches (s.cur.keysS [d, d + 1, d + 2, d + 3]) = false)
include hd ht

theorem rope_plain : s.rope fn la d tag .plain =
    if s.cur.ropePlaces ≥ 16 then s.raise (s.bundleTrap .selfDeadlock) else s.push .yes (.rope (s.ropeCmd fn .plain d tag)) false := by
  unfold State.rope
  exact issue_clear s _ _ hp nofun (decide_eq_true hd) (regsFrom_four d ▸ ht) rfl rfl

theorem rope_inbox : s.rope fn la d tag .inbox = s.push .yes (.rope (s.ropeCmd fn .inbox d tag)) false := by
  unfold State.rope
  exact issue_clear s _ _ hp nofun (decide_eq_true hd) (regsFrom_four d ▸ ht) rfl rfl

theorem rope_returning (hlive : [d, d + 1, d + 2, d + 3].any s.cur.namedS = false) {t : State}
    (hc : s.CommitsTo (.rope la d (s.ropeCmd fn .returning d tag)) false t) :
    s.rope fn la d tag .returning = t.ropeAct la d (s.ropeCmd fn .returning d tag) := by
  have hl : (true && (regsFrom d 4).any s.cur.namedS) = false := by rw [regsFrom_four, Bool.true_and, hlive]
  unfold State.rope
  exact Eq.trans (issue_clear s _ _ hp nofun (decide_eq_true hd) (regsFrom_four d ▸ ht) rfl hl) (withCommit_ended hc _)

end

/-! ### The instructions `pfx.*` (R132) -/

/-- What they ask of the checks at issue: `look` reads one register more. -/
def State.pfxNeed (s : State) (f : PfxFn) (d : SReg) : Need :=
  { ok := decide (d.toNat ≤ 29), touch := (regsFrom d (if f = .look then 3 else 2)).map s.cur.keyS,
    live := (regsFrom d 2).any s.cur.namedS }

/-- Their one meaning: they commit, then act through the rope engine. -/
def State.pfx (s : State) (f : PfxFn) (la : BitVec 4) (d : SReg) : Out :=
  s.issue (s.pfxNeed f d) fun t => t.withCommit (.rope la d (t.ropeCmd (.pfx f) .returning d 0)) false fun u =>
    u.ropeAct la d (t.ropeCmd (.pfx f) .returning d 0)

/-- The registers that one of them reads are among s[d] to s[d + 2]. -/
theorem pfx_reads_sub (f : PfxFn) (d : SReg) : ∀ r ∈ regsFrom d (if f = .look then 3 else 2), r ∈ [d, d + 1, d + 2] := by
  intro r hr
  split at hr
  · rwa [regsFrom_three] at hr
  · rw [regsFrom_two] at hr
    exact List.mem_append_left [d + 2] hr

section
variable {s : State} {d : SReg} (f : PfxFn) (la : BitVec 4)

theorem exec_pfxLook : exec (.pfxLook la d) s = s.pfx .look la d := rfl
theorem exec_pfxAdd : exec (.pfxAdd la d) s = s.pfx .add la d := rfl
theorem exec_pfxPin : exec (.pfxPin la d) s = s.pfx .pin la d := rfl
theorem exec_pfxUnpin : exec (.pfxUnpin la d) s = s.pfx .unpin la d := rfl

variable (hp : tsrPp s.cur.tsr = false)
include hp

theorem pfx_operand (hd : 29 < d.toNat) : s.pfx f la d = s.raise (s.bundleTrap .illegalOperand) :=
  issue_operand s (s.pfxNeed f d) _ hp nofun (decide_eq_false (Nat.not_le.2 hd))

theorem pfx_commits (hd : d.toNat ≤ 29) (ht : s.touches (s.cur.keysS [d, d + 1, d + 2]) = false)
    (hlive : [d, d + 1].any s.cur.namedS = false) {t : State}
    (hc : s.CommitsTo (.rope la d (s.ropeCmd (.pfx f) .returning d 0)) false t) :
    s.pfx f la d = t.ropeAct la d (s.ropeCmd (.pfx f) .returning d 0) := by
  have hreads : s.touches (s.pfxNeed f d).touch = false := touches_sub ht (List.map_subset _ (pfx_reads_sub f d))
  have hl : (s.pfxNeed f d).live = false := (congrArg (List.any · s.cur.namedS) (regsFrom_two d)).trans hlive
  exact (issue_clear s (s.pfxNeed f d) _ hp nofun (decide_eq_true hd) hreads rfl hl).trans (withCommit_ended hc _)

end

end Sys2Proof.Machine

open Sys2Proof Sys2Proof.Machine

/-- Settles O35: a rope instruction by its form, an instruction `pfx.*` by its commit and what it then awaits. -/
theorem ropeCommandsAreHeldOrAnswered : Obligations.RopeCommandsAreHeldOrAnswered := by
  unfold Obligations.RopeCommandsAreHeldOrAnswered
  intro s t la d tag form hp cmd answered
  refine ⟨fun i fn hi => ?ropes, fun i fn hi => ?pfx⟩
  case ropes =>
    have hx : exec i s = s.rope fn la d tag form ∧ fn.isPfx = false := by
      simp only [List.mem_cons, List.not_mem_nil, or_false, Prod.mk.injEq] at hi
      obtain ⟨rfl, rfl⟩ | ⟨rfl, rfl⟩ | ⟨rfl, rfl⟩ | ⟨rfl, rfl⟩ | ⟨rfl, rfl⟩ | ⟨rfl, rfl⟩ | ⟨rfl, rfl⟩ | ⟨rfl, rfl⟩ | ⟨rfl, rfl⟩ |
        ⟨rfl, rfl⟩ | ⟨rfl, rfl⟩ | ⟨rfl, rfl⟩ := hi
      all_goals exact ⟨rfl, rfl⟩
    obtain ⟨hx, hpfx⟩ := hx
    refine ⟨fun hd => raises_of_exec (hx.trans (rope_operand hp fn la tag form hd)), fun hd ht => ⟨?full, ?plain, ?inbox, ?returning⟩⟩
    case full =>
      rintro rfl hfull
      exact raises_of_exec (hx.trans ((rope_plain hp fn la tag hd ht).trans (if_pos hfull)))
    case plain =>
      rintro rfl hfree hroom
      exact hx.trans ((rope_plain hp fn la tag hd ht).trans ((if_neg (Nat.not_le.2 hfree)).trans (push_yes_held hroom _)))
    case inbox =>
      rintro rfl hroom
      exact hx.trans ((rope_inbox hp fn la tag hd ht).trans (push_yes_held hroom _))
    case returning =>
      rintro rfl hlive hc
      exact ⟨hpfx, hx.trans ((rope_returning hp fn la tag hd ht hlive hc).trans (ropeAct_record hpfx t la d))⟩
  case pfx =>
    have hx : exec i s = s.pfx fn la d := by
      simp only [List.mem_cons, List.not_mem_nil, or_false, Prod.mk.injEq] at hi
      obtain ⟨rfl, rfl⟩ | ⟨rfl, rfl⟩ | ⟨rfl, rfl⟩ | ⟨rfl, rfl⟩ := hi
      · exact exec_pfxLook la
      · exact exec_pfxAdd la
      · exact exec_pfxPin la
      · exact exec_pfxUnpin la
    refine ⟨fun hd => raises_of_exec (hx.trans (pfx_operand fn la hp hd)), fun hd ht hlive hc => ?_⟩
    exact hx.trans ((pfx_commits fn la hp hd ht hlive hc).trans (ropeAct_answer rfl t la d))

end

