-- ==== Sys2Proof/Proofs/InstructionChecks.lean ====
section
/-! The checks of an instruction and of an access, each raising its own trap where those before it pass; O17 settled (R175, R394). -/

namespace Sys2Proof.Machine

/-! ### The checks of an instruction (R41, R225, R394) -/

section
variable {s : State} {n : Need} (hp : tsrPp s.cur.tsr = false) (hs : n.sup = false) (ho : n.ok = true) (k : State → Out)
include hp hs ho

/-- A register that is still pending stops an instruction whose operands are legal (R41). -/
theorem issue_lookahead (ht : s.touches n.touch = true) : s.issue n k = s.raise (s.bundleTrap .lookaheadViolation) :=
  issue_trap _ _ _ _ (by simp [State.trapOf, hs, hp, ho, ht])

/-- A live-in destination stops an instruction that every other check lets through (R225). -/
theorem issue_liveIn (ht : s.touches n.touch = false) (ha : n.addr.findSome? id = none) (hl : n.live = true) :
    s.issue n k = s.raise (s.bundleTrap .liveIn) :=
  issue_trap _ _ _ _ (by simp [State.trapOf, hs, hp, ho, ht, ha, hl])

end

/-! ### The checks of an access (R175) -/

section
variable {s : State} {ea : Word} {m align : Nat}

theorem bits_canonical (h : ea.toNat < 2 ^ 56) : bits ea 63 56 = 0 := bits_eq_zero_of_lt h 63

theorem addrChecks_range (h : 2 ^ 56 ≤ ea.toNat) : (s.addrChecks ea m align).findSome? id = some (addressTrap .addressRange ea) := by
  have hb : bits ea 63 56 ≠ 0 := by simp only [bits]; omega
  simp [State.addrChecks, hb]

theorem addrChecks_misaligned (hc : ea.toNat < 2 ^ 56) (ha : ea.toNat % align ≠ 0) :
    (s.addrChecks ea m align).findSome? id = some (addressTrap .misaligned ea) := by
  simp [State.addrChecks, bits_canonical hc, ha]

theorem addrChecks_refused (hc : ea.toNat < 2 ^ 56) (ha : ea.toNat % align = 0) (hl : s.loftRefused ea m = true) :
    (s.addrChecks ea m align).findSome? id = some (addressTrap .loftAccess ea) := by
  simp [State.addrChecks, bits_canonical hc, ha, hl]

end

/-- `i` issues as an access of `m` bytes at `ea`, any of whose registers is one of `ks`: no operand of it is illegal. -/
def Accesses (i : Instr) (s : State) (m align : Nat) (ea : Word) (ks : List RegKey) : Prop :=
  ∃ (live : Bool) (k : State → Out), exec i s = s.issue { touch := ks, addr := s.addrChecks ea m align, live } k

section
variable {s : State} {la : BitVec 4} {d b : SReg} {w : VReg} {o : MemOff} {i : Instr}

theorem accesses_loadS {m : Nat} {signed : Bool} (hx : exec i s = s.loadS la d b o m signed) :
    Accesses i s m m (s.cur.getS b + offsetOf o m) (s.cur.keysS [d, b]) := by
  unfold State.loadS at hx
  exact ⟨_, _, hx⟩

theorem accesses_storeS {m : Nat} (hx : exec i s = s.storeS d b o m) :
    Accesses i s m m (s.cur.getS b + offsetOf o m) (s.cur.keysS [d, b]) := by
  unfold State.storeS at hx
  exact ⟨_, _, hx⟩

theorem accesses_vld : Accesses (.vld la w b o) s 128 4 (s.cur.getS b + offsetOf o 128) [.v w.toNat, s.cur.keyS b] := by
  have hx : exec (.vld la w b o) s = execVld la w b o s := rfl
  unfold execVld at hx
  exact ⟨_, _, hx⟩

theorem accesses_vst : Accesses (.vst w b o) s 128 4 (s.cur.getS b + offsetOf o 128) [.v w.toNat, s.cur.keyS b] := by
  have hx : exec (.vst w b o) s = execVst w b o s := rfl
  unfold execVst at hx
  exact ⟨_, _, hx⟩

theorem accesses_aaddN : Accesses (.aaddN b (.reg d) .w) s 4 4 (s.cur.getS b) (s.cur.keysS [b, d]) := by
  have hx : exec (.aaddN b (.reg d) .w) s = s.reduction .add b (.reg d) .w := rfl
  unfold State.reduction at hx
  exact ⟨_, _, hx⟩

theorem accesses_aadd : Accesses (.aadd la d b (.reg d) .w) s 4 4 (s.cur.getS b) (s.cur.keysS [d, b, d]) := by
  have hx : exec (.aadd la d b (.reg d) .w) s = s.atomic .add la d b (.reg d) .w := rfl
  unfold State.atomic at hx
  exact ⟨_, _, hx⟩

end

/-- An access whose registers are settled raises the trap of the first check of its address that fails. -/
theorem Accesses.raises {i : Instr} {s : State} {m align : Nat} {ea : Word} {ks : List RegKey} (h : Accesses i s m align ea ks)
    (hq : s.Quiet ks) {t : TrapInfo} (ht : (s.addrChecks ea m align).findSome? id = some t) : Raises i s t := by
  obtain ⟨live, k, hx⟩ := h
  exact raises_of_exec (hx.trans (issue_address s _ k t hq.1 nofun rfl hq.2 ht))

/-! ### Instructions as they issue (R40, R211) -/

section
variable (s : State) (d : SReg)

/-- A scalar A-slot result under p0, which is always true (R191). -/
theorem writeS_always (srcs : List SReg) (x : Word) : s.writeS 0 d srcs x =
    s.issue { touch := (d :: srcs).map s.cur.keyS, live := s.cur.namedS d } fun t => (t.modCur fun u => u.setS d x).doneA := rfl

theorem divideOp_issue (la : BitVec 4) (a : SReg) (b : RegLit) (f : Word → Word → Word) (zero : Word → Bool) :
    s.divideOp la d a b f zero =
      s.issue { touch := s.cur.keyS d :: s.cur.keyS a :: s.cur.operandKeys b, live := s.cur.namedS d } fun t =>
        (t.openWindow la (t.cur.destS d) (some [sval (f (s.cur.getS a) (s.cur.operand b))]) .answer (zero (s.cur.operand b))).doneC
          (regLit b) := rfl

end

end Sys2Proof.Machine

open Sys2Proof Sys2Proof.Machine

/-- Settles O17: the checks of an access by the first of them that fails, those of an instruction in the order of their codes. -/
theorem checksOfInstructionsAndAccesses : Obligations.ChecksOfInstructionsAndAccesses := by
  unfold Obligations.ChecksOfInstructionsAndAccesses
  refine ⟨fun s la d b w o i n align ea ks hi hq => ?access, fun s d a b n la o q => ⟨fun hu i hi => ?privilege, fun hp i hi => ?prefixed,
    fun hp => ⟨?add, ?load⟩, fun hq hl => ⟨?liveAdd, ?liveLoad⟩⟩⟩
  case access =>
    have ha : Accesses i s n align ea ks := by
      simp only [List.map_cons, List.map_nil, List.cons_append, List.nil_append, List.mem_cons, List.not_mem_nil, or_false,
        Prod.mk.injEq] at hi
      obtain ⟨rfl, rfl, rfl, rfl, rfl⟩ | ⟨rfl, rfl, rfl, rfl, rfl⟩ | ⟨rfl, rfl, rfl, rfl, rfl⟩ | ⟨rfl, rfl, rfl, rfl, rfl⟩ |
        ⟨rfl, rfl, rfl, rfl, rfl⟩ | ⟨rfl, rfl, rfl, rfl, rfl⟩ | ⟨rfl, rfl, rfl, rfl, rfl⟩ | ⟨rfl, rfl, rfl, rfl, rfl⟩ |
        ⟨rfl, rfl, rfl, rfl, rfl⟩ | ⟨rfl, rfl, rfl, rfl, rfl⟩ | ⟨rfl, rfl, rfl, rfl, rfl⟩ | ⟨rfl, rfl, rfl, rfl, rfl⟩ |
        ⟨rfl, rfl, rfl, rfl, rfl⟩ | ⟨rfl, rfl, rfl, rfl, rfl⟩ | ⟨rfl, rfl, rfl, rfl, rfl⟩ := hi
      · exact accesses_loadS (la := la) (signed := false) rfl
      · exact accesses_loadS (la := la) (signed := false) rfl
      · exact accesses_loadS (la := la) (signed := false) rfl
      · exact accesses_loadS (la := la) (signed := false) rfl
      · exact accesses_loadS (la := la) (signed := true) rfl
      · exact accesses_loadS (la := la) (signed := true) rfl
      · exact accesses_loadS (la := la) (signed := true) rfl
      · exact accesses_storeS rfl
      · exact accesses_storeS rfl
      · exact accesses_storeS rfl
      · exact accesses_storeS rfl
      · exact accesses_vld
      · exact accesses_vst
      · exact accesses_aaddN
      · exact accesses_aadd
    exact ⟨fun h => ha.raises hq (addrChecks_range h), fun hc h => ha.raises hq (addrChecks_misaligned hc h),
      fun hc h hl => ha.raises hq (addrChecks_refused hc h hl)⟩
  case privilege =>
    simp only [List.mem_cons, List.not_mem_nil, or_false] at hi
    obtain rfl | rfl | rfl | rfl | rfl | rfl | rfl | rfl := hi
    · exact raises_of_exec (Eq.trans (b := execRte s) rfl (issue_privilege rfl hu _))
    · exact raises_of_exec (Eq.trans (b := execTkill n s) rfl (issue_privilege rfl hu _))
    · exact raises_ptw hu
    · exact raises_frep hu
    · exact raises_of_exec (Eq.trans (b := execMfsr d .epc s) rfl (issue_privilege rfl hu _))
    · exact raises_of_exec (Eq.trans (b := execMfsr d .cause s) rfl (issue_privilege rfl hu _))
    · exact raises_of_exec (Eq.trans (b := execMtsr a .epc s) rfl (issue_privilege rfl hu _))
    · exact raises_of_exec (Eq.trans (b := execMtsr a .cause s) rfl (issue_privilege rfl hu _))
  case prefixed =>
    have hx : ∃ n k, exec i s = s.issue n k ∧ n.sup = false ∧ n.fmts = false := by
      simp only [List.mem_cons, List.not_mem_nil, or_false] at hi
      obtain rfl | rfl | rfl | rfl | rfl | rfl | rfl := hi
      · exact ⟨_, _, writeS_always s d [a, b] _, rfl, rfl⟩
      · exact ⟨_, _, writeS_always s d [a, b] _, rfl, rfl⟩
      · exact ⟨_, _, writeS_always s d [] _, rfl, rfl⟩
      · obtain ⟨_, k, hx⟩ := accesses_loadS (s := s) (i := .ldD la d b o) (signed := false) rfl
        exact ⟨_, k, hx, rfl, rfl⟩
      · obtain ⟨_, k, hx⟩ := accesses_storeS (s := s) (i := .stD d b o) rfl
        exact ⟨_, k, hx, rfl, rfl⟩
      · exact ⟨_, _, Eq.trans (b := execQpop la d q s) rfl rfl, rfl, rfl⟩
      · exact ⟨_, _, divideOp_issue s d la a (.reg b) (divide true false) (· == 0), rfl, rfl⟩
    obtain ⟨n, k, hx, hs, hf⟩ := hx
    exact raises_of_exec (hx.trans (issue_dangling hs hf hp k))
  case add => exact fun ht => raises_of_exec ((writeS_always s d [a, b] _).trans (issue_lookahead hp rfl rfl _ ht))
  case load =>
    obtain ⟨_, k, hx⟩ := accesses_loadS (s := s) (i := .ldD la d b o) (signed := false) rfl
    exact fun ht => raises_of_exec (hx.trans (issue_lookahead hp rfl rfl k ht))
  case liveAdd => exact raises_of_exec ((writeS_always s d [a, b] _).trans (issue_liveIn hq.1 rfl rfl _ hq.2 rfl hl))
  case liveLoad =>
    intro hr
    have ht : s.touches (s.cur.keysS [d, b]) = false := (quiet_sub hq (List.map_subset _ (by simp))).2
    have hx : exec (.ldD la d b o) s = s.loadS la d b o 8 false := rfl
    unfold State.loadS at hx
    exact raises_of_exec (hx.trans (issue_liveIn hq.1 rfl rfl _ ht (addrChecks_reaches hr) hl))

end

