-- ==== Sys2Proof/Proofs/TagsAndCacheControl.lean ====
section
/-! `vst.tag`, address formation and the control of the Loft and the ways; O16 settled (R173, R177, R181, R183 to R185, R214). -/

namespace Sys2Proof.Machine

/-! ### vst.tag (R173, R177) -/

/-- Where the words of an operation and the numbers in `extra` find room, the task holds it. -/
theorem bufferOps_room_extra {s : State} {ea : Word} {n : Nat} {extra : List Nat}
    (h : (s.cur.wordsWith (vaWords ea n ++ extra)).length ≤ Config.bufferWords) (ops : List TaskOp) (k : State → Out) :
    s.bufferOps ea n extra ops k =
      k (s.modCur fun u => { u with task := { u.task with ops := u.task.ops ++ ops, words := s.cur.wordsWith (vaWords ea n ++ extra) } }) := by
  simp [State.bufferOps, h]

/-- The task without an earlier tag write to the granule of `ea`. -/
def State.withoutTag (s : State) (ea : Word) : State :=
  s.setCur { s.cur with task := { s.cur.task with ops := dropTag s.cur ea s.cur.task.ops } }

/-- The operations that stay: all but the tag writes to the granule. -/
theorem dropTag_eq (u : Unit) (ea : Word) (l : List TaskOp) : dropTag u ea l = l.filter fun op => match op with
    | .tag va _ => !(u.apertureBank va == u.apertureBank ea && u.granule va == u.granule ea)
    | .store _ _ => true
    | .reduce _ _ _ _ => true :=
  List.filter_congr fun op _ => by cases op <;> rfl

section
variable {s : State} {w : VReg} {b : SReg} {o : MemOff} (hq : s.Quiet [.v w.toNat, s.cur.keyS b])
  (hr : s.Reaches (s.cur.getS b + offsetOf o 128) 128 128)
include hq hr

theorem execVstTag_clear (hi : s.cur.inAperture (s.cur.getS b + offsetOf o 128) = true)
    (hb : s.cur.apertureBank (s.cur.getS b + offsetOf o 128) ≤ 13) : execVstTag w b o s =
      (s.withoutTag (s.cur.getS b + offsetOf o 128)).bufferOps (s.cur.getS b + offsetOf o 128) 128
        [tagWord (s.cur.apertureBank (s.cur.getS b + offsetOf o 128)) (s.cur.granule (s.cur.getS b + offsetOf o 128))]
        [.store (s.cur.getS b + offsetOf o 128) (bytesOf 128 (s.cur.getV w).toNat),
          .tag (s.cur.getS b + offsetOf o 128) (BitVec.ofNat 16 s.cur.xtag.toNat)] fun t => t.doneC (memLit o) := by
  unfold execVstTag
  exact issue_access hq (tagChecks_reaches hr hi hb) rfl _

/-- Where the buffer has room for the data and the granule, the task holds the data and the tag (R177, R326). -/
theorem execVstTag_room (hi : s.cur.inAperture (s.cur.getS b + offsetOf o 128) = true)
    (hb : s.cur.apertureBank (s.cur.getS b + offsetOf o 128) ≤ 13)
    (hw : (s.cur.wordsWith (vaWords (s.cur.getS b + offsetOf o 128) 128 ++
      [tagWord (s.cur.apertureBank (s.cur.getS b + offsetOf o 128)) (s.cur.granule (s.cur.getS b + offsetOf o 128))])).length ≤
        Config.bufferWords) :
    execVstTag w b o s = .next (s.afterC (fun u => { u with task := { u.task with
      ops := dropTag s.cur (s.cur.getS b + offsetOf o 128) s.cur.task.ops ++
        [.store (s.cur.getS b + offsetOf o 128) (bytesOf 128 (s.cur.getV w).toNat),
          .tag (s.cur.getS b + offsetOf o 128) (BitVec.ofNat 16 s.cur.xtag.toNat)]
      words := s.cur.wordsWith (vaWords (s.cur.getS b + offsetOf o 128) 128 ++
        [tagWord (s.cur.apertureBank (s.cur.getS b + offsetOf o 128)) (s.cur.granule (s.cur.getS b + offsetOf o 128))]) } })
      (memLit o)) :=
  (execVstTag_clear hq hr hi hb).trans (bufferOps_room_extra (s := s.withoutTag _) hw _ _)

/-- A granule outside banks 0 to 13 has no tag. -/
theorem execVstTag_refused (h : s.cur.inAperture (s.cur.getS b + offsetOf o 128) = false ∨
    13 < s.cur.apertureBank (s.cur.getS b + offsetOf o 128)) :
    execVstTag w b o s = s.raise (addressTrap .loftAccess (s.cur.getS b + offsetOf o 128)) := by
  have ht : s.tagCheck (s.cur.getS b + offsetOf o 128) = some (addressTrap .loftAccess (s.cur.getS b + offsetOf o 128)) := by
    refine if_neg ?_
    obtain h | h := h <;> simp [h]
  have ha : (s.addrChecks (s.cur.getS b + offsetOf o 128) 128 128 ++ [s.tagCheck (s.cur.getS b + offsetOf o 128)]).findSome? id =
      some (addressTrap .loftAccess (s.cur.getS b + offsetOf o 128)) := by
    simp [List.findSome?_append, addrChecks_reaches hr, ht]
  unfold execVstTag
  exact issue_address s _ _ _ hq.1 nofun rfl hq.2 ha

end

/-! ### Address formation and control of the Loft (R183 to R185, R214) -/

/-- An instruction without an address, which nothing stops, has its effect in the state itself. -/
theorem issue_plain {s : State} {ks : List RegKey} {ok live : Bool} (hp : tsrPp s.cur.tsr = false) (ho : ok = true)
    (ht : s.touches ks = false) (hl : live = false) (k : State → Out) : s.issue { ok, touch := ks, live } k = k s :=
  issue_clear s _ k hp nofun ho ht rfl hl

section
variable {s : State} {d a b : SReg} {o : MemOff} (hp : tsrPp s.cur.tsr = false)
include hp

theorem execAdr_clear (ht : s.touches (s.cur.keysS [d, b]) = false) (hd : s.cur.namedS d = false) : execAdr d b o s =
    .next (s.afterC (fun u => u.setS d ((if b = 0 then s.cur.pc else s.cur.getS b) + offsetOf o 1)) (memLit o)) := by
  unfold execAdr
  exact issue_plain hp rfl ht hd _

theorem execLstat_clear (ht : s.touches (s.cur.keysS [d, a]) = false) (hd : s.cur.namedS d = false) (hx : (s.cur.getS a).toNat ≤ 24) :
    execLstat d a s = .next (s.afterC fun u => u.setS d (s.curCluster.lstat (s.cur.getS a).toNat)) := by
  unfold execLstat
  exact issue_plain hp (decide_eq_true hx) ht hd _

theorem execLstat_operand (hx : 24 < (s.cur.getS a).toNat) : execLstat d a s = s.raise (s.bundleTrap .illegalOperand) := by
  unfold execLstat
  exact issue_operand s _ _ hp nofun (decide_eq_false (Nat.not_le.2 hx))

theorem execLtag_clear (ht : s.touches (s.cur.keysS [d, a]) = false) (hd : s.cur.namedS d = false) (hr : s.Reaches (s.cur.getS a) 128 128)
    (hi : s.cur.inAperture (s.cur.getS a) = true) (hb : s.cur.apertureBank (s.cur.getS a) ≤ 13) (hw : s.tagWaits (s.cur.getS a) = false) :
    execLtag d a s = .next ((s.tagSig (s.cur.getS a)).afterC fun u => u.setS d ((s.tagAt (s.cur.getS a)).zeroExtend 64)) := by
  unfold execLtag
  exact (issue_access ⟨hp, ht⟩ (tagChecks_reaches hr hi hb) hd _).trans (if_neg (Bool.eq_false_iff.1 hw))

theorem execSbind_clear (ht : s.touches [s.cur.keyS a] = false) (hb : s.bindOk s.cur (s.cur.getS a) = true)
    (ho : (s.partialOut && outputChanges s.cur.sbind (s.cur.getS a)) = false) :
    execSbind a s = .next (s.afterC fun u => { u with sbind := s.cur.getS a }) := by
  unfold execSbind
  exact issue_plain hp (by simp [hb, ho]) ht rfl _

end

/-- A configuration word, the word of a range register, or the number of banks in CACHE mode, by the index (R183). -/
theorem lstat_config {x : Nat} (c : Cluster) (h : x < 16) : c.lstat x = c.configOf x := if_pos h

theorem lstat_range {x : Nat} (c : Cluster) (h : 16 ≤ x) (h' : x < 24) : c.lstat x =
    match Sparse.find? c.ranges (x - 16) with
    | some r => r.word
    | none => 0 :=
  (if_neg (Nat.not_lt.2 h)).trans (if_pos h')

/-! ### cpf and cinv (R181) -/

theorem spanOk_iff (a n : Word) : spanOk a n = true ↔ (1 ≤ n.toNat ∧ n.toNat ≤ 65536) ∧ a.toNat % 4 = 0 ∧ a.toNat < 2 ^ 56 := by
  have hb : bits a 63 56 = 0 ↔ a.toNat < 2 ^ 56 := by
    simp only [bits]
    omega
  simp [spanOk, hb, and_assoc]

section
variable {s : State} {a b : SReg} (hp : tsrPp s.cur.tsr = false)
include hp

theorem cinv_cpf_operand (h : spanOk (s.cur.getS a) (s.cur.getS b) = false) :
    execCinv a b s = s.raise (s.bundleTrap .illegalOperand) ∧ execCpf a b s = s.raise (s.bundleTrap .illegalOperand) := by
  unfold execCinv execCpf
  exact ⟨issue_operand s _ _ hp nofun h, issue_operand s _ _ hp nofun h⟩

variable (ht : s.touches (s.cur.keysS [a, b]) = false) (h : spanOk (s.cur.getS a) (s.cur.getS b) = true)
include ht h

theorem execCinv_clear : execCinv a b s =
    .next ((s.setCurCluster (s.curCluster.invalidate s.cur (s.cur.getS a).toNat (s.cur.getS b).toNat)).afterC id) := by
  unfold execCinv
  exact issue_plain hp h ht rfl _

theorem execCpf_clear : execCpf a b s =
    .next (((pieces256 (s.cur.getS a).toNat (s.cur.getS b).toNat).foldl (fun (t : State) p =>
      if t.cur.inAperture (word p.1) then t
      else t.prefetch { loc := t.cur.loc, job := t.cur.job, supervisor := tsrSup t.cur.tsr, secure := t.cur.secure, va := p.1,
                        size := (p.2 + 3) / 4 * 4 }) s).afterC id) := by
  unfold execCpf
  exact issue_plain hp h ht rfl _

end

end Sys2Proof.Machine

open Sys2Proof Sys2Proof.Machine

/-- Settles O16: each instruction by its own equation, a `bufferOps` with the number of the granule's tag for `vst.tag`. -/
theorem tagsAddressesAndCacheControl : Obligations.TagsAddressesAndCacheControl := by
  unfold Obligations.TagsAddressesAndCacheControl
  refine ⟨?tags, ?control⟩
  case tags =>
    intro s w b o ea u hq hr
    refine ⟨?_, fun h => execVstTag_refused hq hr h⟩
    intro hi hb words hw
    have hx := execVstTag_room hq hr hi hb hw
    rw [dropTag_eq, bytesOf_eq_map_range] at hx
    exact hx
  case control =>
    intro s d a b o hp x y off
    refine ⟨fun ht hd => ?adr, fun ht hd => ⟨fun hx => ?config, fun hx hx' => ?range, fun hx => ?banks, execLtag_clear hp ht hd⟩,
      execSbind_clear hp, fun ht hn hn' hal hc => ?spans, fun h => ?spanOperand, execLstat_operand hp⟩
    case adr =>
      have hoff : off = offsetOf o 1 := by cases o <;> simp [off, offsetOf, word]
      rw [hoff]
      exact execAdr_clear hp ht hd
    case config => exact lstat_config s.curCluster hx ▸ execLstat_clear hp ht hd (hx.le.trans (by decide) : x.toNat ≤ 24)
    case range =>
      have hl := execLstat_clear hp ht hd (hx'.le : x.toNat ≤ 24)
      rw [lstat_range s.curCluster hx hx'] at hl
      exact hl
    case banks =>
      have hl := execLstat_clear hp ht hd hx.le
      rw [show (s.cur.getS a).toNat = 24 from hx] at hl
      exact hl
    case spans =>
      have hs : spanOk x y = true := (spanOk_iff x y).2 ⟨⟨hn, hn'⟩, hal, hc⟩
      exact ⟨execCinv_clear hp ht hs, execCpf_clear hp ht hs⟩
    case spanOperand =>
      have hs : spanOk x y = false := by
        rw [Bool.eq_false_iff, Ne, spanOk_iff]
        omega
      exact cinv_cpf_operand hp hs

end

