-- ==== Sys2Proof/Proofs/TrapEntry.lean ====
section
/-! The entry of a trap (R393, R395, R397): what completing the slot leaves alone, the three ways in which an entry goes, and the fields that
it writes; O29 settled. -/

namespace Sys2Proof.Machine

/-! ### Bits of a field (R3) -/

/-- The bits of a number in which `k` bits from `lo` on have been replaced. -/
theorem testBit_replaced (m lo k v j : Nat) : (m - m / 2 ^ lo % 2 ^ k * 2 ^ lo + v % 2 ^ k * 2 ^ lo).testBit j =
    if lo ≤ j ∧ j < lo + k then v.testBit (j - lo) else m.testBit j := by
  have hlow := Nat.div_add_mod m (2 ^ lo)
  have hhigh := Nat.div_add_mod (m / 2 ^ lo) (2 ^ k)
  have hm : m = 2 ^ lo * (2 ^ k * (m / 2 ^ lo / 2 ^ k)) + 2 ^ lo * (m / 2 ^ lo % 2 ^ k) + m % 2 ^ lo := by
    rw [← Nat.mul_add, hhigh, hlow]
  have hform : m - m / 2 ^ lo % 2 ^ k * 2 ^ lo + v % 2 ^ k * 2 ^ lo =
      2 ^ lo * (2 ^ k * (m / 2 ^ lo / 2 ^ k) + v % 2 ^ k) + m % 2 ^ lo := by
    rw [Nat.mul_add, Nat.mul_comm (m / 2 ^ lo % 2 ^ k), Nat.mul_comm (v % 2 ^ k)]
    omega
  rw [hform, Nat.testBit_two_pow_mul_add _ (Nat.mod_lt _ (Nat.two_pow_pos lo)),
    Nat.testBit_two_pow_mul_add _ (Nat.mod_lt _ (Nat.two_pow_pos k))]
  by_cases hlo : j < lo
  · rw [if_pos hlo, if_neg (by omega), Nat.testBit_mod_two_pow, decide_eq_true hlo, Bool.true_and]
  · rw [if_neg hlo]
    by_cases hk : j - lo < k
    · rw [if_pos hk, if_pos (by omega), Nat.testBit_mod_two_pow, decide_eq_true hk, Bool.true_and]
    · rw [if_neg hk, if_neg (by omega), Nat.testBit_div_two_pow, Nat.testBit_div_two_pow]
      congr 1
      omega

/-- A field replaced changes no other bit. -/
theorem getLsbD_setBits (x : Word) {hi lo : Nat} (h : lo ≤ hi) (v : Nat) {j : Nat} (hj : j < 64) :
    (setBits x hi lo v).getLsbD j = if lo ≤ j ∧ j ≤ hi then v.testBit (j - lo) else x.getLsbD j := by
  have hiff : (lo ≤ j ∧ j < lo + (hi + 1 - lo)) ↔ lo ≤ j ∧ j ≤ hi := by omega
  have hb : (setBits x hi lo v).getLsbD j = _ := BitVec.getLsbD_ofNat ..
  rw [hb, decide_eq_true hj, Bool.true_and]
  unfold bits
  rw [testBit_replaced]
  exact if_congr hiff rfl rfl

/-- TSR at supervisor privilege with PP clear (R198). -/
theorem getLsbD_supervisor (t : Word) {j : Nat} (hj : j < 64) : (tsrSetPl (tsrSetPp t false) 1).getLsbD j =
    if j = 0 then false else if j = 10 then true else if j = 11 then false else t.getLsbD j := by
  unfold tsrSetPl tsrSetPp
  rw [getLsbD_setBits _ (by decide) _ hj, getLsbD_setBits _ (by decide) _ hj]
  by_cases h0 : j = 0
  · subst h0; rfl
  by_cases h10 : j = 10
  · subst h10; rfl
  by_cases h11 : j = 11
  · subst h11; rfl
  rw [if_neg (by omega), if_neg (by omega), if_neg h0, if_neg h10, if_neg h11]

/-! ### Completing the slot (R42, R43) -/

/-- `w` is `u` with other register values, windows of the same number and other late traps owed; of TSR, flags may differ. -/
def Unit.CompletesTo (u w : Unit) : Prop :=
  ∃ regs saved v left owed tsr, w = { u with regs, saved, v, left, owed, tsr } ∧ saved.length = u.saved.length ∧
    (tsr = u.tsr ∨ tsr = u.tsr ||| 0x80)

namespace Unit.CompletesTo

variable {u v w : Unit}

theorem refl (u : Unit) : u.CompletesTo u := ⟨_, _, _, _, _, _, rfl, rfl, .inl rfl⟩

theorem trans (h : u.CompletesTo v) (h' : v.CompletesTo w) : u.CompletesTo w := by
  obtain ⟨_, _, _, _, _, t, rfl, hl, ht⟩ := h
  obtain ⟨_, _, _, _, _, t', rfl, hl', ht'⟩ := h'
  refine ⟨_, _, _, _, _, _, rfl, hl'.trans hl, ?_⟩
  obtain rfl | rfl := ht' <;> obtain rfl | rfl := ht
  · exact .inl rfl
  · exact .inr rfl
  · exact .inr rfl
  · exact .inr (by simp [BitVec.or_assoc])

theorem setS (u : Unit) (r : SReg) (x : Word) : u.CompletesTo (u.setS r x) := by
  unfold Unit.setS
  split
  · exact refl u
  · exact ⟨_, _, _, _, _, _, rfl, rfl, .inl rfl⟩

theorem setKey (u : Unit) (k : RegKey) (x : VWord) : u.CompletesTo (u.setKey k x) := by
  unfold Unit.setKey
  split
  · exact ⟨_, _, _, _, _, _, rfl, rfl, .inl rfl⟩
  · split
    · exact setS u _ _
    split
    · dsimp only
      split
      · exact ⟨_, _, _, _, _, _, rfl, List.length_set .., .inl rfl⟩
      · exact refl u
    split
    · exact setS u _ _
    split
    · exact ⟨_, _, _, _, _, _, rfl, rfl, .inl rfl⟩
    · exact refl u

theorem setKeys (ks : List RegKey) : ∀ (u : Unit) (xs : List VWord), u.CompletesTo (u.setKeys ks xs) := by
  induction ks with
  | nil => exact fun u _ => refl u
  | cons k ks ih =>
    intro u xs
    cases xs with
    | nil => exact refl u
    | cons x xs => exact (setKey u k x).trans (ih _ xs)

theorem complete (u : Unit) (p : Pend) : u.CompletesTo (u.complete p) := by
  unfold Unit.complete
  split
  · exact ⟨_, _, _, _, _, _, rfl, rfl, .inl rfl⟩
  · refine trans ?_ (setKeys _ _ _)
    split
    · exact ⟨_, _, _, _, _, _, rfl, rfl, .inr rfl⟩
    · exact refl u

theorem foldl (l : List Pend) : ∀ u : Unit, u.CompletesTo (l.foldl (fun v p => if p.ready then v.complete p else v) u) := by
  induction l with
  | nil => exact refl
  | cons p l ih =>
    intro u
    refine trans ?_ (ih _)
    dsimp only
    split
    · exact complete u p
    · exact refl u

end Unit.CompletesTo

/-- Completing the slot changes registers, late traps owed and the list of incomplete instructions. -/
theorem completeReady_eq (u : Unit) : ∃ w pend, u.CompletesTo w ∧ u.completeReady = { w with pend } :=
  ⟨_, _, Unit.CompletesTo.foldl u.pend u, rfl⟩

/-- A flag set changes neither PP nor the privilege (R198). -/
theorem tsr_flagged {t t' : Word} (h : t' = t ∨ t' = t ||| 0x80) : tsrPp t' = tsrPp t ∧ tsrPl t' = tsrPl t := by
  obtain rfl | rfl := h
  · exact ⟨rfl, rfl⟩
  · constructor
    · simp [tsrPp]
    · simp only [tsrPl, bits, BitVec.toNat_or, ← Nat.shiftRight_eq_div_pow, Nat.shiftRight_or_distrib]
      exact congrArg (· % 4) (Nat.or_zero _)

/-! ### The three ways of an entry (R162, R189, R397) -/

/-- EPC of a trap that does not discard its task (R395). -/
def State.epcOf (s : State) (t : TrapInfo) : Word :=
  if t.late ∨ t.trap = .illegalEncoding ∨ (t.trap = .matrixData ∧ !t.td) then s.cur.pc
  else if s.cur.retDue then s.cur.retPc
  else if t.trap = .syscall ∨ t.trap = .brk then s.cur.pc ||| 1 else s.cur.here

/-- Where the trap does not discard the task, a late one and the traps of whole bundles name the bundle alone (R395). -/
theorem epcOf_eq (s : State) {t : TrapInfo} (htd : t.td = false) : s.epcOf t =
    if t.late = true ∨ t.trap = .illegalEncoding ∨ t.trap = .matrixData then s.cur.pc
    else if s.cur.retCommit = true ∧ s.cur.aslot = false ∧ s.cur.depth < s.cur.task.startDepth then s.cur.retPc
    else if s.cur.aslot = true ∨ t.trap = .syscall ∨ t.trap = .brk then s.cur.pc ||| 1 else s.cur.pc := by
  have hbundle : (t.late = true ∨ t.trap = .illegalEncoding ∨ (t.trap = .matrixData ∧ (!t.td) = true)) ↔
      (t.late = true ∨ t.trap = .illegalEncoding ∨ t.trap = .matrixData) := by simp [htd]
  have hret : s.cur.retDue = true ↔ s.cur.retCommit = true ∧ s.cur.aslot = false ∧ s.cur.depth < s.cur.task.startDepth := by
    simp [Unit.retDue, and_assoc]
  unfold State.epcOf
  refine if_congr hbundle rfl (if_congr hret rfl ?_)
  unfold Unit.here
  by_cases ha : s.cur.aslot = true
  · simp [ha]
  · simp [ha]

/-- The entry once a window is free: the state of the slot saved, the window slid and the unit at TVEC. -/
def State.entered (v : State) (t : TrapInfo) (epc tsr : Word) : State :=
  v.slide.modCur fun u =>
    { u.goto v.tvec false with
      epc
      faddr := t.faddr
      cause := causeWord tsr t
      lpc := if t.late then t.lpc else u.lpc
      tsr := tsrSetPl (tsrSetPp u.tsr false) 1
      seq := { u.seq with held := u.seq.active }
      turn := .trapped t }

/-- A window is free while fewer than four are resident (R189). -/
theorem windowFree_iff {n : Nat} : n + 1 < Config.residentWindows ↔ n < 3 := Nat.succ_lt_succ_iff (b := 3)

section
variable {s : State} {t : TrapInfo} (htd : t.td = false)
include htd

theorem enterTrap_eq : s.enterTrap t =
    match (if s.cur.completeReady.saved.length + 1 < Config.residentWindows then some (s.setCur s.cur.completeReady)
      else (s.setCur s.cur.completeReady).spillOldest) with
    | none => (s.setCur s.cur.completeReady).discard.modCur fun u => { u with wait := .retire 0xFFFE true, turn := .trapped t }
    | some v => v.entered t (s.epcOf t) s.cur.completeReady.tsr := by
  obtain ⟨trap, faddr, sub, mem, td, late, lpc, beyond⟩ := t
  cases htd
  rfl

/-- With fewer than four windows resident nothing is spilled. -/
theorem enterTrap_few (h : s.cur.completeReady.saved.length < 3) :
    s.enterTrap t = (s.setCur s.cur.completeReady).entered t (s.epcOf t) s.cur.completeReady.tsr := by
  rw [enterTrap_eq htd, if_pos (windowFree_iff.2 h)]

theorem enterTrap_spills {v : State} (h : ¬s.cur.completeReady.saved.length < 3) (hv : (s.setCur s.cur.completeReady).spillOldest = some v) :
    s.enterTrap t = v.entered t (s.epcOf t) s.cur.completeReady.tsr := by
  rw [enterTrap_eq htd, if_neg (mt windowFree_iff.1 h), hv]

theorem enterTrap_full (h : ¬s.cur.completeReady.saved.length < 3) (hv : (s.setCur s.cur.completeReady).spillOldest = none) :
    s.enterTrap t = (s.setCur s.cur.completeReady).discard.modCur fun u => { u with wait := .retire 0xFFFE true, turn := .trapped t } := by
  rw [enterTrap_eq htd, if_neg (mt windowFree_iff.1 h), hv]

end

/-! ### The spill (R162, R189) -/

/-- Bytes written change memory alone. -/
theorem setBytes_eq (l : List Byte) : ∀ (s : State) (a : Nat), s.setBytes a l = { s with mem := (s.setBytes a l).mem } := by
  induction l with
  | nil => exact fun _ _ => rfl
  | cons b l ih => exact fun s a => ih (s.setByte a b) (a + 1)

/-- The state in which the window `w`, the oldest resident one, has been written below WSP. -/
def State.spilled (s : State) (w : Vector Word 16) : State :=
  (s.setBytes (s.cur.loftAddr (s.cur.wsp - 128)) (bytesOfWords w.toList)).setCur
    { s.cur with wsp := s.cur.wsp - 128, saved := s.cur.saved.dropLast }

theorem spillOldest_room {s : State} {w : Vector Word 16} (h : s.cur.lsb.toNat + 8192 + 128 ≤ s.cur.wsp.toNat)
    (hw : s.cur.saved.getLast? = some w) : s.spillOldest = some (s.spilled w) := by
  unfold State.spillOldest
  rw [if_neg (Nat.not_lt.2 h), hw]
  rfl

theorem spillOldest_none {s : State} (h : ¬s.cur.lsb.toNat + 8192 + 128 ≤ s.cur.wsp.toNat) : s.spillOldest = none :=
  if_pos (Nat.lt_of_not_le h)

theorem length_bytesOfWords (l : List Word) : (bytesOfWords l).length = 8 * l.length := by
  simp [bytesOfWords, length_bytesOf, Nat.mul_comm]

/-- Byte `j` of word `i`. -/
theorem bytesOfWords_getElem {j : Nat} (hj : j < 8) : ∀ (l : List Word) (i : Nat) (h : 8 * i + j < (bytesOfWords l).length),
    (bytesOfWords l)[8 * i + j] = BitVec.ofNat 8 ((l.getD i 0).toNat / 256 ^ j)
  | [], i, h => absurd h (by simp [bytesOfWords])
  | w :: l, 0, h => by
    have hb : bytesOfWords (w :: l) = bytesOf 8 w.toNat ++ bytesOfWords l := rfl
    simp only [hb, bytesOf_eq_map_range]
    rw [List.getElem_append_left (by simpa using hj)]
    simp
  | w :: l, i + 1, h => by
    have hb : bytesOfWords (w :: l) = bytesOf 8 w.toNat ++ bytesOfWords l := rfl
    have hi : 8 * i + j < (bytesOfWords l).length := by
      simp only [length_bytesOfWords, List.length_cons] at h ⊢
      omega
    have hidx : 8 * (i + 1) + j = (bytesOf 8 w.toNat).length + (8 * i + j) := by
      rw [length_bytesOf]
      omega
    simp only [hb, hidx]
    rw [List.getElem_append_right (Nat.le_add_right _ _)]
    simp only [Nat.add_sub_cancel_left]
    exact bytesOfWords_getElem hj l i hi

/-- The oldest window lies in the 128 bytes below WSP. -/
theorem byte_spilled_window {s : State} (hm : s.MemOk) (w : Vector Word 16) {i j : Nat} (hi : i < 16) (hj : j < 8) :
    (s.spilled w).byte (s.cur.loftAddr (s.cur.wsp - 128) + 8 * i + j) = BitVec.ofNat 8 ((w.toList.getD i 0).toNat / 256 ^ j) := by
  have hlen : 8 * i + j < (bytesOfWords w.toList).length := by
    rw [length_bytesOfWords, Vector.length_toList]
    omega
  rw [Nat.add_assoc]
  exact (byte_setBytes_inside _ s _ _ hlen hm).trans (bytesOfWords_getElem hj _ _ hlen)

theorem byte_spilled_outside {s : State} (hm : s.MemOk) (w : Vector Word 16) {x : Nat}
    (h : x < s.cur.loftAddr (s.cur.wsp - 128) ∨ s.cur.loftAddr (s.cur.wsp - 128) + 128 ≤ x) : (s.spilled w).byte x = s.byte x := by
  refine byte_setBytes_outside _ s _ x hm ?_
  rwa [length_bytesOfWords, Vector.length_toList]

/-! ### What an entry writes (R188, R393, R395) -/

section
variable (tsr : Word) {t : TrapInfo} (htd : t.td = false)
include htd

/-- The fields of CAUSE. -/
theorem causeWord_fields : bits (causeWord tsr t) 7 0 = t.trap.code ∧ bits (causeWord tsr t) 39 8 = 0 ∧
    bits (causeWord tsr t) 42 40 = t.mem.toNat ∧ bits (causeWord tsr t) 47 43 = 0 ∧ bits (causeWord tsr t) 55 48 = t.sub.toNat ∧
    bits (causeWord tsr t) 58 56 = 0 ∧ (causeWord tsr t).getLsbD 59 = tsrPp tsr ∧ (causeWord tsr t).getLsbD 60 = t.late ∧
    (causeWord tsr t).getLsbD 61 = false ∧ bits (causeWord tsr t) 63 62 = tsrPl tsr := by
  have hpl : tsrPl tsr < 4 := Nat.mod_lt _ (by decide)
  have hcode : t.trap.code < 256 := by cases t.trap <;> decide
  have hmem := t.mem.isLt
  have hsub := t.sub.isLt
  have hflag : ∀ b : Bool, b.toNat < 2 := Bool.toNat_lt
  have hlate := hflag t.late
  have hpp := hflag (tsrPp tsr)
  have hval : (causeWord tsr t).toNat = tsrPl tsr * 2 ^ 62 + t.late.toNat * 2 ^ 60 + (tsrPp tsr).toNat * 2 ^ 59 + t.sub.toNat * 2 ^ 48 +
      t.mem.toNat * 2 ^ 40 + t.trap.code := by
    simp only [causeWord, htd, word, BitVec.toNat_ofNat, Bool.toNat_false]
    omega
  have hbit : ∀ i, (causeWord tsr t).getLsbD i = decide ((causeWord tsr t).toNat / 2 ^ i % 2 = 1) := fun i =>
    Nat.testBit_eq_decide_div_mod_eq
  have hbool : ∀ b : Bool, decide (b.toNat = 1) = b := by decide
  simp only [bits, hbit, hval]
  refine ⟨by omega, by omega, by omega, by omega, by omega, by omega, ?_, ?_, ?_, by omega⟩
  · exact (decide_eq_decide.2 (by omega)).trans (hbool (tsrPp tsr))
  · exact (decide_eq_decide.2 (by omega)).trans (hbool t.late)
  · exact decide_eq_false (by omega)

end

section
variable (v : State) (t : TrapInfo) (epc tsr : Word)

theorem entered_lpc : (v.entered t epc tsr).cur.lpc = if t.late then t.lpc else v.cur.lpc := by
  simp only [State.entered, State.slide, State.modCur, Unit.goto, Unit.slideIn]

theorem entered_tsr : (v.entered t epc tsr).cur.tsr = tsrSetPl (tsrSetPp v.cur.tsr false) 1 := by
  simp only [State.entered, State.slide, State.modCur, Unit.goto, Unit.slideIn]

theorem entered_seq : (v.entered t epc tsr).cur.seq = { v.cur.seq with held := v.cur.seq.active } := by
  simp only [State.entered, State.slide, State.modCur, Unit.goto, Unit.slideIn]

theorem entered_task : (v.entered t epc tsr).cur.task = v.cur.task := by
  simp only [State.entered, State.slide, State.modCur, Unit.goto, Unit.slideIn]

theorem entered_v : (v.entered t epc tsr).cur.v = v.cur.v := by
  simp only [State.entered, State.slide, State.modCur, Unit.goto, Unit.slideIn]

theorem entered_k : (v.entered t epc tsr).cur.k = v.cur.k := by
  simp only [State.entered, State.slide, State.modCur, Unit.goto, Unit.slideIn]

theorem entered_p : (v.entered t epc tsr).cur.p = v.cur.p := by
  simp only [State.entered, State.slide, State.modCur, Unit.goto, Unit.slideIn]

theorem entered_wsp : (v.entered t epc tsr).cur.wsp = v.cur.wsp := by
  simp only [State.entered, State.slide, State.modCur, Unit.goto, Unit.slideIn]

theorem entered_depth : (v.entered t epc tsr).cur.depth = v.cur.depth + 1 := by
  simp only [State.entered, State.slide, State.modCur, Unit.goto, Unit.slideIn]

theorem entered_saved : (v.entered t epc tsr).cur.saved = v.cur.window :: v.cur.saved := by
  simp only [State.entered, State.slide, State.modCur, Unit.goto, Unit.slideIn]

theorem entered_byte (x : Nat) : (v.entered t epc tsr).byte x = v.byte x := rfl

/-- Every global register is that of the interrupted window, and s8 to s15 are its s24 to s31 (R188). -/
theorem entered_getS_global {r : SReg} (h : r.toNat < 8) : (v.entered t epc tsr).cur.getS r = v.cur.getS r := by
  have hr : (v.entered t epc tsr).cur.regs[r.toNat] = v.cur.regs[r.toNat] := by
    show (v.cur.slideIn v.draws).regs[r.toNat] = _
    simp [Unit.slideIn, h]
  unfold Unit.getS
  rw [hr]

theorem entered_getS_slid {r : SReg} (h : 8 ≤ r.toNat) (h' : r.toNat < 16) : (v.entered t epc tsr).cur.getS r = v.cur.getS (r + 16) := by
  have hidx : (r + 16 : SReg).toNat = r.toNat + 16 := by
    rw [BitVec.toNat_add]
    exact Nat.mod_eq_of_lt (show r.toNat + 16 < 32 by omega)
  have h0 : r ≠ 0 := fun e => absurd (e ▸ h : 8 ≤ (0 : SReg).toNat) (by decide)
  have h16 : (r + 16 : SReg) ≠ 0 := fun e => absurd ((congrArg BitVec.toNat e).symm.trans hidx) (Nat.succ_ne_zero _).symm
  have hr : (v.entered t epc tsr).cur.regs[r.toNat] = v.cur.regs[r.toNat + 16] := by
    show (v.cur.slideIn v.draws).regs[r.toNat] = _
    simp [Unit.slideIn, Nat.not_lt.2 h, h']
  unfold Unit.getS
  rw [if_neg h0, if_neg h16, hr]
  simp only [hidx]

end

/-! ### An entry as a whole -/

section
variable (u : Unit)

theorem length_saved_completeReady : u.completeReady.saved.length = u.saved.length := by
  obtain ⟨w, pend, ⟨_, _, _, _, _, _, rfl, hl, -⟩, h⟩ := completeReady_eq u
  rw [h]
  exact hl

theorem tsr_completeReady : tsrPp u.completeReady.tsr = tsrPp u.tsr ∧ tsrPl u.completeReady.tsr = tsrPl u.tsr := by
  obtain ⟨w, pend, ⟨_, _, _, _, _, _, rfl, -, ht⟩, h⟩ := completeReady_eq u
  rw [h]
  exact tsr_flagged ht

/-- Depth, LPC, task and sequencer stay. -/
theorem completeReady_keeps : u.completeReady.depth = u.depth ∧ u.completeReady.lpc = u.lpc ∧ u.completeReady.task = u.task ∧
    u.completeReady.seq = u.seq := by
  obtain ⟨w, pend, ⟨_, _, _, _, _, _, rfl, -, -⟩, h⟩ := completeReady_eq u
  rw [h]
  exact ⟨rfl, rfl, rfl, rfl⟩

end

/-- With a window free, or room to spill one, the trap is entered from the completed slot, whose oldest window has then been spilled. -/
theorem enterTrap_entered {s : State} {t : TrapInfo} (htd : t.td = false)
    (h : s.cur.saved.length < 3 ∨ s.cur.completeReady.lsb.toNat + 8192 + 128 ≤ s.cur.completeReady.wsp.toNat) :
    ∃ v, s.enterTrap t = v.entered t (s.epcOf t) s.cur.completeReady.tsr ∧
      (∃ wsp saved, v.cur = { s.cur.completeReady with wsp, saved }) ∧ v.tvec = s.tvec ∧ v.others = s.others ∧
      (s.cur.saved.length < 3 → v = s.setCur s.cur.completeReady) ∧
      (¬s.cur.saved.length < 3 → ∃ w, s.cur.completeReady.saved.getLast? = some w ∧ v = (s.setCur s.cur.completeReady).spilled w) := by
  have hl := length_saved_completeReady s.cur
  by_cases hfew : s.cur.saved.length < 3
  · exact ⟨_, enterTrap_few htd (hl.trans_lt hfew), ⟨_, _, rfl⟩, rfl, rfl, fun _ => rfl, fun hn => absurd hfew hn⟩
  · obtain ⟨w, hw⟩ : ∃ w, s.cur.completeReady.saved.getLast? = some w := by
      rw [← Option.isSome_iff_exists, List.getLast?_isSome]
      intro he
      rw [he] at hl
      exact hfew (hl ▸ by decide)
    have hv := spillOldest_room (s := s.setCur s.cur.completeReady) (h.resolve_left hfew) hw
    have htvec : ((s.setCur s.cur.completeReady).spilled w).tvec = s.tvec := by
      unfold State.spilled
      rw [setBytes_eq]
      rfl
    have hothers : ((s.setCur s.cur.completeReady).spilled w).others = s.others := by
      unfold State.spilled
      rw [setBytes_eq]
      rfl
    exact ⟨_, enterTrap_spills htd (hl ▸ hfew) hv, ⟨_, _, rfl⟩, htvec, hothers, fun hn => absurd hn hfew, fun _ => ⟨w, hw, rfl⟩⟩

end Sys2Proof.Machine

open Sys2Proof Sys2Proof.Machine

/-- Settles O29: the entry from the completed slot, by the fields that it writes and the spill before it. -/
theorem trapEntrySavesAndSwitches : Obligations.TrapEntrySavesAndSwitches := by
  unfold Obligations.TrapEntrySavesAndSwitches
  intro s t htd u n few room
  refine ⟨fun h => ?entered, fun hfew hroom => ?full⟩
  case full =>
    have hn : n = _ := enterTrap_full htd (length_saved_completeReady s.cur ▸ hfew) (spillOldest_none hroom)
    rw [hn]
    exact ⟨rfl, rfl, rfl, rfl, (State.modCur_mem ..).trans (discard_mem (s.setCur s.cur.completeReady))⟩
  case entered =>
    obtain ⟨v, hn, ⟨wsp, saved, hcur⟩, htvec, hothers, hvfew, hvspill⟩ := enterTrap_entered htd h
    obtain ⟨hdepth, hlpc, htask, hseq⟩ := completeReady_keeps s.cur
    obtain ⟨hpp, hpl⟩ := tsr_completeReady s.cur
    have hcause := causeWord_fields s.cur.completeReady.tsr htd
    rw [hpp, hpl] at hcause
    replace hn : n = _ := hn
    clear_value n
    subst hn
    have hu : s.cur.completeReady = u := rfl
    rw [hu] at hcur hdepth hlpc htask hseq hcause hvfew hvspill ⊢
    obtain ⟨hcode, h39, hmem, h47, hsub, h58, h59, h60, h61, h63⟩ := hcause
    clear_value u
    refine ⟨?epc, rfl, ?lpc, hcode, h39, hmem, h47, hsub, h58, h59, h60, h61, h63, ?tsr, htvec, ?npc, rfl, ?depth, ?few, ?spill,
      ?global, ?slid, ?v, ?k, ?p, ?task, ?seq, hothers⟩
    case epc => exact epcOf_eq s htd
    case lpc =>
      rw [entered_lpc, hcur, ← hlpc]
    case tsr =>
      intro j hj
      rw [entered_tsr, getLsbD_supervisor _ hj, hcur]
    case npc => exact congrArg (· + 8) htvec
    case depth =>
      rw [entered_depth, hcur, ← hdepth]
    case few =>
      intro hfew
      obtain rfl := hvfew hfew
      exact ⟨entered_saved .., entered_wsp .., rfl⟩
    case spill =>
      intro hfew
      obtain ⟨w, hw, rfl⟩ := hvspill hfew
      refine ⟨entered_saved .., entered_wsp .., ?_⟩
      intro a w' hw' hm
      obtain rfl : w = w' := Option.some.inj (hw.symm.trans hw')
      have hm' : (s.setCur u).MemOk := hm
      exact ⟨fun i hi j hj => (entered_byte ..).trans (byte_spilled_window hm' w hi hj),
        fun x hx => (entered_byte ..).trans (byte_spilled_outside hm' w hx)⟩
    case global =>
      intro r hr
      rw [entered_getS_global v t _ _ hr, hcur]
      rfl
    case slid =>
      intro r hr hr'
      rw [entered_getS_slid v t _ _ hr hr', hcur]
      rfl
    case v =>
      rw [entered_v, hcur]
    case k =>
      rw [entered_k, hcur]
    case p =>
      rw [entered_p, hcur]
    case task =>
      rw [entered_task, hcur, ← htask]
    case seq =>
      rw [entered_seq, hcur, ← hseq]

end

