-- ==== Sys2Proof/Proofs/ArraysAndTiles.lean ====
section
/-! The steps of the arrays, the moves of the tiles and the end of zeroing (R182, R287 to R289, R295, R296, R298, R299); O57 settled. -/

namespace Sys2Proof.Machine

section
variable {s : State} {die cluster : Nat} {product : Bool}

/-! ### The arbiter (R289, R442) -/

/-- The block of weights of a command's next segment, as the Granary holds it (R281). -/
def State.weightBlock (s : State) (die cluster : Nat) (product : Bool) (c : MatCmd) : List Byte :=
  s.bytes (granaryBase die cluster + c.blockAt c.seg) (64 * blockWords product c.fb (crNs c.creg))

theorem execArrayGrant_powerHold (h : s.powerHold = true) : execArrayGrant die cluster product s = .next s := by
  unfold execArrayGrant
  simp [h]

section
variable {p g : Nat} {c : MatCmd} (hpower : s.powerHold = false) (hfree : ((s.cluster (clusterId die cluster)).array product).granted = none)
  (hheld : s.arrayHeld (clusterId die cluster) product = false) (harb : s.arbitrate (clusterId die cluster) product = some (p, g))
  (hc : (s.core (clusterId die cluster * 16 + p)).next product = some c)
include hpower hfree hheld harb hc

/-- A ready step whose weights are legal is granted, and they are loaded. -/
theorem execArrayGrant_loads (hb : c.badBlock (s.weightBlock die cluster product c) = none) : execArrayGrant die cluster product s =
    .next (State.setArray (s.setCore (clusterId die cluster * 16 + p) ((s.core (clusterId die cluster * 16 + p)).modCmd { c with
      granted := true
      weights := Sparse.put (c.weights.filter fun w => c.acc.any fun x => x.1 == w.1) c.seg (s.weightBlock die cluster product c) }))
      (clusterId die cluster) product { cur := p, count := g, granted := some c.id }) := by
  unfold State.weightBlock at hb ⊢
  unfold execArrayGrant
  simp [hpower, hfree, hheld, harb, hc, hb]

/-- A bad weight ends the command with the place of the weight as its error. -/
theorem execArrayGrant_bad {o : Nat} (hb : c.badBlock (s.weightBlock die cluster product c) = some o) :
    execArrayGrant die cluster product s =
      .next (State.outChecks (State.setArray (s.setCore (clusterId die cluster * 16 + p)
        ((s.core (clusterId die cluster * 16 + p)).endCmd { c with
          granted := true, err := some (word (2 ^ 63 + c.seg * 2 ^ 56 + alignDown (c.blockAt c.seg + o) 64)) }))
        (clusterId die cluster) product { (s.cluster (clusterId die cluster)).array product with cur := p, count := g })
        (clusterId die cluster) product) := by
  unfold State.weightBlock at hb
  unfold execArrayGrant
  simp [hpower, hfree, hheld, harb, hc, hb]

end

/-! ### Rows (R287, R288, R292, R293) -/

theorem rowStep_free {cl : Nat} (h : s.arrayHeld cl product = false) : s.rowStep cl product = (s.rowWork cl product).outChecks cl product :=
  if_neg (Bool.eq_false_iff.1 h)

section
variable {cl id key n m : Nat} {c c' : MatCmd} {bytes : List Byte} (hg : ((s.cluster cl).array product).granted = some id)
  (hw : s.coreWith cl id = some (key, c)) (he : c.ended = false) (hr : (s.core key).nextRead c = some (n, m, bytes, c'))
include hg hw he hr

/-- A row-scale entry is kept by its command. -/
theorem rowWork_scales (hs : c.wantsScales = true) : s.rowWork cl product =
    s.setCore key (({ s.core key with q2 := dropRows c.slot n m (s.core key).q2 } : Core).modCmd c') := by
  unfold State.rowWork
  simp [hg, hw, he, hr, hs]

/-- A legal row segment accumulates and drains once its turn has come; the array is free after the last row, unless one is still to be
pushed. -/
theorem rowWork_row (hs : c.wantsScales = false) (hv : (valuesIn c.fa (segmentSize product) bytes).isSome = true)
    (hcan : c.cancelled = false) :
    let d := { c' with acc := c.acc ++ [(c.seg, c.row, bytes)], drained := c'.seg }
    let r := (({ s.core key with q2 := dropRows c.slot n m (s.core key).q2 } : Core).modCmd d).drain d
    s.rowWork cl product =
      if c.row + 1 = crM c.creg ∧ r.2.pushes = false then (s.setCore key r.1).freeArray cl product else s.setCore key r.1 := by
  have hv' : (valuesIn c.fa (segmentSize product) bytes).isNone = false := by simpa using hv
  unfold State.rowWork
  simp [hg, hw, he, hr, hs, hv', hcan]

end

/-! ### Pushes and completion (R288, R298) -/

theorem execQ3Push_pushes {key : Nat} {c : MatCmd}
    (h : ((s.arrayCmds (clusterId die cluster) product).find? fun x => x.2.pushes && s.q3Room x.2) = some (key, c)) :
    execQ3Push die cluster product s = .next (s.pushRow (clusterId die cluster) key c) := by
  unfold execQ3Push
  simp [h]

/-- With no command that has just made its last push, nothing is settled. -/
theorem outChecks_none {cl : Nat} (h : ∀ x ∈ s.arrayCmds cl product, (x.2.outOver && !x.2.outDone) = false) :
    s.outChecks cl product = s := by
  have hnil : ((s.arrayCmds cl product).filter fun x => x.2.outOver && !x.2.outDone) = [] :=
    List.filter_eq_nil_iff.2 fun x hx => by simp [h x hx]
  unfold State.outChecks
  rw [hnil]
  rfl

/-- Where every row of the commands has drained, draining changes nothing. -/
theorem foldl_drained : ∀ (l : List (Nat × MatCmd)) (t : State), (∀ x ∈ l, x.2.acc = []) →
    l.foldl (fun (t : State) x => if x.2.acc.isEmpty then t else t.setCore x.1 ((t.core x.1).drain x.2).1) t = t
  | [], _, _ => rfl
  | x :: l, t, h => by
    have hx : x.2.acc.isEmpty = true := List.isEmpty_iff.2 (h x List.mem_cons_self)
    rw [List.foldl_cons, if_pos hx]
    exact foldl_drained l t fun y hy => h y (List.mem_cons_of_mem x hy)

theorem execMatrixComplete_reports {key : Nat} {c : MatCmd}
    (hall : ∀ x ∈ s.arrayCmds (clusterId die cluster) product, x.2.acc = [] ∧ (x.2.outOver && !x.2.outDone) = false)
    (h : ((s.arrayCmds (clusterId die cluster) product).find? fun x => s.mayReport (clusterId die cluster) x.1 x.2) = some (key, c)) :
    let d := if c.ended = true then c else { c with drained := crKs c.creg }
    execMatrixComplete die cluster product s = .next (State.matrixReport (s.setCore key ((s.core key).remove d)) d) := by
  unfold execMatrixComplete
  simp only [foldl_drained _ s fun x hx => (hall x hx).1, outChecks_none fun x hx => (hall x hx).2, h]

/-! ### Tile moves (R295, R296) -/

theorem execTileMovePerform_head {core : Nat} {y : BitVec 2} {m : TileMove} {rest : List TileOp}
    (h : (Sparse.find? (s.core (clusterId die cluster * 16 + core)).tileQ y.toNat).getD [] = .move m :: rest) :
    execTileMovePerform die cluster core y s = .next (State.moveTile (s.setCore (clusterId die cluster * 16 + core)
      { s.core (clusterId die cluster * 16 + core) with
        tileQ := Sparse.put (s.core (clusterId die cluster * 16 + core)).tileQ y.toNat rest })
      (clusterId die cluster * 16 + core) y.toNat m) := by
  unfold execTileMovePerform
  simp only [h]

end

/-! ### The end of zeroing (R182) -/

@[simp] theorem cluster_setCluster_same (s : State) (cl : Nat) (x : Cluster) : (s.setCluster cl x).cluster cl = x := by
  simp [State.cluster, State.setCluster]

@[simp] theorem cluster_modUnits (s : State) (p : Unit → Bool) (f : Unit → Unit) (cl : Nat) : (s.modUnits p f).cluster cl = s.cluster cl := rfl

/-- The unit waits for `bank` of the cluster to be zeroed. -/
def Unit.waitsZero (cl bank : Nat) (u : Unit) : Bool := u.placed && !u.away && u.clusterId == cl && (match u.wait with
  | .lbank _ b w => b == bank && w.isNone
  | .run => false
  | .lwait _ => false
  | .atTime _ => false
  | .fenceE _ => false
  | .bar _ _ => false
  | .gang _ => false
  | .retire _ _ => false
  | .nonspec => false
  | .stopped => false)

/-- Its `lbank` has ended with status 0. -/
def Unit.lbankDone (ids : Nat) (u : Unit) : Unit :=
  match u.wait with
  | .lbank d _ _ => (({ u with wait := .run }.setS d 0).pastC false).age ids
  | .run => u
  | .lwait _ => u
  | .atTime _ => u
  | .fenceE _ => u
  | .bar _ _ => u
  | .gang _ => u
  | .retire _ _ => u
  | .nonspec => u
  | .stopped => u

/-- The state once a bank of a cluster has been zeroed. -/
def State.zeroed (s : State) (cl bank : Nat) : State :=
  (s.setCluster cl { s.cluster cl with
    zeroing := (s.cluster cl).zeroing.filter (· ≠ bank)
    lbanks := (s.cluster cl).lbanks.filter fun l => !((s.units.filter (Unit.waitsZero cl bank)).map fun u => u.loc).contains l }).modUnits
    (Unit.waitsZero cl bank) (Unit.lbankDone s.ids)

section
variable {s : State} {die cluster cl bank : Nat}

theorem execLbankZeroDone_zeroed (h : (s.cluster (clusterId die cluster)).zeroing.contains bank = true) :
    execLbankZeroDone die cluster bank s = .next (s.zeroed (clusterId die cluster) bank) := by
  unfold execLbankZeroDone
  simp only [h, Bool.not_true, Bool.false_eq_true, if_false]
  rfl

theorem zeroed_cluster : (s.zeroed cl bank).cluster cl = { s.cluster cl with
    zeroing := (s.cluster cl).zeroing.filter (· ≠ bank)
    lbanks := (s.cluster cl).lbanks.filter fun l => !((s.units.filter (Unit.waitsZero cl bank)).map fun u => u.loc).contains l } :=
  cluster_setCluster_same s cl _

/-- A unit whose `lbank` waited for the bank goes on, and has left the order of the cluster's. -/
theorem zeroed_waiting {d : SReg} (hp : s.cur.placed = true) (ha : s.cur.away = false) (hcl : s.cur.clusterId = cl)
    (hw : s.cur.wait = .lbank d bank none) :
    (s.zeroed cl bank).cur = (({ s.cur with wait := .run }.setS d 0).pastC false).age s.ids ∧
      ((s.zeroed cl bank).cluster cl).lbanks.contains s.cur.loc = false := by
  have hwait : s.cur.waitsZero cl bank = true := by simp [Unit.waitsZero, hp, ha, hcl, hw]
  constructor
  · have hdone : s.cur.lbankDone s.ids = (({ s.cur with wait := .run }.setS d 0).pastC false).age s.ids := by
      unfold Unit.lbankDone
      rw [hw]
    exact (if_pos hwait).trans hdone
  · have hmem : s.cur ∈ s.units := List.mem_filter.2 ⟨List.mem_cons_self, hp⟩
    have hloc : s.cur.loc ∈ (s.units.filter (Unit.waitsZero cl bank)).map fun u => u.loc :=
      List.mem_map_of_mem (List.mem_filter.2 ⟨hmem, hwait⟩)
    rw [zeroed_cluster]
    simp only [List.contains_eq_mem, decide_eq_false_iff_not, List.mem_filter, Bool.not_eq_true', not_and]
    exact fun _ hn => hn hloc

end

end Sys2Proof.Machine

open Sys2Proof Sys2Proof.Machine

/-- Settles O57: each event by its own equation. -/
theorem arraysTilesAndBanksGoOn : Obligations.ArraysTilesAndBanksGoOn := by
  unfold Obligations.ArraysTilesAndBanksGoOn
  intro s die cluster core bank product y cl a
  refine ⟨fun p g c hpower hfree hheld harb hc => ?grant, execArrayGrant_powerHold, ?rows, fun key c h => execQ3Push_pushes h,
    fun key c hall h => ?completes, fun m rest h => execTileMovePerform_head h, fun h => ?zero⟩
  case grant =>
    exact ⟨execArrayGrant_loads hpower hfree hheld harb hc, fun o => execArrayGrant_bad hpower hfree hheld harb hc⟩
  case rows =>
    intro i id key c n m bytes c' hi hheld hg hw he hr
    have hx : exec i s = .next ((s.rowWork cl product).outChecks cl product) := by
      rw [← rowStep_free hheld, hi]
      cases product <;> rfl
    refine ⟨fun hs => ?_, fun hs hv hcan => ?_⟩
    · rw [hx, rowWork_scales hg hw he hr hs]
    · rw [hx, rowWork_row hg hw he hr hs hv hcan]
  case completes =>
    have hx : exec (.matrixComplete die cluster product) s = execMatrixComplete die cluster product s := rfl
    rw [hx, execMatrixComplete_reports hall h]
  case zero =>
    refine ⟨_, execLbankZeroDone_zeroed h, modUnits_mem .., ?_, fun l hl => ?_, fun d hp ha hcl hw => zeroed_waiting hp ha hcl hw⟩
    · rw [zeroed_cluster]
    · rw [zeroed_cluster] at hl
      exact (List.mem_filter.1 hl).1

end

