-- ==== Sys2Proof/Proofs/DieMessages.lean ====
section
/-! The messages between dies (R168, R318, R319, R322, R324, R335, R350, R429, R430): which of them is acted on, what it does at the home or
the ways of its die, and how it is answered; O59 settled. -/

namespace Sys2Proof.Machine

/-! ### The state without the message -/

/-- The state without a message that waited, and without an acting unit. -/
def State.gone (s : State) (x : Nat × Nat × DieMsg) : State := State.unfocus { s with dieIn := s.dieIn.filter (· ≠ x) }

section
variable (s : State) (x : Nat × Nat × DieMsg)

@[simp] theorem gone_announced : (s.gone x).announced = s.announced := by
  unfold State.gone State.unfocus
  split <;> rfl

@[simp] theorem gone_remoteLocks : (s.gone x).remoteLocks = s.remoteLocks := by
  unfold State.gone State.unfocus
  split <;> rfl

@[simp] theorem gone_topo : (s.gone x).topo = s.topo := by
  unfold State.gone State.unfocus
  split <;> rfl

@[simp] theorem gone_die (d : Nat) : (s.gone x).die d = s.die d := by
  unfold State.gone State.unfocus
  split <;> rfl

@[simp] theorem gone_paOf (o : Nat) : (s.gone x).paOf o = s.paOf o := by
  unfold State.gone State.unfocus
  split <;> rfl

@[simp] theorem gone_homeDieOf (o : Nat) : (s.gone x).homeDieOf o = s.homeDieOf o := by
  unfold State.homeDieOf State.rangeDie
  rw [gone_topo]

end

/-- A world drawn changes nothing else (log 13). -/
@[simp] theorem freeWorld_gone_paOf (s : State) (x : Nat × Nat × DieMsg) (o : Nat) : (s.gone x).freeWorld.1.paOf o = s.paOf o :=
  gone_paOf s x o

@[simp] theorem freeWorld_gone_announced (s : State) (x : Nat × Nat × DieMsg) : (s.gone x).freeWorld.1.announced = s.announced :=
  gone_announced s x

/-! ### A write at a home leaves the topology table alone (R416, R431) -/

section
variable (s : State)

theorem hubWrite_topo (h o : Nat) (x : Word) : (s.hubWrite h o x).topo = s.topo := by
  simp only [State.hubWrite, State.setHub, State.setQueue, State.setCounter, apply_ite State.topo, ite_self]

theorem hubStore_topo (h o : Nat) (l : List Byte) : (s.hubStore h o l).topo = s.topo := by
  unfold State.hubStore
  generalize cutAt 8 (l.length + 1) o l.length = ps
  induction ps generalizing s with
  | nil => rfl
  | cons p ps ih => exact (ih _).trans (hubWrite_topo s ..)

theorem setBytes_topo (l : List Byte) (a : Nat) : (s.setBytes a l).topo = s.topo := by
  induction l generalizing s a with
  | nil => rfl
  | cons b l ih => exact (ih (s.setByte a b) (a + 1)).trans (State.setByte_topo s a b)

theorem homeWrite_topo (pa : Nat) (b : List Byte) : (s.homeWrite pa b).topo = s.topo := by
  have h : (s.homeSet pa b).topo = s.topo := by
    unfold State.homeSet
    split
    · exact hubStore_topo s _ _ _
    all_goals exact setBytes_topo s b _
  exact h

theorem homeWrite_kDies (pa : Nat) (b : List Byte) : (s.homeWrite pa b).kDies = s.kDies := by
  unfold State.kDies
  rw [homeWrite_topo]

end

/-! ### Which messages are acted on (R429, R430) -/

section
variable {s : State} {cls typ : Nat} {m : DieMsg} {k : State → Served}

variable {t : State} (hfirst : s.dieBehind (cls, typ, m) = false)
include hfirst

theorem dieServe_done (hk : k (s.gone (cls, typ, m)) = .done t) : s.dieServe cls typ m k = .next t := by
  unfold State.gone at hk
  unfold State.dieServe
  rw [if_neg (Bool.eq_false_iff.1 hfirst)]
  simp only [hk]

/-- An access for an address of the die that it has reached is served there. -/
theorem dieAccess_done (hhome : ((s.homeDieOf m.addr).all fun d => d == m.ddie) = true) (hk : k (s.gone (cls, typ, m)) = .done t) :
    s.dieAccess cls typ m k = .next t :=
  dieServe_done hfirst ((if_pos ((gone_homeDieOf ..).symm ▸ hhome)).trans hk)

end

/-- While an earlier message of the same class and way waits, a message other than a response does nothing. -/
theorem exec_dieBehind {s : State} {m : DieMsg} {i : Instr} {c n : Nat} (h : (i, c, n) ∈ [(.dieReqRead m, 0, 0), (.dieReqLock m, 0, 1),
    (.dieReqAtomic m, 0, 2), (.dieReqSc m, 0, 3), (.dieWrPerform m, 2, 0), (.dieWrWrite m, 2, 1), (.dieWrUnlock m, 2, 2), (.dieWrInv m, 2, 3),
    (.dieArbSig m, 3, 0), (.dieArbLowts m, 3, 1), (.dieArbMark m, 3, 2), (.dieArbScann m, 3, 3)]) :
    s.dieBehind (c, n, m) = true → exec i s = .next s := by
  simp only [List.mem_cons, Prod.mk.injEq, List.not_mem_nil, or_false] at h
  rcases h with h | h | h | h | h | h | h | h | h | h | h | h <;>
    obtain ⟨rfl, rfl, rfl⟩ := h <;> exact fun hb => if_pos hb

/-! ### Answers (R350, R430) -/

theorem dieDone_module {m : DieMsg} (h : m.ddie < 8) (s : State) (typ pa n : Nat) (data : List Byte) :
    s.dieDone m typ pa n data = s.dieAnswer m 1 typ data := if_pos (.inl h)

/-- A HOME die of an integrator sends INV to the K-dies, and its answer waits for every INVACK. -/
theorem dieDone_home {m : DieMsg} {s : State} {n : Nat} (h : 8 ≤ m.ddie) (hn : n ≠ 0) (hk : s.kDies ≠ []) (typ pa : Nat) (data : List Byte) :
    s.dieDone m typ pa n data = { s with
      ids := s.ids + 1
      dieOut := s.dieOut ++ s.kDies.map fun d =>
        (2, 3, { sdie := m.ddie, ddie := d, addr := localOf pa, tag := s.ids % 65536, exp := 0, data := bytesOf 2 n })
      homeAcks := s.homeAcks ++ [{ answer := (1, typ, { sdie := m.ddie, ddie := m.sdie, addr := m.addr, tag := m.tag, exp := 0, data })
                                   tag := s.ids % 65536, left := s.kDies }] } :=
  if_neg (by rintro (h' | h' | h') <;> [omega; exact hn h'; exact hk h'])

/-! ### The operations announced to a die (R335) -/

/-- The announced operation of another die that a request of it completes. -/
def awaits (m : DieMsg) (pa : Nat) (a : ScAnn) : Bool := !a.known && a.fromDie && a.loc.die == m.sdie && a.pa == pa

/-- The place that a request without an announcement takes in sco: one of now. -/
def State.scEntryNow (s : State) (m : DieMsg) : ScAnn :=
  { scAnnOf s 0 (scOpOf (m.data.getD 0 0).toNat) .device (if (m.data.getD 1 0).toNat = 0 then .w else .d) 0 (word (ofBytes ((m.data.drop 2).take 8)))
      (word (ofBytes ((m.data.drop 10).take 8))) s.time ⟨m.sdie, 0, 0, 0⟩ with
    pa := s.paOf m.addr, known := true, asker := .die m }

/-- The place that an announcement takes in sco: that of its TIME. -/
def State.scEntryAt (s : State) (m : DieMsg) : ScAnn :=
  { scAnnOf s 0 (scOpOf (m.data.getD 12 0).toNat) (if m.data.getD 11 0 = 0 then .device else .domain) (if m.data.getD 13 0 = 0 then .w else .d) 0
      (word (ofBytes ((m.data.drop 14).take 8))) (word (ofBytes ((m.data.drop 22).take 8))) (word (ofBytes (m.data.take 8)))
      ⟨m.sdie, (m.data.getD 8 0).toNat % 32, (m.data.getD 9 0).toNat % 8, (m.data.getD 10 0).toNat % 8⟩ with
    pa := s.paOf m.addr, asker := .die m }

/-! ### Requests and writes at a home (R318, R319, R330, R335, R351) -/

section
variable {s : State} {m : DieMsg} (hhome : ((s.homeDieOf m.addr).all fun d => d == m.ddie) = true)
include hhome

theorem exec_dieWrPerform (hfirst : s.dieBehind (2, 0, m) = false) : exec (.dieWrPerform m) s =
    .next (((s.gone (2, 0, m)).homeWrite (s.paOf m.addr) m.data).dieDone m 1 (s.paOf m.addr) m.data.length []) :=
  dieAccess_done hfirst hhome (k := fun t => .done ((t.homeWrite (t.paOf m.addr) m.data).dieDone m 1 (t.paOf m.addr) m.data.length []))
    (by rw [gone_paOf])

theorem exec_dieWrUnlock (hfirst : s.dieBehind (2, 2, m) = false) : exec (.dieWrUnlock m) s =
    .next { s.gone (2, 2, m) with
      remoteLocks := s.remoteLocks.filter fun r => r ≠ (alignDown (s.paOf m.addr) 4, 1024 + m.sdie, 0) } := by
  have hx : exec (.dieWrUnlock m) s = execDieWrUnlock m s := rfl
  rw [hx, execDieWrUnlock]
  exact dieAccess_done hfirst hhome (by rw [gone_paOf, gone_remoteLocks]; rfl)

theorem exec_dieReqRead {l : List Byte} (hfirst : s.dieBehind (0, 0, m) = false) (hlease : (s.gone (0, 0, m)).leaseOver m.exp = false)
    (hb : (s.gone (0, 0, m)).blockedAt (s.paOf m.addr) (m.data.getD 0 0).toNat = false)
    (hr : State.homeRead { (s.gone (0, 0, m)).freeWorld.1 with locks := [], remoteLocks := [] } (s.gone (0, 0, m)).freeWorld.2
      (s.paOf m.addr) (m.data.getD 0 0).toNat = .bytes l) :
    exec (.dieReqRead m) s = .next ((s.gone (0, 0, m)).freeWorld.1.dieAnswer m 1 0 l) := by
  have hx : exec (.dieReqRead m) s = execDieReqRead m s := rfl
  rw [hx, execDieReqRead]
  refine dieAccess_done hfirst hhome ?_
  simp only [gone_paOf, State.serveRead, lost_of_leaseOver hlease, hlease, hr, hb]
  rfl

theorem exec_dieReqLock (hfirst : s.dieBehind (0, 1, m) = false) (hhost : isHost (s.paOf m.addr) = false)
    (hlease : (s.gone (0, 1, m)).leaseOver m.exp = false) (hb : (s.gone (0, 1, m)).blockedAt (s.paOf m.addr) 4 = false)
    (hr : (s.gone (0, 1, m)).freeWorld.1.writeRefused (s.gone (0, 1, m)).freeWorld.2 false (s.paOf m.addr) = none) :
    exec (.dieReqLock m) s = .next (((s.gone (0, 1, m)).freeWorld.1.takeRemote (1024 + m.sdie, 0)
      (alignDown (s.paOf m.addr) 4)).dieAnswer m 1 1 []) := by
  have hx : exec (.dieReqLock m) s = execDieReqLock m s := rfl
  rw [hx, execDieReqLock]
  refine dieAccess_done hfirst hhome ?_
  simp only [gone_paOf, State.serveLock]
  rw [serveWrite_performs _ hlease hb hr, hhost]
  rfl

theorem exec_dieWrWrite (hfirst : s.dieBehind (2, 1, m) = false) (hd : m.ddie < 8) (hlease : (s.gone (2, 1, m)).leaseOver m.exp = false)
    (hb : (s.gone (2, 1, m)).blockedAt (s.paOf m.addr) m.data.length = false)
    (hr : (s.gone (2, 1, m)).freeWorld.1.writeRefused (s.gone (2, 1, m)).freeWorld.2 true (s.paOf m.addr) = none) :
    exec (.dieWrWrite m) s =
      .next (((s.gone (2, 1, m)).freeWorld.1.homeWrite (s.paOf m.addr) m.data).dieAnswer m 1 1 []) := by
  have hx : exec (.dieWrWrite m) s = execDieWrWrite m s := rfl
  rw [hx, execDieWrWrite]
  refine dieAccess_done hfirst hhome ?_
  simp only [gone_paOf]
  rw [serveWrite_performs _ hlease hb hr, dieDone_module hd, freeWorld_gone_paOf]

theorem exec_dieReqAtomic (hfirst : s.dieBehind (0, 2, m) = false) (hd : m.ddie < 8) (hlease : (s.gone (0, 2, m)).leaseOver m.exp = false)
    (hb : (s.gone (0, 2, m)).blockedAt (s.paOf m.addr) (typeBytes (dataType m.data)) = false)
    (hr : (s.gone (0, 2, m)).freeWorld.1.writeRefused (s.gone (0, 2, m)).freeWorld.2 false (s.paOf m.addr) = none)
    (hhost : isHost (s.paOf m.addr) = false) (hheld : m.data.getD 2 0 = 0) :
    let r := (s.gone (0, 2, m)).freeWorld.1.homeAtomic (s.paOf m.addr) (typeBytes (dataType m.data))
      fun old => (dataOp m.data).apply (dataType m.data) old (dataOperand m.data) (dataCompare m.data)
    exec (.dieReqAtomic m) s = .next (r.1.dieAnswer m 1 0 (bytesOf (typeBytes (dataType m.data)) r.2)) := by
  intro r
  have hx : exec (.dieReqAtomic m) s = execDieReqAtomic m s := rfl
  rw [hx, execDieReqAtomic]
  refine dieAccess_done hfirst hhome ?_
  simp only [gone_paOf]
  rw [serveAtomic_here _ hlease hb hr hheld hhost]
  simp only [Bool.false_eq_true, if_false, dieDone_module hd]
  rfl

section
variable (hfirst : s.dieBehind (0, 3, m) = false) (hlease : (s.gone (0, 3, m)).leaseOver m.exp = false)
  (hr : (s.gone (0, 3, m)).freeWorld.1.scRefused (s.gone (0, 3, m)).freeWorld.2 (scOpOf (m.data.getD 0 0).toNat) (s.paOf m.addr)
    (if m.data.getD 1 0 = 0 then 4 else 8) = none)
include hfirst hlease hr

/-- An operation that had been announced keeps its place in sco. -/
theorem exec_dieReqSc_awaited {a : ScAnn} (h : s.announced.find? (awaits m (s.paOf m.addr)) = some a) :
    exec (.dieReqSc m) s = .next { (s.gone (0, 3, m)).freeWorld.1 with
      announced := s.announced.map fun x => if x = a then { a with known := true, asker := .die m } else x } := by
  have hx : exec (.dieReqSc m) s = execDieReqSc m s := rfl
  rw [← scBytes_ofCode] at hr
  unfold awaits at h
  rw [hx, execDieReqSc]
  refine dieAccess_done hfirst hhome ?_
  simp only [gone_paOf, hlease, Bool.false_eq_true, if_false, hr, freeWorld_gone_announced, h]

/-- Any other takes a place of now. -/
theorem exec_dieReqSc_new (h : s.announced.find? (awaits m (s.paOf m.addr)) = none) : exec (.dieReqSc m) s =
    .next { (s.gone (0, 3, m)).freeWorld.1 with announced := s.announced ++ [(s.gone (0, 3, m)).freeWorld.1.scEntryNow m] } := by
  have hx : exec (.dieReqSc m) s = execDieReqSc m s := rfl
  rw [← scBytes_ofCode] at hr
  unfold awaits at h
  rw [hx, execDieReqSc]
  refine dieAccess_done hfirst hhome ?_
  simp only [gone_paOf, hlease, Bool.false_eq_true, if_false, hr, freeWorld_gone_announced, h]
  simp only [State.scEntryNow, freeWorld_gone_paOf]

end

end

/-! ### The ways, the tasks and the announcements (R168, R322, R324, R335) -/

section
variable {s : State} {m : DieMsg}

theorem exec_dieWrInv (hfirst : s.dieBehind (2, 3, m) = false) : exec (.dieWrInv m) s =
    .next (((s.gone (2, 3, m)).clearDie m.ddie fun w => if m.data.length = 128 then inSig (sigOf m.data) w
      else decide (alignDown (s.paOf m.addr) 4 ≤ w) && decide (w < s.paOf m.addr + ofBytes m.data)).dieAnswer m 1 3 []) := by
  have hx : exec (.dieWrInv m) s = execDieWrInv m s := rfl
  rw [hx, execDieWrInv]
  exact dieServe_done hfirst (by simp only [gone_paOf])

theorem exec_dieArbSig (hfirst : s.dieBehind (3, 0, m) = false) :
    exec (.dieArbSig m) s = .next ((s.gone (3, 0, m)).clearDie m.ddie (inSig (sigOf m.data))) := by
  have hx : exec (.dieArbSig m) s = execDieArbSig m s := rfl
  rw [hx, execDieArbSig]
  exact dieServe_done hfirst rfl

theorem exec_dieArbMark (hfirst : s.dieBehind (3, 2, m) = false) :
    exec (.dieArbMark m) s = .next ((s.gone (3, 2, m)).mark (sigOf m.data) fun u => u.loc.die == m.ddie) := by
  have hx : exec (.dieArbMark m) s = execDieArbMark m s := rfl
  rw [hx, execDieArbMark]
  exact dieServe_done hfirst rfl

theorem exec_dieArbLowts (hfirst : s.dieBehind (3, 1, m) = false) : exec (.dieArbLowts m) s =
    .next ((s.gone (3, 1, m)).setDie m.ddie { s.die m.ddie with
      lowTs := (s.die m.ddie).lowTs.filter (fun e => !(e.1 == m.sdie && e.2.1 == BitVec.ofNat 32 (ofBytes (m.data.take 4)))) ++
        [(m.sdie, BitVec.ofNat 32 (ofBytes (m.data.take 4)), BitVec.ofNat 32 (ofBytes ((m.data.drop 4).take 4)))] }) := by
  have hx : exec (.dieArbLowts m) s = execDieArbLowts m s := rfl
  rw [hx, execDieArbLowts]
  exact dieServe_done hfirst (by simp only [gone_die])

/-- An announced operation of another die stands in sco until its request comes. -/
theorem exec_dieArbScann (hfirst : s.dieBehind (3, 3, m) = false) : exec (.dieArbScann m) s =
    .next { s.gone (3, 3, m) with announced := s.announced ++ [(s.gone (3, 3, m)).scEntryAt m] } := by
  have hx : exec (.dieArbScann m) s = execDieArbScann m s := rfl
  rw [hx, execDieArbScann]
  exact dieServe_done hfirst (by simp only [gone_announced, State.scEntryAt])

end

/-! ### Responses (R350, R430) -/

theorem execDieRspInvack_acks {s : State} {m : DieMsg}
    (h : (s.dieAsked.any fun x => x.1 != 4 && x.2.2.tag == m.tag && x.2.2.sdie == m.ddie && x.2.2.ddie == m.sdie) = true) :
    ∃ t : State, exec (.dieRspInvack m) s = .next (t.homeAcked m) ∧ t.homeAcks = s.homeAcks ∧ t.dieOut = s.dieOut :=
  ⟨_, if_pos h, rfl, rfl⟩

theorem dieResponse_next (s : State) (typ : Nat) (m : DieMsg) : ∃ t, s.dieResponse typ m = .next t := by
  unfold State.dieResponse
  dsimp only
  split
  · exact ⟨_, rfl⟩
  · exact ⟨_, rfl⟩

/-- The INVACK of a die counts for the answer that waits for it: with the last one that answer leaves. -/
theorem homeAcked_one {s : State} {m : DieMsg} {h : HomeAck} (hd : h.answer.2.2.sdie = m.ddie) (ht : h.tag = m.tag) (hs : s.homeAcks = [h]) :
    (h.left.filter (· ≠ m.sdie) = [] → (s.homeAcked m).homeAcks = [] ∧ (s.homeAcked m).dieOut = s.dieOut ++ [h.answer]) ∧
    (h.left.filter (· ≠ m.sdie) ≠ [] →
      (s.homeAcked m).homeAcks = [{ h with left := h.left.filter (· ≠ m.sdie) }] ∧ (s.homeAcked m).dieOut = s.dieOut) := by
  unfold State.homeAcked
  rw [hs]
  simp only [List.map_cons, List.map_nil, hd, ht, and_self, if_true]
  generalize h.left.filter (· ≠ m.sdie) = l
  exact ⟨fun hl => by simp [hl], fun hl => by simp [hl]⟩

/-! ### Flits (R420, R429) -/

section
variable {s : State} {die port : Nat} {raw : List Byte}

theorem execDieFlitReceive_bad (h : (dieFlitOf raw).crcGood = false ∨ (dieFlitOf raw).seq ≠ (s.diePort die port).next) :
    execDieFlitReceive die port raw s = .next (s.setDiePort die port { s.diePort die port with sendNak := true }) := by
  refine if_pos ?_
  simpa using h

/-- A good flit in sequence, at a port that keeps no flit of its own, delivers its messages. -/
theorem execDieFlitReceive_good (hcrc : (dieFlitOf raw).crcGood = true) (hseq : (dieFlitOf raw).seq = (s.diePort die port).next)
    (hun : (s.diePort die port).unacked = []) (hn : (s.diePort die port).replays + (dieFlitOf raw).nak.toNat < 8) :
    let p := s.diePort die port
    let f := dieFlitOf raw
    let r := dieMsgs 16 (p.slots ++ f.slots)
    execDieFlitReceive die port raw s = .next { s.setDiePort die port { p with
      stopped := f.stop, replays := p.replays + f.nak.toNat, down := false, next := (p.next + 1) % 4096, acked := f.seq, sendNak := false
      slots := r.2 } with
      dieIn := s.dieIn ++ r.1.filter (fun x => endsAt die x.1 x.2.1 x.2.2)
      dieFwd := s.dieFwd ++ (r.1.filter fun x => !endsAt die x.1 x.2.1 x.2.2).map fun x => (die, x) } := by
  intro p f r
  have hn' : ¬8 ≤ (s.diePort die port).replays + (dieFlitOf raw).nak.toNat := Nat.not_le.2 hn
  have hgo : (!(dieFlitOf raw).crcGood || decide ((dieFlitOf raw).seq ≠ (s.diePort die port).next)) = false := by simp [hcrc, hseq]
  unfold execDieFlitReceive
  simp only [hgo, hun, List.filter_nil, List.length_nil, Nat.lt_irrefl, Bool.false_eq_true, if_false, hn', p, f, r]
  rfl
end

/-! ### The obligation -/

end Sys2Proof.Machine

open Sys2Proof Sys2Proof.Machine

/-- Settles O59: each message by the lemma about its step. -/
theorem dieMessagesDoTheirWork : Obligations.DieMessagesDoTheirWork := by
  intro s m gone first answer pa who home
  refine ⟨?perform, ?performAtHub, ?invack, exec_dieWrUnlock, exec_dieWrInv, exec_dieArbSig, exec_dieArbMark, ?behind, exec_dieArbLowts, ?scann,
    ?read, ?lock, ?write, ?atomic, ?sc, ?responses, rfl, rfl, ?beacon, ?flits⟩
  case perform =>
    intro hhome hfirst hd
    rw [exec_dieWrPerform hhome hfirst, dieDone_module hd]
    rfl
  case performAtHub =>
    intro t hhome hfirst hd hdata hk
    have hn : m.data.length ≠ 0 := mt List.length_eq_zero_iff.1 hdata
    have hdies : ((s.gone (2, 0, m)).homeWrite (s.paOf m.addr) m.data).kDies = s.kDies := by
      rw [homeWrite_kDies, State.kDies, gone_topo, State.kDies]
    rw [exec_dieWrPerform hhome hfirst, dieDone_home hd hn (hdies ▸ hk), hdies]
    rfl
  case invack =>
    intro mine hmine
    obtain ⟨t, ht, hacks, hout⟩ := execDieRspInvack_acks (s := s) (m := m) hmine
    refine ⟨_, ht, fun h hd htag hs => ?_⟩
    rw [← hout]
    exact homeAcked_one hd htag (hacks.trans hs)
  case behind => exact fun i c n hi => exec_dieBehind hi
  case scann => exact fun hfirst => ⟨_, exec_dieArbScann hfirst, rfl, rfl, rfl, gone_paOf .., rfl, rfl⟩
  case read =>
    intro l t w n hhome hfirst hlease hb hr
    exact exec_dieReqRead hhome hfirst hlease hb hr
  case lock =>
    intro t w hhome hfirst hhost hlease hb hr
    exact exec_dieReqLock hhome hfirst hhost hlease hb hr
  case write =>
    intro t w hhome hfirst hd hlease hb hr
    exact exec_dieWrWrite hhome hfirst hd hlease hb hr
  case atomic =>
    intro t w op ty hhome hfirst hd hlease hb hr hhost hheld
    exact exec_dieReqAtomic hhome hfirst hd hlease hb hr hhost hheld
  case sc =>
    intro t p found hhome hfirst hlease hr
    have hfound : found = s.announced.find? (awaits m (s.paOf m.addr)) :=
      congrArg (List.find? (awaits m (s.paOf m.addr))) (freeWorld_gone_announced s (0, 3, m))
    rw [hfound]
    exact ⟨fun a ha => exec_dieReqSc_awaited hhome hfirst hlease hr ha, fun h =>
      ⟨_, exec_dieReqSc_new hhome hfirst hlease hr h, rfl, rfl, freeWorld_gone_paOf .., rfl⟩⟩
  case responses => exact ⟨rfl, rfl, rfl, rfl, fun n => dieResponse_next s n m⟩
  case beacon => exact fun h => if_pos h
  case flits =>
    intro die port raw p f
    exact ⟨execDieFlitReceive_bad, execDieFlitReceive_good⟩

end

