-- ==== Sys2Proof/Proofs/VisiblePhase.lean ====
section
/-! The visible phase of a commit (R319, R320, R324): the state in which a commit that nothing holds up leaves memory, the ways and the other
tasks, and what it releases; O23 settled. -/

namespace Sys2Proof.Machine

/-! ### Own scratch as a home (R62, R163) -/

section
variable {s : State} {a : Nat}

/-- An offset of a cluster's scratch window. -/
def InWindow (d c a : Nat) : Prop := loftWindow d c ≤ a ∧ a < loftWindow d c + 0x80_0000

theorem inWindow_loftAddr {va : Word} (h : s.cur.inAperture va = true) : InWindow s.cur.loc.die s.cur.loc.cluster (s.cur.loftAddr va) := by
  simp only [Unit.inAperture, Bool.and_eq_true, decide_eq_true_eq] at h
  unfold InWindow Unit.loftAddr
  omega

section
variable {d c : Nat} (hd : d < 6) (hc : c < 20) (h : InWindow d c a)
include hd hc h

theorem InWindow.lt : a < 2 ^ 46 := by
  obtain ⟨-, h⟩ := h
  simp only [loftWindow, loftBase] at h
  omega

theorem localOf_paOf_window : localOf (s.paOf a) = a := by
  unfold localOf State.paOf
  have := InWindow.lt hd hc h
  omega

theorem isLocal_paOf_window : s.isLocal (s.paOf a) = true := by
  have := InWindow.lt hd hc h
  simp only [State.isLocal, moduleOf, State.paOf, beq_iff_eq]
  omega

theorem regionOf_window : ∃ b o, regionOf a = .loft d c b o := by
  obtain ⟨h, h'⟩ := h
  have hw : (a - loftBase) / 0x80_0000 = 32 * d + c := by
    simp only [loftWindow, loftBase] at h h' ⊢
    omega
  simp only [loftWindow] at h h'
  have hb : loftBase = 0x310_0000_0000 := rfl
  have h1 : ¬a < 0xC0_0000_0000 := by omega
  have h2 : ¬(0x100_0000_0000 ≤ a ∧ a < 0x280_0000_0000) := by omega
  have h3 : ¬(0x300_0000_0000 ≤ a ∧ a < 0x306_0000_0000) := by omega
  have h4 : loftBase ≤ a ∧ a < 0x310_6000_0000 := by omega
  have h6 : (32 * d + c) / 32 = d := by omega
  have h7 : (32 * d + c) % 32 = c := by omega
  unfold regionOf
  simp only [if_neg h1, if_neg h2, if_neg h3, if_pos h4, hw, h6, h7, if_pos hc]
  exact ⟨_, _, rfl⟩

end

end

/-! ### A commit that nothing holds up (R316, R317, R319) -/

/-- Nothing holds up a commit of a task that has locked and written nothing yet. -/
structure State.CommitsAtOnce (s : State) (c : Cont) : Prop where
  hidden : s.cur.visible = false
  unprepared : s.cur.prepared = none
  unsigned : s.cur.task.wsig = 0
  unlocked : s.cur.task.locked = []
  timestamp : s.timestampOk = true
  access : s.cur.accessBefore = false
  time : c.notYet s.time = false
  performs : s.performsOut = false
  speculative : ∀ u ∈ s.others, u.task.nonspec = false

theorem notYet_eq_false {c : Cont} {now : Word} (h : ∀ T, c = .atC T → T.toNat ≤ now.toNat) : c.notYet now = false := by
  cases c
  case atC T => exact decide_eq_false (Nat.not_lt.2 (h T rfl))
  all_goals rfl

/-- The units whose tasks a commit may mark. -/
def State.marks (s : State) (l : List Perform) (u : Unit) : Bool :=
  !(s.scratchOnly l && s.cur.task.held.isEmpty) || u.clusterId == s.cur.clusterId

/-- The unit as its commit becomes visible. -/
def State.visibleCur (s : State) (l : List Perform) : Unit :=
  { s.cur with
    prepared := some (l, noExpiry), visible := true, visibleAt := s.ids
    task := { s.cur.task with wsig := writeSig s l, locked := [] } }

/-- The state of a visible phase whose performs leave memory `m` and clusters `k`. -/
def State.visibleWith (s : State) (l : List Perform) (m : List Host.Cell) (k : List (Nat × Cluster)) : State :=
  { s with
    mem := m
    clusters := k.map fun e => (e.1, e.2.clearWords (inSig (writeSig s l)))
    others := s.others.map fun u => if s.marks l u then u.markBy (writeSig s l) else u
    ids := s.ids + 1
    cur := s.visibleCur l }

/-- The state whose commit has translated its performs. -/
def State.translated (s : State) (l : List Perform) : State := s.modCur fun u => { u with prepared := some (l, noExpiry) }

/-- The state in which the performs of a commit begin. -/
def State.marked (s : State) (l : List Perform) : State := (s.translated l).mark (writeSig s l) (s.marks l)

section
variable {s : State} {c : Cont} {l : List Perform} {m : List Host.Cell} {k : List (Nat × Cluster)}

theorem makeVisible_eq (h : s.cur.task.locked = []) (hP : (performOrder l).foldl (fun t x => t.perform noExpiry x) (s.marked l) =
    { s.marked l with mem := m, clusters := k }) : (s.translated l).makeVisible noExpiry l (s.marks l) = s.visibleWith l m k := by
  have hx : (s.translated l).mark (writeSig (s.translated l) l) (s.marks l) = s.marked l := rfl
  have hl : (s.marked l).cur.task.locked = [] := h
  unfold State.makeVisible
  simp only [hx, hP, hl, List.contains_nil, Bool.not_false, List.filter_true, State.clearSig, State.modCur, List.filter_nil]
  rfl

/-- The state of the visible phase, with the place of an `lbank` in its order. -/
def State.shown (s : State) (c : Cont) (l : List Perform) (m : List Host.Cell) (k : List (Nat × Cluster)) : State :=
  (s.visibleWith l m k).visibleCont c

theorem performsOut_shown (h : s.performsOut = false) : (s.shown c l m k).performsOut = false := by
  have hc : ∀ t : State, (t.visibleCont c).performsOut = t.performsOut := by
    intro t
    cases c
    case lbank =>
      unfold State.visibleCont
      dsimp only
      split <;> rfl
    all_goals rfl
  exact (hc _).trans h

theorem lockStep_ends (hl : s.cur.task.locked = []) (hspec : ∀ u ∈ s.others, u.task.nonspec = false) (hout : s.performsOut = false)
    (hfree : ∀ w ∈ s.lockOrder l, s.lockedAgainst w.1 4 = false)
    (hscratch : (s.scratchOnly l && s.cur.task.held.isEmpty) = true ∨ s.lockOrder l = [])
    (hhome : ∀ locked, ∀ p ∈ l, s.homeChanged locked p = false)
    (hP : (performOrder l).foldl (fun t x => t.perform noExpiry x) (s.marked l) = { s.marked l with mem := m, clusters := k })
    (lone : Bool) : (s.translated l).lockStep c lone l noExpiry = .ended ((s.shown c l m k).endCommit c lone) := by
  have hmarks : (fun u : Unit => !((s.translated l).scratchOnly l && (s.translated l).cur.task.held.isEmpty) ||
    u.clusterId == (s.translated l).cur.clusterId) = s.marks l := rfl
  have hlate : ¬noExpiry ≤ (s.translated l).time.toNat := Nat.not_le.2 s.time.isLt
  have hkept : (s.translated l).cur.locksKept ((s.translated l).lockOrder l) = true := by
    have hu : (s.translated l).cur.task.locked = [] := hl
    simp [Unit.locksKept, hu]
  have hlocks : ((s.translated l).lockOrder l).any (fun w => (s.translated l).lockedAgainst w.1 4) = false :=
    List.any_eq_false.2 fun w hw => Bool.eq_false_iff.1 (hfree w hw)
  have htaken : (if (s.translated l).scratchOnly l && (s.translated l).cur.task.held.isEmpty then (s.translated l, .held)
      else (s.translated l).takeLocks noExpiry ((s.translated l).lockOrder l)) = (s.translated l, Locking.held) := by
    rcases hscratch with h | h
    · exact if_pos h
    · have h' : (s.translated l).lockOrder l = [] := h
      rw [h', State.takeLocks, ite_self]
  have hreads : (s.translated l).nonspecReads (writeSig (s.translated l) l) (s.marks l) = false :=
    List.any_eq_false.2 fun u hu => by simp [hspec u hu]
  have hchanged : ∀ b, l.any ((s.translated l).homeChanged b) = false := fun b =>
    List.any_eq_false.2 fun p hp => Bool.eq_false_iff.1 (by cases p <;> exact hhome b _ hp)
  have hshown : ((s.translated l).makeVisible noExpiry l (s.marks l)).visibleCont c = s.shown c l m k := by
    rw [makeVisible_eq hl hP, State.shown]
  have hdone : (s.shown c l m k).performsOut = false := performsOut_shown hout
  unfold State.lockStep
  simp only [hlate, hkept, hlocks, htaken, hmarks, hreads, hchanged, hshown, hdone, Bool.not_true, Bool.or_self, Bool.and_false, decide_false,
    Bool.false_eq_true, if_false]

/-- A commit that nothing holds up ends in its turn. -/
theorem commitsTo_shown (h : s.CommitsAtOnce c) (hp : s.prepare s.cur.task.ops = .ok s l noExpiry)
    (hfree : ∀ w ∈ s.lockOrder l, s.lockedAgainst w.1 4 = false)
    (hscratch : (s.scratchOnly l && s.cur.task.held.isEmpty) = true ∨ s.lockOrder l = [])
    (hhome : ∀ locked, ∀ p ∈ l, s.homeChanged locked p = false)
    (hP : (performOrder l).foldl (fun t x => t.perform noExpiry x) (s.marked l) = { s.marked l with mem := m, clusters := k })
    (lone : Bool) : s.CommitsTo c lone ((s.shown c l m k).endCommit c lone) := by
  unfold State.CommitsTo State.commitStep
  simp only [h.hidden, h.unprepared, hp, h.timestamp, h.time, h.access, Bool.not_true, Bool.or_self, Bool.false_eq_true, if_false]
  exact lockStep_ends h.unlocked h.speculative h.performs hfree hscratch hhome hP lone

end

/-- An `lbank` takes its place among those of its cluster; nothing else of the state changes (R182). -/
theorem visibleCont_eq (s : State) (c : Cont) : ∃ k, s.visibleCont c = { s with clusters := k } ∧
    ((∀ d b w, c ≠ .lbank d b w) → k = s.clusters) ∧ ∀ j, ((Sparse.find? k j).getD {}).tags = (s.cluster j).tags := by
  cases c
  case lbank d b w =>
    unfold State.visibleCont
    dsimp only
    split
    · exact ⟨s.clusters, rfl, fun _ => rfl, fun _ => rfl⟩
    · refine ⟨_, rfl, fun h => absurd rfl (h d b w), fun j => ?_⟩
      by_cases hj : j = s.cur.clusterId
      · rw [hj, Sparse.find?_put_same]
        rfl
      · rw [Sparse.find?_put_other _ _ hj]
        rfl
  all_goals exact ⟨s.clusters, rfl, fun _ => rfl, fun _ => rfl⟩

/-! ### The end of a commit (R194, R224, R319) -/

/-- The state in which the held items of a commit have been released. -/
def State.released (s : State) : State :=
  s.cur.task.held.foldl State.release { s with remotes := s.remotes.filter fun r => !(r.commit && r.loc == s.cur.loc) }

/-- The unit as its next task begins. -/
def Unit.afterCommit (u : Unit) (c : Cont) (lone : Bool) : Unit :=
  ({ u with tid := u.tid + 1, aborts := 0, retCommit := u.retCommit && decide (c ≠ .ret) } : Unit).beginTask (u.nextTask c).1 (u.nextTask c).2
    (u.nextRestart c lone).1 (u.nextRestart c lone).2

theorem unlockAll_none {s : State} (h : s.cur.task.locked = []) : s.unlockAll = s := by
  have hu : ({ s.cur with task := { s.cur.task with locked := [] } } : Unit) = s.cur := by rw [← h]
  unfold State.unlockAll
  simp only [h, List.contains_nil, Bool.not_false, List.filter_true, List.filter_nil, List.foldl_nil]
  exact congrArg s.setCur hu

section
variable {s : State} (h : s.cur.task.locked = []) (c : Cont) (lone : Bool)
include h

theorem endCommit_eq : s.endCommit c lone =
    (({ s.released with token := if s.released.holdsToken then none else s.released.token } : State).setCur
      (s.released.cur.afterCommit c lone)).progress s.released.cur.launch := by
  unfold State.endCommit
  dsimp only
  rw [unlockAll_none (by exact h)]
  rfl

theorem endCommit_mem : (s.endCommit c lone).mem = s.released.mem := by
  rw [endCommit_eq h]
  rfl

theorem endCommit_others : (s.endCommit c lone).others = s.released.others := by
  rw [endCommit_eq h]
  rfl

theorem endCommit_locks : (s.endCommit c lone).locks = s.released.locks := by
  rw [endCommit_eq h]
  rfl

theorem endCommit_cluster (j : Nat) : (s.endCommit c lone).cluster j = s.released.cluster j := by
  rw [endCommit_eq h]
  rfl

theorem endCommit_core (j : Nat) : (s.endCommit c lone).core j = s.released.core j := by
  rw [endCommit_eq h]
  rfl

theorem endCommit_die (j : Nat) : (s.endCommit c lone).die j = s.released.die j := by
  rw [endCommit_eq h]
  rfl

theorem endCommit_counter (j : Nat) : (s.endCommit c lone).counter j = s.released.counter j := by
  rw [endCommit_eq h]
  rfl

theorem endCommit_waiting : (s.endCommit c lone).waiting = s.released.waiting := by
  rw [endCommit_eq h]
  rfl

theorem endCommit_cur : (s.endCommit c lone).cur = s.released.cur.afterCommit c lone := by
  rw [endCommit_eq h]
  rfl

end

/-- The task of the acting unit has ended in `t`, and the next one is empty. -/
def State.CommitDone (s t : State) : Prop :=
  t.cur.tid = s.cur.tid + 1 ∧ t.cur.visible = false ∧ t.cur.task.ops = [] ∧ t.cur.task.held = [] ∧ t.cur.task.words = [] ∧
    t.cur.task.locked = [] ∧ t.locks = s.locks ∧ t.cur.regs = s.cur.regs ∧ t.cur.pc = s.cur.pc

theorem commitDone_endCommit {s v : State} (h : v.cur.task.locked = []) (c : Cont) (lone : Bool) (htid : v.released.cur.tid = s.cur.tid)
    (hlocks : v.released.locks = s.locks) (hregs : v.released.cur.regs = s.cur.regs) (hpc : v.released.cur.pc = s.cur.pc) :
    s.CommitDone (v.endCommit c lone) := by
  unfold State.CommitDone
  rw [endCommit_cur h, endCommit_locks h, ← htid, ← hregs, ← hpc]
  exact ⟨rfl, rfl, rfl, rfl, rfl, rfl, hlocks, rfl, rfl⟩

/-! ### One operation on own scratch (R319, R320, R323, R324) -/

end Sys2Proof.Machine

namespace Sys2Proof.Sparse

theorem find?_map {α β : Type} (f : α → β) (l : List (Nat × α)) (a : Nat) : find? (l.map fun e => (e.1, f e.2)) a = (find? l a).map f := by
  induction l with
  | nil => rfl
  | cons e r ih =>
    by_cases h : a = e.1
    · simp [find?, h]
    · simp [find?, h, ih]

end Sys2Proof.Sparse

namespace Sys2Proof.Machine

/-- The ways lose the words of a signature; the tags are kept. -/
theorem cleared_cluster (k : List (Nat × Cluster)) (p : Nat → Bool) (j : Nat) :
    ((Sparse.find? (k.map fun e : Nat × Cluster => (e.1, e.2.clearWords p)) j).getD {}).lines = (((Sparse.find? k j).getD {}).clearWords p).lines ∧
      ((Sparse.find? (k.map fun e : Nat × Cluster => (e.1, e.2.clearWords p)) j).getD {}).tags = ((Sparse.find? k j).getD {}).tags := by
  rw [Sparse.find?_map fun c : Cluster => c.clearWords p]
  cases Sparse.find? k j <;> exact ⟨rfl, rfl⟩

/-- What a commit with write signature `g` clears and marks. -/
def State.Cleared (s : State) (c : Cont) (t : State) (g : BitVec 1024) : Prop :=
  t.others = s.others.map (fun u => if u.clusterId = s.cur.clusterId then u.markBy g else u) ∧
    ((∀ d k w, c ≠ .lbank d k w) → ∀ k, (t.cluster k).lines = ((s.cluster k).clearWords (inSig g)).lines)

section
variable {s : State} {c : Cont} {p : Perform} {m : List Host.Cell} {k : List (Nat × Cluster)} {g : BitVec 1024}

/-- The commit of one perform on own scratch. -/
theorem commitsTo_one (h : s.CommitsAtOnce c) (hheld : s.cur.task.held = []) (hp : s.prepare s.cur.task.ops = .ok s [p] noExpiry)
    (hscratch : s.scratchOnly [p] = true) (hfree : ∀ w ∈ s.lockOrder [p], s.lockedAgainst w.1 4 = false)
    (hhome : ∀ locked, s.homeChanged locked p = false) (horder : performOrder [p] = [p]) (hg : p.sig s = g)
    (hP : (s.marked [p]).perform noExpiry p = { s.marked [p] with mem := m, clusters := k })
    (hk : ∀ j, ((Sparse.find? k j).getD {}).lines = (s.cluster j).lines) (lone : Bool) :
    ∃ t, s.CommitsTo c lone t ∧ s.CommitDone t ∧ s.Cleared c t g ∧ t.mem = m ∧
      ∀ j, (t.cluster j).tags = ((Sparse.find? k j).getD {}).tags := by
  have hsig : writeSig s [p] = g := by
    rw [← hg, writeSig, List.foldl_cons, List.foldl_nil, h.unsigned]
    exact BitVec.zero_or
  have hmarks : s.marks [p] = fun u => u.clusterId == s.cur.clusterId := by
    funext u
    simp [State.marks, hscratch, hheld]
  have hends := commitsTo_shown h hp hfree (.inl (by simp [hscratch, hheld])) (fun b q hq => List.mem_singleton.1 hq ▸ hhome b)
    (by rw [horder]; exact hP) lone
  obtain ⟨k', hshown, hlines, htags⟩ := visibleCont_eq (s.visibleWith [p] m k) c
  unfold State.shown at hends
  rw [hshown] at hends
  let v : State := { s.visibleWith [p] m k with clusters := k' }
  have hlocked : v.cur.task.locked = [] := rfl
  have hreleased : v.released = { v with remotes := v.remotes.filter fun r => !(r.commit && r.loc == v.cur.loc) } := by
    have hv : v.cur.task.held = [] := hheld
    rw [State.released, hv]
    rfl
  refine ⟨_, hends, commitDone_endCommit hlocked c lone ?_ ?_ ?_ ?_, ⟨?_, fun hc j => ?_⟩, ?_, fun j => ?_⟩
  iterate 4 rw [hreleased]; rfl
  · rw [endCommit_others hlocked, hreleased]
    change (s.others.map fun u => if s.marks [p] u then u.markBy (writeSig s [p]) else u) = _
    simp only [hsig, hmarks, beq_iff_eq]
  · rw [endCommit_cluster hlocked, hreleased]
    change ((Sparse.find? k' j).getD {}).lines = _
    rw [hlines hc]
    refine (cleared_cluster k _ j).1.trans ?_
    simp only [Cluster.clearWords, hsig, hk]
  · rw [endCommit_mem hlocked, hreleased]
    rfl
  · rw [endCommit_cluster hlocked, hreleased]
    change ((Sparse.find? k' j).getD {}).tags = _
    exact (htags j).trans (cleared_cluster k _ j).2

/-- The commit of one perform that writes bytes of own scratch. -/
theorem commitsTo_bytes {a : Nat} {b : List Byte} (h : s.CommitsAtOnce c) (hm : s.MemOk) (hheld : s.cur.task.held = [])
    (hp : s.prepare s.cur.task.ops = .ok s [p] noExpiry) (hscratch : s.scratchOnly [p] = true)
    (hfree : ∀ w ∈ s.lockOrder [p], s.lockedAgainst w.1 4 = false) (hhome : ∀ locked, s.homeChanged locked p = false)
    (horder : performOrder [p] = [p]) (hg : p.sig s = g) (hP : (s.marked [p]).perform noExpiry p = (s.marked [p]).setBytes a b) (lone : Bool) :
    ∃ t, s.CommitsTo c lone t ∧ s.CommitDone t ∧ s.Cleared c t g ∧ t.MemOk ∧
      (∀ (i : Nat) (h : i < b.length), t.byte (a + i) = b[i]) ∧ ∀ x, x < a ∨ a + b.length ≤ x → t.byte x = s.byte x := by
  obtain ⟨t, hends, hdone, hcleared, hmem, -⟩ := commitsTo_one h hheld hp hscratch hfree hhome horder hg
    (hP.trans (setBytes_eq b (s.marked [p]) a)) (fun j => rfl) lone
  have hbyte (x : Nat) : t.byte x = ((s.marked [p]).setBytes a b).byte x := congrArg (Sparse.get 0 · x) hmem
  refine ⟨t, hends, hdone, hcleared, ?_, fun i hi => ?_, fun x hx => ?_⟩
  · unfold State.MemOk
    rw [hmem]
    exact setBytes_mem_wf b _ a hm
  · rw [hbyte]
    exact byte_setBytes_inside b _ a i hi hm
  · rw [hbyte]
    exact byte_setBytes_outside b _ a x hm hx

end

/-! ### The words of a span (R318, R323) -/

theorem spanWords_word {w : Nat} (h : w % 4 = 0) : spanWords w 4 = [w] := by
  have hn : (w + 4 + 3) / 4 - w / 4 = 1 := by omega
  have hw : 4 * (w / 4 + 0) = w := by omega
  rw [spanWords, hn]
  exact congrArg (· :: []) hw

theorem mem_insertWord {x w : LockAsk} {l : List LockAsk} (h : x ∈ insertWord w l) : x = w ∨ x ∈ l := by
  induction l with
  | nil => exact .inl (List.mem_singleton.1 h)
  | cons y r ih =>
    unfold insertWord at h
    split at h
    · exact .inr h
    split at h
    · exact List.mem_cons.1 h
    rcases List.mem_cons.1 h with rfl | h
    · exact .inr List.mem_cons_self
    · exact (ih h).imp_right (List.mem_cons_of_mem _)

theorem mem_lockOrder {s : State} {l : List Perform} {x : LockAsk} (h : x ∈ s.lockOrder l) : x ∈ l.flatMap (Perform.asks s) := by
  unfold State.lockOrder at h
  generalize l.flatMap (Perform.asks s) = as at h ⊢
  induction as with
  | nil => exact h
  | cons a r ih =>
    rcases mem_insertWord h with rfl | h
    · exact List.mem_cons_self
    · exact List.mem_cons_of_mem _ (ih h)

/-- No word of a span that nobody else locks holds a commit up. -/
theorem lockedAgainst_askWords {s : State} {pa va n : Nat} (h : s.lockedAgainst pa n = false) {w : LockAsk} (hw : w ∈ askWords pa va n) :
    s.lockedAgainst w.1 4 = false := by
  obtain ⟨i, hi, rfl⟩ := List.mem_mapIdx.1 hw
  have hmem : (spanWords pa n)[i] ∈ spanWords pa n := List.getElem_mem hi
  have haligned : (spanWords pa n)[i] % 4 = 0 := by simp [spanWords]
  unfold State.lockedAgainst at h ⊢
  rw [spanWords_word haligned, List.any_cons, List.any_nil, Bool.or_false]
  exact Bool.eq_false_iff.2 (List.any_eq_false.1 h _ hmem)

/-! ### The operations of a task on own scratch (R163, R177, R320) -/

section
variable {s : State} {va : Word} (hd : s.cur.loc.die < 6) (hc : s.cur.loc.cluster < 20) (hi : s.cur.inAperture va = true)
  (hw : s.apertureWaits va = false)

/-- Where a commit performs an access to the aperture. -/
def State.scratchPa (s : State) (va : Word) : Nat := s.paOf (s.cur.loftAddr va)

include hi hw in
theorem prepareOne_store (b : List Byte) : s.prepare [.store va b] = .ok s [.bytes (s.scratchPa va) va b] noExpiry := by
  simp only [State.prepare, State.prepOp, if_pos hi, State.prepAperture, hw, Bool.false_eq_true, if_false, Prep.andThen, List.append_nil,
    Nat.min_self, State.scratchPa]

include hi hw in
theorem prepareOne_reduce (op : AtomOp) (ty : AType) (y : BitVec 64) :
    s.prepare [.reduce va op ty y] = .ok s [.reduce (s.scratchPa va) va op ty y] noExpiry := by
  simp only [State.prepare, State.prepOp, if_pos hi, State.prepAperture, hw, Bool.false_eq_true, if_false, Prep.andThen, List.append_nil,
    Nat.min_self, State.scratchPa]

include hw in
theorem prepareOne_tag (x : BitVec 16) : s.prepare [.tag va x] =
    .ok s [.tag s.cur.clusterId (s.cur.apertureBank va) ((va.toNat - s.cur.lap.toNat) % 0x8_0000 / 4096) x] noExpiry := by
  simp only [State.prepare, State.prepOp, State.prepAperture, hw, Bool.false_eq_true, if_false, Prep.andThen, List.append_nil, Nat.min_self]

include hd hc hi

theorem localOf_scratchPa : localOf (s.scratchPa va) = s.cur.loftAddr va := localOf_paOf_window hd hc (inWindow_loftAddr hi)

theorem isLocal_scratchPa : s.isLocal (s.scratchPa va) = true := isLocal_paOf_window hd hc (inWindow_loftAddr hi)

theorem regionOf_scratchPa : ∃ b o, regionOf (localOf (s.scratchPa va)) = .loft s.cur.loc.die s.cur.loc.cluster b o := by
  rw [localOf_scratchPa hd hc hi]
  exact regionOf_window hd hc (inWindow_loftAddr hi)

theorem isHost_scratchPa : isHost (s.scratchPa va) = false := by
  obtain ⟨b, o, h⟩ := regionOf_scratchPa hd hc hi
  rw [isHost, h]

theorem isLocal_marked {l : List Perform} : (s.marked l).isLocal (s.scratchPa va) = true := isLocal_scratchPa hd hc hi

theorem homeSet_scratchPa (t : State) (b : List Byte) : t.homeSet (s.scratchPa va) b = t.setBytes (s.cur.loftAddr va) b := by
  obtain ⟨x, o, h⟩ := regionOf_scratchPa hd hc hi
  rw [State.homeSet, h, localOf_scratchPa hd hc hi]

theorem homeGet_scratchPa (t : State) (n : Nat) : t.homeGet (s.scratchPa va) n = t.bytes (s.cur.loftAddr va) n := by
  obtain ⟨x, o, h⟩ := regionOf_scratchPa hd hc hi
  rw [State.homeGet, h, localOf_scratchPa hd hc hi]

theorem perform_store {l : List Perform} (e : Nat) (b : List Byte) :
    (s.marked l).perform e (.bytes (s.scratchPa va) va b) = (s.marked l).setBytes (s.cur.loftAddr va) b := by
  obtain ⟨x, o, h⟩ := regionOf_scratchPa hd hc hi
  simp only [State.perform, isLocal_marked hd hc hi, if_true, h]
  exact homeSet_scratchPa hd hc hi _ b

theorem perform_reduce {l : List Perform} (e : Nat) {op : AtomOp} {ty : AType} {y : BitVec 64} {x : Nat}
    (hx : op.apply ty (ofBytes (s.bytes (s.cur.loftAddr va) (typeBytes ty))) y.toNat 0 = some x) :
    (s.marked l).perform e (.reduce (s.scratchPa va) va op ty y) =
      (s.marked l).setBytes (s.cur.loftAddr va) (bytesOf (typeBytes ty) x) := by
  obtain ⟨b, o, h⟩ := regionOf_scratchPa hd hc hi
  have hx' : op.apply ty (ofBytes ((s.marked l).homeGet (s.scratchPa va) (typeBytes ty))) y.toNat 0 = some x := by
    rw [homeGet_scratchPa hd hc hi]
    exact hx
  simp only [State.perform, isLocal_marked hd hc hi, Bool.not_true, Bool.false_eq_true, if_false, h, State.performLocal, hx']
  exact homeSet_scratchPa hd hc hi _ _

theorem scratchOnly_store (hg : s.cur.task.wsig = 0) (b : List Byte) : s.scratchOnly [.bytes (s.scratchPa va) va b] = true := by
  obtain ⟨hlow, hhigh⟩ := inWindow_loftAddr hi
  simp [State.scratchOnly, hg, isLocal_scratchPa hd hc hi, localOf_scratchPa hd hc hi, hlow, hhigh]

theorem scratchOnly_reduce (hg : s.cur.task.wsig = 0) (op : AtomOp) (ty : AType) (y : BitVec 64) :
    s.scratchOnly [.reduce (s.scratchPa va) va op ty y] = true := by
  obtain ⟨hlow, hhigh⟩ := inWindow_loftAddr hi
  simp [State.scratchOnly, hg, isLocal_scratchPa hd hc hi, localOf_scratchPa hd hc hi, hlow, hhigh]

theorem asks_store (b : List Byte) : Perform.asks s (.bytes (s.scratchPa va) va b) = askWords (s.scratchPa va) va.toNat b.length := by
  simp [Perform.asks, isHost_scratchPa hd hc hi]

theorem asks_reduce (op : AtomOp) (ty : AType) (y : BitVec 64) :
    Perform.asks s (.reduce (s.scratchPa va) va op ty y) = askWords (s.scratchPa va) va.toNat (typeBytes ty) := by
  simp [Perform.asks, isHost_scratchPa hd hc hi]

omit hd hi in
/-- The granule of an aperture address: its bank's, numbered within the cluster. -/
theorem granule_loftAddr : loftWindow (s.cur.clusterId / 20) (s.cur.clusterId % 20) + s.cur.apertureBank va * 0x8_0000 +
    (va.toNat - s.cur.lap.toNat) % 0x8_0000 / 4096 * 4096 = alignDown (s.cur.loftAddr va) 4096 := by
  have hcl : s.cur.clusterId = s.cur.loc.die * 20 + s.cur.loc.cluster := if_pos hc
  have hdie : s.cur.clusterId / 20 = s.cur.loc.die := by omega
  have hcluster : s.cur.clusterId % 20 = s.cur.loc.cluster := by omega
  rw [hdie, hcluster]
  simp only [Unit.apertureBank, Unit.loftAddr, alignDown, loftWindow, loftBase]
  omega

omit hd hi in
/-- The write signature of a tag is that of the first word of its granule. -/
theorem sig_tag (x : BitVec 16) :
    Perform.sig s (.tag s.cur.clusterId (s.cur.apertureBank va) ((va.toNat - s.cur.lap.toNat) % 0x8_0000 / 4096) x) =
      sigSpan (s.paOf (alignDown (s.cur.loftAddr va) 4096)) 4 := by
  have haligned : s.paOf (alignDown (s.cur.loftAddr va) 4096) % 4 = 0 := by
    simp only [State.paOf, alignDown]
    omega
  rw [Perform.sig, granule_loftAddr hc, sigSpan, spanWords_word haligned]
  exact BitVec.zero_or.symm

end

section
variable {s : State} {c : Cont} {va : Word} (h : s.CommitsAtOnce c) (hd : s.cur.loc.die < 6) (hc : s.cur.loc.cluster < 20)
  (hi : s.cur.inAperture va = true) (hw : s.apertureWaits va = false) (hheld : s.cur.task.held = [])
include h hc hi hw hheld

include hd in
theorem commitsTo_store (hm : s.MemOk) {b : List Byte} (hops : s.cur.task.ops = [.store va b])
    (hl : s.lockedAgainst (s.scratchPa va) b.length = false) (lone : Bool) :
    ∃ t, s.CommitsTo c lone t ∧ s.CommitDone t ∧ s.Cleared c t (sigSpan (s.scratchPa va) b.length) ∧ t.MemOk ∧
      (∀ (i : Nat) (h : i < b.length), t.byte (s.cur.loftAddr va + i) = b[i]) ∧
      ∀ x, x < s.cur.loftAddr va ∨ s.cur.loftAddr va + b.length ≤ x → t.byte x = s.byte x := by
  refine commitsTo_bytes h hm hheld (hops ▸ prepareOne_store hi hw b) (scratchOnly_store hd hc hi h.unsigned b) (fun w hmem => ?_)
    (fun locked => ?_) ?_ rfl (perform_store hd hc hi noExpiry b) lone
  · have hasked := mem_lockOrder hmem
    rw [List.flatMap_cons, List.flatMap_nil, List.append_nil, asks_store hd hc hi] at hasked
    exact lockedAgainst_askWords hl hasked
  · simp only [State.homeChanged, if_pos hi, hw]
  · simp [performOrder, Perform.host, Perform.isTag, isHost_scratchPa hd hc hi]

include hd in
theorem commitsTo_reduce (hm : s.MemOk) {op : AtomOp} {ty : AType} {y : BitVec 64} {x : Nat} (hops : s.cur.task.ops = [.reduce va op ty y])
    (hl : s.lockedAgainst (s.scratchPa va) (typeBytes ty) = false)
    (hx : op.apply ty (ofBytes (s.bytes (s.cur.loftAddr va) (typeBytes ty))) y.toNat 0 = some x) (lone : Bool) :
    ∃ t, s.CommitsTo c lone t ∧ s.CommitDone t ∧ s.Cleared c t (sigSpan (s.scratchPa va) (typeBytes ty)) ∧ t.MemOk ∧
      (∀ (i : Nat), i < typeBytes ty → t.byte (s.cur.loftAddr va + i) = BitVec.ofNat 8 (x / 256 ^ i)) ∧
      ∀ z, z < s.cur.loftAddr va ∨ s.cur.loftAddr va + typeBytes ty ≤ z → t.byte z = s.byte z := by
  have hlen : (bytesOf (typeBytes ty) x).length = typeBytes ty := by simp [bytesOf_eq_map_range]
  obtain ⟨t, hends, hdone, hcleared, hmem, hin, hout⟩ := commitsTo_bytes h hm hheld (hops ▸ prepareOne_reduce hi hw op ty y)
    (scratchOnly_reduce hd hc hi h.unsigned op ty y)
    (fun w hmem => by
      have hasked := mem_lockOrder hmem
      rw [List.flatMap_cons, List.flatMap_nil, List.append_nil, asks_reduce hd hc hi] at hasked
      exact lockedAgainst_askWords hl hasked)
    (fun locked => by simp only [State.homeChanged, if_pos hi, hw])
    (by simp [performOrder, Perform.host, Perform.isTag, isHost_scratchPa hd hc hi]) rfl (perform_reduce hd hc hi noExpiry hx) lone
  rw [hlen] at hout
  refine ⟨t, hends, hdone, hcleared, hmem, fun i hi => ?_, hout⟩
  rw [hin i (hlen.symm ▸ hi)]
  simp [bytesOf_eq_map_range]

theorem commitsTo_tag {x : BitVec 16} (hops : s.cur.task.ops = [.tag va x]) (lone : Bool) :
    ∃ t, s.CommitsTo c lone t ∧ s.CommitDone t ∧ s.Cleared c t (sigSpan (s.paOf (alignDown (s.cur.loftAddr va) 4096)) 4) ∧
      t.mem = s.mem ∧ (t.cluster s.cur.clusterId).tags = Sparse.set 0 (s.cluster s.cur.clusterId).tags
        (s.cur.apertureBank va * 128 + (va.toNat - s.cur.lap.toNat) % 0x8_0000 / 4096) x := by
  have hzero : (s.cluster s.cur.clusterId).zeroing.contains (s.cur.apertureBank va) = false := by
    simpa [State.apertureWaits, hi, Unit.clusterId] using hw
  obtain ⟨t, hends, hdone, hcleared, hmem, htags⟩ := commitsTo_one h hheld (hops ▸ prepareOne_tag hw x) (by simp [State.scratchOnly, h.unsigned])
    (fun w hmem => absurd (mem_lockOrder hmem) List.not_mem_nil) (by exact fun locked => hzero) rfl (sig_tag hc x)
    (m := s.mem) (k := Sparse.put s.clusters s.cur.clusterId { s.cluster s.cur.clusterId with
      tags := Sparse.set 0 (s.cluster s.cur.clusterId).tags
        (s.cur.apertureBank va * 128 + (va.toNat - s.cur.lap.toNat) % 0x8_0000 / 4096) x })
    rfl (fun j => by
      by_cases hj : j = s.cur.clusterId
      · rw [hj, Sparse.find?_put_same]
        rfl
      · rw [Sparse.find?_put_other _ _ hj]
        rfl) lone
  refine ⟨t, hends, hdone, hcleared, hmem, ?_⟩
  rw [htags, Sparse.find?_put_same]
  rfl

end

/-! ### Held items (R194, R228, R319, R390) -/

/-- The state in which a commit without operations releases its held items; `k` is the clusters' table after the visible phase. -/
def State.beforeRelease (s : State) (k : List (Nat × Cluster)) : State :=
  { s.visibleWith [] s.mem s.clusters with clusters := k, remotes := s.remotes.filter fun r => !(r.commit && r.loc == s.cur.loc) }

/-- A commit without operations releases what its task holds. -/
theorem commitsTo_held {s : State} {c : Cont} (h : s.CommitsAtOnce c) (hops : s.cur.task.ops = []) (lone : Bool) :
    ∃ (v : State) (k : List (Nat × Cluster)), v.cur.task.locked = [] ∧ s.CommitsTo c lone (v.endCommit c lone) ∧
      v.released = s.cur.task.held.foldl State.release (s.beforeRelease k) := by
  have hends := commitsTo_shown (l := []) (m := s.mem) (k := s.clusters) h (hops ▸ rfl) (fun w hw => absurd hw List.not_mem_nil) (.inr rfl)
    (fun b p hp => absurd hp List.not_mem_nil) rfl lone
  obtain ⟨k, hshown, -⟩ := visibleCont_eq (s.visibleWith [] s.mem s.clusters) c
  unfold State.shown at hends
  rw [hshown] at hends
  exact ⟨_, k, rfl, hends, rfl⟩

/-- A release leaves the tables and the parts of the unit that the end of a commit speaks of. -/
def State.KeepsTask (s r : State) : Prop :=
  r.cur.tid = s.cur.tid ∧ r.locks = s.locks ∧ r.cur.regs = s.cur.regs ∧ r.cur.pc = s.cur.pc ∧ r.mem = s.mem

theorem commitDone_released {s v r : State} (hv : v.cur.task.locked = []) (hr : v.released = r) (h : s.KeepsTask r) (c : Cont) (lone : Bool) :
    s.CommitDone (v.endCommit c lone) ∧ (v.endCommit c lone).mem = s.mem := by
  obtain ⟨htid, hlocks, hregs, hpc, hmem⟩ := h
  subst hr
  exact ⟨commitDone_endCommit hv c lone htid hlocks hregs hpc, (endCommit_mem hv c lone).trans hmem⟩

theorem counter_setCounter_same (s : State) (j : Nat) (x : Counter) : (s.setCounter j x).counter j = x := by
  rw [State.counter, State.setCounter, Sparse.find?_put_same]
  rfl

theorem counter_setCounter_other (s : State) {i j : Nat} (x : Counter) (h : i ≠ j) : (s.setCounter j x).counter i = s.counter i := by
  rw [State.counter, State.setCounter, Sparse.find?_put_other _ _ h]
  rfl

theorem die_setDie_same (s : State) (d : Nat) (x : Die) : (s.setDie d x).die d = x := by
  rw [State.die, State.setDie, Sparse.find?_put_same]
  rfl

/-- COUNT advances modulo 2^63, and ERR stands. -/
theorem add_word (x : Counter) (n : Nat) : bits (x.add n).word 62 0 = (bits x.word 62 0 + n) % 2 ^ 63 ∧
    (x.add n).word.getLsbD 63 = x.word.getLsbD 63 := by
  have hx := x.word.isLt
  have he : bits x.word 63 63 = x.word.toNat / 2 ^ 63 := by
    simp only [bits]
    omega
  have ha : (x.add n).word.toNat = (x.word.toNat % 2 ^ 63 + n) % 2 ^ 63 + x.word.toNat / 2 ^ 63 * 2 ^ 63 := by
    simp only [Counter.add, he, BitVec.toNat_ofNat]
    omega
  have htop : ((x.word.toNat % 2 ^ 63 + n) % 2 ^ 63 + x.word.toNat / 2 ^ 63 * 2 ^ 63) / 2 ^ 63 = x.word.toNat / 2 ^ 63 := by omega
  constructor
  · simp only [bits, ha]
    omega
  · simp only [BitVec.getLsbD, Nat.testBit_eq_decide_div_mod_eq, ha, htop]

/-- The copy of a unit that is not cancelled enters its slot's queue. -/
theorem releaseCopy_queued {s : State} (h : s.cur.cancelled = false) (r : CopyReq) : s.releaseCopy r =
    s.modCur fun u => { u with outCopies := u.outCopies + 1, copies := u.copies ++ [{ r with released := s.time }] } :=
  if_neg (Bool.eq_false_iff.1 h)

/-- The rope command of a unit that is not cancelled enters its engine's queue in the order of the commits. -/
theorem releaseRope_queued {s : State} (h : s.cur.cancelled = false) (r : RopeCmd) : ((s.release (.rope r)).die s.cur.loc.die).q5 =
    insertRope { r with order := s.cur.visibleAt, cancelled := false } (s.die s.cur.loc.die).q5 := by
  rw [← h]
  exact congrArg Die.q5 (die_setDie_same s s.cur.loc.die _)

/-- The matrix command of a unit that is not cancelled enters its core's order. -/
theorem releaseMatrix_queued {s : State} (h : s.cur.cancelled = false) (m : MatCmd) : s.KeepsTask (s.releaseMatrix m) ∧
    (s.releaseMatrix m).curCore.q1 = s.curCore.q1 ++ [{ m with id := s.ids, cancelled := false }] := by
  unfold State.releaseMatrix
  simp only [h, Bool.false_eq_true, if_false]
  refine ⟨⟨rfl, rfl, rfl, rfl, rfl⟩, ?_⟩
  exact congrArg (fun o : Option Core => (o.getD {}).q1) (Sparse.find?_put_same ..)

theorem releaseSpawn_waits {s : State} {x : Launch} (h : s.curLaunch = some x) (r : SpawnRec) : s.KeepsTask (s.releaseSpawn r) ∧
    (s.releaseSpawn r).waiting = s.waiting ++ [{ launch := x.num, unit := x.nu + x.spawned, spawn := some r }] := by
  unfold State.releaseSpawn
  rw [h]
  exact ⟨⟨rfl, rfl, rfl, rfl, rfl⟩, rfl⟩

/-- Two words of q11 join the record that the slot builds, in program order. -/
theorem releaseWord_record (s : State) (i j : Nat) (x y : Word) : (s.releaseWord 11 i x).releaseWord 11 j y =
    s.modCur fun u => { u with q11 := u.q11 ++ [x, y] } := by
  simp [State.releaseWord, State.setCur, State.modCur]

section
variable {s v : State} {k : List (Nat × Cluster)} (hv : v.cur.task.locked = []) (c : Cont) (lone : Bool)
include hv

theorem endCommit_signal {j : Nat} {n : BitVec 64} (hr : v.released = (s.beforeRelease k).release (.signal j n)) :
    s.CommitDone (v.endCommit c lone) ∧ (v.endCommit c lone).mem = s.mem ∧
      bits ((v.endCommit c lone).counter j).word 62 0 = (bits (s.counter j).word 62 0 + n.toNat) % 2 ^ 63 ∧
      ((v.endCommit c lone).counter j).word.getLsbD 63 = (s.counter j).word.getLsbD 63 ∧
      ∀ i, i ≠ j → (v.endCommit c lone).counter i = s.counter i := by
  obtain ⟨hdone, hmem⟩ := commitDone_released hv hr ⟨rfl, rfl, rfl, rfl, rfl⟩ c lone
  have hcounter (i : Nat) : (v.endCommit c lone).counter i = (s.setCounter j ((s.counter j).add n.toNat)).counter i := by
    rw [endCommit_counter hv, hr]
    rfl
  obtain ⟨hcount, herr⟩ := add_word (s.counter j) n.toNat
  refine ⟨hdone, hmem, ?_, ?_, fun i hi => ?_⟩
  · rw [hcounter, counter_setCounter_same, hcount]
  · rw [hcounter, counter_setCounter_same, herr]
  · rw [hcounter, counter_setCounter_other _ _ hi]

theorem endCommit_record {i j : Nat} {x y : Word}
    (hr : v.released = ((s.beforeRelease k).releaseWord 11 i x).releaseWord 11 j y) :
    s.CommitDone (v.endCommit c lone) ∧ (v.endCommit c lone).mem = s.mem ∧ (v.endCommit c lone).cur.q11 = s.cur.q11 ++ [x, y] := by
  rw [releaseWord_record] at hr
  obtain ⟨hdone, hmem⟩ := commitDone_released hv hr ⟨rfl, rfl, rfl, rfl, rfl⟩ c lone
  refine ⟨hdone, hmem, ?_⟩
  rw [endCommit_cur hv, hr]
  rfl

theorem endCommit_waiting_spawn {r : SpawnRec} {x : Launch} (hx : s.curLaunch = some x)
    (hr : v.released = (s.beforeRelease k).releaseSpawn r) :
    s.CommitDone (v.endCommit c lone) ∧ (v.endCommit c lone).mem = s.mem ∧
      (v.endCommit c lone).waiting = s.waiting ++ [{ launch := x.num, unit := x.nu + x.spawned, spawn := some r }] := by
  obtain ⟨hkeeps, hwaiting⟩ := releaseSpawn_waits (s := s.beforeRelease k) (x := x) hx r
  obtain ⟨hdone, hmem⟩ := commitDone_released hv hr hkeeps c lone
  refine ⟨hdone, hmem, ?_⟩
  rw [endCommit_waiting hv, hr]
  exact hwaiting

variable (hcancelled : s.cur.cancelled = false)
include hcancelled

theorem endCommit_copies {r : CopyReq} (hr : v.released = (s.beforeRelease k).releaseCopy r) :
    s.CommitDone (v.endCommit c lone) ∧ (v.endCommit c lone).mem = s.mem ∧
      (v.endCommit c lone).cur.copies = s.cur.copies ++ [{ r with released := s.time }] := by
  rw [releaseCopy_queued (s := s.beforeRelease k) hcancelled] at hr
  obtain ⟨hdone, hmem⟩ := commitDone_released hv hr ⟨rfl, rfl, rfl, rfl, rfl⟩ c lone
  refine ⟨hdone, hmem, ?_⟩
  rw [endCommit_cur hv, hr]
  rfl

theorem endCommit_ropes {r : RopeCmd} (hr : v.released = (s.beforeRelease k).release (.rope r)) :
    s.CommitDone (v.endCommit c lone) ∧ (v.endCommit c lone).mem = s.mem ∧
      ((v.endCommit c lone).die s.cur.loc.die).q5 =
        insertRope { r with order := s.ids, cancelled := false } (s.die s.cur.loc.die).q5 := by
  obtain ⟨hdone, hmem⟩ := commitDone_released hv hr ⟨rfl, rfl, rfl, rfl, rfl⟩ c lone
  refine ⟨hdone, hmem, ?_⟩
  rw [endCommit_die hv, hr]
  exact releaseRope_queued (s := s.beforeRelease k) hcancelled r

theorem endCommit_matrix {m : MatCmd} (hr : v.released = (s.beforeRelease k).releaseMatrix m) :
    s.CommitDone (v.endCommit c lone) ∧ (v.endCommit c lone).mem = s.mem ∧
      ∃ id, (v.endCommit c lone).curCore.q1 = s.curCore.q1 ++ [{ m with id, cancelled := false }] := by
  obtain ⟨hkeeps, hq⟩ := releaseMatrix_queued (s := s.beforeRelease k) hcancelled m
  obtain ⟨hdone, hmem⟩ := commitDone_released hv hr hkeeps c lone
  have hunit : (v.endCommit c lone).cur.coreId = v.released.cur.coreId := by
    rw [endCommit_cur hv]
    rfl
  refine ⟨hdone, hmem, (s.beforeRelease k).ids, ?_⟩
  rw [State.curCore, endCommit_core hv, hunit, hr]
  exact hq

end

end Sys2Proof.Machine

open Sys2Proof Sys2Proof.Machine

/-- Settles O23: operations on own scratch by the rules of the visible phase, held items by those of their release. -/
theorem visiblePhaseOfACommit : Obligations.VisiblePhaseOfACommit := by
  intro s c lone hm hd hc hvisible hprepared hwsig hlocked htimestamp haccess hcancelled htime _ hperforms hspec done cleared
  have h : s.CommitsAtOnce c := ⟨hvisible, hprepared, hwsig, hlocked, htimestamp, haccess, notYet_eq_false htime, hperforms, hspec⟩
  refine ⟨fun va hi hw hheld => ⟨fun b hops hl => commitsTo_store h hd hc hi hw hheld hm hops hl lone,
    fun op ty y x hops hl hx => commitsTo_reduce h hd hc hi hw hheld hm hops hl hx lone,
    fun x hops => commitsTo_tag h hc hi hw hheld hops lone⟩, fun hops l hheld => ?_⟩
  obtain ⟨v, k, hv, hends, hreleased⟩ := commitsTo_held h hops lone
  rw [hheld] at hreleased
  refine ⟨_, hends, ?signal, ?record, ?copy, ?rope, ?matrix, ?spawn⟩
  case signal =>
    rintro j n rfl
    exact endCommit_signal hv c lone hreleased
  case record =>
    rintro x y i j rfl
    exact endCommit_record hv c lone (i := i) (j := j) hreleased
  case copy =>
    rintro r rfl
    exact endCommit_copies hv c lone hcancelled hreleased
  case rope =>
    rintro r rfl
    exact endCommit_ropes hv c lone hcancelled hreleased
  case matrix =>
    rintro m rfl
    exact endCommit_matrix hv c lone hcancelled hreleased
  case spawn =>
    rintro r x rfl hx
    exact endCommit_waiting_spawn hv c lone hx hreleased

end

