-- ==== Sys2Proof/Proofs/RegisterFiles.lean ====
section
/-! The four register files: what a register reads after a write, the constant registers, and the files that a write leaves alone; O6
settled (R188, R190, R191). -/

namespace Sys2Proof.Machine

section
variable (u : Unit) (r q : BitVec 5) (m n : BitVec 3) (x : Word) (y : VWord) (z : KWord) (b : Bool)

/-! ### A register after a write to its file (R188, R190, R191) -/

theorem Unit.getS_setS : (u.setS r x).getS q = if q = 0 then 0 else if q = r then x else u.getS q := by
  by_cases h0 : q = 0
  · rw [if_pos h0, h0, Unit.getS_zero]
  · rw [if_neg h0]
    by_cases hr : q = r
    · rw [if_pos hr, hr, Unit.getS_setS_same u r x (hr ▸ h0)]
    · rw [if_neg hr, Unit.getS_setS_other u r q x hr]

theorem Unit.getV_setV : (u.setV r y).getV q = if q = r then y else u.getV q := by
  by_cases hr : q = r
  · rw [if_pos hr, hr, Unit.getV_setV_same]
  · rw [if_neg hr, Unit.getV_setV_other u r q y hr]

theorem Unit.getK_setK : (u.setK m z).getK n = if n = 0 then BitVec.allOnes 128 else if n = m then z else u.getK n := by
  by_cases h0 : n = 0
  · rw [if_pos h0, h0, Unit.getK_zero]
  · rw [if_neg h0]
    by_cases hm : n = m
    · rw [if_pos hm, hm, Unit.getK_setK_same u m z (hm ▸ h0)]
    · rw [if_neg hm, Unit.getK_setK_other u m n z hm]

theorem Unit.getP_setP : (u.setP m b).getP n = if n = 0 then true else if n = m then b else u.getP n := by
  by_cases h0 : n = 0
  · rw [if_pos h0, h0, Unit.getP_zero]
  · rw [if_neg h0]
    by_cases hm : n = m
    · rw [if_pos hm, hm, Unit.getP_setP_same u m b (hm ▸ h0)]
    · rw [if_neg hm, Unit.getP_setP_other u m n b hm]

end

/-! ### A register is read from its own file -/

section
variable {u w : Unit}

theorem Unit.getS_congr (h : w.regs = u.regs) (q : SReg) : w.getS q = u.getS q := by simp only [Unit.getS, h]
theorem Unit.getV_congr (h : w.v = u.v) (q : VReg) : w.getV q = u.getV q := by simp only [Unit.getV, h]
theorem Unit.getK_congr (h : w.k = u.k) (n : KReg) : w.getK n = u.getK n := by simp only [Unit.getK, h]
theorem Unit.getP_congr (h : w.p = u.p) (n : PReg) : w.getP n = u.getP n := by simp only [Unit.getP, h]

end

end Sys2Proof.Machine

open Sys2Proof Sys2Proof.Machine

/-- Settles O6: in its own file a write is read back at its register and nowhere else, and the other three files are as they were. -/
theorem registerFileReadsWhatWasWritten : Obligations.RegisterFileReadsWhatWasWritten := by
  unfold Obligations.RegisterFileReadsWhatWasWritten
  intro u r q m n x y z b
  refine ⟨⟨u.getS_zero, u.getK_zero, u.getP_zero⟩, ⟨u.setS_zero x, u.setK_zero z, u.setP_zero b⟩,
    u.getS_setS r q x, u.getV_setV r q y, u.getK_setK m n z, u.getP_setP m n b, ?scalar, ?vector, ?mask, ?predicate⟩
  case scalar =>
    exact ⟨Unit.getV_congr (Unit.setS_v u r x) q, Unit.getK_congr (Unit.setS_k u r x) n, Unit.getP_congr (Unit.setS_p u r x) n⟩
  case vector =>
    exact ⟨Unit.getS_congr (Unit.setV_regs u r y) q, Unit.getK_congr (Unit.setV_k u r y) n, Unit.getP_congr (Unit.setV_p u r y) n⟩
  case mask =>
    exact ⟨Unit.getS_congr (Unit.setK_regs u m z) q, Unit.getV_congr (Unit.setK_v u m z) q, Unit.getP_congr (Unit.setK_p u m z) n⟩
  case predicate =>
    exact ⟨Unit.getS_congr (Unit.setP_regs u m b) q, Unit.getV_congr (Unit.setP_v u m b) q, Unit.getK_congr (Unit.setP_k u m b) n⟩

end

