-- ==== Sys2Proof/Proofs/SystemRegisterReads.lean ====
section
/-! `mfsr`: each system register as it stands, and the four of traps from supervisor code alone; O26 settled (R197, R199). -/

namespace Sys2Proof.Machine

/-- The registers that user code may not access (R199). -/
theorem supervisor_iff (r : SysReg) : SysReg.supervisor r = true ↔ r ∈ [SysReg.epc, .cause, .faddr, .lpc] := by
  cases r <;> decide

section
variable {s : State} {d : SReg} {r : SysReg}

theorem exec_mfsr (hp : tsrPp s.cur.tsr = false) (hs : SysReg.supervisor r = true → tsrSup s.cur.tsr = true)
    (ht : s.touches [s.cur.keyS d] = false) (hd : s.cur.namedS d = false) :
    exec (.mfsr d r) s = .next (s.afterC fun u => u.setS d (s.readSys r)) := by
  have hx : exec (.mfsr d r) s = execMfsr d r s := rfl
  rw [hx, execMfsr]
  exact issue_clear s _ _ hp hs rfl ht rfl hd

theorem raises_mfsr (hr : SysReg.supervisor r = true) (hs : tsrSup s.cur.tsr = false) : Raises (.mfsr d r) s (s.bundleTrap .privilege) := by
  have hx : exec (.mfsr d r) s = execMfsr d r s := rfl
  exact raises_of_exec (hx.trans (issue_privilege hr hs _))

end

end Sys2Proof.Machine

open Sys2Proof Sys2Proof.Machine

/-- Settles O26: the result is `State.readSys`, which names the field of each register. -/
theorem systemRegistersRead : Obligations.SystemRegistersRead := by
  unfold Obligations.SystemRegistersRead
  intro s d r x hp
  refine ⟨fun ht hd hx hs => ?reads, fun hr hs => raises_mfsr ((supervisor_iff r).2 hr) hs⟩
  have hread : s.readSys r = x := by
    simp only [List.mem_cons, List.not_mem_nil, or_false, Prod.mk.injEq] at hx
    obtain ⟨rfl, rfl⟩ | ⟨rfl, rfl⟩ | ⟨rfl, rfl⟩ | ⟨rfl, rfl⟩ | ⟨rfl, rfl⟩ | ⟨rfl, rfl⟩ | ⟨rfl, rfl⟩ | ⟨rfl, rfl⟩ | ⟨rfl, rfl⟩ | ⟨rfl, rfl⟩ |
      ⟨rfl, rfl⟩ | ⟨rfl, rfl⟩ | ⟨rfl, rfl⟩ | ⟨rfl, rfl⟩ | ⟨rfl, rfl⟩ | ⟨rfl, rfl⟩ | ⟨rfl, rfl⟩ | ⟨rfl, rfl⟩ | ⟨rfl, rfl⟩ | ⟨rfl, rfl⟩ |
      ⟨rfl, rfl⟩ := hx
    all_goals rfl
  rw [← hread]
  exact exec_mfsr hp (fun hr => hs ((supervisor_iff r).1 hr)) ht hd

end

