-- ==== Sys2Proof/Proofs/WindowReturns.lean ====
section
/-! Returns to the window below: what a slide back does to the registers, the window read back from the stack, and `ret`, `wflush` and
`wdepth`; O12 settled (R188, R189, R218, R219). -/

namespace Sys2Proof.Machine

/-! ### The window slid back (R188) -/

section
variable (u : Unit) (w : Vector Word 16) (older : List (Vector Word 16)) {r : SReg}

theorem slideBack_getS_global (h : r.toNat < 8) : (u.slideBack w older).getS r = u.getS r := by
  have hr : (u.slideBack w older).regs[r.toNat] = u.regs[r.toNat] := by simp [Unit.slideBack, h]
  unfold Unit.getS
  rw [hr]

theorem slideBack_getS_window (h : 8 ≤ r.toNat ∧ r.toNat < 24) : (u.slideBack w older).getS r = w[r.toNat - 8] := by
  have h0 : r ≠ 0 := fun e => absurd (e ▸ h.1 : 8 ≤ (0 : SReg).toNat) (by decide)
  unfold Unit.getS
  rw [if_neg h0]
  simp [Unit.slideBack, Nat.not_lt.2 h.1, h.2]

theorem slideBack_getS_upper (h : 24 ≤ r.toNat) : (u.slideBack w older).getS r = u.getS (r - 16) := by
  have hidx : (r - 16 : SReg).toNat = r.toNat - 16 := by bv_omega
  have h0 : r ≠ 0 := fun e => absurd (e ▸ h : 24 ≤ (0 : SReg).toNat) (by decide)
  have h16 : (r - 16 : SReg) ≠ 0 := by bv_omega
  have hr : (u.slideBack w older).regs[r.toNat] = u.regs[r.toNat - 16] := by
    simp [Unit.slideBack, show ¬r.toNat < 8 by omega, show ¬r.toNat < 24 by omega]
  unfold Unit.getS
  rw [if_neg h0, if_neg h16, hr]
  simp only [hidx]

end

/-! ### The window read back, and the oldest one spilled (R189) -/

/-- The unit after a turn that has read the window below back from the stack. -/
def State.refilled (s : State) (u : Unit) : Unit :=
  { u with saved := [vec16 (wordsOf (s.bytes (u.loftAddr u.wsp) 128))], wsp := u.wsp + 128, turn := .waited }

theorem fillWindow_wait (s : State) : s.fillWindow.wait = .next (s.modCur s.refilled) := rfl

theorem setBytes_cur (s : State) (a : Nat) (l : List Byte) : (s.setBytes a l).cur = s.cur := by rw [setBytes_eq]

theorem spilled_waits (s : State) (w : Vector Word 16) : (s.spilled w).waitTurn =
    (s.setBytes (s.cur.loftAddr (s.cur.wsp - 128)) (bytesOfWords w.toList)).modCur fun u =>
      { u with wsp := u.wsp - 128, saved := u.saved.dropLast, turn := .waited } := by
  unfold State.modCur
  rw [setBytes_cur]
  rfl

/-! ### ret (R218) -/

theorem setCur_doneC (s : State) (u : Unit) (lone : Bool) : (s.setCur u).doneC lone = .next (s.afterC (fun _ => u) lone) := rfl

/-- The unit that returns to `t` into the window `w` of its caller. -/
def Unit.returned (u : Unit) (t : Word) (w : Vector Word 16) (older : List (Vector Word 16)) : Unit :=
  { u.slideBack w older with
    retCommit := u.retCommit || decide (u.depth - 1 < u.task.startDepth)
    retPc := if decide (u.depth - 1 < u.task.startDepth) then u.pc else u.retPc }.jump t

theorem returnTo_resident {s : State} {w : Vector Word 16} {older : List (Vector Word 16)} (h : s.cur.saved = w :: older) (t : Word) :
    s.returnTo t = .next (s.afterC fun u => u.returned t w older) := by
  simp only [State.returnTo, h]
  exact setCur_doneC s _ _

section
variable (u : Unit) (t : Word) (w : Vector Word 16) (older : List (Vector Word 16))

theorem returned_regs : ((u.returned t w older).pastC false).regs = (u.slideBack w older).regs := rfl

/-- What a return leaves alone. -/
theorem returned_frame : ((u.returned t w older).pastC false).pc = u.pc ∧ ((u.returned t w older).pastC false).v = u.v ∧
    ((u.returned t w older).pastC false).k = u.k ∧ ((u.returned t w older).pastC false).p = u.p ∧
    ((u.returned t w older).pastC false).tsr = u.tsr ∧ ((u.returned t w older).pastC false).wsp = u.wsp := by
  simp only [Unit.pastC, Unit.returned, Unit.jump, Unit.slideBack, Bool.false_eq_true, if_false, and_self]

end

theorem returnTo_spilled {s : State} (h : s.cur.saved = []) (t : Word) : s.returnTo t = .next (s.modCur s.refilled) := by
  simp only [State.returnTo, h]
  rfl

/-- A canonical target at a bundle passes the checks of a register target (R217). -/
theorem targetChecks_bundle {t : Word} (hc : t.toNat < 2 ^ 56) (ha : t.toNat % 8 = 0) : (targetChecks t).findSome? id = none := by
  have h0 : bits t 2 0 = 0 := by simp only [bits]; omega
  simp [targetChecks, rangeCheck, bits_eq_zero_of_lt hc, h0]

section
variable {s : State} (hp : tsrPp s.cur.tsr = false)
include hp

theorem exec_ret (ht : s.touches [s.cur.keyS 15] = false) (hd : s.cur.depth ≠ 1) (hc : (s.cur.getS 15).toNat < 2 ^ 56)
    (ha : (s.cur.getS 15).toNat % 8 = 0) : exec .ret s = s.returnTo (s.cur.getS 15) := by
  have hx : exec .ret s = execRet s := rfl
  rw [hx, execRet, if_neg hd]
  exact issue_access ⟨hp, ht⟩ ((List.findSome?_cons_of_isNone rfl).trans (targetChecks_bundle hc ha)) rfl _

theorem raises_ret (ht : s.touches [s.cur.keyS 15] = false) (hd : s.cur.depth = 1) : Raises .ret s (s.bundleTrap .windowUnderflow) := by
  have hx : exec .ret s = execRet s := rfl
  refine raises_of_exec ?_
  rw [hx, execRet, if_pos hd]
  exact issue_address s _ _ _ hp nofun rfl ht rfl

/-! ### wflush and wdepth (R219) -/

theorem exec_wflush_one (h : s.cur.saved = []) : exec .wflush s = .next (s.afterC id) := by
  have hx : exec .wflush s = execWflush s := rfl
  rw [hx, execWflush, issue_free hp, if_pos (List.isEmpty_iff.2 h)]
  rfl

theorem exec_wflush_spills {w : Vector Word 16} (hw : s.cur.saved.getLast? = some w) (ht : s.touches s.cur.oldestKeys = false)
    (hroom : s.cur.lsb.toNat + 8192 + 128 ≤ s.cur.wsp.toNat) : exec .wflush s = .next (s.spilled w).waitTurn := by
  have hx : exec .wflush s = execWflush s := rfl
  have hne : ¬s.cur.saved.isEmpty = true := fun h => by simp [List.isEmpty_iff.1 h] at hw
  rw [hx, execWflush, issue_free hp, if_neg hne, if_neg (Bool.eq_false_iff.1 ht), spillOldest_room hroom hw]
  rfl

theorem exec_wdepth {d : SReg} (ht : s.touches [s.cur.keyS d] = false) (hd : s.cur.namedS d = false) :
    exec (.wdepth d) s = .next (s.afterC fun u => u.setS d (word u.depth)) := by
  have hx : exec (.wdepth d) s = execWdepth d s := rfl
  rw [hx, execWdepth, State.resultC]
  exact issue_plain hp rfl ht hd _

end

end Sys2Proof.Machine

open Sys2Proof Sys2Proof.Machine

/-- Settles O12: `ret` by where the caller's window is, the registers by the slide back, `wflush` by whether a window is left to spill. -/
theorem returnsSlideTheWindowBack : Obligations.ReturnsSlideTheWindowBack := by
  unfold Obligations.ReturnsSlideTheWindowBack
  intro s d hp t
  refine ⟨fun hq => ⟨raises_ret hp hq.2, fun hd hc ha => ⟨fun w older hw => ?resident, fun hw => ?spilled⟩⟩, exec_wflush_one hp,
    fun w hw ht hroom => ?flush, fun hq hd => exec_wdepth hp hq.2 hd⟩
  case resident =>
    obtain ⟨hpc, hv, hk, hp', htsr, hwsp⟩ := returned_frame s.cur t w older
    have hget := Unit.getS_congr (returned_regs s.cur t w older)
    refine ⟨_, (exec_ret hp hq.2 hd hc ha).trans (returnTo_resident hw t), rfl, hpc, rfl, rfl, rfl, fun r hr => ?_, fun r hr => ?_,
      fun r hr => ?_, rfl, hv, hk, hp', htsr, hwsp, State.modCur_mem s _,
      State.modCur_others s _⟩
    · exact (hget r).trans (slideBack_getS_global s.cur w older hr)
    · exact (hget r).trans (slideBack_getS_window s.cur w older hr)
    · exact (hget r).trans (slideBack_getS_upper s.cur w older hr)
  case spilled => exact (exec_ret hp hq.2 hd hc ha).trans (returnTo_spilled hw t)
  case flush => rw [exec_wflush_spills hp hw ht hroom, spilled_waits]

end

