-- ==== Sys2Proof/Proofs/TrapReturns.lean ====
section
/-! `trap`, `brk`, `rte` and `tkill`: where a return from a trap goes on, what it restores, and O30 settled (R189, R278, R400, R401). -/

namespace Sys2Proof.Machine

/-! ### Fields replaced (R3) -/

theorem testBit_bits (x : Word) (hi lo j : Nat) : (bits x hi lo).testBit j = (decide (j < hi + 1 - lo) && x.getLsbD (lo + j)) := by
  rw [bits, Nat.testBit_mod_two_pow, Nat.testBit_div_two_pow, Nat.add_comm lo]
  rfl

theorem bits_setBits_same (x : Word) {hi lo : Nat} (h : lo ≤ hi) (hhi : hi < 64) (v : Nat) :
    bits (setBits x hi lo v) hi lo = v % 2 ^ (hi + 1 - lo) := by
  refine Nat.eq_of_testBit_eq fun j => ?_
  rw [testBit_bits, Nat.testBit_mod_two_pow]
  by_cases hj : j < hi + 1 - lo
  · rw [getLsbD_setBits x h v (by omega), if_pos (by omega), Nat.add_sub_cancel_left]
  · rw [decide_eq_false hj, Bool.false_and, Bool.false_and]

theorem bits_setBits_other (x : Word) {hi lo hi' lo' : Nat} (h : lo ≤ hi) (hhi : hi' < 64) (hd : hi' < lo ∨ hi < lo') (v : Nat) :
    bits (setBits x hi lo v) hi' lo' = bits x hi' lo' := by
  refine Nat.eq_of_testBit_eq fun j => ?_
  rw [testBit_bits, testBit_bits]
  by_cases hj : j < hi' + 1 - lo'
  · rw [getLsbD_setBits x h v (by omega), if_neg (by omega)]
  · rw [decide_eq_false hj, Bool.false_and, Bool.false_and]

/-- TSR with PL and PP put in their places (R198). -/
theorem tsrSetPp_setPl (t : Word) {pl : Nat} (hpl : pl < 4) (pp : Bool) :
    bits (tsrSetPp (tsrSetPl t pl) pp) 11 10 = pl ∧ tsrPp (tsrSetPp (tsrSetPl t pl) pp) = pp ∧
      bits (tsrSetPp (tsrSetPl t pl) pp) 9 1 = bits t 9 1 := by
  unfold tsrPp tsrSetPp tsrSetPl
  refine ⟨?_, ?_, ?_⟩
  · rw [bits_setBits_other _ (by decide) (by decide) (by decide), bits_setBits_same _ (by decide) (by decide)]
    exact Nat.mod_eq_of_lt hpl
  · rw [getLsbD_setBits _ (by decide) _ (by decide), if_pos (by decide)]
    cases pp <;> rfl
  · rw [bits_setBits_other _ (by decide) (by decide) (by decide), bits_setBits_other _ (by decide) (by decide) (by decide)]

/-- An address without its low three bits. -/
theorem word_bundle (x : Word) : word (x.toNat / 8 * 8) = x &&& ~~~7 := by
  refine BitVec.eq_of_getLsbD_eq fun j hj => ?_
  have h7 : (7 : Word).getLsbD j = decide (j < 3) := Nat.testBit_two_pow_sub_one 3 j
  have hw : (word (x.toNat / 8 * 8)).getLsbD j = _ := BitVec.getLsbD_ofNat ..
  rw [hw, decide_eq_true hj, Bool.true_and, BitVec.getLsbD_and, BitVec.getLsbD_not, h7, decide_eq_true hj, Bool.true_and,
    show x.toNat / 8 * 8 = x.toNat / 2 ^ 3 * 2 ^ 3 from rfl, Nat.testBit_mul_two_pow, Nat.testBit_div_two_pow]
  by_cases h3 : j < 3
  · simp [h3]
  · have hle : 3 ≤ j := Nat.le_of_not_lt h3
    rw [decide_eq_true hle, decide_eq_false h3, Bool.true_and, Nat.sub_add_cancel hle, Bool.not_false, Bool.and_true]
    rfl

/-! ### Where a return goes on (R278, R401) -/

/-- The bundle at which the unit goes on: the restart point of a discarded task, or the bundle of EPC. -/
def Unit.resumePc (u : Unit) : Word := if u.cause.getLsbD 61 then u.task.restartPc else word (u.epc.toNat / 8 * 8)
def Unit.resumeA (u : Unit) : Bool := if u.cause.getLsbD 61 then u.task.restartA else u.epc.getLsbD 0

/-- A held loop goes on where its body holds that bundle, and is dropped elsewhere. -/
def Unit.resumeSeq (u : Unit) : Seq :=
  if u.seq.held then
    if decide (u.seq.start ≤ u.resumePc) && decide (u.resumePc.toNat < u.seq.start.toNat + 8 * u.seq.len) then { u.seq with held := false }
    else {}
  else u.seq

/-- The unit after a return from a trap into the window `w`. -/
def Unit.resumed (u : Unit) (w : Vector Word 16) (older : List (Vector Word 16)) : Unit :=
  let v := u.slideBack w older
  let x := v.goto u.resumePc u.resumeA
  let back := decide (v.nonspecBack = some v.depth)
  { x with
    tsr := tsrSetPp (tsrSetPl u.tsr (bits u.cause 63 62)) (u.cause.getLsbD 59)
    seq := u.resumeSeq
    turn := .ran
    wait := if back then .nonspec else x.wait
    nonspecBack := if back then none else x.nonspecBack }

theorem leaveTrap_resident {s : State} {w : Vector Word 16} {older : List (Vector Word 16)} (h : s.cur.saved = w :: older) :
    s.leaveTrap = s.modCur fun u => u.resumed w older := by
  have hgoto : (if s.cur.cause.getLsbD 61 then (s.cur.slideBack w older).goto s.cur.task.restartPc s.cur.task.restartA
      else (s.cur.slideBack w older).goto (word (s.cur.epc.toNat / 8 * 8)) (s.cur.epc.getLsbD 0)) =
      (s.cur.slideBack w older).goto s.cur.resumePc s.cur.resumeA := by
    unfold Unit.resumePc Unit.resumeA
    split <;> rfl
  simp only [State.leaveTrap, h]
  rw [hgoto]
  simp only [goto_pc]
  rfl

section
variable (u : Unit) (w : Vector Word 16) (older : List (Vector Word 16))

theorem resumed_regs : (u.resumed w older).regs = (u.slideBack w older).regs := rfl

/-- What a return leaves alone. -/
theorem resumed_frame : (u.resumed w older).epc = u.epc ∧ (u.resumed w older).cause = u.cause ∧ (u.resumed w older).v = u.v ∧
    (u.resumed w older).k = u.k ∧ (u.resumed w older).p = u.p := by
  simp only [Unit.resumed, Unit.goto, Unit.slideBack, and_self]

end

theorem resumeSeq_running {u : Unit} (h : u.seq.held = false) : u.resumeSeq = u.seq := by simp [Unit.resumeSeq, h]

theorem resumeSeq_held {u : Unit} (h : u.seq.held = true) : u.resumeSeq =
    if u.seq.start.toNat ≤ u.resumePc.toNat ∧ u.resumePc.toNat < u.seq.start.toNat + 8 * u.seq.len then { u.seq with held := false }
    else {} := by
  simp [Unit.resumeSeq, h, BitVec.le_def]

/-! ### The instructions (R400, R401) -/

/-- A turn that changes the unit and then waits. -/
theorem modCur_wait (s : State) (f : Unit → Unit) : (s.modCur f).wait = .next (s.modCur fun u => { f u with turn := .waited }) := rfl

section
variable {s : State} (i : BitVec 16)

section
variable (hp : tsrPp s.cur.tsr = false)
include hp

theorem exec_trap (h : s.settled = true) : exec (.trap i) s = .next (s.enterTrap { trap := .syscall, faddr := i.zeroExtend 64 }) := by
  have hx : exec (.trap i) s = execTrap i s := rfl
  rw [hx, execTrap, issue_free hp, raise_settled s _ h]

theorem exec_brk (h : s.settled = true) : exec (.brk i) s = .next (s.enterTrap { trap := .brk, faddr := i.zeroExtend 64 }) := by
  have hx : exec (.brk i) s = execBrk i s := rfl
  rw [hx, execBrk, issue_free hp, raise_settled s _ h]

variable (hs : tsrSup s.cur.tsr = true)
include hs

theorem raises_rte_outermost (hd : s.cur.depth = 1) : Raises .rte s (s.bundleTrap .windowUnderflow) := by
  have hx : exec .rte s = execRte s := rfl
  refine raises_of_exec ?_
  rw [hx, execRte, if_pos hd]
  exact issue_address s _ _ _ hp (fun _ => hs) rfl (touches_nil s) rfl

theorem exec_rte (hd : s.cur.depth ≠ 1) : exec .rte s = if s.cur.saved.isEmpty then s.fillWindow.wait else .next s.leaveTrap := by
  have hx : exec .rte s = execRte s := rfl
  rw [hx, execRte, if_neg hd]
  exact issue_clear s _ _ hp (fun _ => hs) rfl (touches_nil s) rfl rfl

theorem exec_tkill : exec (.tkill i) s = .next (s.discard.modCur fun u => { u with wait := .retire i true, turn := .waited }) := by
  have hx : exec (.tkill i) s = execTkill i s := rfl
  rw [hx, execTkill, issue_clear s _ _ hp (fun _ => hs) rfl (touches_nil s) rfl rfl, modCur_wait]

end

variable (hs : tsrSup s.cur.tsr = false)
include hs

theorem raises_rte : Raises .rte s (s.bundleTrap .privilege) := by
  have hx : exec .rte s = execRte s := rfl
  exact raises_of_exec (hx.trans (issue_privilege rfl hs _))

theorem raises_tkill : Raises (.tkill i) s (s.bundleTrap .privilege) := by
  have hx : exec (.tkill i) s = execTkill i s := rfl
  exact raises_of_exec (hx.trans (issue_privilege rfl hs _))

end

end Sys2Proof.Machine

open Sys2Proof Sys2Proof.Machine

/-- Settles O30: `rte` by where the window below is, and what it restores field by field from `Unit.resumed`. -/
theorem trapInstructionsAndReturn : Obligations.TrapInstructionsAndReturn := by
  unfold Obligations.TrapInstructionsAndReturn
  intro s i hp
  refine ⟨fun h => ⟨exec_trap i hp h, exec_brk i hp h⟩, fun hs => ⟨raises_rte_outermost hp hs, fun hd w older hw => ?resident,
    fun hd hw => ?spilled, exec_tkill i hp hs⟩, fun hs => ⟨raises_rte hs, raises_tkill i hs⟩⟩
  case resident =>
    have hx : exec .rte s = .next (s.modCur fun u => u.resumed w older) := by
      rw [exec_rte hp hs hd, leaveTrap_resident hw, hw]
      rfl
    obtain ⟨hpl, hpp, hlow⟩ := tsrSetPp_setPl s.cur.tsr (pl := bits s.cur.cause 63 62) (Nat.mod_lt _ (by decide)) (s.cur.cause.getLsbD 59)
    obtain ⟨hepc, hcause, hv, hk, hp'⟩ := resumed_frame s.cur w older
    have hget := Unit.getS_congr (resumed_regs s.cur w older)
    refine ⟨_, hx, rfl, rfl, hpl, hpp, hlow, fun htd => ⟨if_pos htd, if_pos htd⟩, fun htd => ⟨?_, ?_⟩, rfl, resumeSeq_running,
      fun hh hin => ?_, fun hh hout => ?_, fun r hr => (hget r).trans (slideBack_getS_global s.cur w older hr),
      fun r hr => (hget r).trans (slideBack_getS_window s.cur w older hr),
      fun r hr => (hget r).trans (slideBack_getS_upper s.cur w older hr), hepc, hcause, hv, hk, hp', State.modCur_mem s _,
      State.modCur_others s _⟩
    · exact (if_neg (Bool.eq_false_iff.1 htd)).trans (word_bundle s.cur.epc)
    · exact if_neg (Bool.eq_false_iff.1 htd)
    · exact (resumeSeq_held hh).trans (if_pos hin)
    · exact (resumeSeq_held hh).trans (if_neg hout)
  case spilled =>
    rw [exec_rte hp hs hd, if_pos (List.isEmpty_iff.2 hw)]
    exact congrArg Host.Outcome.next rfl

end

