-- ==== Sys2Proof/Proofs/CounterInstructions.lean ====
section
/-! The counter instructions: operands that pass their checks, what each instruction then does, and O31 settled (R194, R383, R389, R390). -/

namespace Sys2Proof.Machine

/-! ### Operands (R390) -/

/-- The low bits of a number that has no others. -/
theorem bits_low {n : Nat} {x : BitVec n} {hi : Nat} (h : x.toNat < 2 ^ (hi + 1)) : bits x hi 0 = x.toNat := by
  simp [bits, Nat.mod_eq_of_lt h]

theorem getLsbD_eq_false_of_lt {x : Word} {j : Nat} (h : x.toNat < 2 ^ j) : x.getLsbD j = false := Nat.testBit_lt_two_pow h

section
variable {s : State} {x y : Word}

/-- own(c) in the words of R390. -/
theorem own_iff {c : Nat} : s.own c = true ↔ (s.counter c).owner = s.cur.job ∨ tsrSup s.cur.tsr = true := by
  simp [State.own]

/-- An index below 4096 names the word of a counter. -/
theorem crd_word (h : x.toNat < 4096) : s.crdOk x = s.own x.toNat ∧ s.crdValue x = (s.counter x.toNat).word := by
  have h13 : x.getLsbD 13 = false := getLsbD_eq_false_of_lt (h.trans (by decide))
  have h12 : x.getLsbD 12 = false := getLsbD_eq_false_of_lt h
  have hz : bits x 63 14 = 0 := bits_eq_zero_of_lt (h.trans (by decide)) 63
  have hc : bits x 11 0 = x.toNat := bits_low h
  unfold State.crdOk State.crdValue
  rw [h13, h12, hz, hc]
  exact ⟨rfl, rfl⟩

/-- One from 4096 on names the status of a counter. -/
theorem crd_status (h : 4096 ≤ x.toNat) (h' : x.toNat < 8192) :
    s.crdOk x = s.own (x.toNat - 4096) ∧ s.crdValue x = (s.counter (x.toNat - 4096)).stat := by
  have h13 : x.getLsbD 13 = false := getLsbD_eq_false_of_lt h'
  have h12 : x.getLsbD 12 = true := by
    rw [BitVec.getLsbD, Nat.testBit_eq_decide_div_mod_eq]
    exact decide_eq_true (by omega)
  have hz : bits x 63 14 = 0 := bits_eq_zero_of_lt (h'.trans (by decide)) 63
  have hc : bits x 11 0 = x.toNat - 4096 := by
    simp only [bits]
    omega
  unfold State.crdOk State.crdValue
  rw [h13, h12, hz, hc]
  exact ⟨rfl, rfl⟩

/-- 8192 names the number of retired units of the launch. -/
theorem crd_retired {l : Launch} (h : x = 8192) (hl : s.curLaunch = some l) : s.crdOk x = true ∧ s.crdValue x = word l.retired := by
  subst h
  have h13 : (8192 : Word).getLsbD 13 = true := by decide
  unfold State.crdOk State.crdValue
  rw [h13, hl]
  exact ⟨rfl, rfl⟩

theorem countOk_of_own (hx : x.toNat < 4096) (ho : s.own x.toNat = true) (hy : y.toNat < 2 ^ 63) : s.countOk x y = true := by
  unfold State.countOk
  rw [decide_eq_true (Nat.le_of_lt_succ hx), ho, getLsbD_eq_false_of_lt hy]
  rfl

theorem countOk_of_not_own (ho : s.own x.toNat = false) : s.countOk x y = false := by simp [State.countOk, ho]

end

/-! ### The instructions (R389, R390) -/

section
variable {s : State} {d a b : SReg}

theorem raises_cset (hs : tsrSup s.cur.tsr = false) : Raises (.cset a b) s (s.bundleTrap .privilege) := by
  have hx : exec (.cset a b) s = execCset a b s := rfl
  refine raises_of_exec ?_
  rw [hx, execCset]
  exact issue_privilege rfl hs _

section
variable (hp : tsrPp s.cur.tsr = false)
include hp

theorem exec_crd (ht : s.touches (s.cur.keysS [d, a]) = false) (hd : s.cur.namedS d = false) (ho : s.crdOk (s.cur.getS a) = true) :
    exec (.crd d a) s = .next (s.afterC fun u => u.setS d (s.crdValue (s.cur.getS a))) := by
  have hx : exec (.crd d a) s = execCrd d a s := rfl
  rw [hx, execCrd]
  exact issue_plain hp ho ht hd _

theorem exec_cwait (ht : s.touches (s.cur.keysS [d, a, b]) = false) (hd : s.cur.namedS d = false)
    (ho : s.countOk (s.cur.getS a) (s.cur.getS b) = true) : exec (.cwait d a b) s =
    if (s.cur.getS b).toNat ≤ bits (s.counter (s.cur.getS a).toNat).word 62 0 ∨ (s.counter (s.cur.getS a).toNat).word.getLsbD 63 then
      .next (s.afterC fun u => u.setS d (s.counter (s.cur.getS a).toNat).word)
    else .next s.waitTurn := by
  have hx : exec (.cwait d a b) s = execCwait d a b s := rfl
  rw [hx, execCwait]
  exact issue_plain hp ho ht hd _

theorem exec_csig (ht : s.touches (s.cur.keysS [a, b]) = false) (ho : s.countOk (s.cur.getS a) (s.cur.getS b) = true) :
    exec (.csig a b) s = s.push .yes (.signal (s.cur.getS a).toNat (s.cur.getS b)) false := by
  have hx : exec (.csig a b) s = execCsig a b s := rfl
  rw [hx, execCsig]
  exact issue_plain hp ho ht rfl _

theorem exec_cset (hs : tsrSup s.cur.tsr = true) (ht : s.touches (s.cur.keysS [a, b]) = false) (hx : (s.cur.getS a).toNat < 2 ^ 28)
    (hz : bits (s.cur.getS a) 15 12 = 0) : exec (.cset a b) s =
    .next ((s.setCounter ((s.cur.getS a).toNat % 4096)
      { word := s.cur.getS b, stat := 0, owner := (s.cur.getS a).toNat / 65536 }).afterC id) := by
  have hc : bits (s.cur.getS a) 11 0 = (s.cur.getS a).toNat % 4096 := by simp [bits]
  have hj : bits (s.cur.getS a) 27 16 = (s.cur.getS a).toNat / 65536 := by
    simp only [bits]
    omega
  have hx' : exec (.cset a b) s = execCset a b s := rfl
  rw [hx', execCset, hc, hj]
  exact issue_clear s _ _ hp (fun _ => hs) (by simp [bits_eq_zero_of_lt hx, hz]) ht rfl rfl

/-- `lcancel` acts on its level in the state in which its commit has ended. -/
theorem exec_lcancel {t : State} (ht : s.touches [s.cur.keyS a] = false) (ho : s.lcancelOk (s.cur.getS a) = true)
    (hs : bits (s.cur.getS a) 63 60 = 4 → tsrSup s.cur.tsr = true)
    (hc : s.CommitsTo (.lcancel (bits (s.cur.getS a) 63 60) (bits (s.cur.getS a) 15 0)) false t) :
    exec (.lcancel a) s = t.lcancelAct (bits (s.cur.getS a) 63 60) (bits (s.cur.getS a) 15 0) := by
  have hx : exec (.lcancel a) s = execLcancel a s := rfl
  have hpriv : ¬(bits (s.cur.getS a) 63 60 = 4 ∧ (!tsrSup s.cur.tsr) = true) := fun h => by simp [hs h.1] at h
  rw [hx, execLcancel]
  exact (issue_plain hp ho ht rfl _).trans ((if_neg hpriv).trans (withCommit_ended hc _))

section
variable (ho : s.own (s.cur.getS a).toNat = false)
include ho

theorem raises_crd (hx : (s.cur.getS a).toNat < 4096) : Raises (.crd d a) s (s.bundleTrap .illegalOperand) := by
  have hx' : exec (.crd d a) s = execCrd d a s := rfl
  refine raises_of_exec ?_
  rw [hx', execCrd]
  exact issue_operand s _ _ hp nofun ((crd_word hx).1.trans ho)

theorem raises_cwait : Raises (.cwait d a b) s (s.bundleTrap .illegalOperand) := by
  have hx : exec (.cwait d a b) s = execCwait d a b s := rfl
  refine raises_of_exec ?_
  rw [hx, execCwait]
  exact issue_operand s _ _ hp nofun (countOk_of_not_own ho)

theorem raises_csig : Raises (.csig a b) s (s.bundleTrap .illegalOperand) := by
  have hx : exec (.csig a b) s = execCsig a b s := rfl
  refine raises_of_exec ?_
  rw [hx, execCsig]
  exact issue_operand s _ _ hp nofun (countOk_of_not_own ho)

end

end

end

/-! ### The levels of lcancel (R383, R390) -/

/-- What follows a level that has been cancelled: a unit that has cancelled itself does not go on. -/
def State.afterCancel (n : State) : State := if n.cur.cancelled then n.waitTurn else n.afterC id

theorem cancelled_out (n : State) : (if n.cur.cancelled then n.wait else n.doneC) = .next n.afterCancel := by
  unfold State.afterCancel
  split <;> rfl

section
variable (t : State) (unit : Nat)

theorem lcancelAct_unit : t.lcancelAct 0 unit = .next (t.cancelUnit t.cur.launch unit).afterCancel := cancelled_out _
theorem lcancelAct_launch : t.lcancelAct 1 unit = .next (t.cancelLaunch t.cur.launch 2).afterCancel := cancelled_out _
theorem lcancelAct_job : t.lcancelAct 4 unit = .next (t.cancelJob t.cur.job).afterCancel := cancelled_out _

variable {t} {r : Replay} (h : t.curReplay = some r)
include h

theorem lcancelAct_replay : t.lcancelAct 2 unit = .next (t.cancelReplay r.id).afterCancel := by
  have hx : t.lcancelAct 2 unit = _ := cancelled_out _
  rw [hx, h]
  rfl

theorem lcancelAct_phase {p : Nat} (hphase : r.phase = some p) : t.lcancelAct 3 unit = .next (t.cancelPhase p).afterCancel := by
  have hx : t.lcancelAct 3 unit = _ := cancelled_out _
  rw [hx, h]
  simp only [hphase]
  rfl

end

end Sys2Proof.Machine

open Sys2Proof Sys2Proof.Machine

/-- Settles O31: each instruction by what its operand names, `lcancel` by its level in the state in which its commit ended. -/
theorem counterInstructions : Obligations.CounterInstructions := by
  unfold Obligations.CounterInstructions
  intro s t d a b hp x y owns
  refine ⟨fun ht hd => ⟨fun hx ho => ?word, fun hx hx' ho => ?status, fun l hx hl => ?retired⟩, fun ht hx ho hy => ?counts,
    fun ht hs hx hz => exec_cset hp hs ht hx hz, fun ht ho hs hc => ?cancels, fun hs => ⟨raises_cset hs, fun hx hne => ?foreign⟩⟩
  case word =>
    obtain ⟨hok, hval⟩ := crd_word (s := s) hx
    rw [exec_crd hp ht hd (hok.trans (own_iff.2 ho)), hval]
  case status =>
    obtain ⟨hok, hval⟩ := crd_status (s := s) hx hx'
    rw [exec_crd hp ht hd (hok.trans (own_iff.2 ho)), hval]
  case retired =>
    obtain ⟨hok, hval⟩ := crd_retired hx hl
    rw [exec_crd hp ht hd hok, hval]
  case counts =>
    intro w
    have hok : s.countOk x y = true := countOk_of_own hx (own_iff.2 ho) hy
    refine ⟨fun hd h => (exec_cwait hp ht hd hok).trans (if_pos h), fun hd hlt herr => ?_, fun hroom => ?_⟩
    · have hnot : ¬(y.toNat ≤ bits w 62 0 ∨ w.getLsbD 63 = true) := not_or.2 ⟨Nat.not_le.2 hlt, Bool.eq_false_iff.1 herr⟩
      exact (exec_cwait hp ht hd hok).trans (if_neg hnot)
    · exact (exec_csig hp (touches_sub ht fun _ => List.mem_cons_of_mem _) hok).trans (push_yes_held hroom _)
  case cancels =>
    intro after
    have hact := exec_lcancel hp ht ho hs hc
    refine ⟨fun n hn => ?_, fun r hl hr => ?_, fun r p hl hr hphase => ?_⟩
    · simp only [List.mem_cons, List.not_mem_nil, or_false, Prod.mk.injEq] at hn
      obtain ⟨hl, rfl⟩ | ⟨hl, rfl⟩ | ⟨hl, rfl⟩ := hn
      · exact hact.trans (hl ▸ lcancelAct_unit t _)
      · exact hact.trans (hl ▸ lcancelAct_launch t _)
      · exact hact.trans (hl ▸ lcancelAct_job t _)
    · exact hact.trans (hl ▸ lcancelAct_replay _ hr)
    · exact hact.trans (hl ▸ lcancelAct_phase _ hr hphase)
  case foreign =>
    have hown : s.own x.toNat = false := by simp [State.own, hne, hs]
    exact ⟨raises_crd hp hown hx, raises_cwait hp hown, raises_csig hp hown⟩

end

