-- ==== Sys2Proof/Proofs/PushesAndCopies.lean ====
section
/-! Pushes, copies and `mcmd`: an item held where room is found, and O33 settled (R139, R141, R194 to R196, R286). -/

namespace Sys2Proof.Machine

/-! ### Room (R194, R195) -/

/-- A push that finds room, be it of a form that issues alone (R37) or not. -/
theorem push_room {s : State} (h : s.cur.task.held.length < 64) (x : Held) (lone : Bool) :
    s.push .yes x lone = .next (s.afterHold x lone) := if_pos h

/-- An instruction that comes down to a push, in the three ways that it can find room. -/
theorem holds_of_push {i : Instr} {s : State} {r : Room} {x : Held} {lone : Bool} (h : exec i s = s.push r x lone)
    (hroom : s.cur.task.held.length < 64) : (r = .yes → exec i s = .next (s.afterHold x lone)) ∧
      (r = .wait → exec i s = .next s.waitTurn) ∧ (r = .deadlock → Raises i s (s.bundleTrap .selfDeadlock)) := by
  refine ⟨?yes, ?wait, ?deadlock⟩
  case yes =>
    rintro rfl
    exact h.trans (push_room hroom x lone)
  case wait =>
    rintro rfl
    exact h
  case deadlock =>
    rintro rfl
    exact raises_of_exec h

theorem holdRoom_free {s : State} (h : s.cur.task.held.length < 64) (k : State → Out) : s.holdRoom k = k s := if_pos h

/-! ### The instructions (R139, R141, R196) -/

/-- Room for a request of the copy unit (R141). -/
def Unit.copyRoom (u : Unit) : Room := if u.copyEntries < 8 then .yes else if heldCopies u.task.held = 8 then .deadlock else .wait

section
variable {s : State} {d : SReg} (hp : tsrPp s.cur.tsr = false)
include hp

theorem exec_qpush {q : QReg} (ht : s.touches [s.cur.keyS d] = false) (ho : s.pushOk q false = true) (v : QImm) :
    exec (.qpush d q v) s = s.push (s.wordRoom q) (.word q (s.pushStream q) (s.cur.getS d + qimm v)) (qLit v) := by
  have hx : exec (.qpush d q v) s = execQpush d q v s := rfl
  rw [hx, execQpush]
  exact issue_plain hp ho ht rfl _

theorem exec_vqpush {w : VReg} {q : QReg} (ht : s.touches [.v w.toNat] = false) (ho : s.pushOk q true = true) :
    exec (.vqpush w q) s = s.push (s.rowRoom q)
      (.row q (s.pushStream q) (bytesOf (if q = 8 then s.streamEntry (s.pushStream 8) else 128) (s.cur.getV w).toNat)) false := by
  have hx : exec (.vqpush w q) s = execVqpush w q s := rfl
  rw [hx, execVqpush]
  exact issue_plain hp ho ht rfl _

variable (hd : d.toNat ≤ 28) (ht : s.touches (s.cur.keysS [d, d + 1, d + 2, d + 3]) = false) (tag : BitVec 6)
include hd ht

theorem exec_cpy : exec (.cpy d tag) s = s.push s.cur.copyRoom (.copy (s.copyReq d tag)) false := by
  have hx : exec (.cpy d tag) s = execCpy d tag s := rfl
  rw [hx, execCpy]
  exact issue_plain hp (decide_eq_true hd) (regsFrom_four d ▸ ht) rfl _

/-- `cpy.try` answers at once whether the request is held. -/
theorem exec_cpyTry (hlive : s.cur.namedS d = false) (hroom : s.cur.task.held.length < 64) (la : BitVec 4) : exec (.cpyTry la d tag) s =
    if s.cur.copyEntries < 8 then
      .next (((s.hold (.copy (s.copyReq d tag))).openWindow la (s.cur.destS d) (some [0]) .answer).afterC id)
    else .next ((s.openWindow la (s.cur.destS d) (some [1]) .answer).afterC id) := by
  have hx : exec (.cpyTry la d tag) s = execCpyTry la d tag s := rfl
  rw [hx, execCpyTry]
  refine (issue_plain hp (decide_eq_true hd) (regsFrom_four d ▸ ht) hlive _).trans (if_congr Iff.rfl ?_ rfl)
  exact holdRoom_free hroom _

end

/-! ### mcmd (R286) -/

/-- The commands that the units of a core hold, by the place and the held items of the acting one. -/
theorem heldMatrix_setCur {s : State} {w : Unit} (hplaced : w.placed = s.cur.placed) (hcore : w.coreId = s.cur.coreId)
    (hheld : w.task.held = s.cur.task.held) :
    ((s.setCur w).coreUnits.map fun u => heldMatrix u.task.held) = s.coreUnits.map fun u => heldMatrix u.task.held := by
  cases hp : s.cur.placed
  · simp [State.coreUnits, State.units, hplaced, hcore, hp]
  · simp [State.coreUnits, State.units, hplaced, hcore, hheld, hp]

section
variable (s : State)

/-- Pending formats play no part in the room of q1. -/
theorem q1Used_consume : s.consume.q1Used = s.q1Used := by
  have hunits : (s.consume.coreUnits.map fun u => heldMatrix u.task.held) = s.coreUnits.map fun u => heldMatrix u.task.held :=
    heldMatrix_setCur rfl rfl rfl
  have hcore : s.consume.curCore = s.curCore := rfl
  rw [State.q1Used, hcore, hunits, State.q1Used]

/-- Nor in who issues a command. -/
theorem issuer_consume : s.consume.issuer = s.issuer := by
  have hsup : tsrSup s.consume.cur.tsr = tsrSup s.cur.tsr :=
    congrArg (· == 1) (bits_setBits_other s.cur.tsr (by decide) (by decide) (by decide) _)
  unfold State.issuer
  rw [hsup]
  rfl

end

/-- The 32 bits that `mcmd` takes as its control word (R284). -/
def controlBits : QImm → BitVec 32
  | .short x => x.zeroExtend 32
  | .lit x => x

/-- The formats of the activations and of the weights (R285). -/
def Unit.actFmt (u : Unit) : Fmt := u.fa.getD .bf16
def Unit.weightFmt (u : Unit) (cw : BitVec 14) : Fmt := u.fb.getD (if cwProduct cw then .bf16 else .t5)

/-- The command of an `mcmd` with command register s[d] and control word `cw`, of a unit of the launch `l`. -/
def State.matrixCmd (s : State) (d : SReg) (cw : BitVec 14) (l : Launch) : MatCmd :=
  { creg := s.cur.getS d, cw, fa := s.cur.actFmt, fb := s.cur.weightFmt cw, by' := s.issuer, weight := l.weight, id := 0 }

/-- `mcmd` with a legal command and room in q1: the command is held, and the formats are consumed. -/
theorem exec_mcmd {s : State} {d : SReg} {v : QImm} (ht : s.touches [s.cur.keyS d] = false)
    (ho : mcmdOk (s.cur.getS d) (controlBits v) s.cur.actFmt (s.cur.weightFmt ((controlBits v).truncate 14)) s.cur.fc = true)
    (hq : s.q1Used < 8) (hroom : s.cur.task.held.length < 64) {l : Launch} (hl : s.curLaunch = some l) : exec (.mcmd d v) s =
    .next (s.consume.afterHold (.matrix (s.matrixCmd d ((controlBits v).truncate 14) l)) (qLit v)) := by
  have hx : exec (.mcmd d v) s = execMcmd d v s := rfl
  rw [hx]
  unfold execMcmd
  refine (issue_ok s _ _ ?checks).trans ?held
  case checks => exact trapOf_none s _ nofun (fun _ => rfl) ho ht rfl rfl
  case held =>
    rw [q1Used_consume, if_pos hq, issuer_consume, hl]
    exact holdRoom_free hroom _

end Sys2Proof.Machine

open Sys2Proof Sys2Proof.Machine

/-- Settles O33: each instruction comes down to a push of its item, and the room decides what becomes of it. -/
theorem pushesAreHeldByTheTask : Obligations.PushesAreHeldByTheTask := by
  unfold Obligations.PushesAreHeldByTheTask
  intro s la d w q v tag lone imm req rowBytes copyRoom
  refine ⟨fun hp hroom => ⟨fun i r h ks l hi ht hword hrow hcopy => ?items, fun hd ht hlive => ?tries⟩, ?matrix⟩
  case items =>
    simp only [List.mem_cons, List.not_mem_nil, or_false, Prod.mk.injEq] at hi
    obtain ⟨rfl, rfl, rfl, rfl, rfl⟩ | ⟨rfl, rfl, rfl, rfl, rfl⟩ | ⟨rfl, rfl, rfl, rfl, rfl⟩ := hi
    · exact holds_of_push (exec_qpush hp ht (hword rfl) v) hroom
    · exact holds_of_push (exec_vqpush hp ht (hrow rfl)) hroom
    · exact holds_of_push (exec_cpy hp (hcopy rfl) ht tag) hroom
  case tries =>
    intro hold
    have hx := exec_cpyTry hp hd ht tag hlive hroom la
    exact ⟨fun h => hx.trans (if_pos h), fun h => hx.trans (if_neg (Nat.not_lt.2 h))⟩
  case matrix =>
    intro cw32 cw fa fb ht ho hq hroom l hl
    exact exec_mcmd ht ho hq hroom hl

end

