-- ==== Sys2Proof/Proofs/VectorIntegerLanes.lean ====
section
/-! Integer vector arithmetic: what a masked element-wise operation writes, the result of each operation as a bit vector of the width of an
element, and O37 settled (R190, R191, R254 to R256, R273). -/

namespace Sys2Proof.Machine

/-! ### Elements of a register (R190, R254) -/

theorem lane_eq_extract (v : VWord) (w j : Nat) : lane v w j = (v.extractLsb' (w * j) w).toNat := by
  rw [BitVec.extractLsb'_toNat, Nat.shiftRight_eq_div_pow]
  rfl

/-- An element of a register of `n` bits that has been put together from the elements `l`. -/
theorem extract_packElems {n w j : Nat} {l : List Nat} (hl : w * l.length ≤ n) :
    (BitVec.ofNat n (packElems w l)).extractLsb' (w * j) w = BitVec.ofNat w (l.getD j 0) := by
  have hlt : packElems w l < 2 ^ n := lt_of_lt_of_le (packElems_lt w l) (Nat.pow_le_pow_right Nat.two_pos hl)
  refine BitVec.eq_of_toNat_eq ?_
  rw [BitVec.extractLsb'_toNat, BitVec.toNat_ofNat, Nat.mod_eq_of_lt hlt, Nat.shiftRight_eq_div_pow, elem_packElems, BitVec.toNat_ofNat]

/-- A masked operation writes its result into an active element and keeps an inactive one. -/
theorem extract_maskedLanes (k : KWord) {w n j : Nat} (old : VWord) (f : Nat → Nat × Flags) (hn : w * n ≤ 1024) (hj : j < n) :
    (maskedLanes k w n old f).1.extractLsb' (w * j) w =
      if k.getLsbD (w * j / 8) then BitVec.ofNat w (f j).1 else old.extractLsb' (w * j) w := by
  have hon : laneOn k w j = k.getLsbD (w * j / 8) := rfl
  unfold maskedLanes
  rw [extract_packElems (by simpa [upTo] using hn)]
  simp only [upTo, List.map_map, List.getD_eq_getElem?_getD, List.getElem?_map, List.getElem?_range hj, Option.map_some,
    Option.getD_some, Function.comp_apply, hon]
  split
  · rfl
  · rw [lane_eq_extract, BitVec.ofNat_toNat, BitVec.setWidth_eq]

/-! ### Flags (R254) -/

@[simp] theorem raiseFlags_none (u : Unit) : u.raiseFlags {} = u := by
  have h : u.tsr ||| Flags.mask {} = u.tsr := BitVec.or_zero
  unfold Unit.raiseFlags
  rw [h]

/-- The flags of operations that raise NV alone. -/
theorem flagsOf_nv {α : Type} (l : List α) (f : α → Bool) : flagsOf (l.map fun x => { nv := f x }) = { nv := l.any f } := by
  have hgo : ∀ (l : List α) (b : Bool), (l.map fun x => ({ nv := f x } : Flags)).foldl Flags.or { nv := b } = { nv := b || l.any f } := by
    intro l
    induction l with
    | nil => simp
    | cons x l ih =>
      intro b
      have hor : Flags.or { nv := b } { nv := f x } = { nv := b || f x } := rfl
      rw [List.map_cons, List.foldl_cons, hor, ih, List.any_cons, Bool.or_assoc]
  exact (hgo l false).trans (by rw [Bool.false_or])

/-- An operation without flags raises none. -/
theorem maskedLanes_flags (k : KWord) (w n : Nat) (old : VWord) (f : Nat → Nat) : (maskedLanes k w n old fun j => (f j, {})).2 = {} := by
  have hflags : (((upTo n).map fun j => if laneOn k w j then (f j, ({} : Flags)) else (lane old w j, {})).map fun e => e.2) =
      (upTo n).map fun _ => { nv := false } := by
    rw [List.map_map]
    refine List.map_congr_left fun j _ => ?_
    rw [Function.comp_apply]
    split <;> rfl
  have hany : (upTo n).any (fun _ => false) = false := by simp
  exact (congrArg flagsOf hflags).trans ((flagsOf_nv _ _).trans (congrArg (Flags.mk · false false false false) hany))

/-! ### A masked element-wise operation (R254) -/

section
variable {s : State} {d a b : VReg}

/-- `op.sz` that nothing stops, its element-wise function given on bit vectors of the width of an element. -/
theorem vint2_lanes {i : Instr} {k : KReg} {z : ESize} {w : Nat} {f : Nat → Nat → Nat → Nat} {g : BitVec w → BitVec w → BitVec w}
    (hx : exec i s = s.vint2 f d a b k z) (hz : ESize.bitsOf z = w) (hq : s.Quiet [.v d.toNat, .v a.toNat, .v b.toNat])
    (hd : s.cur.namedV d = false) (hf : ∀ x y : BitVec w, BitVec.ofNat w (f w x.toNat y.toNat) = g x y) :
    ∃ v : VWord, exec i s = .next (s.afterA fun u => u.setV d v) ∧
      ∀ j, j < 1024 / w → v.extractLsb' (w * j) w = if (s.cur.getK k).getLsbD (w * j / 8) then
        g ((s.cur.getV a).extractLsb' (w * j) w) ((s.cur.getV b).extractLsb' (w * j) w) else (s.cur.getV d).extractLsb' (w * j) w := by
  subst hz
  refine ⟨(maskedLanes (s.cur.getK k) (ESize.bitsOf z) (1024 / ESize.bitsOf z) (s.cur.getV d) fun j =>
    (f (ESize.bitsOf z) (lane (s.cur.getV a) (ESize.bitsOf z) j) (lane (s.cur.getV b) (ESize.bitsOf z) j), {})).1, ?_, fun j hj => ?_⟩
  · rw [hx]
    unfold State.vint2 State.vmap State.writeV
    refine (issue_clear s _ _ hq.1 ?_ rfl hq.2 rfl hd).trans ?_
    · exact nofun
    · rw [maskedLanes_flags]
      simp only [raiseFlags_none]
      rfl
  · rw [extract_maskedLanes _ _ _ (Nat.mul_div_le _ _) hj, lane_eq_extract, lane_eq_extract, hf]

end

/-! ### Integers of an element (R241, R256) -/

section
variable {w : Nat}

theorem ofNat_lowBits (i : Int) : BitVec.ofNat w (lowBits w i) = BitVec.ofInt w i := by
  refine BitVec.eq_of_toNat_eq ?_
  rw [BitVec.toNat_ofNat, lowBits_mod, BitVec.toNat_ofInt]
  rfl

section
variable (hw : 0 < w)
include hw

theorem intValue_toNat (x : BitVec w) : intValue w true x.toNat = x.toInt := by
  have hpow : 2 ^ w = 2 * 2 ^ (w - 1) := by rw [← Nat.pow_succ', Nat.succ_eq_add_one, Nat.sub_add_cancel hw]
  simp only [intValue, Nat.mod_eq_of_lt x.isLt, BitVec.toInt_eq_toNat_cond, Bool.true_and]
  by_cases h : 2 * x.toNat < 2 ^ w
  · rw [if_pos h, decide_eq_false (by omega)]
    rfl
  · rw [if_neg h, decide_eq_true (by omega)]
    push_cast
    rfl

end

/-- The signed result clamped to the extremes of the width, as the statement of O37 writes it. -/
def clampBits (w : Nat) (i : Int) : BitVec w :=
  if 2 ^ (w - 1) - 1 < i then BitVec.ofInt w (2 ^ (w - 1) - 1) else if i < -2 ^ (w - 1) then BitVec.ofInt w (-2 ^ (w - 1)) else BitVec.ofInt w i

theorem ofNat_clampW (i : Int) : BitVec.ofNat w (clampW w i) = clampBits w i := by
  have hpos : (0 : Int) < 2 ^ (w - 1) := by positivity
  unfold clampW clampBits
  rw [ofNat_lowBits]
  unfold clamp intMin intMax
  simp only [if_true]
  by_cases hhi : 2 ^ (w - 1) - 1 < i
  · rw [if_neg (by omega), if_pos hhi, if_pos hhi]
  · rw [if_neg hhi, if_neg hhi]
    split <;> rfl

/-! ### The operations of R256 -/

variable (x y : BitVec w)

theorem elem_keep : BitVec.ofNat w x.toNat = x := by rw [BitVec.ofNat_toNat, BitVec.setWidth_eq]

theorem elem_add : BitVec.ofNat w ((x.toNat + y.toNat) % 2 ^ w) = x + y :=
  BitVec.eq_of_toNat_eq (by simp)

theorem elem_sub : BitVec.ofNat w ((x.toNat + 2 ^ w - y.toNat) % 2 ^ w) = x - y := by
  have hy := y.isLt
  refine BitVec.eq_of_toNat_eq ?_
  rw [BitVec.toNat_ofNat, Nat.mod_mod, BitVec.toNat_sub]
  congr 1
  omega

theorem elem_addus : BitVec.ofNat w (min (ones w) (x.toNat + y.toNat)) = if 2 ^ w ≤ x.toNat + y.toNat then BitVec.allOnes w else x + y := by
  have hpos := Nat.two_pow_pos w
  unfold ones
  split
  · next h => rw [Nat.min_eq_left (by omega)]; exact BitVec.eq_of_toNat_eq (by simp)
  · next h => rw [Nat.min_eq_right (by omega)]; exact BitVec.eq_of_toNat_eq (by simp)

theorem elem_subus : BitVec.ofNat w (x.toNat - y.toNat) = if x.toNat < y.toNat then 0 else x - y := by
  split
  · next h => rw [Nat.sub_eq_zero_of_le h.le]; rfl
  · next h =>
    have hx := x.isLt
    have hy := y.isLt
    refine BitVec.eq_of_toNat_eq ?_
    rw [BitVec.toNat_ofNat, BitVec.toNat_sub_of_le (BitVec.le_def.2 (Nat.le_of_not_lt h)), Nat.mod_eq_of_lt (by omega)]

theorem elem_mul : BitVec.ofNat w (x.toNat * y.toNat % 2 ^ w) = x * y := BitVec.eq_of_toNat_eq (by simp)

theorem elem_and : BitVec.ofNat w (x.toNat &&& y.toNat) = x &&& y := by rw [← BitVec.toNat_and, elem_keep]
theorem elem_or : BitVec.ofNat w (x.toNat ||| y.toNat) = x ||| y := by rw [← BitVec.toNat_or, elem_keep]
theorem elem_xor : BitVec.ofNat w (x.toNat ^^^ y.toNat) = x ^^^ y := by rw [← BitVec.toNat_xor, elem_keep]

theorem elem_andn : BitVec.ofNat w (x.toNat &&& (ones w ^^^ y.toNat)) = x &&& ~~~y := by
  have hnot : ones w ^^^ y.toNat = (~~~y).toNat := by
    rw [← BitVec.allOnes_xor, BitVec.toNat_xor, BitVec.toNat_allOnes]
    rfl
  rw [hnot, elem_and]

theorem elem_minu : BitVec.ofNat w (min x.toNat y.toNat) = if x.toNat ≤ y.toNat then x else y := by
  rw [Nat.min_def]
  split <;> simp

theorem elem_maxu : BitVec.ofNat w (max x.toNat y.toNat) = if x.toNat ≤ y.toNat then y else x := by
  rw [Nat.max_def]
  split <;> simp

theorem elem_sll (n : Nat) : BitVec.ofNat w (x.toNat * 2 ^ n % 2 ^ w) = x <<< n :=
  BitVec.eq_of_toNat_eq (by simp [Nat.shiftLeft_eq])

theorem elem_srl (n : Nat) : BitVec.ofNat w (x.toNat / 2 ^ n) = x >>> n := by
  rw [← Nat.shiftRight_eq_div_pow, ← BitVec.toNat_ushiftRight, elem_keep]

section
variable (hw : 0 < w)
include hw

theorem elem_adds : BitVec.ofNat w (clampW w (sgn w x.toNat + sgn w y.toNat)) = clampBits w (x.toInt + y.toInt) := by
  rw [ofNat_clampW, sgn, sgn, intValue_toNat hw, intValue_toNat hw]

theorem elem_subs : BitVec.ofNat w (clampW w (sgn w x.toNat - sgn w y.toNat)) = clampBits w (x.toInt - y.toInt) := by
  rw [ofNat_clampW, sgn, sgn, intValue_toNat hw, intValue_toNat hw]

theorem elem_mulh : BitVec.ofNat w (lowBits w (sgn w x.toNat * sgn w y.toNat / 2 ^ w)) = BitVec.ofInt w (x.toInt * y.toInt / 2 ^ w) := by
  rw [ofNat_lowBits, sgn, sgn, intValue_toNat hw, intValue_toNat hw]

theorem elem_min : BitVec.ofNat w (if sgn w y.toNat < sgn w x.toNat then y.toNat else x.toNat) = if x.toInt ≤ y.toInt then x else y := by
  rw [sgn, sgn, intValue_toNat hw, intValue_toNat hw]
  by_cases h : x.toInt ≤ y.toInt
  · simp [h, Int.not_lt.2 h]
  · simp [h, Int.not_le.1 h]

theorem elem_max : BitVec.ofNat w (if sgn w x.toNat < sgn w y.toNat then y.toNat else x.toNat) = if x.toInt ≤ y.toInt then y else x := by
  rw [sgn, sgn, intValue_toNat hw, intValue_toNat hw]
  obtain h | h | h := lt_trichotomy x.toInt y.toInt
  · simp [h, h.le]
  · simp [BitVec.eq_of_toInt_eq h]
  · simp [h.le.not_gt, h.not_ge]

theorem elem_abs : BitVec.ofNat w (if sgn w x.toNat < 0 then (2 ^ w - x.toNat) % 2 ^ w else x.toNat) =
    if 0 ≤ x.toInt then x else 0 - x := by
  rw [sgn, intValue_toNat hw]
  by_cases h : 0 ≤ x.toInt
  · rw [if_neg (Int.not_lt.2 h), if_pos h, elem_keep]
  · rw [if_pos (Int.not_le.1 h), if_neg h]
    exact BitVec.eq_of_toNat_eq (by simp)

theorem elem_sra (n : Nat) : BitVec.ofNat w (lowBits w (sgn w x.toNat / 2 ^ n)) = x.sshiftRight n := by
  rw [ofNat_lowBits, sgn, intValue_toNat hw, ← BitVec.ofInt_toInt (x := x.sshiftRight n), BitVec.toInt_sshiftRight, Int.shiftRight_eq_div_pow]
  rfl

end

end

/-- The width of an element size of R255. -/
theorem bitsOf_of_mem {z : ESize} {w : Nat} (h : (z, w) ∈ [(ESize.b, 8), (.h, 16), (.w, 32), (.d, 64)]) : ESize.bitsOf z = w ∧ 0 < w := by
  simp only [List.mem_cons, List.not_mem_nil, or_false, Prod.mk.injEq] at h
  obtain ⟨rfl, rfl⟩ | ⟨rfl, rfl⟩ | ⟨rfl, rfl⟩ | ⟨rfl, rfl⟩ := h
  all_goals decide

end Sys2Proof.Machine

open Sys2Proof Sys2Proof.Machine

/-- Settles O37: each instruction is one element-wise operation under its mask, whose function of R256 is that of bit vectors. -/
theorem vectorIntegerResults : Obligations.VectorIntegerResults := by
  unfold Obligations.VectorIntegerResults
  intro s d a b k z w hw hq hd el clampTo i f hi
  obtain ⟨hz, hpos⟩ := bitsOf_of_mem hw
  have hqa : s.Quiet [.v d.toNat, .v a.toNat, .v a.toNat] := quiet_sub hq (by simp)
  simp only [List.mem_cons, List.not_mem_nil, or_false, Prod.mk.injEq] at hi
  obtain ⟨rfl, rfl⟩ | ⟨rfl, rfl⟩ | ⟨rfl, rfl⟩ | ⟨rfl, rfl⟩ | ⟨rfl, rfl⟩ | ⟨rfl, rfl⟩ | ⟨rfl, rfl⟩ | ⟨rfl, rfl⟩ | ⟨rfl, rfl⟩ | ⟨rfl, rfl⟩ |
    ⟨rfl, rfl⟩ | ⟨rfl, rfl⟩ | ⟨rfl, rfl⟩ | ⟨rfl, rfl⟩ | ⟨rfl, rfl⟩ | ⟨rfl, rfl⟩ | ⟨rfl, rfl⟩ | ⟨rfl, rfl⟩ | ⟨rfl, rfl⟩ | ⟨rfl, rfl⟩ |
    ⟨rfl, rfl⟩ | ⟨rfl, rfl⟩ | ⟨rfl, rfl⟩ := hi
  · exact vint2_lanes (show exec _ s = execVadd d a b k z s from rfl) hz hq hd elem_add
  · exact vint2_lanes (show exec _ s = execVsub d a b k z s from rfl) hz hq hd elem_sub
  · exact vint2_lanes (show exec _ s = execVadds d a b k z s from rfl) hz hq hd fun x y => elem_adds x y hpos
  · exact vint2_lanes (show exec _ s = execVsubs d a b k z s from rfl) hz hq hd fun x y => elem_subs x y hpos
  · exact vint2_lanes (show exec _ s = execVaddus d a b k z s from rfl) hz hq hd elem_addus
  · exact vint2_lanes (show exec _ s = execVsubus d a b k z s from rfl) hz hq hd elem_subus
  · exact vint2_lanes (show exec _ s = execVmul d a b k z s from rfl) hz hq hd elem_mul
  · exact vint2_lanes (show exec _ s = execVmulh d a b k z s from rfl) hz hq hd fun x y => elem_mulh x y hpos
  · exact vint2_lanes (show exec _ s = execVmulhu d a b k z s from rfl) hz hq hd fun _ _ => rfl
  · exact vint2_lanes (show exec _ s = execVand d a b k z s from rfl) hz hq hd elem_and
  · exact vint2_lanes (show exec _ s = execVor d a b k z s from rfl) hz hq hd elem_or
  · exact vint2_lanes (show exec _ s = execVxor d a b k z s from rfl) hz hq hd elem_xor
  · exact vint2_lanes (show exec _ s = execVandn d a b k z s from rfl) hz hq hd elem_andn
  · exact vint2_lanes (show exec _ s = execVmin d a b k z s from rfl) hz hq hd fun x y => elem_min x y hpos
  · exact vint2_lanes (show exec _ s = execVmax d a b k z s from rfl) hz hq hd fun x y => elem_max x y hpos
  · exact vint2_lanes (show exec _ s = execVminu d a b k z s from rfl) hz hq hd elem_minu
  · exact vint2_lanes (show exec _ s = execVmaxu d a b k z s from rfl) hz hq hd elem_maxu
  · exact vint2_lanes (show exec _ s = execVabs d a k z s from rfl) hz hqa hd fun x _ => elem_abs x hpos
  · exact vint2_lanes (show exec _ s = execVsll d a b k z s from rfl) hz hq hd fun x y => elem_sll x (y.toNat % w)
  · exact vint2_lanes (show exec _ s = execVsrl d a b k z s from rfl) hz hq hd fun x y => elem_srl x (y.toNat % w)
  · exact vint2_lanes (show exec _ s = execVsra d a b k z s from rfl) hz hq hd fun x y => elem_sra x hpos (y.toNat % w)
  · exact vint2_lanes (show exec _ s = execVavgu d a b k z s from rfl) hz hq hd fun _ _ => rfl
  · exact vint2_lanes (show exec _ s = execVmov d a k z s from rfl) hz hqa hd fun x _ => elem_keep x

end

