-- ==== Sys2Proof/Proofs/VectorMasks.lean ====
section
/-! Masks: their logic, the moves between masks and scalars, and the vector compares bit by bit and value by value; O39 settled (R191, R260,
R272, R273). -/

namespace Sys2Proof.Machine

/-! ### Writes of masks and of scalars (R272, R273) -/

section
variable {s : State}

theorem writeK_quiet {d : KReg} {srcs : List VReg} {n : Need} {ks : List RegKey} (hn : n = { touch := ks })
    (hq : s.Quiet (vkeys srcs ++ ks)) (hd : s.cur.namedK d = false) (x : State → KWord × Flags) :
    s.writeK d srcs x n = .next (s.afterA fun u => (u.setK d (x s).1).raiseFlags (x s).2) := by
  subst hn
  exact issue_clear s _ _ hq.1 nofun rfl hq.2 rfl hd

theorem writeK_noFlags {d : KReg} {ks : List RegKey} (hq : s.Quiet ks) (hd : s.cur.namedK d = false) (x : State → KWord) :
    s.writeK d [] (fun t => (x t, {})) { touch := ks } = .next (s.afterA fun u => u.setK d (x s)) := by
  rw [writeK_quiet rfl hq hd]
  simp only [raiseFlags_none]

theorem mask2_quiet {i : Instr} {d a b : KReg} {f : KWord → KWord → KWord} {m : KWord} (hx : exec i s = s.mask2 f d a b)
    (hm : f (s.cur.getK a) (s.cur.getK b) = m) (hp : tsrPp s.cur.tsr = false) (hd : s.cur.namedK d = false) :
    exec i s = .next (s.afterA fun u => u.setK d m) := by
  subst hm
  exact hx.trans (writeK_noFlags ⟨hp, touches_nil s⟩ hd fun t => f (t.cur.getK a) (t.cur.getK b))

theorem writeSV_quiet {d : SReg} (hq : s.Quiet [s.cur.keyS d]) (hd : s.cur.namedS d = false) (x : State → Word) :
    s.writeSV d [] x = .next (s.afterA fun u => u.setS d (x s)) :=
  issue_clear s _ _ hq.1 nofun rfl hq.2 rfl hd

end

/-! ### Halves and counts of a mask (R273) -/

/-- A half of a mask replaced leaves the other one alone. -/
theorem getLsbD_setBits_half (x : KWord) (lo : Nat) (v : Word) {j : Nat} (hj : j < 128) :
    (setBits x (lo + 63) lo v.toNat).getLsbD j = if lo ≤ j ∧ j < lo + 64 then v.getLsbD (j - lo) else x.getLsbD j := by
  have hwidth : lo + 63 + 1 - lo = 64 := by omega
  have hb : (setBits x (lo + 63) lo v.toNat).getLsbD j = _ := BitVec.getLsbD_ofNat ..
  rw [hb, decide_eq_true hj, Bool.true_and, bits, hwidth, testBit_replaced]
  rfl

theorem word_half (x : KWord) (h : Nat) : word (elemAt x.toNat 64 h) = x.extractLsb' (64 * h) 64 := by
  refine BitVec.eq_of_toNat_eq ?_
  rw [word, BitVec.toNat_ofNat, BitVec.extractLsb'_toNat, Nat.shiftRight_eq_div_pow, elemAt, Nat.mod_mod]

theorem popCount_eq_countP (n x : Nat) : popCount n x = (List.range n).countP fun j => x.testBit j := by
  induction n generalizing x with
  | zero => rfl
  | succ n ih =>
    have hbit : x % 2 = if x.testBit 0 then 1 else 0 := by
      rw [Nat.testBit_zero]
      split <;> simp_all
    have htail : ((List.range n).map Nat.succ).countP (fun j => x.testBit j) = (List.range n).countP fun j => (x / 2).testBit j := by
      rw [List.countP_map]
      exact List.countP_congr fun j _ => by rw [Function.comp_apply, Nat.succ_eq_add_one, Nat.testBit_succ]
    rw [popCount, ih, List.range_succ_eq_map, List.countP_cons, htail, hbit, Nat.add_comm]

section
variable {s : State} {h : BitVec 1}

theorem exec_stok {d : KReg} {r : SReg} (hq : s.Quiet [s.cur.keyS r]) (hd : s.cur.namedK d = false) : exec (.stok d r h) s =
    .next (s.afterA fun u => u.setK d (setBits (s.cur.getK d) (64 * h.toNat + 63) (64 * h.toNat) (s.cur.getS r).toNat)) := by
  have hx : exec (.stok d r h) s = execStok d r h s := rfl
  rw [hx, execStok, writeK_noFlags hq hd]

variable {r : SReg} {a : KReg} (hq : s.Quiet [s.cur.keyS r]) (hd : s.cur.namedS r = false)
include hq hd

theorem exec_ktos : exec (.ktos r a h) s = .next (s.afterA fun u => u.setS r ((s.cur.getK a).extractLsb' (64 * h.toNat) 64)) := by
  have hx : exec (.ktos r a h) s = execKtos r a h s := rfl
  rw [hx, execKtos, writeSV_quiet hq hd, word_half]

theorem exec_kpop : exec (.kpop r a) s =
    .next (s.afterA fun u => u.setS r (word ((List.range 128).countP fun j => (s.cur.getK a).getLsbD j))) := by
  have hx : exec (.kpop r a) s = execKpop r a s := rfl
  rw [hx, execKpop, writeSV_quiet hq hd, popCount_eq_countP]
  rfl

end

/-! ### Vector compares (R191, R260) -/

/-- All bits of an element are alike in a mask. -/
theorem getLsbD_maskOf {w n j l : Nat} (f : Nat → Bool) (hn : w / 8 * n ≤ 128) (hj : j < n) (hl : l < w / 8) :
    (maskOf w n f).getLsbD (w / 8 * j + l) = f j := by
  have hget : ((maskOf w n f).extractLsb' (w / 8 * j) (w / 8)).getLsbD l = (maskOf w n f).getLsbD (w / 8 * j + l) := by
    rw [BitVec.getLsbD_extractLsb', decide_eq_true hl, Bool.true_and]
  rw [← hget]
  unfold maskOf
  rw [extract_packElems (by simpa [upTo] using hn)]
  simp only [upTo, List.getD_eq_getElem?_getD, List.getElem?_map, List.getElem?_range hj, Option.map_some, Option.getD_some,
    BitVec.getLsbD_ofNat, decide_eq_true hl, Bool.true_and]
  cases f j
  · simp
  · rw [if_pos rfl, Nat.testBit_two_pow_sub_one, decide_eq_true hl]

theorem bitsOf_cases (z : ESize) : ESize.bitsOf z ∈ [8, 16, 32, 64] := by cases z <;> decide
theorem ftypeWidth_cases (t : FType) : (ftypeFp t).width ∈ [8, 16, 32, 64] := by cases t <;> decide

theorem vcmpWidth_cases (q : VCmp) : vcmpWidth q ∈ [8, 16, 32, 64] := by
  cases q with
  | int c z => exact bitsOf_cases z
  | fp c t => exact ftypeWidth_cases t

/-- One mask bit for each byte of a register. -/
theorem maskBytes_le {n : Nat} (h : n ∈ [8, 16, 32, 64]) : n / 8 * (1024 / n) ≤ 128 := by
  revert n
  decide

/-- A compare raises NV or nothing. -/
theorem vcmpLane_flags (q : VCmp) (x y : Nat) : (vcmpLane q x y).2 = { nv := (vcmpLane q x y).2.nv } := by
  cases q with
  | int c z => rfl
  | fp c t => cases c <;> rfl

/-- What `vcmp` answers for element `j`. -/
def State.compared (s : State) (v w : VReg) (q : VCmp) (j : Nat) : Bool × Flags :=
  vcmpLane q (lane (s.cur.getV v) (vcmpWidth q) j) (lane (s.cur.getV w) (vcmpWidth q) j)

section
variable {s : State} {d b : KReg} {v w : VReg} {q : VCmp}

theorem compared_flags (on : Nat → Bool) (l : List Nat) : flagsOf (l.map fun j => if on j then (s.compared v w q j).2 else {}) =
    { nv := l.any fun j => on j && (s.compared v w q j).2.nv } := by
  have hnv : ∀ j, (if on j then (s.compared v w q j).2 else {}) = { nv := on j && (s.compared v w q j).2.nv } := by
    intro j
    cases on j
    · rfl
    · exact vcmpLane_flags q _ _
  simp only [hnv]
  exact flagsOf_nv l _

theorem exec_vcmp (hq : s.Quiet [.v v.toNat, .v w.toNat]) (hd : s.cur.namedK d = false) : exec (.vcmp d v w b q) s =
    .next (s.afterA fun u => (u.setK d (maskOf (vcmpWidth q) (1024 / vcmpWidth q) fun j =>
      (s.cur.getK b).getLsbD (vcmpWidth q * j / 8) && (s.compared v w q j).1)).raiseFlags
        { nv := (List.range (1024 / vcmpWidth q)).any fun j =>
          (s.cur.getK b).getLsbD (vcmpWidth q * j / 8) && (s.compared v w q j).2.nv }) := by
  have hx : exec (.vcmp d v w b q) s = execVcmp d v w b q s := rfl
  rw [hx, ← compared_flags]
  exact writeK_quiet (ks := []) rfl hq hd _

end

/-! ### Compares of integers (R209) -/

theorem compareW_eq {w : Nat} (hw : 0 < w) (c : Cc) (e f : BitVec w) : compareW c w e.toNat f.toNat = match c with
    | .eq => decide (e = f)
    | .ne => decide (e ≠ f)
    | .lt => decide (e.toInt < f.toInt)
    | .ge => decide (f.toInt ≤ e.toInt)
    | .ltu => decide (e.toNat < f.toNat)
    | .geu => decide (f.toNat ≤ e.toNat) := by
  have heq : (e.toNat == f.toNat) = decide (e = f) := by
    rw [Bool.eq_iff_iff, beq_iff_eq, decide_eq_true_iff, BitVec.toNat_inj]
  cases c with
  | eq => exact heq
  | ne => simp only [compareW, bne, heq, decide_not]
  | lt => simp only [compareW, intValue_toNat hw]
  | ge => simp only [compareW, intValue_toNat hw, ← decide_not, Int.not_lt]
  | ltu => rfl
  | geu => simp only [compareW, ← decide_not, Nat.not_lt]

/-! ### Compares of values (R258, R260) -/

theorem isSignalling_of_number {x : Num} (h : x.isNan = false) : x.isSignalling = false := by
  cases x with
  | nan s => cases h
  | inf neg => rfl
  | fin neg m e => rfl

/-- A compare of numbers raises nothing and answers by their equality and their order. -/
def ComparesBy (c : FCc) (x y : Num) (eq lt : Prop) : Prop :=
  (compareF c x y).2 = {} ∧ ((compareF c x y).1 = true ↔ match c with
    | .eq => eq
    | .ne => ¬eq
    | .lt => lt
    | .le => lt ∨ eq
    | .uo => False)

theorem compareF_numbers {c : FCc} {x y : Num} (hx : x.isNan = false) (hy : y.isNan = false) {eq lt : Prop}
    (heq : numEq x y = true ↔ eq) (hlt : numLess x y = true ↔ lt) (hge : numLess y x = false ↔ lt ∨ eq) : ComparesBy c x y eq lt := by
  have hsx := isSignalling_of_number hx
  have hsy := isSignalling_of_number hy
  have hne : numEq x y = false ↔ ¬eq := by rw [← heq, Bool.not_eq_true]
  cases c <;> simp [ComparesBy, compareF, hx, hy, hsx, hsy, heq, hne, hlt, hge]

theorem numEq_nan {x y : Num} (h : x.isNan = true ∨ y.isNan = true) : numEq x y = false := by
  obtain h | h := h <;> simp [numEq, h]

section
variable (c : FCc)

/-- Finite numbers have the order of their exact values. -/
theorem compareF_fin (x y : Bool) (m n : Nat) (i j : Int) :
    ComparesBy c (.fin x m i) (.fin y n j) (finQ x m i = finQ y n j) (finQ x m i < finQ y n j) := by
  refine compareF_numbers rfl rfl (numEq_fin ..) (numLess_fin ..) ?_
  rw [← Bool.not_eq_true, numLess_fin, not_lt, le_iff_lt_or_eq]

theorem compareF_inf_fin (x y : Bool) (m : Nat) (i : Int) : ComparesBy c (.inf x) (.fin y m i) False (x = true) := by
  refine compareF_numbers rfl rfl ?_ ?_ ?_
  all_goals cases x <;> simp [numEq, numLess, orderLess, Num.isZero, Num.isNan]

theorem compareF_fin_inf (x y : Bool) (m : Nat) (i : Int) : ComparesBy c (.fin x m i) (.inf y) False (y = false) := by
  refine compareF_numbers rfl rfl ?_ ?_ ?_
  all_goals cases y <;> simp [numEq, numLess, orderLess, Num.isZero, Num.isNan]

theorem compareF_inf (x y : Bool) : ComparesBy c (.inf x) (.inf y) (x = y) (x = true ∧ y = false) := by
  refine compareF_numbers rfl rfl ?_ ?_ ?_
  all_goals cases x <;> cases y <;> simp [numEq, numLess, orderLess, Num.isZero, Num.isNan]

end

theorem compareF_nan {c : FCc} {x y : Num} (h : x.isNan = true ∨ y.isNan = true) :
    ((compareF c x y).1 = true ↔ c = .ne ∨ c = .uo) ∧
      (compareF c x y).2 = { nv := x.isSignalling || y.isSignalling || c == .lt || c == .le } := by
  have hnan : (x.isNan || y.isNan) = true := by simpa using h
  have hcode : ∀ b c : FCc, (b == c) = decide (b = c) := fun _ _ => rfl
  cases c <;> simp [compareF, hnan, numEq_nan h, hcode]

end Sys2Proof.Machine

open Sys2Proof Sys2Proof.Machine

/-- Settles O39: mask logic and moves write their mask or scalar whole, `vcmp` is given bit by bit, and its lanes by the order of the
values compared. -/
theorem maskResults : Obligations.MaskResults := by
  unfold Obligations.MaskResults
  intro s d a b r v w h q x y lo
  refine ⟨fun hq hd => ⟨fun i m hi => ?logic, ?stok, ?vcmp⟩, fun hq hd => ⟨exec_ktos hq hd, exec_kpop hq hd⟩, fun c z l e f hz => ?ints, fun c t e f => ?values⟩
  case logic =>
    simp only [List.mem_cons, List.not_mem_nil, or_false, Prod.mk.injEq] at hi
    obtain ⟨rfl, rfl⟩ | ⟨rfl, rfl⟩ | ⟨rfl, rfl⟩ | ⟨rfl, rfl⟩ | ⟨rfl, rfl⟩ | ⟨rfl, rfl⟩ := hi
    · exact mask2_quiet (show exec _ s = execKand d a b s from rfl) rfl hq.1 hd
    · exact mask2_quiet (show exec _ s = execKor d a b s from rfl) rfl hq.1 hd
    · exact mask2_quiet (show exec _ s = execKxor d a b s from rfl) rfl hq.1 hd
    · exact mask2_quiet (show exec _ s = execKandn d a b s from rfl) rfl hq.1 hd
    · exact mask2_quiet (show exec _ s = execKnot d a s from rfl) rfl hq.1 hd
    · exact mask2_quiet (show exec _ s = execKmov d a s from rfl) rfl hq.1 hd
  case stok =>
    have hqr : s.Quiet [s.cur.keyS r] := quiet_sub hq (by simp [Unit.keysS])
    exact ⟨_, exec_stok hqr hd, fun j hj => getLsbD_setBits_half _ lo _ hj⟩
  case vcmp =>
    intro n el on res nv
    have hqv : s.Quiet [.v v.toNat, .v w.toNat] := quiet_sub hq (by simp)
    exact ⟨_, exec_vcmp hqv hd, fun j hj k hk => getLsbD_maskOf _ (maskBytes_le (vcmpWidth_cases q)) hj hk⟩
  case ints =>
    obtain ⟨hw, hpos⟩ := bitsOf_of_mem hz
    subst hw
    exact compareW_eq hpos c e f
  case values =>
    intro q r a b of
    have hof : ∀ {x y : Machine.Num} {eq lt : Prop}, a = x → b = y → ComparesBy c x y eq lt → of eq lt := by
      rintro _ _ eq lt rfl rfl h
      exact h
    exact ⟨fun m i n j x y ha hb => hof ha hb (compareF_fin c x y m n i j), fun m i x y ha hb => hof ha hb (compareF_inf_fin c x y m i),
      fun m i x y ha hb => hof ha hb (compareF_fin_inf c x y m i), fun x y ha hb => hof ha hb (compareF_inf c x y), compareF_nan⟩

end

