-- ==== Sys2Proof/Proofs/ScalarArithmetic.lean ====
section
/-! Scalar results of the A-slot: the rule that a register write under a true guard obeys, the value of each operation of opcode 0x02, and
O1 settled (R40, R203, R204). -/

namespace Sys2Proof.Machine

/-! ### Register results (R39, R40, R203) -/

section
variable {s : State} {i : Instr} {d a b : SReg} {p : PReg} {x r : Word}

/-- An instruction that comes down to a write of s[d] of the value `x`, which is `r`. -/
theorem exec_of_writeS {srcs : List SReg} (hx : exec i s = s.writeS p d srcs x) (hr : x = r) (hp : s.cur.getP p = true)
    (hq : s.Quiet (s.cur.keysS (d :: srcs))) (hd : s.cur.namedS d = false) : exec i s = .next (s.afterA fun u => u.setS d r) :=
  hx.trans (hr ▸ writeS_ok s p d srcs x hp hq hd)

section
variable (hq : s.Quiet (s.cur.keysS [d, a, b])) (hd : s.cur.namedS d = false)
include hq hd

theorem exec_alu2 {f : Word → Word → Word} (hp : s.cur.getP p = true) (hx : exec i s = s.alu2 f d a b p)
    (hr : f (s.cur.getS a) (s.cur.getS b) = r) : exec i s = .next (s.afterA fun u => u.setS d r) :=
  exec_of_writeS hx hr hp hq hd

theorem exec_alu1 {f : Word → Word} (hp : s.cur.getP p = true) (hx : exec i s = s.alu1 f d a p) (hr : f (s.cur.getS a) = r) :
    exec i s = .next (s.afterA fun u => u.setS d r) :=
  exec_of_writeS hx hr hp (quiet_sub hq (by simp [Unit.keysS])) hd

/-- The immediate forms have the guard p0. -/
theorem exec_aluI {f : Word → Word} (hx : exec i s = s.aluI f d a) (hr : f (s.cur.getS a) = r) :
    exec i s = .next (s.afterA fun u => u.setS d r) :=
  exec_alu1 (p := 0) hq hd rfl hx hr

end

end

/-! ### Values (R203, R204) -/

section
variable (x y : Word)

theorem onLow_add : onLow (· + ·) x y = ((x + y).truncate 32 : BitVec 32).signExtend 64 :=
  congrArg (BitVec.signExtend 64) (BitVec.setWidth_add x y (by decide)).symm

theorem onLow_sub : onLow (· - ·) x y = ((x - y).truncate 32 : BitVec 32).signExtend 64 := by
  have hlow : (x - y).setWidth 32 = x.setWidth 32 - y.setWidth 32 := by
    rw [BitVec.sub_eq_add_neg, BitVec.setWidth_add _ _ (by decide), BitVec.setWidth_neg_of_le (by decide), ← BitVec.sub_eq_add_neg]
  exact congrArg (BitVec.signExtend 64) hlow.symm

theorem clampS_eq (i : Int) : clampS i =
    if 2 ^ 63 - 1 < i then 0x7FFF_FFFF_FFFF_FFFF else if i < -2 ^ 63 then 0x8000_0000_0000_0000 else BitVec.ofInt 64 i := by
  unfold clampS clamp
  by_cases hhigh : 2 ^ 63 - 1 < i
  · rw [if_neg (by omega), if_pos hhigh, if_pos hhigh]
    rfl
  rw [if_neg hhigh, if_neg hhigh]
  by_cases hlow : i < -2 ^ 63
  · rw [if_pos hlow, if_pos hlow]
    rfl
  · rw [if_neg hlow, if_neg hlow]
    rfl

/-- An unsigned sum clamped to 64 bits. -/
theorem word_min_add : word (min (2 ^ 64 - 1) (x.toNat + y.toNat)) = if 2 ^ 64 ≤ x.toNat + y.toNat then BitVec.allOnes 64 else x + y := by
  by_cases h : 2 ^ 64 ≤ x.toNat + y.toNat
  · rw [if_pos h, Nat.min_eq_left (by omega)]
    rfl
  · rw [if_neg h, Nat.min_eq_right (by omega)]
    exact BitVec.eq_of_toNat_eq (by simp [word])

/-- An unsigned difference clamped to 0. -/
theorem word_sub : word (x.toNat - y.toNat) = if x.toNat < y.toNat then 0 else x - y := by
  by_cases h : x.toNat < y.toNat
  · rw [if_pos h, Nat.sub_eq_zero_of_le (Nat.le_of_lt h)]
    rfl
  · rw [if_neg h]
    refine BitVec.eq_of_toNat_eq ?_
    rw [BitVec.toNat_sub_of_le (Nat.le_of_not_lt h), word, BitVec.toNat_ofNat]
    omega

theorem ite_slt {α : Type} (v w : α) : (if x.slt y then v else w) = if y.toInt ≤ x.toInt then w else v :=
  (if_congr (BitVec.slt_iff_toInt_lt.trans Int.not_le.symm) rfl rfl).trans (ite_not ..)

theorem ite_ult {α : Type} (v w : α) : (if x.ult y then v else w) = if y.toNat ≤ x.toNat then w else v :=
  (if_congr (BitVec.ult_iff_toNat_lt.trans Nat.not_le.symm) rfl rfl).trans (ite_not ..)

/-- The greater of two values, whichever of two equal ones is taken. -/
theorem ite_le_comm {α β : Type} [LinearOrder β] {f : α → β} (hf : f.Injective) (v w : α) :
    (if f w ≤ f v then v else w) = if f v ≤ f w then w else v := by
  rcases lt_trichotomy (f v) (f w) with h | h | h
  · rw [if_neg (not_le_of_gt h), if_pos h.le]
  · obtain rfl := hf h
    rfl
  · rw [if_pos h.le, if_neg (not_le_of_gt h)]

/-- The magnitude; that of -2^63 is -2^63. -/
theorem ite_msb_neg : (if x.msb then -x else x) = if 0 ≤ x.toInt then x else 0 - x := by
  have hmsb : x.msb = true ↔ ¬0 ≤ x.toInt := by rw [BitVec.msb_eq_toInt, decide_eq_true_eq, Int.not_le]
  exact (if_congr hmsb rfl rfl).trans (ite_not ..)

end

end Sys2Proof.Machine

open Sys2Proof Sys2Proof.Machine

/-- Settles O1: every instruction comes down to one register write, and its value is that of the table. -/
theorem scalarArithmeticResults : Obligations.ScalarArithmeticResults := by
  unfold Obligations.ScalarArithmeticResults
  intro s d a b p hq hd hp x y clampTo low i r hi
  simp only [List.mem_cons, List.not_mem_nil, or_false, Prod.mk.injEq] at hi
  obtain ⟨rfl, rfl⟩ | ⟨rfl, rfl⟩ | ⟨rfl, rfl⟩ | ⟨rfl, rfl⟩ | ⟨rfl, rfl⟩ | ⟨rfl, rfl⟩ | ⟨rfl, rfl⟩ | ⟨rfl, rfl⟩ | ⟨rfl, rfl⟩ | ⟨rfl, rfl⟩ |
    ⟨rfl, rfl⟩ | ⟨rfl, rfl⟩ | ⟨rfl, rfl⟩ | ⟨rfl, rfl⟩ | ⟨rfl, rfl⟩ | ⟨rfl, rfl⟩ | ⟨rfl, rfl⟩ | ⟨rfl, rfl⟩ | ⟨rfl, rfl⟩ := hi
  · exact exec_alu2 hq hd hp (show exec _ s = execAdd d a b p s from rfl) rfl
  · exact exec_alu2 hq hd hp (show exec _ s = execSub d a b p s from rfl) rfl
  · exact exec_alu2 hq hd hp (show exec _ s = execAddw d a b p s from rfl) (onLow_add x y)
  · exact exec_alu2 hq hd hp (show exec _ s = execSubw d a b p s from rfl) (onLow_sub x y)
  · exact exec_alu2 hq hd hp (show exec _ s = execAdds d a b p s from rfl) (clampS_eq _)
  · exact exec_alu2 hq hd hp (show exec _ s = execSubs d a b p s from rfl) (clampS_eq _)
  · exact exec_alu2 hq hd hp (show exec _ s = execAddus d a b p s from rfl) (word_min_add x y)
  · exact exec_alu2 hq hd hp (show exec _ s = execSubus d a b p s from rfl) (word_sub x y)
  · exact exec_alu2 hq hd hp (show exec _ s = execAnd d a b p s from rfl) rfl
  · exact exec_alu2 hq hd hp (show exec _ s = execOr d a b p s from rfl) rfl
  · exact exec_alu2 hq hd hp (show exec _ s = execXor d a b p s from rfl) rfl
  · exact exec_alu2 hq hd hp (show exec _ s = execAndn d a b p s from rfl) rfl
  · exact exec_alu2 hq hd hp (show exec _ s = execOrn d a b p s from rfl) rfl
  · exact exec_alu2 hq hd hp (show exec _ s = execXnor d a b p s from rfl) rfl
  · exact exec_alu2 hq hd hp (show exec _ s = execMin d a b p s from rfl) (ite_slt y x y x)
  · exact exec_alu2 hq hd hp (show exec _ s = execMax d a b p s from rfl)
      ((ite_slt x y y x).trans (ite_le_comm (fun _ _ => BitVec.eq_of_toInt_eq) x y))
  · exact exec_alu2 hq hd hp (show exec _ s = execMinu d a b p s from rfl) (ite_ult y x y x)
  · exact exec_alu2 hq hd hp (show exec _ s = execMaxu d a b p s from rfl)
      ((ite_ult x y y x).trans (ite_le_comm (fun _ _ => BitVec.eq_of_toNat_eq) x y))
  · exact exec_alu1 hq hd hp (show exec _ s = execAbs d a p s from rfl) (ite_msb_neg x)

end

