-- ==== Sys2Proof/Proofs/ShiftsAndMultiplies.lean ====
section
/-! Shifts, rotates and multiplies: the counts of their register forms and the halves of their products; O3 settled (R206, R207). -/

namespace Sys2Proof.Machine

section
variable (x y : Word)

/-- A count is the register modulo 64, or modulo 32 for the w forms (R206). -/
theorem count_eq : count y = y.toNat % 64 := congrArg (· % 64) (Nat.div_one _)

theorem countW_truncate : countW (y.truncate 32) = y.toNat % 32 := by
  simp only [countW, bits, BitVec.truncate_eq_setWidth, BitVec.toNat_setWidth, Nat.pow_zero, Nat.div_one]
  omega

/-- A w form with its count from a register. -/
theorem onLow_shift (f : Word32 → Nat → Word32) :
    onLow (fun v w => f v (countW w)) x y = (f (x.truncate 32) (y.toNat % 32)).signExtend 64 :=
  congrArg (fun n => (f (x.truncate 32) n).signExtend 64) (countW_truncate y)

theorem onLow_mul : onLow (· * ·) x y = ((x * y).truncate 32 : BitVec 32).signExtend 64 :=
  congrArg (BitVec.signExtend 64) (BitVec.setWidth_mul x y (by decide)).symm

end

end Sys2Proof.Machine

open Sys2Proof Sys2Proof.Machine

/-- Settles O3: every instruction comes down to one register write of its table's value, at the count that its operand gives. -/
theorem shiftAndMultiplyResults : Obligations.ShiftAndMultiplyResults := by
  unfold Obligations.ShiftAndMultiplyResults
  intro s d a b p n m hq hd x y w c e
  have hc : count (s.cur.getS b) = c := count_eq y
  refine ⟨fun hp i r hi => ?register, fun i r hi => ?immediate⟩
  case register =>
    simp only [List.mem_cons, List.not_mem_nil, or_false, Prod.mk.injEq] at hi
    obtain ⟨rfl, rfl⟩ | ⟨rfl, rfl⟩ | ⟨rfl, rfl⟩ | ⟨rfl, rfl⟩ | ⟨rfl, rfl⟩ | ⟨rfl, rfl⟩ | ⟨rfl, rfl⟩ | ⟨rfl, rfl⟩ | ⟨rfl, rfl⟩ | ⟨rfl, rfl⟩ |
      ⟨rfl, rfl⟩ | ⟨rfl, rfl⟩ | ⟨rfl, rfl⟩ := hi
    · exact exec_alu2 hq hd hp (show exec _ s = execSll d a b p s from rfl) (congrArg (x <<< ·) hc)
    · exact exec_alu2 hq hd hp (show exec _ s = execSrl d a b p s from rfl) (congrArg (x >>> ·) hc)
    · exact exec_alu2 hq hd hp (show exec _ s = execSra d a b p s from rfl) (congrArg x.sshiftRight hc)
    · exact exec_alu2 hq hd hp (show exec _ s = execRol d a b p s from rfl) (congrArg x.rotateLeft hc)
    · exact exec_alu2 hq hd hp (show exec _ s = execRor d a b p s from rfl) (congrArg x.rotateRight hc)
    · exact exec_alu2 hq hd hp (show exec _ s = execSllw d a b p s from rfl) (onLow_shift x y (· <<< ·))
    · exact exec_alu2 hq hd hp (show exec _ s = execSrlw d a b p s from rfl) (onLow_shift x y (· >>> ·))
    · exact exec_alu2 hq hd hp (show exec _ s = execSraw d a b p s from rfl) (onLow_shift x y BitVec.sshiftRight)
    · exact exec_alu2 hq hd hp (show exec _ s = execMul d a b p s from rfl) rfl
    · exact exec_alu2 hq hd hp (show exec _ s = execMulh d a b p s from rfl) rfl
    · exact exec_alu2 hq hd hp (show exec _ s = execMulhu d a b p s from rfl) rfl
    · exact exec_alu2 hq hd hp (show exec _ s = execMulhsu d a b p s from rfl) rfl
    · exact exec_alu2 hq hd hp (show exec _ s = execMulw d a b p s from rfl) (onLow_mul x y)
  case immediate =>
    simp only [List.mem_cons, List.not_mem_nil, or_false, Prod.mk.injEq] at hi
    obtain ⟨rfl, rfl⟩ | ⟨rfl, rfl⟩ | ⟨rfl, rfl⟩ | ⟨rfl, rfl⟩ | ⟨rfl, rfl⟩ | ⟨rfl, rfl⟩ | ⟨rfl, rfl⟩ | ⟨rfl, rfl⟩ := hi
    · exact exec_aluI hq hd (show exec _ s = execSllImm d a n s from rfl) rfl
    · exact exec_aluI hq hd (show exec _ s = execSrlImm d a n s from rfl) rfl
    · exact exec_aluI hq hd (show exec _ s = execSraImm d a n s from rfl) rfl
    · exact exec_aluI hq hd (show exec _ s = execRolImm d a n s from rfl) rfl
    · exact exec_aluI hq hd (show exec _ s = execRorImm d a n s from rfl) rfl
    · exact exec_aluI hq hd (show exec _ s = execSllwImm d a m s from rfl) rfl
    · exact exec_aluI hq hd (show exec _ s = execSrlwImm d a m s from rfl) rfl
    · exact exec_aluI hq hd (show exec _ s = execSrawImm d a m s from rfl) rfl

end

