-- ==== Sys2Proof/Proofs/BitOperations.lean ====
section
/-! Counts and orders of bits, bit by bit; O4 settled (R208). -/

namespace Sys2Proof.Machine

/-! ### Zeros at either end -/

section
variable {x : Nat}

theorem leadingZeros_le (n x : Nat) : leadingZeros n x ≤ n := Nat.sub_le n _

theorem bitLength_of_ne_zero (h : x ≠ 0) : bitLength x = Nat.log2 x + 1 := if_neg h

/-- No bit stands above the binary form of a number. -/
theorem testBit_of_bitLength_le {j : Nat} (h : bitLength x ≤ j) : x.testBit j = false := by
  by_cases h0 : x = 0
  · rw [h0, Nat.zero_testBit]
  · rw [bitLength_of_ne_zero h0] at h
    exact Nat.testBit_lt_two_pow ((Nat.log2_lt h0).1 h)

theorem bitLength_le {n : Nat} (h : x < 2 ^ n) : bitLength x ≤ n := by
  by_cases h0 : x = 0
  · simp [bitLength, h0]
  · rw [bitLength_of_ne_zero h0]
    exact (Nat.log2_lt h0).2 h

/-- The first bit that is not a leading zero is one. -/
theorem testBit_leadingZeros {n : Nat} (h : x < 2 ^ n) (hz : leadingZeros n x < n) : x.testBit (n - 1 - leadingZeros n x) = true := by
  have hle := bitLength_le h
  have h0 : x ≠ 0 := by
    rintro rfl
    exact Nat.lt_irrefl n hz
  have hlog : n - 1 - leadingZeros n x = Nat.log2 x := by
    rw [leadingZeros, bitLength_of_ne_zero h0] at *
    omega
  rw [hlog, Nat.testBit_log2 h0]

theorem trailingZeros_le (n x : Nat) : trailingZeros n x ≤ n := by
  induction n generalizing x with
  | zero => exact Nat.le_refl 0
  | succ n ih =>
    have := ih (x / 2)
    rw [trailingZeros]
    split <;> omega

theorem testBit_lt_trailingZeros {n j : Nat} (h : j < trailingZeros n x) : x.testBit j = false := by
  induction n generalizing x j with
  | zero => exact absurd h (Nat.not_lt_zero j)
  | succ n ih =>
    rw [trailingZeros] at h
    split at h
    next => exact absurd h (Nat.not_lt_zero j)
    next heven =>
      cases j with
      | zero => simpa [Nat.testBit_zero] using heven
      | succ j =>
        rw [Nat.testBit_succ]
        exact ih (by omega)

/-- The bit past the trailing zeros is one. -/
theorem testBit_trailingZeros {n : Nat} (h : trailingZeros n x < n) : x.testBit (trailingZeros n x) = true := by
  induction n generalizing x with
  | zero => exact absurd h (Nat.not_lt_zero _)
  | succ n ih =>
    rw [trailingZeros] at h ⊢
    split at h
    next hodd => rw [if_pos hodd, Nat.testBit_zero, decide_eq_true hodd]
    next heven =>
      rw [if_neg heven, Nat.add_comm, Nat.testBit_succ]
      exact ih (by omega)

end

/-! ### Bits and bytes in reverse order -/

theorem reverseBits_lt (n x : Nat) : reverseBits n x < 2 ^ n := by
  induction n generalizing x with
  | zero => exact Nat.one_pos
  | succ n ih =>
    have := ih (x / 2)
    have hbit : x % 2 * 2 ^ n ≤ 1 * 2 ^ n := Nat.mul_le_mul_right _ (by omega)
    rw [reverseBits, Nat.pow_succ]
    omega

theorem testBit_reverseBits {n j : Nat} (h : j < n) (x : Nat) : (reverseBits n x).testBit j = x.testBit (n - 1 - j) := by
  induction n generalizing x j with
  | zero => exact absurd h (Nat.not_lt_zero j)
  | succ n ih =>
    rw [reverseBits, Nat.mul_comm, Nat.testBit_two_pow_mul_add _ (reverseBits_lt n _)]
    by_cases hj : j < n
    · rw [if_pos hj, ih hj, ← Nat.testBit_succ]
      congr 1
      omega
    · obtain rfl : j = n := by omega
      rw [if_neg hj, Nat.sub_self, Nat.add_sub_cancel, Nat.sub_self, Nat.testBit_zero, Nat.testBit_zero, Nat.mod_mod]

/-- A byte of the number that bytes hold. -/
theorem ofBytes_div_mod (l : List Byte) (j : Nat) : ofBytes l / 256 ^ j % 256 = (l.getD j 0).toNat := by
  induction l generalizing j with
  | nil => simp [ofBytes]
  | cons b l ih =>
    have hb := b.isLt
    cases j with
    | zero =>
      simp only [ofBytes, Nat.pow_zero, Nat.div_one, List.getD_cons_zero]
      omega
    | succ j =>
      have htail : ofBytes (b :: l) / 256 = ofBytes l := by
        rw [ofBytes]
        omega
      rw [Nat.pow_succ', ← Nat.div_div_eq_div_mul, htail, ih, List.getD_cons_succ]

theorem extract_byte (x : Word) (j : Nat) : x.extractLsb' (8 * j) 8 = BitVec.ofNat 8 (x.toNat / 256 ^ j) := by
  have hshift : x.extractLsb' (8 * j) 8 = BitVec.ofNat 8 (x.toNat >>> (8 * j)) := rfl
  rw [hshift, Nat.shiftRight_eq_div_pow, Nat.pow_mul]

theorem extract_byteSwap (x : Word) {j : Nat} (h : j < 8) : (byteSwap x).extractLsb' (8 * j) 8 = x.extractLsb' (8 * (7 - j)) 8 := by
  rw [extract_byte, extract_byte]
  have hlt : ofBytes (bytesOf 8 x.toNat).reverse < 2 ^ 64 := by
    simpa using ofBytes_lt (bytesOf 8 x.toNat).reverse
  refine BitVec.eq_of_toNat_eq ?_
  rw [BitVec.toNat_ofNat, byteSwap, word, BitVec.toNat_ofNat, Nat.mod_eq_of_lt hlt]
  refine (ofBytes_div_mod _ j).trans (congrArg BitVec.toNat ?_)
  rw [List.getD_eq_getElem _ _ (by simpa using h), List.getElem_reverse]
  simp [bytesOf_eq_map_range]

/-! ### Extensions and single bits -/

section
variable (x y : Word)

theorem sext_eq (n : Nat) : sext x n = (x.truncate n : BitVec n).signExtend 64 := congrArg (BitVec.signExtend 64) (BitVec.ofNat_toNat n x)

theorem zext_eq (n : Nat) : zext x n = (x.truncate n : BitVec n).zeroExtend 64 :=
  BitVec.eq_of_toNat_eq (by simp [zext, word])

theorem bitAt_eq : bitAt y = 1 <<< (y.toNat % 64) := congrArg ((1 : Word) <<< ·) (count_eq y)

theorem getLsbD_word (n : Nat) {j : Nat} (h : j < 64) : (word n).getLsbD j = n.testBit j := by
  rw [word, BitVec.getLsbD_ofNat, decide_eq_true h, Bool.true_and]

end

end Sys2Proof.Machine

open Sys2Proof Sys2Proof.Machine

/-- Settles O4: every instruction comes down to one register write, whose value is described by the bits of its operand. -/
theorem bitOperationResults : Obligations.BitOperationResults := by
  unfold Obligations.BitOperationResults
  intro s d a b p hq hd hp x bit
  refine ⟨⟨leadingZeros 64 x.toNat, ?_, leadingZeros_le .., fun j hj _ => testBit_of_bitLength_le ?_, testBit_leadingZeros x.isLt⟩,
    ⟨trailingZeros 64 x.toNat, ?_, trailingZeros_le .., fun j => testBit_lt_trailingZeros, testBit_trailingZeros⟩,
    ⟨word (reverseBits 64 x.toNat), ?_, fun j hj => (getLsbD_word _ hj).trans (testBit_reverseBits hj _)⟩,
    ⟨byteSwap x, ?_, fun j => extract_byteSwap x⟩, fun i r hi => ?values⟩
  · exact exec_alu1 hq hd hp (show exec _ s = execClz d a p s from rfl) rfl
  · have hle := bitLength_le x.isLt
    rw [leadingZeros] at hj
    omega
  · exact exec_alu1 hq hd hp (show exec _ s = execCtz d a p s from rfl) rfl
  · exact exec_alu1 hq hd hp (show exec _ s = execBrev d a p s from rfl) rfl
  · exact exec_alu1 hq hd hp (show exec _ s = execBswap d a p s from rfl) rfl
  case values =>
    have hbit : bitAt (s.cur.getS b) = bit := bitAt_eq _
    simp only [List.mem_cons, List.not_mem_nil, or_false, Prod.mk.injEq] at hi
    obtain ⟨rfl, rfl⟩ | ⟨rfl, rfl⟩ | ⟨rfl, rfl⟩ | ⟨rfl, rfl⟩ | ⟨rfl, rfl⟩ | ⟨rfl, rfl⟩ | ⟨rfl, rfl⟩ | ⟨rfl, rfl⟩ | ⟨rfl, rfl⟩ | ⟨rfl, rfl⟩ |
      ⟨rfl, rfl⟩ := hi
    · exact exec_alu1 hq hd hp (show exec _ s = execPopc d a p s from rfl) (congrArg word (popCount_eq_countP 64 x.toNat))
    · exact exec_alu1 hq hd hp (show exec _ s = execSextB d a p s from rfl) (sext_eq x 8)
    · exact exec_alu1 hq hd hp (show exec _ s = execSextH d a p s from rfl) (sext_eq x 16)
    · exact exec_alu1 hq hd hp (show exec _ s = execSextW d a p s from rfl) (sext_eq x 32)
    · exact exec_alu1 hq hd hp (show exec _ s = execZextB d a p s from rfl) (zext_eq x 8)
    · exact exec_alu1 hq hd hp (show exec _ s = execZextH d a p s from rfl) (zext_eq x 16)
    · exact exec_alu1 hq hd hp (show exec _ s = execZextW d a p s from rfl) (zext_eq x 32)
    · exact exec_alu2 hq hd hp (show exec _ s = execBclr d a b p s from rfl) (congrArg (x &&& ~~~·) hbit)
    · exact exec_alu2 hq hd hp (show exec _ s = execBset d a b p s from rfl) (congrArg (x ||| ·) hbit)
    · exact exec_alu2 hq hd hp (show exec _ s = execBinv d a b p s from rfl) (congrArg (x ^^^ ·) hbit)
    · exact exec_alu2 hq hd hp (show exec _ s = execBext d a b p s from rfl) (congrArg (x >>> · &&& 1) (count_eq _))

end

