-- ==== Sys2Proof/Proofs/ComparesAndSelects.lean ====
section
/-! Immediate forms, selections, compares and predicates; O2 settled (R203, R205, R209, R210). -/

namespace Sys2Proof.Machine

/-! ### Predicate results (R40, R191) -/

section
variable {s : State} {i : Instr} {d : PReg} {a b : SReg} {p : PReg} {x r : Bool}

/-- An instruction that comes down to a write of p[d] of the value `x`, which is `r`. -/
theorem exec_of_writeP {srcs : List SReg} (hx : exec i s = s.writeP p d srcs x) (hr : x = r) (hp : s.cur.getP p = true)
    (hq : s.Quiet (s.cur.keysS [a, b])) (hs : srcs ⊆ [a, b]) (hd : s.cur.namedP d = false) :
    exec i s = .next (s.afterA fun u => u.setP d r) :=
  hx.trans (hr ▸ writeP_ok s p d srcs x hp (quiet_sub hq fun _ hk => List.map_subset _ hs hk) hd)

end

/-! ### Values (R205, R209, R210) -/

section
variable (x y : Word)

/-- The compare codes. -/
theorem compare_eq : compare .eq x y = decide (x = y) ∧ compare .ne x y = decide (x ≠ y) ∧
    compare .lt x y = decide (x.toInt < y.toInt) ∧ compare .ge x y = decide (y.toInt ≤ x.toInt) ∧
    compare .ltu x y = decide (x.toNat < y.toNat) ∧ compare .geu x y = decide (y.toNat ≤ x.toNat) := by
  refine ⟨rfl, ?_, rfl, ?_, rfl, ?_⟩
  · exact decide_not.symm
  · exact decide_not.symm.trans (decide_eq_decide.2 Int.not_lt)
  · exact decide_not.symm.trans (decide_eq_decide.2 Nat.not_lt)

theorem shiftLeft_sixteen : x <<< 16 = x * 65536 := BitVec.shiftLeft_eq_mul_twoPow x 16

end

end Sys2Proof.Machine

open Sys2Proof Sys2Proof.Machine

/-- Settles O2: every instruction comes down to one write of a register or of a predicate, and its value is that of the table. -/
theorem compareSelectAndImmediateResults : Obligations.CompareSelectAndImmediateResults := by
  unfold Obligations.CompareSelectAndImmediateResults
  refine ⟨fun s d a b p q v hq hd => ?registers, fun s d e f a b p v hq hd => ?predicates⟩
  case registers =>
    intro x y
    refine ⟨fun i r hi => ?immediate, fun hp i r hi => ?select, fun hp => ?pmov⟩
    case immediate =>
      simp only [List.mem_cons, List.not_mem_nil, or_false, Prod.mk.injEq] at hi
      obtain ⟨rfl, rfl⟩ | ⟨rfl, rfl⟩ | ⟨rfl, rfl⟩ | ⟨rfl, rfl⟩ | ⟨rfl, rfl⟩ | ⟨rfl, rfl⟩ := hi
      · exact exec_aluI hq hd (show exec _ s = execAddImm d a v s from rfl) rfl
      · exact exec_aluI hq hd (show exec _ s = execAndImm d a v s from rfl) rfl
      · exact exec_aluI hq hd (show exec _ s = execOrImm d a v s from rfl) rfl
      · exact exec_aluI hq hd (show exec _ s = execXorImm d a v s from rfl) rfl
      · exact exec_of_writeS (show exec _ s = execLi d v s from rfl) rfl rfl (quiet_sub hq (by simp [Unit.keysS])) hd
      · exact exec_aluI hq hd (show exec _ s = execLih d a v s from rfl) (congrArg (· ||| v.zeroExtend 64) (shiftLeft_sixteen x))
    case select =>
      simp only [List.mem_cons, List.not_mem_nil, or_false, Prod.mk.injEq] at hi
      obtain ⟨rfl, rfl⟩ | ⟨rfl, rfl⟩ := hi
      · exact exec_alu1 hq hd hp (show exec _ s = execMov d a p s from rfl) rfl
      · exact exec_of_writeS (show exec _ s = execSel d a b p q s from rfl) rfl hp hq hd
    case pmov =>
      exact exec_of_writeS (show exec _ s = execPmov d q p s from rfl) rfl hp (quiet_sub hq (by simp [Unit.keysS])) hd
  case predicates =>
    intro x y se ze
    refine ⟨fun i r hi => ?immediate, fun hp i r hi => ?register⟩
    case immediate =>
      obtain ⟨heq, hne, hlt, hge, -⟩ := compare_eq x se
      obtain ⟨-, -, -, -, hltu, hgeu⟩ := compare_eq x ze
      have himm {c : Cc} {r : Bool} (hr : compare c x (compareImm c v) = r) :
          exec (.cmpImm d a c v) s = .next (s.afterA fun u => u.setP d r) :=
        exec_of_writeP (show exec _ s = execCmpImm d a c v s from rfl) hr rfl hq (by simp) hd
      simp only [List.mem_cons, List.not_mem_nil, or_false, Prod.mk.injEq] at hi
      obtain ⟨rfl, rfl⟩ | ⟨rfl, rfl⟩ | ⟨rfl, rfl⟩ | ⟨rfl, rfl⟩ | ⟨rfl, rfl⟩ | ⟨rfl, rfl⟩ := hi
      · exact himm heq
      · exact himm hne
      · exact himm hlt
      · exact himm hge
      · exact himm hltu
      · exact himm hgeu
    case register =>
      obtain ⟨heq, hne, hlt, hge, hltu, hgeu⟩ := compare_eq x y
      have hcmp {c : Cc} {r : Bool} (hr : compare c x y = r) : exec (.cmp d a b p c) s = .next (s.afterA fun u => u.setP d r) :=
        exec_of_writeP (show exec _ s = execCmp d a b p c s from rfl) hr hp hq (List.Subset.refl _) hd
      simp only [List.mem_cons, List.not_mem_nil, or_false, Prod.mk.injEq] at hi
      obtain ⟨rfl, rfl⟩ | ⟨rfl, rfl⟩ | ⟨rfl, rfl⟩ | ⟨rfl, rfl⟩ | ⟨rfl, rfl⟩ | ⟨rfl, rfl⟩ | ⟨rfl, rfl⟩ | ⟨rfl, rfl⟩ | ⟨rfl, rfl⟩ | ⟨rfl, rfl⟩ |
        ⟨rfl, rfl⟩ | ⟨rfl, rfl⟩ := hi
      · exact hcmp heq
      · exact hcmp hne
      · exact hcmp hlt
      · exact hcmp hge
      · exact hcmp hltu
      · exact hcmp hgeu
      · exact exec_of_writeP (show exec _ s = execPtest d a p s from rfl) (compare_eq x 0).2.1 hp hq (by simp) hd
      · exact exec_of_writeP (show exec _ s = execPand d e f p s from rfl) rfl hp hq (List.nil_subset _) hd
      · exact exec_of_writeP (show exec _ s = execPor d e f p s from rfl) rfl hp hq (List.nil_subset _) hd
      · exact exec_of_writeP (show exec _ s = execPxor d e f p s from rfl) rfl hp hq (List.nil_subset _) hd
      · exact exec_of_writeP (show exec _ s = execPandn d e f p s from rfl) rfl hp hq (List.nil_subset _) hd
      · exact exec_of_writeP (show exec _ s = execPnot d e p s from rfl) rfl hp hq (List.nil_subset _) hd

end

