-- ==== Sys2Proof/Proofs/DividesAndWideProducts.lean ====
section
/-! Divides and wide multiplies: the result written or pending, and the halves of a 128-bit product; O9 settled (R37, R41, R211 to R213). -/

namespace Sys2Proof.Machine

/-! ### Results of a C-slot instruction at a lookahead (R41, R211) -/

section
variable {s : State} {i : Instr} {la : BitVec 4} {d a : SReg} {b : RegLit} {r : Word} {dz : Bool}

/-- At a lookahead of 0 the result is in its register, and DZ in TSR, before the next slot. -/
theorem openWindow_zero_destS (s : State) (d : SReg) (r : Word) (act : Act) (dz lone : Bool) :
    (s.openWindow 0 (s.cur.destS d) (some [sval r]) act dz).afterC id lone =
      s.afterC (fun u => (if dz then { u with tsr := u.tsr ||| 0x80 } else u).setS d r) lone := by
  have hdest : (if dz then s.cur.raiseFlags { dz := true } else s.cur).destS d = s.cur.destS d := by cases dz <;> rfl
  have hopen : s.openWindow 0 (s.cur.destS d) (some [sval r]) act dz =
      s.setCur ((if dz then s.cur.raiseFlags { dz := true } else s.cur).setS d r) := by
    rw [← setKeys_destS, hdest]
    rfl
  rw [hopen]
  cases dz <;> rfl

/-- A divide of the value `r`, whose divisor is zero where `dz` holds. -/
theorem exec_divideOp {f : Word → Word → Word} {zero : Word → Bool} (hx : exec i s = s.divideOp la d a b f zero)
    (hq : s.Quiet (s.cur.keyS d :: s.cur.keyS a :: s.cur.operandKeys b)) (hd : s.cur.namedS d = false)
    (hr : f (s.cur.getS a) (s.cur.operand b) = r) (hz : zero (s.cur.operand b) = dz) :
    (la = 0 → exec i s = .next (s.afterC (fun u => (if dz then { u with tsr := u.tsr ||| 0x80 } else u).setS d r) (regLit b))) ∧
      exec i s = .next ((s.openWindow la (s.cur.destS d) (some [sval r]) .answer dz).afterC id (regLit b)) := by
  subst hr hz
  have hpending : exec i s = .next ((s.openWindow la (s.cur.destS d) (some [sval (f (s.cur.getS a) (s.cur.operand b))]) .answer
      (zero (s.cur.operand b))).afterC id (regLit b)) := by
    rw [hx, State.divideOp]
    exact issue_plain hq.1 rfl hq.2 hd _
  refine ⟨?_, hpending⟩
  rintro rfl
  rw [hpending, openWindow_zero_destS]

/-- A wide multiply whose product, as the model forms it, has the halves of `p`. -/
theorem exec_mulWide {f : Word → Word → Nat} {p : Int} (hx : exec i s = s.mulWide la d a b f)
    (hq : s.Quiet (s.cur.keyS d :: s.cur.keyS (d + 1) :: s.cur.keyS a :: s.cur.operandKeys b)) (hd : s.cur.namedS d = false)
    (hd' : s.cur.namedS (d + 1) = false) (h0 : d ≠ 0) (h31 : d ≠ 31)
    (hp : word (f (s.cur.getS a) (s.cur.operand b)) = BitVec.ofInt 64 p ∧
      word (f (s.cur.getS a) (s.cur.operand b) / 2 ^ 64) = BitVec.ofInt 64 (p / 2 ^ 64)) :
    exec i s = .next ((s.openWindow la [s.cur.keyS d, s.cur.keyS (d + 1)]
      (some [sval (BitVec.ofInt 64 p), sval (BitVec.ofInt 64 (p / 2 ^ 64))]) .answer).afterC id (regLit b)) := by
  obtain ⟨hlow, hhigh⟩ := hp
  rw [hx, State.mulWide, hlow, hhigh]
  exact issue_plain hq.1 (by rw [bne_iff_ne.2 h0, bne_iff_ne.2 h31, Bool.and_self]) hq.2 (by rw [hd, hd', Bool.or_self]) _

/-- s[d] and s[d + 1] are two registers other than s0. -/
theorem raises_mulWide {f : Word → Word → Nat} (hx : exec i s = s.mulWide la d a b f) (hp : tsrPp s.cur.tsr = false) (hd : d = 0 ∨ d = 31) :
    Raises i s (s.bundleTrap .illegalOperand) := by
  refine raises_of_exec ?_
  rw [hx, State.mulWide]
  refine issue_operand s _ _ hp nofun ?_
  rcases hd with rfl | rfl <;> rfl

end

/-! ### Halves of a product (R211) -/

theorem halves_of_nat (n : Nat) : word n = BitVec.ofInt 64 (n : Int) ∧ word (n / 2 ^ 64) = BitVec.ofInt 64 ((n : Int) / 2 ^ 64) :=
  ⟨rfl, rfl⟩

/-- The low 128 bits of a signed product have its halves. -/
theorem halves_of_int (p : Int) : word (p % 2 ^ 128).toNat = BitVec.ofInt 64 p ∧
    word ((p % 2 ^ 128).toNat / 2 ^ 64) = BitVec.ofInt 64 (p / 2 ^ 64) := by
  constructor
  · refine BitVec.eq_of_toNat_eq ?_
    rw [word, BitVec.toNat_ofNat, BitVec.toNat_ofInt]
    omega
  · refine BitVec.eq_of_toNat_eq ?_
    rw [word, BitVec.toNat_ofNat, BitVec.toNat_ofInt]
    omega

end Sys2Proof.Machine

open Sys2Proof Sys2Proof.Machine

/-- Settles O9: a divide is one result at its lookahead, a wide multiply the two halves of its product. -/
theorem divideAndWideMultiplyResults : Obligations.DivideAndWideMultiplyResults := by
  unfold Obligations.DivideAndWideMultiplyResults
  intro s la d a b x y lone lx ly keysB
  have hkeys : keysB = s.cur.operandKeys b := by cases b <;> rfl
  have hlone : lone = regLit b := by cases b <;> rfl
  clear_value keysB lone
  subst hkeys hlone
  refine ⟨fun hq hd i r dz hi => ?divides, fun hq hd hd' h0 h31 i p hi => ?products, fun hp hd => ⟨?mul2, ?mul2u⟩⟩
  case divides =>
    simp only [List.mem_cons, List.not_mem_nil, or_false, Prod.mk.injEq] at hi
    obtain ⟨rfl, rfl, rfl⟩ | ⟨rfl, rfl, rfl⟩ | ⟨rfl, rfl, rfl⟩ | ⟨rfl, rfl, rfl⟩ | ⟨rfl, rfl, rfl⟩ | ⟨rfl, rfl, rfl⟩ | ⟨rfl, rfl, rfl⟩ |
      ⟨rfl, rfl, rfl⟩ := hi
    · exact exec_divideOp (show exec _ s = execDiv la d a b s from rfl) hq hd rfl rfl
    · exact exec_divideOp (show exec _ s = execDivu la d a b s from rfl) hq hd rfl rfl
    · exact exec_divideOp (show exec _ s = execRem la d a b s from rfl) hq hd rfl rfl
    · exact exec_divideOp (show exec _ s = execRemu la d a b s from rfl) hq hd rfl rfl
    · exact exec_divideOp (show exec _ s = execDivw la d a b s from rfl) hq hd rfl rfl
    · exact exec_divideOp (show exec _ s = execDivuw la d a b s from rfl) hq hd rfl rfl
    · exact exec_divideOp (show exec _ s = execRemw la d a b s from rfl) hq hd rfl rfl
    · exact exec_divideOp (show exec _ s = execRemuw la d a b s from rfl) hq hd rfl rfl
  case products =>
    simp only [List.mem_cons, List.not_mem_nil, or_false, Prod.mk.injEq] at hi
    obtain ⟨rfl, rfl⟩ | ⟨rfl, rfl⟩ := hi
    · exact exec_mulWide (show exec _ s = execMul2 la d a b s from rfl) hq hd hd' h0 h31 (halves_of_int _)
    · exact exec_mulWide (show exec _ s = execMul2u la d a b s from rfl) hq hd hd' h0 h31 (halves_of_nat _)
  case mul2 => exact raises_mulWide (show exec _ s = execMul2 la d a b s from rfl) hp hd
  case mul2u => exact raises_mulWide (show exec _ s = execMul2u la d a b s from rfl) hp hd

end

