-- ==== Sys2Proof/Proofs/CommitsWithoutStores.lean ====
section
/-! The commit of a task that holds nothing: it ends in its turn, and where the next task begins; O22 settled (R218, R222, R224, R227, R316,
R321). -/

namespace Sys2Proof.Machine

/-! ### The position past an instruction (R37, R278) -/

section
variable (u : Unit)

theorem leaveGang_position : u.leaveGang.pc = u.pc ∧ u.leaveGang.npc = u.npc ∧ u.leaveGang.seq = u.seq := by
  unfold Unit.leaveGang
  split <;> exact ⟨rfl, rfl, rfl⟩

/-- The bundle that issues next is the first of the body, the one past it, or the one that npc names. -/
theorem nextBundle_pc : u.nextBundle.pc =
    if u.seq.active && !u.seq.held && u.pc == u.seq.start + word (8 * (u.seq.len - 1)) then
      if u.seq.idx + 1 < u.seq.trips then u.seq.start else u.seq.start + word (8 * u.seq.len)
    else u.npc := by
  obtain ⟨hpc, hnpc, hseq⟩ := leaveGang_position u
  unfold Unit.nextBundle
  simp only [hpc, hnpc, hseq]
  split
  · split <;> rfl
  · rfl

theorem nextBundle_aslot : u.nextBundle.aslot = false := by
  unfold Unit.nextBundle
  dsimp only
  split
  · split <;> rfl
  · rfl

end

/-! ### The next task (R218, R222, R224, R227) -/

section
variable {u : Unit} {c : Cont} {lone : Bool}

theorem nextTask_kept (hret : c ≠ .ret) (hbegin : ∀ ts m, c ≠ .tbegin ts m) : u.nextTask c = (u.task.tstamp, u.task.mask) := by
  cases c
  case ret => exact absurd rfl hret
  case tbegin ts m => exact absurd rfl (hbegin ts m)
  all_goals rfl

/-- A return keeps what its mask says of the global registers and of the other register files. -/
theorem nextTask_ret {j : Nat} (hj : j < 64) :
    (u.nextTask .ret).2.getLsbD j = (u.task.mask.getLsbD j && (decide (j < 8) || decide (32 ≤ j))) := by
  have hconst : ∀ i < 64, (0xFFFF_FFFF_0000_00FF : Word).getLsbD i = (decide (i < 8) || decide (32 ≤ i)) := by decide
  exact (BitVec.getLsbD_and ..).trans (congrArg (u.task.mask.getLsbD j && ·) (hconst j hj))

/-- A return, and a gang that waits, restart where the unit stands. -/
theorem nextRestart_here (h : c = .ret ∨ ∃ n, c = .gang n) : u.nextRestart c lone = (u.pc, u.aslot) := by
  rcases h with rfl | ⟨n, rfl⟩ <;> rfl

theorem nextRestart_past (hret : c ≠ .ret) (hgang : ∀ n, c ≠ .gang n) :
    u.nextRestart c lone = ((u.pastC lone).pc, (u.pastC lone).aslot) := by
  cases c
  case ret => exact absurd rfl hret
  case gang n => exact absurd rfl (hgang n)
  all_goals rfl

end

/-! ### A commit without a write set (R316, R319, R324) -/

/-- A unit meets no word of an empty signature. -/
theorem markBy_zero (u : Unit) : u.markBy 0 = u := by simp [Unit.markBy]

/-- Nothing of this task is to be performed, released or given back. -/
structure Unit.HoldsNothing (u : Unit) : Prop where
  ops : u.task.ops = []
  wsig : u.task.wsig = 0
  held : u.task.held = []
  locked : u.task.locked = []

section
variable {s : State} (h : s.cur.HoldsNothing) (c : Cont) (lone : Bool)
include h

theorem writeSig_nothing : writeSig s [] = 0 := h.wsig

/-- The lock step finds nothing to lock, and no unit whose reads it would meet. -/
theorem lockStep_nothing (hout : s.performsOut = false) :
    (s.translated []).lockStep c lone [] noExpiry = .ended ((s.shown c [] s.mem s.clusters).endCommit c lone) := by
  have hlate : ¬noExpiry ≤ (s.translated []).time.toNat := Nat.not_le.2 s.time.isLt
  have hkept : (s.translated []).cur.locksKept [] = true := by
    have hlocked : (s.translated []).cur.task.locked = [] := h.locked
    simp [Unit.locksKept, hlocked]
  have horder : (s.translated []).lockOrder [] = [] := rfl
  have hmarks : (fun u : Unit => !((s.translated []).scratchOnly [] && (s.translated []).cur.task.held.isEmpty) ||
    u.clusterId == (s.translated []).cur.clusterId) = s.marks [] := rfl
  have hsig : writeSig (s.translated []) [] = 0 := h.wsig
  have hreads (p : Unit → Bool) : (s.translated []).nonspecReads 0 p = false := by simp [State.nonspecReads]
  have hshown : ((s.translated []).makeVisible noExpiry [] (s.marks [])).visibleCont c = s.shown c [] s.mem s.clusters := by
    rw [makeVisible_eq (m := s.mem) (k := s.clusters) h.locked (by rfl), State.shown]
  have hdone : (s.shown c [] s.mem s.clusters).performsOut = false := performsOut_shown hout
  unfold State.lockStep
  simp only [hlate, hkept, horder, hmarks, hsig, hreads, hshown, hdone, State.takeLocks, List.any_nil, ite_self, Bool.not_true, Bool.or_self,
    Bool.and_false, decide_false, Bool.false_eq_true, if_false]

/-- The commit ends in its turn, and leaves a unit whose next task has begun, memory and the other units. -/
theorem commitsTo_nothing (hvisible : s.cur.visible = false) (hprepared : s.cur.prepared = none) (hts : s.timestampOk = true)
    (hacc : s.cur.accessBefore = false) (htime : c.notYet s.time = false) (hout : s.performsOut = false) :
    ∃ t, s.CommitsTo c lone t ∧ t.cur = (s.visibleCur []).afterCommit c lone ∧ t.mem = s.mem ∧ t.others = s.others := by
  have hp : s.prepare s.cur.task.ops = .ok s [] noExpiry := h.ops ▸ rfl
  have hends : s.CommitsTo c lone ((s.shown c [] s.mem s.clusters).endCommit c lone) := by
    unfold State.CommitsTo State.commitStep
    simp only [hvisible, hprepared, hp, hts, htime, hacc, Bool.not_true, Bool.or_self, Bool.false_eq_true, if_false]
    exact lockStep_nothing h c lone hout
  obtain ⟨k, hk, -⟩ := visibleCont_eq (s.visibleWith [] s.mem s.clusters) c
  rw [State.shown, hk] at hends
  have hlocked : ({ s.visibleWith [] s.mem s.clusters with clusters := k } : State).cur.task.locked = [] := rfl
  have hheld : ({ s.visibleWith [] s.mem s.clusters with clusters := k } : State).cur.task.held = [] := h.held
  refine ⟨_, hends, ?cur, ?mem, ?others⟩
  case cur =>
    rw [endCommit_cur hlocked, State.released, hheld]
    rfl
  case mem =>
    rw [endCommit_mem hlocked, State.released, hheld]
    rfl
  case others =>
    rw [endCommit_others hlocked, State.released, hheld]
    have hsame : (fun u : Unit => if s.marks [] u then u.markBy (writeSig s []) else u) = id := by
      funext u
      rw [writeSig_nothing h, markBy_zero, ite_self]
      rfl
    exact (congrArg (s.others.map ·) hsame).trans (List.map_id _)

end

/-- The position past an instruction is the same for a unit whose commit has become visible. -/
theorem pastC_visibleCur (s : State) : ((s.visibleCur []).pastC true).pc = (s.cur.pastC true).pc :=
  (nextBundle_pc (s.visibleCur [])).trans (nextBundle_pc s.cur).symm

end Sys2Proof.Machine

open Sys2Proof Sys2Proof.Machine

/-- Settles O22: nothing holds the commit up, and the next task is that of `Unit.afterCommit`. -/
theorem commitOfATaskWithoutStores : Obligations.CommitOfATaskWithoutStores := by
  unfold Obligations.CommitOfATaskWithoutStores
  intro s c lone hvisible hprepared hops _ hwsig hheld hlocked hts hacc htime _ hout
  obtain ⟨t, hends, hcur, hmem, hothers⟩ :=
    commitsTo_nothing ⟨hops, hwsig, hheld, hlocked⟩ c lone hvisible hprepared hts hacc (notYet_eq_false htime) hout
  refine ⟨t, hends, ?_⟩
  rw [hcur]
  refine ⟨rfl, rfl, rfl, rfl, rfl, ?tbegin, ?ret, ?kept, ?here, fun hret hgang => ?past, rfl, rfl, rfl, rfl, rfl, rfl, rfl, rfl, rfl, rfl,
    rfl, rfl, hmem, hothers⟩
  case tbegin =>
    rintro ts m rfl
    exact ⟨rfl, rfl⟩
  case ret =>
    rintro rfl
    exact ⟨rfl, fun j hj => nextTask_ret (u := s.visibleCur []) hj⟩
  case kept =>
    intro hret hbegin
    have hnext := nextTask_kept (u := s.visibleCur []) hret hbegin
    exact ⟨congrArg Prod.fst hnext, congrArg Prod.snd hnext⟩
  case here =>
    intro h
    have hnext := nextRestart_here (u := s.visibleCur []) (lone := lone) h
    exact ⟨congrArg Prod.fst hnext, congrArg Prod.snd hnext⟩
  case past =>
    have hnext := nextRestart_past (u := s.visibleCur []) (lone := lone) hret hgang
    constructor
    · rintro rfl
      exact ⟨congrArg Prod.fst hnext, congrArg Prod.snd hnext⟩
    · rintro rfl
      exact ⟨(congrArg Prod.fst hnext).trans (pastC_visibleCur s), (congrArg Prod.snd hnext).trans (nextBundle_aslot _)⟩

end

