-- ==== Sys2Proof/Proofs/TaskEndsAndSpawns.lean ====
section
/-! `tend`, `exit`, `tabort`, `tspawn` and `tstamp`: what a discard leaves of the task, and O24 settled (R226 to R231, R326 to R328). -/

namespace Sys2Proof.Machine

/-! ### A task discarded (R194, R198, R230) -/

/-- The state in which the pops of the task have returned to their queues, once what is ready has completed. -/
def State.popsUndone (s : State) : State :=
  s.cur.completeReady.task.popped.reverse.foldl (fun (t : State) (p : QReg × Nat × Elem) => t.undoPop p.1 p.2.1 p.2.2)
    (s.setCur s.cur.completeReady)

/-- A pop undone changes the unit in its own queues alone. -/
theorem undoPop_cur (s : State) (q : QReg) (stream : Nat) (e : Elem) :
    ∃ q6 q10, (s.undoPop q stream e).cur = { s.cur with q6, q10 } := by
  have hsame : ∀ t : State, t.cur = s.cur → ∃ q6 q10, t.cur = { s.cur with q6, q10 } := fun t h => ⟨_, _, h⟩
  unfold State.undoPop
  dsimp only
  split
  · split
    · exact hsame _ rfl
    · exact hsame _ rfl
  split
  · exact hsame _ rfl
  split
  · exact ⟨_, _, rfl⟩
  split
  · exact ⟨_, _, rfl⟩
  split
  · exact hsame _ rfl
  · exact hsame _ rfl

theorem foldl_undoPop_cur (l : List (QReg × Nat × Elem)) (s : State) : ∃ q6 q10,
    (l.foldl (fun (t : State) (p : QReg × Nat × Elem) => t.undoPop p.1 p.2.1 p.2.2) s).cur = { s.cur with q6, q10 } := by
  induction l generalizing s with
  | nil => exact ⟨_, _, rfl⟩
  | cons p l ih =>
    obtain ⟨q6, q10, hp⟩ := undoPop_cur s p.1 p.2.1 p.2.2
    obtain ⟨q6', q10', hl⟩ := ih (s.undoPop p.1 p.2.1 p.2.2)
    exact ⟨q6', q10', by rw [List.foldl_cons, hl, hp]⟩

theorem popsUndone_cur (s : State) : ∃ q6 q10, s.popsUndone.cur = { s.cur.completeReady with q6, q10 } :=
  foldl_undoPop_cur _ (s.setCur s.cur.completeReady)

section
variable (s : State)

theorem popsUndone_keeps : s.popsUndone.cur.task = s.cur.task ∧ s.popsUndone.cur.tid = s.cur.tid := by
  obtain ⟨q6, q10, h⟩ := popsUndone_cur s
  obtain ⟨w, pend, ⟨_, _, _, _, _, _, rfl, -, -⟩, hw⟩ := completeReady_eq s.cur
  rw [h, hw]
  exact ⟨rfl, rfl⟩

/-- The task as a discard leaves it. -/
def Task.emptied (t : Task) : Task :=
  { t with ops := [], held := [], popped := [], rsig := 0, wsig := 0, words := [], locked := [], nonspec := false }

theorem discard_task : s.discard.cur.task = s.cur.task.emptied :=
  show s.popsUndone.cur.task.emptied = _ by rw [(popsUndone_keeps s).1]

theorem discard_depth : s.discard.cur.depth = s.cur.task.startDepth :=
  show s.popsUndone.cur.task.startDepth = _ by rw [(popsUndone_keeps s).1]

theorem discard_wsp : s.discard.cur.wsp = s.cur.task.startWsp :=
  show s.popsUndone.cur.task.startWsp = _ by rw [(popsUndone_keeps s).1]

theorem discard_tid : s.discard.cur.tid = s.cur.tid := by
  simp only [State.discard, State.rewind]
  exact (popsUndone_keeps s).2

theorem discard_wait : s.discard.cur.wait = .run := rfl

theorem discard_tsr : s.discard.cur.tsr = tsrRestore s.popsUndone.cur.tsr s.cur.task.flags := by
  rw [← (popsUndone_keeps s).1]
  simp only [State.discard, State.rewind]
  rfl

/-- The restart point of the task stands, and nothing that it held or read does. -/
theorem discard_taskFields : s.discard.cur.task.restartPc = s.cur.task.restartPc ∧ s.discard.cur.task.restartA = s.cur.task.restartA ∧
    s.discard.cur.task.ops = [] ∧ s.discard.cur.task.held = [] ∧ s.discard.cur.task.popped = [] ∧ s.discard.cur.task.rsig = 0 := by
  rw [discard_task]
  exact ⟨rfl, rfl, rfl, rfl, rfl, rfl⟩

/-- TSR[8:1] as they were saved, and no formats pending. -/
theorem tsrRestore_fields (t : Word) (f : BitVec 8) : bits (tsrRestore t f) 8 1 = f.toNat ∧ tsrPp (tsrRestore t f) = false := by
  unfold tsrRestore tsrPp tsrSetPp
  constructor
  · rw [bits_setBits_other _ (by decide) (by decide) (by decide), bits_setBits_same _ (by decide) (by decide)]
    exact Nat.mod_eq_of_lt f.isLt
  · rw [getLsbD_setBits _ (by decide) _ (by decide), if_pos (by decide)]
    rfl

/-- The unit goes to the restart point of its task; its state stays. -/
theorem restart_position : s.restart.cur.pc = s.cur.task.restartPc ∧ s.restart.cur.npc = s.cur.task.restartPc + 8 ∧
    s.restart.cur.aslot = s.cur.task.restartA := ⟨rfl, rfl, rfl⟩

theorem restart_keeps : s.restart.cur.depth = s.cur.depth ∧ s.restart.cur.wsp = s.cur.wsp ∧ s.restart.cur.tsr = s.cur.tsr ∧
    s.restart.cur.task = s.cur.task ∧ s.restart.cur.tid = s.cur.tid ∧ s.restart.cur.wait = s.cur.wait := ⟨rfl, rfl, rfl, rfl, rfl, rfl⟩

end

/-! ### Ends and aborts (R230, R231, R328) -/

section
variable {s t : State} {i : Instr} (hp : tsrPp s.cur.tsr = false)
include hp

/-- An exit commits once every incomplete instruction is ready. -/
theorem exec_exitWith {srcs : List SReg} {code : BitVec 16} (hx : exec i s = s.exitWith srcs code)
    (ht : s.touches (srcs.map s.cur.keyS) = false) :
    (s.cur.allReady = true → (s.setCur s.cur.completeReady).CommitsTo (.exit code) false t →
      exec i s = .next (t.modCur fun u => { u with wait := .retire code false, turn := .waited })) ∧
    (s.cur.allReady = false → exec i s = .next s.waitTurn) := by
  have hexit : exec i s = if !s.cur.allReady then s.wait
      else (s.setCur s.cur.completeReady).withCommit (.exit code) false fun t => t.exitAct code := by
    rw [hx, State.exitWith]
    exact issue_plain hp rfl ht rfl _
  refine ⟨fun hr hc => ?ready, fun hr => ?waits⟩
  case ready =>
    rw [hexit, hr, withCommit_ended hc, State.exitAct, modCur_wait]
    rfl
  case waits =>
    rw [hexit, hr]
    rfl

theorem exec_tabort (h : s.cur.task.nonspec = false) : exec .tabort s = .next s.discard.restart := by
  have hx : exec .tabort s = execTabort s := rfl
  rw [hx, execTabort]
  exact issue_plain hp (by rw [h, Bool.not_false]) (touches_nil s) rfl _

theorem exec_tabortO (h : s.cur.task.nonspec = false) : exec .tabortO s = .next s.capacityEvent := by
  have hx : exec .tabortO s = execTabortO s := rfl
  rw [hx, execTabortO]
  exact issue_plain hp (by rw [h, Bool.not_false]) (touches_nil s) rfl _

/-- A non-speculative task is not aborted. -/
theorem raises_tabort (h : s.cur.task.nonspec = true) :
    Raises .tabort s (s.bundleTrap .illegalOperand) ∧ Raises .tabortO s (s.bundleTrap .illegalOperand) := by
  have hok : (!s.cur.task.nonspec) = false := by rw [h, Bool.not_true]
  have hx : exec .tabort s = execTabort s := rfl
  have hxo : exec .tabortO s = execTabortO s := rfl
  exact ⟨raises_of_exec (hx.trans (issue_operand s _ _ hp nofun hok)), raises_of_exec (hxo.trans (issue_operand s _ _ hp nofun hok))⟩

end

/-! ### Spawns and timestamps (R224, R228, R229, R326, R328) -/

/-- A timestamp that is too low, or too wide. -/
theorem stampOk_eq_false {u : Unit} {x : Word} (h : 2 ^ 32 ≤ x.toNat ∨ x.toNat < u.task.tstamp.toNat) : u.stampOk x = false := by
  have hx := x.isLt
  have hbits : bits x 63 32 = x.toNat / 2 ^ 32 := by
    rw [bits]
    omega
  simp only [Unit.stampOk, hbits, Bool.and_eq_false_iff, beq_eq_false_iff_ne, decide_eq_false_iff_not]
  omega

/-- A mask with a reserved bit. -/
theorem maskOk_eq_false {m : Word} (h : m.getLsbD 0 = true ∨ 2 ^ 62 ≤ m.toNat) : maskOk m = false := by
  have hm := m.isLt
  rcases h with h | h
  · simp [maskOk, h]
  · have hbits : bits m 63 62 ≠ 0 := by
      rw [bits]
      omega
    simp [maskOk, hbits]

/-- The record of a `tspawn`. -/
def Unit.spawnRec (u : Unit) (d a b : SReg) : SpawnRec :=
  { entry := u.getS a, ts := (u.getS b).truncate 32, mask := u.getS d, lo := ([1, 2, 3, 4, 5, 6, 7] : List SReg).map u.getS,
    out := ([24, 25, 26, 27, 28, 29, 30, 31] : List SReg).map u.getS }

section
variable {s : State} {d a b : SReg} (hp : tsrPp s.cur.tsr = false)
include hp

theorem exec_tspawn (ht : s.touches (s.cur.keysS [d, a, b, 24, 25, 26, 27, 28, 29, 30, 31, 1, 2, 3, 4, 5, 6, 7]) = false)
    (hts : s.cur.stampOk (s.cur.getS b) = true) (hm : maskOk (s.cur.getS d) = true) (he : (s.cur.getS a).toNat % 8 = 0)
    (he' : (s.cur.getS a).toNat < 2 ^ 56) :
    exec (.tspawn d a b) s = s.holdRoom fun t => (t.hold (.spawn (s.cur.spawnRec d a b))).doneC := by
  have hx : exec (.tspawn d a b) s = execTspawn d a b s := rfl
  have halign : bits (s.cur.getS a) 2 0 = 0 := (congrArg (· % 8) (Nat.div_one _)).trans he
  rw [hx, execTspawn]
  refine issue_clear s _ _ hp nofun (by rw [hts, hm]; rfl) ht ?_ rfl
  simp [rangeCheck, halign, bits_eq_zero_of_lt he']

theorem raises_tspawn (h : 2 ^ 32 ≤ (s.cur.getS b).toNat ∨ (s.cur.getS b).toNat < s.cur.task.tstamp.toNat ∨
    (s.cur.getS d).getLsbD 0 = true ∨ 2 ^ 62 ≤ (s.cur.getS d).toNat) :
    Raises (.tspawn d a b) s (s.bundleTrap .illegalOperand) := by
  have hx : exec (.tspawn d a b) s = execTspawn d a b s := rfl
  have hok : (s.cur.stampOk (s.cur.getS b) && maskOk (s.cur.getS d)) = false := by
    rw [Bool.and_eq_false_iff]
    rcases or_assoc.2 h with h | h
    · exact .inl (stampOk_eq_false h)
    · exact .inr (maskOk_eq_false h)
  refine raises_of_exec ?_
  rw [hx, execTspawn]
  exact issue_operand s _ _ hp nofun hok

theorem exec_tstamp (ht : s.touches [s.cur.keyS d] = false) (hd : s.cur.namedS d = false) :
    exec (.tstamp d) s = .next (s.afterC fun u => u.setS d (word (s.lowest s.cur.loc.die s.cur.launch))) := by
  have hx : exec (.tstamp d) s = execTstamp d s := rfl
  rw [hx, execTstamp, State.resultC]
  exact issue_plain hp rfl ht hd _

end

/-- With 64 items held nothing more is held. -/
theorem holdRoom_full {s : State} (h : 64 ≤ s.cur.task.held.length) (k : State → Out) :
    s.holdRoom k = if s.cur.task.nonspec then s.raise (s.bundleTrap .capacity) else .next s.capacityEvent := if_neg (Nat.not_lt.2 h)

end Sys2Proof.Machine

open Sys2Proof Sys2Proof.Machine

/-- Settles O24: the ends through their commit, the aborts through the discard, and a spawn through the room for its record. -/
theorem taskEndsAbortsSpawnsAndStamps : Obligations.TaskEndsAbortsSpawnsAndStamps := by
  unfold Obligations.TaskEndsAbortsSpawnsAndStamps
  refine ⟨fun s t a hp => ⟨fun i code ks hi ht => ?ends, fun hn => ⟨s.discard.restart, exec_tabort hp hn, ?aborts⟩, raises_tabort hp⟩,
    fun s d a b hp => ?spawns⟩
  case ends =>
    simp only [List.mem_cons, List.not_mem_nil, or_false, Prod.mk.injEq] at hi
    obtain ⟨rfl, rfl, rfl⟩ | ⟨rfl, rfl, rfl⟩ := hi
    · exact exec_exitWith hp (show exec _ s = execTend s from rfl) ht
    · exact exec_exitWith hp (show exec _ s = execExit a s from rfl) ht
  case aborts =>
    obtain ⟨hflags, hpp⟩ := tsrRestore_fields s.popsUndone.cur.tsr s.cur.task.flags
    rw [← discard_tsr] at hflags hpp
    obtain ⟨hrestartPc, hrestartA, hops, hheld, hpopped, hrsig⟩ := discard_taskFields s
    obtain ⟨hpc, hnpc, haslot⟩ := restart_position s.discard
    obtain ⟨hdepth, hwsp, htsr, htask, htid, hwait⟩ := restart_keeps s.discard
    rw [hpc, hnpc, haslot, hdepth, hwsp, htsr, htask, htid, hwait, hrestartPc, hrestartA, restart_mem]
    exact ⟨exec_tabortO hp hn, rfl, rfl, rfl, discard_depth s, discard_wsp s, hflags, hpp, hops, hheld, hpopped, hrsig, discard_tid s,
      discard_wait s, discard_mem s⟩
  case spawns =>
    intro e ts m r
    refine ⟨fun ht hts hts' hm hm' he he' => ?record, raises_tspawn hp, exec_tstamp hp⟩
    have hx := exec_tspawn hp ht (stampOk_of_le hts hts') (maskOk_of_lt hm hm') he he'
    refine ⟨fun h => hx.trans (holdRoom_free h _), fun h hn => ?speculative, fun h hn => ?nonspeculative⟩
    case speculative =>
      rw [hx, holdRoom_full h, hn]
      rfl
    case nonspeculative =>
      refine raises_of_exec ?_
      rw [hx, holdRoom_full h, hn]
      rfl

end

