-- ==== Sys2Proof/Proofs/TernaryVectors.lean ====
section
/-! Ternary vectors: bytes and their trits, the bytes of a part of a register, and what `vtunpack` and `vtpack` write; O44 settled (R244,
R274, R275). -/

namespace Sys2Proof.Machine

/-! ### Vector destinations (R254) -/

section
variable {s : State} {d : VReg} {srcs : List VReg} (x : State → VWord × Flags) {ok : Bool}

theorem writeV_quiet (hok : ok = true) (hq : s.Quiet (vkeys (d :: srcs))) (hd : s.cur.namedV d = false) :
    s.writeV d srcs x { ok } = .next (s.afterA fun u => (u.setV d (x s).1).raiseFlags (x s).2) :=
  issue_clear s _ _ hq.1 nofun hok (quiet_sub hq (by simp)).2 rfl hd

theorem writeV_illegal (hok : ok = false) (hp : tsrPp s.cur.tsr = false) : s.writeV d srcs x { ok } = s.raise (s.bundleTrap .illegalOperand) :=
  issue_operand s _ _ hp nofun hok

end

/-! ### Bytes and elements of a register (R190, R241) -/

theorem lane_packElems {w j : Nat} {l : List Nat} (hl : w * l.length ≤ 1024) :
    lane (BitVec.ofNat 1024 (packElems w l)) w j = l.getD j 0 % 2 ^ w := by
  rw [lane_eq_extract, extract_packElems hl, BitVec.toNat_ofNat]

/-- The bytes of a register from byte `m` on. -/
theorem bytesOf_register (v : VWord) (n m : Nat) :
    bytesOf n (v.toNat / 2 ^ (8 * m)) = (List.range n).map fun j => BitVec.ofNat 8 (lane v 8 (m + j)) := by
  rw [bytesOf_eq_map_range]
  refine List.map_congr_left fun j _ => BitVec.eq_of_toNat_eq ?_
  have hpow : 2 ^ (8 * m) * 256 ^ j = 2 ^ (8 * (m + j)) := by
    rw [Nat.mul_add, Nat.pow_add, Nat.pow_mul 2 8 j]
  rw [Nat.div_div_eq_div_mul, hpow, BitVec.toNat_ofNat, BitVec.toNat_ofNat, lane, elemAt, Nat.mod_mod]

theorem intValue_lane {w : Nat} (hw : 0 < w) (v : VWord) (j : Nat) : intValue w true (lane v w j) = (BitVec.ofNat w (lane v w j)).toInt := by
  rw [lane_eq_extract, intValue_toNat hw, BitVec.ofNat_toNat, BitVec.setWidth_eq]

/-- A part of a register replaced leaves the other bits alone. -/
theorem getLsbD_putPart (x : VWord) (lo v : Nat) {n j : Nat} (hn : 0 < n) (hj : j < 1024) :
    (putPart x lo n v).getLsbD j = if lo ≤ j ∧ j < lo + n then v.testBit (j - lo) else x.getLsbD j := by
  have hwidth : lo + n - 1 + 1 - lo = n := by omega
  have hb : (putPart x lo n v).getLsbD j = _ := BitVec.getLsbD_ofNat ..
  rw [hb, decide_eq_true hj, Bool.true_and, bits, hwidth, testBit_replaced]
  rfl

/-- A byte of a part of a register of whole bytes. -/
theorem lane_putPart (x : VWord) (v : Nat) {m n j : Nat} (hj : j < n) (hmn : 8 * (m + n) ≤ 1024) :
    lane (putPart x (8 * m) (8 * n) v) 8 (m + j) = v / 2 ^ (8 * j) % 2 ^ 8 := by
  refine Nat.eq_of_testBit_eq fun i => ?_
  rw [lane, elemAt, Nat.testBit_mod_two_pow, Nat.testBit_mod_two_pow, Nat.testBit_div_two_pow, Nat.testBit_div_two_pow]
  by_cases hi : i < 8
  · have hbit : (putPart x (8 * m) (8 * n) v).toNat.testBit (i + 8 * (m + j)) = _ := getLsbD_putPart x (8 * m) v (by omega) (by omega)
    rw [hbit, if_pos (by omega), show i + 8 * (m + j) - 8 * m = i + 8 * j by omega]
  · rw [decide_eq_false hi, Bool.false_and, Bool.false_and]

/-- The chunks of `k` times `n` elements that a function lists. -/
theorem chunksOf_map_range {α : Type} {n : Nat} (hn : 0 < n) (k : Nat) (g : Nat → α) :
    chunksOf n k ((List.range (n * k)).map g) = (List.range k).map fun i => (List.range n).map fun l => g (n * i + l) := by
  induction k generalizing g with
  | zero => rfl
  | succ k ih =>
    have hsplit : (List.range (n * (k + 1))).map g = (List.range n).map g ++ (List.range (n * k)).map fun l => g (n + l) := by
      rw [Nat.mul_succ, Nat.add_comm, List.range_add, List.map_append, List.map_map]
      rfl
    have hlen : ((List.range n).map g).length = n := by simp
    have hne : ((List.range (n * (k + 1))).map g).isEmpty = false := by
      rw [List.isEmpty_eq_false_iff, ← List.length_pos_iff, List.length_map, List.length_range]
      positivity
    rw [chunksOf, hne, if_neg Bool.false_ne_true, hsplit, List.take_left' hlen, List.drop_left' hlen, ih, List.range_succ_eq_map,
      List.map_cons, List.map_map]
    refine congrArg₂ List.cons (by simp) (List.map_congr_left fun i _ => ?_)
    simp [Nat.mul_succ, Nat.add_assoc, Nat.add_left_comm]

/-! ### Trits (R244) -/

theorem length_of_tritsOf {b : Nat} {l : List Int} (h : tritsOf b = some l) : l.length = 5 := by
  unfold tritsOf at h
  split at h
  · cases h
  · cases h
    rfl

/-- Five trits for each byte, legal or not. -/
theorem length_unpackTrits (l : List Byte) : (unpackTrits l).1.length = 5 * l.length := by
  have hbyte : ∀ b : Byte, ((tritsOf b.toNat).getD (List.replicate 5 0)).length = 5 := by
    intro b
    cases h : tritsOf b.toNat with
    | none => rfl
    | some t => exact length_of_tritsOf h
  simp only [unpackTrits, List.length_flatMap, hbyte, List.map_const', List.sum_replicate, smul_eq_mul, Nat.mul_comm]

theorem byteOfTrits_lt {l : List Int} (h : ∀ t ∈ l, -1 ≤ t ∧ t ≤ 1) : byteOfTrits l < 3 ^ l.length := by
  induction l with
  | nil => simp [byteOfTrits]
  | cons t l ih =>
    have htail := ih fun x hx => h x (List.mem_cons_of_mem t hx)
    obtain ⟨hlo, hhi⟩ := h t List.mem_cons_self
    rw [byteOfTrits, List.length_cons, Nat.pow_succ]
    split <;> omega

theorem clamp_trit (i : Int) : -1 ≤ clamp (-1) 1 i ∧ clamp (-1) 1 i ≤ 1 := by
  unfold clamp
  split
  · decide
  · split <;> omega

/-! ### Trits as elements (R274) -/

/-- The elements of a format fill no more than a register, and come five to a byte. -/
theorem ttypeCount_fits (f : TType) : fmtWidth (ttypeFmt f) * ttypeCount f ≤ 1024 ∧ 5 * (ttypeCount f / 5) = ttypeCount f := by
  cases f <;> decide

/-- The trits of part `p` of a register, as many as a register holds elements of the format (R274). -/
def tritsOfPart (f : TType) (v : VWord) (p : Nat) : List Int × Flags :=
  unpackTrits ((List.range (ttypeCount f / 5)).map fun j => BitVec.ofNat 8 (lane v 8 (ttypeCount f / 5 * p + j)))

/-- The encoding of a trit in a format. -/
def encodeTrit (f : TType) (t : Int) : Nat := (convertTo (ttypeFmt f) .rne false (.int t)).1

/-- The register that holds trits as elements of a format, from element 0 on. -/
def ternaryWord (f : TType) (l : List Int) : VWord := BitVec.ofNat 1024 (packElems (fmtWidth (ttypeFmt f)) (l.map (encodeTrit f)))

theorem length_tritsOfPart (f : TType) (v : VWord) (p : Nat) : (tritsOfPart f v p).1.length = ttypeCount f := by
  rw [tritsOfPart, length_unpackTrits, List.length_map, List.length_range, (ttypeCount_fits f).2]

theorem lane_ternaryWord {f : TType} {l : List Int} (hl : l.length = ttypeCount f) {j : Nat} (hj : j < ttypeCount f) :
    lane (ternaryWord f l) (fmtWidth (ttypeFmt f)) j = encodeTrit f (l.getD j 0) % 2 ^ fmtWidth (ttypeFmt f) := by
  have hjl : j < l.length := hl.symm ▸ hj
  rw [ternaryWord, lane_packElems (by rw [List.length_map, hl]; exact (ttypeCount_fits f).1)]
  simp [List.getD_eq_getElem?_getD, hjl]

/-! ### Elements as trits (R275) -/

/-- Bits of an element that `vtpack` reads. -/
def tpackWidth (t : TPack) : Nat := if t = .i8 then 8 else 2

theorem tpackWidth_pos (t : TPack) : 0 < tpackWidth t := by
  cases t <;> decide

/-- The integer in element `j` of a register (R275). -/
def tpackValue (t : TPack) (v : VWord) (j : Nat) : Int := (BitVec.ofNat (tpackWidth t) (lane v (tpackWidth t) j)).toInt

/-- The integers that `vtpack` reads, as `execVtpack` lists them. -/
def tpackElems (t : TPack) (v : VWord) : List Int := (upTo 125).map fun j => intValue (tpackWidth t) true (lane v (tpackWidth t) j)

theorem tpackElems_eq (t : TPack) (v : VWord) : tpackElems t v = (List.range (5 * 25)).map (tpackValue t v) :=
  List.map_congr_left fun j _ => intValue_lane (tpackWidth_pos t) v j

/-- Byte `j` of a packed part: five clamped elements. -/
def tpackByte (t : TPack) (v : VWord) (j : Nat) : Nat := byteOfTrits ((List.range 5).map fun l => clamp (-1) 1 (tpackValue t v (5 * j + l)))

/-- The register `old` with part `p` replaced by the bytes of the 125 elements of `v`. -/
def tpackWord (t : TPack) (old v : VWord) (p : Nat) : VWord :=
  putPart old (8 * (25 * p)) (8 * 25) (packElems 8 ((List.range 25).map (tpackByte t v)))

theorem tpackByte_lt (t : TPack) (v : VWord) (j : Nat) : tpackByte t v j < 2 ^ 8 := by
  refine lt_of_lt_of_le (byteOfTrits_lt fun x hx => ?_) (by simp)
  obtain ⟨l, -, rfl⟩ := List.mem_map.1 hx
  exact clamp_trit _

theorem lane_tpackWord (t : TPack) (old v : VWord) {p j : Nat} (hp : p < 5) (hj : j < 25) :
    lane (tpackWord t old v p) 8 (25 * p + j) = tpackByte t v j := by
  have hbyte : ((List.range 25).map (tpackByte t v)).getD j 0 = tpackByte t v j := by simp [List.getD_eq_getElem?_getD, hj]
  rw [tpackWord, lane_putPart _ _ hj (by omega), elem_packElems, hbyte, Nat.mod_eq_of_lt (tpackByte_lt t v j)]

theorem getLsbD_tpackWord_other (t : TPack) (old v : VWord) {p j : Nat} (hj : j < 1024) (ho : j < 200 * p ∨ 200 * p + 200 ≤ j) :
    (tpackWord t old v p).getLsbD j = old.getLsbD j := by
  rw [tpackWord, getLsbD_putPart _ _ _ (by decide) hj, if_neg (by omega)]

/-! ### The instructions (R274, R275) -/

section
variable {s : State} {d a : VReg} {p : BitVec 5}

theorem exec_vtunpack_eq (f : TType) : exec (.vtunpack d a p f) s = s.writeV d [a]
    (fun _ => (ternaryWord f (tritsOfPart f (s.cur.getV a) p.toNat).1, (tritsOfPart f (s.cur.getV a) p.toNat).2))
    { ok := decide (p.toNat < ttypeParts f) } := by
  have hx : exec (.vtunpack d a p f) s = execVtunpack d a p f s := rfl
  rw [hx, execVtunpack, Nat.mul_assoc, bytesOf_register]
  rfl

theorem exec_vtpack_eq (t : TPack) : exec (.vtpack d a p t) s = s.writeV d [a]
    (fun z => (tpackWord t (z.cur.getV d) (s.cur.getV a) p.toNat,
      { nv := (List.range 125).any fun j => tpackValue t (s.cur.getV a) j < -1 || 1 < tpackValue t (s.cur.getV a) j }))
    { ok := decide (p.toNat < 5) } := by
  have hread : exec (.vtpack d a p t) s = s.writeV d [a]
      (fun z => (putPart (z.cur.getV d) (200 * p.toNat) 200
          (packElems 8 ((chunksOf 5 25 ((tpackElems t (s.cur.getV a)).map (clamp (-1) 1))).map byteOfTrits)),
        { nv := (tpackElems t (s.cur.getV a)).any fun v => decide (v < -1 ∨ 1 < v) }))
      { ok := decide (p.toNat < 5) } := by
    cases t <;> rfl
  have hbytes : (chunksOf 5 25 ((tpackElems t (s.cur.getV a)).map (clamp (-1) 1))).map byteOfTrits =
      (List.range 25).map (tpackByte t (s.cur.getV a)) := by
    rw [tpackElems_eq, List.map_map, chunksOf_map_range (by decide), List.map_map]
    rfl
  have hclamped : ((tpackElems t (s.cur.getV a)).any fun v => decide (v < -1 ∨ 1 < v)) =
      (List.range 125).any fun j => tpackValue t (s.cur.getV a) j < -1 || 1 < tpackValue t (s.cur.getV a) j := by
    simp only [tpackElems_eq, List.any_map, Function.comp_def, Bool.decide_or]
  have hlo : 200 * p.toNat = 8 * (25 * p.toNat) := by omega
  rw [hread, hbytes, hclamped, hlo]
  rfl

end

end Sys2Proof.Machine

open Sys2Proof Sys2Proof.Machine

/-- Settles O44: each of the two writes a whole register, which is read back element by element and bit by bit. -/
theorem ternaryUnpackAndPackResults : Obligations.TernaryUnpackAndPackResults := by
  unfold Obligations.TernaryUnpackAndPackResults
  intro s d a p f t hq hd
  refine ⟨fun hp => ⟨ternaryWord f (tritsOfPart f (s.cur.getV a) p.toNat).1, ?unpacks, fun j hj => ?element⟩,
    fun hp => ⟨tpackWord t (s.cur.getV d) (s.cur.getV a) p.toNat, ?packs, fun j hj => ?byte, fun j hj ho => ?other⟩,
    fun hp => ?noUnpack, fun hp => ?noPack⟩
  case unpacks => exact (exec_vtunpack_eq f).trans (writeV_quiet _ (decide_eq_true hp) hq hd)
  case element => exact lane_ternaryWord (length_tritsOfPart f _ _) hj
  case packs => exact (exec_vtpack_eq t).trans (writeV_quiet _ (decide_eq_true hp) hq hd)
  case byte => exact lane_tpackWord t _ _ hp hj
  case other => exact getLsbD_tpackWord_other t _ _ hj ho
  case noUnpack =>
    exact raises_of_exec ((exec_vtunpack_eq f).trans (writeV_illegal _ (decide_eq_false (Nat.not_lt.2 hp)) hq.1))
  case noPack =>
    exact raises_of_exec ((exec_vtpack_eq t).trans (writeV_illegal _ (decide_eq_false (Nat.not_lt.2 hp)) hq.1))

end

