-- ==== Sys2Proof/Proofs/VectorPermutes.lean ====
section
/-! Permutes, merges, broadcasts, inserts and extracts: where each element of the destination comes from, and O38 settled (R271 to R273). -/

namespace Sys2Proof.Machine

/-! ### Elements and indices (R190, R273) -/

theorem ofNat_lane (v : VWord) (w j : Nat) : BitVec.ofNat w (lane v w j) = v.extractLsb' (w * j) w := by
  rw [lane_eq_extract, elem_keep]

/-- An element of a register that is listed from element 0 on. -/
theorem extract_lanes {w n j : Nat} (f : Nat → Nat) (hn : w * n ≤ 1024) (hj : j < n) :
    (lanes w n f).extractLsb' (w * j) w = BitVec.ofNat w (f j) := by
  unfold lanes
  rw [extract_packElems (by simpa [upTo] using hn)]
  simp [upTo, List.getD_eq_getElem?_getD, hj]

theorem ofNat_lane_ite {p : Prop} [Decidable p] {v u : VWord} {w i j : Nat} :
    BitVec.ofNat w (if p then lane v w i else lane u w j) = if p then v.extractLsb' (w * i) w else u.extractLsb' (w * j) w := by
  rw [apply_ite (BitVec.ofNat w), ofNat_lane, ofNat_lane]

theorem indexOk_iff {i : Word} {w : Nat} : indexOk i w = true ↔ i.toNat < 1024 / w := decide_eq_true_iff

theorem word_toNat {w : Nat} (e : BitVec w) : word e.toNat = e.zeroExtend 64 := by
  refine BitVec.eq_of_toNat_eq ?_
  rw [word, BitVec.toNat_ofNat, BitVec.toNat_setWidth]

theorem wordI_toInt {w : Nat} (e : BitVec w) : wordI e.toInt = e.signExtend 64 := rfl

/-! ### Vector and scalar destinations with scalar operands (R41, R254) -/

section
variable {s : State} {srcs : List VReg} {ks : List RegKey} {ok : Bool}

theorem writeV_operands {d : VReg} (x : State → VWord × Flags) (hok : ok = true) (hq : s.Quiet (vkeys (d :: srcs) ++ ks))
    (hd : s.cur.namedV d = false) :
    s.writeV d srcs x { touch := ks, ok } = .next (s.afterA fun u => (u.setV d (x s).1).raiseFlags (x s).2) :=
  issue_clear s _ _ hq.1 nofun hok hq.2 rfl hd

theorem writeV_noFlags {d : VReg} (x : State → VWord) (hok : ok = true) (hq : s.Quiet (vkeys (d :: srcs) ++ ks))
    (hd : s.cur.namedV d = false) :
    s.writeV d srcs (fun t => (x t, {})) { touch := ks, ok } = .next (s.afterA fun u => u.setV d (x s)) := by
  rw [writeV_operands _ hok hq hd]
  simp only [raiseFlags_none]

theorem writeSV_operands {d : SReg} (x : State → Word) (hok : ok = true) (hq : s.Quiet (s.cur.keyS d :: vkeys srcs ++ ks))
    (hd : s.cur.namedS d = false) : s.writeSV d srcs x { touch := ks, ok } = .next (s.afterA fun u => u.setS d (x s)) :=
  issue_clear s _ _ hq.1 nofun hok hq.2 rfl hd

section
variable (hok : ok = false) (hp : tsrPp s.cur.tsr = false)
include hok hp

theorem writeV_refused (d : VReg) (x : State → VWord × Flags) :
    s.writeV d srcs x { touch := ks, ok } = s.raise (s.bundleTrap .illegalOperand) :=
  issue_operand s _ _ hp nofun hok

theorem writeSV_refused (d : SReg) (x : State → Word) :
    s.writeSV d srcs x { touch := ks, ok } = s.raise (s.bundleTrap .illegalOperand) :=
  issue_operand s _ _ hp nofun hok

end

end

/-! ### Masked writes (R254, R271) -/

section
variable {s : State} {d : VReg} {k : KReg} {w : Nat}

/-- A masked write without flags, its elements given as bit vectors. -/
theorem masked_write {srcs : List VReg} {ks : List RegKey} {i : Instr} {f : State → Nat → Nat} {g : Nat → BitVec w}
    (hx : exec i s =
      s.writeV d srcs (fun t => maskedLanes (t.cur.getK k) w (1024 / w) (t.cur.getV d) fun j => (f t j, {})) { touch := ks })
    (hq : s.Quiet (vkeys (d :: srcs) ++ ks)) (hd : s.cur.namedV d = false) (hf : ∀ j, BitVec.ofNat w (f s j) = g j) :
    ∃ v : VWord, exec i s = .next (s.afterA fun u => u.setV d v) ∧
      ∀ j, j < 1024 / w → v.extractLsb' (w * j) w =
        if (s.cur.getK k).getLsbD (w * j / 8) then g j else (s.cur.getV d).extractLsb' (w * j) w := by
  refine ⟨(maskedLanes (s.cur.getK k) w (1024 / w) (s.cur.getV d) fun j => (f s j, {})).1, ?_, fun j hj => ?_⟩
  · rw [hx, writeV_operands _ rfl hq hd]
    simp only [maskedLanes_flags, raiseFlags_none]
  · rw [extract_maskedLanes _ _ _ (Nat.mul_div_le _ _) hj, hf]

/-- A permute that nothing stops, the element of the result given as a bit vector. -/
theorem perm_lanes {a b : VReg} {i : Instr} {z : ESize} {f : Nat → (Nat → Nat) → (Nat → Nat) → (Nat → Nat) → Nat → Nat}
    {g : Nat → BitVec w} (hx : exec i s = s.perm f d a b k z) (hz : ESize.bitsOf z = w) (hq : s.Quiet (vkeys [d, a, b]))
    (hd : s.cur.namedV d = false)
    (hf : ∀ j, BitVec.ofNat w (f (1024 / w) (lane (s.cur.getV a) w) (lane (s.cur.getV b) w) (lane (s.cur.getV d) w) j) = g j) :
    ∃ v : VWord, exec i s = .next (s.afterA fun u => u.setV d v) ∧
      ∀ j, j < 1024 / w → v.extractLsb' (w * j) w =
        if (s.cur.getK k).getLsbD (w * j / 8) then g j else (s.cur.getV d).extractLsb' (w * j) w := by
  subst hz
  exact masked_write (ks := []) (srcs := [a, b]) (f := fun _ => _) hx hq hd hf

end

/-! ### Merge, insert and extract (R272, R273) -/

section
variable {s : State} {d a b : VReg} {k : KReg} {z : ESize} {w : Nat} {r t : SReg} (hz : ESize.bitsOf z = w)
include hz

theorem exec_vmerge (hq : s.Quiet (vkeys [d, a, b])) (hd : s.cur.namedV d = false) :
    exec (.vmerge d a b k z) s = .next (s.afterA fun u => u.setV d (lanes w (1024 / w) fun j =>
      if laneOn (s.cur.getK k) w j then lane (s.cur.getV a) w j else lane (s.cur.getV b) w j)) := by
  subst hz
  have hx : exec (.vmerge d a b k z) s = execVmerge d a b k z s := rfl
  rw [hx, execVmerge]
  exact writeV_noFlags (ks := []) _ rfl hq hd

theorem exec_vins (hi : (s.cur.getS t).toNat < 1024 / w) (hq : s.Quiet (vkeys [d] ++ s.cur.keysS [r, t])) (hd : s.cur.namedV d = false) :
    exec (.vins d r t z) s = .next (s.afterA fun u => u.setV d (lanes w (1024 / w) fun j =>
      if j = (s.cur.getS t).toNat then (s.cur.getS r).toNat else lane (s.cur.getV d) w j)) := by
  subst hz
  have hx : exec (.vins d r t z) s = execVins d r t z s := rfl
  rw [hx, execVins]
  exact writeV_noFlags _ (indexOk_iff.2 hi) hq hd

theorem exec_vext (hi : (s.cur.getS t).toNat < 1024 / w) (hq : s.Quiet (s.cur.keyS r :: vkeys [a] ++ [s.cur.keyS t]))
    (hd : s.cur.namedS r = false) :
    exec (.vext r a t z) s = .next (s.afterA fun u => u.setS r (word (lane (s.cur.getV a) w (s.cur.getS t).toNat))) := by
  subst hz
  have hx : exec (.vext r a t z) s = execVext r a t z s := rfl
  rw [hx, execVext]
  exact writeSV_operands _ (indexOk_iff.2 hi) hq hd

theorem exec_vexts (hi : (s.cur.getS t).toNat < 1024 / w) (hq : s.Quiet (s.cur.keyS r :: vkeys [a] ++ [s.cur.keyS t]))
    (hd : s.cur.namedS r = false) :
    exec (.vexts r a t z) s = .next (s.afterA fun u => u.setS r (wordI (sgn w (lane (s.cur.getV a) w (s.cur.getS t).toNat)))) := by
  subst hz
  have hx : exec (.vexts r a t z) s = execVexts r a t z s := rfl
  rw [hx, execVexts]
  exact writeSV_operands _ (indexOk_iff.2 hi) hq hd

/-- An index of the element count or more is illegal (R273). -/
theorem index_refused (hp : tsrPp s.cur.tsr = false) (hi : 1024 / w ≤ (s.cur.getS t).toNat) :
    exec (.vins d r t z) s = s.raise (s.bundleTrap .illegalOperand) ∧
      exec (.vext r a t z) s = s.raise (s.bundleTrap .illegalOperand) ∧ exec (.vexts r a t z) s = s.raise (s.bundleTrap .illegalOperand) := by
  subst hz
  have hbad : indexOk (s.cur.getS t) (ESize.bitsOf z) = false := decide_eq_false (Nat.not_lt.2 hi)
  have hins : exec (.vins d r t z) s = execVins d r t z s := rfl
  have hext : exec (.vext r a t z) s = execVext r a t z s := rfl
  have hexts : exec (.vexts r a t z) s = execVexts r a t z s := rfl
  rw [hins, hext, hexts, execVins, execVext, execVexts]
  exact ⟨writeV_refused hbad hp d _, writeSV_refused hbad hp r _, writeSV_refused hbad hp r _⟩

end

end Sys2Proof.Machine

open Sys2Proof Sys2Proof.Machine

/-- Settles O38: a permute is one masked write whose elements are those of its sources; the others write their destination whole. -/
theorem vectorPermutesAndMoves : Obligations.VectorPermutesAndMoves := by
  unfold Obligations.VectorPermutesAndMoves
  intro s d a b k z w c r t hw n el va vb vd on index
  obtain ⟨hz, hpos⟩ := bitsOf_of_mem hw
  have hfit : w * n ≤ 1024 := Nat.mul_div_le _ _
  refine ⟨fun hq hd => ⟨fun i f hi => ?permutes, ?merge, fun hindex => ?insert⟩, fun hq hd hindex => ?extracts, fun hp hindex => ?indices⟩
  case permutes =>
    have hqab : s.Quiet (vkeys [d, a, b]) := quiet_sub hq (by simp [vkeys])
    have hqaa : s.Quiet (vkeys [d, a, a]) := quiet_sub hq (by simp [vkeys])
    have hqr : s.Quiet (vkeys [d] ++ [s.cur.keyS r]) := quiet_sub hq (by simp [vkeys, Unit.keysS])
    simp only [List.mem_cons, List.not_mem_nil, or_false, Prod.mk.injEq] at hi
    obtain ⟨rfl, rfl⟩ | ⟨rfl, rfl⟩ | ⟨rfl, rfl⟩ | ⟨rfl, rfl⟩ | ⟨rfl, rfl⟩ | ⟨rfl, rfl⟩ | ⟨rfl, rfl⟩ | ⟨rfl, rfl⟩ | ⟨rfl, rfl⟩ := hi
    · refine perm_lanes (show exec _ s = execVperm d a b k z s from rfl) hz hqab hd fun j => ?_
      simp only [apply_ite (BitVec.ofNat w), ofNat_lane, lane_eq_extract (s.cur.getV b)]
      rfl
    · refine perm_lanes (show exec _ s = execVperm2 d a b k z s from rfl) hz hqab hd fun j => ?_
      simp only [apply_ite (BitVec.ofNat w), ofNat_lane, lane_eq_extract (s.cur.getV b)]
      rfl
    · exact perm_lanes (show exec _ s = execVzipl d a b k z s from rfl) hz hqab hd fun _ => ofNat_lane_ite
    · exact perm_lanes (show exec _ s = execVziph d a b k z s from rfl) hz hqab hd fun _ => ofNat_lane_ite
    · exact perm_lanes (show exec _ s = execVuzpe d a b k z s from rfl) hz hqab hd fun _ => ofNat_lane_ite
    · exact perm_lanes (show exec _ s = execVuzpo d a b k z s from rfl) hz hqab hd fun _ => ofNat_lane_ite
    · exact perm_lanes (show exec _ s = execVrev d a k z s from rfl) hz hqaa hd fun j => ofNat_lane _ w _
    · refine perm_lanes (show exec _ s = execVsld d a b k z c s from rfl) hz hqab hd fun j => ?_
      simp only [apply_ite (BitVec.ofNat w), ofNat_lane]
      rfl
    · have hx : exec (.vbcast d r k z) s = execVbcast d r k z s := rfl
      rw [execVbcast, hz] at hx
      exact masked_write hx hqr hd fun _ => BitVec.eq_of_toNat_eq (by simp)
  case merge =>
    refine ⟨_, exec_vmerge hz (quiet_sub hq (by simp [vkeys])) hd, fun j hj => ?_⟩
    exact (extract_lanes _ hfit hj).trans ofNat_lane_ite
  case insert =>
    refine ⟨_, exec_vins hz hindex (quiet_sub hq (by simp [vkeys, Unit.keysS])) hd, fun j hj => ?_⟩
    refine (extract_lanes _ hfit hj).trans ((apply_ite _ _ _ _).trans ?_)
    rw [ofNat_lane, BitVec.ofNat_toNat]
  case extracts =>
    have hqe : s.Quiet (s.cur.keyS r :: vkeys [a] ++ [s.cur.keyS t]) := quiet_sub hq (by simp [vkeys, Unit.keysS])
    refine ⟨(exec_vext hz hindex hqe hd).trans ?_, (exec_vexts hz hindex hqe hd).trans ?_⟩
    · rw [lane_eq_extract, word_toNat]
    · rw [lane_eq_extract, sgn, intValue_toNat hpos, wordI_toInt]
  case indices =>
    obtain ⟨hins, hext, hexts⟩ := index_refused hz hp hindex
    exact ⟨raises_of_exec hins, raises_of_exec hext, raises_of_exec hexts⟩

end

