-- ==== Sys2Proof/Proofs/VectorReductions.lean ====
section
/-! Reductions: the tree over the active elements is a fold wherever its operation is associative, and O42 settled (R269, R270). -/

namespace Sys2Proof.Machine

/-! ### The tree (R270) -/

section
variable {α β : Type}

/-- A level of the tree under a map that carries one operation to the other. -/
theorem treeLevel_map {f : α → α → α} {g : β → β → β} {h : β → α} (hf : ∀ x y, f (h x) (h y) = h (g x y)) :
    ∀ l : List (Option β), treeLevel f (l.map (Option.map h)) = (treeLevel g l).map (Option.map h)
  | [] => rfl
  | [_] => rfl
  | x :: y :: l => by
    have ih := treeLevel_map hf l
    cases x <;> cases y <;> simp [treeLevel, hf, ih]

theorem tree_map {f : α → α → α} {g : β → β → β} {h : β → α} (hf : ∀ x y, f (h x) (h y) = h (g x y)) (n : Nat) (l : List (Option β)) :
    tree f n (l.map (Option.map h)) = (tree g n l).map h := by
  induction n generalizing l with
  | zero => cases l <;> rfl
  | succ n ih => rw [tree, tree, treeLevel_map hf, ih]

theorem length_treeLevel (f : α → α → α) : ∀ l : List (Option α), (treeLevel f l).length = (l.length + 1) / 2
  | [] => by simp [treeLevel]
  | [_] => by simp [treeLevel]
  | x :: y :: l => by
    have ih := length_treeLevel f l
    simp only [treeLevel, List.length_cons, ih]
    omega

section
variable {f : α → α → α} (hassoc : ∀ x y z, f (f x y) z = f x (f y z))
include hassoc

/-- A level of the tree keeps the fold of the present elements. -/
theorem foldl_treeLevel : ∀ (l : List (Option α)) (e : α), ((treeLevel f l).reduceOption).foldl f e = (l.reduceOption).foldl f e
  | [], _ => rfl
  | [_], _ => rfl
  | x :: y :: l, e => by
    have ih := foldl_treeLevel l
    cases x <;> cases y <;> simp [treeLevel, ih, hassoc]

theorem tree_eq_foldl {e : α} (he : ∀ x, f e x = x) (n : Nat) (l : List (Option α)) (hl : l.length ≤ 2 ^ n) :
    (tree f n l).getD e = (l.reduceOption).foldl f e := by
  induction n generalizing l with
  | zero =>
    match l, hl with
    | [], _ => rfl
    | [none], _ => rfl
    | [some x], _ => exact (he x).symm
  | succ n ih =>
    have hlen : (treeLevel f l).length ≤ 2 ^ n := by
      rw [length_treeLevel]
      omega
    rw [tree, ih _ hlen, foldl_treeLevel hassoc]

end

/-- The elements that a test keeps, present in the list of all. -/
theorem reduceOption_present (l : List Nat) (p : Nat → Bool) (g : Nat → α) :
    (l.map fun j => if p j then some (g j) else none).reduceOption = (l.filter p).map g := by
  induction l with
  | nil => rfl
  | cons j l ih => cases h : p j <;> simp [h, ih]

/-- The choice of the one of two that a strict order puts first is associative. -/
theorem choice_assoc {r : α → α → Prop} [DecidableRel r] (htrans : ∀ {x y z}, r x y → r y z → r x z)
    (hneg : ∀ {x y z}, ¬r x y → ¬r y z → ¬r x z) (x y z : α) :
    (if r (if r x y then y else x) z then z else if r x y then y else x) =
      if r x (if r y z then z else y) then if r y z then z else y else x := by
  by_cases hxy : r x y <;> by_cases hyz : r y z
  · simp [hxy, hyz, htrans hxy hyz]
  · simp [hxy, hyz]
  · simp [hxy, hyz]
  · simp [hxy, hyz, hneg hxy hyz]

end

/-! ### Active elements (R191, R254) -/

/-- Element `j` of `w` bits as a bit vector. -/
def elemBits (w : Nat) (v : VWord) (j : Nat) : BitVec w := v.extractLsb' (w * j) w

/-- The numbers of the active elements of `w` bits. -/
def activeOf (k : KWord) (w : Nat) : List Nat := (List.range (1024 / w)).filter fun j => k.getLsbD (w * j / 8)

/-- The elements of `w` bits, absent where they are inactive. -/
def presentElems (k : KWord) (w : Nat) (v : VWord) : List (Option (BitVec w)) :=
  (List.range (1024 / w)).map fun j => if k.getLsbD (w * j / 8) then some (elemBits w v j) else none

theorem length_presentElems (k : KWord) {w : Nat} (hw : w ∈ [8, 16, 32, 64]) (v : VWord) : (presentElems k w v).length ≤ 2 ^ 7 := by
  rw [presentElems, List.length_map, List.length_range]
  revert w
  decide

theorem reduceOption_presentElems (k : KWord) (w : Nat) (v : VWord) :
    (presentElems k w v).reduceOption = (activeOf k w).map (elemBits w v) := reduceOption_present _ _ _

theorem activeLanes_eq (s : State) (a : VReg) (k : KReg) (w : Nat) :
    s.activeLanes a k w = (presentElems (s.cur.getK k) w (s.cur.getV a)).map (Option.map BitVec.toNat) := by
  unfold State.activeLanes presentElems
  rw [List.map_map]
  refine List.map_congr_left fun j _ => ?_
  have hon : laneOn (s.cur.getK k) w j = (s.cur.getK k).getLsbD (w * j / 8) := rfl
  rw [Function.comp_apply, hon, lane_eq_extract, apply_ite (Option.map BitVec.toNat)]
  rfl

/-! ### Reductions of integers (R269) -/

section
variable {s : State} {d a : VReg}

theorem reduce_quiet (r : Nat × Flags) (hq : s.Quiet (vkeys [d, a])) (hd : s.cur.namedV d = false) :
    s.reduce d a r = .next (s.afterA fun u => (u.setV d (BitVec.ofNat 1024 r.1)).raiseFlags r.2) :=
  writeV_quiet (ok := true) _ rfl hq hd

theorem reduce_noFlags (x : Nat) (hq : s.Quiet (vkeys [d, a])) (hd : s.cur.namedV d = false) :
    s.reduce d a (x, {}) = .next (s.afterA fun u => u.setV d (BitVec.ofNat 1024 x)) := by
  rw [reduce_quiet _ hq hd]
  simp only [raiseFlags_none]

/-- An integer reduction whose operation, on bit vectors of the width of an element, is associative and has the identity. -/
theorem reduceI_fold {i : Instr} {k : KReg} {z : ESize} {w : Nat} {f : Nat → Nat → Nat → Nat} {identity : Nat → Nat}
    {g : BitVec w → BitVec w → BitVec w} {e : BitVec w} (hx : exec i s = s.reduceI f identity d a k z) (hz : ESize.bitsOf z = w)
    (hq : s.Quiet (vkeys [d, a])) (hd : s.cur.namedV d = false) (hf : ∀ x y : BitVec w, f w x.toNat y.toNat = (g x y).toNat)
    (hidentity : identity w = e.toNat) (hassoc : ∀ x y z, g (g x y) z = g x (g y z)) (he : ∀ x, g e x = x) :
    exec i s = .next (s.afterA fun u =>
      u.setV d ((((activeOf (s.cur.getK k) w).map (elemBits w (s.cur.getV a))).foldl g e).zeroExtend 1024)) := by
  have hfold : (tree (f w) 7 (s.activeLanes a k w)).getD (identity w) =
      (((activeOf (s.cur.getK k) w).map (elemBits w (s.cur.getV a))).foldl g e).toNat := by
    have hlen := length_presentElems (s.cur.getK k) (hz ▸ bitsOf_cases z) (s.cur.getV a)
    rw [activeLanes_eq, tree_map hf, hidentity, Option.getD_map, tree_eq_foldl hassoc he 7 _ hlen, reduceOption_presentElems]
  subst hz
  rw [hx, State.reduceI, hfold, reduce_noFlags _ hq hd, BitVec.ofNat_toNat]

theorem register_lowBits (i : Int) : BitVec.ofNat 1024 (lowBits 64 i) = (BitVec.ofInt 64 i).zeroExtend 1024 := by
  have hlow : lowBits 64 i = (BitVec.ofInt 64 i).toNat := by rw [← ofNat_lowBits, BitVec.toNat_ofNat, lowBits_mod]
  rw [hlow, BitVec.ofNat_toNat]

/-- `vraddw`: the sum of the integers of the active elements. -/
theorem exec_vraddw {k : KReg} {z : ESize} {w : Nat} (hz : ESize.bitsOf z = w ∧ 0 < w) (hq : s.Quiet (vkeys [d, a]))
    (hd : s.cur.namedV d = false) : exec (.vraddw d a k z) s = .next (s.afterA fun u => u.setV d
      ((BitVec.ofInt 64 ((activeOf (s.cur.getK k) w).map fun j => (elemBits w (s.cur.getV a) j).toInt).sum).zeroExtend 1024)) := by
  obtain ⟨rfl, hw⟩ := hz
  have hints : (s.activeLanes a k (ESize.bitsOf z)).map (Option.map (intValue (ESize.bitsOf z) true)) =
      (presentElems (s.cur.getK k) (ESize.bitsOf z) (s.cur.getV a)).map (Option.map BitVec.toInt) := by
    rw [activeLanes_eq, List.map_map, Option.map_comp_map]
    exact List.map_congr_left fun x _ => congrArg (Option.map · x) (funext fun y => intValue_toNat hw y)
  have hsum : (tree (fun x y : Int => x + y) 7 ((presentElems (s.cur.getK k) (ESize.bitsOf z) (s.cur.getV a)).map
      (Option.map BitVec.toInt))).getD 0 =
        ((activeOf (s.cur.getK k) (ESize.bitsOf z)).map fun j => (elemBits (ESize.bitsOf z) (s.cur.getV a) j).toInt).sum := by
    have hlen := length_presentElems (s.cur.getK k) (bitsOf_cases z) (s.cur.getV a)
    rw [tree_eq_foldl Int.add_assoc Int.zero_add 7 _ (by rwa [List.length_map]), List.reduceOption_map, reduceOption_presentElems,
      List.map_map, List.sum_eq_foldl]
    rfl
  have hx : exec (.vraddw d a k z) s = execVraddw d a k z s := rfl
  rw [hx, execVraddw, hints, hsum, reduce_noFlags _ hq hd, register_lowBits]

/-! ### Reductions of f32 (R270) -/

/-- The f32 elements, each with no flags, absent where they are inactive. -/
def presentLeaves (k : KWord) (v : VWord) : List (Option (Nat × Flags)) :=
  (List.range 32).map fun j => if k.getLsbD (4 * j) then some (v.toNat / 2 ^ (32 * j) % 2 ^ 32, {}) else none

theorem activeLanes_leaves (k : KReg) :
    ((s.activeLanes a k 32).map fun x => x.map fun x => (x, ({} : Flags))) = presentLeaves (s.cur.getK k) (s.cur.getV a) := by
  unfold State.activeLanes presentLeaves
  rw [List.map_map]
  refine List.map_congr_left fun j _ => ?_
  have hon : laneOn (s.cur.getK k) 32 j = (s.cur.getK k).getLsbD (4 * j) := by
    rw [laneOn, show 32 * j / 8 = 4 * j by omega]
  rw [Function.comp_apply, hon, apply_ite (Option.map _)]
  rfl

/-- A node of the tree: the result delivered once, with the flags of both its inputs (R270). -/
def Unit.treeNode (u : Unit) (f : Num → Num → Exact) (p q : Nat × Flags) : Nat × Flags :=
  let r := fpF32.deliver (tsrRm u.tsr) (tsrSat u.tsr) (f (fpF32.read p.1) (fpF32.read q.1))
  (r.1, (p.2.or q.2).or r.2)

theorem reduceF_tree {i : Instr} {k : KReg} {f : Num → Num → Exact} {e : Nat} (hx : exec i s = s.reduceF f e d a k)
    (hq : s.Quiet (vkeys [d, a])) (hd : s.cur.namedV d = false) :
    exec i s = .next (s.afterA fun u =>
      (u.setV d (BitVec.ofNat 1024 ((tree (s.cur.treeNode f) 5 (presentLeaves (s.cur.getK k) (s.cur.getV a))).getD (e, {})).1)).raiseFlags
        ((tree (s.cur.treeNode f) 5 (presentLeaves (s.cur.getK k) (s.cur.getV a))).getD (e, {})).2) := by
  rw [hx, State.reduceF, activeLanes_leaves, reduce_quiet _ hq hd]
  rfl

end

end Sys2Proof.Machine

open Sys2Proof Sys2Proof.Machine

/-- Settles O42: the integer operations are associative and have their identities, so that their tree is the fold; the f32 reductions are
the tree itself. -/
theorem reductionsOverActiveElements : Obligations.ReductionsOverActiveElements := by
  unfold Obligations.ReductionsOverActiveElements
  intro s d a k z w hw hq hd el active
  obtain ⟨hz, hpos⟩ := bitsOf_of_mem hw
  have hq' : s.Quiet (vkeys [d, a]) := hq
  refine ⟨fun i f e hi => ?integers, exec_vraddw ⟨hz, hpos⟩ hq' hd, fun i f e hi => ?floats⟩
  case integers =>
    simp only [List.mem_cons, List.not_mem_nil, or_false, Prod.mk.injEq] at hi
    obtain ⟨rfl, rfl, rfl⟩ | ⟨rfl, rfl, rfl⟩ | ⟨rfl, rfl, rfl⟩ | ⟨rfl, rfl, rfl⟩ | ⟨rfl, rfl, rfl⟩ | ⟨rfl, rfl, rfl⟩ | ⟨rfl, rfl, rfl⟩ |
      ⟨rfl, rfl, rfl⟩ := hi
    · exact reduceI_fold (show exec _ s = execVradd d a k z s from rfl) hz hq' hd (fun x y => (BitVec.toNat_add x y).symm) rfl
        BitVec.add_assoc BitVec.zero_add
    · refine reduceI_fold (show exec _ s = execVrmax d a k z s from rfl) hz hq' hd (fun x y => ?_) (BitVec.toNat_intMin_of_pos hpos).symm
        (choice_assoc (r := fun x y : BitVec w => x.toInt < y.toInt) (by omega) (by omega)) fun x => ?_
      · rw [intValue_toNat hpos, intValue_toNat hpos, apply_ite BitVec.toNat]
      · have hmin := BitVec.toInt_intMin_le x
        split
        · rfl
        · exact BitVec.eq_of_toInt_eq (by omega)
    · refine reduceI_fold (show exec _ s = execVrmin d a k z s from rfl) hz hq' hd (fun x y => ?_) BitVec.toNat_intMax.symm
        (choice_assoc (r := fun x y : BitVec w => y.toInt < x.toInt) (by omega) (by omega)) fun x => ?_
      · rw [intValue_toNat hpos, intValue_toNat hpos, apply_ite BitVec.toNat]
      · have hmax : x.toInt ≤ (BitVec.intMax w).toInt := BitVec.toInt_intMax ▸ BitVec.toInt_le
        split
        · rfl
        · exact BitVec.eq_of_toInt_eq (by omega)
    · refine reduceI_fold (show exec _ s = execVrmaxu d a k z s from rfl) hz hq' hd (fun x y => ?_) rfl
        (choice_assoc (r := fun x y : BitVec w => x.toNat < y.toNat) (by omega) (by omega)) fun x => ?_
      · rw [apply_ite BitVec.toNat, max_def_lt]
      · split
        · rfl
        · next h => exact BitVec.eq_of_toNat_eq (Nat.le_antisymm (Nat.zero_le _) (Nat.le_of_not_lt h))
    · refine reduceI_fold (show exec _ s = execVrminu d a k z s from rfl) hz hq' hd (fun x y => ?_) BitVec.toNat_allOnes.symm
        (choice_assoc (r := fun x y : BitVec w => y.toNat < x.toNat) (by omega) (by omega)) fun x => ?_
      · rw [apply_ite BitVec.toNat, min_comm, min_def_lt]
      · have hmax := x.isLt
        split
        · rfl
        · next h => exact BitVec.eq_of_toNat_eq (by rw [BitVec.toNat_allOnes] at h ⊢; omega)
    · exact reduceI_fold (show exec _ s = execVrand d a k z s from rfl) hz hq' hd (fun x y => (BitVec.toNat_and x y).symm)
        BitVec.toNat_allOnes.symm BitVec.and_assoc fun x => BitVec.allOnes_and
    · exact reduceI_fold (show exec _ s = execVror d a k z s from rfl) hz hq' hd (fun x y => (BitVec.toNat_or x y).symm) rfl
        BitVec.or_assoc fun x => BitVec.zero_or
    · exact reduceI_fold (show exec _ s = execVrxor d a k z s from rfl) hz hq' hd (fun x y => (BitVec.toNat_xor x y).symm) rfl
        BitVec.xor_assoc fun x => BitVec.zero_xor
  case floats =>
    simp only [List.mem_cons, List.not_mem_nil, or_false, Prod.mk.injEq] at hi
    obtain ⟨rfl, rfl, rfl⟩ | ⟨rfl, rfl, rfl⟩ | ⟨rfl, rfl, rfl⟩ := hi
    · exact reduceF_tree (show exec _ s = execVraddF32 d a k s from rfl) hq' hd
    · exact reduceF_tree (show exec _ s = execVrmaxF32 d a k s from rfl) hq' hd
    · exact reduceF_tree (show exec _ s = execVrminF32 d a k s from rfl) hq' hd

end

