-- ==== Sys2Proof/Proofs/VectorFloats.lean ====
section
/-! Floating-point vector instructions: a masked operation with flags element by element, the sign operations and the soft maximum; O40
settled (R257 to R259, R265 to R268, R308, R309). -/

namespace Sys2Proof.Machine

/-! ### Masked operations with flags (R254) -/

theorem lane_maskedLanes (k : KWord) {w n j : Nat} (old : VWord) (f : Nat → Nat × Flags) (hn : w * n ≤ 1024) (hj : j < n) :
    lane (maskedLanes k w n old f).1 w j = if k.getLsbD (w * j / 8) then (f j).1 % 2 ^ w else lane old w j := by
  rw [lane_eq_extract, extract_maskedLanes k old f hn hj, apply_ite BitVec.toNat, BitVec.toNat_ofNat, ← lane_eq_extract]

/-- The flags of the active elements. -/
theorem flags_maskedLanes (k : KWord) (w n : Nat) (old : VWord) (f : Nat → Nat × Flags) :
    (maskedLanes k w n old f).2 = flagsOf ((List.range n).map fun j => if k.getLsbD (w * j / 8) then (f j).2 else {}) := by
  simp only [maskedLanes, List.map_map]
  exact congrArg flagsOf (List.map_congr_left fun j _ => apply_ite Prod.snd _ _ _)

section
variable {s : State} {d : VReg} {srcs : List VReg} {k : KReg} {i : Instr} (hq : s.Quiet (vkeys (d :: srcs))) (hd : s.cur.namedV d = false)
include hq hd

/-- A masked operation that nothing stops. -/
theorem vmapF_lanes {n : Nat} {f : Nat → Nat × Flags} (hx : exec i s = s.vmapF d srcs k n f) :
    ∃ (v : VWord) (e : Flags), exec i s = .next (s.afterA fun u => (u.setV d v).raiseFlags e) ∧
      e = flagsOf ((List.range (1024 / n)).map fun j => if (s.cur.getK k).getLsbD (n * j / 8) then (f j).2 else {}) ∧
      ∀ j, j < 1024 / n → lane v n j = if (s.cur.getK k).getLsbD (n * j / 8) then (f j).1 % 2 ^ n else lane (s.cur.getV d) n j := by
  refine ⟨_, _, hx.trans (writeV_quiet (ok := true) _ rfl hq hd), flags_maskedLanes _ _ _ _ f, fun j hj => ?_⟩
  exact lane_maskedLanes _ _ _ (Nat.mul_div_le _ _) hj

theorem vmap_lanes {w : Nat} {f : Nat → Nat} (hx : exec i s = s.vmap d srcs k w f) :
    ∃ v : VWord, exec i s = .next (s.afterA fun u => u.setV d v) ∧
      ∀ j, j < 1024 / w → lane v w j = if (s.cur.getK k).getLsbD (w * j / 8) then f j % 2 ^ w else lane (s.cur.getV d) w j := by
  obtain ⟨v, hv, hlane⟩ := masked_write (ks := []) (f := fun _ => f) hx (by rwa [List.append_nil]) hd fun _ => rfl
  refine ⟨v, hv, fun j hj => ?_⟩
  rw [lane_eq_extract, hlane j hj, apply_ite BitVec.toNat, BitVec.toNat_ofNat, ← lane_eq_extract]

end

/-! ### Signs (R258) -/

theorem ftypeWidth_pos (t : FType) : 0 < (ftypeFp t).width := by
  cases t <;> decide

section
variable {w : Nat} (hw : 0 < w)
include hw

theorem two_pow_half : 2 ^ w = 2 * 2 ^ (w - 1) := by
  rw [← Nat.pow_succ', Nat.succ_eq_add_one, Nat.sub_add_cancel hw]

/-- The sign of an element is its highest bit. -/
theorem lane_sign (v : VWord) (j : Nat) : lane v w j / 2 ^ (w - 1) = (decide (2 ^ (w - 1) ≤ lane v w j)).toNat := by
  have hlt : lane v w j < 2 ^ w := Nat.mod_lt _ (Nat.two_pow_pos w)
  rw [two_pow_half hw] at hlt
  by_cases h : 2 ^ (w - 1) ≤ lane v w j
  · rw [decide_eq_true h]
    exact Nat.div_eq_of_lt_le (by simpa using h) (by simpa [Nat.two_mul] using hlt)
  · rw [decide_eq_false h]
    exact Nat.div_eq_of_lt (Nat.lt_of_not_le h)

/-- A magnitude with a sign fits the element. -/
theorem signed_fits (x : Nat) (b : Bool) :
    (x % 2 ^ (w - 1) + if b then 2 ^ (w - 1) else 0) % 2 ^ w = x % 2 ^ (w - 1) + b.toNat * 2 ^ (w - 1) := by
  have hx := Nat.mod_lt x (Nat.two_pow_pos (w - 1))
  rw [two_pow_half hw]
  cases b
  · simpa using Nat.mod_eq_of_lt (by omega)
  · simpa using Nat.mod_eq_of_lt (by omega)

end

/-- A sign operation that nothing stops, the sign of its result given as a bit. -/
theorem vsign_lanes {s : State} {d a b : VReg} {k : KReg} {t : FType} {i : Instr} {f : Bool → Bool → Bool} {sg : Nat → Nat}
    (hx : exec i s = s.vsign f d a b k t) (hq : s.Quiet (vkeys [d, a, b])) (hd : s.cur.namedV d = false)
    (hsg : ∀ j, (f (decide (2 ^ ((ftypeFp t).width - 1) ≤ lane (s.cur.getV a) (ftypeFp t).width j))
      (decide (2 ^ ((ftypeFp t).width - 1) ≤ lane (s.cur.getV b) (ftypeFp t).width j))).toNat = sg j) :
    ∃ v : VWord, exec i s = .next (s.afterA fun u => u.setV d v) ∧ ∀ j, j < 1024 / (ftypeFp t).width →
      lane v (ftypeFp t).width j = if (s.cur.getK k).getLsbD ((ftypeFp t).width * j / 8) then
        lane (s.cur.getV a) (ftypeFp t).width j % 2 ^ ((ftypeFp t).width - 1) + sg j * 2 ^ ((ftypeFp t).width - 1)
      else lane (s.cur.getV d) (ftypeFp t).width j := by
  obtain ⟨v, hv, hlane⟩ := vmap_lanes hq hd hx
  refine ⟨v, hv, fun j hj => (hlane j hj).trans ?_⟩
  rw [signed_fits (ftypeWidth_pos t), hsg]

/-! ### The soft maximum (R308) -/

section
variable {s : State} {d a b : VReg} {k : KReg}

/-- The values of the active scores, in their order. -/
theorem activeScores (s : State) (b : VReg) (k : KReg) : ((s.activeLanes b k 32).filterMap fun x => x.map fpF32.read) =
    ((List.range 32).filter fun j => (s.cur.getK k).getLsbD (32 * j / 8)).map fun j => fpF32.read (lane (s.cur.getV b) 32 j) := by
  have hkeep : ∀ (l : List Nat) (p : Nat → Bool) (g : Nat → Nat), (l.map fun j => if p j then some (g j) else none).filterMap
      (fun x => x.map fpF32.read) = (l.filter p).map fun j => fpF32.read (g j) := by
    intro l p g
    induction l with
    | nil => rfl
    | cons j l ih => cases h : p j <;> simp [h, ih]
  exact hkeep _ _ _

theorem exec_vsmUpd (hq : s.Quiet (vkeys [d, a, b])) (hd : s.cur.namedV d = false) (m : Option Num × Flags)
    (hm : m = smMax (((List.range 32).filter fun j => (s.cur.getK k).getLsbD (32 * j / 8)).map fun j =>
      fpF32.read (lane (s.cur.getV b) 32 j))) :
    ∃ v : VWord, exec (.vsmUpd d a b k) s = .next (s.afterA fun u => (u.setV d v).raiseFlags
        (m.2.or (flagsOf ((List.range 32).map fun j => (smLane m.1 (lane (s.cur.getV a) 32 j)).2)))) ∧
      ∀ j, j < 32 → lane v 32 j = (smLane m.1 (lane (s.cur.getV a) 32 j)).1 % 2 ^ 32 := by
  rw [← activeScores] at hm
  subst hm
  have hx : exec (.vsmUpd d a b k) s = execVsmUpd d a b k s := rfl
  rw [hx, execVsmUpd]
  refine ⟨_, (writeV_quiet (ok := true) _ rfl hq hd).trans (by rw [List.map_map]; rfl), fun j hj => ?_⟩
  rw [lane_packElems (by simp [upTo])]
  simp [upTo, List.getD_eq_getElem?_getD, hj]

end

end Sys2Proof.Machine

open Sys2Proof Sys2Proof.Machine

/-- Settles O40: each instruction is one masked operation with flags, whose function is the exact result delivered once. -/
theorem vectorFloatingPointResults : Obligations.VectorFloatingPointResults := by
  unfold Obligations.VectorFloatingPointResults
  intro s d a b k t g hq hd rm sat el on p w x y c xs ys hx hy hc out out32 sign size
  have hqab : s.Quiet (vkeys [d, a, b]) := hq
  have hqaa : s.Quiet (vkeys [d, a, a]) := quiet_sub hq (by simp [vkeys])
  refine ⟨fun i n f hi => ?rounded, fun i sg hi => ?signs, exec_vsmUpd hqab hd _ rfl⟩
  case rounded =>
    simp only [List.mem_cons, List.not_mem_nil, or_false, Prod.mk.injEq] at hi
    obtain ⟨rfl, rfl, rfl⟩ | ⟨rfl, rfl, rfl⟩ | ⟨rfl, rfl, rfl⟩ | ⟨rfl, rfl, rfl⟩ | ⟨rfl, rfl, rfl⟩ | ⟨rfl, rfl, rfl⟩ | ⟨rfl, rfl, rfl⟩ |
      ⟨rfl, rfl, rfl⟩ | ⟨rfl, rfl, rfl⟩ | ⟨rfl, rfl, rfl⟩ | ⟨rfl, rfl, rfl⟩ | ⟨rfl, rfl, rfl⟩ | ⟨rfl, rfl, rfl⟩ | ⟨rfl, rfl, rfl⟩ |
      ⟨rfl, rfl, rfl⟩ | ⟨rfl, rfl, rfl⟩ | ⟨rfl, rfl, rfl⟩ | ⟨rfl, rfl, rfl⟩ | ⟨rfl, rfl, rfl⟩ | ⟨rfl, rfl, rfl⟩ | ⟨rfl, rfl, rfl⟩ |
      ⟨rfl, rfl, rfl⟩ := hi
    · exact vmapF_lanes hqab hd (show exec _ s = execVaddF d a b k t s from rfl)
    · exact vmapF_lanes hqab hd (show exec _ s = execVsubF d a b k t s from rfl)
    · exact vmapF_lanes hqab hd (show exec _ s = execVmulF d a b k t s from rfl)
    · exact vmapF_lanes hqab hd (show exec _ s = execVminF d a b k t s from rfl)
    · exact vmapF_lanes hqab hd (show exec _ s = execVmaxF d a b k t s from rfl)
    · exact vmapF_lanes hqab hd (show exec _ s = execVfma d a b k t s from rfl)
    · exact vmapF_lanes hqab hd (show exec _ s = execVfms d a b k t s from rfl)
    · exact vmapF_lanes hqab hd (show exec _ s = execVfnma d a b k t s from rfl)
    · exact vmapF_lanes hqab hd (show exec _ s = execVfnms d a b k t s from rfl)
    · exact vmapF_lanes hqab hd (show exec _ s = execVfmawLo d a b k g s from rfl)
    · exact vmapF_lanes hqab hd (show exec _ s = execVfmawHi d a b k g s from rfl)
    · exact vmapF_lanes hqaa hd (show exec _ s = execVrcpA d a k s from rfl)
    · exact vmapF_lanes hqaa hd (show exec _ s = execVrsqA d a k s from rfl)
    · exact vmapF_lanes hqab hd (show exec _ s = execVrcpS d a b k s from rfl)
    · exact vmapF_lanes hqab hd (show exec _ s = execVrsqS d a b k s from rfl)
    · exact vmapF_lanes hqaa hd (show exec _ s = execVrcp d a k s from rfl)
    · exact vmapF_lanes hqaa hd (show exec _ s = execVrsq d a k s from rfl)
    · exact vmapF_lanes hqaa hd (show exec _ s = execVsqrt d a k s from rfl)
    · exact vmapF_lanes hqab hd (show exec _ s = execVdiv d a b k s from rfl)
    · exact vmapF_lanes hqaa hd (show exec _ s = execVexp2 d a k s from rfl)
    · exact vmapF_lanes hqaa hd (show exec _ s = execVlog2 d a k s from rfl)
    · exact vmapF_lanes hqab hd (show exec _ s = execVsmRescale d a b k s from rfl)
  case signs =>
    have hneg : ∀ b : Bool, (!b).toNat = 1 - b.toNat := by decide
    simp only [List.mem_cons, List.not_mem_nil, or_false, Prod.mk.injEq] at hi
    obtain ⟨rfl, rfl⟩ | ⟨rfl, rfl⟩ | ⟨rfl, rfl⟩ := hi
    · exact vsign_lanes (show exec _ s = execVabsF d a k t s from rfl) hqaa hd fun _ => rfl
    · refine vsign_lanes (show exec _ s = execVnegF d a k t s from rfl) hqaa hd fun j => ?_
      exact (hneg _).trans (congrArg (1 - ·) (lane_sign (ftypeWidth_pos t) _ j).symm)
    · exact vsign_lanes (show exec _ s = execVcpsgnF d a b k t s from rfl) hqab hd fun j => (lane_sign (ftypeWidth_pos t) _ j).symm

end

