-- ==== Sys2Proof/Proofs/VectorLoops.lean ====
section
/-! The vector sequencer: where `vloop` leads and what `vlidx` reads; O45 settled (R276, R278). -/

namespace Sys2Proof.Machine

/-! ### The next bundle (R223, R278) -/

section
variable (u : Unit)

/-- A unit leaves its gang with everything but its gang. -/
theorem leaveGang_cases : u.leaveGang = u ∨ u.leaveGang = { u with gang := 1, splitAt := none } := by
  unfold Unit.leaveGang
  split
  · exact .inr rfl
  · exact .inl rfl

@[simp] theorem leaveGang_pc : u.leaveGang.pc = u.pc := by obtain h | h := leaveGang_cases u <;> rw [h]
@[simp] theorem leaveGang_npc : u.leaveGang.npc = u.npc := by obtain h | h := leaveGang_cases u <;> rw [h]
@[simp] theorem leaveGang_seq : u.leaveGang.seq = u.seq := by obtain h | h := leaveGang_cases u <;> rw [h]
@[simp] theorem leaveGang_regs : u.leaveGang.regs = u.regs := by obtain h | h := leaveGang_cases u <;> rw [h]
@[simp] theorem leaveGang_v : u.leaveGang.v = u.v := by obtain h | h := leaveGang_cases u <;> rw [h]

/-- Short of the last bundle of a body the next bundle is the one that npc names. -/
theorem nextBundle_inside (h : (u.pc == u.seq.start + word (8 * (u.seq.len - 1))) = false) :
    u.nextBundle = { u.leaveGang with pc := u.npc, npc := u.npc + 8, aslot := false, fetched := none } := by
  unfold Unit.nextBundle
  simp only [leaveGang_pc, leaveGang_npc, leaveGang_seq, h, Bool.and_false, Bool.false_eq_true, if_false]

end

/-! ### The bundle of a `vloop` (R278) -/

/-- No bundle of a body that begins at the next one is the bundle of the `vloop`. -/
theorem before_body (pc : Word) (n : BitVec 4) : (pc == pc + 8 + word (8 * n.toNat)) = false := by
  refine beq_eq_false_iff_ne.2 fun h => ?_
  have hn := n.isLt
  rw [BitVec.add_assoc, left_eq_add] at h
  have hnat : (8 + 8 * n.toNat % 2 ^ 64) % 2 ^ 64 = 0 := congrArg BitVec.toNat h
  omega

/-- The sequencer running a body of `n + 1` bundles, from its first iteration on. -/
def seqFrom (first : Word) (n : BitVec 4) (trips : Nat) : Seq := { active := true, start := first, len := n.toNat + 1, trips }

/-- The bundle that follows a `vloop` is the first of its body. -/
theorem pastA_seqFrom (u : Unit) (n : BitVec 4) (t : Nat) :
    Unit.pastA { u with npc := u.pc + 8, seq := seqFrom (u.pc + 8) n t } =
      { Unit.leaveGang { u with npc := u.pc + 8, seq := seqFrom (u.pc + 8) n t } with
        pc := u.pc + 8, npc := u.pc + 8 + 8, aslot := false, fetched := none, turn := .ran } := by
  unfold Unit.pastA
  rw [nextBundle_inside _ (before_body u.pc n)]

section
variable {s : State} {a : SReg} {n : BitVec 4} (hp : tsrPp s.cur.tsr = false)
include hp

theorem exec_vloop (ht : s.touches [s.cur.keyS a] = false) (hi : s.cur.seq.active = false) (hlt : (s.cur.getS a).toNat < 2 ^ 32) :
    exec (.vloop a n) s = .next (if s.cur.getS a = 0 then s.afterA fun u => { u with npc := s.cur.pc + 8 + word (8 * (n.toNat + 1)) }
      else s.afterA fun u => { u with npc := s.cur.pc + 8, seq := seqFrom (s.cur.pc + 8) n (s.cur.getS a).toNat }) := by
  have hx : exec (.vloop a n) s = s.vloop (s.cur.getS a) a n := rfl
  have hok : (decide ((s.cur.getS a).toNat < 2 ^ 32) && !s.cur.seq.active) = true := by rw [hi, decide_eq_true hlt]; rfl
  rw [hx, State.vloop, issue_clear s _ _ hp (by simp) hok ht rfl rfl, apply_ite Host.Outcome.next]
  rfl

theorem exec_vloop_illegal (h : 2 ^ 32 ≤ (s.cur.getS a).toNat ∨ s.cur.seq.active = true) :
    exec (.vloop a n) s = s.raise (s.bundleTrap .illegalOperand) := by
  have hx : exec (.vloop a n) s = s.vloop (s.cur.getS a) a n := rfl
  have hok : (decide ((s.cur.getS a).toNat < 2 ^ 32) && !s.cur.seq.active) = false := by
    obtain h | h := h
    · rw [decide_eq_false (Nat.not_lt.2 h), Bool.false_and]
    · rw [h, Bool.not_true, Bool.and_false]
  rw [hx, State.vloop, issue_operand s _ _ hp (by simp) hok]

end

end Sys2Proof.Machine

open Sys2Proof Sys2Proof.Machine

/-- Settles O45: `vloop` by its trip count, its body beginning at the next bundle, and `vlidx` as a scalar write. -/
theorem vectorLoopsRunTheirBody : Obligations.VectorLoopsRunTheirBody := by
  unfold Obligations.VectorLoopsRunTheirBody
  intro s a d n hp t first
  refine ⟨fun ht hi => ⟨fun h0 => ?none, fun hpos hlt => ?body⟩, fun h => raises_of_exec (exec_vloop_illegal hp h), fun ht hd => ?index⟩
  case none =>
    have hzero : s.cur.getS a = 0 := BitVec.eq_of_toNat_eq h0
    rw [exec_vloop hp ht hi (h0.trans_lt (by decide)), if_pos hzero]
  case body =>
    have hne : s.cur.getS a ≠ 0 := fun h => hpos.ne' (congrArg BitVec.toNat h)
    refine ⟨_, (exec_vloop hp ht hi hlt).trans (congrArg _ (if_neg hne)), ?_⟩
    have hcur := pastA_seqFrom s.cur n (s.cur.getS a).toNat
    exact ⟨congrArg Unit.pc hcur, congrArg Unit.npc hcur, congrArg Unit.aslot hcur, (congrArg Unit.seq hcur).trans (leaveGang_seq _),
      (congrArg Unit.regs hcur).trans (leaveGang_regs _), (congrArg Unit.v hcur).trans (leaveGang_v _), rfl, rfl⟩
  case index =>
    have hx : exec (.vlidx d) s = execVlidx d s := rfl
    rw [hx, execVlidx, writeSV_quiet ⟨hp, ht⟩ hd]

end

