-- ==== Sys2Proof/Proofs/TileMoves.lean ====
section
/-! Moves between vector registers and tiles: what `tget` and `tput` do with room in WCNT and without; O34 settled (R295 to R297). -/

namespace Sys2Proof.Machine

/-! ### A move and its queue (R296, R297) -/

section
variable {s : State} {y : BitVec 2} {m : TileMove}

theorem tileMove_room (h : s.cur.wcnt < 16) : s.tileMove y m =
    .next ((s.setCurCore (s.curCore.pushTile y.toNat (.move m))).afterC fun u => { u with wcnt := u.wcnt + 1 }) := if_neg (Nat.not_le.2 h)

section
variable (h : 16 ≤ s.cur.wcnt)
include h

theorem tileMove_full (hd : s.moveDeadlock = false) : s.tileMove y m = .next s.waitTurn := by
  rw [State.tileMove, if_pos h, hd, if_neg Bool.false_ne_true, State.wait]

theorem tileMove_stuck (hd : s.moveDeadlock = true) : s.tileMove y m =
    if s.cur.allReady then .next (s.enterTrap (s.bundleTrap .selfDeadlock)) else .next s.waitTurn := by
  rw [State.tileMove, if_pos h, if_pos hd, State.raiseStuck, State.wait]

end

end

/-! ### The two instructions (R295, R296) -/

section
variable {s : State} {w : VReg} {a : SReg} {y : BitVec 2} {i : Instr} {get : Bool}
variable (hi : (i, get) ∈ [(Instr.tget w a y, true), (.tput w a y, false)]) (hp : tsrPp s.cur.tsr = false)
include hi hp

theorem exec_tileMove (hx : (s.cur.getS a).toNat < 2 ^ 9) (ht : s.touches [.v w.toNat, s.cur.keyS a] = false)
    (hw : s.cur.namedV w = false) : exec i s = s.tileMove y (s.moveOf get (s.cur.getS a) w) := by
  have hok : (bits (s.cur.getS a) 63 9 == 0) = true := by rw [bits_eq_zero_of_lt hx, beq_self_eq_true]
  simp only [List.mem_cons, List.not_mem_nil, or_false, Prod.mk.injEq] at hi
  obtain ⟨rfl, rfl⟩ | ⟨rfl, rfl⟩ := hi
  · have he : exec (.tget w a y) s = execTget w a y s := rfl
    rw [he, execTget, issue_clear s _ _ hp (by simp) hok ht rfl hw]
  · have he : exec (.tput w a y) s = execTput w a y s := rfl
    rw [he, execTput, issue_clear s _ _ hp (by simp) hok ht rfl rfl]

theorem exec_tileMove_illegal (hx : 2 ^ 9 ≤ (s.cur.getS a).toNat) : exec i s = s.raise (s.bundleTrap .illegalOperand) := by
  have hok : (bits (s.cur.getS a) 63 9 == 0) = false := by
    have hlt := (s.cur.getS a).isLt
    have hne : bits (s.cur.getS a) 63 9 ≠ 0 := by
      unfold bits
      omega
    exact beq_eq_false_iff_ne.2 hne
  simp only [List.mem_cons, List.not_mem_nil, or_false, Prod.mk.injEq] at hi
  obtain ⟨rfl, rfl⟩ | ⟨rfl, rfl⟩ := hi
  · have he : exec (.tget w a y) s = execTget w a y s := rfl
    rw [he, execTget, issue_operand s _ _ hp (by simp) hok]
  · have he : exec (.tput w a y) s = execTput w a y s := rfl
    rw [he, execTput, issue_operand s _ _ hp (by simp) hok]

end

end Sys2Proof.Machine

open Sys2Proof Sys2Proof.Machine

/-- Settles O34: both instructions hand their move to the queue of its tile, which takes it while WCNT is below 16. -/
theorem tileMovesEnterTheQueueOfTheirTile : Obligations.TileMovesEnterTheQueueOfTheirTile := by
  unfold Obligations.TileMovesEnterTheQueueOfTheirTile
  intro s w a y x i get hi hp move
  refine ⟨fun hx => raises_of_exec (exec_tileMove_illegal hi hp hx), fun hx ht hw => ?_⟩
  have hmove := exec_tileMove hi hp hx ht hw
  exact ⟨fun h => hmove.trans (tileMove_room h), fun h hd => hmove.trans (tileMove_full h hd), fun h hd => hmove.trans (tileMove_stuck h hd)⟩

end

