-- ==== Sys2Proof/Proofs/ReturningAtomics.lean ====
section
/-! Returning atomics: the values of their operations, their one access and the bank of the aperture; O18 and O19 settled (R329 to R331,
R346). -/

namespace Sys2Proof.Machine

/-! ### The operations on integers (R329) -/

/-- An integer type of an atomic, with its bits. -/
def AType.HasBits (t : AType) (n : Nat) : Prop := t ≠ .f32 ∧ 8 * typeBytes t = n ∧ 0 < n

theorem hasBits_of_mem {t : AType} {n : Nat} (h : (t, n) ∈ [(AType.w, 32), (.d, 64)]) : AType.HasBits t n := by
  simp only [List.mem_cons, List.not_mem_nil, or_false, Prod.mk.injEq] at h
  obtain ⟨rfl, rfl⟩ | ⟨rfl, rfl⟩ := h
  all_goals exact ⟨by decide, rfl, by decide⟩

/-- What each operation writes, as bit vectors of the operand's width; of the compare and swap, what it writes where it swaps. -/
def AtomOp.value {n : Nat} (o v : BitVec n) : AtomOp → BitVec n
  | .swap => v
  | .cas => v
  | .add => o + v
  | .and => o &&& v
  | .or => o ||| v
  | .xor => o ^^^ v
  | .max => if o.toInt ≤ v.toInt then v else o
  | .min => if v.toInt ≤ o.toInt then v else o
  | .maxu => if o.toNat ≤ v.toNat then v else o
  | .minu => if v.toNat ≤ o.toNat then v else o

theorem intValue_ofNat {w : Nat} (hw : 0 < w) (x : Nat) : intValue w true x = (BitVec.ofNat w x).toInt := by
  rw [← intValue_toNat hw, BitVec.toNat_ofNat]
  simp only [intValue, Nat.mod_mod]

section
variable {w : Nat} {o v : BitVec w}

/-- A choice by a strict comparison is that by a weak one: what compares alike is the same. -/
theorem toNat_greater : (if o.toInt < v.toInt then v.toNat else o.toNat) = (if o.toInt ≤ v.toInt then v else o).toNat := by
  obtain h | h | h := lt_trichotomy o.toInt v.toInt
  · simp [h, h.le]
  · simp [BitVec.eq_of_toInt_eq h]
  · simp [h.not_gt, h.not_ge]

theorem toNat_lesser : (if v.toInt < o.toInt then v.toNat else o.toNat) = (if v.toInt ≤ o.toInt then v else o).toNat := by
  obtain h | h | h := lt_trichotomy v.toInt o.toInt
  · simp [h, h.le]
  · simp [BitVec.eq_of_toInt_eq h]
  · simp [h.not_gt, h.not_ge]

end

section
variable {t : AType} {n : Nat} (ht : AType.HasBits t n) (y cmp : Nat)
include ht

theorem apply_cas (old : Nat) :
    AtomOp.cas.apply t old y cmp = if old = cmp % 2 ^ n then some (BitVec.ofNat n y).toNat else none := by
  obtain ⟨-, rfl, -⟩ := ht
  rw [BitVec.toNat_ofNat]
  rfl

theorem apply_value (o : BitVec n) {op : AtomOp} (hop : op ≠ .cas) :
    op.apply t o.toNat y cmp = some (AtomOp.value o (BitVec.ofNat n y) op).toNat := by
  obtain ⟨hf, rfl, hpos⟩ := ht
  have hint : (t == AType.f32) = false := beq_eq_false_iff_ne.2 hf
  have hv : y % 2 ^ (8 * typeBytes t) = (BitVec.ofNat (8 * typeBytes t) y).toNat := (BitVec.toNat_ofNat ..).symm
  have hadd := BitVec.toNat_add o (BitVec.ofNat _ y)
  rw [← hv, Nat.add_mod_mod] at hadd
  cases op with
  | cas => exact absurd rfl hop
  | swap => exact congrArg some hv
  | and => exact congrArg (fun z => some (o.toNat &&& z)) hv
  | or => exact congrArg (fun z => some (o.toNat ||| z)) hv
  | xor => exact congrArg (fun z => some (o.toNat ^^^ z)) hv
  | add =>
    simp only [AtomOp.apply, hint, Bool.false_eq_true, if_false, hv]
    exact congrArg some hadd.symm
  | max =>
    simp only [AtomOp.apply, hint, Bool.false_eq_true, if_false, hv, intValue_toNat hpos, intValue_ofNat hpos y]
    exact congrArg some toNat_greater
  | min =>
    simp only [AtomOp.apply, hint, Bool.false_eq_true, if_false, hv, intValue_toNat hpos, intValue_ofNat hpos y]
    exact congrArg some toNat_lesser
  | maxu =>
    simp only [AtomOp.apply, hv, AtomOp.value, apply_ite BitVec.toNat]
    exact congrArg some (Nat.max_def ..)
  | minu =>
    simp only [AtomOp.apply, hv, AtomOp.value, apply_ite BitVec.toNat]
    exact congrArg some ((Nat.min_comm ..).trans (Nat.min_def ..))

end

/-- The compare and swap of a register pair. -/
theorem apply_casPair (old : Nat) (y cmp : BitVec 128) :
    AtomOp.cas.apply .q old y.toNat cmp.toNat = if old = cmp.toNat then some y.toNat else none := by
  simp only [AtomOp.apply, typeBytes, Nat.reduceMul, BitVec.toNat_mod_cancel]

/-! ### The access (R330) -/

section
variable {t : State} {n : Nat} {ea : Word} {ty : AType}

/-- An access to the aperture that nothing holds back is one indivisible access at the bank. -/
theorem access_bank (op : AtomOp) (y cmp : BitVec 128) (hap : t.cur.inAperture ea = true) (hz : t.apertureWaits ea = false)
    (ho : t.cur.orderedBefore n = false) (hw : t.cur.wordBefore n ea (typeBytes ty) = false)
    (hl : t.lockedAgainst (t.paOf (t.cur.loftAddr ea)) (typeBytes ty) = false) :
    t.access n op ty ea y cmp =
      .ok (t.homeAtomic (t.paOf (t.cur.loftAddr ea)) (typeBytes ty) fun old => op.apply ty old y.toNat cmp.toNat).1
        (t.homeAtomic (t.paOf (t.cur.loftAddr ea)) (typeBytes ty) fun old => op.apply ty old y.toNat cmp.toNat).2 := by
  unfold State.access
  simp only [ho, hw, hap, hz, hl, Bool.or_self, Bool.false_eq_true, if_false, if_true]

variable {op : AtomOp} {la : BitVec 4} {d : SReg} {y cmp : BitVec 128} {lone : Bool} {v : State}

theorem atomicAct_ok {old : Nat} (h : t.access t.ids op ty ea y cmp = .ok v old) : t.atomicAct op ty la d ea y cmp lone =
    .next ((v.openWindow la (t.cur.atomicDests ty d) (some (atomicValues ty old)) (.atomic op ty ea y cmp)).afterC id lone) := by
  unfold State.atomicAct
  rw [h]
  rfl

theorem atomicAct_wait (h : t.access t.ids op ty ea y cmp = .wait v) : t.atomicAct op ty la d ea y cmp lone =
    .next ((v.openWindow la (t.cur.atomicDests ty d) none (.atomic op ty ea y cmp)).afterC id lone) := by
  unfold State.atomicAct
  rw [h]
  rfl

theorem atomicAct_atHub (h : t.access t.ids op ty ea y cmp = .atHub v) : t.atomicAct op ty la d ea y cmp lone =
    .next ((v.openWindow la (t.cur.atomicDests ty d) none (.far ea (typeBytes ty))).afterC id lone) := by
  unfold State.atomicAct
  rw [h]
  rfl

end

/-! ### Types of one register (R330) -/

section
variable {ty : AType} (hty : ty ≠ .q)
include hty

theorem typeBytes_single : typeBytes ty = if ty = .d then 8 else 4 := by
  cases ty with
  | w => rfl
  | d => rfl
  | f32 => rfl
  | q => exact absurd rfl hty

theorem atomicDests_single (u : Unit) (d : SReg) : u.atomicDests ty d = u.destS d := by
  cases ty with
  | w => rfl
  | d => rfl
  | f32 => rfl
  | q => exact absurd rfl hty

theorem atomicValues_single (old : Nat) : atomicValues ty old = [sval (word old)] := by
  cases ty with
  | w => rfl
  | d => rfl
  | f32 => rfl
  | q => exact absurd rfl hty

theorem pair_single (u : Unit) (r : SReg) : u.pair ty r = (u.getS r).zeroExtend 128 := by
  cases ty with
  | w => rfl
  | d => rfl
  | f32 => rfl
  | q => exact absurd rfl hty

theorem atomicY_single (u : Unit) (b : RegLit) : u.atomicY ty b = (u.operand b).zeroExtend 128 := by
  cases b with
  | reg r => exact pair_single hty u r
  | lit x => rfl

theorem pairsOk_single (d : SReg) (b : RegLit) : pairsOk ty d b = true := by
  cases b with
  | reg r => simp [pairsOk, hty]
  | lit x => rfl

end

theorem atomicDests_pair (u : Unit) (d : SReg) : u.atomicDests .q d = [u.keyS d, u.keyS (d + 1)] := rfl

theorem atomicValues_pair (old : Nat) : atomicValues .q old = [sval (word old), sval (word (old / 2 ^ 64))] := rfl

/-! ### The instructions (R329, R330) -/

section
variable {s t : State} {la : BitVec 4} {d a : SReg} {op : AtomOp}

/-- An atomic of one register acts in the state in which its commit has ended. -/
theorem atomic_commits {b : RegLit} {ty : AType} (hty : ty ≠ .q) (hq : s.Quiet (s.cur.keyS d :: s.cur.keyS a :: s.cur.operandKeys b))
    (hd : s.cur.namedS d = false) (hr : s.Reaches (s.cur.getS a) (typeBytes ty) (typeBytes ty))
    (hc : s.CommitsTo (.atomic op ty la d (s.cur.getS a) ((s.cur.operand b).zeroExtend 128) ((s.cur.getS d).zeroExtend 128)) (regLit b) t) :
    s.atomic op la d a b ty = t.atomicAct op ty la d (s.cur.getS a) ((s.cur.operand b).zeroExtend 128) ((s.cur.getS d).zeroExtend 128)
      (regLit b) := by
  have htwo : (ty == AType.q) = false := beq_eq_false_iff_ne.2 hty
  unfold State.atomic
  simp only [htwo, Bool.false_eq_true, if_false, List.append_nil, Bool.false_and, Bool.or_false, atomicY_single hty, pair_single hty,
    pairsOk_single hty]
  exact (issue_clear s _ _ hq.1 (by simp) rfl hq.2 (addrChecks_reaches hr) hd).trans (withCommit_ended hc _)

/-- `acas.q` on even pairs acts in the state in which its commit has ended. -/
theorem acas_pair_commits {b : SReg} (hde : d.toNat % 2 = 0) (hbe : b.toNat % 2 = 0) (hq : s.Quiet (s.cur.keysS [d, d + 1, a, b, b + 1]))
    (hd : s.cur.namedS d = false) (hd1 : s.cur.namedS (d + 1) = false) (hr : s.Reaches (s.cur.getS a) 16 16)
    {y cmp : BitVec 128} (hy : s.cur.getS (b + 1) ++ s.cur.getS b = y) (hcmp : s.cur.getS (d + 1) ++ s.cur.getS d = cmp)
    (hc : s.CommitsTo (.atomic .cas .q la d (s.cur.getS a) y cmp) false t) :
    exec (.acas la d a (.reg b) .q) s = t.atomicAct .cas .q la d (s.cur.getS a) y cmp false := by
  have hx : exec (.acas la d a (.reg b) .q) s = s.atomic .cas la d a (.reg b) .q := rfl
  have hok : pairsOk .q d (.reg b) = true := by
    have hdl := d.isLt
    have hbl := b.isLt
    simp only [pairsOk, hde, hbe]
    simp
    omega
  have hkeys : s.touches ([s.cur.keyS d, s.cur.keyS a, s.cur.keyS b] ++ [s.cur.keyS (d + 1), s.cur.keyS (b + 1)]) = false :=
    touches_sub hq.2 (by simp [Unit.keysS])
  have hlive : (s.cur.namedS d || (true && s.cur.namedS (d + 1))) = false := by rw [hd, hd1]; rfl
  subst hy hcmp
  rw [hx, State.atomic]
  exact (issue_clear s _ _ hq.1 (by simp) hok hkeys (addrChecks_reaches hr) hlive).trans (withCommit_ended hc _)

/-- It is one access of 16 bytes at the bank of an aperture address. -/
theorem acas_pair_bank {b : SReg} (hde : d.toNat % 2 = 0) (hbe : b.toNat % 2 = 0) (hq : s.Quiet (s.cur.keysS [d, d + 1, a, b, b + 1]))
    (hd : s.cur.namedS d = false) (hd1 : s.cur.namedS (d + 1) = false) (hr : s.Reaches (s.cur.getS a) 16 16)
    {y cmp : BitVec 128} (hy : s.cur.getS (b + 1) ++ s.cur.getS b = y) (hcmp : s.cur.getS (d + 1) ++ s.cur.getS d = cmp)
    (hc : s.CommitsTo (.atomic .cas .q la d (s.cur.getS a) y cmp) false t) (hap : t.cur.inAperture (s.cur.getS a) = true)
    (hz : t.apertureWaits (s.cur.getS a) = false) (ho : t.cur.orderedBefore t.ids = false)
    (hw : t.cur.wordBefore t.ids (s.cur.getS a) 16 = false) (hl : t.lockedAgainst (t.paOf (t.cur.loftAddr (s.cur.getS a))) 16 = false) :
    let r := t.homeAtomic (t.paOf (t.cur.loftAddr (s.cur.getS a))) 16 fun old => if old = cmp.toNat then some y.toNat else none
    exec (.acas la d a (.reg b) .q) s = .next ((r.1.openWindow la [t.cur.keyS d, t.cur.keyS (d + 1)]
      (some [sval (word r.2), sval (word (r.2 / 2 ^ 64))]) (.atomic .cas .q (s.cur.getS a) y cmp)).afterC id) := by
  have haccess := access_bank (ty := .q) .cas y cmp hap hz ho hw hl
  simp only [apply_casPair, typeBytes] at haccess
  rw [acas_pair_commits hde hbe hq hd hd1 hr hy hcmp hc, atomicAct_ok haccess, atomicDests_pair, atomicValues_pair]

theorem acas_odd {b : SReg} (hp : tsrPp s.cur.tsr = false) (h : d.toNat % 2 = 1 ∨ b.toNat % 2 = 1) :
    exec (.acas la d a (.reg b) .q) s = s.raise (s.bundleTrap .illegalOperand) := by
  have hx : exec (.acas la d a (.reg b) .q) s = s.atomic .cas la d a (.reg b) .q := rfl
  have hok : pairsOk .q d (.reg b) = false := by
    obtain h | h := h <;> simp [pairsOk, h]
  rw [hx, State.atomic, issue_operand s _ _ hp (by simp) hok]

end

end Sys2Proof.Machine

open Sys2Proof Sys2Proof.Machine

/-- Settles O18: the ten atomics share one meaning, which commits and then accesses once; an access to the aperture is one at the bank. -/
theorem atomicsReturnTheOldValue : Obligations.AtomicsReturnTheOldValue := by
  unfold Obligations.AtomicsReturnTheOldValue
  intro s t la d a b ty i op hi ea lone keysB n y cmp c hty hq hd hr hc
  have hx : exec i s = s.atomic op la d a b ty := by
    simp only [List.mem_cons, List.not_mem_nil, or_false, Prod.mk.injEq] at hi
    obtain ⟨rfl, rfl⟩ | ⟨rfl, rfl⟩ | ⟨rfl, rfl⟩ | ⟨rfl, rfl⟩ | ⟨rfl, rfl⟩ | ⟨rfl, rfl⟩ | ⟨rfl, rfl⟩ | ⟨rfl, rfl⟩ | ⟨rfl, rfl⟩ |
      ⟨rfl, rfl⟩ := hi
    all_goals rfl
  have hn : typeBytes ty = n := typeBytes_single hty
  have hact : exec i s = t.atomicAct op ty la d ea y cmp lone :=
    hx.trans (atomic_commits hty hq hd (hn.symm ▸ hr) hc)
  have hdests := atomicDests_single hty t.cur d
  have hdone : ∀ v old, t.access t.ids op ty ea y cmp = .ok v old →
      exec i s = .next ((v.openWindow la (t.cur.destS d) (some [sval (word old)]) (.atomic op ty ea y cmp)).afterC id lone) := by
    intro v old h
    rw [hact, atomicAct_ok h, hdests, atomicValues_single hty]
  refine ⟨hdone, fun v h => ?waits, fun v h => ?atHub, ?bank⟩
  case waits => rw [hact, atomicAct_wait h, hdests]
  case atHub => rw [hact, atomicAct_atHub h, hdests, hn]
  case bank =>
    intro hap hz ho hw pa hl r
    have haccess := access_bank op y cmp hap hz ho (hn.symm ▸ hw) (hn.symm ▸ hl)
    rw [hn] at haccess
    exact ⟨haccess, hdone _ _ haccess⟩

/-- Settles O19: each operation is that of the table on bit vectors of the operand's width, and `acas.q` is one access at the bank. -/
theorem atomicOperationsAndPairAtomics : Obligations.AtomicOperationsAndPairAtomics := by
  unfold Obligations.AtomicOperationsAndPairAtomics
  refine ⟨?table, fun s t la d a b => ⟨fun hp h => ?odd, ?even⟩⟩
  case table =>
    intro old y cmp ty n hty hold o v op r hr
    have ht := hasBits_of_mem hty
    have ho : o.toNat = old := by rw [BitVec.toNat_ofNat, Nat.mod_eq_of_lt hold]
    have hvalue : op ≠ .cas ∧ r = AtomOp.value o v op := by
      rw [← ho] at hr
      simp only [List.mem_cons, List.not_mem_nil, or_false, Prod.mk.injEq] at hr
      obtain ⟨rfl, rfl⟩ | ⟨rfl, rfl⟩ | ⟨rfl, rfl⟩ | ⟨rfl, rfl⟩ | ⟨rfl, rfl⟩ | ⟨rfl, rfl⟩ | ⟨rfl, rfl⟩ | ⟨rfl, rfl⟩ | ⟨rfl, rfl⟩ := hr
      all_goals exact ⟨nofun, rfl⟩
    obtain ⟨hop, rfl⟩ := hvalue
    exact ⟨ho ▸ apply_value ht y cmp o hop, apply_cas ht y cmp old⟩
  case odd => exact raises_of_exec (acas_odd hp h)
  case even =>
    intro hde hbe hq hd hd1 hr hc hap hz ho hw hl r
    exact acas_pair_bank hde hbe hq hd hd1 hr rfl rfl hc hap hz ho hw hl

end

