-- ==== Sys2Proof/Proofs/ScAnnouncements.lean ====
section
/-! Sequentially consistent operations to the aperture: their announcement in the order of the module, the news that other modules get, and
the destination that waits; O20 settled (R334, R335). -/

namespace Sys2Proof.Machine

/-! ### News for the other modules (R335, R423) -/

/-- The packets that tell the other modules of the route table of an operation; of one of device scope there are none. -/
def State.newsTo (s : State) (n : ScNews) (a : ScAnn) : List (Nat × PktType × Packet) :=
  if a.scope = .device then []
  else ((s.hub (hubOfDie a.loc.die)).routes.filter fun e => e.2.getLsbD 63 && e.1 != s.modid.toNat).map fun e =>
    (hubOfDie a.loc.die, .sc, { dst := e.1, src := s.modid.toNat, sdie := a.loc.die, lseq := 0, exp := 0, addr := 0, data := newsData n a })

theorem tellSc_eq (s : State) (n : ScNews) (a : ScAnn) : s.tellSc n a = { s with outbox := s.outbox ++ s.newsTo n a } := by
  unfold State.tellSc State.newsTo
  split
  · rw [List.append_nil]
  · simp only [List.map_map, Function.comp_def]

/-- The news of an operation do not say where its home is. -/
theorem newsTo_known (s : State) (n : ScNews) (a : ScAnn) (pa : Nat) (home : Option Nat) :
    s.newsTo n { a with pa, known := true, home } = s.newsTo n a := rfl

/-! ### The order of announced operations (R335) -/

section
variable {l : List ScAnn} {a : ScAnn} (hn : ∀ x ∈ l, x.pend ≠ a.pend)
include hn

/-- An operation of another number than those announced is none of them. -/
theorem announced_new : (l.any fun x => x.asker == .unit && x.pend == a.pend) = false := by
  rw [List.any_eq_false]
  intro x hx
  simp [hn x hx]

variable (ha : a.asker = .unit)
include ha

theorem announced_find_last : ((l ++ [a]).find? fun x => x.asker == .unit && x.pend == a.pend) = some a := by
  have hnone : (l.find? fun x => x.asker == .unit && x.pend == a.pend) = none := by
    rw [List.find?_eq_none]
    intro x hx
    simp [hn x hx]
  rw [List.find?_append, hnone, Option.none_or]
  simp [ha]

/-- A change of the operation announced last leaves those of other numbers alone. -/
theorem announced_map_last (f : ScAnn → ScAnn) :
    ((l ++ [a]).map fun x => if x.asker = .unit ∧ x.pend = a.pend then f x else x) = l ++ [f a] := by
  have hkeep : (l.map fun x => if x.asker = .unit ∧ x.pend = a.pend then f x else x) = l.map id :=
    List.map_congr_left fun x hx => if_neg fun h => hn x hx h.2
  rw [List.map_append, hkeep, List.map_id, List.map_singleton, if_pos ⟨ha, rfl⟩]

end

/-- The order with an operation at its end, and packets on their way. -/
def State.withNews (t : State) (a : ScAnn) (l : List (Nat × PktType × Packet)) : State :=
  { t with announced := t.announced ++ [a], outbox := t.outbox ++ l }

section
variable {t : State} {a : ScAnn} (hn : ∀ x ∈ t.announced, x.pend ≠ a.pend)
include hn

theorem scPut_new : t.scPut a = t.withNews a (t.newsTo .announced a) := by
  unfold State.scPut
  rw [announced_new hn, if_neg Bool.false_ne_true, tellSc_eq]
  rfl

variable (ha : a.asker = .unit) (l : List (Nat × PktType × Packet))
include ha

/-- The operation announced last, with a home that was not known. -/
theorem scHome_new (h0 : a.home = none) (home : Nat) : (t.withNews a l).scHome a.pend home =
    t.withNews { a with home := some home, known := false } (l ++ t.newsTo (.home home) a) := by
  unfold State.scHome State.withNews
  simp only [announced_find_last hn ha, h0]
  rw [if_neg nofun, tellSc_eq]
  simp only [State.scMod, announced_map_last hn ha, List.append_assoc]
  rfl

theorem scMod_new (f : ScAnn → ScAnn) : (t.withNews a l).scMod a.pend f = t.withNews (f a) l := by
  unfold State.scMod State.withNews
  simp only [announced_map_last hn ha]

end

/-! ### An operation to the aperture (R335) -/

/-- The operation as it stands in the order once it is announced and its address is known. -/
def scEntry (t : State) (op : ScOp) (m : ScScope) (z : ScSize) (ea y cmp : Word) : ScAnn :=
  { scAnnOf t t.ids op m z ea y cmp t.time t.cur.loc with pa := t.paOf (t.cur.loftAddr ea), known := true, home := some t.modid.toNat }

section
variable {t : State} {op : ScOp} {m : ScScope} {z : ScSize} {ea y cmp : Word} (hn : ∀ x ∈ t.announced, x.pend ≠ t.ids)
  (hap : t.cur.inAperture ea = true) (hz : t.apertureWaits ea = false)
include hn hap hz

theorem announce_aperture : t.announce t.ids op m z ea y cmp t.time =
    .atHub (t.withNews (scEntry t op m z ea y cmp) (t.newsTo .announced (scEntry t op m z ea y cmp) ++
      t.newsTo (.home t.modid.toNat) (scEntry t op m z ea y cmp))) := by
  let a := scAnnOf t t.ids op m z ea y cmp t.time t.cur.loc
  have hput : t.scPut a = t.withNews a (t.newsTo .announced a) := scPut_new hn
  have hhome : (t.withNews a (t.newsTo .announced a)).scHome t.ids t.modid.toNat = _ := scHome_new hn rfl _ rfl t.modid.toNat
  have hwait : (t.withNews a (t.newsTo .announced a)).apertureWaits ea = false := hz
  have hmod : State.scMod (t.withNews { a with home := some t.modid.toNat, known := false } _) t.ids _ = _ :=
    scMod_new hn rfl (t.newsTo .announced a ++ t.newsTo (.home t.modid.toNat) a) fun a =>
      { a with pa := t.paOf (t.cur.loftAddr ea), known := true }
  have hx : t.announce t.ids op m z ea y cmp t.time = .atHub (((t.withNews a (t.newsTo .announced a)).scHome t.ids t.modid.toNat).scMod
      t.ids fun a => { a with pa := t.paOf (t.cur.loftAddr ea), known := true }) := by
    unfold State.announce
    simp only [hap, if_true]
    rw [show t.scPut _ = _ from hput, hwait, if_neg Bool.false_ne_true]
    rfl
  have hnews : ∀ n, t.newsTo n a = t.newsTo n (scEntry t op m z ea y cmp) := fun n =>
    (newsTo_known t n a (t.paOf (t.cur.loftAddr ea)) (some t.modid.toNat)).symm
  rw [hx, hhome, hmod, hnews, hnews]
  rfl

theorem scAct_aperture (la : BitVec 4) (d : SReg) (lone : Bool) : t.scAct op m z la d ea y cmp lone =
    .next (((t.withNews (scEntry t op m z ea y cmp) (t.newsTo .announced (scEntry t op m z ea y cmp) ++
      t.newsTo (.home t.modid.toNat) (scEntry t op m z ea y cmp))).openWindow la (if op = .st then [] else t.cur.destS d) none
        (.far ea (scBytes z))).afterC id lone) := by
  unfold State.scAct
  rw [announce_aperture hn hap hz]
  rfl

end

/-! ### The instructions (R334) -/

section
variable {s t : State} {op : ScOp} {la : BitVec 4} {d a : SReg} {b : RegLit} {m : ScScope} {z : ScSize}

theorem scOp_commits (hq : s.Quiet (s.cur.keyS d :: s.cur.keyS a :: s.cur.operandKeys b)) (hd : s.cur.namedS d = false)
    (hr : s.Reaches (s.cur.getS a) (scBytes z) (scBytes z))
    (hc : s.CommitsTo (.sc op m z la d (s.cur.getS a) (s.cur.operand b) (s.cur.getS d)) (regLit b) t) :
    s.scOp op la d a b m z = t.scAct op m z la d (s.cur.getS a) (s.cur.operand b) (s.cur.getS d) (regLit b) := by
  unfold State.scOp
  exact (issue_clear s _ _ hq.1 (by simp) rfl hq.2 (addrChecks_reaches hr) hd).trans (withCommit_ended hc _)

end

end Sys2Proof.Machine

open Sys2Proof Sys2Proof.Machine

/-- Settles O20: the five operations share one meaning, whose announcement to the aperture is the last one of the order. -/
theorem sequentiallyConsistentOperationsAreAnnounced : Obligations.SequentiallyConsistentOperationsAreAnnounced := by
  unfold Obligations.SequentiallyConsistentOperationsAreAnnounced
  intro s t la d a b m z ea n win delay keysB loneB i op l r y lone hi hq hd hr hc hap hz hn w entry hub told sent
  have hbytes : scBytes z = n := by cases z <;> rfl
  have hx : ∃ b' : RegLit, exec i s = s.scOp op l r a b' m z ∧ s.cur.operand b' = y ∧ regLit b' = lone ∧
      s.Quiet (s.cur.keyS r :: s.cur.keyS a :: s.cur.operandKeys b') := by
    have hkeys : s.cur.operandKeys b = keysB := by cases b <;> rfl
    have hlone : regLit b = loneB := by cases b <;> rfl
    have hqb : s.Quiet (s.cur.keyS d :: s.cur.keyS a :: s.cur.operandKeys b) :=
      quiet_sub hq fun k hk => List.mem_cons_of_mem _ (hkeys ▸ hk)
    have hq0 : s.Quiet (s.cur.keyS 0 :: s.cur.keyS a :: s.cur.operandKeys b) :=
      quiet_sub hq (List.cons_subset_cons _ (hkeys ▸ List.subset_cons_self _ _))
    have hqz : s.Quiet (s.cur.keyS d :: s.cur.keyS a :: s.cur.operandKeys (.reg 0)) := quiet_sub hq (by simp [Unit.operandKeys])
    simp only [List.mem_cons, List.not_mem_nil, or_false, Prod.mk.injEq] at hi
    obtain ⟨rfl, rfl, rfl, rfl, rfl, rfl⟩ | ⟨rfl, rfl, rfl, rfl, rfl, rfl⟩ | ⟨rfl, rfl, rfl, rfl, rfl, rfl⟩ |
      ⟨rfl, rfl, rfl, rfl, rfl, rfl⟩ | ⟨rfl, rfl, rfl, rfl, rfl, rfl⟩ := hi
    · exact ⟨.reg 0, rfl, rfl, rfl, hqz⟩
    · exact ⟨b, rfl, rfl, hlone, hq0⟩
    · exact ⟨b, rfl, rfl, hlone, hqb⟩
    · exact ⟨b, rfl, rfl, hlone, hqb⟩
    · exact ⟨b, rfl, rfl, hlone, hqb⟩
  obtain ⟨b', hx, rfl, rfl, hq'⟩ := hx
  have hentry : scEntry t op m z ea (s.cur.operand b') (s.cur.getS r) = entry := by
    cases m <;> rfl
  rw [hx, scOp_commits hq' hd (hbytes.symm ▸ hr) hc, scAct_aperture hn hap hz, hbytes, hentry]
  simp only [State.withNews, ← List.append_assoc]
  rfl

end

