-- ==== Sys2Proof/Proofs/KickWords.lean ====
section
/-! KICK words: commands on queues and jobs, the handover of a region case by case, and the writes of registers; O51 settled (R356, R367, R374,
R382, R383, R416, R418). -/

namespace Sys2Proof.Machine

/-! ### Words and refusals (R374, R418) -/

theorem kickWord_queue (cmd q arg : Nat) : kickWord cmd q arg = word (cmd * 2 ^ 56 + q * 2 ^ 50 + arg) := rfl

theorem kickWord_noQueue (cmd arg : Nat) : kickWord cmd 0 arg = word (cmd * 2 ^ 56 + arg) := by
  rw [kickWord, Nat.zero_mul, Nat.add_zero]

/-- A command on a queue of the other hub. -/
theorem onQueue_other {s : State} {hub cmd arg : Nat} {q : BitVec 6} (h : hubOfQueue q.toNat ≠ hub) (k : State → State) :
    s.onQueue hub cmd q arg k = execKickRefused hub (kickWord cmd q.toNat arg) s := if_neg h

/-! ### Handover (R356) -/

theorem drainsFirst_iff {state to' : Nat} : drainsFirst state to' = true ↔ state = 1 ∨ (state = 2 ∧ to' = 0) := by
  simp [drainsFirst]

section
variable {s : State} {hub cmd to' : Nat} {arg : BitVec 32} (harg : arg.toNat < 2 ^ 18)
include harg

/-- The fields of a handover word. -/
theorem handover_fields : bits arg 31 18 = 0 ∧ bits arg 5 0 = arg.toNat % 64 ∧ bits arg 17 6 = arg.toNat / 64 := by
  unfold bits
  omega

/-- A region that is in the state already. -/
theorem handover_same (h : ((s.hub hub).region (arg.toNat % 64)).state = to') : s.handoverTo hub cmd to' arg =
    .next ((s.modRegion hub (arg.toNat % 64) fun r => { r with cstat := 2 }).advance (arg.toNat / 64) (some (statWord 0 6 0))) := by
  obtain ⟨h0, hn, hc⟩ := handover_fields harg
  simp only [State.handoverTo, h0, hn, hc, h, ne_eq, not_true_eq_false, if_false, if_true]

variable (h : ((s.hub hub).region (arg.toNat % 64)).state ≠ to')
include h

/-- A region whose accesses drain keeps its word first in KICK. -/
theorem handover_waits (hdrain : drainsFirst ((s.hub hub).region (arg.toNat % 64)).state to' = true)
    (hbusy : s.regionBusy hub (arg.toNat % 64) = true) : s.handoverTo hub cmd to' arg =
      .next { s.modRegion hub (arg.toNat % 64) fun r => { r with cstat := 1 } with kicks := (hub, word (cmd * 2 ^ 56 + arg.toNat)) :: s.kicks } := by
  obtain ⟨h0, hn, hc⟩ := handover_fields harg
  simp only [State.handoverTo, h0, hn, hc, h, hdrain, hbusy, ne_eq, not_true_eq_false, if_false, Bool.and_self, if_true, kickWord_noQueue]

/-- A region that nothing holds up takes the state. -/
theorem handover_done (hdrained : drainsFirst ((s.hub hub).region (arg.toNat % 64)).state to' = true → s.regionBusy hub (arg.toNat % 64) = false) :
    s.handoverTo hub cmd to' arg = .next ((State.modRegion (if ((s.hub hub).region (arg.toNat % 64)).state = 2 then s
      else s.dropRegion hub (arg.toNat % 64)) hub (arg.toNat % 64) fun r => { r with state := to', cstat := 0 }).advance (arg.toNat / 64) none) := by
  obtain ⟨h0, hn, hc⟩ := handover_fields harg
  have hfree : (drainsFirst ((s.hub hub).region (arg.toNat % 64)).state to' && s.regionBusy hub (arg.toNat % 64)) = false := by
    cases hd : drainsFirst ((s.hub hub).region (arg.toNat % 64)).state to' with
    | false => rfl
    | true => rw [hdrained hd, Bool.and_false]
  simp only [State.handoverTo, h0, hn, hc, h, hfree, ne_eq, not_true_eq_false, if_false, Bool.false_eq_true]

end

/-! ### Jobs (R367) -/

theorem execEndjob_eq {s : State} {hub : Nat} {arg : BitVec 32} (harg : arg.toNat < 4096) (he : s.ended.contains arg.toNat = false) :
    execEndjob hub arg s = .next ((State.cancelJob { s with ended := s.ended ++ [arg.toNat] } arg.toNat).settleJob arg.toNat) := by
  simp only [execEndjob, Nat.not_le.2 harg, he, if_false, Bool.false_eq_true]

end Sys2Proof.Machine

open Sys2Proof Sys2Proof.Machine

/-- Settles O51: commands by the hub of their queue, handovers by the state of their region, register writes by the stage of boot. -/
theorem kicksActOnQueuesJobsAndRegions : Obligations.KicksActOnQueuesJobsAndRegions := by
  unfold Obligations.KicksActOnQueuesJobsAndRegions
  intro s hub q arg w off k t kerr
  refine ⟨fun h => ⟨if_pos h, if_pos h, if_pos h⟩, fun h => ⟨?submit, ?unfreeze, ?cancel⟩, execEndjob_eq,
    fun i to' cmd hi harg => ?handover, fun h => if_neg (not_not_intro h), fun h => if_pos h, rfl⟩
  case submit =>
    have hx : exec (.submit hub q arg) s = execSubmit hub q arg s := rfl
    rw [hx, execSubmit, onQueue_other h, kickWord_queue, Nat.one_mul]
    rfl
  case unfreeze =>
    have hx : exec (.unfreeze hub q) s = execUnfreeze hub q s := rfl
    rw [hx, execUnfreeze, onQueue_other h, kickWord_queue, Nat.add_zero]
    rfl
  case cancel =>
    have hx : exec (.cancel hub q) s = execCancel hub q s := rfl
    rw [hx, execCancel, onQueue_other h, kickWord_queue, Nat.add_zero]
    rfl
  case handover =>
    intro n c r drains
    have hx : exec i s = s.handoverTo hub cmd to' arg := by
      simp only [List.mem_cons, List.not_mem_nil, or_false, Prod.mk.injEq] at hi
      obtain ⟨rfl, rfl, rfl⟩ | ⟨rfl, rfl, rfl⟩ | ⟨rfl, rfl, rfl⟩ := hi
      all_goals rfl
    exact ⟨fun h => hx.trans (handover_same harg h), fun h hd => hx.trans (handover_done harg h fun hdrain => hd (drainsFirst_iff.1 hdrain)),
      fun h hdrain hbusy => hx.trans (handover_waits harg h (drainsFirst_iff.2 hdrain) hbusy)⟩

end

