-- ==== Sys2Proof/Proofs/ReplayNodes.lean ====
section
/-! The nodes of a running replay, each by its TYPE; O53 settled (R385, R386, R445). -/

namespace Sys2Proof.Machine

/-! ### Nodes that act (R445) -/

section
variable {s : State} {id i : Nat} {r : Replay} {n : Node} (hr : s.replay? id = some r) (hn : r.node? i = some n)
  (hready : r.ready i s.time = true)
include hr hn hready

/-- A ready node whose fields a PATCH has left refused. -/
theorem onNode_refused (h : nodeRefused r.nodes i n = true) (typ : Nat) (again : Node → Bool) (k : Replay → Node → State) :
    s.onNode id i typ again k = .next (s.nodeFails id i 0) := by
  simp [State.onNode, hr, hn, hready, h]

/-- A ready node of the TYPE acts. -/
theorem onNode_ready (h : nodeRefused r.nodes i n = false) (again : Node → Bool) (k : Replay → Node → State) :
    s.onNode id i n.typ again k = .next (k r n) := by
  simp [State.onNode, hr, hn, hready, h]

end

/-- A read for a node that succeeds. -/
theorem nodeRead_ok {s t : State} {r : Replay} {i va n : Nat} {ws : List Word}
    (h : s.cpRead r.hub (itemOf r.id i) r.job (engWords va n) = .ok ws t) (k : State → List Word → State) : s.nodeRead r i va n k = k t ws := by
  unfold State.nodeRead
  rw [h]

end Sys2Proof.Machine

open Sys2Proof Sys2Proof.Machine

/-- Settles O53: a ready node acts by its TYPE where its fields are legal, and fails otherwise. -/
theorem nodesOfAReplayAct : Obligations.NodesOfAReplayAct := by
  unfold Obligations.NodesOfAReplayAct
  intro s id i r n hr hn hready
  refine ⟨fun h x hx => ?refused, fun h => ?acts⟩
  case refused =>
    have hfails := onNode_refused hr hn hready h
    simp only [List.mem_cons, List.not_mem_nil, or_false] at hx
    obtain rfl | rfl | rfl | rfl | rfl | rfl | rfl := hx
    all_goals exact hfails _ _ _
  case acts =>
    have hact : ∀ {typ : Nat} (again : Node → Bool) (k : Replay → Node → State), n.typ = typ → s.onNode id i typ again k = .next (k r n) := by
      rintro _ again k rfl
      exact onNode_ready hr hn hready h again k
    refine ⟨fun ht => hact _ _ ht, fun ht => ?wait, fun ht hs => ?copy, fun w t ht hread => ?cond, fun ht hb hdw h0 => ?loopAtOnce,
      fun w t ht hb hdw hread => ?loop, fun ws t ht hread => ?patch, fun hw t ht => ?launch⟩
    case wait =>
      intro w
      have hx : exec (.nodeWait id i) s = _ := hact _ _ ht
      refine ⟨fun hc => hx.trans (congrArg _ (if_pos hc)), fun hlt he => hx.trans (congrArg _ (if_neg ?_))⟩
      exact not_or.2 ⟨Nat.not_le.2 hlt, fun ht => Bool.false_ne_true (he.symm.trans ht)⟩
    case copy =>
      have hx : exec (.nodeCopy id i) s = _ := hact _ _ ht
      exact hx.trans (congrArg _ (if_neg hs))
    case cond =>
      have hx : exec (.nodeCond id i) s = _ := hact _ _ ht
      exact hx.trans (congrArg _ (nodeRead_ok hread _))
    case loopAtOnce =>
      have hx : exec (.nodeLoop id i) s = _ := hact _ _ ht
      exact hx.trans (congrArg _ ((if_neg (by simp [hb])).trans (if_pos (by simp [hdw, h0]))))
    case loop =>
      have hx : exec (.nodeLoop id i) s = _ := hact _ _ ht
      exact hx.trans (congrArg _ ((if_neg (by simp [hb])).trans ((if_neg (by simp [hdw])).trans (nodeRead_ok hread _))))
    case patch =>
      have hx : exec (.nodePatch id i) s = _ := hact _ _ ht
      exact hx.trans (congrArg _ (nodeRead_ok hread _))
    case launch =>
      intro ws hdep hbad hread hhead
      have hx : exec (.nodeLaunch id i) s = _ := hact _ _ ht
      refine hx.trans (congrArg _ ((if_neg (by simp [ws, hdep])).trans ((if_neg (by simp [ws, hbad])).trans ?_)))
      rw [hread]
      exact if_neg (by simp [ws, hhead])

end

