-- ==== Sys2Proof/Proofs/RecordsAndLaunches.lean ====
section
/-! Records on their way to the head of a queue and through service, the placement of launches, their end and their watchdog; O52 settled (R353,
R374 to R377, R382, R387, R404, R445). -/

namespace Sys2Proof.Machine

/-! ### Capture (R387, R445) -/

section
variable {ws : List Word} (q : Nat) (x : RecAt)

/-- Replay and phase records are captured, and no others. -/
theorem captureRead_isSome : (captureRead q x ws).isSome = true ↔ ringRecKind ws = 3 ∨ ringRecKind ws = 4 := by
  unfold captureRead
  by_cases h3 : ringRecKind ws = 3
  · simp [h3]
  · by_cases h4 : ringRecKind ws = 4
    · simp [h4]
    · simp [h3, h4]

theorem captureAt_other (s : State) (h3 : ringRecKind ws ≠ 3) (h4 : ringRecKind ws ≠ 4) : s.captureAt q x ws = s := by
  have hnone : captureRead q x ws = none := by
    unfold captureRead
    rw [if_neg h3, if_neg h4]
  unfold State.captureAt
  simp only [hnone]

end

/-! ### Records that reach the head of a queue (R374, R375) -/

section
variable {s : State} {q : Nat} (hr : (s.queue q).record = none) (hc : (s.queue q).cancelTo.toNat ≤ (s.queue q).head.toNat)
  (hs : (s.queue q).state = 1)
include hr hc hs

section
variable {p : Pushed} {rest : List Pushed} (hp : (s.queue q).pushed = p :: rest) (hl : p.cancelled = false)
  (hm : p.mark ≤ (s.queue q).head.toNat)
include hp hl hm

theorem ringRecordRead_pushed (h : ringRecKind p.words ≠ 3 ∧ ringRecKind p.words ≠ 4 ∨ p.captured ≠ none) :
    exec (.ringRecordRead q) s = .next (s.setQueue q
      { s.queue q with record := some p.words, captured := p.captured, ringRecord := false, pushed := rest }) := by
  have hready : ((captureRead q .head p.words).isSome && p.captured.isNone) = false := by
    obtain ⟨h3, h4⟩ | h := h
    · rw [Bool.eq_false_iff.2 fun hcap => ((captureRead_isSome q .head).1 hcap).elim h3 h4, Bool.false_and]
    · rw [Option.isNone_eq_false_iff.2 (Option.ne_none_iff_isSome.1 h), Bool.and_false]
  have hx : exec (.ringRecordRead q) s = execRingRecordRead q s := rfl
  rw [hx]
  simp only [execRingRecordRead, hr, Nat.not_lt.2 hc, hs, hp, hl, hm, hready, Option.isSome_none, Bool.false_eq_true, if_false, ne_eq,
    not_true_eq_false, if_true]

theorem ringRecordRead_uncaptured (h : ringRecKind p.words = 3 ∨ ringRecKind p.words = 4) (hn : p.captured = none) :
    exec (.ringRecordRead q) s = .next s := by
  have hwaits : ((captureRead q .head p.words).isSome && p.captured.isNone) = true := by
    rw [(captureRead_isSome q .head).2 h, hn]
    rfl
  have hx : exec (.ringRecordRead q) s = execRingRecordRead q s := rfl
  rw [hx]
  simp only [execRingRecordRead, hr, Nat.not_lt.2 hc, hs, hp, hl, hm, hwaits, Option.isSome_none, Bool.false_eq_true, if_false, ne_eq,
    not_true_eq_false, if_true]

end

/-- The ring record at HEAD is captured as it is read. -/
theorem ringRecordRead_ring (hp : (s.queue q).pushed = []) (hk : (s.queue q).head.toNat < (s.queue q).kicked.toNat) {ws : List Word}
    {t : State} (hread : s.cpRead (hubOfQueue q) q (s.queue q).job (ringRecord (s.queue q)) = .ok ws t) :
    exec (.ringRecordRead q) s = .next ((t.setQueue q { t.queue q with
      record := some ws, captured := none, graph := none, ringRecord := true, head := (s.queue q).head + 1 }).captureAt q .head ws) := by
  have hx : exec (.ringRecordRead q) s = execRingRecordRead q s := rfl
  rw [hx]
  simp only [execRingRecordRead, execRingRecordRead.ring, hr, Nat.not_lt.2 hc, hs, hp, hk, hread, Option.isSome_none, Bool.false_eq_true,
    if_false, ne_eq, not_true_eq_false, if_true]

end

/-- A unit with one complete record joins it to the queue of its launch. -/
theorem q11Record_one {s : State} {l : Loc} {u : Unit} {j : Nat} (hu : (s.units.find? fun u => u.loc == l && u.hasRecord) = some u)
    (h8 : u.q11.length = 8) (hj : (s.launch? u.launch).bind s.ownQueue = some j) :
    exec (.q11Record l) s = .next (State.joinQueue
      (s.modUnits (fun v => v.is u.loc u.launch) fun v => { v with q11 := v.q11.drop 8 }) j (u.q11.take 8)) := by
  have hx : exec (.q11Record l) s = execQ11Record l s := rfl
  have hne : u.q11.isEmpty = false := by
    rw [List.isEmpty_eq_false_iff, ← List.length_pos_iff, h8]
    decide
  have hjoin : s.joinUnit u = State.joinQueue
      (s.modUnits (fun v => v.is u.loc u.launch) fun v => { v with q11 := v.q11.drop 8 }) j (u.q11.take 8) := by
    simp [State.joinUnit, hj, h8, chunksOf, hne]
  rw [hx]
  simp only [execQ11Record, hu, hjoin]

/-! ### Service (R376) -/

/-- The hub with the turn of a priority kept. -/
def State.keepTurn (s : State) (hub : Nat) (e : Entry) (turn c : Nat) : State :=
  s.setHub hub { s.hub hub with turns := Sparse.put (s.hub hub).turns e.prio (turn, c) }

section
variable {s : State} {hub : Nat} {e : Entry} {turn c : Nat} (h : s.arbitrateQueues hub = some (e, turn, c))
include h

theorem recordServe_resumes {m : BitVec 32} (he : e.resume = some m) :
    let t := s.keepTurn hub e turn c
    exec (.recordServe hub) s = .next (t.setQueue e.queue { t.queue e.queue with
      resuming := (t.queue e.queue).resuming ++ [m], resumeSince := (t.queue e.queue).resumeSince.filter fun y => y.1 ≠ m }) := by
  have hx : exec (.recordServe hub) s = execRecordServe hub s := rfl
  rw [hx]
  simp only [execRecordServe, h, he]
  rfl

variable (he : e.resume = none) {ws : List Word} (hr : ((s.keepTurn hub e turn c).queue e.queue).record = some ws)
include he hr

theorem recordServe_launches (hcap : ((s.keepTurn hub e turn c).queue e.queue).captured = none) :
    exec (.recordServe hub) s = .next ((s.keepTurn hub e turn c).serveLaunch hub e.queue e.prio ws) := by
  unfold State.keepTurn at *
  have hx : exec (.recordServe hub) s = execRecordServe hub s := rfl
  rw [hx]
  simp only [execRecordServe, h, he, hr, hcap]

theorem recordServe_graphs {y : Captured} (hcap : ((s.keepTurn hub e turn c).queue e.queue).captured = some y) :
    exec (.recordServe hub) s = .next ((s.keepTurn hub e turn c).serveGraph hub e.queue (ringRecKind ws) ws y) := by
  unfold State.keepTurn at *
  have hx : exec (.recordServe hub) s = execRecordServe hub s := rfl
  rw [hx]
  simp only [execRecordServe, h, he, hr, hcap]

end

/-! ### Replays and phases (R387, R445) -/

section
variable {s : State} {hub : Nat}

theorem graphReplay_captures {j : Nat × RecAt × List Word × Bool} (h : s.captureQueue hub 3 = some j) :
    exec (.graphReplay hub) s = .next (s.capture hub j) := by
  have hx : exec (.graphReplay hub) s = execGraphReplay hub s := rfl
  rw [hx]
  simp only [execGraphReplay, h]

theorem graphReplay_starts {g : GraphRec} (h : s.captureQueue hub 3 = none)
    (hg : ((s.hub hub).graphs.find? fun g => s.mayReplay hub g) = some g) :
    exec (.graphReplay hub) s = .next (s.startReplay hub g) := by
  have hx : exec (.graphReplay hub) s = execGraphReplay hub s := rfl
  rw [hx]
  simp only [execGraphReplay, h, hg]

theorem phaseRecord_captures {j : Nat × RecAt × List Word × Bool} (h : s.captureQueue hub 4 = some j) :
    exec (.phaseRecord hub) s = .next (s.capture hub j) := by
  have hx : exec (.phaseRecord hub) s = execPhaseRecord hub s := rfl
  rw [hx]
  simp only [execPhaseRecord, h]

end

/-! ### Launches (R353, R377, R382, R404) -/

/-- The table without a launch. -/
def State.dropLaunch (s : State) (n : BitVec 32) : State := { s with launches := s.launches.filter fun y => y.num ≠ n }

/-- The status word that a launch leaves in its counter where it has failed. -/
def Launch.errWord (x : Launch) (n : BitVec 32) : Option Word := x.failure.map fun f => statWord f.2.1 f.1 n

section
variable {s : State}

theorem unitPlace_places {t : State} (h : s.placeFirst s.waitingLaunches = some t) : exec .unitPlace s = .next t := by
  have hx : exec .unitPlace s = execUnitPlace s := rfl
  rw [hx]
  simp only [execUnitPlace, h]

/-- Where none can be placed, slots are chosen to be taken, one choice at a time. -/
theorem unitPlace_preempts (h : s.placeFirst s.waitingLaunches = none) : exec .unitPlace s =
    .next (if (s.units.any fun u => u.taken && !u.away) = true then s else (s.preemptFirst s.waitingLaunches).getD s) := by
  have hx : exec .unitPlace s = execUnitPlace s := rfl
  rw [hx]
  simp only [execUnitPlace, h, apply_ite Host.Outcome.next]

variable {n : BitVec 32} {x : Launch} (hx : s.launch? n = some x)
include hx

theorem launchComplete_queue (hb : s.launchBusy x = false) {j : Nat} (hn : x.node = none) (hj : x.queue = some j) :
    let t := s.dropLaunch n
    exec (.launchComplete n) s = .next (State.endTop
      (t.setQueue j { t.queue j with running := (t.queue j).running.filter (· ≠ n) }) j x.job x.counter (x.errWord n)) := by
  have he : exec (.launchComplete n) s = execLaunchComplete n s := rfl
  rw [he]
  simp only [execLaunchComplete, hx, hb, hn, hj, Bool.false_eq_true, if_false]
  rfl

theorem launchComplete_node (hb : s.launchBusy x = false) {id node : Nat} (hn : x.node = some (id, node)) :
    exec (.launchComplete n) s =
      .next (State.endNode ((s.dropLaunch n).endItem x.job x.counter (x.errWord n)) id node (x.errWord n)) := by
  have he : exec (.launchComplete n) s = execLaunchComplete n s := rfl
  rw [he]
  simp only [execLaunchComplete, hx, hb, hn, Bool.false_eq_true, if_false]
  rfl

theorem watchdog_cancels (hw : s.wdt ≠ 0) (hc : s.counts n = true)
    (ht : 1000 * s.wdt.toNat ≤ s.time.toNat - x.progress.toNat) : exec (.watchdog n) s = .next (s.cancelLaunch n 4) := by
  have he : exec (.watchdog n) s = execWatchdog n s := rfl
  rw [he]
  simp only [execWatchdog, hx]
  exact if_pos ⟨hw, hc, ht⟩

end

end Sys2Proof.Machine

open Sys2Proof Sys2Proof.Machine

/-- Settles O52: each event is one operation, whose branch is named by the state of the queue, the entry or the launch. -/
theorem recordsAndLaunchesGoTheirWay : Obligations.RecordsAndLaunchesGoTheirWay := by
  unfold Obligations.RecordsAndLaunchesGoTheirWay
  intro s q hub l n k ls chosen
  refine ⟨fun p rest hr hc hs hp hl hm => ⟨ringRecordRead_pushed hr hc hs hp hl hm, ringRecordRead_uncaptured hr hc hs hp hl hm⟩,
    fun ws t hr hc hs hp hk hread => ⟨ringRecordRead_ring hr hc hs hp hk hread, fun h3 h4 => captureAt_other q .head _ h3 h4⟩,
    fun u j hu h8 hj => q11Record_one hu h8 hj,
    fun e turn c h => ⟨fun m he => recordServe_resumes h he, fun ws he hr hcap => recordServe_launches h he hr hcap,
      fun ws y he hr hcap => recordServe_graphs h he hr hcap⟩,
    rfl, fun j h => graphReplay_captures h, fun g hn hg => graphReplay_starts hn hg, fun j h => phaseRecord_captures h,
    fun t h => unitPlace_places h, fun h => unitPlace_preempts h,
    fun x hx hb => ⟨fun j hn hj => launchComplete_queue hx hb hn hj, fun id node hn => launchComplete_node hx hb hn⟩,
    fun x hx hw hc ht => watchdog_cancels hx hw hc ht⟩

end

