-- ==== Sys2Proof/Proofs/BootAndCare.lean ====
section
/-! Boot, discovery, attestation, worlds and care: what each of their events does, the bytes that leave the secure world, and the performs in the
order sco; O60 settled (R9, R335, R431 to R435, R437, R438, R440 to R442). -/

namespace Sys2Proof.Sparse

/-- A read of a table from which the keys outside `p` have been removed. -/
theorem get_filter {α : Type} [DecidableEq α] (d : α) (p : Nat → Bool) (a : Nat) : ∀ (l : List (Nat × α)) (lo : Nat),
    wfFrom d lo l = true → get d (l.filter fun c => p c.1) a = if p a then get d l a else d := by
  intro l
  induction l with
  | nil => intro lo _; simp [get]
  | cons e r ih =>
    obtain ⟨k, x⟩ := e
    intro lo h
    simp only [wfFrom, Bool.and_eq_true, decide_eq_true_eq] at h
    obtain ⟨-, hr⟩ := h
    have hrest := ih (k + 1) hr
    obtain hlt | rfl | hgt := lt_trichotomy a k
    · have hbelow := get_below d r (k + 1) a hr (by omega)
      cases hk : p k <;> simp [get, hk, hrest, hbelow, hlt, hlt.ne]
    · have hbelow := get_below d r (a + 1) a hr (by omega)
      cases hk : p a <;> simp [get, hk, hrest]
    · cases hk : p k <;> simp [get, hk, hrest, hgt.not_gt, hgt.ne']

end Sys2Proof.Sparse

namespace Sys2Proof.Machine

/-! ### The region table (R435, R437) -/

/-- A byte that leaves the secure world reads zero, every other one as before. -/
theorem byte_setRegions {s : State} (h : Memory.wf s.mem = true) (new : List (Nat × Word × Word)) (a : Nat) :
    (s.setRegions new).byte a = if secureAt s.secureRegions a && !secureAt new a then 0 else s.byte a := by
  have hget := Sparse.get_filter 0 (fun a => !(secureAt s.secureRegions a && !secureAt new a)) a s.mem 0 h
  refine hget.trans ?_
  cases (secureAt s.secureRegions a && !secureAt new a) <;> rfl

/-! ### Discovery (R431, R432) -/

theorem discoverSend_eq (s : State) (die : Nat) : ∃ t, exec (.discoverSend die) s = .next t ∧
    t.dieOut = s.dieOut ++ (List.range (portsOf die)).map (fun p =>
      (5, 0, { sdie := die, ddie := 0, addr := 0, tag := p, exp := 0, data := discoverData (declares die p) })) ∧ t.mem = s.mem :=
  ⟨_, rfl, rfl, rfl⟩

theorem discoverTimeout_closes {s : State} {die port : Nat} (hp : (s.diePort die port).peer = none)
    (ht : s.releasedAt.toNat + 100000 ≤ s.time.toNat) : exec (.discoverTimeout die port) s = .next (State.settleBoot (State.setPeer
      (s.setDiePort die port { s.diePort die port with closed := true }) (declares die port) port 0xFF)) := by
  have hx : exec (.discoverTimeout die port) s = execDiscoverTimeout die port s := rfl
  have hgo : ((s.diePort die port).peer.isSome || decide (s.time.toNat < s.releasedAt.toNat + 100000)) = false := by
    rw [hp, decide_eq_false (Nat.not_lt.2 ht)]
    rfl
  rw [hx, execDiscoverTimeout]
  exact if_neg (by rw [hgo]; exact Bool.false_ne_true)

/-- A DISCOVER that the wiring rules out, or under the receiver's own number, is a contradiction. -/
theorem dieMgmtDiscover_contradicts {s : State} {die port : Nat} {x : Discover} (h : x.die = die ∨ s.mayPair die port x.die x.port = false ∨
    s.mayPair x.die x.port die port = false) : exec (.dieMgmtDiscover die port x) s = .next (State.settleBoot { s with mismatch := true }) := by
  have hx : exec (.dieMgmtDiscover die port x) s = execDieMgmtDiscover die port x s := rfl
  rw [hx, execDieMgmtDiscover]
  refine if_pos ?_
  obtain h | h | h := h <;> simp [h]

theorem dieMgmtDiscover_records {s : State} {die port : Nat} {x : Discover} (hdie : x.die ≠ die) (hnew : Sparse.find? s.topo x.die = none)
    (hnear : (s.diePort die port).peer = none) (hfar : (s.diePort x.die x.port).peer = none)
    (hpair : s.mayPair die port x.die x.port = true) (hback : s.mayPair x.die x.port die port = true) :
    exec (.dieMgmtDiscover die port x) s = .next (State.settleBoot (State.setPeer (State.setPeer
      (s.setDiePort die port { s.diePort die port with peer := some (x.die, x.port), closed := false }) (declares die port) port
        (x.die % 16 * 16 + x.port % 16)) x x.port (die % 16 * 16 + port % 16))) := by
  have hx : exec (.dieMgmtDiscover die port x) s = execDieMgmtDiscover die port x s := rfl
  rw [hx, execDieMgmtDiscover]
  exact if_neg (by simp [hdie, hnew, hnear, hfar, hpair, hback])

/-! ### Fuses (R440) -/

section
variable {s : State} (hub kind : Nat)

theorem rollbackFuseBlow_running (h : s.boot = .running) : exec (.rollbackFuseBlow hub kind) s =
    .next (match (Config.flash s.imageSlot).find? fun i => i.kind.toNat == kind with
      | some i => if i.asks then s.setHub hub { s.hub hub with
          fuses := Sparse.put (s.hub hub).fuses kind (max ((Sparse.find? (s.hub hub).fuses kind).getD 0) i.svn.toNat) } else s
      | none => s) := by
  have hx : exec (.rollbackFuseBlow hub kind) s = execRollbackFuseBlow hub kind s := rfl
  rw [hx, execRollbackFuseBlow]
  cases (Config.flash s.imageSlot).find? fun i => i.kind.toNat == kind with
  | none => rfl
  | some i => simp only [h, true_and, apply_ite Host.Outcome.next]

theorem rollbackFuseBlow_other (h : s.boot ≠ .running) : exec (.rollbackFuseBlow hub kind) s = .next s := by
  have hx : exec (.rollbackFuseBlow hub kind) s = execRollbackFuseBlow hub kind s := rfl
  rw [hx, execRollbackFuseBlow]
  cases (Config.flash s.imageSlot).find? fun i => i.kind.toNat == kind with
  | none => rfl
  | some i => exact if_neg fun hboth => h hboth.1

end

/-! ### Worlds of blocks (R434) -/

/-- The secure blocks once a block takes a world. -/
def worldListed (l : List Block) (b : Block) (secure : Bool) : List Block :=
  if secure then (if l.contains b then l else l ++ [b]) else l.filter (· ≠ b)

theorem mem_worldListed (l : List Block) (b : Block) (secure : Bool) : b ∈ worldListed l b secure ↔ secure = true := by
  cases secure with
  | false => simp [worldListed]
  | true => by_cases h : b ∈ l <;> simp [worldListed, h]

theorem mem_worldListed_other {l : List Block} {b z : Block} (secure : Bool) (hz : z ≠ b) : z ∈ worldListed l b secure ↔ z ∈ l := by
  cases secure with
  | false => simp [worldListed, hz]
  | true => by_cases h : b ∈ l <;> simp [worldListed, h, hz]

section
variable {s : State} {b : Block} {job : BitVec 12}

theorem blockWorldSet_busy (h : s.blockIdle b = false) : exec (.blockWorldSet b job) s = .next s := by
  have hx : exec (.blockWorldSet b job) s = execBlockWorldSet b job s := rfl
  rw [hx, execBlockWorldSet]
  exact if_pos (by simp [h])

/-- The world of a block that has no field of its own stands in the list. -/
theorem blockWorldSet_listed {die c port hub : Nat} (hb : b ∈ [Block.wain die c port, .hostLink hub, .lpddrCopy port])
    (h : s.blockIdle b = true) : exec (.blockWorldSet b job) s =
      .next { s with secureBlocks := worldListed s.secureBlocks b ((s.jobWord job.toNat 3).getLsbD 62) } := by
  have hx : exec (.blockWorldSet b job) s = execBlockWorldSet b job s := rfl
  simp only [List.mem_cons, List.not_mem_nil, or_false] at hb
  rw [hx, execBlockWorldSet]
  obtain rfl | rfl | rfl := hb
  all_goals exact if_neg (by simp [h])

end

/-! ### The performs in the order sco (R335) -/

theorem tellSc_time (s : State) (n : ScNews) (a : ScAnn) : (s.tellSc n a).time = s.time := by
  unfold State.tellSc
  split <;> rfl

/-- No time passes while operations leave the order. -/
theorem scClean_time (s : State) : s.scClean.time = s.time := by
  have hgo : ∀ (l : List ScAnn) (t : State), (l.foldl (fun t a => t.tellSc .ended a) t).time = t.time := by
    intro l
    induction l with
    | nil => exact fun _ => rfl
    | cons a l ih => exact fun t => (ih _).trans (tellSc_time t .ended a)
  exact hgo _ _

/-- The next operation is performed once its window allows and nothing holds it back. -/
theorem exec_scPerform {s : State} {a : ScAnn} (hnext : s.scClean.scNext = some a) (hk : a.known = true)
    (hr : a.ready ≤ s.time.toNat) (hb : s.scClean.scBlocked a = false)
    (hl : s.scClean.anyLock a.pa (scBytes a.z) = false) :
    exec .scPerform s = .next (s.scClean.scPerform a) := by
  have hx : exec .scPerform s = execScPerform s := rfl
  rw [hx]
  simp only [execScPerform, hnext, hk, hb, hl, scClean_time, Nat.not_lt.2 hr, decide_false, Bool.not_true, Bool.or_self, Bool.false_eq_true,
    if_false]

/-- An operation of a unit whose home is not the host window is one access there, and its old value goes to the unit. -/
theorem scPerform_unit {t : State} {a : ScAnn} (hu : a.asker = .unit) (hf : t.scRefused true a.op a.pa (scBytes a.z) = none)
    (hhost : ∀ h, regionOf (localOf a.pa) ≠ .host h) :
    let r := t.unfocus.homeAtomic a.pa (scBytes a.z) fun old => a.op.apply a.z old a.y.toNat a.cmp.toNat
    t.scPerform a = r.1.scAnswer a r.2 := by
  unfold State.scPerform
  simp only [hf]
  split
  · next h hop hreg => exact absurd hreg (hhost _)
  · simp only [hu, State.scReply]

end Sys2Proof.Machine

open Sys2Proof Sys2Proof.Machine

/-- Settles O60: each event by the stage of boot, the port, the block or the operation that it finds. -/
theorem bootWorldsAndCare : Obligations.BootWorldsAndCare := by
  unfold Obligations.BootWorldsAndCare
  intro s hub die port kind b nonce x e w0 w1 l
  refine ⟨fun h => if_neg (not_not_intro h), fun h => congrArg Host.Outcome.next (if_pos h), rollbackFuseBlow_running hub kind,
    rollbackFuseBlow_other hub kind, rfl, rfl, discoverSend_eq s die, discoverTimeout_closes,
    dieMgmtDiscover_contradicts, dieMgmtDiscover_records,
    ⟨_, rfl, rfl, rfl, rfl, fun h a => byte_setRegions h _ a⟩, fun c job => ?worlds, rfl, rfl, rfl, rfl, ⟨rfl, rfl⟩, fun a => ?performs⟩
  case worlds =>
    intro secure
    refine ⟨fun h => if_neg (by simp [h]), fun h => if_neg (by simp [h]), fun h => if_neg (by simp [h]), fun y hy h => ?listed,
      fun y h => blockWorldSet_busy h⟩
    exact ⟨_, blockWorldSet_listed hy h, mem_worldListed _ _ _, fun z hz => mem_worldListed_other _ hz⟩
  case performs =>
    intro t hnext hk hr hb hl
    have hx := exec_scPerform hnext hk hr hb hl
    exact ⟨hx, fun hu hf hhost => hx.trans (congrArg _ (scPerform_unit hu hf hhost))⟩

end
